-- ==== Sys2Proof/Word.lean ====
section
/-! DEFINITION. The word types and the sparse table type of the model, with the plainest arithmetic on them. -/

namespace Sys2Proof

/-- A byte as the manual stores it (R8). -/
abbrev Byte := BitVec 8

/-- A 64-bit word: a register of BAR0 (R410) or a hash lane (R460). -/
abbrev W64 := BitVec 64

/-- A sparse table: entries by rising key; a key that is not listed has no entry. -/
abbrev Tbl (α : Type) := List (Nat × α)

namespace Tbl

/-- The entry at key `k`. -/
def get? {α : Type} : Tbl α → Nat → Option α
  | [], _ => none
  | (k', v) :: t, k => if k' = k then some v else get? t k

/-- The entry at key `k`, or `d` where none is listed. -/
def getD {α : Type} (t : Tbl α) (k : Nat) (d : α) : α := (t.get? k).getD d

/-- Write the entry at key `k`, keeping the keys in rising order. -/
def set {α : Type} : Tbl α → Nat → α → Tbl α
  | [], k, v => [(k, v)]
  | (k', v') :: t, k, v =>
    if k < k' then (k, v) :: (k', v') :: t
    else if k = k' then (k, v) :: t
    else (k', v') :: set t k v

/-- Remove the entry at key `k`. -/
def erase {α : Type} (t : Tbl α) (k : Nat) : Tbl α := t.filter (fun p => p.1 ≠ k)

/-- Change the entry at key `k` where one is listed. -/
def modify {α : Type} (t : Tbl α) (k : Nat) (f : α → α) : Tbl α :=
  t.map (fun p => if p.1 = k then (p.1, f p.2) else p)

/-- Change the entry at key `k`, starting from `d` where none is listed. -/
def update {α : Type} (t : Tbl α) (k : Nat) (d : α) (f : α → α) : Tbl α := t.set k (f (t.getD k d))

/-- The entries without their keys. -/
def vals {α : Type} (t : Tbl α) : List α := t.map Prod.snd

/-- The lowest key below `n` (from `lo` up, `n` candidates) that has no entry. -/
def firstFree {α : Type} (t : Tbl α) : Nat → Nat → Option Nat
  | 0, _ => none
  | n + 1, lo => if (t.get? lo).isNone then some lo else firstFree t n (lo + 1)

end Tbl

/-- A sum that stops at `max` (the saturating counters of R149, R194, R220 and the rest). -/
def satAdd (max a b : Nat) : Nat := if a + b ≤ max then a + b else max

/-- Largest value of a 32-bit counter. -/
def max32 : Nat := 2 ^ 32 - 1

/-- Largest value of a 16-bit counter. -/
def max16 : Nat := 2 ^ 16 - 1

/-- Add one to a saturating 32-bit counter. -/
def inc32 (a : Nat) : Nat := satAdd max32 a 1

/-- Add one to a saturating 16-bit counter. -/
def inc16 (a : Nat) : Nat := satAdd max16 a 1

/-- The quotient rounded up. -/
def cdiv (a b : Nat) : Nat := (a + b - 1) / b

/-- Bits `[hi:lo]` of a number (R9). -/
def bits (x hi lo : Nat) : Nat := (x / 2 ^ lo) % 2 ^ (hi + 1 - lo)

/-- One bit of a number. -/
def bit (x i : Nat) : Bool := (x / 2 ^ i) % 2 = 1

/-- A truth value as a bit. -/
def b2n (b : Bool) : Nat := if b then 1 else 0

/-- Replace the element at index `i` of a list. -/
def listSet {α : Type} (l : List α) (i : Nat) (v : α) : List α := l.set i v

/-- Change the element at index `i` of a list. -/
def listMod {α : Type} (l : List α) (i : Nat) (f : α → α) : List α := l.modify i f

/-- The numbers of a bitmap's set bits below `n`, rising. -/
def bitsSet (x n : Nat) : List Nat := (List.range n).filter (fun i => bit x i)

/-- The bitmap of a list of bit numbers. -/
def bitmap (l : List Nat) : Nat := l.eraseDups.foldl (fun a i => a + 2 ^ i) 0

/-- Insert by a strict order, after the elements that are not above it. -/
def insertBy {α : Type} (lt : α → α → Bool) (x : α) : List α → List α
  | [] => [x]
  | y :: t => if lt x y then x :: y :: t else y :: insertBy lt x t

/-- Sort by a strict order; equal elements keep their order. -/
def sortBy {α : Type} (lt : α → α → Bool) : List α → List α
  | [] => []
  | x :: t => insertBefore lt x (sortBy lt t)
where
  insertBefore (lt : α → α → Bool) (x : α) : List α → List α
    | [] => [x]
    | y :: t => if lt y x then y :: insertBefore lt x t else x :: y :: t

/-- The `n` least significant bytes of a number, least significant first (R9). -/
def leBytes : Nat → Nat → List Byte
  | 0, _ => []
  | n + 1, x => BitVec.ofNat 8 x :: leBytes n (x / 256)

/-- The `n` least significant bytes of a number, most significant first (R9, on the wire). -/
def beBytes (n x : Nat) : List Byte := (leBytes n x).reverse

/-- The number whose bytes are given, least significant first. -/
def fromLe : List Byte → Nat
  | [] => 0
  | b :: t => b.toNat + 256 * fromLe t

/-- The number whose bytes are given, most significant first. -/
def fromBe (l : List Byte) : Nat := fromLe l.reverse

end Sys2Proof
end

