-- ==== Sys2Proof/Config.lean ====
section
/-! DEFINITION. What one implementation fixes and the values the manual leaves open. Every value here is opaque:
nothing can evaluate it, and a statement holds whatever it is. -/

namespace Sys2Proof

/-- A value the manual leaves open: `site` names the open point (the constants below), `n` is the counter
`State.free` at the moment it is taken and `k` tells apart several values taken in one step. -/
opaque Config.freeValue (site n k : Nat) : Nat

/-- Silicon stepping of TOP_ID (R421, reset value "Fused"). -/
opaque Config.stepping : BitVec 8

/-- Bits [15:0] of a hash of the destination QPN; the hash is not given (R247). -/
opaque Config.udpHash : Nat → Nat

/-- The CRC-16 of a flit over its header, given field by field, and its payload (R38); the polynomial is not given. -/
opaque Config.flitCrc (header : List Nat) (payload : List (BitVec 8)) : Nat

namespace Site

/-- Order of an unspecified summation (R90, R158). -/
def order : Nat := 1
/-- The exponential between integers, free within the bound of R76. (DESIGN CHOICE, log entry 10.) -/
def exp2 : Nat := 2
/-- Chain cuts of one row (R79, R91). -/
def cuts : Nat := 3
/-- The generated name-table key (R63). -/
def nameKey : Nat := 4
/-- A debug challenge from the random source (R401). -/
def challenge : Nat := 5
/-- A generated flash key (R400). -/
def flashKey : Nat := 6
/-- An ECDSA signature made by the identity key (R402, R403). -/
def signature : Nat := 7
/-- The certificate chain that Gwynhaot writes at manufacture (R392). -/
def certChain : Nat := 8
/-- Seeds of drive latency and rate at bring-up (R235). -/
def driveSeed : Nat := 10
/-- What one completion contributes to a drive's averages of latency and read rate (R235). -/
def driveSample : Nat := 19
/-- A starting PSN of a connection the node opens (R257). -/
def psn : Nat := 12
/-- The QPN that a new context receives (R248). -/
def qpn : Nat := 13
/-- `frame_gen` that a name-table entry takes when its place is reused for a name: the place, and so its last value, is not given (R61, R461). -/
def entryGen : Nat := 15
/-- The event code of a failed attempt to connect to a peer, which R424 does not list (R257). -/
def peerEvent : Nat := 16
/-- Whether the host rejects a write of a status word or a buffer (R419). -/
def hostReject : Nat := 9
/-- The event code that reports a slice left with no port, which R424 does not list (R356). -/
def unreachable : Nat := 17
/-- What decryption under a key other than the one that wrote an extent gives (R400). -/
def wrongKey : Nat := 18

end Site

end Sys2Proof
end

