-- ==== Sys2Proof/Syntax.lean ====
section
/-! DEFINITION. The commands of the block: one constructor of Instr per row of spec/opcode_table.json, with the row's
operands as the fields the manual gives them (the parameter blocks of R251, the packets of R247, the ring entries of
R413, the events of the pins, drives and islands). -/

namespace Sys2Proof

/-- A page name of R6: sequence handle (64), layer (12), position block (20), head group (8). -/
structure PageName where
  handle : Nat := 0
  layer : Nat := 0
  block : Nat := 0
  group : Nat := 0
deriving DecidableEq, Repr

/-- What every packet brings (R247, R248, R255, R275, R280, R286): destination QPN, source address, the port of arrival,
its PSN, the frame bytes charged, the CE mark of its IP header and whether its invariant CRC holds. -/
structure Pkt where
  qpn : Nat := 2
  src : Nat := 0
  port : Fin 8 := 0
  psn : Nat := 0
  bytes : Nat := 1126
  ce : Bool := false
  icrcOk : Bool := true
deriving DecidableEq, Repr

/-- The extended header of R250, with the packet it came in, the number of PSNs its message takes, whether any
reserved field of the header or of the parameter block is non-zero (R11), and whether `msg_len`, the packets and the parameter block
of R251 fit each other. -/
structure ExtHdr where
  pkt : Pkt := {}
  packets : Nat := 1
  gxLevel : Nat := 3
  mapGen : Nat := 0
  key : Nat := 0
  reqTag : Nat := 0
  msgLen : Nat := 0
  reserved : Bool := false
  fits : Bool := true
deriving DecidableEq, Repr

/-- The mask descriptor of R103: its header fields, its tail bytes and whether a reserved bit is set. -/
structure MaskDesc where
  maskType : Nat := 0
  perHead : Nat := 0
  causalAnd : Nat := 0
  rowsPerPos : Nat := 1
  granLog2 : Nat := 0
  qPos : Nat := 0
  param : Nat := 0
  tailBytes : Nat := 0
  tail : List Nat := []
  reserved : Bool := false
deriving DecidableEq, Repr

/-- The parameters of ATTEND_FWD (R72); query rows as raw encodings, row by row in ascending ρ. -/
structure FwdParams where
  handle : Nat := 0
  layer : Nat := 0
  group : Nat := 0
  posStart : Nat := 0
  posCount : Nat := 1
  rowsPerHead : Nat := 1
  queryFormat : Nat := 0
  scale : Nat := 0x3f800000
  tau : Nat := 8
  mode : Nat := 0
  delta : Nat := 24
  resultFormat : Nat := 0
  deadline : Nat := 0
  query : List (List Nat) := []
  mask : MaskDesc := {}
deriving DecidableEq, Repr

/-- One row of ATTEND_BWD row data (R151): q, dO, L and Δ as raw encodings. -/
structure BwdRow where
  q : List Nat := []
  dO : List Nat := []
  lse : Nat := 0
  delta : Nat := 0
deriving DecidableEq, Repr

/-- The parameters of ATTEND_BWD (R151). -/
structure BwdParams where
  handle : Nat := 0
  layer : Nat := 0
  group : Nat := 0
  posStart : Nat := 0
  posCount : Nat := 1
  accPass : Nat := 0
  contribTag : Nat := 0
  rowsPerHead : Nat := 0
  queryFormat : Nat := 0
  gradFormat : Nat := 0
  scale : Nat := 0
  resultFormat : Nat := 0
  rows : List BwdRow := []
  mask : Option MaskDesc := none
deriving DecidableEq, Repr

/-- The fields of LOOKUP (R184); a key is (key, key2), key2 used in a wide cascade only. -/
structure LookupParams where
  modelEpoch : Nat := 0
  keySource : Nat := 0
  nBlocks : Nat := 1
  takeRef : Nat := 0
  keys : List (Nat × Nat) := []
  tokens : List (List Nat) := []
  faulty : List Nat := []
deriving DecidableEq, Repr

/-- One page of a page-form PUBLISH (R214). -/
structure PagePub where
  index : Nat := 0
  fill : Nat := 0
  keyScale : Nat := 0
  valueScale : Nat := 0
deriving DecidableEq, Repr

/-- A page-form PUBLISH (R214). -/
structure PublishParams where
  leaseId : Nat := 0
  epoch : Nat := 0
  keepOpen : Nat := 0
  pageCount : Nat := 1
  pages : List PagePub := []
deriving DecidableEq, Repr

/-- One block of a prefix PUBLISH (R187). -/
structure PfxBlock where
  tokens : List Nat := []
  digest : Nat := 0
  key : Nat := 0
  key2 : Nat := 0
deriving DecidableEq, Repr

/-- A prefix-form PUBLISH with pfx_op 0 (R187). -/
structure PfxParams where
  modelEpoch : Nat := 0
  keySource : Nat := 0
  isPublic : Nat := 0
  level : Nat := 0
  source : Nat := 0
  epoch : Nat := 0
  layers : Nat := 0
  headGroups : Nat := 0
  firstBlock : Nat := 0
  nBlocks : Nat := 1
  parentKey : Nat := 0
  blocks : List PfxBlock := []
  faulty : List Nat := []
deriving DecidableEq, Repr

/-- A prefix-form PUBLISH with pfx_op 1, the release (R191). -/
structure PfxRelease where
  modelEpoch : Nat := 0
  isPublic : Nat := 0
  nBlocks : Nat := 1
  keys : List (Nat × Nat) := []
  faulty : List Nat := []
deriving DecidableEq, Repr

/-- A LEASE_ACQUIRE, acquire or renew (R210). -/
structure LeaseParams where
  laOp : Nat := 0
  handle : Nat := 0
  epoch : Nat := 0
  leaseId : Nat := 0
  layerFirst : Nat := 0
  layerCount : Nat := 0
  hgFirst : Nat := 0
  hgCount : Nat := 0
  blockFirst : Nat := 0
  blockCount : Nat := 0
  leaseMs : Nat := 1
  writeMode : Nat := 0
  copyOld : Nat := 0
  tornOk : Nat := 0
deriving DecidableEq, Repr

/-- A LEASE_RELEASE (R213). -/
structure ReleaseParams where
  leaseId : Nat := 0
  epoch : Nat := 0
  discard : Nat := 0
deriving DecidableEq, Repr

/-- A HANDOVER (R207). -/
structure HandoverParams where
  hvOp : Nat := 0
  handle : Nat := 0
  expectedEpoch : Nat := 0
  newOwner : Nat := 0
  requireIdle : Nat := 0
deriving DecidableEq, Repr

/-- A PIN or UNPIN (R244, R251). -/
structure PinParams where
  handle : Nat := 0
  hgFirst : Nat := 0
  hgCount : Nat := 0
  layerFirst : Nat := 0
  layerCount : Nat := 0
  blockFirst : Nat := 0
  blockCount : Nat := 0
  replicate : Nat := 0
deriving DecidableEq, Repr

/-- One signature of a certificate (R360): the key index it claims and the key whose private part made it over exactly
the signed bytes (a key is named by the SHA-512 of its SEC 1 form; 0: it verifies under no key). -/
structure CertSig where
  mgrIndex : Nat := 0
  signedBy : Nat := 0
deriving DecidableEq, Repr

/-- A quorum certificate (R360); `digest` is payload_digest and `digestOk` says that the payload hashes to it. -/
structure Cert where
  kind : Nat := 0
  target : Nat := 0
  anyNode : Bool := false
  reason : Nat := 0
  serial : Nat := 0
  digest : Nat := 0
  digestOk : Bool := true
  reserved : Bool := false
  sigs : List CertSig := []
deriving DecidableEq, Repr

/-- A routing map (R196): its default bucket entry (node ID, slice) and the entries that differ from it. -/
structure RouteMap where
  generation : Nat := 0
  routeKey : Nat := 0
  drainMs : Nat := 200
  base : Nat × Nat := (0, 0)
  buckets : Tbl (Nat × Nat) := []
deriving DecidableEq, Repr

/-- The parameters of KEY_CREATE (R414). -/
structure KeyParams where
  kind : Nat := 0
  stack : Nat := 0
  group : Nat := 0xfff
  rights : Nat := 0
  lenOrLo : Nat := 0
  handleHi : Nat := 0
  index : Nat := 0xffffffff
deriving DecidableEq, Repr

/-- An isolation entry (R255). -/
structure IsoEntry where
  pfx : Nat := 0
  prefixLen : Nat := 0
  cls : Nat := 0
  ridBase : Nat := 0
  group : Nat := 0
  slices : Nat := 0
  peerNode : Nat := 0
deriving DecidableEq, Repr

/-- A requester group entry (R285). -/
structure GroupCfg where
  gRate : Nat := 0
  gBurst : Nat := 0
  gQueue : Nat := 0
  gCritical : Nat := 0
deriving DecidableEq, Repr

/-- A key manifest (R396); keys by SHA-512, `signedBy` the key that made the owner signature. -/
structure Manifest where
  magic : Nat := 0x5a3e4b4d
  serial : Nat := 0
  cfgKeys : List Nat := []
  mgrKeys : List Nat := []
  threshold : Nat := 0
  reserved : Bool := false
  digest : Nat := 0
  signedBy : Nat := 0
deriving DecidableEq, Repr

/-- A firmware image (R393), its body's SHA-512 and the catalogue of microcode variants it carries (R339). -/
structure FwImage where
  magic : Nat := 0x5a3e4657
  archLevel : Nat := 3
  rootIndex : Nat := 0
  imgSvn : Nat := 0
  imgLen : Nat := 0
  imgVersion : Nat := 0
  imgDigest : Nat := 0
  signerPub : Nat := 0
  signedBy : Nat := 0
  reserved : Bool := false
  bodyDigest : Nat := 0
  catalogue : List (Nat × Nat) := [(0, 0), (1, 0), (2, 0)]
deriving DecidableEq, Repr

/-- The page-format record of a slice (R45). -/
structure PageFormat where
  tokensLog2 : Nat := 8
  headsPerGroup : Nat := 1
  headDim : Nat := 0
  keyFormat : Nat := 0
  valueFormat : Nat := 0
  latent : Nat := 0
  hullEnable : Nat := 0
  shadowEnable : Nat := 0
  layout : Nat := 0
deriving DecidableEq, Repr

/-- The tier policy of a slice (R221). -/
structure TierPolicy where
  stackLow : Nat := 5
  stackHigh : Nat := 10
  demoteMinAge : Nat := 100
  flashDrives : Nat := 0
  modelLayers : Nat := 0
  lookahead : Nat := 2
  keepBehind : Nat := 1
  deadlineMargin : Nat := 50
  shadowQuota : Nat := 0
  repCopies : Nat := 0
  repNodes : List Nat := [0, 0, 0]
  repMinRefs : Nat := 0
  repHost : Nat := 0
deriving DecidableEq, Repr

/-- The Locus parameters of a slice (R169); `tenant` and `publicPublish` per requester group. -/
structure LocusCfg where
  firstBlock : Nat := 0
  blocks : Nat := 0
  wide : Nat := 0
  key : Nat := 0
  keyB : Nat := 0
  modelEpochs : List Nat := []
  nodeQuota : Nat := 0
  ovfQuota : Nat := 0
  refTtl : Nat := 10000
  idleMax : Nat := 0
  tenant : Tbl Nat := []
  publicPublish : List Nat := []
deriving DecidableEq, Repr

/-- A latency-class record (R312). -/
structure ClassRec where
  valid : Nat := 0
  slice : Nat := 0
  guaranteed : Nat := 0
  pendingMax : Nat := 0
deriving DecidableEq, Repr

/-- The records of a SLICE section (R335 to R339). -/
structure SliceCfg where
  blocks : Nat := 0
  stackList : List Nat := []
  phaseMode : Nat := 0
  ports : Nat := 0
  flashKeySlot : Nat := 0
  wqSet : List Nat := []
  ctxDie : Nat := 0
  ctxLimit : Nat := 1
  format : PageFormat := {}
  tier : TierPolicy := {}
  locus : LocusCfg := {}
  entryQuota : Nat := 0
  accQuota : Nat := 0
  tombTtl : Nat := 3600
  extOutstanding : Nat := 32
  classes : Tbl ClassRec := []
  table : Tbl (List Nat) := []
  weights : Tbl (Tbl Nat) := []
  microcode : List Nat := [0, 0, 0]
deriving DecidableEq, Repr

/-- One port of the NODE section (R333). -/
structure PortCfg where
  plane : Nat := 0
  ipAddr : Nat := 0
  linkHold : Nat := 50
  lenOverhead : Nat := 20
  caps : List Nat := [5, 25, 60]
  dscp : List Nat := []
deriving DecidableEq, Repr

/-- The NODE section (R333). -/
structure NodeCfg where
  nodeId : Nat := 0
  portMode : Nat := 0
  ports : List PortCfg := []
deriving DecidableEq, Repr

/-- A body frame of a bit-stream (R329) as the checks of R340 see it. -/
structure BsFrame where
  index : Nat := 0
  secType : Nat := 0
  payloadLen : Nat := 1
  crcOk : Bool := true
  clean : Bool := true
deriving DecidableEq, Repr

/-- A directory entry of a bit-stream (R331). -/
structure BsDir where
  secType : Nat := 0
  firstFrame : Nat := 0
  secFrames : Nat := 0
  imageLen : Nat := 0
  clean : Bool := true
deriving DecidableEq, Repr

/-- A bit-stream as it is read from host memory (R326, R341): the bytes of its frames, those beyond the listed ones of a frame zero; the
key that made the signature over the header (R328); and whether body_digest is the SHA-512 of the frames as read. -/
structure BsImage where
  frames : List (List Byte) := []
  signedBy : Nat := 0
  digestOk : Bool := true
deriving DecidableEq, Repr

/-- What a bit-stream says: header fields (R327), directory, frames, and the records its sections hold (R333 to R339). The verdict
`digestOk` says that the frames as read hash to body_digest; `recordsOk` that record types, lengths, order and reserved
fields are as R335 to R339 ask. -/
structure Bitstream where
  magic : Nat := 0x5a3e3133
  archLevel : Nat := 3
  kind : Nat := 0
  targetSlice : Nat := 0
  frameCount : Nat := 2
  serial : Nat := 0
  baseSerial : Nat := 0
  bindIdentity : Nat := 0
  bodyDigest : Nat := 0
  signerId : Nat := 0
  signedBy : Nat := 0
  reserved : Bool := false
  dir : List BsDir := []
  frames : List BsFrame := []
  digestOk : Bool := true
  recordsOk : Bool := true
  node : NodeCfg := {}
  isolation : Tbl IsoEntry := []
  groups : Tbl GroupCfg := []
  classMap : Tbl Nat := []
  slices : Tbl SliceCfg := []
deriving DecidableEq, Repr

/-- One page of a bucket transfer (R202): the entry's word fields and the bytes of its frame in logical order. -/
structure PageImage where
  slice : Nat := 0
  name : PageName := {}
  pageState : Nat := 2
  fill : Nat := 0
  frameGen : Nat := 0
  keyScale : Nat := 0
  valueScale : Nat := 0
  hull : Option (List (Nat × Byte)) := none
  data : List (Nat × Byte) := []
  shadow : Option (List (Nat × Byte)) := none
deriving DecidableEq, Repr

/-- A sequence record (R206). -/
structure SeqRec where
  handle : Nat := 0
  slice : Nat := 0
  epoch : Nat := 0
  seqState : Nat := 0
  ownerTag : Nat := 0
  openLeases : Nat := 0
  lastHandover : Nat := 0
  lastRequester : Nat := 0
  tombUntil : Nat := 0
  pages : Nat := 0
  bucket : Nat := 0
deriving DecidableEq, Repr

/-- A prefix-tree node (R181); `addr` is its node memory address. -/
structure PfxNode where
  addr : Nat := 0
  key : Nat := 0
  parentKey : Nat := 0
  key2 : Nat := 0
  modelEpoch : Nat := 0
  source : Nat := 0
  digest : Nat := 0
  depth : Nat := 0
  tenant : Nat := 0
  valid : Bool := true
  isPublic : Bool := false
  wide : Bool := false
  slice : Nat := 0
  orphan : Bool := false
  level : Nat := 0
  hardRefs : Nat := 0
  childCount : Nat := 0
  softUntil : Nat := 0
  lastUse : Nat := 0
  nextSibling : Nat := 0
  headGroups : Nat := 0
  layers : Nat := 0
  tokens : List Nat := []
deriving DecidableEq, Repr

/-- The state of one moving bucket (R202), or of the names of one sender that moved into it (R462). -/
structure BucketState where
  slice : Nat := 0
  bucket : Nat := 0
  fromNode : Nat := 0
  complete : Bool := true
  seqs : List SeqRec := []
  pages : List PageImage := []
  nodes : List PfxNode := []
deriving DecidableEq, Repr

/-- A replica copy (R239). -/
structure ReplicaCopy where
  slice : Nat := 0
  home : Nat := 0
  format : PageFormat := {}
  page : PageImage := {}
deriving DecidableEq, Repr

/-- What a peer acknowledges (R202, R204, R239, R462). -/
inductive PeerAck where
  | bucket (node bucket : Nat)
  | marker (node generation : Nat)
  | copy (node slice : Nat) (name : PageName) (frameGen : Nat)
  | grant (node slice : Nat) (name : PageName) (frameGen : Nat)
  | revoke (node slice : Nat) (name : PageName)
  | relabel (node slice : Nat) (name : PageName) (frameGen : Nat)
deriving DecidableEq, Repr

/-- A CM REQ (R255): the service ID's slice field (0xFF: node level), the source address and port, the requester's QPN,
its first PSN, the largest path MTU it offers (0, 1, 2 for 1,024, 2,048, 4,096 bytes) and the READ and ATOMIC requests that it asks to
have outstanding (R247). -/
structure CmReq where
  port : Fin 8 := 0
  src : Nat := 0
  udpPort : Nat := 0
  sliceField : Nat := 0
  remoteQpn : Nat := 0
  startPsn : Nat := 0
  pmtu : Nat := 2
  resources : Nat := 8
deriving DecidableEq, Repr

/-- A CM REP to the node's own REQ (R257). -/
structure CmRep where
  peer : Nat := 0
  remoteQpn : Nat := 0
  remoteAddr : Nat := 0
  port : Fin 8 := 0
  startPsn : Nat := 0
  pmtu : Nat := 2
  resources : Nat := 8
deriving DecidableEq, Repr

/-- Where a WRITE packet stands in its message (R247). -/
inductive WritePos where
  | first | middle | last | only
deriving DecidableEq, Repr

/-- One tile of a tile group's range: the page and the tile's number among the page's tiles of the head (R47), the key set of
every row of the group (R74), and for a backward product its operands A and B as BF16 encodings (R152). -/
structure TileStep where
  page : PageName := {}
  tile : Nat := 0
  keySet : List (List Bool) := []
  staged : Option (List (List Nat) × List (List Nat)) := none
deriving DecidableEq, Repr

/-- A tile group ready at a block (R21, R25, R315): its number and the part of a split group that it is, the request of each of
its rows (a stacked group holds rows of several requests, R116), the long operation that it works for (R323), its first output
column, head, query rows (R95), scale (R72) and tiles in order; `chain` numbers the chains that its range is cut into (R79) and
`seed` the free orders that all its parts share (R81). -/
structure TileGroup where
  id : Nat := 0
  part : Nat := 0
  chain : Nat := 0
  members : List Nat := []
  op : Option Nat := none
  slice : Nat := 0
  cls : Nat := 0
  admitted : Nat := 0
  rows : Nat := 1
  cols : Nat := 32
  col0 : Nat := 0
  tau : Nat := 8
  bwd : Bool := false
  head : Nat := 0
  queryFormat : Nat := 0
  query : List (List Nat) := []
  scale : Nat := 0x3f800000
  tiles : List TileStep := []
  seed : Nat := 0
deriving DecidableEq, Repr

/-- What goes wrong while a tile product runs, if anything (R22, R349): bits of operand buffers A and B that flip after they are
written, and elements of the product, as (row, column, FP32 encoding), that the array delivers instead of its own. -/
structure ArrayFault where
  flipA : List Nat := []
  flipB : List Nat := []
  wrong : List (Nat × Nat × Nat) := []
deriving DecidableEq, Repr

/-- A Lattice flit (R38, R39): the link's own sequence number, the message class (0 management, 1 response, 2 request), the source
and destination units, the message's 16-bit end-to-end number, the virtual channel of the class's pair, and 64 bytes of payload. -/
structure Flit where
  seq : Nat := 0
  cls : Fin 3 := 0
  src : Nat := 0
  dst : Nat := 0
  num : Nat := 0
  vc : Nat := 0
  payload : List Byte := []
deriving DecidableEq, Repr

/-- A unit that detections are attributed to (R354). -/
inductive UnitId where
  | cell (n : Fin 128)
  | vector (block : Fin 32)
  | nbu (stack : Fin 8) (die : Fin 12) (unit : Fin 132)
deriving DecidableEq, Repr

/-- The page whose next window the sequencer plans (R129, R131): a request and the page's place in its range. -/
structure WinPlan where
  req : Nat := 0
  page : Nat := 0
deriving DecidableEq, Repr

/-- What on-die ECC finds in a column read (R141, R144): an uncorrectable error as (die, unit, bank), and the units, as (die, unit),
in which it corrects one. -/
structure ColumnEcc where
  abort : Option (Nat × Nat × Nat) := none
  corrected : List (Nat × Nat) := []
deriving DecidableEq, Repr

/-- The status of an NVMe completion (R231). -/
inductive NvmeStatus where
  | success
  | transient
  | aborted
  | media (sctSc : Nat)
  | fatal
deriving DecidableEq, Repr

/-- What the energy of an interval was spent on (R384): work of a slice, flash commands among it; an island's events that no request
explains, and its leakage; a port, its lanes and its transport, with the bytes of each slice on it; or work of the node itself
(chip-level units, sentinels, patrol scrubbing, persistence flushes). -/
inductive EnergySource where
  | work (slice : Fin 8)
  | island (n : Fin 100)
  | port (p : Fin 8) (bytes : List Nat)
  | node
deriving DecidableEq, Repr

/-- Activity of one 10 µs interval from one source (R376, R384): the counts of the model's terms in table order, each list
ended by the leakage in fJ that the fused table gives. -/
structure Activity where
  source : EnergySource := .node
  core : List Nat := []
  stack : List Nat := []
deriving DecidableEq, Repr

/-- One sample of regulator and stack-rail telemetry (R377, R449). -/
structure Telemetry where
  coreMv : Nat := 0
  coreMa : Nat := 0
  stackMw : Nat := 0
  phaseMa : List Nat := []
  faultedPhase : Option (Fin 36) := none
deriving DecidableEq, Repr

/-- A drive found at bring-up (R227, R228), those of one port in bus order: root port, data-area granules, what its controller and
namespace report (NVMe major version, NVM command set, I/O queue pairs, maximum queue entries value, bytes of a logical block, whether
end-to-end protection information is on, most bytes of one transfer), and the node, drive number and version that its header names (none:
no header). -/
structure DriveFound where
  port : Fin 4 := 0
  granules : Nat := 0
  version : Nat := 2
  nvm : Bool := true
  queuePairs : Nat := 4
  maxEntries : Nat := 127
  blockBytes : Nat := 4096
  protection : Bool := false
  maxTransfer : Nat := 262144
  header : Option (Nat × Nat × Nat) := none
deriving DecidableEq, Repr

/-- What a start reads (R357, R433, R435): whether the control header of some trained stack passes its check, whether the stripes of
the image hash to its digest on drives that all hold its directory, the drives found, and the withdrawn spans (stack, span) whose
bank has no repair row left. -/
structure StartRead where
  headerOk : Bool := false
  imageOk : Bool := false
  drives : List DriveFound := []
  noRepair : List (Nat × Nat) := []
deriving DecidableEq, Repr

/-- The commands: one constructor per row of spec/opcode_table.json, in the table's order. -/
inductive Instr where
  | attendFwd (h : ExtHdr) (p : FwdParams)
  | attendBwdOpen (h : ExtHdr) (p : BwdParams)
  | attendBwdAccumulate (h : ExtHdr) (p : BwdParams)
  | attendBwdCollect (h : ExtHdr) (p : BwdParams)
  | attendBwdDiscard (h : ExtHdr) (p : BwdParams)
  | accumulatorCommit (req : Nat)
  | lookup (h : ExtHdr) (p : LookupParams)
  | publishPage (h : ExtHdr) (p : PublishParams)
  | publishPrefix (h : ExtHdr) (p : PfxParams)
  | prefixRelease (h : ExtHdr) (p : PfxRelease)
  | leaseAcquire (h : ExtHdr) (p : LeaseParams)
  | leaseRenew (h : ExtHdr) (p : LeaseParams)
  | leaseRelease (h : ExtHdr) (p : ReleaseParams)
  | handoverTransfer (h : ExtHdr) (p : HandoverParams)
  | handoverDiscard (h : ExtHdr) (p : HandoverParams)
  | handoverQuery (h : ExtHdr) (p : HandoverParams)
  | pin (h : ExtHdr) (p : PinParams)
  | unpin (h : ExtHdr) (p : PinParams)
  | statOwnQp (h : ExtHdr)
  | statGroup (h : ExtHdr)
  | statNode (h : ExtHdr)
  | mapInstall (h : ExtHdr) (c : Cert) (m : RouteMap)
  | nodeFence (h : ExtHdr) (c : Cert)
  | nodeUnfence (h : ExtHdr) (c : Cert)
  | nodeExpel (h : ExtHdr) (c : Cert)
  | requesterFence (h : ExtHdr) (c : Cert) (ranges : List (Nat × Nat))
  | requesterUnfence (h : ExtHdr) (c : Cert) (ranges : List (Nat × Nat))
  | powerShift (h : ExtHdr) (c : Cert) (capW ms : Nat)
  | admKeyCreate (h : ExtHdr) (c : Cert) (slice : Nat) (k : KeyParams)
  | admKeyRemove (h : ExtHdr) (c : Cert) (slice key : Nat)
  | isolationSet (h : ExtHdr) (c : Cert) (slice index entryValid : Nat) (e : IsoEntry)
  | groupSet (h : ExtHdr) (c : Cert) (slice group gClass : Nat) (e : GroupCfg)
  | isolationExport (h : ExtHdr) (c : Cert) (slice port first count : Nat)
  | admManifestLoad (h : ExtHdr) (c : Cert) (slice : Nat) (m : Manifest)
  | peerBucketState (h : ExtHdr) (b : BucketState)
  | peerCompletionMarker (h : ExtHdr) (fromNode generation : Nat)
  | peerReplicaCopy (h : ExtHdr) (r : ReplicaCopy)
  | peerGrant (h : ExtHdr) (slice : Nat) (name : PageName) (frameGen : Nat)
  | peerRevoke (h : ExtHdr) (slice : Nat) (name : PageName)
  | peerRelabel (h : ExtHdr) (slice : Nat) (name : PageName) (oldGen newGen : Nat)
  | peerDrop (h : ExtHdr) (slice : Nat) (name : PageName)
  | peerAcknowledgement (k : Pkt) (a : PeerAck)
  | hello (h : ExtHdr) (levels role : Nat)
  | rdmaReadRequest (k : Pkt) (rkey va len : Nat)
  | rdmaWrite (k : Pkt) (pos : WritePos) (rkey va dmaLen : Nat) (data : List Byte)
  | compareAndSwap (k : Pkt) (rkey va compare swap : Nat)
  | fetchAndAdd (k : Pkt) (rkey va add : Nat)
  | invalidOpcode (k : Pkt) (opcode : Nat)
  | acknowledgeReceived (k : Pkt)
  | rnrNakReceived (k : Pkt) (timer : Nat)
  | fatalNakReceived (k : Pkt) (syndrome : Nat)
  | cnpReceived (k : Pkt) (echoValid : Bool) (echo : Nat)
  | pauseFrameRx (port : Fin 8)
  | cmReq (r : CmReq)
  | cmRtu (qpn : Nat)
  | cmDreq (qpn : Nat)
  | cmRep (r : CmRep)
  | cmDrep (qpn : Nat)
  | peerConnectRetry (peer : Nat)
  | peerIdleClose (qpn : Nat)
  | contextLoad (qpn : Nat)
  | missBufferTimeout (qpn : Nat)
  | responseRetransmit (qpn : Nat)
  | flushComplete (qpn : Nat)
  | pacerRelease (qpn : Nat)
  | echoTimer (qpn : Nat)
  | egressTransmit (port : Fin 8)
  | queueSample
  | loadRecompute (slice : Fin 8) (port : Fin 8) (stackBytes : Nat)
  | portLinkLoss (port : Fin 8)
  | portLinkReturn (port : Fin 8)
  | linkHoldExpiry (port : Fin 8)
  | laneSuspicion (lane : Fin 16)
  | loopbackTestDone (lane : Fin 16) (pass : Bool)
  | portTrainingDone (port : Fin 8)
  | flitReceive (router : Fin 8) (link : Fin 3) (f : Flit) (crc : Nat)
  | linkHandshakeTimeout (router : Fin 8) (link : Fin 3)
  | tilePlace (block : Fin 32) (t : TileGroup)
  | tileProduct (block : Fin 32) (slot : Fin 4) (x : ArrayFault)
  | tileRetry (block : Fin 32) (x : ArrayFault)
  | regionReread (region : Fin 8) (addr : Nat) (clean : Bool)
  | cellSlotMove (block : Fin 32)
  | auditDuplicate (block : Fin 32) (first second third : List Nat) (secondBlock thirdBlock : Fin 32) (group : Option (List UnitId × Bool))
  | sentinelRun (u : UnitId) (pass late : Bool) (temp volt : Nat)
  | retestComplete (u : UnitId) (pass : Bool)
  | patrolScrub (stack : Fin 8) (addr : Nat) (corrected uncorrectable : Bool)
  | nbWindowOpen (region : Fin 8) (w : WinPlan)
  | nbEnter (region : Fin 8) (win : Nat)
  | nbLoad (region : Fin 8) (win : Nat)
  | nbAct (region : Fin 8) (win : Nat)
  | nbRead (region : Fin 8) (win : Nat) (abort : ColumnEcc)
  | nbChord (region : Fin 8) (win : Nat)
  | nbResult (region : Fin 8) (win : Nat)
  | nbExit (region : Fin 8) (win : Nat)
  | resultRecordRead (region : Fin 8) (win slot : Nat) (errors : List (Nat × Byte))
  | ondieAbortReread (region : Fin 8) (win slot : Nat) (recovered : Bool)
  | nbuSpareSteer (stack : Fin 8) (die : Fin 12) (unit : Fin 128)
  | refresh (stack : Fin 8) (sid : Fin 3) (pc : Fin 64) (pair : Fin 8)
  | reclaimEpochAdvance (quarter : Fin 4)
  | reclamation (slice : Fin 8) (stack : Option (Fin 8))
  | demotionComplete (slice : Fin 8) (name : PageName)
  | fillLand (slice : Fin 8) (name : PageName)
  | fillAllocTimeout (slice : Fin 8) (name : PageName)
  | nvmeCompletion (drive : Fin 16) (cmd : Nat) (status : NvmeStatus)
  | nvmeTimeout (drive : Fin 16) (cmd : Nat)
  | driveFailed (drive : Fin 16)
  | bitmapFlush (drive : Fin 16) (block : Nat)
  | deadlineDecision (req page : Nat)
  | replicaRecoveryWait (slice : Fin 8) (name : PageName) (copy : Option PageImage)
  | replicaCopyRepeat (slice : Fin 8) (name : PageName) (node : Nat)
  | grantRenew (slice : Fin 8) (name : PageName) (node : Nat)
  | grantExpire (slice : Fin 8) (name : PageName) (node : Nat)
  | streamEntryExpire (quarter : Fin 4) (slice : Fin 8) (handle group : Nat)
  | regionFence (region : Fin 8) (cause : Fin 5) (island : Fin 3)
  | fenceSweep (quarter : Fin 4)
  | leaseExpiry (unit : Fin 4) (slot : Nat)
  | tombstoneExpiry (slice : Fin 8) (handle : Nat)
  | drainWindowClose
  | mapRetire
  | homeUnitLoss (unit : Fin 4)
  | quarterLost (quarter : Fin 4)
  | pfxEvictSweep (slice : Fin 8)
  | windowBoundary
  | contextSaveComplete (ctx : Nat)
  | contextRestoreComplete (ctx : Nat)
  | contextResume (ctx : Nat)
  | drainComplete (slice : Fin 8)
  | drainOpenLog (slice : Fin 8)
  | doorbell (ring : Fin 64) (tail : Nat)
  | ringEntryFetch (ring : Fin 64) (entry : Option (List Byte))
  | bitstreamLoad (op : Nat) (b : Option BsImage)
  | sliceDisable (op : Nat)
  | sliceEnable (op : Nat)
  | sliceRemove (op : Nat)
  | statePurge (op : Nat)
  | cancel (op : Nat)
  | keyCreate (op : Nat)
  | keyRemove (op : Nat)
  | driveFormat (op : Nat)
  | ownerProvision (op : Nat) (pub : Option Nat)
  | manifestLoad (op : Nat) (m : Option Manifest)
  | keyslotGenerate (op : Nat)
  | keyslotErase (op : Nat)
  | debugChallenge (op : Nat)
  | debugUnlock (op : Nat) (signedBy : Option Nat)
  | logRead (op : Nat)
  | catalogueRead (op : Nat)
  | ringEnable (ring : Fin 64)
  | ringDisable (ring : Fin 64)
  | irqCauseClear (value : Nat)
  | logAckWrite (value : Nat)
  | nbEnable (region : Fin 8)
  | nbDisable (region : Fin 8)
  | recoveryChunkGo (index len : Nat) (last : Bool) (image : Option FwImage)
  | recoveryFlashWritten
  | rcRegisterRead (offset size : Nat)
  | registerWrite (offset size value : Nat)
  | regReadTimeout (offset size : Nat)
  | bar2Read (x len : Nat)
  | bar2Write (x : Nat) (data : List Byte)
  | functionLevelReset
  | pcieLinkDown
  | apexEvaluation (act : List Activity)
  | telemetrySample (t : Telemetry)
  | modelComparison
  | junctionSample (temps : List Int)
  | stackCaseSample (temps : List Int)
  | voltageSettled
  | shiftExpiry
  | vrAlertAssert
  | vrAlertClear
  | coolantFault
  | coolantRestart
  | persistFlushComplete
  | apexHeartbeatTimeout
  | apexRestartDone
  | vertexLoss (securityEngine : Bool)
  | resetAssert
  | resetRelease
  | supplyLoss (vddAon : Bool)
  | refclk100Loss
  | refclk156Loss
  | refclkReturn (clk156 : Bool)
  | firmwareAuthentication (answered : Bool)
  | stackTrainingDone (trained : List Bool) (r : StartRead)
  | sliceContextRestore (slice : Fin 8)
  | restartSweep (quarter : Fin 4)
  | rampStep (group : Fin 4096)
  | spillSweep
  | getVersion
  | getCapabilities
  | negotiateAlgorithms (asym hash : Nat)
  | getDigests
  | getCertificate (slot : Nat)
  | challenge (slot nonce : Nat)
  | getMeasurements (index nonce : Nat)
  | spdmUnsupported (code : Nat)
  | homeUnitReturn (unit : Fin 4)
  | recomposeChangeComplete (slice : Fin 8)
  | rnrTimerExpiry (qpn : Nat)
  | d3hotTransition (toD3 : Bool)
deriving DecidableEq, Repr

end Sys2Proof
end

