-- ==== Sys2Proof/Machine/State.lean ====
section
/-! DEFINITION. The state of the node: every register, table, queue, buffer, record and pin the manual gives it, as plain
data, with the queue of waiting commands; the outcomes of a step; the state right after reset. -/

namespace Sys2Proof.Machine

/-- Why the block would stop. The manual gives this block no stop of its own: every error it describes is a status code,
a flag, a log entry or a state (R14, R366, R454), so no command raises a fault. (DEDUCED, log entry 59.) -/
inductive Fault where
deriving DecidableEq, Repr

/-- Why a command has no meaning. -/
inductive Refusal where
  /-- Raised by exec's arm of a command that has no meaning yet; safe: the run stops. -/
  | notModelled (mnemonic : String)
deriving DecidableEq, Repr

/-- Status codes of R14. -/
inductive Code where
  | ok | part | empty | miss | torn | pageLost | fenced | redirect | publishConflict | keyFault | boundsFault
  | rightsFault | deadlineFallback | busy | retryLater | formatError | leaseConflict | poisoned | preempted | aborted
  | pendingEnable
deriving DecidableEq, Repr

/-! ## Always-on logic, supplies and pins (R35, R37, R429 to R454) -/

/-- What holds the node: reset asserted; supplies back with RESET_N high, waiting for a low pulse (R450); running;
REFCLK100 lost (R453); thermal trip latched (R454). -/
inductive PowerPhase where
  | inReset | coldWait | running | clockLost | tripped
deriving DecidableEq, Repr

/-- Island 98 and what it watches. -/
structure Aon where
  now : Nat := 0
  phase : PowerPhase := .inReset
  stacksHeld : Bool := false
  thermTrip : Bool := false
  selfCause : Nat := 0
  selfCleared : Bool := false
  clk100Lost : Bool := false
  clk156Lost : Bool := false
  coolantPin : Bool := false
  coolantAt : Nat := 0
  vrPin : Bool := false
  vrAt : Nat := 0
  stopped : List Nat := List.range 98 ++ [99]
  failed : List Nat := []
  bootStage : Nat := 0
  releasedAt : Nat := 0
  resetLow : Bool := true
  coldSince : Option Nat := none
  stacksUp : Bool := false
deriving DecidableEq, Repr

/-! ## Reliability (R348 to R372) -/

/-- States of R352. -/
inductive UnitState where
  | inService | retest | retired
deriving DecidableEq, Repr

/-- One remembered detection (R352): stamp, temperature band, activity class, detector. -/
structure Seen where
  stamp : Nat := 0
  band : Int := 0
  cls : Nat := 0
  detector : Nat := 0
deriving DecidableEq, Repr

/-- A unit's state, its last 4 detections, and the detection whose retest is pending. -/
structure UnitHist where
  state : UnitState := .inService
  seen : List Seen := []
  waiting : Option Seen := none
deriving DecidableEq, Repr

/-- Availability account of one slice (R371) and its swap record. -/
structure Avail where
  serving : Nat := 0
  excluded : Nat := 0
  unplanned : Nat := 0
  swaps : Nat := 0
  longestUs : Nat := 0
deriving DecidableEq, Repr

/-- A serial domain of R362: last serial accepted and its digest. -/
structure Serial where
  last : Nat := 0
  digest : Option Nat := none
deriving DecidableEq, Repr

/-- Errors, spares and fencing. -/
structure Ras where
  audit : List Nat := List.replicate 8 1
  transient : Nat := 0
  lasting : Nat := 0
  correlated : Nat := 0
  dupMismatches : Nat := 0
  sentinelLate : Nat := 0
  units : Tbl UnitHist := []
  locusParity : Tbl (List Nat) := []
  locusSpares : Tbl Nat := []
  phasesOn : List Nat := List.range 32
  phasesBad : List Nat := []
  phaseOver : Tbl Nat := []
  blocksWithdrawn : List Nat := []
  sramWithdrawn : List (Nat × Nat) := []
  sramRefilled : List (Nat × Nat) := []
  rowCorrected : Tbl (List Nat) := []
  rowsFaulty : List (Nat × Nat × Nat) := []
  rowsFaultyCount : List Nat := List.replicate 8 0
  ce : List Nat := List.replicate 8 0
  ue : List Nat := List.replicate 8 0
  regionsFenced : List Nat := []
  quartersLost : List Nat := []
  portsWithdrawn : List Nat := []
  fenced : Bool := false
  expelled : Bool := false
  reason : Nat := 0
  serials : List Serial := [{}, {}, {}, {}]
  reqFences : List (Nat × Nat) := []
  availSlice : Nat := 0
  avail : List Avail := List.replicate 8 {}
deriving DecidableEq, Repr

/-! ## Power (R373 to R390) -/

/-- An open throttle episode (R380); scope 0xFF is the chip. -/
structure Throttle where
  reason : Nat := 0
  scope : Nat := 0xff
  stamp : Nat := 0
  lowest : Nat := 0
  capSource : Nat := 0
  capW : Nat := 0
  peakW : Nat := 0
deriving DecidableEq, Repr

/-- Divergence tracking of one part (R378): raised; consecutive comparisons outside and inside the bound; the 1 ms averages of
model and measurement in mW that the last comparison used, where one was made. -/
structure Diverge where
  raised : Bool := false
  overs : Nat := 0
  clean : Nat := 0
  model : Nat := 0
  meas : Nat := 0
  compared : Bool := false
deriving DecidableEq, Repr

/-- Apex, its limits, meters and accounts. Powers are in mW and energies in fJ; temperatures in units of 0.125 °C. `p100` holds
the last 10,000 evaluations, newest first, as the input of R379 and what the model alone gives; `telCore` and `telStack` are the
latest telemetry. (DESIGN CHOICE, log entry 36.) -/
structure Pwr where
  pstate : Nat := 7
  blockClk : Nat := 7
  regionClk : List Nat := List.replicate 8 7
  settling : Bool := false
  flushBusy : Bool := false
  flushDone : Bool := false
  flushStamp : Nat := 0
  episodes : List Throttle := []
  thrNs : Tbl Nat := []
  thrCount : Tbl Nat := []
  capHost : Nat := 0x2f8
  shift : Option (Nat × Nat) := none
  coreSum : Nat := 0
  stackSum : Nat := 0
  sumN : Nat := 0
  measCoreSum : Nat := 0
  measStackSum : Nat := 0
  measN : Nat := 0
  telCore : Nat := 0
  telStack : Nat := 0
  telAt : Nat := 0
  p10 : Nat := 0
  p100 : List (Nat × Nat) := []
  aboveSince : Option Nat := none
  aboveModel : Option Nat := none
  lastUp : Nat := 0
  core : Diverge := {}
  stack : Diverge := {}
  divEvents : Nat := 0
  energy : List Nat := List.replicate 9 0
  energyMeas : Nat := 0
  coreCoef : List Nat := [250, 127, 64, 2000, 1500, 9000, 110000, 2200000, 12000, 1100000000, 15000]
  stackCoef : List Nat := [8000, 1100, 4000000, 9000000000]
  temps : List Int := []
  caseTemps : List Int := List.replicate 8 0
  caseLimit : List Nat := List.replicate 8 100
  blocksHot : Bool := false
  apexDown : Bool := false
deriving DecidableEq, Repr

/-! ## Security (R391 to R405) -/

/-- Fuses, boot flash, keys, recovery and SPDM. -/
structure Sec where
  deviceSecret : Nat := 0
  fwRootHash : List Nat := [0, 0]
  fwRootRevoked : Nat := 0
  ownerHash : Nat := 0
  svn : Nat := 0
  debugLock : Bool := true
  unlocked : Bool := false
  identityKey : Nat := 0
  image : Option FwImage := none
  running : Option FwImage := none
  manifest : Option Manifest := none
  slotKeys : Tbl Nat := []
  challenge : Option Nat := none
  recState : Nat := 0
  recStatus : Nat := 0
  recReason : Nat := 0
  recoveryReq : Bool := false
  chunkIndex : Nat := 0
  chunkLast : Bool := false
  chunkLen : Nat := 0
  nextChunk : Nat := 0
  pushed : Option FwImage := none
  recLen : Nat := 0
  spdmVersion : Bool := false
  spdmCaps : Bool := false
  spdmAlgs : Bool := false
  romVersion : Nat := 0
deriving DecidableEq, Repr

/-! ## Host interface (R406 to R428) -/

/-- The ring registers of R421. -/
structure Ring where
  base : Nat := 0
  log2 : Nat := 4
  enable : Bool := false
  vector : Nat := 0
  errDoorbell : Bool := false
  errEntry : Bool := false
  errStatus : Bool := false
  head : Nat := 0
  tail : Nat := 0
deriving DecidableEq, Repr

/-- A ring entry (R413). -/
structure RingEntry where
  op : Nat := 0
  irq : Bool := false
  fence : Bool := false
  flagsHi : Nat := 0
  slice : Nat := 0xff
  opTag : Nat := 0
  statusAddr : Nat := 0
  bufAddr : Nat := 0
  bufLen : Nat := 0
  reserved : Nat := 0
  params : List Byte := List.replicate 32 0
deriving DecidableEq, Repr

/-- An admitted long operation: its entry, ring and index, and the status word of R415; for a load before step 9, the frames as read and
the region whose page-buffer lines hold them (R341). -/
structure LongOp where
  ring : Nat := 0
  index : Nat := 0
  entry : RingEntry := {}
  state : Nat := 1
  code : Code := .ok
  progress : Nat := 0
  pastStep9 : Bool := false
  staged : Option (Nat × BsImage) := none
  suppressed : Bool := false
deriving DecidableEq, Repr

/-- The endpoint, TOP registers and long operations. `lost` says that the endpoint or its router has failed; `heldReads` are reads of
registers of stopped islands (offset, size, arrival) and `heldWrites` writes to them (offset, size, value) (R410). -/
structure HostIf where
  linkUp : Bool := true
  d3 : Bool := false
  lost : Bool := false
  heldReads : List (Nat × Nat × Nat) := []
  heldWrites : List (Nat × Nat × Nat) := []
  bar2Base : Nat := 0
  bar2WrEnable : Bool := false
  regTimeouts : Nat := 0
  bar0Ur : Nat := 0
  bar2Discards : Nat := 0
  dmaErrors : Nat := 0
  cause : Nat := 0
  rings : List Ring := (List.range 64).map (fun r => { vector := r })
  msix : Tbl Nat := []
  ops : Tbl LongOp := []
  nextOp : Nat := 0
deriving DecidableEq, Repr

/-! ## The event log (R423 to R425) -/

/-- One log entry: kind, island and the 32 record bytes. -/
structure LogEntry where
  kind : Nat := 3
  island : Nat := 0
  record : List Byte := []
deriving DecidableEq, Repr

/-- The event log and its registers. -/
structure Log where
  entries : Tbl LogEntry := []
  nextSeq : Nat := 0
  overwrites : Nat := 0
  ackSeq : Nat := 0
  irqThreshold : Nat := 0x8000
  selSeq : Nat := 0
deriving DecidableEq, Repr

/-! ## Slices and scheduling (R298 to R325) -/

/-- States of R303. -/
inductive SliceState where
  | absent | composing | serving | recomposing | draining | disabled
deriving DecidableEq, Repr

/-- The pending outcome of a drain (R311), with the long operation that set it. -/
inductive Outcome where
  | disable (op : Option Nat)
  | enable (op : Option Nat) (cfg : Option SliceCfg) (serial digest : Nat)
  | remove (op : Option Nat)
deriving DecidableEq, Repr

/-- A recomposition change that takes time (R307). -/
inductive Change where
  | addBlock (b : Nat)
  | removeBlock (b : Nat)
  | removeStack (stack : Nat)
  | moveCascade (old : LocusCfg)
  | removePort (p : Nat)
  | copySpan (stack span : Nat)
deriving DecidableEq, Repr

/-- One slice. -/
structure SliceS where
  state : SliceState := .absent
  cfg : SliceCfg := {}
  serial : Nat := 0
  digest : Nat := 0
  valid : Bool := false
  outcome : Outcome := .disable none
  drainStart : Nat := 0
  drainLogged : Nat := 0
  changes : List Change := []
  composeOp : Option Nat := none
  removedStacks : List Nat := []
  flashClosing : Bool := false
  flashPending : Option (Nat × Option Nat) := none
deriving DecidableEq, Repr

/-- Slices, classes, table and switching counters. -/
structure Sch where
  slices : List SliceS := List.replicate 8 {}
  node : NodeCfg := {}
  bsSerial : Nat := 0
  bsDigest : Nat := 0
  bsLoaded : Bool := false
  classes : Tbl ClassRec := []
  pendingCount : Tbl Nat := []
  classMap : Tbl Nat := []
  table : Tbl (List Nat) := []
  staged : Tbl (List Nat) := []
  stagedClasses : Tbl ClassRec := []
  lastWindow : Nat := 0
  tableSel : Nat := 0
  nbPending : List Nat := []
  nbDraining : List Nat := []
  preemptions : Nat := 0
  exchanges : Nat := 0
  parks : Nat := 0
  ctxAreaFull : Nat := 0
  saves : Nat := 0
  switchMax : Nat := 0
  lastOwner : Tbl Nat := []
deriving DecidableEq, Repr

/-- A row's running triple (R78, R88): FP32 encodings, key count, rescales, flags and skipped keys. -/
structure Triple where
  m : Nat := 0xff800000
  mMax : Nat := 0xff800000
  l : Nat := 0
  o : List Nat := []
  keys : Nat := 0
  rescales : Nat := 0
  deferred : Bool := false
  nonfinite : Bool := false
  skipped : Bool := false
  fallback : Bool := false
  incomplete : Bool := false
  skippedKeys : Nat := 0
deriving DecidableEq, Repr

/-! ## Cells, blocks and the Lattice (R20 to R44) -/

/-- What a page contributes from: its frame, or its shadow (R235, R236), with the format read under, the INT8 scales and the
fill of the resolution (R67). -/
structure PageSrc where
  block : Nat := 0
  frame : Nat × Nat := (0, 0)
  format : PageFormat := {}
  keyScale : Nat := 0
  valueScale : Nat := 0
  fill : Nat := 0
  fallback : Bool := false
deriving DecidableEq, Repr

/-- A live or shadow accumulator (R20, R318): the tile group it serves, its rows, the number of tiles added, the page that the
next tile goes on with and its source (R67), the rows and the number of tiles when that page began, to which a restart of the
chain goes back (R44, R92), the pages added whole, and whether a failed product of its next tile waits for its retry (R27). -/
structure Accum where
  tg : TileGroup := {}
  rows : List Triple := []
  at_ : Nat := 0
  src : Option (PageName × PageSrc) := none
  mark : List Triple × Nat := ([], 0)
  pages : List PageName := []
  faulty : Bool := false
deriving DecidableEq, Repr

/-- An operand buffer (R20): bytes, and one parity bit for every 64. -/
structure OpBuf where
  bytes : List Byte := []
  parity : List Bool := []
deriving DecidableEq, Repr

/-- A cell at one physical position (R20, R21, R23): accumulators, operand buffers, and the rows as the vector unit has them
between a score product and its output product (R24, R78); `need` says that the live group waits for its operands (R24). -/
structure CellS where
  live : Option Accum := none
  shadow : Option Accum := none
  parkedShadow : Bool := false
  retiring : Bool := false
  bufA : OpBuf := {}
  bufB : OpBuf := {}
  vec : List Triple := []
  need : Bool := false
deriving DecidableEq, Repr

/-- A tile waiting for its retry (R27): group and part, the slice and class it runs for, the slot that failed, the failing check
(0 checksum, 1 parity), the activity class of the work, the tile's first byte in stack memory, and whether the region has
re-read it (R31). -/
structure Retry where
  id : Nat := 0
  part : Nat := 0
  slice : Nat := 0
  cls : Nat := 0
  failedSlot : Nat := 0
  detector : Nat := 0
  work : Nat := 1
  addr : Nat := 0
  reread : Bool := false
deriving DecidableEq, Repr

/-- One block (R23): five positions, the position that each logical slot occupies (none: no cell), its queues, the slots that
its gather engine and its vector unit serve next (R25), and the triples of finished tile groups, by group and part, that its
vector unit holds until the group's last part ends (R24). -/
structure BlockS where
  cells : List CellS := List.replicate 5 {}
  slots : List (Option Nat) := [some 0, some 1, some 2, some 3]
  spareUsed : Bool := false
  ready : List TileGroup := []
  retries : List Retry := []
  faulted : List Retry := []
  gatherNext : Nat := 0
  vectorNext : Nat := 0
  vector : List (TileGroup × List Triple) := []
deriving DecidableEq, Repr

/-- One direction of a Lattice link (R38 to R40): replays of the flit in hand, the sequence number it waits for, the sender's
replay buffer, the flits that wait for the output arbiter, failed. -/
structure LinkS where
  failed : Bool := false
  replays : Nat := 0
  waiting : Bool := false
  nextSeq : Nat := 0
  buffer : List Flit := []
  out : List Flit := []
deriving DecidableEq, Repr

/-- The end of one stream of messages at its destination (R39): the number that is next, the reorder window, the last payload
delivered. -/
structure Reorder where
  next : Nat := 0
  held : List (Nat × List Byte) := []
  last : List Byte := []
deriving DecidableEq, Repr

/-- A request for an SRAM bank beat or a stack command slot (R30): its class (1 to 5), its source (0 to 3 the region's blocks, 4
Lattice ingress, 5 the region itself), its bank, and the cell, as block and position, whose operands it brings. -/
structure ArbReq where
  cls : Nat := 2
  src : Nat := 0
  bank : Nat := 0
  cell : Option (Nat × Nat) := none
deriving DecidableEq, Repr

/-- A region arbiter (R30): waiting requests, the source that each class serves next, and per bank the grants since one went to
class 4 or 5. -/
structure RegionArb where
  waiting : List ArbReq := []
  next : List Nat := List.replicate 6 0
  since : List Nat := List.replicate 32 0
deriving DecidableEq, Repr

/-- A context in a region's context area (R319), with its landing slot (R322); `req` and `page` name the request's page
that it waits for; `saving` is the block, position and accumulator (shadow or live) that it is still being written from, and
`incoming` the tile group that starts there when it is written (R318). -/
structure ParkedCtx where
  region : Nat := 0
  slice : Nat := 0
  cls : Nat := 0
  req : Nat := 0
  page : Nat := 0
  admitted : Nat := 0
  bytes : Nat := 0
  acc : Option Accum := none
  slotState : Nat := 0
  pageCode : Code := .ok
  frameGen : Nat := 0
  landedAt : Nat := 0
  name : PageName := {}
  tries : Nat := 0
  saving : Option (Nat × Nat × Bool) := none
  restoring : Option (Nat × Nat) := none
  incoming : Option TileGroup := none
deriving DecidableEq, Repr

/-- Blocks, Lattice links and message streams, region arbiters, context areas, and the page buffers' tags (most recently used
first); a line's 4 KiB are those of stack memory at its tag (R65, R226). -/
structure Engine where
  blocks : List BlockS := List.replicate 32 {}
  links : List LinkS := List.replicate 24 {}
  streams : Tbl Reorder := []
  rerouted : Bool := false
  arbs : List RegionArb := List.replicate 8 {}
  ctxs : Tbl ParkedCtx := []
  nextCtx : Nat := 0
  lines : List Nat := []
deriving DecidableEq, Repr

/-! ## Near-bank units (R119 to R150) -/

/-- Steps of a near-bank window (R126). -/
inductive WinStep where
  | opened | entered | loaded | active | reading | reduced | written | ended
deriving DecidableEq, Repr

/-- An uncorrectable on-die error in a column read (R144): die, unit, bank and stack row. -/
structure OndieAbort where
  die : Nat := 0
  unit : Nat := 0
  bank : Nat := 0
  row : Nat := 0
deriving DecidableEq, Repr

/-- A triple of a page group on its way through a window (R136 to R141): die, lead or member unit, head, row, the first
uncorrectable read of the group where there was one, and the corrections of on-die ECC in the group. -/
structure GroupTriple where
  die : Nat := 0
  unit : Nat := 0
  head : Nat := 0
  row : Nat := 0
  t : Triple := {}
  abort : Option OndieAbort := none
  corrected : Nat := 0
deriving DecidableEq, Repr

/-- A result slot that a window wrote and that is not yet read: the CRC-16 tag of each 32-byte column (R142), and the triple that
its record holds; the record's bytes lie in the result rows (R140). -/
structure ResultSlot where
  tags : List Nat := []
  group : GroupTriple := {}
deriving DecidableEq, Repr

/-- What a window leaves in the query buffer of a pseudo-channel (R121): of the configuration block the stamp, the reference and
the score constant, then query rows and mask bits by (head, row). -/
structure QueryBuf where
  stamp : Nat := 0
  tau : Nat := 0
  scale : Nat := 0
  format : Nat := 0
  keyScale : Nat := 0
  valueScale : Nat := 0
  rows : List ((Nat × Nat) × List Nat) := []
  mask : List ((Nat × Nat) × List Bool) := []
deriving DecidableEq, Repr

/-- The work of one window (R129): rows `firstRow` on within the head, `rows` of them, and the extent (native: first granule index
and count; compatibility: the head). -/
structure WinShape where
  firstRow : Nat := 0
  rows : Nat := 1
  firstGranule : Nat := 0
  granules : Nat := 2
  head : Nat := 0
deriving DecidableEq, Repr

/-- A near-bank window: its request and page, the page's frame as resolved, its shape, the parameters of the request, the reclaim
epoch that the request holds in the page's quarter (R66), bank set (stack-wide pair numbers), granules (within the stack), length in
tenths of a nanosecond, stamp, rows that NB-ACT has opened as (bank, row, granule index within the frame), columns read, aborts and
corrections reported, the result half of each pair, triples on the units, the slots not yet read (by 16 × pair + slot), groups of
which a record was refused (die, head), groups with an abort by their slot, and the triples accepted. -/
structure NbWin where
  req : Nat := 0
  page : Nat := 0
  slice : Nat := 0
  src : PageSrc := {}
  shape : WinShape := {}
  params : FwdParams := {}
  quarter : Nat := 0
  epoch : Nat := 0
  sid : Nat := 0
  pairs : List Nat := []
  granules : List Nat := []
  length : Nat := 0
  stamp : Nat := 0
  step : WinStep := .opened
  acts : Nat := 0
  opened : List (Nat × Nat × Nat) := []
  columns : Nat := 0
  aborts : List OndieAbort := []
  corrected : List (Nat × Nat) := []
  half : Tbl Nat := []
  triples : List GroupTriple := []
  slots : Tbl ResultSlot := []
  refused : List (Nat × Nat) := []
  aborted : Tbl GroupTriple := []
  accepted : List GroupTriple := []
deriving DecidableEq, Repr

/-- A page of a request that goes to near-bank units (R129, R139): where it stands in the request, its source and the version read,
the epoch held, rows that skip it, rows per pass once chosen, the work not yet in a window as (first granule or head, count, first
row, rows), windows not yet done, and the triples that the vector unit holds. -/
structure NearPage where
  req : Nat := 0
  page : Nat := 0
  slice : Nat := 0
  name : PageName := {}
  src : PageSrc := {}
  quarter : Nat := 0
  epoch : Nat := 0
  skip : List Nat := []
  rp : Option Nat := none
  todo : List (Nat × Nat × Nat × Nat) := []
  windows : Nat := 0
  triples : List GroupTriple := []
deriving DecidableEq, Repr

/-- An access that waits in the collision queue (R133): a write, a read for BAR2, any other read of data, a patrol-scrub read with
what it will find, the read of a result record, the re-read of an aborted row, the refill of an SRAM line or of an operand. -/
inductive CqJob where
  | write (d : List Byte)
  | host
  | read
  | scrub (corrected uncorrectable : Bool)
  | record (win slot : Nat) (errors : List (Nat × Byte))
  | abort (win slot : Nat) (recovered : Bool)
  | refill (clean : Bool)
deriving DecidableEq, Repr

/-- An entry of the collision queue (R133): bank pair, address, length of up to 256 bytes. -/
structure CqEntry where
  pair : Nat := 0
  addr : Nat := 0
  len : Nat := 0
  job : CqJob := .read
deriving DecidableEq, Repr

/-- The near-bank registers and sequencer of one region (R149): `withheld` are accesses that the arbiter grants only when the
collision queue has room again (R134), `near` the pages in dispatch order, `query` the query buffers by 256 × window +
pseudo-channel, `retiring` the units whose retirement waits for a window's end (R150). -/
structure NbRegion where
  windowMax : Nat := 0x7d0
  nbEnable : Bool := true
  wins : Tbl NbWin := []
  nextWin : Nat := 0
  near : List NearPage := []
  query : Tbl QueryBuf := []
  retiring : List (Nat × Nat) := []
  cq : List CqEntry := []
  withheld : List CqEntry := []
  cqPeak : Nat := 0
  ondieAborts : Nat := 0
  refusals : Nat := 0
  groupsToCells : Nat := 0
  cqFullEvents : Nat := 0
  spareMap : Tbl (List Nat) := []
  retiredUnits : List (Nat × Nat) := []
  halves : Tbl Nat := []
  refreshed : Tbl Nat := []
deriving DecidableEq, Repr

/-! ## Stack memory, spans and flash (R45 to R71, R221 to R246) -/

/-- A span-table entry (R55) and its bitmap as the list of units in use. -/
structure Span where
  kind : Nat := 0
  slice : Nat := 0
  unitGranules : Nat := 1
  used : List Nat := []
deriving DecidableEq, Repr

/-- A removed frame on a retire list (R66). -/
structure Retired where
  epoch : Nat := 0
  flash : Bool := false
  place : Nat := 0
  granule : Nat := 0
  count : Nat := 0
  slot : Option Nat := none
deriving DecidableEq, Repr

/-- An NVMe command of a drive (R230): the move it belongs to, its bytes, whether it carries Force Unit Access (R223, R228), the I/O
queue pair that it was issued on, whether it was reissued, whether its demotion was restarted on another extent (R231), and the
extent that it deallocates (R228). -/
structure NvmeCmd where
  slice : Nat := 0
  name : PageName := {}
  bytes : Nat := 0
  write : Bool := false
  cls : Nat := 4
  issuedAt : Nat := 0
  reissued : Bool := false
  bitmapBlock : Option Nat := none
  lba : Nat := 0
  issued : Bool := false
  restarted : Bool := false
  fua : Bool := false
  pair : Nat := 0
  dealloc : Option (Nat × Nat) := none
deriving DecidableEq, Repr

/-- One NVMe drive (R227, R228, R245, R435): `waited` counts, per class, the issue slots since the class was last served
(R230), `maxTransfer` is the most bytes that one command may move; `capacity` is the drive's own count of data-area granules, `granules` what the node uses of it; `cells` are the data area's bytes in
logical order, by granule × 65,536 + offset, and `keys` and `tweaks` the flash key and the first tweak under which each extent was
written, by its first granule (R229); `metaKey` is the metadata key that header and bitmap are under. -/
structure Drive where
  present : Bool := false
  failed : Bool := false
  foreign : Bool := false
  formatted : Bool := false
  outOfUse : Bool := false
  port : Nat := 0
  granules : Nat := 0
  capacity : Nat := 0
  maxTransfer : Nat := 262144
  headerNode : Nat := 0
  headerNumber : Nat := 0
  headerVersion : Nat := 0
  headerKeys : Nat := 0
  extents : List (Nat × Nat) := []
  dirty : Tbl Nat := []
  cmds : Tbl NvmeCmd := []
  nextCmd : Nat := 0
  waited : List Nat := [0, 0, 0, 0]
  lat : Nat := 0
  rate : Nat := 1
  samples : List (Nat × Nat) := []
  consecTimeouts : Nat := 0
  mediaErrors : Nat := 0
  timeouts : Nat := 0
  cells : List Host.Cell := []
  keys : Tbl Nat := []
  tweaks : Tbl Nat := []
  metaKey : Nat := 0
  mark : Bool := false
deriving DecidableEq, Repr

/-- A write into the stack frame of a page that is on flash: it waits for the page's fill (R70). `at_` is a logical offset. -/
structure WaitWrite where
  slice : Nat := 0
  name : PageName := {}
  at_ : Nat := 0
  data : List Byte := []
deriving DecidableEq, Repr

/-- Stack memory bytes by 40-bit node address, span tables, retire lists, reclaim epochs and drives. -/
structure Mem where
  cells : List Host.Cell := []
  spans : Tbl Span := []
  retire : Tbl (List Retired) := []
  epochs : List Nat := [0, 0, 0, 0]
  drives : Tbl Drive := []
  waits : List WaitWrite := []
deriving DecidableEq, Repr

/-! ## Homes (R61 to R64, R196 to R220, R232, R238 to R245) -/

/-- Frame states of R62. -/
inductive FrameState where
  | allocated | stack | stackClean | demoting | flash | filling | poisoned | dropped
deriving DecidableEq, Repr

/-- Page states of R216. -/
inductive PageState where
  | unpublished | writeOpenNew | published | writeOpen | tornNew | torn
deriving DecidableEq, Repr

/-- A name-table entry (R61); `bucket` is the candidate bucket it stands in (R63) and `slot` its place there, `quarter` its quarter;
`stale` marks an entry from before a restart to which R438 has not been applied; `copyOf` is, for a replica held here, the home node
and the home's `frame_gen` that the copy stands for (R239). -/
structure Entry where
  slice : Nat := 0
  name : PageName := {}
  quarter : Nat := 0
  bucket : Nat := 0
  slot : Nat := 0
  copyOf : Option (Nat × Nat) := none
  hullValid : Bool := false
  shadowValid : Bool := false
  writeValid : Bool := false
  frameState : FrameState := .allocated
  pageState : PageState := .unpublished
  stackFrame : Nat × Nat := (0, 0)
  writeFrame : Nat × Nat := (0, 0)
  flashDrive : Nat := 0
  flashGranule : Nat := 0
  hullLoc : Nat × Nat × Nat := (0, 0, 0)
  hullHeld : Bool := false
  shadowFrame : Nat × Nat := (0, 0)
  fill : Nat := 0
  frameGen : Nat := 0
  pinCount : Nat := 0
  lastUse : Nat := 0
  keyScale : Nat := 0
  valueScale : Nat := 0
  stale : Bool := false
deriving DecidableEq, Repr

/-- A lease record (R211) and the indices of pages that have left it (R214). -/
structure Lease where
  leaseId : Nat := 0
  holder : Nat := 0
  epoch : Nat := 0
  slice : Nat := 0
  params : LeaseParams := {}
  expiry : Nat := 0
  keyGen : Nat := 0
  left : List Nat := []
  appends : List Nat := []
  mapGen : Nat := 0
deriving DecidableEq, Repr

/-- Generation state of a key index or lease slot (R258, R261): current value, incarnation, past removals. -/
structure GenState where
  gen : Nat := 0
  incarnation : Nat := 0
  ended : List (Nat × Nat) := []
deriving DecidableEq, Repr

/-- An accumulator (R155): header fields and the parts' first granules; its bytes lie in stack memory. -/
structure Accumulator where
  slice : Nat := 0
  name : PageName := {}
  pass : Nat := 0
  frameGen : Nat := 0
  tags : List Nat := []
  updates : Nat := 0
  nonfinite : Bool := false
  parts : List (Nat × Nat × Nat) := []
  marked : Bool := false
  lost : Bool := false
  poisoned : Bool := false
deriving DecidableEq, Repr

/-- A stream-table entry (R232). -/
structure Stream where
  slice : Nat := 0
  handle : Nat := 0
  group : Nat := 0
  layer : Nat := 0
  backward : Bool := false
  blocks : List Nat := []
  updated : Nat := 0
deriving DecidableEq, Repr

/-- One copy of a replicated page (R204, R239, R240): the node; whether it acknowledged the copy of the present version; its grant
as version and end, whether the node acknowledged that, and whether it is being revoked; and when a relabel went out that is not
acknowledged. -/
structure CopyS where
  node : Nat := 0
  acked : Bool := false
  lastSent : Nat := 0
  granted : Option (Nat × Nat) := none
  stands : Bool := false
  revoking : Bool := false
  relabelled : Option Nat := none
deriving DecidableEq, Repr

/-- A replica record (R238). -/
structure Replica where
  slice : Nat := 0
  name : PageName := {}
  pins : Nat := 0
  copies : List CopyS := []
deriving DecidableEq, Repr

/-- A grant this node holds for a replica entry of another home (R204, R239). -/
structure HeldGrant where
  slice : Nat := 0
  name : PageName := {}
  home : Nat := 0
  frameGen : Nat := 0
  until_ : Nat := 0
deriving DecidableEq, Repr

/-- An outgoing transfer of names to one node (R202, R462): buckets or a marker not yet acknowledged. -/
structure Outgoing where
  node : Nat := 0
  bucket : Option Nat := none
  generation : Nat := 0
deriving DecidableEq, Repr

/-- What waits at the home until a replicated page's grants are revoked (R204, R223, R240): the release of its frame, its demotion,
the end of its demotion, the landing of its fill, the writes into its frame. -/
inductive MoveKind where
  | release | demote | demoted | land | write
deriving DecidableEq, Repr

/-- A change of a replicated page that waits for the revocation of its grants (R204). -/
structure PageMove where
  slice : Nat := 0
  name : PageName := {}
  kind : MoveKind := .release
deriving DecidableEq, Repr

/-- A fill or recovery that is running for an entry (R224, R241); `got` is a replica's copy that waits for a stack unit. -/
structure Fill where
  slice : Nat := 0
  name : PageName := {}
  cls : Nat := 4
  frame : Option (Nat × Nat) := none
  since : Nat := 0
  lookahead : Bool := false
  mediaError : Option (Nat × Nat) := none
  cause : Nat := 3
  recovering : Bool := false
  asked : List Nat := []
  askAt : Nat := 0
  got : Option PageImage := none
deriving DecidableEq, Repr

/-- Tier counters of one quarter (R245). -/
structure TierCount where
  fills : Nat := 0
  demotions : Nat := 0
  fallbacks : Nat := 0
  deadlineMisses : Nat := 0
  recoveries : Nat := 0
  lost : Nat := 0
  lookaheadHits : Nat := 0
  lookaheadLate : Nat := 0
deriving DecidableEq, Repr

/-- Home-directory state of the four quarters: `slotGens` are the `frame_gen` values that unused name-table slots still hold, by
(quarter × 2^19 + bucket) × 64 + slot (R461); `moves` are changes that wait for a revocation; `reclaiming` the reclamations that have
not reached `stack_high`, of a slice or of one stack (R222); `notHeld` are buckets that never came and that a later map takes on (R462). -/
structure Home where
  nameKey : Nat := 0
  seqs : List SeqRec := []
  entries : List Entry := []
  slotGens : Tbl Nat := []
  moves : List PageMove := []
  reclaiming : List (Nat × Option Nat) := []
  leases : Tbl Lease := []
  leaseGens : Tbl GenState := []
  accs : List Accumulator := []
  streams : List Stream := []
  replicas : List Replica := []
  held : List HeldGrant := []
  fills : List Fill := []
  lookLanded : List (Nat × PageName) := []
  cur : Option RouteMap := none
  prev : Option RouteMap := none
  drainOpen : Bool := false
  drainEnd : Nat := 0
  inflightCur : Nat := 0
  inflightPrev : Nat := 0
  outgoing : List Outgoing := []
  awaiting : List (Nat × Nat × Nat) := []
  awaitMarkers : List Nat := []
  notHeld : List Nat := []
  arrived : List BucketState := []
  unitsLost : List Nat := []
  nameRefusals : Nat := 0
  shadowSkips : Nat := 0
  replicaSkips : Nat := 0
  redirects : Nat := 0
  leaseConflicts : Nat := 0
  pagesTorn : Nat := 0
  tier : List TierCount := List.replicate 4 {}
deriving DecidableEq, Repr

/-! ## Locus (R166 to R195) -/

/-- An on-die entry (R170); `key2` stands in the odd block of a pair. -/
structure LEntry where
  key : Nat := 0
  key2 : Nat := 0
  tenant : Nat := 0
  epoch16 : Nat := 0
  level : Nat := 0
  isPublic : Bool := false
  ptr : Nat := 0
  parityBad : Bool := false
deriving DecidableEq, Repr

/-- An overflow entry (R179) in one of its candidate buckets. -/
structure OvfEntry where
  quarter : Nat := 0
  bucket : Nat := 0
  key : Nat := 0
  key2 : Nat := 0
  tenant : Nat := 0
  epoch16 : Nat := 0
  slice : Nat := 0
  level : Nat := 0
  ptr : Nat := 0
deriving DecidableEq, Repr

/-- The prefix directory: entries by block × 65,536 + index (a wide pair's by its even block), overflow, nodes. -/
structure Locus where
  entries : Tbl LEntry := []
  ovf : List OvfEntry := []
  nodes : Tbl PfxNode := []
  lostBlocks : List Nat := []
  deadGroups : List (Nat × Nat) := []
  rebuilding : List Nat := []
  hits : Nat := 0
  misses : Nat := 0
  collisions : Nat := 0
  conflicts : Nat := 0
  evictions : Nat := 0
  busyRefusals : Nat := 0
  parityErrors : Nat := 0
deriving DecidableEq, Repr

/-! ## Transport (R247 to R272) -/

/-- A key-table entry (R258). -/
structure KeyEnt where
  slice : Nat := 0
  group : Nat := 0xfff
  rights : Nat := 0
  base : Nat := 0
  length : Nat := 0
  lo : Nat := 0
  hi : Nat := 0
deriving DecidableEq, Repr

/-- What a response message carries (R251). -/
inductive RespBody where
  | none
  | attend (covered skipped tau delta skipBound : Nat) (codes : List Code) (rows : List (List Byte))
  | bwd (duplicate : Bool) (covered : Nat) (codes : List Code) (rows : List (List Byte))
  | collect (records : List (List Byte))
  | lookup (matched collisions lastKey : Nat) (lastKey2 : Option Nat) (runs : List (List Byte))
  | publish (records : List (List Byte))
  | conflict (block source : Nat)
  | released (n : Nat)
  | grant (leaseId expiry key : Nat) (fills : List Nat)
  | torn (pages : Nat)
  | handover (epoch owner state torn : Nat)
  | pins (pinned missing lost : Nat)
  | bytes (b : List Byte)
  | key (key base : Nat)
  | rows (n : Nat) (rows : List (List Byte))
  | shift (capW avgW pstate : Nat)
  | hello (levels level : Nat)
deriving DecidableEq, Repr

/-- A packet or message that the node sends. -/
inductive TxBody where
  | response (op variant : Nat) (code : Code) (mapGen load credit reqTag auxNode : Nat) (body : RespBody)
  | ack (psn msn : Nat)
  | nak (psn syndrome msn : Nat)
  | rnrNak (psn timer : Nat)
  | readData (psn : Nat) (data : List Byte)
  | atomicAck (psn original : Nat)
  | cnp (echo : Nat)
  | cmRep (remoteQpn qpn startPsn pmtu resources : Nat)
  | cmRej (remoteQpn : Nat)
  | cmReq (peer resources : Nat)
  | cmRtu (qpn : Nat)
  | cmDreq (qpn : Nat)
  | cmDrep (qpn : Nat)
  | helloReq (role : Nat)
  | cont (psn : Nat)
  | peerBucket (node : Nat) (b : BucketState)
  | peerMarker (node generation : Nat)
  | peerCopy (node slice : Nat) (name : PageName) (frameGen fill keyScale valueScale : Nat) (hull data : List (Nat × Byte))
  | peerGrant (node slice : Nat) (name : PageName) (frameGen : Nat)
  | peerRevoke (node slice : Nat) (name : PageName)
  | peerRelabel (node slice : Nat) (name : PageName) (oldGen newGen : Nat)
  | peerDrop (node slice : Nat) (name : PageName)
  | peerAsk (node slice : Nat) (name : PageName) (frameGen : Nat)
  | peerAck (a : PeerAck)
deriving DecidableEq, Repr

/-- A packet on its way: its queue pair (0 for none), its class of R290, its length L, its opcode (R247, R249), the UDP source port it
leaves with (R247), and for a RESPONSE its bytes after the BTH: the extended header and payload of R250 and R251. -/
structure TxPkt where
  qpn : Nat := 0
  queue : Nat := 0
  len : Nat := 0
  charged : Bool := false
  opcode : Nat := 0x11
  udp : Nat := 0
  data : List Byte := []
  body : TxBody := .ack 0 0
  enqueued : Nat := 0
deriving DecidableEq, Repr

/-- An unacknowledged response of R252: its first PSN and its packets, one PSN each. -/
structure Resp where
  psn : Nat := 0
  pkts : List TxPkt := []
deriving DecidableEq, Repr

/-- Queue-pair states of R267. -/
inductive QpState where
  | reset | rtr | rts | error
deriving DecidableEq, Repr

/-- The decision on the current WRITE message (R264, R269). -/
structure WriteMsg where
  key : Nat := 0
  va : Nat := 0
  apply : Bool := false
  left : Nat := 0
deriving DecidableEq, Repr

/-- Echo-rate state (R282) with the counts since the last notification (R280). -/
structure Echo where
  rc : Nat := 0
  rt : Nat := 0
  alpha : Nat := 65536
  n : Nat := 0
  tUpdate : Nat := 0
  tCnp : Nat := 0
  rx : Nat := 0
  ce : Nat := 0
deriving DecidableEq, Repr

/-- A queue-pair context (R269); `pacerAt` is the time of the pacer's last release (R283). -/
structure Ctx where
  remoteQpn : Nat := 0
  state : QpState := .reset
  cls : Nat := 0
  slice : Nat := 0
  nodeLevel : Bool := false
  peer : Nat := 0
  rid : Nat := 0
  group : Nat := 0
  addr : Nat := 0
  udpPort : Nat := 0
  pmtu : Nat := 4096
  resources : Nat := 8
  port : Nat := 0
  plane : Nat := 0
  ePsn : Nat := 0
  msn : Nat := 0
  nakked : Bool := false
  write : Option WriteMsg := none
  dupWrite : Option WriteMsg := none
  extOut : Nat := 0
  sendPsn : Nat := 0
  held : List Resp := []
  retries : Nat := 0
  rnrRetries : Nat := 0
  timer : Option Nat := none
  rnrTimer : Option Nat := none
  echo : Echo := {}
  atomics : List (Nat × Nat) := []
  rx : Nat := 0
  tx : Nat := 0
  lastError : Nat := 0
  level : Option Nat := none
  onDie : Bool := true
  lastUsed : Nat := 0
  loading : Bool := false
  discarding : Bool := false
  pacer : List TxPkt := []
  pacerAt : Nat := 0
  lastPeer : Nat := 0
  closing : Bool := false
deriving DecidableEq, Repr

/-- A connection attempt to a peer (R257): when its next REQ or attempt is due, and which port and address that REQ takes. -/
structure PeerTry where
  due : Nat := 0
  backoff : Nat := 10000000
  next : Nat := 0
deriving DecidableEq, Repr

/-- A packet in the miss buffer (R270). -/
structure Missed where
  qpn : Nat := 0
  at_ : Nat := 0
  bytes : Nat := 0
  cmd : Instr
deriving DecidableEq, Repr

/-- The transport engines; `cmQueues` has for each its queue of connection requests: the length and when one was last taken (R440). -/
structure Xpt where
  rnrCode : Nat := 1
  pmtuMax : Nat := 2
  ackTimeout : Nat := 0x64
  ctxs : Tbl Ctx := []
  regionKeys : Tbl KeyEnt := []
  serviceKeys : Tbl KeyEnt := []
  regionGens : Tbl GenState := []
  serviceGens : Tbl GenState := []
  isolation : Tbl IsoEntry := []
  missBuf : List Missed := []
  peers : Tbl PeerTry := []
  peerOut : List TxPkt := []
  cmQueues : List (Nat × Nat) := [(0, 0), (0, 0)]
  dropped : Nat := 0
  ctxMisses : Nat := 0
  missRnr : Nat := 0
  duplicates : Nat := 0
  staleDups : Nat := 0
  keyFaults : Nat := 0
  boundsFaults : Nat := 0
  rightsFaults : Nat := 0
  qpErrors : Nat := 0
  extAborted : Nat := 0
deriving DecidableEq, Repr

/-! ## Ports (R273 to R297) -/

/-- One egress queue (R290): its packets and, for a weighted queue, the finish tag of its last packet. -/
structure EgQueue where
  pkts : List (TxPkt × Nat) := []
  lastF : Nat := 0
deriving DecidableEq, Repr

/-- One port; `caps` are the tokens of the strict queues' buckets in units of 1/800 byte (R291). (DESIGN CHOICE, log entry 24.) -/
structure PortS where
  mode : Nat := 0
  cfg : PortCfg := {}
  lanes : Nat := 0
  linkUp : Bool := false
  held : Bool := false
  training : Bool := false
  downAt : Nat := 0
  swapping : Bool := false
  linkDowns : Nat := 0
  holdExpiries : Nat := 0
  queues : List EgQueue := List.replicate 19 {}
  caps : List Int := [52428800, 52428800, 52428800]
  capAt : Nat := 0
  vtime : Nat := 0
  depthHist : List (List Nat) := List.replicate 19 (List.replicate 16 0)
  delayHist : List (List Nat) := List.replicate 19 (List.replicate 16 0)
deriving DecidableEq, Repr

/-- A requester group (R285 to R289, R441); `tokens` is b in units of 1/1,280 byte, in which every refill is exact. (DESIGN CHOICE, log entry 24.) -/
structure GroupS where
  cfg : GroupCfg := {}
  tokens : Int := 0
  filledAt : Nat := 0
  ramp : Option Nat := none
  rxBytes : Nat := 0
  txBytes : Nat := 0
  admitted : Nat := 0
  retryLater : Nat := 0
deriving DecidableEq, Repr

/-- What R287 measures over the nanoseconds of one interval of 10 µs, as sums: per slice the cells that hold a tile group and the
commands outstanding on its drives, the bytes in the miss buffer, and per port the backlog of the weighted queues. -/
structure Meter where
  interval : Nat := 0
  cells : List Nat := List.replicate 8 0
  flash : List Nat := List.replicate 8 0
  miss : Nat := 0
  egress : List Nat := List.replicate 8 0
deriving DecidableEq, Repr

/-- Ports, lanes, groups and Echo-rate parameters; the measures of the load index, latest interval first. -/
structure Eth where
  ports : List PortS := List.replicate 8 {}
  lanesRetired : List Nat := []
  suspects : List Nat := []
  s0 : Option Nat := none
  s1 : Option Nat := none
  swaps : Nat := 0
  loopbackPasses : Nat := 0
  tInc : Nat := 0x37
  rAi : Nat := 0x1f4
  rMin : Nat := 0xa
  fastSteps : Nat := 5
  cnpGap : Nat := 4
  cnpsSent : Nat := 0
  cnpsReceived : Nat := 0
  histPort : Nat := 0
  histQueue : Nat := 0
  histKind : Nat := 0
  pauseDrops : Nat := 0
  cnpDrops : Nat := 0
  groups : Tbl GroupS := []
  load : Tbl Nat := []
  meters : List Meter := []
deriving DecidableEq, Repr

/-! ## Outstanding requests -/

/-- How one page of a request stands: decided with a code, or waiting for a fill or recovery under parked context `ctx`
after `tries` resolutions (R463), skipped for the rows listed (R110, R111), or at the near-bank units (R139). -/
inductive PageWait where
  | done (code : Code)
  | waiting (ctx tries : Nat) (skipRows : List Nat)
  | near
deriving DecidableEq, Repr

/-- What one row of an ATTEND_BWD computes on one page (R153, R154): per key its position, p and g as FP32 encodings, the
page's part of Σ g k, and whether a computed value spoils the row. -/
structure BwdTerm where
  keys : List (Nat × Nat × Nat) := []
  dq : List Nat := []
  bad : Bool := false
deriving DecidableEq, Repr

/-- The staging of one page (R158): the terms of every row. -/
structure Staging where
  page : Nat := 0
  rows : List BwdTerm := []
deriving DecidableEq, Repr

/-- A row of dQ (R162). -/
structure DqRow where
  dq : List Nat := []
  keys : Nat := 0
  empty : Bool := false
  nonfinite : Bool := false
  incomplete : Bool := false
deriving DecidableEq, Repr

/-- What an outstanding request is; `held` is one whose admission waits for the revocation of grants (R204). -/
inductive ReqKind where
  | attend (p : FwdParams) (pages : List PageWait) (rows : List Triple) (skips : List Nat) (pagesSkipped : Nat)
  | bwd (p : BwdParams) (pages : List PageWait) (staging : List Staging)
  | pin (p : PinParams) (waiting : List PageName) (pinned missing lost : Nat)
  | acquire (p : LeaseParams) (waiting : List PageName) (slot : Nat) (made : List PageName) (pre : List (PageName × PageState))
  | collect (p : BwdParams)
  | held (cmd : Instr)
deriving DecidableEq, Repr

/-- An admitted request not yet answered; `nearPages` and `cellPages` count its pages by the path that gave their contribution
(R117). -/
structure Req where
  qpn : Nat := 0
  hdr : ExtHdr := {}
  op : Nat := 0
  slice : Nat := 0
  cls : Nat := 0
  mapGen : Nat := 0
  onPrev : Bool := false
  admitted : Nat := 0
  phaseMode : Nat := 0
  microcode : List Nat := []
  nearPages : Nat := 0
  cellPages : Nat := 0
  kind : ReqKind
deriving DecidableEq, Repr

/-! ## What leaves the node -/

/-- What a persistence image restores (R387, R437): the stamp of its flush, the name-table key, sequence records in OWNED or
TOMBSTONE, entries with a complete flash copy, the current map, the service keys with their generations, the page-format records, the serials and
digests of R343, the event log, and the drives that hold its stripes. -/
structure PersistImage where
  stamp : Nat := 0
  nameKey : Nat := 0
  seqs : List SeqRec := []
  entries : List Entry := []
  cur : Option RouteMap := none
  serviceKeys : Tbl KeyEnt := []
  serviceGens : Tbl GenState := []
  formats : List PageFormat := []
  bs : Nat × Nat := (0, 0)
  sections : List (Nat × Nat) := []
  log : Log := {}
  drives : List Nat := []
deriving DecidableEq, Repr

/-- One event at the boundary: a frame on a port, a host write, an interrupt, a read completion, an NVMe command, an SPDM
answer, a supply or pin action. (DESIGN CHOICE, log entry 54.) -/
inductive Emit where
  | frame (port dscp ecn : Nat) (p : TxPkt)
  | status (addr word : Nat)
  | buffer (addr : Nat) (data : List Byte)
  | msix (vector : Nat)
  | regRead (offset size value : Nat)
  | unsupported (offset size : Nat)
  | memRead (addr : Nat) (data : List Byte)
  | nvme (drive cmd : Nat)
  | deallocate (drive granule count : Nat)
  | spdm (code : Nat) (data : List Nat)
  | thermTrip
  | phase (n : Nat) (on : Bool)
  | flushStart
  | flushMark
  | markCleared
  | svnBurn (n : Nat)
deriving DecidableEq, Repr

/-- The machine. `pending` is the queue of waiting commands; `free` counts the free values taken (the model's own field);
`emitted` is what has left the node, oldest first (the model's own field). -/
structure State where
  aon : Aon := {}
  ras : Ras := {}
  pwr : Pwr := {}
  sec : Sec := {}
  host : HostIf := {}
  log : Log := {}
  sch : Sch := {}
  eng : Engine := {}
  nbu : List NbRegion := List.replicate 8 {}
  mem : Mem := {}
  home : Home := {}
  locus : Locus := {}
  xpt : Xpt := {}
  eth : Eth := {}
  reqs : Tbl Req := []
  nextReq : Nat := 0
  image : Option PersistImage := none
  free : Nat := 0
  emitted : List Emit := []
  pending : List Instr := []
deriving DecidableEq, Repr

/-- The node held in reset by RESET_N with every supply in range, after a cold start: every register at its reset value,
nothing stored, nothing waiting (R429, R450; the log entries name the values the manual does not give).
(DEDUCED, log entry 6.) (DESIGN CHOICE, log entry 7.) -/
def State.reset : State := {}

end Sys2Proof.Machine
end

