-- ==== Sys2Proof/Machine/Fp.lean ====
section
/-! DEFINITION. Floating-point arithmetic as the manual states it: exact dyadic numbers with the IEEE 754 special values,
rounding to FP32 and BF16 (R10, R75, R109, R113), the element formats of R94, the exponential of R76 and sums in an
unspecified order (R90). -/

namespace Sys2Proof.Machine

/-- A number between roundings: sign, magnitude `m * 2^e`; an infinity; not a number. -/
inductive Num where
  | fin (neg : Bool) (m : Nat) (e : Int)
  | inf (neg : Bool)
  | nan
deriving DecidableEq, Repr

/-- Rounding directions of the manual: nearest with ties to even, toward +∞, toward −∞. -/
inductive Rounding where
  | near | up | down
deriving DecidableEq, Repr

/-- Positive zero. -/
def Num.zero : Num := .fin false 0 0

/-- One. -/
def Num.one : Num := .fin false 1 0

/-- Negative infinity, the m of an empty row (R10). -/
def Num.negInf : Num := .inf true

/-- Whether the number is finite. -/
def Num.isFin : Num → Bool
  | .fin _ _ _ => true
  | _ => false

/-- Whether the number is a zero. -/
def Num.isZero : Num → Bool
  | .fin _ m _ => m = 0
  | _ => false

/-- The number with the other sign. -/
def Num.neg : Num → Num
  | .fin n m e => .fin (!n) m e
  | .inf n => .inf (!n)
  | .nan => .nan

/-- The magnitude. -/
def Num.abs : Num → Num
  | .fin _ m e => .fin false m e
  | .inf _ => .inf false
  | .nan => .nan

/-- The signed integer `m * 2^(e - lo)` of a finite number, for `lo ≤ e`. -/
def Num.scaled (neg : Bool) (m : Nat) (e lo : Int) : Int :=
  let v : Int := (m * 2 ^ (e - lo).toNat : Nat)
  if neg then -v else v

/-- The exact sum; an exact zero of two opposite numbers is +0, as IEEE 754 gives it in round to nearest. -/
def Num.add : Num → Num → Num
  | .nan, _ => .nan
  | _, .nan => .nan
  | .inf a, .inf b => if a = b then .inf a else .nan
  | .inf a, _ => .inf a
  | _, .inf b => .inf b
  | .fin n m e, .fin n' m' e' =>
    if m = 0 ∧ m' = 0 then .fin (n && n') 0 0
    else
      let lo := min e e'
      let v := Num.scaled n m e lo + Num.scaled n' m' e' lo
      .fin (v < 0) v.natAbs lo

/-- The exact product. -/
def Num.mul : Num → Num → Num
  | .nan, _ => .nan
  | _, .nan => .nan
  | .inf a, .inf b => .inf (a != b)
  | .inf a, .fin n m _ => if m = 0 then .nan else .inf (a != n)
  | .fin n m _, .inf b => if m = 0 then .nan else .inf (n != b)
  | .fin n m e, .fin n' m' e' => .fin (n != n') (m * m') (e + e')

/-- The exact difference. -/
def Num.sub (a b : Num) : Num := a.add b.neg

/-- Less than; false where either is not a number. -/
def Num.lt : Num → Num → Bool
  | .nan, _ => false
  | _, .nan => false
  | .inf a, .inf b => a && !b
  | .inf a, _ => a
  | _, .inf b => !b
  | .fin n m e, .fin n' m' e' =>
    let lo := min e e'
    Num.scaled n m e lo < Num.scaled n' m' e' lo

/-- The larger of two numbers. -/
def Num.max (a b : Num) : Num := if a.lt b then b else a

/-- The magnitude of a quotient by `2^k`, rounded in a direction given for the magnitude. -/
def roundShift (r : Rounding) (neg : Bool) (m k : Nat) : Nat :=
  let q := m / 2 ^ k
  let rem := m % 2 ^ k
  match r with
  | .near =>
    if 2 * rem < 2 ^ k then q
    else if 2 * rem = 2 ^ k then q + q % 2
    else q + 1
  | .up => if rem = 0 ∨ neg then q else q + 1
  | .down => if rem = 0 ∨ !neg then q else q + 1

/-- Round to a binary format of `prec` significant bits whose smallest positive number is `2^emin` and whose numbers lie
below `2^emax`. -/
def Num.round (r : Rounding) (prec : Nat) (emin emax : Int) : Num → Num
  | .nan => .nan
  | .inf n => .inf n
  | .fin n m e =>
    if m = 0 then .fin n 0 0
    else
      let q := Max.max (e + (Nat.log2 m + 1 : Nat) - prec) emin
      let m' := if q ≤ e then m * 2 ^ (e - q).toNat else roundShift r n m (q - e).toNat
      if m' = 0 then .fin n 0 0
      else if emax < q + (Nat.log2 m' + 1 : Nat) then
        if (r = .up ∧ n) ∨ (r = .down ∧ !n) then .fin n (2 ^ prec - 1) (emax - prec)
        else .inf n
      else .fin n m' q

/-- Round to FP32 (R75: nearest, ties to even). -/
def rn (x : Num) : Num := x.round .near 24 (-149) 128

/-- Round to FP32 toward +∞ (R109, R113). -/
def ru (x : Num) : Num := x.round .up 24 (-149) 128

/-- Round to BF16, nearest (R88, R97). -/
def rnB (x : Num) : Num := x.round .near 8 (-133) 128

/-- The number of an IEEE binary encoding with `eb` exponent bits and `fb` fraction bits. -/
def ofIeee (eb fb x : Nat) : Num :=
  let f := x % 2 ^ fb
  let ex := (x / 2 ^ fb) % 2 ^ eb
  let n : Bool := (x / 2 ^ (fb + eb)) % 2 = 1
  let bias : Int := (2 ^ (eb - 1) - 1 : Nat)
  if ex = 2 ^ eb - 1 then (if f = 0 then .inf n else .nan)
  else if ex = 0 then .fin n f (1 - bias - fb)
  else .fin n (2 ^ fb + f) ((ex : Int) - bias - fb)

/-- The encoding of a number that is exact in the format; not a number is encoded by the quiet NaN of R86. -/
def toIeee (eb fb : Nat) : Num → Nat
  | .nan => (2 ^ eb - 1) * 2 ^ fb + 2 ^ (fb - 1)
  | .inf n => b2n n * 2 ^ (eb + fb) + (2 ^ eb - 1) * 2 ^ fb
  | .fin n m e =>
    let bias : Int := (2 ^ (eb - 1) - 1 : Nat)
    let s := b2n n * 2 ^ (eb + fb)
    if m = 0 then s
    else
      let top : Int := e + (Nat.log2 m : Nat)
      if top < 1 - bias then s + (if 0 ≤ e - (1 - bias - fb) then m * 2 ^ (e - (1 - bias - fb)).toNat
        else m / 2 ^ ((1 - bias - fb) - e).toNat)
      else
        let frac := if Nat.log2 m ≤ fb then m * 2 ^ (fb - Nat.log2 m) else m / 2 ^ (Nat.log2 m - fb)
        s + (top + bias).toNat * 2 ^ fb + (frac - 2 ^ fb)

/-- The number of an FP32 encoding. -/
def ofF32 (x : Nat) : Num := ofIeee 8 23 x

/-- The FP32 encoding of a number, rounded to nearest. -/
def toF32 (x : Num) : Nat := toIeee 8 23 (rn x)

/-- The number of a BF16 encoding (R94). -/
def ofBf16 (x : Nat) : Num := ofIeee 8 7 x

/-- The BF16 encoding of a number, rounded to nearest. -/
def toBf16 (x : Num) : Nat := toIeee 8 7 (rnB x)

/-- The number of an FP8 E4M3 encoding (R94): no infinity, 0x7F and 0xFF not numbers. -/
def ofFp8 (x : Nat) : Num :=
  let f := x % 8
  let ex := (x / 8) % 16
  let n : Bool := (x / 128) % 2 = 1
  if ex = 15 ∧ f = 7 then .nan
  else if ex = 0 then .fin n f (-9)
  else .fin n (8 + f) ((ex : Int) - 10)

/-- The integer of an INT8 encoding (R94). -/
def ofInt8 (x : Nat) : Num :=
  let v := x % 256
  if v < 128 then .fin false v 0 else .fin true (256 - v) 0

/-- The element of an E2M1 nibble (R94). -/
def ofE2m1 (x : Nat) : Num :=
  let n : Bool := (x / 8) % 2 = 1
  let ex := (x / 2) % 4
  let f := x % 2
  if ex = 0 then .fin n f (-1) else .fin n (2 + f) ((ex : Int) - 2)

/-- An MXFP4 element under its E8M0 scale (R94): not a number under scale 0xFF, infinite above the FP32 range. -/
def ofMx (nib scale : Nat) : Num :=
  if scale % 256 = 255 then .nan
  else match ofE2m1 nib with
    | .fin n m e =>
      let x : Num := .fin n m (e + ((scale % 256 : Nat) : Int) - 127)
      if (Num.fin false (2 ^ 24 - 1) 104).lt x.abs then .inf n else x
    | y => y

/-- log2 e to 64 fraction bits (R75 asks for at least 48). -/
def log2e : Num := .fin false 0x171547652b82fe177 (-64)

/-- c = RN(scale × log2 e) (R75). -/
def scoreConst (scale : Nat) : Num := rn ((ofF32 scale).mul log2e)

/-- The FP32 sum. -/
def fadd (a b : Num) : Num := rn (a.add b)

/-- The FP32 product. -/
def fmul (a b : Num) : Num := rn (a.mul b)

/-! ## The exponential (R76) -/

/-- 2^(2^-k) × 2^64 for k from 1, truncated. -/
def rootsOfTwo : List Nat :=
  [0x16a09e667f3bcc908, 0x1306fe0a31b7152de, 0x1172b83c7d517adcd, 0x10b5586cf9890f629, 0x1059b0d31585743ae,
   0x102c9a3e778060ee6, 0x10163da9fb33356d8, 0x100b1afa5abcbed61, 0x10058c86da1c09ea1, 0x1002c605e2e8cec50,
   0x100162f3904051fa1, 0x1000b175effdc76ba, 0x100058ba01fb9f96d, 0x10002c5cc37da9491, 0x1000162e525ee0547,
   0x10000b17255775c04, 0x1000058b91b5bc9ae, 0x100002c5c89d5ec6c, 0x10000162e43f4f831, 0x100000b1721bcfc99,
   0x10000058b90cf1e6d, 0x1000002c5c863b73f, 0x100000162e430e5a1, 0x1000000b172183551, 0x100000058b90c0b48,
   0x10000002c5c8601cc, 0x1000000162e42fff0, 0x10000000b17217fba, 0x1000000058b90bfcd, 0x100000002c5c85fe3,
   0x10000000162e42ff0, 0x100000000b17217f8, 0x10000000058b90bfb, 0x1000000002c5c85fd, 0x100000000162e42fe,
   0x1000000000b17217f, 0x100000000058b90bf, 0x10000000002c5c85f, 0x1000000000162e42f, 0x10000000000b17217]

/-- 2^(f / 2^40) × 2^64 for a 40-bit fraction `f`, truncated. -/
def pow2Frac (f : Nat) : Nat :=
  (rootsOfTwo.zipIdx).foldl (fun a p => if bit f (39 - p.2) then a * p.1 / 2 ^ 64 else a) (2 ^ 64)

/-- The integer part of a finite number, rounded toward −∞, and its fraction in units of 2^-40, truncated. -/
def splitNum (n : Bool) (m : Nat) (e : Int) : Int × Nat :=
  let v := Num.scaled n m (Max.max e (-170)) (-170)
  let w := v / (2 ^ 130 : Nat)
  (w / (2 ^ 40 : Nat), (w % (2 ^ 40 : Nat)).toNat)

/-- How many multiples of `g` lie from `lo` to below `hi`. -/
def gridCount (g lo hi : Nat) : Nat := (hi + g - 1) / g - (lo + g - 1) / g

/-- Element `k` of the FP32 numbers that R76 allows for 2^(frac), in units of 2^-64: those within 2^-22 of the exact value, which
lies from `mant` to `mant + mant / 2^39`. Below 1 the numbers lie 2^40 units apart where `half` holds, from 1 on 2^41, from 2 on
2^42. -/
def nearPow2 (half : Bool) (mant k : Nat) : Nat :=
  let lo := mant + mant / 2 ^ 39 + 1 - mant / 2 ^ 22
  let hi := mant + mant / 2 ^ 22 + 1
  let g := if half then 2 ^ 40 else 2 ^ 41
  let a := gridCount g lo (min hi (2 ^ 64))
  let b := gridCount (2 ^ 41) (max lo (2 ^ 64)) (min hi (2 ^ 65))
  let c := gridCount (2 ^ 42) (max lo (2 ^ 65)) hi
  let i := k % max 1 (a + b + c)
  if i < a then (lo + g - 1) / g * g + i * g
  else if i < a + b then (max lo (2 ^ 64) + 2 ^ 41 - 1) / 2 ^ 41 * 2 ^ 41 + (i - a) * 2 ^ 41
  else 2 ^ 65 + (i - a - b) * 2 ^ 42

/-- exp2 (R76): exact at the integers from −126 to 15, +0 below −126; between the integers an FP32 number that the manual leaves
free within a relative 2^-22 of the exact value, one function of the argument. (DESIGN CHOICE, log entry 10.) -/
def exp2 (x : Num) : Num :=
  match x with
  | .nan => .nan
  | .inf true => .zero
  | .inf false => .inf false
  | .fin n m e =>
    if x.lt (.fin true 126 0) then .zero
    else
      let p := splitNum n m e
      if (x.sub (.fin (p.1 < 0) p.1.natAbs 0)).isZero then .fin false 1 p.1
      else .fin false (nearPow2 (-126 < p.1) (pow2Frac p.2) (Config.freeValue Site.exp2 0 (toF32 x)) / 2 ^ 40) (p.1 - 24)

/-! ## Sums whose order the manual leaves open (R90) -/

/-- Take the elements in an order that `pick` chooses. -/
def permute (pick : Nat → Nat) : Nat → List Num → List Num
  | 0, l => l
  | _, [] => []
  | _, [x] => [x]
  | k + 1, x :: l =>
    let i := pick k % (l.length + 1)
    let y := (x :: l).getD i x
    y :: permute pick k ((x :: l).eraseIdx i)

/-- One level of a balanced tree of FP32 additions. -/
def treeLevel : List Num → List Num
  | a :: b :: t => fadd a b :: treeLevel t
  | l => l

/-- A tree of depth 5 (R78). -/
def tree5 (l : List Num) : Num :=
  (treeLevel (treeLevel (treeLevel (treeLevel (treeLevel l))))).headD .zero

/-- Groups of 32, in order; `fuel` bounds their number. -/
def groups32 : Nat → List Num → List (List Num)
  | 0, _ => []
  | fuel + 1, l => if l.isEmpty then [] else l.take 32 :: groups32 fuel (l.drop 32)

/-- An FP32 sum of exact terms: the terms in an order the manual leaves free, in trees of depth 5 whose results are added
one after the other (R75, R78, R90). (DESIGN CHOICE, log entry 10.) -/
def sumFree (pick : Nat → Nat) (l : List Num) : Num :=
  let l' := permute pick l.length l
  ((groups32 l'.length l').map tree5).foldl (fun a x => if a = .zero then x else fadd a x) .zero

end Sys2Proof.Machine
end

