-- ==== Sys2Proof/Machine/Flags.lean ====
section
/-! DEFINITION. Codes, flags and records: the status codes of R14, the status word of R415, the row flags of R88 and R162,
the log, detection, throttle and event records of R354, R380, R423 and R424, the result record of R141 with the CRC-16 tag
of R142, and the ring entry of R413. -/

namespace Sys2Proof.Machine

/-- The number of a status code (R14). -/
def Code.num : Code → Nat
  | .ok => 0x00
  | .part => 0x01
  | .empty => 0x02
  | .miss => 0x03
  | .torn => 0x04
  | .pageLost => 0x05
  | .fenced => 0x06
  | .redirect => 0x07
  | .publishConflict => 0x08
  | .keyFault => 0x09
  | .boundsFault => 0x0a
  | .rightsFault => 0x0b
  | .deadlineFallback => 0x0c
  | .busy => 0x0d
  | .retryLater => 0x0e
  | .formatError => 0x0f
  | .leaseConflict => 0x10
  | .poisoned => 0x11
  | .preempted => 0x12
  | .aborted => 0x13
  | .pendingEnable => 0x14

/-- All status codes, by rising number. -/
def Code.all : List Code :=
  [.ok, .part, .empty, .miss, .torn, .pageLost, .fenced, .redirect, .publishConflict, .keyFault, .boundsFault,
   .rightsFault, .deadlineFallback, .busy, .retryLater, .formatError, .leaseConflict, .poisoned, .preempted, .aborted,
   .pendingEnable]

/-- The status code of a number; a number the node never emits acts as ABORTED (R15). -/
def Code.ofNum (n : Nat) : Code := Code.all.getD n .aborted

/-- The condition classes of R17, steps 1 to 10, that decide a Request-scope code, with the code each reports. -/
def Code.first (conds : List (Bool × Code)) : Code :=
  match conds with
  | [] => .ok
  | (true, c) :: _ => c
  | (false, _) :: t => Code.first t

/-- The status word of R415: state [63:60], code [59:52], progress [31:0]. -/
def statusWord (state : Nat) (c : Code) (progress : Nat) : Nat :=
  state % 16 * 2 ^ 60 + c.num * 2 ^ 52 + progress % 2 ^ 32

/-- row_flags of R88. -/
def Triple.flags (t : Triple) : Nat :=
  b2n t.deferred + 2 * b2n t.nonfinite + 4 * b2n t.skipped + 8 * b2n t.fallback + 16 * b2n t.incomplete

/-- Whether the triple is empty (m = −∞, R85). -/
def Triple.isEmpty (t : Triple) : Bool := !t.nonfinite && t.m = 0xff800000

/-- row_code of R88: OK or EMPTY. -/
def Triple.code (t : Triple) : Code := if t.isEmpty then .empty else .ok

/-- The row record of R88, big-endian: m, l, row_code, row_flags, rescales, keys, then O in FP32 or BF16. -/
def Triple.record (bf16 : Bool) (t : Triple) : List Byte :=
  beBytes 4 t.m ++ beBytes 4 t.l ++ beBytes 1 t.code.num ++ beBytes 1 t.flags ++ beBytes 2 (min t.rescales max16) ++
  beBytes 4 t.keys ++
  (t.o.map (fun x => if bf16 then beBytes 2 (if t.nonfinite then 0x7fc0 else toBf16 (ofF32 x)) else beBytes 4 x)).flatten

/-- row_code of R162. -/
def DqRow.code (r : DqRow) : Code := if r.empty then .empty else .ok

/-- The row record of R162, big-endian. -/
def DqRow.record (bf16 : Bool) (r : DqRow) : List Byte :=
  beBytes 1 r.code.num ++ beBytes 1 (2 * b2n r.nonfinite + 16 * b2n r.incomplete) ++ beBytes 2 0 ++ beBytes 4 r.keys ++
  (r.dq.map (fun x => if bf16 then beBytes 2 (if r.nonfinite then 0x7fc0 else toBf16 (ofF32 x)) else beBytes 4 x)).flatten

/-- The descriptor of a log entry (R423). -/
def logDescriptor (q : Nat) (e : LogEntry) : Nat :=
  q % 2 ^ 48 + e.kind % 256 * 2 ^ 48 + e.island % 128 * 2 ^ 56 + 2 ^ 63

/-- The event record of R423. -/
def eventRecord (stamp event slice status arg0 arg1 arg2 : Nat) : List Byte :=
  leBytes 8 stamp ++ leBytes 2 event ++ leBytes 1 slice ++ leBytes 1 status ++ leBytes 4 arg0 ++ leBytes 8 arg1 ++
  leBytes 8 arg2

/-- The two's complement of an integer in `n` bits. -/
def twos (n : Nat) (v : Int) : Nat := (v % (2 ^ n : Nat)).toNat

/-- The detection record of R354. -/
def detectionRecord (stamp detector kind island activity unit : Nat) (temp : Int) (volt outcome slice context : Nat) :
    List Byte :=
  leBytes 8 stamp ++ leBytes 1 detector ++ leBytes 1 kind ++ leBytes 1 island ++ leBytes 1 activity ++ leBytes 4 unit ++
  leBytes 2 (twos 16 temp) ++ leBytes 2 volt ++ leBytes 1 outcome ++ leBytes 1 slice ++ leBytes 2 0 ++ leBytes 8 context

/-- One step of the CRC-16 of R142 over a byte, most significant bit first: polynomial 0x1021. -/
def crcByte (c : Nat) (b : Byte) : Nat :=
  (List.range 8).foldl (fun c _ => if 0x8000 ≤ c then (c * 2 % 65536) ^^^ 0x1021 else c * 2) (c ^^^ (b.toNat * 256))

/-- The CRC-16 of a byte string, initial value 0xFFFF. -/
def crc16 (l : List Byte) : Nat := l.foldl crcByte 0xffff

/-- The tag of a 32-byte column: over its bytes, then bits [7:0] and [15:8] of the window stamp (R142). -/
def columnTag (col : List Byte) (stamp : Nat) : Nat := crc16 (col ++ leBytes 2 stamp)

/-- The columns of a record, 32 bytes each; `fuel` bounds their number. -/
def columns : Nat → List Byte → List (List Byte)
  | 0, _ => []
  | n + 1, l => if l.isEmpty then [] else l.take 32 :: columns n (l.drop 32)

/-- The fields of a result record (R141) beside O. -/
structure ResultRec where
  stamp : Nat := 0
  m : Nat := 0xff800000
  l : Nat := 0
  keys : Nat := 0
  steps : Nat := 0
  head : Nat := 0
  row : Nat := 0
  status : Nat := 0
  flags : Nat := 0
  abortRow : Nat := 0
  abortUnit : Nat := 0
  abortBank : Nat := 0
  ceCount : Nat := 0
  o : List Nat := []
deriving DecidableEq, Repr

/-- The bytes of a result record (R141), little-endian. -/
def ResultRec.encode (r : ResultRec) : List Byte :=
  leBytes 8 r.stamp ++ leBytes 4 r.m ++ leBytes 4 r.l ++ leBytes 4 r.keys ++ leBytes 2 r.steps ++ leBytes 1 r.head ++
  leBytes 1 r.row ++ leBytes 1 r.status ++ leBytes 1 r.flags ++ leBytes 2 r.abortRow ++ leBytes 1 r.abortUnit ++
  leBytes 1 r.abortBank ++ leBytes 1 r.ceCount ++ leBytes 1 0 ++ (r.o.map (leBytes 4)).flatten

/-- Little-endian words of `k` bytes, `n` of them. -/
def leWords (k : Nat) : Nat → List Byte → List Nat
  | 0, _ => []
  | n + 1, l => fromLe (l.take k) :: leWords k n (l.drop k)

/-- A little-endian field of a byte string. -/
def leField (l : List Byte) (off n : Nat) : Nat := fromLe ((l.drop off).take n)

/-- Read a result record of `d` O elements (R141). -/
def ResultRec.decode (d : Nat) (l : List Byte) : ResultRec :=
  { stamp := leField l 0 8, m := leField l 8 4, l := leField l 12 4, keys := leField l 16 4, steps := leField l 20 2,
    head := leField l 22 1, row := leField l 23 1, status := leField l 24 1, flags := leField l 25 1,
    abortRow := leField l 26 2, abortUnit := leField l 28 1, abortBank := leField l 29 1, ceCount := leField l 30 1,
    o := leWords 4 d (l.drop 32) }

/-- Read a ring entry of 64 bytes (R413). -/
def RingEntry.decode (l : List Byte) : RingEntry :=
  { op := leField l 0 2, irq := bit (leField l 2 1) 0, fence := bit (leField l 2 1) 1, flagsHi := leField l 2 1 / 4,
    slice := leField l 3 1, opTag := leField l 4 4, statusAddr := leField l 8 8, bufAddr := leField l 16 8,
    bufLen := leField l 24 4, reserved := leField l 28 4, params := (l.drop 32).take 32 }

/-- The 64 bytes of a ring entry (R413). -/
def RingEntry.encode (e : RingEntry) : List Byte :=
  leBytes 2 e.op ++ leBytes 1 (b2n e.irq + 2 * b2n e.fence + 4 * e.flagsHi) ++ leBytes 1 e.slice ++ leBytes 4 e.opTag ++
  leBytes 8 e.statusAddr ++ leBytes 8 e.bufAddr ++ leBytes 4 e.bufLen ++ leBytes 4 e.reserved ++ e.params

/-- Word 1 of a name-table entry (R61), without its state fields. -/
def nameWord1 (n : PageName) (slice : Nat) : Nat :=
  n.layer % 4096 * 2 ^ 52 + n.block % 2 ^ 20 * 2 ^ 32 + n.group % 256 * 2 ^ 24 + slice % 8 * 2 ^ 21

/-- Code of a frame state (R62). -/
def FrameState.num : FrameState → Nat
  | .allocated => 0
  | .stack => 1
  | .stackClean => 2
  | .demoting => 3
  | .flash => 4
  | .filling => 5
  | .poisoned => 6
  | .dropped => 7

/-- Code of a page state (R216). -/
def PageState.num : PageState → Nat
  | .unpublished => 0
  | .writeOpenNew => 1
  | .published => 2
  | .writeOpen => 3
  | .tornNew => 4
  | .torn => 5

/-- The page state of a code (R216). -/
def PageState.ofNum : Nat → PageState
  | 1 => .writeOpenNew
  | 2 => .published
  | 3 => .writeOpen
  | 4 => .tornNew
  | 5 => .torn
  | _ => .unpublished

/-- The eight words of a name-table entry (R61). (DESIGN CHOICE, log entry 74.) -/
def Entry.words (e : Entry) : List Nat :=
  [e.name.handle % 2 ^ 64,
   nameWord1 e.name e.slice + 2 ^ 20 + b2n e.hullValid * 2 ^ 19 + b2n e.shadowValid * 2 ^ 18 + b2n e.writeValid * 2 ^ 17 +
     e.frameState.num * 2 ^ 12 + e.pageState.num * 2 ^ 8,
   e.stackFrame.1 % 8 * 2 ^ 61 + e.stackFrame.2 % 2 ^ 21 * 2 ^ 40 + e.writeFrame.1 % 8 * 2 ^ 37 +
     e.writeFrame.2 % 2 ^ 21 * 2 ^ 16,
   e.flashDrive % 16 * 2 ^ 60 + e.flashGranule * 16 % 2 ^ 40 * 2 ^ 20,
   e.hullLoc.1 % 8 * 2 ^ 61 + e.hullLoc.2.1 % 2 ^ 21 * 2 ^ 40 + e.hullLoc.2.2 % 2 ^ 9 * 2 ^ 31 +
     e.shadowFrame.1 % 8 * 2 ^ 28 + e.shadowFrame.2 % 2 ^ 21 * 2 ^ 7,
   e.fill % 2 ^ 11 * 2 ^ 53 + e.frameGen % 2 ^ 16 * 2 ^ 37,
   e.pinCount % 2 ^ 16 * 2 ^ 48 + e.lastUse % 2 ^ 32,
   e.keyScale % 2 ^ 32 * 2 ^ 32 + e.valueScale % 2 ^ 32]

/-- Code of a slice state (R422). -/
def SliceState.num : SliceState → Nat
  | .absent => 0
  | .composing => 1
  | .serving => 2
  | .recomposing => 3
  | .draining => 4
  | .disabled => 5

/-- The unit field, unit kind and island of a unit (R354, R35). -/
def unitKind : UnitId → Nat
  | .cell _ => 0
  | .vector _ => 1
  | .nbu _ _ _ => 2

/-- The unit number of R354. -/
def unitNum : UnitId → Nat
  | .cell n => n
  | .vector b => b
  | .nbu s d u => s * 2048 + d * 132 + u

/-- The island of a unit: its block's, or the memory controller's (R35). (DEDUCED, log entry 29.) -/
def unitIsland : UnitId → Nat
  | .cell n => n / 4
  | .vector b => b
  | .nbu s _ _ => 40 + s

/-- One key for each unit in the unit table. -/
def unitKey (u : UnitId) : Nat := unitKind u * 65536 + unitNum u

end Sys2Proof.Machine
end

