-- ==== Sys2Proof/Machine/Ops.lean ====
section
/-! DEFINITION. The named operations over the state that every family uses: the updates of one part of the state, free
values, SipHash (R460), stack memory and its addresses (R51 to R54, R58 to R60), frame placement (R47, R122, R123), the
event log and interrupts (R420, R423), RESET and power gating of commands. -/

namespace Sys2Proof.Machine

/-! ## Updates of one part -/

/-- Change the always-on part. -/
def State.onAon (f : Aon → Aon) (s : State) : State := { s with aon := f s.aon }
/-- Change the reliability part. -/
def State.onRas (f : Ras → Ras) (s : State) : State := { s with ras := f s.ras }
/-- Change the power part. -/
def State.onPwr (f : Pwr → Pwr) (s : State) : State := { s with pwr := f s.pwr }
/-- Change the security part. -/
def State.onSec (f : Sec → Sec) (s : State) : State := { s with sec := f s.sec }
/-- Change the host-interface part. -/
def State.onHost (f : HostIf → HostIf) (s : State) : State := { s with host := f s.host }
/-- Change the event log. -/
def State.onLog (f : Log → Log) (s : State) : State := { s with log := f s.log }
/-- Change the slices and their scheduling. -/
def State.onSch (f : Sch → Sch) (s : State) : State := { s with sch := f s.sch }
/-- Change the cells, blocks and links. -/
def State.onEng (f : Engine → Engine) (s : State) : State := { s with eng := f s.eng }
/-- Change the near-bank part of one region. -/
def State.onNbu (r : Nat) (f : NbRegion → NbRegion) (s : State) : State := { s with nbu := s.nbu.modify r f }
/-- Change the stack memory, spans and drives. -/
def State.onMem (f : Mem → Mem) (s : State) : State := { s with mem := f s.mem }
/-- Change the home directory. -/
def State.onHome (f : Home → Home) (s : State) : State := { s with home := f s.home }
/-- Change the prefix directory. -/
def State.onLocus (f : Locus → Locus) (s : State) : State := { s with locus := f s.locus }
/-- Change the transport. -/
def State.onXpt (f : Xpt → Xpt) (s : State) : State := { s with xpt := f s.xpt }
/-- Change the ports. -/
def State.onEth (f : Eth → Eth) (s : State) : State := { s with eth := f s.eth }
/-- Change the outstanding requests. -/
def State.onReqs (f : Tbl Req → Tbl Req) (s : State) : State := { s with reqs := f s.reqs }
/-- Change the persistence image on the drives. -/
def State.onImage (i : Option PersistImage) (s : State) : State := { s with image := i }
/-- Something leaves the node. (DESIGN CHOICE, log entry 54.) -/
def State.emit (e : Emit) (s : State) : State := { s with emitted := s.emitted ++ [e] }

/-- The node runs: out of reset, clocked and not tripped (R431, R450, R453, R454). -/
def State.running (s : State) : Bool := s.aon.phase = .running

/-- A command that reaches a node which is not running has no effect: nothing in it is clocked (R450, R453, R454). (DEDUCED, log entry 5.) -/
def State.whenUp (f : State → State) (s : State) : State := if s.running then f s else s

/-- No slice lists a block, nor has it joining or leaving (R302, R307). (DEDUCED, log entry 65.) -/
def State.idleBlock (s : State) (b : Nat) : Bool :=
  s.sch.slices.all (fun x => (x.state = .absent || !bit x.cfg.blocks b) &&
    !x.changes.contains (.addBlock b) && !x.changes.contains (.removeBlock b))

/-- A block's island runs: not stopped, which it is while the block is idle, and not held for heat (R36, R302, R381). -/
def State.blockUp (s : State) (b : Nat) : Bool := !s.aon.stopped.contains b && !s.idleBlock b && !s.pwr.blocksHot

/-- The time stamp (R37). (DESIGN CHOICE, log entry 61.) -/
def State.now (s : State) : Nat := s.aon.now

/-- Take a free value of a site; `k` tells apart the values of one step. (DESIGN CHOICE, log entry 9.) -/
def State.pick (s : State) (site k : Nat) : Nat := Config.freeValue site s.free k

/-- Advance the counter of free values. -/
def State.bump (s : State) : State := { s with free := s.free + 1 }

/-! ## SipHash-2-4 (R460) -/

/-- The four lanes of SipHash. -/
structure Sip where
  v0 : W64
  v1 : W64
  v2 : W64
  v3 : W64

/-- One round. -/
def Sip.round (x : Sip) : Sip :=
  let a0 := x.v0 + x.v1
  let a1 := x.v1.rotateLeft 13 ^^^ a0
  let a0' := a0.rotateLeft 32
  let a2 := x.v2 + x.v3
  let a3 := x.v3.rotateLeft 16 ^^^ a2
  let b0 := a0' + a3
  let b3 := a3.rotateLeft 21 ^^^ b0
  let b2 := a2 + a1
  let b1 := a1.rotateLeft 17 ^^^ b2
  ⟨b0, b1, b2.rotateLeft 32, b3⟩

/-- Compress one 64-bit word: two rounds. -/
def Sip.word (x : Sip) (m : W64) : Sip :=
  let y := (Sip.mk x.v0 x.v1 x.v2 (x.v3 ^^^ m)).round.round
  { y with v0 := y.v0 ^^^ m }

/-- Compress a message: its 8-byte words, then the last bytes with the length in the top byte. -/
def Sip.absorb (len : Nat) : Nat → Sip → List Byte → Sip
  | 0, x, _ => x
  | n + 1, x, l =>
    if l.length < 8 then x.word (BitVec.ofNat 64 (fromLe l + len % 256 * 2 ^ 56))
    else Sip.absorb len n (x.word (BitVec.ofNat 64 (fromLe (l.take 8)))) (l.drop 8)

/-- SipHash-2-4 of a byte string under a 128-bit key: k0 is bits [63:0], k1 bits [127:64], the result the little-endian
reading of the output (R460). -/
def sipHash (key : Nat) (msg : List Byte) : Nat :=
  let k0 : W64 := BitVec.ofNat 64 key
  let k1 : W64 := BitVec.ofNat 64 (key / 2 ^ 64)
  let x : Sip := ⟨k0 ^^^ 0x736f6d6570736575#64, k1 ^^^ 0x646f72616e646f6d#64, k0 ^^^ 0x6c7967656e657261#64,
    k1 ^^^ 0x7465646279746573#64⟩
  let y := Sip.absorb msg.length (msg.length / 8 + 1) x msg
  let z := (Sip.mk y.v0 y.v1 (y.v2 ^^^ 0xff#64) y.v3).round.round.round.round
  (z.v0 ^^^ z.v1 ^^^ z.v2 ^^^ z.v3).toNat

/-! ## Memory cells -/

/-- The byte at an address; an unlisted address reads 0 (the zeroing of R300 and of a start, R432). (DESIGN CHOICE, log entry 8.) -/
def cellRead : List Host.Cell → Nat → Byte
  | [], _ => 0
  | (a, b) :: t, x => if a = x then b else if x < a then 0 else cellRead t x

/-- Write a byte; writing what an unlisted address reads as removes the entry. -/
def cellWrite : List Host.Cell → Nat → Byte → List Host.Cell
  | [], x, v => if v = 0 then [] else [(x, v)]
  | (a, b) :: t, x, v =>
    if x < a then (if v = 0 then (a, b) :: t else (x, v) :: (a, b) :: t)
    else if x = a then (if v = 0 then t else (a, v) :: t)
    else (a, b) :: cellWrite t x v

/-- Write consecutive bytes. -/
def cellWriteList (c : List Host.Cell) (x : Nat) : List Byte → List Host.Cell
  | [] => c
  | b :: t => cellWriteList (cellWrite c x b) (x + 1) t

/-- Read consecutive bytes. -/
def cellReadList (c : List Host.Cell) (x : Nat) : Nat → List Byte
  | 0 => []
  | n + 1 => cellRead c x :: cellReadList c (x + 1) n

/-- Drop the entries of a range of addresses: the range reads as zero. -/
def cellZero (c : List Host.Cell) (lo hi : Nat) : List Host.Cell := c.filter (fun p => !(lo ≤ p.1 && p.1 < hi))

/-- The canonical form: addresses strictly rising, and no entry equal to what an unlisted address reads as. -/
def Memory.wf : List Host.Cell → Bool
  | [] => true
  | [(_, b)] => b != 0
  | (a, b) :: (a', b') :: t => b != 0 && a < a' && Memory.wf ((a', b') :: t)

/-! ## Node addresses (R51 to R60) -/

/-- Granules of page space in one SID (R54). -/
def granulesPerSid : Nat := 507904

/-- Granules of page space in one stack (R54). -/
def granulesPerStack : Nat := 1523712

/-- Spans of one stack (R54). -/
def spansPerStack : Nat := 5952

/-- Stack offset of a page-space granule (R54). -/
def granuleOffset (g : Nat) : Nat := g / granulesPerSid * 2 ^ 35 + g % granulesPerSid * 2 ^ 16

/-- A node memory address from stack and stack offset (R51). -/
def nodeAddr (stack o : Nat) : Nat := stack * 2 ^ 37 + o

/-- The stack of a node address. -/
def addrStack (a : Nat) : Nat := a / 2 ^ 37 % 8

/-- The stack offset of a node address. -/
def addrOffset (a : Nat) : Nat := a % 2 ^ 37

/-- Whether an offset is implemented: SID 3 is not (R51). -/
def implementedOffset (o : Nat) : Bool := o / 2 ^ 35 % 4 != 3

/-- Whether an offset lies in the reserved area: the top 1 GiB of its SID (R58). -/
def reservedOffset (o : Nat) : Bool := 31 * 2 ^ 30 ≤ o % 2 ^ 35

/-- Whether an address lies in page space (R54, R60). -/
def pageSpace (a : Nat) : Bool := a < 2 ^ 40 && implementedOffset (addrOffset a) && !reservedOffset (addrOffset a)

/-- The granule of a page-space offset (R54). -/
def offsetGranule (o : Nat) : Nat := o / 2 ^ 35 * granulesPerSid + o % 2 ^ 35 / 2 ^ 16

/-- A location inside a stack (R52). -/
structure Loc where
  sid : Nat
  pc : Nat
  bank : Nat
  row : Nat
  seg : Nat
  byte : Nat
deriving DecidableEq, Repr

/-- The interleave function of R52. -/
def decodeOffset (o : Nat) : Loc :=
  { sid := bits o 36 35, byte := bits o 7 0, pc := bits o 13 8 ^^^ bits o 25 20 ^^^ bits o 31 26, seg := bits o 15 14,
    bank := bits o 19 16 ^^^ bits o 23 20 ^^^ bits o 27 24 ^^^ bits o 31 28, row := bits o 34 20 }

/-- The offset of a location: the inverse of R52 on each SID. -/
def encodeOffset (l : Loc) : Nat :=
  let hi := l.row % 2 ^ 15 * 2 ^ 20
  l.sid % 4 * 2 ^ 35 + hi + (l.bank % 16 ^^^ bits hi 23 20 ^^^ bits hi 27 24 ^^^ bits hi 31 28) * 2 ^ 16 + l.seg % 4 * 2 ^ 14 +
    (l.pc % 64 ^^^ bits hi 25 20 ^^^ bits hi 31 26) * 2 ^ 8 + l.byte % 256

/-- Channel, pseudo-channel, die, bank group and bank in group (R52). -/
def Loc.channel (l : Loc) : Nat := l.pc / 2
/-- Die of a location (R52). -/
def Loc.die (l : Loc) : Nat := 4 * l.sid + l.pc / 16
/-- Unit of the die that serves the location's bank pair (R119). -/
def Loc.unit (l : Loc) : Nat := l.pc % 16 * 8 + l.bank / 2 % 8
/-- Bank pair of a location within its stack: SID, pseudo-channel and pair. -/
def Loc.pair (l : Loc) : Nat := (l.sid * 64 + l.pc) * 8 + l.bank / 2

/-- Whether a region's stack cannot be read (R43, R358). -/
def State.stackFenced (s : State) (n : Nat) : Bool := s.ras.regionsFenced.contains n

/-! ## The collision queue (R127, R133, R134) -/

/-- A window is active from NB-ENTER to the end of NB-EXIT (R127). -/
def NbWin.active (w : NbWin) : Bool := w.step ≠ .opened && w.step ≠ .ended

/-- The bank pair of an address, as a stack-wide unit number (R119). -/
def addrPair (a : Nat) : Nat :=
  let l := decodeOffset (addrOffset a)
  l.die * 128 + l.unit

/-- An address lies in a bank of an active window of its stack. -/
def State.collides (s : State) (a : Nat) : Bool :=
  (s.nbu.getD (addrStack a) {}).wins.any (fun w => w.2.active && w.2.pairs.contains (addrPair a))

/-- An access joins the collision queue of 512 entries; becoming full is counted, and an access that finds it full is withheld
by the arbiter (R133, R134, R149). -/
def NbRegion.enqueue (c : CqEntry) (r : NbRegion) : NbRegion :=
  if 512 ≤ r.cq.length then { r with withheld := r.withheld ++ [c] }
  else { r with
    cq := r.cq ++ [c]
    cqPeak := max r.cqPeak (r.cq.length + 1)
    cqFullEvents := if r.cq.length + 1 = 512 then inc32 r.cqFullEvents else r.cqFullEvents }

/-- An access waits for the end of a window (R133). -/
def State.collide (a len : Nat) (j : CqJob) (s : State) : State :=
  s.onNbu (addrStack a) (NbRegion.enqueue { pair := addrPair a, addr := a, len := len, job := j })

/-- What an access leaves at an address. -/
def CqEntry.newest (c : CqEntry) (a : Nat) (v : Byte) : Byte :=
  match c.job with
  | .write d => if c.addr ≤ a then d.getD (a - c.addr) v else v
  | _ => v

/-- The accesses of a region that have not reached their banks, in arrival order. -/
def NbRegion.queued (r : NbRegion) : List CqEntry := r.cq ++ r.withheld

/-- The byte that a read of stack memory returns once the writes that wait before it are issued (R134); a fenced stack and an
unimplemented offset read zero (R60, R411). -/
def State.memRead (s : State) (a : Nat) : Byte :=
  if s.stackFenced (addrStack a) then 0
  else (s.nbu.getD (addrStack a) {}).queued.foldl (fun v c => c.newest a v) (cellRead s.mem.cells a)

/-- What the banks of a stack hold, waiting writes left out: what near-bank units read (R126). -/
def State.bare (n : Nat) (s : State) : State := s.onNbu n (fun r => { r with cq := [], withheld := [] })

/-- Read consecutive bytes of stack memory. -/
def State.memReadN (s : State) (a : Nat) : Nat → List Byte
  | 0 => []
  | n + 1 => s.memRead a :: s.memReadN (a + 1) n

/-- A byte reaches its bank; a write to an unimplemented offset or to a fenced stack is discarded (R60, R411). -/
def State.bankWrite (a : Nat) (b : Byte) (s : State) : State :=
  if s.stackFenced (addrStack a) || !implementedOffset (addrOffset a) || 2 ^ 40 ≤ a then s
  else s.onMem (fun m => { m with cells := cellWrite m.cells a b })

/-- Consecutive bytes reach their bank. -/
def State.bankWriteN (a : Nat) (l : List Byte) (s : State) : State :=
  match l with
  | [] => s
  | b :: t => State.bankWriteN (a + 1) t (s.bankWrite a b)

/-- Write bytes that lie in one 256-byte segment, so in one bank: the write waits while the bank is in a window (R133). -/
def State.busWrite (a : Nat) (d : List Byte) (s : State) : State :=
  if s.collides a && !s.stackFenced (addrStack a) then s.collide a d.length (.write d) else s.bankWriteN a d

/-- Write a byte of stack memory. -/
def State.memWrite (a : Nat) (b : Byte) (s : State) : State := s.busWrite a [b]

/-- Pieces of a range, none across a multiple of 256 bytes (R133). (DEDUCED, log entry 50.) -/
def pieces : Nat → Nat → Nat → List (Nat × Nat)
  | 0, _, _ => []
  | fuel + 1, a, len =>
    if len = 0 then []
    else
      let n := min len (256 - a % 256)
      (a, n) :: pieces fuel (a + n) (len - n)

/-- Write consecutive bytes. -/
def State.memWriteN (a : Nat) (l : List Byte) (s : State) : State :=
  (pieces (l.length + 1) a l.length).foldl (fun s p => s.busWrite p.1 ((l.drop (p.1 - a)).take p.2)) s

/-- Group addressed bytes into runs of consecutive addresses, none across a multiple of 256 bytes. -/
def byteRuns : List (Nat × Byte) → List (Nat × List Byte)
  | [] => []
  | (a, b) :: t =>
    match byteRuns t with
    | (c, l) :: rs => if c = a + 1 ∧ c % 256 ≠ 0 then (a, b :: l) :: rs else (a, [b]) :: (c, l) :: rs
    | [] => [(a, [b])]

/-- Write addressed bytes (R133). -/
def State.busBytes (l : List (Nat × Byte)) (s : State) : State := (byteRuns l).foldl (fun s r => s.busWrite r.1 r.2) s

/-- A read of up to 256 bytes in one bank takes its place in the queue where the bank is in a window (R133). -/
def State.busRead (a len : Nat) (s : State) : State :=
  if s.collides a && !s.stackFenced (addrStack a) then s.collide a len .read else s

/-- Reads of the 256-byte segments of some addresses. -/
def State.busReads (l : List Nat) (s : State) : State :=
  if s.nbu.any (fun r => r.wins.any (fun w => w.2.active)) then
    ((l.map (fun a => a / 256 * 256)).eraseDups).foldl (fun s a => s.busRead a 256) s
  else s

/-- Zero a range of stack memory. -/
def State.memZero (lo hi : Nat) (s : State) : State := s.onMem (fun m => { m with cells := cellZero m.cells lo hi })

/-! ## Page formats and frames (R45 to R47, R122, R123) -/

/-- T, tokens per page (R45). -/
def PageFormatT (f : PageFormat) : Nat := 2 ^ f.tokensLog2
/-- D, the head dimension (R45). -/
def PageFormatD (f : PageFormat) : Nat := 32 * (f.headDim + 1)

/-- b(f, D): bytes per token per head (R46). -/
def bytesPerToken (format d : Nat) : Nat :=
  match format with
  | 0 => 2 * d
  | 1 => d
  | 2 => d
  | _ => 17 * d / 32

/-- z: bytes of a record (R122). -/
def recordBytes (f : PageFormat) : Nat :=
  bytesPerToken f.keyFormat (PageFormatD f) + (if f.latent = 1 then 0 else bytesPerToken f.valueFormat (PageFormatD f))

/-- F: bytes of a page (R46). -/
def frameBytes (f : PageFormat) : Nat := PageFormatT f * f.headsPerGroup * recordBytes f

/-- n: granules of a frame (R46). -/
def frameGranules (f : PageFormat) : Nat := cdiv (frameBytes f) 65536

/-- The format of a shadow copy (R102): MXFP4 for keys and values, in native layout. -/
def shadowFormat (f : PageFormat) : PageFormat := { f with keyFormat := 3, valueFormat := if f.latent = 1 then 0 else 3 }

/-- The permitted values of R45. -/
def pageFormatOk (f : PageFormat) : Bool :=
  (6 ≤ f.tokensLog2 && f.tokensLog2 ≤ 10) && (1 ≤ f.headsPerGroup && f.headsPerGroup ≤ 16) &&
  (f.latent = 0 || (f.latent = 1 && f.headsPerGroup = 1 && f.valueFormat = 0)) &&
  f.headDim ≤ (if f.latent = 1 then 31 else 7) && f.keyFormat ≤ 3 && f.valueFormat ≤ 3 && f.hullEnable ≤ 1 &&
  f.shadowEnable ≤ 1 && f.layout ≤ 1

/-- Offset of byte `b` of the record stream within the frame's granules (R123). -/
def placeByte (f : PageFormat) (b : Nat) : Nat :=
  let j := b / 1024
  let w := b % 1024
  let n := frameGranules f
  let gi := if f.layout = 0 then j % n else j / 64
  let p := if f.layout = 0 then j / n else j % 64
  gi * 65536 + w / 256 * 16384 + p * 256 + w % 256

/-- Byte of a vector of a record for byte `w` of its 32-position tile, with the position within the tile (R47, R122). -/
def tileByte (format d w : Nat) : Nat × Nat :=
  match format with
  | 0 => (w % 2048 / 64, w / 2048 * 64 + w % 64)
  | 1 => (w % 1024 / 32, w / 1024 * 32 + w % 32)
  | 2 => (w % 1024 / 32, w / 1024 * 32 + w % 32)
  | _ =>
    if w < 16 * d then (w % 512 / 16, w / 512 * 16 + w % 16)
    else ((w - 16 * d) / (d / 32), d / 2 + (w - 16 * d) % (d / 32))

/-- The byte of a 32-position tile that holds byte `y` of the vector of position `i` (R47): where `tileByte` leads back from. -/
def tileAt (format d i y : Nat) : Nat :=
  match format with
  | 0 => y / 64 * 2048 + i * 64 + y % 64
  | 1 => y / 32 * 1024 + i * 32 + y % 32
  | 2 => y / 32 * 1024 + i * 32 + y % 32
  | _ => if y < d / 2 then y / 16 * 512 + i * 16 + y % 16 else 16 * d + i * (d / 32) + (y - d / 2)

/-- Byte of the record stream that holds logical byte `x` of a frame (R47, R122). -/
def logicalToStream (f : PageFormat) (x : Nat) : Nat :=
  let d := PageFormatD f
  let bk := bytesPerToken f.keyFormat d
  let keySec := PageFormatT f * f.headsPerGroup * bk
  let fm := if x < keySec then f.keyFormat else f.valueFormat
  let b := if x < keySec then bk else bytesPerToken f.valueFormat d
  let so := if x < keySec then x else x - keySec
  let base := if x < keySec then 0 else bk
  let t := so / (32 * b)
  let iv := tileByte fm d (so % (32 * b))
  let r := t / (PageFormatT f / 32) * PageFormatT f + t % (PageFormatT f / 32) * 32 + iv.1
  r * recordBytes f + base + iv.2

/-- Node address of logical byte `x` of a frame (R47, R54, R123). -/
def frameAddr (f : PageFormat) (frame : Nat × Nat) (x : Nat) : Nat :=
  nodeAddr frame.1 (granuleOffset frame.2 + placeByte f (logicalToStream f x))

/-- Node address of byte `y` of record (h, i) of a frame (R122, R123). -/
def recordAddr (f : PageFormat) (frame : Nat × Nat) (h i y : Nat) : Nat :=
  nodeAddr frame.1 (granuleOffset frame.2 + placeByte f ((h * PageFormatT f + i) * recordBytes f + y))

/-- Decoded element `e` of a vector of `d` elements whose byte `y` is `rd y`, with its INT8 scale left out (R94). -/
def elemAt (rd : Nat → Nat) (format d e : Nat) : Num :=
  match format with
  | 0 => ofBf16 (rd (2 * e) + 256 * rd (2 * e + 1))
  | 1 => ofFp8 (rd e)
  | 2 => ofInt8 (rd e)
  | _ => ofMx (if e % 2 = 0 then rd (e / 2) % 16 else rd (e / 2) / 16) (rd (d / 2 + e / 32))

/-- Decoded element `d` of a vector that starts at byte `base` of a record, with its INT8 scale left out (R94, R122). -/
def State.vectorElem (s : State) (f : PageFormat) (frame : Nat × Nat) (format h i base d : Nat) : Num :=
  elemAt (fun y => (s.memRead (recordAddr f frame h i (base + y))).toNat) format (PageFormatD f) d

/-- The key vector of head h and position i, scale left out. -/
def State.keyVec (s : State) (f : PageFormat) (frame : Nat × Nat) (h i : Nat) : List Num :=
  (List.range (PageFormatD f)).map (s.vectorElem f frame f.keyFormat h i 0)

/-- The value vector of head h and position i, scale left out; a latent page's key vector (R101). -/
def State.valueVec (s : State) (f : PageFormat) (frame : Nat × Nat) (h i : Nat) : List Num :=
  if f.latent = 1 then s.keyVec f frame h i
  else (List.range (PageFormatD f)).map (s.vectorElem f frame f.valueFormat h i (bytesPerToken f.keyFormat (PageFormatD f)))

/-- The non-zero logical bytes of a frame. -/
def State.frameImage (s : State) (f : PageFormat) (frame : Nat × Nat) : List (Nat × Byte) :=
  (List.range (frameBytes f)).filterMap (fun x =>
    let b := s.memRead (frameAddr f frame x)
    if b = 0 then none else some (x, b))

/-- Zero a unit of granules; the segments whose bank is in a window wait (R133). -/
def State.zeroGranules (place : Nat × Nat) (n : Nat) (s : State) : State :=
  let a := nodeAddr place.1 (granuleOffset place.2)
  if (s.nbu.getD place.1 {}).wins.any (fun w => w.2.active) then
    (List.range (n * 256)).foldl (fun s i => let x := a + 256 * i
      if s.collides x && !s.stackFenced place.1 then s.collide x 256 (.write (List.replicate 256 0)) else s.memZero x (x + 256)) s
  else s.memZero a (a + n * 65536)

/-- Write a frame from its non-zero logical bytes. -/
def State.writeImage (f : PageFormat) (frame : Nat × Nat) (img : List (Nat × Byte)) (s : State) : State :=
  (s.zeroGranules frame (frameGranules f)).busBytes (img.map (fun p => (frameAddr f frame p.1, p.2)))

/-- The reads of a frame's stored bytes over its stack's buses (R133). -/
def State.readFrame (f : PageFormat) (frame : Nat × Nat) (s : State) : State :=
  s.busReads ((List.range (frameGranules f * 256)).map (fun i => nodeAddr frame.1 (granuleOffset frame.2) + 256 * i))

/-! ## Interrupts and the event log (R420, R423) -/

/-- The endpoint can send writes to the host (R406, R407). -/
def State.hostUp (s : State) : Bool := s.host.linkUp && !s.host.d3 && !s.host.lost

/-- Set an interrupt cause bit; its vector is sent when the bit changes from 0 to 1 (R420). (PRESUMED, log entry 23.) -/
def State.raise (i : Nat) (s : State) : State :=
  if bit s.host.cause i then s
  else
    let s := s.onHost (fun h => { h with cause := h.cause + 2 ^ i })
    if s.hostUp then s.emit (.msix (64 + i)) else s

/-- The interrupt threshold in force: above 65,536 acts as 65,536 (R425). -/
def Log.threshold (l : Log) : Nat := min l.irqThreshold 65536

/-- Vector 64 when the entries not yet acknowledged reach the threshold (R420, R425). -/
def State.logIrq (s : State) : State :=
  if s.log.threshold ≠ 0 ∧ s.log.threshold ≤ s.log.nextSeq - s.log.ackSeq then s.raise 0 else s

/-- Append an entry to the event log: slot q mod 65,536; an entry overwritten at or above `ack_seq` is counted (R423,
R425). -/
def State.logPut (e : LogEntry) (s : State) : State :=
  let s := s.onLog (fun l =>
    let q := l.nextSeq
    let ow := 65536 ≤ q && l.ackSeq ≤ q - 65536
    { l with
      entries := (if 65536 ≤ q then l.entries.erase (q - 65536) else l.entries).set q e
      nextSeq := q + 1
      overwrites := if ow then inc32 l.overwrites else l.overwrites })
  s.logIrq

/-- Log an event record (R423, R424). (DEDUCED, log entry 28.) -/
def State.logEvent (island event slice status arg0 arg1 arg2 : Nat) (s : State) : State :=
  s.logPut { kind := 3, island := island, record := eventRecord s.now event slice status arg0 arg1 arg2 }

/-! ## Slices -/

/-- A slice's state. -/
def State.slice (s : State) (i : Nat) : SliceS := s.sch.slices.getD i {}

/-- The records of a slice. -/
def State.cfg (s : State) (i : Nat) : SliceCfg := (s.slice i).cfg

/-- The page format of a slice. -/
def State.format (s : State) (i : Nat) : PageFormat := (s.cfg i).format

/-- Change a slice. -/
def State.onSlice (i : Nat) (f : SliceS → SliceS) (s : State) : State :=
  s.onSch (fun c => { c with slices := c.slices.modify i f })

/-- Whether a slice admits work: SERVING or RECOMPOSING (R303). -/
def State.serving (s : State) (i : Nat) : Bool := (s.slice i).state = .serving || (s.slice i).state = .recomposing

/-- Whether the node refuses data operations: fenced, expelled or self-fenced (R363, R364, R366). -/
def State.nodeFenced (s : State) : Bool := s.ras.fenced || s.ras.expelled || s.aon.selfCause ≠ 0

end Sys2Proof.Machine
end

