-- ==== Sys2Proof/Machine/LongOps.lean ====
section
/-! DEFINITION. Command rings and long operations: status words, interrupts and buffers (R415, R416, R419, R420), the order in which
operations start (R413, R417), and the operation table of R414. -/

namespace Sys2Proof.Machine

/-- A long operation that is not yet final. -/
def State.op (s : State) (id : Nat) : Option LongOp := s.host.ops.get? id

/-- A ring. -/
def State.ring (s : State) (r : Nat) : Ring := s.host.rings.getD r {}

/-- Change a ring. -/
def State.onRing (r : Nat) (f : Ring → Ring) (s : State) : State := s.onHost (fun h => { h with rings := h.rings.modify r f })

/-- Entries of a ring: below 4 acts as 4, above 16 as 16 (R421). -/
def Ring.size (r : Ring) : Nat := 2 ^ min 16 (max 4 r.log2)

/-- A write to the host that cannot be made is counted (R407). -/
def State.dmaError (s : State) : State := s.onHost (fun h => { h with dmaErrors := inc16 h.dmaErrors })

/-- Set an error bit of a ring: event 68 (R420, R421). -/
def State.ringError (r : Nat) (f : Ring → Ring) (s : State) : State := (s.onRing r f).raise 4

/-- What follows a write to the host (R419): one that the host rejects is logged with ring and index, sets the ring's error bit and is
counted, and the operation goes on. Whether the host rejects it is a free value. (DESIGN CHOICE, log entry 95.) -/
def State.hostTakes (o : LongOp) (s : State) : State :=
  let t := s.bump
  if s.pick Site.hostReject 0 % 2 = 0 then t
  else ((t.logEvent 94 0x0503 o.entry.slice 0 o.ring o.index o.entry.opTag).ringError o.ring
    (fun r => { r with errStatus := true })).dmaError

/-- Write a status word, unless the operation's writes are suppressed or the endpoint is down (R407, R416). -/
def State.writeStatus (o : LongOp) (s : State) : State :=
  if o.suppressed || !s.hostUp then s.dmaError
  else (s.emit (.status o.entry.statusAddr (statusWord o.state o.code o.progress))).hostTakes o

/-- Write buffer bytes. -/
def State.writeBuffer (o : LongOp) (data : List Byte) (s : State) : State :=
  if o.suppressed || !s.hostUp then s.dmaError else (s.emit (.buffer o.entry.bufAddr data)).hostTakes o

/-- The completion interrupt of an entry (R420). -/
def State.opIrq (o : LongOp) (s : State) : State :=
  if o.entry.irq && !o.suppressed && s.hostUp then s.emit (.msix (s.ring o.ring).vector) else s

/-- Move an operation to a state that is not final, with its status word. -/
def State.setOp (id st : Nat) (c : Code) (progress : Nat) (s : State) : State :=
  match s.op id with
  | none => s
  | some o =>
    let o := { o with state := st, code := c, progress := progress }
    (s.onHost (fun h => { h with ops := h.ops.set id o })).writeStatus o

/-- End an operation in state 4 or 5 (R415). -/
def State.endOp (id st : Nat) (c : Code) (progress : Nat) (s : State) : State :=
  match s.op id with
  | none => s
  | some o =>
    let o := { o with state := st, code := c, progress := progress }
    ((s.onHost (fun h => { h with ops := h.ops.erase id })).writeStatus o).opIrq o

/-- Units that an operation has done (R414, R416). -/
def State.opProgress (s : State) (id : Nat) : Nat :=
  match s.op id with
  | some o => o.progress
  | none => 0

/-- An operation is done; its progress stands. -/
def State.opDone (id : Nat) (s : State) : State := s.endOp id 4 .ok (s.opProgress id)

/-- An operation is refused, cancelled or failed; its progress stands. -/
def State.opFail (id : Nat) (c : Code) (s : State) : State := s.endOp id 5 c (s.opProgress id)

/-- An operation waits on a drain: PENDING_ENABLE with progress 0 (R311). (DESIGN CHOICE, log entry 70.) -/
def State.latchOp (id : Nat) (s : State) : State :=
  match s.op id with
  | none => s
  | some o => (s.onHost (fun h => { h with ops := h.ops.set id { o with state := 2, code := .pendingEnable } })).writeStatus
      { o with state := 2, code := .pendingEnable, progress := 0 }

/-- End the operation that a record names, where it names one. -/
def State.opFail? (id : Option Nat) (c : Code) (s : State) : State :=
  match id with
  | some i => s.opFail i c
  | none => s

/-- Operations running (R417). -/
def State.opsRunning (s : State) : Nat := (s.host.ops.filter (fun o => o.2.state = 2 || o.2.state = 3)).length

/-- Operations waiting in state 1. -/
def State.opsQueued (s : State) : Nat := (s.host.ops.filter (fun o => o.2.state = 1)).length

/-- Nothing that was admitted earlier holds an operation back (R341, R413, R417): with `fence`, no earlier entry of its ring; of its
slice, none that has not started; for a load, none that is still being checked. -/
def State.opFree (s : State) (id : Nat) (o : LongOp) : Bool :=
  s.host.ops.all (fun p => id ≤ p.1 ||
    (!(o.entry.fence && p.2.ring = o.ring) &&
      !(p.2.state = 1 && o.entry.slice < 8 && p.2.entry.slice = o.entry.slice) &&
      !(o.entry.op = 1 && p.2.entry.op = 1 && !p.2.pastStep9)))

/-- Start an operation (R415): it leaves state 1 when at most 15 others run and nothing holds it back; a load that waits for step 9
goes on. (DEDUCED, log entry 33.) -/
def State.startOp (s : State) (opcode id : Nat) : Option (LongOp × State) :=
  match s.op id with
  | none => none
  | some o =>
    if o.entry.op ≠ opcode then none
    else if o.state = 1 then
      if s.opsRunning < 16 && s.opFree id o then
        let s := s.setOp id 2 .ok 0
        (s.op id).map (fun o => (o, s))
      else none
    else if opcode = 1 && o.state = 2 && !o.pastStep9 then some (o, s)
    else none

/-- Run an operation that may start. -/
def State.runOp (opcode id : Nat) (f : LongOp → State → State) (s : State) : State :=
  match s.startOp opcode id with
  | none => s
  | some x => f x.1 x.2

/-! ## Entries (R412 to R415) -/

/-- A little-endian parameter of an entry (R414). -/
def RingEntry.param (e : RingEntry) (off n : Nat) : Nat := leField e.params off n

/-- Parameter bytes that an operation uses (R414). -/
def paramBytes (op : Nat) : List (Nat × Nat) :=
  match op with
  | 0x01 => [(0, 4)]
  | 0x0f => [(0, 1), (4, 4)]
  | 0x10 => [(0, 1), (1, 1), (2, 2), (4, 2), (8, 8), (16, 8), (24, 4)]
  | 0x11 => [(0, 4)]
  | 0x20 => [(0, 1)]
  | 0x32 => [(0, 1)]
  | 0x33 => [(0, 1)]
  | 0x40 => [(0, 8), (8, 4)]
  | _ => []

/-- Operations of R414 that name a slice. -/
def opOfSlice (op : Nat) : Bool := [0x02, 0x03, 0x04, 0x05, 0x10, 0x11].contains op

/-- Operations of R414 that name none. -/
def opOfNode (op : Nat) : Bool := [0x01, 0x0f, 0x20, 0x30, 0x31, 0x32, 0x33, 0x34, 0x35, 0x40, 0x41].contains op

/-- The buffer length is the one that the operation needs (R413, R414). -/
def RingEntry.bufOk (e : RingEntry) : Bool :=
  match e.op with
  | 0x01 => e.bufLen = e.param 0 4 * 4096
  | 0x10 => e.bufLen = 16
  | 0x30 => e.bufLen = 133
  | 0x31 => e.bufLen = 4096
  | 0x34 => e.bufLen = 64
  | 0x35 => e.bufLen = 132
  | 0x40 => e.bufLen = e.param 8 4 * 40
  | 0x41 => e.bufLen % 8 = 0 && e.bufLen ≤ 6144
  | _ => e.bufLen = 0 && e.bufAddr = 0

/-- Parameter bytes that the operation does not use are reserved and must be zero (R11). -/
def RingEntry.paramsOk (e : RingEntry) : Bool :=
  (e.params.zipIdx).all (fun b => b.1 = 0 || (paramBytes e.op).any (fun f => f.1 ≤ b.2 && b.2 < f.1 + f.2))

/-- A well-formed entry (R413). (DEDUCED, log entry 33.) -/
def RingEntry.wellFormed (e : RingEntry) : Bool :=
  e.flagsHi = 0 && e.reserved = 0 && e.bufAddr % 64 = 0 && e.paramsOk && e.bufOk &&
  ((opOfSlice e.op && e.slice < 8) || (opOfNode e.op && e.slice = 0xff))

/-- A request of the host reaches the node: the endpoint has left Configuration Request Retry Status, is in D0 and not lost (R406,
R431, R432). -/
def State.reachable (s : State) : Bool := !s.host.lost && !s.host.d3 && decide (4 ≤ s.aon.bootStage)

/-- A request that arrives shows that the link has trained again. (DEDUCED, log entry 45.) -/
def State.linked (s : State) : State := s.onHost (fun h => { h with linkUp := true })

/-- Serve a host request that reaches the node; in recovery only BAR0 is there (R399). -/
def State.fromHost (bar0 : Bool) (f : State → State) (s : State) : State :=
  if s.reachable && (bar0 || s.aon.bootStage ≠ 15) then f s.linked else s

/-- DOORBELL (R412). -/
def execDoorbell (ring : Fin 64) (tail : Nat) (s : State) : Host.Outcome State Fault Refusal :=
  .next (s.whenUp (State.fromHost false (fun s =>
    let r := s.ring ring
    let t := tail % 2 ^ 32
    if r.enable && decide ((t + 2 ^ 32 - r.head) % 2 ^ 32 ≤ r.size) then s.onRing ring (fun r => { r with tail := t })
    else s.ringError ring (fun r => { r with errDoorbell := true }))))

/-- A fetched entry is checked and admitted (R412, R413, R415). -/
def State.admitEntry (ring index : Nat) (e : RingEntry) (s : State) : State :=
  if e.statusAddr = 0 ∨ e.statusAddr % 8 ≠ 0 then s.ringError ring (fun r => { r with errEntry := true })
  else
    let o : LongOp := { ring := ring, index := index, entry := e }
    if e.wellFormed then
      (s.onHost (fun h => { h with ops := h.ops.set h.nextOp o, nextOp := h.nextOp + 1 })).writeStatus o
    else
      let o := { o with state := 5, code := .formatError }
      (s.writeStatus o).opIrq o

/-- RING_ENTRY_FETCH: the entry at `head` arrives; none where the read completes with an error (R419). -/
def execRingEntryFetch (ring : Fin 64) (entry : Option (List Byte)) (s : State) : Host.Outcome State Fault Refusal :=
  .next (s.whenUp (fun s =>
    let r := s.ring ring
    if !s.hostUp || !r.enable || r.head = r.tail then s
    else
      let s := s.onRing ring (fun r => { r with head := (r.head + 1) % 2 ^ 32 })
      match entry with
      | none => s
      | some b => s.admitEntry ring r.head (RingEntry.decode b)))

end Sys2Proof.Machine
end

