-- ==== Sys2Proof/Machine/Wire.lean ====
section
/-! DEFINITION. What goes on the wire: opcodes (R247, R249), parameter blocks and response bodies (R251), the extended header of a
response (R250), and the parameter blocks of the requests. -/

namespace Sys2Proof.Machine

/-! ## Opcodes (R247, R249) -/

/-- The opcode of a packet of an extended message: `pos` is 0 First, 1 Middle, 2 Last, 3 Only (R249). -/
def extOpcode (op pos : Nat) : Nat := 0xc0 + 4 * op + pos

/-- The op and place in its message that an opcode spells (R249). -/
def extOpOf (o : Nat) : Option (Nat × Nat) := if 0xc0 ≤ o ∧ o < 0x100 then some ((o - 0xc0) / 4, (o - 0xc0) % 4) else none

/-- The place of packet `i` of a message of `n` packets. -/
def posOfPacket (n i : Nat) : Nat := if n = 1 then 3 else if i = 0 then 0 else if i + 1 = n then 2 else 1

/-- The opcode of packet `i` of a READ response of `n` packets: First, Middle, Last, Only (R247). -/
def readOpcode (n i : Nat) : Nat := [0x0d, 0x0e, 0x0f, 0x10].getD (posOfPacket n i) 0x10

/-- RC opcodes that the node serves on arrival, and extended request opcodes (R247, R249). -/
def servedOpcode (o : Nat) : Bool :=
  [0x06, 0x07, 0x08, 0x0a, 0x0c, 0x11, 0x13, 0x14, 0x0d, 0x0e, 0x0f, 0x10, 0x12, 0x81].contains o ||
  (extOpOf o).any (fun x => x.1 < 13)

/-- The op of a message that the node sends: RESPONSE, HELLO or PEER (R249). -/
def messageOp : TxBody → Nat
  | .response .. => 13
  | .helloReq _ => 12
  | _ => 11

/-- A datagram of connection management, to QP1 of the other end (R247). -/
def TxBody.isCm : TxBody → Bool
  | .cmRep .. => true
  | .cmRej _ => true
  | .cmReq .. => true
  | .cmRtu _ => true
  | .cmDreq _ => true
  | .cmDrep _ => true
  | _ => false

/-- The opcode of a control packet (R247): Acknowledge, notification, or the datagram of connection management. (DEDUCED, log entry 69.) -/
def controlOpcode (b : TxBody) : Nat :=
  match b with
  | .cnp _ => 0x81
  | .atomicAck .. => 0x12
  | b => if b.isCm then 0x64 else 0x11

/-- The UDP source port of the node's own packets: bits [15:0] of a hash of the destination QPN, bit 15 forced to 1 (R247).
(DESIGN CHOICE, log entry 92.) -/
def udpSource (remoteQpn : Nat) : Nat := Config.udpHash remoteQpn % 2 ^ 15 + 2 ^ 15

/-! ## Fields (R251) -/

/-- The smallest of 1, 2, 4, 8 or 16 bytes that holds a width. -/
def fieldSize (w : Nat) : Nat := if w ≤ 8 then 1 else if w ≤ 16 then 2 else if w ≤ 32 then 4 else if w ≤ 64 then 8 else 16

/-- A field of a width, right-aligned and big-endian. -/
def wireField (w x : Nat) : List Byte := beBytes (fieldSize w) x

/-- A variable part, padded with zeros to a multiple of 4 bytes. -/
def padPart (l : List Byte) : List Byte := l ++ List.replicate (cdiv l.length 4 * 4 - l.length) 0

/-- Page codes, one byte each. -/
def codeBytes (l : List Code) : List Byte := l.map (fun c => BitVec.ofNat 8 c.num)

/-! ## Responses -/

/-- What a response carries after its extended header (R251). (DEDUCED, log entry 69.) -/
def respBody : RespBody → List Byte
  | .none => []
  | .attend covered skipped tau delta bound codes rows =>
    wireField 16 covered ++ wireField 16 skipped ++ wireField 4 tau ++ wireField 8 delta ++ wireField 32 bound ++
    padPart (codeBytes codes) ++ rows.flatten
  | .bwd _ covered codes rows => wireField 16 covered ++ padPart (codeBytes codes) ++ rows.flatten
  | .collect rs => rs.flatten
  | .lookup matched coll key key2 runs =>
    wireField 16 matched ++ wireField 16 coll ++ wireField 64 key ++
    (match key2 with
      | some k => wireField 64 k
      | none => []) ++ runs.flatten
  | .publish rs => rs.flatten
  | .conflict block source => wireField 32 block ++ wireField 64 source
  | .released n => wireField 16 n
  | .grant id expiry key fills => wireField 32 id ++ wireField 64 expiry ++ wireField 32 key ++ padPart (fills.flatMap (wireField 16))
  | .torn pages => wireField 32 pages
  | .handover epoch owner state torn => wireField 48 epoch ++ wireField 32 owner ++ wireField 2 state ++ wireField 32 torn
  | .pins pinned missing lost => wireField 32 pinned ++ wireField 32 missing ++ wireField 32 lost
  | .bytes b => b
  | .key key base => wireField 32 key ++ wireField 32 0 ++ wireField 64 base
  | .rows n rows => wireField 32 n ++ rows.flatten
  | .shift capW avgW pstate => wireField 16 capW ++ wireField 16 avgW ++ wireField 8 pstate ++ [0, 0, 0]
  | .hello levels level => wireField 8 levels ++ wireField 4 level

/-- The extended header of a response (R250); requests of the node's own carry theirs too, with a tag of the node's choice. -/
def extHeader (level : Nat) (b : TxBody) (len : Nat) : List Byte :=
  match b with
  | .response op variant code gen load credit tag node body =>
    let dup := match body with
      | .bwd d _ _ _ => b2n d
      | _ => 0
    wireField 8 (level * 16 + variant) ++ wireField 8 (dup * 32 + op) ++ wireField 8 code.num ++ wireField 8 0 ++ wireField 32 gen ++
    wireField 32 (load * 2 ^ 28 + credit * 2 ^ 12) ++ wireField 32 len ++ wireField 32 tag ++ wireField 32 (node * 2 ^ 18)
  | _ => []

/-! ## Parameter blocks of requests (R251) -/

/-- An element of a row of D elements: BF16 or FP8 for a query, BF16 or FP32 for a gradient. -/
def elems (size : Nat) (l : List Nat) : List Byte := l.flatMap (beBytes size)

/-- The mask descriptor and its tail (R103). -/
def maskBytes (m : MaskDesc) : List Byte :=
  wireField 8 (m.maskType + m.perHead * 16 + m.causalAnd * 32) ++ wireField 8 m.rowsPerPos ++ wireField 8 m.granLog2 ++ wireField 8 0 ++
  wireField 32 m.qPos ++ wireField 32 m.param ++ wireField 16 m.tailBytes ++ wireField 16 0 ++ padPart (elems 1 m.tail)

/-- ATTEND_FWD: R72, the query rows, the mask descriptor and its tail last. -/
def fwdBytes (p : FwdParams) : List Byte :=
  wireField 64 p.handle ++ wireField 12 p.layer ++ wireField 8 p.group ++ wireField 32 p.posStart ++ wireField 32 p.posCount ++
  wireField 7 p.rowsPerHead ++ wireField 1 p.queryFormat ++ wireField 32 p.scale ++ wireField 4 p.tau ++ wireField 1 p.mode ++
  wireField 8 p.delta ++ wireField 1 p.resultFormat ++ wireField 64 p.deadline ++
  padPart (p.query.flatMap (elems (if p.queryFormat = 0 then 2 else 1))) ++ maskBytes p.mask

/-- ATTEND_BWD: R151; `bwdOp` is 0 OPEN, 1 ACCUMULATE, 2 COLLECT, 3 DISCARD. -/
def bwdBytes (bwdOp : Nat) (p : BwdParams) : List Byte :=
  wireField 64 p.handle ++ wireField 12 p.layer ++ wireField 8 p.group ++ wireField 32 p.posStart ++ wireField 32 p.posCount ++
  wireField 2 bwdOp ++ wireField 32 p.accPass ++ wireField 32 p.contribTag ++ wireField 7 p.rowsPerHead ++ wireField 1 p.queryFormat ++
  wireField 1 p.gradFormat ++ wireField 32 p.scale ++ wireField 1 p.resultFormat ++
  (match p.mask with
    | some m => maskBytes m
    | none => []) ++
  padPart (p.rows.flatMap (fun r => elems (if p.queryFormat = 0 then 2 else 1) r.q ++ elems (if p.gradFormat = 0 then 2 else 4) r.dO ++
    wireField 32 r.lse ++ wireField 32 r.delta))

/-- Keys of 8 bytes, or of 16 in a wide cascade. -/
def keyBytes (wide : Bool) (l : List (Nat × Nat)) : List Byte :=
  l.flatMap (fun k => wireField 64 k.1 ++ if wide then wireField 64 k.2 else [])

/-- The tokens of a prefix block: 256 of 4 bytes. -/
def tokenBytes (l : List Nat) : List Byte := elems 4 l

/-- LOOKUP (R184). -/
def lookupBytes (wide : Bool) (p : LookupParams) : List Byte :=
  wireField 64 p.modelEpoch ++ wireField 2 p.keySource ++ wireField 16 p.nBlocks ++ wireField 1 p.takeRef ++
  padPart (if p.keySource = 0 then [] else keyBytes wide p.keys) ++ padPart (p.tokens.flatMap tokenBytes)

/-- A prefix PUBLISH (R187), `pfx_op` 0. -/
def pfxBytes (wide : Bool) (p : PfxParams) : List Byte :=
  wireField 1 0 ++ wireField 64 p.modelEpoch ++ wireField 1 p.keySource ++ wireField 1 p.isPublic ++ wireField 3 p.level ++
  wireField 64 p.source ++ wireField 48 p.epoch ++ wireField 12 p.layers ++ wireField 8 p.headGroups ++ wireField 22 p.firstBlock ++
  wireField 16 p.nBlocks ++ wireField 64 p.parentKey ++
  padPart (p.blocks.flatMap (fun b => tokenBytes b.tokens ++ wireField 128 b.digest ++
    if p.keySource = 1 then keyBytes wide [(b.key, b.key2)] else []))

/-- A prefix release (R191), `pfx_op` 1. -/
def pfxReleaseBytes (wide : Bool) (p : PfxRelease) : List Byte :=
  wireField 1 1 ++ wireField 64 p.modelEpoch ++ wireField 1 p.isPublic ++ wireField 16 p.nBlocks ++ padPart (keyBytes wide p.keys)

/-- A page-form PUBLISH (R214). -/
def publishBytes (p : PublishParams) : List Byte :=
  wireField 32 p.leaseId ++ wireField 48 p.epoch ++ wireField 1 p.keepOpen ++ wireField 16 p.pageCount ++
  padPart (p.pages.flatMap (fun g => wireField 16 g.index ++ wireField 16 g.fill ++ wireField 32 g.keyScale ++ wireField 32 g.valueScale))

/-- A LEASE_ACQUIRE (R210). -/
def leaseBytes (p : LeaseParams) : List Byte :=
  wireField 2 p.laOp ++ wireField 64 p.handle ++ wireField 48 p.epoch ++ wireField 32 p.leaseId ++ wireField 12 p.layerFirst ++
  wireField 12 p.layerCount ++ wireField 8 p.hgFirst ++ wireField 8 p.hgCount ++ wireField 20 p.blockFirst ++ wireField 12 p.blockCount ++
  wireField 16 p.leaseMs ++ wireField 1 p.writeMode ++ wireField 1 p.copyOld ++ wireField 1 p.tornOk

/-- A HANDOVER (R207). -/
def handoverBytes (p : HandoverParams) : List Byte :=
  wireField 2 p.hvOp ++ wireField 64 p.handle ++ wireField 48 p.expectedEpoch ++ wireField 32 p.newOwner ++ wireField 1 p.requireIdle

/-- A PIN or UNPIN (R251). -/
def pinBytes (p : PinParams) : List Byte :=
  wireField 64 p.handle ++ wireField 8 p.hgFirst ++ wireField 8 p.hgCount ++ wireField 12 p.layerFirst ++ wireField 12 p.layerCount ++
  wireField 20 p.blockFirst ++ wireField 16 p.blockCount ++ wireField 1 p.replicate

/-- The head of an administration command (R260). -/
def admHead (op slice : Nat) : List Byte := wireField 8 op ++ wireField 8 slice ++ wireField 16 0

/-- The 32 parameter bytes of KEY_CREATE, in the layout of R414. -/
def keyParamBytes (k : KeyParams) : List Byte :=
  leBytes 1 k.kind ++ leBytes 1 k.stack ++ leBytes 2 k.group ++ leBytes 2 k.rights ++ leBytes 2 0 ++ leBytes 8 k.lenOrLo ++
  leBytes 8 k.handleHi ++ leBytes 4 k.index ++ leBytes 4 0

/-- The fields of an isolation entry, 28 bytes with their padding (R260). -/
def isoBytes (e : IsoEntry) : List Byte :=
  padPart (wireField 128 e.pfx ++ wireField 8 e.prefixLen ++ wireField 2 e.cls ++ wireField 18 e.ridBase ++ wireField 12 e.group ++
    wireField 8 e.slices ++ wireField 14 e.peerNode)

/-- A map's bucket entry (R196). -/
def bucketEntry (x : Nat × Nat) : Nat := x.1 * 2 ^ 18 + x.2 * 2 ^ 15

/-- The payload that follows a certificate (R360, R383, R260). -/
def certPayload : Instr → List Byte
  | .mapInstall _ _ m =>
    wireField 32 m.generation ++ wireField 128 m.routeKey ++ wireField 16 m.drainMs ++
    (List.range 65536).flatMap (fun b => wireField 32 (bucketEntry (m.buckets.getD b m.base)))
  | .requesterFence _ _ r => wireField 16 r.length ++ r.flatMap (fun x => wireField 32 x.1 ++ wireField 32 x.2)
  | .requesterUnfence _ _ r => wireField 16 r.length ++ r.flatMap (fun x => wireField 32 x.1 ++ wireField 32 x.2)
  | .powerShift _ _ w ms => wireField 16 w ++ wireField 32 ms ++ wireField 16 0
  | .admKeyCreate _ _ sl k => admHead 0 sl ++ keyParamBytes k
  | .admKeyRemove _ _ sl k => admHead 1 sl ++ wireField 32 k
  | .isolationSet _ _ sl i v e => admHead 2 sl ++ wireField 16 i ++ wireField 8 v ++ wireField 8 0 ++ isoBytes e
  | .groupSet _ _ sl g c e => admHead 3 sl ++ wireField 16 g ++ wireField 8 c ++ wireField 8 0 ++
      wireField 20 e.gRate ++ wireField 16 e.gBurst ++ wireField 4 e.gQueue ++ wireField 1 e.gCritical
  | .isolationExport _ _ sl p i n => admHead 4 sl ++ wireField 8 p ++ wireField 8 0 ++ wireField 16 i ++ wireField 16 n ++ wireField 16 0
  | _ => []

/-- The parameter block of a request, as R251 lays it out; none where this model's operands do not hold its bytes (a certificate's
signatures, a manifest, and the items of PEER messages). -/
def reqBytes (wide : Bool) : Instr → Option (List Byte)
  | .attendFwd _ p => some (fwdBytes p)
  | .attendBwdOpen _ p => some (bwdBytes 0 p)
  | .attendBwdAccumulate _ p => some (bwdBytes 1 p)
  | .attendBwdCollect _ p => some (bwdBytes 2 p)
  | .attendBwdDiscard _ p => some (bwdBytes 3 p)
  | .lookup _ p => some (lookupBytes wide p)
  | .publishPage _ p => some (publishBytes p)
  | .publishPrefix _ p => some (pfxBytes wide p)
  | .prefixRelease _ p => some (pfxReleaseBytes wide p)
  | .leaseAcquire _ p => some (leaseBytes p)
  | .leaseRenew _ p => some (leaseBytes p)
  | .leaseRelease _ p => some (wireField 32 p.leaseId ++ wireField 48 p.epoch ++ wireField 1 p.discard)
  | .handoverTransfer _ p => some (handoverBytes p)
  | .handoverDiscard _ p => some (handoverBytes p)
  | .handoverQuery _ p => some (handoverBytes p)
  | .pin _ p => some (pinBytes p)
  | .unpin _ p => some (pinBytes p)
  | .statOwnQp _ => some []
  | .statGroup _ => some []
  | .statNode _ => some []
  | .hello _ levels role => some (wireField 8 levels ++ wireField 2 role)
  | _ => none

end Sys2Proof.Machine
end

