-- ==== Sys2Proof/WellFormed.lean ====
section
/-! DEFINITION. Well-formed commands: the conditions under which a request parses, that is, under which step 2 of R17 does
not refuse it with FORMAT_ERROR (R11, R72, R103 to R107, R151, R184, R187, R191, R196, R207, R210, R214, R251, R254, R260).
The checks of attention and prefix requests are made against the records of the slice they reach. -/

namespace Sys2Proof

/-- T of a page format (R45). -/
def pageTokens (f : PageFormat) : Nat := 2 ^ f.tokensLog2

/-- D of a page format (R45). -/
def pageDim (f : PageFormat) : Nat := 32 * (f.headDim + 1)

/-- Pages a position range touches (R72, R89). -/
def pagesTouched (t posStart posCount : Nat) : Nat := (posStart + posCount - 1) / t - posStart / t + 1

/-- An FP32 encoding that is finite, normal and above zero (R72). -/
def scaleOk (x : Nat) : Bool := 0x00800000 ≤ x && x < 0x7f800000

/-- Blocks of a block-sparse bitmap (R105). -/
def bitmapBlocks (g posStart posCount : Nat) : Nat := (posStart + posCount - 1) / g - posStart / g + 1

/-- The tree parents of R106. -/
def treeOk (tail : List Nat) : Bool :=
  tail.headD 0 = 0xff && (tail.zipIdx).all (fun p => p.2 = 0 || p.1 = 0xff || p.1 < p.2)

/-- The mask descriptor is not refused under R103 to R107; `r` rows per head, `hg` heads per group. -/
def maskOk (r hg posStart posCount : Nat) (m : MaskDesc) : Bool :=
  let g := m.rowsPerPos
  let usesQ := m.maskType = 1 || m.maskType = 2 || m.maskType = 3 || m.maskType = 5 || (m.maskType = 4 && m.causalAnd = 1)
  !m.reserved && m.maskType ≤ 5 && (1 ≤ g && g ≤ 64 && r % g = 0) &&
  (m.perHead = 0 || (m.maskType = 4 && m.perHead = 1)) && (m.causalAnd = 0 || (m.maskType = 4 && m.causalAnd = 1)) &&
  (if m.maskType = 4 then 5 ≤ m.granLog2 && m.granLog2 ≤ 10 else m.granLog2 = 0) &&
  (usesQ || m.qPos = 0) && m.qPos < 2 ^ 32 &&
  (if m.maskType = 2 then 1 ≤ m.param else m.maskType = 3 || m.param = 0) && m.param < 2 ^ 32 &&
  m.tail.length = m.tailBytes && m.tailBytes ≤ 8192 && m.tail.all (· < 256) &&
  (match m.maskType with
   | 4 => m.tailBytes = (if m.perHead = 1 then hg else 1) * ((bitmapBlocks (2 ^ m.granLog2) posStart posCount + 7) / 8)
   | 5 => m.tailBytes = r / g && treeOk m.tail
   | _ => m.tailBytes = 0)

/-- The position range of R72: within the sequence and at most `maxPages` pages. -/
def rangeOk (t posStart posCount maxPages : Nat) : Bool :=
  1 ≤ posCount && posStart < 2 ^ 32 && posCount < 2 ^ 32 && posStart + posCount ≤ 2 ^ 20 * t &&
  pagesTouched t posStart posCount ≤ maxPages

/-- The parameters of ATTEND_FWD (R72). -/
def fwdOk (f : PageFormat) (p : FwdParams) : Bool :=
  p.handle < 2 ^ 64 && p.layer < 4096 && p.group < 256 && rangeOk (pageTokens f) p.posStart p.posCount 4096 &&
  (1 ≤ p.rowsPerHead && p.rowsPerHead ≤ 64) && p.queryFormat ≤ 1 && scaleOk p.scale && p.tau ≤ 15 && p.mode ≤ 1 &&
  p.delta < 256 && p.resultFormat ≤ 1 && p.deadline < 2 ^ 64 &&
  p.query.length = f.headsPerGroup * p.rowsPerHead &&
  p.query.all (fun q => q.length = pageDim f && q.all (· < (if p.queryFormat = 0 then 65536 else 256))) &&
  maskOk p.rowsPerHead f.headsPerGroup p.posStart p.posCount p.mask

/-- Parameters of ATTEND_BWD that only ACCUMULATE uses are zero (R151). -/
def bwdUnused (p : BwdParams) : Bool :=
  p.contribTag = 0 && p.rowsPerHead = 0 && p.queryFormat = 0 && p.gradFormat = 0 && p.scale = 0 && p.mask.isNone &&
  p.rows.isEmpty

/-- The parameters of every ATTEND_BWD (R151). -/
def bwdBase (f : PageFormat) (maxPages : Nat) (p : BwdParams) : Bool :=
  p.handle < 2 ^ 64 && p.layer < 4096 && p.group < 256 && rangeOk (pageTokens f) p.posStart p.posCount maxPages &&
  p.accPass < 2 ^ 32

/-- The parameters of OPEN and DISCARD (R151). -/
def bwdOpenOk (f : PageFormat) (p : BwdParams) : Bool := bwdBase f 4096 p && bwdUnused p && p.resultFormat = 0

/-- The parameters of COLLECT (R151). -/
def bwdCollectOk (f : PageFormat) (p : BwdParams) : Bool := bwdBase f 16 p && bwdUnused p && p.resultFormat ≤ 1

/-- The parameters of ACCUMULATE (R151). -/
def bwdAccOk (f : PageFormat) (p : BwdParams) : Bool :=
  bwdBase f 4096 p && p.contribTag < 2 ^ 32 && (1 ≤ p.rowsPerHead && p.rowsPerHead ≤ 64) && p.queryFormat ≤ 1 &&
  p.gradFormat ≤ 1 && scaleOk p.scale && p.resultFormat ≤ 1 && p.rows.length = f.headsPerGroup * p.rowsPerHead &&
  p.rows.all (fun r => r.q.length = pageDim f && r.q.all (· < (if p.queryFormat = 0 then 65536 else 256)) &&
    r.dO.length = pageDim f && r.dO.all (· < (if p.gradFormat = 0 then 65536 else 2 ^ 32)) && r.lse < 2 ^ 32 &&
    r.delta < 2 ^ 32) &&
  (match p.mask with
   | none => false
   | some m => maskOk p.rowsPerHead f.headsPerGroup p.posStart p.posCount m)

/-- Keys of R184 and R187: 64 bits, the second used in a wide cascade only. -/
def keysOk (wide : Nat) (ks : List (Nat × Nat)) : Bool :=
  ks.all (fun k => k.1 < 2 ^ 64 && (if wide = 1 then k.2 < 2 ^ 64 else k.2 = 0))

/-- Tokens of one prefix block (R166, R167). -/
def tokensOk (t : List Nat) : Bool := t.length = 256 && t.all (· < 2 ^ 32)

/-- The fields of LOOKUP (R184), against the slice's Locus parameters (R169). -/
def lookupOk (l : LocusCfg) (p : LookupParams) : Bool :=
  l.blocks ≠ 0 && l.modelEpochs.contains p.modelEpoch && p.keySource ≤ 2 && p.takeRef ≤ 1 && 1 ≤ p.nBlocks &&
  p.nBlocks ≤ (if p.keySource = 2 then 1024 else 256) &&
  (if p.keySource = 0 then p.keys.isEmpty else p.keys.length = p.nBlocks && keysOk l.wide p.keys) &&
  (if p.keySource = 2 then p.tokens.isEmpty else p.tokens.length = p.nBlocks && p.tokens.all tokensOk)

/-- The fields of a prefix publish (R187); `public` without the group's right is no format error. -/
def pfxPublishOk (l : LocusCfg) (p : PfxParams) : Bool :=
  l.blocks ≠ 0 && l.modelEpochs.contains p.modelEpoch && p.keySource ≤ 1 && p.isPublic ≤ 1 && p.level ≤ 7 &&
  p.source < 2 ^ 64 && p.epoch < 2 ^ 48 && p.layers < 4096 && p.headGroups < 256 && p.firstBlock < 2 ^ 22 &&
  (1 ≤ p.nBlocks && p.nBlocks ≤ 256) && p.firstBlock + p.nBlocks ≤ 2 ^ 22 && p.parentKey < 2 ^ 64 &&
  (p.firstBlock ≠ 0 || p.parentKey = 0) && p.blocks.length = p.nBlocks &&
  p.blocks.all (fun b => tokensOk b.tokens && b.digest < 2 ^ 128 &&
    (if p.keySource = 1 then keysOk l.wide [(b.key, b.key2)] else b.key = 0 && b.key2 = 0))

/-- The fields of a prefix release (R187, R191). -/
def pfxReleaseOk (l : LocusCfg) (p : PfxRelease) : Bool :=
  l.blocks ≠ 0 && l.modelEpochs.contains p.modelEpoch && p.isPublic ≤ 1 && (1 ≤ p.nBlocks && p.nBlocks ≤ 256) &&
  p.keys.length = p.nBlocks && keysOk l.wide p.keys

/-- A page-form PUBLISH (R214). -/
def publishOk (f : PageFormat) (p : PublishParams) : Bool :=
  p.leaseId < 2 ^ 32 && p.epoch < 2 ^ 48 && p.keepOpen ≤ 1 && (1 ≤ p.pageCount && p.pageCount ≤ 4096) &&
  p.pages.length = p.pageCount && (p.pages.map PagePub.index).Nodup &&
  p.pages.all (fun g => g.index < 65536 && g.fill ≤ pageTokens f && g.keyScale < 2 ^ 32 && g.valueScale < 2 ^ 32)

/-- Pages of a lease (R210). -/
def leasePages (p : LeaseParams) : Nat := (p.layerCount + 1) * (p.hgCount + 1) * (p.blockCount + 1)

/-- A LEASE_ACQUIRE, acquire form (R210): `la_op` 0; `copy_old` only with a rewrite. -/
def acquireOk (p : LeaseParams) : Bool :=
  p.laOp = 0 && (p.copyOld = 0 || p.writeMode = 1) && p.handle < 2 ^ 64 && p.epoch < 2 ^ 48 && p.layerFirst + p.layerCount < 4096 && p.hgFirst + p.hgCount < 256 &&
  p.blockCount < 4096 && p.blockFirst + p.blockCount < 2 ^ 20 && leasePages p ≤ 65536 &&
  (1 ≤ p.leaseMs && p.leaseMs ≤ 65535) && p.writeMode ≤ 1 && p.copyOld ≤ 1 && p.tornOk ≤ 1

/-- A LEASE_ACQUIRE, renew form (R210): `la_op` 1. -/
def renewOk (p : LeaseParams) : Bool :=
  p.laOp = 1 && p.handle < 2 ^ 64 && p.epoch < 2 ^ 48 && p.leaseId < 2 ^ 32 && (1 ≤ p.leaseMs && p.leaseMs ≤ 65535)

/-- A LEASE_RELEASE (R213). -/
def releaseOk (p : ReleaseParams) : Bool := p.leaseId < 2 ^ 32 && p.epoch < 2 ^ 48 && p.discard ≤ 1

/-- A HANDOVER transfer (R207). -/
def hvTransferOk (p : HandoverParams) : Bool :=
  p.hvOp = 0 && p.handle < 2 ^ 64 && p.expectedEpoch < 2 ^ 48 && 1 ≤ p.newOwner && p.newOwner < 2 ^ 32 && p.requireIdle ≤ 1

/-- A HANDOVER discard (R207). -/
def hvDiscardOk (p : HandoverParams) : Bool :=
  p.hvOp = 1 && p.handle < 2 ^ 64 && p.expectedEpoch < 2 ^ 48 && p.newOwner = 0 && p.requireIdle = 0

/-- A HANDOVER query (R207). -/
def hvQueryOk (p : HandoverParams) : Bool :=
  p.hvOp = 2 && p.handle < 2 ^ 64 && p.expectedEpoch = 0 && p.newOwner = 0 && p.requireIdle = 0

/-- Pages a PIN names (R251). -/
def pinPages (p : PinParams) : Nat := (p.layerCount + 1) * (p.hgCount + 1) * (p.blockCount + 1)

/-- A PIN or UNPIN (R251): at most 65,536 pages, all of them within the limits of a page name (R6). -/
def pinOk (p : PinParams) : Bool :=
  p.handle < 2 ^ 64 && p.hgFirst + p.hgCount < 256 && p.layerFirst + p.layerCount < 4096 && p.blockCount < 65536 &&
  p.blockFirst + p.blockCount < 2 ^ 20 && p.replicate ≤ 1 && pinPages p ≤ 65536

/-- A routing map (R196). -/
def mapOk (m : RouteMap) : Bool :=
  m.generation < 2 ^ 32 && m.routeKey < 2 ^ 128 && (1 ≤ m.drainMs && m.drainMs ≤ 10000) &&
  m.base.1 < 2 ^ 14 && m.base.2 < 8 && m.buckets.all (fun b => b.1 < 65536 && b.2.1 < 2 ^ 14 && b.2.2 < 8)

/-- The ranges of a requester fence or unfence (R360). -/
def rangesOk (r : List (Nat × Nat)) : Bool :=
  1 ≤ r.length && r.length ≤ 256 && r.all (fun x => x.1 ≤ x.2 && x.2 < 2 ^ 18)

/-- The payload of a power shift (R383). -/
def shiftOk (capW ms : Nat) : Bool := (300 ≤ capW && capW ≤ 760) && ms ≤ 3600000

/-- An isolation entry (R255). -/
def isoOk (e : IsoEntry) : Bool :=
  e.pfx < 2 ^ 128 && e.prefixLen ≤ 128 && e.cls ≤ 2 && e.ridBase < 2 ^ 18 && e.group < 4096 && e.slices < 256 &&
  e.peerNode < 2 ^ 14

/-- A group entry (R285). -/
def groupOk (e : GroupCfg) : Bool :=
  e.gRate < 2 ^ 20 && (1 ≤ e.gBurst && e.gBurst ≤ 65535) && e.gQueue < 16 && e.gCritical ≤ 1

/-- The parameters of KEY_CREATE (R414); a region key's length is 1 byte to 16 MiB. -/
def keyParamsOk (k : KeyParams) : Bool :=
  k.kind ≤ 1 && (k.index < 16384 || k.index = 0xffffffff) && (k.group < 4096) &&
  (if k.kind = 0 then k.stack < 8 && k.rights < 8 && 1 ≤ k.lenOrLo && k.lenOrLo ≤ 2 ^ 24
   else k.rights < 256 && k.lenOrLo < 2 ^ 64 && k.handleHi < 2 ^ 64 && k.lenOrLo ≤ k.handleHi)

/-- Whether a command parses: the slice's page format and Locus parameters stand for the slice its queue pair names. The
commands that are not requests carry operands that their types bound. -/
def Instr.wellFormed (f : PageFormat) (l : LocusCfg) : Instr → Bool
  | .attendFwd _ p => fwdOk f p
  | .attendBwdOpen _ p => bwdOpenOk f p
  | .attendBwdAccumulate _ p => bwdAccOk f p
  | .attendBwdCollect _ p => bwdCollectOk f p
  | .attendBwdDiscard _ p => bwdOpenOk f p
  | .lookup _ p => lookupOk l p
  | .publishPage _ p => publishOk f p
  | .publishPrefix _ p => pfxPublishOk l p
  | .prefixRelease _ p => pfxReleaseOk l p
  | .leaseAcquire _ p => acquireOk p
  | .leaseRenew _ p => renewOk p
  | .leaseRelease _ p => releaseOk p
  | .handoverTransfer _ p => hvTransferOk p
  | .handoverDiscard _ p => hvDiscardOk p
  | .handoverQuery _ p => hvQueryOk p
  | .pin _ p => pinOk p
  | .unpin _ p => pinOk p
  | .mapInstall _ _ m => mapOk m
  | .requesterFence _ _ r => rangesOk r
  | .requesterUnfence _ _ r => rangesOk r
  | .powerShift _ _ w ms => shiftOk w ms
  | .admKeyCreate _ _ sl k => sl < 8 && keyParamsOk k
  | .admKeyRemove _ _ sl k => sl < 8 && k < 2 ^ 32
  | .isolationSet _ _ sl i v e => sl = 0xff && i < 16384 && v ≤ 1 && isoOk e
  | .groupSet _ _ sl g c e => sl = 0xff && g < 4096 && c < 16 && groupOk e
  | .isolationExport _ _ sl p i n => sl = 0xff && p < 8 && i < 16384 && 1 ≤ n && n ≤ 1024
  | .admManifestLoad _ _ sl _ => sl = 0xff
  | .hello _ levels role => levels < 256 && role ≤ 2
  | _ => true

end Sys2Proof
end

