-- ==== Sys2Proof/Machine/Xport.lean ====
section
/-! DEFINITION. Operations shared by everything that arrives on or leaves by a port: requester groups and their buckets (R285
to R289, R441), queue-pair contexts, pacers and egress queues (R252, R269, R283, R290, R293), arrival of a packet (R247,
R263, R270, R280), queue-pair errors and flushes (R266 to R268), the checks of R17 and the responses. -/

namespace Sys2Proof.Machine

/-! ## Requester groups -/

/-- The rate that a ramp scales: unlimited ramps as 32,000 (R441). -/
def rampRate (r : Nat) : Nat := if r = 0xfffff then 32000 else r

/-- Tokens of a full bucket, in 1/1,280 byte, at `num`/16 of the burst (R286, R441). -/
def burstCap (g : GroupCfg) (num : Nat) : Int := ((g.gBurst * 4096 * 80 * num : Nat) : Int)

/-- Refill over [lo, hi) at `num`/16 of the rate, up to `num`/16 of the burst. -/
def refillSpan (g : GroupCfg) (rate num lo hi : Nat) (b : Int) : Int :=
  if hi ≤ lo then b else min (burstCap g num) (b + ((hi - lo) * rate * num : Nat))

/-- Bring a group's bucket up to `now`: R286, scaled in the sixteen steps of a running ramp (R441). -/
def GroupS.refill (now : Nat) (g : GroupS) : GroupS :=
  match g.ramp with
  | none =>
    let b := if g.cfg.gRate = 0xfffff then burstCap g.cfg 16 else refillSpan g.cfg g.cfg.gRate 16 g.filledAt now g.tokens
    { g with tokens := min b (burstCap g.cfg 16), filledAt := now }
  | some t0 =>
    let b := (List.range 16).foldl (fun b k =>
      refillSpan g.cfg (rampRate g.cfg.gRate) (k + 1) (max g.filledAt (t0 + k * 12500000))
        (min now (t0 + (k + 1) * 12500000)) b) g.tokens
    if t0 + 200000000 ≤ now then
      let b := if g.cfg.gRate = 0xfffff then burstCap g.cfg 16
        else refillSpan g.cfg g.cfg.gRate 16 (max g.filledAt (t0 + 200000000)) now b
      { g with tokens := min b (burstCap g.cfg 16), filledAt := now, ramp := none }
    else
      { g with tokens := min b (burstCap g.cfg ((now - t0) / 12500000 + 1)), filledAt := now }

/-- A requester group. -/
def State.group (s : State) (g : Nat) : GroupS := s.eth.groups.getD g {}

/-- Change a requester group. -/
def State.onGroup (g : Nat) (f : GroupS → GroupS) (s : State) : State :=
  s.onEth (fun e => { e with groups := e.groups.update g {} f })

/-- Bring a group's bucket up to now. -/
def State.refillGroup (g : Nat) (s : State) : State := s.onGroup g (GroupS.refill s.now)

/-- Charge received bytes (R286, R289). -/
def State.chargeRx (g bytes : Nat) (s : State) : State :=
  (s.refillGroup g).onGroup g (fun x =>
    { x with tokens := x.tokens - ((bytes * 1280 : Nat) : Int), rxBytes := (x.rxBytes + bytes) % 2 ^ 64 })

/-- Charge sent bytes (R286, R289). -/
def State.chargeTx (g bytes : Nat) (s : State) : State :=
  (s.refillGroup g).onGroup g (fun x =>
    { x with tokens := x.tokens - ((bytes * 1280 : Nat) : Int), txBytes := (x.txBytes + bytes) % 2 ^ 64 })

/-- Step 7 of R17 for a group: closed, or b below zero (R286). -/
def State.groupClosed (s : State) (g : Nat) : Bool :=
  let x := (s.group g).refill s.now
  x.cfg.gRate = 0 || x.tokens < 0

/-- credit_hint of R288. -/
def State.creditHint (s : State) (g : Nat) : Nat := (((s.group g).refill s.now).tokens.toNat / 1280) / 4096 % 2 ^ 16

/-- Start a ramp for a group (R441, R442): b = min(b, 0). -/
def State.startRamp (g : Nat) (s : State) : State :=
  (s.refillGroup g).onGroup g (fun x => { x with tokens := min x.tokens 0, ramp := some s.now, filledAt := s.now })

/-- Start a ramp for every group of the table (R442). -/
def State.rampAll (s : State) : State := (s.eth.groups.map Prod.fst).foldl (fun s g => s.startRamp g) s

/-! ## Contexts -/

/-- The context of a queue pair. -/
def State.ctx (s : State) (q : Nat) : Option Ctx := s.xpt.ctxs.get? q

/-- Change a context. -/
def State.onCtx (q : Nat) (f : Ctx → Ctx) (s : State) : State := s.onXpt (fun x => { x with ctxs := x.ctxs.modify q f })

/-- A context that is never evicted (R269). -/
def Ctx.pinned (c : Ctx) : Bool := c.extOut ≠ 0 || !c.held.isEmpty || c.state = .rtr || c.state = .error

/-- Contexts on die. -/
def State.onDieCount (s : State) : Nat := (s.xpt.ctxs.filter (fun p => p.2.onDie)).length

/-- Contexts of a slice on die. -/
def State.sliceOnDie (s : State) (i : Nat) : Nat :=
  (s.xpt.ctxs.filter (fun p => p.2.onDie && p.2.slice = i && !p.2.nodeLevel)).length

/-- The context that gives up its place on die: the least recently used unpinned one among the slices above their `ctx_die`,
or else of the slice that needs the place (R301). -/
def State.victim (s : State) (i : Nat) : Option Nat :=
  let un := s.xpt.ctxs.filter (fun p => p.2.onDie && !p.2.pinned)
  let above := un.filter (fun p => (s.cfg p.2.slice).ctxDie < s.sliceOnDie p.2.slice)
  let cand := if above.isEmpty then un.filter (fun p => p.2.slice = i) else above
  ((sortBy (fun a b => a.2.lastUsed < b.2.lastUsed) cand).head?).map Prod.fst

/-- Make a place on die for a context of slice `i`; none where every context is pinned (R269, R255). -/
def State.roomOnDie (s : State) (i : Nat) : Option State :=
  if s.onDieCount < 65536 then some s
  else (s.victim i).map (fun q => s.onCtx q (fun c => { c with onDie := false }))

/-- R_line of a port in Gbit/s (R273). -/
def lineGbit (mode : Nat) : Nat :=
  match mode with
  | 1 => 400
  | 2 => 800
  | 3 => 1600
  | _ => 0

/-- R_line of a port in units of 10 Mbit/s (R282). -/
def State.lineRate (s : State) (p : Nat) : Nat := lineGbit (s.eth.ports.getD p {}).mode * 100

/-- The tick of R282: time-stamp bits [41:10]. -/
def State.tick (s : State) : Nat := s.now / 1024 % 2 ^ 32

/-- Enter RTS: the send direction is enabled and the Echo-rate state takes its values (R267, R282). -/
def State.toRts (q : Nat) (s : State) : State :=
  match s.ctx q with
  | none => s
  | some c =>
    if c.state = .rtr then
      s.onCtx q (fun c => { c with
        state := .rts
        echo := { rc := s.lineRate c.port, rt := s.lineRate c.port, alpha := 65536, n := 0, tUpdate := s.tick, tCnp := 0,
                  rx := c.echo.rx, ce := c.echo.ce } })
    else s

/-! ## Sending -/

/-- Bytes of a frame beyond its transport headers and payload: Ethernet, IP, UDP, BTH, ICRC and FCS (R292, R293). -/
def frameBase (addr : Nat) : Nat := if addr / 2 ^ 32 = 0xffff then 62 else 82

/-- L of a packet on a port (R292). -/
def State.lengthOn (s : State) (port addr inner : Nat) : Nat :=
  frameBase addr + inner + (s.eth.ports.getD port {}).cfg.lenOverhead

/-- Weight of a weighted queue on a port (R293). -/
def State.weight (s : State) (port i : Nat) : Nat :=
  (s.sch.slices.foldl (fun w c => match (c.cfg.weights.getD port []).get? i with
    | some v => v
    | none => w) 1)

/-- Change a port. -/
def State.onPort (p : Nat) (f : PortS → PortS) (s : State) : State := s.onEth (fun e => { e with ports := e.ports.modify p f })

/-- The queue pair at the other end that a packet goes to: QP1 for connection management. -/
def State.destQpn (s : State) (t : TxPkt) : Nat :=
  if t.body.isCm then 1 else match s.ctx t.qpn with
    | some c => c.remoteQpn
    | none => 1

/-- Put a packet into its egress queue with the tags of R293. -/
def State.enqueue (port : Nat) (t : TxPkt) (s : State) : State :=
  let w := s.weight port (t.queue - 3)
  let t := { t with enqueued := s.now, udp := udpSource (s.destQpn t) }
  s.onPort port (fun p => { p with queues := p.queues.modify t.queue (fun q =>
    let start := if q.pkts.isEmpty then p.vtime else q.lastF
    let f := (start + cdiv (t.len * 1024) w) % 2 ^ 48
    if t.queue < 3 then { q with pkts := q.pkts ++ [(t, 0)] }
    else { q with pkts := q.pkts ++ [(t, f)], lastF := f }) })

/-- Send a control packet of a queue pair: strict queue 0, not paced and not charged (R283, R286, R290). (DEDUCED, log entry 18.) -/
def State.sendControl (q inner : Nat) (b : TxBody) (s : State) : State :=
  match s.ctx q with
  | none => s
  | some c => s.enqueue c.port { qpn := q, queue := 0, len := s.lengthOn c.port c.addr inner, charged := false,
                                 opcode := controlOpcode b, body := b }

/-- The egress queue of a response (R290). -/
def State.respQueue (s : State) (c : Ctx) (op : Nat) : Nat :=
  if op = 9 || op = 10 || op = 12 then 0
  else if op = 11 || c.nodeLevel then 1
  else if op = 0 && (s.group c.group).cfg.gCritical = 1 then 2
  else 3 + (s.group c.group).cfg.gQueue

/-- Packets of a message of `bytes` bytes (R250). -/
def packetsOf (pmtu bytes : Nat) : Nat := max 1 (cdiv bytes pmtu)

/-- Send a message in the node's direction of a queue pair: one PSN per packet, held until acknowledged, handed to the
pacer (R250, R252, R283). `data` holds the message's bytes after the extended header, where the model spells them. -/
def State.sendMessage (q queue bytes : Nat) (data : List Byte) (b : TxBody) (s : State) : State :=
  match s.ctx q with
  | none => s
  | some c =>
    if c.state = .rts then
      let n := packetsOf c.pmtu bytes
      let pkts := (List.range n).map (fun i =>
        let pay := if i + 1 < n then c.pmtu else bytes - c.pmtu * (n - 1)
        ({ qpn := q, queue := queue, charged := true,
           len := s.lengthOn c.port c.addr (pay + if i = 0 then 24 else 0),
           opcode := extOpcode (messageOp b) (posOfPacket n i),
           data := (if i = 0 then extHeader (c.level.getD 3) b bytes else []) ++ (data.drop (i * c.pmtu)).take c.pmtu,
           body := if i = 0 then b else .cont ((c.sendPsn + i) % 2 ^ 24) } : TxPkt))
      s.onCtx q (fun c => { c with
        sendPsn := (c.sendPsn + n) % 2 ^ 24
        held := c.held ++ [{ psn := c.sendPsn, pkts := pkts }]
        pacer := c.pacer ++ pkts
        timer := if c.timer.isNone then some (s.now + max s.xpt.ackTimeout 1 * 1000) else c.timer })
    else s

/-- Answer an extended request: a RESPONSE message with the request code, the node's current generation, load index and
credit hint (R250, R252, R287, R288). -/
def State.respond (h : ExtHdr) (op variant : Nat) (code : Code) (aux : Nat) (body : RespBody) (s : State) : State :=
  match s.ctx h.pkt.qpn with
  | none => s
  | some c =>
    let gen := match s.home.cur with
      | some m => m.generation
      | none => 0
    s.sendMessage h.pkt.qpn (s.respQueue c op) (respBody body).length (respBody body)
      (.response op variant code gen (s.eth.load.getD (c.slice * 8 + c.port) 0) (s.creditHint c.group) h.reqTag aux body)

/-! ## Requests that end, and the counts of refusals (R266 to R268, R289) -/

/-- End a request of a flushed queue pair: its contexts are freed, its in-flight count falls (R200, R268, R325). -/
def State.dropReq (r : Nat) (s : State) : State :=
  match s.reqs.get? r with
  | none => s
  | some q =>
    let s := s.onReqs (fun t => t.erase r)
    let s := s.onEng (fun e => { e with ctxs := e.ctxs.filter (fun p => p.2.req ≠ r) })
    let s := s.onHome (fun h => if q.onPrev then { h with inflightPrev := h.inflightPrev - 1 }
      else { h with inflightCur := h.inflightCur - 1 })
    let s := if q.op ≤ 1 then s.onSch (fun c => { c with pendingCount := c.pendingCount.update q.cls 0 (· - 1) }) else s
    s.onCtx q.qpn (fun c => { c with extOut := c.extOut - 1 })

/-- Count a fault of R259 (R271). -/
def State.countFault (c : Code) (s : State) : State :=
  match c with
  | .keyFault => s.onXpt (fun x => { x with keyFaults := satAdd 0x3fffff x.keyFaults 1 })
  | .boundsFault => s.onXpt (fun x => { x with boundsFaults := satAdd 0x1fffff x.boundsFaults 1 })
  | .rightsFault => s.onXpt (fun x => { x with rightsFaults := satAdd 0x1fffff x.rightsFaults 1 })
  | .redirect => s.onHome (fun h => { h with redirects := inc32 h.redirects })
  | .leaseConflict => s.onHome (fun h => { h with leaseConflicts := inc32 h.leaseConflicts })
  | _ => s

/-- Count an admitted request of a group; HELLO, STAT, MANAGE and PEER are served, not admitted (R289, R304). -/
def State.countAdmitted (g : Nat) (s : State) : State := s.onGroup g (fun x => { x with admitted := inc32 x.admitted })

/-- Count a request refused at step 7 (R289). -/
def State.countRetry (g : Nat) (s : State) : State := s.onGroup g (fun x => { x with retryLater := inc32 x.retryLater })

/-- The AETH syndrome of R266; none where the answer is an RNR NAK. -/
def stdSyndrome (c : Code) : Option Nat :=
  match c with
  | .retryLater => none
  | .busy => none
  | .formatError => some 0x61
  | .keyFault => some 0x62
  | .boundsFault => some 0x62
  | .rightsFault => some 0x62
  | .leaseConflict => some 0x62
  | _ => some 0x63

/-! ## Arrival of a packet -/

/-- What became of an arriving packet: it ended here, it is the expected one, or it is a duplicate. -/
inductive Rx where
  | over (s : State)
  | fresh (c : Ctx) (s : State)
  | duplicate (c : Ctx) (s : State)

/-- Count a dropped packet. -/
def State.dropPkt (s : State) : State := s.onXpt (fun x => { x with dropped := inc32 x.dropped })

/-- Bytes held in the miss buffer. -/
def State.missBytes (s : State) : Nat := (s.xpt.missBuf.map Missed.bytes).sum

/-- A packet whose context is not on die (R270): it waits in the miss buffer, or is answered with an RNR NAK. -/
def State.missPkt (k : Pkt) (cmd : Instr) (cnp : Bool) (s : State) : State :=
  let s := s.onXpt (fun x => { x with ctxMisses := inc32 x.ctxMisses })
  match s.ctx k.qpn with
  | none => s
  | some c =>
    if c.discarding && !cnp then s
    else if s.missBytes + k.bytes ≤ 2 * 2 ^ 20 then
      (s.onXpt (fun x => { x with missBuf := x.missBuf ++ [{ qpn := k.qpn, at_ := s.now, bytes := k.bytes, cmd := cmd }] })).onCtx
        k.qpn (fun c => { c with loading := true })
    else if cnp then s.onEth (fun e => { e with cnpDrops := inc32 e.cnpDrops })
    else
      ((s.onXpt (fun x => { x with missRnr := inc32 x.missRnr })).onCtx k.qpn
        (fun c => { c with discarding := true, loading := true })).sendControl k.qpn 4 (.rnrNak k.psn s.xpt.rnrCode)

/-- A CE mark, or its absence, on a received packet; a notification packet at most once per `cnp_gap` (R280, R281). (DESIGN CHOICE, log entry 91.) -/
def State.noteCe (k : Pkt) (packets : Nat) (s : State) : State :=
  let s := s.onCtx k.qpn (fun c => { c with echo := { c.echo with rx := c.echo.rx + packets, ce := c.echo.ce + b2n k.ce } })
  match s.ctx k.qpn with
  | none => s
  | some c =>
    if k.ce ∧ s.eth.cnpGap * 1000 ≤ (s.tick + 2 ^ 32 - c.echo.tCnp) % 2 ^ 32 * 1024 then
      let f := min 255 (c.echo.ce * 256 / max 1 c.echo.rx)
      let s := s.sendControl k.qpn 16 (.cnp f)
      let s := s.onEth (fun e => { e with cnpsSent := inc32 e.cnpsSent })
      s.onCtx k.qpn (fun c => { c with echo := { c.echo with rx := 0, ce := 0, tCnp := s.tick } })
    else s

/-- The part of an arrival that every packet takes: invariant CRC, context, identity, port, on-die context (R247, R248,
R255, R267, R270, R275). -/
def State.arrive (k : Pkt) (cmd : Instr) (cnp : Bool) (s : State) : Except State Ctx :=
  if !(s.eth.ports.getD k.port {}).linkUp then .error s
  else if !k.icrcOk then .error s.dropPkt
  else if k.qpn < 2 || 2 ^ 22 ≤ k.qpn then .error s.dropPkt
  else match s.ctx k.qpn with
    | none => .error s.dropPkt
    | some c =>
      if !c.onDie then .error (s.missPkt k cmd cnp)
      else if c.addr ≠ k.src || c.port ≠ k.port || c.state = .error || c.state = .reset then .error s.dropPkt
      else .ok c

/-- Arrival of a request packet: charging (R286), CE (R280), state (R267) and the sequence number (R263). -/
def State.receive (k : Pkt) (cmd : Instr) (packets : Nat) (s : State) : Rx :=
  match s.arrive k cmd false with
  | .error s => .over s
  | .ok c =>
    let s := s.chargeRx c.group k.bytes
    let s := s.onCtx k.qpn (fun c => { c with rx := (c.rx + packets) % 2 ^ 32, lastUsed := s.now })
    let s := s.noteCe k packets
    let d := (k.psn + 2 ^ 24 - c.ePsn) % 2 ^ 24
    if d = 0 then
      let s := (s.onCtx k.qpn (fun c => { c with nakked := false })).toRts k.qpn
      match s.ctx k.qpn with
      | none => .over s
      | some c => .fresh c s
    else if 2 ^ 23 ≤ d then
      let s := s.onXpt (fun x => { x with duplicates := inc32 x.duplicates })
      match s.ctx k.qpn with
      | none => .over s
      | some c => .duplicate c s
    else if c.nakked then .over s
    else .over ((s.sendControl k.qpn 4 (.nak c.ePsn 0x60 c.msn)).onCtx k.qpn (fun c => { c with nakked := true }))

/-- Consume the expected PSNs of a message and acknowledge it: every 16 packets and on its last (R253, R263). (DEDUCED, log entry 18.) -/
def State.acceptPsn (k : Pkt) (packets : Nat) (s : State) : State :=
  let s := s.onCtx k.qpn (fun c => { c with ePsn := (c.ePsn + packets) % 2 ^ 24, msn := (c.msn + 1) % 2 ^ 24 })
  match s.ctx k.qpn with
  | none => s
  | some c =>
    let s := (List.range ((packets - 1) / 16)).foldl (fun s i =>
      s.sendControl k.qpn 4 (.ack ((k.psn + 16 * i + 15) % 2 ^ 24) ((c.msn + 2 ^ 24 - 1) % 2 ^ 24))) s
    s.sendControl k.qpn 4 (.ack ((k.psn + packets - 1) % 2 ^ 24) c.msn)

/-! ## Routing maps (R196 to R201) -/

/-- The bucket of a name (R197). -/
def mapBucket (m : RouteMap) (domain value : Nat) : Nat := sipHash m.routeKey (leBytes 1 domain ++ leBytes 8 value) % 65536

/-- The node and slice that a map names for a bucket. -/
def mapEntry (m : RouteMap) (b : Nat) : Nat × Nat := m.buckets.getD b m.base

/-- The home that a map gives a name. -/
def mapHome (m : RouteMap) (domain value : Nat) : Nat × Nat := mapEntry m (mapBucket m domain value)

/-- This node's ID (R248). -/
def State.nodeId (s : State) : Nat := s.sch.node.nodeId

/-- The drain window is open: the previous generation is accepted (R198, R200). -/
def State.drainNow (s : State) : Bool := s.home.drainOpen && s.now < s.home.drainEnd

/-- The answer of step 3 of R17 (R199, R201): passed under the current or the previous map, or REDIRECT with the node that
the current map names. -/
inductive Routed where
  | current
  | previous
  | redirect (node : Nat)
deriving DecidableEq, Repr

/-- Step 3 of R17 for a name; `readLike` marks the operations that the previous home still serves (R199, R201). (DESIGN CHOICE, log entry 39.) -/
def State.routeName (s : State) (slice gen domain value : Nat) (readLike : Bool) : Routed :=
  match s.home.cur with
  | none => .redirect 0
  | some m =>
    let hc := mapHome m domain value
    if gen = m.generation then (if hc = (s.nodeId, slice) then .current else .redirect hc.1)
    else match s.home.prev with
      | none => .redirect hc.1
      | some p =>
        if s.drainNow && gen = p.generation && mapHome p domain value = (s.nodeId, slice) &&
          (readLike || hc.1 = s.nodeId) then .previous
        else .redirect hc.1

/-- Step 3 of R17 where the request names a lease that is not open here: the generation alone (R199). (DESIGN CHOICE, log entry 39.) -/
def State.routeGen (s : State) (gen : Nat) : Routed :=
  match s.home.cur with
  | none => .redirect 0
  | some m =>
    if gen = m.generation then .current
    else match s.home.prev with
      | none => .redirect s.nodeId
      | some p => if s.drainNow && gen = p.generation then .previous else .redirect s.nodeId

/-! ## Keys (R258, R259) -/

/-- Kind, index and generation of a key. -/
def keyKind (k : Nat) : Nat := bits k 31 30
/-- Index of a key (R258). -/
def keyIndex (k : Nat) : Nat := bits k 29 12
/-- Generation of a key (R258). -/
def keyGen (k : Nat) : Nat := bits k 11 0

/-- The key of a kind, index and generation (R258). -/
def mkKey (kind index gen : Nat) : Nat := kind % 4 * 2 ^ 30 + index % 2 ^ 18 * 2 ^ 12 + gen % 2 ^ 12

/-- The live key-table entry of a key: present, with the generation the key carries (R258, R259). -/
def State.keyEntry (s : State) (k : Nat) : Option KeyEnt :=
  match keyKind k with
  | 0 => if keyGen k = (s.xpt.regionGens.getD (keyIndex k) {}).gen then s.xpt.regionKeys.get? (keyIndex k) else none
  | 1 => if keyGen k = (s.xpt.serviceGens.getD (keyIndex k) {}).gen then s.xpt.serviceKeys.get? (keyIndex k) else none
  | _ => none

/-- A key-table entry serves a queue pair: its slice and group (R259). -/
def KeyEnt.serves (e : KeyEnt) (c : Ctx) : Bool := e.slice = c.slice && (e.group = 0xfff || e.group = c.group)

/-- Steps 4 to 6 of R17 for an extended request that carries a service key (R259). -/
def State.serviceCheck (s : State) (c : Ctx) (key right : Nat) (handle : Option Nat) : Code :=
  if keyKind key ≠ 1 then .keyFault
  else match s.keyEntry key with
    | none => .keyFault
    | some e =>
      if !e.serves c then .keyFault
      else if (match handle with
        | some v => v < e.lo || e.hi < v
        | none => false) then .boundsFault
      else if !bit e.rights right then .rightsFault
      else .ok

/-! ## Extended requests -/

/-- What the checks of R17 need to know of an extended request: its op and variant, whether step 1 applies, whether it
parses, how step 3 routes it, the right it needs, the handle that its key's bounds must hold and whether its group may do what it
asks (R187), whether step 7 applies, the
code of steps 8 and 9, and what a refusal carries and does. -/
structure ExtSpec where
  op : Nat
  variant : Nat := 0
  data : Bool := true
  parses : Bool
  routed : State → Routed := fun _ => .current
  right : Option Nat := none
  bound : Option Nat := none
  rightOk : Bool := true
  serving : Bool := true
  own : State → Code := fun _ => .ok
  busy : State → Code := fun _ => .ok
  refusal : Code → State → RespBody := fun _ _ => .none
  refused : Code → State → State := fun _ s => s

/-- The latency class of a request (R313). -/
def State.classOf (s : State) (slice group : Nat) : Nat :=
  let g := s.sch.classMap.getD group 0
  let ok (c : Nat) : Bool := match s.sch.classes.get? c with
    | some r => r.valid = 1 && r.slice = slice
    | none => false
  if ok g then g else ((List.range 16).find? ok).getD g

/-- The limit of outstanding extended requests of a queue pair (R253). -/
def State.extLimit (s : State) (c : Ctx) : Nat := if c.nodeLevel then 32 else (s.cfg c.slice).extOutstanding

/-- The header checks of step 2 of R17 (R250, R254, R259): HELLO done and the agreed level carried, nothing reserved, lengths that fit, a
key only where the operation carries one. -/
def headerOk (c : Ctx) (h : ExtHdr) (sp : ExtSpec) : Bool :=
  !h.reserved && h.fits && h.msgLen ≤ 4 * 2 ^ 20 && h.key < 2 ^ 32 && h.mapGen < 2 ^ 32 && h.reqTag < 2 ^ 32 && h.gxLevel < 16 &&
  (if sp.op = 12 then c.level.isNone else c.level = some h.gxLevel) && (sp.right.isSome || h.key = 0)

/-- Steps 1 to 7 of R17 for an extended request: the code of the first row that applies, or OK. -/
def State.extEntry (s : State) (c : Ctx) (h : ExtHdr) (sp : ExtSpec) : Code :=
  if sp.data && s.nodeFenced then .fenced
  else if !(headerOk c h sp && sp.parses) then .formatError
  else match sp.routed s with
    | .redirect _ => .redirect
    | _ =>
      match (match sp.right with
        | some r => s.serviceCheck c h.key r sp.bound
        | none => .ok) with
      | .ok => if !sp.rightOk then .rightsFault else if sp.serving && (!(s.serving c.slice) || s.groupClosed c.group) then .retryLater else .ok
      | e => e

/-- Steps 1 to 9 of R17 for an extended request, with the limit of R253 in step 9. -/
def State.extCode (s : State) (c : Ctx) (h : ExtHdr) (sp : ExtSpec) : Code :=
  match s.extEntry c h sp with
  | .ok =>
    match sp.own s with
    | .ok => if s.extLimit c ≤ c.extOut then .busy else sp.busy s
    | e => e
  | e => e

/-- The `aux` field of a REDIRECT (R250). -/
def redirectNode (r : Routed) : Nat :=
  match r with
  | .redirect n => n
  | _ => 0

/-- Refuse an extended request with a code (R17, R250). -/
def State.extRefuse (h : ExtHdr) (c : Ctx) (sp : ExtSpec) (code : Code) (s : State) : State :=
  let s := s.countFault code
  let s := if code = Code.retryLater then s.countRetry c.group else s
  let node := if code = Code.redirect then redirectNode (sp.routed s) else 0
  (sp.refused code s).respond h sp.op sp.variant code node (sp.refusal code s)

/-- An extended request arrives: the steps of R263, R264 and R253, then steps 1 to 9 of R17; `run` is step 10. -/
def State.extended (h : ExtHdr) (cmd : Instr) (sp : Ctx → ExtSpec) (run : Ctx → State → State) (s : State) : State :=
  match s.receive h.pkt cmd (max 1 h.packets) with
  | .over s => s
  | .duplicate c s => s.sendControl h.pkt.qpn 4 (.ack h.pkt.psn c.msn)
  | .fresh c s =>
    let s := s.acceptPsn h.pkt (max 1 h.packets)
    match s.extCode c h (sp c) with
    | .ok => run c (if (sp c).serving then s.countAdmitted c.group else s)
    | e => s.extRefuse h c (sp c) e

end Sys2Proof.Machine
end

