-- ==== Sys2Proof/Machine/Space.lean ====
section
/-! DEFINITION. The page space: name hashes (R57, R63, R197), spans and units (R55, R56), retirement (R66), flash extents
(R228), name-table entries (R61 to R63, R461, R445), Hull records and shadows (R49, R50, R57, R102, R237). -/

namespace Sys2Proof.Machine

/-! ## Hashes of names -/

/-- The 13 bytes of a page name, little-endian (R6). (DESIGN CHOICE, log entry 25.) -/
def nameBytes (n : PageName) : List Byte :=
  leBytes 13 (n.handle % 2 ^ 64 * 2 ^ 40 + n.layer % 4096 * 2 ^ 28 + n.block % 2 ^ 20 * 2 ^ 8 + n.group % 256)

/-- S of R63: the hash of (slice, handle). (DESIGN CHOICE, log entry 25.) -/
def State.seqHash (s : State) (slice handle : Nat) : Nat := sipHash s.home.nameKey (leBytes 1 slice ++ leBytes 8 handle)

/-- The quarter of a sequence (R63). -/
def State.quarterOf (s : State) (slice handle : Nat) : Nat := s.seqHash slice handle % 4

/-- N of R63: the hash of (slice, full page name). (DESIGN CHOICE, log entry 25.) -/
def State.nameHash (s : State) (slice : Nat) (n : PageName) : Nat := sipHash s.home.nameKey (leBytes 1 slice ++ nameBytes n)

/-- H of R57: the hash of (slice, handle, layer). (DESIGN CHOICE, log entry 25.) -/
def State.layerHash (s : State) (slice handle layer : Nat) : Nat :=
  sipHash s.home.nameKey (leBytes 1 slice ++ leBytes 8 handle ++ leBytes 2 layer)

/-- A quarter cannot be served: its home unit is lost, or its state is (R205, R359). -/
def State.quarterBusy (s : State) (q : Nat) : Bool := s.home.unitsLost.contains q || s.ras.quartersLost.contains q

/-! ## Spans and units -/

/-- Something that a persistence image holds is about to change (a sequence record, a name-table entry, an extent, a serial,
the control section): the mark is cleared on every drive first (R436). -/
def State.clearMark (s : State) : State :=
  if s.mem.drives.any (fun d => d.2.mark) then
    (s.onMem (fun m => { m with drives := m.drives.map (fun d => (d.1, { d.2 with mark := false })) })).emit .markCleared
  else s

/-- The table key of a span. -/
def spanKey (stack span : Nat) : Nat := stack * spansPerStack + span

/-- A span; one that is not listed is free (R55). -/
def State.span (s : State) (stack span : Nat) : Span := s.mem.spans.getD (spanKey stack span) {}

/-- The 32-bit span-table entry of R55, `owner` being the slice that owns the stack. (DESIGN CHOICE, log entry 77.) -/
def Span.word (owner : Nat) (x : Span) : Nat :=
  x.kind % 16 * 2 ^ 28 + (if x.kind = 0 then owner else x.slice) % 8 * 2 ^ 25 + (x.unitGranules - 1) % 256 * 2 ^ 17 +
    x.used.length % 512 * 2 ^ 8

/-- The free-unit bitmap of a span (R55): bit u is set where unit u is free. (DESIGN CHOICE, log entry 77.) -/
def Span.bitmap (x : Span) : Nat := ((List.range (256 / x.unitGranules)).filter (fun u => !x.used.contains u)).foldl (fun a u => a + 2 ^ u) 0

/-- The bytes of a span's table entry and bitmap in the control section, little-endian (R9, R55). -/
def State.spanBytes (s : State) (stack span : Nat) : List Byte :=
  let owner := ((List.range 8).find? (fun i => (s.cfg i).stackList.contains stack)).getD 0
  leBytes 4 ((s.span stack span).word owner) ++ leBytes 32 (s.span stack span).bitmap

/-! ## The state space (R58, R59) -/

/-- The stack offset of state offset `y` (R58). -/
def stateOffset (y : Nat) : Nat := y / (1008 * 2 ^ 20) * 2 ^ 35 + 31 * 2 ^ 30 + y % (1008 * 2 ^ 20)

/-- The sections of the state space (R59). -/
inductive Section where
  | control | nameTable | seqRecords | contexts | locusOverflow | nvme | logStaging | zero
deriving DecidableEq, Repr

/-- State offset and size of a section, in MiB (R59). -/
def Section.place : Section → Nat × Nat
  | .control => (0, 64)
  | .nameTable => (64, 2048)
  | .seqRecords => (2112, 256)
  | .contexts => (2368, 256)
  | .locusOverflow => (2624, 256)
  | .nvme => (2880, 64)
  | .logStaging => (2944, 64)
  | .zero => (3008, 16)

/-- The stacks that keep a section's content of quarter `q` (R33, R59): all eight, or the mirror pair. -/
def Section.copies (q : Nat) : Section → List Nat
  | .control => List.range 8
  | _ => [q % 4, q % 4 + 4]

/-- The stacks that hold a section's content: a write is complete when each of them has it; a read comes from the lowest-numbered
(R59). Content that none holds is lost. -/
def State.holders (s : State) (q : Nat) (x : Section) : List Nat := (x.copies q).filter (fun k => !s.stackFenced k)

/-- Node address of byte `y` of a section, in the stack that reads come from (R59). -/
def State.sectionAddr (s : State) (q : Nat) (x : Section) (y : Nat) : Option Nat :=
  (s.holders q x).head?.map (fun k => nodeAddr k (stateOffset (x.place.1 * 2 ^ 20 + y)))

/-- Units of `n` granules in a span (R56). -/
def unitsPerSpan (n : Nat) : Nat := 256 / n

/-- The lowest unit of a span that is not in use. -/
def Span.freeUnit (x : Span) : Option Nat := (List.range (unitsPerSpan x.unitGranules)).find? (fun i => !x.used.contains i)

/-- The lowest-numbered span of a stack with a property. -/
def State.findSpan (s : State) (stack : Nat) (p : Span → Bool) : Option Nat :=
  (List.range spansPerStack).find? (fun i => p (s.span stack i))

/-- Allocate a unit of `n` granules of a kind in one stack (R56): from the lowest-numbered span of the kind and unit size
with a free unit, else from the lowest-numbered free span. -/
def State.allocIn (s : State) (slice stack kind n : Nat) : Option ((Nat × Nat) × State) :=
  if s.stackFenced stack then none
  else
    let take (i u : Nat) (x : Span) : (Nat × Nat) × State :=
      ((stack, i * 256 + u * n),
        s.clearMark.onMem (fun m => { m with spans := m.spans.set (spanKey stack i) { x with used := x.used ++ [u] } }))
    match s.findSpan stack (fun x => x.kind = kind && x.slice = slice && x.unitGranules = n && x.freeUnit.isSome) with
    | some i =>
      let x := s.span stack i
      (x.freeUnit).map (fun u => take i u x)
    | none =>
      match s.findSpan stack (fun x => x.kind = 0) with
      | some i => some (take i 0 { kind := kind, slice := slice, unitGranules := n, used := [] })
      | none => none

/-- The first stack of a list that gives a unit. -/
def State.allocFrom (s : State) (slice kind n : Nat) : List Nat → Option ((Nat × Nat) × State)
  | [] => none
  | k :: t => match s.allocIn slice k kind n with
    | some r => some r
    | none => s.allocFrom slice kind n t

/-- The stacks of a slice from position `i` of its list, in list order and round (R57). -/
def rotated (l : List Nat) (i : Nat) : List Nat := if l.isEmpty then [] else l.drop (i % l.length) ++ l.take (i % l.length)

/-- The stacks a slice allocates in: its list without those that a recomposition removes (R307). (DESIGN CHOICE, log entry 73.) -/
def State.stacksOf (s : State) (slice : Nat) : List Nat :=
  (s.cfg slice).stackList.filter (fun k => !(s.slice slice).removedStacks.contains k)

/-- A stack first, then the slice's others in list order (R57, R237). -/
def State.stacksFirst (s : State) (slice first : Nat) : List Nat :=
  let l := s.stacksOf slice
  if l.contains first then first :: l.filter (· ≠ first) else l

/-- Free a unit; a span none of whose units is in use returns to free (R56). -/
def State.freeUnit (place : Nat × Nat) (s : State) : State :=
  let i := place.2 / 256
  let x := s.span place.1 i
  let u := place.2 % 256 / max 1 x.unitGranules
  let used := x.used.filter (· ≠ u)
  s.clearMark.onMem (fun m =>
    let spans := if used.isEmpty ∧ x.kind ≠ 7 then m.spans.erase (spanKey place.1 i)
      else m.spans.set (spanKey place.1 i) { x with used := used }
    { m with spans := spans })

/-- The retire list of a quarter (R66). -/
def State.retireList (s : State) (q : Nat) : List Retired := s.mem.retire.getD q []

/-- A retire list that is full stops allocation in its quarter (R66). -/
def State.retireFull (s : State) (q : Nat) : Bool := 65536 ≤ (s.retireList q).length

/-- Put a removed place on its quarter's retire list, tagged with the reclaim epoch (R66). (DESIGN CHOICE, log entry 75.) -/
def State.retire (q : Nat) (r : Retired) (s : State) : State :=
  s.clearMark.onMem (fun m => { m with retire := m.retire.update q [] (· ++ [{ r with epoch := m.epochs.getD q 0 }]) })

/-- Retire a unit of stack memory; its page-buffer lines are invalidated (R66, R226). -/
def State.retireUnit (q : Nat) (place : Nat × Nat) (n : Nat) (s : State) : State :=
  let lo := nodeAddr place.1 (granuleOffset place.2)
  (s.retire q { place := place.1, granule := place.2, count := n }).onEng
    (fun e => { e with lines := e.lines.filter (fun a => !(lo ≤ a && a < lo + n * 65536)) })

/-- Retire a flash extent (R66, R228). -/
def State.retireExtent (q drive granule n : Nat) (s : State) : State :=
  s.retire q { flash := true, place := drive, granule := granule, count := n }

/-! ## Flash extents (R228) -/

/-- A drive that may hold data: present, not failed, not foreign, not being formatted. -/
def Drive.usable (d : Drive) : Bool := d.present && !d.failed && !d.foreign && !d.outOfUse

/-- Granules of the image area (R435). -/
def imageGranules : Nat := 163840

/-- Granules that the node uses in all (R228). -/
def maxGranules : Nat := 3906250000

/-- The node uses no more than 256 TB of data area over the drives that it uses, cut from the highest-numbered drive down (R228). The
granules of the persistence image are not counted. -/
def State.capDrives (s : State) : State :=
  let ds := (List.range 16).filter (fun d => (s.mem.drives.get? d).any (fun x => x.present && !x.foreign))
  (ds.foldl (fun (x : Nat × State) d =>
    let c := (x.2.mem.drives.getD d {}).capacity
    (x.1 - (c - imageGranules), x.2.onMem (fun m => { m with drives := m.drives.modify d (fun y =>
      { y with granules := min c (x.1 + imageGranules) }) }))) (maxGranules, s)).2

/-- A run of granules meets no allocated extent. -/
def runFree (ex : List (Nat × Nat)) (g n : Nat) : Bool := ex.all (fun e => e.1 + e.2 ≤ g || g + n ≤ e.1)

/-- The lowest free run of `n` granules in the lowest-numbered 1 GiB chunk that has one. -/
def Drive.findRun (d : Drive) (n : Nat) : Option Nat :=
  (List.range (cdiv d.granules 16384)).findSome? (fun c =>
    let lo := c * 16384
    let hi := min d.granules (lo + 16384)
    let starts := lo :: (sortBy (fun a b => decide (a < b))
      ((d.extents.map (fun e => e.1 + e.2)).filter (fun x => lo ≤ x && x < hi)))
    starts.find? (fun g => g + n ≤ hi && runFree d.extents g n))

/-- The drive is marked failed, or is not there. -/
def State.driveFailedB (s : State) (d : Nat) : Bool :=
  match s.mem.drives.get? d with
  | some x => x.failed || !x.present
  | none => true

/-- The flash key of a slice: slot 0 is the metadata key (R229, R400). (DEDUCED, log entry 37.) -/
def State.flashKey (s : State) (slice : Nat) : Nat := s.sec.slotKeys.getD (s.cfg slice).flashKeySlot 0

/-- The AES-256-XTS tweak of a 4,096-byte block (R229); as bytes it is little-endian. -/
def xtsTweak (drive lba : Nat) : Nat := drive * 2 ^ 64 + lba

/-- The bytes of an extent in logical order, without the zero ones; an extent written under another key or tweak gives free bytes (R229,
R400). (DEDUCED, log entry 37.) -/
def State.flashImage (s : State) (slice drive granule bytes : Nat) : List (Nat × Byte) :=
  let d := s.mem.drives.getD drive {}
  let tw := xtsTweak drive (262144 + 16 * granule)
  if d.keys.getD granule (s.flashKey slice) = s.flashKey slice ∧ d.tweaks.getD granule tw = tw then
    (d.cells.filter (fun c => granule * 65536 ≤ c.1 && c.1 < granule * 65536 + bytes)).map (fun c => (c.1 - granule * 65536, c.2))
  else
    ((List.range bytes).map (fun x => (x, BitVec.ofNat 8 (s.pick Site.wrongKey x)))).filter (fun p => p.2 ≠ 0)

/-- Change a drive. -/
def State.onDrive (d : Nat) (f : Drive → Drive) (s : State) : State := s.onMem (fun m => { m with drives := m.drives.modify d f })

/-- Mark the bitmap blocks of an extent changed (R228). -/
def dirtyBlocks (g n now : Nat) (t : Tbl Nat) : Tbl Nat :=
  (List.range ((g + n - 1) / 32768 + 1 - g / 32768)).foldl (fun t i =>
    if (t.get? (g / 32768 + i + 1)).isSome then t else t.set (g / 32768 + i + 1) now) t

/-- Allocate an extent for a page (R228): the first drive of `flash_drives` at or after (H + position block) mod 16 with a
free run. -/
def State.allocExtent (s : State) (slice : Nat) (n : PageName) (count : Nat) : Option ((Nat × Nat) × State) :=
  let first := (s.layerHash slice n.handle n.layer + n.block) % 16
  ((List.range 16).map (fun i => (first + i) % 16)).findSome? (fun d =>
    if bit (s.cfg slice).tier.flashDrives d then
      match s.mem.drives.get? d with
      | none => none
      | some x =>
        if x.usable then
          (x.findRun count).map (fun g => ((d, g), s.clearMark.onDrive d (fun y =>
            { y with extents := y.extents ++ [(g, count)], dirty := dirtyBlocks g count s.now y.dirty })))
        else none
    else none)

/-! ## NVMe commands (R230) -/

/-- Layers from a stream's layer to a page's, in the stream's direction; a page of no stream comes last (R230). -/
def State.layersAhead (s : State) (slice : Nat) (n : PageName) : Nat :=
  let m := (s.cfg slice).tier.modelLayers + 1
  match s.home.streams.find? (fun x => x.slice = slice && x.handle = n.handle && x.group = n.group) with
  | none => m
  | some x => if x.backward then (x.layer + m - n.layer % m) % m else (n.layer + m - x.layer % m) % m

/-- The waiting class that takes the next issue slot: a class that has waited 12 slots, else the first class; so a waiting
class waits at most 15. -/
def nextClass (waiting waited : List Nat) : Option Nat :=
  match waiting.find? (fun c => 12 ≤ waited.getD (c - 1) 0) with
  | some c => some c
  | none => (sortBy (fun a b => decide (a < b)) waiting).head?

/-- Commands outstanding on an I/O queue pair of a drive (R230). -/
def Drive.onPair (y : Drive) (k : Nat) : Nat := (y.cmds.filter (fun c => c.2.issued && c.2.pair = k)).length

/-- The waiting command of a class that is issued next: in class 3 by the distance in layers, else the one queued first (R230). -/
def State.nextCmd (s : State) (k : Nat) (wait : Tbl NvmeCmd) : Option (Nat × NvmeCmd) :=
  let l := wait.filter (fun c => c.2.cls = k)
  let far (c : Nat × NvmeCmd) : Nat := if k = 3 then s.layersAhead c.2.slice c.2.name else 0
  (sortBy (fun a b => decide (far a < far b) || (far a = far b && decide (a.1 < b.1))) l).head?

/-- Issue a waiting command of a drive while fewer than 256 are outstanding on it, at most 64 on each of its four queue pairs, and
4,096 on the node (R230). (DESIGN CHOICE, log entry 68.) -/
def State.issueOne (d : Nat) (s : State) : State :=
  match s.mem.drives.get? d with
  | none => s
  | some x =>
    let out := (x.cmds.filter (fun c => c.2.issued)).length
    let all := (s.mem.drives.map (fun y => (y.2.cmds.filter (fun c => c.2.issued)).length)).sum
    let wait := x.cmds.filter (fun c => !c.2.issued)
    match nextClass (wait.map (fun c => c.2.cls)).eraseDups x.waited, (List.range 4).find? (fun k => x.onPair k < 64) with
    | some k, some qp =>
      if 256 ≤ out ∨ 4096 ≤ all ∨ !x.usable then s
      else match s.nextCmd k wait with
        | none => s
        | some c =>
          (s.onDrive d (fun y => { y with
            cmds := y.cmds.modify c.1 (fun z => { z with issued := true, issuedAt := s.now, pair := qp })
            waited := (y.waited.zipIdx).map (fun w =>
              if w.2 + 1 = k then 0 else if wait.any (fun z => z.2.cls = w.2 + 1) then w.1 + 1 else 0) })).emit (.nvme d c.1)
    | _, _ => s

/-- Issue every command that can be issued. -/
def State.issueAll (d : Nat) (s : State) : State := (List.range 256).foldl (fun s _ => s.issueOne d) s

/-- Most bytes of one command of a drive: 256 KiB, or the drive's own limit where that is smaller (R230). -/
def Drive.cmdBytes (y : Drive) : Nat := max 4096 (min 262144 y.maxTransfer)

/-- A drive with the commands of a move on its queues (R230). -/
def Drive.queue (c : NvmeCmd) (granule bytes : Nat) (y : Drive) : Drive :=
  let m := y.cmdBytes / 4096 * 4096
  (List.range (cdiv bytes m)).foldl (fun (y : Drive) i =>
    { y with
      cmds := y.cmds.set y.nextCmd
        { c with bytes := min m (bytes - m * i), lba := 262144 + 16 * granule + m / 4096 * i }
      nextCmd := y.nextCmd + 1 }) y

/-- Put the commands of a move on a drive's queues (R230). -/
def State.addCmds (d : Nat) (c : NvmeCmd) (granule bytes : Nat) (s : State) : State :=
  (s.onDrive d (Drive.queue c granule bytes)).issueAll d

/-- A command that belongs to a page's move. -/
def NvmeCmd.of (slice : Nat) (n : PageName) (c : NvmeCmd) : Bool :=
  c.slice = slice && c.name = n && c.bitmapBlock.isNone && c.dealloc.isNone

/-- Commands of a page's move on a drive. -/
def State.cmdsOf (s : State) (d slice : Nat) (n : PageName) : Tbl NvmeCmd :=
  match s.mem.drives.get? d with
  | none => []
  | some x => x.cmds.filter (fun c => c.2.of slice n)

/-- Drop the commands of a page's move. -/
def State.dropCmds (d slice : Nat) (n : PageName) (s : State) : State :=
  s.onDrive d (fun y => { y with cmds := y.cmds.filter (fun c => !(c.2.of slice n)) })

/-- Free an extent: its bits clear, and a Dataset Management deallocate takes its turn in class 4 (R228, R230). -/
def State.freeExtent (d g n : Nat) (s : State) : State :=
  (s.clearMark.onDrive d (fun y => { y with
    extents := y.extents.filter (· ≠ (g, n))
    dirty := dirtyBlocks g n s.now y.dirty
    keys := y.keys.erase g
    tweaks := y.tweaks.erase g
    cells := cellZero y.cells (g * 65536) ((g + n) * 65536)
    cmds := y.cmds.set y.nextCmd { cls := 4, write := true, dealloc := some (g, n), lba := 262144 + 16 * g }
    nextCmd := y.nextCmd + 1 })).issueAll d

/-! ## Name-table entries -/

/-- Two entries carry the same name in the same slice. -/
def Entry.is (slice : Nat) (n : PageName) (e : Entry) : Bool := e.slice = slice && e.name = n

/-- The entry of a name (R64). -/
def State.entry (s : State) (slice : Nat) (n : PageName) : Option Entry := s.home.entries.find? (Entry.is slice n)

/-- Change the entry of a name. -/
def State.onEntry (slice : Nat) (n : PageName) (f : Entry → Entry) (s : State) : State :=
  s.clearMark.onHome (fun h => { h with entries := h.entries.map (fun e => if e.is slice n then f e else e) })

/-- Entries of a bucket (R63). -/
def State.bucketCount (s : State) (q b : Nat) : Nat := (s.home.entries.filter (fun e => e.quarter = q && e.bucket = b)).length

/-- The key of a name-table slot: quarter, bucket and place in it (R63). -/
def slotKey (q b i : Nat) : Nat := (q * 2 ^ 19 + b) * 64 + i

/-- The lowest free slot of a bucket. (DESIGN CHOICE, log entry 68.) -/
def State.freeSlot (s : State) (q b : Nat) : Nat :=
  ((List.range 64).find? (fun i => !s.home.entries.any (fun e => e.quarter = q && e.bucket = b && e.slot = i))).getD 0

/-- Change the sequence record of a handle (R206). -/
def State.onSeq (slice handle : Nat) (f : SeqRec → SeqRec) (s : State) : State :=
  s.clearMark.onHome (fun h => { h with seqs := h.seqs.map (fun r => if r.slice = slice ∧ r.handle = handle then f r else r) })

/-- The sequence record of a handle. -/
def State.seqRec (s : State) (slice handle : Nat) : Option SeqRec :=
  s.home.seqs.find? (fun r => r.slice = slice && r.handle = handle)

/-- Make an entry for a new name (R63): in the candidate bucket with fewer entries; none where both are full or the slice is
at its quota. The slot is the bucket's lowest free one; its `frame_gen` goes on from what the slot last held (R461), and what it holds
before its first use is free. (DESIGN CHOICE, log entry 68.) -/
def State.newEntry (s : State) (slice : Nat) (n : PageName) : Option State :=
  let q := s.quarterOf slice n.handle
  let h := s.nameHash slice n
  let b0 := h % 2 ^ 19
  let b1 := h / 2 ^ 32 % 2 ^ 19
  let c0 := s.bucketCount q b0
  let c1 := s.bucketCount q b1
  if (64 ≤ c0 ∧ 64 ≤ c1) ∨ (s.cfg slice).entryQuota ≤ (s.home.entries.filter (fun e => e.slice = slice)).length then none
  else
    let b := if c1 < c0 then b1 else b0
    let i := s.freeSlot q b
    let g := match s.home.slotGens.get? (slotKey q b i) with
      | some g => (g + 1) % 65536
      | none => s.pick Site.entryGen (slotKey q b i) % 65536
    let s := s.clearMark.onHome (fun h => { h with entries := h.entries ++ [{ slice := slice, name := n, quarter := q, bucket := b, slot := i, frameGen := g }] })
    some (s.bump.onSeq slice n.handle (fun r => { r with pages := satAdd max32 r.pages 1 }))

/-- Count a refused name (R63, R220's block). -/
def State.countNameRefusal (s : State) : State := s.onHome (fun h => { h with nameRefusals := inc32 h.nameRefusals })

/-- Remove the entry of a name: its slot keeps `frame_gen` (R461). -/
def State.dropEntry (slice : Nat) (n : PageName) (s : State) : State :=
  let s := match s.entry slice n with
    | some e => s.onHome (fun h => { h with slotGens := h.slotGens.set (slotKey e.quarter e.bucket e.slot) e.frameGen })
    | none => s
  let s := s.clearMark.onHome (fun h => { h with
    entries := h.entries.filter (fun e => !e.is slice n)
    lookLanded := h.lookLanded.filter (· ≠ (slice, n))
    moves := h.moves.filter (fun m => !(m.slice = slice && m.name = n)) })
  let s := s.onMem (fun m => { m with waits := m.waits.filter (fun w => !(w.slice = slice && w.name = n)) })
  s.onSeq slice n.handle (fun r => { r with pages := r.pages - 1 })

/-- Whether the page has an open accumulator. -/
def Accumulator.is (slice : Nat) (n : PageName) (a : Accumulator) : Bool := a.slice = slice && a.name = n

/-- Elements of one gradient section: T × Hg × D. -/
def accElems (f : PageFormat) : Nat := PageFormatT f * f.headsPerGroup * PageFormatD f

/-- n_a: granules of an accumulator (R155). -/
def accGranules (f : PageFormat) : Nat := cdiv (4096 + accElems f * 4 * (if f.latent = 1 then 1 else 2)) 65536

/-- Granules of each part (R155): at most 256 each. -/
def accParts (n : Nat) : List Nat := (List.range (cdiv n 256)).map (fun i => min 256 (n - 256 * i))

/-- Node address of byte `y` of an accumulator (R155). -/
def accAddr (a : Accumulator) (y : Nat) : Nat :=
  let p := a.parts.getD (y / 2 ^ 24) (0, 0, 0)
  nodeAddr p.1 (granuleOffset (p.2.1 + y % 2 ^ 24 / 65536) + y % 65536)

/-- The header of an accumulator (R155), up to the addresses of its parts. -/
def accHeader (a : Accumulator) : List Byte :=
  leBytes 8 a.name.handle ++ leBytes 8 (nameWord1 a.name a.slice) ++ leBytes 4 a.pass ++ leBytes 2 a.frameGen ++
  leBytes 2 a.tags.length ++ leBytes 4 a.updates ++ leBytes 1 (b2n a.nonfinite) ++ leBytes 3 0 ++
  ((List.range 256).map (fun i => leBytes 4 (a.tags.getD i 0))).flatten ++ leBytes 1 a.parts.length ++ leBytes 7 0 ++
  ([1, 2].map (fun i => leBytes 8 (match a.parts[i]? with
    | some p => nodeAddr p.1 (granuleOffset p.2.1)
    | none => 0))).flatten

/-- Store an accumulator's header. -/
def State.writeAccHeader (a : Accumulator) (s : State) : State := s.memWriteN (accAddr a 0) (accHeader a)

/-- Relabel or mark the accumulators of a page whose `frame_gen` changes (R445); a relabel is stored in the header (R155). -/
def State.accGen (slice : Nat) (n : PageName) (relocation : Bool) (gen : Nat) (s : State) : State :=
  let s := s.onHome (fun h => { h with accs := h.accs.map (fun (a : Accumulator) =>
    if a.is slice n then (if relocation then { a with frameGen := gen } else { a with marked := true }) else a) })
  if relocation then (s.home.accs.filter (fun (a : Accumulator) => a.is slice n)).foldl (fun s a => s.writeAccHeader a) s else s

/-- Send the message of a replica record to each of its nodes; a fenced node sends none (R363). (DEDUCED, log entry 22.) -/
def State.tellReplicas (slice : Nat) (n : PageName) (f : Nat → TxBody) (s : State) : State :=
  if s.nodeFenced then s
  else (s.home.replicas.filter (fun r => r.slice = slice && r.name = n)).foldl (fun s r =>
    r.copies.foldl (fun s c => s.onXpt (fun x => { x with peerOut := x.peerOut ++ [{ queue := 1, body := f c.node }] })) s) s

/-- Replica record of a page (R238). -/
def State.replicaOf (s : State) (slice : Nat) (n : PageName) : Option Replica :=
  s.home.replicas.find? (fun r => r.slice = slice && r.name = n)

/-- Change a page's replica record. -/
def State.onReplica (slice : Nat) (n : PageName) (f : Replica → Replica) (s : State) : State :=
  s.onHome (fun h => { h with replicas := h.replicas.map (fun r => if r.slice = slice ∧ r.name = n then f r else r) })

/-- Some replica may still serve the page: a grant that has neither been given up nor run out (R204). -/
def State.shared (s : State) (slice : Nat) (n : PageName) : Bool :=
  s.home.replicas.any (fun r => r.slice = slice && r.name = n && r.copies.any (fun c => c.granted.any (fun g => s.now < g.2)))

/-- Revoke the grants of a replicated page before its version changes (R204, R240): no copy is granted again before the node has
acknowledged the version that follows. (DEDUCED, log entry 67.) -/
def State.revokeGrants (slice : Nat) (n : PageName) (s : State) : State :=
  let s := if s.shared slice n && (s.replicaOf slice n).any (fun r => r.copies.any (fun c => c.granted.isSome && !c.revoking)) then
    s.tellReplicas slice n (fun k => .peerRevoke k slice n) else s
  s.onReplica slice n (fun r => { r with
    copies := r.copies.map (fun c => { c with revoking := c.granted.any (fun g => s.now < g.2), acked := false, stands := false }) })

/-- A move of a replicated page waits for the revocation of its grants (R204, R240). (DEDUCED, log entry 67.) -/
def State.beginMove (slice : Nat) (n : PageName) (k : MoveKind) (s : State) : State :=
  (s.revokeGrants slice n).onHome (fun h =>
    if h.moves.contains { slice := slice, name := n, kind := k } then h
    else { h with moves := h.moves ++ [{ slice := slice, name := n, kind := k }] })

/-- `frame_gen` rises by one (R461); a relocation relabels accumulators and replicas, other changes mark them and end the
copies (R240, R445). Where the change did not wait (a fence, a lost drive or frame forces it), grants that stand are revoked with it. -/
def State.bumpGen (slice : Nat) (n : PageName) (relocation : Bool) (s : State) : State :=
  match s.entry slice n with
  | none => s
  | some e =>
    let g := (e.frameGen + 1) % 65536
    let s := s.onEntry slice n (fun e => { e with frameGen := g })
    let s := (s.accGen slice n relocation g).revokeGrants slice n
    let s := s.clearMark
    if relocation then (s.tellReplicas slice n (fun k => .peerRelabel k slice n e.frameGen g)).onReplica slice n (fun r => { r with
      copies := r.copies.map (fun c => { c with relabelled := some s.now }) }) else s

/-- The present page version exists: a published page state (R216). -/
def PageState.published? : PageState → Bool
  | .published => true
  | .writeOpen => true
  | .torn => true
  | _ => false

/-- The page state once a restart that the entry has not yet taken is applied (R438). -/
def Entry.stateNow (e : Entry) : PageState :=
  if e.stale then
    match e.pageState with
    | .writeOpen => .torn
    | .writeOpenNew => .tornNew
    | x => x
  else e.pageState

/-- The entry has a stack frame with the page's bytes (R62). -/
def FrameState.inStack : FrameState → Bool
  | .stack => true
  | .stackClean => true
  | .demoting => true
  | _ => false

/-- The entry has a flash extent that is its own (R62). -/
def FrameState.onFlash : FrameState → Bool
  | .stackClean => true
  | .flash => true
  | .filling => true
  | .demoting => true
  | _ => false

/-! ## Hull records and shadows -/

/-- Bytes of a Hull record (R49). -/
def hullBytes (f : PageFormat) : Nat := cdiv (f.headsPerGroup * PageFormatD f * 4) 128 * 128

/-- Slots of a Hull granule that are taken: by an entry, or on a retire list. -/
def State.hullSlots (s : State) (stack g : Nat) : List Nat :=
  (s.home.entries.filter (fun e => e.hullHeld && e.hullLoc.1 = stack && e.hullLoc.2.1 = g)).map (fun e => e.hullLoc.2.2) ++
  ((s.mem.retire.map (fun r => r.2)).flatten.filter (fun r => !r.flash && r.place = stack && r.granule = g)).filterMap (·.slot)

/-- Slots of a prefix-tree granule that are taken: by a node, or on a retire list (R181, R182). -/
def State.nodeSlots (s : State) (stack g : Nat) : List Nat :=
  (s.locus.nodes.filter (fun x => addrStack x.1 = stack && offsetGranule (addrOffset x.1) = g)).map (fun x => x.1 % 65536 / 2048) ++
  ((s.mem.retire.map (fun r => r.2)).flatten.filter (fun r => !r.flash && r.place = stack && r.granule = g)).filterMap (·.slot)

/-- Free a retired place that has left its list; a granule of slots is freed with its last slot, and its span when no slot of the span
waits on a list any more (R55, R56, R181). (DEDUCED, log entry 78.) -/
def State.freeRetired (r : Retired) (s : State) : State :=
  if r.flash then s.freeExtent r.place r.granule r.count
  else if r.slot.isSome then
    let others := (s.mem.retire.map (fun r => r.2)).flatten.any (fun x => !x.flash && x.slot.isSome && x.place = r.place &&
      x.granule / 256 = r.granule / 256)
    (if (s.hullSlots r.place r.granule ++ s.nodeSlots r.place r.granule).isEmpty then
      (if others && ((s.span r.place (r.granule / 256)).used.filter (· ≠ r.granule % 256)).isEmpty then s
        else s.freeUnit (r.place, r.granule)) else s)
  else s.freeUnit (r.place, r.granule)

/-- Allocate a Hull slot in one stack (R55, R57): a granule in use with a free slot, else a new granule. -/
def State.hullIn (s : State) (slice stack : Nat) (f : PageFormat) : Option ((Nat × Nat × Nat) × State) :=
  let per := 65536 / hullBytes f
  let gs := (s.mem.spans.filter (fun x => x.2.kind = 3 && x.2.slice = slice && x.1 / spansPerStack = stack)).flatMap
    (fun x => (sortBy (fun a b => decide (a < b)) x.2.used).map (fun u => x.1 % spansPerStack * 256 + u))
  match (if s.stackFenced stack then [] else gs).findSome? (fun g =>
    ((List.range per).find? (fun i => !(s.hullSlots stack g).contains i)).map (fun i => (g, i))) with
  | some (g, i) => some ((stack, g, i), s)
  | none => (s.allocIn slice stack 3 1).map (fun r => ((r.1.1, r.1.2, 0), r.2))

/-- Allocate a Hull slot in the first of several stacks. -/
def State.hullFrom (s : State) (slice : Nat) (f : PageFormat) : List Nat → Option ((Nat × Nat × Nat) × State)
  | [] => none
  | k :: t => match s.hullIn slice k f with
    | some r => some r
    | none => s.hullFrom slice f t

/-- Node address of a Hull slot. -/
def hullAddr (f : PageFormat) (l : Nat × Nat × Nat) : Nat := nodeAddr l.1 (granuleOffset l.2.1) + l.2.2 * hullBytes f

/-- The key elements that the cells use, at dimension `d` of head `h`, over the present positions (R49). -/
def State.presentKeys (s : State) (f : PageFormat) (frame : Nat × Nat) (scale fill h d : Nat) : List Num :=
  (List.range fill).map (fun i =>
    let x := s.vectorElem f frame f.keyFormat h i 0 d
    if f.keyFormat = 2 then x.mul (ofF32 scale) else x)

/-- The bytes of the Hull record of a frame; none where a present key element is not finite (R49). -/
def State.hullRecord (s : State) (f : PageFormat) (frame : Nat × Nat) (scale fill : Nat) : Option (List Byte) :=
  let cols (h : Nat) := (List.range (PageFormatD f)).map (s.presentKeys f frame scale fill h)
  if (List.range f.headsPerGroup).all (fun h => (cols h).all (fun c => c.all Num.isFin)) then
    let lo (c : List Num) := c.foldl (fun a x => if x.lt a then x else a) (c.headD .zero)
    let hi (c : List Num) := c.foldl (fun a x => if a.lt x then x else a) (c.headD .zero)
    let enc (r : Rounding) (x : Num) := leBytes 2 (toIeee 8 7 (x.round r 8 (-133) 128))
    some ((List.range f.headsPerGroup).flatMap (fun h =>
      ((cols h).flatMap (fun c => enc .down (lo c))) ++ ((cols h).flatMap (fun c => enc .up (hi c)))))
  else none

/-- The bytes of a write into a frame, by node address (R47, R123). -/
def frameBytesAt (f : PageFormat) (frame : Nat × Nat) (at_ : Nat) (data : List Byte) : List (Nat × Byte) :=
  (data.zipIdx).map (fun d => (frameAddr f frame (at_ + d.2), d.1))

/-- A page's bytes in logical order, from the tier that holds them, without the zero ones; none where no copy can be read. A frame in
a fenced stack is not read (R71). -/
def State.pageData (s : State) (e : Entry) : Option (List (Nat × Byte)) :=
  let f := s.format e.slice
  let flash : Option (List (Nat × Byte)) :=
    if s.driveFailedB e.flashDrive then none else some (s.flashImage e.slice e.flashDrive e.flashGranule (frameBytes f))
  match e.frameState with
  | .stack | .demoting => if s.stackFenced e.stackFrame.1 then none else some (s.frameImage f e.stackFrame)
  | .stackClean => if s.stackFenced e.stackFrame.1 then flash else some (s.frameImage f e.stackFrame)
  | .flash | .filling => flash
  | .allocated => some []
  | .poisoned | .dropped => none

/-- The Hull record of a page from its stack frame, or for a page on flash from its extent with the writes that wait for it (R49,
R68, R70). -/
def State.hullOf (s : State) (e : Entry) (scale fill : Nat) : Option (List Byte) :=
  let f := s.format e.slice
  if e.frameState.inStack then (if s.stackFenced e.stackFrame.1 then none else s.hullRecord f e.stackFrame scale fill)
  else match s.pageData e with
    | none => none
    | some img =>
      let x : State := ({} : State).writeImage f (0, 0) img
      let x := (s.mem.waits.filter (fun w => w.slice = e.slice && w.name = e.name)).foldl
        (fun x w => x.busBytes (frameBytesAt f (0, 0) w.at_ w.data)) x
      x.hullRecord f (0, 0) scale fill

/-- Keep the Hull record of a published page (R49, R50, R68): computed from the published data, placed where a slot is found,
`hull_valid` clear where none is, where no bound exists, or where the page's bytes are not at hand. -/
def State.writeHull (slice : Nat) (n : PageName) (scale fill : Nat) (s : State) : State :=
  let f := s.format slice
  match s.entry slice n with
  | none => s
  | some e =>
    if f.hullEnable = 0 ∨ fill = 0 then s
    else match s.hullOf e scale fill with
      | none => s.onEntry slice n (fun e => { e with hullValid := false })
      | some rec =>
        match (if e.hullHeld && !s.stackFenced e.hullLoc.1 then some (e.hullLoc, s)
          else s.hullFrom slice f (s.stacksFirst slice e.stackFrame.1)) with
        | none => s.onEntry slice n (fun e => { e with hullValid := false })
        | some (l, s) =>
          (s.memWriteN (hullAddr f l) rec).onEntry slice n (fun e => { e with hullLoc := l, hullHeld := true, hullValid := true })

/-- A page's Hull record, without its zero bytes, where it holds one that can be read. -/
def State.hullImage (s : State) (e : Entry) : Option (List (Nat × Byte)) :=
  let f := s.format e.slice
  if e.hullValid && !s.stackFenced e.hullLoc.1 then
    some (((s.memReadN (hullAddr f e.hullLoc) (hullBytes f)).zipIdx).filterMap (fun x => if x.1 = 0 then none else some (x.2, x.1)))
  else none

/-- Send a copy of a page to one node (R239): name, version, fill, scales, Hull record and frame, from the tier that holds it; nothing
where no copy can be read. -/
def State.sendCopy (slice : Nat) (n : PageName) (node : Nat) (s : State) : State :=
  match s.entry slice n with
  | none => s
  | some e =>
    match s.pageData e with
    | none => s
    | some img =>
      let m : TxBody := .peerCopy node slice n e.frameGen e.fill e.keyScale e.valueScale ((s.hullImage e).getD []) img
      (s.onReplica slice n (fun r => { r with
        copies := r.copies.map (fun c => if c.node = node then { c with lastSent := s.now, relabelled := none } else c) })).onXpt
        (fun x => { x with peerOut := x.peerOut ++ [{ queue := 1, body := m }] })

/-- After a change other than a relocation every node of the record gets a new copy (R240); a fenced node starts none (R363). -/
def State.copyOut (slice : Nat) (n : PageName) (s : State) : State :=
  match s.replicaOf slice n with
  | none => s
  | some r => if s.nodeFenced then s else r.copies.foldl (fun s c => s.sendCopy slice n c.node) s

/-- Change a page's state; a replicated page's grants are revoked first, and its copies follow (R240). -/
def State.setPageState (slice : Nat) (n : PageName) (st : PageState) (s : State) : State :=
  let rep := (s.replicaOf slice n).isSome
  let s := if rep then s.revokeGrants slice n else s
  let s := s.onEntry slice n (fun e => { e with pageState := st })
  if rep then s.copyOut slice n else s

/-- lo and hi of a Hull record (R49). -/
def State.hullBound (s : State) (f : PageFormat) (l : Nat × Nat × Nat) (h d : Nat) : Num × Num :=
  let a := hullAddr f l + h * PageFormatD f * 4
  (ofBf16 (fromLe (s.memReadN (a + 2 * d) 2)), ofBf16 (fromLe (s.memReadN (a + 2 * (PageFormatD f + d)) 2)))

/-- Give up a Hull slot (R66). -/
def State.retireHull (slice : Nat) (n : PageName) (s : State) : State :=
  match s.entry slice n with
  | none => s
  | some e =>
    if e.hullHeld then
      (s.retire e.quarter { place := e.hullLoc.1, granule := e.hullLoc.2.1, count := 0, slot := some e.hullLoc.2.2 }).onEntry
        slice n (fun e => { e with hullHeld := false, hullValid := false })
    else s

/-- The decoded value of an element for a shadow or an answer: INT8 with its page scale (R94). -/
def scaled8 (format scale : Nat) (x : Num) : Num := if format = 2 then x.mul (ofF32 scale) else x

/-- ⌊log2 a⌋ of a positive finite number. -/
def floorLog2 : Num → Int
  | .fin _ m e => e + (Nat.log2 m : Nat)
  | _ => 0

/-- The E2M1 value nearest to a magnitude, ties to even, clamped to 6 (R102). -/
def toE2m1 (x : Num) : Nat :=
  match x with
  | .fin n m e =>
    let v : Num := .fin false m e
    let steps : List (Num × Bool × Nat) :=
      [(.fin false 1 (-2), true, 0), (.fin false 3 (-2), false, 1), (.fin false 5 (-2), true, 2), (.fin false 7 (-2), false, 3),
       (.fin false 5 (-1), true, 4), (.fin false 7 (-1), false, 5), (.fin false 5 0, true, 6)]
    let k := match steps.find? (fun p => v.lt p.1 || (p.2.1 && !(p.1.lt v))) with
      | some p => p.2.2
      | none => 7
    k + 8 * b2n n
  | .inf n => 7 + 8 * b2n n
  | .nan => 7

/-- A 32-dimension block in MXFP4: scale byte and elements (R102). -/
def toMx (l : List Num) : Nat × List Nat :=
  if l.any (fun x => !x.isFin) then (0xff, l.map (fun _ => 0))
  else
    let a := l.foldl (fun a x => if a.lt x.abs then x.abs else a) .zero
    if a.isZero then (0, l.map (fun _ => 0))
    else
      let e := max (-127) (min 127 (floorLog2 a - 2))
      ((e + 127).toNat, l.map (fun x => toE2m1 (x.mul (.fin false 1 (-e)))))

/-- The bytes of an MXFP4 vector: elements with the even dimension low, then scales (R122). -/
def mxVector (v : List Num) : List Byte :=
  let bs := (groups32 v.length v).map toMx
  let nib := (bs.map Prod.snd).flatten
  ((List.range (nib.length / 2)).map (fun i => BitVec.ofNat 8 (nib.getD (2 * i) 0 + 16 * nib.getD (2 * i + 1) 0))) ++
    bs.map (fun p => BitVec.ofNat 8 p.1)

/-- Write the MXFP4 shadow of a page into a frame (R102, R237). -/
def State.fillShadow (f : PageFormat) (src dst : Nat × Nat) (keyScale valueScale fill : Nat) (s : State) : State :=
  let g := shadowFormat f
  (List.range f.headsPerGroup).foldl (fun s h => (List.range fill).foldl (fun s i =>
    let kv := (s.keyVec f src h i).map (scaled8 f.keyFormat keyScale)
    let vv := if f.latent = 1 then [] else (s.valueVec f src h i).map (scaled8 f.valueFormat valueScale)
    let bytes := mxVector kv ++ (if f.latent = 1 then [] else mxVector vv)
    s.busBytes ((bytes.zipIdx).map (fun b => (recordAddr g dst h i b.2, b.1)))) s) (s.zeroGranules dst (frameGranules g))

/-- Granules that a slice holds in shadow frames (R221, R237). -/
def State.shadowGranules (s : State) (slice : Nat) : Nat :=
  (s.home.entries.filter (fun e => e.slice = slice && e.shadowValid)).length * frameGranules (shadowFormat (s.format slice))

/-- Give up a page's shadow (R237). -/
def State.retireShadow (slice : Nat) (n : PageName) (s : State) : State :=
  match s.entry slice n with
  | none => s
  | some e =>
    if e.shadowValid then
      (s.retireUnit e.quarter e.shadowFrame (frameGranules (shadowFormat (s.format slice)))).onEntry slice n
        (fun e => { e with shadowValid := false })
    else s

/-- Allocate a data frame for a page (R57); none while the quarter's retire list is full (R66). -/
def State.allocFrame (s : State) (slice : Nat) (n : PageName) : Option ((Nat × Nat) × State) :=
  let l := s.stacksOf slice
  if s.retireFull (s.quarterOf slice n.handle) then none
  else s.allocFrom slice 1 (frameGranules (s.format slice)) (rotated l (s.layerHash slice n.handle n.layer))

end Sys2Proof.Machine
end

