-- ==== Sys2Proof/Machine/HomeOps.lean ====
section
/-! DEFINITION. Operations of the home directory: the ends of leases (R211), discards and tears (R70, R218), lazy fences and
restarts (R70, R71, R243, R438), NVMe commands, fills and recoveries (R224, R230, R232, R235, R241, R242), the fate of a page
that others wait for (R212, R244, R322), and resolution (R64, R216). -/

namespace Sys2Proof.Machine

/-! ## Adopted positions (R190) -/

/-- The positions of a prefix node meet those of a page. -/
def nodeOnPage (t : Nat) (n : PageName) (x : PfxNode) : Bool :=
  x.valid && x.source = n.handle && n.layer ≤ x.layers && n.group ≤ x.headGroups && 256 * x.depth < (n.block + 1) * t &&
  n.block * t < 256 * (x.depth + 1)

/-- The page holds adopted positions. -/
def State.adopted (s : State) (slice : Nat) (n : PageName) : Bool :=
  s.locus.nodes.any (fun x => x.2.slice = slice && nodeOnPage (PageFormatT (s.format slice)) n x.2)

/-! ## Discarding and tearing -/

/-- Retire a page's write frame (R211). -/
def State.dropWriteFrame (slice : Nat) (n : PageName) (s : State) : State :=
  match s.entry slice n with
  | none => s
  | some e =>
    if e.writeValid then
      (s.retireUnit e.quarter e.writeFrame (frameGranules (s.format slice))).onEntry slice n
        (fun e => { e with writeValid := false })
    else s

/-- Forget a page's replica record; its copies are dropped (R239, R242). -/
def State.dropReplica (slice : Nat) (n : PageName) (s : State) : State :=
  (s.tellReplicas slice n (fun k => .peerDrop k slice n)).onHome
    (fun h => { h with replicas := h.replicas.filter (fun r => !(r.slice = slice && r.name = n)) })

/-- Retire every frame of a page: stack frame, write frame, shadow, Hull record and flash extent (R66, R70). -/
def State.retireFrames (slice : Nat) (n : PageName) (s : State) : State :=
  match s.entry slice n with
  | none => s
  | some e =>
    let k := frameGranules (s.format slice)
    let s := if e.frameState.inStack then s.retireUnit e.quarter e.stackFrame k else s
    let s := if e.frameState.onFlash then s.retireExtent e.quarter e.flashDrive e.flashGranule k else s
    ((s.dropWriteFrame slice n).retireShadow slice n).retireHull slice n

/-- Wake the contexts that wait for a page: the home writes their landing slots (R322). -/
def State.writeSlots (slice : Nat) (n : PageName) (st : Nat) (code : Code) (s : State) : State :=
  let gen := match s.entry slice n with
    | some e => e.frameGen
    | none => 0
  s.onEng (fun e => { e with ctxs := e.ctxs.map (fun p =>
    if p.2.slice = slice ∧ p.2.name = n ∧ p.2.slotState = 0 then
      (p.1, { p.2 with slotState := st, pageCode := code, frameGen := gen, landedAt := s.now })
    else p) })

/-- Discard a page (R70): its entry is invalidated at once and its frames are retired; accumulators are marked (R445). -/
def State.discardPage (slice : Nat) (n : PageName) (s : State) : State :=
  let s := s.retireFrames slice n
  let s := s.accGen slice n false 0
  let s := s.dropReplica slice n
  let s := s.writeSlots slice n 1 .ok
  s.dropEntry slice n

/-- Tear a page of a lease that ends (R211, R218). -/
def State.tearPage (slice : Nat) (n : PageName) (s : State) : State :=
  let s := s.dropWriteFrame slice n
  match s.entry slice n with
  | none => s
  | some e =>
    let st := match e.pageState with
      | .writeOpen => .torn
      | .writeOpenNew => .tornNew
      | x => x
    (s.setPageState slice n st).onHome
      (fun h => { h with pagesTorn := inc32 h.pagesTorn })

/-- Abandon a page of a released lease (R213, R218). -/
def State.abandonPage (slice : Nat) (n : PageName) (s : State) : State :=
  let s := s.dropWriteFrame slice n
  match s.entry slice n with
  | none => s
  | some e =>
    if e.pageState = .writeOpenNew then s.discardPage slice n
    else s.setPageState slice n .published

/-! ## Leases (R210, R211) -/

/-- The page of an index of a lease (R210). -/
def leaseName (p : LeaseParams) (i : Nat) : PageName :=
  let hgN := p.hgCount + 1
  let bN := p.blockCount + 1
  { handle := p.handle, layer := p.layerFirst + i / (hgN * bN), group := p.hgFirst + i / bN % hgN,
    block := p.blockFirst + i % bN }

/-- The pages that a lease still holds. -/
def Lease.held (l : Lease) : List PageName :=
  ((List.range (leasePages l.params)).filter (fun i => !l.left.contains i)).map (leaseName l.params)

/-- The lease of a `lease_id`, if it is open (R211). -/
def State.leaseById (s : State) (id : Nat) : Option (Nat × Lease) := s.home.leases.find? (fun p => p.2.leaseId = id)

/-- How a lease ends (R211, R213). -/
inductive LeaseEnd where
  | tear | abandon | discard
deriving DecidableEq, Repr

/-- End an index of a generation: the value it carried is remembered, the generation rises (R261). -/
def GenState.finish (now : Nat) (g : GenState) : GenState :=
  { g with gen := (g.gen + 1) % 4096, ended := (g.gen, now) :: g.ended.filter (fun p => now < p.2 + 100000000) }

/-- The next generation may be issued: no removal carried it within 100 ms (R261). -/
def GenState.fresh (now : Nat) (g : GenState) : Bool := !g.ended.any (fun p => p.1 = g.gen && now < p.2 + 100000000)

/-- What happens to a page at a lease's end. -/
def State.endPage (slice : Nat) (how : LeaseEnd) (n : PageName) (s : State) : State :=
  match how with
  | .tear => s.tearPage slice n
  | .abandon => s.abandonPage slice n
  | .discard => if s.adopted slice n then s.abandonPage slice n else s.discardPage slice n

/-- Take a finished request off: its counts fall and its response is sent. -/
def State.finishReq (r : Nat) (code : Code) (body : RespBody) (s : State) : State :=
  match s.reqs.get? r with
  | none => s
  | some q => (s.dropReq r).respond q.hdr q.op 0 code 0 body

/-- Undo an acquire whose fill ended without landing (R212): nothing of it is kept. -/
def State.undoAcquire (slot : Nat) (made : List PageName) (pre : List (PageName × PageState)) (s : State) : State :=
  match s.home.leases.get? slot with
  | none => s
  | some l =>
    let s := s.onHome (fun h => { h with leases := h.leases.erase slot })
    let s := l.held.foldl (fun s n => s.dropWriteFrame l.slice n) s
    let s := pre.foldl (fun s p => s.setPageState l.slice p.1 p.2) s
    let s := made.foldl (fun s n => s.dropEntry l.slice n) s
    let s := s.onHome (fun h => { h with leaseGens := h.leaseGens.update slot {} (GenState.finish s.now) })
    s.onSeq l.slice l.params.handle (fun r => { r with openLeases := r.openLeases - 1 })

/-- The LEASE_ACQUIRE that still waits for its grant on a lease slot (R246): its request, the entries it made, and the page states
before it. -/
def State.waitingAcquire (s : State) (key : Nat) : Option (Nat × List PageName × List (PageName × PageState)) :=
  s.reqs.findSome? (fun q => match q.2.kind with
    | .acquire _ _ slot made pre => if slot = key then some (q.1, made, pre) else none
    | _ => none)

/-- End a lease (R211): its write frames are retired, its key's generation is bumped, `open_leases` falls by one. While the quarter's
unit is lost the pages are left to its return (R205). A lease that is not granted yet is refused whole (R212). -/
def State.endLease (key : Nat) (how : LeaseEnd) (s : State) : State :=
  match s.home.leases.get? key, s.waitingAcquire key with
  | none, _ => s
  | some _, some (r, made, pre) => (s.undoAcquire key made pre).finishReq r .leaseConflict .none
  | some l, none =>
    let s := s.onHome (fun h => { h with leases := h.leases.erase key })
    let s := if s.home.unitsLost.contains (s.quarterOf l.slice l.params.handle) then s
      else l.held.foldl (fun s n => s.endPage l.slice how n) s
    let s := s.onHome (fun h => { h with leaseGens := h.leaseGens.update key {} (GenState.finish s.now) })
    s.onSeq l.slice l.params.handle (fun r => { r with openLeases := r.openLeases - 1 })

/-- End every lease that a test names. -/
def State.endLeases (p : Lease → Bool) (how : LeaseEnd) (s : State) : State :=
  (s.home.leases.filter (fun x => p x.2)).foldl (fun s x => s.endLease x.1 how) s

/-- Free the tombstones among the records that a test names, once their end has come (R208). -/
def State.dropTombs (p : SeqRec → Bool) (s : State) : State :=
  let gone (r : SeqRec) : Bool := p r && r.seqState = 2 && r.tombUntil ≤ s.now
  if s.home.seqs.any gone then s.clearMark.onHome (fun h => { h with seqs := h.seqs.filter (fun r => !gone r) }) else s

/-- Time has passed at the home: leases whose expiry is reached end, tombstones whose end is reached are freed (R208, R211),
so that every later operation sees it (R203). (DEDUCED, log entry 4.) -/
def State.settle (s : State) : State :=
  (s.endLeases (fun l => l.expiry ≤ s.now) .tear).dropTombs (fun _ => true)

/-! ## Lazy changes of an entry (R70, R71, R243, R438) -/

/-- R438 for one entry. -/
def State.applyRestart (slice : Nat) (n : PageName) (s : State) : State :=
  match s.entry slice n with
  | none => s
  | some e =>
    if !e.stale then s
    else
      let s := if e.frameState = .filling then s.freeUnit e.stackFrame else s
      let s := if e.frameState = .demoting then
        (s.freeExtent e.flashDrive e.flashGranule (frameGranules (s.format slice))).retireShadow slice n else s
      let s := if e.writeValid then s.freeUnit e.writeFrame else s
      let s := if e.stateNow = e.pageState then s else s.onHome (fun h => { h with pagesTorn := inc32 h.pagesTorn })
      let s := s.onEntry slice n (fun e =>
        let fs := match e.frameState with
          | .filling => .flash
          | .demoting => .stack
          | x => x
        { e with stale := false, writeValid := false, pinCount := 0, frameState := fs, pageState := e.stateNow })
      if e.frameState = .filling then s.bumpGen slice n true else s

/-- A page that leaves stack memory is no longer one that a lookahead has landed (R245). -/
def State.forgetLook (slice : Nat) (n : PageName) (s : State) : State :=
  s.onHome (fun h => { h with lookLanded := h.lookLanded.filter (· ≠ (slice, n)) })

/-- The rows of R70 for a fenced stack, at an entry's resolution or sweep (R71). -/
def State.applyFences (slice : Nat) (n : PageName) (s : State) : State :=
  match s.entry slice n with
  | none => s
  | some e =>
    let s := s.onEntry slice n (fun e => { e with
      writeValid := e.writeValid && !s.stackFenced e.writeFrame.1
      hullValid := e.hullValid && !s.stackFenced e.hullLoc.1
      hullHeld := e.hullHeld && !s.stackFenced e.hullLoc.1
      shadowValid := e.shadowValid && !s.stackFenced e.shadowFrame.1 })
    if s.stackFenced e.stackFrame.1 then
      match e.frameState with
      | .stackClean => ((s.onEntry slice n (fun e => { e with frameState := .flash })).forgetLook slice n).bumpGen slice n true
      | .filling =>
        let s := s.onHome (fun h => { h with fills := h.fills.filter (fun f => !(f.slice = slice && f.name = n)) })
        ((s.onEntry slice n (fun e => { e with frameState := .flash })).bumpGen slice n true).writeSlots slice n 1 .ok
      | .stack => (s.onEntry slice n (fun e => { e with frameState := .dropped })).bumpGen slice n true
      | .demoting =>
        let s := (s.dropCmds e.flashDrive slice n).retireExtent e.quarter e.flashDrive e.flashGranule (frameGranules (s.format slice))
        (s.onEntry slice n (fun e => { e with frameState := .dropped })).bumpGen slice n true
      | _ => s
    else s

/-- The rows of R243 that an entry on a failed drive takes at once. -/
def State.applyDrive (slice : Nat) (n : PageName) (s : State) : State :=
  match s.entry slice n with
  | none => s
  | some e =>
    if e.frameState.onFlash && s.driveFailedB e.flashDrive then
      match e.frameState with
      | .stackClean =>
        ((s.retireShadow slice n).onEntry slice n (fun e => { e with frameState := .stack })).bumpGen slice n true
      | .demoting => ((s.dropCmds e.flashDrive slice n).retireShadow slice n).onEntry slice n (fun e => { e with frameState := .stack })
      | _ => s
    else s

/-- Apply to an entry what it has not yet taken: a restart, region fences, a failed drive. -/
def State.refresh (slice : Nat) (n : PageName) (s : State) : State :=
  ((s.applyRestart slice n).applyFences slice n).applyDrive slice n

/-! ## Fills and recoveries -/

/-- The running fill or recovery of an entry (R224). -/
def State.fillOf (s : State) (slice : Nat) (n : PageName) : Option Fill :=
  s.home.fills.find? (fun f => f.slice = slice && f.name = n)

/-- Change the running fill of an entry. -/
def State.onFill (slice : Nat) (n : PageName) (f : Fill → Fill) (s : State) : State :=
  s.onHome (fun h => { h with fills := h.fills.map (fun x => if x.slice = slice ∧ x.name = n then f x else x) })

/-- Forget the running fill of an entry. -/
def State.endFill (slice : Nat) (n : PageName) (s : State) : State :=
  s.onHome (fun h => { h with fills := h.fills.filter (fun f => !(f.slice = slice && f.name = n)) })

/-- Change the class of a fill and of its commands (R230). -/
def State.classFill (slice : Nat) (n : PageName) (g : Nat → Nat) (s : State) : State :=
  match s.entry slice n with
  | none => s
  | some e =>
    (s.onFill slice n (fun f => { f with cls := g f.cls })).onDrive e.flashDrive (fun y => { y with
      cmds := y.cmds.map (fun c => if c.2.of slice n then (c.1, { c.2 with cls := g c.2.cls }) else c) })

/-- The class of a fill rises to that of a waiter (R230). -/
def State.raiseFill (slice : Nat) (n : PageName) (cls : Nat) (s : State) : State := s.classFill slice n (fun k => min k cls)

/-- Try to give a fill its stack frame and read commands (R224 steps 1 and 2). -/
def State.placeFill (slice : Nat) (n : PageName) (s : State) : State :=
  match s.entry slice n, s.fillOf slice n with
  | some e, some f =>
    if f.frame.isSome || f.recovering then s
    else match s.allocFrame slice n with
      | none => s
      | some (p, s) =>
        let s := s.onFill slice n (fun f => { f with frame := some p })
        let s := s.onEntry slice n (fun e => { e with frameState := .filling, stackFrame := p })
        s.addCmds e.flashDrive { slice := slice, name := n, cls := f.cls } e.flashGranule (frameBytes (s.format slice))
  | _, _ => s

/-- Replica nodes that hold a grant for the entry's current version, in `rep_nodes` order (R241). -/
def State.askable (s : State) (slice : Nat) (n : PageName) (asked : List Nat) : List Nat :=
  match s.entry slice n, s.home.replicas.find? (fun r => r.slice = slice && r.name = n) with
  | some e, some r =>
    ((s.cfg slice).tier.repNodes.take (s.cfg slice).tier.repCopies).filter (fun k =>
      !asked.contains k && r.copies.any (fun c => c.node = k && c.stands && !c.revoking && (match c.granted with
        | some g => g.1 = e.frameGen && s.now < g.2
        | none => false)))
  | _, _ => []

/-- Replica nodes that may come to hold a grant again: a revocation runs, or a relabel went out within 200 µs (R240, R246). -/
def State.regrantable (s : State) (slice : Nat) (n : PageName) (asked : List Nat) : List Nat :=
  match s.home.replicas.find? (fun r => r.slice = slice && r.name = n) with
  | none => []
  | some r => (r.copies.filter (fun c => !asked.contains c.node &&
      ((c.revoking && c.granted.any (fun g => s.now < g.2)) || c.relabelled.any (fun t => s.now < t + 200000)))).map CopyS.node

/-- Count one event of a quarter (R245). -/
def State.countTier (q : Nat) (f : TierCount → TierCount) (s : State) : State :=
  s.onHome (fun h => { h with tier := h.tier.modify q f })

/-- Fates of a page that PINs, acquires and requests wait for. -/
inductive Fate where
  | landed | noUnit | lost | gone
deriving DecidableEq, Repr

/-- A PIN hears of a page it waits for (R244). (DESIGN CHOICE, log entry 68.) -/
def pinFate (n : PageName) (fate : Fate) (q : Req) : Req :=
  match q.kind with
  | .pin p w pinned missing lost =>
    if w.contains n then
      { q with kind := (.pin p (w.filter (· ≠ n)) (pinned + b2n (fate = .landed)) (missing + b2n (fate = .noUnit || fate = .gone))
        (lost + b2n (fate = .lost))) }
    else q
  | _ => q

/-- Copy a published frame into a write frame (R210, R212: `copy_old`). -/
def State.copyOld (slice : Nat) (n : PageName) (s : State) : State :=
  let s := s.refresh slice n
  match s.entry slice n with
  | none => s
  | some e =>
    if e.writeValid && e.frameState.inStack then
      s.writeImage (s.format slice) e.writeFrame (s.frameImage (s.format slice) e.stackFrame)
    else s

/-- Grant an acquire (R212): copies are made, the expiry is set, the grant is sent. -/
def State.grantLease (r slot : Nat) (s : State) : State :=
  match s.home.leases.get? slot with
  | none => s
  | some l =>
    let s := if l.params.copyOld = 1 ∧ l.params.writeMode = 1 then l.held.foldl (fun s n => s.copyOld l.slice n) s else s
    let ex := s.now + l.params.leaseMs * 1000000
    let s := s.onHome (fun h => { h with leases := h.leases.modify slot (fun l => { l with expiry := ex }) })
    let fills := l.held.map (fun n => match s.entry l.slice n with
      | some e => e.fill
      | none => 0)
    s.finishReq r .ok (.grant l.leaseId ex (mkKey 2 slot l.keyGen) fills)

/-- A page's fate reaches the PINs and acquires that wait for it. -/
def State.tellFate (slice : Nat) (n : PageName) (fate : Fate) (s : State) : State :=
  let s := s.onReqs (fun t => t.map (fun p => if p.2.slice = slice then (p.1, pinFate n fate p.2) else p))
  s.reqs.foldl (fun s p =>
    if p.2.slice ≠ slice then s
    else match p.2.kind with
      | .pin _ [] a b c => s.finishReq p.1 .ok (.pins a b c)
      | .acquire ps w slot made pre =>
        if !w.contains n then s
        else if fate = .landed then
          let w := w.filter (· ≠ n)
          let s := s.onReqs (fun t => t.modify p.1 (fun q => { q with kind := .acquire ps w slot made pre }))
          if w.isEmpty then s.grantLease p.1 slot else s
        else (s.undoAcquire slot made pre).finishReq p.1 (if fate = .noUnit then .busy else .miss) .none
      | _ => s) s

/-- A page is lost (R242). -/
def State.losePage (slice : Nat) (n : PageName) (cause drive lba nvme : Nat) (s : State) : State :=
  match s.entry slice n with
  | none => s
  | some e =>
    let s := s.writeSlots slice n 2 .pageLost
    let s := s.endFill slice n
    let s := (s.logEvent (86 + e.quarter) 0x0303 slice Code.pageLost.num slice n.handle
      (nameWord1 n slice / 2 ^ 24 % 2 ^ 40)).logEvent (86 + e.quarter) 0x0304 slice Code.pageLost.num
      ((if cause = 3 then 0 else drive) + cause * 16 + (if cause = 0 then nvme % 65536 * 65536 else 0)) (if cause = 3 then 0 else lba) 0
    let s := s.countTier e.quarter (fun t => { t with lost := inc32 t.lost })
    let k := frameGranules (s.format slice)
    let s := if e.frameState.inStack || e.frameState = .filling then s.retireUnit e.quarter e.stackFrame k else s
    let s := if e.frameState.onFlash && !s.driveFailedB e.flashDrive then
      s.retireExtent e.quarter e.flashDrive e.flashGranule k else s
    let s := ((s.retireShadow slice n).retireHull slice n).dropReplica slice n
    let s := if e.writeValid && !s.home.leases.any (fun l => l.2.slice = slice && l.2.held.contains n && (s.waitingAcquire l.1).isSome) then
      (s.onEntry slice n (fun e => { e with frameState := .allocated, pageState := .writeOpenNew, fill := 0 })).bumpGen slice n false
    else (s.dropWriteFrame slice n).dropEntry slice n
    s.tellFate slice n .lost

/-- Ask the next replica of a page under recovery; the page is lost where none is left (R241, R242) and none can come to hold a grant
again (R246). -/
def State.askNext (slice : Nat) (n : PageName) (s : State) : State :=
  match s.entry slice n, s.fillOf slice n with
  | some e, some f =>
    match s.askable slice n f.asked with
    | k :: _ =>
      (s.onFill slice n (fun f => { f with asked := f.asked ++ [k], askAt := s.now })).onXpt
        (fun x => { x with peerOut := x.peerOut ++ [{ queue := 1, body := .peerAsk k slice n e.frameGen }] })
    | [] =>
      if !(s.regrantable slice n f.asked).isEmpty then s
      else match f.mediaError with
      | some (lba, st) => s.losePage slice n f.cause e.flashDrive lba st
      | none => s.losePage slice n f.cause e.flashDrive 0 0
  | _, _ => s

/-- Begin the recovery of a page (R241). -/
def State.startRecovery (slice : Nat) (n : PageName) (cause : Nat) (media : Option (Nat × Nat)) (s : State) : State :=
  match s.fillOf slice n with
  | some f =>
    if f.recovering then s
    else (s.onFill slice n (fun f => { f with recovering := true, cause := cause, mediaError := media })).askNext slice n
  | none =>
    (s.onHome (fun h => { h with fills := h.fills ++ [{ slice := slice, name := n, cls := 1, since := s.now, recovering := true,
                                                        cause := cause, mediaError := media }] })).askNext slice n

/-- Start, or join, the fill of an entry in FLASH or FILLING (R224); an extent on a failed drive is recovered (R243). -/
def State.startFill (slice : Nat) (n : PageName) (cls : Nat) (lookahead : Bool) (s : State) : State :=
  match s.entry slice n with
  | none => s
  | some e =>
    if (s.fillOf slice n).isSome then s.raiseFill slice n cls
    else if e.frameState = .flash ∧ s.driveFailedB e.flashDrive then (if lookahead then s else s.startRecovery slice n 2 none)
    else if e.frameState = .flash then
      (s.onHome (fun h => { h with fills := h.fills ++ [{ slice := slice, name := n, cls := cls, since := s.now,
                                                          lookahead := lookahead }] })).placeFill slice n
    else s

/-- The estimated landing time of a page (R235); rates are in bytes per microsecond. -/
def State.landing (s : State) (slice : Nat) (n : PageName) (cls : Nat) : Nat :=
  match s.entry slice n with
  | none => s.now
  | some e =>
    if e.frameState = .dropped then
      let asked := match s.fillOf slice n with
        | some f => f.asked
        | none => []
      s.now + 200000 * ((s.askable slice n asked) ++ (s.regrantable slice n asked)).eraseDups.length
    else match s.mem.drives.get? e.flashDrive with
      | none => s.now
      | some d =>
        let own := d.cmds.filter (fun c => c.2.of slice n)
        let firstId := (own.map Prod.fst).headD d.nextCmd
        let ahead := d.cmds.filter (fun c => !(c.2.of slice n) && c.2.cls ≤ cls &&
          (c.2.issued || c.2.cls < cls || c.1 < firstId))
        let rem := if own.isEmpty then frameBytes (s.format slice) else (own.map (fun c => c.2.bytes)).sum
        s.now + d.lat + cdiv (((ahead.map (fun c => c.2.bytes)).sum + rem) * 1000) (max 1 d.rate)

/-! ## Resolution (R64, R216) -/

/-- What a resolution gives: a page code, a stack frame, or a wait. -/
inductive Resolved where
  | code (c : Code)
  | frame (e : Entry)
  | await (e : Entry)
deriving DecidableEq, Repr

/-- `last_use` of a resolution: time-stamp bits [55:24] (R61). -/
def State.useStamp (s : State) : Nat := s.now / 2 ^ 24 % 2 ^ 32

/-- Resolve a name (R64), after the page-state check of R216 and what the entry has not yet taken (R71, R438). -/
def State.resolve (slice : Nat) (n : PageName) (s : State) : Resolved × State :=
  let s := s.refresh slice n
  match s.entry slice n with
  | none => (.code .miss, s)
  | some e =>
    match e.pageState with
    | .unpublished => (.code .miss, s)
    | .writeOpenNew => (.code .miss, s)
    | .tornNew => (.code .torn, s)
    | _ =>
      match e.frameState with
      | .allocated => (.code .miss, s)
      | .poisoned => (.code .poisoned, s)
      | .dropped => (.await e, s)
      | .flash => if (s.cfg slice).tier.flashDrives = 0 then (.code .miss, s) else (.await e, s)
      | .filling => (.await e, s)
      | _ => (.frame { e with lastUse := s.useStamp }, s.onEntry slice n (fun e => { e with lastUse := s.useStamp }))

/-! ## Streams (R232) -/

/-- The layers ahead of a stream's layer, and those behind it (R232). -/
def windowLayers (t : TierPolicy) (layer : Nat) (backward : Bool) : List Nat × List Nat :=
  let m := t.modelLayers + 1
  let fwd (k : Nat) := (layer + k) % m
  let bwd (k : Nat) := (layer + m - k % m) % m
  let ahead := (List.range t.lookahead).map (fun k => if backward then bwd (k + 1) else fwd (k + 1))
  let behind := (List.range t.keepBehind).map (fun k => if backward then fwd (k + 1) else bwd (k + 1))
  (ahead, behind)

/-- Update a stream's entry with a request, and start the lookahead fills (R232). -/
def State.updateStream (slice : Nat) (handle group layer : Nat) (blocks : List Nat) (s : State) : State :=
  let t := (s.cfg slice).tier
  let m := t.modelLayers + 1
  let q := s.quarterOf slice handle
  let old := s.home.streams.find? (fun x => x.slice = slice && x.handle = handle && x.group = group)
  let back := match old with
    | some o => layer = (o.layer + m - 1) % m
    | none => false
  let rest := s.home.streams.filter (fun x => !(x.slice = slice && x.handle = handle && x.group = group))
  let mine := rest.filter (fun x => s.quarterOf x.slice x.handle = q)
  let rest := if old.isNone ∧ 4096 ≤ mine.length then
    match (sortBy (fun a b => a.updated < b.updated) mine).head? with
    | some v => rest.filter (· ≠ v)
    | none => rest
    else rest
  let s := s.onHome (fun h => { h with streams := rest ++ [{ slice := slice, handle := handle, group := group, layer := layer,
                                                             backward := back, blocks := blocks, updated := s.now }] })
  (windowLayers t layer back).1.foldl (fun s l => blocks.foldl (fun s b =>
    let n : PageName := { handle := handle, layer := l, block := b, group := group }
    match s.entry slice n with
    | some e => if e.frameState = .flash ∧ t.flashDrives ≠ 0 then s.startFill slice n 3 true else s
    | none => s) s) s

/-- The page lies in the stream window of its own stream (R222, R232). -/
def State.inWindow (s : State) (slice : Nat) (n : PageName) : Bool :=
  match s.home.streams.find? (fun x => x.slice = slice && x.handle = n.handle && x.group = n.group) with
  | none => false
  | some x =>
    let w := windowLayers (s.cfg slice).tier x.layer x.backward
    n.layer = x.layer || w.1.contains n.layer || w.2.contains n.layer

/-! ## Admission of requests that wait -/

/-- A request takes the next number. -/
def State.pushReq (q : Req) (s : State) : State := { s with reqs := s.reqs.set s.nextReq q, nextReq := s.nextReq + 1 }

/-- Put an admitted request on the list of those not yet answered (R200, R253). -/
def State.addReq (h : ExtHdr) (op : Nat) (c : Ctx) (prev : Bool) (kind : ReqKind) (s : State) : Nat × State :=
  let r := s.nextReq
  let cls := s.classOf c.slice c.group
  let gen := h.mapGen
  let q : Req := { qpn := h.pkt.qpn, hdr := h, op := op, slice := c.slice, cls := cls, mapGen := gen, onPrev := prev,
                   admitted := s.now, phaseMode := (s.cfg c.slice).phaseMode, microcode := (s.cfg c.slice).microcode, kind := kind }
  let s := s.pushReq q
  let s := s.onHome (fun x => if prev then { x with inflightPrev := x.inflightPrev + 1 }
    else { x with inflightCur := x.inflightCur + 1 })
  let s := if op ≤ 1 then s.onSch (fun x => { x with pendingCount := x.pendingCount.update cls 0 (· + 1) }) else s
  (r, s.onCtx h.pkt.qpn (fun c => { c with extOut := c.extOut + 1 }))

/-- The class's limit is reached (R312). -/
def State.classFull (s : State) (slice group : Nat) : Bool :=
  let k := s.classOf slice group
  match s.sch.classes.get? k with
  | some r => r.pendingMax ≤ s.sch.pendingCount.getD k 0
  | none => false

/-- Whether a bucket of the current map is not yet admitted here (R201, R462). -/
def State.bucketAwaited (s : State) (b : Nat) : Bool := s.home.awaiting.any (fun w => w.1 = b) || !s.home.awaitMarkers.isEmpty

/-- BUSY that every request naming a sequence takes: its quarter is lost or unavailable (R205), or its bucket is not yet
admitted (R201). -/
def State.homeBusy (s : State) (slice domain value : Nat) (r : Routed) : Bool :=
  (domain = 0 && s.quarterBusy (s.quarterOf slice value)) || (domain = 1 && s.quarterBusy (value % 4)) ||
  (match r, s.home.cur with
   | .current, some m => s.bucketAwaited (mapBucket m domain value)
   | _, _ => false)

/-- Step 8 of a request that names a sequence or root key: BUSY where its home cannot be served (R201, R205), before anything that the
home would answer. -/
def State.homeOr (s : State) (slice domain value : Nat) (r : Routed) (own : Code) : Code :=
  if s.homeBusy slice domain value r then .busy else own

/-! ## Flush and error (R266 to R268) -/

/-- Discard the packets of a queue pair from every egress queue (R268, R297). -/
def State.dropQueued (q : Nat) (s : State) : State :=
  s.onEth (fun e => { e with ports := e.ports.map (fun p =>
    { p with queues := p.queues.map (fun x => { x with pkts := x.pkts.filter (fun t => t.1.qpn ≠ q) }) }) })

/-- A request past its point of no return: the pins of a PIN are counted (R244, R268, R272). -/
def Req.stands (q : Req) : Bool :=
  match q.kind with
  | .pin _ _ _ _ _ => true
  | _ => false

/-- End a request of a flushed queue pair: an acquire that waits leaves no lease (R268). -/
def State.abortReq (r : Nat) (s : State) : State :=
  match s.reqs.get? r with
  | some { kind := .acquire _ _ slot made pre, .. } => (s.undoAcquire slot made pre).dropReq r
  | _ => s.dropReq r

/-- Flush a queue pair (R268): its admitted requests end ABORTED without effect, its queued responses are discarded. -/
def State.flushQp (q : Nat) (s : State) : State :=
  let rs := s.reqs.filter (fun p => p.2.qpn = q)
  let s := s.onXpt (fun x => { x with extAborted := satAdd max32 x.extAborted (rs.filter (fun p => !p.2.stands)).length })
  let s := rs.foldl (fun s p => s.abortReq p.1) s
  (s.dropQueued q).onCtx q (fun c => { c with held := [], pacer := [], timer := none, rnrTimer := none, extOut := 0 })

/-- Move a queue pair to ERROR (R267). -/
def State.qpError (q : Nat) (s : State) : State :=
  match s.ctx q with
  | none => s
  | some c =>
    if c.state = .error then s
    else
      let s := s.onXpt (fun x => { x with qpErrors := inc32 x.qpErrors })
      (s.flushQp q).onCtx q (fun c => { c with state := .error, onDie := true })

/-- Move every queue pair that a test names to ERROR. -/
def State.flushWhere (p : Ctx → Bool) (s : State) : State :=
  (s.xpt.ctxs.filter (fun x => p x.2)).foldl (fun s x => s.qpError x.1) s

/-- Refuse a standard operation with a code (R266). The flush of R268 takes what waited before the NAK, not the NAK. -/
def State.stdRefuse (k : Pkt) (c : Code) (s : State) : State :=
  match s.ctx k.qpn with
  | none => s
  | some x =>
    let s := (s.countFault c).onCtx k.qpn (fun y => { y with lastError := c.num })
    let s := if c = .retryLater then s.countRetry x.group else s
    match stdSyndrome c with
    | none => s.sendControl k.qpn 4 (.rnrNak k.psn s.xpt.rnrCode)
    | some sy => (s.qpError k.qpn).sendControl k.qpn 4 (.nak k.psn sy x.msn)

end Sys2Proof.Machine
end

