-- ==== Sys2Proof/Machine/Operands.lean ====
section
/-! DEFINITION. Operand forms of attention: query elements (R95), position ranges, masks (R103 to R106), page exclusion
(R108), decoded keys and values of a page from its frame or its shadow (R94, R101, R236), Hull bounds (R109). -/

namespace Sys2Proof.Machine

/-- The decoded elements of a query or gradient row: BF16 or FP8 (R95). -/
def queryVec (format : Nat) (q : List Nat) : List Num := q.map (if format = 0 then ofBf16 else ofFp8)

/-- The ancestor sets of a tree mask as bitmaps (R106). -/
def ancestors (parents : List Nat) : List Nat :=
  (parents.zipIdx).foldl (fun anc p =>
    anc ++ [(if p.2 = 0 ∨ p.1 = 0xff then 0 else anc.getD p.1 0) ||| 2 ^ p.2]) []

/-- Whether position `p` passes the mask for row `i` of head `h` (R104, R105, R106). -/
def maskPass (m : MaskDesc) (posStart posCount rowsPerHead h i p : Nat) : Bool :=
  let a := i / max 1 m.rowsPerPos
  let x := m.qPos + a
  match m.maskType with
  | 0 => true
  | 1 => p ≤ x
  | 2 => x < p + m.param && p ≤ x
  | 3 => p < m.param || p ≤ x
  | 4 =>
    let g := 2 ^ m.granLog2
    let b := p / g - posStart / g
    let bytes := (bitmapBlocks g posStart posCount + 7) / 8
    let at_ := (if m.perHead = 1 then h * bytes else 0) + b / 8
    bit (m.tail.getD at_ 0) (b % 8) && (m.causalAnd = 0 || p ≤ x)
  | _ =>
    p < m.qPos || (p - m.qPos < rowsPerHead / max 1 m.rowsPerPos && bit ((ancestors m.tail).getD a 0) (p - m.qPos))

/-- Position blocks that a range touches, ascending (R89). -/
def rangeBlocks (t posStart posCount : Nat) : List Nat :=
  (List.range (pagesTouched t posStart posCount)).map (fun i => posStart / t + i)

/-- In-page positions of a block that lie in the range. -/
def inPage (t posStart posCount block : Nat) : List Nat :=
  (List.range t).filter (fun i => posStart ≤ block * t + i && block * t + i < posStart + posCount)

/-- Some position of the block passes the mask for the row (R88, R108). -/
def rowTouches (t posStart posCount rowsPerHead : Nat) (m : MaskDesc) (block h i : Nat) : Bool :=
  (inPage t posStart posCount block).any (fun k => maskPass m posStart posCount rowsPerHead h i (block * t + k))

/-- The mask excludes the page for every row (R108). -/
def pageExcluded (t hg posStart posCount rowsPerHead : Nat) (m : MaskDesc) (block : Nat) : Bool :=
  (List.range hg).all (fun h => (List.range rowsPerHead).all (fun i =>
    !rowTouches t posStart posCount rowsPerHead m block h i))

/-- The source of a resolved page. -/
def srcOf (f : PageFormat) (block : Nat) (e : Entry) : PageSrc :=
  { block := block, frame := e.stackFrame, format := f, keyScale := e.keyScale, valueScale := e.valueScale, fill := e.fill }

/-- The source of a page answered from its shadow (R236). -/
def shadowSrc (f : PageFormat) (block : Nat) (e : Entry) : PageSrc :=
  { block := block, frame := e.shadowFrame, format := shadowFormat f, fill := e.fill, fallback := true }

/-- Decoded value element as R90 measures it: INT8 with the page's scale (R94). (DESIGN CHOICE, log entry 76.) -/
def State.valueOf (s : State) (p : PageSrc) (h i : Nat) : List Num :=
  (s.valueVec p.format p.frame h i).map
    (scaled8 (if p.format.latent = 1 then p.format.keyFormat else p.format.valueFormat)
      (if p.format.latent = 1 then p.keyScale else p.valueScale))

/-- Positions of a row in a page before scores: in the range, below the fill, passing the mask (R74). -/
def rowKeys (t posStart posCount rowsPerHead : Nat) (m : MaskDesc) (p : PageSrc) (h i : Nat) : List Nat :=
  (inPage t posStart posCount p.block).filter (fun k =>
    k < p.fill && maskPass m posStart posCount rowsPerHead h i (p.block * t + k))

/-- Numbers that name one sum of one request among the free orders (R90). -/
def mixIdx (l : List Nat) : Nat := l.foldl (fun a x => a * 65536 + x) 1

/-- The free order of one sum. (DESIGN CHOICE, log entry 10.) -/
def State.order (s : State) (idx : List Nat) (k : Nat) : Nat := Config.freeValue Site.order s.free (mixIdx idx * 65536 + k)

/-- The FP32 dot product of a query with a key (R75). -/
def State.dot (s : State) (idx : List Nat) (q k : List Num) : Num := sumFree (s.order idx) (List.zipWith Num.mul q k)

/-- The FP32 dot product with an MXFP4 vector (R100): every sub-block of 32 dimensions is summed over its elements before their
scale and then multiplied by 2^(scale − 127); a sub-block with a non-finite decoded element (R94) is summed as it is decoded. -/
def State.dotMx (s : State) (idx : List Nat) (q k : List Num) (scale : Nat → Nat) : Num :=
  sumFree (s.order (idx ++ [99])) ((List.range (k.length / 32)).map (fun b =>
    let qb := (q.drop (32 * b)).take 32
    let kb := (k.drop (32 * b)).take 32
    let e : Int := scale b - 127
    if kb.all Num.isFin then rn ((s.dot (idx ++ [b]) qb (kb.map (Num.mul (.fin false 1 (-e))))).mul (.fin false 1 e))
    else s.dot (idx ++ [b]) qb kb))

/-- The FP32 dot product with a decoded vector that starts at byte `base` of a record, in its format (R75, R100). -/
def State.dotVec (s : State) (idx : List Nat) (f : PageFormat) (frame : Nat × Nat) (format h i base : Nat) (q k : List Num) : Num :=
  if format = 3 then
    s.dotMx idx q k (fun b => (s.memRead (recordAddr f frame h i (base + PageFormatD f / 2 + b))).toNat)
  else s.dot idx q k

/-- The score of a key (R75, R98, R100): c times the dot product; for an INT8 page RN(RN(c × key_scale) × d). -/
def State.score (s : State) (idx : List Nat) (c : Num) (p : PageSrc) (q : List Num) (h i : Nat) : Num :=
  let d := s.dotVec idx p.format p.frame p.format.keyFormat h i 0 q (s.keyVec p.format p.frame h i)
  if p.format.keyFormat = 2 then fmul (rn (c.mul (ofF32 p.keyScale))) d else fmul c d

/-- U of R109 for a row of a head on a page: every operation rounded toward +∞; +∞ where a query element is not finite. -/
def State.hullU (s : State) (f : PageFormat) (c : Num) (q : List Num) (l : Nat × Nat × Nat) (h : Nat) : Num :=
  if q.any (fun x => !x.isFin) then .inf false
  else ru (c.mul ((q.zipIdx).foldl (fun a x =>
    let b := s.hullBound f l h x.2
    ru (a.add (Num.max (ru (x.1.mul b.1)) (ru (x.1.mul b.2))))) .zero))

end Sys2Proof.Machine
end

