-- ==== Sys2Proof/Machine/Triples.lean ====
section
/-! DEFINITION. The running statistics of a row: the tile update of R78, the merge rule of R82, chains (R79), weights in three
BF16 parts (R97, R98), empty, non-finite and single-key rows (R85 to R87), and the record that comes back (R88). -/

namespace Sys2Proof.Machine

/-- The empty triple of R85 with `d` columns. -/
def Triple.empty (d : Nat) : Triple := { o := List.replicate d 0 }

/-- The non-finite triple of R86; counts and flags as given. -/
def Triple.spoil (t : Triple) : Triple :=
  { t with m := 0x7fc00000, mMax := 0x7fc00000, l := 0x7fc00000, o := t.o.map (fun _ => 0x7fc00000), nonfinite := true,
           deferred := false }

/-- The three BF16 parts of a weight (R97). -/
def weightParts (w : Num) : List Num :=
  let hi := rnB w
  let mid := rnB (w.sub hi)
  let lo := rnB ((w.sub hi).sub mid)
  [hi, mid, lo]

/-- One column of a tile's output: three passes, each a tree of depth 5 over the tile's keys, added in FP32 (R78, R97); on
near-bank units the weight enters whole (R136). -/
def tileColumn (pick : Nat → Nat) (parts : List (List Num)) (v : List Num) : Num :=
  (parts.map (fun ws => sumFree pick (List.zipWith Num.mul ws v))).foldl
    (fun a x => if a = .zero then x else fadd a x) .zero

/-- The largest of a list of scores. -/
def maxOf (l : List Num) : Num := l.foldl Num.max .negInf

/-- The tile update of R78 with the states of R80: `ss` are the scores of the tile's contributing keys, `vs` their value
vectors, `wscale` the INT8 value scale where the page has one (R98), `whole` whether weights enter whole (R136). -/
def tileUpdate (pick : Nat → Nat) (tau : Nat) (wscale : Option Num) (whole : Bool) (ss : List Num) (vs : List (List Num))
    (t : Triple) : Triple :=
  if ss.isEmpty then t
  else
    let keys := t.keys + ss.length
    if t.nonfinite then { t with keys := keys }
    else if ss.any (fun x => !x.isFin) then ({ t with keys := keys }).spoil
    else
      let tm := maxOf ss
      let first := t.m = 0xff800000
      let m0 := ofF32 t.m
      let rise := !first && (Num.fin false tau 0).lt (tm.sub m0)
      let f := exp2 (rn (m0.sub tm))
      let m := if first || rise then tm else m0
      let l0 := if rise then fmul (ofF32 t.l) f else ofF32 t.l
      let o0 := if rise then t.o.map (fun x => fmul (ofF32 x) f) else t.o.map ofF32
      let ws := ss.map (fun x => exp2 (rn (x.sub m)))
      let wv := match wscale with
        | some k => ws.map (fun w => fmul w k)
        | none => ws
      let parts := if whole then [wv] else
        let ps := wv.map weightParts
        (List.range 3).map (fun i => ps.map (fun p => p.getD i .zero))
      let tl := sumFree pick ws
      let cols := (o0.zipIdx).map (fun x => (x.1, tileColumn pick parts (vs.map (fun v => v.getD x.2 .zero))))
      let l := if first then rn tl else fadd l0 tl
      let o := cols.map (fun x => if first then rn x.2 else fadd x.1 x.2)
      let t' : Triple := { t with
        m := toF32 m, mMax := toF32 (if first then tm else Num.max (ofF32 t.mMax) tm), l := toF32 l, o := o.map toF32,
        keys := keys, rescales := if rise then satAdd max16 t.rescales 1 else t.rescales }
      if l.isFin && o.all Num.isFin then t' else t'.spoil

/-- The merge rule of R82. -/
def mergeTriple (a b : Triple) : Triple :=
  let keys := a.keys + b.keys
  let res := satAdd max16 (max a.rescales b.rescales) 1
  let flag (t : Triple) : Triple := { t with
    skipped := a.skipped || b.skipped, fallback := a.fallback || b.fallback, incomplete := a.incomplete || b.incomplete,
    skippedKeys := a.skippedKeys + b.skippedKeys }
  if a.nonfinite || b.nonfinite then flag ({ a with keys := keys, rescales := res }).spoil
  else if a.m = 0xff800000 then flag b
  else if b.m = 0xff800000 then flag a
  else
    let ma := ofF32 a.m
    let mb := ofF32 b.m
    let m := Num.max ma mb
    let fa := exp2 (rn (ma.sub m))
    let fb := exp2 (rn (mb.sub m))
    let mm := Num.max (ofF32 a.mMax) (ofF32 b.mMax)
    let l := fadd (fmul (ofF32 a.l) fa) (fmul (ofF32 b.l) fb)
    let o := List.zipWith (fun x y => fadd (fmul (ofF32 x) fa) (fmul (ofF32 y) fb)) a.o b.o
    let t : Triple := flag { a with
      m := toF32 m, mMax := toF32 mm, l := toF32 l, o := o.map toF32, keys := keys, rescales := res, deferred := m.lt mm }
    if l.isFin && o.all Num.isFin then t else t.spoil

/-- One level of a binary tree of merges (R79). -/
def mergeLevel : List Triple → List Triple
  | a :: b :: t => mergeTriple a b :: mergeLevel t
  | l => l

/-- Merge a list of triples in a binary tree (R79); `fuel` bounds its depth, which the length of the list always does. -/
def mergeLevels (d : Nat) : Nat → List Triple → Triple
  | 0, l => l.headD (.empty d)
  | n + 1, l =>
    match l with
    | [] => .empty d
    | [t] => t
    | l => mergeLevels d n (mergeLevel l)

/-- Merge a list of triples in a binary tree (R79). -/
def mergeTree (d : Nat) (l : List Triple) : Triple := mergeLevels d l.length l

/-- One tile of a row: scores, values, the INT8 value scale. -/
structure TileIn where
  idx : List Nat
  ss : List Num
  vs : List (List Num)
  wscale : Option Num

/-- Accumulate tiles into chains (R79): never more than 256 tiles in one, cut elsewhere where `cut` chooses (R91). -/
def runChains (order : List Nat → Nat → Nat) (cut : Nat → Bool) (tau d : Nat) (tiles : List TileIn) : List Triple :=
  let r := (tiles.zipIdx).foldl (fun (a : List Triple × Triple × Nat) x =>
    let t := tileUpdate (order x.1.idx) tau x.1.wscale false x.1.ss x.1.vs a.2.1
    if a.2.2 + 1 = 256 ∨ cut x.2 then (a.1 ++ [t], .empty d, 0) else (a.1, t, a.2.2 + 1)) ([], .empty d, 0)
  r.1 ++ [r.2.1]

/-- Consecutive runs of at most `n`. -/
def chunks {α : Type} (n : Nat) : Nat → List α → List (List α)
  | 0, _ => []
  | fuel + 1, l => if l.isEmpty then [] else l.take n :: chunks n fuel (l.drop n)

/-- The tile of a row over a list of in-page positions of a page. (DESIGN CHOICE, log entry 76.) -/
def State.tileIn (s : State) (idx : List Nat) (c : Num) (p : PageSrc) (q : List Num) (h : Nat) (ks : List Nat) : TileIn :=
  let vf := if p.format.latent = 1 then p.format.keyFormat else p.format.valueFormat
  { idx := idx
    ss := ks.map (fun i => s.score (idx ++ [i]) c p q h i)
    vs := ks.map (fun i => s.valueVec p.format p.frame h i)
    wscale := if vf = 2 then some (ofF32 (if p.format.latent = 1 then p.keyScale else p.valueScale)) else none }

/-- The tiles of a row on a page, on cells: positions 32j to 32j + 31 of the head (R47, R78). -/
def State.cellTiles (s : State) (idx : List Nat) (c : Num) (p : PageSrc) (q : List Num) (h : Nat) (keys : List Nat) :
    List TileIn :=
  (List.range (PageFormatT p.format / 32)).map (fun j =>
    s.tileIn (idx ++ [j]) c p q h (keys.filter (fun k => k / 32 = j)))

/-- The final row: `deferred` where m lies below m_max (R88); a row of one key returns that key's decoded value (R87). -/
def finishRow (t : Triple) : Triple :=
  if t.nonfinite then { t with deferred := false }
  else if t.m = 0xff800000 then { t with deferred := false, keys := 0, rescales := 0 }
  else { t with deferred := (ofF32 t.m).lt (ofF32 t.mMax) }

end Sys2Proof.Machine
end

