-- ==== Sys2Proof/Machine/Blocks.lean ====
section
/-! DEFINITION. Operations of blocks and cells: the region arbiter (R30) and the page buffer (R29, R226), operand buffers and the
gather engine (R20, R24 to R26), tile products and their checks (R22, R78, R349), free cells and the block arbiter (R25, R315,
R316), context switches and the context area (R318, R319), parks (R321), and chains that restart (R44, R92). -/

namespace Sys2Proof.Machine

/-- Island temperature in units of 0.125 °C, as last sampled (R381). -/
def State.temp (s : State) (island : Nat) : Int := s.pwr.temps.getD island 0

/-- VDD_CORE in mV of a performance state (R373). -/
def voltMv (p : Nat) : Nat := [800, 770, 740, 720, 700, 680, 660, 650].getD p 650

/-- VDD_CORE in mV: while a region's clock is still that of a higher state, the voltage stays there (R374). -/
def Pwr.vdd (p : Pwr) : Nat := voltMv (p.regionClk.foldl min p.pstate)

/-- Write a detection record to the log (R354). (DEDUCED, log entry 28.) -/
def State.logDetection (island detector kind cls unit : Nat) (temp : Int) (volt outcome slice ctx : Nat) (s : State) : State :=
  s.logPut { kind := 1, island := island,
             record := detectionRecord s.now detector kind island cls unit temp volt outcome slice ctx }

/-- A block. -/
def State.block (s : State) (b : Nat) : BlockS := s.eng.blocks.getD b {}

/-- Change a block. -/
def State.onBlock (b : Nat) (f : BlockS → BlockS) (s : State) : State := s.onEng (fun e => { e with blocks := e.blocks.modify b f })

/-- A cell position of a block. -/
def BlockS.cell (x : BlockS) (p : Nat) : CellS := x.cells.getD p {}

/-- Change a cell position. -/
def State.onCell (b p : Nat) (f : CellS → CellS) (s : State) : State :=
  s.onBlock b (fun x => { x with cells := x.cells.modify p f })

/-- Key of a cell in the unit table (R354). -/
def cellKey (b slot : Nat) : Nat := b * 4 + slot

/-- A unit's history (R352). -/
def State.unit (s : State) (key : Nat) : UnitHist := s.ras.units.getD key {}

/-- The slot has a working cell (R23, R28, R352): a position that is not being retired, whose unit is in service, or the
spare that stands in for it. -/
def State.working (s : State) (b slot : Nat) : Bool :=
  let x := s.block b
  match x.slots.getD slot none with
  | none => false
  | some p => !(x.cell p).retiring && ((p = 4 && !x.spareUsed) || (s.unit (cellKey b slot)).state = .inService)

/-- Positions of working cells, by ascending logical slot (R25). -/
def State.workingPos (s : State) (b : Nat) : List (Nat × Nat) :=
  (List.range 4).filterMap (fun i => if s.working b i then ((s.block b).slots.getD i none).map (fun p => (i, p)) else none)

/-- The window of the cyclic table in force (R314). -/
def State.windowNow (s : State) : Nat := s.now / 1000 % 256

/-- The class that owns a block in the current window (R314); 16, which is no class, where no column of the block is in force
(R347). -/
def State.ownerOf (s : State) (b : Nat) : Nat := (s.sch.table.getD s.windowNow []).getD b 16

/-- The class may pre-empt on the block now: guaranteed, in a window it owns (R312, R317). -/
def State.mayPreempt (s : State) (b cls : Nat) : Bool :=
  cls = s.ownerOf b && (match s.sch.classes.get? cls with
    | some r => r.guaranteed = 1 && r.valid = 1
    | none => false)

/-- Order of two tile groups at a block (R316): the owner class first, then ascending class, then the oldest admission. -/
def State.before (s : State) (b : Nat) (x y : TileGroup) : Bool :=
  let o := s.ownerOf b
  let k (t : TileGroup) : Nat := if t.cls = o then 0 else t.cls + 1
  k x < k y || (k x = k y && x.admitted < y.admitted)

/-- Positions of a block whose live tile group is a part of the same stacked group (R118). -/
def BlockS.span (x : BlockS) (t : TileGroup) : List Nat :=
  (List.range 5).filter (fun p => match (x.cell p).live with
    | some a => a.tg.id = t.id && a.tg.chain = t.chain
    | none => false)

/-- A cell is free for a class (R25, R317): nothing is live on it, or a class that may pre-empt meets a free shadow and a live
group of another class that spans no other cell. -/
def State.cellFree (s : State) (b p cls : Nat) : Bool :=
  let c := (s.block b).cell p
  match c.live with
  | none => true
  | some a => c.shadow.isNone && s.mayPreempt b cls && a.tg.cls ≠ cls && ((s.block b).span a.tg).length = 1

/-- A fresh accumulator of a tile group (R318). -/
def freshAccum (t : TileGroup) : Accum :=
  { tg := t, rows := List.replicate t.rows (.empty t.cols), mark := (List.replicate t.rows (.empty t.cols), 0) }

/-- The tile that a group works on next. -/
def Accum.step (a : Accum) : Option TileStep := a.tg.tiles[a.at_]?

/-! ## The page buffer (R29, R226) -/

/-- The SRAM line of an address: its set is address bits [20:12] (R226), the way is taken as bits [24:21] (DESIGN CHOICE).
(DESIGN CHOICE, log entry 63.) -/
def sramLine (a : Nat) : Nat := a / 4096 % 512 * 16 + a / 2 ^ 21 % 16

/-- The SRAM bank of an address, of 32 (R29): its line's set modulo 32 (DESIGN CHOICE). (DESIGN CHOICE, log entry 63.) -/
def sramBank (a : Nat) : Nat := a / 4096 % 32

/-- No line of a granule is filled while a window that reads the granule is active (R132). -/
def State.lineBarred (s : State) (a : Nat) : Bool :=
  (s.nbu.getD (addrStack a) {}).wins.any (fun w => w.2.active && w.2.granules.contains (offsetGranule (addrOffset a)))

/-- Bytes of a region's context area in use, in units of 256 bytes. -/
def State.ctxBytes (s : State) (region : Nat) : Nat :=
  (s.eng.ctxs.map (fun p => if p.2.region = region then cdiv p.2.bytes 256 * 256 else 0)).sum

/-- Page-buffer lines of a region that hold frames of a bit-stream being checked (R341). -/
def State.stagedLines (s : State) (n : Nat) : Nat :=
  (s.host.ops.map (fun o => match o.2.staged with
    | some x => if x.1 = n then x.2.frames.length else 0
    | none => 0)).sum

/-- Lines of the page buffer that are lent, to the context area (R319) or as staging (R341), hold no frame copies; those used least
recently are dropped. -/
def State.lendLines (n : Nat) (s : State) : State :=
  let old := (s.eng.lines.filter (fun a => addrStack a = n)).drop (8192 - cdiv (s.ctxBytes n) 4096 - s.stagedLines n)
  s.onEng (fun e => { e with lines := e.lines.filter (fun a => !old.contains a) })

/-- A line is filled or used: it becomes the most recently used of its set, which keeps 16 ways in its region; lent lines hold none. -/
def State.touchLine (a : Nat) (s : State) : State :=
  if s.ras.sramWithdrawn.contains (addrStack a, sramLine a) || s.lineBarred a then s
  else
    let mine (x : Nat) : Bool := addrStack x = addrStack a && x / 4096 % 512 = a / 4096 % 512
    (s.onEng (fun e =>
      let l := a :: e.lines.filter (· ≠ a)
      let old := ((l.filter mine).drop 16)
      { e with lines := l.filter (fun x => !old.contains x) })).lendLines (addrStack a)

/-! ## The region arbiter (R30) -/

/-- Change a region's arbiter. -/
def State.onArb (n : Nat) (f : RegionArb → RegionArb) (s : State) : State := s.onEng (fun e => { e with arbs := e.arbs.modify n f })

/-- The request of a class that round robin takes among `l`. -/
def RegionArb.turn (x : RegionArb) (l : List ArbReq) (c : Nat) : Option ArbReq :=
  (List.range 6).findSome? (fun i => l.find? (fun r => r.cls = c && r.src = (x.next.getD c 0 + i) % 6))

/-- The next grant of the bank of the oldest request: by class, but after 15 grants without one to class 4 or 5 one of these comes
first; within a class by round robin over the sources. (DESIGN CHOICE, log entry 63.) -/
def RegionArb.pick (x : RegionArb) : Option ArbReq :=
  match x.waiting with
  | [] => none
  | w :: _ =>
    let l := x.waiting.filter (fun r => r.bank = w.bank)
    (if 15 ≤ x.since.getD w.bank 0 then [4, 5, 1, 2, 3] else [1, 2, 3, 4, 5]).findSome? (x.turn l)

/-- The arbiter after a grant. -/
def RegionArb.granted (r : ArbReq) (x : RegionArb) : RegionArb :=
  let low := x.waiting.any (fun y => y.bank = r.bank && 4 ≤ y.cls)
  { waiting := x.waiting.erase r
    next := x.next.set r.cls ((r.src + 1) % 6)
    since := x.since.modify r.bank (fun k => if 4 ≤ r.cls then 0 else if low then k + 1 else k) }

/-! ## Operand buffers and the gather engine (R20, R24 to R26) -/

/-- Whether the bits of some bytes have odd parity. -/
def oddParity (l : List Byte) : Bool :=
  let x := l.foldl (fun a b => a ^^^ b) 0
  ((List.range 8).filter (fun i => x.getLsbD i)).length % 2 = 1

/-- One parity bit for every 64 bits (R20). -/
def parityBits (l : List Byte) : List Bool := (chunks 8 l.length l).map oddParity

/-- Bytes written to an operand buffer. -/
def OpBuf.load (l : List Byte) : OpBuf := { bytes := l, parity := parityBits l }

/-- Bits of a buffer that flip. -/
def OpBuf.flip (x : OpBuf) (bits : List Nat) : OpBuf :=
  { x with bytes := bits.foldl (fun l i => l.modify (i / 8) (fun b => b ^^^ BitVec.ofNat 8 (2 ^ (i % 8)))) x.bytes }

/-- The parity check on a read (R22). -/
def OpBuf.ok (x : OpBuf) : Bool := parityBits x.bytes = x.parity

/-- A byte of a buffer. -/
def OpBuf.byte (x : OpBuf) (i : Nat) : Nat := (x.bytes.getD i 0).toNat

/-- A 16-bit element of a buffer as BF16. -/
def OpBuf.half (x : OpBuf) (i : Nat) : Num := ofBf16 (x.byte (2 * i) + 256 * x.byte (2 * i + 1))

/-- Bytes of 16-bit codes. -/
def halfBytes (l : List Nat) : List Byte := l.flatMap (fun v => [BitVec.ofNat 8 v, BitVec.ofNat 8 (v / 256)])

/-- Query rows as bytes of operand buffer A (R95). -/
def queryBytes (format : Nat) (rows : List (List Nat)) : List Byte :=
  if format = 0 then halfBytes rows.flatten else rows.flatten.map (BitVec.ofNat 8)

/-- The query row `i` of `d` elements in a buffer. -/
def OpBuf.queryRow (x : OpBuf) (format d i : Nat) : List Num :=
  (List.range d).map (fun e => if format = 0 then x.half (i * d + e) else ofFp8 (x.byte (i * d + e)))

/-- The key or value vector of position `i` of a tile in a buffer. -/
def OpBuf.tileVec (x : OpBuf) (format d i : Nat) : List Num :=
  (List.range d).map (elemAt (fun y => x.byte (tileAt format d i y)) format d)

/-- The format of the vectors that serve as values (R101). -/
def valueKind (f : PageFormat) : Nat := if f.latent = 1 then f.keyFormat else f.valueFormat

/-- Bytes of a tile of a head in a frame, keys or values. -/
def tileBytes (src : PageSrc) (value : Bool) : Nat :=
  let d := PageFormatD src.format
  32 * (if value then bytesPerToken (valueKind src.format) d else bytesPerToken src.format.keyFormat d)

/-- Logical offset of a tile of a head in a frame, keys or values (R47). -/
def tileOffset (src : PageSrc) (head tile : Nat) (value : Bool) : Nat :=
  let f := src.format
  (if value && f.latent ≠ 1 then PageFormatT f * f.headsPerGroup * bytesPerToken f.keyFormat (PageFormatD f) else 0) +
    (head * (PageFormatT f / 32) + tile) * tileBytes src value

/-- Node addresses of a tile of a head in a frame, in operand order (R47, R123). -/
def tileAddrs (src : PageSrc) (head tile : Nat) (value : Bool) : List Nat :=
  (List.range (tileBytes src value)).map (fun w => frameAddr src.format src.frame (tileOffset src head tile value + w))

/-- The tag of a logical byte of a frame in the page buffer: the frame's first granule plus the offset (R123). -/
def frameTag (frame : Nat × Nat) (x : Nat) : Nat := nodeAddr frame.1 (granuleOffset frame.2) + x

/-- Page-buffer lines of a range of a frame's logical bytes. -/
def tagLines (frame : Nat × Nat) (x len : Nat) : List Nat :=
  (List.range (cdiv (x % 4096 + len) 4096)).map (fun i => frameTag frame (x / 4096 * 4096) + 4096 * i)

/-- The gather engine fills the operand buffers of a cell for its next product (R24): a score product takes query rows and key
tile, an output product finds its weights in buffer A and takes the value tile; a tile comes through the page buffer. -/
def State.fillCell (b p : Nat) (s : State) : State :=
  let c := (s.block b).cell p
  match c.live with
  | none => s
  | some a =>
    match a.step, a.src with
    | some t, src =>
      match t.staged, src with
      | some w, _ => s.onCell b p (fun c => { c with
          need := false, bufA := .load (halfBytes w.1.flatten), bufB := .load (halfBytes w.2.flatten) })
      | none, some x =>
        let l := tileAddrs x.2 a.tg.head t.tile (!c.vec.isEmpty)
        let value := !c.vec.isEmpty
        let s := (tagLines x.2.frame (tileOffset x.2 a.tg.head t.tile value) (tileBytes x.2 value)).foldl (fun s y => s.touchLine y) s
        let s := s.busReads l
        s.onCell b p (fun c => { c with
          need := false
          bufA := if c.vec.isEmpty then .load (queryBytes a.tg.queryFormat a.tg.query) else c.bufA
          bufB := .load (l.map s.memRead) })
      | none, none => s
    | none, _ => s

/-- The slot of a block that its gather engine serves next (R25). -/
def BlockS.gatherSlot (x : BlockS) : Option Nat :=
  ((List.range 4).map (fun i => (x.gatherNext + i) % 4)).find? (fun i => match x.slots.getD i none with
    | some p => (x.cell p).need
    | none => false)

/-- The gather engine serves one cell of a block, in round robin (R25). -/
def State.gather (b : Nat) (s : State) : State :=
  match (s.block b).gatherSlot with
  | none => s
  | some i => (match (s.block b).slots.getD i none with
      | some p => s.fillCell b p
      | none => s).onBlock b (fun x => { x with gatherNext := (i + 1) % 4 })

/-- The region arbiter gives one grant (R30); one for a cell's operands goes to its block's gather engine. -/
def State.grantOne (n : Nat) (s : State) : State :=
  match (s.eng.arbs.getD n {}).pick with
  | none => s
  | some r =>
    let s := s.onArb n (RegionArb.granted r)
    match r.cell with
    | some x => s.gather x.1
    | none => s

/-- The region arbiter serves what waits. -/
def State.serveArb (n : Nat) (s : State) : State :=
  (List.range (s.eng.arbs.getD n {}).waiting.length).foldl (fun s _ => s.grantOne n) s

/-- A bank beat or command slot is asked for, and taken when its turn comes (R30). (DESIGN CHOICE, log entry 63.) -/
def State.takeSlot (n cls bank : Nat) (s : State) : State :=
  (s.onArb n (fun x => { x with waiting := x.waiting ++ [{ cls := cls, src := 5, bank := bank }] })).serveArb n

/-- An access to stack memory takes a command slot of its region (R30, R411). -/
def State.takeStack (cls a : Nat) (s : State) : State := s.takeSlot (addrStack a) cls (sramBank a)

/-- The region whose arbiter grants a cell's next operands, and their bank; none for staged operands. -/
def Accum.fetchFrom (a : Accum) : Option (Nat × Nat) :=
  match a.step, a.src with
  | some t, some x =>
    if t.staged.isSome then none
    else
      let y := frameTag x.2.frame (tileOffset x.2 a.tg.head t.tile false)
      some (addrStack y, sramBank y)
  | _, _ => none

/-- A cell asks for the operands of its next product (R24, R30): class 2, from its block or, for a stack of another region,
through the Lattice. -/
def State.askOperands (b p : Nat) (s : State) : State :=
  match ((s.block b).cell p).live.bind Accum.fetchFrom with
  | none => (s.onCell b p (fun c => { c with need := true }))
  | some y => (s.onCell b p (fun c => { c with need := true })).onArb y.1 (fun x => { x with
      waiting := x.waiting ++ [{ cls := 2, src := if y.1 = b / 4 then b % 4 else 4, bank := y.2, cell := some (b, p) }] })

/-- A cell's operand-buffer write port (R26): a gather fill that waits is granted before anything else. -/
def State.portFirst (b p : Nat) (s : State) : State :=
  if !((s.block b).cell p).need then s
  else
    let s := match ((s.block b).cell p).live.bind Accum.fetchFrom with
      | some y => s.serveArb y.1
      | none => s
    if ((s.block b).cell p).need then s.fillCell b p else s

/-- Every region arbiter serves what waits, as time passes. -/
def State.arbTick (s : State) : State :=
  if s.eng.arbs.all (fun x => x.waiting.isEmpty) then s else (List.range 8).foldl (fun s n => s.serveArb n) s

/-! ## Long operations whose work is suspended (R323) -/

/-- A running long operation reports PREEMPTED while its work is suspended, and OK again when it resumes. -/
def State.suspendOp (op : Option Nat) (yes : Bool) (s : State) : State :=
  match op with
  | none => s
  | some k => match s.op k with
    | none => s
    | some o =>
      if o.state = 2 ∧ o.code = (if yes then .ok else .preempted) then s.setOp k 2 (if yes then .preempted else .ok) o.progress
      else s

/-! ## Groups on cells -/

/-- Make a tile group live on a cell, with what its shadow then holds (R21, R318). -/
def State.setLive (b p : Nat) (a : Accum) (shadow : Option Accum) (s : State) : State :=
  (s.onCell b p (fun c => { c with live := some a, shadow := shadow, vec := [] })).suspendOp a.tg.op false

/-- Blocks of a slice that work: its list without withdrawn blocks (R298, R356) and those being removed (R307). -/
def State.blocksOf (s : State) (slice : Nat) : List Nat :=
  (bitsSet (s.cfg slice).blocks 32).filter (fun b => !s.ras.blocksWithdrawn.contains b &&
    !(s.slice slice).changes.contains (.removeBlock b))

/-- The block that takes a tile group (R315): among the slice's blocks in the region where there are any, the one with the
fewest ready groups of the class; on a tie the lower number. -/
def State.chooseBlock (s : State) (slice region cls : Nat) : Option Nat :=
  let l := s.blocksOf slice
  let near := l.filter (fun b => b / 4 = region)
  let cand := if near.isEmpty then l else near
  let n (b : Nat) : Nat := ((s.block b).ready.filter (fun t => t.cls = cls)).length
  (sortBy (fun a b => n a < n b || (n a = n b && a < b)) cand).head?

/-! ## The context area (R318, R319) -/

/-- B_live of a tile group (R318). -/
def liveBytes (t : TileGroup) : Nat := t.rows * (4 * t.cols + 20)

/-- Nanoseconds of a save or restore at a block clock in MHz (R318), rounded up. -/
def switchNs (bytes mhz : Nat) : Nat := 60 + cdiv (cdiv bytes 256 * 1000) (max 1 mhz)

/-- Block clock in MHz of a performance state (R373). -/
def blockMhz (p : Nat) : Nat := [3600, 3300, 3000, 2700, 2400, 2000, 1600, 1200].getD p 1200

/-- Region-fabric clock in MHz of a performance state (R373). -/
def regionMhz (p : Nat) : Nat := [2400, 2400, 2200, 2000, 1800, 1600, 1200, 800].getD p 800

/-- The area has room for a save of `bytes` (R319). -/
def State.ctxRoom (s : State) (region bytes : Nat) : Bool := s.ctxBytes region + cdiv bytes 256 * 256 ≤ 1024 * 4096

/-- Count one save or restore (R422). -/
def State.countSwitch (bytes : Nat) (s : State) : State :=
  s.onSch (fun x => { x with saves := inc32 x.saves, switchMax := max x.switchMax (switchNs bytes (blockMhz s.pwr.blockClk)) })

/-- Put a context into a region's area; its number is the answer. -/
def State.addCtx (c : ParkedCtx) (s : State) : Nat × State :=
  (s.eng.nextCtx, s.onEng (fun e => { e with ctxs := e.ctxs.set e.nextCtx c, nextCtx := e.nextCtx + 1 }))

/-- The landing slot of a context as its 64 bytes (R322). -/
def ParkedCtx.slot (k : Nat) (c : ParkedCtx) : List Byte :=
  leBytes 4 k ++ leBytes 1 c.slotState ++ leBytes 1 c.pageCode.num ++ leBytes 2 c.frameGen ++ leBytes 8 c.landedAt ++
  leBytes 8 c.name.handle ++ leBytes 5 (nameWord1 c.name 0 / 2 ^ 24) ++ List.replicate 35 0

/-- Change a parked context. -/
def State.onParked (k : Nat) (f : ParkedCtx → ParkedCtx) (s : State) : State := s.onEng (fun e => { e with ctxs := e.ctxs.modify k f })

/-- Start writing an accumulator to the context area (R318, R321): from the shadow where `fromShadow`. -/
def State.saveAccum (b p : Nat) (fromShadow : Bool) (c : ParkedCtx) (a : Accum) (s : State) : State :=
  let n := liveBytes a.tg
  let r := s.addCtx { c with region := b / 4, slice := a.tg.slice, cls := a.tg.cls, req := a.tg.members.headD 0,
                             admitted := a.tg.admitted, bytes := n, acc := some a, saving := some (b, p, fromShadow) }
  (((r.2.lendLines (b / 4)).countSwitch n).suspendOp a.tg.op true).onCell b p (fun c =>
    { c with parkedShadow := c.parkedShadow || fromShadow, need := c.need && fromShadow })


/-- Park the tile group on a cell at once (R321): by exchange with a free shadow, else by a save of the live state; with the
area full it stays on its cell and the event is counted (R319). -/
def State.parkCell (b p : Nat) (name : PageName) (page : Nat) (s : State) : State :=
  let c := (s.block b).cell p
  match c.live with
  | none => s
  | some a =>
    if s.eng.ctxs.any (fun k => k.2.saving = some (b, p, false)) then s
    else if !s.ctxRoom (b / 4) (liveBytes a.tg) then s.onSch (fun x => { x with ctxAreaFull := inc32 x.ctxAreaFull })
    else
      let s := s.onSch (fun x => { x with parks := inc32 x.parks })
      let k : ParkedCtx := { name := name, page := page }
      if c.shadow.isNone then
        let s := (s.onCell b p (fun c => { c with live := none, shadow := c.live, vec := [], need := false })).onSch
          (fun x => { x with exchanges := inc32 x.exchanges })
        s.saveAccum b p true k a
      else s.saveAccum b p false k a

/-- Move the shadow context of a cell to the context area (R307, R325); it waits where the area is full. -/
def State.spillShadow (b p : Nat) (s : State) : State :=
  let c := (s.block b).cell p
  match c.shadow with
  | none => s
  | some a =>
    if c.parkedShadow then s
    else if !s.ctxRoom (b / 4) (liveBytes a.tg) then s.onSch (fun x => { x with ctxAreaFull := inc32 x.ctxAreaFull })
    else s.saveAccum b p true { slotState := 1 } a

/-! ## The end of a tile group (R24, R79, R81) -/

/-- The rows of a finished group: the chains of each column part merge (R79), and the column parts stand side by side under one
reference (R81). -/
def joinParts (l : List (TileGroup × List Triple)) : List Triple :=
  let cols := sortBy (fun a b => decide (a < b)) ((l.map (fun x => x.1.col0)).eraseDups)
  let rows := l.foldl (fun n x => max n x.2.length) 0
  (List.range rows).map (fun i =>
    let ts := cols.map (fun c => ((l.filter (fun x => x.1.col0 = c)).map (fun x => x.2.getD i {})))
    let ms := ts.map (fun t => mergeTree ((t.headD {}).o.length) t)
    { (ms.headD {}) with o := ms.flatMap Triple.o })

/-- A tile group has met the end of its range: its rows go to the vector unit of its block, which holds what the group's parts
have given (R24). -/
def State.endGroup (b p : Nat) (s : State) : State :=
  match ((s.block b).cell p).live with
  | none => s
  | some a =>
    (s.onCell b p (fun c => { c with live := none, vec := [], need := false })).onBlock b (fun x => { x with
      vector := x.vector ++ [(a.tg, a.rows)] })

/-- How the page of a group's next tile stands: its source (R67), away (R224, R241), or answered without data (R89). -/
inductive PageStand where
  | ready (src : PageSrc)
  | away
  | gone
deriving DecidableEq, Repr

/-- The page of a group's next tile; a page that it goes on with keeps its source (R67). -/
def State.pageStand (s : State) (a : Accum) (n : PageName) : PageStand :=
  match a.src with
  | some x =>
    if x.1 = n then .ready x.2
    else match (s.resolve a.tg.slice n).1 with
      | .frame e => .ready (srcOf (s.format a.tg.slice) n.block e)
      | .await _ => .away
      | .code _ => .gone
  | none => match (s.resolve a.tg.slice n).1 with
      | .frame e => .ready (srcOf (s.format a.tg.slice) n.block e)
      | .await _ => .away
      | .code _ => .gone

/-- Leave out the tiles of a page from a position on. -/
def Accum.without (a : Accum) (i : Nat) (drop : PageName → Bool) : Accum :=
  { a with tg := { a.tg with tiles := a.tg.tiles.take i ++ (a.tg.tiles.drop i).filter (fun t => t.staged.isSome || !drop t.page) } }

/-- The live group of a cell turns to its next tile: it asks for the operands; it parks where the tile's page is away (R321);
pages answered without data contribute nothing (R93); it ends where no tile is left. -/
def State.nextTile (b p : Nat) : Nat → State → State
  | 0, s => s
  | fuel + 1, s =>
    match ((s.block b).cell p).live with
    | none => s
    | some a =>
      match a.step with
      | none => s.endGroup b p
      | some t =>
        if t.staged.isSome then s.askOperands b p
        else match s.pageStand a t.page with
          | .ready src =>
            let a := if a.src.any (fun x => x.1 = t.page) then a
              else { a with src := some (t.page, src), mark := (a.rows, a.at_)
                            pages := a.pages ++ (a.src.map Prod.fst).toList }
            (s.onCell b p (fun c => { c with live := some a })).askOperands b p
          | .away => s.parkCell b p t.page t.page.block
          | .gone => (s.onCell b p (fun c => { c with live := some (a.without a.at_ (· = t.page)) })).nextTile b p fuel

/-- A group that is live on a cell starts or goes on. -/
def State.goOn (b p : Nat) (s : State) : State :=
  match ((s.block b).cell p).live with
  | none => s
  | some a => s.nextTile b p (a.tg.tiles.length + 1)

/-! ## The block arbiter (R25, R316, R318) -/

/-- Put a tile group on a cell (R25, R318): live where nothing is live, else by exchange with the free shadow. -/
def State.putLive (b p : Nat) (a : Accum) (s : State) : State :=
  let c := (s.block b).cell p
  match c.live with
  | none => (s.setLive b p a c.shadow).goOn b p
  | some o => (((s.setLive b p a (some o)).suspendOp o.tg.op true).onSch
      (fun x => { x with exchanges := inc32 x.exchanges, preemptions := inc32 x.preemptions })).goOn b p

/-- The ready group that the arbiter takes first. -/
def State.nextReady (s : State) (b : Nat) : Option TileGroup := (sortBy (s.before b) (s.block b).ready).head?

/-- Place one ready tile group on the first free working cell (R25); a stopped block places none (R36). (DESIGN CHOICE, log entry 38.) -/
def State.placeOne (b : Nat) (s : State) : State :=
  if !s.blockUp b then s
  else match s.nextReady b with
    | none => s
    | some t =>
      match (s.workingPos b).find? (fun x => s.cellFree b x.2 t.cls) with
      | none => s
      | some x => (s.onBlock b (fun y => { y with ready := y.ready.erase t })).putLive b x.2 (freshAccum t)

/-- Place ready tile groups while cells are free. -/
def State.placeReady (b : Nat) (s : State) : State :=
  (List.range ((s.block b).ready.length + 8)).foldl (fun s _ => s.placeOne b) s

/-- Blocks that run again place what they have held (R36). -/
def State.placeHeld (s : State) : State := (List.range 32).foldl (fun s b => s.placeReady b) s

/-- The group in a cell's shadow becomes live by exchange (R21, R318). -/
def State.exchange (b p : Nat) (a : Accum) (s : State) : State :=
  ((s.setLive b p a none).onSch (fun x => { x with exchanges := inc32 x.exchanges })).goOn b p

/-- A cell's live accumulator has been freed (R316): the group in its shadow and the ready groups compete for it. -/
def State.freed (b p : Nat) (s : State) : State :=
  let c := (s.block b).cell p
  match c.shadow with
  | none => s.placeReady b
  | some a =>
    if c.parkedShadow ∨ c.live.isSome then s.placeReady b
    else match s.nextReady b with
      | some t =>
        if s.before b t a.tg ∧ !c.retiring then s.placeReady b
        else (s.exchange b p a).placeReady b
      | none => (s.exchange b p a).placeReady b

/-- Tile groups on a block: live, in shadows and ready. -/
def BlockS.groups (x : BlockS) : List TileGroup :=
  (x.cells.filterMap (fun c => c.live.map Accum.tg)) ++
  (x.cells.filterMap (fun c => if c.parkedShadow then none else c.shadow.map Accum.tg)) ++ x.ready

/-- A cell position that holds no work: operand buffers, accumulators and vector registers zeroed (R300); a context that is still
being written stays. -/
def CellS.cleared (keep : Bool) (c : CellS) : CellS :=
  { retiring := c.retiring
    shadow := if keep && c.parkedShadow then c.shadow else none
    parkedShadow := keep && c.parkedShadow }

/-- Move a block's tile groups to other blocks of their slices, where their chains restart from the first tile (R92, R356). -/
def State.restartGroups (b : Nat) (s : State) : State :=
  let ts := (s.block b).groups
  let s := s.onBlock b (fun x => { x with
    cells := x.cells.map (CellS.cleared true)
    ready := []
    retries := []
    faulted := [] })
  ts.foldl (fun s t => match s.chooseBlock t.slice (b / 4) t.cls with
    | some k => (s.onBlock k (fun x => { x with ready := x.ready ++ [t] })).placeReady k
    | none => s) s

/-- Zero what a block holds before it joins another slice (R300). -/
def State.clearBlock (b : Nat) (s : State) : State :=
  s.onBlock b (fun x => { x with
    cells := x.cells.map (CellS.cleared false)
    ready := []
    retries := []
    faulted := []
    vector := [] })

/-! ## Chains that restart (R44, R92) -/

/-- The chain goes back to where the page in hand began, and leaves out the tiles of the pages that `drop` names from there on; pages
added whole stand. (DEDUCED, log entry 64.) -/
def Accum.leavePage (drop : PageName → Bool) (a : Accum) : Accum :=
  match a.src with
  | none => a.without a.at_ drop
  | some x =>
    if drop x.1 then ({ a with rows := a.mark.1, at_ := a.mark.2, src := none, faulty := false }).without a.mark.2 drop
    else a.without a.at_ drop

/-- A page leaves a group's range (R92): the chain restarts at that page, or from its first tile where the page was added whole. -/
def Accum.dropPage (n : PageName) (a : Accum) : Accum :=
  if a.pages.contains n then (freshAccum a.tg).without 0 (· = n) else a.leavePage (· = n)

/-- Change every accumulator that `sel` names: on cells, in shadows, in context areas; a cell whose live group changed starts its
next product afresh. -/
def State.onAccums (sel : Accum → Bool) (f : Accum → Accum) (s : State) : State :=
  let g (o : Option Accum) : Option Accum := o.map (fun a => if sel a then f a else a)
  let s := s.onEng (fun e => { e with
    blocks := e.blocks.map (fun x => { x with cells := x.cells.map (fun c =>
      if c.live.any sel then { c with live := g c.live, shadow := g c.shadow, vec := [], need := false }
      else { c with shadow := g c.shadow }) })
    ctxs := e.ctxs.map (fun k => (k.1, { k.2 with acc := g k.2.acc })) })
  (List.range 160).foldl (fun s i =>
    let c := (s.block (i / 5)).cell (i % 5)
    if c.live.any (fun a => sel a && !a.faulty) && !c.need && c.vec.isEmpty then
      let s := s.goOn (i / 5) (i % 5)
      if ((s.block (i / 5)).cell (i % 5)).live.isNone then s.freed (i / 5) (i % 5) else s
    else s) s

/-! ## Tile products (R22, R349, R78) -/

/-- An exact sum. -/
def sumExact (l : List Num) : Num := l.foldl Num.add .zero

/-- One comparison of R349: checksum, sum and magnitude sum. -/
def laneOk (c t m : Num) : Bool :=
  if c.isFin && t.isFin then !((m.mul (.fin false 1 (-16))).add (.fin false 1 (-120))).lt (c.sub t).abs
  else c.isFin == t.isFin

/-- The checksum lanes pass a product C of A and B (R349): every column, and every row; `times` is the product of two elements. -/
def lanesOk (times : Num → Num → Num) (a b c : List (List Num)) : Bool :=
  let cols := (b.headD []).length
  let at_ (m : List (List Num)) (i j : Nat) : Num := (m.getD i []).getD j .zero
  let aSum := (List.range b.length).map (fun k => sumExact (a.map (fun r => r.getD k .zero)))
  let bSum := b.map sumExact
  (List.range cols).all (fun j =>
    laneOk (sumExact ((List.range b.length).map (fun k => times (aSum.getD k .zero) (at_ b k j))))
      (sumExact (c.map (fun r => r.getD j .zero)))
      (sumExact (a.flatMap (fun r => (List.range b.length).map (fun k => (times (r.getD k .zero) (at_ b k j)).abs))))) &&
  (List.range a.length).all (fun i =>
    laneOk (sumExact ((List.range b.length).map (fun k => times (at_ a i k) (bSum.getD k .zero))))
      (sumExact (c.getD i []))
      (sumExact ((List.range b.length).flatMap (fun k => (b.getD k []).map (fun v => (times (at_ a i k) v).abs)))))

/-- A product in which a weight of zero takes nothing from its value (R74). -/
def weigh (w v : Num) : Num := if w.isZero then .zero else w.mul v

/-- The columns of a list of rows. -/
def transpose (n : Nat) (l : List (List Num)) : List (List Num) := (List.range n).map (fun e => l.map (fun v => v.getD e .zero))

/-- What the array computes for a cell's next product: operands A and B as the checksum lanes see them, and C as FP32 encodings
(R20, R22, R75, R97, R100). A score product multiplies query rows by keys; an output product weights in three BF16 parts by
values, in three passes; a backward product its staged operands. -/
def State.arrayProduct (s : State) (a : Accum) (t : TileStep) (score : Bool) (bufA bufB : OpBuf) : List (List Num) × List (List Num) × List (List Nat) :=
  let s := { s with free := a.tg.seed }
  let idx (i j : Nat) : List Nat := [a.tg.id, a.tg.chain, a.at_, i, j, if score then 0 else a.tg.col0 + 1]
  match t.staged, a.src with
  | some w, _ =>
    let k := (w.1.headD []).length
    let n := (w.2.headD []).length
    let va := (List.range w.1.length).map (fun i => (List.range k).map (fun e => bufA.half (i * k + e)))
    let vb := (List.range k).map (fun e => (List.range n).map (fun j => bufB.half (e * n + j)))
    (va, vb, (va.zipIdx).map (fun r => ((transpose n vb).zipIdx).map (fun c =>
      toF32 (sumFree (s.order (idx r.2 c.2)) (List.zipWith Num.mul r.1 c.1)))))
  | none, some x =>
    let f := x.2.format
    let d := PageFormatD f
    if score then
      let qs := (List.range a.tg.rows).map (bufA.queryRow a.tg.queryFormat d)
      let ks := (List.range 32).map (bufB.tileVec f.keyFormat d)
      (qs, transpose d ks, (qs.zipIdx).map (fun q => (ks.zipIdx).map (fun k => toF32
        (if f.keyFormat = 3 then s.dotMx (idx q.2 k.2) q.1 k.1 (fun e => bufB.byte (tileAt 3 d k.2 (d / 2 + e)))
         else s.dot (idx q.2 k.2) q.1 k.1))))
    else
      let vs := (List.range 32).map (fun j => ((bufB.tileVec (valueKind f) d j).drop a.tg.col0).take a.tg.cols)
      let ws := (List.range a.tg.rows).map (fun i => (List.range 3).map (fun k =>
        (List.range 32).map (fun j => bufA.half ((i * 3 + k) * 32 + j))))
      (ws.map List.flatten, vs ++ vs ++ vs, (ws.zipIdx).map (fun w =>
        let ks := (List.range 32).filter (fun j => (t.keySet.getD w.2 []).getD j false)
        (List.range a.tg.cols).map (fun c => toF32 (tileColumn (s.order (idx w.2 c))
          (w.1.map (fun l => ks.map (fun j => l.getD j .zero))) (ks.map (fun j => (vs.getD j []).getD c .zero))))))
  | none, none => ([], [], [])

/-- A cell runs its next product and checks it (R22): the product, or the check that failed (1 operand parity, 0 checksum). -/
def State.runProduct (s : State) (a : Accum) (t : TileStep) (score : Bool) (bufA bufB : OpBuf) (x : ArrayFault) :
    Except Nat (List (List Nat)) :=
  let fa := bufA.flip x.flipA
  let fb := bufB.flip x.flipB
  if !fa.ok || !fb.ok then .error 1
  else
    let r := s.arrayProduct a t score fa fb
    let c := x.wrong.foldl (fun l y => l.modify y.1 (fun row => row.set y.2.1 y.2.2)) r.2.2
    if lanesOk (if score || t.staged.isSome then Num.mul else weigh) r.1 r.2.1 (c.map (·.map ofF32)) then .ok c else .error 0

/-- The class of work of a product (R353). -/
def workClass (a : Accum) (t : TileStep) (score : Bool) : Nat :=
  if t.staged.isSome then 5
  else if !score then 4
  else match a.src with
    | some x => if x.2.format.keyFormat = 1 then 2 else if x.2.format.keyFormat = 3 then 3 else 1
    | none => 1

/-- A score product enters a row (R78, R80): m, the rescale and l of the tile, O only rescaled; and the tile's weights. -/
def scoreRow (pick : Nat → Nat) (tau : Nat) (c : Num) (keys : List Bool) (p : List Nat) (r : Triple) : Triple × List Num :=
  let ss := (p.map (fun x => fmul c (ofF32 x))).zipIdx.filter (fun x => keys.getD x.2 false)
  let t := tileUpdate pick tau none true (ss.map Prod.fst) (ss.map (fun _ => [])) r
  (t, (List.range 32).map (fun j =>
    if keys.getD j false && !t.nonfinite then exp2 (rn ((fmul c (ofF32 (p.getD j 0))).sub (ofF32 t.m))) else .zero))

/-- An output product enters a row (R78): one rounding per column. -/
def outputRow (c : List Nat) (r : Triple) : Triple :=
  if r.nonfinite then r
  else
    let o := List.zipWith (fun x y => fadd (ofF32 x) (ofF32 y)) r.o c
    let t := { r with o := o.map toF32 }
    if o.all Num.isFin then t else t.spoil

/-- The rows and weights of a score product (R75, R78, R98): c, or c_p of an INT8 page; weights w, or w′ of INT8 values.
(DESIGN CHOICE, log entry 76.) -/
def State.scoreRows (s : State) (a : Accum) (t : TileStep) (src : PageSrc) (c : List (List Nat)) : List (Triple × List Num) :=
  let s := { s with free := a.tg.seed }
  let k := scoreConst a.tg.scale
  let k := if src.format.keyFormat = 2 then rn (k.mul (ofF32 src.keyScale)) else k
  let vs := ofF32 (if src.format.latent = 1 then src.keyScale else src.valueScale)
  ((a.rows.zipIdx).map (fun r =>
    scoreRow (s.order [a.tg.id, a.tg.chain, a.at_, r.2]) a.tg.tau k (t.keySet.getD r.2 []) (c.getD r.2 []) r.1)).map (fun r =>
      (r.1, if valueKind src.format = 2 then r.2.map (fun w => fmul w vs) else r.2))

/-- A checked product is taken (R22, R24): after a score product the vector unit holds the rows, and buffer A the weights in three
BF16 parts (R97); an output product, or a backward product, is added to the rows and ends the tile. -/
def State.takeProduct (b p : Nat) (a : Accum) (t : TileStep) (c : List (List Nat)) (s : State) : State :=
  let done (rows : List Triple) (s : State) : State :=
    (s.onCell b p (fun x => { x with vec := [], live := some { a with rows := rows, at_ := a.at_ + 1, faulty := false } })).goOn b p
  match t.staged, a.src with
  | some _, _ => done ((a.rows.zipIdx).map (fun r => outputRow (c.getD r.2 []) r.1)) s
  | none, some x =>
    if ((s.block b).cell p).vec.isEmpty then
      let rs := s.scoreRows a t x.2 c
      (s.onCell b p (fun y => { y with
        live := some { a with faulty := false }
        vec := rs.map Prod.fst
        bufA := .load (halfBytes (rs.flatMap (fun r => (List.range 3).flatMap (fun k =>
          r.2.map (fun w => toBf16 ((weightParts w).getD k .zero))))) ) })).askOperands b p
    else done ((((s.block b).cell p).vec.zipIdx).map (fun r => outputRow (c.getD r.2 []) r.1)) s
  | none, none => s

/-- The cell where a group's part is live. -/
def State.homeOf (s : State) (id part : Nat) : Option (Nat × Nat) :=
  ((List.range 160).find? (fun i => (((s.block (i / 5)).cell (i % 5)).live).any (fun a => a.tg.id = id && a.tg.part = part))).map
    (fun i => (i / 5, i % 5))

end Sys2Proof.Machine
end

