-- ==== Sys2Proof/Machine/Lattice.lean ====
section
/-! DEFINITION. The Lattice: links and their replay (R38, R40, R41), message classes, routes and the output arbiters, and the
delivery of messages exactly once and in order (R39); the commands FLIT_RECEIVE and LINK_HANDSHAKE_TIMEOUT. -/

namespace Sys2Proof.Machine

/-! ## Links and routes (R38, R41) -/

/-- The router at the far end of a link: (n + 1), (n + 7) or (n + 4) modulo 8. -/
def linkFar (router link : Nat) : Nat := (router + [1, 7, 4].getD link 0) % 8

/-- Key of a link direction: router × 3 + link (R354). -/
def linkKey (router link : Nat) : Nat := router * 3 + link

/-- Change a link direction. -/
def State.onLink (k : Nat) (f : LinkS → LinkS) (s : State) : State := s.onEng (fun e => { e with links := e.links.modify k f })

/-- A link direction. -/
def State.link (s : State) (k : Nat) : LinkS := s.eng.links.getD k {}

/-- The router that a unit is attached to (R38): region arbiters 0 to 7, Locus islands 8 to 15, then transport engine 0,
home-directory unit 0, the PCI Express endpoint, flash root ports 0 and 1, home-directory unit 1, transport engine 1,
home-directory unit 2, Vertex, the security engine, the crypto accelerator, flash root ports 2 and 3, home-directory unit 3. -/
def unitRouter (u : Nat) : Nat := if u < 16 then u % 8 else [0, 1, 2, 2, 3, 4, 5, 6, 6, 6, 6, 7].getD (u - 16) 0

/-- Whether router `b` is reached from router `a` over working links in at most `k` hops. -/
def State.reaches (s : State) : Nat → Nat → Nat → Bool
  | 0, a, b => a = b
  | k + 1, a, b => a = b || (List.range 3).any (fun l => !(s.link (linkKey a l)).failed && s.reaches k (linkFar a l) b)

/-- The link that a router sends by (R41): the first that leads over the fewest hops; none where no route of 3 hops is left.
(DESIGN CHOICE, log entry 62.) -/
def State.nextHop (s : State) (a b : Nat) : Option Nat :=
  (List.range 3).findSome? (fun k => (List.range 3).find? (fun l =>
    !(s.link (linkKey a l)).failed && s.reaches k (linkFar a l) b))

/-- The virtual channel after a hop (R39): the second of the pair once the dateline between routers 7 and 0 is crossed.
(DESIGN CHOICE, log entry 62.) -/
def crossVc (router link vc : Nat) : Nat :=
  if link < 2 ∧ (router = 7 ∧ linkFar router link = 0 ∨ router = 0 ∧ linkFar router link = 7) then 1 else vc

/-! ## Delivery (R39) -/

/-- Key of a stream of messages: source, destination and class. -/
def streamKey (src dst cls : Nat) : Nat := (src * 64 + dst) * 3 + cls

/-- Deliver held messages that have become next in order. -/
def Reorder.drain : Nat → Reorder → Reorder
  | 0, w => w
  | n + 1, w =>
    match w.held.find? (fun h => h.1 = w.next) with
    | none => w
    | some h => Reorder.drain n { next := (w.next + 1) % 65536, held := w.held.filter (fun x => x.1 ≠ w.next), last := h.2 }

/-- A message reaches its destination (R39): next in order it is delivered; within the window of 64 it is held; a repeat is
dropped. -/
def Reorder.take (num : Nat) (payload : List Byte) (w : Reorder) : Reorder :=
  if (num + 65536 - w.next) % 65536 < 64 ∧ w.held.all (fun h => h.1 ≠ num) then
    Reorder.drain 64 { w with held := w.held ++ [(num, payload)] }
  else w

/-- A flit waits at a router for its next link. -/
def State.enqueueFlit (router : Nat) (f : Flit) (s : State) : State :=
  match s.nextHop router (unitRouter f.dst) with
  | none => s
  | some l => s.onLink (linkKey router l) (fun x => { x with out := x.out ++ [{ f with vc := crossVc router l f.vc }] })

/-- A flit has reached a router: its destination is attached there, or it waits for its next link. -/
def State.atRouter (router : Nat) (f : Flit) (s : State) : State :=
  if unitRouter f.dst = router then
    s.onEng (fun e => { e with streams := e.streams.update (streamKey f.src f.dst f.cls) {} (Reorder.take f.num f.payload) })
  else s.enqueueFlit router f

/-! ## Replay (R40, R41) -/

/-- Log an event of a link: its number and its two islands (R40, R424). -/
def State.logLink (event router link : Nat) (s : State) : State :=
  s.logEvent (32 + router) event 0xff 0 (linkKey router link) (32 + router + (32 + linkFar router link) * 256) 0

/-- A detection against a link: logged, and attributed to no unit that retests (R348, R354). -/
def State.detectLink (router link : Nat) (s : State) : State :=
  s.logDetection (32 + router) 8 8 0 (linkKey router link) (s.temp (32 + router)) s.pwr.vdd 4 0xff 0

/-- A link direction is marked failed (R40): the routers use the alternate routes, and what its replay buffer and its output hold
is sent again on the new route (R41). -/
def State.failLink (router link : Nat) (s : State) : State :=
  let x := s.link (linkKey router link)
  let s := s.onLink (linkKey router link) (fun x => { x with failed := true, waiting := false, buffer := [], out := [] })
  let s := s.onEng (fun e => { e with rerouted := true })
  ((x.buffer ++ x.out).foldl (fun s f => s.enqueueFlit router f) s).logLink 0x0102 router link

/-- The CRC-16 of a flit over its header and payload (R38). -/
def flitCrcOf (f : Flit) : Nat := Config.flitCrc [f.seq, f.cls, f.src, f.dst, f.num, f.vc] f.payload

/-- A flit arrives at the far end of a link direction (R40): the sender keeps it in its replay buffer of 64 until it is taken;
a mismatch discards it and every later one until the awaited flit is replayed out of that buffer. (DESIGN CHOICE, log entry 62.) -/
def State.flit (router link : Nat) (f : Flit) (crc : Nat) (s : State) : State :=
  let k := linkKey router link
  let x := s.link k
  if x.failed then s
  else
    let sent := (x.nextSeq + x.buffer.length) % 65536
    let b := if f.seq = sent ∧ x.buffer.length < 64 then x.buffer ++ [f] else x.buffer
    let s := s.onLink k (fun x => { x with buffer := b })
    if f.seq ≠ x.nextSeq then
      if x.waiting ∨ crc = flitCrcOf f then s
      else (s.detectLink router link).onLink k (fun x => { x with waiting := true })
    else if crc = flitCrcOf f then
      (s.onLink k (fun x => { x with nextSeq := (x.nextSeq + 1) % 65536, waiting := false, replays := 0, buffer := b.drop 1 })).atRouter
        (linkFar router link) (b.headD f)
    else
      let s := s.detectLink router link
      if x.replays < 16 then
        (s.onLink k (fun x => { x with waiting := true, replays := x.replays + 1 })).logLink 0x0101 router link
      else s.failLink router link

/-- FLIT_RECEIVE. -/
def execFlitReceive (router : Fin 8) (link : Fin 3) (f : Flit) (crc : Nat) (s : State) :
    Host.Outcome State Fault Refusal := .next (s.whenUp (State.flit router link f crc))

/-- A handshake of a link stayed unacknowledged for 10 µs (R40). -/
def State.linkTimeout (router link : Nat) (s : State) : State :=
  if (s.link (linkKey router link)).failed then s else (s.detectLink router link).failLink router link

/-- LINK_HANDSHAKE_TIMEOUT. -/
def execLinkHandshakeTimeout (router : Fin 8) (link : Fin 3) (s : State) : Host.Outcome State Fault Refusal :=
  .next (s.whenUp (State.linkTimeout router link))

/-! ## Output arbiters (R39) -/

/-- The flit that an output sends next: management first, then responses, then requests; in order within a class. -/
def LinkS.pick (x : LinkS) : Option Flit :=
  (List.range 3).findSome? (fun c => x.out.find? (fun f => f.cls.val = c))

/-- An output that holds flits and has room in its replay buffer sends one, which arrives whole. -/
def State.sendFlit (k : Nat) (s : State) : State :=
  let x := s.link k
  match x.pick with
  | none => s
  | some f =>
    if x.failed ∨ x.waiting ∨ 64 ≤ x.buffer.length then s
    else
      let g : Flit := { f with seq := (x.nextSeq + x.buffer.length) % 65536 }
      (s.onLink k (fun x => { x with out := x.out.erase f })).flit (k / 3) (k % 3) g (flitCrcOf g)

/-- One nanosecond of the Lattice: every output sends up to two flits (R38). -/
def State.latticeTick (s : State) : State :=
  if s.eng.links.all (fun x => x.out.isEmpty) then s
  else (List.range 48).foldl (fun s i => s.sendFlit (i % 24)) s

end Sys2Proof.Machine
end

