-- ==== Sys2Proof/Machine/Faults.lean ====
section
/-! DEFINITION. Faults and what follows them: detections and their classification (R348 to R354), retirement and withdrawal
(R355 to R357), uncorrectable frames (R70, R145), failed drives (R243), region fences, lost units and quarters, and the
self-fence (R43, R70, R71, R205, R358, R359, R366). -/

namespace Sys2Proof.Machine

/-! ## Detections (R348 to R354) -/

/-- The temperature band of R352: ⌊T / 5 °C⌋. -/
def tempBand (t : Int) : Int := t / 40

/-- 24 hours in nanoseconds. -/
def dayNs : Nat := 86400000000000

/-- Change a unit's history. -/
def State.onUnit (u : UnitId) (f : UnitHist → UnitHist) (s : State) : State :=
  s.clearMark.onRas (fun r => { r with units := r.units.update (unitKey u) {} f })

/-- A cell in RETEST gives its slot to the spare position when the spare is free (R352); a cell that still holds work keeps
its slot and takes no new work. -/
def State.lendSpare (n : Nat) (s : State) : State :=
  let b := n / 4
  let x := s.block b
  match x.slots.getD (n % 4) none with
  | none => s
  | some p =>
    if p ≠ 4 ∧ !x.spareUsed ∧ !x.slots.contains (some 4) ∧ (x.cell p).live.isNone ∧ (x.cell p).shadow.isNone then
      s.onBlock b (fun x => { x with slots := x.slots.set (n % 4) (some 4) })
    else s

/-- A detection against a unit at a temperature and supply (R352): it is recorded; a unit in service goes to RETEST. -/
def State.detectAt (u : UnitId) (detector cls slice ctx : Nat) (temp : Int) (volt : Nat) (s : State) : State :=
  let h := s.unit (unitKey u)
  let d : Seen := { stamp := s.now, band := tempBand temp, cls := cls, detector := detector }
  let s := s.logDetection (unitIsland u) detector (unitKind u) cls (unitNum u) temp volt 3 slice ctx
  let s := s.onUnit u (fun h => { h with seen := (h.seen ++ [d]).drop (h.seen.length + 1 - 4) })
  match h.state with
  | .inService =>
    let s := s.onUnit u (fun h => { h with state := .retest, waiting := some d })
    match u with
    | .cell n => s.lendSpare n
    | _ => s
  | _ => s

/-- A detection against a unit at its island's temperature and supply. -/
def State.detect (u : UnitId) (detector cls slice ctx : Nat) (s : State) : State :=
  s.detectAt u detector cls slice ctx (s.temp (unitIsland u)) s.pwr.vdd

/-- An earlier detection within 24 h shares the band or the class (R352). -/
def UnitHist.correlated (h : UnitHist) (now : Nat) (d : Seen) : Bool :=
  h.seen.any (fun x => x.stamp < d.stamp && now < x.stamp + dayNs && (x.band = d.band || x.cls = d.cls))

/-! ## Withdrawal (R356) -/

/-- Withdraw a block: its tile groups restart on the slice's other blocks. -/
def State.withdrawBlock (b : Nat) (s : State) : State :=
  if s.ras.blocksWithdrawn.contains b then s
  else (s.onRas (fun r => { r with blocksWithdrawn := r.blocksWithdrawn ++ [b] })).restartGroups b

/-- No slot of the block has a working or testing cell left. -/
def State.noCell (s : State) (b : Nat) : Bool := (s.block b).slots.all Option.isNone

/-- A unit is retired (R352, R355, R356): a cell waits for its live group; a vector unit takes its block with it; a near-bank
unit's pair has no working unit until a spare is steered, from the end of a window on the pair (R150). -/
def State.retireOf (u : UnitId) (s : State) : State :=
  let s := s.onUnit u (fun h => { h with state := .retired, waiting := none })
  match u with
  | .cell n =>
    match (s.block (n / 4)).slots.getD (n % 4) none with
    | none => s
    | some p =>
      if p = 4 ∧ !(s.block (n / 4)).spareUsed then
        (s.onBlock (n / 4) (fun x => { x with spareUsed := true })).onUnit u (fun _ => {})
      else s.onCell (n / 4) p (fun c => { c with retiring := true })
  | .vector b => s.withdrawBlock b
  | .nbu st d x => s.onNbu st (fun r =>
      let u : Nat × Nat := (d, x)
      if r.wins.any (fun w => w.2.active && w.2.pairs.contains ((d : Nat) * 128 + x)) then { r with retiring := (r.retiring ++ [u]).eraseDups }
      else { r with retiredUnits := (r.retiredUnits ++ [u]).eraseDups })

/-- The retest ends (R352): the fault is transient, correlated or lasting; the final record is written. -/
def State.classify (u : UnitId) (pass : Bool) (s : State) : State :=
  let h := s.unit (unitKey u)
  match h.state, h.waiting with
  | .retest, some d =>
    let o := if !pass then 1 else if h.correlated s.now d then 2 else 0
    let s := s.logDetection (unitIsland u) d.detector (unitKind u) d.cls (unitNum u) (s.temp (unitIsland u))
      s.pwr.vdd o 0xff 0
    let s := s.onRas (fun r =>
      { r with transient := if o = 0 then inc32 r.transient else r.transient
               lasting := if o = 1 then inc16 r.lasting else r.lasting
               correlated := if o = 2 then inc16 r.correlated else r.correlated })
    if o = 0 then
      let s := s.onUnit u (fun h => { h with state := .inService, waiting := none })
      match u with
      | .cell n =>
        let x := s.block (n / 4)
        if x.slots.getD (n % 4) none = some 4 ∧ !x.spareUsed then
          if (x.cell 4).live.isNone ∧ (x.cell 4).shadow.isNone then
            s.onBlock (n / 4) (fun x => { x with slots := x.slots.set (n % 4) (some (n % 4)) })
          else s
        else s
      | _ => s
    else s.retireOf u
  | _, _ => s

/-! ## Storage faults (R357) -/

/-! ## Failed drives (R231, R243) -/

/-- Some context, PIN, acquire or write waits for the page. -/
def State.awaited (s : State) (slice : Nat) (n : PageName) : Bool :=
  s.mem.waits.any (fun w => w.slice = slice && w.name = n) ||
  s.eng.ctxs.any (fun c => c.2.slice = slice && c.2.name = n && c.2.slotState = 0) ||
  s.reqs.any (fun q => q.2.slice = slice && (match q.2.kind with
    | .pin _ w _ _ _ => w.contains n
    | .acquire _ w _ _ _ => w.contains n
    | _ => false))

/-- R243 for one entry whose drive is failed; a fill that something waits for turns to the replicas. -/
def State.entryDriveFailed (slice : Nat) (n : PageName) (s : State) : State :=
  let s := s.applyDrive slice n
  match s.entry slice n with
  | none => s
  | some e =>
    if e.frameState = .filling ∧ !s.awaited slice n then
      let s := s.endFill slice n
      ((s.retireUnit e.quarter e.stackFrame (frameGranules (s.format slice))).onEntry slice n
        (fun e => { e with frameState := .flash })).bumpGen slice n true
    else if (s.fillOf slice n).isSome then s.startRecovery slice n 2 none
    else s

/-- Mark a drive failed: its commands end, and R243 is applied to its extents. -/
def State.failDrive (d : Nat) (s : State) : State :=
  match s.mem.drives.get? d with
  | none => s
  | some x =>
    if x.failed then s
    else
      let s := (s.onDrive d (fun y => { y with failed := true, cmds := [] })).logEvent 94 0x0302 0xff 0 d 0 0
      (s.home.entries.filter (fun e => e.frameState.onFlash && e.flashDrive = d)).foldl
        (fun s e => s.entryDriveFailed e.slice e.name) s

/-! ## Lost units and quarters (R43, R205, R359) -/

/-- A home-directory unit is lost: its quarter answers BUSY. -/
def State.loseHomeUnit (h : Nat) (s : State) : State :=
  if s.home.unitsLost.contains h then s
  else (s.onHome (fun x => { x with unitsLost := x.unitsLost ++ [h] })).logEvent 94 0x0402 0xff 0 h 0 0

/-- Contexts of a quarter that lie in its spill area are lost (R267). -/
def State.loseSpilled (q : Nat) (s : State) : State :=
  s.onXpt (fun x => { x with ctxs := x.ctxs.filter (fun c => c.2.onDie || c.1 % 4 ≠ q) })

/-- A quarter is lost until restart (R359). (DEDUCED, log entry 72.) -/
def State.loseQuarter (q : Nat) (s : State) : State :=
  if s.ras.quartersLost.contains q then s
  else
    let s := (s.onRas (fun r => { r with quartersLost := r.quartersLost ++ [q] })).logEvent 94 0x0402 0xff 0 q 1 0
    let s := s.onLocus (fun l => { l with ovf := l.ovf.filter (fun o => o.quarter ≠ q) })
    let s := s.loseSpilled q
    (s.mem.drives.filter (fun d => d.2.port = q && d.2.present)).foldl (fun s d => s.failDrive d.1) s

/-! ## Faulty rows, poisoned pages (R70, R145, R357) -/

/-- A stack row as one number. -/
def rowId (a : Nat) : Nat :=
  let l := decodeOffset (addrOffset a)
  ((l.sid * 64 + l.pc) * 16 + l.bank) * 32768 + l.row

/-- The mirror-pair section whose state lies at an offset of the reserved area (R58, R59). -/
def pairSection (o : Nat) : Option Section :=
  let x := o % 2 ^ 35 / 2 ^ 20
  let y := o / 2 ^ 35 * 1008 + x
  if x < 31744 || 32752 ≤ x then none
  else [Section.nameTable, .seqRecords, .contexts, .locusOverflow, .nvme, .logStaging].find? (fun c =>
    c.place.1 + 31744 ≤ y && y < c.place.1 + c.place.2 + 31744)

/-- With every copy of a row of a mirror-pair section faulty or fenced, the quarter is lost (R357, R359). -/
def State.rowCopies (a : Nat) (s : State) : State :=
  match pairSection (addrOffset a) with
  | none => s
  | some c =>
    let q := addrStack a % 4
    if (c.copies q).all (fun k => s.stackFenced k || s.ras.rowsFaulty.any (fun x => x.1 = k && x.2.1 = rowId a)) then s.loseQuarter q
    else s

/-- A row becomes faulty (R357): its span is withdrawn and its units wait to be copied. -/
def State.rowFaulty (a : Nat) (s : State) : State :=
  let st := addrStack a
  if s.ras.rowsFaulty.any (fun x => x.1 = st && x.2.1 = rowId a) then s
  else
    let s := s.onRas (fun r => { r with
      rowsFaulty := r.rowsFaulty ++ [(st, rowId a, s.now)]
      rowsFaultyCount := r.rowsFaultyCount.modify st inc32 })
    if pageSpace a then
      let sp := offsetGranule (addrOffset a) / 256
      let x := s.span st sp
      if x.kind = 7 then s
      else
        let s := s.clearMark.onMem (fun m => { m with spans := m.spans.set (spanKey st sp) { x with kind := 7 } })
        if x.kind = 0 then s else s.onSlice x.slice (fun c => { c with changes := c.changes ++ [.copySpan st sp] })
    else s.rowCopies a

/-- A corrected error in a stack row (R357): three within 24 h make it faulty. (DEDUCED, log entry 72.) -/
def State.rowCorrected (a : Nat) (s : State) : State :=
  let k := addrStack a * 2 ^ 30 + rowId a
  let l := ((s.ras.rowCorrected.getD k []).filter (fun t => s.now < t + dayNs)) ++ [s.now]
  let s := s.onRas (fun r => { r with
    ce := r.ce.modify (addrStack a) inc32
    rowCorrected := r.rowCorrected.set k l })
  let s := s.logDetection (40 + addrStack a) 5 4 0 0 (s.temp (40 + addrStack a)) s.pwr.vdd 4 0xff a
  if 3 ≤ l.length then s.rowFaulty a else s

/-- The page whose stack frame holds an address. -/
def State.pageAt (s : State) (a : Nat) : Option Entry :=
  s.home.entries.find? (fun e => e.frameState.inStack && e.stackFrame.1 = addrStack a && pageSpace a &&
    e.stackFrame.2 ≤ offsetGranule (addrOffset a) &&
    offsetGranule (addrOffset a) < e.stackFrame.2 + frameGranules (s.format e.slice))

/-- The stack frame of a page is uncorrectable (R70, R145). -/
def State.poison (slice : Nat) (n : PageName) (s : State) : State :=
  match s.entry slice n with
  | none => s
  | some e =>
    let k := frameGranules (s.format slice)
    match e.frameState with
    | .stackClean =>
      (((s.retireUnit e.quarter e.stackFrame k).forgetLook slice n).onEntry slice n
        (fun e => { e with frameState := .flash })).bumpGen slice n true
    | .stack =>
      ((s.retireUnit e.quarter e.stackFrame k).onEntry slice n (fun e => { e with frameState := .poisoned })).bumpGen slice n true
    | .demoting =>
      let s := (s.dropCmds e.flashDrive slice n).retireExtent e.quarter e.flashDrive e.flashGranule k
      ((s.retireUnit e.quarter e.stackFrame k).onEntry slice n (fun e => { e with frameState := .poisoned })).bumpGen slice n true
    | _ => s

/-- An uncorrectable read confirmed on re-read at an address (R31, R144, R165, R357). -/
def State.uncorrectable (a : Nat) (s : State) : State :=
  let s := s.onRas (fun r => { r with ue := r.ue.modify (addrStack a) inc32 })
  let s := s.logDetection (40 + addrStack a) 5 4 0 0 (s.temp (40 + addrStack a)) s.pwr.vdd 4 0xff a
  let s := match s.pageAt a with
    | some e => s.poison e.slice e.name
    | none => s.onHome (fun h => { h with accs := h.accs.map (fun (c : Accumulator) =>
        if c.parts.any (fun p => p.1 = addrStack a && pageSpace a && p.2.1 ≤ offsetGranule (addrOffset a) &&
          offsetGranule (addrOffset a) < p.2.1 + p.2.2) then { c with poisoned := true } else c) })
  s.rowFaulty a

/-! ## Self-fences and lost routers (R43, R366) -/

/-- The node fences itself; the first latched cause stands (R366). -/
def State.selfFence (cause : Nat) (s : State) : State :=
  if s.aon.selfCause ≠ 0 then s.onAon (fun a => { a with selfCleared := false })
  else ((s.onAon (fun a => { a with selfCause := cause, selfCleared := false })).logEvent 98 0x0403 0xff 0 cause 0 0).raise 1

/-- The ports of a transport engine (R273). -/
def State.enginePorts (s : State) (e : Nat) : List Nat :=
  (List.range 8).filter (fun p =>
    let m := (s.eth.ports.getD p {}).mode
    (m = 1 && p / 4 = e) || (m = 2 && p / 2 = e) || (m = 3 && p = e))

/-- A port goes down and holds its queues (R276). -/
def State.portDown (p : Nat) (s : State) : State :=
  if (s.eth.ports.getD p {}).linkUp then
    s.onPort p (fun x => { x with linkUp := false, held := true, training := false, downAt := s.now, linkDowns := inc32 x.linkDowns })
  else s

/-- Islands that have failed. -/
def State.failIslands (l : List Nat) (s : State) : State := s.onAon (fun a => { a with failed := (l ++ a.failed).eraseDups })

/-- A transport engine is lost (R43): the ports on its lanes are down. -/
def State.loseEngine (e : Nat) (s : State) : State :=
  (s.enginePorts e).foldl (fun s p => s.portDown p) (s.failIslands [76 + e])

/-- The engine of a port is lost. -/
def State.engineLost (s : State) (p : Nat) : Bool :=
  (List.range 2).any (fun e => s.aon.failed.contains (76 + e) && (s.enginePorts e).contains p)

/-- The links of a lost router fail, from it and to it (R41). -/
def State.loseLinks (n : Nat) (s : State) : State :=
  (List.range 24).foldl (fun s k =>
    if (k / 3 = n ∨ linkFar (k / 3) (k % 3) = n) ∧ !(s.link k).failed then s.failLink (k / 3) (k % 3) else s) s

/-- The units attached to a router are lost with it (R38, R41, R43). -/
def State.loseRouter (n : Nat) (s : State) : State :=
  let s := s.loseLinks n
  let s := (List.range 4).foldl (fun s i => s.withdrawBlock (4 * n + i)) s
  match n with
  | 0 => s.loseEngine 0
  | 1 => s.loseHomeUnit 0
  | 2 =>
    let s := s.onHost (fun h => { h with lost := true })
    (s.mem.drives.filter (fun d => d.2.port < 2 && d.2.present)).foldl (fun s d => s.failDrive d.1) s
  | 3 => s.loseHomeUnit 1
  | 4 => s.loseEngine 1
  | 5 => s.loseHomeUnit 2
  | 6 =>
    let s := (s.failIslands [94, 95, 99]).selfFence 1
    (s.mem.drives.filter (fun d => 2 ≤ d.2.port && d.2.present)).foldl (fun s d => s.failDrive d.1) s
  | _ => s.loseHomeUnit 3

/-! ## Region fences (R43, R44, R70, R71, R358) -/

/-- A lease holds a write frame in a stack (R71). -/
def State.leaseIn (s : State) (n : Nat) (l : Lease) : Bool :=
  l.held.any (fun p => match s.entry l.slice p with
    | some e => e.writeValid && e.writeFrame.1 = n
    | none => false)

/-- Requests end ABORTED without rows (R325). -/
def State.abortAll (l : List Nat) (s : State) : State := l.foldl (fun s r => s.finishReq r .aborted .none) s

/-- The contexts of a region's area are lost with the region's SRAM, so with its fabric island (R43, R319, R325, R358): their
chains restart in other regions of the slice; requests whose slice has no block elsewhere end ABORTED. -/
def State.loseContexts (n : Nat) (s : State) : State :=
  (s.eng.ctxs.filter (fun c => c.2.region = n)).foldl (fun s c =>
    match (s.blocksOf c.2.slice).find? (fun b => b / 4 ≠ n) with
    | some b =>
      match c.2.acc with
      | some a =>
        let s := s.onEng (fun e => { e with ctxs := e.ctxs.erase c.1 })
        (s.onBlock b (fun x => { x with ready := x.ready ++ [a.tg] })).placeReady b
      | none => s.onParked c.1 (fun k => { k with region := b / 4 })
    | none => (s.onEng (fun e => { e with ctxs := e.ctxs.erase c.1 })).abortAll
        (match c.2.acc with
          | some a => a.tg.members.eraseDups
          | none => [c.2.req])) s

/-- The region-fabric island of a region is lost (R43): with it the region's contexts, its router and the units attached to that. -/
def State.loseFabric (n : Nat) (s : State) : State :=
  if s.aon.failed.contains (32 + n) then s else ((s.failIslands [32 + n]).loseContexts n).loseRouter n

/-- Chains with a page in hand whose frame lies in a fenced stack leave that page (R44, R92). -/
def State.leaveStack (n : Nat) (s : State) : State :=
  s.onAccums (fun a => a.src.any (fun x => x.2.frame.1 = n))
    (fun a => a.leavePage (fun m => a.src.any (fun x => x.1 = m)))

/-- Locus blocks of a region whose fence or router loss takes them lose their entries; the cascades that hold one wait for the
fence sweep (R175, R464). (DEDUCED, log entry 31.) -/
def State.loseLocus (n : Nat) (s : State) : State :=
  let hit (l : LocusCfg) : Bool := l.blocks ≠ 0 && l.firstBlock ≤ 2 * n + 1 && 2 * n < l.firstBlock + l.blocks
  s.onLocus (fun l => { l with
    lostBlocks := (l.lostBlocks ++ [2 * n, 2 * n + 1]).eraseDups
    entries := l.entries.filter (fun e => e.1 / 131072 ≠ n)
    rebuilding := (l.rebuilding ++ (List.range 8).filter (fun i => hit (s.cfg i).locus)).eraseDups })

/-- Loads whose frames are staged in a region that is fenced end ABORTED (R347). -/
def State.abortLoads (n : Nat) (s : State) : State :=
  (s.host.ops.filter (fun o => match o.2.staged with
    | some x => x.1 = n
    | none => false)).foldl (fun s o => s.opFail o.1 .aborted) s

/-- Fence a region (R358): it is logged; leases with write frames there end at once; its windows' results are not read;
accumulators there are lost; a quarter whose pair is fenced is lost; with every region fenced the node
fences itself; `fabric` says that the region-fabric island is lost, and with it the
region's contexts and the router. -/
def State.fenceRegion (n cause : Nat) (fabric : Bool) (s : State) : State :=
  if s.stackFenced n then (if fabric then s.loseFabric n else s)
  else
    let s := s.endLeases (s.leaseIn n) .tear
    let s := (s.onRas (fun r => { r with regionsFenced := r.regionsFenced ++ [n] })).logEvent 94 0x0401 0xff 0 n cause 0
    let s := s.onNbu n (fun r => { r with wins := [], cq := [], withheld := [], query := [] })
    let s := (s.onEng (fun e => { e with lines := e.lines.filter (fun a => addrStack a ≠ n) })).abortLoads n
    let s := s.onHome (fun h => { h with accs := h.accs.map (fun (a : Accumulator) =>
      if a.parts.any (fun p => p.1 = n) then { a with lost := true } else a) })
    let s := s.leaveStack n
    let s := if fabric then s.loseFabric n else s
    let s := s.loseLocus n
    let s := if s.stackFenced ((n + 4) % 8) then s.loseQuarter (n % 4) else s
    if (List.range 8).all s.stackFenced then s.selfFence 3 else s

end Sys2Proof.Machine
end

