-- ==== Sys2Proof/Machine/Windows.lean ====
section
/-! DEFINITION. Near-bank windows: the units that hold a page's records (R119, R122 to R125), page groups (R129, R137), the
window's length and layout (R128, R129), eligibility (R115, R125), rows and columns of a window (R126), the query buffers (R121),
the triples of units and groups (R136 to R138), and result slots in stack memory (R140). -/

namespace Sys2Proof.Machine

/-! ## Records on units -/

/-- What one unit holds of a window: its die and number, its pseudo-channel, its bytes in the even and the odd bank, and its
records (head, position) in ascending order. -/
structure UnitLoad where
  die : Nat := 0
  unit : Nat := 0
  pc : Nat := 0
  even : Nat := 0
  odd : Nat := 0
  recs : List (Nat × Nat) := []
deriving DecidableEq, Repr

/-- The granule, within the frame, of a lane row (R123). -/
def laneGranule (f : PageFormat) (j : Nat) : Nat := if f.layout = 0 then j % frameGranules f else j / 64

/-- Lane rows of some granules of a frame. -/
def granuleLanes (f : PageFormat) (first count : Nat) : List Nat :=
  (List.range (frameBytes f / 1024)).filter (fun j => first ≤ laneGranule f j && laneGranule f j < first + count)

/-- Lane rows of an extent (R129): granules of a native frame, or one head of a compatibility frame. -/
def extentLanes (f : PageFormat) (first count head : Nat) : List Nat :=
  if f.layout = 0 then granuleLanes f first count
  else
    let n := PageFormatT f * recordBytes f / 1024
    (List.range n).map (· + head * n)

/-- Location of a lane row (R123, R124). -/
def laneLoc (f : PageFormat) (frame : Nat × Nat) (j : Nat) : Loc :=
  decodeOffset (granuleOffset frame.2 + placeByte f (1024 * j))

/-- Records that lie in a lane row (R122, R124). -/
def laneRecs (f : PageFormat) (j : Nat) : List (Nat × Nat) :=
  let k := 1024 / recordBytes f
  (List.range k).map (fun i => ((j * k + i) / PageFormatT f, (j * k + i) % PageFormatT f))

/-- Add a lane row to the loads of its unit. -/
def addLane (f : PageFormat) (frame : Nat × Nat) (us : List UnitLoad) (j : Nat) : List UnitLoad :=
  let l := laneLoc f frame j
  let put (u : UnitLoad) : UnitLoad :=
    { u with even := u.even + (if l.bank % 2 = 0 then 1024 else 0), odd := u.odd + (if l.bank % 2 = 0 then 0 else 1024),
             recs := u.recs ++ laneRecs f j }
  if us.any (fun u => u.die = l.die && u.unit = l.unit) then
    us.map (fun u => if u.die = l.die ∧ u.unit = l.unit then put u else u)
  else us ++ [put { die := l.die, unit := l.unit, pc := l.pc }]

/-- The loads of a window's units. -/
def unitLoads (f : PageFormat) (frame : Nat × Nat) (lanes : List Nat) : List UnitLoad := lanes.foldl (addLane f frame) []

/-- A page group (R129): its die and head, its members from the highest unit down; the lead is the last. -/
structure PageGroup where
  die : Nat := 0
  head : Nat := 0
  members : List UnitLoad := []
deriving DecidableEq, Repr

/-- The heads a unit holds records of. -/
def UnitLoad.heads (u : UnitLoad) : List Nat := (u.recs.map Prod.fst).eraseDups

/-- The page groups of a window. -/
def pageGroups (us : List UnitLoad) : List PageGroup :=
  ((us.flatMap (fun u => u.heads.map (fun h => (u.die, h)))).eraseDups).map (fun x =>
    { die := x.1, head := x.2,
      members := sortBy (fun (a b : UnitLoad) => decide (b.unit < a.unit)) (us.filter (fun u => u.die = x.1 && u.heads.contains x.2)) })

/-- The lead of a group: its lowest-numbered unit (R129). -/
def PageGroup.lead (g : PageGroup) : Nat := (g.members.getLast?.map UnitLoad.unit).getD 0

/-- The highest member of a group. -/
def PageGroup.top (g : PageGroup) : Nat := (g.members.head?.map UnitLoad.unit).getD 0

/-- The largest of a list of numbers. -/
def maxNat (l : List Nat) : Nat := l.foldl max 0

/-- Bytes that a window loads into the query buffer of a pseudo-channel (R121): configuration, query rows and mask bits. -/
def pcBytes (f : PageFormat) (queryFormat rows : Nat) (us : List UnitLoad) (pc : Nat) : Nat :=
  let hs := ((us.filter (fun u => u.pc = pc)).flatMap UnitLoad.heads).eraseDups
  if hs.isEmpty then 0
  else 64 + hs.length * rows * (PageFormatD f * (if queryFormat = 0 then 2 else 1) + PageFormatT f / 8)

/-- B of R126: the largest byte count for one pseudo-channel. -/
def loadBytes (f : PageFormat) (queryFormat rows : Nat) (us : List UnitLoad) : Nat :=
  maxNat (((us.map UnitLoad.pc).eraseDups).map (pcBytes f queryFormat rows us))

/-- t_S of R128, in tenths of a nanosecond. -/
def streamTenths (f : PageFormat) (rows : Nat) (us : List UnitLoad) : Nat :=
  let read := maxNat (us.map (fun u => if f.layout = 0 then max u.even u.odd / 4 else (u.even + u.odd) / 4))
  let comp := maxNat (us.map (fun u => u.recs.length * rows * (PageFormatD f / 16)))
  20 * max read comp + 160

/-- Triples that cross the link below a unit position: a group's triples for each of its rows (R128, R137). -/
def linkLoad (rows : Nat) (gs : List PageGroup) (die link : Nat) : Nat :=
  (gs.filter (fun g => g.die = die && g.lead ≤ link && link < g.top)).length * rows

/-- t_C of R128, in tenths of a nanosecond. -/
def chordTenths (f : PageFormat) (rows : Nat) (gs : List PageGroup) : Nat :=
  let span := maxNat (gs.map (fun g => g.top - g.lead + 1))
  let cross := maxNat (((gs.map PageGroup.die).eraseDups).flatMap (fun d => (List.range 127).map (linkLoad rows gs d)))
  20 * (span + cross * cdiv (16 + 4 * PageFormatD f) 32)

/-- t_R of R128, in tenths of a nanosecond. -/
def resultTenths (f : PageFormat) (rows : Nat) (gs : List PageGroup) : Nat :=
  let j := maxNat (gs.map (fun g => (gs.filter (fun x => x.die = g.die && x.lead = g.lead)).length * rows))
  20 * j * ((32 + 4 * PageFormatD f) / 8)

/-- W of R128, in tenths of a nanosecond. -/
def windowTenths (f : PageFormat) (queryFormat rows : Nat) (us : List UnitLoad) : Nat :=
  let gs := pageGroups us
  200 + cdiv (loadBytes f queryFormat rows us) 64 * 25 + 240 + streamTenths f rows us + chordTenths f rows gs +
    resultTenths f rows gs + 200

/-- `window_max` in force, in ns: clamped (R149), and at most 1,600 while the stack case is above 85 °C (R128). -/
def State.windowLimit (s : State) (n : Nat) : Nat :=
  let w := max 500 (min 2000 (s.nbu.getD n {}).windowMax)
  if 680 < s.pwr.caseTemps.getD n 0 then min w 1600 else w

/-- A window over some lane rows fits: in the length allowed, and in the query buffers of 8 KiB (R121, R129). -/
def lanesFit (f : PageFormat) (frame : Nat × Nat) (queryFormat limit rows : Nat) (lanes : List Nat) : Bool :=
  let us := unitLoads f frame lanes
  windowTenths f queryFormat rows us ≤ limit * 10 && loadBytes f queryFormat rows us ≤ 8192

/-- A window of an extent fits. -/
def windowFits (f : PageFormat) (frame : Nat × Nat) (queryFormat limit rows first count head : Nat) : Bool :=
  lanesFit f frame queryFormat limit rows (extentLanes f first count head)

/-- The work that a page gives its windows (R129): granules, or each head, with the request's rows per head. -/
def nearTodo (f : PageFormat) (rowsPerHead : Nat) : List (Nat × Nat × Nat × Nat) :=
  if f.layout = 0 then [(0, frameGranules f, 0, rowsPerHead)]
  else (List.range f.headsPerGroup).map (fun h => (h, 1, 0, rowsPerHead))

/-- The largest extent that fits from granule `a` on, of `n` granules left, in an even number of granules or to the end; in
compatibility layout the lane rows of head `a` (R129). -/
def extentFrom (f : PageFormat) (frame : Nat × Nat) (queryFormat limit rows a n : Nat) : Option Nat :=
  if f.layout = 0 then
    (((List.range n).map (fun i => n - i)).filter (fun c => c % 2 = 0 || c = n)).find?
      (fun c => windowFits f frame queryFormat limit rows a c 0)
  else if windowFits f frame queryFormat limit rows 0 0 a then some 1 else none

/-- The next window of a piece of work (R129): the largest number of rows per pass, at most `cap`, for which a window fits, and then
the largest extent that fits. (DESIGN CHOICE, log entry 66.) -/
def nextShape (f : PageFormat) (frame : Nat × Nat) (queryFormat limit cap : Nat) (x : Nat × Nat × Nat × Nat) : Option WinShape :=
  ([4, 3, 2, 1].filter (fun r => r ≤ cap && r ≤ x.2.2.2)).findSome? (fun r =>
    (extentFrom f frame queryFormat limit r x.1 x.2.1).map (fun c =>
      if f.layout = 0 then { firstRow := x.2.2.1, rows := r, firstGranule := x.1, granules := c, head := 0 }
      else { firstRow := x.2.2.1, rows := r, firstGranule := 0, granules := 0, head := x.1 }))

/-- What is left of a piece of work after a window: its further rows over the same extent, then the granules after it. -/
def restOf (x : Nat × Nat × Nat × Nat) (w : WinShape) : List (Nat × Nat × Nat × Nat) :=
  let c := if w.granules = 0 then x.2.1 else w.granules
  (if w.rows < x.2.2.2 then [(x.1, c, x.2.2.1 + w.rows, x.2.2.2 - w.rows)] else []) ++
    (if c < x.2.1 then [(x.1 + c, x.2.1 - c, x.2.2.1, x.2.2.2)] else [])

/-- Bank pairs (stack-wide unit numbers) of a frame's granules: both banks of every pair, in every pseudo-channel of the SID,
that holds a granule (R126). -/
def granulePairs (frame : Nat × Nat) (gs : List Nat) : List Nat :=
  (gs.flatMap (fun g =>
    let l := decodeOffset (granuleOffset (frame.2 + g))
    (List.range 64).map (fun pc => (4 * l.sid + pc / 16) * 128 + pc % 16 * 8 + l.bank / 2))).eraseDups

/-- Bank pairs that hold a frame's records (R125). -/
def framePairs (f : PageFormat) (frame : Nat × Nat) : List Nat :=
  ((List.range (frameBytes f / 1024)).map (fun j => let l := laneLoc f frame j; l.die * 128 + l.unit)).eraseDups

/-- Granules of an extent, within the frame. -/
def extentGranules (f : PageFormat) (first count head : Nat) : List Nat := ((extentLanes f first count head).map (laneGranule f)).eraseDups

/-- A pair has a working unit (R125, R147): the unit is not retired, or a spare stands for it. -/
def NbRegion.pairWorks (r : NbRegion) (pair : Nat) : Bool := !r.retiredUnits.contains (pair / 128, pair % 128)

/-- The record size is a power of two from 32 to 1,024 bytes (R125). -/
def recordOk (f : PageFormat) : Bool := [32, 64, 128, 256, 512, 1024].contains (recordBytes f)

/-- Formats and dimension of R115. -/
def nbFormatOk (f : PageFormat) : Bool :=
  f.keyFormat ≤ 2 && (f.latent = 1 || f.valueFormat ≤ 2) && PageFormatD f ≤ 256 && recordOk f

/-- Windows may open in the region: `nb_enable` in effect (R149, R310, R311). -/
def State.nbOpen (s : State) (n : Nat) : Bool := (s.nbu.getD n {}).nbEnable && !s.sch.nbDraining.contains n

/-- A frame is eligible for the near-bank path (R115, R125): formats, region, working units at the pairs that hold its records, and
a window over one granule pair with one row per head fits. -/
def State.nbEligible (s : State) (f : PageFormat) (frame : Nat × Nat) (queryFormat : Nat) : Bool :=
  let n := frame.1
  nbFormatOk f && !s.stackFenced n && s.nbOpen n &&
  (framePairs f frame).all (fun p => (s.nbu.getD n {}).pairWorks p &&
    (s.unit (2 * 65536 + n * 2048 + p / 128 * 132 + p % 128)).state ≠ .retest) &&
  (List.range (cdiv (frameGranules f) 2)).all (fun i =>
    lanesFit f frame queryFormat (s.windowLimit n) 1 (granuleLanes f (2 * i) 2))

/-! ## Rows, columns and query buffers of a window (R121, R126) -/

/-- Granules of a stack in one bank, in ascending order. -/
def inBank (gs : List Nat) (bank : Nat) : List Nat :=
  sortBy (fun a b => decide (a < b)) (gs.filter (fun g => (decodeOffset (granuleOffset g)).bank = bank))

/-- The rows that the k-th NB-ACT of a window opens, as (bank, row, granule index within the frame): the k-th granule of each bank
(R126). -/
def actRows (base : Nat) (gs : List Nat) (k : Nat) : List (Nat × Nat × Nat) :=
  (List.range 16).filterMap (fun b => ((inBank gs b)[k]?).map (fun g => (b, (decodeOffset (granuleOffset g)).row, g - base)))

/-- Activations that a window makes in its fullest bank. -/
def actCount (gs : List Nat) : Nat := maxNat ((List.range 16).map (fun b => (inBank gs b).length))

/-- Column reads after the k-th NB-ACT: 32 for each open bank of the pair with most of them (R120, R126). -/
def actColumns (base : Nat) (gs : List Nat) (k : Nat) : Nat :=
  32 * maxNat ((List.range 8).map (fun p => ((actRows base gs k).filter (fun r => r.1 / 2 = p)).length))

/-- Column reads up to the k-th NB-ACT. -/
def columnsTo (base : Nat) (gs : List Nat) (k : Nat) : Nat := ((List.range k).map (actColumns base gs)).sum

/-- Column reads of a window. -/
def NbWin.total (w : NbWin) : Nat := columnsTo w.src.frame.2 w.granules (actCount w.granules)

/-- The unit loads of a window. -/
def NbWin.loads (w : NbWin) : List UnitLoad :=
  unitLoads w.src.format w.src.frame (extentLanes w.src.format w.shape.firstGranule w.shape.granules w.shape.head)

/-- Rows within the head that a window serves. -/
def NbWin.rowList (w : NbWin) : List Nat := (List.range w.shape.rows).map (· + w.shape.firstRow)

/-- Keys of a row that a window's page holds (R104, R136). -/
def NbWin.keys (w : NbWin) (h i : Nat) : List Nat :=
  rowKeys (PageFormatT w.src.format) w.params.posStart w.params.posCount w.params.rowsPerHead w.params.mask w.src h i

/-- What NB-LOAD writes into the query buffer of a pseudo-channel (R121): configuration, and query rows and mask bits of every head
whose records lie there. -/
def NbWin.buffer (w : NbWin) (pc : Nat) : QueryBuf :=
  let hs := ((w.loads.filter (fun u => u.pc = pc)).flatMap UnitLoad.heads).eraseDups
  let hr := hs.flatMap (fun h => w.rowList.map (fun i => (h, i)))
  { stamp := w.stamp, tau := w.params.tau, scale := w.params.scale, format := w.params.queryFormat
    keyScale := w.src.keyScale, valueScale := w.src.valueScale
    rows := hr.map (fun x => (x, w.params.query.getD (x.1 * w.params.rowsPerHead + x.2) []))
    mask := hr.map (fun x => (x, (List.range (PageFormatT w.src.format)).map (w.keys x.1 x.2).contains)) }

/-- A query row of a buffer. -/
def QueryBuf.query (b : QueryBuf) (h i : Nat) : List Num := queryVec b.format (((b.rows.find? (fun x => x.1 = (h, i))).map Prod.snd).getD [])

/-- Positions whose mask bit is set. -/
def QueryBuf.keys (b : QueryBuf) (h i : Nat) : List Nat :=
  let m := ((b.mask.find? (fun x => x.1 = (h, i))).map Prod.snd).getD []
  (List.range m.length).filter (fun k => m.getD k false)

/-! ## Triples of units and groups (R136 to R138) -/

/-- The triple of one unit for a row: its records of the head in unit tiles of up to 32, masked records at −∞ (R136). -/
def State.unitTriple (s : State) (idx : List Nat) (tau : Nat) (c : Num) (p : PageSrc) (q : List Num) (h : Nat)
    (keys : List Nat) (u : UnitLoad) : Triple :=
  let ps := (u.recs.filter (fun r => r.1 = h)).map Prod.snd
  (chunks 32 ps.length ps).foldl (fun t ks =>
    let ti := s.tileIn (idx ++ [u.die, u.unit, ks.headD 0]) c p q h (ks.filter keys.contains)
    tileUpdate (s.order ti.idx) tau ti.wscale true ti.ss ti.vs t) (.empty (PageFormatD p.format))

/-- The Chord reduction of a group toward its lead (R137). -/
def chordReduce (d : Nat) (l : List Triple) : Triple :=
  match l with
  | [] => .empty d
  | t :: ts => ts.foldl mergeTriple t

/-! ## Result slots (R140) -/

/-- Node address of byte `y` of slot `k` of a bank pair: row 32,752 + k, bytes 0 to 1,023 in the even bank and the rest in the odd
one (R58, R140). -/
def slotAddr (n pair k y : Nat) : Nat :=
  nodeAddr n (encodeOffset { sid := pair / 512, pc := pair / 8 % 64, bank := pair % 8 * 2 + y / 1024 % 2, row := 32752 + k
                             seg := y % 1024 / 256, byte := y % 256 })

/-- A lead writes a record into its slot, straight to the banks it stands in (R127, R140). -/
def State.writeSlot (n pair k : Nat) (b : List Byte) (s : State) : State :=
  (b.zipIdx).foldl (fun s x => s.bankWrite (slotAddr n pair k x.2) x.1) s

/-- The bytes of a slot. -/
def State.slotBytes (s : State) (n pair k len : Nat) : List Byte := (List.range len).map (fun y => s.memRead (slotAddr n pair k y))

/-! ## Refresh (R130) -/

/-- Refresh interval of a stack in ns (R130): 3.9 µs, or 1.95 µs above 85 °C. -/
def State.refreshNs (s : State) (n : Nat) : Nat := if 680 < s.pwr.caseTemps.getD n 0 then 1950 else 3900

/-- Region clocks follow the chip's state once no window is active in the region (R148, R374). -/
def State.syncRegionClk (n : Nat) (s : State) : State :=
  if (s.nbu.getD n {}).wins.any (fun w => w.2.active) then s
  else s.onPwr (fun p => { p with regionClk := p.regionClk.set n p.blockClk })

end Sys2Proof.Machine
end

