-- ==== Sys2Proof/Machine/Cells.lean ====
section
/-! DEFINITION. The commands of cells and blocks, and of the checks that run beside them: TILE_PLACE, TILE_PRODUCT, TILE_RETRY, CELL_SLOT_MOVE (R22, R25, R27, R28), REGION_REREAD
(R31, R357), AUDIT_DUPLICATE, SENTINEL_RUN, RETEST_COMPLETE and PATROL_SCRUB (R30, R350 to R352). -/

namespace Sys2Proof.Machine

/-! ## Tiles (R21, R22, R25 to R28) -/

/-- The tile groups of work of `t.rows` rows and `t.cols` columns: at most 32 rows each, one per 256 output columns (R20, R21), and
one chain per 256 tiles (R79). -/
def splitGroup (t : TileGroup) : List TileGroup :=
  let nc := cdiv t.cols 256
  let nt := max 1 (cdiv t.tiles.length 256)
  (List.range (cdiv t.rows 32)).flatMap (fun i => (List.range nc).flatMap (fun j => (List.range nt).map (fun k =>
    { t with
      part := (i * nc + j) * nt + k
      chain := i * nt + k
      rows := min 32 (t.rows - 32 * i)
      members := (t.members.drop (32 * i)).take 32
      query := (t.query.drop (32 * i)).take 32
      cols := min 256 (t.cols - 256 * j)
      col0 := t.col0 + 256 * j
      tiles := ((t.tiles.drop (256 * k)).take 256).map (fun x => { x with
        keySet := (x.keySet.drop (32 * i)).take 32
        staged := x.staged.map (fun w => ((w.1.drop (32 * i)).take 32, w.2.map (fun r => (r.drop (256 * j)).take 256))) }) })))

/-- A ready tile reaches its block (R25, R315); a stopped block holds it until it runs again (R36). -/
def State.placeTile (b : Nat) (t : TileGroup) (s : State) : State :=
  if (s.blocksOf t.slice).contains b then
    (s.bump.onBlock b (fun x => { x with
      ready := x.ready ++ splitGroup { t with seed := s.free }
      vector := x.vector.filter (fun v => v.1.id ≠ t.id) })).placeReady b
  else s

/-- TILE_PLACE. -/
def execTilePlace (block : Fin 32) (t : TileGroup) (s : State) : Host.Outcome State Fault Refusal :=
  .next (s.whenUp (State.placeTile block t))

/-- A cell whose live group has ended is offered to other work (R316). -/
def State.offer (b p : Nat) (s : State) : State :=
  if ((s.block b).cell p).live.isNone then s.freed b p else s

/-- A cell completes a tile product (R22): its operands are there (R24), the product is checked and taken, or discarded and reported
to the block's arbiter (R27). The vector unit then turns to the next slot (R25). (DEDUCED, log entry 64.) -/
def State.tileDone (b slot : Nat) (x : ArrayFault) (s : State) : State :=
  match (s.block b).slots.getD slot none with
  | none => s
  | some p =>
    let s := s.portFirst b p
    let c := (s.block b).cell p
    match c.live with
    | none => s
    | some a =>
      match a.step with
      | none => (s.goOn b p).offer b p
      | some t =>
        if a.faulty then s
        else match s.runProduct a t c.vec.isEmpty c.bufA c.bufB x with
          | .ok m => ((s.onBlock b (fun y => { y with vectorNext := (slot + 1) % 4 })).takeProduct b p a t m).offer b p
          | .error d => (s.onCell b p (fun c => { c with live := some { a with faulty := true } })).onBlock b (fun y => { y with
              retries := y.retries ++ [{ id := a.tg.id, part := a.tg.part, slice := a.tg.slice, cls := a.tg.cls,
                                         failedSlot := slot, detector := d, work := workClass a t c.vec.isEmpty,
                                         addr := match a.src with
                                           | some src => (tileAddrs src.2 a.tg.head t.tile (!c.vec.isEmpty)).headD 0
                                           | none => 0 }] })

/-- TILE_PRODUCT. -/
def execTileProduct (block : Fin 32) (slot : Fin 4) (x : ArrayFault) (s : State) : Host.Outcome State Fault Refusal :=
  .next (s.whenUp (fun s => if s.blockUp block then s.tileDone block slot x else s))

/-- The cell that a retry goes to (R27): the first other working cell that is free; the same cell where there is no other; none
while the others are busy. (DESIGN CHOICE, log entry 38.) -/
def State.retryCell (s : State) (b : Nat) (r : Retry) : Option (Nat × Nat) :=
  let ws := s.workingPos b
  let others := ws.filter (fun x => x.1 ≠ r.failedSlot)
  if others.isEmpty then (List.range 4).findSome? (fun i => if i = r.failedSlot then ((s.block b).slots.getD i none).map (fun p => (i, p)) else none)
  else others.find? (fun x => s.cellFree b x.2 r.cls)

/-- A tile leaves its group's range where it fails again after a clean re-read (R31): the manual gives no third run; the page
contributes nothing to the group. (DEDUCED, log entry 64.) -/
def State.giveUpTile (r : Retry) (s : State) : State :=
  s.onAccums (fun a => a.tg.id = r.id && a.tg.part = r.part)
    (fun a => match a.step with
      | some t => if t.staged.isSome then { a with at_ := a.at_ + 1, faulty := false } else (a.dropPage t.page)
      | none => a)

/-- What a retry of a cell's next product gives (R27), once its operands have been fetched afresh. -/
def State.retryProduct (s : State) (h : Nat × Nat) (f : ArrayFault) : Option (Accum × TileStep × Except Nat (List (List Nat))) :=
  let c := (s.block h.1).cell h.2
  match c.live with
  | none => none
  | some a => a.step.map (fun t => (a, t, s.runProduct a t c.vec.isEmpty c.bufA c.bufB f))

/-- A faulty tile runs again (R27, R349). -/
def State.tileAgain (b : Nat) (f : ArrayFault) (s : State) : State :=
  match (s.block b).retries with
  | [] => s
  | r :: rest =>
    match s.retryCell b r with
    | none => s
    | some x =>
      let s := s.onBlock b (fun y => { y with retries := rest })
      match s.homeOf r.id r.part with
      | none => s
      | some h =>
        let n : Fin 128 := Fin.ofNat 128 (cellKey b r.failedSlot)
        let s := s.fillCell h.1 h.2
        match s.retryProduct h f with
        | none => s
        | some (a, t, .ok m) =>
          let s := (s.takeProduct h.1 h.2 a t m).offer h.1 h.2
          if r.reread then s
          else if x.1 ≠ r.failedSlot then s.detect (.cell n) r.detector r.work r.slice 0
          else s.onRas (fun y => { y with transient := inc32 y.transient })
        | some (_, _, .error _) =>
          if r.reread then s.giveUpTile r
          else
            let s := s.onBlock b (fun y => { y with faulted := y.faulted ++ [r] })
            if x.1 = r.failedSlot then
              (((s.logDetection b r.detector 0 r.work n (s.temp b) s.pwr.vdd 1 r.slice 0).onRas
                (fun y => { y with lasting := inc16 y.lasting })).retireOf (.cell n))
            else s

/-- TILE_RETRY. -/
def execTileRetry (block : Fin 32) (x : ArrayFault) (s : State) : Host.Outcome State Fault Refusal :=
  .next (s.whenUp (fun s => if s.blockUp block then s.tileAgain block x else s))

/-! ## Operand faults and SRAM lines (R31, R357) -/

/-- An uncorrectable SRAM line (R348, R357): logged; withdrawn where it was refilled before. (DEDUCED, log entry 72.) -/
def State.lineBad (n a : Nat) (s : State) : State :=
  let s := s.logDetection (32 + n) 6 3 0 (n * 8192 + sramLine a) (s.temp (32 + n)) s.pwr.vdd 4 0xff a
  let k := (n, sramLine a)
  if s.ras.sramWithdrawn.contains k then s
  else if s.ras.sramRefilled.contains k then
    (s.onRas (fun r => { r with sramWithdrawn := r.sramWithdrawn ++ [k] })).onEng
      (fun e => { e with lines := e.lines.filter (· ≠ a / 4096 * 4096) })
  else s.onRas (fun r => { r with sramRefilled := r.sramRefilled ++ [k] })

/-- The line is invalidated and filled again from the stack (R31); a withdrawn line is never filled (R357). -/
def State.refillLine (n a : Nat) (s : State) : State :=
  s.onEng (fun e =>
    let l := e.lines.filter (· ≠ a / 4096 * 4096)
    { e with lines := if s.ras.sramWithdrawn.contains (n, sramLine a) || s.lineBarred a then l else (a / 4096 * 4096) :: l })

/-- The tile handed up as an operand fault whose operands begin in the line of an address, and its block: of the region's own
blocks, or of a block elsewhere that reads the region's stack through the Lattice (R30, R31). -/
def State.faultedAt (s : State) (a : Nat) : Option (Nat × Retry) :=
  (List.range 32).findSome? (fun b => ((s.block b).faulted.find? (fun r => r.addr / 4096 = a / 4096)).map (fun r => (b, r)))

/-- The stack address of a page-buffer tag: where the frame that covers it places that logical byte (R123). -/
def State.placed (s : State) (a : Nat) : Nat :=
  match s.pageAt a with
  | some e => frameAddr (s.format e.slice) e.stackFrame (a - frameTag e.stackFrame 0)
  | none => a

/-- The stack copy of an operand is uncorrectable (R31, R92): the page is poisoned, and the chains of the tile's group restart
without it. -/
def State.poisonTile (r : Retry) (a : Nat) (s : State) : State :=
  let n := (s.homeOf r.id r.part).bind (fun h => ((s.block h.1).cell h.2).live.bind (fun x => x.src.map Prod.fst))
  let s := s.uncorrectable (s.placed a)
  match n with
  | none => s
  | some n => s.onAccums (fun x => x.tg.id = r.id) (Accum.dropPage n)

/-- What the region's re-read of an operand fault, or of an uncorrectable SRAM line, finds in the stack (R31). -/
def State.refilled (n a : Nat) (clean : Bool) (s : State) : State :=
  if !pageSpace a || s.stackFenced (addrStack a) then s
  else
    match s.faultedAt a with
    | some x =>
      let s := s.onBlock x.1 (fun y => { y with faulted := y.faulted.erase x.2 })
      if clean then (s.refillLine n a).onBlock x.1 (fun y => { y with retries := y.retries ++ [{ x.2 with reread := true }] })
      else s.poisonTile x.2 a
    | none =>
      let s := s.lineBad n a
      if clean then s.refillLine n a else s.uncorrectable (s.placed a)

/-- The region re-reads from the stack with the first claim on the bank (R30, R31); a read that meets a window waits (R133). -/
def State.reread (n a : Nat) (clean : Bool) (s : State) : State :=
  if !pageSpace a || s.stackFenced (addrStack a) then s
  else
    let s := s.takeSlot n 1 (sramBank a)
    let x := s.placed a
    if s.collides x then s.onNbu (addrStack x) (NbRegion.enqueue { pair := addrPair x, addr := a, len := 256, job := .refill clean })
    else s.refilled n a clean

/-- REGION_REREAD. -/
def execRegionReread (region : Fin 8) (addr : Nat) (clean : Bool) (s : State) : Host.Outcome State Fault Refusal :=
  .next (s.whenUp (State.reread region addr clean))

/-! ## Retired cells (R28) -/

/-- The position of a slot whose cell is being retired, once its live group has finished or faulted. -/
def State.moving (s : State) (b i : Nat) : Option Nat :=
  match (s.block b).slots.getD i none with
  | none => none
  | some p => if ((s.block b).cell p).retiring && ((s.block b).cell p).live.all Accum.faulty then some p else none

/-- Slot `i` of a block is held at the spare position by a cell in RETEST (R352, R369). -/
def State.lentSlot (s : State) (b : Nat) : Option Nat :=
  if (s.block b).spareUsed then none else (List.range 4).find? (fun i => (s.block b).slots.getD i none = some 4)

/-- A slot lent to position 4 goes back to its own position (R369). -/
def State.returnLent (b : Nat) (s : State) : State :=
  match s.lentSlot b with
  | none => s
  | some i =>
    if ((s.block b).cell 4).live.isNone && ((s.block b).cell 4).shadow.isNone then
      s.onBlock b (fun x => { x with slots := x.slots.set i (some i) })
    else s

/-- A faulted group on a retired cell moves with its slot (R28): to the spare position, or where there is none to another cell of
the slice, where its chain restarts from the first tile (R356). (DEDUCED, log entry 64.) -/
def State.moveFaulted (b p : Nat) (spare : Bool) (s : State) : State :=
  let c := (s.block b).cell p
  match c.live with
  | none => s
  | some a =>
    let s := s.onCell b p (fun c => { c with live := none, vec := [], need := false })
    if spare then s.onCell b 4 (fun y => { y with live := some a, vec := c.vec, bufA := c.bufA, bufB := c.bufB, need := c.need })
    else
      let s := s.onBlock b (fun x => { x with
        retries := x.retries.filter (fun r => !(r.id = a.tg.id && r.part = a.tg.part))
        faulted := x.faulted.filter (fun r => !(r.id = a.tg.id && r.part = a.tg.part)) })
      match s.chooseBlock a.tg.slice (b / 4) a.tg.cls with
      | some k => s.onBlock k (fun x => { x with ready := x.ready ++ [a.tg] })
      | none => s

/-- The slot of a retired cell moves to the spare position, or is lost where the spare is in use (R28, R355, R356). -/
def State.moveSlot (b i p : Nat) (s : State) : State :=
  let s := s.spillShadow b p
  if ((s.block b).cell p).shadow.isSome then s
  else
    let s := if (s.block b).slots.getD i none = some 4 then s else s.returnLent b
    let x := s.block b
    if x.spareUsed then
      let s := s.onBlock b (fun x => { x with slots := x.slots.set i none, cells := x.cells.modify p (fun c => { c with retiring := false }) })
      let s := s.moveFaulted b p false
      if s.noCell b then s.withdrawBlock b else s.placeReady b
    else if x.slots.contains (some 4) then s
    else
      (((s.onBlock b (fun x => { x with
        slots := x.slots.set i (some 4)
        spareUsed := true
        cells := x.cells.modify p (fun c => { c with retiring := false }) })).moveFaulted b p true).onUnit (.cell (Fin.ofNat 128 (cellKey b i)))
          (fun _ => {})).placeReady b

/-- Move the slot of the first cell that waits to be retired and is idle. -/
def State.moveSlots (b : Nat) (s : State) : State :=
  match (List.range 4).findSome? (fun i => (s.moving b i).map (fun p => (i, p))) with
  | none => s
  | some x => s.moveSlot b x.1 x.2

/-- CELL_SLOT_MOVE. -/
def execCellSlotMove (block : Fin 32) (s : State) : Host.Outcome State Fault Refusal :=
  .next (s.whenUp (State.moveSlots block))

/-! ## Duplication, sentinels, retests, scrubbing (R30, R350 to R352) -/

/-- The slice a block works for: that of its first live group. (DEDUCED, log entry 72.) -/
def State.blockSlice (s : State) (b : Nat) : Nat :=
  match (s.block b).groups with
  | t :: _ => t.slice
  | [] => 0xff

/-- A detection against a vector unit (R350). -/
def State.detectVector (b : Nat) (slice : Nat) (s : State) : State :=
  s.detect (.vector (Fin.ofNat 32 b)) 2 7 slice 0

/-- A duplicated tile update that does not agree (R350): the odd one out of three, or all of them. (DEDUCED, log entry 72.) -/
def State.auditTile (b : Nat) (first second third : List Nat) (b2 b3 : Nat) (s : State) : State :=
  if first = second then s
  else
    let sl := s.blockSlice b
    let s := s.onRas (fun r => { r with dupMismatches := inc32 r.dupMismatches })
    if first = third then s.detectVector b2 sl
    else if second = third then s.detectVector b sl
    else
      let s := [b, b2, b3].eraseDups.foldl (fun s x => s.detectVector x sl) s
      match (List.range 4).findSome? (fun i => ((s.block b).slots.getD i none).bind (fun p =>
        (((s.block b).cell p).live).map (fun a => (i, p, a)))) with
      | none => s
      | some (i, p, a) =>
        (s.onCell b p (fun c => { c with live := some { a with faulty := true } })).onBlock b (fun y => { y with
          faulted := y.faulted ++ [{ id := a.tg.id, part := a.tg.part, slice := a.tg.slice, cls := a.tg.cls, failedSlot := i, detector := 2, work := 7
                                     addr := match a.step, a.src with
                                       | some t, some src => frameTag src.2.frame (tileOffset src.2 a.tg.head t.tile false)
                                       | _, _ => 0 }] })

/-- A duplicated page group that does not agree: the cell result is used and every member is retested (R350). -/
def State.auditGroup (members : List UnitId) (agree : Bool) (s : State) : State :=
  if agree then s
  else members.foldl (fun s u => s.detect u 2 6 0xff 0) (s.onRas (fun r => { r with dupMismatches := inc32 r.dupMismatches }))

/-- AUDIT_DUPLICATE. -/
def execAuditDuplicate (block : Fin 32) (first second third : List Nat) (secondBlock thirdBlock : Fin 32)
    (group : Option (List UnitId × Bool)) (s : State) : Host.Outcome State Fault Refusal :=
  .next (s.whenUp (fun s => match group with
    | some g => s.auditGroup g.1 g.2
    | none => s.auditTile block first second third secondBlock thirdBlock))

/-- The unit is a cell whose block's spare position is in use (R351). -/
def State.spareBusy (s : State) (u : UnitId) : Bool :=
  match u with
  | .cell n => (s.block (n / 4)).spareUsed
  | _ => false

/-- A unit's sentinel ends (R351): a wrong answer is a detection; a late one is counted where it may run in idle time only. -/
def State.sentinel (u : UnitId) (pass late : Bool) (temp volt : Nat) (s : State) : State :=
  if (s.unit (unitKey u)).state = .retired then s
  else
    let s := if late && s.spareBusy u then s.onRas (fun r => { r with sentinelLate := inc32 r.sentinelLate }) else s
    if pass then s else s.detectAt u 3 0 0xff 0 temp volt

/-- The unit's island is stopped (R36). (DEDUCED, log entry 65.) -/
def State.unitStopped (s : State) (u : UnitId) : Bool :=
  match u with
  | .nbu _ _ _ => s.aon.stopped.contains (unitIsland u)
  | _ => !s.blockUp (unitIsland u)

/-- The write port of the position at which a cell runs a sentinel problem serves a gather fill that waits first (R26). -/
def State.portOf (u : UnitId) (s : State) : State :=
  match u with
  | .cell n => match (s.block (n / 4)).slots.getD (n % 4) none with
    | some p => s.portFirst (n / 4) p
    | none => s
  | _ => s

/-- SENTINEL_RUN: not while the unit's island is stopped (R36). -/
def execSentinelRun (u : UnitId) (pass late : Bool) (temp volt : Nat) (s : State) : Host.Outcome State Fault Refusal :=
  .next (s.whenUp (fun s => if s.unitStopped u then s else (s.portOf u).sentinel u pass late temp volt))

/-- RETEST_COMPLETE (R352): not while the unit's island is stopped, which completes nothing (R36, R369). -/
def execRetestComplete (u : UnitId) (pass : Bool) (s : State) : Host.Outcome State Fault Refusal :=
  .next (s.whenUp (fun s => if s.unitStopped u then s else s.classify u pass))

/-- What a patrol-scrub read finds (R357). -/
def State.scrubbed (x : Nat) (corrected uncorrectable : Bool) (s : State) : State :=
  if uncorrectable then s.uncorrectable x else if corrected then s.rowCorrected x else s

/-- A patrol-scrub read (R30, R31, R357); one that meets a window waits in the collision queue (R133). -/
def State.scrub (n a : Nat) (corrected uncorrectable : Bool) (s : State) : State :=
  let x := nodeAddr n (a % 2 ^ 37)
  if s.stackFenced n || !implementedOffset (addrOffset x) then s
  else
    let s := s.takeStack 5 x
    if s.collides x then s.collide x 32 (.scrub corrected uncorrectable)
    else s.scrubbed x corrected uncorrectable

/-- PATROL_SCRUB. -/
def execPatrolScrub (stack : Fin 8) (addr : Nat) (corrected uncorrectable : Bool) (s : State) :
    Host.Outcome State Fault Refusal := .next (s.whenUp (State.scrub stack addr corrected uncorrectable))

end Sys2Proof.Machine
end

