-- ==== Sys2Proof/Machine/Attend.lean ====
section
/-! DEFINITION. ATTEND_FWD: admission, resolution of the range (R64, R67, R108), bounded-mode skipping (R110 to R113), the path
of a page (R114 to R117), its contribution to each row (R74 to R82), waits and deadline decisions (R224, R235, R236, R321,
R463), and the response (R88, R89). -/

namespace Sys2Proof.Machine

/-! ## The page buffer (R226) -/

/-- Lines of a frame that hold the keys and values of a head, in logical order (R47, R123, R226). -/
def headLines (src : PageSrc) (h : Nat) : List Nat :=
  let n := PageFormatT src.format / 32
  tagLines src.frame (tileOffset src h 0 false) (n * tileBytes src false) ++
    (if src.format.latent = 1 then [] else tagLines src.frame (tileOffset src h 0 true) (n * tileBytes src true))

/-- The 256-byte segments of stack memory that hold a head's records (R123). -/
def headSegments (src : PageSrc) (h : Nat) : List Nat :=
  let f := src.format
  let z := PageFormatT f * recordBytes f
  let j0 := h * z / 1024
  let j1 := ((h + 1) * z - 1) / 1024
  (List.range (j1 + 1 - j0)).flatMap (fun j => (List.range 4).map (fun w =>
    nodeAddr src.frame.1 (granuleOffset src.frame.2 + placeByte f ((j0 + j) * 1024 + w * 256))))

/-- Cell operand fetches read the heads of a frame that some row uses (R111): their lines come into the owning region's page
buffer, and reads that meet a window wait (R133). -/
def State.touchFrame (src : PageSrc) (heads : List Nat) (s : State) : State :=
  ((heads.flatMap (headLines src)).foldl (fun s a => s.touchLine a) s).busReads (heads.flatMap (headSegments src))

/-! ## Rows and chains -/

/-- A row while a request's pages are computed: the triples that the vector unit has, the open chain and its tiles (R79). -/
structure RowAcc where
  closed : List Triple := []
  cur : Triple := {}
  tiles : Nat := 0
deriving DecidableEq, Repr

/-- The empty row of `d` columns. -/
def RowAcc.start (d : Nat) : RowAcc := { cur := .empty d }

/-- A chain ends where it has 256 tiles (R79), and elsewhere where placement cuts it, which the manual leaves open (R91). -/
def State.cutHere (s : State) (idx : List Nat) : Bool := Config.freeValue Site.cuts s.free (mixIdx idx) % 2 = 1

/-- A tile enters a row's chain (R78, R79). -/
def State.rowTile (s : State) (tau d : Nat) (a : RowAcc) (t : TileIn) : RowAcc :=
  let x := tileUpdate (s.order t.idx) tau t.wscale false t.ss t.vs a.cur
  if a.tiles + 1 = 256 ∨ s.cutHere t.idx then { closed := a.closed ++ [x], cur := .empty d, tiles := 0 }
  else { a with cur := x, tiles := a.tiles + 1 }

/-- Take the elements of a list in a free order. -/
def shuffle {α : Type} (pick : Nat → Nat) : Nat → List α → List α
  | 0, l => l
  | n + 1, l =>
    match l[pick n % max 1 l.length]? with
    | none => l
    | some x => x :: shuffle pick n (l.eraseIdx (pick n % max 1 l.length))

/-- The row's triple: chains, page groups and earlier triples merged in a tree, in an order that the manual leaves open (R82,
R90, R91). -/
def State.rowMerge (s : State) (idx : List Nat) (d : Nat) (old : Triple) (a : RowAcc) : Triple :=
  let l := old :: a.closed ++ [a.cur]
  mergeTree d (shuffle (s.order (idx ++ [7])) l.length l)

/-- Keys of a page that a row uses. -/
def pageKeys (p : FwdParams) (src : PageSrc) (rho : Nat) : List Nat :=
  rowKeys (PageFormatT src.format) p.posStart p.posCount p.rowsPerHead p.mask src (rho / p.rowsPerHead) (rho % p.rowsPerHead)

/-- What a page contributes to a row on cells (R74, R78, R93, R98). -/
def State.rowPage (s : State) (r : Nat) (p : FwdParams) (src : PageSrc) (rho : Nat) (a : RowAcc) : RowAcc :=
  let q := queryVec p.queryFormat (p.query.getD rho [])
  let keys := pageKeys p src rho
  if keys.isEmpty then a
  else
    let a := if src.fallback then { a with cur := { a.cur with fallback := true } } else a
    (s.cellTiles [r, src.block, rho] (scoreConst p.scale) src q (rho / p.rowsPerHead) keys).foldl
      (s.rowTile p.tau (PageFormatD src.format)) a

/-- What a page contributes to every row that does not skip it. -/
def State.rowsPage (s : State) (r : Nat) (p : FwdParams) (src : PageSrc) (skip : List Nat) (rows : List RowAcc) : List RowAcc :=
  (rows.zipIdx).map (fun x => if skip.contains x.2 then x.1 else s.rowPage r p src x.2 x.1)

/-! ## The path of a page (R114 to R117) -/

/-- r_tot of R116: the request's rows per head, and those of requests whose landed pages wait for the same frame. -/
def State.rowsWaiting (s : State) (r slice : Nat) (n : PageName) (own : Nat) : Nat :=
  own + ((s.eng.ctxs.filter (fun c => c.2.slice = slice && c.2.name = n && c.2.slotState = 1 && c.2.req ≠ r &&
      (s.entry slice n).any (fun e => e.frameGen = c.2.frameGen))).map (fun c =>
    match s.reqs.get? c.2.req with
    | some q => (match q.kind with
      | .attend p _ _ _ _ => p.rowsPerHead
      | _ => 0)
    | none => 0)).sum

/-- A page goes to the near-bank units (R115, R116, R129). -/
def State.pathOf (s : State) (tot phase slice : Nat) (p : FwdParams) (e : Entry) : Bool :=
  let f := s.format slice
  (phase = 2 || (phase = 0 && tot ≤ 4)) && s.nbEligible f e.stackFrame p.queryFormat &&
    (nearTodo f p.rowsPerHead).all (fun x =>
      (nextShape f e.stackFrame p.queryFormat (s.windowLimit e.stackFrame.1) 1 x).isSome)

/-- A page takes its place, in dispatch order, among those that the region's sequencer has to run windows for (R129, R131). -/
def State.sendNear (r idx slice rowsPerHead : Nat) (n : PageName) (src : PageSrc) (skip : List Nat) (s : State) : State :=
  let q := s.quarterOf slice n.handle
  s.onNbu src.frame.1 (fun x => { x with near := x.near ++ [{
    req := r, page := idx, slice := slice, name := n, src := src, quarter := q, epoch := s.mem.epochs.getD q 0
    skip := skip, todo := nearTodo src.format rowsPerHead }] })

/-! ## Pages that are away (R224, R235, R321) -/

/-- A deadline leaves time for a landing (R235); 0 names no deadline (R234). -/
def State.feasible (s : State) (slice : Nat) (n : PageName) (deadline : Nat) : Bool :=
  deadline = 0 || decide ((s.landing slice n 1 : Int) ≤ deadline - (s.cfg slice).tier.deadlineMargin * 1000)

/-- Park a request on a page (R321): a context in a region of the slice's blocks, with its landing slot. (DESIGN CHOICE, log entry 84.) -/
def State.parkOn (r idx slice cls admitted : Nat) (n : PageName) (tg : TileGroup) (tries : Nat) (s : State) : Nat × State :=
  let region := (s.chooseBlock slice 0 cls).getD 0 / 4
  let fits := s.ctxRoom region (liveBytes tg)
  let s := s.onSch (fun x => if fits then { x with parks := inc32 x.parks } else { x with ctxAreaFull := inc32 x.ctxAreaFull })
  s.addCtx { region := region, slice := slice, cls := cls, req := r, page := idx, admitted := admitted, name := n, tries := tries,
             bytes := if fits then liveBytes tg else 0 }

/-- A fill or recovery that nothing waits for within its deadline goes on in class 4 (R230, R235). -/
def State.lowerFill (slice : Nat) (n : PageName) (s : State) : State :=
  if s.awaited slice n then s else s.classFill slice n (fun _ => 4)

/-- The deadline decision of an infeasible page (R235, R236): its shadow, or MISS; the fill or recovery goes on in class 4. -/
def State.fallBack (slice : Nat) (n : PageName) (s : State) : Code × Option PageSrc × State :=
  match s.entry slice n with
  | none => (.miss, none, s)
  | some e =>
    let src := if e.shadowValid && !s.stackFenced e.shadowFrame.1 then some (shadowSrc (s.format slice) n.block e) else none
    let s := s.countTier e.quarter (fun t => if src.isSome then { t with fallbacks := inc32 t.fallbacks }
      else { t with deadlineMisses := inc32 t.deadlineMisses })
    let s := (if e.frameState = .dropped then s.startRecovery slice n 3 none else s.startFill slice n 4 false).lowerFill slice n
    (if src.isSome then .deadlineFallback else .miss, src, s)

/-- A page that must be awaited starts, or joins, its fill or recovery (R224, R241). -/
def State.awaitPage (slice : Nat) (n : PageName) (cls : Nat) (s : State) : State :=
  match s.entry slice n with
  | none => s
  | some e => if e.frameState = .dropped then s.startRecovery slice n 3 none else s.startFill slice n cls false

/-- Count what a request finds of a lookahead (R245). -/
def State.countLookahead (slice : Nat) (n : PageName) (s : State) : State :=
  match s.entry slice n with
  | none => s
  | some e =>
    if s.home.lookLanded.contains (slice, n) && e.frameState.inStack then
      (s.onHome (fun h => { h with lookLanded := h.lookLanded.filter (· ≠ (slice, n)) })).countTier e.quarter
        (fun t => { t with lookaheadHits := inc32 t.lookaheadHits })
    else match s.fillOf slice n with
      | some x => if x.lookahead then s.countTier e.quarter (fun t => { t with lookaheadLate := inc32 t.lookaheadLate }) else s
      | none => s

/-! ## One request -/

/-- A request while its pages are dispatched: the rows, keys skipped per row, pages skipped, chains each row's skip reference
sees, and how each page stands. -/
structure Run where
  rows : List RowAcc
  skips : List Nat
  nskip : Nat := 0
  seen : List Nat
  pages : List PageWait
deriving DecidableEq, Repr

/-- The request that runs. -/
structure RunOf where
  r : Nat
  slice : Nat
  cls : Nat
  phase : Nat
  p : FwdParams
deriving DecidableEq, Repr

/-- The name of a page of an attention request. -/
def pageName (handle layer group block : Nat) : PageName := { handle := handle, layer := layer, block := block, group := group }

/-- The resolution of one page: its Hull bounds per row where bounded mode gives it any (R109, R112). -/
structure Item where
  idx : Nat
  name : PageName
  res : Resolved
  bounds : Option (List Num) := none

/-- U of a page for every row: where bounded mode holds, the Hull record is valid and some key is present (R109, R112). -/
def State.bounds (s : State) (o : RunOf) (e : Entry) : Option (List Num) :=
  if o.p.mode = 1 && e.hullValid && e.fill ≠ 0 then
    some (((o.p.query.zipIdx).map (fun q =>
      s.hullU (s.format o.slice) (scoreConst o.p.scale) (queryVec o.p.queryFormat q.1) e.hullLoc (q.2 / o.p.rowsPerHead))))
  else none

/-- The order of issue in bounded mode (R112): pages without U first, then by falling largest U, the lower block first. -/
def issueOrder (l : List Item) : List Item :=
  let top (x : Item) : Num := match x.bounds with
    | some us => maxOf us
    | none => .inf false
  (l.filter (fun x => x.bounds.isNone)) ++
    sortBy (fun a b => (top b).lt (top a) || (!(top a).lt (top b) && a.idx < b.idx)) (l.filter (fun x => x.bounds.isSome))

/-- m_s of a row (R110): the largest reference among the chains and groups that the vector unit has received. -/
def skipRef (a : RowAcc) (seen : Nat) : Num := maxOf (((a.closed.take seen).filter (fun t => !t.nonfinite)).map (fun t => ofF32 t.m))

/-- The rows that skip a page (R110). -/
def skipRows (o : RunOf) (x : Run) (bounds : Option (List Num)) : List Nat :=
  match bounds with
  | none => []
  | some us => (List.range x.rows.length).filter (fun i =>
      (us.getD i (.inf false)).lt ((skipRef (x.rows.getD i {}) (x.seen.getD i 0)).sub (.fin false o.p.delta 0)))

/-- How many chains each row's skip reference sees at a dispatch: never fewer than before, else open (R110). (DESIGN CHOICE, log entry 85.) -/
def State.raiseSeen (s : State) (o : RunOf) (idx : Nat) (x : Run) : Run :=
  { x with seen := (x.rows.zipIdx).map (fun a =>
      max (x.seen.getD a.2 0) (Config.freeValue Site.cuts s.free (mixIdx [o.r, idx, a.2, 3]) % (a.1.closed.length + 1))) }

/-- Note the rows that skip a page (R113). -/
def noteSkips (o : RunOf) (src : PageSrc) (skip : List Nat) (x : Run) : Run :=
  if skip.isEmpty then x
  else { x with
    nskip := x.nskip + 1
    skips := (x.skips.zipIdx).map (fun k => if skip.contains k.2 then k.1 + (pageKeys o.p src k.2).length else k.1) }

/-- A tile group of a request, for the size of its context (R318). -/
def groupOf (o : RunOf) (d : Nat) : TileGroup :=
  { members := [o.r], slice := o.slice, cls := o.cls, rows := min 32 o.p.rowsPerHead, cols := min 256 d, tau := o.p.tau }

/-- Heads of which some row reads the page (R111). -/
def headsRead (p : FwdParams) (src : PageSrc) (skip : List Nat) : List Nat :=
  ((List.range p.query.length).filter (fun k => !skip.contains k && !(pageKeys p src k).isEmpty)).map (· / p.rowsPerHead) |>.eraseDups

/-- A request's pages are counted by the path that gives their contribution (R117). -/
def State.countPath (r : Nat) (near : Bool) (s : State) : State :=
  s.onReqs (fun t => t.modify r (fun q =>
    if near then { q with nearPages := q.nearPages + 1 } else { q with cellPages := q.cellPages + 1 }))

/-- A page contributes to the rows that read it, on cells (R93). (DEDUCED, log entry 12.) -/
def State.takePage (o : RunOf) (src : PageSrc) (skip : List Nat) (x : Run) (s : State) : Run × State :=
  ({ x with rows := s.rowsPage o.r o.p src skip x.rows },
    ((s.touchFrame src (headsRead o.p src skip)).countPath o.r false).bump)

/-- Dispatch one page (R110, R111, R116, R224, R235). (DEDUCED, log entry 86.) -/
def State.dispatch (o : RunOf) (i : Item) (x : Run) (s : State) : Run × State :=
  let x := s.raiseSeen o i.idx x
  match i.res with
  | .code c => ({ x with pages := x.pages.set i.idx (.done c) }, s)
  | .frame e =>
    let src := srcOf (s.format o.slice) i.name.block e
    let skip := skipRows o x i.bounds
    let x := noteSkips o src skip x
    let x := { x with pages := x.pages.set i.idx (.done .ok) }
    if (List.range x.rows.length).all (fun k => skip.contains k || (pageKeys o.p src k).isEmpty) then (x, s)
    else if s.pathOf (s.rowsWaiting o.r o.slice i.name o.p.rowsPerHead) o.phase o.slice o.p e then
      ({ x with pages := x.pages.set i.idx .near }, s.sendNear o.r i.idx o.slice o.p.rowsPerHead i.name src skip)
    else s.takePage o src skip x
  | .await e =>
    let src := srcOf (s.format o.slice) i.name.block e
    let skip := skipRows o x i.bounds
    let x := noteSkips o src skip x
    if e.fill = 0 ∨ (!skip.isEmpty ∧ (List.range x.rows.length).all (fun k => skip.contains k || (pageKeys o.p src k).isEmpty)) then
      ({ x with pages := x.pages.set i.idx (.done .ok) }, s)
    else if s.feasible o.slice i.name o.p.deadline then
      let (k, s) := s.parkOn o.r i.idx o.slice o.cls s.now i.name (groupOf o (PageFormatD (s.format o.slice))) 1
      ({ x with pages := x.pages.set i.idx (.waiting k 1 skip) }, s.awaitPage o.slice i.name 1)
    else
      match s.fallBack o.slice i.name with
      | (c, none, s) => ({ x with pages := x.pages.set i.idx (.done c) }, s)
      | (c, some src, s) => s.takePage o src skip { x with pages := x.pages.set i.idx (.done c) }

/-- Every page of the range that the mask does not exclude is resolved, in ascending block (R67, R108). -/
def State.resolveRange (o : RunOf) (s : State) : List Item × State :=
  let f := s.format o.slice
  let t := PageFormatT f
  ((rangeBlocks t o.p.posStart o.p.posCount).zipIdx).foldl (fun (a : List Item × State) b =>
    let s := a.2
    if pageExcluded t f.headsPerGroup o.p.posStart o.p.posCount o.p.rowsPerHead o.p.mask b.1 then a
    else
      let n := pageName o.p.handle o.p.layer o.p.group b.1
      let s := s.countLookahead o.slice n
      let (res, s) := s.resolve o.slice n
      let bd := match res with
        | .frame e => s.bounds o e
        | .await e => s.bounds o e
        | .code _ => none
      (a.1 ++ [{ idx := b.2, name := n, res := res, bounds := bd }], s)) ([], s)

/-- Final triples of the rows with the flags of R88: `skipped`, `incomplete`, `deferred`. -/
def finalRows (f : PageFormat) (p : FwdParams) (codes : List Code) (skips : List Nat) (rows : List Triple) : List Triple :=
  let t := PageFormatT f
  let bad := ((rangeBlocks t p.posStart p.posCount).zip codes).filter (fun x => x.2 ≠ .ok && x.2 ≠ .deadlineFallback)
  (rows.zipIdx).map (fun x =>
    let inc := bad.any (fun b => rowTouches t p.posStart p.posCount p.rowsPerHead p.mask b.1 (x.2 / p.rowsPerHead) (x.2 % p.rowsPerHead))
    let y := finishRow x.1
    { y with skipped := y.skipped || skips.getD x.2 0 ≠ 0, incomplete := y.incomplete || inc })

/-- Request code of R89. -/
def rangeCode (codes : List Code) : Code :=
  if codes.all (· = .ok) then .ok else if codes.all (· = .miss) then .miss else .part

/-- `skip_bound` of R113 as an FP32 encoding. -/
def skipBound (delta : Nat) (skips : List Nat) : Nat :=
  toF32 (maxOf (.zero :: skips.map (fun k => ru (.fin false k (-(delta : Int))))))

/-- The response of R88 and R89. -/
def fwdBody (f : PageFormat) (p : FwdParams) (codes : List Code) (skips : List Nat) (nskip : Nat) (rows : List Triple) : RespBody :=
  let code := rangeCode codes
  .attend codes.length nskip p.tau (if p.mode = 1 then p.delta else 0) (if p.mode = 1 then skipBound p.delta skips else 0)
    (if code = .part then codes else []) ((finalRows f p codes skips rows).map (Triple.record (p.resultFormat = 1)))

/-- Codes of pages that are decided; none while one waits. -/
def pageCodes (l : List PageWait) : Option (List Code) :=
  l.foldr (fun x a => match x, a with
    | .done c, some t => some (c :: t)
    | _, _ => none) (some [])

/-- Keep a request's rows and pages, or answer it once every page is decided (R89). -/
def State.keepOrAnswer (r : Nat) (p : FwdParams) (pages : List PageWait) (rows : List Triple) (skips : List Nat) (nskip : Nat)
    (s : State) : State :=
  match s.reqs.get? r with
  | none => s
  | some q =>
    match pageCodes pages with
    | some codes => s.finishReq r (rangeCode codes) (fwdBody (s.format q.slice) p codes skips nskip rows)
    | none => s.onReqs (fun t => t.modify r (fun q => { q with kind := .attend p pages rows skips nskip }))

/-- Step 9 of an attention request (R205, R312, R356). -/
def State.attendBusy (slice group handle : Nat) (routed : Routed) (s : State) : Code :=
  if s.homeBusy slice 0 handle routed || s.classFull slice group || (s.blocksOf slice).isEmpty then .busy else .ok

/-- The checks of R17 for ATTEND_FWD. -/
def fwdSpec (h : ExtHdr) (p : FwdParams) (s : State) (c : Ctx) : ExtSpec :=
  { op := 0
    parses := fwdOk (s.format c.slice) p
    routed := fun s => s.routeName c.slice h.mapGen 0 p.handle true
    right := some 0
    bound := some p.handle
    busy := fun s => s.attendBusy c.slice c.group p.handle (s.routeName c.slice h.mapGen 0 p.handle true) }

/-- Whether a request came under the previous map (R200). -/
def State.onPrevious (s : State) (slice gen domain value : Nat) (readLike : Bool) : Bool :=
  s.routeName slice gen domain value readLike = .previous

/-! ## Pages that land or are decided later -/

/-- Set the standing of one page of a request. -/
def State.setPage (r idx : Nat) (w : PageWait) (s : State) : State :=
  match s.reqs.get? r with
  | none => s
  | some q => match q.kind with
    | .attend p pages rows skips n => s.keepOrAnswer r p (pages.set idx w) rows skips n
    | _ => s

/-- What a page gives the request's rows is merged into them, the page is decided with a code, and it is counted by its path. -/
def State.mergePage (r idx : Nat) (code : Code) (near : Bool) (accs : State → FwdParams → List RowAcc) (s : State) : State :=
  match s.reqs.get? r with
  | none => s
  | some q => match q.kind with
    | .attend p pages rows skips n =>
      let d := PageFormatD (s.format q.slice)
      let rows := ((rows.zip (accs s p)).zipIdx).map (fun x => s.rowMerge [r, idx, x.2] d x.1.1 x.1.2)
      ((s.countPath r near).bump).keepOrAnswer r p (pages.set idx (.done code)) rows skips n
    | _ => s

/-- A page that has come contributes to the request's rows on cells, and is decided with a code. (DESIGN CHOICE, log entry 11.) -/
def State.addPage (r idx : Nat) (code : Code) (src : PageSrc) (skip : List Nat) (s : State) : State :=
  match s.reqs.get? r with
  | none => s
  | some q => match q.kind with
    | .attend p _ rows _ _ =>
      (s.touchFrame src (headsRead p src skip)).mergePage r idx code false (fun s p =>
        s.rowsPage r p src skip (rows.map (fun _ => .start (PageFormatD (s.format q.slice)))))
    | _ => s

/-- A page's place in a request that waits for near-bank windows (R139). -/
def State.setNear (r idx : Nat) (n : PageName) (slice : Nat) (p : FwdParams) (src : PageSrc) (skip : List Nat) (s : State) : State :=
  (s.setPage r idx .near).sendNear r idx slice p.rowsPerHead n src skip

/-- Take a parked context out of its area. -/
def State.freeCtx (k : Nat) (s : State) : State := s.onEng (fun e => { e with ctxs := e.ctxs.erase k })

/-- A woken context of an ATTEND_FWD resolves its page again (R66, R322, R463): the 16th resolution is the last; `tot` is r_tot of
the dispatch (R116). -/
def State.wakeFwd (tot k : Nat) (c : ParkedCtx) (q : Req) (p : FwdParams) (skip : List Nat) (s : State) : State :=
  if c.slotState = 2 then (s.freeCtx k).setPage c.req c.page (.done c.pageCode)
  else
    let (res, s) := s.resolve c.slice c.name
    match res with
    | .code x => (s.freeCtx k).setPage c.req c.page (.done x)
    | .frame e =>
      let src := srcOf (s.format c.slice) c.name.block e
      if s.pathOf tot q.phaseMode c.slice p e && !(headsRead p src skip).isEmpty then
        (s.freeCtx k).setNear c.req c.page c.name c.slice p src skip
      else (s.freeCtx k).addPage c.req c.page .ok src skip
    | .await _ =>
      if 16 ≤ c.tries + 1 then (s.freeCtx k).setPage c.req c.page (.done .miss)
      else if s.feasible c.slice c.name p.deadline then
        (s.onParked k (fun x => { x with slotState := 0, tries := x.tries + 1 })).awaitPage c.slice c.name 1
      else
        match (s.freeCtx k).fallBack c.slice c.name with
        | (x, none, s) => s.setPage c.req c.page (.done x)
        | (x, some src, s) => s.addPage c.req c.page x src skip

/-- The rows that skip a waiting page. -/
def waitSkips (pages : List PageWait) (idx : Nat) : List Nat :=
  match pages[idx]? with
  | some (.waiting _ _ l) => l
  | _ => []

/-- Every request whose landed page waits for the same frame is dispatched with the one that is (R116). -/
def State.wakeWaiting (tot slice : Nat) (n : PageName) (s : State) : State :=
  ((s.eng.ctxs.filter (fun c => c.2.slice = slice && c.2.name = n && c.2.slotState = 1 && c.2.acc.isNone &&
      (s.entry slice n).any (fun e => e.frameGen = c.2.frameGen))).map Prod.fst).foldl (fun s k =>
    match s.eng.ctxs.get? k with
    | none => s
    | some c => match s.reqs.get? c.req with
      | none => s
      | some q => match q.kind with
        | .attend p pages _ _ _ => s.wakeFwd tot k c q p (waitSkips pages c.page)
        | _ => s) s

/-- Step 10 of an ATTEND_FWD: resolve, dispatch, answer or wait. -/
def State.runFwd (h : ExtHdr) (p : FwdParams) (prev : Bool) (c : Ctx) (s : State) : State :=
  let f := s.format c.slice
  let t := PageFormatT f
  let d := PageFormatD f
  let blocks := rangeBlocks t p.posStart p.posCount
  let (r, s) := s.addReq h 0 c prev (.attend p [] [] [] 0)
  let o : RunOf := { r := r, slice := c.slice, cls := s.classOf c.slice c.group, phase := (s.cfg c.slice).phaseMode, p := p }
  let (items, s) := s.resolveRange o
  let n := f.headsPerGroup * p.rowsPerHead
  let x : Run := { rows := List.replicate n (.start d), skips := List.replicate n 0, seen := List.replicate n 0,
                   pages := blocks.map (fun _ => .done .ok) }
  let (x, s) := (if p.mode = 1 then issueOrder items else items).foldl (fun (a : Run × State) i => State.dispatch o i a.1 a.2) (x, s)
  let rows := (x.rows.zipIdx).map (fun a => s.rowMerge [r, a.2] d (.empty d) a.1)
  let s := s.updateStream c.slice p.handle p.group p.layer (items.map (fun i => i.name.block))
  let tots := items.map (fun i => (i.name, s.rowsWaiting r c.slice i.name p.rowsPerHead))
  tots.foldl (fun s n => if n.2 ≤ p.rowsPerHead then s else s.wakeWaiting n.2 c.slice n.1)
    ((s.bump).keepOrAnswer r p x.pages rows x.skips x.nskip)

/-- ATTEND_FWD. -/
def execAttendFwd (h : ExtHdr) (p : FwdParams) (s : State) : Host.Outcome State Fault Refusal :=
  .next (s.whenUp (fun s => s.settle.extended h (.attendFwd h p) (fwdSpec h p s)
    (fun c s => s.runFwd h p (s.onPrevious c.slice h.mapGen 0 p.handle true) c)))

/-- The deadline margin of a waiting page is reached (R235): it is decided as if it were infeasible. -/
def State.decideDeadline (r idx : Nat) (s : State) : State :=
  match s.reqs.get? r with
  | none => s
  | some q => match q.kind with
    | .attend p pages _ _ _ =>
      match pages[idx]? with
      | some (.waiting k _ skip) =>
        match s.eng.ctxs.get? k with
        | none => s
        | some c =>
          if c.slotState = 0 ∧ p.deadline ≠ 0 ∧ (p.deadline : Int) - (s.cfg q.slice).tier.deadlineMargin * 1000 ≤ s.now then
            match (s.freeCtx k).fallBack q.slice c.name with
            | (x, none, s) => s.setPage r idx (.done x)
            | (x, some src, s) => s.addPage r idx x src skip
          else s
      | _ => s
    | _ => s

/-- DEADLINE_DECISION. -/
def execDeadlineDecision (req page : Nat) (s : State) : Host.Outcome State Fault Refusal :=
  .next (s.whenUp (State.decideDeadline req page))

end Sys2Proof.Machine
end

