-- ==== Sys2Proof/Machine/Backward.lean ====
section
/-! DEFINITION. ATTEND_BWD: accumulators (R155, R156, R445), OPEN, ACCUMULATE, COLLECT and DISCARD (R151 to R165), the commit in
admission order (R158, R159, R161), and the contexts that wake (R322). -/

namespace Sys2Proof.Machine

/-! ## Accumulators (R155, R156) -/

/-- The accumulator of a page. -/
def State.accOf (s : State) (slice : Nat) (n : PageName) : Option Accumulator := s.home.accs.find? (Accumulator.is slice n)

/-- Change the accumulator of a page and store its header. -/
def State.onAcc (slice : Nat) (n : PageName) (f : Accumulator → Accumulator) (s : State) : State :=
  let s := s.onHome (fun h => { h with accs := h.accs.map (fun (a : Accumulator) => if a.is slice n then f a else a) })
  match s.accOf slice n with
  | none => s
  | some a => s.writeAccHeader a

/-- Allocate the parts of an accumulator (R155); none, with nothing taken, where one part finds no unit. -/
def State.allocParts (s : State) (slice : Nat) (sts : List Nat) : List Nat → Option (List (Nat × Nat × Nat) × State)
  | [] => some ([], s)
  | n :: t =>
    match s.allocFrom slice 5 n sts with
    | none => none
    | some (p, s) => (State.allocParts s slice sts t).map (fun r => ((p.1, p.2, n) :: r.1, r.2))

/-- Retire an accumulator (R66). -/
def State.dropAcc (slice : Nat) (n : PageName) (s : State) : State :=
  match s.accOf slice n with
  | none => s
  | some a =>
    (a.parts.foldl (fun s p => s.retireUnit (s.quarterOf slice n.handle) (p.1, p.2.1) p.2.2) s).onHome
      (fun h => { h with accs := h.accs.filter (fun (x : Accumulator) => !x.is slice n) })

/-! ## The pages of a request -/

/-- The names of the pages a range touches, ascending. -/
def bwdNames (f : PageFormat) (p : BwdParams) : List PageName :=
  (rangeBlocks (PageFormatT f) p.posStart p.posCount).map (pageName p.handle p.layer p.group)

/-- The mask excludes a page for every row of an ACCUMULATE (R108). -/
def bwdExcluded (f : PageFormat) (p : BwdParams) (n : PageName) : Bool :=
  match p.mask with
  | none => false
  | some m => pageExcluded (PageFormatT f) f.headsPerGroup p.posStart p.posCount p.rowsPerHead m n.block

/-- Step 8 of ATTEND_BWD (R157, R445): an accumulator of another pass, a marked one (for OPEN and ACCUMULATE), and for
ACCUMULATE one bound to another `frame_gen`. -/
def State.bwdConflict (s : State) (slice : Nat) (names : List PageName) (pass : Nat) (marks gen : Bool) : Code :=
  if names.any (fun n => match s.accOf slice n with
    | none => false
    | some a => a.pass ≠ pass || (marks && a.marked) || (gen && !a.lost && !a.poisoned && (match s.entry slice n with
      | some e => e.pageState.published? && e.frameGen ≠ a.frameGen
      | none => false))) then .leaseConflict else .ok

/-- What every ATTEND_BWD checks (R17, R259). -/
def bwdSpec (h : ExtHdr) (p : BwdParams) (c : Ctx) (readLike parses : Bool) (own busy : State → Code) : ExtSpec :=
  { op := 1
    parses := parses
    routed := fun s => s.routeName c.slice h.mapGen 0 p.handle readLike
    right := some 1
    bound := some p.handle
    own := own
    busy := fun s => match s.attendBusy c.slice c.group p.handle (s.routeName c.slice h.mapGen 0 p.handle readLike) with
      | .ok => busy s
      | e => e }

/-! ## OPEN (R155 to R157) -/

/-- Open one page; none where it is refused with BUSY (R156). (DESIGN CHOICE, log entry 79.) (DESIGN CHOICE, log entry 80.) -/
def State.openPage (s : State) (slice pass : Nat) (n : PageName) : Option (Code × State) :=
  let f := s.format slice
  if (s.accOf slice n).isSome then some (.ok, s)
  else
    let (res, s) := s.resolve slice n
    let s := match res with
      | .await _ => s.awaitPage slice n 1
      | _ => s
    match res with
    | .code c => some (c, s)
    | _ =>
      match s.entry slice n with
      | none => some (.pageLost, s)
      | some e =>
        let q := s.quarterOf slice n.handle
        let mine := s.home.accs.filter (fun a => s.quarterOf a.slice a.name.handle = q)
        if e.fill = 0 then some (.miss, s)
        else if 65536 ≤ mine.length ∨ (s.cfg slice).accQuota ≤ (s.home.accs.filter (fun a => a.slice = slice && !a.lost)).length then none
        else
          let sts := if e.frameState.inStack then s.stacksFirst slice e.stackFrame.1
            else rotated (s.stacksOf slice) (s.layerHash slice n.handle n.layer)
          match s.allocParts slice sts (accParts (accGranules f)) with
          | none => none
          | some (parts, s) =>
            let a : Accumulator := { slice := slice, name := n, pass := pass, frameGen := e.frameGen, parts := parts }
            let s := parts.foldl (fun s p => s.zeroGranules (p.1, p.2.1) p.2.2) s
            some (.ok, (s.onHome (fun h => { h with accs := h.accs ++ [a] })).writeAccHeader a)

/-- Open every page of a range, or none of them. -/
def State.openAll (s : State) (slice pass : Nat) : List PageName → Option (List Code × State)
  | [] => some ([], s)
  | n :: t =>
    match s.openPage slice pass n with
    | none => none
    | some (c, s) => (State.openAll s slice pass t).map (fun r => (c :: r.1, r.2))

/-- The response of an operation that returns page codes only (R157, R89). -/
def bwdReply (codes : List Code) : RespBody :=
  .bwd false codes.length (if rangeCode codes = .part then codes else []) []

/-- The checks of OPEN. -/
def openSpec (h : ExtHdr) (p : BwdParams) (s : State) (c : Ctx) : ExtSpec :=
  let f := s.format c.slice
  bwdSpec h p c false (bwdOpenOk f p) (fun s => s.bwdConflict c.slice (bwdNames f p) p.accPass true false)
    (fun s => if (s.openAll c.slice p.accPass (bwdNames f p)).isNone then .busy else .ok)

/-- Step 10 of OPEN. -/
def State.runOpen (h : ExtHdr) (p : BwdParams) (c : Ctx) (s : State) : State :=
  match s.openAll c.slice p.accPass (bwdNames (s.format c.slice) p) with
  | none => s
  | some (codes, s) => s.respond h 1 0 (rangeCode codes) 0 (bwdReply codes)

/-- ATTEND_BWD_OPEN. -/
def execAttendBwdOpen (h : ExtHdr) (p : BwdParams) (s : State) : Host.Outcome State Fault Refusal :=
  .next (s.whenUp (fun s => s.settle.extended h (.attendBwdOpen h p) (openSpec h p s) (fun c s => s.runOpen h p c)))

/-! ## ACCUMULATE: terms (R152 to R154) -/

/-- The dO elements of a row as they arrive. -/
def gradVec (format : Nat) (v : List Nat) : List Num := v.map (if format = 0 then ofBf16 else ofF32)

/-- The dO elements of a row as they enter the array: BF16 ones unchanged, FP32 ones as three BF16 parts, one vector for each part
(R97, R152). -/
def gradParts (format : Nat) (v : List Nat) : List (List Num) :=
  if format = 0 then [v.map ofBf16]
  else
    let ps := v.map (fun x => weightParts (ofF32 x))
    (List.range 3).map (fun i => ps.map (fun p => p.getD i .zero))

/-- The FP32 sum of what the passes over the parts give, first to last. -/
def addParts (l : List Num) : Num :=
  match l with
  | [] => .zero
  | x :: t => t.foldl fadd x

/-- The terms of one row on one page (R153, R154). (DEDUCED, log entry 15.) -/
def State.bwdRow (s : State) (r : Nat) (p : BwdParams) (m : MaskDesc) (src : PageSrc) (rho : Nat) : BwdTerm :=
  let f := src.format
  let d := PageFormatD f
  let h := rho / p.rowsPerHead
  let row := p.rows.getD rho {}
  let q := queryVec p.queryFormat row.q
  let g0 := gradParts p.gradFormat row.dO
  let l := ofF32 row.lse
  let delta := ofF32 row.delta
  let keys := rowKeys (PageFormatT f) p.posStart p.posCount p.rowsPerHead m src h (rho % p.rowsPerHead)
  let c := scoreConst p.scale
  let one (j : Nat) : Num × Num × Num × Num :=
    let sc := s.score [r, src.block, rho, j] c src q h j
    let pr := exp2 (sc.sub l)
    let dp := addParts ((g0.zipIdx).map (fun g => s.dot [r, src.block, rho, j, 1, g.2] g.1 (s.valueOf src h j)))
    (sc, pr, dp, fmul pr (fadd dp delta.neg))
  let ts := keys.map (fun j => (j, one j))
  let bad := ts.any (fun t => !t.2.1.isFin || !t.2.2.2.1.isFin || !t.2.2.2.2.isFin || Num.one.lt (t.2.1.sub l))
  let ks := keys.map (fun j => (s.keyVec f src.frame h j).map (scaled8 f.keyFormat src.keyScale))
  let dq := (List.range d).map (fun e =>
    toF32 (sumFree (s.order [r, src.block, rho, e, 2]) (List.zipWith (fun t k => Num.mul t.2.2.2.2 (k.getD e .zero)) ts ks)))
  { keys := ts.map (fun t => (t.1, toF32 t.2.2.1, toF32 t.2.2.2.2)), dq := if keys.isEmpty then [] else dq, bad := bad }

/-- The staging of a page (R158). -/
def State.stage (s : State) (r idx : Nat) (p : BwdParams) (src : PageSrc) (nrows : Nat) : Staging :=
  match p.mask with
  | none => { page := idx }
  | some m => { page := idx, rows := (List.range nrows).map (s.bwdRow r p m src) }

/-- A row's own operands spoil it (R154). -/
def rowSpoiled (p : BwdParams) (row : BwdRow) : Bool :=
  let l := ofF32 row.lse
  let d := ofF32 row.delta
  !d.isFin || (!l.isFin && l != Num.negInf) ||
    (queryVec p.queryFormat row.q).any (fun x => !x.isFin) || (gradVec p.gradFormat row.dO).any (fun x => !x.isFin)

/-- Stagings of the pages whose code is OK. -/
def okStaging (codes : List Code) (st : List Staging) : List Staging := st.filter (fun x => codes.getD x.page .miss = .ok)

/-- Keys of a row over its OK pages. -/
def rowKeyCount (st : List Staging) (rho : Nat) : Nat := (st.map (fun x => (x.rows.getD rho {}).keys.length)).sum

/-- How R154 treats a row over the OK pages: 0 empty, 1 non-finite, 2 as in R153. -/
def rowTreatment (p : BwdParams) (st : List Staging) (rho : Nat) : Nat :=
  let row := p.rows.getD rho {}
  if rowKeyCount st rho = 0 ∨ row.lse = 0xff800000 then 0
  else if rowSpoiled p row || st.any (fun x => (x.rows.getD rho {}).bad) then 1
  else 2

/-- dQ of a row (R153, R154). (DESIGN CHOICE, log entry 81.) -/
def State.dqRow (s : State) (r d : Nat) (f : PageFormat) (p : BwdParams) (codes : List Code) (st : List Staging) (rho : Nat) :
    DqRow :=
  let bad := ((rangeBlocks (PageFormatT f) p.posStart p.posCount).zip codes).filter (fun x => x.2 ≠ .ok)
  let inc := match p.mask with
    | none => false
    | some m => bad.any (fun b => rowTouches (PageFormatT f) p.posStart p.posCount p.rowsPerHead m b.1 (rho / p.rowsPerHead)
        (rho % p.rowsPerHead))
  match rowTreatment p st rho with
  | 0 => { dq := List.replicate d 0, empty := true, incomplete := inc }
  | 1 => { dq := List.replicate d 0x7fc00000, keys := rowKeyCount st rho, nonfinite := true, incomplete := inc }
  | _ =>
    let parts := st.filter (fun x => !(x.rows.getD rho {}).dq.isEmpty)
    { dq := (List.range d).map (fun e => toF32 (fmul (ofF32 p.scale)
        (sumFree (s.order [r, rho, e, 3]) (parts.map (fun x => ofF32 ((x.rows.getD rho {}).dq.getD e 0))))))
      keys := rowKeyCount st rho
      incomplete := inc }

/-! ## ACCUMULATE: commit (R158 to R161) -/

/-- Add one FP32 term to an accumulator element (R158): one rounding; whether the element is now non-finite. -/
def State.addElem (a : Accumulator) (off : Nat) (x : Num) (s : State) : Bool × State :=
  let y := fadd (ofF32 (fromLe (s.memReadN (accAddr a off) 4))) x
  (!y.isFin, s.memWriteN (accAddr a off) (leBytes 4 (toF32 y)))

/-- The terms of one page's rows that a commit adds at position `j` of head `h`, dimension `e`: dK and dV. -/
def State.accTerms (s : State) (r : Nat) (p : BwdParams) (use : List Nat) (x : Staging) (h j e : Nat) : Num × Num :=
  let rs := (use.filter (fun rho => rho / p.rowsPerHead = h)).filterMap (fun rho =>
    ((x.rows.getD rho {}).keys.find? (fun k => k.1 = j)).map (fun k => (rho, k.2)))
  let row (rho : Nat) : BwdRow := p.rows.getD rho {}
  (fmul (ofF32 p.scale) (sumFree (s.order [r, x.page, h, j, e, 4])
    (rs.map (fun t => (ofF32 t.2.2).mul ((queryVec p.queryFormat (row t.1).q).getD e .zero)))),
   addParts ((List.range (if p.gradFormat = 0 then 1 else 3)).map (fun i => sumFree (s.order [r, x.page, h, j, e, 5, i])
     (rs.map (fun t => (ofF32 t.2.1).mul (((gradParts p.gradFormat (row t.1).dO).getD i []).getD e .zero))))))

/-- Commit one page's staging (R158); `use` are the rows that contribute. -/
def State.commitPage (r slice : Nat) (p : BwdParams) (use : List Nat) (n : PageName) (x : Staging) (s : State) : State :=
  let f := s.format slice
  let d := PageFormatD f
  match s.accOf slice n with
  | none => s
  | some a =>
    let touched := ((use.flatMap (fun rho => (x.rows.getD rho {}).keys.map (fun k => (rho / p.rowsPerHead, k.1)))).eraseDups)
    let step (b : Bool × State) (t : (Nat × Nat) × Nat) : Bool × State :=
      let off := 4096 + ((t.1.1 * PageFormatT f + t.1.2) * d + t.2) * 4
      let v := s.accTerms r p use x t.1.1 t.1.2 t.2
      if f.latent = 1 then
        let y := b.2.addElem a off (fadd v.1 v.2)
        (b.1 || y.1, y.2)
      else
        let y := b.2.addElem a off v.1
        let z := y.2.addElem a (off + accElems f * 4) v.2
        (b.1 || y.1 || z.1, z.2)
    let b := (touched.flatMap (fun t => (List.range d).map (fun e => (t, e)))).foldl step (false, s)
    b.2.onAcc slice n (fun a => { a with
      tags := (a.tags ++ [p.contribTag]).drop (a.tags.length + 1 - 256)
      updates := satAdd max32 a.updates 1
      nonfinite := a.nonfinite || b.1 })

/-- The page code of a page as its accumulator stands (R157, R165). -/
def State.accCode (s : State) (slice pass : Nat) (n : PageName) : Code :=
  match s.accOf slice n with
  | none => .miss
  | some a => if a.pass ≠ pass then .miss else if a.lost then .pageLost else if a.poisoned then .poisoned else .ok

/-- Page codes at commit: an OK page that is not excluded takes the code of its accumulator. -/
def State.commitCodes (s : State) (slice : Nat) (p : BwdParams) (names : List PageName) (codes : List Code) (st : List Staging) :
    List Code :=
  ((names.zip codes).zipIdx).map (fun x =>
    if x.1.2 = .ok ∧ st.any (fun y => y.page = x.2) then s.accCode slice p.accPass x.1.1 else x.1.2)

/-- Commit a computed ACCUMULATE and answer it (R158, R159, R162). -/
def State.commitReq (r : Nat) (q : Req) (p : BwdParams) (codes : List Code) (st : List Staging) (s : State) : State :=
  let f := s.format q.slice
  let names := bwdNames f p
  let codes := s.commitCodes q.slice p names codes st
  let ok := okStaging codes st
  let nrows := f.headsPerGroup * p.rowsPerHead
  let dup := ok.any (fun x => match s.accOf q.slice (names.getD x.page {}) with
    | some a => a.tags.contains p.contribTag
    | none => false)
  let use := (List.range nrows).filter (fun rho => rowTreatment p ok rho = 2)
  let rows := (List.range nrows).map (s.dqRow r (PageFormatD f) f p codes ok)
  let s := if dup then s else ok.foldl (fun s x => s.commitPage r q.slice p use (names.getD x.page {}) x) s
  let code := rangeCode codes
  (s.bump).finishReq r code (.bwd dup codes.length (if code = .part then codes else []) (rows.map (DqRow.record (p.resultFormat = 1))))

/-- Pages of one pass that an outstanding ACCUMULATE may still commit to, or a waiting COLLECT will collect (R158, R161). -/
def State.accClaims (s : State) (q : Req) : List (PageName × Nat) :=
  match q.kind with
  | .collect p => (bwdNames (s.format q.slice) p).map (fun n => (n, p.accPass))
  | .bwd p pages _ =>
    (((bwdNames (s.format q.slice) p).zip pages).filter (fun x => match x.2 with
      | .done c => c = .ok && !bwdExcluded (s.format q.slice) p x.1
      | .waiting _ _ _ => true
      | .near => true)).map (fun x => (x.1, p.accPass))
  | _ => []

/-- An ACCUMULATE of a pass admitted before request `r` is still to commit (R161). -/
def State.passBefore (s : State) (r slice pass : Nat) : Bool :=
  s.reqs.any (fun x => x.1 < r && x.2.slice = slice && (match x.2.kind with
    | .bwd p _ _ => p.accPass = pass
    | _ => false))

/-- An ACCUMULATE or COLLECT admitted before request `r` still claims one of its pages. -/
def State.claimedBefore (s : State) (r slice : Nat) (names : List (PageName × Nat)) : Bool :=
  s.reqs.any (fun x => x.1 < r && x.2.slice = slice && (s.accClaims x.2).any names.contains)

/-- The record of one collected page (R161). -/
def State.collectRecord (s : State) (slice : Nat) (p : BwdParams) (n : PageName) : Code × List Byte :=
  let f := s.format slice
  let c := s.accCode slice p.accPass n
  match s.accOf slice n with
  | some a =>
    if c = .ok then
      let els := accElems f * (if f.latent = 1 then 1 else 2)
      (c, beBytes 1 c.num ++ beBytes 1 (b2n a.nonfinite) ++ beBytes 2 0 ++ beBytes 4 a.updates ++
        ((List.range els).map (fun i =>
          let x := fromLe (s.memReadN (accAddr a (4096 + 4 * i)) 4)
          if p.resultFormat = 1 then beBytes 2 (toBf16 (ofF32 x)) else beBytes 4 x)).flatten)
    else if c = .miss then (c, beBytes 1 c.num ++ beBytes 3 0 ++ beBytes 4 0)
    else (c, beBytes 1 c.num ++ beBytes 1 (b2n a.nonfinite) ++ beBytes 2 0 ++ beBytes 4 a.updates)
  | none => (c, beBytes 1 c.num ++ beBytes 3 0 ++ beBytes 4 0)

/-- Collect a range: records in ascending block; collected accumulators retire (R157, R161). -/
def State.collectRange (slice : Nat) (p : BwdParams) (s : State) : (List Code × List (List Byte)) × State :=
  (bwdNames (s.format slice) p).foldl (fun a n =>
    let x := a.2.collectRecord slice p n
    ((a.1.1 ++ [x.1], a.1.2 ++ [x.2]), if x.1 = .ok then a.2.dropAcc slice n else a.2)) (([], []), s)

/-- A COLLECT acts once every earlier ACCUMULATE of its pass has committed (R161). (DEDUCED, log entry 14.) -/
def State.tryCollect (r : Nat) (s : State) : State :=
  match s.reqs.get? r with
  | none => s
  | some q => match q.kind with
    | .collect p =>
      if s.passBefore r q.slice p.accPass || s.claimedBefore r q.slice (s.accClaims q) then s
      else
        let (x, s) := s.collectRange q.slice p
        s.finishReq r (rangeCode x.1) (.collect x.2)
    | _ => s

/-- Every waiting COLLECT that can act, in admission order. -/
def State.tryCollects (s : State) : State := (s.reqs.map Prod.fst).foldl (fun s r => s.tryCollect r) s

/-- A request commits in its turn (R158), and COLLECTs that waited for it act (R161). -/
def State.commitTurn (r : Nat) (s : State) : State :=
  let s := match s.reqs.get? r with
    | none => s
    | some q => match q.kind with
      | .bwd p pages st =>
        match pageCodes pages with
        | some codes => if s.claimedBefore r q.slice (s.accClaims q) then s else s.commitReq r q p codes st
        | none => s
      | _ => s
  s.tryCollects

/-- ACCUMULATOR_COMMIT. -/
def execAccumulatorCommit (req : Nat) (s : State) : Host.Outcome State Fault Refusal := .next (s.whenUp (State.commitTurn req))

/-! ## ACCUMULATE: admission and computation -/

/-- The checks of ACCUMULATE. -/
def accSpec (h : ExtHdr) (p : BwdParams) (s : State) (c : Ctx) : ExtSpec :=
  let f := s.format c.slice
  bwdSpec h p c true (bwdAccOk f p)
    (fun s => s.bwdConflict c.slice ((bwdNames f p).filter (fun n => !bwdExcluded f p n)) p.accPass true true) (fun _ => .ok)

/-- Change what an ACCUMULATE holds. -/
def State.onBwd (r : Nat) (f : List PageWait → List PageWait) (g : List Staging → List Staging) (s : State) : State :=
  s.onReqs (fun t => t.modify r (fun q => match q.kind with
    | .bwd p pages st => { q with kind := .bwd p (f pages) (g st) }
    | _ => q))

/-- The accumulator of a page that an ACCUMULATE resolves holds another `frame_gen` bound, or is marked (R157, R445). -/
def State.bwdMoved (s : State) (slice : Nat) (n : PageName) (e : Entry) : Bool :=
  match s.accOf slice n with
  | none => false
  | some a => a.marked || (!a.lost && !a.poisoned && e.frameGen ≠ a.frameGen)

/-- One page of an ACCUMULATE at its admission (R157, R158). -/
def State.bwdPage (r idx slice cls : Nat) (p : BwdParams) (n : PageName) (s : State) : State :=
  let f := s.format slice
  let done (c : Code) (s : State) : State := s.onBwd r (fun l => l.set idx (.done c)) id
  if bwdExcluded f p n then done .ok s
  else match s.accCode slice p.accPass n with
    | .ok =>
      let (res, s) := (s.countLookahead slice n).resolve slice n
      match res with
      | .code c => done c s
      | .frame e =>
        let src := srcOf f n.block e
        ((s.onBwd r (fun l => l.set idx (.done .ok)) (· ++ [s.stage r idx p src (f.headsPerGroup * p.rowsPerHead)])).touchFrame src
          (List.range f.headsPerGroup)).bump
      | .await _ =>
        let tg : TileGroup := { members := [r], slice := slice, cls := cls, rows := min 32 p.rowsPerHead, cols := min 256 (PageFormatD f), bwd := true }
        let (k, s) := s.parkOn r idx slice cls s.now n tg 1
        (s.onBwd r (fun l => l.set idx (.waiting k 1 [])) id).awaitPage slice n 1
    | c => done c s

/-- Step 10 of ACCUMULATE: every page is computed or awaited; the commit follows in its turn. -/
def State.runAcc (h : ExtHdr) (p : BwdParams) (prev : Bool) (c : Ctx) (s : State) : State :=
  let f := s.format c.slice
  let names := bwdNames f p
  let (r, s) := s.addReq h 1 c prev (.bwd p (names.map (fun _ => .done .ok)) [])
  let cls := s.classOf c.slice c.group
  let s := (names.zipIdx).foldl (fun s x => s.bwdPage r x.2 c.slice cls p x.1) s
  s.updateStream c.slice p.handle p.group p.layer ((names.filter (fun n => !bwdExcluded f p n)).map PageName.block)

/-- ATTEND_BWD_ACCUMULATE. -/
def execAttendBwdAccumulate (h : ExtHdr) (p : BwdParams) (s : State) : Host.Outcome State Fault Refusal :=
  .next (s.whenUp (fun s => s.settle.extended h (.attendBwdAccumulate h p) (accSpec h p s)
    (fun c s => s.runAcc h p (s.onPrevious c.slice h.mapGen 0 p.handle true) c)))

/-! ## COLLECT and DISCARD -/

/-- The checks of COLLECT. -/
def collectSpec (h : ExtHdr) (p : BwdParams) (s : State) (c : Ctx) : ExtSpec :=
  let f := s.format c.slice
  bwdSpec h p c true (bwdCollectOk f p) (fun s => s.bwdConflict c.slice (bwdNames f p) p.accPass false false) (fun _ => .ok)

/-- Step 10 of COLLECT. -/
def State.runCollect (h : ExtHdr) (p : BwdParams) (prev : Bool) (c : Ctx) (s : State) : State :=
  let (r, s) := s.addReq h 1 c prev (.collect p)
  s.tryCollect r

/-- ATTEND_BWD_COLLECT. -/
def execAttendBwdCollect (h : ExtHdr) (p : BwdParams) (s : State) : Host.Outcome State Fault Refusal :=
  .next (s.whenUp (fun s => s.settle.extended h (.attendBwdCollect h p) (collectSpec h p s)
    (fun c s => s.runCollect h p (s.onPrevious c.slice h.mapGen 0 p.handle true) c)))

/-- The checks of DISCARD: no conflict (R157). -/
def discardSpec (h : ExtHdr) (p : BwdParams) (s : State) (c : Ctx) : ExtSpec :=
  bwdSpec h p c true (bwdOpenOk (s.format c.slice) p) (fun _ => .ok) (fun _ => .ok)

/-- Step 10 of DISCARD: the accumulators of the range are released whatever their pass. (DESIGN CHOICE, log entry 82.) -/
def State.runDiscard (h : ExtHdr) (p : BwdParams) (c : Ctx) (s : State) : State :=
  let names := bwdNames (s.format c.slice) p
  (names.foldl (fun s n => s.dropAcc c.slice n) s).respond h 1 0 .ok 0 (bwdReply (names.map (fun _ => .ok)))

/-- ATTEND_BWD_DISCARD. -/
def execAttendBwdDiscard (h : ExtHdr) (p : BwdParams) (s : State) : Host.Outcome State Fault Refusal :=
  .next (s.whenUp (fun s => s.settle.extended h (.attendBwdDiscard h p) (discardSpec h p s) (fun c s => s.runDiscard h p c)))

/-! ## Contexts that wake (R318, R322, R325) -/

/-- A woken context of an ACCUMULATE resolves its page again (R66, R463); one whose accumulator no longer binds the version found is
refused whole (R157). (DEDUCED, log entry 88.) -/
def State.wakeBwd (k : Nat) (c : ParkedCtx) (p : BwdParams) (s : State) : State :=
  let f := s.format c.slice
  let done (x : Code) (s : State) : State := s.onBwd c.req (fun l => l.set c.page (.done x)) id
  if c.slotState = 2 then done c.pageCode (s.freeCtx k)
  else
    let (res, s) := s.resolve c.slice c.name
    match res with
    | .code x => done x (s.freeCtx k)
    | .frame e =>
      let src := srcOf f c.name.block e
      let s := s.freeCtx k
      if s.bwdMoved c.slice c.name e then s.finishReq c.req .leaseConflict .none else
      ((s.onBwd c.req (fun l => l.set c.page (.done .ok))
        (· ++ [s.stage c.req c.page p src (f.headsPerGroup * p.rowsPerHead)])).touchFrame src (List.range f.headsPerGroup)).bump
    | .await _ =>
      if 16 ≤ c.tries + 1 then done .miss (s.freeCtx k)
      else (s.onParked k (fun x => { x with slotState := 0, tries := x.tries + 1 })).awaitPage c.slice c.name 1

/-- The first free cell for a context: any block of its slice in the region of its area (R322), any block where the slice has
none there (R325). -/
def State.cellFor (s : State) (c : ParkedCtx) : Option (Nat × Nat) :=
  let l := s.blocksOf c.slice
  let near := l.filter (fun b => b / 4 = c.region)
  (if near.isEmpty then l else near).findSome? (fun b =>
    ((s.workingPos b).find? (fun x => s.cellFree b x.2 c.cls && ((s.block b).cell x.2).shadow.isNone)).map (fun x => (b, x.2)))

/-- A ready context resumes (R322): a request's page is resolved again; a cell's tile group starts its restore (R318). -/
def State.resume (k : Nat) (s : State) : State :=
  match s.eng.ctxs.get? k with
  | none => s
  | some c =>
    if c.slotState = 0 ∨ c.saving.isSome ∨ c.restoring.isSome then s
    else match c.acc with
      | some _ =>
        match s.cellFor c with
        | none => s
        | some x => s.onParked k (fun c => { c with restoring := some x })
      | none =>
        match s.reqs.get? c.req with
        | none => s.freeCtx k
        | some q => match q.kind with
          | .attend p pages _ _ _ =>
            if c.slotState = 1 then
              let tot := s.rowsWaiting c.req c.slice c.name p.rowsPerHead
              (s.wakeFwd tot k c q p (waitSkips pages c.page)).wakeWaiting tot c.slice c.name
            else s.wakeFwd 0 k c q p (waitSkips pages c.page)
          | .bwd p _ _ => s.wakeBwd k c p
          | _ => s.freeCtx k

/-- CONTEXT_RESUME. -/
def execContextResume (ctx : Nat) (s : State) : Host.Outcome State Fault Refusal := .next (s.whenUp (State.resume ctx))

end Sys2Proof.Machine
end

