-- ==== Sys2Proof/Machine/Leases.lean ====
section
/-! DEFINITION. Leases and ownership: LEASE_ACQUIRE, LEASE_RENEW and LEASE_RELEASE (R210 to R213), PUBLISH of pages (R214), the
HANDOVER operations (R206 to R209), PIN and UNPIN (R244), and the ends that time brings (R208, R211). -/

namespace Sys2Proof.Machine

/-! ## Routing of requests that name a lease (R199) -/

/-- The open lease of a `lease_id` in a slice. -/
def State.leaseOf (s : State) (id : Nat) : Option Lease := (s.leaseById id).map Prod.snd

/-- Step 3 for a request that names a lease. -/
def State.routeLease (s : State) (slice gen id : Nat) : Routed :=
  match s.leaseOf id with
  | some l => s.routeName slice gen 0 l.params.handle true
  | none => s.routeGen gen

/-- The handle that a lease request's key must hold (R259). -/
def State.leaseHandle (s : State) (id : Nat) : Option Nat := (s.leaseOf id).map (fun l => l.params.handle)

/-- Step 8 of a renewal or release (R212, R213): an open lease of that epoch; BUSY while the unit that the `lease_id` names is lost
(R205, R211). -/
def State.leaseOpen (s : State) (id epoch : Nat) : Code :=
  if s.quarterBusy (id / 2 ^ 30 % 4) then .busy
  else match s.leaseOf id with
  | some l => if l.epoch = epoch then .ok else .leaseConflict
  | none => .leaseConflict

/-- Step 9 of a request that names a lease (R205). -/
def State.leaseBusy (s : State) (slice id : Nat) (r : Routed) : Code :=
  match s.leaseOf id with
  | some l => if s.homeBusy slice 0 l.params.handle r then .busy else .ok
  | none => .ok

/-! ## LEASE_ACQUIRE (R210, R212, R246) -/

/-- The names a lease asks for, in index order. -/
def leaseNames (p : LeaseParams) : List PageName := (List.range (leasePages p)).map (leaseName p)

/-! ## Changes of replicated pages (R204) -/

/-- The pages whose `page_state` or `frame_gen` a request changes. -/
def State.changedBy (s : State) (slice : Nat) (cmd : Instr) : List PageName :=
  let held (p : Lease → Bool) : List PageName := (s.home.leases.filter (fun l => l.2.slice = slice && p l.2)).flatMap (fun l => l.2.held)
  match cmd with
  | .publishPage _ p => match s.leaseOf p.leaseId with
    | some l => p.pages.map (fun g => leaseName l.params g.index)
    | none => []
  | .leaseAcquire _ p => leaseNames p
  | .leaseRelease _ p => held (fun l => l.leaseId = p.leaseId)
  | .handoverTransfer _ p => held (fun l => l.params.handle = p.handle)
  | .handoverDiscard _ p => (s.home.entries.filter (fun e => e.slice = slice && e.name.handle = p.handle)).map Entry.name
  | _ => []

/-- A request came under the previous map (R200). -/
def State.isPrevious (s : State) (gen : Nat) : Bool := s.home.prev.any (fun m => m.generation = gen)

/-- Admit a request at once, or, where it changes replicated pages, revoke their grants and admit it once they have ended (R203, R204).
(DEDUCED, log entry 67.) -/
def State.orRevoke (h : ExtHdr) (op : Nat) (cmd : Instr) (run : Ctx → State → State) (c : Ctx) (s : State) : State :=
  let ns := (s.changedBy c.slice cmd).filter (s.shared c.slice)
  if ns.isEmpty then run c s
  else ns.foldl (fun s n => s.revokeGrants c.slice n) (s.addReq h op c (s.isPrevious h.mapGen) (.held cmd)).2

/-! ## The checks and steps of an acquire -/

/-- Pages of a range that are TORN or TORN_NEW, a restart that their entries have not yet taken applied (R438). -/
def State.tornIn (s : State) (slice : Nat) (ns : List PageName) : Nat :=
  (ns.filter (fun n => match s.entry slice n with
    | some e => e.stateNow = .torn || e.stateNow = .tornNew
    | none => false)).length

/-- Another open lease holds one of the pages. -/
def State.leased (s : State) (slice : Nat) (ns : List PageName) : Bool :=
  s.home.leases.any (fun l => l.2.slice = slice && l.2.held.any ns.contains)

/-- Step 8 of an acquire (R212). -/
def State.acquireOwn (s : State) (slice : Nat) (p : LeaseParams) : Code :=
  let ns := leaseNames p
  match s.seqRec slice p.handle with
  | none => .leaseConflict
  | some r =>
    if r.seqState ≠ 1 ∨ r.epoch ≠ p.epoch ∨ s.leased slice ns ∨ (p.tornOk = 0 ∧ s.tornIn slice ns ≠ 0) ∨
      (p.writeMode = 1 ∧ ns.any (s.adopted slice)) then .leaseConflict else .ok

/-- A lease slot of a unit that may be issued (R211, R261). -/
def State.leaseSlot (s : State) (unit : Nat) : Option Nat :=
  ((List.range 16384).find? (fun i => (s.home.leases.get? (unit * 16384 + i)).isNone &&
    (s.home.leaseGens.getD (unit * 16384 + i) {}).fresh s.now)).map (· + unit * 16384)

/-- Give a page a write frame. -/
def State.giveWriteFrame (s : State) (slice : Nat) (n : PageName) : Option State :=
  (s.allocFrame slice n).map (fun r => r.2.onEntry slice n (fun e => { e with writeValid := true, writeFrame := r.1 }))

/-- Prepare one page of an acquire (R212): the state after, and the page's standing before (none: a new entry). -/
def State.leasePage (s : State) (slice : Nat) (p : LeaseParams) (n : PageName) : Option (Option PageState × State) :=
  let s := s.refresh slice n
  match s.entry slice n with
  | none =>
    match s.newEntry slice n with
    | none => none
    | some s => (s.giveWriteFrame slice n).map (fun s => (none, s.onEntry slice n (fun e => { e with pageState := .writeOpenNew })))
  | some e =>
    match e.pageState with
    | .unpublished => (s.giveWriteFrame slice n).map (fun s => (some e.pageState, s.setPageState slice n .writeOpenNew))
    | .tornNew => (s.giveWriteFrame slice n).map (fun s => (some e.pageState, s.setPageState slice n .writeOpenNew))
    | .writeOpenNew => none
    | _ =>
      if p.writeMode = 0 then some (some e.pageState, s.setPageState slice n .writeOpen)
      else (s.giveWriteFrame slice n).map (fun s => (some e.pageState, s.setPageState slice n .writeOpen))

/-- Prepare every page; none where one cannot be (R212). Answers the names made and the states before. -/
def State.leasePagesAll (s : State) (slice : Nat) (p : LeaseParams) :
    List PageName → Option (List PageName × List (PageName × PageState) × State)
  | [] => some ([], [], s)
  | n :: t =>
    match s.leasePage slice p n with
    | none => none
    | some (b, s) =>
      (State.leasePagesAll s slice p t).map (fun r => match b with
        | none => (n :: r.1, r.2.1, r.2.2)
        | some st => (r.1, (n, st) :: r.2.1, r.2.2))

/-- Step 9 of an acquire (R205, R212). -/
def State.acquireBusy (s : State) (slice : Nat) (p : LeaseParams) (r : Routed) : Code :=
  let open_ := match s.seqRec slice p.handle with
    | some x => x.openLeases
    | none => 0
  if s.homeBusy slice 0 p.handle r || 65535 ≤ open_ || (s.leaseSlot (s.quarterOf slice p.handle)).isNone ||
    (s.leasePagesAll slice p (leaseNames p)).isNone then .busy else .ok

/-- A new name-table entry cannot be made for some page (R63): its buckets are full, or the slice's quota would be passed. -/
def State.nameFull (s : State) (slice : Nat) (ns : List PageName) : Bool :=
  let fresh := ns.filter (fun n => (s.entry slice n).isNone)
  fresh.any (fun n => (s.newEntry slice n).isNone) ||
    (s.cfg slice).entryQuota < (s.home.entries.filter (fun e => e.slice = slice)).length + fresh.length

/-- The checks of an acquire. -/
def acquireSpec (h : ExtHdr) (p : LeaseParams) (c : Ctx) : ExtSpec :=
  { op := 4
    parses := acquireOk p
    routed := fun s => s.routeName c.slice h.mapGen 0 p.handle false
    right := some 5
    bound := some p.handle
    own := fun s => s.homeOr c.slice 0 p.handle (s.routeName c.slice h.mapGen 0 p.handle false) (s.acquireOwn c.slice p)
    busy := fun s => s.acquireBusy c.slice p (s.routeName c.slice h.mapGen 0 p.handle false)
    refusal := fun code s => if code = .leaseConflict && p.tornOk = 0 && s.tornIn c.slice (leaseNames p) ≠ 0 then
      .torn (s.tornIn c.slice (leaseNames p)) else .none
    refused := fun code s => if code = .busy && s.nameFull c.slice (leaseNames p) then s.countNameRefusal else s }

/-- An append, or a rewrite that copies, waits for the data of its published pages (R246). -/
def State.mustLand (s : State) (slice : Nat) (p : LeaseParams) (n : PageName) : Bool :=
  match s.entry slice n with
  | none => false
  | some e => e.pageState = .writeOpen && (p.writeMode = 0 || p.copyOld = 1) &&
      (e.frameState = .flash || e.frameState = .filling || e.frameState = .dropped)

/-- Step 10 of an acquire: the record is made; the grant is sent when every fill has landed (R212, R246). (DESIGN CHOICE, log entry 16.) -/
def State.runAcquire (h : ExtHdr) (p : LeaseParams) (prev : Bool) (c : Ctx) (s : State) : State :=
  let ns := leaseNames p
  match s.leaseSlot (s.quarterOf c.slice p.handle), s.leasePagesAll c.slice p ns with
  | some slot, some (made, pre, s) =>
    let g := s.home.leaseGens.getD slot {}
    let inc := (g.incarnation + 1) % 65536
    let l : Lease := { leaseId := slot / 16384 * 2 ^ 30 + slot % 16384 * 65536 + inc, holder := c.rid, epoch := p.epoch, slice := c.slice,
                       params := p, expiry := 2 ^ 80, keyGen := g.gen,
                       appends := if p.writeMode = 0 then (List.range ns.length).filter (fun i =>
                         match s.entry c.slice (ns.getD i {}) with
                         | some e => e.pageState = .writeOpen
                         | none => false) else [], mapGen := h.mapGen }
    let s := s.onHome (fun x => { x with
      leases := x.leases.set slot l
      leaseGens := x.leaseGens.set slot { g with incarnation := inc } })
    let s := s.onSeq c.slice p.handle (fun r => { r with openLeases := r.openLeases + 1 })
    let wait := ns.filter (s.mustLand c.slice p)
    let (r, s) := s.addReq h 4 c prev (.acquire p wait slot made pre)
    if wait.isEmpty then s.grantLease r slot else wait.foldl (fun s n => s.awaitPage c.slice n 1) s
  | _, _ => s

/-- Admission of an acquire (R203, R204). -/
def State.admitAcquire (h : ExtHdr) (p : LeaseParams) (c : Ctx) (s : State) : State :=
  s.orRevoke h 4 (.leaseAcquire h p) (fun c s => s.runAcquire h p (s.isPrevious h.mapGen) c) c

/-- LEASE_ACQUIRE, acquire form. -/
def execLeaseAcquire (h : ExtHdr) (p : LeaseParams) (s : State) : Host.Outcome State Fault Refusal :=
  .next (s.whenUp (fun s => s.settle.extended h (.leaseAcquire h p) (acquireSpec h p)
    (State.admitAcquire h p)))

/-! ## LEASE_RENEW and LEASE_RELEASE -/

/-- The checks of a renewal (R199, R212). -/
def renewSpec (h : ExtHdr) (p : LeaseParams) (s : State) (c : Ctx) : ExtSpec :=
  { op := 4
    parses := renewOk p
    routed := fun s => s.routeLease c.slice h.mapGen p.leaseId
    right := some 5
    bound := s.leaseHandle p.leaseId
    own := fun s => s.leaseOpen p.leaseId p.epoch
    busy := fun s => s.leaseBusy c.slice p.leaseId (s.routeLease c.slice h.mapGen p.leaseId) }

/-- Step 10 of a renewal: the expiry is now + `lease_ms`. -/
def State.runRenew (h : ExtHdr) (p : LeaseParams) (s : State) : State :=
  match s.leaseById p.leaseId with
  | none => s
  | some x =>
    let ex := s.now + p.leaseMs * 1000000
    let s := s.onHome (fun y => { y with leases := y.leases.modify x.1 (fun l => { l with expiry := ex }) })
    s.respond h 4 0 .ok 0 (.grant x.2.leaseId ex (mkKey 2 x.1 x.2.keyGen) (x.2.held.map (fun n => match s.entry x.2.slice n with
      | some e => e.fill
      | none => 0)))

/-- LEASE_ACQUIRE, renew form. -/
def execLeaseRenew (h : ExtHdr) (p : LeaseParams) (s : State) : Host.Outcome State Fault Refusal :=
  .next (s.whenUp (fun s => s.settle.extended h (.leaseRenew h p) (renewSpec h p s.settle) (fun _ s => s.runRenew h p)))

/-- The checks of a release (R213). -/
def releaseSpec (h : ExtHdr) (p : ReleaseParams) (s : State) (c : Ctx) : ExtSpec :=
  { op := 5
    parses := releaseOk p
    routed := fun s => s.routeLease c.slice h.mapGen p.leaseId
    right := some 5
    bound := s.leaseHandle p.leaseId
    own := fun s => s.leaseOpen p.leaseId p.epoch
    busy := fun s => s.leaseBusy c.slice p.leaseId (s.routeLease c.slice h.mapGen p.leaseId) }

/-- Step 10 of a release. -/
def State.runRelease (h : ExtHdr) (p : ReleaseParams) (s : State) : State :=
  match s.leaseById p.leaseId with
  | none => s
  | some x => (s.endLease x.1 (if p.discard = 1 then .discard else .abandon)).respond h 5 0 .ok 0 .none

/-- Admission of a release (R203, R204). -/
def State.admitRelease (h : ExtHdr) (p : ReleaseParams) (c : Ctx) (s : State) : State :=
  s.orRevoke h 5 (.leaseRelease h p) (fun _ s => s.runRelease h p) c

/-- LEASE_RELEASE. -/
def execLeaseRelease (h : ExtHdr) (p : ReleaseParams) (s : State) : Host.Outcome State Fault Refusal :=
  .next (s.whenUp (fun s => s.settle.extended h (.leaseRelease h p) (releaseSpec h p s.settle) (State.admitRelease h p)))

/-! ## PUBLISH, page form (R68, R69, R214) -/

/-- The page of an index is still under its lease and open. -/
def State.openPageOf (s : State) (l : Lease) (i : Nat) : Option Entry :=
  if leasePages l.params ≤ i ∨ l.left.contains i then none
  else match s.entry l.slice (leaseName l.params i) with
    | none => none
    | some e => if e.pageState = .writeOpen ∨ e.pageState = .writeOpenNew then some e else none

/-- A publication of the page is an append: it is open without a write frame (R212, R214). -/
def Entry.appends (e : Entry) : Bool := e.pageState = .writeOpen && !e.writeValid

/-- An append keeps the page's fill and INT8 scales (R99, R214). -/
def appendOk (f : PageFormat) (e : Entry) (g : PagePub) : Bool :=
  e.fill ≤ g.fill && (f.keyFormat ≠ 2 || g.keyScale = e.keyScale) &&
    (f.latent = 1 || f.valueFormat ≠ 2 || g.valueScale = e.valueScale)

/-- Step 8 of a page-form PUBLISH (R214). -/
def State.publishOwn (s : State) (p : PublishParams) : Code :=
  match s.leaseOf p.leaseId with
  | none => if s.quarterBusy (p.leaseId / 2 ^ 30 % 4) then .busy else .leaseConflict
  | some l =>
    if s.quarterBusy (p.leaseId / 2 ^ 30 % 4) then .busy
    else if l.epoch ≠ p.epoch then .leaseConflict
    else if p.pages.all (fun g => match s.openPageOf l g.index with
      | none => false
      | some e => !e.appends || appendOk (s.format l.slice) e g) then .ok else .formatError

/-- The checks of a page-form PUBLISH. -/
def publishSpec (h : ExtHdr) (p : PublishParams) (s : State) (c : Ctx) : ExtSpec :=
  { op := 3
    parses := publishOk (s.format c.slice) p
    routed := fun s => s.routeLease c.slice h.mapGen p.leaseId
    right := some 3
    bound := s.leaseHandle p.leaseId
    own := fun s => s.publishOwn p
    busy := fun s => s.leaseBusy c.slice p.leaseId (s.routeLease c.slice h.mapGen p.leaseId) }

/-- The frames that a rewrite replaces are retired (R66, R69); a running demotion or recovery ends. A fill is not cancelled: its frame
is retired when it lands (R225, R246). -/
def State.retireOld (slice : Nat) (n : PageName) (s : State) : State :=
  match s.entry slice n with
  | none => s
  | some e =>
    let k := frameGranules (s.format slice)
    let s := if e.frameState.inStack then s.retireUnit e.quarter e.stackFrame k else s
    let s := if e.frameState.onFlash then s.retireExtent e.quarter e.flashDrive e.flashGranule k else s
    let s := if e.frameState = .demoting then s.dropCmds e.flashDrive slice n else s
    let s := if e.frameState = .filling then s else s.endFill slice n
    s.retireShadow slice n

/-- The scales that an entry holds for a page (R61): zero where the format has none. -/
def pageScales (f : PageFormat) (g : PagePub) : Nat × Nat :=
  (if f.keyFormat = 2 then g.keyScale else 0, if f.latent = 0 ∧ f.valueFormat = 2 then g.valueScale else 0)

/-- The write frame becomes the page's stack frame (R69, R214): `frame_gen` rises, accumulators are marked (R445). -/
def State.installFrame (slice : Nat) (n : PageName) (g : PagePub) (s : State) : State :=
  ((s.retireOld slice n).onEntry slice n (fun e => { e with
    stackFrame := e.writeFrame
    writeValid := false
    frameState := .stack
    fill := g.fill
    keyScale := (pageScales (s.format slice) g).1
    valueScale := (pageScales (s.format slice) g).2 })).bumpGen slice n false

/-- Publish one page (R214): the Hull record is written before an append's fill is raised (R68); requests, PINs and writes that waited
for the data that a rewrite replaces go on with the new frame. (DEDUCED, log entry 17.) -/
def State.publishPage (slice : Nat) (keep : Bool) (n : PageName) (g : PagePub) (s : State) : State :=
  let s := s.refresh slice n
  match s.entry slice n with
  | none => s
  | some e =>
    let rep := (s.replicaOf slice n).isSome
    let s := if rep then s.revokeGrants slice n else s
    let s := if e.appends then
        (if g.fill = e.fill ∧ e.hullValid then s else s.writeHull slice n e.keyScale g.fill).onEntry slice n (fun e => { e with fill := g.fill })
      else
        ((((s.installFrame slice n g).writeHull slice n g.keyScale g.fill).onMem (fun m => { m with
          waits := m.waits.filter (fun w => !(w.slice = slice && w.name = n)) })).writeSlots slice n 1 .ok).tellFate slice n .landed
    let s := s.onEntry slice n (fun e => { e with pageState := if keep then .writeOpen else .published })
    if rep then s.copyOut slice n else s

/-- Step 10 of a page-form PUBLISH: its pages in index order; a lease left with none ends (R211). -/
def State.runPublish (h : ExtHdr) (p : PublishParams) (s : State) : State :=
  match s.leaseById p.leaseId with
  | none => s
  | some x =>
    let gs := sortBy (fun (a b : PagePub) => decide (a.index < b.index)) p.pages
    let s := gs.foldl (fun s g => s.publishPage x.2.slice (p.keepOpen = 1) (leaseName x.2.params g.index) g) s
    let ids := gs.map PagePub.index
    let s := s.onHome (fun y => { y with leases := y.leases.modify x.1 (fun l =>
      if p.keepOpen = 1 then { l with appends := (l.appends ++ ids).eraseDups } else { l with left := l.left ++ ids }) })
    let s := match s.home.leases.get? x.1 with
      | some l => if l.held.isEmpty then s.endLease x.1 .tear else s
      | none => s
    s.respond h 3 0 .ok 0 .none

/-- Admission of a page-form PUBLISH (R203, R204). -/
def State.admitPublish (h : ExtHdr) (p : PublishParams) (c : Ctx) (s : State) : State :=
  s.orRevoke h 3 (.publishPage h p) (fun _ s => s.runPublish h p) c

/-- PUBLISH_PAGE. -/
def execPublishPage (h : ExtHdr) (p : PublishParams) (s : State) : Host.Outcome State Fault Refusal :=
  .next (s.whenUp (fun s => s.settle.extended h (.publishPage h p) (publishSpec h p s.settle) (State.admitPublish h p)))

/-! ## HANDOVER (R206 to R209) -/

/-- Largest epoch. -/
def maxEpoch : Nat := 2 ^ 48 - 1

/-- The response of a HANDOVER. -/
def State.handoverBody (s : State) (slice handle torn : Nat) : RespBody :=
  match s.seqRec slice handle with
  | some r => .handover r.epoch r.ownerTag r.seqState torn
  | none => .handover 0 0 0 torn

/-- Records of a bucket of the sequence-record area (R206). -/
def State.seqBucketCount (s : State) (q b : Nat) : Nat :=
  (s.home.seqs.filter (fun r => s.quarterOf r.slice r.handle = q && r.bucket = b)).length

/-- The candidate bucket for a new record (R206); none where both are full. -/
def State.seqBucket (s : State) (slice handle : Nat) : Option Nat :=
  let x := s.seqHash slice handle
  let q := x % 4
  let b0 := bits x 17 2
  let b1 := bits x 49 34
  let c0 := s.seqBucketCount q b0
  let c1 := s.seqBucketCount q b1
  if 64 ≤ c0 ∧ 64 ≤ c1 then none else some (if c1 < c0 then b1 else b0)

/-- Step 8 of a transfer (R208). -/
def State.transferOwn (s : State) (slice : Nat) (p : HandoverParams) : Code :=
  match s.seqRec slice p.handle with
  | none => if p.expectedEpoch = 0 then .ok else .leaseConflict
  | some r =>
    if r.seqState ≠ 1 ∨ r.epoch ≠ p.expectedEpoch then .leaseConflict
    else if r.epoch = maxEpoch then .busy
    else if r.openLeases ≠ 0 ∧ p.requireIdle = 1 then .leaseConflict
    else .ok

/-- What every HANDOVER checks. -/
def handoverSpec (h : ExtHdr) (p : HandoverParams) (c : Ctx) (parses readLike : Bool) (own busy : State → Code) : ExtSpec :=
  { op := 6
    parses := parses
    routed := fun s => s.routeName c.slice h.mapGen 0 p.handle readLike
    right := some 6
    bound := some p.handle
    own := fun s => s.homeOr c.slice 0 p.handle (s.routeName c.slice h.mapGen 0 p.handle readLike) (own s)
    busy := busy
    refusal := fun code s => if code = .leaseConflict || code = .busy then s.handoverBody c.slice p.handle 0 else .none }

/-- Pages that open leases of a sequence hold, and that their tearing makes torn. -/
def State.openPages (s : State) (slice handle : Nat) : Nat :=
  ((s.home.leases.filter (fun l => l.2.slice = slice && l.2.params.handle = handle && (s.waitingAcquire l.1).isNone)).map (fun l =>
    (l.2.held.filter (fun n => match s.entry slice n with
      | some e => e.pageState = .writeOpen || e.pageState = .writeOpenNew
      | none => false)).length)).sum

/-- Step 10 of a transfer (R208). -/
def State.runTransfer (h : ExtHdr) (p : HandoverParams) (c : Ctx) (s : State) : State :=
  match s.seqRec c.slice p.handle with
  | none =>
    match s.seqBucket c.slice p.handle with
    | none => s
    | some b =>
      let r : SeqRec := { handle := p.handle, slice := c.slice, epoch := 1, seqState := 1, ownerTag := p.newOwner,
                          lastHandover := s.now, lastRequester := c.rid, bucket := b }
      let s := (s.onHome (fun x => { x with seqs := x.seqs ++ [r] })).clearMark
      s.respond h 6 0 .ok 0 (s.handoverBody c.slice p.handle 0)
  | some _ =>
    let torn := s.openPages c.slice p.handle
    let s := s.onSeq c.slice p.handle (fun r => { r with
      epoch := r.epoch + 1, ownerTag := p.newOwner, lastHandover := s.now, lastRequester := c.rid })
    let s := (s.endLeases (fun l => l.slice = c.slice && l.params.handle = p.handle) .tear).clearMark
    s.respond h 6 0 .ok 0 (s.handoverBody c.slice p.handle torn)

/-- The checks of a transfer. -/
def transferSpec (h : ExtHdr) (p : HandoverParams) (c : Ctx) : ExtSpec :=
  handoverSpec h p c (hvTransferOk p) false (fun s => s.transferOwn c.slice p)
    (fun s => if (s.seqRec c.slice p.handle).isNone && (s.seqBucket c.slice p.handle).isNone then .busy else .ok)

/-- Admission of a transfer (R203, R204). -/
def State.admitTransfer (h : ExtHdr) (p : HandoverParams) (c : Ctx) (s : State) : State :=
  s.orRevoke h 6 (.handoverTransfer h p) (fun c s => s.runTransfer h p c) c

/-- HANDOVER_TRANSFER. -/
def execHandoverTransfer (h : ExtHdr) (p : HandoverParams) (s : State) : Host.Outcome State Fault Refusal :=
  .next (s.whenUp (fun s => s.settle.extended h (.handoverTransfer h p) (transferSpec h p) (State.admitTransfer h p)))

/-- Step 8 of a discard (R208). -/
def State.discardOwn (s : State) (slice : Nat) (p : HandoverParams) : Code :=
  match s.seqRec slice p.handle with
  | none => .leaseConflict
  | some r => if r.seqState = 1 ∧ r.epoch = p.expectedEpoch then .ok else .leaseConflict

/-- Step 10 of a discard (R208): the leases end without tearing, every page but those with adopted positions is discarded, the
record is a tombstone. -/
def State.runHvDiscard (h : ExtHdr) (p : HandoverParams) (c : Ctx) (s : State) : State :=
  let s := s.endLeases (fun l => l.slice = c.slice && l.params.handle = p.handle) .discard
  let ns := (s.home.entries.filter (fun e => e.slice = c.slice && e.name.handle = p.handle)).map Entry.name
  let s := ns.foldl (fun s n => if s.adopted c.slice n then s else s.discardPage c.slice n) s
  let s := (s.onSeq c.slice p.handle (fun r => { r with
    epoch := if r.epoch = maxEpoch then r.epoch else r.epoch + 1
    seqState := 2
    tombUntil := s.now + (s.cfg c.slice).tombTtl * 1000000000
    lastHandover := if r.epoch = maxEpoch then r.lastHandover else s.now
    lastRequester := if r.epoch = maxEpoch then r.lastRequester else c.rid })).clearMark
  s.respond h 6 0 .ok 0 (s.handoverBody c.slice p.handle 0)

/-- The checks of a discard. -/
def hvDiscardSpec (h : ExtHdr) (p : HandoverParams) (c : Ctx) : ExtSpec :=
  handoverSpec h p c (hvDiscardOk p) false (fun s => s.discardOwn c.slice p) (fun _ => .ok)

/-- Admission of a discard (R203, R204). -/
def State.admitHvDiscard (h : ExtHdr) (p : HandoverParams) (c : Ctx) (s : State) : State :=
  s.orRevoke h 6 (.handoverDiscard h p) (fun c s => s.runHvDiscard h p c) c

/-- HANDOVER_DISCARD. -/
def execHandoverDiscard (h : ExtHdr) (p : HandoverParams) (s : State) : Host.Outcome State Fault Refusal :=
  .next (s.whenUp (fun s => s.settle.extended h (.handoverDiscard h p) (hvDiscardSpec h p) (State.admitHvDiscard h p)))

/-- HANDOVER_QUERY. -/
def execHandoverQuery (h : ExtHdr) (p : HandoverParams) (s : State) : Host.Outcome State Fault Refusal :=
  .next (s.whenUp (fun s => s.settle.extended h (.handoverQuery h p)
    (fun c => handoverSpec h p c (hvQueryOk p) true (fun _ => .ok) (fun _ => .ok))
    (fun c s => s.respond h 6 0 .ok 0 (s.handoverBody c.slice p.handle 0))))

/-! ## Requests that waited for a revocation (R203, R204) -/

/-- Steps 8 and 9 of a request again, at its admission, then its step 10. -/
def State.again (h : ExtHdr) (c : Ctx) (sp : ExtSpec) (run : Ctx → State → State) (s : State) : State :=
  match sp.own s with
  | .ok => match sp.busy s with
    | .ok => run c s
    | e => s.extRefuse h c sp e
  | e => s.extRefuse h c sp e

/-- Admit a request that waited. -/
def State.readmit (c : Ctx) (cmd : Instr) (s : State) : State :=
  match cmd with
  | .publishPage h p => s.again h c (publishSpec h p s c) (State.admitPublish h p)
  | .leaseAcquire h p => s.again h c (acquireSpec h p c) (State.admitAcquire h p)
  | .leaseRelease h p => s.again h c (releaseSpec h p s c) (State.admitRelease h p)
  | .handoverTransfer h p => s.again h c (transferSpec h p c) (State.admitTransfer h p)
  | .handoverDiscard h p => s.again h c (hvDiscardSpec h p c) (State.admitHvDiscard h p)
  | _ => s

/-- Admit, in the order of their arrival, the requests that wait for no grant any more. -/
def State.readmitHeld (s : State) : State :=
  s.reqs.foldl (fun s q => match q.2.kind with
    | .held cmd =>
      if (s.changedBy q.2.slice cmd).any (s.shared q.2.slice) then s
      else match s.ctx q.2.qpn with
        | none => s.dropReq q.1
        | some c => (s.dropReq q.1).readmit c cmd
    | _ => s) s

/-! ## PIN and UNPIN (R244, R251) -/

/-- The pages a PIN names. -/
def pinNames (p : PinParams) : List PageName :=
  (List.range (p.layerCount + 1)).flatMap (fun l => (List.range (p.hgCount + 1)).flatMap (fun g =>
    (List.range (p.blockCount + 1)).map (fun b =>
      { handle := p.handle, layer := p.layerFirst + l, group := p.hgFirst + g, block := p.blockFirst + b })))

/-- Some page is at its largest pin count (R70). -/
def State.pinFull (s : State) (slice : Nat) (p : PinParams) : Bool :=
  s.home.entries.any (fun e => e.slice = slice && e.pinCount = 65535 && (pinNames p).contains e.name)

/-- The checks of PIN and UNPIN. -/
def pinSpec (op : Nat) (h : ExtHdr) (p : PinParams) (c : Ctx) : ExtSpec :=
  { op := op
    parses := pinOk p
    routed := fun s => s.routeName c.slice h.mapGen 0 p.handle (op = 8)
    right := some 7
    bound := some p.handle
    busy := fun s => if s.homeBusy c.slice 0 p.handle (s.routeName c.slice h.mapGen 0 p.handle (op = 8)) ||
      (op = 7 && s.pinFull c.slice p) then .busy else .ok }

/-- Replica records that a home unit may hold (R238). -/
def replicaMax : Nat := 16384

/-- A page begins to be replicated (R238): on the first `rep_copies` nodes of `rep_nodes`; a full table counts a skip. -/
def State.startReplica (slice : Nat) (n : PageName) (s : State) : State :=
  let t := (s.cfg slice).tier
  let q := s.quarterOf slice n.handle
  if t.repCopies = 0 ∨ (s.replicaOf slice n).isSome then s
  else if replicaMax ≤ (s.home.replicas.filter (fun r => s.quarterOf r.slice r.name.handle = q)).length then
    s.onHome (fun h => { h with replicaSkips := inc32 h.replicaSkips })
  else
    (s.onHome (fun h => { h with replicas := h.replicas ++
      [{ slice := slice, name := n, copies := (t.repNodes.take t.repCopies).map (fun k => { node := k }) }] })).copyOut slice n

/-- A prefix node with enough hard references adopts positions of the page (R238). -/
def State.refsReplicate (s : State) (slice : Nat) (n : PageName) : Bool :=
  let m := (s.cfg slice).tier.repMinRefs
  m ≠ 0 && s.locus.nodes.any (fun x => x.2.slice = slice && m ≤ x.2.hardRefs && nodeOnPage (PageFormatT (s.format slice)) n x.2)

/-- A page stops being replicated where no reason is left (R238, R239). -/
def State.endReplica (slice : Nat) (n : PageName) (s : State) : State :=
  match s.replicaOf slice n with
  | none => s
  | some r => if r.pins = 0 ∧ !s.refsReplicate slice n then s.dropReplica slice n else s

/-- Where a page stands for a PIN. -/
inductive PinAt where
  | missing | lost | pinned | waits
deriving DecidableEq, Repr

/-- Classify a page (R244). -/
def State.pinAt (s : State) (slice : Nat) (n : PageName) : PinAt :=
  match s.entry slice n with
  | none => .missing
  | some e =>
    if !e.pageState.published? ∨ e.frameState = .allocated then .missing
    else if e.frameState = .poisoned then .lost
    else if e.frameState.inStack then .pinned
    else .waits

/-- Pin one page (R70, R244). -/
def State.pinPage (slice : Nat) (rep : Bool) (n : PageName) (s : State) : State :=
  match s.entry slice n with
  | none => s
  | some _ =>
    let s := s.onEntry slice n (fun e => { e with pinCount := e.pinCount + 1 })
    if rep then (s.startReplica slice n).onReplica slice n (fun r => { r with pins := r.pins + 1 }) else s

/-- Step 10 of PIN. (DESIGN CHOICE, log entry 27.) -/
def State.runPin (h : ExtHdr) (p : PinParams) (prev : Bool) (c : Ctx) (s : State) : State :=
  let ns := pinNames p
  let s := ns.foldl (fun s n => (s.refresh c.slice n).pinPage c.slice (p.replicate = 1) n) s
  let count (x : PinAt) : Nat := (ns.filter (fun n => s.pinAt c.slice n = x)).length
  let wait := ns.filter (fun n => s.pinAt c.slice n = .waits)
  let (r, s) := s.addReq h 7 c prev (.pin p wait (count .pinned) (count .missing) (count .lost))
  if wait.isEmpty then s.finishReq r .ok (.pins (count .pinned) (count .missing) (count .lost))
  else wait.foldl (fun s n => s.awaitPage c.slice n 1) s

/-- PIN. -/
def execPin (h : ExtHdr) (p : PinParams) (s : State) : Host.Outcome State Fault Refusal :=
  .next (s.whenUp (fun s => s.settle.extended h (.pin h p) (pinSpec 7 h p)
    (fun c s => s.runPin h p (s.onPrevious c.slice h.mapGen 0 p.handle false) c)))

/-- Unpin one page; whether its count was lowered. -/
def State.unpinPage (slice : Nat) (rep : Bool) (n : PageName) (s : State) : Bool × State :=
  match s.entry slice n with
  | none => (false, s)
  | some e =>
    let s := if rep then (s.onReplica slice n (fun r => { r with pins := r.pins - 1 })).endReplica slice n else s
    (e.pinCount ≠ 0, s.onEntry slice n (fun e => { e with pinCount := e.pinCount - 1 }))

/-- Step 10 of UNPIN. -/
def State.runUnpin (h : ExtHdr) (p : PinParams) (c : Ctx) (s : State) : State :=
  let ns := pinNames p
  let (k, s) := ns.foldl (fun (a : Nat × State) n =>
    let r := a.2.unpinPage c.slice (p.replicate = 1) n
    (a.1 + b2n r.1, r.2)) (0, s)
  s.respond h 8 0 .ok 0 (.pins k (ns.length - k) 0)

/-- UNPIN. -/
def execUnpin (h : ExtHdr) (p : PinParams) (s : State) : Host.Outcome State Fault Refusal :=
  .next (s.whenUp (fun s => s.settle.extended h (.unpin h p) (pinSpec 8 h p) (fun c s => s.runUnpin h p c)))

/-! ## Ends that time brings -/

/-- LEASE_EXPIRY: the lease of a slot whose expiry is reached ends (R211). (DEDUCED, log entry 3.) -/
def State.expireLease (key : Nat) (s : State) : State :=
  match s.home.leases.get? key with
  | none => s
  | some l => if l.expiry ≤ s.now then s.endLease key .tear else s

/-- LEASE_EXPIRY. -/
def execLeaseExpiry (unit : Fin 4) (slot : Nat) (s : State) : Host.Outcome State Fault Refusal :=
  .next (s.whenUp (State.expireLease (unit * 16384 + slot % 16384)))

/-- TOMBSTONE_EXPIRY: a tombstone whose end has passed becomes free (R208). (DEDUCED, log entry 3.) -/
def State.expireTomb (slice handle : Nat) (s : State) : State :=
  s.dropTombs (fun r => r.slice = slice && r.handle = handle)

/-- TOMBSTONE_EXPIRY. -/
def execTombstoneExpiry (slice : Fin 8) (handle : Nat) (s : State) : Host.Outcome State Fault Refusal :=
  .next (s.whenUp (State.expireTomb slice handle))

end Sys2Proof.Machine
end

