-- ==== Sys2Proof/Machine/Locus.lean ====
section
/-! DEFINITION. The prefix directory: chained keys (R167), cascades and their searches (R170 to R175), holes and insertions
(R176, R177), the overflow table (R179, R180), prefix-tree nodes (R181, R182), eviction and rebuilding (R192, R193, R464), and
the requests LOOKUP (R184 to R186), PUBLISH of prefixes and its release (R187 to R191). -/

namespace Sys2Proof.Machine

/-! ## Keys (R167) -/

/-- The key of one block under a hash key. -/
def pfxKey (key prev : Nat) (tokens : List Nat) (epoch : Nat) : Nat :=
  sipHash key (leBytes 8 prev ++ tokens.flatMap (leBytes 4) ++ leBytes 8 epoch)

/-- The keys of consecutive blocks; `key2` is 0 outside a wide cascade. -/
def pfxChain (l : LocusCfg) (epoch : Nat) : Nat → Nat → List (List Nat) → List (Nat × Nat)
  | _, _, [] => []
  | p, p2, t :: ts =>
    let k := pfxKey l.key p t epoch
    let k2 := if l.wide = 1 then pfxKey l.keyB p2 t epoch else 0
    (k, k2) :: pfxChain l epoch k k2 ts

/-! ## Cascades (R172 to R176) -/

/-- The Locus records in force: while a cascade is moved, searches use the old one (R307). -/
def State.pfx (s : State) (slice : Nat) : LocusCfg :=
  match (s.slice slice).changes.findSome? (fun c => match c with
    | .moveCascade o => some o
    | _ => none) with
  | some o => { (s.cfg slice).locus with firstBlock := o.firstBlock, blocks := o.blocks, wide := o.wide }
  | none => (s.cfg slice).locus

/-- Blocks that one slot takes: a pair in a wide cascade. -/
def pfxWays (l : LocusCfg) : Nat := if l.wide = 1 then 2 else 1

/-- Slots of a cascade. -/
def pfxSlots (l : LocusCfg) : Nat := l.blocks / pfxWays l * 65536

/-- The table key of a cascade address: block × 65,536 + index, a pair's by its even block. -/
def pfxSlot (l : LocusCfg) (a : Nat) : Nat := (l.firstBlock + a / 65536 * pfxWays l) * 65536 + a % 65536

/-- The cascade address of a table key (R172). -/
def pfxAddr (l : LocusCfg) (k : Nat) : Nat := (k / 65536 - l.firstBlock) / pfxWays l * 65536 + k % 65536

/-- A Locus block matches: it is not lost to a fence, and its island runs (R175, R464). -/
def State.locusLive (s : State) (b : Nat) : Bool :=
  !s.locus.lostBlocks.contains b && !s.aon.stopped.contains (78 + b / 2) && !s.aon.failed.contains (78 + b / 2)

/-- A slot can hold an entry: its blocks match and its group is not withdrawn (R356, R464). -/
def State.slotLive (s : State) (l : LocusCfg) (a : Nat) : Bool :=
  (List.range (pfxWays l)).all (fun i =>
    let b := l.firstBlock + a / 65536 * pfxWays l + i
    s.locusLive b && !s.locus.deadGroups.contains (b, a % 65536 / 16))

/-- The live entries of a cascade by rising cascade address. -/
def State.cascade (s : State) (l : LocusCfg) : List (Nat × LEntry) :=
  (s.locus.entries.filter (fun e => l.firstBlock ≤ e.1 / 65536 && e.1 / 65536 < l.firstBlock + l.blocks)).filterMap (fun e =>
    let a := pfxAddr l e.1
    if s.slotLive l a then some (a, e.2) else none)

/-- The entries of a cascade that its lost blocks do not take: those of a stopped island among them (R175, R464). -/
def State.keptEntries (s : State) (l : LocusCfg) : List (Nat × LEntry) :=
  (s.locus.entries.filter (fun e => l.firstBlock ≤ e.1 / 65536 && e.1 / 65536 < l.firstBlock + l.blocks)).map (fun e =>
    (pfxAddr l e.1, e.2))

/-- The compared bits of an entry match (R171, R172). -/
def LEntry.hit (l : LocusCfg) (key key2 tenant epoch16 : Nat) (e : LEntry) : Bool :=
  e.key = key && (l.wide = 0 || e.key2 = key2) && e.epoch16 = epoch16 && (e.isPublic || e.tenant = tenant)

/-- What a search wins (R172, R180): a cascade address, or an overflow entry. -/
inductive Found where
  | die (a : Nat) (e : LEntry)
  | ovf (o : OvfEntry)
deriving DecidableEq, Repr

/-- The first node of the chain that a winner heads. -/
def Found.ptr : Found → Nat
  | .die _ e => e.ptr
  | .ovf o => o.ptr

/-- The winner of a search among the entries of its cascade: a private entry on die, else an overflow match, else a public entry
(R172, R180). -/
def State.winner (s : State) (es : List (Nat × LEntry)) (slice key key2 tenant epoch16 : Nat) : Option Found :=
  let l := s.pfx slice
  let d := es.find? (fun e => e.2.hit l key key2 tenant epoch16)
  let o := s.locus.ovf.find? (fun o => o.slice = slice && o.key = key && (l.wide = 0 || o.key2 = key2) && o.tenant = tenant &&
    o.epoch16 = epoch16)
  match d, o with
  | some (a, e), some o => if e.isPublic then some (.ovf o) else some (.die a e)
  | some (a, e), none => some (.die a e)
  | none, some o => some (.ovf o)
  | none, none => none

/-- The winner of a search, repeated past each winner with a parity error (R195). -/
def State.search (s : State) (slice key key2 tenant epoch16 : Nat) : Option Found :=
  s.winner ((s.cascade (s.pfx slice)).filter (fun e => !e.2.parityBad)) slice key key2 tenant epoch16

/-- The entry of (key, tenant, `epoch16`, `public`) (R173) among those of a cascade or in the overflow table. -/
def State.exactIn (s : State) (es : List (Nat × LEntry)) (slice key key2 tenant epoch16 : Nat) (pub : Bool) : Option Found :=
  let l := s.pfx slice
  match es.find? (fun e => e.2.key = key && (l.wide = 0 || e.2.key2 = key2) && e.2.tenant = tenant &&
      e.2.epoch16 = epoch16 && e.2.isPublic = pub) with
  | some (a, e) => some (.die a e)
  | none =>
    if pub then none
    else (s.locus.ovf.find? (fun o => o.slice = slice && o.key = key && (l.wide = 0 || o.key2 = key2) && o.tenant = tenant &&
      o.epoch16 = epoch16)).map .ovf

/-- The entry of (key, tenant, `epoch16`, `public`) that a search finds (R173). -/
def State.exactEntry (s : State) (slice key key2 tenant epoch16 : Nat) (pub : Bool) : Option Found :=
  s.exactIn ((s.cascade (s.pfx slice)).filter (fun e => !e.2.parityBad)) slice key key2 tenant epoch16 pub

/-! ## Prefix-tree nodes (R181) -/

/-- The 2,048 bytes of a node. -/
def nodeBytes (n : PfxNode) : List Byte :=
  leBytes 8 n.key ++ leBytes 8 n.parentKey ++ leBytes 8 n.key2 ++ leBytes 8 n.modelEpoch ++ leBytes 8 n.source ++
  leBytes 16 n.digest ++ leBytes 4 n.depth ++ leBytes 2 n.tenant ++
  leBytes 1 (b2n n.valid + 2 * b2n n.isPublic + 4 * b2n n.wide + 8 * (n.slice % 8) + 64 * b2n n.orphan) ++ leBytes 1 n.level ++
  leBytes 4 n.hardRefs ++ leBytes 4 n.childCount ++ leBytes 8 n.softUntil ++ leBytes 4 n.lastUse ++ leBytes 5 n.nextSibling ++
  leBytes 1 n.headGroups ++ leBytes 2 n.layers ++ leBytes 932 0 ++ n.tokens.flatMap (leBytes 4)

/-- Write a node at its address. -/
def State.putNode (n : PfxNode) (s : State) : State :=
  (s.onLocus (fun l => { l with nodes := l.nodes.set n.addr n })).memWriteN n.addr (nodeBytes n)

/-- Change a node. -/
def State.onNode (a : Nat) (f : PfxNode → PfxNode) (s : State) : State :=
  match s.locus.nodes.get? a with
  | none => s
  | some n => s.putNode (f n)

/-- A node that can be read: valid, in a stack that is not fenced (R43). -/
def State.node (s : State) (a : Nat) : Option PfxNode :=
  if s.stackFenced (addrStack a) then none else s.locus.nodes.get? a

/-- The nodes of a chain from an address (R173); `fuel` bounds its length. -/
def State.chainFrom (s : State) : Nat → Nat → List PfxNode
  | 0, _ => []
  | k + 1, a => if a = 0 then [] else match s.node a with
    | none => []
    | some n => n :: s.chainFrom k n.nextSibling

/-- The chain of an entry. -/
def State.chain (s : State) (a : Nat) : List PfxNode := s.chainFrom (s.locus.nodes.length + 1) a

/-- The node of a chain that holds a full model epoch. -/
def State.epochNode (s : State) (f : Option Found) (epoch : Nat) : Option PfxNode :=
  match f with
  | none => none
  | some x => (s.chain x.ptr).find? (fun n => n.modelEpoch = epoch)

/-- The node of block b − 1 that a `parent_key` leads to (R189): only the key of its entry is known. (DEDUCED, log entry 89.) -/
def State.parentNode (s : State) (slice parentKey depth tenant epoch : Nat) : Option PfxNode :=
  let l := s.pfx slice
  let d := (s.cascade l).find? (fun e => !e.2.parityBad && e.2.hit { l with wide := 0 } parentKey 0 tenant (epoch % 65536))
  let o := s.locus.ovf.find? (fun o => o.slice = slice && o.key = parentKey && o.tenant = tenant && o.epoch16 = epoch % 65536)
  let f := match d, o with
    | some (a, e), some o => if e.isPublic then some (Found.ovf o) else some (.die a e)
    | some (a, e), none => some (.die a e)
    | none, some o => some (.ovf o)
    | none, none => none
  match s.epochNode f epoch with
  | some n => if n.depth = depth then some n else none
  | none => none

/-- A node stands on another as its parent (R189): of block b − 1 with the same full model epoch, and for a public node public. -/
def nodeChild (p c : PfxNode) : Bool :=
  c.slice = p.slice && c.modelEpoch = p.modelEpoch && c.parentKey = p.key && c.depth = p.depth + 1 &&
    (p.isPublic || (!c.isPublic && p.tenant = c.tenant))

/-- The parent of a node, found among the nodes whether or not an entry names it yet (R192, R193); where a private node could stand
on a private and on a public one, the private one that counts children. (DESIGN CHOICE, log entry 68.) -/
def State.parentOf (s : State) (n : PfxNode) : Option PfxNode :=
  if n.depth = 0 then none
  else
    let c := (s.locus.nodes.vals).filter (fun p => nodeChild p n && !s.stackFenced (addrStack p.addr))
    match c.find? (fun p => !p.isPublic && p.childCount ≠ 0) with
    | some p => some p
    | none => match c.find? (fun p => p.isPublic) with
      | some p => some p
      | none => c.head?

/-- The node of block 0 of the chain that a node stands in, as far as its parents are held. -/
def State.rootOf (s : State) : Nat → PfxNode → Option PfxNode
  | 0, _ => none
  | k + 1, n => if n.depth = 0 then some n else match s.parentOf n with
    | none => none
    | some p => s.rootOf k p

/-- Granules of the spans of kind 4 that a slice holds in a stack, in rising order. -/
def State.nodeGranules (s : State) (slice stack : Nat) : List Nat :=
  let sp := (s.mem.spans.filter (fun x => x.2.kind = 4 && x.2.slice = slice && x.1 / spansPerStack = stack)).map (fun x => x.1 % spansPerStack)
  (sortBy (fun a b => decide (a < b)) sp).flatMap (fun i => (List.range 256).map (fun u => i * 256 + u))

/-- Take granule `g` of a stack as a node granule of a slice (R55, R181). -/
def State.useNodeGranule (slice k g : Nat) (s : State) : State :=
  s.clearMark.onMem (fun m => { m with spans := m.spans.update (spanKey k (g / 256)) {} (fun x =>
    { kind := 4, slice := slice, unitGranules := 1, used := if x.used.contains (g % 256) then x.used else x.used ++ [g % 256] }) })

/-- Place a node slot in one stack (R181): the lowest granule with a free slot, in a free span where no span of kind 4 has one. A
granule counts as in use while it holds a valid node. -/
def State.allocNodeIn (s : State) (slice k : Nat) : Option (Nat × State) :=
  if s.stackFenced k then none
  else match (s.nodeGranules slice k).findSome? (fun g =>
      ((List.range 32).find? (fun i => !(s.nodeSlots k g).contains i)).map (fun i => (g, i))) with
    | some (g, i) => some (nodeAddr k (granuleOffset g) + i * 2048, s.useNodeGranule slice k g)
    | none => (s.findSpan k (fun x => x.kind = 0)).map (fun i =>
        (nodeAddr k (granuleOffset (i * 256)), s.useNodeGranule slice k (i * 256)))

/-- Allocate a node slot in a slice (R181): the stacks in list order from `key` mod s. -/
def State.allocNode (s : State) (slice key : Nat) : Option (Nat × State) :=
  let l := s.stacksOf slice
  (rotated l (key % max 1 l.length)).findSome? (s.allocNodeIn slice)

/-! ## Orphans and eviction (R192) -/

/-- The descendants of nodes that are gone become orphans. -/
def State.orphans (gone : List PfxNode) (s : State) : State :=
  let ns := sortBy (fun (a b : PfxNode) => decide (a.depth < b.depth)) s.locus.nodes.vals
  (ns.foldl (fun (x : List PfxNode × State) c =>
    if x.1.any (fun p => nodeChild p c) && !ns.any (fun p => nodeChild p c && !x.1.any (fun q => q.addr = p.addr)) then
      (x.1 ++ [c], x.2.onNode c.addr (fun n => { n with orphan := true }))
    else x) (gone, s)).2

/-- Pages whose positions a node that is gone held (R190): those of a discarded sequence go with their last adopted position,
and those replicated for the node's references alone stop being replicated (R238, R239). -/
def State.unadopt (n : PfxNode) (s : State) : State :=
  ((s.home.entries.filter (fun e => e.slice = n.slice && nodeOnPage (PageFormatT (s.format n.slice)) e.name n)).map
    Entry.name).foldl (fun s p =>
      let gone := match s.seqRec n.slice n.source with
        | some r => r.seqState ≠ 1
        | none => true
      if gone && !s.adopted n.slice p then s.discardPage n.slice p else s.endReplica n.slice p) s

/-- Take a node off the tree: cleared, and its slot retired (R182, R192). -/
def State.freeNode (n : PfxNode) (s : State) : State :=
  let a := n.addr
  let s := (s.memWriteN a (nodeBytes { n with valid := false })).onLocus (fun l => { l with nodes := l.nodes.erase a })
  let g := offsetGranule (addrOffset a)
  let s := if s.locus.nodes.any (fun x => addrStack x.1 = addrStack a && offsetGranule (addrOffset x.1) = g) then s
    else s.clearMark.onMem (fun m => { m with spans := m.spans.modify (spanKey (addrStack a) (g / 256)) (fun x =>
      { x with used := x.used.filter (· ≠ g % 256) }) })
  (s.retire (n.key % 4) { place := addrStack a, granule := offsetGranule (addrOffset a), count := 0,
                          slot := some (a % 65536 / 2048) }).unadopt n

/-- Unlink a node from its chain (R173, R192 step 1). -/
def State.unlinkNode (n : PfxNode) (s : State) : State :=
  s.onLocus (fun l => { l with
    entries := (l.entries.filter (fun e => !(e.2.ptr = n.addr && n.nextSibling = 0))).map (fun e =>
      (e.1, if e.2.ptr = n.addr then { e.2 with ptr := n.nextSibling } else e.2))
    ovf := (l.ovf.filter (fun o => !(o.ptr = n.addr && n.nextSibling = 0))).map (fun o =>
      if o.ptr = n.addr then { o with ptr := n.nextSibling } else o)
    nodes := l.nodes.map (fun x => (x.1, if x.2.nextSibling = n.addr then { x.2 with nextSibling := n.nextSibling } else x.2)) })

/-- Evict a node (R192), in the order of its steps. -/
def State.evict (a : Nat) (s : State) : State :=
  match s.locus.nodes.get? a with
  | none => s
  | some n =>
    let par := s.parentOf n
    let pred := (s.locus.nodes.vals).filter (fun x => x.nextSibling = a)
    let s := s.unlinkNode n
    let s := pred.foldl (fun s x => s.onNode x.addr id) s
    let s := match par with
      | some p => s.onNode p.addr (fun x => { x with childCount := x.childCount - 1 })
      | none => s
    (s.freeNode n).onLocus (fun l => { l with evictions := inc32 l.evictions })

/-- A node may be evicted (R192). -/
def State.evictable (s : State) (n : PfxNode) : Bool :=
  n.childCount = 0 && (n.orphan || (n.hardRefs = 0 && n.softUntil < s.now) ||
    !(s.cfg n.slice).locus.modelEpochs.contains n.modelEpoch)

/-- The age of a `last_use` in its units (R61). -/
def State.ageOf (s : State) (lastUse : Nat) : Nat := (s.useStamp + 2 ^ 32 - lastUse % 2 ^ 32) % 2 ^ 32

/-- The order of eviction: oldest use first, then the lower cascade address; nodes of overflow entries come after (R192). (DEDUCED, log entry 89.) -/
def State.evictRank (s : State) (n : PfxNode) : Nat :=
  let l := s.pfx n.slice
  (2 ^ 32 - 1 - s.ageOf n.lastUse) * 2 ^ 40 + (match (s.cascade l).find? (fun e => (s.chain e.2.ptr).any (fun x => x.addr = n.addr)) with
    | some e => e.1
    | none => 2 ^ 40 - 1)

/-- The next node to evict among those that a test allows. -/
def State.victimNode (s : State) (slice : Nat) (keep : List Nat) (p : PfxNode → Bool) : Option PfxNode :=
  let c := (s.locus.nodes.vals).filter (fun n => n.slice = slice && s.evictable n && !keep.contains n.addr && p n)
  (sortBy (fun (a b : PfxNode) => decide (s.evictRank a < s.evictRank b)) c).head?

/-! ## Insertion (R177) -/

/-- Entries of a cascade in the group of 16 of an address. -/
def groupUsed (es : List (Nat × LEntry)) (a : Nat) : Nat := (es.filter (fun e => e.1 / 16 = a / 16)).length

/-- A spare hole: a free slot in a group with at least two holes (R176). -/
def State.spareHole (s : State) (l : LocusCfg) (es : List (Nat × LEntry)) (a : Nat) : Bool :=
  s.slotLive l a && !es.any (fun e => e.1 = a) && groupUsed es a ≤ 14

/-- The first address from `lo` up, of `k`, with a property. -/
def firstUp (p : Nat → Bool) : Nat → Nat → Option Nat
  | 0, _ => none
  | k + 1, lo => if p lo then some lo else firstUp p k (lo + 1)

/-- The first address below `hi`, downward, with a property. -/
def firstDown (p : Nat → Bool) : Nat → Option Nat
  | 0 => none
  | hi + 1 => if p hi then some hi else firstDown p hi

/-- Write an on-die entry at a cascade address. -/
def State.putEntry (l : LocusCfg) (a : Nat) (e : LEntry) (s : State) : State :=
  s.onLocus (fun x => { x with entries := x.entries.set (pfxSlot l a) e })

/-- Invalidate the on-die entry at a cascade address. -/
def State.dropEntryAt (l : LocusCfg) (a : Nat) (s : State) : State :=
  s.onLocus (fun x => { x with entries := x.entries.erase (pfxSlot l a) })

/-- Insert an entry on die (R177); none where the cascade has no spare hole. -/
def State.insertDie (s : State) (l : LocusCfg) (e : LEntry) : Option State :=
  let es := s.cascade l
  let n := pfxSlots l
  let lo := ((es.filter (fun x => x.2.level < e.level)).map (fun x => x.1 + 1)).foldl max 0
  let hi := ((es.filter (fun x => e.level < x.2.level)).map Prod.fst).foldl min n
  let hole := s.spareHole l es
  match firstUp hole (hi - lo) lo with
  | some a => some (s.putEntry l a e)
  | none =>
    let down := firstDown hole lo
    let up := firstUp hole (n - hi) hi
    let goUp (x : Nat) : State :=
      let levels := ((List.range 16).reverse).filter (fun v => e.level < v && es.any (fun y => y.2.level = v && y.1 < x))
      let r := levels.foldl (fun (r : Nat × State) v =>
        match es.find? (fun y => y.2.level = v) with
        | some y => (y.1, (r.2.putEntry l r.1 y.2).dropEntryAt l y.1)
        | none => r) (x, s)
      r.2.putEntry l r.1 e
    let goDown (x : Nat) : State :=
      let levels := (List.range 16).filter (fun v => v < e.level && es.any (fun y => y.2.level = v && x < y.1))
      let r := levels.foldl (fun (r : Nat × State) v =>
        match (es.filter (fun y => y.2.level = v)).getLast? with
        | some y => (y.1, (r.2.putEntry l r.1 y.2).dropEntryAt l y.1)
        | none => r) (x, s)
      r.2.putEntry l r.1 e
    match down, up with
    | none, none => none
    | some x, none => some (goDown x)
    | none, some x => some (goUp x)
    | some d, some u => if u + 1 - hi ≤ lo - d then some (goUp u) else some (goDown d)

/-! ## The overflow table (R179) -/

/-- Overflow entries of a bucket. -/
def State.ovfIn (s : State) (q b : Nat) : List OvfEntry := s.locus.ovf.filter (fun o => o.quarter = q && o.bucket = b)

/-- The age of an overflow entry: that of the most recent use in its chain (R61, R179). -/
def State.ovfAge (s : State) (o : OvfEntry) : Nat := ((s.chain o.ptr).map (fun n => s.ageOf n.lastUse)).foldl min (2 ^ 32)

/-- Every node of an entry's chain can be read. -/
def State.chainWhole (s : State) (a : Nat) : Bool := (s.chain a).getLast?.any (fun n => n.nextSibling = 0)

/-- Put a private entry into the overflow table; none where no place is found. -/
def State.insertOvf (s : State) (slice : Nat) (keep : List Nat) (e : LEntry) : Option State :=
  let q := e.key % 4
  let b0 := bits e.key 21 2
  let b1 := bits e.key 41 22
  let put (b : Nat) (s : State) : State := s.onLocus (fun x => { x with ovf := x.ovf ++
    [{ quarter := q, bucket := b, key := e.key, key2 := e.key2, tenant := e.tenant, epoch16 := e.epoch16, slice := slice,
       level := e.level, ptr := e.ptr }] })
  let c0 := (s.ovfIn q b0).length
  let c1 := (s.ovfIn q b1).length
  if s.ras.quartersLost.contains q || (s.stackFenced q && s.stackFenced (q + 4)) ||
    (s.cfg slice).locus.ovfQuota ≤ (s.locus.ovf.filter (fun o => o.slice = slice)).length then none
  else if c0 < 8 ∨ c1 < 8 then some (put (if c1 < c0 then b1 else b0) s)
  else
    let cand := (s.ovfIn q b0 ++ s.ovfIn q b1).filter (fun o =>
      s.chainWhole o.ptr && (s.chain o.ptr).all (fun n => s.evictable n && !keep.contains n.addr))
    match (sortBy (fun (a b : OvfEntry) => decide (s.ovfAge b < s.ovfAge a)) cand).head? with
    | none => none
    | some o => some (put o.bucket ((s.chain o.ptr).foldl (fun s n => s.evict n.addr) s))

/-- Make space for a public entry: nodes of on-die entries are evicted until the cascade has a spare hole (R177). -/
def State.insertPublic (slice : Nat) (keep : List Nat) (e : LEntry) : Nat → State → Option State
  | 0, s => s.insertDie (s.pfx slice) e
  | k + 1, s =>
    match s.insertDie (s.pfx slice) e with
    | some r => some r
    | none =>
      let l := s.pfx slice
      match s.victimNode slice keep (fun n => (s.cascade l).any (fun x => (s.chain x.2.ptr).any (fun y => y.addr = n.addr))) with
      | none => none
      | some v => State.insertPublic slice keep e k (s.evict v.addr)

/-- Insert an entry (R177): on die, else a private one in the overflow table, a public one after eviction. -/
def State.insertEntry (s : State) (slice : Nat) (keep : List Nat) (e : LEntry) : Option State :=
  match s.insertDie (s.pfx slice) e with
  | some r => some r
  | none => if e.isPublic then State.insertPublic slice keep e s.locus.nodes.length s else s.insertOvf slice keep e

/-! ## Rebuilding (R193, R464) and fences (R195) -/

/-- The entry that heads a node. -/
def entryOf (n : PfxNode) : LEntry :=
  { key := n.key, key2 := n.key2, tenant := n.tenant, epoch16 := n.modelEpoch % 65536, level := n.level, isPublic := n.isPublic,
    ptr := n.addr }

/-- Link a node as the last of a chain. -/
def State.appendNode (head addr : Nat) (s : State) : State :=
  match (s.chain head).getLast? with
  | some x => s.onNode x.addr (fun n => { n with nextSibling := addr })
  | none => s

/-- Index one node again (R193); a node that no place is found for is evicted whatever its references and children. -/
def State.reindexNode (n : PfxNode) (s : State) : State :=
  match s.exactIn (s.keptEntries (s.pfx n.slice)) n.slice n.key n.key2 n.tenant (n.modelEpoch % 65536) n.isPublic with
  | some f => s.appendNode f.ptr n.addr
  | none =>
    match (match s.insertDie (s.pfx n.slice) (entryOf n) with
      | some r => some r
      | none => if n.isPublic then none else s.insertOvf n.slice [] (entryOf n)) with
    | some r => r
    | none => (s.evict n.addr).orphans [n]

/-- Index every valid node of a slice that no entry kept on die or in the overflow table names, in ascending level. -/
def State.reindex (slice : Nat) (s : State) : State :=
  let named := ((s.keptEntries (s.pfx slice)).flatMap (fun e => (s.chain e.2.ptr).map PfxNode.addr)) ++
    (s.locus.ovf.flatMap (fun o => (s.chain o.ptr).map PfxNode.addr))
  let ns := (s.locus.nodes.vals).filter (fun n => n.slice = slice && !s.stackFenced (addrStack n.addr) && !named.contains n.addr)
  let s := ns.foldl (fun s n => s.onNode n.addr (fun x => { x with nextSibling := 0 })) s
  (sortBy (fun (a b : PfxNode) => decide (a.level < b.level)) ns).foldl (fun s n =>
    match s.locus.nodes.get? n.addr with
    | some x => s.reindexNode x
    | none => s) s

/-- Rebuild a slice's cascade from its nodes (R193, R307). -/
def State.rebuildCascade (slice : Nat) (old : LocusCfg) (s : State) : State :=
  (s.onLocus (fun l => { l with entries := l.entries.filter (fun e =>
    !(old.firstBlock ≤ e.1 / 65536 && e.1 / 65536 < old.firstBlock + old.blocks)) })).reindex slice

/-- Nodes that lie in fenced stacks are lost: their entries go, their descendants become orphans (R195); then the nodes that
lost entries pointed to, or that stand behind a lost one, are indexed again (R464). -/
def State.sweepLocus (s : State) : State :=
  let gone := (s.locus.nodes.vals).filter (fun n => s.stackFenced (addrStack n.addr))
  let lost (a : Nat) : Bool := gone.any (fun n => n.addr = a)
  let s := s.onLocus (fun l => { l with
    entries := l.entries.filter (fun e => !lost e.2.ptr)
    ovf := l.ovf.filter (fun o => !lost o.ptr)
    nodes := (l.nodes.filter (fun x => !lost x.1 && !lost x.2.addr)).map (fun x =>
      (x.1, if lost x.2.nextSibling then { x.2 with nextSibling := 0 } else x.2)) })
  let s := gone.foldl (fun s n => s.unadopt n) s
  let s := s.orphans gone
  let s := (List.range 8).foldl (fun s i => s.reindex i) s
  s.onLocus (fun l => { l with rebuilding := [] })

/-! ## Parity (R195, R355, R356) -/

/-- A group of 16 shows a second parity error within 24 h: a spare group takes it, or it is withdrawn. (DEDUCED, log entry 89.) -/
def State.groupParity (b g : Nat) (s : State) : State :=
  let k := b * 4096 + g
  let seen := (s.ras.locusParity.getD k []).filter (fun t => s.now < t + dayNs)
  let s := s.onRas (fun r => { r with locusParity := r.locusParity.set k (seen ++ [s.now]) })
  if seen.isEmpty then s
  else if s.ras.locusSpares.getD b 0 < 16 then
    s.onRas (fun r => { r with locusSpares := r.locusSpares.update b 0 (· + 1), locusParity := r.locusParity.erase k })
  else
    s.onLocus (fun l => { l with
      deadGroups := l.deadGroups ++ [(b, g)]
      entries := l.entries.filter (fun e => !(e.1 / 65536 = b && e.1 % 65536 / 16 = g)) })

/-- A winning entry has a parity error: it is invalidated and logged, its nodes are retired and their descendants become
orphans. -/
def State.parityError (l : LocusCfg) (a : Nat) (e : LEntry) (s : State) : State :=
  let k := pfxSlot l a
  let s := (s.onLocus (fun x => { x with parityErrors := inc32 x.parityErrors })).logEvent (78 + k / 131072) 0x0801 0xff 0 k 0 0
  let s := s.logDetection (78 + k / 131072) 6 5 0 (k / 65536 * 4096 + k % 65536 / 16) (s.temp (78 + k / 131072))
    s.pwr.vdd 4 0xff k
  let ns := s.chain e.ptr
  let s := s.dropEntryAt l a
  let s := ns.foldl (fun s n =>
    let s := match s.parentOf n with
      | some p => s.onNode p.addr (fun x => { x with childCount := x.childCount - 1 })
      | none => s
    s.freeNode n) s
  (s.orphans ns).groupParity (k / 65536) (k % 65536 / 16)

/-- A search with its parity checks: repeated after each faulty winner; `fuel` bounds the repeats. -/
def State.searchParity (slice key key2 tenant epoch16 : Nat) : Nat → State → Option Found × State
  | 0, s => (none, s)
  | k + 1, s =>
    match s.winner (s.cascade (s.pfx slice)) slice key key2 tenant epoch16 with
    | some (.die a e) =>
      if e.parityBad then State.searchParity slice key key2 tenant epoch16 k (s.parityError (s.pfx slice) a e)
      else (some (.die a e), s)
    | f => (f, s)

/-- The entries of a request's searches that show a parity error when they are read: what a command brings of the arrays (R195). -/
def State.markParity (slots : List Nat) (s : State) : State :=
  if slots.isEmpty then s
  else s.onLocus (fun l => { l with entries := l.entries.map (fun e => if slots.contains e.1 then (e.1, { e.2 with parityBad := true }) else e) })

/-- The searches of a publish or release find winners with parity errors: those of the block's key, and of the entry that it would
join (R188, R191, R195). -/
def State.scrubKeys (slice tenant epoch16 : Nat) (pub : Bool) (keys : List (Nat × Nat)) (s : State) : State :=
  keys.foldl (fun s k =>
    let s := (State.searchParity slice k.1 k.2 tenant epoch16 (s.locus.entries.length + 1) s).2
    match s.exactIn (s.cascade (s.pfx slice)) slice k.1 k.2 tenant epoch16 pub with
    | some (.die a e) => if e.parityBad then s.parityError (s.pfx slice) a e else s
    | _ => s) s

/-! ## LOOKUP (R184 to R186) -/

/-- The tenant value of a requester group (R169). -/
def State.tenantOf (s : State) (c : Ctx) : Nat := (s.cfg c.slice).locus.tenant.getD c.group 0

/-- The keys of a LOOKUP. -/
def lookupKeys (l : LocusCfg) (p : LookupParams) : List (Nat × Nat) :=
  if p.keySource = 0 then pfxChain l p.modelEpoch 0 0 p.tokens else p.keys

/-- The outcome of verifying one block. -/
inductive Verified where
  | hit (n : PfxNode)
  | miss
  | collision
deriving DecidableEq, Repr

/-- The checks of R185 on a chain: a node that fails on `model_epoch` alone hands over to its sibling, at most 8 of them. -/
def State.verifyBlock (s : State) (epoch depth prev : Nat) (tokens : Option (List Nat)) : Nat → Nat → Verified
  | 0, _ => .miss
  | k + 1, a =>
    if a = 0 || s.stackFenced (addrStack a) then .miss
    else match s.locus.nodes.get? a with
      | none => .collision
      | some n =>
        if !(n.valid && n.depth = depth && n.parentKey = prev && (match tokens with
          | some t => n.tokens = t
          | none => true)) then .collision
        else if n.modelEpoch = epoch then .hit n
        else s.verifyBlock epoch depth prev tokens k n.nextSibling

/-- The on-die form of an overflow entry. -/
def ovfEntry (o : OvfEntry) : LEntry :=
  { key := o.key, key2 := o.key2, tenant := o.tenant, epoch16 := o.epoch16, level := o.level, isPublic := false, ptr := o.ptr }

/-- An overflow match that is verified moves on die where the cascade has a spare hole (R180). -/
def State.promote (slice : Nat) (o : OvfEntry) (s : State) : State :=
  match s.insertDie (s.pfx slice) (ovfEntry o) with
  | some s => s.onLocus (fun l => { l with ovf := l.ovf.filter (· ≠ o) })
  | none => s

/-- Match blocks from 0 up until one is not matched: the matched nodes and the collisions. -/
def State.matchBlocks (slice tenant epoch : Nat) (tokens : List (List Nat)) :
    Nat → Nat → List (Nat × Nat) → State → List PfxNode × Nat × State
  | _, _, [], s => ([], 0, s)
  | i, prev, k :: ks, s =>
    match s.searchParity slice k.1 k.2 tenant (epoch % 65536) (s.locus.entries.length + 1) with
    | (none, s) => ([], 0, s)
    | (some f, s) =>
      match s.verifyBlock epoch i prev (tokens[i]?) 9 f.ptr with
      | .miss => ([], 0, s)
      | .collision => ([], 1, s)
      | .hit n =>
        let s := s.onNode n.addr (fun x => { x with lastUse := s.useStamp })
        let s := match f with
          | .ovf o => s.promote slice o
          | .die _ _ => s
        let r := State.matchBlocks slice tenant epoch tokens (i + 1) k.1 ks s
        (n :: r.1, r.2.1, r.2.2)

/-- The runs of matched nodes (R186): source, first block, block count, public. -/
def runsOf : Nat → List PfxNode → List (Nat × Nat × Nat × Bool)
  | _, [] => []
  | i, n :: t =>
    match runsOf (i + 1) t with
    | r :: rs => if r.1 = n.source ∧ r.2.2.2 = n.isPublic then (r.1, i, r.2.2.1 + 1, r.2.2.2) :: rs
      else (n.source, i, 1, n.isPublic) :: r :: rs
    | [] => [(n.source, i, 1, n.isPublic)]

/-- A run record (R186). -/
def runRecord (unverified : Bool) (r : Nat × Nat × Nat × Bool) : List Byte :=
  beBytes 8 r.1 ++ beBytes 4 r.2.1 ++ beBytes 4 r.2.2.1 ++ beBytes 1 (b2n r.2.2.2 + 2 * b2n unverified) ++ beBytes 7 0

/-- The first key of a LOOKUP. -/
def lookupRoot (l : LocusCfg) (p : LookupParams) : Nat := ((lookupKeys l p).headD (0, 0)).1

/-- The checks of a LOOKUP (R17, R183, R184). -/
def lookupSpec (h : ExtHdr) (p : LookupParams) (l : LocusCfg) (c : Ctx) : ExtSpec :=
  { op := 2
    parses := lookupOk l p
    routed := fun s => s.routeName c.slice h.mapGen 1 (lookupRoot l p) true
    right := some 2
    busy := fun s => if s.homeBusy c.slice 1 (lookupRoot l p) (s.routeName c.slice h.mapGen 1 (lookupRoot l p) true) then .busy
      else .ok }

/-- Step 10 of a LOOKUP. -/
def State.runLookup (h : ExtHdr) (p : LookupParams) (c : Ctx) (s : State) : State :=
  let s := s.markParity p.faulty
  let l := s.pfx c.slice
  let keys := lookupKeys l p
  let (ns, coll, s) := State.matchBlocks c.slice (s.tenantOf c) p.modelEpoch p.tokens 0 0 keys s
  let m := ns.length
  let s := match ns.getLast? with
    | some n => if p.takeRef = 1 then s.onNode n.addr (fun x =>
        { x with softUntil := max x.softUntil (s.now + l.refTtl * 1000000) }) else s
    | none => s
  let s := s.onLocus (fun x => { x with
    hits := satAdd max32 x.hits m
    misses := if m < p.nBlocks then inc32 x.misses else x.misses
    collisions := satAdd max32 x.collisions coll })
  let last := if m = 0 then (0, 0) else keys.getD (m - 1) (0, 0)
  s.respond h 2 0 (if m = p.nBlocks then .ok else if m = 0 then .miss else .part) 0
    (.lookup m coll last.1 (if l.wide = 1 then some last.2 else none) ((runsOf 0 ns).map (runRecord (p.keySource = 2))))

/-- LOOKUP. -/
def execLookup (h : ExtHdr) (p : LookupParams) (s : State) : Host.Outcome State Fault Refusal :=
  .next (s.whenUp (fun s => s.settle.extended h (.lookup h p) (fun c => lookupSpec h p (s.pfx c.slice) c) (fun c s => s.runLookup h p c)))

/-! ## PUBLISH, prefix form (R187 to R190) -/

/-- The parent that a publish names. -/
def State.pfxParent (s : State) (p : PfxParams) (c : Ctx) : Option PfxNode :=
  if p.firstBlock = 0 then none
  else s.parentNode c.slice p.parentKey (p.firstBlock - 1) (s.tenantOf c) p.modelEpoch

/-- The keys of a publish's blocks. -/
def State.pfxKeys (s : State) (p : PfxParams) (c : Ctx) : List (Nat × Nat) :=
  if p.keySource = 1 then p.blocks.map (fun b => (b.key, b.key2))
  else pfxChain (s.pfx c.slice) p.modelEpoch p.parentKey (match s.pfxParent p c with
    | some n => n.key2
    | none => 0) (p.blocks.map PfxBlock.tokens)

/-- The root key of a publish, where its chain is held back to block 0 (R183). -/
def State.pfxRoot (s : State) (p : PfxParams) (c : Ctx) : Option Nat :=
  if p.firstBlock = 0 then ((s.pfxKeys p c).head?).map Prod.fst
  else (s.pfxParent p c).bind (fun n => (s.rootOf (p.firstBlock + 1) n).map PfxNode.key)

/-- Step 3 for a chain whose root may not be held: then the generation alone. (DEDUCED, log entry 26.) -/
def State.routeRoot (s : State) (slice gen : Nat) (root : Option Nat) : Routed :=
  match root with
  | some k => s.routeName slice gen 1 k true
  | none => s.routeGen gen

/-- The BUSY of a directory request: its quarter (R205), its bucket (R201), a cascade that is being rebuilt (R307, R464). -/
def State.pfxBusy (s : State) (slice gen : Nat) (root : Option Nat) : Bool :=
  (match root with
    | some k => s.homeBusy slice 1 k (s.routeRoot slice gen root)
    | none => false) || s.locus.rebuilding.contains slice || (s.slice slice).changes.any (fun x => match x with
    | .moveCascade _ => true
    | _ => false)

/-- A chain holds a node of the epoch with another digest or other tokens (R188): its source. -/
def State.conflicts (s : State) (f : Option Found) (epoch : Nat) (b : PfxBlock) : Option Nat :=
  match s.epochNode f epoch with
  | some n => if n.digest = b.digest ∧ n.tokens = b.tokens then none else some n.source
  | none => none

/-- The first conflicting block of a publish, and the winner's source. -/
def State.firstConflict (s : State) (p : PfxParams) (c : Ctx) : Option (Nat × Nat) :=
  (((s.pfxKeys p c).zip p.blocks).zipIdx).findSome? (fun x =>
    let k := x.1.1
    let t := s.tenantOf c
    match s.conflicts (s.search c.slice k.1 k.2 t (p.modelEpoch % 65536)) p.modelEpoch x.1.2 with
    | some src => some (p.firstBlock + x.2, src)
    | none => (s.conflicts (s.exactEntry c.slice k.1 k.2 t (p.modelEpoch % 65536) (p.isPublic = 1)) p.modelEpoch x.1.2).map
        (fun src => (p.firstBlock + x.2, src)))

/-- A directory request names a root key or a sequence whose home cannot be served (R201, R205). -/
def State.pfxHomeBusy (s : State) (slice gen : Nat) (root : Option Nat) (source : Option Nat) : Bool :=
  (match root with
    | some k => s.homeBusy slice 1 k (s.routeRoot slice gen root)
    | none => false) || (match source with
    | some v => s.quarterBusy (s.quarterOf slice v)
    | none => false)

/-- Step 8 of a prefix publish (R188). -/
def State.pfxOwn (s : State) (p : PfxParams) (c : Ctx) : Code :=
  match s.seqRec c.slice p.source with
  | none => .leaseConflict
  | some r => if r.seqState ≠ 1 ∨ r.epoch ≠ p.epoch then .leaseConflict
    else if (s.firstConflict p c).isSome then .publishConflict else .ok

/-- Every page that covers the positions of the blocks is published with a fill that covers them (R188, R215). -/
def State.pfxCovered (s : State) (p : PfxParams) (slice : Nat) : Bool :=
  let t := PageFormatT (s.format slice)
  let lo := 256 * p.firstBlock
  let hi := 256 * (p.firstBlock + p.nBlocks)
  (List.range (p.layers + 1)).all (fun l => (List.range (p.headGroups + 1)).all (fun g =>
    (rangeBlocks t lo (hi - lo)).all (fun b =>
      match s.entry slice { handle := p.source, layer := l, group := g, block := b } with
      | some e => e.stateNow.published? && !(e.stateNow = .writeOpen && e.writeValid) && min hi ((b + 1) * t) ≤ b * t + e.fill
      | none => false)))

/-- Discard the source's pages that lie wholly within positions [lo, hi) and hold no adopted position (R188, R189). (DESIGN CHOICE, log entry 83.) -/
def State.discardWithin (slice : Nat) (p : PfxParams) (lo hi : Nat) (s : State) : State :=
  let t := PageFormatT (s.format slice)
  ((s.home.entries.filter (fun e => e.slice = slice && e.name.handle = p.source && e.name.layer ≤ p.layers &&
      e.name.group ≤ p.headGroups && lo ≤ e.name.block * t && (e.name.block + 1) * t ≤ hi)).map Entry.name).foldl
    (fun s n => if s.adopted slice n then s else s.discardPage slice n) s

/-- Nodes that a publish builds on and that its evictions spare (R188). -/
def State.pfxKeep (s : State) (p : PfxParams) (c : Ctx) : List Nat :=
  (match s.pfxParent p c with
    | some n => [n.addr]
    | none => []) ++
  (s.pfxKeys p c).flatMap (fun k =>
    match s.exactEntry c.slice k.1 k.2 (s.tenantOf c) (p.modelEpoch % 65536) (p.isPublic = 1) with
    | some f => (s.chain f.ptr).map PfxNode.addr
    | none => [])

/-- Nodes of a slice are evicted until one more fits its quota; none where none can be. -/
def State.nodeRoom (slice : Nat) (keep : List Nat) : Nat → State → Option State
  | 0, _ => none
  | k + 1, s =>
    if ((s.locus.nodes.vals).filter (fun n => n.slice = slice)).length < (s.cfg slice).locus.nodeQuota then some s
    else match s.victimNode slice keep (fun _ => true) with
      | none => none
      | some v => State.nodeRoom slice keep k (s.evict v.addr)

/-- The first `rep_min_refs` reference of a node starts the replication of the pages it adopts (R238). -/
def State.refReplicas (n : PfxNode) (s : State) : State :=
  ((s.home.entries.filter (fun e => e.slice = n.slice && nodeOnPage (PageFormatT (s.format n.slice)) e.name n)).map
    Entry.name).foldl (fun s p => if s.refsReplicate n.slice p then s.startReplica n.slice p else s) s

/-- Publish one block (R189): whether it is a reference, the serving node and the state; none where no space is found or a
reference count would overflow. -/
def State.pfxBlock (s : State) (p : PfxParams) (c : Ctx) (keep : List Nat) (depth : Nat) (k : Nat × Nat) (b : PfxBlock)
    (par : Option PfxNode) (prev : Nat) : Option (Bool × PfxNode × State) :=
  let t := s.tenantOf c
  let pub : Bool := p.isPublic = 1
  let f := s.exactEntry c.slice k.1 k.2 t (p.modelEpoch % 65536) pub
  match s.epochNode f p.modelEpoch with
  | some n =>
    if max32 ≤ n.hardRefs then none
    else
      let s := s.onNode n.addr (fun x => { x with hardRefs := x.hardRefs + 1 })
      let s := (s.discardWithin c.slice p (256 * depth) (256 * (depth + 1))).refReplicas n
      some (true, n, s)
  | none =>
    match State.nodeRoom c.slice keep (s.locus.nodes.length + 1) s with
    | none => none
    | some s =>
      match s.allocNode c.slice k.1 with
      | none => none
      | some (a, s) =>
        let n : PfxNode :=
          { addr := a, key := k.1, parentKey := prev, key2 := k.2, modelEpoch := p.modelEpoch, source := p.source,
            digest := b.digest, depth := depth, tenant := t, isPublic := pub, wide := (s.pfx c.slice).wide = 1, slice := c.slice,
            level := p.level + (if pub then 8 else 0), hardRefs := 1, lastUse := s.useStamp, headGroups := p.headGroups,
            layers := p.layers, tokens := b.tokens }
        let s := s.putNode n
        let done := match f with
          | some e => some (s.appendNode e.ptr a)
          | none => s.insertEntry c.slice (a :: keep) (entryOf n)
        done.map (fun s =>
          let s := match par with
            | some q => s.onNode q.addr (fun x => { x with childCount := x.childCount + 1 })
            | none => s
          (false, n, s.refReplicas n))

/-- Publish the blocks in ascending depth: per block whether it is a reference, and the serving source. -/
def State.pfxBlocks (p : PfxParams) (c : Ctx) (keep : List Nat) :
    Nat → Option PfxNode → Nat → List ((Nat × Nat) × PfxBlock) → State → Option (List (Bool × Nat) × State)
  | _, _, _, [], s => some ([], s)
  | d, par, prev, (k, b) :: t, s =>
    match s.pfxBlock p c keep d k b par prev with
    | none => none
    | some (ref, n, s) =>
      (State.pfxBlocks p c (n.addr :: keep) (d + 1) (some n) k.1 t s).map (fun r => ((ref, n.source) :: r.1, r.2))

/-- All the blocks of a publish. -/
def State.pfxAll (s : State) (p : PfxParams) (c : Ctx) : Option (List (Bool × Nat) × State) :=
  State.pfxBlocks p c (s.pfxKeep p c) p.firstBlock (s.pfxParent p c) p.parentKey ((s.pfxKeys p c).zip p.blocks) s

/-- The publish of R188 answers MISS at step 10. -/
def State.pfxMiss (s : State) (p : PfxParams) (c : Ctx) : Bool :=
  (p.firstBlock ≠ 0 && (match s.pfxParent p c with
    | none => true
    | some n => p.isPublic = 1 && !n.isPublic)) || !s.pfxCovered p c.slice

/-- The searches of a publish at step 8 show their parity errors (R188, R195). -/
def State.pfxScrub (p : PfxParams) (c : Ctx) (s : State) : State :=
  s.scrubKeys c.slice (s.tenantOf c) (p.modelEpoch % 65536) (p.isPublic = 1) (s.pfxKeys p c)

/-- Some block would reference a node whose count stands at 2^32 − 1 (R192). -/
def State.refsFull (s : State) (p : PfxParams) (c : Ctx) : Bool :=
  (s.pfxKeys p c).any (fun k => match s.epochNode (s.exactEntry c.slice k.1 k.2 (s.tenantOf c) (p.modelEpoch % 65536)
      (p.isPublic = 1)) p.modelEpoch with
    | some n => max32 ≤ n.hardRefs
    | none => false)

/-- The checks of a prefix publish. -/
def pfxSpec (h : ExtHdr) (p : PfxParams) (s : State) (c : Ctx) : ExtSpec :=
  { op := 3
    variant := 1
    parses := pfxPublishOk (s.pfx c.slice) p
    routed := fun s => s.routeRoot c.slice h.mapGen (s.pfxRoot p c)
    right := some 4
    bound := some p.source
    rightOk := p.isPublic = 0 || (s.cfg c.slice).locus.publicPublish.contains c.group
    own := fun s => if s.pfxHomeBusy c.slice h.mapGen (s.pfxRoot p c) (some p.source) then .busy else s.pfxOwn p c
    busy := fun s => if s.pfxBusy c.slice h.mapGen (s.pfxRoot p c) || (s.pfxAll p c).isNone then .busy else .ok
    refusal := fun code s => if code = .publishConflict then (match s.firstConflict p c with
      | some x => .conflict x.1 x.2
      | none => .none) else .none
    refused := fun code s =>
      if code = .publishConflict then
        let s := (s.pfxScrub p c).onLocus (fun l => { l with conflicts := inc32 l.conflicts })
        match s.firstConflict p c with
        | some x => s.discardWithin c.slice p (256 * x.1) (256 * (p.firstBlock + p.nBlocks))
        | none => s
      else if code = .busy && !s.pfxBusy c.slice h.mapGen (s.pfxRoot p c) && (s.pfxAll p c).isNone && !s.refsFull p c then
        (s.pfxScrub p c).onLocus (fun l => { l with busyRefusals := inc32 l.busyRefusals })
      else s }

/-- Step 10 of a prefix publish. -/
def State.runPfx (h : ExtHdr) (p : PfxParams) (c : Ctx) (s : State) : State :=
  let s := s.pfxScrub p c
  if s.pfxMiss p c then s.respond h 3 1 .miss 0 .none
  else match s.pfxAll p c with
    | none => s
    | some (rs, s) => s.respond h 3 1 .ok 0 (.publish (rs.map (fun r =>
        beBytes 1 (b2n r.1) ++ beBytes 7 0 ++ beBytes 8 r.2)))

/-- PUBLISH_PREFIX. -/
def execPublishPrefix (h : ExtHdr) (p : PfxParams) (s : State) : Host.Outcome State Fault Refusal :=
  .next (s.whenUp (fun s => (s.settle.markParity p.faulty).extended h (.publishPrefix h p) (pfxSpec h p s.settle)
    (fun c s => s.runPfx h p c)))

/-! ## Release (R191) -/

/-- The node that a release's key names. -/
def State.releaseNode (s : State) (p : PfxRelease) (c : Ctx) (k : Nat × Nat) : Option PfxNode :=
  s.epochNode (s.exactEntry c.slice k.1 k.2 (s.tenantOf c) (p.modelEpoch % 65536) (p.isPublic = 1)) p.modelEpoch

/-- The root key of a release's first key, where its chain is held. -/
def State.releaseRoot (s : State) (p : PfxRelease) (c : Ctx) : Option Nat :=
  (p.keys.head?).bind (fun k => (s.releaseNode p c k).bind (fun n => (s.rootOf (n.depth + 1) n).map PfxNode.key))

/-- Release the reference of one key: whether one was removed. -/
def State.releaseOne (p : PfxRelease) (c : Ctx) (k : Nat × Nat) (s : State) : Bool × State :=
  match s.releaseNode p c k with
  | none => (false, s)
  | some n =>
    if n.hardRefs = 0 then (false, s)
    else
      let s := s.onNode n.addr (fun x => { x with hardRefs := x.hardRefs - 1 })
      (true, ((s.home.entries.filter (fun e => e.slice = n.slice && nodeOnPage (PageFormatT (s.format n.slice)) e.name n)).map
        Entry.name).foldl (fun s q => s.endReplica n.slice q) s)

/-- The checks of a release. -/
def pfxReleaseSpec (h : ExtHdr) (p : PfxRelease) (s : State) (c : Ctx) : ExtSpec :=
  { op := 3
    variant := 1
    parses := pfxReleaseOk (s.pfx c.slice) p
    routed := fun s => s.routeRoot c.slice h.mapGen (s.releaseRoot p c)
    right := some 4
    rightOk := p.isPublic = 0 || (s.cfg c.slice).locus.publicPublish.contains c.group
    own := fun s => if s.pfxHomeBusy c.slice h.mapGen (s.releaseRoot p c) none then .busy else .ok
    busy := fun s => if s.pfxBusy c.slice h.mapGen (s.releaseRoot p c) then .busy else .ok }

/-- Step 10 of a release. -/
def State.runPfxRelease (h : ExtHdr) (p : PfxRelease) (c : Ctx) (s : State) : State :=
  let r := p.keys.foldl (fun (x : Nat × State) k =>
    let y := x.2.releaseOne p c k
    (x.1 + b2n y.1, y.2)) (0, s)
  r.2.respond h 3 1 .ok 0 (.released r.1)

/-- PREFIX_RELEASE. -/
def execPrefixRelease (h : ExtHdr) (p : PfxRelease) (s : State) : Host.Outcome State Fault Refusal :=
  .next (s.whenUp (fun s => s.settle.extended h (.prefixRelease h p) (pfxReleaseSpec h p s.settle)
    (fun c s => ((s.markParity p.faulty).scrubKeys c.slice (s.tenantOf c) (p.modelEpoch % 65536) (p.isPublic = 1) p.keys).runPfxRelease h p c)))

/-! ## The background sweep (R192) -/

/-- Evict the evictable nodes of a slice that have been idle longer than `pfx_idle_max`, oldest first. -/
def State.idleSweep (slice : Nat) : Nat → State → State
  | 0, s => s
  | k + 1, s =>
    let m := (s.cfg slice).locus.idleMax
    match s.victimNode slice [] (fun n => m * 256 < (s.useStamp + 2 ^ 32 - n.lastUse) % 2 ^ 32) with
    | none => s
    | some v => State.idleSweep slice k (s.evict v.addr)

/-- PFX_EVICT_SWEEP. -/
def execPfxEvictSweep (slice : Fin 8) (s : State) : Host.Outcome State Fault Refusal :=
  .next (s.whenUp (fun s => if (s.cfg slice).locus.idleMax = 0 then s else State.idleSweep slice s.locus.nodes.length s))

end Sys2Proof.Machine
end

