-- ==== Sys2Proof/Machine/NearBank.lean ====
section
/-! DEFINITION. Near-bank windows step by step (R126 to R147): the sequencer's choice of a page's next window (R129), the commands of
a window, the collision queue's issue (R134), result records and page groups (R139, R143, R144, R146), the bank refresh (R130), spare
units (R147) and the enable of a region's near-bank path (R149, R310, R311). -/

namespace Sys2Proof.Machine

/-- A window of a region. -/
def State.win (s : State) (n w : Nat) : Option NbWin := (s.nbu.getD n {}).wins.get? w

/-- Change a window. -/
def State.onWin (n w : Nat) (f : NbWin → NbWin) (s : State) : State := s.onNbu n (fun r => { r with wins := r.wins.modify w f })

/-! ## Pages and their windows (R129, R139) -/

/-- A window's page is still at the units: its request lives, and no other outcome took the page. -/
def NbRegion.pageOf (r : NbRegion) (w : NbWin) : Option NearPage := r.near.find? (fun p => p.req = w.req && p.page = w.page)

/-- Pages of requests that have ended leave; a window that is over, or has not begun, goes with its page (R150). -/
def State.purgeNear (n : Nat) (s : State) : State :=
  s.onNbu n (fun r =>
    let r := { r with near := r.near.filter (fun p => (s.reqs.get? p.req).isSome) }
    { r with wins := r.wins.filter (fun w => w.2.active || (r.pageOf w.2).isSome) })

/-- A page leaves the near-bank path. -/
def State.dropNear (n : Nat) (p : NearPage) (s : State) : State :=
  (s.onNbu n (fun r => { r with near := r.near.filter (fun x => x.req ≠ p.req || x.page ≠ p.page) })).purgeNear n

/-- A page is computed on cells after all, from the version resolved (R67, R125, R147, R149). -/
def State.nearToCells (n : Nat) (p : NearPage) (s : State) : State := (s.dropNear n p).addPage p.req p.page .ok p.src p.skip

/-- What the near-bank path gave a request's rows: the triples of every page group of every window of the page (R139). -/
def NearPage.rows (x : NearPage) (d : Nat) (p : FwdParams) : List RowAcc :=
  (List.range p.query.length).map (fun rho =>
    let mine := x.triples.filter (fun g => g.head = rho / p.rowsPerHead && g.row = rho % p.rowsPerHead)
    if x.skip.contains rho then .start d else { RowAcc.start d with closed := (mine.map GroupTriple.t).filter (fun t => !t.isEmpty) })

/-- A page all of whose windows are done enters the request's rows, with all of its keys at once (R93, R139). -/
def State.mergeNear (n req page : Nat) (s : State) : State :=
  match (s.nbu.getD n {}).near.find? (fun p => p.req = req && p.page = page) with
  | none => s
  | some p =>
    if p.todo.isEmpty ∧ p.windows = 0 then
      (s.dropNear n p).mergePage req page .ok true (fun _ q => p.rows (PageFormatD p.src.format) q)
    else s

/-- A page that gives nothing from the near-bank path stands as its entry now does: decided by its code, waiting, or on cells (R43,
R70, R144). -/
def State.nearAgain (n : Nat) (p : NearPage) (s : State) : State :=
  let s := s.dropNear n p
  match s.reqs.get? p.req with
  | none => s
  | some q =>
    let (res, s) := s.resolve p.slice p.name
    match res with
    | .code c => s.setPage p.req p.page (.done c)
    | .frame e => s.addPage p.req p.page .ok (srcOf (s.format p.slice) p.name.block e) p.skip
    | .await _ =>
      let (k, s) := s.parkOn p.req p.page p.slice q.cls q.admitted p.name
        { members := [p.req], slice := p.slice, cls := q.cls, cols := min 256 (PageFormatD p.src.format) } 1
      (s.setPage p.req p.page (.waiting k 1 p.skip)).awaitPage p.slice p.name 1

/-- The pages of a fenced region that were not wholly accepted take codes under R43 (R44, R150). -/
def State.fenceNear (n : Nat) (s : State) : State := (s.nbu.getD n {}).near.foldl (fun s p => s.nearAgain n p) s

/-! ## Opening (R127 to R132) -/

/-- Windows of a region that are not over. (DESIGN CHOICE, log entry 87.) -/
def NbRegion.activeCount (r : NbRegion) : Nat := (r.wins.filter (fun w => w.2.step ≠ .ended)).length

/-- The sequencer may open a window on these pairs (R131, R134, R147, R150). -/
def NbRegion.pairsFree (r : NbRegion) (pairs : List Nat) : Bool :=
  pairs.all (fun p => !r.queued.any (fun c => c.pair = p) && !r.retiring.contains (p / 128, p % 128) &&
    (r.wins.filter (fun w => w.2.pairs.contains p && (!w.2.slots.isEmpty || w.2.step ≠ .ended))).length < 2)

/-- Windows that share a bank pair run in dispatch order (R131): no page dispatched before has work left on a pair of this one. -/
def NbRegion.turnOf (r : NbRegion) (p : NearPage) : Bool :=
  let mine := framePairs p.src.format p.src.frame
  (r.near.takeWhile (fun x => x.req ≠ p.req || x.page ≠ p.page)).all (fun x => x.todo.isEmpty ||
    !(framePairs x.src.format x.src.frame).any mine.contains)

/-- The query buffers have room for a window beside those in them (R121). -/
def NbRegion.roomFor (r : NbRegion) (w : NbWin) : Bool :=
  let load (x : NbWin) (pc : Nat) : Nat := pcBytes x.src.format x.params.queryFormat x.shape.rows x.loads pc
  let open_ := (r.wins.vals).filter (fun x => x.step ≠ .ended && x.sid = w.sid)
  open_.isEmpty || (List.range 64).all (fun pc => load w pc + ((open_.map (fun x => load x pc)).sum) ≤ 8192)

/-- The clocks of a region are settled (R148): its islands run, and no change of Apex waits for them. -/
def State.regionSteady (s : State) (n : Nat) : Bool :=
  !s.aon.coolantPin && s.pwr.regionClk.getD n 7 = s.pwr.blockClk &&
    [32 + n, 40 + n, 48 + n].all (fun i => !s.aon.stopped.contains i)

/-- A window of a shape over a page. -/
def State.newWin (s : State) (n : Nat) (p : NearPage) (params : FwdParams) (x : WinShape) : NbWin :=
  let gs := extentGranules p.src.format x.firstGranule x.granules x.head
  let pairs := granulePairs p.src.frame gs
  { req := p.req, page := p.page, slice := p.slice, src := p.src, shape := x, params := params, quarter := p.quarter, epoch := p.epoch
    sid := (decodeOffset (granuleOffset p.src.frame.2)).sid, pairs := pairs, granules := gs.map (· + p.src.frame.2)
    length := windowTenths p.src.format params.queryFormat x.rows
      (unitLoads p.src.format p.src.frame (extentLanes p.src.format x.firstGranule x.granules x.head))
    half := pairs.map (fun q => (q, (s.nbu.getD n {}).halves.getD q 0)) }

/-- NB_WINDOW_OPEN (R127 to R131): the sequencer chooses the page's next window and computes W. A page that no longer is eligible, or
whose next window no longer fits, goes to cells. Nothing opens out of turn, beside 16 windows, on pairs that are not free, or while
clocks change. (DESIGN CHOICE, log entry 13.) -/
def State.openWindow (n : Nat) (w : WinPlan) (s : State) : State :=
  let s := s.purgeNear n
  let r := s.nbu.getD n {}
  match r.near.find? (fun p => p.req = w.req && p.page = w.page), s.reqs.get? w.req with
  | some p, some q =>
    match q.kind, p.todo with
    | .attend params _ _ _ _, x :: rest =>
      if !s.nbEligible p.src.format p.src.frame params.queryFormat then s.nearToCells n p
      else match nextShape p.src.format p.src.frame params.queryFormat (s.windowLimit n) (p.rp.getD 4) x with
        | none => s.nearToCells n p
        | some sh =>
          let win := s.newWin n p params sh
          if s.regionSteady n && r.turnOf p && r.activeCount < 16 && r.pairsFree win.pairs && r.roomFor win then
            s.onNbu n (fun r => { r with
              wins := r.wins.set r.nextWin win
              nextWin := r.nextWin + 1
              halves := win.pairs.foldl (fun t p => t.set p (1 - t.getD p 0)) r.halves
              near := r.near.map (fun y => if y.req = p.req ∧ y.page = p.page then
                { y with rp := some (y.rp.getD sh.rows), todo := restOf x sh ++ rest, windows := y.windows + 1 } else y) })
          else s
    | _, _ => s
  | _, _ => s

/-- NB_WINDOW_OPEN. -/
def execNbWindowOpen (region : Fin 8) (w : WinPlan) (s : State) : Host.Outcome State Fault Refusal :=
  .next (s.whenUp (State.openWindow region w))

/-! ## The commands of a window (R126) -/

/-- An earlier window that shares a pair is still to end (R131). -/
def NbRegion.behind (r : NbRegion) (k : Nat) (w : NbWin) : Bool :=
  r.wins.any (fun x => x.1 < k && x.2.step ≠ .ended && x.2.pairs.any w.pairs.contains)

/-- Page-buffer lines of granules are invalidated (R132). -/
def State.dropLines (n : Nat) (gs : List Nat) (s : State) : State :=
  s.onEng (fun e => { e with lines := e.lines.filter (fun a => !(addrStack a = n && gs.contains (offsetGranule (addrOffset a)))) })

/-- A pair whose refresh falls due before a window of some length ends is refreshed first (R130). (DESIGN CHOICE, log entry 87.) -/
def State.refreshDue (n : Nat) (w : NbWin) (s : State) : State :=
  let due (r : NbRegion) (p : Nat) : Bool := r.refreshed.getD p 0 + s.refreshNs n < s.now + w.length / 10
  s.onNbu n (fun r => { r with refreshed := w.pairs.foldl (fun t p => if due r p then t.set p s.now else t) r.refreshed })

/-- NB_ENTER: pairs near their refresh are refreshed, page-buffer lines go, the bank set goes to near-bank mode, and the window's
stamp is taken (R126, R130, R132, R141). It waits its turn, for queued accesses to its pairs (R134), and for the region's clocks. -/
def State.enterWindow (n k : Nat) (s : State) : State :=
  let s := s.purgeNear n
  match s.win n k with
  | none => s
  | some w =>
    let r := s.nbu.getD n {}
    if w.step = .opened ∧ !r.behind k w ∧ w.pairs.all (fun p => !r.queued.any (fun c => c.pair = p)) ∧ s.regionSteady n then
      ((s.dropLines n w.granules).refreshDue n w).onWin n k (fun w => { w with step := .entered, stamp := s.now })
    else s

/-- NB_ENTER. -/
def execNbEnter (region : Fin 8) (win : Nat) (s : State) : Host.Outcome State Fault Refusal :=
  .next (s.whenUp (State.enterWindow region win))

/-- The key of a window's query buffer at a pseudo-channel. -/
def bufKey (k pc : Nat) : Nat := 256 * k + pc

/-- NB_LOAD: configuration, query rows and mask bits go into the query buffers of the SID's pseudo-channels (R121, R126). -/
def State.loadWindow (n k : Nat) (s : State) : State :=
  match s.win n k with
  | none => s
  | some w =>
    if w.step = .entered then
      (s.onWin n k (fun w => { w with step := .loaded })).onNbu n (fun r => { r with
        query := ((w.loads.map UnitLoad.pc).eraseDups).foldl (fun t pc => t.set (bufKey k pc) (w.buffer pc)) r.query })
    else s

/-- NB_LOAD. -/
def execNbLoad (region : Fin 8) (win : Nat) (s : State) : Host.Outcome State Fault Refusal :=
  .next (s.whenUp (State.loadWindow region win))

/-- NB_ACT: the next row of each bank of the set is opened, once the columns of the rows before it are read (R126). (DESIGN CHOICE, log entry 66.) -/
def State.activate (n k : Nat) (s : State) : State :=
  match s.win n k with
  | none => s
  | some w =>
    if (w.step = .loaded ∨ w.step = .reading) ∧ w.acts < actCount w.granules ∧ w.columns = columnsTo w.src.frame.2 w.granules w.acts then
      s.onWin n k (fun w => { w with
        step := if w.step = .loaded then .active else w.step
        acts := w.acts + 1
        opened := actRows w.src.frame.2 w.granules w.acts })
    else s

/-- NB_ACT. -/
def execNbAct (region : Fin 8) (win : Nat) (s : State) : Host.Outcome State Fault Refusal :=
  .next (s.whenUp (State.activate region win))

/-- The triples of a window's units once the last column is consumed (R136), from their banks and query buffers; a unit that met an
uncorrectable read holds an abort in place of its triples (R144). -/
def State.unitTriples (s : State) (n k : Nat) (w : NbWin) : List GroupTriple :=
  let s := s.bare n
  w.loads.flatMap (fun u => u.heads.flatMap (fun h => w.rowList.map (fun i =>
    let b := (s.nbu.getD n {}).query.getD (bufKey k u.pc) {}
    { die := u.die, unit := u.unit, head := h, row := i,
      t := s.unitTriple [n, u.die, u.unit, h, i] b.tau (scoreConst b.scale)
        { w.src with keyScale := b.keyScale, valueScale := b.valueScale } (b.query h i) h (b.keys h i) u
      abort := w.aborts.find? (fun a => a.die = u.die && a.unit = u.unit) })))

/-- The location of an uncorrectable read (R144): the row that is open in the bank; none where the window opened no row in it. -/
def NbWin.abortAt (w : NbWin) (a : Nat × Nat × Nat) : Option OndieAbort :=
  if w.loads.any (fun u => u.die = a.1 && u.unit = a.2.1) ∧ a.2.2 / 2 = a.2.1 % 8 then
    (w.opened.find? (fun o => o.1 = a.2.2)).map (fun o => { die := a.1, unit := a.2.1, bank := a.2.2, row := o.2.1 })
  else none

/-- NB_READ: one column in every unit of the bank set, with what on-die ECC finds (R120, R126, R141, R144). -/
def State.readColumn (n k : Nat) (x : ColumnEcc) (s : State) : State :=
  match s.win n k with
  | none => s
  | some w =>
    if (w.step = .active ∨ w.step = .reading) ∧ w.columns < columnsTo w.src.frame.2 w.granules w.acts then
      let w := { w with
        step := .reading
        columns := w.columns + 1
        aborts := w.aborts ++ (x.abort.bind w.abortAt).toList
        corrected := w.corrected ++ x.corrected.filter (fun c => w.loads.any (fun u => u.die = c.1 && u.unit = c.2)) }
      let w := if w.columns = w.total then { w with triples := s.unitTriples n k w } else w
      ((s.onWin n k (fun _ => w)).bump).takeSlot n 3 (sramBank (nodeAddr n (granuleOffset w.src.frame.2)))
    else s

/-- NB_READ. -/
def execNbRead (region : Fin 8) (win : Nat) (abort : ColumnEcc) (s : State) : Host.Outcome State Fault Refusal :=
  .next (s.whenUp (State.readColumn region win abort))

/-- The triples of the page groups at their leads (R137): members merge from the highest unit down; the first abort among a group's
members takes the place of its triples (R144), and their on-die corrections are counted (R141). -/
def NbWin.groupTriples (w : NbWin) : List GroupTriple :=
  (pageGroups w.loads).flatMap (fun g =>
    let member (die unit : Nat) : Bool := die = g.die && g.members.any (fun u => u.unit = unit)
    w.rowList.map (fun i =>
      let ms := g.members.filterMap (fun u => w.triples.find? (fun t => t.die = g.die && t.unit = u.unit && t.head = g.head && t.row = i))
      { die := g.die, unit := g.lead, head := g.head, row := i, t := chordReduce (PageFormatD w.src.format) (ms.map GroupTriple.t),
        abort := w.aborts.find? (fun a => member a.die a.unit)
        corrected := min 255 (w.corrected.filter (fun c => member c.1 c.2)).length }))

/-- NB_CHORD: page groups reduce toward their leads (R137). -/
def State.chordWindow (n k : Nat) (s : State) : State :=
  match s.win n k with
  | none => s
  | some w =>
    if w.step = .reading ∧ w.columns = w.total then s.onWin n k (fun w => { w with step := .reduced, triples := w.groupTriples })
    else s

/-- NB_CHORD. -/
def execNbChord (region : Fin 8) (win : Nat) (s : State) : Host.Outcome State Fault Refusal :=
  .next (s.whenUp (State.chordWindow region win))

/-- The result record of a group's triple (R141). (DESIGN CHOICE, log entry 87.) -/
def groupRecord (stamp : Nat) (g : GroupTriple) : ResultRec :=
  match g.abort with
  | some a =>
    { stamp := stamp, head := g.head, row := g.row, status := 1, abortRow := a.row, abortUnit := a.unit, abortBank := a.bank,
      ceCount := g.corrected, o := List.replicate g.t.o.length 0 }
  | none =>
    { stamp := stamp, m := g.t.m, l := g.t.l, keys := g.t.keys, steps := g.t.rescales, head := g.head, row := g.row, status := 0,
      flags := b2n (!g.t.nonfinite && (ofF32 g.t.m).lt (ofF32 g.t.mMax)) + 2 * b2n g.t.nonfinite, ceCount := g.corrected, o := g.t.o }

/-- The slot of a triple (R140): 4g + (r mod 4) in the pair's half, g the group's place among its lead's groups. -/
def NbWin.slotOf (w : NbWin) (g : GroupTriple) : Nat :=
  let mine := ((pageGroups w.loads).filter (fun x => x.die = g.die && x.lead = g.unit)).map PageGroup.head
  (w.half.getD (g.die * 128 + g.unit) 0) * 8 + 4 * (mine.idxOf g.head) + g.row % 4

/-- NB_RESULT: the leads write their triples into the result rows, with their column tags (R140 to R142). -/
def State.resultWindow (n k : Nat) (s : State) : State :=
  match s.win n k with
  | none => s
  | some w =>
    if w.step = .reduced then
      let recs := w.triples.map (fun g => (g.die * 128 + g.unit, w.slotOf g, (groupRecord w.stamp g).encode, g))
      (recs.foldl (fun s x => s.writeSlot n x.1 x.2.1 x.2.2.1) s).onWin n k (fun w => { w with
        step := .written
        slots := recs.foldl (fun t x => t.set (x.1 * 16 + x.2.1)
          { tags := (columns x.2.2.1.length x.2.2.1).map (fun c => columnTag c w.stamp), group := x.2.2.2 }) [] })
    else s

/-- NB_RESULT. -/
def execNbResult (region : Fin 8) (win : Nat) (s : State) : Host.Outcome State Fault Refusal :=
  .next (s.whenUp (State.resultWindow region win))

/-! ## Result records (R139, R143, R144, R146) -/

/-- A triple belongs to a page group of its window. -/
def GroupTriple.inGroup (g : GroupTriple) (die head : Nat) : Bool := g.die = die && g.head = head

/-- A row of a page group computed again on cells (R146): the tiles of its records, in chains, merged. -/
def State.groupOnCells (s : State) (n : Nat) (w : NbWin) (die unit head row : Nat) : GroupTriple :=
  let d := PageFormatD w.src.format
  let recs := ((w.loads.filter (fun u => u.die = die)).flatMap UnitLoad.recs).filterMap (fun r => if r.1 = head then some r.2 else none)
  let tiles := s.cellTiles [n, die, head, row] (scoreConst w.params.scale) w.src
    (queryVec w.params.queryFormat (w.params.query.getD (head * w.params.rowsPerHead + row) [])) head
    ((w.keys head row).filter recs.contains)
  { die := die, unit := unit, head := head, row := row
    t := mergeTree d (runChains s.order (fun _ => false) w.params.tau d tiles) }

/-- A window all of whose triples are accepted or replaced gives them to its page, which is merged after its last window (R139). -/
def State.settleWin (n k : Nat) (s : State) : State :=
  match s.win n k with
  | none => s
  | some w =>
    if w.step = .ended ∧ w.slots.isEmpty ∧ w.refused.isEmpty ∧ w.aborted.isEmpty then
      (s.onNbu n (fun r => { r with
        wins := r.wins.erase k
        query := r.query.filter (fun b => b.1 / 256 ≠ k)
        near := r.near.map (fun p => if p.req = w.req ∧ p.page = w.page then
          { p with windows := p.windows - 1, triples := p.triples ++ w.accepted } else p) })).mergeNear n w.req w.page
    else s

/-- A page group is computed on cells, every row of it (R92, R146); it is counted once (R149). -/
def State.redoGroup (n k die unit head : Nat) (s : State) : State :=
  match s.win n k with
  | none => s
  | some w =>
    let mine (g : GroupTriple) : Bool := g.inGroup die head
    let new := w.rowList.map (s.groupOnCells n w die unit head)
    let s := (s.touchFrame w.src [head]).onNbu n (fun x => { x with groupsToCells := inc32 x.groupsToCells })
    ((s.onWin n k (fun w => { w with
      slots := w.slots.filter (fun y => !mine y.2.group)
      refused := w.refused.filter (· ≠ (die, head))
      aborted := w.aborted.filter (fun y => !mine y.2)
      accepted := w.accepted.filter (fun g => !mine g) ++ new })).bump).settleWin n k

/-- What follows a group's last record: the re-read of an abort, which governs (R150), or cells where a record was refused. -/
def State.decideGroup (n k : Nat) (g : GroupTriple) (s : State) : State :=
  match s.win n k with
  | none => s
  | some w =>
    if w.slots.any (fun y => y.2.group.inGroup g.die g.head) ∨ w.aborted.any (fun y => y.2.inGroup g.die g.head) then s
    else if w.refused.contains (g.die, g.head) then s.redoGroup n k g.die g.unit g.head
    else s.settleWin n k

/-- Near-bank unit number of R354. -/
def nbuNum (n die unit : Nat) : Nat := n * 2048 + die * 132 + unit

/-- On-die corrections that a group's record reports (R141, R146): counted and logged with the lead, the island's temperature and
the window's stamp. -/
def State.logCorrected (n slice : Nat) (g : GroupTriple) (stamp count : Nat) (s : State) : State :=
  if count = 0 then s
  else (s.logDetection (40 + n) 5 2 6 (nbuNum n g.die g.unit) (s.temp (40 + n)) s.pwr.vdd 4 slice stamp).onRas
    (fun r => { r with ce := r.ce.modify n (fun c => satAdd max32 c count) })

/-- The controller's check of a result record (R143): `errors` are the bytes in which the read differs from what was written. -/
def State.checkRecord (n k slot : Nat) (errors : List (Nat × Byte)) (s : State) : State :=
  match s.win n k with
  | none => s
  | some w =>
    match w.slots.get? slot with
    | none => s
    | some r =>
      if w.step ≠ .ended then s
      else
        let b := errors.foldl (fun (l : List Byte) e => l.modify e.1 (· ^^^ e.2)) (s.slotBytes n (slot / 16) (slot % 16) (32 * r.tags.length))
        let x := ResultRec.decode (PageFormatD w.src.format) b
        let ok := x.stamp = w.stamp ∧ (columns b.length b).map (fun c => columnTag c w.stamp) = r.tags
        let g := r.group
        let last := !((w.slots.erase slot).any (fun y => y.2.group.inGroup g.die g.head))
        let s := if ok ∧ last then s.logCorrected n w.slice g w.stamp x.ceCount else s
        let s := s.onWin n k (fun w => { w with slots := w.slots.erase slot })
        let s :=
          if ok ∧ x.status = 0 then
            let t : Triple := { g.t with m := x.m, l := x.l, keys := x.keys, rescales := x.steps, o := x.o, nonfinite := bit x.flags 1 }
            s.onWin n k (fun w => { w with accepted := w.accepted ++ [{ g with t := t }] })
          else if ok ∧ x.status = 1 then
            let s := s.onNbu n (fun y => { y with ondieAborts := inc32 y.ondieAborts })
            let s := s.logEvent (32 + n) 0x0702 w.slice 0 (nbuNum n g.die x.abortUnit) w.stamp x.abortRow
            let g : GroupTriple := { g with abort := some { die := g.die, unit := x.abortUnit, bank := x.abortBank, row := x.abortRow } }
            s.onWin n k (fun w => { w with aborted := w.aborted.set slot g })
          else
            let num := nbuNum n g.die g.unit
            let s := if ok then s else s.onNbu n (fun y => { y with refusals := inc32 y.refusals })
            let s := s.logEvent (32 + n) 0x0702 w.slice 0 num w.stamp 0
            let s := if h : n < 8 ∧ g.die < 12 ∧ g.unit < 132 then
              s.detect (.nbu ⟨n, h.1⟩ ⟨g.die, h.2.1⟩ ⟨g.unit, h.2.2⟩) 4 6 w.slice w.stamp else s
            s.onWin n k (fun w => { w with refused := (w.refused ++ [(g.die, g.head)]).eraseDups })
        s.decideGroup n k g

/-- RESULT_RECORD_READ: nothing of a fenced stack is read (R150); a read that meets a window waits (R133). -/
def State.readRecord (n k slot : Nat) (errors : List (Nat × Byte)) (s : State) : State :=
  let s := s.purgeNear n
  if s.stackFenced n then s
  else if s.collides (slotAddr n (slot / 16) (slot % 16) 0) then
    s.collide (slotAddr n (slot / 16) (slot % 16) 0) 256 (.record k slot errors)
  else s.checkRecord n k slot errors

/-- RESULT_RECORD_READ. -/
def execResultRecordRead (region : Fin 8) (win slot : Nat) (errors : List (Nat × Byte)) (s : State) :
    Host.Outcome State Fault Refusal := .next (s.whenUp (State.readRecord region win slot errors))

/-- Address of the row that a group's abort names. -/
def abortAddr (n : Nat) (w : NbWin) (g : GroupTriple) : Nat :=
  match g.abort with
  | some a =>
    nodeAddr n (encodeOffset { sid := w.sid, pc := g.die % 4 * 16 + a.unit / 8, bank := a.bank, row := a.row, seg := 0, byte := 0 })
  | none => nodeAddr n (granuleOffset w.src.frame.2)

/-- What the re-read of an aborted row finds (R144): a row that system ECC recovers is written back and the group goes to cells; one
that it cannot changes the page's entry under R70, and the page gives nothing. -/
def State.abortRead (n k slot : Nat) (recovered : Bool) (s : State) : State :=
  match s.win n k with
  | none => s
  | some w =>
    match w.aborted.get? slot with
    | none => s
    | some g =>
      if recovered then (s.rowCorrected (abortAddr n w g)).redoGroup n k g.die g.unit g.head
      else
        let s := s.uncorrectable (abortAddr n w g)
        match (s.nbu.getD n {}).pageOf w with
        | none => s.onNbu n (fun r => { r with wins := r.wins.erase k })
        | some p =>
          let s := match s.entry p.slice p.name with
            | some e => if e.frameState.inStack && e.stackFrame = p.src.frame then s.poison p.slice p.name else s
            | none => s
          s.nearAgain n p

/-- ONDIE_ABORT_REREAD: in arbiter class 1 (R30, R144); a read that meets a window waits (R133). -/
def State.rereadAbort (n k slot : Nat) (recovered : Bool) (s : State) : State :=
  let s := s.purgeNear n
  match (s.win n k).bind (fun w => (w.aborted.get? slot).map (abortAddr n w)) with
  | none => s
  | some a =>
    let s := s.takeSlot n 1 (sramBank a)
    if s.collides a then s.collide a 256 (.abort k slot recovered) else s.abortRead n k slot recovered

/-- ONDIE_ABORT_REREAD. -/
def execOndieAbortReread (region : Fin 8) (win slot : Nat) (recovered : Bool) (s : State) : Host.Outcome State Fault Refusal :=
  .next (s.whenUp (State.rereadAbort region win slot recovered))

/-! ## The end of a window (R134, R150) -/

/-- An access of the queue is issued. -/
def State.issueAccess (c : CqEntry) (s : State) : State :=
  let n := addrStack c.addr
  match c.job with
  | .write d => s.bankWriteN c.addr d
  | .host => s.emit (.memRead c.addr (s.memReadN c.addr c.len))
  | .read => s
  | .scrub corrected uncorrectable => s.scrubbed c.addr corrected uncorrectable
  | .record w slot errors => s.checkRecord n w slot errors
  | .abort w slot recovered => s.abortRead n w slot recovered
  | .refill clean => s.refilled n c.addr clean

/-- The queued accesses to banks that no active window holds are issued in arrival order; those that the arbiter withheld follow, or
take the room in the queue (R134). -/
def State.drainQueue (n : Nat) (s : State) : State :=
  let r := s.nbu.getD n {}
  let held (c : CqEntry) : Bool := r.wins.any (fun w => w.2.active && w.2.pairs.contains c.pair)
  let go := r.queued.filter (fun c => !held c)
  let s := s.onNbu n (fun r => (r.withheld.filter held).foldl (fun x c => x.enqueue c) { r with cq := r.cq.filter held, withheld := [] })
  go.foldl (fun s c => s.issueAccess c) s

/-- Retirements that waited for a window on their pair take effect (R147, R150). -/
def State.retireWaiting (n : Nat) (s : State) : State :=
  s.onNbu n (fun r =>
    let busy (u : Nat × Nat) : Bool := r.wins.any (fun w => w.2.active && w.2.pairs.contains (u.1 * 128 + u.2))
    { r with retiring := r.retiring.filter busy
             retiredUnits := (r.retiredUnits ++ r.retiring.filter (fun u => !busy u)).eraseDups })

/-- A drain of a region's near-bank path completes with its last window; a latched enable takes effect (R310, R311). -/
def State.endNbDrain (n : Nat) (s : State) : State :=
  if (s.nbu.getD n {}).activeCount = 0 then
    s.onSch (fun c => { c with nbDraining := c.nbDraining.filter (· ≠ n), nbPending := c.nbPending.filter (· ≠ n) })
  else s

/-- NB_EXIT: the bank set is back in normal mode and the window ends; unit retirements that waited take effect, the queued accesses are
issued, region clocks that waited change, and a drain may complete (R126, R134, R148, R150, R310). -/
def State.exitWindow (n k : Nat) (s : State) : State :=
  match s.win n k with
  | none => s
  | some w =>
    if w.step = .written then
      (((((s.onWin n k (fun w => { w with step := .ended })).retireWaiting n).purgeNear n).drainQueue n).endNbDrain n).syncRegionClk n
    else s

/-- NB_EXIT. -/
def execNbExit (region : Fin 8) (win : Nat) (s : State) : Host.Outcome State Fault Refusal :=
  .next (s.whenUp (State.exitWindow region win))

/-! ## Spares, refresh and the enable -/

/-- NBU_SPARE_STEER (R147, R355): a free spare of the die takes a retired unit's place, between windows on its pair. -/
def State.steerSpare (n die unit : Nat) (s : State) : State :=
  let r := s.nbu.getD n {}
  let used := r.spareMap.getD die []
  if r.retiredUnits.contains (die, unit) && used.length < 4 &&
      !r.wins.any (fun w => w.2.active && w.2.pairs.contains (die * 128 + unit)) then
    (s.onNbu n (fun r => { r with
      spareMap := r.spareMap.set die (used ++ [unit])
      retiredUnits := r.retiredUnits.filter (· ≠ (die, unit)) })).onRas
      (fun x => { x with units := x.units.erase (2 * 65536 + nbuNum n die unit) })
  else s

/-- NBU_SPARE_STEER. -/
def execNbuSpareSteer (stack : Fin 8) (die : Fin 12) (unit : Fin 128) (s : State) : Host.Outcome State Fault Refusal :=
  .next (s.whenUp (State.steerSpare stack die unit))

/-- REFRESH (R127, R130): the bank pair is refreshed; none reaches a pair in a window. -/
def State.refreshPair (n pair : Nat) (s : State) : State :=
  let r := s.nbu.getD n {}
  if r.wins.any (fun w => w.2.active && w.2.pairs.contains pair) then s
  else s.onNbu n (fun r => { r with refreshed := r.refreshed.set pair s.now })

/-- REFRESH. -/
def execRefresh (stack : Fin 8) (sid : Fin 3) (pc : Fin 64) (pair : Fin 8) (s : State) : Host.Outcome State Fault Refusal :=
  .next (s.whenUp (State.refreshPair stack ((4 * sid + pc / 16) * 128 + pc % 16 * 8 + pair)))

/-- Set `nb_enable` (R149, R311): latched while the drain runs. -/
def State.enableNb (n : Nat) (s : State) : State :=
  let s := s.onNbu n (fun r => { r with nbEnable := true })
  if s.sch.nbDraining.contains n then
    s.onSch (fun c => { c with nbPending := if c.nbPending.contains n then c.nbPending else c.nbPending ++ [n] })
  else s

/-- Clear `nb_enable` (R149, R310, R311): the drain starts, a latched enable is cancelled, and every page goes to cells: windows that
have begun run to their end and give nothing. -/
def State.disableNb (n : Nat) (s : State) : State :=
  let s := s.onNbu n (fun r => { r with nbEnable := false })
  let s := ((s.nbu.getD n {}).near.filter (fun p => !p.todo.isEmpty)).foldl (fun s p => s.nearToCells n p) s
  let s := s.onSch (fun c => { c with nbPending := c.nbPending.filter (· ≠ n) })
  if (s.nbu.getD n {}).activeCount = 0 ∨ s.sch.nbDraining.contains n then s
  else s.onSch (fun c => { c with nbDraining := c.nbDraining ++ [n] })

/-- NB_ENABLE. -/
def execNbEnable (region : Fin 8) (s : State) : Host.Outcome State Fault Refusal := .next (s.whenUp (State.enableNb region))

/-- NB_DISABLE. -/
def execNbDisable (region : Fin 8) (s : State) : Host.Outcome State Fault Refusal := .next (s.whenUp (State.disableNb region))

end Sys2Proof.Machine
end

