-- ==== Sys2Proof/Machine/Tiers.lean ====
section
/-! DEFINITION. The tiers: retire lists and reclaim epochs (R66), reclamation and demotion (R222, R223), fills and their ends
(R224, R225, R463), NVMe completions and drives (R228, R230, R231, R243), recovery and replicas (R204, R238 to R242), stream
entries (R232), region fences and their sweep (R71, R358). -/

namespace Sys2Proof.Machine

/-! ## Epochs in use (R66) -/

/-- Epochs that requests still hold in a quarter: those of pages at the near-bank units, and of windows that have not ended. -/
def State.heldEpochs (s : State) (q : Nat) : List Nat :=
  s.nbu.flatMap (fun r =>
    (r.near.filter (fun p => p.quarter = q && (s.reqs.get? p.req).isSome)).map NearPage.epoch ++
    ((r.wins.vals).filter (fun w => w.quarter = q && w.active)).map NbWin.epoch)

/-- A retired place may be freed in the epoch `e` (R66). -/
def freeable (held : List Nat) (e : Nat) (r : Retired) : Bool := decide (r.epoch < e) && held.all (fun h => decide (r.epoch < h))

/-! ## Reclamation and demotion (R222, R223) -/

/-- Granules of a stack in free spans and in free units of its spans (R221). -/
def State.freeGranules (s : State) (stack : Nat) : Nat :=
  let sp := s.mem.spans.filter (fun x => x.1 / spansPerStack = stack)
  (spansPerStack - (sp.filter (fun x => x.2.kind ≠ 0)).length) * 256 +
    (sp.map (fun x => if x.2.kind = 0 ∨ x.2.kind = 7 then 0
      else (unitsPerSpan x.2.unitGranules - x.2.used.length) * x.2.unitGranules)).sum

/-- Granules of a stack that wait on retire lists. -/
def State.retiredGranules (s : State) (stack : Nat) : Nat :=
  (((s.mem.retire.map (fun r => r.2)).flatten.filter (fun r => !r.flash && r.place = stack && r.slot.isNone)).map Retired.count).sum

/-- The free share of stacks has reached `pct` percent, counting `more` granules that are on their way. -/
def State.shareAt (s : State) (sts : List Nat) (more pct : Nat) : Bool :=
  pct * (sts.length * granulesPerStack) ≤ ((sts.map s.freeGranules).sum + more) * 100

/-- The slice's free share lies below `stack_low`. -/
def State.lowSpace (s : State) (slice : Nat) : Bool :=
  !s.shareAt (s.cfg slice).stackList 0 (s.cfg slice).tier.stackLow

/-- A move of the page waits for a revocation (R204). -/
def State.moving? (s : State) (k : MoveKind) (e : Entry) : Bool :=
  s.home.moves.any (fun m => m.slice = e.slice && m.name = e.name && m.kind = k)

/-- Granules that reclamation has released, is demoting, or waits to take from replicated pages, in stacks. -/
def State.onTheWay (s : State) (sts : List Nat) : Nat :=
  (sts.map s.retiredGranules).sum +
    ((s.home.entries.filter (fun e => (e.frameState = .demoting || s.moving? .release e || s.moving? .demote e) &&
      sts.contains e.stackFrame.1)).map (fun e => frameGranules (s.format e.slice))).sum

/-- A landed frame is held until its parked requests have resolved it again (R463). -/
def State.frameHeld (s : State) (e : Entry) : Bool :=
  s.eng.ctxs.any (fun c => c.2.slice = e.slice && c.2.name = e.name && c.2.slotState = 1)

/-- Idle time of an entry in `last_use` units; more than 2^31 counts as the oldest (R61). -/
def State.idle (s : State) (e : Entry) : Nat := (s.useStamp + 2 ^ 32 - e.lastUse) % 2 ^ 32

/-- The order in which reclamation takes frames: longest idle first, then the lower granule (R222). -/
def State.takeBefore (s : State) (a b : Entry) : Bool :=
  decide (s.idle b < s.idle a) || (s.idle a = s.idle b && decide (a.stackFrame.2 < b.stackFrame.2))

/-- An entry may be demoted (R223), beside the extent. -/
def State.demotable (s : State) (e : Entry) : Bool :=
  e.frameState = .stack && !s.stackFenced e.stackFrame.1 && (e.stateNow = .published || e.stateNow = .torn) && e.pinCount = 0 &&
    !s.home.accs.any (fun (a : Accumulator) => a.is e.slice e.name) &&
    (s.cfg e.slice).tier.demoteMinAge * 1000000 ≤ s.idle e * 2 ^ 24 && (s.cfg e.slice).tier.flashDrives ≠ 0

/-- Release the stack frame of a STACK_CLEAN entry (R222). -/
def State.releaseFrame (e : Entry) (s : State) : State :=
  (((s.retireUnit e.quarter e.stackFrame (frameGranules (s.format e.slice))).forgetLook e.slice e.name).onEntry e.slice e.name
    (fun e => { e with frameState := .flash })).bumpGen e.slice e.name true

/-- Write a page's shadow (R237): in the data frame's stack, else in the slice's others; a skip is counted. -/
def State.writeShadow (e : Entry) (s : State) : State :=
  let f := s.format e.slice
  if f.shadowEnable = 0 ∨ e.shadowValid then s
  else
    let n := frameGranules (shadowFormat f)
    let skip : State := s.onHome (fun h => { h with shadowSkips := inc32 h.shadowSkips })
    if (s.cfg e.slice).tier.shadowQuota < s.shadowGranules e.slice + n then skip
    else match s.allocFrom e.slice 2 n (s.stacksFirst e.slice e.stackFrame.1) with
      | none => skip
      | some (p, s) => (s.fillShadow f e.stackFrame p e.keyScale e.valueScale e.fill).onEntry e.slice e.name
          (fun e => { e with shadowValid := true, shadowFrame := p })

/-- Begin to demote an entry (R223 steps 1 to 3); none where no extent is free, or where the quarter's retire list is full (R246). -/
def State.demote (s : State) (e : Entry) : Option State :=
  if s.retireFull e.quarter then none
  else match s.allocExtent e.slice e.name (frameGranules (s.format e.slice)) with
  | none => none
  | some (x, s) =>
    let s := (s.writeShadow e).onEntry e.slice e.name (fun e => { e with
      frameState := .demoting, flashDrive := x.1, flashGranule := x.2 })
    some (s.addCmds x.1 { slice := e.slice, name := e.name, write := true, fua := true, cls := if s.lowSpace e.slice then 2 else 4 } x.2
      (frameBytes (s.format e.slice)))

/-- Rounds 1 and 2: release clean frames, those outside their stream's window first; a replicated page's grants are revoked before
(R240). -/
def State.releaseRounds (sts : List Nat) (pct : Nat) (es : List Entry) (s : State) : State :=
  es.foldl (fun s e => if s.shareAt sts (s.onTheWay sts) pct then s
    else if s.shared e.slice e.name then s.beginMove e.slice e.name .release
    else s.releaseFrame e) s

/-- Round 3: demote until enough is on its way; the round stops where no extent is free (R246). -/
def State.demoteRound (sts : List Nat) (pct : Nat) : List Entry → State → State
  | [], s => s
  | e :: t, s =>
    if s.shareAt sts (s.onTheWay sts) pct then s
    else if s.shared e.slice e.name then State.demoteRound sts pct t (s.beginMove e.slice e.name .demote)
    else match s.demote e with
      | none => s
      | some s => State.demoteRound sts pct t s

/-- Reclamation over the stacks given (R222). -/
def State.reclaim (slice : Nat) (sts : List Nat) (s : State) : State :=
  let pct := (s.cfg slice).tier.stackHigh
  let mine := sortBy s.takeBefore (s.home.entries.filter (fun e => e.slice = slice && e.frameState.inStack &&
    sts.contains e.stackFrame.1 && !s.stackFenced e.stackFrame.1 && !s.frameHeld e && e.pinCount = 0 && !s.moving? .release e &&
    !s.moving? .demote e))
  let clean := mine.filter (fun e => e.frameState = .stackClean)
  let s := s.releaseRounds sts pct (clean.filter (fun e => !s.inWindow slice e.name))
  let s := s.releaseRounds sts pct (clean.filter (fun e => match s.entry slice e.name with
    | some x => x.frameState = .stackClean
    | none => false))
  State.demoteRound sts pct (mine.filter s.demotable) s

/-- Go on with the reclamations that have not reached `stack_high`: a frame whose demotion is complete is released then (R222). -/
def State.reclaimOn (s : State) : State :=
  let s := s.home.reclaiming.foldl (fun s r => s.reclaim r.1 (match r.2 with
    | none => (s.cfg r.1).stackList
    | some k => [k])) s
  s.onHome (fun h => { h with reclaiming := h.reclaiming.filter (fun r =>
    !s.shareAt (match r.2 with
      | none => (s.cfg r.1).stackList
      | some k => [k]) 0 (s.cfg r.1).tier.stackHigh) })

/-- Reclamation starts over a slice's stacks, or in one of them, and runs until `stack_high` is reached (R222). -/
def State.startReclaim (slice : Nat) (k : Option Nat) (s : State) : State :=
  (s.onHome (fun h => if h.reclaiming.contains (slice, k) then h else { h with reclaiming := h.reclaiming ++ [(slice, k)] })).reclaimOn


/-- Store an extent's bytes from the non-zero ones under a slice's key. -/
def State.storeImage (slice d granule n : Nat) (img : List (Nat × Byte)) (s : State) : State :=
  let k := s.flashKey slice
  s.onDrive d (fun y => { y with
    keys := y.keys.set granule k
    tweaks := y.tweaks.set granule (xtsTweak d (262144 + 16 * granule))
    cells := img.foldl (fun c p => cellWrite c (granule * 65536 + p.1) p.2)
      (cellZero y.cells (granule * 65536) ((granule + n) * 65536)) })

/-! ## Writes into stack frames (R65, R70) -/

/-- A write reaches a stack frame: a flash copy or a demotion ends, the entry becomes STACK, its shadow goes (R70, R237). -/
def State.unclean (slice : Nat) (n : PageName) (s : State) : State :=
  match s.entry slice n with
  | none => s
  | some e =>
    let k := frameGranules (s.format slice)
    let s := s.retireShadow slice n
    match e.frameState with
    | .stackClean => ((s.retireExtent e.quarter e.flashDrive e.flashGranule k).onEntry slice n
        (fun e => { e with frameState := .stack })).bumpGen slice n true
    | .demoting => ((s.dropCmds e.flashDrive slice n).retireExtent e.quarter e.flashDrive e.flashGranule k).onEntry slice n
        (fun e => { e with frameState := .stack })
    | _ => s

/-- Write logical bytes of a page's stack frame; one on flash or under recovery waits for its fill (R70), one that a replicated page
holds clean waits for the revocation of its grants, since the write ends its flash copy (R70, R240). (DESIGN CHOICE, log entry 32.) -/
def State.writePage (slice : Nat) (n : PageName) (at_ : Nat) (data : List Byte) (s : State) : State :=
  let s := s.refresh slice n
  match s.entry slice n with
  | none => s
  | some e =>
    let wait (s : State) : State := s.onMem (fun m => { m with waits := m.waits ++ [{ slice := slice, name := n, at_ := at_, data := data }] })
    if e.frameState = .stackClean && (s.shared slice n || s.moving? .write e) then (wait s).beginMove slice n .write
    else if e.frameState.inStack then
      (s.unclean slice n).busBytes (frameBytesAt (s.format slice) e.stackFrame at_ data)
    else if e.frameState = .flash ∨ e.frameState = .filling ∨ e.frameState = .dropped then
      (wait s).awaitPage slice n 1
    else s

/-- The writes that waited for a page are done when it lands. -/
def State.applyWaits (slice : Nat) (n : PageName) (s : State) : State :=
  let mine (w : WaitWrite) : Bool := w.slice = slice && w.name = n
  let ws := s.mem.waits.filter mine
  ws.foldl (fun s w => s.writePage slice n w.at_ w.data) (s.onMem (fun m => { m with waits := m.waits.filter (fun w => !mine w) }))

/-! ## Fills (R224, R225, R246) -/

/-- A fill whose entry has gone or stands elsewhere: the landing frame is retired on arrival, waiters resolve again (R246). -/
def State.fillStale (f : Fill) (s : State) : State :=
  let s := match f.frame with
    | some p => s.retireUnit (s.quarterOf f.slice f.name.handle) p (frameGranules (s.format f.slice))
    | none => s
  let s := (s.endFill f.slice f.name).writeSlots f.slice f.name 1 .ok
  match s.entry f.slice f.name with
  | none => s.tellFate f.slice f.name .gone
  | some e =>
    if e.frameState.inStack then (s.applyWaits f.slice f.name).tellFate f.slice f.name .landed
    else if s.awaited f.slice f.name then s.awaitPage f.slice f.name 1 else s

/-- The page has landed: its waiters hear of it (R224 step 4), and its lookahead is remembered (R245). -/
def State.landed (slice : Nat) (n : PageName) (f : Fill) (s : State) : State :=
  let s := s.endFill slice n
  let s := if f.lookahead && !s.awaited slice n then
    s.onHome (fun h => { h with lookLanded := (h.lookLanded ++ [(slice, n)]).eraseDups }) else s
  ((s.applyWaits slice n).writeSlots slice n 1 .ok).tellFate slice n .landed

/-- Every read of a fill is written (R224 step 3). -/
def State.fillLand (slice : Nat) (n : PageName) (s : State) : State :=
  match s.fillOf slice n with
  | none => s
  | some f =>
    if f.recovering then s
    else match s.entry slice n, f.frame with
      | some e, some p =>
        if e.frameState = .filling ∧ e.stackFrame = p then
          if (s.cmdsOf e.flashDrive slice n).isEmpty then
            if s.shared slice n then s.beginMove slice n .land
            else
            let fm := s.format slice
            let img := s.flashImage slice e.flashDrive e.flashGranule (frameBytes fm)
            let s := ((s.takeStack 4 (nodeAddr p.1 (granuleOffset p.2))).writeImage fm p img).bump
            let s := (s.onEntry slice n (fun e => { e with frameState := .stackClean })).bumpGen slice n true
            (s.countTier e.quarter (fun t => { t with fills := inc32 t.fills })).landed slice n f
          else s
        else s.fillStale f
      | none, _ => s.fillStale f
      | some _, none => s

/-- A page that came from a replica after an append has raised its fill without a Hull record gets one (R49, R68). -/
def State.rehull (slice : Nat) (n : PageName) (s : State) : State :=
  match s.entry slice n with
  | none => s
  | some e => if e.hullValid then s else s.writeHull slice n e.keyScale e.fill

/-! ## Recovery of a page (R241) -/

/-- A replica's copy arrives for a page under recovery (R241): it is written into a new stack frame, the bad extent is
released, the entry becomes STACK. It waits where no stack unit is free (R224), or a grant still stands (R240). -/
def State.recovered (slice : Nat) (n : PageName) (f : Fill) (img : PageImage) (s : State) : State :=
  match s.entry slice n with
  | none => s.fillStale f
  | some e =>
    if s.shared slice n then (s.revokeGrants slice n).onFill slice n (fun f => { f with got := some img, since := if f.got.isSome then f.since else s.now })
    else if img.frameGen ≠ e.frameGen then s.askNext slice n
    else match s.allocFrame slice n with
      | none => s.onFill slice n (fun f => { f with got := some img, since := if f.got.isSome then f.since else s.now })
      | some (p, s) =>
        let fm := s.format slice
        let s := if e.frameState = .filling then s.retireUnit e.quarter e.stackFrame (frameGranules fm) else s
        let s := if e.frameState.onFlash && !s.driveFailedB e.flashDrive then
          s.retireExtent e.quarter e.flashDrive e.flashGranule (frameGranules fm) else s
        let s := ((s.retireShadow slice n).writeImage fm p img.data).onEntry slice n (fun e =>
          { e with frameState := .stack, stackFrame := p })
        (((s.bumpGen slice n true).countTier e.quarter (fun t => { t with recoveries := inc32 t.recoveries })).landed slice n f).rehull slice n

/-! ## What space and time bring -/

/-- Give every fill and recovery that still waits for a stack unit another try (R224). -/
def State.placeFills (s : State) : State := s.home.fills.foldl (fun s f =>
  match f.got with
  | none => s.placeFill f.slice f.name
  | some img => s.recovered f.slice f.name f img) s

/-- The reclaim epoch of a quarter advances; places that no registered request can use are freed (R66). -/
def State.advanceEpoch (q : Nat) (s : State) : State :=
  let e := s.mem.epochs.getD q 0 + 1
  let held := s.heldEpochs q
  let gone := (s.retireList q).filter (freeable held e)
  let s := s.onMem (fun m => { m with
    epochs := m.epochs.set q e
    retire := m.retire.update q [] (fun l => l.filter (fun r => !freeable held e r)) })
  ((gone.foldl (fun s r => s.freeRetired r) s).reclaimOn).placeFills

/-- RECLAIM_EPOCH_ADVANCE. -/
def execReclaimEpochAdvance (quarter : Fin 4) (s : State) : Host.Outcome State Fault Refusal :=
  .next (s.whenUp (State.advanceEpoch quarter))

/-- RECLAMATION: over the slice when its free share lies below `stack_low`, or in one stack alone (R222). -/
def execReclamation (slice : Fin 8) (stack : Option (Fin 8)) (s : State) : Host.Outcome State Fault Refusal :=
  .next (s.whenUp (fun s => match stack with
    | none => (if s.lowSpace slice then s.startReclaim slice none else s.reclaimOn).placeFills
    | some k => (if (s.cfg slice).stackList.contains k then s.startReclaim slice (some (k : Nat)) else s).placeFills))

/-- A demotion's writes are all complete (R223 step 4): what the entry owes is applied first (R71), a replicated page's grants are
revoked first (R240). -/
def State.demotionDone (slice : Nat) (n : PageName) (s : State) : State :=
  let s := s.refresh slice n
  match s.entry slice n with
  | none => s
  | some e =>
    if e.frameState = .demoting ∧ (s.cmdsOf e.flashDrive slice n).isEmpty then
      if s.shared slice n then s.beginMove slice n .demoted
      else
      let f := s.format slice
      let s := s.storeImage slice e.flashDrive e.flashGranule (frameGranules f) (s.frameImage f e.stackFrame)
      let s := (s.takeStack 4 (nodeAddr e.stackFrame.1 (granuleOffset e.stackFrame.2))).readFrame f e.stackFrame
      ((s.onEntry slice n (fun e => { e with frameState := .stackClean })).bumpGen slice n true).countTier e.quarter
        (fun t => { t with demotions := inc32 t.demotions })
    else s

/-- DEMOTION_COMPLETE. -/
def execDemotionComplete (slice : Fin 8) (name : PageName) (s : State) : Host.Outcome State Fault Refusal :=
  .next (s.whenUp (fun s => ((s.demotionDone slice name).reclaimOn).placeFills))

/-- A move that waited for a revocation is made, where its page still stands for it (R222 to R224, R240). -/
def State.doMove (m : PageMove) (s : State) : State :=
  let s := s.refresh m.slice m.name
  match s.entry m.slice m.name with
  | none => s
  | some e =>
    match m.kind with
    | .release => if e.frameState = .stackClean ∧ !s.frameHeld e ∧ e.pinCount = 0 then s.releaseFrame e else s
    | .demote => if s.demotable e then (s.demote e).getD s else s
    | .demoted => s.demotionDone m.slice m.name
    | .land => s.fillLand m.slice m.name
    | .write => if e.frameState.inStack then s.applyWaits m.slice m.name else s

/-- A page's grants are given up or have run out: the moves that waited are made (R204, R240). -/
def State.runMoves (slice : Nat) (n : PageName) (s : State) : State :=
  if s.shared slice n then s
  else
    let mine (m : PageMove) : Bool := m.slice = slice && m.name = n
    let ms := s.home.moves.filter mine
    let s := s.onHome (fun h => { h with moves := h.moves.filter (fun m => !mine m) })
    (ms.foldl (fun s m => s.doMove m) s).placeFills

/-- FILL_LAND. -/

def execFillLand (slice : Fin 8) (name : PageName) (s : State) : Host.Outcome State Fault Refusal :=
  .next (s.whenUp (State.fillLand slice name))

/-- A fill, or a recovery that has its copy, that has found no stack unit for 1 ms ends (R224); while a full retire list is why, the move
waits (R246). -/
def State.fillTimeout (slice : Nat) (n : PageName) (s : State) : State :=
  let s := s.placeFills
  match s.fillOf slice n with
  | none => s
  | some f =>
    if s.retireFull (s.quarterOf slice n.handle) then s
    else if f.frame.isNone ∧ (!f.recovering ∨ f.got.isSome) ∧ f.since + 1000000 ≤ s.now then
      ((s.endFill slice n).writeSlots slice n 2 .miss).tellFate slice n .noUnit
    else s

/-- FILL_ALLOC_TIMEOUT. -/
def execFillAllocTimeout (slice : Fin 8) (name : PageName) (s : State) : Host.Outcome State Fault Refusal :=
  .next (s.whenUp (State.fillTimeout slice name))

/-! ## NVMe commands (R230, R231) -/

/-- The running averages of a drive over its last 16 completions (R235): command latency and read rate. What one completion
contributes to each is not given, so both are free. -/
def Drive.measure (lat rate : Nat) (d : Drive) : Drive :=
  let l := (d.samples ++ [(lat, max 1 rate)]).drop (d.samples.length + 1 - 16)
  { d with
    samples := l
    lat := (l.map Prod.fst).sum / max 1 l.length
    rate := max 1 ((l.map Prod.snd).sum / max 1 l.length)
    consecTimeouts := 0 }

/-- A write of a demotion fails for good (R231): the demotion restarts once on another extent, then it is abandoned. -/
def State.writeFailed (d : Nat) (c : NvmeCmd) (s : State) : State :=
  match s.entry c.slice c.name with
  | none => s.dropCmds d c.slice c.name
  | some e =>
    let k := frameGranules (s.format c.slice)
    let s := s.dropCmds d c.slice c.name
    if e.frameState ≠ .demoting then s
    else
      let back (s : State) : State :=
        (s.retireShadow c.slice c.name).onEntry c.slice c.name (fun e => { e with frameState := .stack })
      let s := s.retireExtent e.quarter e.flashDrive e.flashGranule k
      if c.restarted then back s
      else match s.allocExtent c.slice c.name k with
        | none => back s
        | some (x, s) =>
          (s.onEntry c.slice c.name (fun e => { e with flashDrive := x.1, flashGranule := x.2 })).addCmds x.1
            { slice := c.slice, name := c.name, write := true, fua := true, cls := c.cls, restarted := true } x.2
            (frameBytes (s.format c.slice))

/-- A media error (R231): a fill turns to the replicas (R241), a demotion to another extent; a bitmap block stays changed. -/
def State.mediaError (d id : Nat) (c : NvmeCmd) (cause st : Nat) (s : State) : State :=
  let s := s.onDrive d (fun y => { y with mediaErrors := inc16 y.mediaErrors, cmds := y.cmds.erase id })
  match c.bitmapBlock with
  | some b => s.onDrive d (fun y => { y with dirty := y.dirty.set b s.now })
  | none =>
    if c.dealloc.isSome then s
    else if c.write then s.writeFailed d c
    else (s.dropCmds d c.slice c.name).startRecovery c.slice c.name cause (some (c.lba, st))

/-- An aborted command, or one with a transient status, is reissued once; a second failure is a media error (R231). -/
def State.reissue (d id : Nat) (c : NvmeCmd) (cause : Nat) (s : State) : State :=
  if c.reissued then s.mediaError d id c cause 0
  else (s.onDrive d (fun y => { y with
    cmds := y.cmds.modify id (fun z => { z with reissued := true, issued := false }) })).issueAll d

/-- A completion is taken (R231). -/
def State.nvmeDone (d id : Nat) (st : NvmeStatus) (s : State) : State :=
  match s.mem.drives.get? d with
  | none => s
  | some x =>
    match x.cmds.get? id with
    | none => s
    | some c =>
      if !c.issued then s
      else
        let s := (s.onDrive d (Drive.measure (s.pick Site.driveSample 0) (s.pick Site.driveSample 1))).bump
        match st with
        | .success => (s.onDrive d (fun y => { y with cmds := y.cmds.erase id })).issueAll d
        | .transient => s.reissue d id c 0
        | .aborted => s.reissue d id c 1
        | .media k => s.mediaError d id c 0 k
        | .fatal => s.failDrive d

/-- NVME_COMPLETION. -/
def execNvmeCompletion (drive : Fin 16) (cmd : Nat) (status : NvmeStatus) (s : State) : Host.Outcome State Fault Refusal :=
  .next (s.whenUp (State.nvmeDone drive cmd status))

/-- A command that is not complete in 30 ms is aborted; the third in a row marks the drive failed (R231). (DEDUCED, log entry 3.) -/
def State.nvmeTimeout (d id : Nat) (s : State) : State :=
  match s.mem.drives.get? d with
  | none => s
  | some x =>
    match x.cmds.get? id with
    | none => s
    | some c =>
      if c.issued ∧ c.issuedAt + 30000000 ≤ s.now then
        let s := s.onDrive d (fun y => { y with timeouts := inc16 y.timeouts, consecTimeouts := y.consecTimeouts + 1 })
        if 3 ≤ x.consecTimeouts + 1 then s.failDrive d else s.reissue d id c 1
      else s

/-- NVME_TIMEOUT. -/
def execNvmeTimeout (drive : Fin 16) (cmd : Nat) (s : State) : Host.Outcome State Fault Refusal :=
  .next (s.whenUp (State.nvmeTimeout drive cmd))

/-- DRIVE_FAILED (R231, R243). -/
def execDriveFailed (drive : Fin 16) (s : State) : Host.Outcome State Fault Refusal :=
  .next (s.whenUp (State.failDrive drive))

/-- A changed bitmap block is written with Force Unit Access, in class 4 (R228, R230). -/
def State.flushBitmap (d b : Nat) (s : State) : State :=
  match s.mem.drives.get? d with
  | none => s
  | some x =>
    if (x.dirty.get? b).isNone ∨ !x.usable then s
    else (s.onDrive d (fun y => { y with
      dirty := y.dirty.erase b
      cmds := y.cmds.set y.nextCmd { write := true, fua := true, cls := 4, bytes := 4096, bitmapBlock := some b, lba := b }
      nextCmd := y.nextCmd + 1 })).issueAll d

/-- BITMAP_FLUSH. -/
def execBitmapFlush (drive : Fin 16) (block : Nat) (s : State) : Host.Outcome State Fault Refusal :=
  .next (s.whenUp (State.flushBitmap drive block))

/-! ## Recovery and replicas (R204, R239 to R242) -/

/-- The wait for the replica asked last: its copy, or the end of its 200 µs (R241, R242). -/
def State.recoveryWait (slice : Nat) (n : PageName) (copy : Option PageImage) (s : State) : State :=
  match s.fillOf slice n with
  | none => s
  | some f =>
    if !f.recovering then s
    else match copy with
      | some img => s.recovered slice n f img
      | none =>
        if f.got.isSome then s
        else if (s.entry slice n).isNone then s.fillStale f
        else if f.askAt + 200000 ≤ s.now then s.askNext slice n else s

/-- REPLICA_RECOVERY_WAIT. -/
def execReplicaRecoveryWait (slice : Fin 8) (name : PageName) (copy : Option PageImage) (s : State) :
    Host.Outcome State Fault Refusal :=
  .next (s.whenUp (State.recoveryWait slice name copy))

/-- The copy of a page on a node. -/
def State.copyAt (s : State) (slice : Nat) (n : PageName) (node : Nat) : Option CopyS :=
  (s.replicaOf slice n).bind (fun r => r.copies.find? (fun c => c.node = node))

/-- Change the copy of a page on a node. -/
def State.onCopy (slice : Nat) (n : PageName) (node : Nat) (f : CopyS → CopyS) (s : State) : State :=
  s.onReplica slice n (fun r => { r with copies := r.copies.map (fun c => if c.node = node then f c else c) })

/-- A copy that is not acknowledged is sent again every 100 ms (R239). -/
def State.repeatCopy (slice : Nat) (n : PageName) (node : Nat) (s : State) : State :=
  match s.copyAt slice n node with
  | none => s
  | some c =>
    if !c.acked ∧ c.lastSent + 100000000 ≤ s.now ∧ !s.nodeFenced then (s.refresh slice n).sendCopy slice n node else s

/-- REPLICA_COPY_REPEAT. -/
def execReplicaCopyRepeat (slice : Fin 8) (name : PageName) (node : Nat) (s : State) : Host.Outcome State Fault Refusal :=
  .next (s.whenUp (State.repeatCopy slice name node))

/-- Grant a copy its version for 2 ms (R204): where the node has acknowledged the version, and no change of the page waits for its grants
to end. The copy stands once the node acknowledges the grant (R239). (DEDUCED, log entry 67.) -/
def State.grantCopy (slice : Nat) (n : PageName) (node : Nat) (s : State) : State :=
  match s.copyAt slice n node, s.entry slice n with
  | some c, some e =>
    if c.acked ∧ !c.revoking ∧ !s.nodeFenced ∧ !s.home.moves.any (fun m => m.slice = slice && m.name = n) then
      (s.onCopy slice n node (fun c => { c with
        granted := some (e.frameGen, s.now + 2000000)
        stands := c.stands && c.granted.any (fun g => g.1 = e.frameGen) })).onXpt
        (fun x => { x with peerOut := x.peerOut ++ [{ queue := 1, body := .peerGrant node slice n e.frameGen }] })
    else s
  | _, _ => s

/-- GRANT_RENEW: the home renews a grant while the version stands. -/
def execGrantRenew (slice : Fin 8) (name : PageName) (node : Nat) (s : State) : Host.Outcome State Fault Refusal :=
  .next (s.whenUp (State.grantCopy slice name node))

/-- A page's grants have ended or are granted anew: what waited for it goes on (R204, R240, R246). -/
def State.grantsMoved (slice : Nat) (n : PageName) (s : State) : State :=
  let s := (s.runMoves slice n).readmitHeld
  match s.fillOf slice n with
  | some f => if f.recovering ∧ f.got.isNone ∧ (f.asked.isEmpty ∨ f.askAt + 200000 ≤ s.now) then s.askNext slice n else s
  | none => s

/-- A grant lapses (R204). -/
def State.lapse (slice : Nat) (n : PageName) (node : Nat) (s : State) : State :=
  let s := s.onCopy slice n node (fun c => match c.granted with
    | some g => if g.2 ≤ s.now then { c with granted := none, revoking := false, stands := false } else c
    | none => c)
  let s := s.grantsMoved slice n
  s.onHome (fun h => { h with held := h.held.filter (fun g =>
    !(g.slice = slice && g.name = n && g.home = node && g.until_ ≤ s.now)) })

/-- GRANT_EXPIRE. -/
def execGrantExpire (slice : Fin 8) (name : PageName) (node : Nat) (s : State) : Host.Outcome State Fault Refusal :=
  .next (s.whenUp (State.lapse slice name node))

/-- A stream-table entry that has been idle for 1 s is freed (R232). -/
def State.expireStream (q slice handle group : Nat) (s : State) : State :=
  s.onHome (fun h => { h with streams := h.streams.filter (fun x =>
    !(x.slice = slice && x.handle = handle && x.group = group && s.quarterOf slice handle = q && x.updated + 1000000000 ≤ s.now)) })

/-- STREAM_ENTRY_EXPIRE. -/
def execStreamEntryExpire (quarter : Fin 4) (slice : Fin 8) (handle group : Nat) (s : State) : Host.Outcome State Fault Refusal :=
  .next (s.whenUp (State.expireStream quarter slice handle group))

/-! ## Region fences (R71, R358) -/

/-- The condition of a row of R358 that the node's own state shows: faulty rows within the hour, withdrawn lines, or no route from
router 6; the failures of rows 0 and 1 are what the command reports. (DEDUCED, log entry 3.) -/
def State.fenceDue (s : State) (n : Nat) : Nat → Bool
  | 2 => decide (64 < (s.ras.rowsFaulty.filter (fun x => x.1 = n && s.now < x.2.2 + 3600000000000)).length)
  | 3 => decide (512 < (s.ras.sramWithdrawn.filter (fun l => l.1 = n)).length)
  | 4 => decide (n ≠ 6) && (s.nextHop 6 n).isNone
  | _ => true

/-- REGION_FENCE: cause 0 names the island (0 fabric, 1 controller, 2 PHY); the fabric island, or an unreachable router
(cause 4), takes the router with it (R43). -/
def execRegionFence (region : Fin 8) (cause : Fin 5) (island : Fin 3) (s : State) : Host.Outcome State Fault Refusal :=
  .next (s.whenUp (fun s => if s.fenceDue region cause then
      (s.settle.fenceRegion region cause ((cause = 0 && island = 0) || cause = 4)).fenceNear region
    else s))

/-- The rows of R70 and R243 for the entries of a quarter, whose waiters fill again (R246), then the directory (R464). -/
def State.fenceSweep (q : Nat) (s : State) : State :=
  (((s.home.entries.filter (fun e => e.quarter = q)).map (fun e => (e.slice, e.name))).foldl (fun s x =>
    let s := s.refresh x.1 x.2
    match s.entry x.1 x.2 with
    | none => s
    | some e => if (e.frameState = .flash || e.frameState = .dropped) && s.awaited x.1 x.2 && (s.fillOf x.1 x.2).isNone then
        s.awaitPage x.1 x.2 1 else s) s).sweepLocus

/-- FENCE_SWEEP. -/
def execFenceSweep (quarter : Fin 4) (s : State) : Host.Outcome State Fault Refusal :=
  .next (s.whenUp (State.fenceSweep quarter))

end Sys2Proof.Machine
end

