-- ==== Sys2Proof/Machine/Maps.lean ====
section
/-! DEFINITION. Routing maps and the transfer of names between nodes (R196 to R202, R462), and the loss and return of
home-directory units (R205, R359). -/

namespace Sys2Proof.Machine

/-! ## What moves (R201) -/

/-- Buckets whose entry names this node in the previous map and another in the current one (R201), with the same key. -/
def movingBuckets (p m : RouteMap) (self : Nat) : List Nat :=
  let keys := (p.buckets.map Prod.fst ++ m.buckets.map Prod.fst).eraseDups
  let cand := if p.base.1 = self ∧ m.base.1 ≠ self then List.range 65536 else sortBy (fun a b => decide (a < b)) keys
  cand.filter (fun b => (mapEntry p b).1 = self && (mapEntry m b).1 ≠ self)

/-- Buckets that this node awaits under a new map with the same key (R201): with the node they come from. -/
def arrivingBuckets (p m : RouteMap) (self : Nat) : List (Nat × Nat) :=
  let keys := (p.buckets.map Prod.fst ++ m.buckets.map Prod.fst).eraseDups
  let cand := if p.base.1 ≠ self ∧ m.base.1 = self then List.range 65536 else sortBy (fun a b => decide (a < b)) keys
  (cand.filter (fun b => (mapEntry m b).1 = self && (mapEntry p b).1 ≠ self)).map (fun b => (b, (mapEntry p b).1))

/-- The node IDs that a map names in any bucket entry. -/
def mapNodes (m : RouteMap) : List Nat :=
  let named := (m.buckets.filter (fun x => x.1 < 65536)).map (fun x => x.2.1)
  (if (m.buckets.filter (fun x => x.1 < 65536)).length < 65536 then m.base.1 :: named else named).eraseDups

/-! ## The state of a bucket (R202) -/

/-- The page of an entry as a transfer carries it, from the tier that holds it; none where no copy of a published page can be read.
Frames, Hull records and shadows in fenced stacks are not read (R71); a page that a restart has torn goes as torn (R438). -/
def State.pageOf (s : State) (e : Entry) : Option PageImage :=
  let shadow := if e.shadowValid && !s.stackFenced e.shadowFrame.1 then some (s.frameImage (shadowFormat (s.format e.slice)) e.shadowFrame)
    else none
  (s.pageData e).map (fun d =>
    { slice := e.slice, name := e.name, pageState := e.stateNow.num, fill := e.fill, frameGen := e.frameGen,
      keyScale := e.keyScale, valueScale := e.valueScale, hull := s.hullImage e, data := d, shadow := shadow })

/-- The prefix-tree nodes of a chain whose root key has a property. -/
def State.nodesUnder (s : State) (slice : Nat) (p : Nat → Bool) : List PfxNode :=
  (s.locus.nodes.vals).filter (fun n => n.slice = slice && (match s.rootOf (n.depth + 1) n with
    | some r => p r.key
    | none => false))

/-- The state of the names of a slice that two tests pick: handles, and root keys (R202); sequences of a lost quarter are left
out (R359). -/
def State.packNames (s : State) (slice target bucket : Nat) (seq root : Nat → Bool) : BucketState :=
  let ok (h : Nat) : Bool := seq h && !s.quarterBusy (s.quarterOf slice h)
  { slice := target, bucket := bucket, fromNode := s.nodeId,
    seqs := s.home.seqs.filter (fun r => r.slice = slice && ok r.handle),
    pages := (s.home.entries.filter (fun e => e.slice = slice && e.copyOf.isNone && ok e.name.handle)).filterMap s.pageOf,
    nodes := s.nodesUnder slice root }

/-- Slices that this node serves under a map. -/
def slicesOf (m : RouteMap) (self : Nat) : List Nat :=
  (List.range 8).filter (fun i => m.base = (self, i) || m.buckets.any (fun x => x.2 = (self, i)))

/-- Forget the names that two tests pick (R202 step 5): their leases are over, their frames are retired, their accumulators
discarded. -/
def State.forgetNames (slice : Nat) (seq root : Nat → Bool) (s : State) : State :=
  let ns := (s.home.entries.filter (fun e => e.slice = slice && seq e.name.handle)).map Entry.name
  let nodes := s.nodesUnder slice root
  let s := nodes.foldl (fun s n => (s.unlinkNode n).freeNode n) s
  let s := ns.foldl (fun s n => ((s.home.accs.filter (fun (a : Accumulator) => a.is slice n)).foldl
    (fun s a => s.dropAcc a.slice a.name) s).discardPage slice n) s
  s.onHome (fun h => { h with seqs := h.seqs.filter (fun r => !(r.slice = slice && seq r.handle)) })

/-- End the leases of moving sequences (R202 step 1). -/
def State.endMoving (p m : RouteMap) (s : State) : State :=
  s.endLeases (fun l => (mapHome p 0 l.params.handle).1 = s.nodeId && (mapHome m 0 l.params.handle).1 ≠ s.nodeId) .tear

/-- Send a PEER message to a node. -/
def State.tellPeer (b : TxBody) (s : State) : State := s.onXpt (fun x => { x with peerOut := x.peerOut ++ [{ queue := 1, body := b }] })

/-- The names held here: slice, domain and value. -/
def State.namesHeld (s : State) : List (Nat × Nat × Nat) :=
  (List.range 8).flatMap (fun i =>
    ((s.home.seqs.filter (fun r => r.slice = i)).map (fun r => (i, 0, r.handle))) ++
    ((s.home.entries.filter (fun e => e.slice = i && e.copyOf.isNone)).map (fun e => (i, 0, e.name.handle))) ++
    ((s.nodesUnder i (fun _ => true)).filterMap (fun n => (s.rootOf (n.depth + 1) n).map (fun r => (i, 1, r.key)))))

/-- Slices and buckets of the current map whose names are held here and belong to another node: those that the map moves, and those that
an older map's transfer never took away (R462). -/
def State.bucketsToSend (m : RouteMap) (s : State) : List (Nat × Nat) :=
  ((s.namesHeld.filter (fun x => (mapHome m x.2.1 x.2.2).1 ≠ s.nodeId)).map (fun x => (x.1, mapBucket m x.2.1 x.2.2))).eraseDups

/-- Transfers with the same key: one message per bucket (R202); a bucket that never came here is not sent on (R462). -/
def State.sendBuckets (p m : RouteMap) (s : State) : State :=
  ((((movingBuckets p m s.nodeId).filter (fun b => !s.home.notHeld.contains b)).map (fun b => ((mapEntry p b).2, b)) ++
      s.bucketsToSend m).eraseDups).foldl (fun s d =>
    let b := d.2
    let dst := mapEntry m b
    let st := s.packNames d.1 dst.2 b (fun h => mapBucket m 0 h = b) (fun k => mapBucket m 1 k = b)
    (s.tellPeer (.peerBucket dst.1 st)).onHome (fun h => { h with
      outgoing := h.outgoing ++ [{ node := dst.1, bucket := some b, generation := m.generation }] })) s

/-- Transfers with another key (R462): the names that move into each bucket of another node, then a marker to every node. -/
def State.sendNames (m : RouteMap) (s : State) : State :=
  let dest := s.bucketsToSend m
  let s := dest.foldl (fun s d =>
    let dst := mapEntry m d.2
    s.tellPeer (.peerBucket dst.1 (s.packNames d.1 dst.2 d.2 (fun h => mapBucket m 0 h = d.2) (fun k => mapBucket m 1 k = d.2)))) s
  ((mapNodes m).filter (· ≠ s.nodeId)).foldl (fun s n =>
    (s.tellPeer (.peerMarker n m.generation)).onHome (fun h => { h with
      outgoing := h.outgoing ++ [{ node := n, bucket := none, generation := m.generation }] })) s

/-- Every entry takes what it owes before the names are packed (R71, R438). -/
def State.refreshHeld (s : State) : State :=
  ((s.home.entries.map (fun e => (e.slice, e.name)))).foldl (fun s x => s.refresh x.1 x.2) s

/-- The previous map retires (R200): leases of moving names end, then their transfers start; a fenced node starts none (R363). -/
def State.retireMap (s : State) : State :=
  match s.home.prev, s.home.cur with
  | some p, some m =>
    if s.home.drainOpen ∨ s.home.inflightPrev ≠ 0 then s
    else
      let s := s.endMoving p m
      let s := s.clearMark.onHome (fun h => { h with prev := none, awaitMarkers := h.awaitMarkers.filter (· ≠ s.nodeId) })
      let s := s.refreshHeld
      let s := if s.nodeFenced then s else if p.routeKey = m.routeKey then s.sendBuckets p m else s.sendNames m
      s.onHome (fun h => { h with notHeld := [] })
  | _, _ => s

/-- MAP_RETIRE. -/
def execMapRetire (s : State) : Host.Outcome State Fault Refusal := .next (s.whenUp (fun s => s.settle.retireMap))

/-- DRAIN_WINDOW_CLOSE: the previous generation is no longer accepted (R200). -/
def execDrainWindowClose (s : State) : Host.Outcome State Fault Refusal :=
  .next (s.whenUp (fun s => if s.home.drainOpen && s.home.drainEnd ≤ s.now then
    s.onHome (fun h => { h with drainOpen := false }) else s))

/-- A new map becomes current (R198): buckets that arrive are awaited, or the markers of the previous map's nodes (R462); waits
that the new map ends are dropped with their partial state. -/
def State.installMap (m : RouteMap) (s : State) : State :=
  let self := s.nodeId
  let (aw, marks) : List (Nat × Nat × Nat) × List Nat := match s.home.cur with
    | none => ([], [])
    | some p =>
      if p.routeKey = m.routeKey then
        ((s.home.awaiting.filter (fun w => (mapEntry m w.1).1 = self)) ++
          ((arrivingBuckets p m self).filter (fun b => !s.home.awaiting.any (fun w => w.1 = b.1))).map
            (fun b => (b.1, b.2, m.generation)), s.home.awaitMarkers)
      else ((s.home.awaiting.filter (fun w => (mapEntry m w.1).1 = self)),
        if (mapNodes m).contains self then (s.home.awaitMarkers ++ mapNodes p).eraseDups else [])
  let s := s.onHome (fun h => { h with
    prev := h.cur
    cur := some m
    drainOpen := h.cur.isSome
    drainEnd := s.now + m.drainMs * 1000000
    inflightPrev := h.inflightCur
    inflightCur := 0
    awaiting := aw
    notHeld := ((h.awaiting.filter (fun w => (mapEntry m w.1).1 ≠ self)).map Prod.fst ++ h.notHeld).eraseDups
    awaitMarkers := marks
    arrived := h.arrived.filter (fun b => (mapEntry m b.bucket).1 = self) })
  (s.onReqs (fun t => t.map (fun q => (q.1, { q.2 with onPrev := true })))).logEvent 94 0x0406 0xff 0 m.generation 0 0

/-! ## Receiving names (R202, R462) -/

/-- Write one page of a transfer: under this node's own placement rules (R57), with its `frame_gen` and state unchanged; none
where its entry or a frame cannot be made. -/
def State.putPage (s : State) (slice : Nat) (p : PageImage) : Option State :=
  let made := match s.entry slice p.name with
    | some _ => some s
    | none => s.newEntry slice p.name
  match made with
  | none => none
  | some s =>
    let st := PageState.ofNum p.pageState
    let set (fs : FrameState) (fr : Nat × Nat) (s : State) : State := s.onEntry slice p.name (fun e => { e with
      frameState := fs, stackFrame := fr, pageState := st, fill := p.fill, frameGen := p.frameGen, keyScale := p.keyScale,
      valueScale := p.valueScale, lastUse := s.useStamp })
    let f := s.format slice
    if st.published? then
      match s.allocFrame slice p.name with
      | none => none
      | some (fr, s) =>
        let s := set .stack fr (s.writeImage f fr p.data)
        let s := match p.hull with
          | none => s
          | some h => match s.hullFrom slice f (s.stacksFirst slice fr.1) with
            | none => s
            | some (l, s) =>
              (s.busBytes (h.map (fun b => (hullAddr f l + b.1, b.2)))).onEntry slice p.name
                (fun e => { e with hullLoc := l, hullHeld := true, hullValid := true })
        match p.shadow with
        | none => some s
        | some d => match s.allocFrom slice 2 (frameGranules (shadowFormat f)) (s.stacksFirst slice fr.1) with
          | none => some s
          | some (q, s) => some ((s.writeImage (shadowFormat f) q d).onEntry slice p.name
              (fun e => { e with shadowValid := true, shadowFrame := q }))
    else some (set .allocated (0, 0) s)

/-- Write every page; none where one does not fit. -/
def State.putPages (slice : Nat) : List PageImage → State → Option State
  | [], s => some s
  | p :: t, s => match s.putPage slice p with
    | none => none
    | some s => State.putPages slice t s

/-- Write a node of a transfer in a slot of its own and index it (R202, R193). -/
def State.putTransferred (slice : Nat) (n : PfxNode) (s : State) : Option State :=
  (s.allocNode slice n.key).map (fun r =>
    let n := { n with addr := r.1, slice := slice, nextSibling := 0 }
    (r.2.putNode n).reindexNode n)

/-- Write every node; none where one finds no slot. -/
def State.putNodes (slice : Nat) : List PfxNode → State → Option State
  | [], s => some s
  | n :: t, s => (s.putTransferred slice n).bind (State.putNodes slice t)

/-- Write every sequence record (R206); none where both candidate buckets of one are full. -/
def State.putSeqs (slice : Nat) : List SeqRec → State → Option State
  | [], s => some s
  | q :: t, s =>
    let s := s.onHome (fun h => { h with seqs := h.seqs.filter (fun r => !(r.slice = slice && r.handle = q.handle)) })
    (s.seqBucket slice q.handle).bind (fun b =>
      State.putSeqs slice t (s.onHome (fun h => { h with seqs := h.seqs ++ [{ q with slice := slice, openLeases := 0, bucket := b }] })))

/-- Write the whole state of a bucket; none where it does not fit (R202: all or nothing). -/
def State.putBucket (b : BucketState) (s : State) : Option State :=
  (((State.putSeqs b.slice b.seqs s).bind (State.putPages b.slice b.pages)).bind
    (State.putNodes b.slice (sortBy (fun (x y : PfxNode) => decide (x.level < y.level)) b.nodes))).map State.clearMark

/-! ## Units and quarters (R205, R359) -/

/-- HOME_UNIT_LOSS. -/
def execHomeUnitLoss (unit : Fin 4) (s : State) : Host.Outcome State Fault Refusal :=
  .next (s.whenUp (fun s => s.settle.loseHomeUnit unit))

/-- A unit comes back (R359): its quarter is reloaded, its leases have ended and its open pages are torn (R205). -/
def State.returnUnit (q : Nat) (s : State) : State :=
  if !s.home.unitsLost.contains q || s.ras.quartersLost.contains q then s
  else
    let s := s.endLeases (fun l => s.quarterOf l.slice l.params.handle = q) .tear
    let open_ := s.home.entries.filter (fun e => e.quarter = q && (e.pageState = .writeOpen || e.pageState = .writeOpenNew))
    let s := open_.foldl (fun s e => s.tearPage e.slice e.name) s
    s.onHome (fun h => { h with unitsLost := h.unitsLost.filter (· ≠ q) })

/-- HOME_UNIT_RETURN. -/
def execHomeUnitReturn (unit : Fin 4) (s : State) : Host.Outcome State Fault Refusal :=
  .next (s.whenUp (fun s => s.settle.returnUnit unit))

/-- QUARTER_LOST. -/
def execQuarterLost (quarter : Fin 4) (s : State) : Host.Outcome State Fault Refusal :=
  .next (s.whenUp (fun s => s.settle.loseQuarter quarter))

end Sys2Proof.Machine
end

