-- ==== Sys2Proof/Machine/Keys.lean ====
section
/-! DEFINITION. Keys as KEY_CREATE and KEY_REMOVE make and end them (R258, R261, R414), manifests (R396, R398), and
certificates (R360 to R362). -/

namespace Sys2Proof.Machine

/-! ## Keys (R258, R261) -/

/-- Generations of a kind of key. -/
def State.gensOf (s : State) (kind : Nat) : Tbl GenState := if kind = 0 then s.xpt.regionGens else s.xpt.serviceGens

/-- Entries of a kind of key. -/
def State.keysOf (s : State) (kind : Nat) : Tbl KeyEnt := if kind = 0 then s.xpt.regionKeys else s.xpt.serviceKeys

/-- The generation that a registration of an index takes: a live index is registered again under the next one (R261). -/
def State.nextGen (s : State) (kind i : Nat) : GenState :=
  let g := (s.gensOf kind).getD i {}
  if ((s.keysOf kind).get? i).isSome then g.finish s.now else g

/-- The index that a registration takes: the one it names, or the lowest free one; none where R261 passes it over. -/
def State.keyIndexFor (s : State) (slice : Nat) (k : KeyParams) : Option Nat :=
  let ok (i : Nat) : Bool := (s.nextGen k.kind i).fresh s.now
  if k.index = 0xffffffff then
    (List.range 16384).find? (fun i => ((s.keysOf k.kind).get? i).isNone && ok i)
  else match (s.keysOf k.kind).get? k.index with
    | some e => if e.slice = slice && ok k.index then some k.index else none
    | none => if ok k.index then some k.index else none

/-- Store a key-table entry with its generation. -/
def State.putKey (kind i : Nat) (e : KeyEnt) (g : GenState) (s : State) : State :=
  s.clearMark.onXpt (fun x => if kind = 0 then { x with regionKeys := x.regionKeys.set i e, regionGens := x.regionGens.set i g }
    else { x with serviceKeys := x.serviceKeys.set i e, serviceGens := x.serviceGens.set i g })

/-- The place of a region key's memory. -/
def keyPlace (e : KeyEnt) : Nat × Nat := (addrStack e.base, offsetGranule (addrOffset e.base))

/-- The memory of a region key is given up: its unit is retired, in the list of its stack's mirror pair (R66, R414). (DEDUCED, log entry 71.) -/
def State.retireRegion (e : KeyEnt) (s : State) : State :=
  s.retireUnit ((keyPlace e).1 % 4) (keyPlace e) (cdiv e.length 65536)

/-- KEY_CREATE (R258, R414): the key and its base, or the code of the refusal. -/
def State.createKey (s : State) (slice : Nat) (k : KeyParams) : Except Code ((Nat × Nat) × State) :=
  if (s.slice slice).state = .absent then .error .formatError
  else if k.kind = 0 && !(s.cfg slice).stackList.contains k.stack then .error .formatError
  else match s.keyIndexFor slice k with
    | none => .error .busy
    | some i =>
      let g := s.nextGen k.kind i
      let key := mkKey k.kind i g.gen
      if k.kind = 0 then
        let n := cdiv k.lenOrLo 65536
        let put (base : Nat) (s : State) : Except Code ((Nat × Nat) × State) :=
          .ok ((key, base), s.putKey 0 i { slice := slice, group := k.group, rights := k.rights, base := base, length := k.lenOrLo } g)
        let old := s.xpt.regionKeys.get? i
        match (match old with
          | some e => if (keyPlace e).1 = k.stack ∧ cdiv e.length 65536 = n then some e.base else none
          | none => none) with
        | some base => put base s
        | none =>
          match s.allocIn slice k.stack 6 n with
          | none => .error .busy
          | some (p, s) =>
            let s := match old with
              | some e => s.retireRegion e
              | none => s
            put (nodeAddr p.1 (granuleOffset p.2)) s
      else .ok ((key, 0), s.putKey 1 i { slice := slice, group := k.group, rights := k.rights, lo := k.lenOrLo, hi := k.handleHi } g)

/-- KEY_REMOVE (R258, R261): the key no longer passes step 4, and a region's memory is given up. -/
def State.removeKey (s : State) (slice key : Nat) : Except Code State :=
  match s.keyEntry key with
  | none => .error .keyFault
  | some e =>
    if e.slice ≠ slice then .error .keyFault
    else
      let i := keyIndex key
      if keyKind key = 0 then
        .ok ((s.clearMark.retireRegion e).onXpt (fun x => { x with
          regionKeys := x.regionKeys.erase i
          regionGens := x.regionGens.update i {} (GenState.finish s.now) }))
      else .ok (s.clearMark.onXpt (fun x => { x with
        serviceKeys := x.serviceKeys.erase i
        serviceGens := x.serviceGens.update i {} (GenState.finish s.now) }))

/-! ## Manifests (R396, R398) -/

/-- The permitted fields of a manifest (R396). -/
def manifestOk (m : Manifest) : Bool :=
  m.magic = 0x5a3e4b4d && !m.reserved && 1 ≤ m.cfgKeys.length && m.cfgKeys.length ≤ 4 && m.mgrKeys.length ≤ 16 &&
  (if m.mgrKeys.isEmpty then m.threshold = 0 else 1 ≤ m.threshold && m.threshold ≤ m.mgrKeys.length)

/-- Serial of the manifest in force. -/
def State.manifestSerial (s : State) : Nat :=
  match s.sec.manifest with
  | some m => m.serial
  | none => 0

/-- The owner key signed the manifest, its hash is fused, and the security engine can tell (R396, R366). -/
def State.ownerSigned (s : State) (m : Manifest) : Bool := s.sec.ownerHash ≠ 0 && m.signedBy = s.sec.ownerHash && !s.aon.failed.contains 95

/-- A manifest arrives (R398); a refused one is logged. -/
def State.loadManifest (m : Manifest) (s : State) : Code × State :=
  if manifestOk m && s.ownerSigned m && s.manifestSerial < m.serial then (.ok, s.onSec (fun c => { c with manifest := some m }))
  else if (match s.sec.manifest with
    | some x => x.serial = m.serial && x.digest = m.digest
    | none => false) then (.ok, s)
  else (.rightsFault, s.logEvent 94 0x0405 0xff Code.rightsFault.num 0xff m.serial 0)

/-! ## Certificates (R360 to R362) -/

/-- Distinct signers of a certificate whose signatures verify under the provisioned keys. -/
def goodSigners (m : Manifest) (c : Cert) : List Nat :=
  ((c.sigs.filter (fun x => x.mgrIndex < m.mgrKeys.length && x.signedBy ≠ 0 && m.mgrKeys.getD x.mgrIndex 0 = x.signedBy)).map
    CertSig.mgrIndex).eraseDups

/-- A certificate verifies (R361); with the security engine lost none does (R366). (DEDUCED, log entry 30.) -/
def State.certVerifies (s : State) (c : Cert) : Bool :=
  !c.reserved && c.digestOk && 1 ≤ c.sigs.length && c.sigs.length ≤ 16 && !s.aon.failed.contains 95 &&
  (if c.anyNode then c.kind = 0 || c.kind = 7 else c.target = s.nodeId) &&
  (match s.sec.manifest with
   | some m => 1 ≤ m.threshold && m.threshold ≤ (goodSigners m c).length
   | none => false)

/-- The serial domain of a kind (R362): kinds 1 to 3, 4 and 5, 6, 7. -/
def certDomain (kind : Nat) : Nat := if kind ≤ 3 then 0 else if kind ≤ 5 then 1 else kind - 4

/-- What a certificate's serial says (R362). -/
inductive SerialIs where
  | newer | same | refused
deriving DecidableEq, Repr

/-- Judge a serial in its domain. -/
def State.serialIs (s : State) (c : Cert) : SerialIs :=
  let d := s.ras.serials.getD (certDomain c.kind) {}
  if d.last < c.serial then .newer else if d.last = c.serial ∧ d.digest = some c.digest then .same else .refused

/-- The state record of the boot flash and the control section are written at each change of a serial, a fence, the retire list
or a detection history (R434, R436); what they hold is always what the node holds. -/
def State.saveRecord (s : State) : State := s.clearMark

/-- A certificate is accepted: its serial is recorded and it is logged (R362, R424). -/
def State.acceptCert (c : Cert) (s : State) : State :=
  ((s.onRas (fun r => { r with serials := r.serials.set (certDomain c.kind) { last := c.serial, digest := some c.digest } })).logEvent
    94 0x0404 0xff 0 c.kind c.serial c.reason).saveRecord

end Sys2Proof.Machine
end

