-- ==== Sys2Proof/Machine/Manage.lean ====
section
/-! DEFINITION. HELLO (R254), STAT (R251, R289), MANAGE: maps (R196, R198), fences (R363 to R367) and administration (R260), and
the PEER messages of other nodes (R202, R204, R239, R240, R462). -/

namespace Sys2Proof.Machine

/-! ## HELLO (R254) -/

/-- Send DREQ on a queue pair. -/
def State.sendDreq (q : Nat) (s : State) : State :=
  (s.sendControl q 264 (.cmDreq q)).onCtx q (fun c => { c with closing := true })

/-- The checks of a HELLO; one whose `levels` lacks level 3 is refused, and the node disconnects. -/
def helloSpec (levels role : Nat) (_ : Ctx) : ExtSpec :=
  { op := 12, data := false, parses := levels < 256 && role ≤ 2 && bit levels 2, serving := false }

/-- HELLO. -/
def execHello (h : ExtHdr) (levels role : Nat) (s : State) : Host.Outcome State Fault Refusal :=
  .next (s.whenUp (fun s =>
    let fresh := match s.ctx h.pkt.qpn with
      | some c => c.level.isNone && c.onDie
      | none => false
    let t := s.settle.extended h (.hello h levels role) (helloSpec levels role) (fun _ s =>
      (s.onCtx h.pkt.qpn (fun c => { c with level := some 3, lastPeer := s.now })).respond h 12 0 .ok 0
        (.hello 4 3))
    if fresh && levels < 256 && !bit levels 2 then t.sendDreq h.pkt.qpn else t))

/-! ## STAT (R251, R289) -/

/-- The checks of a STAT. -/
def statSpec (variant : Nat) (mgr : Bool) (c : Ctx) : ExtSpec :=
  { op := 9, variant := variant, data := false, parses := true, rightOk := !mgr || c.cls = 1, serving := false }

/-- STAT_OWN_QP. -/
def execStatOwnQp (h : ExtHdr) (s : State) : Host.Outcome State Fault Refusal :=
  .next (s.whenUp (fun s => s.settle.extended h (.statOwnQp h) (statSpec 0 false) (fun c s =>
    s.respond h 9 0 .ok 0 (.bytes (beBytes 4 c.rx ++ beBytes 4 c.tx ++ beBytes 1 c.lastError ++ beBytes 3 0)))))

/-- The 32 bytes of R289. -/
def groupBytes (g : GroupS) : List Byte :=
  beBytes 8 g.rxBytes ++ beBytes 8 g.txBytes ++ beBytes 4 g.admitted ++ beBytes 4 g.retryLater ++
  beBytes 8 (twos 64 (g.tokens / 1280))

/-- STAT_GROUP. -/
def execStatGroup (h : ExtHdr) (s : State) : Host.Outcome State Fault Refusal :=
  .next (s.whenUp (fun s => s.settle.extended h (.statGroup h) (statSpec 1 false) (fun c s =>
    s.respond h 9 1 .ok 0 (.bytes (groupBytes ((s.group c.group).refill s.now))))))

/-- Register XPT_CTX (R271). -/
def State.regXptCtx (s : State) : Nat := s.onDieCount % 2 ^ 17 + s.xpt.ctxs.length % 2 ^ 23 * 2 ^ 32

/-- Register XPT_MISS. -/
def State.regXptMiss (s : State) : Nat := s.xpt.ctxMisses + s.xpt.missRnr * 2 ^ 32

/-- Register XPT_DUP. -/
def State.regXptDup (s : State) : Nat := s.xpt.duplicates + s.xpt.staleDups * 2 ^ 32

/-- Register XPT_FAULTS. -/
def State.regXptFaults (s : State) : Nat := s.xpt.keyFaults + s.xpt.boundsFaults * 2 ^ 22 + s.xpt.rightsFaults * 2 ^ 43

/-- Register XPT_QPERR. -/
def State.regXptQperr (s : State) : Nat := s.xpt.qpErrors + s.xpt.extAborted * 2 ^ 32

/-- STAT_NODE. -/
def execStatNode (h : ExtHdr) (s : State) : Host.Outcome State Fault Refusal :=
  .next (s.whenUp (fun s => s.settle.extended h (.statNode h) (statSpec 2 true) (fun _ s =>
    s.respond h 9 2 .ok 0 (.bytes ([s.regXptCtx, s.regXptMiss, s.regXptDup, s.regXptFaults, s.regXptQperr].flatMap (beBytes 8))))))

/-! ## MANAGE -/

/-- The checks that every MANAGE shares (R17, R251, R259): its kinds and fields at step 2, a manager-class queue pair and a
certificate that verifies, with a serial in order, at step 6. -/
def manageSpec (variant : Nat) (kind : Nat) (parses : Bool) (c : Cert) (ordered : Bool) (busy : State → Code) (s : State) (x : Ctx) :
    ExtSpec :=
  let good := s.certVerifies c && (!ordered || s.serialIs c ≠ .refused)
  { op := 10
    variant := variant
    data := false
    parses := parses && c.kind = kind
    rightOk := x.cls = 1 && good
    serving := false
    own := busy
    refused := fun code s => if code = .rightsFault && x.cls = 1 && !good then
      s.logEvent 94 0x0405 0xff Code.rightsFault.num c.kind c.serial 0 else s }

/-- A MANAGE command whose certificate is ordered by R362: one that repeats the last serial and digest changes nothing. (DEDUCED, log entry 30.) -/
def State.manage (h : ExtHdr) (cmd : Instr) (variant kind : Nat) (parses : Bool) (c : Cert) (busy : State → Code)
    (run : State → Code × RespBody × State) (s : State) : State :=
  let s := s.settle
  s.extended h cmd (manageSpec variant kind parses c true
      (fun s => if s.serialIs c = .same then .ok else busy s) s) (fun _ s =>
    if s.serialIs c = .same then s.respond h 10 variant .ok 0 .none
    else
      let r := run s
      match r.1 with
      | .ok => (r.2.2.acceptCert c).respond h 10 variant .ok 0 r.2.1
      | e => r.2.2.respond h 10 variant e 0 .none)

/-- Two generations are in order (R198). -/
def newerGen (g c : Nat) : Bool :=
  let d := (g + 2 ^ 32 - c) % 2 ^ 32
  decide (1 ≤ d) && decide (d < 2 ^ 31)

/-- Two maps hold the same fields and the same bucket table (R198). -/
def sameMap (a b : RouteMap) : Bool :=
  a.generation = b.generation && a.routeKey = b.routeKey && a.drainMs = b.drainMs &&
  (a.buckets ++ b.buckets).all (fun x => mapEntry a x.1 = mapEntry b x.1) &&
  (a.base = b.base || (List.range 65536).all (fun i => mapEntry a i = mapEntry b i))

/-- The answer to an install (R198). -/
def State.mapOwn (s : State) (m : RouteMap) : Code :=
  match s.home.cur with
  | none => .ok
  | some c =>
    if sameMap c m then .ok
    else if !newerGen m.generation c.generation then .redirect
    else if s.home.prev.isSome || !s.home.outgoing.isEmpty then .busy
    else .ok

/-- MAP_INSTALL. -/
def execMapInstall (h : ExtHdr) (c : Cert) (m : RouteMap) (s : State) : Host.Outcome State Fault Refusal :=
  .next (s.whenUp (fun s =>
    let s := s.settle
    s.extended h (.mapInstall h c m) (manageSpec 0 0 (mapOk m && c.serial = m.generation) c false (fun s => s.mapOwn m) s)
      (fun _ s => (if (match s.home.cur with
          | some x => sameMap x m
          | none => false) then s else
        ((s.installMap m).logEvent 94 0x0404 0xff 0 c.kind c.serial c.reason).clearMark).respond h 10 0 .ok 0 .none)))

/-- Set the fence state of the node; a change raises vector 65. -/
def State.setFence (f : Ras → Ras) (s : State) : State := ((s.onRas f).raise 1).saveRecord

/-- NODE_FENCE (R363). -/
def execNodeFence (h : ExtHdr) (c : Cert) (s : State) : Host.Outcome State Fault Refusal :=
  .next (s.whenUp (State.manage h (.nodeFence h c) 1 1 true c (fun _ => .ok) (fun s =>
    (.ok, .none, s.setFence (fun r => { r with fenced := true, reason := c.reason })))))

/-- NODE_UNFENCE (R367): a fence, an expulsion and a self-fence whose cause has cleared end, and every group ramps (R442). -/
def execNodeUnfence (h : ExtHdr) (c : Cert) (s : State) : Host.Outcome State Fault Refusal :=
  .next (s.whenUp (State.manage h (.nodeUnfence h c) 1 2 true c (fun _ => .ok) (fun s =>
    let s := s.setFence (fun r => { r with fenced := false, expelled := false, reason := c.reason })
    let s := if s.aon.selfCleared then s.onAon (fun a => { a with selfCause := 0, selfCleared := false }) else s
    (.ok, .none, s.rampAll))))

/-- NODE_EXPEL (R364). -/
def execNodeExpel (h : ExtHdr) (c : Cert) (s : State) : Host.Outcome State Fault Refusal :=
  .next (s.whenUp (State.manage h (.nodeExpel h c) 1 3 true c (fun _ => .ok) (fun s =>
    (.ok, .none, (s.setFence (fun r => { r with fenced := true, expelled := true, reason := c.reason })).flushWhere
      (fun x => x.cls ≠ 1)))))

/-- A requester ID lies in ranges. -/
def inRanges (r : List (Nat × Nat)) (rid : Nat) : Bool := r.any (fun x => x.1 ≤ rid && rid ≤ x.2)

/-- REQUESTER_FENCE (R365). -/
def execRequesterFence (h : ExtHdr) (c : Cert) (ranges : List (Nat × Nat)) (s : State) : Host.Outcome State Fault Refusal :=
  .next (s.whenUp (State.manage h (.requesterFence h c ranges) 1 4 (rangesOk ranges) c
    (fun s => if 4096 < (s.ras.reqFences ++ ranges).eraseDups.length then .busy else .ok) (fun s =>
      let s := (s.onRas (fun r => { r with reqFences := (r.reqFences ++ ranges).eraseDups })).saveRecord
      let s := s.flushWhere (fun x => inRanges ranges x.rid)
      (.ok, .none, s.endLeases (fun l => inRanges ranges l.holder) .tear))))

/-- REQUESTER_UNFENCE (R365): exactly the listed ranges go. -/
def execRequesterUnfence (h : ExtHdr) (c : Cert) (ranges : List (Nat × Nat)) (s : State) : Host.Outcome State Fault Refusal :=
  .next (s.whenUp (State.manage h (.requesterUnfence h c ranges) 1 5 (rangesOk ranges) c (fun _ => .ok) (fun s =>
    (.ok, .none, (s.onRas (fun r => { r with reqFences := r.reqFences.filter (fun x => !ranges.contains x) })).saveRecord))))

/-! ## Administration (R260) -/

/-- ADM_KEY_CREATE. -/
def execAdmKeyCreate (h : ExtHdr) (c : Cert) (slice : Nat) (k : KeyParams) (s : State) : Host.Outcome State Fault Refusal :=
  .next (s.whenUp (State.manage h (.admKeyCreate h c slice k) 3 7 (slice < 8 && keyParamsOk k) c (fun _ => .ok) (fun s =>
    match s.createKey slice k with
    | .ok (r, s) => (.ok, .key r.1 r.2, s)
    | .error e => (e, .none, s))))

/-- ADM_KEY_REMOVE. -/
def execAdmKeyRemove (h : ExtHdr) (c : Cert) (slice key : Nat) (s : State) : Host.Outcome State Fault Refusal :=
  .next (s.whenUp (State.manage h (.admKeyRemove h c slice key) 3 7 (slice < 8 && key < 2 ^ 32) c (fun _ => .ok) (fun s =>
    match s.removeKey slice key with
    | .ok s => (.ok, .none, s)
    | .error e => (e, .none, s))))

/-- The `g_queue` of every group that a slice admits lies in the slice's set on every port it lists (R298). -/
def queuesOk (iso : Tbl IsoEntry) (groups : Nat → GroupCfg) (i : Nat) (c : SliceCfg) : Bool :=
  iso.all (fun e => !bit e.2.slices i || (bitsSet c.ports 8).all (fun p => bit (c.wqSet.getD p 0) (groups e.2.group).gQueue))

/-- The rule of R298 for every slice, under an isolation table and a group table. -/
def State.queueRule (s : State) (iso : Tbl IsoEntry) (groups : Nat → GroupCfg) : Bool :=
  (List.range 8).all (fun i => (s.slice i).state = .absent || queuesOk iso groups i (s.cfg i))

/-- ISOLATION_SET; a change that would break R298 is refused. -/
def execIsolationSet (h : ExtHdr) (c : Cert) (slice index entryValid : Nat) (e : IsoEntry) (s : State) :
    Host.Outcome State Fault Refusal :=
  .next (s.whenUp (State.manage h (.isolationSet h c slice index entryValid e) 3 7
    (slice = 0xff && index < 16384 && entryValid ≤ 1 && isoOk e) c (fun _ => .ok) (fun s =>
      let iso := if entryValid = 1 then s.xpt.isolation.set index e else s.xpt.isolation.erase index
      if s.queueRule iso (fun g => (s.group g).cfg) then (.ok, .none, s.onXpt (fun x => { x with isolation := iso }))
      else (.formatError, .none, s))))

/-- Change a group's entry (R285): the old rate holds up to now, the tokens are cut to the new burst; a group that opens ramps
(R442). -/
def State.setGroup (g : Nat) (e : GroupCfg) (s : State) : State :=
  let opens := (s.group g).cfg.gRate = 0 ∧ e.gRate ≠ 0
  let s := (s.refillGroup g).onGroup g (fun x => { x with cfg := e, tokens := min x.tokens (burstCap e 16) })
  if opens then s.startRamp g else s

/-- GROUP_SET (R285, R313); a change that would break R298 is refused. -/
def execGroupSet (h : ExtHdr) (c : Cert) (slice group gClass : Nat) (e : GroupCfg) (s : State) : Host.Outcome State Fault Refusal :=
  .next (s.whenUp (State.manage h (.groupSet h c slice group gClass e) 3 7
    (slice = 0xff && group < 4096 && gClass < 16 && groupOk e) c (fun _ => .ok) (fun s =>
      if s.queueRule s.xpt.isolation (fun g => if g = group then e else (s.group g).cfg) then
        (.ok, .none, (s.setGroup group e).onSch (fun x => { x with classMap := x.classMap.set group gClass }))
      else (.formatError, .none, s))))

/-- A row of R256 for a port. -/
def State.isoRow (s : State) (port : Nat) (e : IsoEntry) : List Byte :=
  let p := (s.eth.ports.getD port {}).cfg
  beBytes 16 e.pfx ++ beBytes 1 e.prefixLen ++ beBytes 1 e.cls ++ beBytes 2 0 ++ beBytes 16 p.ipAddr ++ beBytes 2 s.nodeId ++
  beBytes 1 p.plane ++ beBytes 1 1

/-- ISOLATION_EXPORT. -/
def execIsolationExport (h : ExtHdr) (c : Cert) (slice port first count : Nat) (s : State) : Host.Outcome State Fault Refusal :=
  .next (s.whenUp (State.manage h (.isolationExport h c slice port first count) 3 7
    (slice = 0xff && port < 8 && first < 16384 && 1 ≤ count && count ≤ 1024) c (fun _ => .ok) (fun s =>
      let es := s.xpt.isolation.filter (fun e => first ≤ e.1 && e.1 < first + count)
      (.ok, .rows es.length (es.map (fun e => s.isoRow port e.2)), s))))

/-- ADM_MANIFEST_LOAD (R398). -/
def execAdmManifestLoad (h : ExtHdr) (c : Cert) (slice : Nat) (m : Manifest) (s : State) : Host.Outcome State Fault Refusal :=
  .next (s.whenUp (State.manage h (.admManifestLoad h c slice m) 3 7 (slice = 0xff) c (fun _ => .ok) (fun s =>
    let r := s.loadManifest m
    (r.1, .none, r.2))))

/-! ## PEER -/

/-- A slice serves PEER traffic (R304). -/
def State.peerSlice (s : State) (slice : Nat) : Code := if slice < 8 && s.serving slice then .ok else .busy

/-- The checks that every PEER message shares (R17, R259, R304): a node-class queue pair, and its target slice. -/
def peerSpec (variant : Nat) (own : State → Code) (c : Ctx) : ExtSpec :=
  { op := 11, variant := variant, parses := true, rightOk := c.cls = 2, serving := false, own := own }

/-- A PEER message arrives and is acknowledged with a code. -/
def State.peer (h : ExtHdr) (cmd : Instr) (variant : Nat) (own : State → Code) (run : Ctx → State → Code × State) (s : State) : State :=
  s.settle.extended h cmd (peerSpec variant own) (fun c s =>
    let s := s.onCtx h.pkt.qpn (fun x => { x with lastPeer := s.now })
    let r := run c s
    r.2.respond h 11 variant r.1 0 .none)

/-- The parts of a bucket that have arrived before, joined with the last one. -/
def State.joinBucket (s : State) (b : BucketState) : BucketState :=
  (s.home.arrived.filter (fun x => x.bucket = b.bucket && x.fromNode = b.fromNode && x.slice = b.slice)).foldr (fun x a =>
    { a with seqs := x.seqs ++ a.seqs, pages := x.pages ++ a.pages, nodes := x.nodes ++ a.nodes }) b

/-- A bucket's state arrives (R202): a part is kept; the whole is written, and the bucket is admitted, from whichever node held it
(R462). One that is not awaited is acknowledged where the current map gives it to this node and it is therefore here already, else refused
BUSY and kept by its sender: the map that moves it is not installed here yet. (DESIGN CHOICE, log entry 68.) -/
def State.takeBucket (b : BucketState) (s : State) : Code × State :=
  if !s.home.awaiting.any (fun w => w.1 = b.bucket) && !s.home.awaitMarkers.contains b.fromNode then
    (if s.home.cur.any (fun m => (mapEntry m b.bucket).1 = s.nodeId) then .ok else .busy, s)
  else if !b.complete then (.ok, s.onHome (fun h => { h with arrived := h.arrived ++ [b] }))
  else match s.putBucket (s.joinBucket b) with
    | none => (.busy, s)
    | some s => (.ok, s.onHome (fun h => { h with
        arrived := h.arrived.filter (fun x => !(x.bucket = b.bucket && x.fromNode = b.fromNode && x.slice = b.slice))
        awaiting := h.awaiting.filter (fun w => !(w.1 = b.bucket)) }))

/-- PEER_BUCKET_STATE. -/
def execPeerBucketState (h : ExtHdr) (b : BucketState) (s : State) : Host.Outcome State Fault Refusal :=
  .next (s.whenUp (State.peer h (.peerBucketState h b) 0 (fun s => s.peerSlice b.slice) (fun _ s => s.takeBucket b)))

/-- A generation is the current one. -/
def State.isCurrent (s : State) (g : Nat) : Bool :=
  match s.home.cur with
  | some m => m.generation = g
  | none => false

/-- PEER_COMPLETION_MARKER (R462): one of a map that is not installed here yet is refused BUSY, so that it is not lost. -/
def execPeerCompletionMarker (h : ExtHdr) (fromNode generation : Nat) (s : State) : Host.Outcome State Fault Refusal :=
  .next (s.whenUp (State.peer h (.peerCompletionMarker h fromNode generation) 0 (fun _ => .ok) (fun _ s =>
    if s.isCurrent generation then (.ok, s.onHome (fun x => { x with awaitMarkers := x.awaitMarkers.filter (· ≠ fromNode) }))
    else if s.home.cur.any (fun m => newerGen generation m.generation) then (.busy, s)
    else (.ok, s))))

/-- The slice that holds replicas for other nodes (R221, R239). -/
def State.hostSlice (s : State) : Option Nat :=
  (List.range 8).find? (fun i => (s.slice i).state ≠ .absent && (s.cfg i).tier.repHost = 1)

/-- The check of a replica copy (R239): its page format is that of the slice that holds replicas. -/
def State.copyOwn (s : State) (r : ReplicaCopy) : Code :=
  match s.hostSlice with
  | none => .formatError
  | some i => if s.format i ≠ r.format then .formatError else s.peerSlice i

/-- Store a replica as a PUBLISHED entry (R239). -/
def State.takeCopy (r : ReplicaCopy) (s : State) : Code × State :=
  match s.hostSlice with
  | none => (.formatError, s)
  | some i =>
    let s' := s.onHome (fun x => { x with held := x.held.filter (fun g => !(g.slice = r.slice && g.name = r.page.name)) })
    let s' := if (s'.entry i r.page.name).isSome then s'.discardPage i r.page.name else s'
    match s'.putPage i { r.page with pageState := 2 } with
    | none => (.busy, s)
    | some s => (.ok, s.onEntry i r.page.name (fun e => { e with copyOf := some (r.home, r.page.frameGen) }))

/-- PEER_REPLICA_COPY. -/
def execPeerReplicaCopy (h : ExtHdr) (r : ReplicaCopy) (s : State) : Host.Outcome State Fault Refusal :=
  .next (s.whenUp (State.peer h (.peerReplicaCopy h r) 1 (fun s => s.copyOwn r) (fun _ s => s.takeCopy r)))

/-- The replica entry of a page: its slice here, and the home's version that it stands for, whatever this node's own tier moves have made
of its `frame_gen` (R239). -/
def State.replicaHere (s : State) (n : PageName) : Option (Nat × Nat) :=
  s.hostSlice.bind (fun i => (s.entry i n).bind (fun e => e.copyOf.map (fun c => (i, c.2))))

/-- PEER_GRANT (R204): the replica stands for the version for 2 ms. (PRESUMED, log entry 21.) -/
def execPeerGrant (h : ExtHdr) (slice : Nat) (name : PageName) (frameGen : Nat) (s : State) : Host.Outcome State Fault Refusal :=
  .next (s.whenUp (State.peer h (.peerGrant h slice name frameGen) 2 (fun s => s.peerSlice (s.hostSlice.getD 8)) (fun c s =>
    match s.replicaHere name with
    | some (_, g) =>
      if g = frameGen then
        (.ok, s.onHome (fun x => { x with held := x.held.filter (fun g => !(g.slice = slice && g.name = name)) ++
          [{ slice := slice, name := name, home := c.peer, frameGen := frameGen, until_ := s.now + 2000000 }] }))
      else (.miss, s)
    | none => (.miss, s))))

/-- PEER_REVOKE (R204). -/
def execPeerRevoke (h : ExtHdr) (slice : Nat) (name : PageName) (s : State) : Host.Outcome State Fault Refusal :=
  .next (s.whenUp (State.peer h (.peerRevoke h slice name) 3 (fun s => s.peerSlice (s.hostSlice.getD 8)) (fun _ s =>
    (.ok, s.onHome (fun x => { x with held := x.held.filter (fun g => !(g.slice = slice && g.name = name)) })))))

/-- PEER_RELABEL (R240): a copy with the old version takes the new one; the home grants it again on the acknowledgement. -/
def execPeerRelabel (h : ExtHdr) (slice : Nat) (name : PageName) (oldGen newGen : Nat) (s : State) :
    Host.Outcome State Fault Refusal :=
  .next (s.whenUp (State.peer h (.peerRelabel h slice name oldGen newGen) 4 (fun s => s.peerSlice (s.hostSlice.getD 8)) (fun _ s =>
    match s.replicaHere name with
    | some (i, g) =>
      if g = oldGen then
        (.ok, (s.onEntry i name (fun e => { e with copyOf := e.copyOf.map (fun x => (x.1, newGen)) })).onHome (fun x =>
          { x with held := x.held.filter (fun g => !(g.slice = slice && g.name = name)) }))
      else (.miss, s)
    | none => (.miss, s))))

/-- PEER_DROP (R239). -/
def execPeerDrop (h : ExtHdr) (slice : Nat) (name : PageName) (s : State) : Host.Outcome State Fault Refusal :=
  .next (s.whenUp (State.peer h (.peerDrop h slice name) 5 (fun s => s.peerSlice (s.hostSlice.getD 8)) (fun _ s =>
    let s := s.onHome (fun x => { x with held := x.held.filter (fun g => !(g.slice = slice && g.name = name)) })
    match s.replicaHere name with
    | some (i, _) => (.ok, s.discardPage i name)
    | none => (.ok, s))))

/-- What a peer's acknowledgement ends (R202, R204, R239, R462). -/
def State.peerAcked (a : PeerAck) (s : State) : State :=
  match a with
  | .bucket node b =>
    if s.home.outgoing.any (fun o => o.node = node && o.bucket = some b) then
      let s := s.onHome (fun h => { h with outgoing := h.outgoing.filter (fun o => !(o.node = node && o.bucket = some b)) })
      match s.home.cur with
      | none => s
      | some m => (List.range 8).foldl (fun s i => s.forgetNames i (fun h => mapBucket m 0 h = b && (mapHome m 0 h).1 = node)
          (fun k => mapBucket m 1 k = b && (mapHome m 1 k).1 = node)) s
    else s
  | .marker node g =>
    if s.home.outgoing.any (fun o => o.node = node && o.bucket.isNone && o.generation = g) then
      let s := s.onHome (fun h => { h with outgoing := h.outgoing.filter (fun o =>
        !(o.node = node && o.bucket.isNone && o.generation = g)) })
      match s.home.cur with
      | none => s
      | some m => (List.range 8).foldl (fun s i => s.forgetNames i (fun h => (mapHome m 0 h).1 = node)
          (fun k => (mapHome m 1 k).1 = node)) s
    else s
  | .copy node slice n g =>
    match s.entry slice n with
    | some e => if e.frameGen = g then (s.onCopy slice n node (fun c => { c with acked := true })).grantCopy slice n node else s
    | none => s
  | .grant node slice n g =>
    (s.onCopy slice n node (fun c => if c.granted.any (fun x => x.1 = g) && !c.revoking then { c with stands := true } else c)).grantsMoved
      slice n
  | .revoke node slice n =>
    (s.onCopy slice n node (fun c => if c.revoking then { c with granted := none, revoking := false } else c)).grantsMoved slice n
  | .relabel node slice n g =>
    match s.entry slice n with
    | some e => if e.frameGen = g then
        (s.onCopy slice n node (fun c => { c with acked := true, relabelled := none })).grantCopy slice n node else s
    | none => s

/-- PEER_ACKNOWLEDGEMENT: a response of a peer to a PEER message of this node. -/
def execPeerAcknowledgement (k : Pkt) (a : PeerAck) (s : State) : Host.Outcome State Fault Refusal :=
  .next (s.whenUp (fun s =>
    let s := s.settle
    match s.receive k (.peerAcknowledgement k a) 1 with
    | .over s => s
    | .duplicate c s => s.sendControl k.qpn 4 (.ack k.psn c.msn)
    | .fresh c s =>
      let s := (s.acceptPsn k 1).onCtx k.qpn (fun x => { x with lastPeer := s.now })
      if c.cls = 2 then s.peerAcked a else s))

end Sys2Proof.Machine
end

