-- ==== Sys2Proof/Machine/Packets.lean ====
section
/-! DEFINITION. Standard operations: READ, WRITE and ATOMIC (R258, R259, R264 to R266), what the requester sends back (R252,
R267, R282), connection management (R255, R257, R267) and the transport's timers. -/

namespace Sys2Proof.Machine

/-! ## Checks of standard operations (R17, R259, R266) -/

/-- Steps 4 to 6 for a region key. -/
def State.regionCheck (s : State) (c : Ctx) (key va len right : Nat) : Code :=
  if keyKind key ≠ 0 then .keyFault
  else match s.keyEntry key with
    | none => .keyFault
    | some e => if !e.serves c then .keyFault else if e.length < va + len then .boundsFault
      else if !bit e.rights right then .rightsFault else .ok

/-- The lease of a lease key (R211, R258). -/
def State.leaseOfKey (s : State) (c : Ctx) (key : Nat) : Option Lease :=
  match s.home.leases.get? (keyIndex key) with
  | some l => if l.keyGen % 4096 = keyGen key ∧ l.slice = c.slice ∧ l.expiry < 2 ^ 80 then some l else none
  | none => none

/-- The position within its page of logical byte `x` (R47, R122). -/
def bytePos (f : PageFormat) (x : Nat) : Nat := logicalToStream f x / recordBytes f % PageFormatT f

/-- The pieces of a lease write: page index, offset in the page, and bytes (R212). -/
def leasePieces (F : Nat) : Nat → Nat → List Byte → List (Nat × Nat × List Byte)
  | 0, _, _ => []
  | k + 1, va, d =>
    if d.isEmpty then []
    else
      let room := F - va % F
      (va / F, va % F, d.take room) :: leasePieces F k (va + room) (d.drop room)

/-- Steps 4 to 6 for a lease key: the window of pages that the lease still holds; under append, no position below `fill`
(R212). -/
def State.leaseCheck (s : State) (c : Ctx) (key va len : Nat) : Code :=
  match s.leaseOfKey c key with
  | none => .keyFault
  | some l =>
    let f := s.format l.slice
    let F := frameBytes f
    if leasePages l.params * F < va + len then .boundsFault
    else if (List.range (cdiv (va + len) F - va / F)).any (fun i =>
      let j := va / F + i
      l.left.contains j || (match s.entry l.slice (leaseName l.params j) with
        | none => true
        | some e => e.appends && (List.range (min (va + len) ((j + 1) * F) - max va (j * F))).any (fun x =>
            decide (bytePos f ((max va (j * F) + x) % F) < e.fill)))) then .boundsFault
    else .ok

/-- A lease write meets an adopted position (R190). -/
def State.leaseAdopted (s : State) (c : Ctx) (key va len : Nat) : Bool :=
  match s.leaseOfKey c key with
  | none => false
  | some l =>
    let f := s.format l.slice
    let F := frameBytes f
    let t := PageFormatT f
    (List.range len).any (fun x =>
      let n := leaseName l.params ((va + x) / F)
      let p := n.block * t + bytePos f ((va + x) % F)
      s.locus.nodes.any (fun y => y.2.slice = l.slice && y.2.source = n.handle && n.layer ≤ y.2.layers &&
        n.group ≤ y.2.headGroups && 256 * y.2.depth ≤ p && p < 256 * (y.2.depth + 1)))

/-- Steps 4 to 6 for a WRITE (R259). -/
def State.writeKeyCheck (s : State) (c : Ctx) (key va len : Nat) : Code :=
  if keyKind key = 2 then s.leaseCheck c key va len else s.regionCheck c key va len 1

/-- Step 7 for a standard operation. -/
def State.stdOpen (s : State) (c : Ctx) : Bool := s.serving c.slice && !s.groupClosed c.group

/-- The stack of a region key is fenced (R266). -/
def State.regionFenced (s : State) (key : Nat) : Bool :=
  keyKind key = 0 && (match s.keyEntry key with
    | some e => s.stackFenced (addrStack e.base)
    | none => false)

/-- Some page of a lease write is POISONED. -/
def State.leasePoisoned (s : State) (c : Ctx) (key va len : Nat) : Bool :=
  match s.leaseOfKey c key with
  | none => false
  | some l =>
    let F := frameBytes (s.format l.slice)
    (List.range (cdiv (va + len) F - va / F)).any (fun i => match s.entry l.slice (leaseName l.params (va / F + i)) with
      | some e => e.appends && e.frameState = .poisoned
      | none => false)

/-- The code of a READ or an ATOMIC: the first row of R17 that applies. -/
def State.readCode (s : State) (c : Ctx) (key va len right : Nat) (parses : Bool) : Code :=
  if s.nodeFenced then .fenced
  else if !parses then .formatError
  else match s.regionCheck c key va len right with
    | .ok => if !s.stdOpen c then .retryLater else if s.regionFenced key then .pageLost else .ok
    | e => e

/-- The code of a WRITE message. -/
def State.writeCode (s : State) (c : Ctx) (key va len : Nat) (parses : Bool) : Code :=
  if s.nodeFenced then .fenced
  else if !parses then .formatError
  else match s.writeKeyCheck c key va len with
    | .ok =>
      if !s.stdOpen c then .retryLater
      else if keyKind key = 2 && s.leaseAdopted c key va len then .leaseConflict
      else if s.regionFenced key then .pageLost
      else if keyKind key = 2 && s.leasePoisoned c key va len then .poisoned
      else .ok
    | e => e

/-! ## READ (R264) -/

/-- Put packets of a queue pair at its pacer (R283). -/
def State.paced (q : Nat) (ps : List TxPkt) (s : State) : State := s.onCtx q (fun c => { c with pacer := c.pacer ++ ps })

/-- Advance the expected PSN and count a message, without an acknowledgement. -/
def State.advance (q packets messages : Nat) (s : State) : State :=
  s.onCtx q (fun c => { c with ePsn := (c.ePsn + packets) % 2 ^ 24, msn := (c.msn + messages) % 2 ^ 24 })

/-- The bytes of a region key's memory. -/
def State.regionBytes (s : State) (key va len : Nat) : List Byte :=
  match s.keyEntry key with
  | none => []
  | some e => (List.range len).map (fun i => s.memRead (e.base + va + i))

/-- The reads of a region key's memory over the stacks' buses (R133). -/
def State.readKey (key va len : Nat) (s : State) : State :=
  match s.keyEntry key with
  | none => s
  | some e => s.busReads ((List.range len).map (fun i => e.base + va + i))

/-- READ responses, one PSN each from the request's PSN, in the group's weighted queue. -/
def State.sendRead (k : Pkt) (c : Ctx) (data : List Byte) (s : State) : State :=
  s.paced k.qpn ((List.range (packetsOf c.pmtu data.length)).map (fun i =>
    let d := (data.drop (i * c.pmtu)).take c.pmtu
    { qpn := k.qpn, queue := s.respQueue c 13, len := s.lengthOn c.port c.addr (4 + d.length), charged := true,
      opcode := readOpcode (packetsOf c.pmtu data.length) i
      body := .readData ((k.psn + i) % 2 ^ 24) d }))

/-- A READ Request. -/
def State.read (k : Pkt) (rkey va len : Nat) (s : State) : State :=
  let parses : Bool := len < 2 ^ 31 && rkey < 2 ^ 32 && va < 2 ^ 64
  match s.receive k (.rdmaReadRequest k rkey va len) 1 with
  | .over s => s
  | .duplicate c s => if s.readCode c rkey va len 0 parses = .ok then (s.readKey rkey va len).sendRead k c (s.regionBytes rkey va len) else s
  | .fresh c s =>
    match s.readCode c rkey va len 0 parses with
    | .ok => (((s.countAdmitted c.group).advance k.qpn (packetsOf c.pmtu len) 1).readKey rkey va len).sendRead k c (s.regionBytes rkey va len)
    | e => s.stdRefuse k e

/-- RDMA_READ_REQUEST. -/
def execRdmaReadRequest (k : Pkt) (rkey va len : Nat) (s : State) : Host.Outcome State Fault Refusal :=
  .next (s.whenUp (fun s => s.settle.read k rkey va len))

/-! ## WRITE (R217, R264, R272) -/

/-- Write bytes under a key: into a region, or into the lease window (R212). -/
def State.applyWrite (c : Ctx) (key va : Nat) (d : List Byte) (s : State) : State :=
  if keyKind key = 2 then
    match s.leaseOfKey c key with
    | none => s
    | some l =>
      let f := s.format l.slice
      (leasePieces (frameBytes f) (d.length + 1) va d).foldl (fun s x =>
        let n := leaseName l.params x.1
        match s.entry l.slice n with
        | none => s
        | some e => if e.writeValid then s.busBytes (frameBytesAt f e.writeFrame x.2.1 x.2.2) else s.writePage l.slice n x.2.1 x.2.2) s
  else match s.keyEntry key with
    | none => s
    | some e => s.busBytes ((d.zipIdx).map (fun x => (e.base + va + x.2, x.1)))

/-- Whether a packet's place in its message and its length fit (R247, R250). -/
def writeShape (pmtu : Nat) (pos : WritePos) (busy : Option WriteMsg) (dmaLen : Nat) (d : List Byte) : Bool :=
  match pos, busy with
  | .first, none => d.length = pmtu && pmtu < dmaLen && dmaLen < 2 ^ 31
  | .only, none => d.length = dmaLen && dmaLen ≤ pmtu
  | .middle, some m => d.length = pmtu && pmtu < m.left
  | .last, some m => d.length = m.left && m.left ≤ pmtu
  | _, _ => false

/-- A WRITE packet that is the expected one. -/
def State.writeFresh (k : Pkt) (pos : WritePos) (rkey va dmaLen : Nat) (d : List Byte) (c : Ctx) (s : State) : State :=
  let shape := writeShape c.pmtu pos c.write dmaLen d
  let head : Bool := pos = .first || pos = .only
  let key := if head then rkey else (c.write.getD {}).key
  let at_ := if head then va else (c.write.getD {}).va
  let left := if head then dmaLen else (c.write.getD {}).left
  let code := if head then s.writeCode c key at_ dmaLen (shape && rkey < 2 ^ 32 && va < 2 ^ 64)
    else if !shape then .formatError else s.writeKeyCheck c key at_ d.length
  match code with
  | .ok =>
    let s := (if head then s.countAdmitted c.group else s).applyWrite c key at_ d
    if pos = .last ∨ pos = .only then
      ((s.onCtx k.qpn (fun x => { x with write := none })).acceptPsn k 1)
    else
      (s.advance k.qpn 1 0).onCtx k.qpn (fun x => { x with
        write := some { key := key, va := at_ + d.length, apply := true, left := left - d.length } })
  | e => (s.onCtx k.qpn (fun x => { x with write := none })).stdRefuse k e

/-- A WRITE packet that is a duplicate (R264): the key is checked again at the First or Only packet; it never errs. (DEDUCED, log entry 90.) -/
def State.writeDup (k : Pkt) (pos : WritePos) (rkey va dmaLen : Nat) (d : List Byte) (c : Ctx) (s : State) : State :=
  let head : Bool := pos = .first || pos = .only
  let ok := if head then !s.nodeFenced && s.writeKeyCheck c rkey va dmaLen = .ok && !s.regionFenced rkey &&
      !(keyKind rkey = 2 && s.leaseAdopted c rkey va dmaLen)
    else (c.dupWrite.getD {}).apply
  let key := if head then rkey else (c.dupWrite.getD {}).key
  let at_ := if head then va else (c.dupWrite.getD {}).va
  let s := if head && !ok then s.onXpt (fun x => { x with staleDups := inc32 x.staleDups }) else s
  let s := if ok then s.applyWrite c key at_ d else s
  let s := s.onCtx k.qpn (fun x => { x with dupWrite := if pos = .last ∨ pos = .only then none
                                                       else some { key := key, va := at_ + d.length, apply := ok, left := 0 } })
  s.sendControl k.qpn 4 (.ack k.psn c.msn)

/-- RDMA_WRITE: one packet of a WRITE message. -/
def execRdmaWrite (k : Pkt) (pos : WritePos) (rkey va dmaLen : Nat) (data : List Byte) (s : State) :
    Host.Outcome State Fault Refusal :=
  .next (s.whenUp (fun s =>
    let s := s.settle
    match s.receive k (.rdmaWrite k pos rkey va dmaLen data) 1 with
    | .over s => s
    | .duplicate c s => s.writeDup k pos rkey va dmaLen data c
    | .fresh c s => s.writeFresh k pos rkey va dmaLen data c))

/-! ## ATOMIC (R264, R265) -/

/-- Send an Atomic Acknowledge. -/
def State.sendAtomic (k : Pkt) (c : Ctx) (orig : Nat) (s : State) : State :=
  s.paced k.qpn [{ qpn := k.qpn, queue := s.respQueue c 13, len := s.lengthOn c.port c.addr 12, charged := true,
                   opcode := 0x12, body := .atomicAck k.psn orig }]

/-- An atomic on 8 bytes: `f` gives the new value from the old one. -/
def State.atomic (k : Pkt) (cmd : Instr) (rkey va : Nat) (parses : Bool) (f : Nat → Nat) (s : State) : State :=
  match s.receive k cmd 1 with
  | .over s => s
  | .duplicate c s =>
    match c.atomics.find? (fun a => a.1 = k.psn) with
    | some a => s.sendAtomic k c a.2
    | none => ((s.onCtx k.qpn (fun y => { y with lastError := Code.formatError.num })).qpError k.qpn).sendControl k.qpn 4
        (.nak k.psn 0x61 c.msn)
  | .fresh c s =>
    match s.readCode c rkey va 8 2 (parses && va % 8 = 0 && rkey < 2 ^ 32 && va < 2 ^ 64) with
    | .ok =>
      let s := s.countAdmitted c.group
      let old := fromLe (s.regionBytes rkey va 8)
      let s := s.readKey rkey va 8
      let s := s.applyWrite c rkey va (leBytes 8 (f old))
      let s := s.onCtx k.qpn (fun x => { x with atomics := (x.atomics ++ [(k.psn, old)]).drop (x.atomics.length + 1 - 8) })
      (s.advance k.qpn 1 1).sendAtomic k c old
    | e => s.stdRefuse k e

/-- COMPARE_AND_SWAP. -/
def execCompareAndSwap (k : Pkt) (rkey va compare swap : Nat) (s : State) : Host.Outcome State Fault Refusal :=
  .next (s.whenUp (fun s => s.settle.atomic k (.compareAndSwap k rkey va compare swap) rkey va (compare < 2 ^ 64 && swap < 2 ^ 64)
    (fun old => if old = compare then swap else old)))

/-- FETCH_AND_ADD. -/
def execFetchAndAdd (k : Pkt) (rkey va add : Nat) (s : State) : Host.Outcome State Fault Refusal :=
  .next (s.whenUp (fun s => s.settle.atomic k (.fetchAndAdd k rkey va add) rkey va (add < 2 ^ 64)
    (fun old => (old + add) % 2 ^ 64)))

/-! ## Other opcodes (R247, R249) -/

/-- INVALID_OPCODE: packets of the UC, RD and XRC services, and datagrams, are dropped and counted; every other opcode that is
not served is answered NAK Invalid Request. (PRESUMED, log entry 19.) -/
def execInvalidOpcode (k : Pkt) (opcode : Nat) (s : State) : Host.Outcome State Fault Refusal :=
  .next (s.whenUp (fun s =>
    if servedOpcode opcode then s
    else if (32 ≤ opcode ∧ opcode < 0x80) ∨ (0xa0 ≤ opcode ∧ opcode < 0xc0) then s.dropPkt
    else match s.receive k (.invalidOpcode k opcode) 1 with
      | .over s => s
      | .duplicate _ s => s
      | .fresh _ s => s.stdRefuse k .formatError))

/-! ## What the requester answers (R252, R267, R282) -/

/-- A PSN is at or below another (R263). -/
def psnLe (a b : Nat) : Bool := decide ((b + 2 ^ 24 - a) % 2 ^ 24 < 2 ^ 23)

/-- The packets of a response that a cumulative acknowledgement leaves. -/
def Resp.after (psn : Nat) (r : Resp) : Resp :=
  let n := (((List.range r.pkts.length).filter (fun i => psnLe ((r.psn + i) % 2 ^ 24) psn)).length)
  { psn := (r.psn + n) % 2 ^ 24, pkts := r.pkts.drop n }

/-- The requester acknowledges the node's PSNs up to one (R252): held packets are let go; progress resets the counts. -/
def State.ackUpTo (q psn : Nat) (s : State) : State :=
  s.onCtx q (fun c =>
    let held := (c.held.map (Resp.after psn)).filter (fun r => !r.pkts.isEmpty)
    if held = c.held then c
    else { c with
      held := held
      retries := 0
      rnrRetries := 0
      rnrTimer := none
      timer := if held.isEmpty then none else some (s.now + max s.xpt.ackTimeout 1 * 1000) })

/-- Send every held packet again, from the oldest (R252). -/
def State.resend (q : Nat) (s : State) : State :=
  s.onCtx q (fun c =>
    let old := c.held.flatMap Resp.pkts
    { c with
      pacer := old ++ c.pacer.filter (fun p => !old.contains p)
      timer := if old.isEmpty then none else some (s.now + max s.xpt.ackTimeout 1 * 1000) })

/-- A packet of the requester's answers: identity and congestion are checked as for every packet. -/
def State.answer (k : Pkt) (cmd : Instr) (f : Ctx → State → State) (s : State) : State :=
  match s.arrive k cmd false with
  | .error s => s
  | .ok _ =>
    let s := (s.onCtx k.qpn (fun c => { c with rx := (c.rx + 1) % 2 ^ 32, lastUsed := s.now })).noteCe k 1
    match s.ctx k.qpn with
    | none => s
    | some c => f c s

/-- ACKNOWLEDGE_RECEIVED. -/
def execAcknowledgeReceived (k : Pkt) (s : State) : Host.Outcome State Fault Refusal :=
  .next (s.whenUp (fun s => s.answer k (.acknowledgeReceived k) (fun _ s => s.ackUpTo k.qpn k.psn)))

/-- The wait that an RNR NAK's timer code asks for, in ns, as InfiniBand tables it. (PRESUMED, log entry 19.) -/
def rnrNs (code : Nat) : Nat :=
  10000 * [65536, 1, 2, 3, 4, 6, 8, 12, 16, 24, 32, 48, 64, 96, 128, 192, 256, 384, 512, 768, 1024, 1536, 2048, 3072, 4096, 6144,
    8192, 12288, 16384, 24576, 32768, 49152].getD (code % 32) 1

/-- RNR_NAK_RECEIVED: retransmission is put off, at most 7 times without progress (R252). -/
def execRnrNakReceived (k : Pkt) (timer : Nat) (s : State) : Host.Outcome State Fault Refusal :=
  .next (s.whenUp (fun s => s.answer k (.rnrNakReceived k timer) (fun _ s =>
    let s := s.ackUpTo k.qpn ((k.psn + 2 ^ 24 - 1) % 2 ^ 24)
    match s.ctx k.qpn with
    | none => s
    | some c =>
      if c.held.isEmpty then s
      else if 7 ≤ c.rnrRetries then s.qpError k.qpn
      else s.onCtx k.qpn (fun c => { c with rnrRetries := c.rnrRetries + 1, timer := none, rnrTimer := some (s.now + rnrNs timer) }))))

/-- RNR_TIMER_EXPIRY: the wait is over and the held packets are sent again. -/
def execRnrTimerExpiry (qpn : Nat) (s : State) : Host.Outcome State Fault Refusal :=
  .next (s.whenUp (fun s => match s.ctx qpn with
    | none => s
    | some c => match c.rnrTimer with
      | none => s
      | some t => if t ≤ s.now then (s.onCtx qpn (fun c => { c with rnrTimer := none })).resend qpn else s))

/-- The next try after a timeout or a sequence NAK: the eighth moves the queue pair to ERROR (R252). -/
def State.retry (q : Nat) (s : State) : State :=
  match s.ctx q with
  | none => s
  | some c => if 7 ≤ c.retries then s.qpError q else (s.onCtx q (fun c => { c with retries := c.retries + 1 })).resend q

/-- FATAL_NAK_RECEIVED: a sequence NAK (0x60) only asks for retransmission; every other NAK is fatal (R252, R267). -/
def execFatalNakReceived (k : Pkt) (syndrome : Nat) (s : State) : Host.Outcome State Fault Refusal :=
  .next (s.whenUp (fun s => s.answer k (.fatalNakReceived k syndrome) (fun _ s =>
    if syndrome = 0x60 then
      let s := s.ackUpTo k.qpn ((k.psn + 2 ^ 24 - 1) % 2 ^ 24)
      match s.ctx k.qpn with
      | none => s
      | some c => if c.held.isEmpty then s else s.retry k.qpn
    else s.qpError k.qpn)))

/-- RESPONSE_RETRANSMIT: `ack_timeout` is over (R252). -/
def execResponseRetransmit (qpn : Nat) (s : State) : Host.Outcome State Fault Refusal :=
  .next (s.whenUp (fun s => match s.ctx qpn with
    | none => s
    | some c => match c.timer with
      | none => s
      | some t => if t ≤ s.now ∧ c.state = .rts then s.retry qpn else s))

/-- `on_cnp` of R282; division by 16 rounds toward zero. -/
def Echo.onCnp (rMin tick f : Nat) (e : Echo) : Echo :=
  let d : Int := (f : Int) - (e.alpha : Int)
  let a := ((e.alpha : Int) + d.tdiv 16).toNat
  { e with alpha := a, rt := e.rc, rc := max rMin (e.rc * (131072 - a) / 131072), n := 0, tUpdate := tick }

/-- `r_min` in force: 0 acts as 1 (R296). -/
def State.rMin (s : State) : Nat := max s.eth.rMin 1

/-- CNP_RECEIVED: without a valid echo it is taken as f = 1.0 (R281, R282). -/
def execCnpReceived (k : Pkt) (echoValid : Bool) (echo : Nat) (s : State) : Host.Outcome State Fault Refusal :=
  .next (s.whenUp (fun s =>
    match s.arrive k (.cnpReceived k echoValid echo) true with
    | .error s => s
    | .ok _ =>
      let s := s.onEth (fun e => { e with cnpsReceived := inc32 e.cnpsReceived })
      s.onCtx k.qpn (fun c => { c with
        rx := (c.rx + 1) % 2 ^ 32
        lastUsed := s.now
        echo := if c.state = .rts then c.echo.onCnp s.rMin s.tick (if echoValid then echo % 256 * 256 else 65536) else c.echo })))

/-- PAUSE_FRAME_RX (R274). -/
def execPauseFrameRx (port : Fin 8) (s : State) : Host.Outcome State Fault Refusal :=
  .next (s.whenUp (fun s => if (s.eth.ports.getD port {}).linkUp then
    s.onEth (fun e => { e with pauseDrops := inc32 e.pauseDrops }) else s))

/-! ## Connection management (R255, R257, R267) -/

/-- Send a connection-management datagram on a port: strict queue 0. -/
def State.sendCm (port addr : Nat) (b : TxBody) (s : State) : State :=
  s.enqueue port { qpn := 1, queue := 0, len := s.lengthOn port addr 264, charged := false, opcode := controlOpcode b, body := b }

/-- An address lies under a prefix (R255). -/
def IsoEntryHit (e : IsoEntry) (addr : Nat) : Bool := addr / 2 ^ (128 - e.prefixLen) = e.pfx / 2 ^ (128 - e.prefixLen)

/-- The longest-prefix match of the isolation table. (DESIGN CHOICE, log entry 93.) -/
def State.isoMatch (s : State) (addr : Nat) : Option IsoEntry :=
  (s.xpt.isolation.filter (fun e => IsoEntryHit e.2 addr)).foldl (fun (a : Option IsoEntry) e => match a with
    | some x => if x.prefixLen < e.2.prefixLen then some e.2 else a
    | none => some e.2) none

/-- The requester ID of an address (R255). -/
def ridOf (e : IsoEntry) (addr : Nat) : Nat := e.ridBase + addr % 2 ^ (128 - e.prefixLen)

/-- Path MTU of its code. -/
def pmtuBytes (k : Nat) : Nat := 1024 * 2 ^ min k 2

/-- A free queue-pair number: which one is not given (R248). -/
def State.newQpn (s : State) : Option Nat :=
  let start := 2 + s.pick Site.qpn 0 % 4194302
  match Tbl.firstFree s.xpt.ctxs (s.xpt.ctxs.length + 1) start with
  | some q => if q < 4194304 then some q else Tbl.firstFree s.xpt.ctxs (s.xpt.ctxs.length + 1) 2
  | none => none

/-- Contexts of a slice; of the node level for 0xFF. -/
def State.ctxCount (s : State) (slice : Nat) : Nat := (s.xpt.ctxs.filter (fun c => c.2.slice = slice)).length

/-- The isolation entry and the reason to accept a REQ (R255, R257, R301, R304, R364, R365); none where it is rejected. -/
def State.cmAccept (s : State) (r : CmReq) : Option IsoEntry :=
  match s.isoMatch r.src with
  | none => none
  | some e =>
    let rid := ridOf e r.src
    let node : Bool := r.sliceField = 0xff
    if 262143 < rid || inRanges s.ras.reqFences rid || (s.ras.expelled && e.cls ≠ 1) then none
    else if node then (if e.cls = 2 && s.ctxCount 0xff < 16384 then some e else none)
    else if r.sliceField < 8 && bit e.slices r.sliceField && (s.slice r.sliceField).state ≠ .absent &&
      bit (s.cfg r.sliceField).ports r.port && s.ctxCount r.sliceField < (s.cfg r.sliceField).ctxLimit then some e
    else none

/-- The connection queue of an engine now (R440): its length and when one was last taken from it; one is taken every microsecond. -/
def cmQueueAt (now : Nat) (q : Nat × Nat) : Nat × Nat :=
  if q.1 ≤ (now - q.2) / 1000 then (0, now) else (q.1 - (now - q.2) / 1000, q.2 + (now - q.2) / 1000 * 1000)

/-- The transport engine of a port (R273). -/
def State.engineOf (s : State) (p : Nat) : Nat := if (s.enginePorts 1).contains p then 1 else 0

/-- CM_REQ: the requester's identity is fixed and a context allocated, or the request is rejected; it is dropped without a response
where its engine's queue of 4,096 is full (R440). -/
def State.cmReq (r : CmReq) (s : State) : State :=
  let e := s.engineOf r.port
  let q := cmQueueAt s.now (s.xpt.cmQueues.getD e (0, 0))
  if !(s.eth.ports.getD r.port {}).linkUp || 4096 ≤ q.1 then s
  else
    let s := s.onXpt (fun x => { x with cmQueues := x.cmQueues.set e (q.1 + 1, q.2) })
    match s.cmAccept r, s.newQpn, s.roomOnDie r.sliceField with
    | some e, some q, some s =>
      let pm := min (min r.pmtu 2) (min s.xpt.pmtuMax 2)
      let c : Ctx :=
        { remoteQpn := r.remoteQpn, state := .rtr, cls := e.cls, slice := r.sliceField, nodeLevel := r.sliceField = 0xff,
          peer := e.peerNode, rid := ridOf e r.src, group := e.group, addr := r.src, udpPort := r.udpPort, pmtu := pmtuBytes pm,
          port := r.port, plane := (s.eth.ports.getD r.port {}).cfg.plane, ePsn := r.startPsn % 2 ^ 24,
          sendPsn := s.pick Site.psn 0 % 2 ^ 24, resources := min 8 r.resources, lastUsed := s.now, lastPeer := s.now }
      let s := (s.onXpt (fun x => { x with ctxs := x.ctxs.set q c })).bump
      s.sendCm r.port r.src (.cmRep r.remoteQpn q c.sendPsn pm c.resources)
    | _, _, _ => s.sendCm r.port r.src (.cmRej r.remoteQpn)

/-- CM_REQ. -/
def execCmReq (r : CmReq) (s : State) : Host.Outcome State Fault Refusal := .next (s.whenUp (State.cmReq r))

/-- CM_RTU. -/
def execCmRtu (qpn : Nat) (s : State) : Host.Outcome State Fault Refusal := .next (s.whenUp (State.toRts qpn))

/-- CM_DREQ: DREP is sent and the queue pair is flushed. -/
def execCmDreq (qpn : Nat) (s : State) : Host.Outcome State Fault Refusal :=
  .next (s.whenUp (fun s => match s.ctx qpn with
    | none => s
    | some c => if c.state = .error then s else (s.sendCm c.port c.addr (.cmDrep qpn)).qpError qpn))

/-- The live node-class queue pair to a peer. -/
def State.peerQp (s : State) (peer : Nat) : Option Nat :=
  (s.xpt.ctxs.find? (fun c => c.2.nodeLevel && c.2.cls = 2 && c.2.peer = peer && c.2.state ≠ .error)).map Prod.fst

/-- CM_REP: the first reply to the node's own REQ opens the queue pair; RTU and HELLO with `role` 1 follow (R257). -/
def State.cmRep (r : CmRep) (s : State) : State :=
  if (s.peerQp r.peer).isSome || (s.xpt.peers.get? r.peer).isNone || 16384 ≤ s.ctxCount 0xff ||
    !(s.eth.ports.getD r.port {}).linkUp then s
  else match s.newQpn, s.roomOnDie 0xff, s.isoMatch r.remoteAddr with
    | some q, some s, some e =>
      let pm := min (min r.pmtu 2) (min s.xpt.pmtuMax 2)
      let c : Ctx :=
        { remoteQpn := r.remoteQpn, state := .rtr, cls := 2, slice := 0xff, nodeLevel := true, peer := r.peer,
          rid := ridOf e r.remoteAddr, group := e.group, addr := r.remoteAddr, udpPort := udpSource r.remoteQpn, resources := min 8 r.resources,
          pmtu := pmtuBytes pm, port := r.port, plane := (s.eth.ports.getD r.port {}).cfg.plane, ePsn := r.startPsn % 2 ^ 24,
          sendPsn := s.pick Site.psn 1 % 2 ^ 24, lastUsed := s.now, lastPeer := s.now }
      let s := (s.onXpt (fun x => { x with ctxs := x.ctxs.set q c, peers := x.peers.erase r.peer })).bump
      ((s.sendCm r.port r.remoteAddr (.cmRtu q)).toRts q).sendMessage q 0 2 [] (.helloReq 1)
    | _, _, _ => s

/-- CM_REP. -/
def execCmRep (r : CmRep) (s : State) : Host.Outcome State Fault Refusal := .next (s.whenUp (State.cmRep r))

/-- CM_DREP: a disconnection that the node began is complete. -/
def execCmDrep (qpn : Nat) (s : State) : Host.Outcome State Fault Refusal :=
  .next (s.whenUp (fun s => match s.ctx qpn with
    | none => s
    | some c => if c.closing then s.qpError qpn else s))

/-- Ports in ascending plane order, and the addresses of a peer in table order (R257). -/
def State.peerPaths (s : State) (peer : Nat) : List (Nat × Nat) :=
  let ps := sortBy (fun (a b : Nat) => decide ((s.eth.ports.getD a {}).cfg.plane < (s.eth.ports.getD b {}).cfg.plane))
    ((List.range 8).filter (fun p => (s.eth.ports.getD p {}).mode ≠ 0))
  let as_ := (s.xpt.isolation.filter (fun e => e.2.cls = 2 && e.2.peerNode = peer && e.2.prefixLen = 128)).map (fun e => e.2.pfx)
  ps.flatMap (fun p => as_.map (fun a => (p, a)))

/-- The next REQ to a peer, or, when every one went unanswered, the back-off (R257). -/
def State.connectPeer (peer : Nat) (s : State) : State :=
  let t := s.xpt.peers.getD peer {}
  if (s.peerQp peer).isSome || s.now < t.due then s
  else match (s.peerPaths peer)[t.next]? with
    | some x =>
      (s.onXpt (fun y => { y with peers := y.peers.set peer { t with next := t.next + 1, due := s.now + 1000000 } })).sendCm x.1 x.2
        (.cmReq peer 8)
    | none =>
      let n : PeerTry := { due := s.now + t.backoff, backoff := min (2 * t.backoff) 1000000000, next := 0 }
      ((s.onXpt (fun y => { y with peers := y.peers.set peer n })).logEvent 94
        (s.pick Site.peerEvent 0 % 65536) 0xff 0 peer 0 0).bump

/-- PEER_CONNECT_RETRY. -/
def execPeerConnectRetry (peer : Nat) (s : State) : Host.Outcome State Fault Refusal := .next (s.whenUp (State.connectPeer peer))

/-- PEER_IDLE_CLOSE: a node-class queue pair that has carried no PEER message for 60 s is closed (R257). -/
def execPeerIdleClose (qpn : Nat) (s : State) : Host.Outcome State Fault Refusal :=
  .next (s.whenUp (fun s => match s.ctx qpn with
    | none => s
    | some c => if c.nodeLevel ∧ c.cls = 2 ∧ !c.closing ∧ c.state = .rts ∧ c.lastPeer + 60000000000 ≤ s.now then s.sendDreq qpn else s))

/-! ## Timers of contexts -/

/-- The packet that a command came in. -/
def cmdPkt : Instr → Option Pkt
  | .attendFwd h _ => some h.pkt
  | .attendBwdOpen h _ => some h.pkt
  | .attendBwdAccumulate h _ => some h.pkt
  | .attendBwdCollect h _ => some h.pkt
  | .attendBwdDiscard h _ => some h.pkt
  | .lookup h _ => some h.pkt
  | .publishPage h _ => some h.pkt
  | .publishPrefix h _ => some h.pkt
  | .prefixRelease h _ => some h.pkt
  | .leaseAcquire h _ => some h.pkt
  | .leaseRenew h _ => some h.pkt
  | .leaseRelease h _ => some h.pkt
  | .handoverTransfer h _ => some h.pkt
  | .handoverDiscard h _ => some h.pkt
  | .handoverQuery h _ => some h.pkt
  | .pin h _ => some h.pkt
  | .unpin h _ => some h.pkt
  | .statOwnQp h => some h.pkt
  | .statGroup h => some h.pkt
  | .statNode h => some h.pkt
  | .mapInstall h _ _ => some h.pkt
  | .nodeFence h _ => some h.pkt
  | .nodeUnfence h _ => some h.pkt
  | .nodeExpel h _ => some h.pkt
  | .requesterFence h _ _ => some h.pkt
  | .requesterUnfence h _ _ => some h.pkt
  | .powerShift h _ _ _ => some h.pkt
  | .admKeyCreate h _ _ _ => some h.pkt
  | .admKeyRemove h _ _ _ => some h.pkt
  | .isolationSet h _ _ _ _ _ => some h.pkt
  | .groupSet h _ _ _ _ _ => some h.pkt
  | .isolationExport h _ _ _ _ _ => some h.pkt
  | .admManifestLoad h _ _ _ => some h.pkt
  | .peerBucketState h _ => some h.pkt
  | .peerCompletionMarker h _ _ => some h.pkt
  | .peerReplicaCopy h _ => some h.pkt
  | .peerGrant h _ _ _ => some h.pkt
  | .peerRevoke h _ _ => some h.pkt
  | .peerRelabel h _ _ _ _ => some h.pkt
  | .peerDrop h _ _ => some h.pkt
  | .hello h _ _ => some h.pkt
  | .peerAcknowledgement k _ => some k
  | .rdmaReadRequest k _ _ _ => some k
  | .rdmaWrite k _ _ _ _ _ => some k
  | .compareAndSwap k _ _ _ _ => some k
  | .fetchAndAdd k _ _ _ => some k
  | .invalidOpcode k _ => some k
  | .acknowledgeReceived k => some k
  | .rnrNakReceived k _ => some k
  | .fatalNakReceived k _ => some k
  | .cnpReceived k _ _ => some k
  | _ => none

/-- MISS_BUFFER_TIMEOUT: a packet that has waited 3 µs is answered with an RNR NAK, and the queue pair's later packets are
discarded until its context loads; notification packets go on waiting (R270, R297). -/
def execMissBufferTimeout (qpn : Nat) (s : State) : Host.Outcome State Fault Refusal :=
  .next (s.whenUp (fun s =>
    let cnp (m : Missed) : Bool := match m.cmd with
      | .cnpReceived _ _ _ => true
      | _ => false
    let mine := s.xpt.missBuf.filter (fun m => m.qpn = qpn && !cnp m)
    match mine.find? (fun m => m.at_ + 3000 ≤ s.now) with
    | none => s
    | some m =>
      let s := s.onXpt (fun x => { x with missRnr := inc32 x.missRnr, missBuf := x.missBuf.filter (fun m => m.qpn ≠ qpn || cnp m) })
      let psn := ((cmdPkt m.cmd).getD {}).psn
      (s.onCtx qpn (fun c => { c with discarding := true })).sendControl qpn 4 (.rnrNak psn s.xpt.rnrCode)))

/-- FLUSH_COMPLETE: the context is freed (R267). -/
def execFlushComplete (qpn : Nat) (s : State) : Host.Outcome State Fault Refusal :=
  .next (s.whenUp (fun s => match s.ctx qpn with
    | none => s
    | some c => if c.state = .error then
        s.onXpt (fun x => { x with ctxs := x.ctxs.erase qpn, missBuf := x.missBuf.filter (fun m => m.qpn ≠ qpn) }) else s))

end Sys2Proof.Machine
end

