-- ==== Sys2Proof/Machine/Ports.lean ====
section
/-! DEFINITION. Ports: pacers and the Echo-rate timer (R282, R283), the egress scheduler (R290 to R294), its sampling (R295), the
load index (R287), link loss and `link_hold` (R276), and the spare lanes (R277 to R279). -/

namespace Sys2Proof.Machine

/-- A port. -/
def State.port (s : State) (p : Nat) : PortS := s.eth.ports.getD p {}

/-! ## The Echo-rate timer (R282, R297) -/

/-- `t_inc` in force, in ns: 0 acts as 1 (R296). -/
def Eth.tIncNs (e : Eth) : Nat := max e.tInc 1 * 1000

/-- Ticks since the last update. -/
def Echo.age (tick : Nat) (e : Echo) : Nat := (tick + 2 ^ 32 - e.tUpdate) % 2 ^ 32

/-- `on_timer` of R282. -/
def Echo.onTimer (rLine rAi fast tick : Nat) (e : Echo) : Echo :=
  let n := min (e.n + 1) 127
  let rt := if fast < n then min rLine (e.rt + rAi) else e.rt
  { e with alpha := e.alpha - e.alpha / 16, n := n, rt := rt, rc := (e.rc + rt) / 2, tUpdate := tick }

/-- One timer update of a queue pair. -/
def State.echoUpdate (q : Nat) (s : State) : State :=
  s.onCtx q (fun c => { c with echo := c.echo.onTimer (s.lineRate c.port) s.eth.rAi s.eth.fastSteps s.tick })

/-- ECHO_TIMER: the first tick at or after `t_update` + `t_inc`; a context that is not on die misses its updates until it
loads. (DEDUCED, log entry 3.) -/
def execEchoTimer (qpn : Nat) (s : State) : Host.Outcome State Fault Refusal :=
  .next (s.whenUp (fun s => match s.ctx qpn with
    | none => s
    | some c => if c.state = .rts ∧ c.onDie ∧ s.eth.tIncNs ≤ c.echo.age s.tick * 1024 then s.echoUpdate qpn else s))

/-- Updates that a spilled context missed, at most 127 (R297). -/
def State.missedUpdates (s : State) (c : Ctx) : Nat :=
  if c.state = .rts then min 127 (c.echo.age s.tick / max 1 (cdiv s.eth.tIncNs 1024)) else 0

/-! ## The pacer (R257, R283) -/

/-- Bytes of a page image in a PEER message: its name and word fields, its frame and its Hull record. -/
def pageBytes (f : PageFormat) (p : PageImage) : Nat :=
  48 + frameBytes f + (if p.hull.isSome then hullBytes f else 0) + (if p.shadow.isSome then frameBytes (shadowFormat f) else 0)

/-- Parameter bytes of a PEER message: the target slice with 3 reserved bytes, and the items (R251, R257). (PRESUMED, log entry 21.) -/
def State.peerBytes (s : State) (b : TxBody) : Nat :=
  match b with
  | .peerBucket _ st => 4 + 64 * st.seqs.length + (st.pages.map (fun p => pageBytes (s.format p.slice) p)).sum +
      (st.nodes.map (fun n => (nodeBytes n).length)).sum
  | .peerMarker _ _ => 8
  | .peerCopy _ slice _ _ _ _ _ h _ => 32 + frameBytes (s.format slice) + (if h.isEmpty then 0 else hullBytes (s.format slice))
  | .peerRelabel _ _ _ _ _ => 24
  | _ => 22

/-- The peer that a PEER message is for. -/
def peerOf (b : TxBody) : Option Nat :=
  match b with
  | .peerBucket n _ => some n
  | .peerMarker n _ => some n
  | .peerCopy n _ _ _ _ _ _ _ _ => some n
  | .peerGrant n _ _ _ => some n
  | .peerRevoke n _ _ => some n
  | .peerRelabel n _ _ _ _ => some n
  | .peerDrop n _ _ => some n
  | .peerAsk n _ _ _ => some n
  | _ => none

/-- The waiting PEER messages of a node-class queue pair's peer become messages of the queue pair. -/
def State.takePeerOut (q : Nat) (s : State) : State :=
  match s.ctx q with
  | none => s
  | some c =>
    if c.nodeLevel && c.cls = 2 && c.state = .rts && !c.closing && !s.nodeFenced then
      let mine (t : TxPkt) : Bool := peerOf t.body = some c.peer
      let out := s.xpt.peerOut.filter mine
      let s := s.onXpt (fun x => { x with peerOut := x.peerOut.filter (fun t => !mine t) })
      out.foldl (fun s t => (s.sendMessage q 1 (s.peerBytes t.body) [] t.body).onCtx q (fun c => { c with lastPeer := s.now })) s
    else s

/-- The pacer releases the next packet no earlier than 8L / `rc` after the one before; a port that holds its queues holds its
pacers. -/
def State.pacerRelease (q : Nat) (s : State) : State :=
  let s := s.takePeerOut q
  match s.ctx q with
  | none => s
  | some c =>
    match c.pacer with
    | [] => s
    | t :: rest =>
      if !c.onDie then s.onCtx q (fun c => { c with loading := true })
      else if (s.port c.port).linkUp && c.state = .rts && c.pacerAt + cdiv (800 * t.len) (max 1 c.echo.rc) ≤ s.now then
        (s.onCtx q (fun c => { c with pacer := rest, pacerAt := s.now })).enqueue c.port t
      else s

/-- PACER_RELEASE. -/
def execPacerRelease (qpn : Nat) (s : State) : Host.Outcome State Fault Refusal := .next (s.whenUp (State.pacerRelease qpn))

/-! ## Egress (R290 to R294) -/

/-- Bring the buckets of the strict queues up to now: `cap_k` percent of R_line, 64 KiB deep (R291). -/
def PortS.refill (now : Nat) (p : PortS) : PortS :=
  { p with
    caps := p.caps.zipIdx.map (fun x =>
      min 52428800 (x.1 + (((now - p.capAt) * lineGbit p.mode * p.cfg.caps.getD x.2 0 : Nat) : Int)))
    capAt := now }

/-- The first strict queue that has a packet and tokens. -/
def PortS.strict (p : PortS) : Option Nat :=
  (List.range 3).find? (fun k => !(p.queues.getD k {}).pkts.isEmpty && 0 ≤ p.caps.getD k 0)

/-- Finish tag of a queue's head packet, from the port's virtual time up, modulo 2^48. -/
def PortS.headTag (p : PortS) (q : Nat) : Option Nat :=
  ((p.queues.getD q {}).pkts.head?).map (fun x => (x.2 + 2 ^ 48 - p.vtime) % 2 ^ 48)

/-- The weighted queue whose head has the smallest finish tag; the lower number on a tie (R293). -/
def PortS.weighted (p : PortS) : Option Nat :=
  (List.range 16).foldl (fun (a : Option Nat) i =>
    match p.headTag (i + 3), a.bind p.headTag with
    | none, _ => a
    | some _, none => some (i + 3)
    | some t, some u => if t < u then some (i + 3) else a) none

/-- ECN field of a packet: Not-ECT on a notification, ECT(0) otherwise (R280). -/
def ecnOf (b : TxBody) : Nat :=
  match b with
  | .cnp _ => 0
  | _ => 2

/-- Send the head packet of a queue. -/
def State.sendHead (p q : Nat) (s : State) : State :=
  match ((s.port p).queues.getD q {}).pkts with
  | [] => s
  | (t, f) :: rest =>
    let s := s.onPort p (fun x => { x with
      queues := x.queues.modify q (fun y => { y with pkts := rest })
      caps := if q < 3 then x.caps.modify q (fun c => c - ((800 * t.len : Nat) : Int)) else x.caps
      vtime := if q < 3 then x.vtime else f })
    let s := match s.ctx t.qpn with
      | none => s
      | some c =>
        let s := s.onCtx t.qpn (fun c => { c with tx := (c.tx + 1) % 2 ^ 32 })
        if t.charged then s.chargeTx c.group t.len else s
    s.emit (.frame p ((s.port p).cfg.dscp.getD q 0) (ecnOf t.body) t)

/-- EGRESS_TRANSMIT: strict queues in order, each within its cap, then the weighted group. -/
def execEgressTransmit (port : Fin 8) (s : State) : Host.Outcome State Fault Refusal :=
  .next (s.whenUp (fun s =>
    if (s.port port).linkUp then
      let s := s.onPort port (PortS.refill s.now)
      match (s.port port).strict, (s.port port).weighted with
      | some k, _ => s.sendHead port k
      | none, some k => s.sendHead port k
      | none, none => s
    else s))

/-! ## Sampling (R295) -/

/-- Bin of a queue depth. -/
def depthBin (bytes : Nat) : Nat := if bytes = 0 then 0 else if bytes < 1024 then 1 else min 15 (Nat.log2 bytes - 8)

/-- Bin of a head packet's delay. -/
def delayBin (ns : Nat) : Nat := if ns < 100 then 1 else min 15 (Nat.log2 (ns / 100) + 2)

/-- One sample of a port's queues. -/
def PortS.sample (now : Nat) (p : PortS) : PortS :=
  let bump (h : List (List Nat)) (bins : List Nat) : List (List Nat) := (h.zip bins).map (fun x => x.1.modify x.2 inc32)
  { p with
    depthHist := bump p.depthHist (p.queues.map (fun q => depthBin ((q.pkts.map (fun x => x.1.len)).sum)))
    delayHist := bump p.delayHist (p.queues.map (fun q => match q.pkts.head? with
      | none => 0
      | some x => delayBin (now - x.1.enqueued))) }

/-- QUEUE_SAMPLE: every queue of every port that is up. -/
def execQueueSample (s : State) : Host.Outcome State Fault Refusal :=
  .next (s.whenUp (fun s => s.onEth (fun e => { e with ports := e.ports.map (fun p => if p.linkUp then p.sample s.now else p) })))

/-! ## Load (R287) -/

/-- Working cells of a slice, as block and position. -/
def State.sliceCells (s : State) (i : Nat) : List (Nat × Nat) :=
  (bitsSet (s.cfg i).blocks 32).flatMap (fun b => (s.workingPos b).map (fun x => (b, x.2)))

/-- Bytes that wait in a port's weighted queues, in L. -/
def PortS.backlog (p : PortS) : Nat := ((p.queues.drop 3).map (fun q => (q.pkts.map (fun x => x.1.len)).sum)).sum

/-- Commands outstanding on the drives of a slice. -/
def State.flashOut (s : State) (i : Nat) : Nat :=
  ((bitsSet (s.cfg i).tier.flashDrives 16).map (fun d => ((s.mem.drives.getD d {}).cmds.filter (fun c => c.2.issued)).length)).sum

/-- What the present nanosecond adds to the measures of R287. -/
def State.reading (s : State) : Meter :=
  { interval := s.now / 10000
    cells := (List.range 8).map (fun i => ((s.sliceCells i).filter (fun x => ((s.block x.1).cell x.2).live.isSome)).length)
    flash := (List.range 8).map s.flashOut
    miss := s.missBytes
    egress := (List.range 8).map (fun p => (s.port p).backlog) }

/-- The sum of two stretches. -/
def Meter.add (a b : Meter) : Meter :=
  { a with cells := List.zipWith (· + ·) a.cells b.cells, flash := List.zipWith (· + ·) a.flash b.flash, miss := a.miss + b.miss
           egress := List.zipWith (· + ·) a.egress b.egress }

/-- A nanosecond joins its interval; the ten intervals before it are kept. -/
def noteMeter (r : Meter) : List Meter → List Meter
  | [] => [r]
  | m :: t => if m.interval = r.interval then m.add r :: t else r :: (m :: t).take 10

/-- The measures of R287 take one nanosecond of a running node. (DESIGN CHOICE, log entry 40.) -/
def State.meter (s : State) : State :=
  if s.running then s.onEth (fun e => { e with meters := noteMeter s.reading e.meters }) else s

/-- The last 100 µs: the ten intervals that are over. -/
def State.lastMeters (s : State) : Meter :=
  (s.eth.meters.filter (fun m => m.interval < s.now / 10000 && s.now / 10000 ≤ m.interval + 10)).foldl Meter.add {}

/-- The utilisations of R287 for a slice and a port, as fractions over 100 µs: u_cell, u_stack, u_flash, u_miss and u_egress; the bytes
read from the slice's stacks are what their controllers count. (DESIGN CHOICE, log entry 40.) -/
def State.utilisations (s : State) (i p stackBytes : Nat) : List (Nat × Nat) :=
  let m := s.lastMeters
  let drives := (bitsSet (s.cfg i).tier.flashDrives 16).length
  [(m.cells.getD i 0, (s.sliceCells i).length * 100000), (stackBytes, (s.cfg i).stackList.length * 614400000),
   (m.flash.getD i 0, drives * 256 * 100000), (m.miss, 2 * 2 ^ 20 * 100000),
   (m.egress.getD p 0, lineGbit (s.port p).mode * 12500 * 100000)]

/-- ⌊16u⌋ of a utilisation given as a fraction; 0 for a resource that the slice does not have. -/
def sixteenths (u : Nat × Nat) : Nat := if u.2 = 0 then 0 else 16 * u.1 / u.2

/-- LOAD_RECOMPUTE: min(15, ⌊16u⌋) for the largest utilisation of a slice and port. -/
def execLoadRecompute (slice : Fin 8) (port : Fin 8) (stackBytes : Nat) (s : State) : Host.Outcome State Fault Refusal :=
  .next (s.whenUp (fun s => s.onEth (fun e => { e with
    load := e.load.set (slice * 8 + port) (min 15 (((s.utilisations slice port stackBytes).map sixteenths).foldl max 0)) })))

/-! ## Link loss and `link_hold` (R276) -/

/-- The hold of a port is over. -/
def State.holdOver (s : State) (p : Nat) : Bool :=
  (s.port p).held && (s.port p).downAt + (s.port p).cfg.linkHold * 1000000 ≤ s.now

/-- `link_hold` expires: the port's queue pairs move to ERROR and its queues are emptied. -/
def State.expireHold (p : Nat) (s : State) : State :=
  if s.holdOver p then
    let s := s.onPort p (fun x => { x with held := false, holdExpiries := inc16 x.holdExpiries })
    let s := s.flushWhere (fun c => c.port = p)
    s.onPort p (fun x => { x with queues := x.queues.map (fun q => { q with pkts := [] }) })
  else s

/-- The end of a lane swap is counted against every slice that uses the port, with its length (R278, R370). -/
def State.countSwap (p : Nat) (s : State) : State :=
  if (s.port p).swapping then
    s.onRas (fun r => { r with avail := (r.avail.zipIdx).map (fun a =>
      if bit (s.cfg a.2).ports p then
        { a.1 with swaps := inc32 a.1.swaps, longestUs := max a.1.longestUs (min max32 ((s.now - (s.port p).downAt) / 1000)) }
      else a.1) })
  else s

/-- A port has link: transmission resumes where it stopped. -/
def State.portUp (p : Nat) (s : State) : State :=
  if (s.port p).mode ≠ 0 ∧ !(s.port p).linkUp ∧ !s.ras.portsWithdrawn.contains p ∧ !s.engineLost p ∧ !s.aon.coolantPin ∧ !s.aon.clk156Lost then
    ((s.countSwap p).expireHold p).onPort p (fun x => { x with linkUp := true, held := false, training := false, swapping := false })
  else s

/-- PORT_LINK_LOSS. -/
def execPortLinkLoss (port : Fin 8) (s : State) : Host.Outcome State Fault Refusal := .next (s.whenUp (State.portDown port))

/-- PORT_LINK_RETURN: link comes back to a port whose lanes are not under test. (DEDUCED, log entry 41.) -/
def execPortLinkReturn (port : Fin 8) (s : State) : Host.Outcome State Fault Refusal :=
  .next (s.whenUp (fun s => if (s.port port).swapping || (s.port port).training then s else s.portUp port))

/-- LINK_HOLD_EXPIRY. -/
def execLinkHoldExpiry (port : Fin 8) (s : State) : Host.Outcome State Fault Refusal := .next (s.whenUp (State.expireHold port))

/-! ## Lanes (R277 to R279, R356) -/

/-- The port that holds a lane. -/
def State.laneOwner (s : State) (lane : Nat) : Option Nat :=
  (List.range 8).find? (fun p => (s.port p).mode ≠ 0 && bit (s.port p).lanes lane)

/-- The spare of a lane's half, as the lane that it replaces. -/
def State.spareOf (s : State) (lane : Nat) : Option Nat := if lane < 8 then s.eth.s0 else s.eth.s1

/-- The transceiver that serves a lane: its own, or 16 or 17 for a spare steered to it (R354). -/
def State.laneUnit (s : State) (lane : Nat) : Nat := if s.spareOf lane = some lane then 16 + lane / 8 else lane

/-- Write a lane detection (R348, R354). -/
def State.logLane (lane outcome : Nat) (s : State) : State :=
  let island := if lane = 16 then 63 else if lane = 17 then 71 else 56 + lane
  s.logDetection island 9 6 0 lane (s.temp island) s.pwr.vdd outcome 0xff 0

/-- LANE_SUSPICION: the port is taken down and the lane's transceiver is tested. -/
def execLaneSuspicion (lane : Fin 16) (s : State) : Host.Outcome State Fault Refusal :=
  .next (s.whenUp (fun s => match s.laneOwner lane with
    | none => s
    | some p =>
      if (s.port p).linkUp then
        let unit := s.laneUnit lane
        (((s.portDown p).onPort p (fun x => { x with swapping := true })).onEth
          (fun e => { e with suspects := e.suspects ++ [(lane : Nat)] })).logLane unit 3
      else s))

/-- Slices whose every port is withdrawn are logged as unreachable; they keep their state (R356). -/
def State.logUnreachable (p : Nat) (s : State) : State :=
  (List.range 8).foldl (fun s i =>
    let x := s.slice i
    if x.state ≠ .absent ∧ bit x.cfg.ports p ∧ (bitsSet x.cfg.ports 8).all s.ras.portsWithdrawn.contains then
      (s.logEvent 94 (s.pick Site.unreachable 0 % 65536) i 0 p 0 0).bump
    else s) s

/-- A lane that cannot be replaced takes its port out of service (R279, R356). -/
def State.withdrawPort (p : Nat) (s : State) : State :=
  if s.ras.portsWithdrawn.contains p then s
  else (s.onRas (fun r => { r with portsWithdrawn := r.portsWithdrawn ++ [p] })).logUnreachable p

/-- A lane is retired: it is logged and written to the retire list (R278). -/
def State.retireLane (lane : Nat) (s : State) : State :=
  if s.eth.lanesRetired.contains lane then s
  else
    ((s.onEth (fun e => { e with lanesRetired := e.lanesRetired ++ [lane] })).logEvent (56 + lane) 0x0701 0xff 0 lane 0
      0).saveRecord

/-- LOOPBACK_TEST_DONE: a pass clears the lane; a failure retires it and steers in the spare of its half where that is
free. -/
def execLoopbackTestDone (lane : Fin 16) (pass : Bool) (s : State) : Host.Outcome State Fault Refusal :=
  .next (s.whenUp (fun s =>
    if s.eth.suspects.contains (lane : Nat) && !s.aon.coolantPin then
      let s := s.onEth (fun e => { e with suspects := e.suspects.filter (· ≠ (lane : Nat)) })
      let sp := s.spareOf lane
      let unit := s.laneUnit lane
      let p := (s.laneOwner lane).getD 0
      if pass then
        ((s.logLane unit 0).onEth (fun e => { e with loopbackPasses := inc16 e.loopbackPasses })).onPort p
          (fun x => { x with training := true, swapping := false })
      else
        let s := (s.logLane unit 1).retireLane lane
        if sp.isNone then
          (s.onEth (fun e => { e with
            s0 := if (lane : Nat) < 8 then some (lane : Nat) else e.s0
            s1 := if (lane : Nat) < 8 then e.s1 else some (lane : Nat)
            swaps := inc16 e.swaps })).onPort p (fun x => { x with training := true })
        else s.withdrawPort p
    else s))

/-- PORT_TRAINING_DONE: the port is up and its held queues resume. -/
def execPortTrainingDone (port : Fin 8) (s : State) : Host.Outcome State Fault Refusal :=
  .next (s.whenUp (fun s => if (s.port port).training then s.portUp port else s))

end Sys2Proof.Machine
end

