-- ==== Sys2Proof/Machine/Relocate.lean ====
section
/-! DEFINITION. Moving units of stack memory: off a removed stack and out of a withdrawn span (R307, R357). A move copies a unit's
bytes as stored, sets the new location, raises `frame_gen` for a page's frames, and retires the old unit (R66). -/

namespace Sys2Proof.Machine

/-- Copy the bytes of a unit of `n` granules as stored, those of waiting writes among them (R134). -/
def State.copyUnit (src dst : Nat × Nat) (n : Nat) (s : State) : State :=
  let a := nodeAddr src.1 (granuleOffset src.2)
  let b := nodeAddr dst.1 (granuleOffset dst.2)
  let w := (s.nbu.getD src.1 {}).queued.filterMap (fun c => match c.job with
    | .write d => if a ≤ c.addr && c.addr < a + n * 65536 then some (c.addr, d) else none
    | _ => none)
  let l := s.mem.cells.filter (fun c => a ≤ c.1 && c.1 < a + n * 65536)
  let s := (s.busReads (l.map Prod.fst)).zeroGranules dst n
  w.foldl (fun s x => s.memWriteN (b + (x.1 - a)) x.2) (s.busBytes (l.map (fun c => (b + (c.1 - a), c.2))))

/-- How a sequence of moves ended: every one is done, one found no free unit, or one waits for its quarter's retire list (R66, R246) or
for the grants of its page to end (R240). -/
inductive MoveEnd | all | noUnit | waits
deriving DecidableEq, Repr

/-- A new unit for a moved one: in the slice's stacks, the old stack first where it stays in the slice. -/
def State.newUnit (s : State) (slice kind n stack : Nat) : Option ((Nat × Nat) × State) :=
  s.allocFrom slice kind n (s.stacksFirst slice stack)

/-- Move a unit: the new place and the state with the bytes copied and the old unit retired. -/
def State.moveUnit (s : State) (slice kind n q : Nat) (src : Nat × Nat) : Option ((Nat × Nat) × State) :=
  (s.newUnit slice kind n src.1).map (fun r => (r.1, (r.2.copyUnit src r.1 n).retireUnit q src n))

/-- Steps that may stop: the state so far, and how they ended. -/
abbrev Moved := State × MoveEnd

/-- Do a step where the ones before it were done. -/
def Moved.then (m : Moved) (f : State → Moved) : Moved := if m.2 = .all then f m.1 else m

/-- The published frame of an entry (R307): a frame with a valid flash copy is released; a demotion is given up; the frame of a
running fill is allocated anew. -/
def State.moveFrame (p : Nat × Nat → Bool) (slice : Nat) (n : PageName) (s : State) : Moved :=
  match s.entry slice n with
  | none => (s, .all)
  | some e =>
    let k := frameGranules (s.format slice)
    if !p e.stackFrame then (s, .all)
    else match e.frameState with
      | .stackClean => (s.releaseFrame e, .all)
      | .filling =>
        match s.newUnit slice 1 k e.stackFrame.1 with
        | none => (s, .noUnit)
        | some r => (((r.2.retireUnit e.quarter e.stackFrame k).onEntry slice n (fun e => { e with stackFrame := r.1 })).onFill slice n
            (fun f => { f with frame := some r.1 }), .all)
      | .stack | .demoting =>
        match s.moveUnit slice 1 k e.quarter e.stackFrame with
        | none => (s, .noUnit)
        | some r =>
          let s := if e.frameState = .demoting then
              (r.2.dropCmds e.flashDrive slice n).retireExtent e.quarter e.flashDrive e.flashGranule k else r.2
          ((s.onEntry slice n (fun e => { e with stackFrame := r.1, frameState := .stack })).bumpGen slice n true, .all)
      | _ => (s, .all)

/-- The write frame of an entry. -/
def State.moveWrite (p : Nat × Nat → Bool) (slice : Nat) (n : PageName) (s : State) : Moved :=
  match s.entry slice n with
  | none => (s, .all)
  | some e =>
    if e.writeValid && p e.writeFrame then
      match s.moveUnit slice 1 (frameGranules (s.format slice)) e.quarter e.writeFrame with
      | none => (s, .noUnit)
      | some r => ((r.2.onEntry slice n (fun e => { e with writeFrame := r.1 })).bumpGen slice n true, .all)
    else (s, .all)

/-- The shadow frame of an entry. -/
def State.moveShadow (p : Nat × Nat → Bool) (slice : Nat) (n : PageName) (s : State) : Moved :=
  match s.entry slice n with
  | none => (s, .all)
  | some e =>
    if e.shadowValid && p e.shadowFrame then
      match s.moveUnit slice 2 (frameGranules (shadowFormat (s.format slice))) e.quarter e.shadowFrame with
      | none => (s, .noUnit)
      | some r => ((r.2.onEntry slice n (fun e => { e with shadowFrame := r.1 })).bumpGen slice n true, .all)
    else (s, .all)

/-- The Hull record of an entry. -/
def State.moveHull (p : Nat × Nat → Bool) (slice : Nat) (n : PageName) (s : State) : Moved :=
  match s.entry slice n with
  | none => (s, .all)
  | some e =>
    if e.hullHeld && p (e.hullLoc.1, e.hullLoc.2.1) then
      let f := s.format slice
      match s.hullFrom slice f (s.stacksFirst slice e.hullLoc.1) with
      | none => (s, .noUnit)
      | some r =>
        let s := r.2.memWriteN (hullAddr f r.1) (r.2.memReadN (hullAddr f e.hullLoc) (hullBytes f))
        let s := s.retire e.quarter { place := e.hullLoc.1, granule := e.hullLoc.2.1, count := 0, slot := some e.hullLoc.2.2 }
        ((s.onEntry slice n (fun e => { e with hullLoc := r.1 })).bumpGen slice n true, .all)
    else (s, .all)

/-- A unit of the entry is to move. -/
def Entry.touches (p : Nat × Nat → Bool) (e : Entry) : Bool :=
  (e.frameState.inStack && p e.stackFrame) || (e.frameState = .filling && p e.stackFrame) || (e.writeValid && p e.writeFrame) ||
  (e.shadowValid && p e.shadowFrame) || (e.hullHeld && p (e.hullLoc.1, e.hullLoc.2.1))

/-- Every unit of one entry; changes that the entry still owes are applied first. The move waits where the quarter's retire list is
full, and where other nodes hold grants for the page, which are revoked (R204, R240). -/
def State.moveEntry (p : Nat × Nat → Bool) (slice : Nat) (n : PageName) (s : State) : Moved :=
  let s := s.refresh slice n
  if !(s.entry slice n).any (Entry.touches p) then (s, .all)
  else if s.shared slice n then (s.revokeGrants slice n, .waits)
  else if (s.entry slice n).any (fun e => s.retireFull e.quarter) then (s, .waits)
  else
    (((State.moveFrame p slice n s).then (State.moveWrite p slice n)).then (State.moveShadow p slice n)).then (State.moveHull p slice n)

/-- A prefix-tree node: everything that names its address names the new one. -/
def State.moveNode (p : Nat × Nat → Bool) (a : Nat) (s : State) : Moved :=
  match s.node a with
  | none => (s, .all)
  | some n =>
    if p (addrStack a, offsetGranule (addrOffset a)) then
      if s.retireFull (n.key % 4) then (s, .waits) else
      match s.allocNode n.slice n.key with
      | none => (s, .noUnit)
      | some r =>
        let re (x : Nat) : Nat := if x = a then r.1 else x
        let s := r.2.onLocus (fun l => { l with
          nodes := (l.nodes.erase a).map (fun y => (y.1, { y.2 with nextSibling := re y.2.nextSibling }))
          entries := l.entries.map (fun e => (e.1, { e.2 with ptr := re e.2.ptr }))
          ovf := l.ovf.map (fun o => { o with ptr := re o.ptr }) })
        let s := s.retire (n.key % 4) { place := addrStack a, granule := offsetGranule (addrOffset a), count := 0,
                                        slot := some (a % 65536 / 2048) }
        let s := (s.locus.nodes.vals.filter (fun x => x.nextSibling = r.1)).foldl (fun s x => s.putNode x) s
        (s.putNode { n with addr := r.1 }, .all)
    else (s, .all)

/-- The parts of an accumulator; its header names the new places. -/
def State.moveAcc (p : Nat × Nat → Bool) (slice : Nat) (n : PageName) (s : State) : Moved :=
  match s.accOf slice n with
  | none => (s, .all)
  | some a =>
    if a.parts.any (fun x => p (x.1, x.2.1)) then
      if s.retireFull (s.quarterOf slice n.handle) then (s, .waits) else
      let r := a.parts.foldl (fun (m : (List (Nat × Nat × Nat) × State) × Bool) x =>
        if !m.2 then m
        else if p (x.1, x.2.1) then
          match m.1.2.moveUnit slice 5 x.2.2 (s.quarterOf slice n.handle) (x.1, x.2.1) with
          | none => (m.1, false)
          | some y => ((m.1.1 ++ [(y.1.1, y.1.2, x.2.2)], y.2), true)
        else ((m.1.1 ++ [x], m.1.2), true)) (([], s), true)
      let done := r.1.1 ++ a.parts.drop r.1.1.length
      let b : Accumulator := { a with parts := done }
      ((r.1.2.onHome (fun h => { h with accs := h.accs.map (fun (c : Accumulator) => if c.is slice n then b else c) })).writeAccHeader b,
        if r.2 then .all else .noUnit)
    else (s, .all)

/-- The registered region of a key (R357). -/
def State.moveRegion (p : Nat × Nat → Bool) (i : Nat) (s : State) : Moved :=
  match s.xpt.regionKeys.get? i with
  | none => (s, .all)
  | some e =>
    let src := (addrStack e.base, offsetGranule (addrOffset e.base))
    if p src then
      if s.retireFull (src.1 % 4) then (s, .waits) else
      match s.moveUnit e.slice 6 (cdiv e.length 65536) (src.1 % 4) src with
      | none => (s, .noUnit)
      | some r => (r.2.onXpt (fun x => { x with
          regionKeys := x.regionKeys.modify i (fun e => { e with base := nodeAddr r.1.1 (granuleOffset r.1.2) }) }), .all)
    else (s, .all)

/-- Move every unit of a slice whose place a test picks; it stops at the first that finds no free unit or waits. -/
def State.moveUnits (p : Nat × Nat → Bool) (slice : Nat) (regions : Bool) (s : State) : Moved :=
  let es := (s.home.entries.filter (fun e => e.slice = slice)).map Entry.name
  let ns := (s.locus.nodes.vals.filter (fun n => n.slice = slice)).map PfxNode.addr
  let as_ := (s.home.accs.filter (fun (a : Accumulator) => a.slice = slice)).map (fun (a : Accumulator) => a.name)
  let ks := if regions then (s.xpt.regionKeys.filter (fun k => k.2.slice = slice)).map Prod.fst else []
  let m : Moved := es.foldl (fun m n => m.then (State.moveEntry p slice n)) (s, .all)
  let m := ns.foldl (fun m a => m.then (State.moveNode p a)) m
  let m := as_.foldl (fun m n => m.then (State.moveAcc p slice n)) m
  ks.foldl (fun m i => m.then (State.moveRegion p i)) m

end Sys2Proof.Machine
end

