-- ==== Sys2Proof/Machine/Slices.lean ====
section
/-! DEFINITION. Slices: what they hold (R298, R311), clearing (R300), composition and set-up (R303, R441), recomposition (R306,
R307), drains and their outcomes (R305, R310, R311), removal (R303, R308), and the long operations on slices. -/

namespace Sys2Proof.Machine

/-! ## What slices hold (R298, R311) -/

/-- The section of a latched enable: its resources are reserved (R311). -/
def SliceS.latched (x : SliceS) : Option SliceCfg :=
  if x.state = .draining then (match x.outcome with
    | .enable _ c _ _ => c
    | _ => none) else none

/-- The sections that a slice holds resources by: the one in force and a latched one. -/
def SliceS.sections (x : SliceS) : List SliceCfg := (if x.state = .absent then [] else [x.cfg]) ++ x.latched.toList

/-- The slice holds or has reserved a block. -/
def SliceS.hasBlock (x : SliceS) (b : Nat) : Bool :=
  x.sections.any (fun c => bit c.blocks b) || x.changes.contains (.addBlock b) || x.changes.contains (.removeBlock b)

/-- The slice holds or has reserved a stack. -/
def SliceS.hasStack (x : SliceS) (k : Nat) : Bool := x.sections.any (fun c => c.stackList.contains k)

/-- A Locus block lies in a cascade. -/
def inCascade (l : LocusCfg) (b : Nat) : Bool := l.firstBlock ≤ b && b < l.firstBlock + l.blocks

/-- The slice holds or has reserved a Locus block; a cascade that is being moved is held until the switch. -/
def SliceS.hasLocus (x : SliceS) (b : Nat) : Bool :=
  x.sections.any (fun c => inCascade c.locus b) || x.changes.any (fun c => match c with
    | .moveCascade l => inCascade l b
    | _ => false)

/-- The slice holds or has reserved a latency class. -/
def SliceS.hasClass (x : SliceS) (c : Nat) : Bool := x.sections.any (fun f => (f.classes.get? c).isSome)

/-- The slice holds or has reserved a weighted queue of a port. -/
def SliceS.hasQueue (x : SliceS) (p q : Nat) : Bool := x.sections.any (fun c => bit (c.wqSet.getD p 0) q)

/-- Another slice has a property. -/
def State.other (s : State) (i : Nat) (p : SliceS → Bool) : Bool := (List.range 8).any (fun j => j ≠ i && p (s.slice j))

/-- Every block, stack, Locus block, class and weighted queue of a section is free of other slices (R340 step 9). -/
def State.idleFor (s : State) (i : Nat) (c : SliceCfg) : Bool :=
  (bitsSet c.blocks 32).all (fun b => !s.other i (·.hasBlock b)) &&
  c.stackList.all (fun k => !s.other i (·.hasStack k)) &&
  (List.range 16).all (fun b => !inCascade c.locus b || !s.other i (·.hasLocus b)) &&
  (c.classes.map Prod.fst).all (fun k => !s.other i (·.hasClass k)) &&
  (List.range 8).all (fun p => (bitsSet (c.wqSet.getD p 0) 16).all (fun q => !s.other i (fun x => x.hasQueue p q)))

/-- The context sums of R301 hold with a section in place of the slice's own. -/
def State.ctxSums (s : State) (i : Nat) (c : SliceCfg) : Bool :=
  let others := (List.range 8).filter (fun j => j ≠ i && (s.slice j).state ≠ .absent)
  c.ctxDie + (others.map (fun j => (s.cfg j).ctxDie)).sum ≤ 65536 &&
  c.ctxLimit + (others.map (fun j => (s.cfg j).ctxLimit)).sum ≤ 4194302

/-! ## Joining a slice (R300) -/

/-- Keys of blocks, stacks and Locus blocks among the last owners. -/
def ownBlock (b : Nat) : Nat := b
/-- Key of a stack. -/
def ownStack (k : Nat) : Nat := 32 + k
/-- Key of a Locus block. -/
def ownLocus (b : Nat) : Nat := 40 + b

/-- A resource joins a slice: where it last belonged to another, it is cleared first. -/
def State.join (key i : Nat) (clear : State → State) (s : State) : State :=
  let s := match s.sch.lastOwner.get? key with
    | some j => if j = i then s else clear s
    | none => s
  s.onSch (fun c => { c with lastOwner := c.lastOwner.set key i })

/-- A retired place lies in a stack. -/
def Retired.inStack (k : Nat) (r : Retired) : Bool := !r.flash && r.place = k

/-- Zero a stack's page space; its span tables return to free (R300). -/
def State.clearStack (k : Nat) (s : State) : State :=
  s.clearMark.onMem (fun m => { m with
    cells := m.cells.filter (fun c => !(addrStack c.1 = k && c.1 < 2 ^ 40 && !reservedOffset (addrOffset c.1)))
    spans := m.spans.filter (fun x => x.1 / spansPerStack ≠ k)
    retire := m.retire.map (fun r => (r.1, r.2.filter (fun x => !x.inStack k))) })

/-- Clear the entries of a Locus block (R300). -/
def State.clearLocus (b : Nat) (s : State) : State :=
  s.onLocus (fun l => { l with entries := l.entries.filter (fun e => e.1 / 65536 ≠ b) })

/-- Every resource of a section joins a slice. -/
def State.joinAll (i : Nat) (c : SliceCfg) (s : State) : State :=
  let s := (bitsSet c.blocks 32).foldl (fun s b => s.join (ownBlock b) i (fun s => s.clearBlock b)) s
  let s := c.stackList.foldl (fun s k => s.join (ownStack k) i (fun s => s.clearStack k)) s
  ((List.range 16).filter (inCascade c.locus)).foldl (fun s b => s.join (ownLocus b) i (fun s => s.clearLocus b)) s

/-! ## Classes and table columns (R312, R314) -/

/-- Put a block's column into the table: the owner of the block in every window. -/
def putColumn (b : Nat) (col : List Nat) (t : Tbl (List Nat)) : Tbl (List Nat) :=
  (List.range 256).foldl (fun t w => t.update w (List.replicate 32 16) (fun r => r.set b (col.getD w 0))) t

/-- Take a block's column out of the table: entries of idle blocks are zero (R314), and no class owns the block. -/
def dropColumn (b : Nat) (t : Tbl (List Nat)) : Tbl (List Nat) := t.map (fun r => (r.1, r.2.set b 16))

/-- Class records and columns of a section take effect at once (R303). -/
def State.loadTable (c : SliceCfg) (s : State) : State :=
  s.onSch (fun x => { x with
    classes := c.classes.foldl (fun t k => t.set k.1 k.2) x.classes
    table := c.table.foldl (fun t k => putColumn k.1 k.2 t) x.table })

/-- Class records and columns of a section wait for the next window 0; classes that the slice gives up are not valid then. -/
def State.stageTable (old c : SliceCfg) (s : State) : State :=
  let gone := (old.classes.map Prod.fst).filter (fun k => (c.classes.get? k).isNone)
  s.onSch (fun x => { x with
    stagedClasses := c.classes.foldl (fun t k => t.set k.1 k.2) (gone.foldl (fun t k => t.set k {}) x.stagedClasses)
    staged := c.table.foldl (fun t k => t.set k.1 k.2) x.staged })

/-- What waited for window 0 takes effect (R314); a column waits for its block to join. -/
def State.applyStaged (s : State) : State :=
  let here (b : Nat) : Bool := s.sch.slices.any (fun x => x.state ≠ .absent && bit x.cfg.blocks b)
  s.onSch (fun x => { x with
    classes := x.stagedClasses.foldl (fun t k => if k.2.valid = 1 then t.set k.1 k.2 else t.erase k.1) x.classes
    table := (x.staged.filter (fun k => here k.1)).foldl (fun t k => putColumn k.1 k.2 t) x.table
    stagedClasses := []
    staged := x.staged.filter (fun k => !here k.1) })

/-! ## Operations that wait for slices (R342, R344, R311) -/

/-- The operation that a pending outcome belongs to. -/
def Outcome.op : Outcome → Option Nat
  | .disable o => o
  | .enable o _ _ _ => o
  | .remove o => o

/-- Some slice still works for an operation. -/
def State.opAwaited (s : State) (id : Nat) : Bool :=
  s.sch.slices.any (fun x => x.composeOp = some id || (match x.flashPending with
    | some f => f.2 = some id
    | none => false))

/-- An operation ends with OK when nothing works for it any more. -/
def State.opReady (id : Option Nat) (s : State) : State :=
  match id with
  | some i => if s.opAwaited i then s else s.opDone i
  | none => s

/-! ## Set-up and serving (R303, R395, R441) -/

/-- Groups that a slice admits: those of the isolation entries that list it (R298, R442). -/
def State.sliceGroups (s : State) (i : Nat) : List Nat :=
  ((s.xpt.isolation.filter (fun e => bit e.2.slices i)).map (fun e => e.2.group)).eraseDups

/-- The `svn` fuses are burned when admission first opens under an image of a higher version (R395). -/
def State.burnSvn (s : State) : State :=
  match s.sec.running with
  | none => s
  | some im => if s.sec.svn < im.imgSvn then (s.onSec (fun c => { c with svn := im.imgSvn })).emit (.svnBurn im.imgSvn) else s

/-- A slice whose set-up is complete serves; the ramp of its groups starts. -/
def State.startServing (i : Nat) (s : State) : State :=
  let op := (s.slice i).composeOp
  let s := (s.burnSvn).onSlice i (fun x => { x with state := .serving, composeOp := none })
  ((s.sliceGroups i).foldl (fun s g => s.startRamp g) s).opReady op

/-- Changes of a recomposition that are still to be made; copies out of a withdrawn span are none of its changes. -/
def SliceS.open_ (x : SliceS) : List Change := x.changes.filter (fun c => match c with
  | .copySpan _ _ => false
  | _ => true)

/-- A recomposition whose changes have all ended returns to SERVING (R303, R344). -/
def State.endRecompose (i : Nat) (s : State) : State :=
  let x := s.slice i
  if x.state = .recomposing ∧ x.open_.isEmpty then
    (s.onSlice i (fun x => { x with state := .serving, composeOp := none })).opReady x.composeOp
  else s

/-! ## Recomposition (R306, R307, R344) -/

/-- The slice holds state of a kind: a span of kind 6 in a stack. -/
def State.regionsIn (s : State) (i k : Nat) : Bool :=
  s.mem.spans.any (fun x => x.1 / spansPerStack = k && x.2.kind = 6 && x.2.slice = i && !x.2.used.isEmpty)

/-- The slice holds name-table entries. -/
def State.hasEntries (s : State) (i : Nat) : Bool := s.home.entries.any (fun e => e.slice = i)

/-- The slice holds prefix-tree nodes. -/
def State.hasNodes (s : State) (i : Nat) : Bool := s.locus.nodes.any (fun n => n.2.slice = i)

/-- The slice holds flash extents. -/
def State.hasExtents (s : State) (i : Nat) : Bool := s.home.entries.any (fun e => e.slice = i && e.frameState.onFlash)

/-- A cascade change is an extension, or none. -/
def cascadeKept (a b : LocusCfg) : Bool := a.firstBlock = b.firstBlock && a.wide = b.wide && a.blocks = b.blocks

/-- A cascade grows at its end (R307). -/
def cascadeGrows (a b : LocusCfg) : Bool :=
  a.blocks ≠ 0 && a.firstBlock = b.firstBlock && a.wide = b.wide && a.blocks < b.blocks

/-- The stack list that a recomposition leaves: the old one without what is removed, then what is added. -/
def newStacks (old new : List Nat) : List Nat := old.filter new.contains ++ new.filter (fun k => !old.contains k)

/-- The preconditions of R307 for a section that replaces a slice's own, in the table's order; differences that R307 does not list
are refused (R344). -/
def State.changeCode (s : State) (i : Nat) (c : SliceCfg) : Code :=
  let o := s.cfg i
  let added := c.stackList.filter (fun k => !o.stackList.contains k)
  let gone := o.stackList.filter (fun k => !c.stackList.contains k)
  Code.first [
    ((bitsSet c.blocks 32).any (fun b => !bit o.blocks b && s.other i (·.hasBlock b)), .busy),
    (added.any (fun k => s.other i (·.hasStack k)), .busy),
    (gone.any (s.regionsIn i), .formatError),
    (c.stackList ≠ newStacks o.stackList c.stackList, .formatError),
    (cascadeGrows o.locus c.locus && (List.range 16).any (fun b => inCascade c.locus b && s.other i (·.hasLocus b)), .busy),
    (!cascadeKept o.locus c.locus && !cascadeGrows o.locus c.locus &&
      (List.range 16).any (fun b => inCascade c.locus b && (inCascade o.locus b || s.other i (·.hasLocus b))), .formatError),
    ((c.locus.key ≠ o.locus.key || c.locus.keyB ≠ o.locus.keyB) && s.hasNodes i, .formatError),
    (!s.ctxSums i c || c.ctxLimit < s.ctxCount i, .busy),
    ((c.classes.map Prod.fst).any (fun k => s.other i (·.hasClass k)), .busy),
    ((List.range 8).any (fun p => (bitsSet (c.wqSet.getD p 0) 16).any (fun q => s.other i (fun x => x.hasQueue p q))), .busy),
    (c.format ≠ o.format && s.hasEntries i, .formatError),
    (c.flashKeySlot ≠ o.flashKeySlot && s.hasExtents i, .formatError),
    (c.microcode ≠ o.microcode, .formatError),
    ((List.range 8).any (fun p => bit o.ports p && bit c.ports p &&
      (c.wqSet.getD p 0 ≠ o.wqSet.getD p 0 || c.weights.getD p [] ≠ o.weights.getD p [])), .formatError)]

/-- Commands of a slice outstanding on drives (R305, R310). -/
def State.flashBusy (s : State) (i : Nat) : Bool := s.mem.drives.any (fun d => d.2.cmds.any (fun c => c.2.slice = i && c.2.bitmapBlock.isNone))

/-- The flash tier of a slice is switched: a switch off with commands outstanding drains; a switch on during the drain is latched,
and replaces one latched before (R310, R311). The answer is the bitmap in force. -/
def State.switchFlash (i drives : Nat) (op : Option Nat) (s : State) : Nat × State :=
  let x := s.slice i
  let old := x.flashPending.bind Prod.snd
  let s := if x.flashPending.isSome ∧ old ≠ op then s.opFail? old .aborted else s
  if x.flashClosing then
    if drives = 0 then (0, s.onSlice i (fun x => { x with flashPending := none }))
    else
      let s := s.onSlice i (fun x => { x with flashPending := some (drives, op) })
      (0, match op with
        | some k => s.latchOp k
        | none => s)
  else if drives = 0 ∧ x.cfg.tier.flashDrives ≠ 0 ∧ s.flashBusy i then (0, s.onSlice i (fun x => { x with flashClosing := true }))
  else (drives, s)

/-- Tile groups that wait on a block go to the slice's other blocks (R307, R309). -/
def State.redispatch (i b : Nat) (s : State) : State :=
  let ts := (s.block b).ready
  let s := s.onBlock b (fun x => { x with ready := [] })
  ts.foldl (fun s t => match s.chooseBlock i (b / 4) t.cls with
    | some k => (s.onBlock k (fun x => { x with ready := x.ready ++ [t] })).placeReady k
    | none => s.onBlock b (fun x => { x with ready := x.ready ++ [t] })) s

/-- The changes between two sections that take time. -/
def sectionChanges (o c : SliceCfg) : List Change :=
  ((bitsSet c.blocks 32).filter (fun b => !bit o.blocks b)).map .addBlock ++
  ((bitsSet o.blocks 32).filter (fun b => !bit c.blocks b)).map .removeBlock ++
  (o.stackList.filter (fun k => !c.stackList.contains k)).map .removeStack ++
  (if cascadeKept o.locus c.locus || cascadeGrows o.locus c.locus then [] else [.moveCascade o.locus]) ++
  ((bitsSet o.ports 8).filter (fun p => !bit c.ports p)).map .removePort

/-- Put a section in force over a slice's own: what R307 calls immediate acts at once, the rest becomes changes. -/
def State.putSection (i : Nat) (c : SliceCfg) (op : Option Nat) (s : State) : State :=
  let o := s.cfg i
  let gone := o.stackList.filter (fun k => !c.stackList.contains k)
  let r := s.switchFlash i c.tier.flashDrives op
  let s := (r.2.joinAll i { c with blocks := bitmap ((bitsSet c.blocks 32).filter (fun b => !bit o.blocks b)) }).onSlice i (fun x => { x with
    cfg := { c with
      blocks := bitmap ((bitsSet o.blocks 32).filter (fun b => bit c.blocks b))
      stackList := newStacks o.stackList c.stackList ++ gone
      tier := { c.tier with flashDrives := r.1 } }
    changes := x.changes ++ sectionChanges o c
    removedStacks := x.removedStacks ++ gone })
  ((bitsSet o.blocks 32).filter (fun b => !bit c.blocks b)).foldl (fun s b => s.redispatch i b) s

/-- Recompose a serving slice (R344): the command ends with OK when every change has ended. (DESIGN CHOICE, log entry 34.) -/
def State.recompose (i : Nat) (c : SliceCfg) (serial digest : Nat) (op : Nat) (s : State) : State :=
  let o := s.cfg i
  let s := (s.stageTable o c).putSection i c (some op)
  let s := s.clearMark.onSlice i (fun x => { x with state := .recomposing, composeOp := some op, serial := serial, digest := digest, valid := true })
  s.endRecompose i

/-- Compose a slice from a section (R303): an ABSENT slice takes it whole; a slice that keeps state takes its changes.
(DESIGN CHOICE, log entry 34.) -/
def State.compose (i : Nat) (c : SliceCfg) (serial digest : Nat) (op : Option Nat) (s : State) : State :=
  let s := if (s.slice i).state = .absent then
      (s.joinAll i c).onSlice i (fun x => { x with cfg := c, changes := [], removedStacks := [] })
    else s.putSection i c op
  (s.clearMark.loadTable c).onSlice i (fun x => { x with
    state := .composing, composeOp := op, serial := serial, digest := digest, valid := true, outcome := .disable none })

/-- SLICE_CONTEXT_RESTORE: a composing slice restores its context – its Locus entries are rebuilt and its blocks join – and,
its set-up complete, serves (R303, R438). -/
def execSliceContextRestore (slice : Fin 8) (s : State) : Host.Outcome State Fault Refusal :=
  .next (s.whenUp (fun s =>
    let x := s.slice slice
    if x.state = .composing && !s.aon.coolantPin then
      let added := x.changes.filterMap (fun c => match c with
        | .addBlock b => some b
        | _ => none)
      let s := s.onSlice slice (fun x => { x with
        cfg := { x.cfg with blocks := bitmap (bitsSet x.cfg.blocks 32 ++ added) }
        changes := x.changes.filter (fun c => match c with
          | .addBlock _ => false
          | _ => true) })
      let s := (s.loadTable (s.cfg slice)).reindex slice
      if (s.slice slice).open_.isEmpty then s.startServing slice else s
    else s))

/-! ## Changes that take time (R307, R357) -/

/-- A change ends: it leaves the list. -/
def State.dropChange (i : Nat) (c : Change) (s : State) : State := s.onSlice i (fun x => { x with changes := x.changes.erase c })

/-- A change stops with a code: it keeps what it has done, the changes not yet begun are dropped, and the command ends. -/
def State.stopChange (i : Nat) (c : Code) (s : State) : State :=
  let op := (s.slice i).composeOp
  (s.onSlice i (fun x => { x with
    state := if x.state = .recomposing then .serving else x.state
    composeOp := none
    removedStacks := []
    changes := x.changes.filter (fun c => match c with
      | .copySpan _ _ => true
      | _ => false) })).opFail? op c

/-- A block leaves the slice when nothing of it is left on its cells; contexts in shadows are saved first. -/
def State.removeBlock (i b : Nat) (s : State) : State :=
  let s := (List.range 5).foldl (fun s p => s.spillShadow b p) (s.redispatch i b)
  let x := s.block b
  if x.ready.isEmpty ∧ x.cells.all (fun c => c.live.isNone && c.shadow.isNone) then
    ((s.clearBlock b).onSch (fun c => { c with table := dropColumn b c.table, staged := c.staged.erase b })).dropChange i (.removeBlock b)
  else s

/-- A stack leaves the slice when every unit is moved off it; with no free unit the change stops with PARTIAL; while a unit waits it
goes on. -/
def State.removeStack (i k : Nat) (s : State) : State :=
  let m := s.moveUnits (fun p => p.1 = k) i false
  let held (yes : Bool) : State := m.1.suspendOp (s.slice i).composeOp yes
  match m.2 with
  | .all =>
    ((held false).onSlice i (fun x => { x with
      cfg := { x.cfg with stackList := x.cfg.stackList.filter (· ≠ k) }
      removedStacks := x.removedStacks.filter (· ≠ k) })).dropChange i (.removeStack k)
  | .noUnit => m.1.stopChange i .part
  | .waits => held true

/-- A cascade is rebuilt and switches over; the old blocks are cleared (R193, R307). -/
def State.moveCascade (i : Nat) (old : LocusCfg) (s : State) : State :=
  ((s.dropChange i (.moveCascade old)).rebuildCascade i old)

/-- Queue pairs of a removed port are flushed once their admitted requests are complete. -/
def State.removePort (i p : Nat) (s : State) : State :=
  let mine (c : Ctx) : Bool := c.slice = i && !c.nodeLevel && c.port = p && c.state ≠ .error
  let s := s.flushWhere (fun c => mine c && c.extOut = 0)
  if s.xpt.ctxs.any (fun c => mine c.2) then s else s.dropChange i (.removePort p)

/-- Units of a withdrawn span move to other spans (R357); it is tried again where no unit is free. -/
def State.copySpan (i st sp : Nat) (s : State) : State :=
  let m := s.moveUnits (fun p => p.1 = st && p.2 / 256 = sp) i true
  if m.2 = .all then m.1.dropChange i (.copySpan st sp) else m.1

/-- RECOMPOSE_CHANGE_COMPLETE: the first change that takes time ends, or stops; a block that joins waits for its window
boundary. -/
def execRecomposeChangeComplete (slice : Fin 8) (s : State) : Host.Outcome State Fault Refusal :=
  .next (s.whenUp (fun s => if s.aon.coolantPin then s else
    let s := match (s.slice slice).changes.find? (fun c => match c with
        | .addBlock _ => false
        | _ => true) with
      | some (.removeBlock b) => s.removeBlock slice b
      | some (.removeStack k) => s.removeStack slice k
      | some (.moveCascade l) => s.moveCascade slice l
      | some (.removePort p) => s.removePort slice p
      | some (.copySpan st sp) => s.copySpan slice st sp
      | _ => s
    s.endRecompose slice))

/-- Blocks that join do so at the window boundary (R307). -/
def State.joinBlocks (i : Nat) (s : State) : State :=
  let added := (s.slice i).changes.filterMap (fun c => match c with
    | .addBlock b => some b
    | _ => none)
  if (s.slice i).state ≠ .recomposing ∨ added.isEmpty then s
  else
    (s.onSlice i (fun x => { x with
      cfg := { x.cfg with blocks := bitmap (bitsSet x.cfg.blocks 32 ++ added) }
      changes := x.changes.filter (fun c => match c with
        | .addBlock _ => false
        | _ => true) })).endRecompose i

/-! ## Drains (R303, R305, R308, R311) -/

/-- A bucket's names were homed at a slice of this node by the previous map. -/
def State.prevHere (s : State) (i b : Nat) : Bool :=
  match s.home.prev with
  | some m => mapEntry m b = (s.nodeId, i)
  | none => false

/-- An outgoing transfer holds the drain of a slice: one of a bucket of its names, or a marker where it homed any. -/
def State.outgoingOf (s : State) (i : Nat) (o : Outgoing) : Bool :=
  match o.bucket with
  | some b => s.prevHere i b
  | none => match s.home.prev with
    | some m => m.base = (s.nodeId, i) || m.buckets.any (fun e => e.2 = (s.nodeId, i))
    | none => false

/-- A drain is complete (R305). -/
def State.drained (s : State) (i : Nat) : Bool :=
  s.reqs.all (fun q => q.2.slice ≠ i) &&
  s.nbu.all (fun r => r.wins.all (fun w => w.2.slice ≠ i || w.2.step = .ended)) &&
  s.eng.blocks.all (fun b => b.groups.all (fun t => t.slice ≠ i)) &&
  !s.flashBusy i &&
  s.home.outgoing.all (fun o => !s.outgoingOf i o) &&
  s.home.replicas.all (fun r => r.slice ≠ i || r.copies.all (fun c => c.acked)) &&
  s.xpt.ctxs.all (fun c => c.2.slice ≠ i || c.2.nodeLevel || c.2.held.isEmpty)

/-- Discard a slice's state (R303, R414): name-table entries with their frames and extents, sequence records, leases, Locus entries
and nodes, keys, accumulators, streams, replica records and the replica copies it holds. -/
def State.discardSlice (i : Nat) (s : State) : State :=
  let ks := (s.xpt.regionKeys.filter (fun k => k.2.slice = i)).map Prod.fst
  let ss := (s.xpt.serviceKeys.filter (fun k => k.2.slice = i)).map Prod.fst
  let es := s.home.entries.filter (fun e => e.slice = i)
  let s := es.foldl (fun s e => if e.frameState.onFlash then
      s.freeExtent e.flashDrive e.flashGranule (frameGranules (s.format i)) else s) s
  let s := s.onHome (fun h => { h with
    entries := h.entries.filter (fun e => e.slice ≠ i)
    seqs := h.seqs.filter (fun r => r.slice ≠ i)
    leases := h.leases.filter (fun l => l.2.slice ≠ i)
    accs := h.accs.filter (fun (a : Accumulator) => a.slice ≠ i)
    streams := h.streams.filter (fun (x : Stream) => x.slice ≠ i)
    replicas := h.replicas.filter (fun r => r.slice ≠ i)
    held := h.held.filter (fun r => r.slice ≠ i)
    fills := h.fills.filter (fun f => f.slice ≠ i) })
  let s := s.onLocus (fun l =>
    let mine (a : Nat) : Bool := match l.nodes.get? a with
      | some n => n.slice = i
      | none => false
    { l with entries := l.entries.filter (fun e => !mine e.2.ptr)
             ovf := l.ovf.filter (fun o => o.slice ≠ i)
             nodes := l.nodes.filter (fun n => n.2.slice ≠ i)
             rebuilding := l.rebuilding.filter (· ≠ i) })
  let s := s.onXpt (fun x => { x with
    regionKeys := x.regionKeys.filter (fun k => k.2.slice ≠ i)
    serviceKeys := x.serviceKeys.filter (fun k => k.2.slice ≠ i)
    regionGens := ks.foldl (fun t k => t.set k ((t.getD k {}).finish s.now)) x.regionGens
    serviceGens := ss.foldl (fun t k => t.set k ((t.getD k {}).finish s.now)) x.serviceGens })
  let dead (k : Nat × Span) : Bool := k.2.slice = i && k.2.kind ≠ 7
  let gone (r : Retired) : Bool := !r.flash && s.mem.spans.any (fun k => dead k && k.1 = spanKey r.place (r.granule / 256))
  (s.onMem (fun m => { m with
    spans := m.spans.filter (fun k => !dead k)
    waits := m.waits.filter (fun w => w.slice ≠ i)
    retire := m.retire.map (fun r => (r.1, r.2.filter (fun x => !gone x))) })).clearMark

/-- A slice is removed (R303, R345): its queue pairs are flushed, its state is discarded, its section leaves the configuration. -/
def State.removeSlice (i : Nat) (s : State) : State :=
  let c := s.cfg i
  let s := ((s.flushWhere (fun x => x.slice = i && !x.nodeLevel)).discardSlice i).onSlice i (fun _ => {})
  s.onSch (fun x => { x with
    classes := (c.classes.map Prod.fst).foldl (fun t k => t.erase k) x.classes
    table := (bitsSet c.blocks 32).foldl (fun t b => dropColumn b t) x.table
    staged := (bitsSet c.blocks 32).foldl (fun t b => t.erase b) x.staged
    stagedClasses := (c.classes.map Prod.fst).foldl (fun t k => t.erase k) x.stagedClasses })

/-- The slice stops admission (R303); changes not yet begun are dropped, and the command that asked for them ends. -/
def State.startDrain (i : Nat) (o : Outcome) (s : State) : State :=
  let s := if (s.slice i).state = .recomposing then s.stopChange i .aborted else s
  s.onSlice i (fun x => { x with state := .draining, outcome := o, drainStart := s.now, drainLogged := 0 })

/-- Replace the pending outcome of a drain; the operation that had set the one before ends (R311). -/
def State.replaceOutcome (i : Nat) (o : Outcome) (s : State) : State :=
  let old := (s.slice i).outcome.op
  (s.onSlice i (fun x => { x with outcome := o })).opFail? old .aborted

/-- The pending outcome takes effect (R303, R311). -/
def State.endDrain (i : Nat) (s : State) : State :=
  match (s.slice i).outcome with
  | .disable op => (s.onSlice i (fun x => { x with state := .disabled, outcome := .disable none })).opReady op
  | .enable op none _ _ => ((s.compose i (s.cfg i) (s.slice i).serial (s.slice i).digest none)).opReady op
  | .enable op (some c) serial digest =>
    let s := match op with
      | some k => s.setOp k 2 .ok (s.opProgress k)
      | none => s
    s.compose i c serial digest op
  | .remove op => (s.removeSlice i).opReady op

/-- The flash tier's drain is complete: a latched enable takes effect (R310, R311). -/
def State.endFlashDrain (i : Nat) (s : State) : State :=
  let x := s.slice i
  if x.flashClosing ∧ !s.flashBusy i then
    let op := x.flashPending.bind Prod.snd
    let drives := (x.flashPending.map Prod.fst).getD 0
    (s.onSlice i (fun x => { x with
      flashClosing := false
      flashPending := none
      cfg := { x.cfg with tier := { x.cfg.tier with flashDrives := drives } } })).opReady op
  else s

/-- DRAIN_COMPLETE. -/
def execDrainComplete (slice : Fin 8) (s : State) : Host.Outcome State Fault Refusal :=
  .next (s.whenUp (fun s =>
    let s := s.endFlashDrain slice
    if (s.slice slice).state = .draining ∧ s.drained slice then s.endDrain slice else s))

/-- DRAIN_OPEN_LOG: a drain still open after each second is logged (R305). -/
def execDrainOpenLog (slice : Fin 8) (s : State) : Host.Outcome State Fault Refusal :=
  .next (s.whenUp (fun s =>
    let x := s.slice slice
    let k := (s.now - x.drainStart) / 1000000000
    if x.state = .draining ∧ x.drainLogged < k then
      (s.onSlice slice (fun x => { x with drainLogged := k })).logEvent 94 0x0502 slice 0 k 0 0
    else s))

/-! ## Long operations on slices (R303, R308, R311, R414, R417) -/

/-- A map names a slice of this node in a bucket (R308). -/
def State.mapped (s : State) (i : Nat) : Bool :=
  [s.home.cur, s.home.prev].any (fun m => match m with
    | some m => (m.base = (s.nodeId, i) && m.buckets.length < 65536) || m.buckets.any (fun e => e.2 = (s.nodeId, i))
    | none => false)

/-- SLICE_DISABLE. -/
def execSliceDisable (op : Nat) (s : State) : Host.Outcome State Fault Refusal :=
  .next (s.whenUp (State.runOp 0x02 op (fun o s =>
    let i := o.entry.slice
    match (s.slice i).state with
    | .serving => s.startDrain i (.disable (some op))
    | .recomposing => s.startDrain i (.disable (some op))
    | .draining => s.replaceOutcome i (.disable (some op))
    | _ => s.opFail op .busy)))

/-- SLICE_ENABLE. -/
def execSliceEnable (op : Nat) (s : State) : Host.Outcome State Fault Refusal :=
  .next (s.whenUp (State.runOp 0x03 op (fun o s =>
    let i := o.entry.slice
    match (s.slice i).state with
    | .draining => (s.replaceOutcome i (.enable (some op) none 0 0)).latchOp op
    | .disabled => (s.compose i (s.cfg i) (s.slice i).serial (s.slice i).digest none).opDone op
    | .absent => s.opFail op .busy
    | _ => s.opDone op)))

/-- SLICE_REMOVE. -/
def execSliceRemove (op : Nat) (s : State) : Host.Outcome State Fault Refusal :=
  .next (s.whenUp (State.runOp 0x04 op (fun o s =>
    let i := o.entry.slice
    if s.mapped i then s.opFail op .busy
    else match (s.slice i).state with
      | .serving => s.startDrain i (.remove (some op))
      | .recomposing => s.startDrain i (.remove (some op))
      | .draining => s.replaceOutcome i (.remove (some op))
      | .disabled => (s.removeSlice i).opDone op
      | _ => s.opFail op .busy)))

/-- STATE_PURGE: an ABSENT slice's state in the reserved area and on the drives goes; the progress counts name-table entries. -/
def execStatePurge (op : Nat) (s : State) : Host.Outcome State Fault Refusal :=
  .next (s.whenUp (State.runOp 0x05 op (fun o s =>
    let i := o.entry.slice
    let n := (s.home.entries.filter (fun e => e.slice = i)).length
    if (s.slice i).state = .absent then (s.discardSlice i).endOp op 4 .ok n else s.opFail op .busy)))

/-- Cancel a latched enable: its reservations are released, and the drain ends in DISABLED (R418). (DESIGN CHOICE, log entry 34.) -/
def State.cancelLatch (id : Nat) (s : State) : State :=
  (List.range 8).foldl (fun s i =>
    let s := match (s.slice i).outcome with
      | .enable (some k) _ _ _ => if k = id ∧ (s.slice i).state = SliceState.draining then s.onSlice i (fun x => { x with outcome := .disable none }) else s
      | _ => s
    s.onSlice i (fun x => if x.flashPending.bind Prod.snd = some id then { x with flashPending := none } else x)) s

/-- CANCEL (R418). -/
def execCancel (op : Nat) (s : State) : Host.Outcome State Fault Refusal :=
  .next (s.whenUp (State.runOp 0x0f op (fun o s =>
    match s.host.ops.find? (fun p => p.2.ring = o.entry.param 0 1 && p.2.index = o.entry.param 4 4 && p.1 < op) with
    | none => s.opFail op .miss
    | some (id, t) =>
      if t.state = 1 ∨ (t.entry.op = 1 ∧ !t.pastStep9) then (s.opFail id .aborted).opDone op
      else if t.code = .pendingEnable then ((s.cancelLatch id).opFail id .aborted).opDone op
      else if [0x20, 0x40, 0x41].contains t.entry.op then (s.opFail id .aborted).opDone op
      else s.opFail op .busy)))

end Sys2Proof.Machine
end

