-- ==== Sys2Proof/Machine/Sched.lean ====
section
/-! DEFINITION. The cyclic table and context switches: window boundaries and pre-emption (R314, R317), saves and restores (R318,
R319, R325). -/

namespace Sys2Proof.Machine

/-! ## Pre-emption (R317) -/

/-- Cells that may be pre-empted for a class: they run a group of another class; free shadows come first, then ascending slots. -/
def State.victimCells (s : State) (b cls : Nat) : List Nat :=
  let x := s.block b
  let l := ((s.workingPos b).map Prod.snd).filter (fun p => match (x.cell p).live with
    | some a => a.tg.cls ≠ cls
    | none => false)
  l.filter (fun p => (x.cell p).shadow.isNone) ++ l.filter (fun p => (x.cell p).shadow.isSome)

/-- Pre-empt one cell for a ready group (R318): by exchange with a free shadow, else by a save, after which the group starts; with
the context area full a save does not take place (R319). -/
def State.preemptCell (b p : Nat) (t : TileGroup) (s : State) : State :=
  let c := (s.block b).cell p
  match c.live with
  | none => s
  | some a =>
    if c.shadow.isNone then (s.onBlock b (fun y => { y with ready := y.ready.erase t })).putLive b p (freshAccum t)
    else if s.ctxRoom (b / 4) (liveBytes a.tg) then
      let s := s.onBlock b (fun y => { y with ready := y.ready.erase t })
      let k := s.eng.nextCtx
      let s := (s.saveAccum b p false { slotState := 1 } a).onParked k (fun c => { c with incoming := some t })
      s.onSch (fun x => { x with preemptions := inc32 x.preemptions })
    else s.onSch (fun x => { x with ctxAreaFull := inc32 x.ctxAreaFull })

/-- A cell's live state is already being saved. -/
def State.beingSaved (s : State) (b p : Nat) : Bool := s.eng.ctxs.any (fun c => c.2.saving = some (b, p, false))

/-- Take cells for the ready groups of a class: up to as many as it has groups; a stacked group is taken on all its cells or on
none (R118). -/
def State.preemptFor (b cls : Nat) : List Nat → State → State
  | [], s => s
  | p :: rest, s =>
    let x := s.block b
    match (x.cell p).live with
    | none => s.preemptFor b cls rest
    | some a =>
      let span := x.span a.tg
      let rs := (sortBy (s.before b) x.ready).filter (fun t => t.cls = cls)
      if a.tg.cls = cls ∨ rs.length < span.length ∨ span.any (s.beingSaved b) then s.preemptFor b cls rest
      else
        ((span.zip rs).foldl (fun s y => s.preemptCell b y.1 y.2) s).preemptFor b cls rest

/-- A block observes a boundary (R317): ready groups take the cells that are free, and a guaranteed owner pre-empts for the rest. -/
def State.boundaryAt (b : Nat) (s : State) : State :=
  let s := s.placeReady b
  let o := s.ownerOf b
  if s.mayPreempt b o ∧ ((s.block b).ready.any (fun t => t.cls = o)) then s.preemptFor b o (s.victimCells b o) else s

/-- WINDOW_BOUNDARY: one or more windows have opened since the last boundary observed; at a window 0 staged columns and class records
take effect (R314), joining blocks join (R307), and every block looks at its owner class. -/
def execWindowBoundary (s : State) : Host.Outcome State Fault Refusal :=
  .next (s.whenUp (fun s =>
    let w := s.now / 1000
    if w ≤ s.sch.lastWindow then s
    else
      let zero : Bool := decide (s.sch.lastWindow / 256 < w / 256)
      let s := s.onSch (fun c => { c with lastWindow := w })
      let s := (List.range 8).foldl (fun s i => s.joinBlocks i) s
      let s := if zero then s.applyStaged else s
      (List.range 32).foldl (fun s b => s.boundaryAt b) s))

/-! ## Saves and restores (R318, R321) -/

/-- CONTEXT_SAVE_COMPLETE: the state is in the context area; the shadow is free, or the incoming group starts on the cell. On a stopped
island it completes when the island runs again (R36, R325). -/
def execContextSaveComplete (ctx : Nat) (s : State) : Host.Outcome State Fault Refusal :=
  .next (s.whenUp (fun s =>
    match s.eng.ctxs.get? ctx with
    | none => s
    | some c => match c.saving with
      | none => s
      | some (b, p, true) =>
        if !s.blockUp b then s else ((s.onParked ctx (fun c => { c with saving := none })).onCell b p (fun x => { x with shadow := none, parkedShadow := false })).placeReady b
      | some (b, p, false) =>
        if !s.blockUp b then s else
        let s := (s.onParked ctx (fun c => { c with saving := none, incoming := none })).onCell b p
          (fun x => { x with live := none, vec := [], need := false })
        match c.incoming with
        | some t => (s.putLive b p (freshAccum t)).placeReady b
        | none => s.freed b p))

/-- CONTEXT_RESTORE_COMPLETE: the context is in the cell's shadow; it goes live where the cell is free for its class, by exchange where
another group is live. Where the shadow was taken meanwhile, the context waits for another cell. On a stopped island it completes when
the island runs again (R36, R325). -/
def execContextRestoreComplete (ctx : Nat) (s : State) : Host.Outcome State Fault Refusal :=
  .next (s.whenUp (fun s =>
    match s.eng.ctxs.get? ctx with
    | none => s
    | some c => match c.restoring, c.acc with
      | some (b, p), some a =>
        let x := (s.block b).cell p
        if !s.blockUp b then s
        else if x.shadow.isSome then s.onParked ctx (fun c => { c with restoring := none })
        else
          let s := s.portFirst b p
          let s := (s.onEng (fun e => { e with ctxs := e.ctxs.erase ctx })).countSwitch c.bytes
          if s.cellFree b p c.cls then s.putLive b p a
          else s.onCell b p (fun x => { x with shadow := some a })
      | _, _ => s))

end Sys2Proof.Machine
end

