-- ==== Sys2Proof/Machine/Stream.lean ====
section
/-! DEFINITION. What a configuration bit-stream's bytes say: frames (R326 to R330), section images (R331, R332), the node sections (R333,
R334) and the slice records (R335 to R339). -/

namespace Sys2Proof.Machine

/-! ## Bytes -/

/-- Values of the given byte widths, one after the other, each little-endian (R251, R332). -/
def fieldsOf : List Nat → List Byte → List Nat
  | [], _ => []
  | n :: t, l => fromLe (l.take n) :: fieldsOf t (l.drop n)

/-- `n` consecutive pieces of `k` bytes. -/
def chunksOf (k : Nat) : Nat → List Byte → List (List Byte)
  | 0, _ => []
  | n + 1, l => l.take k :: chunksOf k n (l.drop k)

/-- Every byte is zero. -/
def zeroBytes (l : List Byte) : Bool := l.all (fun b => b = 0)

/-- A length padded to a multiple of 4 bytes (R332). -/
def padded4 (n : Nat) : Nat := cdiv n 4 * 4

/-- An array of 4-bit fields, two to a byte, the lower first (R332). -/
def nibbles (l : List Byte) : List Nat := l.flatMap (fun b => [b.toNat % 16, b.toNat / 16])

/-- The numbers of a bitmap's set bits, byte by byte (R332). -/
def bitmapIndices (l : List Byte) : List Nat :=
  (l.zipIdx).flatMap (fun p => (bitsSet p.1.toNat 8).map (fun i => 8 * p.2 + i))

/-- The entries of an array that are not zero, by index. -/
def nonzeroAt (l : List Nat) : Tbl Nat := ((l.zipIdx).filter (fun p => p.1 ≠ 0)).map (fun p => (p.2, p.1))

/-! ## CRC-32C (R330) -/

/-- `k` bits of the reflected Castagnoli division: 0x82F6_3B78 is 0x1EDC_6F41 with its bits reversed. -/
def crcBits : Nat → Nat → Nat
  | 0, c => c
  | k + 1, c => crcBits k (if c % 2 = 1 then (c / 2) ^^^ 0x82f63b78 else c / 2)

/-- The remainder after the bytes of a list. -/
def crcBytes : List Byte → Nat → Nat
  | [], c => c
  | b :: t, c => crcBytes t (crcBits 8 (c ^^^ b.toNat))

/-- CRC-32C: initial value and final exclusive-or of all ones. -/
def crc32c (l : List Byte) : Nat := crcBytes l 0xffffffff ^^^ 0xffffffff

/-! ## Frames -/

/-- A frame's 4,096 bytes (R326): those beyond the ones that are listed are zero. -/
def frameOf (l : List Byte) : List Byte := l.take 4096 ++ List.replicate (4096 - l.length) 0

/-- A body frame (R329) as step 6 of R340 sees it. -/
def bodyFrame (l : List Byte) : BsFrame :=
  let f := frameOf l
  let len := fromLe ((f.drop 6).take 2)
  { index := fromLe (f.take 4)
    secType := fromLe ((f.drop 4).take 2)
    payloadLen := len
    crcOk := decide (crc32c (f.take 8 ++ [0, 0, 0, 0] ++ f.drop 12) = fromLe ((f.drop 8).take 4))
    clean := zeroBytes ((f.drop 12).take 4) && zeroBytes (f.drop (16 + len)) }

/-- The payload of a body frame. -/
def payload (l : List Byte) : List Byte := ((frameOf l).drop 16).take (fromLe ((l.drop 6).take 2))

/-- The section directory in bytes 128 to 1,151 of the header frame (R327, R331). -/
def directory (h : List Byte) : List BsDir :=
  (chunksOf 16 64 (h.drop 128)).map (fun e => match fieldsOf [2, 2, 4, 4, 4] e with
    | [t, r, f, n, i] => { secType := t, firstFrame := f, secFrames := n, imageLen := i, clean := decide (r = 0) }
    | _ => {})

/-- Reserved bytes of the header frame are zero (R327). -/
def headerClean (h : List Byte) : Bool :=
  zeroBytes ((h.drop 7).take 1) && zeroBytes ((h.drop 20).take 4) && zeroBytes ((h.drop 112).take 16) &&
  zeroBytes ((h.drop 1152).take 2808) && zeroBytes ((h.drop 4092).take 4)

/-- The image of a section: the payloads of its frames, joined in frame order (R332). -/
def sectionImage (frames : List (List Byte)) (dir : List BsDir) (t : Nat) : Option (List Byte) :=
  (dir.find? (fun d => d.secType = t)).map (fun d => ((frames.drop d.firstFrame).take d.secFrames).flatMap payload)

/-! ## Node sections (R333, R334) -/

/-- One port of the NODE section. -/
def portFields (l : List Nat) : PortCfg :=
  { plane := l.getD 0 0, ipAddr := l.getD 1 0, linkHold := l.getD 2 0, lenOverhead := l.getD 3 0, caps := (l.drop 4).take 3, dscp := l.drop 7 }

/-- Bytes of the fields of one port. -/
def portSizes : List Nat := [1, 16, 2, 1, 1, 1, 1] ++ List.replicate 19 1

/-- The NODE section: 339 bytes and their padding. -/
def nodeSection (l : List Byte) : Option NodeCfg :=
  if l.length = 340 ∧ zeroBytes (l.drop 339) then
    some { nodeId := fromLe (l.take 2), portMode := fromLe ((l.drop 2).take 1)
           ports := (chunksOf 42 8 (l.drop 3)).map (fun p => portFields (fieldsOf portSizes p)) }
  else none

/-- One isolation entry: 27 bytes and their padding. -/
def isoFields (l : List Byte) : IsoEntry :=
  match fieldsOf [16, 1, 1, 4, 2, 1, 2] l with
  | [p, n, c, r, g, x, k] => { pfx := p, prefixLen := n, cls := c, ridBase := r, group := g, slices := x, peerNode := k }
  | _ => {}

/-- The ISOLATION section: a count, then the entries, whose padding is zero. -/
def isolationSection (l : List Byte) : Option (Tbl IsoEntry) :=
  let n := fromLe (l.take 4)
  let es := chunksOf 28 n (l.drop 4)
  if n ≤ 16384 ∧ l.length = 4 + 28 * n ∧ es.all (fun e => zeroBytes (e.drop 27)) then
    some ((es.zipIdx).map (fun p => (p.2, isoFields p.1)))
  else none

/-- One group entry (R285). -/
def groupFields (l : List Byte) : GroupCfg :=
  match fieldsOf [4, 2, 1, 1] l with
  | [r, b, q, c] => { gRate := r, gBurst := b, gQueue := q, gCritical := c }
  | _ => {}

/-- The GROUPS section: 4,096 entries, then the class map. Entries that are all zero are the closed groups of R285. (DEDUCED, log entry 69.) -/
def groupsSection (l : List Byte) : Option (Tbl GroupCfg × Tbl Nat) :=
  if l.length = 32768 + 2048 then
    some ((((chunksOf 8 4096 l).zipIdx).filter (fun p => !zeroBytes p.1)).map (fun p => (p.2, groupFields p.1)),
      nonzeroAt (nibbles (l.drop 32768)))
  else none

/-! ## Slice records (R335 to R339) -/

/-- Types that a SLICE section must hold. -/
def requiredRecs : List Nat := [1, 2, 5, 6, 7, 9]

/-- The records of a SLICE section in their order: type and content; none where the image is not such a sequence. `fuel` bounds
their number. -/
def recordsOf : Nat → List Byte → Option (List (Nat × List Byte))
  | 0, l => if l.isEmpty then some [] else none
  | fuel + 1, l =>
    if l.isEmpty then some []
    else
      let n := fromLe ((l.drop 2).take 2)
      if l.length < 4 + n then none
      else (recordsOf fuel (l.drop (4 + n))).map (fun t => (fromLe (l.take 2), (l.drop 4).take n) :: t)

/-- Types rise, are among those of R335, and the required ones are there. -/
def recTypesOk (ts : List Nat) : Bool :=
  ts.all (fun t => 1 ≤ t && t ≤ 9) && (ts.zip (ts.drop 1)).all (fun p => p.1 < p.2) && requiredRecs.all ts.contains

/-- The content of a record; where an optional one is absent, none. -/
def recOf (rs : List (Nat × List Byte)) (t : Nat) : Option (List Byte) := (rs.find? (fun r => r.1 = t)).map Prod.snd

/-- The stack list of RESOURCES; entries beyond `stack_count` are 0xFF (R336). -/
def stackListOf (n : Nat) (l : List Byte) : Option (List Nat) :=
  if 1 ≤ n ∧ n ≤ 8 ∧ (l.drop n).all (fun b => b = 0xff) then some ((l.take n).map BitVec.toNat) else none

/-- RESOURCES (R336). -/
def resourcesRec (l : List Byte) (c : SliceCfg) : Option SliceCfg :=
  if l.length = 48 ∧ zeroBytes (l.drop 40) then
    match fieldsOf [4, 1, 1, 1, 1] l, stackListOf (fromLe ((l.drop 4).take 1)) ((l.drop 8).take 8), fieldsOf [4, 4] (l.drop 32) with
    | [b, _, ph, po, fk], some st, [cd, cl] =>
      some { c with blocks := b, stackList := st, phaseMode := ph, ports := po, flashKeySlot := fk
                    wqSet := fieldsOf [2, 2, 2, 2, 2, 2, 2, 2] (l.drop 16), ctxDie := cd, ctxLimit := cl }
    | _, _, _ => none
  else none

/-- PAGE_FORMAT (R337). -/
def formatRec (l : List Byte) (c : SliceCfg) : Option SliceCfg :=
  let x := fromLe l
  if l.length = 4 ∧ x < 2 ^ 24 then
    some { c with format := { tokensLog2 := bits x 3 0, headsPerGroup := bits x 8 4, headDim := bits x 13 9, keyFormat := bits x 16 14,
                              valueFormat := bits x 19 17, latent := bits x 20 20, hullEnable := bits x 21 21,
                              shadowEnable := bits x 22 22, layout := bits x 23 23 } }
  else none

/-- TIER: the fields of R221, in order; absent, no flash and no copies, and the defaults elsewhere. -/
def tierRec (l : Option (List Byte)) (c : SliceCfg) : Option SliceCfg :=
  match l with
  | none => some { c with tier := {} }
  | some l =>
    if l.length = 28 ∧ zeroBytes (l.drop 26) then
      match fieldsOf [1, 1, 2, 2, 2, 1, 1, 2, 4, 1, 2, 2, 2, 2, 1] l with
      | [lo, hi, age, dr, ml, la, kb, dm, sq, rc, n0, n1, n2, mr, rh] =>
        some { c with tier := { stackLow := lo, stackHigh := hi, demoteMinAge := age, flashDrives := dr, modelLayers := ml, lookahead := la,
                                keepBehind := kb, deadlineMargin := dm, shadowQuota := sq, repCopies := rc, repNodes := [n0, n1, n2],
                                repMinRefs := mr, repHost := rh } }
      | _ => none
    else none

/-- LOCUS: the fields of R169, in order, the tenant values and the bitmap of `public_publish`; absent, no directory. -/
def locusRec (l : Option (List Byte)) (c : SliceCfg) : Option SliceCfg :=
  match l with
  | none => some { c with locus := {} }
  | some l =>
    if l.length = 8816 ∧ zeroBytes (l.drop 8815) then
      match fieldsOf [1, 1, 1, 16, 16] l, fieldsOf [4, 4, 2, 2] (l.drop 99) with
      | [fb, n, w, k, kb], [nq, oq, ttl, idle] =>
        some { c with locus := {
          firstBlock := fb, blocks := n, wide := w, key := k, keyB := kb
          modelEpochs := (fieldsOf (List.replicate 8 8) (l.drop 35)).filter (· ≠ 0)
          nodeQuota := nq, ovfQuota := oq, refTtl := ttl, idleMax := idle
          tenant := nonzeroAt ((chunksOf 2 4096 (l.drop 111)).map fromLe)
          publicPublish := bitmapIndices ((l.drop 8303).take 512) } }
      | _, _ => none
    else none

/-- QUOTAS. -/
def quotasRec (l : List Byte) (c : SliceCfg) : Option SliceCfg :=
  if l.length = 12 ∧ zeroBytes (l.drop 11) then
    match fieldsOf [4, 4, 2, 1] l with
    | [e, a, t, x] => some { c with entryQuota := e, accQuota := a, tombTtl := t, extOutstanding := x }
    | _ => none
  else none

/-- CLASSES: 6 bytes per class in ascending class number (R338). -/
def classesRec (l : List Byte) (c : SliceCfg) : Option SliceCfg :=
  let n := l.length / 6
  let ks := (chunksOf 6 n l).map (fun e => match fieldsOf [1, 1, 1, 1, 2] e with
    | [k, v, i, g, m] => (k, ({ valid := v, slice := i, guaranteed := g, pendingMax := m } : ClassRec))
    | _ => (0, {}))
  if l.length = padded4 (6 * n) ∧ zeroBytes (l.drop (6 * n)) ∧ (ks.zip (ks.drop 1)).all (fun p => p.1.1 < p.2.1) then
    some { c with classes := ks }
  else none

/-- TABLE: a column of 256 windows for each block of `blocks` (R338). -/
def tableRec (l : List Byte) (c : SliceCfg) : Option SliceCfg :=
  let bs := bitsSet c.blocks 32
  if l.length = 128 * bs.length then some { c with table := bs.zip ((chunksOf 128 bs.length l).map nibbles) } else none

/-- The weighted queues of the ports, in ascending port and then ascending queue. -/
def weightedQueues (c : SliceCfg) : List (Nat × Nat) :=
  (List.range 8).flatMap (fun p => (bitsSet (c.wqSet.getD p 0) 16).map (fun q => (p, q)))

/-- EGRESS: a weight for each weighted queue; absent, weight 1 for every one (R335, R338). -/
def egressRec (l : Option (List Byte)) (c : SliceCfg) : Option SliceCfg :=
  let qs := weightedQueues c
  match l with
  | none => some { c with weights := [] }
  | some l =>
    if l.length = padded4 qs.length ∧ zeroBytes (l.drop qs.length) then
      some { c with weights := (qs.zip l).foldl (fun t x => t.update x.1.1 [] (fun w => w.set x.1.2 x.2.toNat)) [] }
    else none

/-- MICROCODE: three variant numbers (R339). -/
def microcodeRec (l : List Byte) (c : SliceCfg) : Option SliceCfg :=
  if l.length = 4 ∧ zeroBytes (l.drop 3) then some { c with microcode := (l.take 3).map BitVec.toNat } else none

/-- A SLICE section: its records in ascending type, each decoded over the defaults of R335. -/
def sliceSection (l : List Byte) : Option SliceCfg := do
  let rs ← recordsOf 10 l
  if recTypesOk (rs.map Prod.fst) then
    let get (t : Nat) := (recOf rs t).getD []
    let c ← resourcesRec (get 1) {}
    let c ← formatRec (get 2) c
    let c ← tierRec (recOf rs 3) c
    let c ← locusRec (recOf rs 4) c
    let c ← quotasRec (get 5) c
    let c ← classesRec (get 6) c
    let c ← tableRec (get 7) c
    let c ← egressRec (recOf rs 8) c
    microcodeRec (get 9) c
  else none

/-! ## The whole -/

/-- What the bytes of a bit-stream say (R326 to R339): header fields, directory, body frames, and the records of its sections;
`recordsOk` where every section that the directory names decodes. -/
def readStream (im : BsImage) : Bitstream :=
  let h := frameOf (im.frames.headD [])
  let dir := directory h
  let img (t : Nat) : Option (List Byte) := sectionImage im.frames dir t
  let n := (img 1).map nodeSection
  let iso := (img 2).map isolationSection
  let grp := (img 3).map groupsSection
  let sl := (List.range 8).filterMap (fun i => (img (0x10 + i)).map (fun l => (i, sliceSection l)))
  match fieldsOf [4, 1, 1, 1, 1, 4, 4, 4, 4, 8, 8, 64, 8] h with
  | [magic, level, kind, target, _, count, serial, base, _, bind, _, digest, signer] =>
    { magic := magic, archLevel := level, kind := kind, targetSlice := target, frameCount := count, serial := serial, baseSerial := base
      bindIdentity := bind, bodyDigest := digest, signerId := signer, signedBy := im.signedBy, reserved := !headerClean h
      dir := dir, frames := (im.frames.drop 1).map bodyFrame, digestOk := im.digestOk
      recordsOk := n ≠ some none && iso ≠ some none && grp ≠ some none && sl.all (fun x => x.2.isSome)
      node := (n.getD none).getD {}, isolation := (iso.getD none).getD []
      groups := ((grp.getD none).getD ([], [])).1, classMap := ((grp.getD none).getD ([], [])).2
      slices := sl.map (fun x => (x.1, x.2.getD {})) }
  | _ => {}

end Sys2Proof.Machine
end

