-- ==== Sys2Proof/Machine/Loads.lean ====
section
/-! DEFINITION. BITSTREAM_LOAD: the nine checks of R340, in order, and what an accepted bit-stream does (R341 to R345). -/

namespace Sys2Proof.Machine

/-- The first 8 bytes of a SHA-512 value, which the model holds as the little-endian number of its bytes (R327). (DESIGN CHOICE, log entry 42.) -/
def first8 (digest : Nat) : Nat := digest % 2 ^ 64

/-- Step 1: the header's fields (R327, R346). -/
def bsHeaderOk (n : Nat) (b : Bitstream) : Bool :=
  b.magic = 0x5a3e3133 && b.archLevel = 3 && b.kind ≤ 1 && (2 ≤ b.frameCount && b.frameCount ≤ 4096) && b.frameCount = n &&
  b.targetSlice < 8 && (b.kind = 1 || (b.targetSlice = 0 && b.baseSerial = 0)) && !b.reserved

/-- Step 3: the signer is a configuration-signing key and the signature is its own (R328). (DEDUCED, log entry 56.) -/
def State.bsSigned (s : State) (b : Bitstream) : Bool :=
  match s.sec.manifest with
  | some m => m.cfgKeys.any (fun k => first8 k = b.signerId && k = b.signedBy)
  | none => false

/-- Section types of a bit-stream kind (R331). -/
def secAllowed (b : Bitstream) (t : Nat) : Bool :=
  if b.kind = 0 then t = 1 || t = 2 || t = 3 || (0x10 ≤ t && t < 0x18) else t = 0x10 + b.targetSlice

/-- Used directory entries. -/
def Bitstream_used (b : Bitstream) : List BsDir := b.dir.filter (fun d => d.secType ≠ 0)

/-- The sections cover the body frames in order, each once. -/
def coverFrom : Nat → List BsDir → Option Nat
  | f, [] => some f
  | f, d :: t => if d.firstFrame = f ∧ 1 ≤ d.secFrames then coverFrom (f + d.secFrames) t else none

/-- Step 4: the directory (R331). -/
def bsDirOk (b : Bitstream) : Bool :=
  let used := Bitstream_used b
  let types := used.map BsDir.secType
  b.dir.length ≤ 64 && b.dir.take used.length = used && b.dir.all (·.clean) &&
  (b.dir.drop used.length).all (fun d => d.firstFrame = 0 && d.secFrames = 0 && d.imageLen = 0) &&
  types.all (secAllowed b) && types.Nodup && coverFrom 1 used = some b.frameCount &&
  (if b.kind = 0 then types.contains 1 && types.contains 2 && types.contains 3 else types = [0x10 + b.targetSlice])

/-- The directory entry of a frame. -/
def dirOf (b : Bitstream) (i : Nat) : Option BsDir :=
  (Bitstream_used b).find? (fun d => d.firstFrame ≤ i && i < d.firstFrame + d.secFrames)

/-- Step 6 for one frame (R329 to R331). -/
def bsFrameOk (b : Bitstream) (i : Nat) (f : BsFrame) : Bool :=
  match dirOf b i with
  | none => false
  | some d =>
    f.index = i && f.secType = d.secType && f.crcOk && f.clean &&
    (if i + 1 = d.firstFrame + d.secFrames then
       1 ≤ f.payloadLen && f.payloadLen ≤ 4080 && (d.secFrames - 1) * 4080 + f.payloadLen = d.imageLen
     else f.payloadLen = 4080)

/-- The first body frame that fails step 6, if one does. -/
def bsBadFrame (b : Bitstream) : Option Nat :=
  (List.range (b.frameCount - 1)).findSome? (fun k => match b.frames[k]? with
    | some f => if bsFrameOk b (k + 1) f then none else some (k + 1)
    | none => some (k + 1))

/-! ## Step 8 (R45, R169, R221, R273, R275, R291, R298, R301, R312, R314, R335 to R339) -/

/-- Ports that a `port_mode` creates (R273). -/
def modePorts (m : Nat) : Nat := [2, 4, 8].getD m 0

/-- A port that `port_mode` does not create is all zero (R333). -/
def portZero (p : PortCfg) : Bool :=
  p.plane = 0 && p.ipAddr = 0 && p.linkHold = 0 && p.lenOverhead = 0 && p.caps.all (· = 0) && p.dscp.all (· = 0)

/-- The NODE section. -/
def nodeCfgOk (n : NodeCfg) : Bool :=
  let k := modePorts n.portMode
  let ps := n.ports.take k
  n.nodeId < 2 ^ 14 && n.portMode ≤ 2 && n.ports.length = 8 && (n.ports.drop k).all portZero &&
  ps.all (fun p => p.plane < 8 && p.ipAddr < 2 ^ 128 && (1 ≤ p.linkHold && p.linkHold ≤ 1000) && p.lenOverhead < 256 &&
    p.caps.length = 3 && p.caps.sum ≤ 90 && p.dscp.length = 19 && p.dscp.all (· < 64)) &&
  (ps.map PortCfg.plane).Nodup

/-- The tier policy (R221). -/
def tierOk (t : TierPolicy) : Bool :=
  (1 ≤ t.stackLow && t.stackLow ≤ 50) && (t.stackLow < t.stackHigh && t.stackHigh ≤ 60) && t.demoteMinAge < 65536 &&
  t.flashDrives < 65536 && t.modelLayers < 4096 && t.lookahead < 16 && t.keepBehind < 16 && t.deadlineMargin ≤ 1000 &&
  t.shadowQuota < 2 ^ 32 && t.repCopies ≤ 3 && t.repNodes.length = 3 && t.repNodes.all (· < 2 ^ 14) && t.repMinRefs < 65536 &&
  t.repHost ≤ 1

/-- The Locus parameters (R169). -/
def locusOk (l : LocusCfg) : Bool :=
  l.firstBlock + l.blocks ≤ 16 && l.wide ≤ 1 && (l.wide = 0 || (l.firstBlock % 2 = 0 && l.blocks % 2 = 0)) &&
  l.key < 2 ^ 128 && l.keyB < 2 ^ 128 && l.modelEpochs.length ≤ 8 && l.modelEpochs.all (fun e => e ≠ 0 && e < 2 ^ 64) &&
  l.nodeQuota < 2 ^ 32 && l.ovfQuota < 2 ^ 32 && (1 ≤ l.refTtl && l.refTtl < 65536) && l.idleMax < 65536 &&
  l.tenant.all (fun t => t.1 < 4096 && t.2 < 65536) && l.publicPublish.all (· < 4096)

/-- The records of one SLICE section, within itself. -/
def sliceCfgOk (i : Nat) (ports : Nat) (c : SliceCfg) : Bool :=
  c.blocks ≠ 0 && c.blocks < 2 ^ 32 && (1 ≤ c.stackList.length && c.stackList.length ≤ 8) && c.stackList.Nodup &&
  c.stackList.all (· < 8) && c.phaseMode ≤ 2 && c.ports ≠ 0 && c.ports < 2 ^ ports && c.flashKeySlot < 64 &&
  c.wqSet.length = 8 && (List.range 8).all (fun p => decide (c.wqSet.getD p 0 < 65536) && (decide (c.wqSet.getD p 0 ≠ 0) == bit c.ports p)) &&
  c.ctxDie ≤ 65536 && (1 ≤ c.ctxLimit && c.ctxLimit ≤ 4194302) && pageFormatOk c.format && tierOk c.tier && locusOk c.locus &&
  c.entryQuota < 2 ^ 32 && c.accQuota < 2 ^ 32 && (1 ≤ c.tombTtl && c.tombTtl < 65536) &&
  (1 ≤ c.extOutstanding && c.extOutstanding ≤ 64) &&
  !c.classes.isEmpty && c.classes.all (fun k => k.1 < 16 && k.2.valid = 1 && k.2.slice = i && k.2.guaranteed ≤ 1 &&
    1 ≤ k.2.pendingMax && k.2.pendingMax < 65536) &&
  c.table.map Prod.fst = bitsSet c.blocks 32 &&
  c.table.all (fun t => t.2.length = 256 && t.2.all (fun o => (c.classes.get? o).isSome)) &&
  (List.range 8).all (fun p => (c.weights.getD p []).all (fun w => bit (c.wqSet.getD p 0) w.1 && 1 ≤ w.2 && w.2 < 256)) &&
  c.microcode.length = 3

/-- The variants are in the catalogue of the image that runs (R339). -/
def State.microcodeOk (s : State) (c : SliceCfg) : Bool :=
  match s.sec.running with
  | some im => (c.microcode.zipIdx).all (fun v => im.catalogue.contains (v.2, v.1))
  | none => false

/-- No resource is claimed twice within a full bit-stream (R340). -/
def claimsOk (sl : Tbl SliceCfg) : Bool :=
  let cs := sl.map Prod.snd
  (cs.flatMap (fun c => bitsSet c.blocks 32)).Nodup && (cs.flatMap SliceCfg.stackList).Nodup &&
  (cs.flatMap (fun c => (List.range 16).filter (inCascade c.locus))).Nodup && (cs.flatMap (fun c => c.classes.map Prod.fst)).Nodup &&
  (cs.flatMap (fun c => (List.range 8).flatMap (fun p => (bitsSet (c.wqSet.getD p 0) 16).map (fun q => p * 16 + q)))).Nodup &&
  (cs.map SliceCfg.ctxDie).sum ≤ 65536 && (cs.map SliceCfg.ctxLimit).sum ≤ 4194302

/-- The sections that the directory names are those that the bit-stream carries. -/
def sectionsOk (b : Bitstream) : Bool :=
  b.slices.map Prod.fst = (List.range 8).filter (fun i => (Bitstream_used b).any (fun d => d.secType = 0x10 + i))

/-- Step 8. -/
def State.bsRecordsOk (s : State) (b : Bitstream) : Bool :=
  if b.kind = 0 then
    let k := modePorts b.node.portMode
    b.recordsOk && sectionsOk b && nodeCfgOk b.node && b.isolation.length ≤ 16384 && b.isolation.all (fun e => e.1 < 16384 && isoOk e.2) &&
    b.groups.all (fun g => g.1 < 4096 && groupOk g.2) && b.classMap.all (fun g => g.1 < 4096 && g.2 < 16) &&
    b.slices.all (fun c => sliceCfgOk c.1 k c.2 && s.microcodeOk c.2 && queuesOk b.isolation (fun g => b.groups.getD g {}) c.1 c.2) &&
    claimsOk b.slices
  else
    b.recordsOk && sectionsOk b &&
    b.slices.all (fun c => sliceCfgOk c.1 (modePorts s.sch.node.portMode) c.2 && s.microcodeOk c.2 &&
      queuesOk s.xpt.isolation (fun g => (s.group g).cfg) c.1 c.2)

/-! ## Step 9 (R342, R344) -/

/-- Entries that an ABSENT slice left in the reserved area are of the section's page format (R342). -/
def State.formatKept (s : State) (i : Nat) (c : SliceCfg) : Bool := !s.hasEntries i || (s.cfg i).format = c.format

/-- Step 9 for a partial bit-stream. -/
def State.bsState (s : State) (i : Nat) (c : SliceCfg) : Code :=
  match (s.slice i).state with
  | .absent => Code.first [(!s.idleFor i c || !s.ctxSums i c, .busy), (!s.formatKept i c, .formatError)]
  | .serving => s.changeCode i c
  | .composing => .busy
  | .recomposing => .busy
  | .draining => s.changeCode i c
  | .disabled => s.changeCode i c

/-- Step 9. -/
def State.bsStep9 (s : State) (b : Bitstream) : Code :=
  if b.kind = 0 then
    Code.first [(s.sch.slices.any (fun x => x.state ≠ .absent), .busy),
      (b.slices.any (fun c => !s.formatKept c.1 c.2), .formatError)]
  else match b.slices with
    | (i, c) :: _ => s.bsState i c
    | [] => .formatError

/-- Steps 1 to 8: the first that fails, with its code and the frame where there is one. -/
def State.bsCheck (s : State) (n : Nat) (b : Bitstream) : Option (Nat × Code × Nat) :=
  if !bsHeaderOk n b then some (1, .formatError, 0)
  else if b.bindIdentity ≠ 0 ∧ b.bindIdentity ≠ first8 s.sec.identityKey then some (2, .rightsFault, 0)
  else if !s.bsSigned b then some (3, .rightsFault, 0)
  else if !bsDirOk b then some (4, .formatError, 0)
  else if b.kind = 1 ∧ !(s.sch.bsLoaded ∧ b.baseSerial = s.sch.bsSerial) then some (5, .formatError, 0)
  else match bsBadFrame b with
    | some f => some (6, .formatError, f)
    | none =>
      if !b.digestOk then some (7, .rightsFault, 0)
      else if !s.bsRecordsOk b then some (8, .formatError, 0)
      else none

/-! ## Loading -/

/-- Lanes of a port (R273). -/
def portLanes (mode p : Nat) : Nat :=
  match mode with
  | 0 => 0xff * 2 ^ (8 * p)
  | 1 => 0xf * 2 ^ (4 * p)
  | _ => 0x3 * 2 ^ (2 * p)

/-- A drive whose header names another node is not used until it is formatted; it is logged (R227, R228). -/
def State.judgeDrives (s : State) : State :=
  s.mem.drives.foldl (fun s d =>
    let f := d.2.formatted && decide (d.2.headerNode ≠ s.nodeId)
    let s := if f && !d.2.foreign && d.2.present then s.logEvent 94 0x0301 0xff 0 d.1 0 0 else s
    s.onDrive d.1 (fun x => { x with foreign := f })) s |>.capDrives

/-- The NODE section sets node ID and ports; a port whose lanes change trains (R273, R342, R440); a port with a retired lane that has
no spare stays down (R279). -/
def State.loadNode (n : NodeCfg) (s : State) : State :=
  let s := (s.onSch (fun c => { c with node := n })).judgeDrives
  let s := s.onEth (fun e => { e with ports := (e.ports.zipIdx).map (fun x =>
    if x.2 < modePorts n.portMode then
      let lanes := portLanes n.portMode x.2
      if x.1.lanes = lanes ∧ x.1.mode = 3 - n.portMode then { x.1 with cfg := n.ports.getD x.2 {} }
      else { mode := 3 - n.portMode, cfg := n.ports.getD x.2 {}, lanes := lanes, training := true, capAt := s.now }
    else {}) })
  let bad (l : Nat) : Bool := s.eth.lanesRetired.contains l && s.spareOf l ≠ some l
  (List.range 8).foldl (fun s p =>
    if (s.port p).mode ≠ 0 ∧ (List.range 16).any (fun l => bit (s.port p).lanes l && bad l) then
      (s.onPort p (fun x => { x with training := false })).onRas (fun r => { r with
        portsWithdrawn := if r.portsWithdrawn.contains p then r.portsWithdrawn else r.portsWithdrawn ++ [p] })
    else s) s

/-- ISOLATION and GROUPS (R334): the tables of the bit-stream replace those in force; a changed group's tokens are cut at its next
refill (R285). -/
def State.loadTables (b : Bitstream) (s : State) : State :=
  let s := (s.onXpt (fun x => { x with isolation := b.isolation })).onSch (fun c => { c with classMap := b.classMap })
  let keys := (s.eth.groups.map Prod.fst ++ b.groups.map Prod.fst).eraseDups
  keys.foldl (fun s g => (s.refillGroup g).onGroup g (fun x => { x with cfg := b.groups.getD g {} })) s

/-- A full bit-stream takes effect (R342); the operation ends when every slice serves. -/
def State.loadFull (op : Nat) (b : Bitstream) (s : State) : State :=
  let s := s.clearMark.onSch (fun c => { c with bsSerial := b.serial, bsDigest := b.bodyDigest, bsLoaded := true })
  let s := (s.loadNode b.node).loadTables b
  let s := b.slices.foldl (fun s c => s.compose c.1 c.2 b.serial b.bodyDigest (some op)) s
  s.opReady (some op)

/-- A partial bit-stream takes effect on its slice (R344). -/
def State.loadPartial (op : Nat) (b : Bitstream) (s : State) : State :=
  match b.slices with
  | [] => s
  | (i, c) :: _ =>
    match (s.slice i).state with
    | .serving =>
      if c = s.cfg i then
        (s.clearMark.onSlice i (fun x => { x with serial := b.serial, digest := b.bodyDigest })).opDone op
      else s.recompose i c b.serial b.bodyDigest op
    | .draining => (s.replaceOutcome i (.enable (some op) (some c) b.serial b.bodyDigest)).latchOp op
    | _ => s.compose i c b.serial b.bodyDigest (some op)

/-- The load has passed step 9: its staging lines are released (R341). -/
def State.pastStep9 (op : Nat) (s : State) : State :=
  s.onHost (fun h => { h with ops := h.ops.modify op (fun o => { o with pastStep9 := true, staged := none }) })

/-- The frames of a bit-stream are read, each once, into page-buffer lines of the lowest-numbered region that is not fenced; the progress
counts them (R341, R414). With no such region the load ends ABORTED. (DESIGN CHOICE, log entry 70.) -/
def State.stageLoad (op : Nat) (im : BsImage) (s : State) : State :=
  match (List.range 8).find? (fun n => !s.stackFenced n) with
  | none => s.opFail op .aborted
  | some n => (s.onHost (fun h => { h with ops := h.ops.modify op (fun o => { o with
      staged := some (n, im), progress := im.frames.length }) })).lendLines n

/-- A bit-stream is refused: nothing is changed; the failed step and frame are logged (R340, R424). -/
def State.refuseLoad (op tag step : Nat) (c : Code) (frame : Nat) (s : State) : State :=
  (s.logEvent 94 0x0501 0xff c.num step frame tag).opFail op c

/-- Step 9 of a staged bit-stream, and what it does when it passes (R340); step 9 waits for the stacks (R431). -/
def State.finishLoad (op : Nat) (o : LongOp) (im : BsImage) (s : State) : State :=
  let b := readStream im
  if !s.aon.stacksUp then s
  else match s.bsStep9 b with
    | .ok =>
      let s := s.pastStep9 op
      if b.kind = 0 then s.loadFull op b else s.loadPartial op b
    | e => s.refuseLoad op o.entry.opTag 9 e 0

/-- BITSTREAM_LOAD; none where a DMA read of the buffer completes with an error (R419). Frames that have been read and have passed
steps 1 to 8 are neither read nor checked again (R341, R404). -/
def execBitstreamLoad (op : Nat) (b : Option BsImage) (s : State) : Host.Outcome State Fault Refusal :=
  .next (s.whenUp (State.runOp 0x01 op (fun o s =>
    match o.staged, b with
    | some x, _ => s.finishLoad op o x.2
    | none, none => s.opFail op .aborted
    | none, some im =>
      let t := s.stageLoad op im
      if (t.op op).isNone then t
      else match t.bsCheck (o.entry.param 0 4) (readStream im) with
        | some f => t.refuseLoad op o.entry.opTag f.1 f.2.1 f.2.2
        | none => t.finishLoad op o im)))

end Sys2Proof.Machine
end

