-- ==== Sys2Proof/Machine/Power.lean ====
section
/-! DEFINITION. Apex: performance states (R373, R374), the energy model and its accounts (R376, R384), measurement and divergence
(R377, R378), limits and throttle episodes (R379 to R382), caps and shifts (R383), regulator and coolant faults (R385, R386), the
persistence flush (R387, R435), and the loss of Apex (R388). -/

namespace Sys2Proof.Machine

/-! ## Caps (R383) -/

/-- `cap_host` in force: a value outside 300 to 760 acts as the nearer bound (R390). -/
def Pwr.hostCap (p : Pwr) : Nat := max 300 (min 760 p.capHost)

/-- The shift in force: its cap and its end. -/
def State.shift (s : State) : Option (Nat × Nat) := s.pwr.shift.filter (fun x => s.now < x.2)

/-- The effective cap in W. -/
def State.cap (s : State) : Nat := match s.shift with
  | some x => x.1
  | none => s.pwr.hostCap

/-- The ranges of a shift's payload. -/
def shiftOk (capW ms : Nat) : Bool := 300 ≤ capW && capW ≤ 760 && ms ≤ 3600000

/-- Order a shift; 0 ms ends the one in force. -/
def State.setShift (capW ms : Nat) (s : State) : State :=
  s.onPwr (fun p => { p with shift := if ms = 0 then none else some (capW, s.now + ms * 1000000) })

/-- POWER_SHIFT: the response carries the effective cap, the 1 ms average of measured package power and the state. -/
def execPowerShift (h : ExtHdr) (c : Cert) (capW ms : Nat) (s : State) : Host.Outcome State Fault Refusal :=
  .next (s.whenUp (State.manage h (.powerShift h c capW ms) 2 6 (shiftOk capW ms) c (fun _ => .ok) (fun s =>
    let t := s.setShift capW ms
    (.ok, .shift t.cap ((t.pwr.core.meas + t.pwr.stack.meas) / 1000) t.pwr.pstate, t))))

/-- SHIFT_EXPIRY. -/
def execShiftExpiry (s : State) : Host.Outcome State Fault Refusal :=
  .next (s.whenUp (fun s => s.onPwr (fun p => { p with shift := s.shift })))

/-! ## Throttle episodes (R380) -/

/-- An episode of a reason and scope is open. -/
def State.throttled (s : State) (reason scope : Nat) : Bool := s.pwr.episodes.any (fun e => e.reason = reason && e.scope = scope)

/-- A limit binds: its episode opens, and vector 66 is raised (R420). -/
def State.openEpisode (reason scope : Nat) (s : State) : State :=
  if s.throttled reason scope then s
  else
    let e : Throttle := { reason := reason, scope := scope, stamp := s.now, lowest := s.pwr.pstate,
                          capSource := b2n s.shift.isSome, capW := s.cap, peakW := s.pwr.p10 / 1000 }
    (s.onPwr (fun p => { p with episodes := p.episodes ++ [e] })).raise 2

/-- The record of an episode (R380). -/
def Throttle.record (now : Nat) (e : Throttle) : List Byte :=
  leBytes 8 e.stamp ++ leBytes 8 (now - e.stamp) ++ leBytes 1 e.reason ++ leBytes 1 e.lowest ++ leBytes 1 e.scope ++
  leBytes 1 e.capSource ++ leBytes 2 e.capW ++ leBytes 2 e.peakW ++ leBytes 8 0

/-- The limit no longer binds: the episode is logged and added to its reason's totals. -/
def State.closeEpisode (reason scope : Nat) (s : State) : State :=
  match s.pwr.episodes.find? (fun e => e.reason = reason && e.scope = scope) with
  | none => s
  | some e =>
    (s.onPwr (fun p => { p with
      episodes := p.episodes.filter (fun x => !(x.reason = reason && x.scope = scope))
      thrNs := p.thrNs.update reason 0 (· + (s.now - e.stamp))
      thrCount := p.thrCount.update reason 0 inc16 })).logPut { kind := 2, island := 96, record := e.record s.now }

/-- Open or close an episode as its limit binds or not. -/
def State.setEpisode (reason scope : Nat) (binds : Bool) (s : State) : State :=
  if binds then s.openEpisode reason scope else s.closeEpisode reason scope

/-- Open episodes follow the state and the power reached. -/
def Pwr.track (p : Pwr) : Pwr :=
  { p with episodes := p.episodes.map (fun e =>
      { e with lowest := max e.lowest p.pstate, peakW := max e.peakW (p.p10 / 1000) }) }

/-! ## Performance states (R373, R374) -/

/-- Region clocks follow the block clock where no window is active (R148). -/
def State.syncClocks (s : State) : State := (List.range 8).foldl (fun s n => s.syncRegionClk n) s

/-- Move down to a state: the clocks fall first. -/
def State.fallTo (n : Nat) (s : State) : State :=
  if s.pwr.pstate < n then
    (s.onPwr (fun p => Pwr.track { p with pstate := n, blockClk := max p.blockClk n, settling := true })).syncClocks
  else s

/-- One state down. -/
def State.stepDown (s : State) : State := s.fallTo (min 7 (s.pwr.pstate + 1))

/-- The emergency response: P7 directly. -/
def State.goP7 (s : State) : State := s.fallTo 7

/-- One state up: the voltage rises first. -/
def State.stepUp (s : State) : State :=
  s.onPwr (fun p => { p with pstate := p.pstate - 1, settling := true, lastUp := s.now })

/-- VOLTAGE_SETTLED: the clocks reach the state's values, a region's once no window is active in it. -/
def execVoltageSettled (s : State) : Host.Outcome State Fault Refusal :=
  .next (s.whenUp (fun s => (s.onPwr (fun p => { p with settling := false, blockClk := p.pstate })).syncClocks))

/-! ## The energy model (R376, R384) -/

/-- Σ count × coefficient. -/
def dotNat (c a : List Nat) : Nat := (List.zipWith (· * ·) c a).sum

/-- Core energy of an interval in fJ: the coefficients scaled by (V / 0.80 V)², and leakage as the fused table gives it. -/
def Pwr.coreEnergy (p : Pwr) (a : Activity) : Nat :=
  dotNat p.coreCoef a.core * (p.vdd * p.vdd) / 640000 + a.core.getD 11 0

/-- Stack energy of an interval in fJ. -/
def Pwr.stackEnergy (p : Pwr) (a : Activity) : Nat := dotNat p.stackCoef a.stack + a.stack.getD 4 0

/-- Energy as a part's divergence charges it: times measured / model while it is raised. -/
def Diverge.charge (d : Diverge) (e : Nat) : Nat := if d.raised && d.model ≠ 0 then e * d.meas / d.model else e

/-- A slice owns a resource of an island: a block, a stack's controller or PHY, a Locus block (R35, R298). -/
def SliceS.ownsIsland (x : SliceS) (n : Nat) : Bool :=
  x.state ≠ .absent &&
    (if n < 32 then bit x.cfg.blocks n
     else if 40 ≤ n ∧ n < 56 then x.cfg.stackList.contains (n % 8)
     else if 78 ≤ n ∧ n < 86 then
       x.cfg.locus.firstBlock ≤ 2 * (n - 78) + 1 && decide (2 * (n - 78) < x.cfg.locus.firstBlock + x.cfg.locus.blocks)
     else false)

/-- The account of an island: the one slice that owns it, else the node's (R384). (DEDUCED, log entry 71.) -/
def State.islandAccount (s : State) (n : Nat) : Nat :=
  match (List.range 8).filter (fun i => (s.slice i).ownsIsland n) with
  | [i] => i
  | _ => 8

/-- The slices that list a port. -/
def State.portSlices (s : State) (p : Nat) : List Nat :=
  (List.range 8).filter (fun i => (s.slice i).state ≠ .absent && bit (s.cfg i).ports p)

/-- The parts of an energy that each account takes (R384): a port that slices share is charged by their bytes on it, the remainder of
the division and a port without bytes to the node account. (DEDUCED, log entry 71.) -/
def State.shares (s : State) (e : Nat) : EnergySource → List (Nat × Nat)
  | .work i => [((i : Nat), e)]
  | .island n => [(s.islandAccount n, e)]
  | .node => [(8, e)]
  | .port p bytes =>
    match s.portSlices p with
    | [i] => [(i, e)]
    | l =>
      let total := (l.map (fun i => bytes.getD i 0)).sum
      let parts := l.map (fun i => (i, e * bytes.getD i 0 / max 1 total))
      parts ++ [(8, e - (parts.map Prod.snd).sum)]

/-- Add an interval's energy to its accounts. -/
def State.account (a : Activity) (s : State) : State :=
  let e := s.pwr.core.charge (s.pwr.coreEnergy a) + s.pwr.stack.charge (s.pwr.stackEnergy a)
  (s.shares e a.source).foldl (fun s x => s.onPwr (fun p => { p with energy := p.energy.modify x.1 (· + x.2) })) s

/-- Power in mW of an energy in fJ spent in 10 µs. -/
def powerOf (fJ : Nat) : Nat := fJ / 10000000

/-- A part's input to the limits: the larger of model and measurement while its divergence is raised (R378). -/
def Diverge.input (d : Diverge) (model measured : Nat) : Nat := if d.raised then max model measured else model

/-! ## Limits (R379) -/

/-- Phases lost without a spare (R356). -/
def Ras.phasesLost (r : Ras) : Nat := 32 - r.phasesOn.length

/-- I_lim in mA. -/
def Ras.currentLimit (r : Ras) : Nat := 780000 - 24375 * r.phasesLost

/-- Core current in mA of a core input in mW. -/
def Pwr.currentOf (p : Pwr) (mW : Nat) : Nat := mW * 1000 / p.vdd

/-- Mean of the inputs, or of the model, over the last 100 ms. -/
def mean (l : List Nat) : Nat := l.sum / max 1 l.length

/-- What the limits see of one interval: the core input, P_10, P_100ms, and since when P_10 is above the cap. -/
structure Load where
  core : Nat
  p10 : Nat
  p100 : Nat
  since : Option Nat
deriving DecidableEq, Repr

/-- The limits of R379 that bind on a load, by their reason. -/
def State.binding (s : State) (x : Load) : List Nat :=
  let i := s.pwr.currentOf x.core
  (if s.cap * 1000 < x.p100 then [1] else []) ++
  (match x.since with
    | some t => if s.cap * 1000 < x.p10 ∧ t + 4000000 ≤ s.now then [2] else []
    | none => []) ++
  (if 950000 < x.p10 then [3] else []) ++
  (if s.ras.currentLimit < i then [if i ≤ 780000 then 8 else 4] else [])

/-- The reasons recorded: MODEL_DIVERGENCE for a limit that binds on the input and not on the model (R378). (DEDUCED, log entry 43.) -/
def reasonsOf (input model : List Nat) : List Nat :=
  input.filter model.contains ++ (if input.all model.contains then [] else [7])

/-- Nothing holds the node at P7 (R385, R386, R388). -/
def State.upAllowed (s : State) : Bool := !s.throttled 10 0xff && !s.aon.coolantPin && !s.pwr.apexDown

/-- Every limit has the margin that a step up needs. -/
def State.margin (s : State) (x : Load) : Bool :=
  decide (x.p100 * 100 ≤ 95 * (s.cap * 1000)) && decide (x.p10 * 100 ≤ 95 * (s.cap * 1000)) &&
  decide (s.pwr.currentOf x.core * 100 ≤ 95 * s.ras.currentLimit) &&
  s.pwr.temps.all (fun t => decide (t < 776)) && s.pwr.caseTemps.all (fun t => decide (t ≤ 696))

/-- One evaluation of Apex: estimate, attribute, record what binds, and step down at most one state, or up at most one in 1 ms.
(DEDUCED, log entry 43.) -/
def State.evaluate (act : List Activity) (s : State) : State :=
  let p := s.pwr
  let mc := powerOf (act.map p.coreEnergy).sum
  let ms := powerOf (act.map p.stackEnergy).sum
  let core := p.core.input mc p.telCore
  let p10 := core + p.stack.input ms p.telStack
  let hist := ((p10, mc + ms) :: p.p100).take 10000
  let above (v : Nat) (o : Option Nat) : Option Nat := if s.cap * 1000 < v then some (o.getD s.now) else none
  let s := (act.foldl (fun s a => s.account a) s).onPwr (fun p =>
    Pwr.track { p with
      coreSum := p.coreSum + mc
      stackSum := p.stackSum + ms
      sumN := p.sumN + 1
      p10 := p10
      p100 := hist
      aboveSince := above p10 p.aboveSince
      aboveModel := above (mc + ms) p.aboveModel })
  let x : Load := { core := core, p10 := p10, p100 := mean (hist.map Prod.fst), since := s.pwr.aboveSince }
  let y : Load := { core := mc, p10 := mc + ms, p100 := mean (hist.map Prod.snd), since := s.pwr.aboveModel }
  let rs := reasonsOf (s.binding x) (s.binding y)
  let s := [1, 2, 3, 4, 7, 8].foldl (fun s r => s.setEpisode r 0xff (rs.contains r)) s
  if !rs.isEmpty || s.throttled 5 0xff then s.stepDown
  else if s.upAllowed && s.margin x && !s.pwr.settling && decide (0 < s.pwr.pstate) && decide (s.pwr.lastUp + 1000000 ≤ s.now) then
    s.stepUp
  else s

/-- APEX_EVALUATION. -/
def execApexEvaluation (act : List Activity) (s : State) : Host.Outcome State Fault Refusal :=
  .next (s.whenUp (fun s => if s.pwr.apexDown then s else s.evaluate act))

/-! ## Measurement (R355, R377, R378, R449) -/

/-- A faulty phase is disabled and a spare enabled, where one is left (R355). -/
def State.swapPhase (n : Nat) (s : State) : State :=
  if s.ras.phasesOn.contains n then
    let spare := [32, 33, 34, 35].find? (fun k => !s.ras.phasesOn.contains k && !s.ras.phasesBad.contains k)
    let s := ((s.onRas (fun r => { r with
      phasesOn := r.phasesOn.filter (· ≠ n) ++ spare.toList
      phasesBad := r.phasesBad ++ [n]
      phaseOver := r.phaseOver.erase n })).saveRecord).emit (.phase n false)
    let s := match spare with
      | some k => s.emit (.phase k true)
      | none => s
    s.logDetection 96 10 7 0 n (s.temp 96) s.pwr.vdd 1 0xff 0
  else s

/-- Phases whose current is more than 25 % from the mean of the enabled phases. -/
def Ras.phasesOff (r : Ras) (ma : List Nat) : List Nat :=
  let on := r.phasesOn.map (fun n => ma.getD n 0)
  let total := on.sum
  let k := r.phasesOn.length
  r.phasesOn.filter (fun n =>
    let v := ma.getD n 0 * k
    decide (5 * total < 4 * v) || decide (4 * v < 3 * total))

/-- Watch the phase currents: a phase that stays away from the mean for 1 s is faulty. -/
def State.watchPhases (ma : List Nat) (s : State) : State :=
  let off := s.ras.phasesOff ma
  let s := s.onRas (fun r => { r with
    phaseOver := off.foldl (fun t n => if (t.get? n).isSome then t else t.set n s.now) (r.phaseOver.filter (fun x => off.contains x.1)) })
  (s.ras.phaseOver.filter (fun x => x.2 + 1000000000 ≤ s.now)).foldl (fun s x => s.swapPhase x.1) s

/-- One sample of telemetry; while Apex is down its energy goes to the node account (R388). -/
def State.takeTelemetry (t : Telemetry) (s : State) : State :=
  let core := t.coreMv * t.coreMa / 1000
  let e := (core + t.stackMw) * (s.now - s.pwr.telAt) * 1000
  let s := s.onPwr (fun p => { p with
    telCore := core
    telStack := t.stackMw
    telAt := s.now
    measCoreSum := p.measCoreSum + core
    measStackSum := p.measStackSum + t.stackMw
    measN := p.measN + 1
    energyMeas := p.energyMeas + e
    energy := if p.apexDown then p.energy.modify 8 (· + e) else p.energy })
  let s := if t.phaseMa.isEmpty then s else s.watchPhases t.phaseMa
  match t.faultedPhase with
  | some n => s.swapPhase n
  | none => s

/-- TELEMETRY_SAMPLE. -/
def execTelemetrySample (t : Telemetry) (s : State) : Host.Outcome State Fault Refusal :=
  .next (s.whenUp (State.takeTelemetry t))

/-- Measured / model as an unsigned 8.8 number (R390). -/
def Diverge.ratio (d : Diverge) : Nat :=
  if !d.compared then 0x100 else if d.model = 0 then 0xffff else min 0xffff (d.meas * 256 / d.model)

/-- One comparison of a part (R378): outside the bound 11 times in a row raises, inside it 100 times clears. -/
def Diverge.compare (model meas : Nat) (d : Diverge) : Diverge :=
  let out := decide (15 * meas < 100 * (max model meas - min model meas))
  let overs := if out then d.overs + 1 else 0
  let clean := if out then 0 else d.clean + 1
  { raised := if d.raised then decide (clean < 100) else decide (11 ≤ overs)
    overs := overs, clean := clean, model := model, meas := meas, compared := true }

/-- Log what a comparison changed (R424). -/
def State.logDiverge (part : Nat) (old new : Diverge) (s : State) : State :=
  if !old.raised && new.raised then
    (s.onPwr (fun p => { p with divEvents := inc16 p.divEvents })).logEvent 96 0x0601 0xff 0 part new.ratio 0
  else if old.raised && !new.raised then s.logEvent 96 0x0602 0xff 0 part new.ratio 0
  else s

/-- MODEL_COMPARISON: the 1 ms averages of model and measurement, part by part. -/
def State.compareModel (s : State) : State :=
  let p := s.pwr
  if p.sumN = 0 ∨ p.measN = 0 then s
  else
    let c := p.core.compare (p.coreSum / p.sumN) (p.measCoreSum / p.measN)
    let k := p.stack.compare (p.stackSum / p.sumN) (p.measStackSum / p.measN)
    ((s.onPwr (fun p => { p with
      core := c, stack := k, coreSum := 0, stackSum := 0, sumN := 0, measCoreSum := 0, measStackSum := 0, measN := 0 })).logDiverge 0
      p.core c).logDiverge 1 p.stack k

/-- MODEL_COMPARISON. -/
def execModelComparison (s : State) : Host.Outcome State Fault Refusal :=
  .next (s.whenUp (fun s => if s.pwr.apexDown then s else s.compareModel))

/-! ## Temperatures (R381, R382, R454) -/

/-- Every island but 98. -/
def otherIslands : List Nat := List.range 98 ++ [99]

/-- The thermal trip (R454): it is latched, every island but 98 stops, and a running flush is abandoned. -/
def State.thermalTrip (s : State) : State :=
  ((s.onAon (fun a => { a with phase := .tripped, thermTrip := true, stopped := otherIslands })).onPwr
    (fun p => { p with flushBusy := false })).emit .thermTrip

/-- The junction limit (R381). (DEDUCED, log entry 43.) -/
def State.junction (temps : List Int) (s : State) : State :=
  let any (t : Int) : Bool := temps.any (fun x => decide (t ≤ x))
  let s := s.setEpisode 5 0xff (any 800)
  let s := if any 840 then s.goP7 else s
  if any 864 then s.onPwr (fun p => { p with blocksHot := true })
  else if any 800 then s
  else (s.onPwr (fun p => { p with blocksHot := false })).placeHeld

/-- JUNCTION_SAMPLE. -/
def execJunctionSample (temps : List Int) (s : State) : Host.Outcome State Fault Refusal :=
  .next (s.whenUp (fun s =>
    let s := s.onPwr (fun p => { p with temps := temps })
    if temps.any (fun x => decide (920 ≤ x)) then s.thermalTrip
    else if s.pwr.apexDown then s
    else s.junction temps))

/-- Share in percent of a stack's command slots that classes 2 to 5 may take (R382): 50 from 90 °C, 25 from 93 °C; the limit
lifts below 87 °C. -/
def caseShare (t : Int) (old : Nat) : Nat := if 744 ≤ t then 25 else if 720 ≤ t then 50 else if t < 696 then 100 else old

/-- The limit of one stack. -/
def State.caseLimit (n : Nat) (s : State) : State :=
  let v := caseShare (s.pwr.caseTemps.getD n 0) (s.pwr.caseLimit.getD n 100)
  (s.onPwr (fun p => { p with caseLimit := p.caseLimit.set n v })).setEpisode 6 n (decide (v < 100))

/-- STACK_CASE_SAMPLE. -/
def execStackCaseSample (temps : List Int) (s : State) : Host.Outcome State Fault Refusal :=
  .next (s.whenUp (fun s =>
    let s := s.onPwr (fun p => { p with caseTemps := (List.range 8).map (fun n => temps.getD n 0) })
    if temps.any (fun x => decide (840 ≤ x)) then s.thermalTrip
    else if s.pwr.apexDown then s
    else (List.range 8).foldl (fun s n => s.caseLimit n) s))

/-! ## The persistence flush (R387, R435) -/

/-- A flush begins: its directories are written without the mark, so that an earlier image is no longer used. -/
def State.startFlush (s : State) : State :=
  if s.pwr.flushBusy then s
  else
    ((s.clearMark.onPwr (fun p => { p with flushBusy := true, flushDone := false, flushStamp := s.now }))).emit .flushStart

/-- An entry has a complete flash copy (R387). -/
def Entry.flushable (e : Entry) : Bool := e.frameState = .stackClean || e.frameState = .flash || e.frameState = .filling

/-- What the image holds (R387, R437). -/
def State.takeImage (s : State) (drives : List Nat) : PersistImage :=
  { stamp := s.pwr.flushStamp
    nameKey := s.home.nameKey
    seqs := s.home.seqs.filter (fun r => r.seqState = 1 || r.seqState = 2)
    entries := (s.home.entries.filter Entry.flushable).map (fun e => { e with
      frameState := .flash, hullValid := false, hullHeld := false, shadowValid := false, writeValid := false, pinCount := 0 })
    cur := s.home.cur
    serviceKeys := s.xpt.serviceKeys
    serviceGens := s.xpt.serviceGens
    formats := s.sch.slices.map (fun x => x.cfg.format)
    bs := (s.sch.bsSerial, s.sch.bsDigest)
    sections := s.sch.slices.map (fun x => (x.serial, x.digest))
    log := s.log
    drives := drives }

/-- The flush's writes are done: with a drive present, its directories carry the mark. -/
def State.endFlush (s : State) : State :=
  let ds := (s.mem.drives.filter (fun d => d.2.usable)).map Prod.fst
  let s := s.onPwr (fun p => { p with flushBusy := false })
  let s := if ds.isEmpty then s
    else
      let img := s.takeImage ds
      let mark (d : Nat × Drive) : Nat × Drive := (d.1, { d.2 with mark := ds.contains d.1 })
      let s := (s.onImage (some img)).onMem (fun m => { m with drives := m.drives.map mark })
      (s.onPwr (fun p => { p with flushDone := true })).emit .flushMark
  if s.aon.vrPin then s else s.closeEpisode 10 0xff

/-- PERSIST_FLUSH_COMPLETE. -/
def execPersistFlushComplete (s : State) : Host.Outcome State Fault Refusal :=
  .next (s.whenUp (fun s => if s.pwr.flushBusy then s.endFlush else s))

/-! ## Regulator and coolant (R385, R386, R389) -/

/-- VR_ALERT_ASSERT: a second assertion during a flush starts no second one (R389). -/
def execVrAlertAssert (s : State) : Host.Outcome State Fault Refusal :=
  .next (s.whenUp (fun s =>
    let s := s.onAon (fun a => { a with vrPin := true, vrAt := s.now })
    (((s.goP7).openEpisode 10 0xff).raise 3).startFlush))

/-- VR_ALERT_CLEAR: the alert has been deasserted for 10 ms; the state returns once the flush has completed as well. -/
def execVrAlertClear (s : State) : Host.Outcome State Fault Refusal :=
  .next (s.whenUp (fun s =>
    if s.aon.vrPin && decide (s.aon.vrAt + 10000000 ≤ s.now) then
      let s := s.onAon (fun a => { a with vrPin := false })
      if s.pwr.flushBusy then s else s.closeEpisode 10 0xff
    else s))

/-- The islands that a coolant fault stops (R386). -/
def coolantIslands : List Nat := List.range 32 ++ (List.range 30).map (· + 56) ++ [97]

/-- COOLANT_FAULT: an assertion that repeats during a flush starts no second one (R389). -/
def execCoolantFault (s : State) : Host.Outcome State Fault Refusal :=
  .next (s.whenUp (fun s =>
    let s := s.onAon (fun a => { a with
      coolantPin := true, coolantAt := s.now, stopped := (a.stopped ++ coolantIslands).eraseDups })
    let s := (List.range 8).foldl (fun s p => s.portDown p) s
    (((s.goP7).openEpisode 9 0xff).raise 3).startFlush))

/-- A port trains again after a fault, once no lane of it is under test. -/
def State.retrainPort (p : Nat) (s : State) : State :=
  if (s.port p).mode = 0 ∨ (s.port p).linkUp then s
  else
    (s.expireHold p).onPort p (fun x => { x with training := !(s.eth.suspects.any (fun l => bit x.lanes l)) })

/-! ## Loss of Apex (R388) -/

/-- APEX_HEARTBEAT_TIMEOUT: comparisons start afresh after the restart (R389). -/
def execApexHeartbeatTimeout (s : State) : Host.Outcome State Fault Refusal :=
  .next (s.whenUp (fun s =>
    if s.pwr.apexDown then s
    else
      (s.goP7.onPwr (fun p => { p with
        apexDown := true, core := {}, stack := {}, coreSum := 0, stackSum := 0, sumN := 0, measCoreSum := 0, measStackSum := 0, measN := 0 })).openEpisode
        11 0xff))

end Sys2Proof.Machine
end

