-- ==== Sys2Proof/Machine/Regs.lean ====
section
/-! DEFINITION. The registers of BAR0 as the host reads them (R409, R427): the value of every register (R149, R194, R220, R245,
R271, R296, R370, R390, R405, R421, R422, R425, R426) and its RC fields with what clears them (R13). -/

namespace Sys2Proof.Machine

/-- A register from its fields: lowest bit, width, value. -/
def pack (l : List (Nat × Nat × Nat)) : Nat := (l.map (fun f => f.2.2 % 2 ^ f.2.1 * 2 ^ f.1)).sum

/-- A bitmap of the first `n` numbers with a property. -/
def bitsOf (n : Nat) (p : Nat → Bool) : Nat := bitmap ((List.range n).filter p)

/-- An RC field: its bits and what its read clears. -/
structure RcField where
  lo : Nat
  hi : Nat
  clear : State → State

/-! ## TOP (R421) -/

/-- `boot_stage` (R405, R431): as the start sets it until the stacks are up, then the earliest stage that a present slice has not
passed. -/
def State.bootStage (s : State) : Nat :=
  if s.aon.bootStage = 15 ∨ s.aon.bootStage < 4 then s.aon.bootStage
  else if !s.aon.stacksUp then 4
  else if !s.sch.bsLoaded then 5
  else if s.sch.slices.any (fun x => x.state = .composing) then 6
  else if s.eth.groups.any (fun g => g.2.ramp.any (fun t => s.now < t + 200000000)) then 7
  else 8

/-- TOP registers. -/
def State.topReg (s : State) (o : Nat) : Nat :=
  if o = 0x00 then pack [(0, 16, 0x1f6b), (16, 16, 0xe303), (32, 8, Config.stepping.toNat), (40, 4, 3)]
  else if o = 0x08 then pack [(0, 14, s.sch.node.nodeId), (14, 1, b2n s.sch.bsLoaded),
    (16, 8, bitsOf 8 (fun i => (s.slice i).state ≠ .absent)), (24, 8, bitsOf 8 s.serving)]
  else if o = 0x10 then s.now
  else if o = 0x18 then pack [(0, 4, s.host.bar2Base), (4, 1, b2n s.host.bar2WrEnable)]
  else if o = 0x20 then pack [(0, 32, s.sch.bsSerial), (32, 1, b2n s.sch.bsLoaded)]
  else if 0x28 ≤ o ∧ o ≤ 0x60 then
    let x := s.slice ((o - 0x28) / 8)
    pack [(0, 32, x.serial), (32, 1, b2n x.valid)]
  else if o = 0x68 then pack [(0, 16, s.host.regTimeouts), (16, 16, s.host.bar0Ur), (32, 16, s.host.bar2Discards), (48, 16, s.host.dmaErrors)]
  else if o = 0x70 then pack [(0, 5, s.opsRunning), (16, 16, s.opsQueued)]
  else if o = 0x78 then s.host.cause
  else if 0x1000 ≤ o ∧ o < 0x1800 then
    let r := s.ring ((o - 0x1000) / 0x20)
    match o % 0x20 / 8 with
    | 0 => pack [(12, 52, r.base)]
    | 1 => pack [(0, 5, r.log2), (5, 1, b2n r.enable), (7, 7, r.vector), (16, 1, b2n r.errDoorbell), (17, 1, b2n r.errEntry),
                 (18, 1, b2n r.errStatus)]
    | 2 => pack [(0, 32, r.head), (32, 32, r.tail)]
    | _ => 0
  else if 0x80000 ≤ o ∧ o < 0x80800 then s.host.msix.getD ((o - 0x80000) / 8) 0
  else 0

/-- ALERT_N is driven: some cause of R420 stands (R451). -/
def State.alertN (s : State) : Bool := s.host.cause ≠ 0

/-! ## PWR (R390) -/

/-- Total time in episodes of a reason in µs, open ones included. -/
def State.throttleUs (s : State) (r : Nat) : Nat :=
  (s.pwr.thrNs.getD r 0 + ((s.pwr.episodes.filter (fun e => e.reason = r)).map (fun e => s.now - e.stamp)).sum) / 1000

/-- PWR registers. -/
def State.pwrReg (s : State) (o : Nat) : Nat :=
  let p := s.pwr
  if o = 0x00 then pack [(0, 3, p.pstate), (3, 1, b2n s.aon.coolantPin), (4, 1, b2n s.aon.vrPin), (5, 1, b2n p.flushBusy),
    (6, 1, b2n p.flushDone), (16, 16, bitsOf 16 (fun r => p.episodes.any (fun e => e.reason = r)))]
  else if o = 0x08 then pack [(0, 10, p.capHost), (16, 10, s.cap), (26, 1, b2n s.shift.isSome),
    (32, 32, (s.shift.map (fun x => (x.2 - s.now) / 1000000)).getD 0)]
  else if o = 0x10 then pack [(0, 16, p.core.model / 100), (16, 16, p.core.meas / 100), (32, 16, p.stack.model / 100), (48, 16, p.stack.meas / 100)]
  else if o = 0x18 then pack [(0, 1, b2n p.core.raised), (1, 1, b2n p.stack.raised), (16, 16, p.core.ratio), (32, 16, p.stack.ratio), (48, 16, p.divEvents)]
  else if 0x100 ≤ o ∧ o ≤ 0x140 then p.energy.getD ((o - 0x100) / 8) 0 / 1000000000
  else if o = 0x148 then p.energyMeas / 1000000000
  else if 0x208 ≤ o ∧ o ≤ 0x258 then
    let r := (o - 0x200) / 8
    pack [(0, 48, s.throttleUs r), (48, 16, p.thrCount.getD r 0)]
  else 0

/-- RC fields of PWR. -/
def pwrRc (o : Nat) : List RcField :=
  if o = 0x18 then [⟨48, 63, State.onPwr (fun p => { p with divEvents := 0 })⟩]
  else if 0x208 ≤ o ∧ o ≤ 0x258 then [⟨48, 63, State.onPwr (fun p => { p with thrCount := p.thrCount.erase ((o - 0x200) / 8) })⟩]
  else []

/-! ## SEC (R405) -/

/-- SEC registers. -/
def State.secReg (s : State) (o : Nat) : Nat :=
  let c := s.sec
  if o = 0x00 then pack [(0, 4, s.bootStage), (4, 1, b2n (decide (c.ownerHash ≠ 0))), (5, 1, b2n (c.debugLock && !c.unlocked)),
    (6, 2, c.fwRootRevoked), (8, 4, c.recReason), (16, 7, c.svn), (24, 7, (c.running.map FwImage.imgSvn).getD 0)]
  else if o = 0x08 then c.identityKey % 2 ^ 64
  else if o = 0x10 then
    match c.manifest with
    | none => 0
    | some m => pack [(0, 32, m.serial), (32, 3, m.cfgKeys.length), (35, 5, m.mgrKeys.length), (40, 5, m.threshold)]
  else if o = 0x18 then bitsOf 64 (fun i => i = 0 || (c.slotKeys.get? i).isSome)
  else if o = 0x20 then pack [(0, 7, c.chunkIndex), (7, 1, b2n c.chunkLast), (9, 1, b2n c.recoveryReq), (10, 19, c.chunkLen), (29, 3, c.recState),
    (32, 8, c.recStatus)]
  else 0

/-! ## LOG and RAS (R425, R370) -/

/-- Entry `q` of the log, where it is written and not overwritten. -/
def State.logEntry (s : State) (q : Nat) : Option LogEntry :=
  if q < s.log.nextSeq ∧ s.log.nextSeq ≤ q + 65536 then s.log.entries.get? q else none

/-- LOG registers. -/
def State.logReg (s : State) (o : Nat) : Nat :=
  if o = 0x00 then s.log.nextSeq
  else if o = 0x08 then s.log.overwrites
  else if o = 0x10 then s.log.ackSeq
  else if o = 0x18 then s.log.irqThreshold
  else if o = 0x20 then s.log.selSeq
  else if o = 0x28 then ((s.logEntry s.log.selSeq).map (logDescriptor s.log.selSeq)).getD 0
  else if 0x30 ≤ o ∧ o ≤ 0x48 then ((s.logEntry s.log.selSeq).map (fun e => leField e.record (o - 0x30) 8)).getD 0
  else 0

/-- Free spare positions of the blocks: neither used nor lent. -/
def State.cellSpares (s : State) : Nat := (s.eng.blocks.filter (fun b => !b.spareUsed && !b.slots.contains (some 4))).length

/-- Spares of a die that are not steered. -/
def NbRegion.sparesFree (r : NbRegion) (die : Nat) : Nat := 4 - (r.spareMap.getD die []).length

/-- The availability account that `avail_slice` selects. -/
def Ras.selected (r : Ras) : Avail := r.avail.getD r.availSlice {}

/-- RAS registers. -/
def State.rasReg (s : State) (o : Nat) : Nat :=
  let r := s.ras
  if o = 0x00 then pack ((List.range 8).map (fun i => (2 * i, 2, r.audit.getD i 0)))
  else if o = 0x08 then pack [(0, 32, r.transient), (32, 16, r.lasting), (48, 16, r.correlated)]
  else if o = 0x10 then pack [(0, 32, r.dupMismatches), (32, 32, r.sentinelLate)]
  else if o = 0x18 then pack [(0, 6, s.cellSpares), (6, 9, (s.nbu.map (fun n => ((List.range 12).map n.sparesFree).sum)).sum),
    (15, 2, b2n s.eth.s0.isNone + b2n s.eth.s1.isNone),
    (17, 3, ([32, 33, 34, 35].filter (fun k => !r.phasesOn.contains k && !r.phasesBad.contains k)).length),
    (20, 9, 256 - (r.locusSpares.vals).sum), (32, 32, bitmap r.blocksWithdrawn)]
  else if o = 0x20 then pack [(0, 8, bitmap r.regionsFenced), (8, 4, bitmap r.quartersLost),
    (16, 10, maxNat ((List.range 8).map (fun n => (r.sramWithdrawn.filter (fun l => l.1 = n)).length))),
    (32, 16, (s.mem.spans.filter (fun x => x.2.kind = 7)).length), (48, 8, bitmap r.portsWithdrawn)]
  else if o = 0x28 then pack [(0, 1, b2n r.fenced), (1, 1, b2n r.expelled), (2, 1, b2n (decide (s.aon.selfCause ≠ 0))), (4, 4, s.aon.selfCause),
    (16, 32, r.reason)]
  else if o = 0x30 then (r.serials.getD 0 {}).last
  else if o = 0x38 then r.availSlice
  else if o = 0x40 then r.selected.serving
  else if o = 0x48 then r.selected.excluded
  else if o = 0x50 then r.selected.unplanned
  else if o = 0x58 then pack [(0, 32, r.selected.swaps), (32, 32, r.selected.longestUs)]
  else 0

/-- RC fields of RAS. -/
def rasRc (o : Nat) : List RcField :=
  if o = 0x08 then [⟨0, 31, State.onRas (fun r => { r with transient := 0 })⟩, ⟨32, 47, State.onRas (fun r => { r with lasting := 0 })⟩,
    ⟨48, 63, State.onRas (fun r => { r with correlated := 0 })⟩]
  else if o = 0x10 then [⟨0, 31, State.onRas (fun r => { r with dupMismatches := 0 })⟩, ⟨32, 63, State.onRas (fun r => { r with sentinelLate := 0 })⟩]
  else if o = 0x58 then
    [⟨0, 31, State.onRas (fun r => { r with avail := r.avail.modify r.availSlice (fun a => { a with swaps := 0 }) })⟩,
     ⟨32, 63, State.onRas (fun r => { r with avail := r.avail.modify r.availSlice (fun a => { a with longestUs := 0 }) })⟩]
  else []

/-! ## SCH (R422) -/

/-- An enable of the slice is latched (R311). -/
def SliceS.enableLatched (x : SliceS) : Bool :=
  x.state = .draining && (match x.outcome with
    | .enable _ _ _ _ => true
    | _ => false)

/-- SCH registers. -/
def State.schReg (s : State) (o : Nat) : Nat :=
  let c := s.sch
  if o < 0x80 then
    let k := c.classes.getD (o / 8) {}
    pack [(0, 1, k.valid), (1, 3, k.slice), (4, 1, k.guaranteed), (8, 16, k.pendingMax), (32, 16, c.pendingCount.getD (o / 8) 0)]
  else if o < 0xc0 then
    let x := s.slice ((o - 0x80) / 8)
    pack [(0, 4, x.state.num), (4, 8, if x.enableLatched then 0x14 else 0), (16, 32, x.cfg.blocks), (48, 8, bitmap x.cfg.stackList)]
  else if o = 0xc0 then pack [(0, 8, bitsOf 8 s.nbOpen), (8, 8, bitmap c.nbPending),
    (16, 8, bitsOf 8 (fun i => (s.cfg i).tier.flashDrives ≠ 0 && !(s.slice i).flashClosing)),
    (24, 8, bitsOf 8 (fun i => (s.slice i).flashPending.isSome))]
  else if o = 0x100 then pack [(0, 8, c.tableSel), (8, 8, s.windowNow)]
  else if o = 0x108 ∨ o = 0x110 then
    let w := c.table.getD c.tableSel []
    pack ((List.range 16).map (fun j => (4 * j, 4, w.getD (16 * ((o - 0x108) / 8) + j) 0)))
  else if o = 0x120 then pack [(0, 32, c.preemptions), (32, 32, c.exchanges)]
  else if o = 0x128 then pack [(0, 32, c.parks), (32, 32, c.ctxAreaFull)]
  else if o = 0x130 then pack [(0, 32, c.saves), (32, 32, c.switchMax)]
  else if 0x140 ≤ o ∧ o < 0x180 then
    let n := (o - 0x140) / 8
    pack [(0, 11, cdiv (s.ctxBytes n) 4096), (16, 16, (s.eng.ctxs.filter (fun k => k.2.region = n)).length)]
  else 0

/-- RC fields of SCH. -/
def schRc (o : Nat) : List RcField :=
  if o = 0x120 then [⟨0, 31, State.onSch (fun c => { c with preemptions := 0 })⟩, ⟨32, 63, State.onSch (fun c => { c with exchanges := 0 })⟩]
  else if o = 0x128 then [⟨0, 31, State.onSch (fun c => { c with parks := 0 })⟩, ⟨32, 63, State.onSch (fun c => { c with ctxAreaFull := 0 })⟩]
  else if o = 0x130 then [⟨0, 31, State.onSch (fun c => { c with saves := 0 })⟩, ⟨32, 63, State.onSch (fun c => { c with switchMax := 0 })⟩]
  else []

/-! ## RGN and NBU (R426, R149) -/

/-- Registers of region `n`. -/
def State.rgnReg (s : State) (n o : Nat) : Nat :=
  let r := s.nbu.getD n {}
  let t := s.pwr.caseTemps.getD n 0
  if o = 0 then pack [(0, 1, b2n (s.stackFenced n)), (16, 14, (s.ras.sramWithdrawn.filter (fun l => l.1 = n)).length)]
  else if o = 0x10000 then pack [(0, 32, s.ras.ce.getD n 0), (32, 32, s.ras.ue.getD n 0)]
  else if o = 0x10008 then pack [(0, 16, twos 16 t), (16, 1, b2n (decide (680 < t))), (17, 1, b2n (decide (s.pwr.caseLimit.getD n 100 < 100))),
    (32, 32, s.ras.rowsFaultyCount.getD n 0)]
  else if o = 0x30000 then pack [(0, 11, r.windowMax), (11, 1, b2n r.nbEnable)]
  else if o = 0x30008 then pack [(0, 5, r.activeCount), (16, 10, r.cq.length), (32, 10, r.cqPeak)]
  else if o = 0x30010 then pack [(0, 32, r.ondieAborts), (32, 32, r.refusals)]
  else if o = 0x30018 then pack [(0, 32, r.groupsToCells), (32, 32, r.cqFullEvents)]
  else if 0x30100 ≤ o ∧ o ≤ 0x30158 then
    let d := (o - 0x30100) / 8
    let used := r.spareMap.getD d []
    pack ((used.zipIdx).flatMap (fun u => [(8 * u.2, 7, u.1), (8 * u.2 + 7, 1, 1)]) ++ [(32, 3, r.sparesFree d)])
  else 0

/-- RC fields of region `n`. -/
def rgnRc (n o : Nat) : List RcField :=
  if o = 0x10000 then [⟨0, 31, State.onRas (fun r => { r with ce := r.ce.set n 0 })⟩, ⟨32, 63, State.onRas (fun r => { r with ue := r.ue.set n 0 })⟩]
  else if o = 0x10008 then [⟨32, 63, State.onRas (fun r => { r with rowsFaultyCount := r.rowsFaultyCount.set n 0 })⟩]
  else if o = 0x30008 then [⟨32, 41, State.onNbu n (fun r => { r with cqPeak := 0 })⟩]
  else if o = 0x30010 then [⟨0, 31, State.onNbu n (fun r => { r with ondieAborts := 0 })⟩, ⟨32, 63, State.onNbu n (fun r => { r with refusals := 0 })⟩]
  else if o = 0x30018 then
    [⟨0, 31, State.onNbu n (fun r => { r with groupsToCells := 0 })⟩, ⟨32, 63, State.onNbu n (fun r => { r with cqFullEvents := 0 })⟩]
  else []

/-! ## PFX (R194) -/

/-- PFX registers. -/
def State.pfxReg (s : State) (o : Nat) : Nat :=
  let l := s.locus
  if o = 0x00 then pack [(0, 21, l.entries.length), (32, 26, l.ovf.length)]
  else if o = 0x08 then pack [(0, 32, l.hits), (32, 32, l.misses)]
  else if o = 0x10 then pack [(0, 32, l.collisions), (32, 32, l.conflicts)]
  else if o = 0x18 then pack [(0, 32, l.evictions), (32, 32, l.busyRefusals)]
  else if o = 0x20 then l.parityErrors
  else 0

/-- RC fields of PFX. -/
def pfxRc (o : Nat) : List RcField :=
  if o = 0x08 then [⟨0, 31, State.onLocus (fun l => { l with hits := 0 })⟩, ⟨32, 63, State.onLocus (fun l => { l with misses := 0 })⟩]
  else if o = 0x10 then [⟨0, 31, State.onLocus (fun l => { l with collisions := 0 })⟩, ⟨32, 63, State.onLocus (fun l => { l with conflicts := 0 })⟩]
  else if o = 0x18 then [⟨0, 31, State.onLocus (fun l => { l with evictions := 0 })⟩, ⟨32, 63, State.onLocus (fun l => { l with busyRefusals := 0 })⟩]
  else if o = 0x20 then [⟨0, 31, State.onLocus (fun l => { l with parityErrors := 0 })⟩]
  else []

/-! ## HOME (R220, R245) -/

/-- HOME registers. -/
def State.homeReg (s : State) (o : Nat) : Nat :=
  let h := s.home
  if o = 0x00 then pack [(0, 32, (h.cur.map RouteMap.generation).getD 0), (32, 32, (h.prev.map RouteMap.generation).getD 0)]
  else if o = 0x08 then pack [(0, 1, b2n s.drainNow), (1, 1, b2n h.prev.isSome), (2, 1, b2n (!h.outgoing.isEmpty)), (32, 32, h.inflightPrev)]
  else if o = 0x10 then pack [(0, 17, (h.leases.filter (fun l => decide (l.2.expiry < 2 ^ 80))).length), (32, 32, h.pagesTorn)]
  else if o = 0x18 then pack [(0, 32, h.redirects), (32, 32, h.leaseConflicts)]
  else if 0x100 ≤ o ∧ o < 0x200 then
    let t := h.tier.getD ((o - 0x100) / 0x40) {}
    match o % 0x40 / 8 with
    | 0 => pack [(0, 32, t.fills), (32, 32, t.demotions)]
    | 1 => pack [(0, 32, t.fallbacks), (32, 32, t.deadlineMisses)]
    | 2 => pack [(0, 32, t.recoveries), (32, 32, t.lost)]
    | 3 => pack [(0, 32, t.lookaheadHits), (32, 32, t.lookaheadLate)]
    | _ => 0
  else if 0x200 ≤ o ∧ o < 0x280 then
    let d := s.mem.drives.getD ((o - 0x200) / 8) {}
    pack [(0, 1, b2n d.usable), (1, 1, b2n d.failed), (2, 1, b2n d.foreign), (8, 9, (d.cmds.filter (fun c => c.2.issued)).length), (17, 2, d.port),
      (32, 16, d.mediaErrors), (48, 16, d.timeouts)]
  else 0

/-- An update of one quarter's tier counters. -/
def clearTier (q : Nat) (f : TierCount → TierCount) (s : State) : State := s.onHome (fun h => { h with tier := h.tier.modify q f })

/-- RC fields of HOME. -/
def homeRc (o : Nat) : List RcField :=
  if o = 0x10 then [⟨32, 63, State.onHome (fun h => { h with pagesTorn := 0 })⟩]
  else if o = 0x18 then [⟨0, 31, State.onHome (fun h => { h with redirects := 0 })⟩, ⟨32, 63, State.onHome (fun h => { h with leaseConflicts := 0 })⟩]
  else if 0x100 ≤ o ∧ o < 0x200 then
    let q := (o - 0x100) / 0x40
    match o % 0x40 / 8 with
    | 0 => [⟨0, 31, clearTier q (fun t => { t with fills := 0 })⟩, ⟨32, 63, clearTier q (fun t => { t with demotions := 0 })⟩]
    | 1 => [⟨0, 31, clearTier q (fun t => { t with fallbacks := 0 })⟩, ⟨32, 63, clearTier q (fun t => { t with deadlineMisses := 0 })⟩]
    | 2 => [⟨0, 31, clearTier q (fun t => { t with recoveries := 0 })⟩, ⟨32, 63, clearTier q (fun t => { t with lost := 0 })⟩]
    | 3 => [⟨0, 31, clearTier q (fun t => { t with lookaheadHits := 0 })⟩, ⟨32, 63, clearTier q (fun t => { t with lookaheadLate := 0 })⟩]
    | _ => []
  else if 0x200 ≤ o ∧ o < 0x280 then
    let d := (o - 0x200) / 8
    [⟨32, 47, State.onDrive d (fun x => { x with mediaErrors := 0 })⟩, ⟨48, 63, State.onDrive d (fun x => { x with timeouts := 0 })⟩]
  else []

/-! ## XPT (R271) -/

/-- XPT registers. -/
def State.xptReg (s : State) (o : Nat) : Nat :=
  if o = 0x00 then pack [(0, 5, s.xpt.rnrCode), (5, 2, s.xpt.pmtuMax), (8, 16, s.xpt.ackTimeout)]
  else if o = 0x08 then s.regXptCtx
  else if o = 0x10 then s.regXptMiss
  else if o = 0x18 then s.regXptDup
  else if o = 0x20 then s.regXptFaults
  else if o = 0x28 then s.regXptQperr
  else 0

/-- RC fields of XPT. -/
def xptRc (o : Nat) : List RcField :=
  if o = 0x10 then [⟨0, 31, State.onXpt (fun x => { x with ctxMisses := 0 })⟩, ⟨32, 63, State.onXpt (fun x => { x with missRnr := 0 })⟩]
  else if o = 0x18 then [⟨0, 31, State.onXpt (fun x => { x with duplicates := 0 })⟩, ⟨32, 63, State.onXpt (fun x => { x with staleDups := 0 })⟩]
  else if o = 0x20 then [⟨0, 21, State.onXpt (fun x => { x with keyFaults := 0 })⟩, ⟨22, 42, State.onXpt (fun x => { x with boundsFaults := 0 })⟩,
    ⟨43, 63, State.onXpt (fun x => { x with rightsFaults := 0 })⟩]
  else if o = 0x28 then [⟨0, 31, State.onXpt (fun x => { x with qpErrors := 0 })⟩, ⟨32, 63, State.onXpt (fun x => { x with extAborted := 0 })⟩]
  else []

/-! ## ETH (R296) -/

/-- The histogram that ETH_HIST_SEL names. -/
def Eth.selected (e : Eth) : List Nat :=
  let p := e.ports.getD e.histPort {}
  (if e.histKind = 0 then p.depthHist else p.delayHist).getD e.histQueue (List.replicate 16 0)

/-- Clear a bin of the selected histogram. -/
def clearBin (k : Nat) (s : State) : State :=
  s.onEth (fun e => { e with ports := e.ports.modify e.histPort (fun p =>
    if e.histKind = 0 then { p with depthHist := p.depthHist.modify e.histQueue (fun h => h.set k 0) }
    else { p with delayHist := p.delayHist.modify e.histQueue (fun h => h.set k 0) }) })

/-- ETH registers. -/
def State.ethReg (s : State) (o : Nat) : Nat :=
  let e := s.eth
  if o < 0x40 then
    let p := s.port (o / 8)
    pack [(0, 1, b2n p.linkUp), (1, 2, p.mode), (3, 3, p.cfg.plane), (8, 16, p.lanes), (32, 16, p.linkDowns), (48, 16, p.holdExpiries)]
  else if o = 0x40 then pack [(0, 1, b2n e.s0.isSome), (1, 3, e.s0.getD 0), (4, 1, b2n e.s1.isSome), (5, 3, e.s1.getD 8 - 8), (32, 16, e.swaps),
    (48, 16, e.loopbackPasses)]
  else if o = 0x48 then pack [(0, 10, e.tInc), (10, 12, e.rAi), (22, 12, e.rMin), (34, 4, e.fastSteps), (38, 8, e.cnpGap)]
  else if o = 0x50 then pack [(0, 32, e.cnpsSent), (32, 32, e.cnpsReceived)]
  else if o = 0x58 then pack [(0, 3, e.histPort), (3, 5, e.histQueue), (8, 1, e.histKind)]
  else if 0x60 ≤ o ∧ o < 0xa0 then
    let k := (o - 0x60) / 8
    pack [(0, 32, e.selected.getD (2 * k) 0), (32, 32, e.selected.getD (2 * k + 1) 0)]
  else if o = 0xa0 then pack [(0, 32, e.pauseDrops), (32, 32, e.cnpDrops)]
  else 0

/-- RC fields of ETH. -/
def ethRc (o : Nat) : List RcField :=
  if o < 0x40 then
    [⟨32, 47, State.onPort (o / 8) (fun p => { p with linkDowns := 0 })⟩, ⟨48, 63, State.onPort (o / 8) (fun p => { p with holdExpiries := 0 })⟩]
  else if o = 0x40 then [⟨32, 47, State.onEth (fun e => { e with swaps := 0 })⟩, ⟨48, 63, State.onEth (fun e => { e with loopbackPasses := 0 })⟩]
  else if o = 0x50 then [⟨0, 31, State.onEth (fun e => { e with cnpsSent := 0 })⟩, ⟨32, 63, State.onEth (fun e => { e with cnpsReceived := 0 })⟩]
  else if 0x60 ≤ o ∧ o < 0xa0 then
    let k := (o - 0x60) / 8
    [⟨0, 31, clearBin (2 * k)⟩, ⟨32, 63, clearBin (2 * k + 1)⟩]
  else if o = 0xa0 then [⟨0, 31, State.onEth (fun e => { e with pauseDrops := 0 })⟩, ⟨32, 63, State.onEth (fun e => { e with cnpDrops := 0 })⟩]
  else []

/-! ## BAR0 (R409, R410) -/

/-- The block of a BAR0 offset (R409). -/
inductive Block where
  | top | pwr | sec | log | ras | sch | rgn (n : Nat) | pfx | home | xpt | eth | nothing
deriving DecidableEq, Repr

/-- The block of an offset and the offset within it. -/
def blockOf (o : Nat) : Block × Nat :=
  if o < 0x100000 then (.top, o)
  else if o < 0x200000 then (.pwr, o - 0x100000)
  else if o < 0x300000 then (.sec, o - 0x200000)
  else if o < 0x380000 then (.log, o - 0x300000)
  else if o < 0x400000 then (.ras, o - 0x380000)
  else if o < 0x800000 then (.sch, o - 0x400000)
  else if o < 0xa00000 then (.rgn ((o - 0x800000) / 0x40000), (o - 0x800000) % 0x40000)
  else if o < 0xc00000 then (.nothing, 0)
  else if o < 0xd00000 then (.pfx, o - 0xc00000)
  else if o < 0xe00000 then (.home, o - 0xd00000)
  else if o < 0xf00000 then (.xpt, o - 0xe00000)
  else if o < 0x1000000 then (.eth, o - 0xf00000)
  else (.nothing, 0)

/-- The 64-bit register at an 8-byte aligned offset of BAR0; what a block does not define reads zero. -/
def State.regValue (s : State) (off : Nat) : Nat :=
  match blockOf off with
  | (.top, o) => s.topReg o
  | (.pwr, o) => s.pwrReg o
  | (.sec, o) => s.secReg o
  | (.log, o) => s.logReg o
  | (.ras, o) => s.rasReg o
  | (.sch, o) => s.schReg o
  | (.rgn n, o) => s.rgnReg n o
  | (.pfx, o) => s.pfxReg o
  | (.home, o) => s.homeReg o
  | (.xpt, o) => s.xptReg o
  | (.eth, o) => s.ethReg o
  | (.nothing, _) => 0

/-- RC fields of the register at an offset. -/
def rcFields (off : Nat) : List RcField :=
  match blockOf off with
  | (.top, o) => if o = 0x68 then
      [⟨0, 15, State.onHost (fun h => { h with regTimeouts := 0 })⟩, ⟨16, 31, State.onHost (fun h => { h with bar0Ur := 0 })⟩,
       ⟨32, 47, State.onHost (fun h => { h with bar2Discards := 0 })⟩, ⟨48, 63, State.onHost (fun h => { h with dmaErrors := 0 })⟩] else []
  | (.pwr, o) => pwrRc o
  | (.sec, _) => []
  | (.log, o) => if o = 0x08 then [⟨0, 31, State.onLog (fun l => { l with overwrites := 0 })⟩] else []
  | (.ras, o) => rasRc o
  | (.sch, o) => schRc o
  | (.rgn n, o) => rgnRc n o
  | (.pfx, o) => pfxRc o
  | (.home, o) => homeRc o
  | (.xpt, o) => xptRc o
  | (.eth, o) => ethRc o
  | (.nothing, _) => []

/-- The value that a read of 4 or 8 bytes returns. -/
def State.regRead (s : State) (off size : Nat) : Nat := s.regValue (off / 8 * 8) / 2 ^ (8 * (off % 8)) % 2 ^ (8 * size)

/-- A read clears the RC fields that lie wholly in the bytes it returns (R410). -/
def State.clearRc (off size : Nat) (s : State) : State :=
  ((rcFields (off / 8 * 8)).filter (fun f => 8 * (off % 8) ≤ f.lo && f.hi < 8 * (off % 8) + 8 * size)).foldl (fun s f => f.clear s) s

end Sys2Proof.Machine
end

