-- ==== Sys2Proof/Machine/Security.lean ====
section
/-! DEFINITION. The security engine: authentication of images (R394), owner, manifest, key slots and debug (R397 to R401) as long
operations, the recovery push (R399), and the SPDM responder (R402 to R404). -/

namespace Sys2Proof.Machine

/-! ## Images (R393, R394) -/

/-- A public key (named by its SHA-512) is an accepted firmware root. -/
def Sec.rootOk (c : Sec) (im : FwImage) : Bool :=
  im.rootIndex < 2 && im.signerPub = c.fwRootHash.getD im.rootIndex 0 && !bit c.fwRootRevoked im.rootIndex

/-- The number of the first check of R394 that an image fails; 0 where it passes them all. (DEDUCED, log entry 56.) -/
def Sec.imageCheck (c : Sec) (im : FwImage) : Nat :=
  if im.magic ≠ 0x5a3e4657 ∨ im.archLevel ≠ 3 ∨ im.reserved then 1
  else if !c.rootOk im then 2
  else if im.signedBy ≠ im.signerPub then 3
  else if im.bodyDigest ≠ im.imgDigest then 4
  else if im.imgSvn < c.svn then 5
  else 0

/-! ## Long operations (R397 to R401) -/

/-- OWNER_PROVISION: none where the DMA read of the key completes with an error (R419). -/
def execOwnerProvision (op : Nat) (pub : Option Nat) (s : State) : Host.Outcome State Fault Refusal :=
  .next (s.whenUp (State.runOp 0x30 op (fun _ s => match pub with
    | none => s.opFail op .aborted
    | some k =>
      if s.sec.ownerHash = 0 then (s.onSec (fun c => { c with ownerHash := k })).opDone op
      else s.opFail op .rightsFault)))

/-- MANIFEST_LOAD. -/
def execManifestLoad (op : Nat) (m : Option Manifest) (s : State) : Host.Outcome State Fault Refusal :=
  .next (s.whenUp (State.runOp 0x31 op (fun _ s => match m with
    | none => s.opFail op .aborted
    | some m =>
      let r := s.loadManifest m
      if r.1 = .ok then r.2.opDone op else r.2.opFail op r.1)))

/-- KEYSLOT_GENERATE. -/
def execKeyslotGenerate (op : Nat) (s : State) : Host.Outcome State Fault Refusal :=
  .next (s.whenUp (State.runOp 0x32 op (fun o s =>
    let k := o.entry.param 0 1
    if k = 0 ∨ 63 < k then s.opFail op .formatError
    else if (s.sec.slotKeys.get? k).isSome then s.opFail op .busy
    else ((s.onSec (fun c => { c with slotKeys := c.slotKeys.set k (s.pick Site.flashKey 0) })).bump).opDone op)))

/-- KEYSLOT_ERASE. (DEDUCED, log entry 47.) -/
def execKeyslotErase (op : Nat) (s : State) : Host.Outcome State Fault Refusal :=
  .next (s.whenUp (State.runOp 0x33 op (fun o s =>
    let k := o.entry.param 0 1
    if k = 0 ∨ 63 < k then s.opFail op .formatError
    else if s.sch.slices.any (fun x => x.state ≠ .absent && x.cfg.flashKeySlot = k) then s.opFail op .busy
    else (s.onSec (fun c => { c with slotKeys := c.slotKeys.erase k })).opDone op)))

/-- DEBUG_CHALLENGE: 64 random bytes. -/
def execDebugChallenge (op : Nat) (s : State) : Host.Outcome State Fault Refusal :=
  .next (s.whenUp (State.runOp 0x34 op (fun o s =>
    let v := s.pick Site.challenge 0 % 2 ^ 512
    (((s.onSec (fun c => { c with challenge := some v })).bump).writeBuffer o (leBytes 64 v)).opDone op)))

/-- DEBUG_UNLOCK: the key that made the signature over the standing challenge and `SEC_IDENTITY`. -/
def execDebugUnlock (op : Nat) (signedBy : Option Nat) (s : State) : Host.Outcome State Fault Refusal :=
  .next (s.whenUp (State.runOp 0x35 op (fun _ s => match signedBy with
    | none => s.opFail op .aborted
    | some k =>
      let good := s.sec.challenge.isSome && s.sec.ownerHash ≠ 0 && k = s.sec.ownerHash && !s.aon.failed.contains 95 &&
        s.sch.slices.all (fun x => x.state = .absent)
      let s := s.onSec (fun c => { c with challenge := none })
      if good then (s.onSec (fun c => { c with unlocked := true })).opDone op
      else (s.logEvent 95 0x0802 0xff Code.rightsFault.num 0 0 0).opFail op .rightsFault)))

/-! ## The recovery push (R399) -/

/-- A push ends without an image. -/
def Sec.endPush (c : Sec) (code : Code) : Sec :=
  { c with recState := 5, recStatus := code.num, nextChunk := 0, recLen := 0, pushed := none }

/-- The code of a refused image: a malformed header is a format error, anything else a fault of rights. (DEDUCED, log entry 46.) -/
def recoveryCode (check : Nat) : Code := if check = 1 then .formatError else .rightsFault

/-- Take the chunk in the window; the last one brings the image to its authentication. -/
def Sec.takeChunk (c : Sec) (index len : Nat) (last : Bool) (image : Option FwImage) : Sec :=
  let c := { c with chunkIndex := index, chunkLen := len, chunkLast := last }
  if 2 ≤ c.recState ∧ c.recState ≤ 4 then c
  else if len = 0 ∨ 262144 < len ∨ index ≠ (if c.recState = 1 then c.nextChunk else 0) then c.endPush .formatError
  else
    let c := { c with recState := 1, nextChunk := index + 1, recLen := (if index = 0 then 0 else c.recLen) + len }
    if !last then c
    else match image with
      | none => c.endPush .formatError
      | some im =>
        match c.imageCheck im with
        | 0 => { c with recState := 3, pushed := some im }
        | n => c.endPush (recoveryCode n)

/-- The node is in recovery. -/
def State.inRecovery (s : State) : Bool := s.aon.bootStage = 15

/-- RECOVERY_CHUNK_GO: SEC_RECOVERY is written with `chunk_go` set. -/
def execRecoveryChunkGo (index len : Nat) (last : Bool) (image : Option FwImage) (s : State) : Host.Outcome State Fault Refusal :=
  .next (s.whenUp (fun s =>
    if s.inRecovery && s.hostUp then s.onSec (fun c => c.takeChunk (index % 128) (len % 524288) last image) else s))

/-! ## SPDM (R402 to R404) -/

/-- The responder answers while the security engine is there. -/
def State.spdm (f : State → State) (s : State) : State := if s.aon.failed.contains 95 then s else f s

/-- An SPDM ERROR answer. (PRESUMED, log entry 48.) -/
def State.spdmError (code request : Nat) (s : State) : State := s.emit (.spdm 0x7f [code, request])

/-- GET_VERSION: SPDM 1.2; an earlier negotiation ends. -/
def execGetVersion (s : State) : Host.Outcome State Fault Refusal :=
  .next (s.whenUp (State.spdm (fun s =>
    (s.onSec (fun c => { c with spdmVersion := true, spdmCaps := false, spdmAlgs := false })).emit (.spdm 0x04 [0x12]))))

/-- GET_CAPABILITIES: CERT_CAP, CHAL_CAP, MEAS_CAP with signatures, MEAS_FRESH_CAP. -/
def execGetCapabilities (s : State) : Host.Outcome State Fault Refusal :=
  .next (s.whenUp (State.spdm (fun s =>
    if s.sec.spdmVersion then (s.onSec (fun c => { c with spdmCaps := true })).emit (.spdm 0x61 [0x36])
    else s.spdmError 0x04 0xe1)))

/-- NEGOTIATE_ALGORITHMS: ECDSA P-521 and SHA-512, of what the requester offers. -/
def execNegotiateAlgorithms (asym hash : Nat) (s : State) : Host.Outcome State Fault Refusal :=
  .next (s.whenUp (State.spdm (fun s =>
    if s.sec.spdmCaps then
      (s.onSec (fun c => { c with spdmAlgs := bit asym 8 && bit hash 2 })).emit
        (.spdm 0x63 [if bit asym 8 then 0x100 else 0, if bit hash 2 then 4 else 0, 8])
    else s.spdmError 0x04 0xe3)))

/-- The identity chain, as Gwynhaot wrote it, and its digest. -/
def certChain : Nat := Config.freeValue Site.certChain 0 0
/-- Digest of the identity chain. -/
def certDigest : Nat := Config.freeValue Site.certChain 0 1

/-- GET_DIGESTS: slot 0 only. -/
def execGetDigests (s : State) : Host.Outcome State Fault Refusal :=
  .next (s.whenUp (State.spdm (fun s =>
    if s.sec.spdmAlgs then s.emit (.spdm 0x01 [1, certDigest]) else s.spdmError 0x04 0x81)))

/-- GET_CERTIFICATE: slot 0 only. -/
def execGetCertificate (slot : Nat) (s : State) : Host.Outcome State Fault Refusal :=
  .next (s.whenUp (State.spdm (fun s =>
    if !s.sec.spdmAlgs then s.spdmError 0x04 0x82
    else if slot = 0 then s.emit (.spdm 0x02 [0, certChain])
    else s.spdmError 0x01 0x82)))

/-- CHALLENGE: signed by the identity key over the requester's nonce. -/
def execChallenge (slot nonce : Nat) (s : State) : Host.Outcome State Fault Refusal :=
  .next (s.whenUp (State.spdm (fun s =>
    if !s.sec.spdmAlgs then s.spdmError 0x04 0x83
    else if slot = 0 then (s.emit (.spdm 0x03 [0, certDigest, nonce, s.pick Site.signature 0])).bump
    else s.spdmError 0x01 0x83)))

/-- What the header of an image says (R393). -/
def imageWords (im : FwImage) : List Nat :=
  [im.magic, im.archLevel, im.rootIndex, im.imgSvn, im.imgLen, im.imgVersion, im.imgDigest, im.signerPub, im.signedBy]

/-- The content of a measurement block (R403); the block itself is its SHA-512. (DESIGN CHOICE, log entry 57.) -/
def State.measurement (s : State) (i : Nat) : List Nat :=
  let c := s.sec
  if i = 1 then [c.romVersion] ++ c.fwRootHash ++ [c.fwRootRevoked, c.ownerHash, c.svn, b2n c.debugLock]
  else if i = 2 then (c.image.map imageWords).getD []
  else if i = 3 then (((c.running.map FwImage.catalogue).getD []).flatMap (fun e => [e.1, e.2]))
  else if i = 4 then (c.manifest.map (fun m => [m.digest])).getD []
  else if i = 5 then [s.sch.bsSerial, s.sch.bsDigest]
  else if 6 ≤ i ∧ i ≤ 13 then
    let x := s.slice (i - 6)
    if x.state = .absent then [0, 0] else [x.serial, x.digest]
  else if i = 14 then [s.secReg 0x18]
  else [b2n s.ras.fenced, b2n s.ras.expelled, s.aon.selfCause, b2n c.unlocked]

/-- The blocks that an index asks for: one, or all 15. -/
def measureList (index : Nat) : Option (List Nat) :=
  if index = 0xff then some ((List.range 15).map (· + 1)) else if 1 ≤ index ∧ index ≤ 15 then some [index] else none

/-- GET_MEASUREMENTS: index 0 asks for the number of blocks; the answer is signed by the identity key over the nonce. -/
def execGetMeasurements (index nonce : Nat) (s : State) : Host.Outcome State Fault Refusal :=
  .next (s.whenUp (State.spdm (fun s =>
    if !s.sec.spdmAlgs then s.spdmError 0x04 0xe0
    else if index = 0 then (s.emit (.spdm 0x60 [15, nonce, s.pick Site.signature 0])).bump
    else match measureList index with
      | none => s.spdmError 0x01 0xe0
      | some l => (s.emit (.spdm 0x60 (l.flatMap (fun i => i :: s.measurement i) ++ [nonce, s.pick Site.signature 0]))).bump)))

/-- SPDM_UNSUPPORTED: KEY_EXCHANGE, PSK_EXCHANGE, FINISH and any other request. -/
def execSpdmUnsupported (code : Nat) (s : State) : Host.Outcome State Fault Refusal :=
  .next (s.whenUp (State.spdm (State.spdmError 0x07 code)))

end Sys2Proof.Machine
end

