-- ==== Sys2Proof/Machine/HostIf.lean ====
section
/-! DEFINITION. The host's accesses: register reads and writes (R13, R410), rings and interrupts (R412, R420), the BAR2 window
(R60, R411), resets of the endpoint and D3hot (R406, R407), and the long operations on keys, drives, log and catalogue (R414). -/

namespace Sys2Proof.Machine

/-! ## Rings, causes, acknowledgement (R412, R420, R425) -/

/-- `ring_enable` changes from 0 to 1: `head` and the tail become 0. -/
def State.ringOn (r : Nat) (s : State) : State :=
  if (s.ring r).enable then s else s.onRing r (fun x => { x with enable := true, head := 0, tail := 0 })

/-- `ring_enable` is cleared: fetching stops; admitted operations go on. -/
def State.ringOff (r : Nat) (s : State) : State := s.onRing r (fun x => { x with enable := false })

/-- RING_ENABLE. -/
def execRingEnable (ring : Fin 64) (s : State) : Host.Outcome State Fault Refusal :=
  .next (s.whenUp (State.fromHost false (State.ringOn ring)))

/-- RING_DISABLE. -/
def execRingDisable (ring : Fin 64) (s : State) : Host.Outcome State Fault Refusal :=
  .next (s.whenUp (State.fromHost false (State.ringOff ring)))

/-- Write 1 to clear: the bits of `old` that `v` does not name. -/
def w1c (n old v : Nat) : Nat := bitsOf n (fun i => bit old i && !bit v i)

/-- Clear cause bits. -/
def State.clearCause (v : Nat) (s : State) : State := s.onHost (fun h => { h with cause := w1c 5 h.cause v })

/-- IRQ_CAUSE_CLEAR. -/
def execIrqCauseClear (value : Nat) (s : State) : Host.Outcome State Fault Refusal :=
  .next (s.whenUp (State.fromHost false (State.clearCause value)))

/-- `ack_seq` moves up; above `next_seq` acts as `next_seq`, below the current value is ignored. -/
def State.ackLog (v : Nat) (s : State) : State := s.onLog (fun l => { l with ackSeq := max l.ackSeq (min v l.nextSeq) })

/-- LOG_ACK_WRITE. -/
def execLogAckWrite (value : Nat) (s : State) : Host.Outcome State Fault Refusal :=
  .next (s.whenUp (State.fromHost false (State.ackLog (value % 2 ^ 64))))

/-! ## Register writes (R410) -/

/-- Write TOP registers; `v` holds the written bytes alone, `w` the register with them. -/
def State.topWrite (o v w : Nat) (s : State) : State :=
  if o = 0x18 then s.onHost (fun h => { h with bar2Base := bits w 3 0, bar2WrEnable := bit w 4 })
  else if o = 0x78 then s.clearCause v
  else if 0x1000 ≤ o ∧ o < 0x1800 then
    let r := (o - 0x1000) / 0x20
    match o % 0x20 / 8 with
    | 0 => if (s.ring r).enable then s else s.onRing r (fun x => { x with base := bits w 63 12 })
    | 1 =>
      let s := s.onRing r (fun x => { x with
        log2 := if x.enable then x.log2 else bits w 4 0
        vector := bits w 13 7
        errDoorbell := x.errDoorbell && !bit v 16
        errEntry := x.errEntry && !bit v 17
        errStatus := x.errStatus && !bit v 18 })
      if bit w 5 then s.ringOn r else s.ringOff r
    | _ => s
  else if 0x80000 ≤ o ∧ o < 0x80800 then s.onHost (fun h => { h with msix := h.msix.set ((o - 0x80000) / 8) w })
  else s

/-- Write the registers of a region. -/
def State.rgnWrite (n o w : Nat) (s : State) : State :=
  if o = 0x30000 then
    let s := s.onNbu n (fun r => { r with windowMax := bits w 10 0 })
    if bit w 11 then s.enableNb n else s.disableNb n
  else s

/-- Write the registers of ETH. -/
def State.ethWrite (o w : Nat) (s : State) : State :=
  if o = 0x48 then s.onEth (fun e => { e with
    tInc := bits w 9 0, rAi := bits w 21 10, rMin := bits w 33 22, fastSteps := bits w 37 34, cnpGap := bits w 45 38 })
  else if o = 0x58 then s.onEth (fun e => { e with histPort := bits w 2 0, histQueue := bits w 7 3, histKind := bits w 8 8 })
  else s

/-- Write the register at an aligned offset. -/
def State.regWrite (off v w : Nat) (s : State) : State :=
  match blockOf off with
  | (.top, o) => s.topWrite o v w
  | (.pwr, o) => if o = 0x08 then s.onPwr (fun p => { p with capHost := bits w 9 0 }) else s
  | (.sec, o) =>
    if o = 0x20 then
      let s := s.onSec (fun c => { c with recoveryReq := bit w 9, chunkIndex := bits w 6 0, chunkLast := bit w 7, chunkLen := bits w 28 10 })
      if bit v 8 && s.inRecovery then s.onSec (fun c => c.takeChunk (bits w 6 0) (bits w 28 10) (bit w 7) none) else s
    else s
  | (.log, o) =>
    if o = 0x10 then s.ackLog w
    else if o = 0x18 then (s.onLog (fun l => { l with irqThreshold := bits w 16 0 })).logIrq
    else if o = 0x20 then s.onLog (fun l => { l with selSeq := w })
    else s
  | (.ras, o) =>
    if o = 0x00 then s.onRas (fun r => { r with audit := (List.range 8).map (fun i => bits w (2 * i + 1) (2 * i)) })
    else if o = 0x38 then s.onRas (fun r => { r with availSlice := bits w 2 0 })
    else s
  | (.sch, o) => if o = 0x100 then s.onSch (fun c => { c with tableSel := bits w 7 0 }) else s
  | (.rgn n, o) => s.rgnWrite n o w
  | (.pfx, _) => s
  | (.home, _) => s
  | (.xpt, o) =>
    if o = 0x00 then s.onXpt (fun x => { x with rnrCode := bits w 4 0, pmtuMax := bits w 6 5, ackTimeout := bits w 23 8 }) else s
  | (.eth, o) => s.ethWrite o w
  | (.nothing, _) => s

/-- A write of 4 or 8 bytes: the other bytes of the register keep their value. -/
def State.writeAt (off size value : Nat) (s : State) : State :=
  let sh := 8 * (off % 8)
  let v := value % 2 ^ (8 * size) * 2 ^ sh
  let cur := s.regValue (off / 8 * 8)
  s.regWrite (off / 8 * 8) v (cur % 2 ^ sh + v + cur / 2 ^ (sh + 8 * size) * 2 ^ (sh + 8 * size))

/-! ## Register accesses (R410) -/

/-- A BAR0 request that is served: 4 or 8 bytes, aligned to its size. -/
def accessOk (off size : Nat) : Bool := (size = 4 || size = 8) && off % size = 0

/-- The registers of the offset lie in islands that are stopped: Locus, transport and ports during a coolant fault, Apex while it is
down. (DEDUCED, log entry 44.) -/
def State.regStopped (s : State) (off : Nat) : Bool :=
  match (blockOf off).1 with
  | .pfx => s.aon.stopped.contains 78
  | .xpt => s.aon.stopped.contains 76
  | .eth => s.aon.stopped.contains 72
  | .pwr => s.pwr.apexDown
  | _ => false

/-- The register answers: in recovery the SEC block alone (R399). -/
def State.regPresent (s : State) (off : Nat) : Bool := s.aon.bootStage ≠ 15 || (blockOf off).1 = .sec

/-- A request that is not served completes with Unsupported Request. -/
def State.unsupported (off size : Nat) (s : State) : State :=
  (s.onHost (fun h => { h with bar0Ur := inc16 h.bar0Ur })).emit (.unsupported off size)

/-- A read returns and clears. -/
def State.completeRead (off size : Nat) (s : State) : State :=
  (s.emit (.regRead off size (s.regRead off size))).clearRc off size

/-- RC_REGISTER_READ: a read of a stopped island's register waits. -/
def execRcRegisterRead (offset size : Nat) (s : State) : Host.Outcome State Fault Refusal :=
  .next (s.whenUp (State.fromHost true (fun s =>
    if !accessOk offset size then s.unsupported offset size
    else if !s.regPresent offset then s.emit (.regRead offset size 0)
    else if s.regStopped offset then s.onHost (fun h => { h with heldReads := h.heldReads ++ [(offset, size, s.now)] })
    else s.completeRead offset size)))

/-- REGISTER_WRITE: a write to a stopped island's register takes effect when the island restarts. -/
def execRegisterWrite (offset size value : Nat) (s : State) : Host.Outcome State Fault Refusal :=
  .next (s.whenUp (State.fromHost true (fun s =>
    if !accessOk offset size then s.unsupported offset size
    else if !s.regPresent offset then s
    else if s.regStopped offset then s.onHost (fun h => { h with heldWrites := h.heldWrites ++ [(offset, size, value)] })
    else s.writeAt offset size value)))

/-- A read that has waited 50 µs completes with all ones and clears nothing. -/
def State.timeoutRead (off size : Nat) (s : State) : State :=
  (s.onHost (fun h => { h with regTimeouts := inc16 h.regTimeouts })).emit (.regRead off size (2 ^ (8 * size) - 1))

/-- A held read has waited 50 µs. -/
def State.overdue (s : State) (x : Nat × Nat × Nat) : Bool := x.2.2 + 50000 ≤ s.now

/-- REG_READ_TIMEOUT. -/
def execRegReadTimeout (offset size : Nat) (s : State) : Host.Outcome State Fault Refusal :=
  .next (s.whenUp (fun s =>
    match s.host.heldReads.find? (fun x => x.1 = offset && x.2.1 = size && s.overdue x) with
    | none => s
    | some x => (s.onHost (fun h => { h with heldReads := h.heldReads.erase x })).timeoutRead offset size))

/-- Islands restart: the accesses that they held take effect. -/
def State.releaseHeld (s : State) : State :=
  let rs := s.host.heldReads.filter (fun x => !s.regStopped x.1)
  let ws := s.host.heldWrites.filter (fun x => !s.regStopped x.1)
  let s := s.onHost (fun h => { h with
    heldReads := h.heldReads.filter (fun x => !rs.contains x)
    heldWrites := h.heldWrites.filter (fun x => !ws.contains x) })
  let s := rs.foldl (fun s x => if s.overdue x then s.timeoutRead x.1 x.2.1 else s.completeRead x.1 x.2.1) s
  ws.foldl (fun s x => s.writeAt x.1 x.2.1 x.2.2) s

/-! ## BAR2 (R60, R411) -/

/-- Node address of an offset of the window. -/
def State.bar2Addr (s : State) (x : Nat) : Nat := s.host.bar2Base * 2 ^ 36 + x % 2 ^ 36

/-- An address that a BAR2 access may not reach: reserved or unimplemented. -/
def bar2Barred (a : Nat) : Bool := !pageSpace a

/-- Log a refused BAR2 access once, with its address (R60, R411, R424): 0 read, 1 write. (DEDUCED, log entry 50.) -/
def State.logBar2 (kind a : Nat) (refused : Bool) (s : State) : State :=
  if refused then s.logEvent 91 0x0201 0xff 0 kind a 0 else s

/-- Read one piece of stack memory, in class 4 of its region's arbiter: it waits where its bank is in a window. -/
def State.bar2Piece (a n : Nat) (s : State) : State :=
  if bar2Barred a then s.emit (.memRead a (List.replicate n 0))
  else
    let s := s.takeStack 4 a
    if s.collides a && !s.stackFenced (addrStack a) then s.collide a n .host
    else s.emit (.memRead a (s.memReadN a n))

/-- BAR2_READ: until the stacks are up it returns zero (R432). -/
def execBar2Read (x len : Nat) (s : State) : Host.Outcome State Fault Refusal :=
  .next (s.whenUp (State.fromHost false (fun s =>
    let a := s.bar2Addr x
    let ps := pieces (len + 1) a len
    let s := s.logBar2 0 a (ps.any (fun p => bar2Barred p.1))
    if !s.aon.stacksUp then s.emit (.memRead a (List.replicate len 0))
    else ps.foldl (fun s p => s.bar2Piece p.1 p.2) s)))

/-- A write through BAR2 at an address is discarded (R60, R411). -/
def State.bar2Refuses (s : State) (a : Nat) : Bool := bar2Barred a || s.stackFenced (addrStack a)

/-- Write one piece of stack memory. -/
def State.bar2Put (a : Nat) (d : List Byte) (s : State) : State := if s.bar2Refuses a then s else (s.takeStack 4 a).busWrite a d

/-- BAR2_WRITE. -/
def execBar2Write (x : Nat) (data : List Byte) (s : State) : Host.Outcome State Fault Refusal :=
  .next (s.whenUp (State.fromHost false (fun s =>
    let a := s.bar2Addr x
    let ps := pieces (data.length + 1) a data.length
    let s := s.logBar2 1 a (ps.any (fun p => s.bar2Refuses p.1))
    if !s.host.bar2WrEnable then s.onHost (fun h => { h with bar2Discards := inc16 h.bar2Discards })
    else if !s.aon.stacksUp then s
    else ps.foldl (fun s p => s.bar2Put p.1 ((data.drop (p.1 - a)).take p.2)) s)))

/-! ## Resets of the endpoint (R406, R407, R428) -/

/-- TOP registers, rings and MSI-X state are reset; admitted operations run on with their writes suppressed, and a load whose
frames are being read ends ABORTED (R428). -/
def State.resetEndpoint (up : Bool) (s : State) : State :=
  let s := s.onHost (fun h => { linkUp := up, lost := h.lost, heldWrites := h.heldWrites, ops := h.ops.map (fun o => (o.1, { o.2 with suppressed := true })), nextOp := h.nextOp })
  (s.host.ops.filter (fun o => o.2.entry.op = 1 && o.2.state = 2 && !o.2.pastStep9 && o.2.staged.isNone)).foldl (fun s o => s.opFail o.1 .aborted) s

/-- FUNCTION_LEVEL_RESET. -/
def execFunctionLevelReset (s : State) : Host.Outcome State Fault Refusal :=
  .next (s.whenUp (fun s => if s.host.lost then s else s.resetEndpoint true))

/-- PCIE_LINK_DOWN. -/
def execPcieLinkDown (s : State) : Host.Outcome State Fault Refusal := .next (s.whenUp (State.resetEndpoint false))

/-- D3HOT_TRANSITION. -/
def execD3hotTransition (toD3 : Bool) (s : State) : Host.Outcome State Fault Refusal :=
  .next (s.whenUp (fun s =>
    if s.host.lost || decide (s.aon.bootStage < 4) then s else s.linked.onHost (fun h => { h with d3 := toD3 })))

/-! ## Long operations on keys (R258, R261, R414) -/

/-- The parameters of KEY_CREATE. -/
def RingEntry.keyParams (e : RingEntry) : KeyParams :=
  { kind := e.param 0 1, stack := e.param 1 1, group := e.param 2 2, rights := e.param 4 2, lenOrLo := e.param 8 8,
    handleHi := e.param 16 8, index := e.param 24 4 }

/-- KEY_CREATE. -/
def execKeyCreate (op : Nat) (s : State) : Host.Outcome State Fault Refusal :=
  .next (s.whenUp (State.runOp 0x10 op (fun o s =>
    if !keyParamsOk o.entry.keyParams then s.opFail op .formatError
    else match s.createKey o.entry.slice o.entry.keyParams with
      | .ok (r, s) => (s.writeBuffer o (leBytes 4 r.1 ++ leBytes 4 0 ++ leBytes 8 r.2)).opDone op
      | .error e => s.opFail op e)))

/-- KEY_REMOVE. -/
def execKeyRemove (op : Nat) (s : State) : Host.Outcome State Fault Refusal :=
  .next (s.whenUp (State.runOp 0x11 op (fun o s => match s.removeKey o.entry.slice (o.entry.param 0 4) with
    | .ok s => s.opDone op
    | .error e => s.opFail op e)))

/-! ## Drives (R228, R400, R414, R435) -/

/-- The flash key of an extent is in the key store. -/
def Sec.holdsKey (c : Sec) (k : Nat) : Bool := k = 0 || c.slotKeys.any (fun x => x.2 = k)

/-- Extents that a format leaves unallocated: their key has been erased (R400). -/
def State.deadExtents (s : State) (d : Nat) : List (Nat × Nat) :=
  let x := s.mem.drives.getD d {}
  x.extents.filter (fun e => imageGranules ≤ e.1 && !s.sec.holdsKey (x.keys.getD e.1 0))

/-- An entry whose flash copy a format has removed: it stands in stack memory alone, or is dropped (R237, R461). -/
def State.lostFlash (e : Entry) (s : State) : State :=
  match e.frameState with
  | .stackClean => ((s.retireShadow e.slice e.name).onEntry e.slice e.name (fun e => { e with frameState := .stack })).bumpGen
      e.slice e.name true
  | .demoting => ((s.dropCmds e.flashDrive e.slice e.name).retireShadow e.slice e.name).onEntry e.slice e.name
      (fun e => { e with frameState := .stack })
  | .filling => (((s.endFill e.slice e.name).retireUnit e.quarter e.stackFrame (frameGranules (s.format e.slice))).onEntry e.slice e.name
      (fun e => { e with frameState := .dropped })).bumpGen e.slice e.name true |>.writeSlots e.slice e.name 1 .ok
  | _ => (s.onEntry e.slice e.name (fun e => { e with frameState := .dropped })).bumpGen e.slice e.name true

/-- Format a drive for this node: bitmap, then header. (DEDUCED, log entry 49.) -/
def State.formatDrive (d : Nat) (s : State) : State :=
  let dead := s.deadExtents d
  let s := (s.home.entries.filter (fun e => e.frameState.onFlash && e.flashDrive = d && dead.any (fun x => x.1 = e.flashGranule))).foldl
    (fun s e => s.lostFlash e) s
  s.clearMark.onDrive d (fun x => { x with
    extents := (0, imageGranules) :: x.extents.filter (fun e => imageGranules ≤ e.1 && !dead.contains e)
    cells := dead.foldl (fun c e => cellZero c (e.1 * 65536) ((e.1 + e.2) * 65536)) x.cells
    keys := x.keys.filter (fun k => !dead.any (fun e => e.1 = k.1))
    tweaks := x.tweaks.filter (fun k => !dead.any (fun e => e.1 = k.1))
    headerNode := s.nodeId
    headerNumber := d
    headerVersion := 1
    metaKey := s.sec.slotKeys.getD 0 0
    headerKeys := s.secReg 0x18
    formatted := true
    foreign := false
    outOfUse := false })

/-- DRIVE_FORMAT: its progress counts the bitmap blocks. -/
def execDriveFormat (op : Nat) (s : State) : Host.Outcome State Fault Refusal :=
  .next (s.whenUp (State.runOp 0x20 op (fun o s =>
    let d := o.entry.param 0 1
    if 15 < d then s.opFail op .formatError
    else match s.mem.drives.get? d with
      | none => s.opFail op .miss
      | some x =>
        if !x.present || x.failed then s.opFail op .miss
        else if s.sch.slices.any (fun c => c.state ≠ .absent && bit c.cfg.tier.flashDrives d) then s.opFail op .busy
        else (s.formatDrive d).endOp op 4 .ok (cdiv x.granules 32768))))

/-! ## Log and catalogue (R339, R414, R423) -/

/-- The 40 bytes of entry `q`. -/
def State.logBytes (s : State) (q : Nat) : List Byte :=
  match s.log.entries.get? q with
  | some e => leBytes 8 (logDescriptor q e) ++ e.record
  | none => []

/-- Deliver bytes in units and end the operation. -/
def State.deliver (id : Nat) (o : LongOp) (units : Nat) (data : List Byte) (code : Code) (s : State) : State :=
  let s := if units = 0 then s else (s.writeBuffer o data).setOp id 3 .ok units
  s.endOp id 4 code units

/-- LOG_READ. -/
def execLogRead (op : Nat) (s : State) : Host.Outcome State Fault Refusal :=
  .next (s.whenUp (State.runOp 0x40 op (fun o s =>
    let start := o.entry.param 0 8
    let lo := max start (s.log.nextSeq - 65536)
    let n := min (o.entry.param 8 4) (s.log.nextSeq - lo)
    let data := ((List.range n).map (fun i => s.logBytes (lo + i))).flatten
    s.deliver op o n data (if start < lo ∧ start < s.log.nextSeq then .part else .ok))))

/-- The catalogue of the image that runs, 8 bytes an entry. -/
def FwImage.catalogueBytes (im : FwImage) : List (List Byte) :=
  im.catalogue.map (fun e => leBytes 1 e.1 ++ leBytes 1 e.2 ++ leBytes 2 0 ++ leBytes 4 im.imgVersion)

/-- CATALOGUE_READ: as many entries as the buffer holds. -/
def execCatalogueRead (op : Nat) (s : State) : Host.Outcome State Fault Refusal :=
  .next (s.whenUp (State.runOp 0x41 op (fun o s =>
    let l := ((s.sec.running.map FwImage.catalogueBytes).getD []).take (o.entry.bufLen / 8)
    s.deliver op o l.length l.flatten .ok)))

end Sys2Proof.Machine
end

