-- ==== Sys2Proof/Machine/Misses.lean ====
section
/-! DEFINITION. A spilled context comes back on die, and the packets that waited for it are processed in arrival order (R269, R270,
R297). -/

namespace Sys2Proof.Machine

/-- The meaning of a command that a packet carries. -/
def missedOutcome (i : Instr) (s : State) : Host.Outcome State Fault Refusal :=
  match i with
  | .attendFwd h p => execAttendFwd h p s
  | .attendBwdOpen h p => execAttendBwdOpen h p s
  | .attendBwdAccumulate h p => execAttendBwdAccumulate h p s
  | .attendBwdCollect h p => execAttendBwdCollect h p s
  | .attendBwdDiscard h p => execAttendBwdDiscard h p s
  | .lookup h p => execLookup h p s
  | .publishPage h p => execPublishPage h p s
  | .publishPrefix h p => execPublishPrefix h p s
  | .prefixRelease h p => execPrefixRelease h p s
  | .leaseAcquire h p => execLeaseAcquire h p s
  | .leaseRenew h p => execLeaseRenew h p s
  | .leaseRelease h p => execLeaseRelease h p s
  | .handoverTransfer h p => execHandoverTransfer h p s
  | .handoverDiscard h p => execHandoverDiscard h p s
  | .handoverQuery h p => execHandoverQuery h p s
  | .pin h p => execPin h p s
  | .unpin h p => execUnpin h p s
  | .statOwnQp h => execStatOwnQp h s
  | .statGroup h => execStatGroup h s
  | .statNode h => execStatNode h s
  | .mapInstall h c m => execMapInstall h c m s
  | .nodeFence h c => execNodeFence h c s
  | .nodeUnfence h c => execNodeUnfence h c s
  | .nodeExpel h c => execNodeExpel h c s
  | .requesterFence h c ranges => execRequesterFence h c ranges s
  | .requesterUnfence h c ranges => execRequesterUnfence h c ranges s
  | .powerShift h c capW ms => execPowerShift h c capW ms s
  | .admKeyCreate h c slice k => execAdmKeyCreate h c slice k s
  | .admKeyRemove h c slice key => execAdmKeyRemove h c slice key s
  | .isolationSet h c slice index entryValid e => execIsolationSet h c slice index entryValid e s
  | .groupSet h c slice group gClass e => execGroupSet h c slice group gClass e s
  | .isolationExport h c slice port first count => execIsolationExport h c slice port first count s
  | .admManifestLoad h c slice m => execAdmManifestLoad h c slice m s
  | .peerBucketState h b => execPeerBucketState h b s
  | .peerCompletionMarker h fromNode generation => execPeerCompletionMarker h fromNode generation s
  | .peerReplicaCopy h r => execPeerReplicaCopy h r s
  | .peerGrant h slice name frameGen => execPeerGrant h slice name frameGen s
  | .peerRevoke h slice name => execPeerRevoke h slice name s
  | .peerRelabel h slice name oldGen newGen => execPeerRelabel h slice name oldGen newGen s
  | .peerDrop h slice name => execPeerDrop h slice name s
  | .hello h levels role => execHello h levels role s
  | .peerAcknowledgement k a => execPeerAcknowledgement k a s
  | .rdmaReadRequest k rkey va len => execRdmaReadRequest k rkey va len s
  | .rdmaWrite k pos rkey va dmaLen data => execRdmaWrite k pos rkey va dmaLen data s
  | .compareAndSwap k rkey va compare swap => execCompareAndSwap k rkey va compare swap s
  | .fetchAndAdd k rkey va add => execFetchAndAdd k rkey va add s
  | .invalidOpcode k opcode => execInvalidOpcode k opcode s
  | .acknowledgeReceived k => execAcknowledgeReceived k s
  | .rnrNakReceived k timer => execRnrNakReceived k timer s
  | .fatalNakReceived k syndrome => execFatalNakReceived k syndrome s
  | .cnpReceived k echoValid echo => execCnpReceived k echoValid echo s
  | _ => .next s

/-- Process one packet that left the miss buffer. -/
def State.runMissed (i : Instr) (s : State) : State :=
  match missedOutcome i s with
  | .next t => t
  | _ => s

/-- The timer updates that a context missed while it was spilled, at most 127 of them (R297). -/
def State.catchUp (q : Nat) (c : Ctx) (s : State) : State :=
  let n := s.missedUpdates c
  if n = 0 then s
  else ((List.range n).foldl (fun s _ => s.echoUpdate q) s).onCtx q (fun c => { c with echo := { c.echo with tUpdate := s.tick } })

/-- A context is on die: its missed updates first, then its packets in arrival order (R270, R297). (DEDUCED, log entry 20.) -/
def State.loadCtx (q : Nat) (c : Ctx) (s : State) : State :=
  let mine := s.xpt.missBuf.filter (fun m => m.qpn = q)
  let s := s.onXpt (fun x => { x with missBuf := x.missBuf.filter (fun m => m.qpn ≠ q) })
  let s := s.onCtx q (fun c => { c with onDie := true, loading := false, discarding := false, lastUsed := s.now })
  let s := s.catchUp q c
  mine.foldl (fun s m => s.runMissed m.cmd) s

/-- Both stacks of a context's spill pair are fenced: the context is lost (R269). -/
def State.spillLost (s : State) (q : Nat) : Bool := s.stackFenced (q % 4) && s.stackFenced (q % 4 + 4)

/-- CONTEXT_LOAD: the fetch that a packet began completes; with every place on die pinned it goes on waiting. -/
def execContextLoad (qpn : Nat) (s : State) : Host.Outcome State Fault Refusal :=
  .next (s.whenUp (fun s => match s.ctx qpn with
    | none => s
    | some c =>
      if c.onDie || !c.loading then s
      else if s.spillLost qpn then
        s.onXpt (fun x => { x with ctxs := x.ctxs.erase qpn, missBuf := x.missBuf.filter (fun m => m.qpn ≠ qpn) })
      else match s.roomOnDie (if c.nodeLevel then 0xff else c.slice) with
        | none => s
        | some s => s.loadCtx qpn c))

end Sys2Proof.Machine
end

