-- ==== Sys2Proof/Machine/Startup.lean ====
section
/-! DEFINITION. Resets, supplies and clocks (R429, R430, R447, R450, R453), the power-up timeline (R394, R399, R431), the state
sources and what a start keeps (R433 to R439), ramps and the spill sweep (R441, R444), the loss of Vertex (R366), and the restart of
islands (R386, R388). -/

namespace Sys2Proof.Machine

/-! ## What a reset drops (R430, R437) -/

/-- A block at bring-up: its cells are empty, and retired cells are taken out as their slots were about to be (R28, R355). -/
def BlockS.bringUp (b : BlockS) : BlockS :=
  let gone := (List.range 4).filter (fun i => match b.slots.getD i none with
    | some p => (b.cell p).retiring
    | none => false)
  let slots := (b.slots.zipIdx).map (fun x =>
    if gone.contains x.2 then (if !b.spareUsed ∧ gone.head? = some x.2 then some 4 else none)
    else if x.1 = some 4 ∧ !b.spareUsed then some x.2 else x.1)
  { slots := slots, spareUsed := b.spareUsed || !gone.isEmpty }

/-- Blocks whose vector unit is retired, or that have no cell left, are withdrawn again (R355, R356). -/
def State.retiredBlocks (s : State) : List Nat :=
  (List.range 32).filter (fun b => (s.unit (unitKey (.vector (Fin.ofNat 32 b)))).state = .retired || s.noCell b)

/-- A region's sequencer at bring-up: the retire list's steering stays (R149, R355). -/
def NbRegion.bringUp (r : NbRegion) : NbRegion := { nextWin := r.nextWin, spareMap := r.spareMap, retiredUnits := r.retiredUnits }

/-- Reliability state at bring-up: what R434 and R437 keep stays; withdrawals, region fences, lost quarters and counters end. -/
def Ras.bringUp (r : Ras) : Ras :=
  { units := r.units
    locusSpares := r.locusSpares
    phasesOn := r.phasesOn
    phasesBad := r.phasesBad
    rowCorrected := r.rowCorrected
    rowsFaulty := r.rowsFaulty
    fenced := r.fenced
    expelled := r.expelled
    reason := r.reason
    serials := r.serials
    reqFences := r.reqFences
    avail := r.avail.map (fun a => { a with swaps := 0, longestUs := 0 }) }

/-- Power state at bring-up: totals and fused coefficients stay. -/
def Pwr.bringUp (now : Nat) (p : Pwr) : Pwr :=
  { thrNs := p.thrNs, energy := p.energy, energyMeas := p.energyMeas, coreCoef := p.coreCoef, stackCoef := p.stackCoef, telAt := now }

/-- Security state at bring-up: fuses, boot flash and `recovery_req` stay (R391, R398 to R400, R437). -/
def Sec.bringUp (c : Sec) : Sec :=
  { deviceSecret := c.deviceSecret
    fwRootHash := c.fwRootHash
    fwRootRevoked := c.fwRootRevoked
    ownerHash := c.ownerHash
    svn := c.svn
    debugLock := c.debugLock
    identityKey := c.identityKey
    image := c.image
    manifest := c.manifest
    slotKeys := c.slotKeys
    recoveryReq := c.recoveryReq
    romVersion := c.romVersion }

/-- A slice at bring-up: absent, with its page-format record and the serial and digest of its last section (R45, R343). -/
def SliceS.bringUp (x : SliceS) : SliceS := { cfg := { format := x.cfg.format }, serial := x.serial, digest := x.digest }

/-- Slices and scheduling at bring-up: no bit-stream is kept (R343). -/
def Sch.bringUp (c : Sch) : Sch :=
  { slices := c.slices.map SliceS.bringUp, bsSerial := c.bsSerial, bsDigest := c.bsDigest, lastOwner := c.lastOwner }

/-- A drive at bring-up: its commands and counters are gone; what it stores stays. -/
def Drive.bringUp (d : Drive) : Drive :=
  { port := d.port, granules := d.granules, capacity := d.capacity, headerNode := d.headerNode, headerNumber := d.headerNumber,
    headerVersion := d.headerVersion, headerKeys := d.headerKeys, extents := d.extents, nextCmd := d.nextCmd, cells := d.cells,
    keys := d.keys, tweaks := d.tweaks, metaKey := d.metaKey, mark := d.mark, formatted := d.formatted }

/-- Stack memory at bring-up: accesses not issued are lost (R430). -/
def Mem.bringUp (m : Mem) : Mem :=
  { cells := m.cells, spans := m.spans, retire := m.retire, epochs := m.epochs, drives := m.drives.map (fun d => (d.1, d.2.bringUp)) }

/-- The home directory at bring-up: leases, pins, accumulators, replica records, streams, transfers in progress and the previous map
are gone (R437); the write key of every lease that was open is bumped (R211). -/
def Home.bringUp (now : Nat) (h : Home) : Home :=
  { nameKey := h.nameKey
    seqs := h.seqs.map (fun r => { r with openLeases := 0 })
    entries := h.entries.map (fun e => { e with stale := true })
    slotGens := h.slotGens
    leaseGens := h.leases.foldl (fun t l => t.update l.1 {} (GenState.finish now)) h.leaseGens
    cur := h.cur
    awaiting := h.awaiting
    awaitMarkers := h.awaitMarkers }

/-- The prefix directory at bring-up: nodes and the overflow table stay. -/
def Locus.bringUp (l : Locus) : Locus := { ovf := l.ovf, nodes := l.nodes }

/-- The transport at bring-up: keys stay. -/
def Xpt.bringUp (x : Xpt) : Xpt :=
  { regionKeys := x.regionKeys, serviceKeys := x.serviceKeys, regionGens := x.regionGens, serviceGens := x.serviceGens }

/-- Ports at bring-up: retired lanes and their spares stay. -/
def Eth.bringUp (e : Eth) : Eth := { lanesRetired := e.lanesRetired, s0 := e.s0, s1 := e.s1 }

/-- Frames hold the spans of kind 5 no longer (R438): the accumulators are gone. -/
def State.freeAccSpans (s : State) : State := s.onMem (fun m => { m with spans := m.spans.filter (fun x => x.2.kind ≠ 5) })

/-- Every island but 98 and the memory islands stops (R430). -/
def resetIslands : List Nat := List.range 40 ++ (List.range 42).map (· + 56) ++ [99]

/-- A reset of the islands: the stacks enter self-refresh, a flush is abandoned, and what no start keeps is gone. (DEDUCED, log entry 52.) -/
def State.dropVolatile (s : State) : State :=
  { s with
    aon := { s.aon with stacksHeld := s.aon.stacksHeld || s.aon.stacksUp, stacksUp := false, bootStage := 0, stopped := resetIslands,
                        failed := [], selfCleared := decide (s.aon.selfCause ≠ 0) }
    ras := s.ras.bringUp
    pwr := s.pwr.bringUp s.now
    sec := s.sec.bringUp
    host := { nextOp := s.host.nextOp }
    log := { entries := s.log.entries, nextSeq := s.log.nextSeq }
    sch := s.sch.bringUp
    eng := { blocks := s.eng.blocks.map BlockS.bringUp, nextCtx := s.eng.nextCtx }
    nbu := s.nbu.map NbRegion.bringUp
    mem := s.mem.bringUp
    home := s.home.bringUp s.now
    locus := s.locus.bringUp
    xpt := s.xpt.bringUp
    eth := s.eth.bringUp
    reqs := [] }

/-! ## Pins, supplies and clocks -/

/-- The power-up timeline starts (R431, R450). -/
def State.startUp (s : State) : State :=
  let s := s.onAon (fun a => { a with
    phase := if a.clk100Lost then .clockLost else .running
    bootStage := 0, releasedAt := a.now
    stopped := if a.coolantPin then coolantIslands else [] })
  let s := if s.aon.coolantPin then s.openEpisode 9 0xff else s
  if s.aon.vrPin then s.openEpisode 10 0xff else s

/-- RESET_ASSERT. -/
def execResetAssert (s : State) : Host.Outcome State Fault Refusal :=
  let s := s.onAon (fun a => { a with resetLow := true })
  .next (match s.aon.phase with
    | .running => s.dropVolatile.onAon (fun a => { a with phase := .inReset })
    | .clockLost => s.onAon (fun a => { a with phase := .inReset })
    | .coldWait => s.onAon (fun a => { a with phase := .inReset, coldSince := some a.now })
    | _ => s)

/-- RESET_N, after supplies that came back with it high, has been low for at least 10 µs (R450). -/
def Aon.lowLongEnough (a : Aon) : Bool :=
  match a.coldSince with
  | some t => t + 10000 ≤ a.now
  | none => true

/-- RESET_RELEASE: a pulse that was too short after supplies came back with RESET_N high starts nothing (R450). (DEDUCED, log entry 35.) -/
def execResetRelease (s : State) : Host.Outcome State Fault Refusal :=
  let t := s.onAon (fun a => { a with resetLow := false, coldSince := none })
  .next (if s.aon.phase = .inReset ∧ s.aon.resetLow ∧ !s.aon.thermTrip then
      (if s.aon.lowLongEnough then t.startUp else t.onAon (fun a => { a with phase := .coldWait }))
    else t)

/-- What is in stack memory and on die is lost with its supply; what the boot flash, the fuses and the drives hold stays. -/
def State.losePower (s : State) : State :=
  let s := s.dropVolatile
  (s.onAon (fun a => { a with stacksHeld := false })).onMem (fun m => { m with cells := [] })

/-- SUPPLY_LOSS: a rail has left its range; with VDD_AON among them the thermal-trip latch and the time-stamp counter are lost. -/
def execSupplyLoss (vddAon : Bool) (s : State) : Host.Outcome State Fault Refusal :=
  .next (s.losePower.onAon (fun a => { a with
    phase := if a.resetLow then .inReset else .coldWait
    thermTrip := a.thermTrip && !vddAon
    now := if vddAon then 0 else a.now }))

/-- REFCLK100_LOSS: treated like an assertion of RESET_N. -/
def execRefclk100Loss (s : State) : Host.Outcome State Fault Refusal :=
  let t := s.onAon (fun a => { a with clk100Lost := true })
  .next (if s.running then t.dropVolatile.onAon (fun a => { a with phase := .clockLost }) else t)

/-- REFCLK156_LOSS: every port goes down. -/
def execRefclk156Loss (s : State) : Host.Outcome State Fault Refusal :=
  let t := s.onAon (fun a => { a with clk156Lost := true })
  .next (if s.running then (List.range 8).foldl (fun s p => s.portDown p) t else t)

/-- REFCLK_RETURN: the clock has been back for 1 ms. -/
def execRefclkReturn (clk156 : Bool) (s : State) : Host.Outcome State Fault Refusal :=
  .next (if clk156 then
      let t := s.onAon (fun a => { a with clk156Lost := false })
      if s.running && s.aon.clk156Lost then (List.range 8).foldl (fun s p => s.retrainPort p) t else t
    else
      let t := s.onAon (fun a => { a with clk100Lost := false })
      if s.aon.phase = .clockLost then t.startUp else t)

/-- The node resets itself (R399). -/
def State.selfReset (s : State) : State := s.dropVolatile.startUp

/-- RECOVERY_FLASH_WRITTEN: the image is in boot flash, `recovery_req` is cleared and the node resets. -/
def execRecoveryFlashWritten (s : State) : Host.Outcome State Fault Refusal :=
  .next (s.whenUp (fun s =>
    if s.sec.recState = 3 then (s.onSec (fun c => { c with image := c.pushed, recoveryReq := false, recState := 4 })).selfReset else s))

/-! ## Firmware (R394, R399) -/

/-- Enter recovery for a reason. -/
def State.recover (reason : Nat) (s : State) : State :=
  (s.onAon (fun a => { a with bootStage := 15 })).onSec (fun c => { c with recReason := reason })

/-- Step 4 of the timeline. (DEDUCED, log entry 51.) -/
def State.authenticate (answered : Bool) (s : State) : State :=
  if s.sec.recoveryReq then s.recover 7
  else if !answered then s.recover 6
  else match s.sec.image with
    | none => s.recover 1
    | some im =>
      match s.sec.imageCheck im with
      | 0 => (s.onSec (fun c => { c with running := some im })).onAon (fun a => { a with bootStage := 4 })
      | n => s.recover n

/-- FIRMWARE_AUTHENTICATION: whether the boot flash answered. -/
def execFirmwareAuthentication (answered : Bool) (s : State) : Host.Outcome State Fault Refusal :=
  .next (s.whenUp (fun s => if s.aon.bootStage = 0 then s.authenticate answered else s))

/-! ## State sources (R433 to R439) -/

/-- The image can be used (R435): its drives are present with its mark, and its stripes hash to its digest. -/
def State.usableImage (s : State) (ok : Bool) : Option PersistImage :=
  s.image.filter (fun i => ok && i.drives.all (fun d => (s.mem.drives.getD d {}).present && (s.mem.drives.getD d {}).mark))

/-- Each missing drive of an image that was complete is logged (R435). -/
def State.logMissing (s : State) : State :=
  match s.image with
  | none => s
  | some i => (i.drives.filter (fun d => !(s.mem.drives.getD d {}).present)).foldl (fun s d => s.logEvent 94 0x0301 0xff 0 d 0 0) s

/-- Stack state is gone: what R437 gives neither cold column. -/
def State.dropStacks (s : State) : State :=
  let s := s.onMem (fun m => { m with cells := [], spans := [], retire := [], epochs := [0, 0, 0, 0] })
  let s := s.onLocus (fun _ => {})
  let s := s.onXpt (fun x => { x with regionKeys := [], regionGens := [] })
  let s := s.onRas (fun r => { r with avail := List.replicate 8 {}, rowCorrected := [], rowsFaulty := [] })
  (s.onPwr (fun p => { p with thrNs := [], energy := List.replicate 9 0, energyMeas := 0 })).onSch (fun c => { c with lastOwner := [] })

/-- The image is the source. -/
def State.fromImage (i : PersistImage) (s : State) : State :=
  let s := s.dropStacks
  let s := s.onAon (fun a => { a with now := (i.stamp + (a.now - a.releasedAt)) % 2 ^ 64, releasedAt := i.stamp })
  let s := s.onHome (fun h => { h.bringUp s.now with
    slotGens := []
    nameKey := i.nameKey
    seqs := i.seqs.map (fun r => { r with openLeases := 0 })
    entries := i.entries.map (fun e => { e with stale := true })
    leaseGens := []
    cur := i.cur
    awaiting := []
    awaitMarkers := [] })
  let s := s.onXpt (fun x => { x with serviceKeys := i.serviceKeys, serviceGens := i.serviceGens })
  let s := s.onLog (fun l => { l with entries := i.log.entries, nextSeq := i.log.nextSeq })
  s.onSch (fun c => { c with
    bsSerial := i.bs.1, bsDigest := i.bs.2
    slices := (List.range 8).map (fun k => { cfg := { format := i.formats.getD k {} },
                                             serial := (i.sections.getD k (0, 0)).1, digest := (i.sections.getD k (0, 0)).2 }) })

/-- Nothing is the source: a new name-table key, empty tables, every span free. -/
def State.fresh (s : State) : State :=
  let k := s.pick Site.nameKey 0 % 2 ^ 128
  let s := s.dropStacks.bump
  let s := s.onAon (fun a => { a with now := a.now - a.releasedAt, releasedAt := 0 })
  let s := s.onHome (fun _ => { nameKey := k })
  let s := s.onXpt (fun x => { x with serviceKeys := [], serviceGens := [] })
  (s.onLog (fun _ => {})).onSch (fun c => { c with bsSerial := 0, bsDigest := 0, slices := List.replicate 8 {} })

/-- The stacks are the source: a faulty row whose bank has a repair row is repaired, and its span returns to free (R357). -/
def State.fromStacks (noRepair : List (Nat × Nat)) (s : State) : State :=
  let stays (k : Nat) (x : Span) : Bool := x.kind ≠ 7 || !x.used.isEmpty || noRepair.contains (k / spansPerStack, k % spansPerStack)
  ((s.onMem (fun m => { m with spans := m.spans.filter (fun p => stays p.1 p.2) })).onRas (fun r => { r with
    rowsFaulty := [], rowCorrected := [] })).freeAccSpans

/-- Take the state from the first source that is usable (R433). (DEDUCED, log entry 52.) -/
def State.chooseSource (r : StartRead) (s : State) : State :=
  if s.aon.stacksHeld && r.headerOk then s.fromStacks r.noRepair
  else
    match s.usableImage r.imageOk with
    | some i => s.fromImage i
    | none => s.logMissing.fresh

/-! ## Drives at bring-up (R227, R228, R235) -/

/-- A drive meets the requirements of R227. -/
def driveMeets (f : DriveFound) : Bool :=
  2 ≤ f.version && f.nvm && 4 ≤ f.queuePairs && 127 ≤ f.maxEntries && f.blockBytes = 4096 && !f.protection

/-- The drives in the order of their numbers (R227): port by port, in bus order within a port; a node uses 16 at most. -/
def numbered (l : List DriveFound) : List (DriveFound × Nat) :=
  (((List.range 4).flatMap (fun p => l.filter (fun f => (f.port : Nat) = p))).take 16).zipIdx

/-- One drive that was found: what it stores stays where its header is the one that the node knows. -/
def State.bringDrive (f : DriveFound) (d : Nat) (s : State) : State :=
  let lat := s.pick Site.driveSeed d
  let rate := max 1 (s.pick Site.driveSeed (16 + d))
  let s := s.onMem (fun m => { m with drives := m.drives.update d {} (fun old =>
    let known := old.formatted && f.header.any (fun h => h.1 = old.headerNode)
    let x : Drive := if known then old
      else match f.header with
        | some h => { formatted := true, headerNode := h.1, headerNumber := h.2.1, headerVersion := h.2.2 }
        | none => { outOfUse := true }
    { x with present := driveMeets f, port := f.port, capacity := f.granules, granules := f.granules, maxTransfer := f.maxTransfer
             lat := lat, rate := rate }) })
  if driveMeets f then s else s.logEvent 94 0x0301 0xff 0 d 0 0

/-- Number and bring up the drives (R227). -/
def State.bringDrives (l : List DriveFound) (s : State) : State :=
  ((numbered l).foldl (fun s f => s.bringDrive f.1 f.2) s).capDrives.bump

/-! ## Stack training (R431, R433, R439) -/

/-- A quarter that neither stack of its pair can give starts empty (R439). -/
def State.emptyQuarter (q : Nat) (s : State) : State :=
  if s.ras.quartersLost.contains q then
    s.clearMark.onHome (fun h => { h with
      entries := h.entries.filter (fun e => e.quarter ≠ q)
      seqs := h.seqs.filter (fun r => s.quarterOf r.slice r.handle ≠ q) })
  else s

/-- Step 5 of the timeline: drives, state source, then the fences of stacks that failed. -/
def State.trainStacks (trained : List Bool) (r : StartRead) (s : State) : State :=
  let s := (s.bringDrives r.drives).chooseSource r
  let s := s.onRas (fun x => { x with blocksWithdrawn := s.retiredBlocks })
  let s := ((List.range 8).filter (fun n => !trained.getD n false)).foldl (fun s n => s.fenceRegion n 1 false) s
  let s := (List.range 4).foldl (fun s q => s.emptyQuarter q) s
  s.onAon (fun a => { a with stacksUp := true })

/-- STACK_TRAINING_DONE. -/
def execStackTrainingDone (trained : List Bool) (r : StartRead) (s : State) : Host.Outcome State Fault Refusal :=
  .next (s.whenUp (fun s => if s.aon.bootStage = 4 && !s.aon.stacksUp then s.trainStacks trained r else s))

/-- Extents of a drive that no entry names and no retire list holds. -/
def State.orphanExtents (s : State) (d : Nat) (x : Drive) : List (Nat × Nat) :=
  x.extents.filter (fun e => imageGranules ≤ e.1 &&
    !s.home.entries.any (fun n => (n.frameState.onFlash || n.frameState = .demoting) && n.flashDrive = d && n.flashGranule = e.1) &&
    !s.mem.retire.any (fun r => r.2.any (fun y => y.flash && y.place = d && y.granule = e.1)))

/-- RESTART_SWEEP: the entries of a quarter take their changes (R438), and extents that nothing names are deallocated (R437). -/
def State.restartSweep (q : Nat) (s : State) : State :=
  let s := (s.home.entries.filter (fun e => e.quarter = q && e.stale)).foldl (fun s e => s.applyRestart e.slice e.name) s
  (s.mem.drives.filter (fun d => d.2.usable)).foldl (fun s d =>
    (s.orphanExtents d.1 d.2).foldl (fun s e => s.freeExtent d.1 e.1 e.2) s) s

/-- RESTART_SWEEP. -/
def execRestartSweep (quarter : Fin 4) (s : State) : Host.Outcome State Fault Refusal :=
  .next (s.whenUp (fun s => if s.aon.stacksUp then s.restartSweep quarter else s))

/-! ## Ramps and the spill sweep (R441, R444) -/

/-- RAMP_STEP: a group's bucket comes up to the present step of its ramp. -/
def execRampStep (group : Fin 4096) (s : State) : Host.Outcome State Fault Refusal :=
  .next (s.whenUp (fun s => if (s.group group).ramp.isSome then s.refillGroup group else s))

/-- The pending timer updates of a spilled context, 127 of them, where its last update is old (R444). -/
def State.sweepSpilled (q : Nat) (s : State) : State :=
  match s.ctx q with
  | none => s
  | some c =>
    if !c.onDie && decide (2 ^ 30 < c.echo.age s.tick) then (List.range 127).foldl (fun s _ => s.echoUpdate q) s else s

/-- SPILL_SWEEP. -/
def execSpillSweep (s : State) : Host.Outcome State Fault Refusal :=
  .next (s.whenUp (fun s => (s.xpt.ctxs.map Prod.fst).foldl (fun s q => s.sweepSpilled q) s))

/-! ## Units lost and islands restarted -/

/-- VERTEX_LOSS: Vertex, or the security engine, is lost until the next start (R366). -/
def execVertexLoss (securityEngine : Bool) (s : State) : Host.Outcome State Fault Refusal :=
  .next (s.whenUp (fun s =>
    (s.onAon (fun a => { a with failed := ((if securityEngine then 95 else 94) :: a.failed).eraseDups })).selfFence
      (if securityEngine then 2 else 1)))

/-- COOLANT_RESTART: the fault has been deasserted for 1 s; the stopped islands restart, ports train and admission ramps. -/
def execCoolantRestart (s : State) : Host.Outcome State Fault Refusal :=
  .next (s.whenUp (fun s =>
    if s.aon.coolantPin && decide (s.aon.coolantAt + 1000000000 ≤ s.now) then
      let s := s.onAon (fun a => { a with
        coolantPin := false, stopped := a.stopped.filter (fun i => !coolantIslands.contains i) })
      let s := (List.range 8).foldl (fun s p => s.retrainPort p) s
      (((s.rampAll).closeEpisode 9 0xff).releaseHeld).placeHeld
    else s))

/-- APEX_RESTART_DONE. -/
def execApexRestartDone (s : State) : Host.Outcome State Fault Refusal :=
  .next (s.whenUp (fun s =>
    if s.pwr.apexDown then (s.onPwr (fun p => { p with apexDown := false })).closeEpisode 11 0xff |>.releaseHeld else s))

end Sys2Proof.Machine
end

