-- ==== Sys2Proof/Machine/Dispatch.lean ====
section
/-! DEFINITION. One arm per command: a direct call of its meaning. -/

namespace Sys2Proof.Machine

def exec (i : Instr) (s : State) : Host.Outcome State Fault Refusal :=
  match i with
  | .attendFwd h p => Sys2Proof.Machine.execAttendFwd h p s
  | .attendBwdOpen h p => Sys2Proof.Machine.execAttendBwdOpen h p s
  | .attendBwdAccumulate h p => Sys2Proof.Machine.execAttendBwdAccumulate h p s
  | .attendBwdCollect h p => Sys2Proof.Machine.execAttendBwdCollect h p s
  | .attendBwdDiscard h p => Sys2Proof.Machine.execAttendBwdDiscard h p s
  | .accumulatorCommit req => Sys2Proof.Machine.execAccumulatorCommit req s
  | .lookup h p => Sys2Proof.Machine.execLookup h p s
  | .publishPage h p => Sys2Proof.Machine.execPublishPage h p s
  | .publishPrefix h p => Sys2Proof.Machine.execPublishPrefix h p s
  | .prefixRelease h p => Sys2Proof.Machine.execPrefixRelease h p s
  | .leaseAcquire h p => Sys2Proof.Machine.execLeaseAcquire h p s
  | .leaseRenew h p => Sys2Proof.Machine.execLeaseRenew h p s
  | .leaseRelease h p => Sys2Proof.Machine.execLeaseRelease h p s
  | .handoverTransfer h p => Sys2Proof.Machine.execHandoverTransfer h p s
  | .handoverDiscard h p => Sys2Proof.Machine.execHandoverDiscard h p s
  | .handoverQuery h p => Sys2Proof.Machine.execHandoverQuery h p s
  | .pin h p => Sys2Proof.Machine.execPin h p s
  | .unpin h p => Sys2Proof.Machine.execUnpin h p s
  | .statOwnQp h => Sys2Proof.Machine.execStatOwnQp h s
  | .statGroup h => Sys2Proof.Machine.execStatGroup h s
  | .statNode h => Sys2Proof.Machine.execStatNode h s
  | .mapInstall h c m => Sys2Proof.Machine.execMapInstall h c m s
  | .nodeFence h c => Sys2Proof.Machine.execNodeFence h c s
  | .nodeUnfence h c => Sys2Proof.Machine.execNodeUnfence h c s
  | .nodeExpel h c => Sys2Proof.Machine.execNodeExpel h c s
  | .requesterFence h c ranges => Sys2Proof.Machine.execRequesterFence h c ranges s
  | .requesterUnfence h c ranges => Sys2Proof.Machine.execRequesterUnfence h c ranges s
  | .powerShift h c capW ms => Sys2Proof.Machine.execPowerShift h c capW ms s
  | .admKeyCreate h c slice k => Sys2Proof.Machine.execAdmKeyCreate h c slice k s
  | .admKeyRemove h c slice key => Sys2Proof.Machine.execAdmKeyRemove h c slice key s
  | .isolationSet h c slice index entryValid e => Sys2Proof.Machine.execIsolationSet h c slice index entryValid e s
  | .groupSet h c slice group gClass e => Sys2Proof.Machine.execGroupSet h c slice group gClass e s
  | .isolationExport h c slice port first count => Sys2Proof.Machine.execIsolationExport h c slice port first count s
  | .admManifestLoad h c slice m => Sys2Proof.Machine.execAdmManifestLoad h c slice m s
  | .peerBucketState h b => Sys2Proof.Machine.execPeerBucketState h b s
  | .peerCompletionMarker h fromNode generation => Sys2Proof.Machine.execPeerCompletionMarker h fromNode generation s
  | .peerReplicaCopy h r => Sys2Proof.Machine.execPeerReplicaCopy h r s
  | .peerGrant h slice name frameGen => Sys2Proof.Machine.execPeerGrant h slice name frameGen s
  | .peerRevoke h slice name => Sys2Proof.Machine.execPeerRevoke h slice name s
  | .peerRelabel h slice name oldGen newGen => Sys2Proof.Machine.execPeerRelabel h slice name oldGen newGen s
  | .peerDrop h slice name => Sys2Proof.Machine.execPeerDrop h slice name s
  | .peerAcknowledgement k a => Sys2Proof.Machine.execPeerAcknowledgement k a s
  | .hello h levels role => Sys2Proof.Machine.execHello h levels role s
  | .rdmaReadRequest k rkey va len => Sys2Proof.Machine.execRdmaReadRequest k rkey va len s
  | .rdmaWrite k pos rkey va dmaLen data => Sys2Proof.Machine.execRdmaWrite k pos rkey va dmaLen data s
  | .compareAndSwap k rkey va compare swap => Sys2Proof.Machine.execCompareAndSwap k rkey va compare swap s
  | .fetchAndAdd k rkey va add => Sys2Proof.Machine.execFetchAndAdd k rkey va add s
  | .invalidOpcode k opcode => Sys2Proof.Machine.execInvalidOpcode k opcode s
  | .acknowledgeReceived k => Sys2Proof.Machine.execAcknowledgeReceived k s
  | .rnrNakReceived k timer => Sys2Proof.Machine.execRnrNakReceived k timer s
  | .fatalNakReceived k syndrome => Sys2Proof.Machine.execFatalNakReceived k syndrome s
  | .cnpReceived k echoValid echo => Sys2Proof.Machine.execCnpReceived k echoValid echo s
  | .pauseFrameRx port => Sys2Proof.Machine.execPauseFrameRx port s
  | .cmReq r => Sys2Proof.Machine.execCmReq r s
  | .cmRtu qpn => Sys2Proof.Machine.execCmRtu qpn s
  | .cmDreq qpn => Sys2Proof.Machine.execCmDreq qpn s
  | .cmRep r => Sys2Proof.Machine.execCmRep r s
  | .cmDrep qpn => Sys2Proof.Machine.execCmDrep qpn s
  | .peerConnectRetry peer => Sys2Proof.Machine.execPeerConnectRetry peer s
  | .peerIdleClose qpn => Sys2Proof.Machine.execPeerIdleClose qpn s
  | .contextLoad qpn => Sys2Proof.Machine.execContextLoad qpn s
  | .missBufferTimeout qpn => Sys2Proof.Machine.execMissBufferTimeout qpn s
  | .responseRetransmit qpn => Sys2Proof.Machine.execResponseRetransmit qpn s
  | .flushComplete qpn => Sys2Proof.Machine.execFlushComplete qpn s
  | .pacerRelease qpn => Sys2Proof.Machine.execPacerRelease qpn s
  | .echoTimer qpn => Sys2Proof.Machine.execEchoTimer qpn s
  | .egressTransmit port => Sys2Proof.Machine.execEgressTransmit port s
  | .queueSample => Sys2Proof.Machine.execQueueSample s
  | .loadRecompute slice port stackBytes => Sys2Proof.Machine.execLoadRecompute slice port stackBytes s
  | .portLinkLoss port => Sys2Proof.Machine.execPortLinkLoss port s
  | .portLinkReturn port => Sys2Proof.Machine.execPortLinkReturn port s
  | .linkHoldExpiry port => Sys2Proof.Machine.execLinkHoldExpiry port s
  | .laneSuspicion lane => Sys2Proof.Machine.execLaneSuspicion lane s
  | .loopbackTestDone lane pass => Sys2Proof.Machine.execLoopbackTestDone lane pass s
  | .portTrainingDone port => Sys2Proof.Machine.execPortTrainingDone port s
  | .flitReceive router link f crc => Sys2Proof.Machine.execFlitReceive router link f crc s
  | .linkHandshakeTimeout router link => Sys2Proof.Machine.execLinkHandshakeTimeout router link s
  | .tilePlace block t => Sys2Proof.Machine.execTilePlace block t s
  | .tileProduct block slot x => Sys2Proof.Machine.execTileProduct block slot x s
  | .tileRetry block x => Sys2Proof.Machine.execTileRetry block x s
  | .regionReread region addr clean => Sys2Proof.Machine.execRegionReread region addr clean s
  | .cellSlotMove block => Sys2Proof.Machine.execCellSlotMove block s
  | .auditDuplicate block first second third secondBlock thirdBlock group => Sys2Proof.Machine.execAuditDuplicate block first second third secondBlock thirdBlock group s
  | .sentinelRun u pass late temp volt => Sys2Proof.Machine.execSentinelRun u pass late temp volt s
  | .retestComplete u pass => Sys2Proof.Machine.execRetestComplete u pass s
  | .patrolScrub stack addr corrected uncorrectable => Sys2Proof.Machine.execPatrolScrub stack addr corrected uncorrectable s
  | .nbWindowOpen region w => Sys2Proof.Machine.execNbWindowOpen region w s
  | .nbEnter region win => Sys2Proof.Machine.execNbEnter region win s
  | .nbLoad region win => Sys2Proof.Machine.execNbLoad region win s
  | .nbAct region win => Sys2Proof.Machine.execNbAct region win s
  | .nbRead region win abort => Sys2Proof.Machine.execNbRead region win abort s
  | .nbChord region win => Sys2Proof.Machine.execNbChord region win s
  | .nbResult region win => Sys2Proof.Machine.execNbResult region win s
  | .nbExit region win => Sys2Proof.Machine.execNbExit region win s
  | .resultRecordRead region win slot errors => Sys2Proof.Machine.execResultRecordRead region win slot errors s
  | .ondieAbortReread region win slot recovered => Sys2Proof.Machine.execOndieAbortReread region win slot recovered s
  | .nbuSpareSteer stack die unit => Sys2Proof.Machine.execNbuSpareSteer stack die unit s
  | .refresh stack sid pc pair => Sys2Proof.Machine.execRefresh stack sid pc pair s
  | .reclaimEpochAdvance quarter => Sys2Proof.Machine.execReclaimEpochAdvance quarter s
  | .reclamation slice stack => Sys2Proof.Machine.execReclamation slice stack s
  | .demotionComplete slice name => Sys2Proof.Machine.execDemotionComplete slice name s
  | .fillLand slice name => Sys2Proof.Machine.execFillLand slice name s
  | .fillAllocTimeout slice name => Sys2Proof.Machine.execFillAllocTimeout slice name s
  | .nvmeCompletion drive cmd status => Sys2Proof.Machine.execNvmeCompletion drive cmd status s
  | .nvmeTimeout drive cmd => Sys2Proof.Machine.execNvmeTimeout drive cmd s
  | .driveFailed drive => Sys2Proof.Machine.execDriveFailed drive s
  | .bitmapFlush drive block => Sys2Proof.Machine.execBitmapFlush drive block s
  | .deadlineDecision req page => Sys2Proof.Machine.execDeadlineDecision req page s
  | .replicaRecoveryWait slice name copy => Sys2Proof.Machine.execReplicaRecoveryWait slice name copy s
  | .replicaCopyRepeat slice name node => Sys2Proof.Machine.execReplicaCopyRepeat slice name node s
  | .grantRenew slice name node => Sys2Proof.Machine.execGrantRenew slice name node s
  | .grantExpire slice name node => Sys2Proof.Machine.execGrantExpire slice name node s
  | .streamEntryExpire quarter slice handle group => Sys2Proof.Machine.execStreamEntryExpire quarter slice handle group s
  | .regionFence region cause island => Sys2Proof.Machine.execRegionFence region cause island s
  | .fenceSweep quarter => Sys2Proof.Machine.execFenceSweep quarter s
  | .leaseExpiry unit slot => Sys2Proof.Machine.execLeaseExpiry unit slot s
  | .tombstoneExpiry slice handle => Sys2Proof.Machine.execTombstoneExpiry slice handle s
  | .drainWindowClose => Sys2Proof.Machine.execDrainWindowClose s
  | .mapRetire => Sys2Proof.Machine.execMapRetire s
  | .homeUnitLoss unit => Sys2Proof.Machine.execHomeUnitLoss unit s
  | .quarterLost quarter => Sys2Proof.Machine.execQuarterLost quarter s
  | .pfxEvictSweep slice => Sys2Proof.Machine.execPfxEvictSweep slice s
  | .windowBoundary => Sys2Proof.Machine.execWindowBoundary s
  | .contextSaveComplete ctx => Sys2Proof.Machine.execContextSaveComplete ctx s
  | .contextRestoreComplete ctx => Sys2Proof.Machine.execContextRestoreComplete ctx s
  | .contextResume ctx => Sys2Proof.Machine.execContextResume ctx s
  | .drainComplete slice => Sys2Proof.Machine.execDrainComplete slice s
  | .drainOpenLog slice => Sys2Proof.Machine.execDrainOpenLog slice s
  | .doorbell ring tail => Sys2Proof.Machine.execDoorbell ring tail s
  | .ringEntryFetch ring entry => Sys2Proof.Machine.execRingEntryFetch ring entry s
  | .bitstreamLoad op b => Sys2Proof.Machine.execBitstreamLoad op b s
  | .sliceDisable op => Sys2Proof.Machine.execSliceDisable op s
  | .sliceEnable op => Sys2Proof.Machine.execSliceEnable op s
  | .sliceRemove op => Sys2Proof.Machine.execSliceRemove op s
  | .statePurge op => Sys2Proof.Machine.execStatePurge op s
  | .cancel op => Sys2Proof.Machine.execCancel op s
  | .keyCreate op => Sys2Proof.Machine.execKeyCreate op s
  | .keyRemove op => Sys2Proof.Machine.execKeyRemove op s
  | .driveFormat op => Sys2Proof.Machine.execDriveFormat op s
  | .ownerProvision op pub => Sys2Proof.Machine.execOwnerProvision op pub s
  | .manifestLoad op m => Sys2Proof.Machine.execManifestLoad op m s
  | .keyslotGenerate op => Sys2Proof.Machine.execKeyslotGenerate op s
  | .keyslotErase op => Sys2Proof.Machine.execKeyslotErase op s
  | .debugChallenge op => Sys2Proof.Machine.execDebugChallenge op s
  | .debugUnlock op signedBy => Sys2Proof.Machine.execDebugUnlock op signedBy s
  | .logRead op => Sys2Proof.Machine.execLogRead op s
  | .catalogueRead op => Sys2Proof.Machine.execCatalogueRead op s
  | .ringEnable ring => Sys2Proof.Machine.execRingEnable ring s
  | .ringDisable ring => Sys2Proof.Machine.execRingDisable ring s
  | .irqCauseClear value => Sys2Proof.Machine.execIrqCauseClear value s
  | .logAckWrite value => Sys2Proof.Machine.execLogAckWrite value s
  | .nbEnable region => Sys2Proof.Machine.execNbEnable region s
  | .nbDisable region => Sys2Proof.Machine.execNbDisable region s
  | .recoveryChunkGo index len last image => Sys2Proof.Machine.execRecoveryChunkGo index len last image s
  | .recoveryFlashWritten => Sys2Proof.Machine.execRecoveryFlashWritten s
  | .rcRegisterRead offset size => Sys2Proof.Machine.execRcRegisterRead offset size s
  | .registerWrite offset size value => Sys2Proof.Machine.execRegisterWrite offset size value s
  | .regReadTimeout offset size => Sys2Proof.Machine.execRegReadTimeout offset size s
  | .bar2Read x len => Sys2Proof.Machine.execBar2Read x len s
  | .bar2Write x data => Sys2Proof.Machine.execBar2Write x data s
  | .functionLevelReset => Sys2Proof.Machine.execFunctionLevelReset s
  | .pcieLinkDown => Sys2Proof.Machine.execPcieLinkDown s
  | .apexEvaluation act => Sys2Proof.Machine.execApexEvaluation act s
  | .telemetrySample t => Sys2Proof.Machine.execTelemetrySample t s
  | .modelComparison => Sys2Proof.Machine.execModelComparison s
  | .junctionSample temps => Sys2Proof.Machine.execJunctionSample temps s
  | .stackCaseSample temps => Sys2Proof.Machine.execStackCaseSample temps s
  | .voltageSettled => Sys2Proof.Machine.execVoltageSettled s
  | .shiftExpiry => Sys2Proof.Machine.execShiftExpiry s
  | .vrAlertAssert => Sys2Proof.Machine.execVrAlertAssert s
  | .vrAlertClear => Sys2Proof.Machine.execVrAlertClear s
  | .coolantFault => Sys2Proof.Machine.execCoolantFault s
  | .coolantRestart => Sys2Proof.Machine.execCoolantRestart s
  | .persistFlushComplete => Sys2Proof.Machine.execPersistFlushComplete s
  | .apexHeartbeatTimeout => Sys2Proof.Machine.execApexHeartbeatTimeout s
  | .apexRestartDone => Sys2Proof.Machine.execApexRestartDone s
  | .vertexLoss securityEngine => Sys2Proof.Machine.execVertexLoss securityEngine s
  | .resetAssert => Sys2Proof.Machine.execResetAssert s
  | .resetRelease => Sys2Proof.Machine.execResetRelease s
  | .supplyLoss vddAon => Sys2Proof.Machine.execSupplyLoss vddAon s
  | .refclk100Loss => Sys2Proof.Machine.execRefclk100Loss s
  | .refclk156Loss => Sys2Proof.Machine.execRefclk156Loss s
  | .refclkReturn clk156 => Sys2Proof.Machine.execRefclkReturn clk156 s
  | .firmwareAuthentication answered => Sys2Proof.Machine.execFirmwareAuthentication answered s
  | .stackTrainingDone trained r => Sys2Proof.Machine.execStackTrainingDone trained r s
  | .sliceContextRestore slice => Sys2Proof.Machine.execSliceContextRestore slice s
  | .restartSweep quarter => Sys2Proof.Machine.execRestartSweep quarter s
  | .rampStep group => Sys2Proof.Machine.execRampStep group s
  | .spillSweep => Sys2Proof.Machine.execSpillSweep s
  | .getVersion => Sys2Proof.Machine.execGetVersion s
  | .getCapabilities => Sys2Proof.Machine.execGetCapabilities s
  | .negotiateAlgorithms asym hash => Sys2Proof.Machine.execNegotiateAlgorithms asym hash s
  | .getDigests => Sys2Proof.Machine.execGetDigests s
  | .getCertificate slot => Sys2Proof.Machine.execGetCertificate slot s
  | .challenge slot nonce => Sys2Proof.Machine.execChallenge slot nonce s
  | .getMeasurements index nonce => Sys2Proof.Machine.execGetMeasurements index nonce s
  | .spdmUnsupported code => Sys2Proof.Machine.execSpdmUnsupported code s
  | .homeUnitReturn unit => Sys2Proof.Machine.execHomeUnitReturn unit s
  | .recomposeChangeComplete slice => Sys2Proof.Machine.execRecomposeChangeComplete slice s
  | .rnrTimerExpiry qpn => Sys2Proof.Machine.execRnrTimerExpiry qpn s
  | .d3hotTransition toD3 => Sys2Proof.Machine.execD3hotTransition toD3 s

end Sys2Proof.Machine
end

