-- ==== Sys2Proof/Machine/Time.lean ====
section
/-! DEFINITION. One nanosecond: the time stamp counts (R37), and the availability accounts (R371) and the measures of the load index (R287)
take it. -/

namespace Sys2Proof.Machine

/-- A lane swap of one of its ports interrupts a slice (R278, R355). -/
def State.swapped (i : Nat) (s : State) : Bool :=
  (List.range 8).any (fun p => bit (s.cfg i).ports p && (s.eth.ports.getD p {}).swapping)

/-- The three accounts of R371. -/
inductive Avails where
  | serving | excluded | unplanned
deriving DecidableEq, Repr

/-- The account that the present nanosecond of a slice belongs to (R371). (DEDUCED, log entry 53.) -/
def State.availOf (i : Nat) (s : State) : Avails :=
  let st := (s.sch.slices.getD i {}).state
  if s.running && (st = .serving || st = .recomposing) && !s.nodeFenced && !s.swapped i then .serving
  else if s.running && (s.ras.fenced || s.ras.expelled || st = .composing || st = .draining || st = .disabled) then .excluded
  else .unplanned

/-- One more nanosecond in one account. -/
def Avail.count (k : Avails) (a : Avail) : Avail :=
  match k with
  | .serving => { a with serving := (a.serving + 1) % 2 ^ 64 }
  | .excluded => { a with excluded := (a.excluded + 1) % 2 ^ 64 }
  | .unplanned => { a with unplanned := (a.unplanned + 1) % 2 ^ 64 }

/-- Time is accounted while the node is powered: not after a supply has gone, and not after a thermal trip. (DEDUCED, log entry 53.) -/
def State.accounts (s : State) : State :=
  if s.aon.phase = .coldWait ∨ s.aon.phase = .tripped then s
  else s.onRas (fun r => { r with avail := (r.avail.zipIdx).map (fun a => a.1.count (s.availOf a.2)) })

/-- The counter of island 98: 64 bits of nanoseconds. -/
def State.stamp (s : State) : State := s.onAon (fun a => { a with now := (a.now + 1) % 2 ^ 64 })

/-- What a step does on an empty queue: one nanosecond passes. The availability accounts and the measures of the load index take it
(R287, R371), the region arbiters and the Lattice serve what waits (R30, R39), and the time stamp counts.
(DESIGN CHOICE, log entry 2.) (DESIGN CHOICE, log entry 55.) -/
def State.pass (s : State) : State := s.meter.accounts.arbTick.latticeTick.stamp

end Sys2Proof.Machine
end

