-- ==== Sys2Proof/Safety.lean ====
section
/-! DEFINITION. What counts as a safe state and a safe run, in the terms the statements use. -/

namespace Sys2Proof

/-- The stack memory and the data of every drive stand in the canonical form: addresses rise strictly and no listed byte is
what an unlisted address reads as. -/
def Machine.Mem.ok (m : Machine.Mem) : Bool := Machine.Memory.wf m.cells && m.drives.all (fun d => Machine.Memory.wf d.2.cells)

/-- The invariant of every step: memory is canonical. -/
def Machine.State.MemOk (s : Machine.State) : Prop := s.mem.ok = true

/-- The second invariant: the requests that wait for their answer stand under rising numbers, all below the next one, so that no two
share a number. -/
def Machine.State.ReqsOk (s : Machine.State) : Prop :=
  (s.reqs.map Prod.fst).Pairwise (· < ·) ∧ ∀ k ∈ s.reqs.map Prod.fst, k < s.nextReq

/-- The step answers a next state. -/
def Answers (o : Host.Outcome Machine.State Machine.Fault Machine.Refusal) : Prop := ∃ t, o = .next t

/-- The state a step answers is the one given. -/
def Gives (o : Host.Outcome Machine.State Machine.Fault Machine.Refusal) (t : Machine.State) : Prop := o = .next t

/-- A safe run: `k` steps from a state, each answered by a next state whose memory is canonical. -/
def SafeRun : Nat → Machine.State → Prop
  | 0, s => s.MemOk
  | k + 1, s => s.MemOk ∧ ∃ t, Machine.step s = .next t ∧ SafeRun k t

/-- The command answers a next state of which `Q` holds. -/
def Does (c : Instr) (s : Machine.State) (Q : Machine.State → Prop) : Prop := ∃ t, Machine.exec c s = .next t ∧ Q t

/-- An extended request that arrives as the expected packet of its queue pair, and passes steps 1 to 9 of R17 (R253, R263, R264):
its context and the state once its sequence numbers are taken and the request is counted (R289), before step 10. -/
def admission (h : ExtHdr) (cmd : Instr) (sp : Machine.Ctx → Machine.ExtSpec) (s : Machine.State) : Option (Machine.Ctx × Machine.State) :=
  match s.receive h.pkt cmd (max 1 h.packets) with
  | .fresh c s =>
    let s := s.acceptPsn h.pkt (max 1 h.packets)
    if s.extCode c h (sp c) = .ok then some (c, if (sp c).serving then s.countAdmitted c.group else s) else none
  | _ => none

/-- What the last response message held for a queue pair says: request code, variant, status code and body (R250, R252). -/
def lastResponse (t : Machine.State) (q : Nat) : Option (Nat × Nat × Machine.Code × Machine.RespBody) :=
  match (t.ctx q).bind (fun c => c.held.getLast?.bind (fun r => r.pkts.head?)) with
  | some p => match p.body with
    | .response op variant code _ _ _ _ _ body => some (op, variant, code, body)
    | _ => none
  | none => none

/-- The parts of the state that a frame names. -/
inductive Part where
  | aon | ras | pwr | sec | host | log | sch | eng | nbu | mem | bytes | home | locus | xpt | eth | reqs | nextReq | image | free | emitted
  | pending
deriving DecidableEq, Repr

/-- A part is the same in two states; `bytes` are the stored bytes of the stacks, `mem` everything of the memory. -/
def Part.same (p : Part) (s t : Machine.State) : Prop :=
  match p with
  | .aon => t.aon = s.aon
  | .ras => t.ras = s.ras
  | .pwr => t.pwr = s.pwr
  | .sec => t.sec = s.sec
  | .host => t.host = s.host
  | .log => t.log = s.log
  | .sch => t.sch = s.sch
  | .eng => t.eng = s.eng
  | .nbu => t.nbu = s.nbu
  | .mem => t.mem = s.mem
  | .bytes => t.mem.cells = s.mem.cells
  | .home => t.home = s.home
  | .locus => t.locus = s.locus
  | .xpt => t.xpt = s.xpt
  | .eth => t.eth = s.eth
  | .reqs => t.reqs = s.reqs
  | .nextReq => t.nextReq = s.nextReq
  | .image => t.image = s.image
  | .free => t.free = s.free
  | .emitted => t.emitted = s.emitted
  | .pending => t.pending = s.pending

/-- The frame of a command: whatever next state it answers, every part outside `ps` is as it was. -/
def OnlyTouches (ps : List Part) (c : Instr) : Prop :=
  ∀ s t, Machine.exec c s = .next t → ∀ p, p ∉ ps → p.same s t

/-- The frame of a command that first lets time pass at the home (R203): beside what that does, every part outside `ps` is as it
was. -/
def OnlyTouchesAfter (ps : List Part) (c : Instr) : Prop :=
  ∀ s t, s.running = true → Machine.exec c s = .next t → ∀ p, p ∉ ps → p.same s.settle t

end Sys2Proof
end

