-- ==== Sys2Proof/Certificates/Slice0/Obligations.lean ====
section
/-! DEFINITION. The statements for the provers. `Does c s Q` says that command `c` answers a next state of which `Q` holds; so each
statement of a result is a statement of completion too. -/

open Sys2Proof Sys2Proof.Machine

/-- A step runs the command at the front of the queue (R203).
For every command c, every list of further commands and every state: a step of the state whose queue is c followed by the list is
exec of c on the state whose queue is the list. That commands wait in one queue, first in first out, is the form of this model
(log entry 1). -/
def Obligations.StepRunsTheFrontCommand : Prop :=
  ∀ (c : Instr) (rest : List Instr) (s : State), step { s with pending := c :: rest } = exec c { s with pending := rest }

/-- With no command waiting one nanosecond passes (log entry 2: the model's choice) (R37, R371).
On an empty queue a step adds 1 to the 64-bit time stamp, modulo 2^64. The availability accounts take it: without supply (cold wait)
and after a thermal trip they stay, and in every other phase each slice has exactly one of its three accounts counted up by 1:
serving, excluded or unplanned, by the conditions written out. Beside these the measures of the load index take the nanosecond of a
running node (R287), and a step lets the region arbiters and the Lattice serve what waits there, and changes nothing outside the
engines, near-bank queues, ports, log, host interface and emissions; with nothing waiting there it changes nothing else at all. That a step on an empty queue stands for a nanosecond, and which account RECOMPOSING
and ABSENT count in, are the model's choices (log entries 2 and 53). -/
def Obligations.IdleStepCountsTime : Prop :=
  ∀ (s : State), s.pending = [] → ∃ t, step s = .next t ∧
    t.aon = { s.aon with now := (s.aon.now + 1) % 2 ^ 64 } ∧ t.ras = { s.ras with avail := t.ras.avail } ∧
    (∀ p ∈ ([.pwr, .sec, .sch, .mem, .home, .locus, .xpt, .reqs, .nextReq, .image, .free, .pending] : List Part), p.same s t) ∧
    ((∀ x ∈ s.eng.arbs, x.waiting = []) → (∀ x ∈ s.eng.links, x.out = []) → t = { s with
      aon := t.aon, ras := t.ras
      eth := { s.eth with meters := if s.running then noteMeter s.reading s.eth.meters else s.eth.meters } }) ∧
    (s.aon.phase = .coldWait ∨ s.aon.phase = .tripped → t.ras = s.ras) ∧
    (s.aon.phase ≠ .coldWait → s.aon.phase ≠ .tripped → t.ras.avail.length = s.ras.avail.length ∧ ∀ i, i < s.ras.avail.length →
      let a := s.ras.avail.getD i {}
      let st := (s.slice i).state
      t.ras.avail.getD i {} =
        if s.running = true ∧ (st = .serving ∨ st = .recomposing) ∧ s.nodeFenced = false ∧ s.swapped i = false then
          { a with serving := (a.serving + 1) % 2 ^ 64 }
        else if s.running = true ∧ (s.ras.fenced = true ∨ s.ras.expelled = true ∨ st = .composing ∨ st = .draining ∨ st = .disabled) then
          { a with excluded := (a.excluded + 1) % 2 ^ 64 }
        else { a with unplanned := (a.unplanned + 1) % 2 ^ 64 })

/-- While the node does not run, only pins, supplies and clocks act (log entry 5) (R430, R431, R450, R454).
In every state in which the node does not run (held in reset, waiting for supply or clock, or tripped), every command other than
RESET_ASSERT, RESET_RELEASE, SUPPLY_LOSS, REFCLK100_LOSS, REFCLK156_LOSS and REFCLK_RETURN answers the same state, and those six
answer a next state with the same queue. The model's reading that a stopped node ignores a command is log entry 5. -/
def Obligations.OnlyPinsActWhileStopped : Prop :=
  ∀ (c : Instr) (s : State), s.running = false → match c with
    | .resetAssert | .resetRelease | .supplyLoss _ | .refclk100Loss | .refclk156Loss | .refclkReturn _ => ∃ t, exec c s = .next t ∧ t.pending = s.pending
    | _ => exec c s = .next s

/-- What the registers with a stated reset value read at reset, and what reset leaves empty (R149, R271, R296, R370, R390, R421,
R425).
In the reset state memory lists nothing and is canonical, no command or request waits, the time stamp is 0, the node is not fenced
and all eight slices are ABSENT; TOP_NOW, TOP_BAR2, TOP_HOSTERR and TOP_IRQ read 0, the host cap reads 760, the log threshold
0x8000, the audit levels 01 for each slice, each region's window limit 0x7D0 with the near-bank path enabled, XPT_CTRL 01, 2 and
0x64, ETH_ECHO 0x37, 0x1F4, 0x0A, 5 and 4, and each ring log2 4 with its own number as vector. -/
def Obligations.ResetRegistersRead : Prop :=
  let s := State.reset
  s.MemOk ∧ s.ReqsOk ∧ s.mem.cells = [] ∧ s.pending = [] ∧ s.reqs = [] ∧ s.now = 0 ∧ s.nodeFenced = false ∧ (∀ i, i < 8 → (s.slice i).state = .absent) ∧
  s.regValue 0x10 = 0 ∧ s.regValue 0x18 = 0 ∧ s.regValue 0x68 = 0 ∧ s.regValue 0x78 = 0 ∧ s.regValue 0x100008 % 1024 = 760 ∧
  s.regValue 0x300018 = 0x8000 ∧ s.regValue 0x380000 = 0x5555 ∧
  (∀ n, n < 8 → s.regValue (0x800000 + n * 0x40000 + 0x30000) % 4096 = 0x7d0 + 2 ^ 11) ∧
  s.regValue 0xe00000 = 0x01 + 2 * 2 ^ 5 + 0x64 * 2 ^ 8 ∧
  s.regValue 0xf00048 = 0x37 + 0x1f4 * 2 ^ 10 + 0x0a * 2 ^ 22 + 5 * 2 ^ 34 + 4 * 2 ^ 38 ∧
  (∀ r, r < 64 → s.regValue (0x1000 + r * 0x20 + 8) = 4 + r * 2 ^ 7)

/-- Every step keeps stack memory and drive data in canonical form (R51, R60).
From every state in which the stack memory and the data of every drive stand in canonical form (addresses strictly rising, no
listed byte equal to what an unlisted address reads as), every step that answers a next state answers one in which they do. The
form is the model's; what an unlisted byte reads as is log entry 8. -/
def Obligations.StepsKeepMemoryCanonical : Prop :=
  ∀ s t : State, s.MemOk → step s = .next t → t.MemOk

/-- Every step keeps outstanding requests under distinct, rising numbers (R253).
From every state in which the requests that wait for their answer stand under strictly rising numbers, all below the next number
to be given, every step that answers a next state answers one in which they do. The numbers are the model's own names for
outstanding requests (log entry 9). -/
def Obligations.StepsKeepRequestNumbers : Prop :=
  ∀ s t : State, s.ReqsOk → step s = .next t → t.ReqsOk

/-- The interleave function, and that it is a bijection on each SID (R52).
For every 37-bit offset the location has the SID, byte, pseudo-channel, segment, bank and row that the function of R52 gives, bit
field by bit field, and the channel and die that follow from them (pseudo, bank group and bank in group are only names of bits of
these); the offset comes back from its location; every location within range comes back from its offset, which is below 2^37; two
offsets of one SID have one row exactly when they lie in one aligned 1 MiB; and the 64 consecutive segments from an aligned 64 KiB
lie in distinct pseudo-channels. -/
def Obligations.InterleaveIsABijection : Prop :=
  (∀ l : Loc, l.sid < 4 → l.pc < 64 → l.bank < 16 → l.row < 2 ^ 15 → l.seg < 4 → l.byte < 256 →
    decodeOffset (encodeOffset l) = l ∧ encodeOffset l < 2 ^ 37) ∧
  (∀ o, o < 2 ^ 37 → let l := decodeOffset o
    l.sid = bits o 36 35 ∧ l.byte = bits o 7 0 ∧ l.pc = (bits o 13 8 ^^^ bits o 25 20 ^^^ bits o 31 26) ∧ l.seg = bits o 15 14 ∧
    l.bank = (bits o 19 16 ^^^ bits o 23 20 ^^^ bits o 27 24 ^^^ bits o 31 28) ∧ l.row = bits o 34 20 ∧
    l.channel = bits l.pc 5 1 ∧ l.die = 4 * l.sid + bits l.pc 5 4) ∧
  (∀ o, o < 2 ^ 37 → encodeOffset (decodeOffset o) = o ∧ (decodeOffset o).sid = o / 2 ^ 35 ∧ (decodeOffset o).row = o / 2 ^ 20 % 2 ^ 15 ∧
    (decodeOffset o).pc < 64 ∧ (decodeOffset o).bank < 16) ∧
  (∀ o p, o < 2 ^ 37 → p < 2 ^ 37 → (decodeOffset o).sid = (decodeOffset p).sid → ((decodeOffset o).row = (decodeOffset p).row ↔ o / 2 ^ 20 = p / 2 ^ 20)) ∧
  (∀ o i j, o < 2 ^ 37 → o % 2 ^ 16 = 0 → i < 64 → j < 64 → (decodeOffset (o + i * 256)).pc = (decodeOffset (o + j * 256)).pc → i = j)

/-- A byte of stack memory reads back what was written, and no other byte changes (R51, R60, R133, R134, R411).
For every canonical state: writing a byte and zeroing a range keep memory canonical, and a write changes neither the home state nor
the drives. Where no near-bank window holds the byte's bank and no access waits at the stack read: after a write a read at any
address gives the written value where the address is the written one, its stack is not fenced, and the offset is implemented and
below 2^40, and what it gave before otherwise; zeroing a range makes exactly the range read zero. Where a window holds the bank, the
write waits, memory stays as it is, and a read nevertheless gives the value written, and every other read what it gave before. The
canonical form is the model's, and an unwritten byte reads zero by log entry 8. -/
def Obligations.StackBytesReadBack : Prop :=
  ∀ (a b : Nat) (v : Byte) (s : State), s.MemOk → (s.memWrite a v).MemOk ∧ (∀ lo hi, (s.memZero lo hi).MemOk) ∧
    (s.collides a = false → (s.nbu.getD (addrStack b) {}).queued = [] →
      (s.memWrite a v).memRead b = (if b = a ∧ s.stackFenced (addrStack a) = false ∧ implementedOffset (addrOffset a) = true ∧ a < 2 ^ 40 then v
        else s.memRead b) ∧
      (∀ lo hi, (s.memZero lo hi).memRead b = if lo ≤ b ∧ b < hi then 0 else s.memRead b)) ∧
    (s.collides a = true → s.stackFenced (addrStack a) = false →
      (s.memWrite a v).memRead b = (if b = a then v else s.memRead b) ∧ (s.memWrite a v).mem = s.mem) ∧
    ((s.memWrite a v).home = s.home ∧ (s.memWrite a v).mem.drives = s.mem.drives)

/-- The data and management requests that R17 orders, with their headers and the checks each makes. -/
def Sys2Proof.requestOf (s : State) : Instr → Option (ExtHdr × (Ctx → ExtSpec))
  | .attendFwd h p => some (h, fwdSpec h p s)
  | .attendBwdOpen h p => some (h, openSpec h p s)
  | .attendBwdAccumulate h p => some (h, accSpec h p s)
  | .attendBwdCollect h p => some (h, collectSpec h p s)
  | .attendBwdDiscard h p => some (h, discardSpec h p s)
  | .lookup h p => some (h, fun c => lookupSpec h p (s.pfx c.slice) c)
  | .publishPage h p => some (h, publishSpec h p s.settle)
  | .publishPrefix h p => some (h, pfxSpec h p s.settle)
  | .prefixRelease h p => some (h, pfxReleaseSpec h p s.settle)
  | .leaseAcquire h p => some (h, acquireSpec h p)
  | .leaseRenew h p => some (h, renewSpec h p s.settle)
  | .leaseRelease h p => some (h, releaseSpec h p s.settle)
  | .pin h p => some (h, pinSpec 7 h p)
  | .unpin h p => some (h, pinSpec 8 h p)
  | .statOwnQp h => some (h, statSpec 0 false)
  | .statGroup h => some (h, statSpec 1 false)
  | .statNode h => some (h, statSpec 2 true)
  | _ => none

/-- The state in which a request arrives: time has passed at the home (R203), and the arrays show the parity errors that a publish's
searches will meet (R195). -/
def Sys2Proof.arriving (s : State) : Instr → State
  | .publishPrefix _ p => s.settle.markParity p.faulty
  | _ => s.settle

/-- The packet sequence number decides: expected, duplicate or out of sequence (R263, R264, R286).
For a packet that reaches a context on die: at the expected PSN it is processed with the NAK mark cleared; within the 2^23 values
below it is a duplicate, counted, with the context's state and expected PSN unchanged; any other is out of sequence, with the NAK
mark set and nothing else of memory or home changed. In the first two cases the group's received bytes grow by the packet's. For
the 17 requests listed: a packet that goes no further leaves the state that its reception left, and a duplicate request is
acknowledged again and has no other effect. -/
def Obligations.SequenceNumbersDecide : Prop :=
  (∀ (k : Pkt) (cmd : Instr) (n : Nat) (s : State) (c : Ctx), s.arrive k cmd false = .ok c →
    let d := (k.psn + 2 ^ 24 - c.ePsn) % 2 ^ 24
    (d = 0 → ∃ x t, s.receive k cmd n = .fresh x t ∧ x.nakked = false ∧ x.ePsn = c.ePsn ∧ t.ctx k.qpn = some x ∧ t.mem = s.mem ∧ t.home = s.home ∧
      (t.group c.group).rxBytes = ((s.group c.group).rxBytes + k.bytes) % 2 ^ 64) ∧
    (2 ^ 23 ≤ d → ∃ x t, s.receive k cmd n = .duplicate x t ∧ t.xpt.duplicates = inc32 s.xpt.duplicates ∧ x.ePsn = c.ePsn ∧ x.state = c.state ∧
      t.mem = s.mem ∧ t.home = s.home ∧ (t.group c.group).rxBytes = ((s.group c.group).rxBytes + k.bytes) % 2 ^ 64) ∧
    (0 < d → d < 2 ^ 23 → ∃ t x, s.receive k cmd n = .over t ∧ t.ctx k.qpn = some x ∧ x.nakked = true ∧ x.ePsn = c.ePsn ∧ x.msn = c.msn ∧
      t.mem = s.mem ∧ t.home = s.home)) ∧
  (∀ (cmd : Instr) (h : ExtHdr) (sp : Ctx → ExtSpec) (s : State), s.running = true → requestOf s cmd = some (h, sp) →
    (∀ t, (arriving s cmd).receive h.pkt cmd (max 1 h.packets) = .over t → Gives (exec cmd s) t) ∧
    (∀ c t, (arriving s cmd).receive h.pkt cmd (max 1 h.packets) = .duplicate c t → Gives (exec cmd s) (t.sendControl h.pkt.qpn 4 (.ack h.pkt.psn c.msn))))

/-- A refused request answers the code of its first failing step and changes nothing (R17, R250, R253, R363).
For the 17 extended requests listed, arriving as the expected packet: where the steps 1 to 9 of R17 give a code other than OK, the
request completes with a response of its own code and variant carrying that status, and name-table entries, sequence records,
leases, accumulators, memory, waiting requests, engines, slices, reliability state and prefix nodes stay as they were after
reception, the expected PSN having moved past the request. PUBLISH_CONFLICT, which discards the pages that R188 names, and searches
that meet a parity error (R195) are left out of what stays. A data request on a fenced node gets FENCED; a malformed header or body
that is not so refused gets FORMAT_ERROR. -/
def Obligations.RefusedRequestsChangeNothing : Prop :=
  ∀ (cmd : Instr) (h : ExtHdr) (sp : Ctx → ExtSpec) (s s1 : State) (c : Ctx), s.running = true → requestOf s cmd = some (h, sp) →
    (arriving s cmd).receive h.pkt cmd (max 1 h.packets) = .fresh c s1 →
    let s2 := s1.acceptPsn h.pkt (max 1 h.packets)
    let e := s2.extCode c h (sp c)
    (e ≠ .ok → Does cmd s (fun t => ∃ body, lastResponse t h.pkt.qpn = some ((sp c).op, (sp c).variant, e, body))) ∧
    (e ≠ .ok → e ≠ .publishConflict → (∀ x ∈ s2.locus.entries, x.2.parityBad = false) → Does cmd s (fun t =>
      t.home.entries = s2.home.entries ∧ t.home.seqs = s2.home.seqs ∧ t.home.leases = s2.home.leases ∧ t.home.accs = s2.home.accs ∧
      t.mem = s2.mem ∧ t.reqs = s2.reqs ∧ t.eng = s2.eng ∧ t.sch = s2.sch ∧ t.ras = s2.ras ∧ t.locus.nodes = s2.locus.nodes ∧
      (t.ctx h.pkt.qpn).map Ctx.ePsn = some ((c.ePsn + max 1 h.packets) % 2 ^ 24))) ∧
    ((sp c).data = true → s2.nodeFenced = true → e = .fenced) ∧
    ((sp c).data = false ∨ s2.nodeFenced = false → (headerOk c h (sp c) && (sp c).parses) = false → e = .formatError)

/-- What each command may change; everything else in the state is as it was. -/
def Sys2Proof.touched : Instr → List Part
  | .cmRtu .. | .flushComplete .. | .echoTimer .. | .spillSweep .. | .rnrTimerExpiry .. => [.xpt]
  | .getDigests .. | .getCertificate .. | .spdmUnsupported .. => [.emitted]
  | .nbLoad .. | .nbAct .. | .nbChord .. | .refresh .. => [.nbu]
  | .pauseFrameRx .. | .queueSample .. | .loadRecompute .. | .portLinkLoss .. | .rampStep .. => [.eth]
  | .recoveryChunkGo .. => [.sec]
  | .ringEnable .. | .ringDisable .. | .irqCauseClear .. | .d3hotTransition .. => [.host]
  | .streamEntryExpire .. | .drainWindowClose .. => [.home]
  | .voltageSettled .. | .shiftExpiry .. => [.pwr]
  | .acknowledgeReceived .. | .cnpReceived .. | .peerIdleClose .. | .missBufferTimeout .. => [.xpt, .eth]
  | .bitmapFlush .. => [.mem, .emitted]
  | .challenge .. | .getMeasurements .. => [.free, .emitted]
  | .doorbell .. | .ringEntryFetch .. | .logRead .. | .catalogueRead .. | .regReadTimeout .. | .functionLevelReset ..
  | .pcieLinkDown .. => [.host, .emitted]
  | .firmwareAuthentication .. => [.aon, .sec]
  | .getVersion .. | .getCapabilities .. | .negotiateAlgorithms .. => [.sec, .emitted]
  | .grantRenew .. => [.home, .xpt]
  | .logAckWrite .. => [.host, .log]
  | .nbEnable .. => [.sch, .nbu]
  | .nbEnter .. => [.eng, .nbu]
  | .nbuSpareSteer .. => [.ras, .nbu]
  | .refclk156Loss .. => [.aon, .eth]
  | .apexHeartbeatTimeout .. => [.pwr, .host, .emitted]
  | .cmReq .. => [.xpt, .eth, .free]
  | .egressTransmit .. => [.xpt, .eth, .emitted]
  | .ownerProvision .. | .keyslotErase .. => [.sec, .host, .emitted]
  | .sliceDisable .. | .cancel .. => [.host, .sch, .emitted]
  | .tombstoneExpiry .. => [.mem, .home, .emitted]
  | .drainOpenLog .. => [.host, .log, .sch, .emitted]
  | .flitReceive .. | .linkHandshakeTimeout .. => [.host, .log, .eng, .emitted]
  | .keyslotGenerate .. | .debugChallenge .. => [.sec, .host, .free, .emitted]
  | .laneSuspicion .. => [.host, .log, .eth, .emitted]
  | .manifestLoad .. | .debugUnlock .. => [.sec, .host, .log, .emitted]
  | .modelComparison .. => [.pwr, .host, .log, .emitted]
  | .nbRead .. => [.eng, .nbu, .eth, .free]
  | .nbResult .. => [.aon, .nbu, .mem, .bytes]
  | .resetRelease .. => [.aon, .pwr, .host, .emitted]
  | .vertexLoss .. => [.aon, .host, .log, .emitted]
  | .windowBoundary .. | .contextSaveComplete .. => [.host, .sch, .eng, .emitted]
  | .apexEvaluation .. | .stackCaseSample .. | .vrAlertClear .. => [.aon, .pwr, .host, .log, .emitted]
  | .keyCreate .. | .keyRemove .. => [.host, .eng, .mem, .xpt, .emitted]
  | .tilePlace .. => [.host, .sch, .eng, .free, .emitted]
  | .vrAlertAssert .. => [.aon, .pwr, .host, .mem, .emitted]
  | .auditDuplicate .. => [.ras, .host, .log, .eng, .mem, .emitted]
  | .bar2Read .. => [.host, .log, .eng, .nbu, .eth, .emitted]
  | .cellSlotMove .. => [.ras, .host, .sch, .eng, .mem, .emitted]
  | .coolantFault .. => [.aon, .pwr, .host, .mem, .eth, .emitted]
  | .peerConnectRetry .. => [.host, .log, .xpt, .eth, .free, .emitted]
  | .statePurge .. => [.host, .mem, .home, .locus, .xpt, .emitted]
  | .telemetrySample .. => [.ras, .pwr, .host, .log, .mem, .emitted]
  | .tileProduct .. | .contextRestoreComplete .. => [.host, .sch, .eng, .nbu, .eth, .emitted]
  | .junctionSample .. => [.aon, .pwr, .host, .log, .sch, .eng, .emitted]
  | .leaseExpiry .. | .homeUnitReturn .. => [.sch, .eng, .mem, .home, .xpt, .reqs, .emitted]
  | .loopbackTestDone .. => [.ras, .host, .log, .mem, .eth, .free, .emitted]
  | .persistFlushComplete .. => [.aon, .pwr, .host, .log, .mem, .image, .emitted]
  | .sliceEnable .. => [.host, .sch, .eng, .mem, .bytes, .locus, .emitted]
  | .attendBwdDiscard .. | .leaseRenew .. | .handoverQuery .. | .unpin .. | .statOwnQp .. | .statGroup .. | .statNode ..
  | .peerCompletionMarker .. | .peerGrant .. | .peerRevoke .. | .peerRelabel .. | .peerDrop .. | .hello .. | .invalidOpcode ..
  | .rnrNakReceived .. | .fatalNakReceived .. | .cmDreq .. | .cmDrep .. | .responseRetransmit .. | .pacerRelease ..
  | .linkHoldExpiry .. => [.sch, .eng, .mem, .home, .xpt, .eth, .reqs, .emitted]
  | .bar2Write .. => [.host, .log, .eng, .nbu, .mem, .bytes, .eth, .emitted]
  | .nbWindowOpen .. | .nbDisable .. => [.sch, .eng, .nbu, .home, .xpt, .eth, .reqs, .free]
  | .replicaCopyRepeat .. | .restartSweep .. => [.eng, .nbu, .mem, .bytes, .home, .xpt, .eth, .emitted]
  | .retestComplete .. => [.ras, .host, .log, .sch, .eng, .nbu, .mem, .emitted]
  | .sentinelRun .. => [.ras, .host, .log, .eng, .nbu, .mem, .eth, .emitted]
  | .attendBwdCollect .. | .leaseRelease .. | .handoverTransfer .. | .handoverDiscard ..
    => [.sch, .eng, .mem, .home, .xpt, .eth, .reqs, .nextReq, .emitted]
  | .cmRep .. => [.sch, .eng, .mem, .home, .xpt, .eth, .reqs, .free, .emitted]
  | .driveFormat .. => [.host, .eng, .nbu, .mem, .bytes, .home, .xpt, .eth, .emitted]
  | .homeUnitLoss .. => [.host, .log, .sch, .eng, .mem, .home, .xpt, .reqs, .emitted]
  | .pfxEvictSweep .. => [.eng, .nbu, .mem, .bytes, .home, .locus, .xpt, .eth, .emitted]
  | .portLinkReturn .. | .portTrainingDone .. => [.ras, .sch, .eng, .mem, .home, .xpt, .eth, .reqs, .emitted]
  | .rdmaReadRequest .. => [.sch, .eng, .nbu, .mem, .home, .xpt, .eth, .reqs, .emitted]
  | .mapInstall .. => [.host, .log, .sch, .eng, .mem, .home, .xpt, .eth, .reqs, .emitted]
  | .mapRetire .. => [.sch, .eng, .nbu, .mem, .bytes, .home, .xpt, .eth, .reqs, .emitted]
  | .sliceRemove .. => [.host, .sch, .eng, .mem, .home, .locus, .xpt, .eth, .reqs, .emitted]
  | .accumulatorCommit .. | .peerReplicaCopy .. => [.sch, .eng, .nbu, .mem, .bytes, .home, .xpt, .eth, .reqs, .free, .emitted]
  | .bitstreamLoad .. => [.ras, .host, .log, .sch, .eng, .mem, .bytes, .locus, .xpt, .eth, .emitted]
  | .drainComplete .. => [.host, .sch, .eng, .mem, .bytes, .home, .locus, .xpt, .eth, .reqs, .emitted]
  | .nodeFence .. | .nodeExpel .. | .requesterFence .. | .requesterUnfence .. | .admKeyCreate .. | .admKeyRemove ..
  | .isolationSet .. | .groupSet .. | .isolationExport .. => [.ras, .host, .log, .sch, .eng, .mem, .home, .xpt, .eth, .reqs, .emitted]
  | .publishPage .. => [.sch, .eng, .nbu, .mem, .bytes, .home, .xpt, .eth, .reqs, .nextReq, .emitted]
  | .refclkReturn .. => [.aon, .pwr, .host, .sch, .eng, .mem, .home, .xpt, .eth, .reqs, .emitted]
  | .admManifestLoad .. => [.ras, .sec, .host, .log, .sch, .eng, .mem, .home, .xpt, .eth, .reqs, .emitted]
  | .attendBwdOpen .. | .rdmaWrite .. | .compareAndSwap .. | .fetchAndAdd .. | .reclaimEpochAdvance .. | .reclamation ..
  | .demotionComplete .. | .fillAllocTimeout .. | .nvmeTimeout .. | .driveFailed .. | .replicaRecoveryWait ..
    => [.host, .log, .sch, .eng, .nbu, .mem, .bytes, .home, .xpt, .eth, .reqs, .emitted]
  | .nodeUnfence .. => [.aon, .ras, .host, .log, .sch, .eng, .mem, .home, .xpt, .eth, .reqs, .emitted]
  | .peerBucketState .. => [.sch, .eng, .nbu, .mem, .bytes, .home, .locus, .xpt, .eth, .reqs, .free, .emitted]
  | .powerShift .. => [.ras, .pwr, .host, .log, .sch, .eng, .mem, .home, .xpt, .eth, .reqs, .emitted]
  | .rcRegisterRead .. => [.ras, .pwr, .host, .log, .sch, .nbu, .mem, .home, .locus, .xpt, .eth, .emitted]
  | .recomposeChangeComplete .. => [.host, .sch, .eng, .nbu, .mem, .bytes, .home, .locus, .xpt, .eth, .reqs, .emitted]
  | .sliceContextRestore .. => [.sec, .host, .sch, .eng, .nbu, .mem, .bytes, .home, .locus, .xpt, .eth, .emitted]
  | .fenceSweep .. => [.host, .log, .sch, .eng, .nbu, .mem, .bytes, .home, .locus, .xpt, .eth, .reqs, .emitted]
  | .fillLand .. | .nvmeCompletion .. | .deadlineDecision .. | .contextResume ..
    => [.host, .log, .sch, .eng, .nbu, .mem, .bytes, .home, .xpt, .eth, .reqs, .free, .emitted]
  | .pin .. => [.host, .log, .sch, .eng, .nbu, .mem, .bytes, .home, .xpt, .eth, .reqs, .nextReq, .emitted]
  | .attendFwd .. | .attendBwdAccumulate .. | .leaseAcquire .. | .grantExpire ..
    => [.host, .log, .sch, .eng, .nbu, .mem, .bytes, .home, .xpt, .eth, .reqs, .nextReq, .free, .emitted]
  | .lookup .. | .publishPrefix .. | .prefixRelease .. | .tileRetry .. | .regionReread .. | .patrolScrub .. | .quarterLost ..
    => [.ras, .host, .log, .sch, .eng, .nbu, .mem, .bytes, .home, .locus, .xpt, .eth, .reqs, .emitted]
  | .registerWrite .. => [.ras, .pwr, .sec, .host, .log, .sch, .eng, .nbu, .home, .xpt, .eth, .reqs, .free, .emitted]
  | .resultRecordRead .. => [.aon, .ras, .host, .log, .sch, .eng, .nbu, .mem, .home, .xpt, .eth, .reqs, .free, .emitted]
  | .ondieAbortReread .. => [.ras, .host, .log, .sch, .eng, .nbu, .mem, .bytes, .home, .locus, .xpt, .eth, .reqs, .free, .emitted]
  | .peerAcknowledgement ..
    => [.host, .log, .sch, .eng, .nbu, .mem, .bytes, .home, .locus, .xpt, .eth, .reqs, .nextReq, .free, .emitted]
  | .resetAssert .. | .refclk100Loss ..
    => [.aon, .ras, .pwr, .sec, .host, .log, .sch, .eng, .nbu, .mem, .home, .locus, .xpt, .eth, .reqs]
  | .recoveryFlashWritten ..
    => [.aon, .ras, .pwr, .sec, .host, .log, .sch, .eng, .nbu, .mem, .home, .locus, .xpt, .eth, .reqs, .emitted]
  | .regionFence .. => [.aon, .ras, .host, .log, .sch, .eng, .nbu, .mem, .bytes, .home, .locus, .xpt, .eth, .reqs, .free, .emitted]
  | .supplyLoss .. => [.aon, .ras, .pwr, .sec, .host, .log, .sch, .eng, .nbu, .mem, .bytes, .home, .locus, .xpt, .eth, .reqs]
  | .coolantRestart .. | .apexRestartDone ..
    => [.aon, .ras, .pwr, .sec, .host, .log, .sch, .eng, .nbu, .mem, .home, .locus, .xpt, .eth, .reqs, .free, .emitted]
  | .nbExit .. | .stackTrainingDone ..
    => [.aon, .ras, .pwr, .host, .log, .sch, .eng, .nbu, .mem, .bytes, .home, .locus, .xpt, .eth, .reqs, .free, .emitted]
  | .contextLoad ..
    => [.aon, .ras, .pwr, .sec, .host, .log, .sch, .eng, .nbu, .mem, .bytes, .home, .locus, .xpt, .eth, .reqs, .nextReq, .free, .emitted]

/-- What the commands that first let time pass at the home (R203) may change beside what that does. -/
def Sys2Proof.touchedAfter : Instr → Option (List Part)
  | .leaseRenew .. | .handoverQuery .. | .statOwnQp .. | .statGroup .. | .statNode .. | .peerCompletionMarker .. | .peerGrant ..
  | .peerRevoke .. | .hello .. => some [.home, .xpt, .eth]
  | .homeUnitLoss .. => some [.host, .log, .home, .emitted]
  | .unpin .. | .peerRelabel .. => some [.mem, .home, .xpt, .eth, .emitted]
  | .attendBwdDiscard .. | .peerDrop .. => some [.eng, .mem, .home, .xpt, .eth, .emitted]
  | .mapInstall .. => some [.host, .log, .mem, .home, .xpt, .eth, .reqs, .emitted]
  | .nodeFence .. | .requesterUnfence .. | .isolationSet .. | .isolationExport ..
    => some [.ras, .host, .log, .mem, .home, .xpt, .eth, .emitted]
  | .admKeyCreate .. | .admKeyRemove .. => some [.ras, .host, .log, .eng, .mem, .home, .xpt, .eth, .emitted]
  | .admManifestLoad .. => some [.ras, .sec, .host, .log, .mem, .home, .xpt, .eth, .emitted]
  | .groupSet .. => some [.ras, .host, .log, .sch, .mem, .home, .xpt, .eth, .emitted]
  | .nodeUnfence .. => some [.aon, .ras, .host, .log, .mem, .home, .xpt, .eth, .emitted]
  | .peerReplicaCopy .. => some [.eng, .nbu, .mem, .bytes, .home, .xpt, .eth, .free, .emitted]
  | .powerShift .. => some [.ras, .pwr, .host, .log, .mem, .home, .xpt, .eth, .emitted]
  | .peerBucketState .. => some [.eng, .nbu, .mem, .bytes, .home, .locus, .xpt, .eth, .free, .emitted]
  | .lookup .. | .publishPrefix .. | .prefixRelease ..
    => some [.ras, .host, .log, .eng, .nbu, .mem, .bytes, .home, .locus, .xpt, .eth, .emitted]
  | _ => none

/-- The frame of every command: what it may change, and that all else stays (R203, R407, R430, R437).
For every one of the 201 commands, with any operands and from any state: when it answers a next state, every part of the state
outside the list given for that command is as it was. The parts are the always-on logic, reliability, power, security, host
interface, log, slices, engines, near-bank units, memory, the stored bytes of the stacks, home, prefix directory, transport,
ports, waiting requests and their next number, persistence image, free-value count, emissions and the queue; no command changes
the queue. For the commands that first end leases and tombstones whose time has come (R203), a second, narrower list holds
relative to the state after that. -/
def Obligations.CommandsTouchOnlyTheirParts : Prop :=
  (∀ c : Instr, OnlyTouches (touched c) c) ∧
(∀ (c : Instr) (ps : List Part), touchedAfter c = some ps → OnlyTouchesAfter ps c)

/-- Page codes of a request whose pages resolve without a wait: the code of each page of the range in order; a page that the mask
excludes is OK (R67, R89, R108). -/
def Sys2Proof.rangeCodes (n : Nat) (items : List Item) : List Code :=
  (List.range n).map (fun k => match items.find? (fun i => i.idx = k) with
    | some i => (match i.res with
      | .code c => c
      | _ => .ok)
    | none => .ok)

/-- ATTEND_FWD whose pages need no wait answers at once (R67, R89, R107, R108).
An ATTEND_FWD that is admitted, none of whose pages waits or goes to the near-bank units (the slice's phase sends them to cells,
the request has more than four rows per head where the phase is automatic, or no region has the near-bank path enabled), and for
whose pages no other landed request waits, leaves no waiting request, and answers with the range code and one page code for each
page of the range, the codes of the pages in order only where the range is PART, its tau and delta, and as many row records as
heads in the group times rows per head. Computing at admission the pages that are in hand is log entry 11. -/
def Obligations.AttendFwdAnswers : Prop :=
  ∀ (h : ExtHdr) (p : FwdParams) (s s2 : State) (c : Ctx), s.running = true →
    admission h (.attendFwd h p) (fwdSpec h p s) s.settle = some (c, s2) →
    let a := s2.addReq h 0 c (s2.onPrevious c.slice h.mapGen 0 p.handle true) (.attend p [] [] [] 0)
    let f := s2.format c.slice
    let items := (a.2.resolveRange { r := a.1, slice := c.slice, cls := a.2.classOf c.slice c.group, phase := (a.2.cfg c.slice).phaseMode, p := p }).1
    let codes := rangeCodes (rangeBlocks (PageFormatT f) p.posStart p.posCount).length items
    (∀ i ∈ items, ∀ e, i.res ≠ .await e) → (∀ x ∈ s2.eng.ctxs, x.2.slotState ≠ 1) →
    ((s2.cfg c.slice).phaseMode = 1 ∨ ((s2.cfg c.slice).phaseMode = 0 ∧ 4 < p.rowsPerHead) ∨ ∀ n, (s2.nbu.getD n {}).nbEnable = false) →
    Does (.attendFwd h p) s (fun t => t.reqs.get? a.1 = none ∧ ∃ skipped bound rows,
      lastResponse t h.pkt.qpn = some (0, 0, rangeCode codes,
        .attend codes.length skipped p.tau (if p.mode = 1 then p.delta else 0) bound (if rangeCode codes = .part then codes else []) rows) ∧
      rows.length = f.headsPerGroup * p.rowsPerHead)

/-- ATTEND_BWD OPEN binds accumulators; ACCUMULATE waits with every page of its range (R155, R156, R157).
An admitted OPEN answers the range code and page codes that opening its pages in order gives, and leaves the home and memory that
this leaves; opening one page without an accumulator that answers OK creates one with the pass, no tags, no updates, and the frame
generation of the page. An admitted ACCUMULATE leaves a waiting request with its header, slice and one record for each page of its
range, excluded pages OK at once. Staging until commit is log entry 14. -/
def Obligations.AttendBwdOpensAndStages : Prop :=
  ((∀ (h : ExtHdr) (p : BwdParams) (s s2 s3 : State) (c : Ctx) (codes : List Code), s.running = true →
     admission h (.attendBwdOpen h p) (openSpec h p s) s.settle = some (c, s2) →
     s2.openAll c.slice p.accPass (bwdNames (s2.format c.slice) p) = some (codes, s3) →
     Does (.attendBwdOpen h p) s (fun t => lastResponse t h.pkt.qpn = some (1, 0, rangeCode codes, bwdReply codes) ∧
       codes.length = (bwdNames (s2.format c.slice) p).length ∧ t.home = s3.home ∧ t.mem = s3.mem)) ∧
   (∀ (s t : State) (slice pass : Nat) (n : PageName), s.openPage slice pass n = some (.ok, t) → s.accOf slice n = none →
     ∃ a e, t.accOf slice n = some a ∧ a.pass = pass ∧ a.tags = [] ∧ a.updates = 0 ∧ t.entry slice n = some e ∧ a.frameGen = e.frameGen)) ∧
  (∀ (h : ExtHdr) (p : BwdParams) (s s2 : State) (c : Ctx), s.running = true → s.ReqsOk →
     admission h (.attendBwdAccumulate h p) (accSpec h p s) s.settle = some (c, s2) →
     let f := s2.format c.slice
     Does (.attendBwdAccumulate h p) s (fun t => ∃ (q : Req) (pages : List PageWait) (st : List Staging), t.reqs.get? s2.nextReq = some q ∧ q.hdr = h ∧ q.op = 1 ∧
       q.slice = c.slice ∧ q.kind = .bwd p pages st ∧ pages.length = (bwdNames f p).length ∧
       ∀ (i : Nat) (n : PageName), (bwdNames f p)[i]? = some n → bwdExcluded f p n = true → pages[i]? = some (PageWait.done .ok)))

/-- ACCUMULATOR_COMMIT adds a request in its turn, once (R158, R161).
For a waiting ACCUMULATE whose page codes are all known, no earlier request of whose claims stands before it, on a queue pair in
RTS, with no COLLECT waiting: the request leaves the waiting list; its response carries the range code, the duplicate mark, the
page codes where PART, and one row record for each row; with a duplicate contribution tag no accumulator and no memory changes;
without one, an accumulator that it alone adds to gains the tag (the last 256 are kept) and one update. The order of commits and
staging are log entry 14. -/
def Obligations.AccumulatorCommitInTurn : Prop :=
  ∀ (r : Nat) (s : State) (q : Req) (p : BwdParams) (pages : List PageWait) (st : List Staging) (codes : List Code),
    s.running = true → s.ReqsOk → s.reqs.get? r = some q → q.kind = .bwd p pages st → pageCodes pages = some codes →
    s.claimedBefore r q.slice (s.accClaims q) = false → (s.ctx q.hdr.pkt.qpn).map Ctx.state = some .rts →
    (∀ x ∈ s.reqs, ∀ p, x.2.kind ≠ .collect p) →
    let names := bwdNames (s.format q.slice) p
    let done := s.commitCodes q.slice p names codes st
    let dup := (okStaging done st).any (fun x => match s.accOf q.slice (names.getD x.page {}) with
      | some a => a.tags.contains p.contribTag
      | none => false)
    Does (.accumulatorCommit r) s (fun t => t.reqs = s.reqs.erase r ∧
      (∃ rows, lastResponse t q.hdr.pkt.qpn =
          some (q.op, 0, rangeCode done, .bwd dup done.length (if rangeCode done = .part then done else []) rows) ∧
        rows.length = (s.format q.slice).headsPerGroup * p.rowsPerHead) ∧
      (dup = true → t.home.accs = s.home.accs ∧ t.mem = s.mem) ∧
      (dup = false → ∀ x, okStaging done st = [x] → ∀ a, s.accOf q.slice (names.getD x.page {}) = some a →
        ∃ b, t.accOf q.slice (names.getD x.page {}) = some b ∧ b.tags = (a.tags ++ [p.contribTag]).drop (a.tags.length + 1 - 256) ∧
          b.updates = satAdd max32 a.updates 1))

/-- ATTEND_BWD COLLECT returns and releases accumulators or waits; DISCARD releases them (R159, R160, R162).
An admitted COLLECT behind an ACCUMULATE of its pass, or a request that claims one of its accumulators, waits, changing none; otherwise it leaves no waiting
request, answers one record for each page and the range code of the pages' codes, and every page answered OK has no accumulator.
An admitted DISCARD answers OK for each page and leaves no accumulator on any of them. The wait is log entry 14. -/
def Obligations.AttendBwdCollectsOrDiscards : Prop :=
  (∀ (h : ExtHdr) (p : BwdParams) (s s2 : State) (c : Ctx), s.running = true →
     admission h (.attendBwdCollect h p) (collectSpec h p s) s.settle = some (c, s2) →
     let names := bwdNames (s2.format c.slice) p
     let a := (s2.addReq h 1 c (s2.onPrevious c.slice h.mapGen 0 p.handle true) (.collect p)).2
     Does (.attendBwdCollect h p) s (fun t =>
       if a.passBefore s2.nextReq c.slice p.accPass || a.claimedBefore s2.nextReq c.slice (names.map (fun n => (n, p.accPass))) then
         t.home.accs = s2.home.accs ∧ ∃ q, t.reqs.get? s2.nextReq = some q ∧ q.kind = .collect p ∧ q.hdr = h
       else t.reqs.get? s2.nextReq = none ∧
         (∃ records, records.length = names.length ∧
           lastResponse t h.pkt.qpn = some (1, 0, rangeCode (names.map (s2.accCode c.slice p.accPass)), .collect records)) ∧
         ∀ n ∈ names, s2.accCode c.slice p.accPass n = .ok → t.accOf c.slice n = none)) ∧
  (∀ (h : ExtHdr) (p : BwdParams) (s s2 : State) (c : Ctx), s.running = true →
     admission h (.attendBwdDiscard h p) (discardSpec h p s) s.settle = some (c, s2) →
     let names := bwdNames (s2.format c.slice) p
     Does (.attendBwdDiscard h p) s (fun t =>
       lastResponse t h.pkt.qpn = some (1, 0, .ok, bwdReply (names.map (fun _ => .ok))) ∧ ∀ n ∈ names, t.accOf c.slice n = none))

/-- A parked context resumes, and a deadline decides a waiting page (R234, R235, R318, R319, R325).
CONTEXT_RESUME of a parked context with an accumulator starts its restore in the cell that can take it and does nothing where none
can; without one, a context whose page has its code leaves, its page done, and the request either answers with all codes and
leaves the waiting list or waits on for the rest. DEADLINE_DECISION, once the margin before the deadline is reached, gives a page
still waiting DEADLINE_FALLBACK where it has a readable shadow and MISS otherwise, and a request whose pages are then all decided
answers. When the request parks is log entry 11. -/
def Obligations.ParkedPagesResumeOrTimeOut : Prop :=
  (∀ (k : Nat) (s : State) (c : ParkedCtx), s.running = true → s.eng.ctxs.get? k = some c → c.slotState ≠ 0 → c.saving = none →
     c.restoring = none →
     (∀ a x, c.acc = some a → s.cellFor c = some x →
       Gives (exec (.contextResume k) s) (s.onParked k (fun c => { c with restoring := some x }))) ∧
     (∀ a, c.acc = some a → s.cellFor c = none → Gives (exec (.contextResume k) s) s) ∧
     (∀ q p pages rows skips n, c.acc = none → c.slotState = 2 → s.reqs.get? c.req = some q → q.kind = .attend p pages rows skips n →
       (s.ctx q.hdr.pkt.qpn).map Ctx.state = some .rts →
       Does (.contextResume k) s (fun t => t.eng.ctxs.get? k = none ∧
         match pageCodes (pages.set c.page (PageWait.done c.pageCode)) with
         | some codes => t.reqs = s.reqs.erase c.req ∧
             lastResponse t q.hdr.pkt.qpn = some (q.op, 0, rangeCode codes, fwdBody (s.format q.slice) p codes skips n rows)
         | none => t.reqs.get? c.req = some { q with kind := .attend p (pages.set c.page (PageWait.done c.pageCode)) rows skips n }))) ∧
  (∀ (r idx : Nat) (s : State) (q : Req) (p : FwdParams) (pages : List PageWait) (rows : List Triple) (skips : List Nat) (n k tries : Nat)
     (skip : List Nat) (c : ParkedCtx) (codes : List Code), s.running = true → s.ReqsOk → s.reqs.get? r = some q →
     q.kind = .attend p pages rows skips n → pages[idx]? = some (PageWait.waiting k tries skip) → s.eng.ctxs.get? k = some c →
     c.slotState = 0 → p.deadline ≠ 0 → (p.deadline : Int) - (s.cfg q.slice).tier.deadlineMargin * 1000 ≤ s.now →
     (s.ctx q.hdr.pkt.qpn).map Ctx.state = some .rts →
     let code := match s.entry q.slice c.name with
       | some e => if e.shadowValid && !s.stackFenced e.shadowFrame.1 then Code.deadlineFallback else .miss
       | none => .miss
     pageCodes (pages.set idx (PageWait.done code)) = some codes →
     Does (.deadlineDecision r idx) s (fun t => t.reqs.get? r = none ∧ t.eng.ctxs.get? k = none ∧
       ∃ bodies, lastResponse t q.hdr.pkt.qpn = some (q.op, 0, rangeCode codes, bodies)))

/-- Tiles are placed, multiplied and retried in cells (R21, R22, R25, R27, R36, R315, R348).
TILE_PLACE in a block of the slice queues the tile group's split parts where the block is stopped or no working cell is free for any
class; into an empty queue, and with a first tile that is staged or whose page is readable, the group goes live in the first working
cell free for its class. TILE_PRODUCT on a slot whose operands are there: a product that passes its checks leaves, after a score
product, the rows in the vector unit, and after an output product with a further tile of the same page, the updated rows and the next
tile; one that fails marks the group faulty and queues a retry; neither changes the reliability counts. TILE_RETRY in another cell
counts a transient where the same cell passes, sends the first cell to retest where another passes, and hands the tile up as an
operand fault where it fails again. The engine plan is log entry 38, the free orders log entry 10. -/
def Obligations.TilesReachCells : Prop :=
  ∀ (b : Fin 32) (s : State), s.running = true → (b : Nat) < s.eng.blocks.length →
    (∀ t, let g := { t with seed := s.free }
      ((s.blocksOf t.slice).contains (b : Nat) = false → Gives (exec (.tilePlace b t) s) s) ∧
      ((s.blocksOf t.slice).contains (b : Nat) = true →
        (s.blockUp b = false ∨ (∀ x ∈ s.workingPos b, ∀ cls, s.cellFree b x.2 cls = false) → Does (.tilePlace b t) s (fun u =>
          (u.block b).ready = (s.block b).ready ++ splitGroup g)) ∧
        (∀ x t0 ts, s.blockUp b = true → (s.block b).ready = [] → 1 ≤ t.rows → t.rows ≤ 32 → 1 ≤ t.cols → t.cols ≤ 256 →
          t.tiles = t0 :: ts → t.tiles.length ≤ 256 → (t0.staged.isSome = true ∨ ∃ e, (s.resolve t.slice t0.page).1 = .frame e) →
          (s.workingPos b).find? (fun x => s.cellFree b x.2 t.cls) = some x → x.2 < (s.block b).cells.length →
          Does (.tilePlace b t) s (fun u => (u.block b).ready = [] ∧ ∃ a, ((u.block b).cell x.2).live = some a ∧
            splitGroup g = [a.tg] ∧ a.at_ = 0 ∧ a.rows = List.replicate t.rows (.empty t.cols))))) ∧
    (∀ (slot : Fin 4) (x : ArrayFault) (p : Nat) (a : Accum) (t : TileStep), s.blockUp b = true → (s.block b).slots.getD slot none = some p → p < (s.block b).cells.length →
      let c := (s.block b).cell p
      c.need = false → c.live = some a → a.faulty = false → a.step = some t →
      (∀ d, s.runProduct a t c.vec.isEmpty c.bufA c.bufB x = .error d → Does (.tileProduct b slot x) s (fun u =>
        ((u.block b).cell p).live = some { a with faulty := true } ∧ u.ras = s.ras ∧ ∃ r : Retry, (u.block b).retries = (s.block b).retries ++ [r] ∧
          r.id = a.tg.id ∧ r.part = a.tg.part ∧ r.failedSlot = (slot : Nat) ∧ r.detector = d ∧ r.reread = false)) ∧
      (∀ m src, s.runProduct a t c.vec.isEmpty c.bufA c.bufB x = .ok m → t.staged = none → a.src = some src → src.1 = t.page →
        (c.vec = [] → Does (.tileProduct b slot x) s (fun u => ((u.block b).cell p).live = some { a with faulty := false } ∧
          ((u.block b).cell p).vec = (s.scoreRows a t src.2 m).map Prod.fst ∧ ((u.block b).cell p).need = true ∧ u.ras = s.ras)) ∧
        (∀ t1, c.vec ≠ [] → a.tg.tiles[a.at_ + 1]? = some t1 → t1.staged = none → t1.page = t.page →
          Does (.tileProduct b slot x) s (fun u => ((u.block b).cell p).live = some { a with
            rows := (c.vec.zipIdx).map (fun r => outputRow (m.getD r.2 []) r.1), at_ := a.at_ + 1, faulty := false } ∧
            ((u.block b).cell p).vec = [] ∧ u.ras = s.ras)))) ∧
    (∀ x r rest y h a t m, s.blockUp b = true → (s.block b).retries = r :: rest → s.retryCell b r = some y → r.reread = false →
      let s1 := s.onBlock b (fun z => { z with retries := rest })
      s1.homeOf r.id r.part = some h → (s1.fillCell h.1 h.2).retryProduct h x = some (a, t, m) →
      (∀ c, m = .ok c → Does (.tileRetry b x) s (fun u =>
        (y.1 = r.failedSlot → u.ras.transient = inc32 s.ras.transient) ∧
        (y.1 ≠ r.failedSlot → (s.unit (cellKey b r.failedSlot)).state = .inService → r.failedSlot < 4 →
          (u.unit (cellKey b r.failedSlot)).state = .retest))) ∧
      (∀ d, m = .error d → y.1 ≠ r.failedSlot → Does (.tileRetry b x) s (fun u =>
        (u.block b).retries = rest ∧ (u.block b).faulted = (s.block b).faulted ++ [r] ∧ u.ras = s.ras)))

/-- Lattice links: delivery in order, replay, and a link that fails (R38, R39, R40, R41).
On a link that has not failed: a good expected flit of an empty replay buffer advances the sequence number, and at its destination's
router is taken there in order, elsewhere waits at the next link of its route; a flit while another is awaited changes nothing but the
replay buffer; a bad expected one opens a handshake and is logged 0x0101 while fewer than 16 replays have been made, and fails the
link, with traffic rerouted and 0x0102 logged, after that; a handshake that times out fails the link in the same way. A destination
takes the message next in order, holds one inside the window of 64, and drops a repeat; an output sends management before responses
before requests. Field widths of the link's sequence and the routes are log entry 62. -/
def Obligations.LatticeLinks : Prop :=
  (∀ (router : Fin 8) (link : Fin 3) (s : State), s.running = true →
    let k := linkKey router link
    let far := linkFar router link
    let x := s.link k
    let event (n : Nat) : LogEntry := { kind := 3, island := 32 + router, record := eventRecord s.now n 0xff 0 k (32 + router + (32 + far) * 256) 0 }
    k < s.eng.links.length → x.failed = false →
    (∀ (f : Flit), let kept := if f.seq = (x.nextSeq + x.buffer.length) % 65536 ∧ x.buffer.length < 64 then x.buffer ++ [f] else x.buffer
      (f.seq = x.nextSeq → x.nextSeq < 65536 → x.buffer = [] →
        (unitRouter f.dst = far → Does (.flitReceive router link f (flitCrcOf f)) s (fun t =>
          t.link k = { x with nextSeq := (x.nextSeq + 1) % 65536, waiting := false, replays := 0 } ∧
          t.eng.streams.getD (streamKey f.src f.dst f.cls) {} = Reorder.take f.num f.payload (s.eng.streams.getD (streamKey f.src f.dst f.cls) {}))) ∧
        (∀ l, unitRouter f.dst ≠ far → s.nextHop far (unitRouter f.dst) = some l → linkKey far l < s.eng.links.length → linkKey far l ≠ k →
          Does (.flitReceive router link f (flitCrcOf f)) s (fun t =>
            t.link k = { x with nextSeq := (x.nextSeq + 1) % 65536, waiting := false, replays := 0 } ∧
            (t.link (linkKey far l)).out = (s.link (linkKey far l)).out ++ [{ f with vc := crossVc far l f.vc }]))) ∧
      (∀ crc, f.seq ≠ x.nextSeq → x.waiting = true → Gives (exec (.flitReceive router link f crc) s) (s.onLink k (fun x => { x with buffer := kept }))) ∧
      (∀ crc, f.seq = x.nextSeq → crc ≠ flitCrcOf f → x.replays < 16 → Does (.flitReceive router link f crc) s (fun t =>
        t.link k = { x with waiting := true, replays := x.replays + 1, buffer := kept } ∧ t.eng.rerouted = s.eng.rerouted ∧
        t.log.entries.get? (s.log.nextSeq + 1) = some (event 0x0101))) ∧
      (∀ crc, f.seq = x.nextSeq → crc ≠ flitCrcOf f → 16 ≤ x.replays → Does (.flitReceive router link f crc) s (fun t =>
        t.link k = { x with waiting := false, failed := true, buffer := [], out := [] } ∧ t.eng.rerouted = true ∧
        t.log.entries.get? (s.log.nextSeq + 1) = some (event 0x0102)))) ∧
    Does (.linkHandshakeTimeout router link) s (fun t =>
      t.link k = { x with waiting := false, failed := true, buffer := [], out := [] } ∧ t.eng.rerouted = true ∧
      t.log.entries.get? (s.log.nextSeq + 1) = some (event 0x0102))) ∧
  (∀ (w : Reorder) (num : Nat) (data : List Byte), w.next < 65536 → num < 65536 →
    (num = w.next → w.held = [] → Reorder.take num data w = { next := (num + 1) % 65536, held := [], last := data }) ∧
    (num ≠ w.next → (num + 65536 - w.next) % 65536 < 64 → w.held = [] → Reorder.take num data w = { w with held := [(num, data)] }) ∧
    (64 ≤ (num + 65536 - w.next) % 65536 → Reorder.take num data w = w)) ∧
  (∀ (x : LinkS) (f : Flit), x.pick = some f → f ∈ x.out ∧ ∀ g ∈ x.out, f.cls ≤ g.cls)

/-- Re-reads, scrubbing and cell moves after storage faults (R31, R350, R351, R355, R357).
After the region's arbiter has served what waits: REGION_REREAD of a line that meets no window withdraws an SRAM line that fails
after its refill and refills it before, hands a faulted tile back for retry, and counts an uncorrectable copy; PATROL_SCRUB that meets
no window changes nothing on clean data, counts a corrected error of its region or an uncorrected one with the row marked faulty;
CELL_SLOT_MOVE puts a retiring cell's slot on the block's unused spare with a fresh history. Which SRAM way a line is in is log entry
38, the arbiter's round robin log entry 63. -/
def Obligations.StorageFaults : Prop :=
  (∀ (n : Fin 8) (a : Nat) (s : State), s.running = true → pageSpace a = true → s.stackFenced (addrStack a) = false →
    let s1 := s.takeSlot n 1 (sramBank a)
    s1.collides (s1.placed a) = false →
    (s1.faultedAt a = none → s.ras.sramWithdrawn.contains ((n : Nat), sramLine a) = false →
      (s.ras.sramRefilled.contains ((n : Nat), sramLine a) = false → s1.lineBarred a = false → Does (.regionReread n a true) s (fun t =>
        t.ras.sramRefilled = s.ras.sramRefilled ++ [((n : Nat), sramLine a)] ∧
        t.eng.lines = a / 4096 * 4096 :: s1.eng.lines.filter (· ≠ a / 4096 * 4096))) ∧
      (s.ras.sramRefilled.contains ((n : Nat), sramLine a) = true → Does (.regionReread n a true) s (fun t =>
        t.ras.sramWithdrawn = s.ras.sramWithdrawn ++ [((n : Nat), sramLine a)] ∧
        t.eng.lines = s1.eng.lines.filter (· ≠ a / 4096 * 4096))) ∧
      Does (.regionReread n a false) s (fun t => t.ras.ue = s.ras.ue.modify (addrStack (s1.placed a)) inc32)) ∧
    (∀ b r, s1.faultedAt a = some (b, r) → b < s1.eng.blocks.length →
      Does (.regionReread n a true) s (fun t => (t.block b).faulted = (s1.block b).faulted.erase r ∧
        (t.block b).retries = (s1.block b).retries ++ [{ r with reread := true }] ∧ t.ras = s.ras))) ∧
  (∀ (n : Fin 8) (a : Nat) (s : State), s.running = true →
    let x := nodeAddr n (a % 2 ^ 37)
    let s1 := s.takeStack 5 x
    s.stackFenced n = false → implementedOffset (addrOffset x) = true → s1.collides x = false →
    Gives (exec (.patrolScrub n a false false) s) s1 ∧
    Does (.patrolScrub n a true false) s (fun t => t.ras.ce = s.ras.ce.modify n inc32 ∧ t.ras.ue = s.ras.ue) ∧
    Does (.patrolScrub n a false true) s (fun t => t.ras.ue = s.ras.ue.modify n inc32 ∧ t.ras.ce = s.ras.ce ∧
      t.ras.rowsFaulty.any (fun r => r.1 = n && r.2.1 = rowId x) = true)) ∧
  (∀ (b : Fin 32) (s : State) i p, s.running = true → (b : Nat) < s.eng.blocks.length →
    (List.range 4).findSome? (fun i => (s.moving b i).map (fun p => (i, p))) = some (i, p) →
    ((s.block b).cell p).shadow = none → (s.block b).spareUsed = false → (s.block b).slots.contains (some 4) = false →
    Does (.cellSlotMove b) s (fun t => (t.block b).slots = (s.block b).slots.set i (some 4) ∧ (t.block b).spareUsed = true ∧
      t.unit (cellKey b i) = {}))

/-- Duplicate audits, sentinels and retests classify faults (R348, R352, R353, R354).
AUDIT_DUPLICATE with equal results changes nothing; with a mismatch it is counted and the minority unit goes to retest;
SENTINEL_RUN that passes changes no unit and counts a late one only where the unit's spare is busy, and one that fails puts the
unit in retest with the detection remembered; RETEST_COMPLETE counts a lasting fault on failure, a correlated one where past
detections correlate, and otherwise a transient, returning the unit to service. Neither has an effect while the unit's island is
stopped (R36; log entry 65). -/
def Obligations.AuditsAndRetests : Prop :=
  (∀ (b b2 b3 : Fin 32) (x y : List Nat) (s : State), s.running = true →
    Gives (exec (.auditDuplicate b x x y b2 b3 none) s) s ∧
    (x ≠ y → Does (.auditDuplicate b x y x b2 b3 none) s (fun t =>
      t.ras.dupMismatches = inc32 s.ras.dupMismatches ∧
      ((s.unit (unitKey (.vector b2))).state = .inService → (t.unit (unitKey (.vector b2))).state = .retest))) ∧
    (x ≠ y → Does (.auditDuplicate b x y y b2 b3 none) s (fun t =>
      t.ras.dupMismatches = inc32 s.ras.dupMismatches ∧
      ((s.unit (unitKey (.vector b))).state = .inService → (t.unit (unitKey (.vector b))).state = .retest))) ∧
    (∀ members, Gives (exec (.auditDuplicate b x y y b2 b3 (some (members, true))) s) s ∧
      Does (.auditDuplicate b x y y b2 b3 (some (members, false))) s (fun t =>
        t.ras.dupMismatches = inc32 s.ras.dupMismatches ∧
        ∀ u ∈ members, (s.unit (unitKey u)).state = .inService → (t.unit (unitKey u)).state = .retest))) ∧
  (∀ (u : UnitId) (pass late : Bool) (temp volt : Nat) (s : State), s.running = true → s.unitStopped u = true →
    Gives (exec (.sentinelRun u pass late temp volt) s) s ∧ Gives (exec (.retestComplete u pass) s) s) ∧
  (∀ (u : UnitId) (late : Bool) (temp volt : Nat) (s : State), s.running = true → s.unitStopped u = false →
    (s.unit (unitKey u)).state ≠ .retired →
    Does (.sentinelRun u true late temp volt) s (fun t => t.ras.units = s.ras.units ∧
      t.ras.sentinelLate = if late && (s.portOf u).spareBusy u then inc32 s.ras.sentinelLate else s.ras.sentinelLate) ∧
    Does (.sentinelRun u false late temp volt) s (fun t => (t.unit (unitKey u)).state = .retest ∧
      ∃ old, (t.unit (unitKey u)).seen = old ++ [{ stamp := s.now, band := tempBand temp, cls := 0, detector := 3 }])) ∧
  (∀ (u : UnitId) (d : Seen) (s : State), s.running = true → s.unitStopped u = false → (s.unit (unitKey u)).state = .retest →
    (s.unit (unitKey u)).waiting = some d →
    (Does (.retestComplete u false) s (fun t => t.ras.lasting = inc16 s.ras.lasting ∧ t.ras.transient = s.ras.transient ∧
      t.ras.correlated = s.ras.correlated)) ∧
    ((s.unit (unitKey u)).correlated s.now d = true → Does (.retestComplete u true) s (fun t =>
      t.ras.correlated = inc16 s.ras.correlated ∧ t.ras.transient = s.ras.transient ∧ t.ras.lasting = s.ras.lasting)) ∧
    ((s.unit (unitKey u)).correlated s.now d = false → Does (.retestComplete u true) s (fun t =>
      t.ras.transient = inc32 s.ras.transient ∧ t.ras.lasting = s.ras.lasting ∧ t.ras.correlated = s.ras.correlated ∧
      (t.unit (unitKey u)).state = .inService ∧ (t.unit (unitKey u)).waiting = none)))


/-- A near-bank window passes its steps in order (R121, R126 to R133, R137, R140, R141).
After pages of ended requests have left: NB_WINDOW_OPEN of a page whose turn it is, with what a window needs, opens the window that the
page's work gives next, no longer than the limit in force, and takes that work off the page; without its turn, a free place or steady
clocks it waits. NB_ENTER, where no earlier window is before it and no access waits, stamps it and takes its granules out of the page
buffer; NB_LOAD fills the query buffer of every pseudo-channel that holds its records; NB_ACT opens the next row of each bank once the
columns before it are read; NB_READ reads a column, the last one giving the units' triples; NB_CHORD reduces them to page groups;
NB_RESULT writes their records with tags, and the bytes stand in the group's slot; NB_EXIT ends the window. Which rows stand for which
step is log entry 13, the planning of windows log entry 66. -/
def Obligations.NearBankWindowSteps : Prop :=
  (∀ (n : Fin 8) (w : WinPlan) (s : State) (p : NearPage) (q : Req) params pages rows skips fps x rest sh, s.running = true → (n : Nat) < s.nbu.length →
    let s1 := s.purgeNear n
    let r := s1.nbu.getD n {}
    r.near.find? (fun p => p.req = w.req && p.page = w.page) = some p → s1.reqs.get? w.req = some q →
    q.kind = .attend params pages rows skips fps → p.todo = x :: rest →
    s1.nbEligible p.src.format p.src.frame params.queryFormat = true →
    nextShape p.src.format p.src.frame params.queryFormat (s1.windowLimit n) (p.rp.getD 4) x = some sh →
    let win := s1.newWin n p params sh
    (s1.regionSteady n = true → r.turnOf p = true → r.activeCount < 16 → r.pairsFree win.pairs = true → r.roomFor win = true →
      Does (.nbWindowOpen n w) s (fun t => (t.nbu.getD n {}).nextWin = r.nextWin + 1 ∧ t.win n r.nextWin = some win ∧
        win.step = .opened ∧ win.columns = 0 ∧ win.length ≤ s.windowLimit n * 10 ∧ win.shape.rows ≤ p.rp.getD 4 ∧
        ∃ y, (t.nbu.getD n {}).near.find? (fun p => p.req = w.req && p.page = w.page) = some y ∧
          y.todo = restOf x sh ++ rest ∧ y.windows = p.windows + 1)) ∧
    (s1.regionSteady n = false ∨ r.turnOf p = false ∨ 16 ≤ r.activeCount ∨ r.pairsFree win.pairs = false ∨ r.roomFor win = false →
      Gives (exec (.nbWindowOpen n w) s) s1)) ∧
  (∀ (n : Fin 8) (k : Nat) (w : NbWin) (s : State), s.running = true →
    (let s1 := s.purgeNear n
     s1.win n k = some w → w.step = .opened →
      ((s1.nbu.getD n {}).behind k w = false → (∀ p ∈ w.pairs, ∀ c ∈ (s1.nbu.getD n {}).queued, c.pair ≠ p) → s1.regionSteady n = true →
        Does (.nbEnter n k) s (fun t => t.win n k = some { w with step := .entered, stamp := s.now } ∧
          ∀ a ∈ t.eng.lines, addrStack a = n → offsetGranule (addrOffset a) ∉ w.granules)) ∧
      ((s1.nbu.getD n {}).behind k w = true ∨ s1.regionSteady n = false → Gives (exec (.nbEnter n k) s) s1)) ∧
    (s.win n k = some w →
      (w.step = .entered → Does (.nbLoad n k) s (fun t => t.win n k = some { w with step := .loaded } ∧
        ∀ u ∈ w.loads, (t.nbu.getD n {}).query.get? (bufKey k u.pc) = some (w.buffer u.pc))) ∧
      (w.step = .loaded ∨ w.step = .reading → w.acts < actCount w.granules → w.columns = columnsTo w.src.frame.2 w.granules w.acts →
        Does (.nbAct n k) s (fun t => t.win n k = some { w with
          step := if w.step = .loaded then .active else w.step
          acts := w.acts + 1
          opened := actRows w.src.frame.2 w.granules w.acts })) ∧
      (∀ x : ColumnEcc, w.step = .active ∨ w.step = .reading → w.columns < columnsTo w.src.frame.2 w.granules w.acts →
        Does (.nbRead n k x) s (fun t => ∃ y, t.win n k = some y ∧ y.step = .reading ∧ y.columns = w.columns + 1 ∧
          y.aborts = w.aborts ++ (x.abort.bind w.abortAt).toList ∧ y.slots = w.slots ∧
          (w.columns + 1 ≠ w.total → y.triples = w.triples) ∧
          (x = {} → w.columns + 1 = w.total → y.triples = s.unitTriples n k { w with step := .reading, columns := w.columns + 1 }))) ∧
      (w.step = .reading → w.columns = w.total → Does (.nbChord n k) s (fun t =>
        t.win n k = some { w with step := .reduced, triples := w.groupTriples })) ∧
      (∀ g, w.step = .reduced → w.triples = [g] → Does (.nbResult n k) s (fun t =>
        let b := (groupRecord w.stamp g).encode
        let pair := g.die * 128 + g.unit
        t.win n k = some { w with step := .written, slots := [(pair * 16 + w.slotOf g,
          { tags := (columns b.length b).map (fun c => columnTag c w.stamp), group := g })] } ∧
        (s.stackFenced n = false → pair < 1536 → w.slotOf g < 16 → (s.nbu.getD n {}).queued = [] → b.length ≤ 2048 →
          t.slotBytes n pair (w.slotOf g) b.length = b))) ∧
      (w.step = .written → (s.nbu.getD n {}).cq = [] → (s.nbu.getD n {}).withheld = [] →
        (∃ p ∈ (s.nbu.getD n {}).near, p.req = w.req ∧ p.page = w.page) → (s.reqs.get? w.req).isSome = true →
        Does (.nbExit n k) s (fun t => t.win n k = some { w with step := .ended }))))

/-- Result records are checked; aborts, spares, refresh and the enable bit (R130, R135, R136, R137, R139, R141, R143, R144, R149, R355).
A result record read after its window ended, where no window holds its bank: with good stamp, tags and status 0 it is accepted with
its group and triple while others of its group are still to be read, and a window with nothing left leaves the region; with status 1
its group waits for the re-read of its row, counted as an abort; with a wrong stamp it is refused and counted, and its group goes to
cells once all of its records are read. A re-read after an abort counts a corrected error and sends the group to cells, or counts an
uncorrectable one. NBU_SPARE_STEER maps a retired unit to a spare while the die has one; REFRESH refreshes a pair no active window
holds and does nothing to one held; NB_ENABLE and NB_DISABLE set the region's bit, a disable with windows active waiting for their
end. The free choices are log entries 13 and 66. -/
def Obligations.NearBankResultsAndControls : Prop :=
  (∀ (n : Fin 8) (k slot : Nat) (errors : List (Nat × Byte)) (w : NbWin) (r : ResultSlot) (s : State), s.running = true →
     let s1 := s.purgeNear n
     s1.win n k = some w →
     (w.slots.get? slot = some r → s1.stackFenced n = false → s1.collides (slotAddr n (slot / 16) (slot % 16) 0) = false → w.step = .ended →
       let b := errors.foldl (fun (l : List Byte) e => l.modify e.1 (· ^^^ e.2)) (s1.slotBytes n (slot / 16) (slot % 16) (32 * r.tags.length))
       let x := ResultRec.decode (PageFormatD w.src.format) b
       let tagsOk : Prop := (columns b.length b).map (fun c => columnTag c w.stamp) = r.tags
       let more := (w.slots.erase slot).any (fun y => y.2.group.inGroup r.group.die r.group.head)
       (x.stamp = w.stamp → tagsOk → x.status = 0 →
         (more = true → Does (.resultRecordRead n k slot errors) s (fun t => ∃ g,
           t.win n k = some { w with slots := w.slots.erase slot, accepted := w.accepted ++ [g] } ∧ g.die = r.group.die ∧
           g.head = r.group.head ∧ g.row = r.group.row ∧ g.t.m = x.m ∧ g.t.l = x.l ∧ g.t.o = x.o ∧ g.t.keys = x.keys ∧
           g.t.nonfinite = bit x.flags 1)) ∧
         (w.slots.erase slot = [] → w.refused = [] → w.aborted = [] → Does (.resultRecordRead n k slot errors) s (fun t =>
           t.win n k = none))) ∧
       (x.stamp = w.stamp → tagsOk → x.status = 1 → Does (.resultRecordRead n k slot errors) s (fun t =>
         (t.nbu.getD n {}).ondieAborts = inc32 (s.nbu.getD n {}).ondieAborts ∧ ∃ g a,
         t.win n k = some { w with slots := w.slots.erase slot, aborted := w.aborted.set slot g } ∧ g = { r.group with abort := some a } ∧
           a.unit = x.abortUnit ∧ a.bank = x.abortBank ∧ a.row = x.abortRow)) ∧
       (x.stamp ≠ w.stamp → Does (.resultRecordRead n k slot errors) s (fun t =>
         (t.nbu.getD n {}).refusals = inc32 (s.nbu.getD n {}).refusals ∧
         (more = true → t.win n k = some { w with
           slots := w.slots.erase slot, refused := (w.refused ++ [(r.group.die, r.group.head)]).eraseDups }) ∧
         (more = false → w.aborted.any (fun y => y.2.inGroup r.group.die r.group.head) = false →
           (t.nbu.getD n {}).groupsToCells = inc32 (s.nbu.getD n {}).groupsToCells)))) ∧
     (∀ g, w.aborted.get? slot = some g → (s1.takeSlot n 1 (sramBank (abortAddr n w g))).collides (abortAddr n w g) = false →
       Does (.ondieAbortReread n k slot true) s (fun t => t.ras.ce = s.ras.ce.modify (addrStack (abortAddr n w g)) inc32 ∧
         (t.nbu.getD n {}).groupsToCells = inc32 (s.nbu.getD n {}).groupsToCells) ∧
       Does (.ondieAbortReread n k slot false) s (fun t => t.ras.ue = s.ras.ue.modify (addrStack (abortAddr n w g)) inc32))) ∧
  (∀ (n : Fin 8) (s : State), s.running = true → (n : Nat) < s.nbu.length →
     (∀ (die : Fin 12) (unit : Fin 128), (s.nbu.getD n {}).retiredUnits.contains ((die : Nat), (unit : Nat)) = true →
       ((s.nbu.getD n {}).spareMap.getD die []).length < 4 →
       (s.nbu.getD n {}).wins.any (fun w => w.2.active && w.2.pairs.contains (die * 128 + unit)) = false →
       Does (.nbuSpareSteer n die unit) s (fun t =>
         (t.nbu.getD n {}).spareMap.getD die [] = (s.nbu.getD n {}).spareMap.getD die [] ++ [(unit : Nat)] ∧
         (t.nbu.getD n {}).pairWorks (die * 128 + unit) = true ∧ t.unit (2 * 65536 + nbuNum n die unit) = {})) ∧
     (∀ (sid : Fin 3) (pc : Fin 64) (pair : Fin 8),
       let u : Nat := (4 * (sid : Nat) + (pc : Nat) / 16) * 128 + (pc : Nat) % 16 * 8 + (pair : Nat)
       (if (s.nbu.getD n {}).wins.any (fun w => w.2.active && w.2.pairs.contains u) then Gives (exec (.refresh n sid pc pair) s) s
         else Does (.refresh n sid pc pair) s (fun t => (t.nbu.getD n {}).refreshed.getD u 0 = s.now))) ∧
     Does (.nbEnable n) s (fun t => (t.nbu.getD n {}).nbEnable = true ∧ t.sch.nbDraining = s.sch.nbDraining ∧
       (s.sch.nbDraining.contains (n : Nat) = true → t.sch.nbPending.contains (n : Nat) = true)) ∧
     Does (.nbDisable n) s (fun t => (t.nbu.getD n {}).nbEnable = false ∧ t.nbOpen n = false ∧ t.sch.nbPending.contains (n : Nat) = false ∧
       ((t.nbu.getD n {}).activeCount ≠ 0 → t.sch.nbDraining.contains (n : Nat) = true)))

/-- LOOKUP matches the longest chain of prefix blocks and counts it (R184, R185, R186).
An admitted LOOKUP answers OK, PART or MISS by the number of blocks matched, with the collision flag, the last matched key and the
runs of matched nodes; hits grow by the blocks matched, misses by one where not all matched, collisions by the flag. Entries that
show a parity error when they are read come with the command (log entry 68). In every
state, the nodes matched from a position are valid, at rising depths from it, of the model epoch and tokens asked, each the child
of the one before, and no more than the keys given. -/
def Obligations.LookupMatchesChain : Prop :=
  (∀ (h : ExtHdr) (p : LookupParams) (s s2 : State) (c : Ctx), s.running = true →
    admission h (.lookup h p) (fun c => lookupSpec h p (s.pfx c.slice) c) s.settle = some (c, s2) →
    let keys := lookupKeys (s2.pfx c.slice) p
    let r := State.matchBlocks c.slice (s2.tenantOf c) p.modelEpoch p.tokens 0 0 keys (s2.markParity p.faulty)
    let m := r.1.length
    Does (.lookup h p) s (fun t =>
      (∃ runs, lastResponse t h.pkt.qpn = some (2, 0, if m = p.nBlocks then .ok else if m = 0 then .miss else .part,
        .lookup m r.2.1 (if m = 0 then (0, 0) else keys.getD (m - 1) (0, 0)).1
          (if (s2.pfx c.slice).wide = 1 then some (if m = 0 then (0, 0) else keys.getD (m - 1) (0, 0)).2 else none) runs) ∧
        runs = (runsOf 0 r.1).map (runRecord (p.keySource = 2))) ∧
      t.locus.hits = satAdd max32 s2.locus.hits m ∧
      t.locus.misses = (if m < p.nBlocks then inc32 s2.locus.misses else s2.locus.misses) ∧
      t.locus.collisions = satAdd max32 s2.locus.collisions r.2.1)) ∧
  (∀ (slice tenant epoch i prev : Nat) (tokens : List (List Nat)) (keys : List (Nat × Nat)) (s : State),
    let r := State.matchBlocks slice tenant epoch tokens i prev keys s
    r.1.length ≤ keys.length ∧ r.2.1 ≤ 1 ∧ r.1.length + r.2.1 ≤ keys.length ∧
    ∀ (j : Nat) (n : PfxNode), r.1[j]? = some n → n.valid = true ∧ n.depth = i + j ∧ n.modelEpoch = epoch ∧
      (∀ w, tokens[i + j]? = some w → n.tokens = w) ∧
      (j = 0 → n.parentKey = prev) ∧ (∀ k, 0 < j → keys[j - 1]? = some k → n.parentKey = k.1))

/-- PUBLISH_PREFIX, PREFIX_RELEASE and the sweep of idle prefixes (R188, R189, R190, R192).
An admitted PUBLISH_PREFIX whose pages miss answers MISS and changes neither directory nor home; otherwise it answers OK with one
record for each block, and leaves the directory, home and memory that inserting its blocks leaves; both after the entries that its
searches find with a parity error have been taken out (R195). PREFIX_RELEASE answers how many keys it released, none where no key
names a held node. PFX_EVICT_SWEEP does nothing where the slice sets no idle limit or no node
is due, and counts at least one eviction where one is. -/
def Obligations.PrefixesPublishAndLeave : Prop :=
  (∀ (h : ExtHdr) (p : PfxParams) (s s2 : State) (c : Ctx), s.running = true →
    admission h (.publishPrefix h p) (pfxSpec h p s.settle) (s.settle.markParity p.faulty) = some (c, s2) →
    let s1 := s2.pfxScrub p c
    (s1.pfxMiss p c = true → Does (.publishPrefix h p) s (fun t => lastResponse t h.pkt.qpn = some (3, 1, .miss, .none) ∧
      t.locus = s1.locus ∧ t.home = s1.home)) ∧
    (∀ rs s3, s1.pfxMiss p c = false → s1.pfxAll p c = some (rs, s3) → Does (.publishPrefix h p) s (fun t =>
      lastResponse t h.pkt.qpn = some (3, 1, .ok, .publish (rs.map (fun r => beBytes 1 (b2n r.1) ++ beBytes 7 0 ++ beBytes 8 r.2))) ∧
      rs.length = min (s1.pfxKeys p c).length p.blocks.length ∧ t.locus = s3.locus ∧ t.home = s3.home ∧ t.mem = s3.mem))) ∧
  (∀ (h : ExtHdr) (p : PfxRelease) (s s2 : State) (c : Ctx), s.running = true →
    admission h (.prefixRelease h p) (pfxReleaseSpec h p s.settle) s.settle = some (c, s2) →
    let s1 := (s2.markParity p.faulty).scrubKeys c.slice (s2.tenantOf c) (p.modelEpoch % 65536) (p.isPublic = 1) p.keys
    Does (.prefixRelease h p) s (fun t => ∃ n, n ≤ p.keys.length ∧ lastResponse t h.pkt.qpn = some (3, 1, .ok, .released n) ∧
      ((∀ k ∈ p.keys, s1.releaseNode p c k = none) → n = 0 ∧ t.locus = s1.locus ∧ t.home = s1.home) ∧
      (∀ k x, p.keys = [k] → s1.releaseNode p c k = some x → n = (if x.hardRefs = 0 then 0 else 1)))) ∧
  (∀ (slice : Fin 8) (s : State), s.running = true →
    ((s.cfg slice).locus.idleMax = 0 → Gives (exec (.pfxEvictSweep slice) s) s) ∧
    (let due := s.victimNode slice [] (fun n => (s.cfg slice).locus.idleMax * 256 < (s.useStamp + 2 ^ 32 - n.lastUse) % 2 ^ 32)
     (due = none → Gives (exec (.pfxEvictSweep slice) s) s) ∧
     (∀ v, due = some v → (s.cfg slice).locus.idleMax ≠ 0 → s.locus.nodes.get? v.addr = some v →
        Does (.pfxEvictSweep slice) s (fun t => inc32 s.locus.evictions ≤ t.locus.evictions))))

/-- The five commands that may have to change a page that other nodes hold copies of, with their headers, checks and codes. -/
def Sys2Proof.changer (s : State) : Instr → Option (ExtHdr × (Ctx → ExtSpec) × Nat)
  | .publishPage h p => some (h, publishSpec h p s.settle, 3)
  | .leaseAcquire h p => some (h, acquireSpec h p, 4)
  | .leaseRelease h p => some (h, releaseSpec h p s.settle, 5)
  | .handoverTransfer h p => some (h, transferSpec h p, 6)
  | .handoverDiscard h p => some (h, hvDiscardSpec h p, 6)
  | _ => none

/-- No page that a command would change stands under a grant to another node (R204). -/
def Sys2Proof.unshared (s : State) (slice : Nat) (cmd : Instr) : Prop := (s.changedBy slice cmd).filter (s.shared slice) = []

/-- Leases are granted, renewed, released and expire; PUBLISH_PAGE publishes under one (R68, R69, R204, R210, R211, R212, R213, R214).
An admitted publish, acquire, release, transfer or discard that would change a page under another node's grant waits, changing no
lease, sequence record, entry or memory; with none such, an admitted acquire records its lease in the free slot and grants it at once where no page must land, and otherwise waits or is
undone; a renewal moves only the expiry; a release erases the lease; an expiry that is due erases it and tears its open pages, and
one that is not does nothing (the pages of a lost quarter are torn when it returns, R205). An admitted PUBLISH_PAGE under a lease of its epoch answers OK and leaves each page published, or
open where kept open, with its fill and no write frame. The record of a waiting acquire is log entry 16, the wait for grants log
entry 67. -/
def Obligations.LeasesGrantAndPublish : Prop :=
  (∀ (cmd : Instr) (h : ExtHdr) (sp : Ctx → ExtSpec) (op : Nat) (s s2 : State) (c : Ctx), s.running = true → s.ReqsOk →
     changer s cmd = some (h, sp, op) → admission h cmd sp s.settle = some (c, s2) → ¬unshared s2 c.slice cmd →
     Does cmd s (fun t => t.home.entries = s2.home.entries ∧ t.home.leases = s2.home.leases ∧ t.home.seqs = s2.home.seqs ∧ t.mem = s2.mem ∧
       ∃ q, t.reqs.get? s2.nextReq = some q ∧ q.hdr = h ∧ q.op = op ∧ q.kind = .held cmd)) ∧
  ((∀ (h : ExtHdr) (p : LeaseParams) (s s2 s3 : State) (c : Ctx) (slot : Nat) (made : List PageName) (pre : List (PageName × PageState)),
     s.running = true → s.ReqsOk → admission h (.leaseAcquire h p) (acquireSpec h p) s.settle = some (c, s2) →
     unshared s2 c.slice (.leaseAcquire h p) → s2.leaseSlot (s2.quarterOf c.slice p.handle) = some slot →
     s2.leasePagesAll c.slice p (leaseNames p) = some (made, pre, s3) →
     Does (.leaseAcquire h p) s (fun t =>
       if ((leaseNames p).filter (s3.mustLand c.slice p)).isEmpty then
         ∃ l, t.home.leases.get? slot = some l ∧ l.holder = c.rid ∧ l.epoch = p.epoch ∧ l.slice = c.slice ∧ l.params = p ∧
           l.expiry = s2.now + p.leaseMs * 1000000 ∧ t.reqs.get? s2.nextReq = none ∧
           ∃ fills, lastResponse t h.pkt.qpn = some (4, 0, .ok, .grant l.leaseId l.expiry (mkKey 2 slot l.keyGen) fills)
       else (t.home.leases.get? slot = none ∧ t.reqs.get? s2.nextReq = none) ∨
         ((∃ l, t.home.leases.get? slot = some l ∧ l.expiry = 2 ^ 80 ∧ l.holder = c.rid ∧ l.epoch = p.epoch) ∧
           ∃ q, t.reqs.get? s2.nextReq = some q ∧ q.hdr = h ∧ q.op = 4))) ∧
   (∀ (h : ExtHdr) (p : LeaseParams) (s s2 : State) (c : Ctx), s.running = true →
     admission h (.leaseRenew h p) (renewSpec h p s.settle) s.settle = some (c, s2) →
     Does (.leaseRenew h p) s (fun t => ∃ x, s2.leaseById p.leaseId = some x ∧ x.2.epoch = p.epoch ∧
       t.home.leases = s2.home.leases.modify x.1 (fun l => { l with expiry := s2.now + p.leaseMs * 1000000 }) ∧
       t.home.entries = s2.home.entries ∧
       ∃ fills, lastResponse t h.pkt.qpn =
         some (4, 0, .ok, .grant p.leaseId (s2.now + p.leaseMs * 1000000) (mkKey 2 x.1 x.2.keyGen) fills))) ∧
   (∀ (h : ExtHdr) (p : ReleaseParams) (s s2 : State) (c : Ctx), s.running = true →
     admission h (.leaseRelease h p) (releaseSpec h p s.settle) s.settle = some (c, s2) → unshared s2 c.slice (.leaseRelease h p) →
     Does (.leaseRelease h p) s (fun t => ∃ x, s2.leaseById p.leaseId = some x ∧ x.2.epoch = p.epoch ∧
       t.home.leases = s2.home.leases.erase x.1 ∧ lastResponse t h.pkt.qpn = some (5, 0, .ok, .none))) ∧
   (∀ (unit : Fin 4) (slot : Nat) (s : State) (l : Lease), s.running = true → s.home.leases.get? (unit * 16384 + slot % 16384) = some l →
     (s.now < l.expiry → Gives (exec (.leaseExpiry unit slot) s) s) ∧
     (l.expiry ≤ s.now → Does (.leaseExpiry unit slot) s (fun t =>
       t.home.leases = s.home.leases.erase (unit * 16384 + slot % 16384) ∧
       (s.home.unitsLost.contains (s.quarterOf l.slice l.params.handle) = false → s.waitingAcquire (unit * 16384 + slot % 16384) = none →
         ∀ n e, n ∈ l.held → s.entry l.slice n = some e → e.pageState = .writeOpen → l.held.Nodup →
         ∃ e', t.entry l.slice n = some e' ∧ e'.pageState = .torn ∧ e'.writeValid = false))))) ∧
  (∀ (h : ExtHdr) (p : PublishParams) (s s2 : State) (c : Ctx), s.running = true →
     admission h (.publishPage h p) (publishSpec h p s.settle) s.settle = some (c, s2) → unshared s2 c.slice (.publishPage h p) →
     Does (.publishPage h p) s (fun t => ∃ x, s2.leaseById p.leaseId = some x ∧ x.2.epoch = p.epoch ∧
       lastResponse t h.pkt.qpn = some (3, 0, .ok, .none) ∧
       ∀ g ∈ p.pages, (∀ g' ∈ p.pages, leaseName x.2.params g'.index = leaseName x.2.params g.index → g' = g) →
         ∃ e, t.entry x.2.slice (leaseName x.2.params g.index) = some e ∧ e.fill = g.fill ∧
           e.pageState = (if p.keepOpen = 1 then .writeOpen else .published) ∧ e.writeValid = false))

/-- Handovers order epochs; tombstones expire; pins count (R70, R206, R207, R208, R209, R244).
An admitted transfer, with no page to change under another node's grant, leaves the sequence OWNED at the expected epoch plus one by the new owner, and answers that; a discard leaves
a tombstone at that epoch (2^48 - 1 stays) with its end, and no lease on the sequence; a query changes nothing and answers the
record or zeros. TOMBSTONE_EXPIRY frees a record whose end has come and only then. An admitted PIN leaves the pages with counts
raised, answering how many, or waits; UNPIN lowers the counts of the pages it names and of no other. Pins that wait are log entry
27. -/
def Obligations.HandoversAndPins : Prop :=
  ((∀ (h : ExtHdr) (p : HandoverParams) (s s2 : State) (c : Ctx), s.running = true →
     (admission h (.handoverTransfer h p) (transferSpec h p) s.settle = some (c, s2) → unshared s2 c.slice (.handoverTransfer h p) →
       Does (.handoverTransfer h p) s (fun t => ∃ r, t.seqRec c.slice p.handle = some r ∧
         r.epoch = p.expectedEpoch + 1 ∧ r.ownerTag = p.newOwner ∧ r.seqState = 1 ∧ r.lastHandover = s2.now ∧ r.lastRequester = c.rid ∧
         lastResponse t h.pkt.qpn = some (6, 0, .ok, .handover r.epoch r.ownerTag 1 (if (s2.seqRec c.slice p.handle).isNone then 0 else s2.openPages c.slice p.handle)) ∧
         ∀ l ∈ t.home.leases, l.2.slice = c.slice → l.2.params.handle = p.handle → s2.seqRec c.slice p.handle = none)) ∧
     (admission h (.handoverDiscard h p) (hvDiscardSpec h p) s.settle = some (c, s2) → unshared s2 c.slice (.handoverDiscard h p) →
       Does (.handoverDiscard h p) s (fun t => ∃ r, t.seqRec c.slice p.handle = some r ∧ r.seqState = 2 ∧
         r.epoch = (if p.expectedEpoch = maxEpoch then maxEpoch else p.expectedEpoch + 1) ∧
         r.tombUntil = s2.now + (s2.cfg c.slice).tombTtl * 1000000000 ∧
         lastResponse t h.pkt.qpn = some (6, 0, .ok, .handover r.epoch r.ownerTag 2 0) ∧
         ∀ l ∈ t.home.leases, l.2.slice = c.slice → l.2.params.handle ≠ p.handle)) ∧
     (admission h (.handoverQuery h p) (fun c => handoverSpec h p c (hvQueryOk p) true (fun _ => .ok) (fun _ => .ok)) s.settle = some (c, s2) →
       Does (.handoverQuery h p) s (fun t => t.home = s2.home ∧ lastResponse t h.pkt.qpn = some (6, 0, .ok,
         match s2.seqRec c.slice p.handle with
         | some r => .handover r.epoch r.ownerTag r.seqState 0
         | none => .handover 0 0 0 0)))) ∧
   (∀ (slice : Fin 8) (handle : Nat) (s : State), s.running = true → ∀ r, s.seqRec slice handle = some r → r.seqState = 2 →
     (r.tombUntil ≤ s.now → (∀ r' ∈ s.home.seqs, r'.slice = slice → r'.handle = handle → r' = r) →
       Does (.tombstoneExpiry slice handle) s (fun t => t.seqRec slice handle = none)) ∧
     (s.now < r.tombUntil → (∀ r' ∈ s.home.seqs, r'.slice = slice → r'.handle = handle → r' = r) →
       Gives (exec (.tombstoneExpiry slice handle) s) s))) ∧
  ((∀ (h : ExtHdr) (p : PinParams) (s s2 : State) (c : Ctx), s.running = true → s.ReqsOk →
     (admission h (.pin h p) (pinSpec 7 h p) s.settle = some (c, s2) →
       let s3 := (pinNames p).foldl (fun s n => (s.refresh c.slice n).pinPage c.slice (p.replicate = 1) n) s2
       Does (.pin h p) s (fun t =>
         if (pinNames p).all (fun n => s3.pinAt c.slice n ≠ .waits) then
           t.reqs.get? s2.nextReq = none ∧ t.home.entries = s3.home.entries ∧
           ∃ a m l, a + m + l = (pinNames p).length ∧ lastResponse t h.pkt.qpn = some (7, 0, .ok, .pins a m l)
         else t.reqs.get? s2.nextReq = none ∨ ∃ q wait a m l, t.reqs.get? s2.nextReq = some q ∧ q.hdr = h ∧
           q.kind = .pin p wait a m l ∧ wait ≠ [] ∧ a + m + l + wait.length = (pinNames p).length)) ∧
     (admission h (.unpin h p) (pinSpec 8 h p) s.settle = some (c, s2) →
       Does (.unpin h p) s (fun t => t.reqs = s2.reqs ∧ (∃ k, k ≤ (pinNames p).length ∧
           lastResponse t h.pkt.qpn = some (8, 0, .ok, .pins k ((pinNames p).length - k) 0)) ∧
         ∀ n e, s2.entry c.slice n = some e → ∃ e', t.entry c.slice n = some e' ∧
           e'.pinCount = (if n ∈ pinNames p then e.pinCount - 1 else e.pinCount)))) ∧
   (∀ (slice : Nat) (rep : Bool) (n : PageName) (e : Entry) (s : State), s.entry slice n = some e →
     ∃ e', (s.pinPage slice rep n).entry slice n = some e' ∧ e'.pinCount = e.pinCount + 1))

/-- HELLO negotiates level 3; STAT answers its counters (R251, R254, R289).
An admitted HELLO answers level 3 (field bits 4, level 3) and leaves the context at level 3 with its peer heard; a first HELLO
without level 3 in its set has the queue pair closed. STAT of the queue pair answers its received and sent packets and last error;
of the group, the group's record as refilled now; of the node, from a manager queue pair, the five transport counters. -/
def Obligations.HelloAndStatAnswer : Prop :=
  ∀ (h : ExtHdr) (s s2 : State) (c : Ctx), s.running = true →
    (∀ levels role, admission h (.hello h levels role) (helloSpec levels role) s.settle = some (c, s2) →
      Does (.hello h levels role) s (fun t => lastResponse t h.pkt.qpn = some (12, 0, .ok, .hello 4 3) ∧
        (t.ctx h.pkt.qpn).map (fun c => (c.level, c.lastPeer)) = some (some 3, s2.now))) ∧
    (∀ levels role, s.ctx h.pkt.qpn = some c → c.level = none → c.onDie = true → levels < 256 → bit levels 2 = false →
      Does (.hello h levels role) s (fun t => (t.ctx h.pkt.qpn).map Ctx.closing = some true)) ∧
    (admission h (.statOwnQp h) (statSpec 0 false) s.settle = some (c, s2) → Does (.statOwnQp h) s (fun t => t.log = s2.log ∧
      lastResponse t h.pkt.qpn = some (9, 0, .ok,
        .bytes (beBytes 4 c.rx ++ beBytes 4 c.tx ++ beBytes 1 c.lastError ++ beBytes 3 0)))) ∧
    (admission h (.statGroup h) (statSpec 1 false) s.settle = some (c, s2) → Does (.statGroup h) s (fun t => t.eth = s2.eth ∧
      lastResponse t h.pkt.qpn = some (9, 1, .ok, .bytes (groupBytes ((s2.group c.group).refill s2.now))))) ∧
    (admission h (.statNode h) (statSpec 2 true) s.settle = some (c, s2) → Does (.statNode h) s (fun t => c.cls = 1 ∧
      lastResponse t h.pkt.qpn = some (9, 2, .ok,
        .bytes ([s2.regXptCtx, s2.regXptMiss, s2.regXptDup, s2.regXptFaults, s2.regXptQperr].flatMap (beBytes 8)))))

/-- Maps are installed, drained and retired (R196, R198, R200, R202).
A MAP_INSTALL equal to the current map answers OK and changes nothing of home or log; a newer one becomes current, the current
becomes previous with its drain window open for the time it gives and the in-flight counts moved, all waiting requests counted on
the previous map, and only with no previous map or transfer left. DRAIN_WINDOW_CLOSE closes a window whose end has come.
MAP_RETIRE with drain closed and nothing in flight drops the previous map, leaves no lease on sequences that moved away, and
starts transfers of the new generation to other nodes only: one for each moving bucket that came here, and for what older maps left
here; one for each node where the route key changed; none from a fenced node. -/
def Obligations.MapsInstallAndRetire : Prop :=
  (∀ (h : ExtHdr) (c : Cert) (m : RouteMap) (s s2 : State) (x : Ctx), s.running = true →
     admission h (.mapInstall h c m) (manageSpec 0 0 (mapOk m && c.serial = m.generation) c false (fun s => s.mapOwn m) s.settle) s.settle =
       some (x, s2) →
     ((∃ o, s2.home.cur = some o ∧ sameMap o m = true) → Does (.mapInstall h c m) s (fun t => t.home = s2.home ∧ t.log = s2.log ∧
       lastResponse t h.pkt.qpn = some (10, 0, .ok, .none))) ∧
     ((∀ o, s2.home.cur = some o → sameMap o m = false) → Does (.mapInstall h c m) s (fun t =>
       t.home.cur = some m ∧ t.home.prev = s2.home.cur ∧ t.home.drainOpen = s2.home.cur.isSome ∧
       t.home.drainEnd = s2.now + m.drainMs * 1000000 ∧ t.home.inflightPrev = s2.home.inflightCur ∧ t.home.inflightCur = 0 ∧
       (∀ o, s2.home.cur = some o → newerGen m.generation o.generation = true ∧ s2.home.prev = none ∧ s2.home.outgoing = []) ∧
       (∀ q ∈ t.reqs, q.2.onPrev = true) ∧ lastResponse t h.pkt.qpn = some (10, 0, .ok, .none)))) ∧
  (∀ (s : State), s.running = true →
     (if s.home.drainOpen = true ∧ s.home.drainEnd ≤ s.now then
       Does .drainWindowClose s (fun t => t.home = { s.home with drainOpen := false }) else Gives (exec .drainWindowClose s) s) ∧
     (s.settle.home.prev = none ∨ s.settle.home.cur = none ∨ s.settle.home.drainOpen = true ∨ s.settle.home.inflightPrev ≠ 0 →
       Gives (exec .mapRetire s) s.settle) ∧
     (∀ p m, s.settle.home.prev = some p → s.settle.home.cur = some m → s.settle.home.drainOpen = false → s.settle.home.inflightPrev = 0 →
       Does .mapRetire s (fun t => t.home.prev = none ∧ t.home.cur = some m ∧
         (∀ l ∈ t.home.leases, ¬((mapHome p 0 l.2.params.handle).1 = s.nodeId ∧ (mapHome m 0 l.2.params.handle).1 ≠ s.nodeId)) ∧
         (s.nodeFenced = true → t.home.outgoing = s.settle.home.outgoing) ∧
         t.home.notHeld = [] ∧
         (s.nodeFenced = false → p.routeKey = m.routeKey → ∃ l, t.home.outgoing = s.settle.home.outgoing ++ l ∧
           (∀ x ∈ l, x.node ≠ s.nodeId ∧ x.generation = m.generation) ∧
           ∀ b ∈ movingBuckets p m s.nodeId, b ∉ s.settle.home.notHeld →
             { node := (mapEntry m b).1, bucket := some b, generation := m.generation } ∈ l) ∧
         (s.nodeFenced = false → p.routeKey ≠ m.routeKey → t.home.outgoing = s.settle.home.outgoing ++
           ((mapNodes m).filter (· ≠ s.nodeId)).map (fun n => { node := n, bucket := none, generation := m.generation })))))

/-- The state in which an admitted MANAGE command whose serial is ordered by R362 runs. -/
def Sys2Proof.managed (h : ExtHdr) (cmd : Instr) (variant kind : Nat) (parses : Bool) (c : Cert) (busy : State → Code) (s : State) :
    Option State :=
  (admission h cmd (manageSpec variant kind parses c true (fun s => if s.serialIs c = .same then .ok else busy s) s.settle) s.settle).map
    Prod.snd

/-- Fence, expulsion and requester certificates take effect once (R362, R363, R364, R365).
An accepted NODE_FENCE, NODE_EXPEL, REQUESTER_FENCE or REQUESTER_UNFENCE whose serial repeats the last with its digest answers OK
and changes nothing; a newer one leaves its serial and digest accepted, and the node fenced with its reason, or expelled as well,
or the requester ranges added (at most 4,096) with no lease held by a fenced requester left, or removed. So does NODE_UNFENCE in
its repeat. The digest and table limits are log entry 30. -/
def Obligations.FencesFollowCertificates : Prop :=
  ∀ (h : ExtHdr) (c : Cert) (ranges : List (Nat × Nat)) (s s2 : State), s.running = true →
    let accepted (t : State) : Prop := t.ras.serials.getD (certDomain c.kind) {} = { last := c.serial, digest := some c.digest }
    let repeats (cmd : Instr) : Prop := s2.serialIs c = .same → Does cmd s (fun t => t.ras = s2.ras ∧ t.aon = s2.aon ∧ t.home = s2.home ∧
      t.log = s2.log ∧ lastResponse t h.pkt.qpn = some (10, 1, .ok, .none))
    (managed h (.nodeFence h c) 1 1 true c (fun _ => .ok) s = some s2 → repeats (.nodeFence h c) ∧
      (s2.serialIs c ≠ .same → Does (.nodeFence h c) s (fun t => t.ras.fenced = true ∧ t.ras.expelled = s2.ras.expelled ∧
        t.ras.reason = c.reason ∧ t.nodeFenced = true ∧ bit t.host.cause 1 = true ∧ accepted t ∧ lastResponse t h.pkt.qpn = some (10, 1, .ok, .none)))) ∧
    (managed h (.nodeUnfence h c) 1 2 true c (fun _ => .ok) s = some s2 → repeats (.nodeUnfence h c)) ∧
    (managed h (.nodeExpel h c) 1 3 true c (fun _ => .ok) s = some s2 → repeats (.nodeExpel h c) ∧
      (s2.serialIs c ≠ .same → Does (.nodeExpel h c) s (fun t => t.ras.fenced = true ∧ t.ras.expelled = true ∧ accepted t))) ∧
    (managed h (.requesterFence h c ranges) 1 4 (rangesOk ranges) c
        (fun s => if 4096 < (s.ras.reqFences ++ ranges).eraseDups.length then .busy else .ok) s = some s2 →
      repeats (.requesterFence h c ranges) ∧
      (s2.serialIs c ≠ .same → Does (.requesterFence h c ranges) s (fun t => t.ras.reqFences = (s2.ras.reqFences ++ ranges).eraseDups ∧
        t.ras.reqFences.length ≤ 4096 ∧ accepted t ∧ ∀ l ∈ t.home.leases, inRanges ranges l.2.holder = false))) ∧
    (managed h (.requesterUnfence h c ranges) 1 5 (rangesOk ranges) c (fun _ => .ok) s = some s2 → repeats (.requesterUnfence h c ranges) ∧
      (s2.serialIs c ≠ .same → Does (.requesterUnfence h c ranges) s (fun t =>
        t.ras.reqFences = s2.ras.reqFences.filter (fun x => !ranges.contains x) ∧ t.ras.fenced = s2.ras.fenced ∧ accepted t)))

/-- A node unfence ends fence, expulsion and a cleared self-fence (R367).
An accepted NODE_UNFENCE that is no repeat leaves the node neither fenced nor expelled, and its self-fence cause cleared exactly
where the cause has cleared; every requester group's admission ramp starts now; and the state of every slice is unchanged. -/
def Obligations.NodeUnfenceEndsFences : Prop :=
  ∀ (h : ExtHdr) (c : Cert) (s s2 : State), s.running = true → managed h (.nodeUnfence h c) 1 2 true c (fun _ => .ok) s = some s2 →
    s2.serialIs c ≠ .same → Does (.nodeUnfence h c) s (fun t => t.ras.fenced = false ∧ t.ras.expelled = false ∧
      t.aon.selfCause = (if s2.aon.selfCleared then 0 else s2.aon.selfCause) ∧ (t.nodeFenced = true ↔ t.aon.selfCause ≠ 0) ∧
      (∀ g x, t.eth.groups.get? g = some x → x.ramp = some s2.now) ∧ t.sch = s2.sch ∧
      t.ras.serials.getD (certDomain c.kind) {} = { last := c.serial, digest := some c.digest } ∧
      lastResponse t h.pkt.qpn = some (10, 1, .ok, .none))

/-- Administration by MANAGE: keys, isolation and group tables, export, manifest (R258, R260, R285, R298, R398).
An accepted certificate of kind 7: a key created answers the key and its length and stands in its table with slice, group and
rights under a new generation; a key removed is gone; an isolation or group entry is set where the queue rule still holds and
refused with FORMAT_ERROR, the tables unchanged, where not; an export answers the rows of its range; a manifest that is well
formed, signed by the owner and newer is in force. The digest of the payload is log entry 30. -/
def Obligations.AdministrationTakesEffect : Prop :=
  ∀ (h : ExtHdr) (c : Cert) (slice : Nat) (s s2 : State), s.running = true → s2.serialIs c ≠ .same →
    (∀ k r s3, managed h (.admKeyCreate h c slice k) 3 7 (slice < 8 && keyParamsOk k) c (fun _ => .ok) s = some s2 →
      s2.createKey slice k = .ok (r, s3) → Does (.admKeyCreate h c slice k) s (fun t =>
        lastResponse t h.pkt.qpn = some (10, 3, .ok, .key r.1 r.2) ∧ ∃ i e, s2.keyIndexFor slice k = some i ∧
          r.1 = mkKey k.kind i (s2.nextGen k.kind i).gen ∧ (t.keysOf k.kind).get? i = some e ∧ e.slice = slice ∧ e.group = k.group ∧
          e.rights = k.rights ∧ (t.gensOf k.kind).getD i {} = s2.nextGen k.kind i)) ∧
    (∀ key s3, managed h (.admKeyRemove h c slice key) 3 7 (slice < 8 && key < 2 ^ 32) c (fun _ => .ok) s = some s2 →
      s2.removeKey slice key = .ok s3 → Does (.admKeyRemove h c slice key) s (fun t =>
        lastResponse t h.pkt.qpn = some (10, 3, .ok, .none) ∧ (t.keysOf (keyKind key)).get? (keyIndex key) = none)) ∧
    (∀ index entryValid e, managed h (.isolationSet h c slice index entryValid e) 3 7
        (slice = 0xff && index < 16384 && entryValid ≤ 1 && isoOk e) c (fun _ => .ok) s = some s2 →
      let iso := if entryValid = 1 then s2.xpt.isolation.set index e else s2.xpt.isolation.erase index
      Does (.isolationSet h c slice index entryValid e) s (fun t =>
        if s2.queueRule iso (fun g => (s2.group g).cfg) then t.xpt.isolation = iso ∧ lastResponse t h.pkt.qpn = some (10, 3, .ok, .none)
        else t.xpt.isolation = s2.xpt.isolation ∧ t.ras = s2.ras ∧ lastResponse t h.pkt.qpn = some (10, 3, .formatError, .none))) ∧
    (∀ group gClass e, managed h (.groupSet h c slice group gClass e) 3 7
        (slice = 0xff && group < 4096 && gClass < 16 && groupOk e) c (fun _ => .ok) s = some s2 →
      Does (.groupSet h c slice group gClass e) s (fun t =>
        if s2.queueRule s2.xpt.isolation (fun g => if g = group then e else (s2.group g).cfg) then
          (t.group group).cfg = e ∧ t.sch.classMap.getD group 0 = gClass ∧ (t.group group).tokens ≤ burstCap e 16 ∧
          lastResponse t h.pkt.qpn = some (10, 3, .ok, .none)
        else t.eth = s2.eth ∧ t.sch = s2.sch ∧ lastResponse t h.pkt.qpn = some (10, 3, .formatError, .none))) ∧
    (∀ port first count, managed h (.isolationExport h c slice port first count) 3 7
        (slice = 0xff && port < 8 && first < 16384 && 1 ≤ count && count ≤ 1024) c (fun _ => .ok) s = some s2 →
      let es := s2.xpt.isolation.filter (fun e => first ≤ e.1 && e.1 < first + count)
      Does (.isolationExport h c slice port first count) s (fun t => t.xpt.isolation = s2.xpt.isolation ∧
        lastResponse t h.pkt.qpn = some (10, 3, .ok, .rows es.length (es.map (fun e => s2.isoRow port e.2))))) ∧
    (∀ m, managed h (.admManifestLoad h c slice m) 3 7 (slice = 0xff) c (fun _ => .ok) s = some s2 →
      manifestOk m = true → s2.ownerSigned m = true → s2.manifestSerial < m.serial → Does (.admManifestLoad h c slice m) s (fun t =>
        t.sec.manifest = some m ∧ lastResponse t h.pkt.qpn = some (10, 3, .ok, .none)))

/-- The state in which an admitted PEER message runs, with its context: the peer has been heard (R204). -/
def Sys2Proof.peered (h : ExtHdr) (cmd : Instr) (variant : Nat) (own : State → Code) (s : State) : Option (Ctx × State) :=
  (admission h cmd (peerSpec variant own) s.settle).map (fun x => (x.1, x.2.onCtx h.pkt.qpn (fun y => { y with lastPeer := x.2.now })))

/-- PEER messages: buckets, copies, grants, revocations, relabels, drops (R202, R204, R239, R240, R462).
Bucket states not awaited change nothing and are answered OK, or BUSY where the map does not home the bucket here (yet); a part is
kept, the last part installs the bucket's entries and records, all or none (then BUSY); a marker ends the wait for its node under
the current map only, one of a newer map is BUSY; a replica copy is BUSY with nothing changed or leaves a published entry that is a
copy of its generation, with its fill and no grant; a grant that matches the copy is held for 2 ms, one that does not is MISS; a
revocation and a drop leave no grant, the drop no copy; a relabel that matches renames the copy's generation and leaves no grant;
acknowledgements end the transfer or revocation, or make the copy count, that they name. What an unmatched grant answers and message
widths are log entries 21 and 22, what answers a bucket that is not homed here log entry 68. -/
def Obligations.PeersAreServed : Prop :=
  ∀ (h : ExtHdr) (s s2 : State) (c : Ctx), s.running = true →
    let answers (t : State) (variant : Nat) (code : Code) : Prop := lastResponse t h.pkt.qpn = some (11, variant, code, .none)
    let held (t : State) (slice : Nat) (n : PageName) : List HeldGrant := t.home.held.filter (fun g => g.slice = slice && g.name = n)
    (∀ b, peered h (.peerBucketState h b) 0 (fun s => s.peerSlice b.slice) s = some (c, s2) →
      let awaited := s2.home.awaiting.any (fun w => w.1 = b.bucket) || s2.home.awaitMarkers.contains b.fromNode
      (awaited = false → Does (.peerBucketState h b) s (fun t => t.home = s2.home ∧
        answers t 0 (if s2.home.cur.any (fun m => (mapEntry m b.bucket).1 = s2.nodeId) then .ok else .busy))) ∧
      (awaited = true → b.complete = true → s2.putBucket (s2.joinBucket b) = none → Does (.peerBucketState h b) s (fun t =>
        t.home = s2.home ∧ answers t 0 .busy)) ∧
      (awaited = true → b.complete = false → Does (.peerBucketState h b) s (fun t => t.home.arrived = s2.home.arrived ++ [b] ∧
        t.home.awaiting = s2.home.awaiting ∧ answers t 0 .ok)) ∧
      (∀ s3, awaited = true → b.complete = true → s2.putBucket (s2.joinBucket b) = some s3 → Does (.peerBucketState h b) s (fun t =>
        t.home.entries = s3.home.entries ∧ t.home.seqs = s3.home.seqs ∧ t.mem.cells = s3.mem.cells ∧
        t.home.awaiting = s3.home.awaiting.filter (fun w => !(w.1 = b.bucket)) ∧ answers t 0 .ok))) ∧
    (∀ node gen, peered h (.peerCompletionMarker h node gen) 0 (fun _ => .ok) s = some (c, s2) →
      Does (.peerCompletionMarker h node gen) s (fun t =>
        answers t 0 (if s2.isCurrent gen = false ∧ s2.home.cur.any (fun m => newerGen gen m.generation) = true then .busy else .ok) ∧
        t.home.awaitMarkers = (if s2.isCurrent gen then s2.home.awaitMarkers.filter (· ≠ node) else s2.home.awaitMarkers))) ∧
    (∀ r i, peered h (.peerReplicaCopy h r) 1 (fun s => s.copyOwn r) s = some (c, s2) → s2.hostSlice = some i →
      Does (.peerReplicaCopy h r) s (fun t => (answers t 1 .busy ∧ t.home = s2.home) ∨ (answers t 1 .ok ∧
        held t r.slice r.page.name = [] ∧ ∃ e, t.entry i r.page.name = some e ∧ e.pageState = .published ∧ e.frameState = .stack ∧ e.frameGen = r.page.frameGen ∧
          e.fill = r.page.fill ∧ t.replicaHere r.page.name = some (i, r.page.frameGen)))) ∧
    (∀ slice n gen, peered h (.peerGrant h slice n gen) 2 (fun s => s.peerSlice (s.hostSlice.getD 8)) s = some (c, s2) →
      Does (.peerGrant h slice n gen) s (fun t => if (s2.replicaHere n).map Prod.snd = some gen then
          held t slice n = [{ slice := slice, name := n, home := c.peer, frameGen := gen, until_ := s2.now + 2000000 }] ∧ answers t 2 .ok
        else t.home = s2.home ∧ answers t 2 .miss)) ∧
    (∀ slice n, peered h (.peerRevoke h slice n) 3 (fun s => s.peerSlice (s.hostSlice.getD 8)) s = some (c, s2) →
      Does (.peerRevoke h slice n) s (fun t => held t slice n = [] ∧ t.home.entries = s2.home.entries ∧ answers t 3 .ok)) ∧
    (∀ slice n old new, peered h (.peerRelabel h slice n old new) 4 (fun s => s.peerSlice (s.hostSlice.getD 8)) s = some (c, s2) →
      Does (.peerRelabel h slice n old new) s (fun t => if (s2.replicaHere n).map Prod.snd = some old then
          t.replicaHere n = (s2.replicaHere n).map (fun x => (x.1, new)) ∧ held t slice n = [] ∧ answers t 4 .ok
        else t.home = s2.home ∧ answers t 4 .miss)) ∧
    (∀ slice n, peered h (.peerDrop h slice n) 5 (fun s => s.peerSlice (s.hostSlice.getD 8)) s = some (c, s2) →
      Does (.peerDrop h slice n) s (fun t => held t slice n = [] ∧ t.replicaHere n = none ∧ answers t 5 .ok)) ∧
    (∀ k a s1 c, s.settle.receive k (.peerAcknowledgement k a) 1 = .fresh c s1 → c.cls = 2 →
      (∀ node b, a = .bucket node b → Does (.peerAcknowledgement k a) s (fun t =>
        t.home.outgoing = s1.home.outgoing.filter (fun o => !(o.node = node && o.bucket = some b)))) ∧
      (s1.home.moves = [] → s1.home.fills = [] → (∀ q ∈ s1.reqs, ∀ cmd, q.2.kind ≠ .held cmd) →
        let acked (node slice : Nat) (n : PageName) (f : CopyS → CopyS) : List Replica := s1.home.replicas.map (fun r =>
          if r.slice = slice ∧ r.name = n then { r with copies := r.copies.map (fun x => if x.node = node then f x else x) } else r)
        (∀ node slice n, a = .revoke node slice n → Does (.peerAcknowledgement k a) s (fun t => t.home = { s1.home with
          replicas := acked node slice n (fun x => if x.revoking then { x with granted := none, revoking := false } else x) })) ∧
        (∀ node slice n g, a = .grant node slice n g → Does (.peerAcknowledgement k a) s (fun t => t.home = { s1.home with
          replicas := acked node slice n (fun x => if x.granted.any (fun y => y.1 = g) && !x.revoking then { x with stands := true } else x) }))))

/-- READ, WRITE, COMPARE_AND_SWAP, FETCH_AND_ADD and unserved opcodes (R247, R249, R258, R265, R266).
A READ that passes its checks sends the region's bytes in packets of the path MTU with rising PSNs, and moves PSN and MSN. A WRITE
packet that passes stores its data at the key's base plus address, byte for byte, and no other byte of memory changes; the PSN
moves, and the MSN on its last packet. An atomic replaces 8 bytes by the swap or the sum, changes no other byte, and sends and
keeps the old value. An opcode outside those served is dropped and counted, or, on a reliable connection, moves the queue pair to
ERROR with FORMAT_ERROR. Acknowledgement on the last packet is log entry 18. -/
def Obligations.StandardOperations : Prop :=
  ∀ (k : Pkt) (rkey va : Nat) (s s1 : State) (c : Ctx), s.running = true → s.MemOk →
    (∀ len, s.settle.receive k (.rdmaReadRequest k rkey va len) 1 = .fresh c s1 →
      s1.readCode c rkey va len 0 (len < 2 ^ 31 && rkey < 2 ^ 32 && va < 2 ^ 64) = .ok →
      let data := s1.regionBytes rkey va len
      Does (.rdmaReadRequest k rkey va len) s (fun t => t.mem = s1.mem ∧ ∃ x, t.ctx k.qpn = some x ∧ data.length = len ∧
        x.ePsn = (c.ePsn + packetsOf c.pmtu len) % 2 ^ 24 ∧ x.msn = (c.msn + 1) % 2 ^ 24 ∧
        x.pacer.length = c.pacer.length + packetsOf c.pmtu len ∧
        ∀ (i : Nat), i < packetsOf c.pmtu len → (x.pacer[c.pacer.length + i]?).map TxPkt.body =
          some (.readData ((k.psn + i) % 2 ^ 24) ((data.drop (i * c.pmtu)).take c.pmtu)))) ∧
    (∀ (pos : WritePos) (dmaLen : Nat) (d : List Byte) (e : KeyEnt),
      s.settle.receive k (.rdmaWrite k pos rkey va dmaLen d) 1 = .fresh c s1 → keyKind rkey = 0 → s1.keyEntry rkey = some e →
      s1.writeCode c rkey va dmaLen (writeShape c.pmtu pos c.write dmaLen d && rkey < 2 ^ 32 && va < 2 ^ 64) = .ok →
      pos = .first ∨ pos = .only → (∀ a, s1.collides a = false) →
      Does (.rdmaWrite k pos rkey va dmaLen d) s (fun t =>
        (∀ a, a < e.base + va ∨ e.base + va + d.length ≤ a → cellRead t.mem.cells a = cellRead s1.mem.cells a) ∧
        (∀ (i : Nat), i < d.length → s1.stackFenced (addrStack (e.base + va + i)) = false →
          implementedOffset (addrOffset (e.base + va + i)) = true → e.base + va + i < 2 ^ 40 →
          cellRead t.mem.cells (e.base + va + i) = d.getD i 0) ∧
        ∃ x, t.ctx k.qpn = some x ∧ x.ePsn = (c.ePsn + 1) % 2 ^ 24 ∧
          (pos = .only → x.msn = (c.msn + 1) % 2 ^ 24 ∧ x.write = none) ∧
          (pos = .first → x.msn = c.msn ∧ x.write = some { key := rkey, va := va + d.length, apply := true, left := dmaLen - d.length }))) ∧
    (∀ (pos : WritePos) (dmaLen : Nat) (d : List Byte) (m : WriteMsg) (e : KeyEnt),
      s.settle.receive k (.rdmaWrite k pos rkey va dmaLen d) 1 = .fresh c s1 → pos = .middle ∨ pos = .last → c.write = some m →
      keyKind m.key = 0 → s1.keyEntry m.key = some e → writeShape c.pmtu pos c.write dmaLen d = true →
      s1.writeKeyCheck c m.key m.va d.length = .ok → (∀ a, s1.collides a = false) →
      Does (.rdmaWrite k pos rkey va dmaLen d) s (fun t =>
        (∀ a, a < e.base + m.va ∨ e.base + m.va + d.length ≤ a → cellRead t.mem.cells a = cellRead s1.mem.cells a) ∧
        ∃ x, t.ctx k.qpn = some x ∧ x.ePsn = (c.ePsn + 1) % 2 ^ 24 ∧ (pos = .last → x.msn = (c.msn + 1) % 2 ^ 24 ∧ x.write = none) ∧
          (pos = .middle → x.write = some { key := m.key, va := m.va + d.length, apply := true, left := m.left - d.length }))) ∧
    (∀ (cmd : Instr) (f : Nat → Nat), ((∃ cmp swp, cmd = .compareAndSwap k rkey va cmp swp ∧ cmp < 2 ^ 64 ∧ swp < 2 ^ 64 ∧
          ∀ x, f x = if x = cmp then swp else x) ∨ (∃ add, cmd = .fetchAndAdd k rkey va add ∧ add < 2 ^ 64 ∧ ∀ x, f x = (x + add) % 2 ^ 64)) →
      s.settle.receive k cmd 1 = .fresh c s1 → ∀ e, s1.keyEntry rkey = some e →
      s1.readCode c rkey va 8 2 (va % 8 = 0 && rkey < 2 ^ 32 && va < 2 ^ 64) = .ok →
      let old := fromLe (s1.regionBytes rkey va 8)
      Does cmd s (fun t => (∃ x, t.ctx k.qpn = some x ∧ x.ePsn = (c.ePsn + 1) % 2 ^ 24 ∧ x.atomics.getLast? = some (k.psn, old) ∧
          (x.pacer.getLast?).map TxPkt.body = some (.atomicAck k.psn old)) ∧
        ((∀ a, s1.collides a = false) → (∀ (i : Nat), i < 8 → s1.stackFenced (addrStack (e.base + va + i)) = false ∧
            implementedOffset (addrOffset (e.base + va + i)) = true ∧ e.base + va + i < 2 ^ 40) →
          fromLe ((List.range 8).map (fun i => cellRead t.mem.cells (e.base + va + i))) = f old) ∧
        ((∀ a, s1.collides a = false) → ∀ a, a < e.base + va ∨ e.base + va + 8 ≤ a → cellRead t.mem.cells a = cellRead s1.mem.cells a))) ∧
    (∀ opcode, (servedOpcode opcode = true → Gives (exec (.invalidOpcode k opcode) s) s) ∧
      (servedOpcode opcode = false → (32 ≤ opcode ∧ opcode < 0x80) ∨ (0xa0 ≤ opcode ∧ opcode < 0xc0) →
        Does (.invalidOpcode k opcode) s (fun t => t.xpt = { s.xpt with dropped := inc32 s.xpt.dropped } ∧ t.mem = s.mem)) ∧
      (servedOpcode opcode = false → ¬((32 ≤ opcode ∧ opcode < 0x80) ∨ (0xa0 ≤ opcode ∧ opcode < 0xc0)) →
        s.receive k (.invalidOpcode k opcode) 1 = .fresh c s1 → Does (.invalidOpcode k opcode) s (fun t =>
          ∃ x, t.ctx k.qpn = some x ∧ x.state = .error ∧ x.lastError = Code.formatError.num)))

/-- Acknowledgements release responses; NAKs and timers retransmit them (R252, R263).
An acknowledgement releases the responses up to its PSN, clearing the retry counts and restarting the timer where any was
released; an RNR NAK waits its time and a PSN error NAK resends at once, with at most 7 tries before ERROR; any other NAK is
ERROR; the timers resend when due, and do nothing before. The retry limits and the timer table come from outside the spec (log
entry 19). -/
def Obligations.ResponsesAreRetransmitted : Prop :=
  ∀ (k : Pkt) (s : State) (c : Ctx), s.running = true →
    let left (psn : Nat) : List Resp := (c.held.map (Resp.after psn)).filter (fun r => !r.pkts.isEmpty)
    let wait : Nat := s.now + max s.xpt.ackTimeout 1 * 1000
    let before : Nat := (k.psn + 2 ^ 24 - 1) % 2 ^ 24
    (s.arrive k (.acknowledgeReceived k) false = .ok c → Does (.acknowledgeReceived k) s (fun t => ∃ x, t.ctx k.qpn = some x ∧
      x.held = left k.psn ∧ x.rx = (c.rx + 1) % 2 ^ 32 ∧ (x.held = c.held → x.retries = c.retries ∧ x.timer = c.timer) ∧
      (x.held ≠ c.held → x.retries = 0 ∧ x.rnrRetries = 0 ∧ x.timer = if x.held.isEmpty then none else some wait))) ∧
    (∀ timer, s.arrive k (.rnrNakReceived k timer) false = .ok c →
      let n := if left before = c.held then c.rnrRetries else 0
      (left before = [] → Does (.rnrNakReceived k timer) s (fun t => ∃ x, t.ctx k.qpn = some x ∧ x.held = [] ∧ x.state = c.state)) ∧
      (left before ≠ [] → n < 7 → Does (.rnrNakReceived k timer) s (fun t => ∃ x, t.ctx k.qpn = some x ∧ x.held = left before ∧
        x.rnrRetries = n + 1 ∧ x.timer = none ∧ x.rnrTimer = some (s.now + rnrNs timer))) ∧
      (left before ≠ [] → 7 ≤ n → Does (.rnrNakReceived k timer) s (fun t => (t.ctx k.qpn).map Ctx.state = some .error))) ∧
    (∀ syndrome, s.arrive k (.fatalNakReceived k syndrome) false = .ok c →
      let n := if left before = c.held then c.retries else 0
      (syndrome ≠ 0x60 → Does (.fatalNakReceived k syndrome) s (fun t => (t.ctx k.qpn).map Ctx.state = some .error ∧
        t.xpt.qpErrors = inc32 s.xpt.qpErrors)) ∧
      (syndrome = 0x60 → left before ≠ [] → n < 7 → Does (.fatalNakReceived k syndrome) s (fun t => ∃ x rest, t.ctx k.qpn = some x ∧
        x.held = left before ∧ x.retries = n + 1 ∧ x.pacer = (left before).flatMap Resp.pkts ++ rest)) ∧
      (syndrome = 0x60 → left before ≠ [] → 7 ≤ n → Does (.fatalNakReceived k syndrome) s (fun t =>
        (t.ctx k.qpn).map Ctx.state = some .error))) ∧
    (∀ qpn due, s.ctx qpn = some c → c.rnrTimer = some due →
      (s.now < due → Gives (exec (.rnrTimerExpiry qpn) s) s) ∧
      (due ≤ s.now → Does (.rnrTimerExpiry qpn) s (fun t => ∃ x rest, t.ctx qpn = some x ∧ x.rnrTimer = none ∧ x.held = c.held ∧
        x.pacer = c.held.flatMap Resp.pkts ++ rest))) ∧
    (∀ qpn due, s.ctx qpn = some c → c.timer = some due → c.state = .rts →
      (s.now < due → Gives (exec (.responseRetransmit qpn) s) s) ∧
      (due ≤ s.now → c.retries < 7 → Does (.responseRetransmit qpn) s (fun t => ∃ x rest, t.ctx qpn = some x ∧ x.retries = c.retries + 1 ∧
        x.held = c.held ∧ x.pacer = c.held.flatMap Resp.pkts ++ rest)) ∧
      (due ≤ s.now → 7 ≤ c.retries → Does (.responseRetransmit qpn) s (fun t => (t.ctx qpn).map Ctx.state = some .error)))

/-- Connections open and close, and spilled contexts load (R255, R257, R267, R269, R270, R276).
CM_REQ on a port without link or to a full connection queue changes nothing; one not acceptable changes the queue's length alone; an
accepted one opens a context in RTR with a free
number, the requester's identity, group, class and PSN. CM_REP opens the node-class context with its HELLO held. CM_RTU, CM_DREQ,
CM_DREP, PEER_IDLE_CLOSE and FLUSH_COMPLETE move the state as given or do nothing; PEER_CONNECT_RETRY tries the next path or backs
off when due. CONTEXT_LOAD brings a spilled context on die with its held responses and PSN, erases one whose spill copy is lost,
and waits for room; MISS_BUFFER_TIMEOUT drops the packets that waited 3 microseconds. Which number is given is free, and the
load's order is log entry 20. -/
def Obligations.ContextsComeAndGo : Prop :=
  ((∀ (r : CmReq) (s : State), s.running = true →
     let full : Prop := 4096 ≤ (cmQueueAt s.now (s.xpt.cmQueues.getD (s.engineOf r.port) (0, 0))).1
     ((s.eth.ports.getD r.port {}).linkUp = false ∨ full → Gives (exec (.cmReq r) s) s) ∧
     ((s.eth.ports.getD r.port {}).linkUp = true → ¬full → s.cmAccept r = none →
       Does (.cmReq r) s (fun t => t.xpt = { s.xpt with cmQueues := t.xpt.cmQueues })) ∧
     (∀ e q, (s.eth.ports.getD r.port {}).linkUp = true → ¬full → s.cmAccept r = some e → s.newQpn = some q → (s.roomOnDie r.sliceField).isSome →
       Does (.cmReq r) s (fun t => ∃ x, t.ctx q = some x ∧ s.ctx q = none ∧ 2 ≤ q ∧ x.state = .rtr ∧ x.remoteQpn = r.remoteQpn ∧
         x.rid = ridOf e r.src ∧ x.rid ≤ 262143 ∧ inRanges s.ras.reqFences x.rid = false ∧ x.group = e.group ∧ x.cls = e.cls ∧ x.slice = r.sliceField ∧
         x.ePsn = r.startPsn % 2 ^ 24 ∧ x.resources = min 8 r.resources ∧ x.level = none ∧ x.onDie = true))) ∧
   (∀ (r : CmRep) (s : State) q s1 e, s.running = true → s.peerQp r.peer = none → (s.xpt.peers.get? r.peer).isSome → s.ctxCount 0xff < 16384 →
     (s.eth.ports.getD r.port {}).linkUp = true → s.newQpn = some q → s.roomOnDie 0xff = some s1 → s.isoMatch r.remoteAddr = some e →
     Does (.cmRep r) s (fun t => t.xpt.peers.get? r.peer = none ∧ ∃ x, t.ctx q = some x ∧ x.state = .rts ∧ x.cls = 2 ∧
       x.nodeLevel = true ∧ x.peer = r.peer ∧ x.remoteQpn = r.remoteQpn ∧ (x.held.flatMap Resp.pkts).head?.map TxPkt.body = some (.helloReq 1))) ∧
   (∀ (qpn : Nat) (s : State) (c : Ctx), s.running = true → s.ctx qpn = some c →
     (if c.state = .rtr then Does (.cmRtu qpn) s (fun t => (t.ctx qpn).map Ctx.state = some .rts) else Gives (exec (.cmRtu qpn) s) s) ∧
     (if c.state = .error then Gives (exec (.cmDreq qpn) s) s
       else Does (.cmDreq qpn) s (fun t => (t.ctx qpn).map Ctx.state = some .error)) ∧
     (if c.closing then Does (.cmDrep qpn) s (fun t => (t.ctx qpn).map Ctx.state = some .error) else Gives (exec (.cmDrep qpn) s) s) ∧
     (if c.nodeLevel ∧ c.cls = 2 ∧ c.closing = false ∧ c.state = .rts ∧ c.lastPeer + 60000000000 ≤ s.now then
       Does (.peerIdleClose qpn) s (fun t => (t.ctx qpn).map Ctx.closing = some true) else Gives (exec (.peerIdleClose qpn) s) s) ∧
     (if c.state = .error then Does (.flushComplete qpn) s (fun t => t.ctx qpn = none ∧ ∀ m ∈ t.xpt.missBuf, m.qpn ≠ qpn)
       else Gives (exec (.flushComplete qpn) s) s)) ∧
   (∀ (peer : Nat) (s : State), s.running = true →
     let p := s.xpt.peers.getD peer {}
     ((s.peerQp peer).isSome ∨ s.now < p.due → Gives (exec (.peerConnectRetry peer) s) s) ∧
     (s.peerQp peer = none → p.due ≤ s.now →
       (p.next < (s.peerPaths peer).length → Does (.peerConnectRetry peer) s (fun t =>
         t.xpt.peers.get? peer = some { p with next := p.next + 1, due := s.now + 1000000 })) ∧
       ((s.peerPaths peer).length ≤ p.next → Does (.peerConnectRetry peer) s (fun t =>
         t.xpt.peers.get? peer = some { due := s.now + p.backoff, backoff := min (2 * p.backoff) 1000000000, next := 0 }))))) ∧
  ((∀ (qpn : Nat) (s : State) (c : Ctx), s.running = true → s.ctx qpn = some c →
     (c.onDie = true ∨ c.loading = false → Gives (exec (.contextLoad qpn) s) s) ∧
     (c.onDie = false → c.loading = true →
       (s.spillLost qpn = true → Does (.contextLoad qpn) s (fun t => t.ctx qpn = none ∧ ∀ m ∈ t.xpt.missBuf, m.qpn ≠ qpn)) ∧
       (s.spillLost qpn = false → s.roomOnDie (if c.nodeLevel then 0xff else c.slice) = none → Gives (exec (.contextLoad qpn) s) s) ∧
       (s.spillLost qpn = false → (s.roomOnDie (if c.nodeLevel then 0xff else c.slice)).isSome → (∀ m ∈ s.xpt.missBuf, m.qpn ≠ qpn) →
         Does (.contextLoad qpn) s (fun t => ∃ x, t.ctx qpn = some x ∧ x.onDie = true ∧ x.loading = false ∧ x.discarding = false ∧
           x.held = c.held ∧ x.ePsn = c.ePsn ∧ x.lastUsed = s.now)))) ∧
   (∀ (qpn : Nat) (s : State), s.running = true →
     let waits (m : Missed) : Prop := m.qpn = qpn ∧ ∀ k b e, m.cmd ≠ .cnpReceived k b e
     ((∀ m ∈ s.xpt.missBuf, waits m → s.now < m.at_ + 3000) → Gives (exec (.missBufferTimeout qpn) s) s) ∧
     ((∃ m ∈ s.xpt.missBuf, waits m ∧ m.at_ + 3000 ≤ s.now) → Does (.missBufferTimeout qpn) s (fun t =>
       t.xpt.missRnr = inc32 s.xpt.missRnr ∧ (∀ m ∈ t.xpt.missBuf, ¬waits m) ∧ (∀ m ∈ s.xpt.missBuf, ¬waits m → m ∈ t.xpt.missBuf) ∧
       (∀ c, s.ctx qpn = some c → (t.ctx qpn).map Ctx.discarding = some true)))))

/-- Echo rates follow timers and notifications; the pacer releases by the rate (R280, R281, R282, R283, R274).
ECHO_TIMER when due lowers alpha by a sixteenth, counts the step, moves the target by the additive step past the fast steps and
the rate halfway to it, and does nothing before. PACER_RELEASE hands the first waiting packet to its port queue once its time at
the rate has passed, asks for a spilled context, or hands a peer's messages over. CNP_RECEIVED counts, and in RTS cuts the rate by
the formula; PAUSE_FRAME_RX is dropped and counted. What is paced is log entry 18. -/
def Obligations.EchoRateFollowsNotifications : Prop :=
  (∀ (q : Nat) (s : State) (c : Ctx), s.running = true → s.ctx q = some c →
     (if c.state = .rts ∧ c.onDie = true ∧ s.eth.tIncNs ≤ c.echo.age s.tick * 1024 then
       Does (.echoTimer q) s (fun t => ∃ x, t.ctx q = some x ∧ x.echo.alpha = c.echo.alpha - c.echo.alpha / 16 ∧
         x.echo.n = min (c.echo.n + 1) 127 ∧ x.echo.tUpdate = s.tick ∧ x.echo.rc = (c.echo.rc + x.echo.rt) / 2 ∧
         x.echo.rt = (if s.eth.fastSteps < x.echo.n then min (s.lineRate c.port) (c.echo.rt + s.eth.rAi) else c.echo.rt) ∧
         x.pacer = c.pacer ∧ t.eth = s.eth)
     else Gives (exec (.echoTimer q) s) s) ∧
     (∀ p rest, c.nodeLevel = false → c.pacer = p :: rest →
       (c.onDie = false → Does (.pacerRelease q) s (fun t => (t.ctx q).map Ctx.loading = some true ∧ t.eth = s.eth)) ∧
       (c.onDie = true → s.now < c.pacerAt + cdiv (800 * p.len) (max 1 c.echo.rc) → Gives (exec (.pacerRelease q) s) s) ∧
       (c.onDie = true → c.pacerAt + cdiv (800 * p.len) (max 1 c.echo.rc) ≤ s.now → (s.port c.port).linkUp = true → c.state = .rts →
         c.port < s.eth.ports.length → p.queue < (s.port c.port).queues.length →
         Does (.pacerRelease q) s (fun t => (∃ x, t.ctx q = some x ∧ x.pacer = rest ∧ x.pacerAt = s.now) ∧
           ∃ tag, ((t.port c.port).queues.getD p.queue {}).pkts =
             ((s.port c.port).queues.getD p.queue {}).pkts ++ [({ p with enqueued := s.now, udp := udpSource (s.destQpn p) }, tag)]))) ∧
     (c.nodeLevel = true → c.cls = 2 → c.state = .rts → c.closing = false → s.nodeFenced = false →
       Does (.pacerRelease q) s (fun t => t.xpt.peerOut = s.xpt.peerOut.filter (fun m => !decide (peerOf m.body = some c.peer))))) ∧
  ((∀ (k : Pkt) (valid : Bool) (echo : Nat) (s : State) (c : Ctx), s.running = true → s.arrive k (.cnpReceived k valid echo) true = .ok c →
     Does (.cnpReceived k valid echo) s (fun t => t.eth.cnpsReceived = inc32 s.eth.cnpsReceived ∧ ∃ x, t.ctx k.qpn = some x ∧
       x.rx = (c.rx + 1) % 2 ^ 32 ∧ (c.state ≠ .rts → x.echo = c.echo) ∧
       (c.state = .rts → x.echo.rt = c.echo.rc ∧ x.echo.n = 0 ∧ x.echo.tUpdate = s.tick ∧
         x.echo.alpha = ((c.echo.alpha : Int) + (((if valid then echo % 256 * 256 else 65536 : Nat) : Int) - c.echo.alpha).tdiv 16).toNat ∧
         x.echo.rc = max s.rMin (c.echo.rc * (131072 - x.echo.alpha) / 131072)))) ∧
   (∀ (port : Fin 8) (s : State), s.running = true →
     (if (s.eth.ports.getD port {}).linkUp then
       Does (.pauseFrameRx port) s (fun t => t.eth = { s.eth with pauseDrops := inc32 s.eth.pauseDrops } ∧ t.xpt = s.xpt)
     else Gives (exec (.pauseFrameRx port) s) s)))

/-- The queue that a port serves next, once its buckets stand at now: the strict queues in order, then the weighted group (R290 to R293). -/
def Sys2Proof.nextQueue (p : PortS) : Option Nat :=
  match p.strict with
  | some k => some k
  | none => p.weighted

/-- A port transmits its queues in order; depth samples; load (R287, R290, R291, R292, R293, R295).
EGRESS_TRANSMIT on a port with link sends the head of the first strict queue with its cap not spent, else of the weighted queue of
smallest tag (lowest number among equals), with the queue's DSCP; the cap is charged, virtual time advances by the weighted tag,
and the context counts the packet. QUEUE_SAMPLE counts each queue's depth in its bin on ports with link and changes no queue.
LOAD_RECOMPUTE sets the load of a slice and port to the largest of the sixteenths of the five utilisations, at most 15. That the bytes
read from the stacks come with the command, and over which nanoseconds the others are summed, is log entry 40. -/
def Obligations.EgressServesQueues : Prop :=
  (∀ (port : Fin 8) (s : State), s.running = true → (port : Nat) < s.eth.ports.length →
    let p := PortS.refill s.now (s.port port)
    ((s.port port).linkUp = false → Gives (exec (.egressTransmit port) s) s) ∧
    ((s.port port).linkUp = true →
      (nextQueue p = none → Does (.egressTransmit port) s (fun t => t.emitted = s.emitted ∧ t.xpt = s.xpt)) ∧
      (∀ k x tag rest, nextQueue p = some k → (p.queues.getD k {}).pkts = (x, tag) :: rest →
        Does (.egressTransmit port) s (fun t => ((t.port port).queues.getD k {}).pkts = rest ∧
          t.emitted = s.emitted ++ [.frame port (p.cfg.dscp.getD k 0) (ecnOf x.body) x] ∧
          (t.port port).vtime = (if k < 3 then p.vtime else tag) ∧
          (k < 3 → ∀ c, p.caps[k]? = some c → 0 ≤ c ∧ (t.port port).caps[k]? = some (c - (800 * x.len : Nat))) ∧
          ∀ c, s.ctx x.qpn = some c → ∃ y, t.ctx x.qpn = some y ∧ y.tx = (c.tx + 1) % 2 ^ 32)))) ∧
  (∀ (p : PortS) (k : Nat), p.weighted = some k → ∃ tag, p.headTag k = some tag ∧
    ∀ (i : Nat), i < 16 → ∀ other, p.headTag (i + 3) = some other → tag ≤ other ∧ (other = tag → k ≤ i + 3)) ∧
  (∀ (s : State), s.running = true → Does .queueSample s (fun t => t.eth.ports.length = s.eth.ports.length ∧
    ∀ (i : Nat), ((s.port i).linkUp = false → t.port i = s.port i) ∧
      ((s.port i).linkUp = true → (t.port i).queues = (s.port i).queues ∧ ∀ (q : Nat) h g, (s.port i).queues[q]? = some g →
        (s.port i).depthHist[q]? = some h →
        (t.port i).depthHist[q]? = some (h.modify (depthBin ((g.pkts.map (fun x => x.1.len)).sum)) inc32)))) ∧
  (∀ (slice port : Fin 8) (stackBytes : Nat) (s : State), s.running = true → Does (.loadRecompute slice port stackBytes) s (fun t =>
    let us := s.utilisations slice port stackBytes
    t.eth.meters = s.eth.meters ∧ ∃ u, t.eth.load.get? (slice * 8 + port) = some u ∧ u ≤ 15 ∧
      ((u = 15 ∧ ∃ x ∈ us, 15 ≤ sixteenths x) ∨ ((∃ x ∈ us, sixteenths x = u) ∧ ∀ x ∈ us, sixteenths x ≤ u))))

/-- Ports hold their queues without link; lanes are tested and spared (R276, R277, R278, R279).
PORT_LINK_LOSS holds the queues of a port with link; PORT_LINK_RETURN and PORT_TRAINING_DONE raise the link of a port that may
rise, the queues kept within the hold time; LINK_HOLD_EXPIRY empties the queues and puts the port's contexts in ERROR.
LANE_SUSPICION takes the port down to test a lane; LOOPBACK_TEST_DONE returns a lane that passes, and replaces one that fails by
its half's spare, or withdraws the port where none is left. Which returns are ignored is log entry 41. -/
def Obligations.PortsAndLanesRecover : Prop :=
  (∀ (port : Fin 8) (s : State), s.running = true → (port : Nat) < s.eth.ports.length →
     let p := s.port port
     let mayRise : Prop := p.mode ≠ 0 ∧ p.linkUp = false ∧ s.ras.portsWithdrawn.contains (port : Nat) = false ∧ s.aon.coolantPin = false ∧
       s.aon.clk156Lost = false ∧ s.engineLost port = false
     (if p.linkUp then Does (.portLinkLoss port) s (fun t => t.port port =
         { p with linkUp := false, held := true, training := false, downAt := s.now, linkDowns := inc32 p.linkDowns } ∧ t.xpt = s.xpt)
       else Gives (exec (.portLinkLoss port) s) s) ∧
     (mayRise → p.swapping = false → p.training = false → Does (.portLinkReturn port) s (fun t =>
       (t.port port).linkUp = true ∧ (t.port port).held = false ∧ (s.holdOver port = false → (t.port port).queues = p.queues))) ∧
     (p.swapping = true ∨ p.training = true → Gives (exec (.portLinkReturn port) s) s) ∧
     (mayRise → p.training = true → Does (.portTrainingDone port) s (fun t => (t.port port).linkUp = true ∧ (t.port port).training = false ∧
       (t.port port).swapping = false)) ∧
     (p.training = false → Gives (exec (.portTrainingDone port) s) s) ∧
     (if s.holdOver port then Does (.linkHoldExpiry port) s (fun t => (t.port port).held = false ∧
         (t.port port).holdExpiries = inc16 p.holdExpiries ∧ (∀ x ∈ (t.port port).queues, x.pkts = []) ∧
         ∀ q c, s.ctx q = some c → c.port = (port : Nat) → (t.ctx q).map Ctx.state = some .error)
       else Gives (exec (.linkHoldExpiry port) s) s)) ∧
  (∀ (lane : Fin 16) (s : State) (p : Nat), s.running = true → s.laneOwner lane = some p → p < s.eth.ports.length →
     ((s.port p).linkUp = false → Gives (exec (.laneSuspicion lane) s) s) ∧
     ((s.port p).linkUp = true → Does (.laneSuspicion lane) s (fun t => t.eth.suspects = s.eth.suspects ++ [(lane : Nat)] ∧
       (t.port p).linkUp = false ∧ (t.port p).swapping = true ∧ (t.port p).held = true)) ∧
     (s.eth.suspects.contains (lane : Nat) = false → Gives (exec (.loopbackTestDone lane true) s) s ∧ Gives (exec (.loopbackTestDone lane false) s) s) ∧
     (s.eth.suspects.contains (lane : Nat) = true → s.aon.coolantPin = false →
       let halfSpare (t : State) : Option Nat := if (lane : Nat) < 8 then t.eth.s0 else t.eth.s1
       Does (.loopbackTestDone lane true) s (fun t => t.eth.suspects.contains (lane : Nat) = false ∧
         t.eth.loopbackPasses = inc16 s.eth.loopbackPasses ∧ (t.port p).training = true ∧ t.eth.lanesRetired = s.eth.lanesRetired) ∧
       Does (.loopbackTestDone lane false) s (fun t => t.eth.suspects.contains (lane : Nat) = false ∧
         t.eth.lanesRetired.contains (lane : Nat) = true ∧
         (halfSpare s = none → halfSpare t = some (lane : Nat) ∧ t.eth.swaps = inc16 s.eth.swaps ∧ (t.port p).training = true) ∧
         (halfSpare s ≠ none → halfSpare t = halfSpare s ∧ t.ras.portsWithdrawn.contains p = true))))

/-- No reclamation, fill, recovery or move waits anywhere (R222, R224, R240). -/
def Sys2Proof.quiet (s : State) : Prop := s.home.reclaiming = [] ∧ s.home.fills = [] ∧ s.home.moves = []

/-- No acquire waits for a page to land (R212). -/
def Sys2Proof.noAcquire (s : State) : Prop := ∀ q ∈ s.reqs, ∀ p w slot made pre, q.2.kind ≠ .acquire p w slot made pre

/-- No write waits for a page (R70). -/
def Sys2Proof.noWrites (s : State) (slice : Nat) (n : PageName) : Prop := ∀ w ∈ s.mem.waits, ¬(w.slice = slice ∧ w.name = n)

/-- Epochs, reclamation and demotion free stack space without loss (R66, R222, R223, R240).
RECLAIM_EPOCH_ADVANCE adds one to the quarter's epoch and, with no reclamation, fill or move waiting, keeps exactly the retired frames
that are not yet freeable. With none waiting, RECLAMATION does nothing where space is not due; where it is, with no demotable or
replicated page, it stops only at the target share or with no clean unpinned free page left outside fenced stacks, and leaves every
pinned or held frame in place. DEMOTION_COMPLETE applies what the entry owes; then, once its commands are done, it leaves the page
STACK_CLEAN under a new generation with its bytes on the drive equal to its bytes in the stack, and waits where other nodes hold
grants for the page. That forced waits are kept as moves is log entry 67. -/
def Obligations.StackSpaceIsReclaimed : Prop :=
  (∀ (q : Fin 4) (s : State), s.running = true → (q : Nat) < s.mem.epochs.length → Does (.reclaimEpochAdvance q) s (fun t =>
    t.mem.epochs.getD q 0 = s.mem.epochs.getD q 0 + 1 ∧
    (quiet s → t.retireList q = (s.retireList q).filter (fun r => !freeable (s.heldEpochs q) (s.mem.epochs.getD q 0 + 1) r)))) ∧
  (∀ (slice : Fin 8) (stack : Option (Fin 8)) (s : State), s.running = true → quiet s →
    let sts : List Nat := match stack with
      | none => (s.cfg slice).stackList
      | some k => [(k : Nat)]
    let due : Bool := match stack with
      | none => s.lowSpace slice
      | some k => (s.cfg slice).stackList.contains (k : Nat)
    (due = false → Gives (exec (.reclamation slice stack) s) s) ∧
    (due = true → (∀ e ∈ s.home.entries, s.demotable e = false ∧ s.shared e.slice e.name = false) →
      s.home.entries.Pairwise (fun a b => a.slice ≠ b.slice ∨ a.name ≠ b.name) → Does (.reclamation slice stack) s (fun t =>
        (t.shareAt sts (t.onTheWay sts) (s.cfg slice).tier.stackHigh = true ∨ ∀ e ∈ t.home.entries, e.slice = (slice : Nat) →
          e.frameState = .stackClean → sts.contains e.stackFrame.1 = true → t.stackFenced e.stackFrame.1 = false → t.frameHeld e = false →
          e.pinCount ≠ 0) ∧
        ∀ e ∈ s.home.entries, e.frameState.inStack = true → e.pinCount ≠ 0 ∨ s.frameHeld e = true →
          ∃ x, t.entry e.slice e.name = some x ∧ x.frameState = e.frameState ∧ x.stackFrame = e.stackFrame))) ∧
  (∀ (slice : Fin 8) (n : PageName) (s : State) (e : Entry), s.running = true →
    let s1 := s.refresh slice n
    quiet s1 → s1.MemOk → s1.entry slice n = some e →
    (e.frameState ≠ .demoting ∨ s1.cmdsOf e.flashDrive slice n ≠ [] → Gives (exec (.demotionComplete slice n) s) s1) ∧
    (e.frameState = .demoting → s1.cmdsOf e.flashDrive slice n = [] → s1.shared slice n = true →
      Does (.demotionComplete slice n) s (fun t => t.entry slice n = some e ∧ t.mem = s1.mem)) ∧
    (∀ d, e.frameState = .demoting → s1.cmdsOf e.flashDrive slice n = [] → s1.mem.drives.get? e.flashDrive = some d →
      s1.shared slice n = false → Does (.demotionComplete slice n) s (fun t =>
        (∃ x, t.entry slice n = some x ∧ x.frameState = .stackClean ∧ x.frameGen = (e.frameGen + 1) % 65536 ∧ x.stackFrame = e.stackFrame) ∧
        ∃ y, t.mem.drives.get? e.flashDrive = some y ∧ ∀ (x : Nat), x < frameBytes (s1.format slice) →
          cellRead y.cells (e.flashGranule * 65536 + x) = s1.memRead (frameAddr (s1.format slice) e.stackFrame x))))

/-- Fills land, and drive commands complete, time out or fail the drive (R224, R225, R228, R230, R231, R241, R243).
FILL_LAND waits for its commands, and for the grants of other nodes to end, and leaves the page STACK_CLEAN in its frame under a new
generation; a fill without its frame gets one when it can and falls back after 1 ms; a recovery asks the next replica each 200
microseconds and takes a copy of the page's generation. NVME_COMPLETION ends a command, reissues a transient one once, counts media errors and fails the drive on a
fatal one; NVME_TIMEOUT after 30 ms counts, reissues once, and fails the drive at the third in a row; DRIVE_FAILED marks and logs
it; BITMAP_FLUSH issues one write of a dirty block. Waiting writes are log entry 32. -/
def Obligations.FillsAndDrivesComplete : Prop :=
  (∀ (slice : Fin 8) (n : PageName) (s : State) (f : Fill), s.running = true → s.fillOf slice n = some f →
     (f.recovering = true → Gives (exec (.fillLand slice n) s) s) ∧
     (∀ e p, f.recovering = false → s.entry slice n = some e → f.frame = some p → e.frameState = .filling → e.stackFrame = p →
       (s.cmdsOf e.flashDrive slice n ≠ [] → Gives (exec (.fillLand slice n) s) s) ∧
       (s.cmdsOf e.flashDrive slice n = [] → s.shared slice n = true → Does (.fillLand slice n) s (fun t =>
         t.entry slice n = some e ∧ t.mem = s.mem)) ∧
       (s.cmdsOf e.flashDrive slice n = [] → s.shared slice n = false → noWrites s slice n → noAcquire s →
         Does (.fillLand slice n) s (fun t => t.fillOf slice n = none ∧ ∃ x, t.entry slice n = some x ∧ x.frameState = .stackClean ∧
           x.stackFrame = p ∧ x.frameGen = (e.frameGen + 1) % 65536 ∧ x.pageState = e.pageState))) ∧
     (f.recovering = false → s.entry slice n = none → Does (.fillLand slice n) s (fun t => t.fillOf slice n = none)) ∧
     (f.recovering = false → f.frame = none → f.got = none → s.home.fills = [f] → s.allocFrame slice n = none →
       s.retireFull (s.quarterOf slice n.handle) = false →
       (s.now < f.since + 1000000 → Gives (exec (.fillAllocTimeout slice n) s) s) ∧
       (f.since + 1000000 ≤ s.now → Does (.fillAllocTimeout slice n) s (fun t => t.fillOf slice n = none))) ∧
     (∀ e p s1, f.recovering = false → f.frame = none → f.got = none → s.home.fills = [f] → s.entry slice n = some e → s.allocFrame slice n = some (p, s1) →
       Does (.fillAllocTimeout slice n) s (fun t => ((t.fillOf slice n).bind Fill.frame) = some p ∧
         ∃ x, t.entry slice n = some x ∧ x.frameState = .filling ∧ x.stackFrame = p)) ∧
     (f.recovering = true → f.got = none → (s.entry slice n).isSome = true → s.now < f.askAt + 200000 →
       Gives (exec (.replicaRecoveryWait slice n none) s) s) ∧
     (∀ e k rest, f.recovering = true → f.got = none → f.askAt + 200000 ≤ s.now → s.entry slice n = some e → s.askable slice n f.asked = k :: rest →
       Does (.replicaRecoveryWait slice n none) s (fun t => (t.fillOf slice n).map (fun x => (x.asked, x.askAt)) = some (f.asked ++ [k], s.now) ∧
         t.xpt.peerOut = s.xpt.peerOut ++ [{ queue := 1, body := .peerAsk k slice n e.frameGen }])) ∧
     (∀ e img p s1, f.recovering = true → s.entry slice n = some e → img.frameGen = e.frameGen → s.allocFrame slice n = some (p, s1) →
       s.shared slice n = false → noWrites s slice n → noAcquire s → Does (.replicaRecoveryWait slice n (some img)) s (fun t => t.fillOf slice n = none ∧ ∃ x, t.entry slice n = some x ∧
         x.frameState = .stack ∧ x.stackFrame = p ∧ x.frameGen = (e.frameGen + 1) % 65536))) ∧
  (∀ (d : Fin 16) (s : State) (x : Drive), s.running = true → s.mem.drives.get? d = some x →
     (∀ id c, x.cmds.get? id = some c →
       (c.issued = false → ∀ st, Gives (exec (.nvmeCompletion d id st) s) s ∧ Gives (exec (.nvmeTimeout d id) s) s) ∧
       (c.issued = true →
         Does (.nvmeCompletion d id .success) s (fun t => ∃ y, t.mem.drives.get? d = some y ∧ y.cmds.get? id = none ∧
           y.consecTimeouts = 0 ∧ y.failed = x.failed ∧ y.samples.length ≤ 16) ∧
         (∀ st, st = .transient ∨ st = .aborted → c.reissued = false → Does (.nvmeCompletion d id st) s (fun t => ∃ y k,
           t.mem.drives.get? d = some y ∧ y.cmds.get? id = some k ∧ k.reissued = true ∧ y.mediaErrors = x.mediaErrors)) ∧
         (∀ st, (∃ k, st = .media k) ∨ ((st = .transient ∨ st = .aborted) ∧ c.reissued = true) →
           Does (.nvmeCompletion d id st) s (fun t => ∃ y, t.mem.drives.get? d = some y ∧ y.mediaErrors = inc16 x.mediaErrors)) ∧
         Does (.nvmeCompletion d id .fatal) s (fun t => ∃ y, t.mem.drives.get? d = some y ∧ y.failed = true) ∧
         (s.now < c.issuedAt + 30000000 → Gives (exec (.nvmeTimeout d id) s) s) ∧
         (c.issuedAt + 30000000 ≤ s.now → Does (.nvmeTimeout d id) s (fun t => ∃ y, t.mem.drives.get? d = some y ∧
           y.timeouts = inc16 x.timeouts ∧ (2 ≤ x.consecTimeouts → y.failed = true) ∧
           (x.consecTimeouts < 2 → c.reissued = false → (y.cmds.get? id).map NvmeCmd.reissued = some true))))) ∧
     (if x.failed then Gives (exec (.driveFailed d) s) s else Does (.driveFailed d) s (fun t =>
       (∃ y, t.mem.drives.get? d = some y ∧ y.failed = true) ∧ s.log.nextSeq < t.log.nextSeq)) ∧
     (∀ b, (x.dirty.get? b = none ∨ x.usable = false → Gives (exec (.bitmapFlush d b) s) s) ∧
       ((x.dirty.get? b).isSome → x.usable = true → Does (.bitmapFlush d b) s (fun t => ∃ y k, t.mem.drives.get? d = some y ∧
         y.dirty.get? b = none ∧ y.cmds.get? x.nextCmd = some k ∧ k.bitmapBlock = some b ∧ k.cls = 4 ∧ k.write = true ∧ k.bytes = 4096))))

/-- Replica copies and grants are repeated and expire; stream entries expire (R204, R232, R239).
REPLICA_COPY_REPEAT sends an unacknowledged copy again after 100 ms, of the entry as it stands by then, and does nothing before or once
it is acknowledged; GRANT_RENEW grants an acknowledged copy for 2 ms under the page's generation, and nothing while the copy is
revoked or a change of the page waits; GRANT_EXPIRE, where nothing waits for the page, removes exactly the due grants it names;
STREAM_ENTRY_EXPIRE removes exactly the entries it names that are a second old. -/
def Obligations.ReplicasAndStreams : Prop :=
  ∀ (slice : Fin 8) (n : PageName) (node : Nat) (s : State), s.running = true →
    (∀ c, s.copyAt slice n node = some c → s.nodeFenced = false →
      (c.acked = true ∨ s.now < c.lastSent + 100000000 → Gives (exec (.replicaCopyRepeat slice n node) s) s) ∧
      (let s1 := s.refresh slice n
       ∀ e y, c.acked = false → c.lastSent + 100000000 ≤ s.now → s1.entry slice n = some e → e.frameState.inStack = true →
        s1.copyAt slice n node = some y → Does (.replicaCopyRepeat slice n node) s (fun t =>
        (t.copyAt slice n node).map CopyS.lastSent = some s.now ∧ t.xpt.peerOut.length = s1.xpt.peerOut.length + 1)) ∧
      (c.acked = false ∨ c.revoking = true ∨ (∃ m ∈ s.home.moves, m.slice = (slice : Nat) ∧ m.name = n) →
        Gives (exec (.grantRenew slice n node) s) s) ∧
      (∀ e, s.entry slice n = some e → c.acked = true → c.revoking = false → (∀ m ∈ s.home.moves, ¬(m.slice = (slice : Nat) ∧ m.name = n)) →
        Does (.grantRenew slice n node) s (fun t =>
        t.copyAt slice n node = some { c with granted := some (e.frameGen, s.now + 2000000), stands := c.stands && c.granted.any (fun g => g.1 = e.frameGen) } ∧
        t.xpt.peerOut = s.xpt.peerOut ++ [{ queue := 1, body := .peerGrant node slice n e.frameGen }]))) ∧
    (quiet s → (∀ q ∈ s.reqs, ∀ cmd, q.2.kind ≠ .held cmd) → Does (.grantExpire slice n node) s (fun t =>
      t.home.held = s.home.held.filter (fun g =>
        !(g.slice = (slice : Nat) && g.name = n && g.home = node && g.until_ ≤ s.now)) ∧ t.home.entries = s.home.entries ∧
      ∀ c, s.copyAt slice n node = some c → ∃ y, t.copyAt slice n node = some y ∧
        y.granted = (match c.granted with
          | some g => if g.2 ≤ s.now then none else some g
          | none => none))) ∧
    (∀ (q : Fin 4) (handle group : Nat), Does (.streamEntryExpire q slice handle group) s (fun t =>
      (∀ x ∈ t.home.streams, x ∈ s.home.streams) ∧ ∀ x ∈ s.home.streams, (x ∉ t.home.streams ↔ x.slice = (slice : Nat) ∧ x.handle = handle ∧
        x.group = group ∧ s.quarterOf slice handle = (q : Nat) ∧ x.updated + 1000000000 ≤ s.now)))

/-- Region fences, sweeps, lost home units and lost quarters (R43, R71, R205, R358, R359, R464).
REGION_FENCE whose condition does not hold does nothing (a row of R358 that the node's own state shows). One that holds, of a region not
fenced, fences it and no other, ends its windows, loses its two prefix blocks, loses the quarter where its pair is fenced too,
fences the node where all are, and, with no page at its near-bank units, drops its cached lines and marks its accumulators lost. FENCE_SWEEP leaves no prefix node rebuilt from a fenced stack. HOME_UNIT_LOSS marks the unit and keeps the entries;
HOME_UNIT_RETURN ends the quarter's leases and leaves no page open; QUARTER_LOST loses the spilled contexts and drives of the
quarter. Losing prefix blocks 2n and 2n + 1 is log entry 31. -/
def Obligations.LossesAreContained : Prop :=
  (∀ (n : Fin 8) (cause : Fin 5) (island : Fin 3) (s : State), s.running = true →
    (s.fenceDue n cause = false → Gives (exec (.regionFence n cause island) s) s) ∧
    (s.fenceDue n cause = true → s.settle.stackFenced n = true → ¬((cause : Nat) = 0 ∧ (island : Nat) = 0) → (cause : Nat) ≠ 4 →
      (s.settle.nbu.getD n {}).near = [] → Gives (exec (.regionFence n cause island) s) s.settle) ∧
    (s.fenceDue n cause = true → s.settle.stackFenced n = false → Does (.regionFence n cause island) s (fun t => t.stackFenced n = true ∧
      (∀ (m : Nat), m ≠ n → t.stackFenced m = s.settle.stackFenced m) ∧
      (t.nbu.getD n {}).wins = [] ∧ ((s.settle.nbu.getD n {}).near = [] → (∀ a ∈ t.eng.lines, addrStack a ≠ n) ∧
        ∀ a ∈ t.home.accs, (∃ p ∈ a.parts, p.1 = n) → a.lost = true) ∧
      t.locus.lostBlocks.contains (2 * n) = true ∧ t.locus.lostBlocks.contains (2 * n + 1) = true ∧
      (t.stackFenced ((n + 4) % 8) = true → t.ras.quartersLost.contains (n % 4) = true) ∧
      ((List.range 8).all t.stackFenced = true → t.nodeFenced = true)))) ∧
  (∀ (q : Fin 4) (s : State), s.running = true →
    Does (.fenceSweep q) s (fun t => t.locus.rebuilding = [] ∧ ∀ x ∈ t.locus.nodes, ∀ y ∈ s.locus.nodes, y.2.addr = x.1 → s.stackFenced (addrStack x.1) = false) ∧
    Does (.homeUnitLoss q) s (fun t => t.home.unitsLost.contains (q : Nat) = true ∧ t.home.entries = s.settle.home.entries) ∧
    (if s.settle.home.unitsLost.contains (q : Nat) = false ∨ s.settle.ras.quartersLost.contains (q : Nat) = true then
      Gives (exec (.homeUnitReturn q) s) s.settle
    else Does (.homeUnitReturn q) s (fun t => t.home.unitsLost.contains (q : Nat) = false ∧
      (∀ l ∈ t.home.leases, s.settle.quarterOf l.2.slice l.2.params.handle ≠ q) ∧
      (∀ e ∈ t.home.entries, e.quarter = (q : Nat) → e.pageState ≠ .writeOpen ∧ e.pageState ≠ .writeOpenNew))) ∧
    Does (.quarterLost q) s (fun t => t.ras.quartersLost.contains (q : Nat) = true ∧
      (s.settle.ras.quartersLost.contains (q : Nat) = false → (∀ c ∈ t.xpt.ctxs, c.2.onDie = true ∨ c.1 % 4 ≠ q) ∧
        ∀ k x, s.settle.mem.drives.get? k = some x → x.port = (q : Nat) → x.present = true → (t.mem.drives.get? k).map Drive.failed = some true)))

/-- A tile group on a cell can go on: the operands of its next tile are staged, or its page is in hand (R24, R67). -/
def Sys2Proof.canRun (s : State) (a : Accum) : Prop :=
  ∃ t, a.step = some t ∧ (t.staged.isSome = true ∨ ∃ src, s.pageStand a t.page = .ready src)

/-- A group is live on a cell with the rows and place that an accumulator has. -/
def Sys2Proof.runs (t : State) (b p : Nat) (a : Accum) : Prop :=
  ∃ y, ((t.block b).cell p).live = some y ∧ y.tg = a.tg ∧ y.rows = a.rows ∧ y.at_ = a.at_

/-- Window boundaries and context moves (R314, R317, R318, R319).
WINDOW_BOUNDARY acts once in each microsecond: staged classes and columns take effect only at a 256-window boundary.
CONTEXT_SAVE_COMPLETE ends a save, freeing the shadow or placing the incoming group; CONTEXT_RESTORE_COMPLETE puts the context
live where the cell is free for its class, as shadow where not, and waits where the shadow was taken; neither acts while the block is
stopped. A context or group that can run keeps its group, rows and place. The last wait is log entry 34, stopped blocks log entry
65. -/
def Obligations.WindowsAndContexts : Prop :=
  (∀ (s : State), s.running = true →
    (s.now / 1000 ≤ s.sch.lastWindow → Gives (exec .windowBoundary s) s) ∧
    (s.sch.lastWindow < s.now / 1000 → Does .windowBoundary s (fun t => t.sch.lastWindow = s.now / 1000 ∧
      (s.sch.lastWindow / 256 = s.now / 1000 / 256 → t.sch.classes = s.sch.classes ∧ t.sch.table = s.sch.table ∧
        t.sch.stagedClasses = s.sch.stagedClasses ∧ t.sch.staged = s.sch.staged) ∧
      (s.sch.lastWindow / 256 < s.now / 1000 / 256 → t.sch.stagedClasses = [] ∧
        (∀ k r, s.sch.stagedClasses = [(k, r)] → t.sch.classes.get? k = if r.valid = 1 then some r else none) ∧
        ∀ x ∈ t.sch.staged, x ∈ s.sch.staged ∧ ∀ y ∈ t.sch.slices, y.state ≠ .absent → bit y.cfg.blocks x.1 = false)))) ∧
  (∀ (k : Nat) (s : State) (c : ParkedCtx) (b p : Nat) (x : CellS), s.running = true → s.eng.ctxs.get? k = some c →
    b < s.eng.blocks.length → (s.block b).cells[p]? = some x →
    (c.saving = none → Gives (exec (.contextSaveComplete k) s) s) ∧
    (∀ w, c.saving = some (b, p, w) → s.blockUp b = false → Gives (exec (.contextSaveComplete k) s) s) ∧
    (∀ a, c.restoring = some (b, p) → c.acc = some a → s.blockUp b = false → Gives (exec (.contextRestoreComplete k) s) s) ∧
    (c.saving = some (b, p, true) → s.blockUp b = true → (s.block b).ready = [] → Does (.contextSaveComplete k) s (fun t =>
      t.eng.ctxs.get? k = some { c with saving := none } ∧ ((t.block b).cell p) = { x with shadow := none, parkedShadow := false })) ∧
    (∀ g, c.saving = some (b, p, false) → c.incoming = some g → s.blockUp b = true → (s.block b).ready = [] → canRun s (freshAccum g) →
      Does (.contextSaveComplete k) s (fun t => t.eng.ctxs.get? k = some { c with saving := none, incoming := none } ∧
        runs t b p (freshAccum g) ∧ ((t.block b).cell p).shadow = x.shadow)) ∧
    (∀ a, c.restoring = some (b, p) → c.acc = some a → s.blockUp b = true →
      (x.shadow.isSome → Gives (exec (.contextRestoreComplete k) s) (s.onParked k (fun c => { c with restoring := none }))) ∧
      (x.shadow = none → x.need = false → s.cellFree b p c.cls = true → canRun s a → Does (.contextRestoreComplete k) s (fun t =>
        t.eng.ctxs.get? k = none ∧ runs t b p a ∧ ((t.block b).cell p).shadow = x.live)) ∧
      (x.shadow = none → x.need = false → s.cellFree b p c.cls = false → Does (.contextRestoreComplete k) s (fun t => t.eng.ctxs.get? k = none ∧
        ((t.block b).cell p) = { x with shadow := some a }))))

/-- Slices drain, restore, compose and recompose (R303, R305, R307, R308, R310, R311).
DRAIN_COMPLETE waits until the slice is drained, then leaves it DISABLED, COMPOSING or ABSENT by its outcome, an ABSENT slice
leaving no entry, record, lease, prefix node or region key; DRAIN_OPEN_LOG logs each full second; SLICE_CONTEXT_RESTORE takes a
COMPOSING slice to SERVING with its new blocks; RECOMPOSE_CHANGE_COMPLETE makes the next change once its ports or blocks are free,
ending SERVING after the last. None acts during a coolant fault. When compose changes load is log entry 34. -/
def Obligations.SlicesChangeState : Prop :=
  ∀ (i : Fin 8) (s : State), s.running = true → (i : Nat) < s.sch.slices.length →
    let x := s.slice i
    ((x.state ≠ .draining ∨ s.drained i = false) → (x.flashClosing = false ∨ s.flashBusy i = true) →
      Gives (exec (.drainComplete i) s) s) ∧
    (x.state = .draining → s.drained i = true → x.flashClosing = false →
      (∀ op, x.outcome = .disable op → Does (.drainComplete i) s (fun t => (t.slice i).state = .disabled ∧ (t.slice i).cfg = x.cfg)) ∧
      (∀ op sn d, x.outcome = .enable op none sn d → Does (.drainComplete i) s (fun t => (t.slice i).state = .composing)) ∧
      (∀ op, x.outcome = .remove op → Does (.drainComplete i) s (fun t => (t.slice i).state = .absent ∧
        (∀ e ∈ t.home.entries, e.slice ≠ i) ∧ (∀ r ∈ t.home.seqs, r.slice ≠ i) ∧ (∀ l ∈ t.home.leases, l.2.slice ≠ i) ∧
        (∀ n ∈ t.locus.nodes, n.2.slice ≠ i) ∧ ∀ k ∈ t.xpt.regionKeys, k.2.slice ≠ i))) ∧
    (x.flashClosing = true → s.flashBusy i = false → x.state ≠ .draining → Does (.drainComplete i) s (fun t =>
      (t.slice i).flashClosing = false ∧ (t.slice i).flashPending = none ∧
      (t.slice i).cfg.tier.flashDrives = (x.flashPending.map Prod.fst).getD 0)) ∧
    (let n := (s.now - x.drainStart) / 1000000000
     if x.state = .draining ∧ x.drainLogged < n then Does (.drainOpenLog i) s (fun t => (t.slice i).drainLogged = n ∧
        t.log.entries.get? s.log.nextSeq = some { kind := 3, island := 94, record := eventRecord s.now 0x0502 i 0 n 0 0 })
     else Gives (exec (.drainOpenLog i) s) s) ∧
    ((x.state ≠ .composing ∨ s.aon.coolantPin = true) → Gives (exec (.sliceContextRestore i) s) s) ∧
    (x.state = .composing → s.aon.coolantPin = false →
      (∀ c ∈ x.changes, ∃ b st sp, c = .addBlock b ∨ c = .copySpan st sp) → Does (.sliceContextRestore i) s (fun t =>
        (t.slice i).state = .serving ∧ (t.slice i).composeOp = none ∧ t.serving i = true ∧
        ∀ b, .addBlock b ∈ x.changes → b < 32 → bit (t.slice i).cfg.blocks b = true)) ∧
    (s.aon.coolantPin = true → Gives (exec (.recomposeChangeComplete i) s) s) ∧
    (∀ p rest, s.aon.coolantPin = false → x.state = .recomposing → x.changes = .removePort p :: rest →
      (∀ c ∈ s.xpt.ctxs, ¬(c.2.slice = i ∧ c.2.nodeLevel = false ∧ c.2.port = p ∧ c.2.state ≠ .error)) →
      Does (.recomposeChangeComplete i) s (fun t => (t.slice i).changes = rest ∧
        (rest = [] → (t.slice i).state = .serving) ∧ ((∃ q, .removePort q ∈ rest) → (t.slice i).state = .recomposing))) ∧
    (∀ b rest, s.aon.coolantPin = false → x.state = .recomposing → x.changes = .removeBlock b :: rest → b < s.eng.blocks.length →
      (s.block b).ready = [] → (∀ c ∈ (s.block b).cells, c.live = none ∧ c.shadow = none) →
      Does (.recomposeChangeComplete i) s (fun t => (t.slice i).changes = rest ∧ (t.block b).retries = [] ∧
        ∀ w ∈ t.sch.table, ∀ o, w.2[b]? = some o → o = 16))

/-- Doorbells, ring entries, ring enables, interrupt causes, log acknowledgement (R412, R413, R415, R419, R420, R425).
DOORBELL sets the tail of an enabled ring within its size and raises the ring error otherwise; RING_ENTRY_FETCH advances the head
of a ring with entries and admits a well-formed entry under the next number with its status written, ends a malformed one with
FORMAT_ERROR, or raises the error where the status address is bad; RING_ENABLE zeroes head and tail of a ring that was off,
RING_DISABLE stops it; IRQ_CAUSE_CLEAR clears exactly the bits named; LOG_ACK_WRITE never lowers the acknowledgement and never
passes the next number. A status word that the host rejects, which a free value says (log entry 95), sets the ring's error bit, is
counted and logged. When entries run is log entry 33. -/
def Obligations.RingsAdmitEntries : Prop :=
  ∀ (r : Fin 64) (s : State), s.running = true → s.reachable = true → s.aon.bootStage ≠ 15 → (r : Nat) < s.host.rings.length →
    let x := s.ring r
    (∀ tail, let n := (tail % 2 ^ 32 + 2 ^ 32 - x.head) % 2 ^ 32
      (x.enable = true → n ≤ x.size → Does (.doorbell r tail) s (fun t => t.ring r = { x with tail := tail % 2 ^ 32 } ∧
        t.host.cause = s.host.cause)) ∧
      (x.enable = false ∨ x.size < n → Does (.doorbell r tail) s (fun t => t.ring r = { x with errDoorbell := true } ∧
        bit t.host.cause 4 = true))) ∧
    (s.hostUp = false ∨ x.enable = false ∨ x.head = x.tail → ∀ b, Gives (exec (.ringEntryFetch r b) s) s) ∧
    (s.hostUp = true → x.enable = true → x.head ≠ x.tail →
      Does (.ringEntryFetch r none) s (fun t => t.ring r = { x with head := (x.head + 1) % 2 ^ 32 } ∧ t.host.ops = s.host.ops) ∧
      ∀ b, let e := RingEntry.decode b
        (e.statusAddr = 0 ∨ e.statusAddr % 8 ≠ 0 → Does (.ringEntryFetch r (some b)) s (fun t => (t.ring r).errEntry = true ∧
          t.host.ops = s.host.ops ∧ bit t.host.cause 4 = true)) ∧
        (e.statusAddr ≠ 0 → e.statusAddr % 8 = 0 → e.wellFormed = true → Does (.ringEntryFetch r (some b)) s (fun t =>
          (t.ring r).head = (x.head + 1) % 2 ^ 32 ∧ t.host.nextOp = s.host.nextOp + 1 ∧
          t.op s.host.nextOp = some { ring := r, index := x.head, entry := e } ∧
          (∃ l, t.emitted = s.emitted ++ .status e.statusAddr (statusWord 1 .ok 0) :: l) ∧
          (if s.pick Site.hostReject 0 % 2 = 0 then (t.ring r).errStatus = x.errStatus ∧ t.log = s.log ∧ t.host.dmaErrors = s.host.dmaErrors
          else (t.ring r).errStatus = true ∧ t.host.dmaErrors = inc16 s.host.dmaErrors ∧ bit t.host.cause 4 = true ∧
            t.log.entries.get? s.log.nextSeq = some { kind := 3, island := 94, record := eventRecord s.now 0x0503 e.slice 0 r x.head e.opTag }))) ∧
        (e.statusAddr ≠ 0 → e.statusAddr % 8 = 0 → e.wellFormed = false → Does (.ringEntryFetch r (some b)) s (fun t =>
          t.host.ops = s.host.ops ∧ .status e.statusAddr (statusWord 5 .formatError 0) ∈ t.emitted))) ∧
    Does (.ringEnable r) s (fun t => (t.ring r).enable = true ∧ (x.enable = true → t.ring r = x) ∧
      (x.enable = false → (t.ring r).head = 0 ∧ (t.ring r).tail = 0 ∧ (t.ring r).base = x.base)) ∧
    Does (.ringDisable r) s (fun t => t.ring r = { x with enable := false } ∧ t.host.ops = s.host.ops) ∧
    (∀ v, Does (.irqCauseClear v) s (fun t => ∀ (i : Nat), i < 5 → bit t.host.cause i = (bit s.host.cause i && !bit v i))) ∧
    (∀ v, Does (.logAckWrite v) s (fun t => t.log = { s.log with ackSeq := max s.log.ackSeq (min (v % 2 ^ 64) s.log.nextSeq) }))

/-- An operation has ended: it is off the list, and its status word has been written where it can be (R415, R416). -/
def Sys2Proof.opEnds (id : Nat) (o : LongOp) (st : Nat) (code : Code) (progress : Nat) (t : State) : Prop :=
  t.op id = none ∧ (o.suppressed = false → t.hostUp = true → .status o.entry.statusAddr (statusWord st code progress) ∈ t.emitted)

/-- Slice disable, enable, remove, purge and cancel (R303, R308, R311, R414, R418).
SLICE_DISABLE drains a serving slice and is BUSY elsewhere; SLICE_ENABLE latches on a draining slice, composes a disabled one, and
is OK or BUSY elsewhere; SLICE_REMOVE of a mapped slice is BUSY, drains a serving one, and empties a disabled one; STATE_PURGE
removes the entries of an absent slice and is BUSY elsewhere; CANCEL ends a queued operation, a latched enable, a drive format, a log
read or a catalogue read ABORTED, and is BUSY or MISS otherwise. The deduced cases are log entry 34. -/
def Obligations.SliceOperations : Prop :=
  ∀ (op : Nat) (s s1 : State) (o : LongOp), s.running = true →
    let i := o.entry.slice
    let x := s1.slice i
    i < s1.sch.slices.length →
    (s.startOp 0x02 op = some (o, s1) →
      (x.state = .serving → Does (.sliceDisable op) s (fun t => (t.slice i).state = .draining ∧ (t.slice i).outcome = .disable (some op) ∧
        (t.slice i).drainStart = s.now ∧ t.serving i = false ∧ t.op op = some o)) ∧
      (x.state = .absent ∨ x.state = .composing ∨ x.state = .disabled → Does (.sliceDisable op) s (fun t => opEnds op o 5 .busy 0 t ∧
        t.sch = s1.sch))) ∧
    (s.startOp 0x03 op = some (o, s1) →
      (x.state = .draining → x.outcome.op ≠ some op → Does (.sliceEnable op) s (fun t => (t.slice i).outcome = .enable (some op) none 0 0 ∧
        (t.slice i).state = .draining ∧ t.op op = some { o with code := .pendingEnable, progress := 0 })) ∧
      (x.state = .disabled → x.flashPending = none → Does (.sliceEnable op) s (fun t => (t.slice i).state = .composing ∧ opEnds op o 4 .ok 0 t)) ∧
      (x.state = .absent → Does (.sliceEnable op) s (fun t => t.sch = s1.sch ∧ opEnds op o 5 .busy 0 t)) ∧
      (x.state = .serving ∨ x.state = .composing ∨ x.state = .recomposing → Does (.sliceEnable op) s (fun t => t.sch = s1.sch ∧
        opEnds op o 4 .ok 0 t))) ∧
    (s.startOp 0x04 op = some (o, s1) →
      (s1.mapped i = true → Does (.sliceRemove op) s (fun t => t.sch = s1.sch ∧ opEnds op o 5 .busy 0 t)) ∧
      (s1.mapped i = false → x.state = .serving → Does (.sliceRemove op) s (fun t => (t.slice i).state = .draining ∧
        (t.slice i).outcome = .remove (some op) ∧ t.op op = some o)) ∧
      (s1.mapped i = false → x.state = .disabled → Does (.sliceRemove op) s (fun t => (t.slice i).state = .absent ∧
        (∀ e ∈ t.home.entries, e.slice ≠ i) ∧ opEnds op o 4 .ok 0 t))) ∧
    (s.startOp 0x05 op = some (o, s1) →
      (x.state = .absent → Does (.statePurge op) s (fun t => (∀ e ∈ t.home.entries, e.slice ≠ i) ∧
        opEnds op o 4 .ok (s1.home.entries.filter (fun e => e.slice = i)).length t)) ∧
      (x.state ≠ .absent → Does (.statePurge op) s (fun t => t.home = s1.home ∧ opEnds op o 5 .busy 0 t))) ∧
    (s.startOp 0x0f op = some (o, s1) →
      let named := s1.host.ops.find? (fun p => p.2.ring = o.entry.param 0 1 && p.2.index = o.entry.param 4 4 && p.1 < op)
      (named = none → Does (.cancel op) s (fun t => opEnds op o 5 .miss 0 t)) ∧
      (∀ id y, named = some (id, y) → s1.op id = some y →
        (y.state = 1 ∨ [0x20, 0x40, 0x41].contains y.entry.op = true ∧ y.code ≠ .pendingEnable →
          Does (.cancel op) s (fun t => opEnds op o 4 .ok 0 t ∧ opEnds id y 5 .aborted y.progress t)) ∧
        (y.state ≠ 1 → y.entry.op ≠ 1 → y.code = .pendingEnable → Does (.cancel op) s (fun t => opEnds op o 4 .ok 0 t ∧
          opEnds id y 5 .aborted y.progress t ∧ ∀ j, j < 8 → ∀ c sn d, (t.slice j).state = .draining → (t.slice j).outcome ≠ .enable (some id) c sn d)) ∧
        (y.state ≠ 1 → [1, 0x20, 0x40, 0x41].contains y.entry.op = false → y.code ≠ .pendingEnable → Does (.cancel op) s (fun t => opEnds op o 5 .busy 0 t ∧ t.op id = some y))))

/-- Long operations on keys, drives, owner, manifest, key slots, debug, log and catalogue (R258, R397, R398, R400, R401, R414).
Each operation, when it starts, ends with the status given and the effect: a key created with its answer buffer or removed; a
drive formatted for this node; the owner set once; a valid newer manifest taken and an invalid one refused; a key slot generated
where empty and erased where no slice names it; a 512-bit challenge delivered; debug unlocked only by the owner over the standing
challenge with every slice absent; log entries and catalogue delivered to the buffer. A log read leaves the log as it was, but for
what rejected writes add (log entry 95). The deduced codes are log entry 47. -/
def Obligations.NodeOperations : Prop :=
  ∀ (op : Nat) (s s1 : State) (o : LongOp), s.running = true →
    (s.startOp 0x10 op = some (o, s1) →
      (keyParamsOk o.entry.keyParams = false → Does (.keyCreate op) s (fun t => opEnds op o 5 .formatError 0 t ∧ t.xpt = s1.xpt)) ∧
      (∀ r s2, keyParamsOk o.entry.keyParams = true → s1.createKey o.entry.slice o.entry.keyParams = .ok (r, s2) →
        Does (.keyCreate op) s (fun t => opEnds op o 4 .ok 0 t ∧ t.xpt = s2.xpt ∧
          (o.suppressed = false → t.hostUp = true → .buffer o.entry.bufAddr (leBytes 4 r.1 ++ leBytes 4 0 ++ leBytes 8 r.2) ∈ t.emitted)))) ∧
    (∀ s2, s.startOp 0x11 op = some (o, s1) → s1.removeKey o.entry.slice (o.entry.param 0 4) = .ok s2 →
      Does (.keyRemove op) s (fun t => opEnds op o 4 .ok 0 t ∧
        (t.keysOf (keyKind (o.entry.param 0 4))).get? (keyIndex (o.entry.param 0 4)) = none)) ∧
    (∀ d, s.startOp 0x20 op = some (o, s1) → o.entry.param 0 1 ≤ 15 → s1.mem.drives.get? (o.entry.param 0 1) = some d →
      d.present = true → d.failed = false →
      (∀ c ∈ s1.sch.slices, c.state = .absent ∨ bit c.cfg.tier.flashDrives (o.entry.param 0 1) = false) →
      Does (.driveFormat op) s (fun t => opEnds op o 4 .ok (cdiv d.granules 32768) t ∧ ∃ y, t.mem.drives.get? (o.entry.param 0 1) = some y ∧
        y.formatted = true ∧ y.headerNode = s.nodeId ∧ y.foreign = false ∧ y.outOfUse = false ∧ y.granules = d.granules)) ∧
    (∀ k, s.startOp 0x30 op = some (o, s1) →
      Does (.ownerProvision op none) s (fun t => t.sec = s1.sec ∧ opEnds op o 5 .aborted 0 t) ∧
      (s1.sec.ownerHash = 0 → Does (.ownerProvision op (some k)) s (fun t => t.sec.ownerHash = k ∧ opEnds op o 4 .ok 0 t)) ∧
      (s1.sec.ownerHash ≠ 0 → Does (.ownerProvision op (some k)) s (fun t => t.sec = s1.sec ∧ opEnds op o 5 .rightsFault 0 t))) ∧
    (∀ m, s.startOp 0x31 op = some (o, s1) →
      (manifestOk m = true → s1.ownerSigned m = true → s1.manifestSerial < m.serial → Does (.manifestLoad op (some m)) s (fun t =>
        t.sec.manifest = some m ∧ opEnds op o 4 .ok 0 t)) ∧
      (manifestOk m = false → (∀ x, s1.sec.manifest = some x → x.serial ≠ m.serial) → Does (.manifestLoad op (some m)) s (fun t =>
        t.sec = s1.sec ∧ opEnds op o 5 .rightsFault 0 t))) ∧
    (s.startOp 0x32 op = some (o, s1) → 1 ≤ o.entry.param 0 1 → o.entry.param 0 1 ≤ 63 →
      (s1.sec.slotKeys.get? (o.entry.param 0 1) = none → Does (.keyslotGenerate op) s (fun t =>
        (t.sec.slotKeys.get? (o.entry.param 0 1)).isSome ∧ opEnds op o 4 .ok 0 t)) ∧
      ((s1.sec.slotKeys.get? (o.entry.param 0 1)).isSome → Does (.keyslotGenerate op) s (fun t => t.sec = s1.sec ∧ opEnds op o 5 .busy 0 t))) ∧
    (s.startOp 0x33 op = some (o, s1) → 1 ≤ o.entry.param 0 1 → o.entry.param 0 1 ≤ 63 →
      (∀ x ∈ s1.sch.slices, x.state = .absent ∨ x.cfg.flashKeySlot ≠ o.entry.param 0 1) → Does (.keyslotErase op) s (fun t =>
        t.sec.slotKeys.get? (o.entry.param 0 1) = none ∧ opEnds op o 4 .ok 0 t)) ∧
    (s.startOp 0x34 op = some (o, s1) → Does (.debugChallenge op) s (fun t => ∃ v, t.sec.challenge = some v ∧ v < 2 ^ 512 ∧
      opEnds op o 4 .ok 0 t ∧ (o.suppressed = false → t.hostUp = true → .buffer o.entry.bufAddr (leBytes 64 v) ∈ t.emitted))) ∧
    (∀ k, s.startOp 0x35 op = some (o, s1) →
      let good : Prop := s1.sec.challenge.isSome ∧ s1.sec.ownerHash ≠ 0 ∧ k = s1.sec.ownerHash ∧ s1.aon.failed.contains 95 = false ∧
        ∀ x ∈ s1.sch.slices, x.state = .absent
      (good → Does (.debugUnlock op (some k)) s (fun t => t.sec.unlocked = true ∧ t.sec.challenge = none ∧ opEnds op o 4 .ok 0 t)) ∧
      (¬good → Does (.debugUnlock op (some k)) s (fun t => t.sec.unlocked = s1.sec.unlocked ∧ t.sec.challenge = none ∧
        opEnds op o 5 .rightsFault 0 t))) ∧
    (s.startOp 0x40 op = some (o, s1) →
      let lo := max (o.entry.param 0 8) (s1.log.nextSeq - 65536)
      let n := min (o.entry.param 8 4) (s1.log.nextSeq - lo)
      Does (.logRead op) s (fun t => t.log.ackSeq = s1.log.ackSeq ∧ s1.log.nextSeq ≤ t.log.nextSeq ∧ t.log.nextSeq ≤ s1.log.nextSeq + 3 ∧
        (∀ q, q < s1.log.nextSeq → t.log.nextSeq ≤ q + 65536 → t.log.entries.get? q = s1.log.entries.get? q) ∧
        opEnds op o 4 (if o.entry.param 0 8 < lo ∧ o.entry.param 0 8 < s1.log.nextSeq then .part else .ok) n t ∧
        (n ≠ 0 → o.suppressed = false → t.hostUp = true →
          .buffer o.entry.bufAddr (((List.range n).map (fun i => s1.logBytes (lo + i))).flatten) ∈ t.emitted))) ∧
    (s.startOp 0x41 op = some (o, s1) →
      let l := ((s1.sec.running.map FwImage.catalogueBytes).getD []).take (o.entry.bufLen / 8)
      Does (.catalogueRead op) s (fun t => t.sec = s1.sec ∧ opEnds op o 4 .ok l.length t ∧
        (l ≠ [] → o.suppressed = false → t.hostUp = true → .buffer o.entry.bufAddr l.flatten ∈ t.emitted)))

/-- BITSTREAM_LOAD checks first, then applies whole (R340, R341, R342, R343, R345).
A load without its frames, or with every region fenced, ends ABORTED; one that fails a check ends with the check's code and as many
frames of progress as it has, and changes neither slices, transport nor home, and the failing step and frame are logged; before the
stacks are up it is staged and waits, and later its step 9 is judged on the staged frames, whatever comes with the command; a full
bit-stream sets serial, digest, node, isolation, classes, and composes each slice; a section composes an absent slice, changes a
serving one without interrupting it, and latches on a draining one. Staging in the lowest-numbered unfenced region is log entry 70;
signatures are named by their key (log entry 56). -/
def Obligations.BitstreamsLoad : Prop :=
  ∀ (op : Nat) (s s1 : State) (o : LongOp), s.running = true → s.startOp 0x01 op = some (o, s1) → s1.sch.slices.length = 8 →
    let keeps (t : State) : Prop := t.sch = s1.sch ∧ t.xpt = s1.xpt ∧ t.home = s1.home
    (o.staged = none → Does (.bitstreamLoad op none) s (fun t => keeps t ∧ opEnds op o 5 .aborted o.progress t)) ∧
    (∀ im : BsImage, o.staged = none →
      ((∀ n, n < 8 → s1.stackFenced n = true) → Does (.bitstreamLoad op (some im)) s (fun t => keeps t ∧ opEnds op o 5 .aborted o.progress t)) ∧
      ((∃ n, n < 8 ∧ s1.stackFenced n = false) →
        let b := readStream im
        let len := im.frames.length
        (∀ f, s1.bsCheck (o.entry.param 0 4) b = some f → Does (.bitstreamLoad op (some im)) s (fun t => keeps t ∧ opEnds op o 5 f.2.1 len t ∧
          t.log.entries.get? s1.log.nextSeq = some { kind := 3, island := 94, record := eventRecord s.now 0x0501 0xff f.2.1.num f.1 f.2.2 o.entry.opTag })) ∧
        (s1.bsCheck (o.entry.param 0 4) b = none →
          (s1.aon.stacksUp = false → Gives (exec (.bitstreamLoad op (some im)) s) (s1.stageLoad op im)) ∧
          (∀ e, s1.aon.stacksUp = true → s1.bsStep9 b = e → e ≠ .ok → Does (.bitstreamLoad op (some im)) s (fun t =>
            keeps t ∧ opEnds op o 5 e len t)) ∧
          (s1.aon.stacksUp = true → s1.bsStep9 b = .ok → b.kind = 0 → Does (.bitstreamLoad op (some im)) s (fun t =>
            t.sch.bsLoaded = true ∧ t.sch.bsSerial = b.serial ∧ t.sch.bsDigest = b.bodyDigest ∧ t.nodeId = b.node.nodeId ∧
            t.xpt.isolation = b.isolation ∧ t.sch.classMap = b.classMap ∧ (∀ (c : Nat × SliceCfg), c ∈ b.slices →
              (t.slice c.1).state = .composing ∧ (t.slice c.1).cfg = c.2 ∧ (t.slice c.1).serial = b.serial))) ∧
          (∀ i c, s1.aon.stacksUp = true → s1.bsStep9 b = .ok → b.kind = 1 → b.slices = [(i, c)] →
            ((s1.slice i).state = .absent → Does (.bitstreamLoad op (some im)) s (fun t => (t.slice i).state = .composing ∧
              (t.slice i).cfg = c ∧ (t.slice i).serial = b.serial ∧ t.sch.bsSerial = s1.sch.bsSerial)) ∧
            ((s1.slice i).state = .serving → c = s1.cfg i → Does (.bitstreamLoad op (some im)) s (fun t => (t.slice i).state = .serving ∧
              (t.slice i).cfg = c ∧ (t.slice i).serial = b.serial ∧ opEnds op o 4 .ok len t)) ∧
            ((s1.slice i).state = .serving → c ≠ s1.cfg i → Does (.bitstreamLoad op (some im)) s (fun t => t.serving i = true ∧
              (t.slice i).serial = b.serial ∧ (t.slice i).cfg.format = c.format)) ∧
            ((s1.slice i).state = .draining → (s1.slice i).outcome.op ≠ some op → Does (.bitstreamLoad op (some im)) s (fun t =>
              (t.slice i).state = .draining ∧ (t.slice i).outcome = .enable (some op) (some c) b.serial b.bodyDigest)))))) ∧
    (∀ x, o.staged = some x → ∀ y : Option BsImage,
      let b := readStream x.2
      (s1.aon.stacksUp = false → Gives (exec (.bitstreamLoad op y) s) s1) ∧
      (∀ e, s1.aon.stacksUp = true → s1.bsStep9 b = e → e ≠ .ok → Does (.bitstreamLoad op y) s (fun t => keeps t ∧ opEnds op o 5 e o.progress t)) ∧
      (s1.aon.stacksUp = true → s1.bsStep9 b = .ok → b.kind = 0 → Does (.bitstreamLoad op y) s (fun t =>
        t.sch.bsLoaded = true ∧ t.sch.bsSerial = b.serial ∧ t.xpt.isolation = b.isolation)))

/-- BAR0 reads and writes: served, held, timed out or unsupported (R399, R410, R421).
A request of another size or alignment completes Unsupported and is counted; a register absent in recovery reads 0 and ignores
writes; one of a stopped island holds the access; a served read returns the register's value at that moment, then clears the read-
clear fields wholly within it (TOP_HOSTERR's two or four), and changes nothing else where there are none; a served write sets
TOP_BAR2, the host cap or the acknowledgement, and nothing where read-only; a held read that has waited 50 microseconds completes
with all ones and is counted. Which islands stop a block's registers is log entry 44. -/
def Obligations.RegistersAreServed : Prop :=
  ∀ (off size : Nat) (s : State), s.running = true →
    (s.reachable = true → accessOk off size = false →
      Does (.rcRegisterRead off size) s (fun t => t.host = { s.host with linkUp := true, bar0Ur := inc16 s.host.bar0Ur } ∧
        t.emitted = s.emitted ++ [.unsupported off size]) ∧
      ∀ v, Does (.registerWrite off size v) s (fun t => t.host = { s.host with linkUp := true, bar0Ur := inc16 s.host.bar0Ur } ∧
        t.emitted = s.emitted ++ [.unsupported off size])) ∧
    (s.reachable = true → accessOk off size = true → s.regPresent off = false →
      Does (.rcRegisterRead off size) s (fun t => t = { s.linked with emitted := s.emitted ++ [.regRead off size 0] }) ∧
      ∀ v, Does (.registerWrite off size v) s (fun t => t = s.linked)) ∧
    (s.reachable = true → accessOk off size = true → s.regPresent off = true → s.regStopped off = true →
      Does (.rcRegisterRead off size) s (fun t => t.emitted = s.emitted ∧ t.host.heldReads = s.host.heldReads ++ [(off, size, s.now)]) ∧
      ∀ v, Does (.registerWrite off size v) s (fun t => t.emitted = s.emitted ∧ t.host.heldWrites = s.host.heldWrites ++ [(off, size, v)])) ∧
    (s.reachable = true → accessOk off size = true → s.regPresent off = true → s.regStopped off = false →
      Does (.rcRegisterRead off size) s (fun t => t.emitted = s.emitted ++ [.regRead off size (s.linked.regRead off size)] ∧
        t.mem.cells = s.mem.cells ∧ t.home.entries = s.home.entries ∧ t.aon = s.aon ∧ t.sec = s.sec ∧
        (off = 0x68 → t.host.regTimeouts = 0 ∧ t.host.bar0Ur = 0 ∧
          (t.host.bar2Discards, t.host.dmaErrors) = if size = 8 then (0, 0) else (s.host.bar2Discards, s.host.dmaErrors)) ∧
        ((∀ f ∈ rcFields (off / 8 * 8), f.lo < 8 * (off % 8) ∨ 8 * (off % 8) + 8 * size ≤ f.hi) →
          t = { s.linked with emitted := s.emitted ++ [.regRead off size (s.linked.regRead off size)] })) ∧
      ∀ v, (off = 0x18 → Does (.registerWrite off size v) s (fun t => t =
          { s with host := { s.host with linkUp := true, bar2Base := v % 16, bar2WrEnable := bit v 4 } })) ∧
        (off = 0x100008 → Does (.registerWrite off size v) s (fun t => t.pwr = { s.pwr with capHost := v % 1024 } ∧ t.mem = s.mem)) ∧
        (off = 0x300010 → size = 8 → s.log.ackSeq < 2 ^ 64 → Does (.registerWrite off size v) s (fun t =>
          t.log = { s.log with ackSeq := max s.log.ackSeq (min (v % 2 ^ 64) s.log.nextSeq) })) ∧
        (off = 0x10 → Does (.registerWrite off size v) s (fun t => t = s.linked))) ∧
    ((∀ x ∈ s.host.heldReads, x.1 = off → x.2.1 = size → s.now < x.2.2 + 50000) → Gives (exec (.regReadTimeout off size) s) s) ∧
    (∀ at0, (off, size, at0) ∈ s.host.heldReads → at0 + 50000 ≤ s.now → Does (.regReadTimeout off size) s (fun t =>
      t.emitted = s.emitted ++ [.regRead off size (2 ^ (8 * size) - 1)] ∧ t.host.regTimeouts = inc16 s.host.regTimeouts ∧
      t.host.heldReads.length + 1 = s.host.heldReads.length ∧ t.log = s.log ∧ t.pwr = s.pwr))

/-- The BAR2 window reads and writes stack bytes, within 256 bytes (R60, R133, R411, R432).
Before the stacks are up a read returns zeros and a write is dropped; a reserved or unimplemented address reads zeros, writes
nothing, and is logged; a fenced stack reads zeros and a write is logged; otherwise the access takes a slot of its region and a read
returns the bytes, and a write stores exactly its bytes, with every other byte unchanged; an access whose bank is in an active window
joins the queue; with writes disabled, a write is counted and discarded. Splitting at 256 bytes is log entry 50, slots log entry 63. -/
def Obligations.StackWindowShowsMemory : Prop :=
  ∀ (x len : Nat) (data : List Byte) (s : State), s.running = true → s.reachable = true → s.aon.bootStage ≠ 15 → 0 < len →
    data.length = len → s.bar2Addr x % 256 + len ≤ 256 →
    let a := s.bar2Addr x
    let n := addrStack a
    let fenced := s.stackFenced n
    let s1 := s.linked.takeStack 4 a
    let q (t : State) : List CqEntry := (t.nbu.getD n {}).queued
    let zeros : List Byte := List.replicate len 0
    let wr := s.host.bar2WrEnable
    (pageSpace a = false → Does (.bar2Read x len) s (fun t => .memRead a zeros ∈ t.emitted ∧ t.log.nextSeq = s.log.nextSeq + 1 ∧ t.mem = s.mem) ∧
      Does (.bar2Write x data) s (fun t => t.mem = s.mem ∧ t.log.nextSeq = s.log.nextSeq + 1)) ∧
    (s.aon.stacksUp = false → pageSpace a = true →
      Does (.bar2Read x len) s (fun t => t = { s.linked with emitted := s.emitted ++ [.memRead a zeros] }) ∧
      (wr = true → fenced = false → Does (.bar2Write x data) s (fun t => t = s.linked))) ∧
    (pageSpace a = true → fenced = true →
      Does (.bar2Read x len) s (fun t => t.emitted = s.emitted ++ [.memRead a zeros] ∧ t.mem = s.mem ∧ t.log = s.log) ∧
      Does (.bar2Write x data) s (fun t => t.mem = s.mem ∧ t.log.nextSeq = s.log.nextSeq + 1)) ∧
    (s.aon.stacksUp = true → pageSpace a = true → fenced = false → s1.collides a = false →
      Does (.bar2Read x len) s (fun t => t = { s1 with emitted := s1.emitted ++ [.memRead a (s1.memReadN a len)] }) ∧
      (wr = true → s1.MemOk → (∀ c ∈ q s1, ∀ b v, a ≤ b → b < a + len → c.newest b v = v) → Does (.bar2Write x data) s (fun t =>
        t.log = s.log ∧ t.emitted = s.emitted ∧ t.home = s.home ∧
        (∀ i, i < len → t.memRead (a + i) = data.getD i 0) ∧ ∀ b, b < a ∨ a + len ≤ b → t.memRead b = s1.memRead b))) ∧
    (s.aon.stacksUp = true → pageSpace a = true → fenced = false → s1.collides a = true → n < s.nbu.length →
      Does (.bar2Read x len) s (fun t => t.emitted = s.emitted ∧ t.mem = s.mem ∧ (q t).length = (q s1).length + 1) ∧
      (wr = true → Does (.bar2Write x data) s (fun t => t.mem = s.mem ∧ ∃ c ∈ q t, c.addr = a ∧ c.job = .write data))) ∧
    (wr = false → pageSpace a = true → fenced = false → Does (.bar2Write x data) s (fun t =>
      t = { s with host := { s.host with linkUp := true, bar2Discards := inc16 s.host.bar2Discards } }))

/-- FLR, link down and D3hot reset the endpoint and nothing else (R406, R407, R428).
With no load whose frames are still being read, FUNCTION_LEVEL_RESET and PCIE_LINK_DOWN reset TOP registers, rings and causes, keep running
operations with their writes suppressed and held writes, and change no other part of the node; a load that is not yet staged
ends with no slice changed; D3HOT_TRANSITION sets the power state of the endpoint alone. That a later request shows the link up
again is log entry 45. -/
def Obligations.EndpointResetsKeepTheNode : Prop :=
  ∀ (s : State), s.running = true →
    let kept (t : State) : Prop := t.host.bar2WrEnable = false ∧ t.host.cause = 0 ∧ t.host.heldReads = [] ∧ t.host.heldWrites = s.host.heldWrites ∧
      t.host.nextOp = s.host.nextOp ∧ (∀ r, r < 64 → (t.ring r).enable = false) ∧
      t.host.ops = s.host.ops.map (fun o => (o.1, { o.2 with suppressed := true })) ∧
      t.aon = s.aon ∧ t.ras = s.ras ∧ t.pwr = s.pwr ∧ t.sec = s.sec ∧ t.log = s.log ∧ t.sch = s.sch ∧ t.mem = s.mem ∧ t.home = s.home ∧ t.xpt = s.xpt ∧ t.eth = s.eth
    ((∀ o ∈ s.host.ops, o.2.entry.op = 1 → o.2.state = 2 → o.2.pastStep9 = true ∨ o.2.staged.isSome = true) →
      (s.host.lost = false → Does .functionLevelReset s (fun t => kept t ∧ t.host.linkUp = true ∧ t.host.lost = false)) ∧
      Does .pcieLinkDown s (fun t => kept t ∧ t.host.linkUp = false ∧ t.hostUp = false ∧ t.host.lost = s.host.lost)) ∧
    (∀ k o, s.host.ops.get? k = some o → (s.host.ops.map Prod.fst).Nodup → o.entry.op = 1 → o.state = 2 → o.pastStep9 = false → o.staged = none →
      Does .pcieLinkDown s (fun t => t.op k = none ∧ t.sch = s.sch) ∧
      (s.host.lost = false → Does .functionLevelReset s (fun t => t.op k = none ∧ t.sch = s.sch))) ∧
    (∀ b, s.host.lost = false → 4 ≤ s.aon.bootStage → Does (.d3hotTransition b) s (fun t =>
      t = { s with host := { s.host with linkUp := true, d3 := b } }))

/-- The recovery push takes chunks in order, authenticates, writes and resets (R394, R399, R405).
RECOVERY_CHUNK_GO outside recovery or without host changes nothing; the next chunk in order is taken; one out of order, empty or
too long ends the push with FORMAT_ERROR; the last one leaves the image pushed where it passes the checks and RIGHTS_FAULT where
check 2 or later fails; while an image is being handled, no chunk changes it. RECOVERY_FLASH_WRITTEN puts the pushed image in boot
flash, clears the request and restarts the node with its keys and fuses. The codes are log entry 46. -/
def Obligations.RecoveryTakesAnImage : Prop :=
  ∀ (i len : Nat) (last : Bool) (image : Option FwImage) (s : State), s.running = true →
    let n := if s.sec.recState = 1 then s.sec.nextChunk else 0
    (s.aon.bootStage ≠ 15 ∨ s.hostUp = false → Gives (exec (.recoveryChunkGo i len last image) s) s) ∧
    (s.aon.bootStage = 15 → s.hostUp = true → i < 128 → (s.sec.recState < 2 ∨ 4 < s.sec.recState) →
      (0 < len → len ≤ 262144 → i = n → last = false → Does (.recoveryChunkGo i len last image) s (fun t => t.sec.recState = 1 ∧
        t.sec.nextChunk = i + 1 ∧ t.sec.recLen = (if i = 0 then 0 else s.sec.recLen) + len ∧ t.sec.image = s.sec.image ∧ t.aon = s.aon)) ∧
      (len = 0 ∨ (262144 < len ∧ len < 524288) ∨ i ≠ n → Does (.recoveryChunkGo i len last image) s (fun t => t.sec.recState = 5 ∧
        t.sec.recStatus = Code.formatError.num ∧ t.sec.nextChunk = 0 ∧ t.sec.image = s.sec.image)) ∧
      (0 < len → len ≤ 262144 → i = n → last = true → ∀ im, image = some im →
        (s.sec.imageCheck im = 0 → Does (.recoveryChunkGo i len last image) s (fun t => t.sec.recState = 3 ∧ t.sec.pushed = some im)) ∧
        (1 < s.sec.imageCheck im → Does (.recoveryChunkGo i len last image) s (fun t => t.sec.recState = 5 ∧
          t.sec.recStatus = Code.rightsFault.num ∧ t.sec.pushed = none)))) ∧
    (2 ≤ s.sec.recState → s.sec.recState ≤ 4 → Does (.recoveryChunkGo i len last image) s (fun t => t.sec.recState = s.sec.recState ∧
      t.sec.pushed = s.sec.pushed ∧ t.sec.image = s.sec.image)) ∧
    (s.sec.recState = 3 → Does .recoveryFlashWritten s (fun t => t.sec.image = s.sec.pushed ∧ t.sec.recoveryReq = false ∧
      t.aon.bootStage = 0 ∧ t.aon.releasedAt = s.now ∧ t.sec.svn = s.sec.svn ∧ t.sec.slotKeys = s.sec.slotKeys ∧ t.aon.now = s.aon.now)) ∧
    (s.sec.recState ≠ 3 → Gives (exec .recoveryFlashWritten s) s)

/-- The SPDM responder answers in order (codes of SPDM 1.2: log entry 48) (R402, R403, R404).
While the security engine is there: GET_VERSION answers and restarts negotiation; capabilities, algorithms, digests, certificate,
challenge and measurements answer in that order of requests and are refused out of it; only slot 0 and measurement indices 0 to 15
and 255 are served; signed answers carry a free signature; anything else is refused as unsupported. Codes, bit numbers and the
order come from SPDM 1.2, outside the spec (log entry 48). -/
def Obligations.SpdmRequestsAnswer : Prop :=
  ∀ (s : State), s.running = true → s.aon.failed.contains 95 = false →
    let ready := s.sec.spdmAlgs
    let answers (c : Instr) (code : Nat) (body : List Nat) : Prop := Does c s (fun t => t.emitted = s.emitted ++ [.spdm code body] ∧
      t.host = s.host ∧ t.mem = s.mem ∧ t.sch = s.sch ∧ t.log = s.log ∧ t.sec.spdmAlgs = s.sec.spdmAlgs)
    let refuses (c : Instr) (code request : Nat) : Prop := Gives (exec c s) { s with emitted := s.emitted ++ [.spdm 0x7f [code, request]] }
    Does .getVersion s (fun t => t.emitted = s.emitted ++ [.spdm 0x04 [0x12]] ∧ t.sec.spdmVersion = true ∧ t.sec.spdmCaps = false ∧
      t.sec.spdmAlgs = false ∧ t.sec.image = s.sec.image ∧ t.sec.manifest = s.sec.manifest) ∧
    (s.sec.spdmVersion = true → Does .getCapabilities s (fun t => t.emitted = s.emitted ++ [.spdm 0x61 [0x36]] ∧ t.sec = { s.sec with spdmCaps := true })) ∧
    (s.sec.spdmVersion = false → refuses .getCapabilities 0x04 0xe1) ∧
    (∀ asym hash, (s.sec.spdmCaps = true → Does (.negotiateAlgorithms asym hash) s (fun t =>
        (t.sec.spdmAlgs = true ↔ bit asym 8 = true ∧ bit hash 2 = true) ∧
        t.emitted = s.emitted ++ [.spdm 0x63 [if bit asym 8 then 0x100 else 0, if bit hash 2 then 4 else 0, 8]])) ∧
      (s.sec.spdmCaps = false → refuses (.negotiateAlgorithms asym hash) 0x04 0xe3)) ∧
    (ready = true → answers .getDigests 0x01 [1, certDigest] ∧ answers (.getCertificate 0) 0x02 [0, certChain] ∧
      (∀ slot, slot ≠ 0 → refuses (.getCertificate slot) 0x01 0x82 ∧ ∀ nonce, refuses (.challenge slot nonce) 0x01 0x83) ∧
      ∀ nonce, answers (.challenge 0 nonce) 0x03 [0, certDigest, nonce, s.pick Site.signature 0] ∧
        answers (.getMeasurements 0 nonce) 0x60 [15, nonce, s.pick Site.signature 0] ∧
        (∀ i, 1 ≤ i → i ≤ 15 → answers (.getMeasurements i nonce) 0x60 (i :: s.measurement i ++ [nonce, s.pick Site.signature 0])) ∧
        answers (.getMeasurements 0xff nonce) 0x60 (((List.range 15).map (· + 1)).flatMap (fun i => i :: s.measurement i) ++ [nonce, s.pick Site.signature 0]) ∧
        (∀ i, 15 < i → i ≠ 0xff → refuses (.getMeasurements i nonce) 0x01 0xe0)) ∧
    (ready = false → refuses .getDigests 0x04 0x81 ∧ (∀ slot, refuses (.getCertificate slot) 0x04 0x82 ∧
      ∀ nonce, refuses (.challenge slot nonce) 0x04 0x83 ∧ refuses (.getMeasurements slot nonce) 0x04 0xe0)) ∧
    (∀ code, refuses (.spdmUnsupported code) 0x07 code)

/-- Apex evaluations, shifts and clocks follow the limits (R373, R374, R378, R379, R380, R383, R384).
POWER_SHIFT orders or ends a shift and answers the effective cap, measured power and state; SHIFT_EXPIRY ends one that is due;
VOLTAGE_SETTLED moves the block clock and each region clock without an active window. APEX_EVALUATION sets P_10 from model or the
larger of model and measurement under divergence, moves at most one state, down where P_10 exceeds 950 W, the 100 ms mean exceeds
the cap or the current exceeds its limit, and up exactly where nothing binds and every margin holds; the activity's energy goes
whole to the accounts that share its source. Units and rounding are log entry 43, the shares of a port log entry 71. -/
def Obligations.LimitsMoveThePowerState : Prop :=
  ∀ (s : State), s.running = true →
    (∀ h c capW ms s2, managed h (.powerShift h c capW ms) 2 6 (Machine.shiftOk capW ms) c (fun _ => .ok) s = some s2 → s2.serialIs c ≠ .same →
      Does (.powerShift h c capW ms) s (fun t => t.pwr.shift = (if ms = 0 then none else some (capW, s2.now + ms * 1000000)) ∧
        t.cap = (if ms = 0 then t.pwr.hostCap else capW) ∧ t.pwr.pstate = s2.pwr.pstate ∧
        lastResponse t h.pkt.qpn = some (10, 2, .ok, .shift t.cap ((s2.pwr.core.meas + s2.pwr.stack.meas) / 1000) s2.pwr.pstate))) ∧
    (∀ x, s.pwr.shift = some x →
      (x.2 ≤ s.now → Does .shiftExpiry s (fun t => t = { s with pwr := { s.pwr with shift := none } } ∧ t.cap = s.pwr.hostCap)) ∧
      (s.now < x.2 → Gives (exec .shiftExpiry s) s)) ∧
    (s.pwr.regionClk.length = 8 → Does .voltageSettled s (fun t => t.pwr.settling = false ∧ t.pwr.blockClk = s.pwr.pstate ∧
      t.pwr.pstate = s.pwr.pstate ∧ ∀ n, n < 8 → t.pwr.regionClk.getD n 0 =
        if (s.nbu.getD n {}).wins.any (fun w => w.2.active) then s.pwr.regionClk.getD n 0 else s.pwr.pstate)) ∧
    (s.pwr.apexDown = true → ∀ act, Gives (exec (.apexEvaluation act) s) s) ∧
    (s.pwr.apexDown = false → s.pwr.pstate ≤ 7 → ∀ act,
      let m := powerOf (act.map s.pwr.coreEnergy).sum
      let k := powerOf (act.map s.pwr.stackEnergy).sum
      let core := if s.pwr.core.raised then max m s.pwr.telCore else m
      let p10 := core + (if s.pwr.stack.raised then max k s.pwr.telStack else k)
      let avg := mean ((p10 :: s.pwr.p100.map Prod.fst).take 10000)
      let amps := s.pwr.currentOf core
      Does (.apexEvaluation act) s (fun t => t.pwr.p10 = p10 ∧ t.pwr.pstate ≤ s.pwr.pstate + 1 ∧ s.pwr.pstate ≤ t.pwr.pstate + 1 ∧
        t.pwr.pstate ≤ 7 ∧ t.mem = s.mem ∧ t.home = s.home ∧ t.aon = s.aon ∧
        (950000 < p10 → t.pwr.pstate = min 7 (s.pwr.pstate + 1) ∧ (if 950000 < m + k then t.throttled 3 0xff else t.throttled 7 0xff) = true) ∧
        (s.cap * 1000 < avg → t.pwr.pstate = min 7 (s.pwr.pstate + 1)) ∧
        (s.ras.currentLimit < amps → t.pwr.pstate = min 7 (s.pwr.pstate + 1)) ∧
        (p10 ≤ 950000 → avg ≤ s.cap * 1000 → p10 ≤ s.cap * 1000 → amps ≤ s.ras.currentLimit → s.throttled 5 0xff = false →
          t.pwr.pstate ≤ s.pwr.pstate ∧ (∀ r, r ∈ [1, 2, 3, 4, 7, 8] → t.throttled r 0xff = false) ∧
          (t.pwr.pstate < s.pwr.pstate ↔ s.throttled 10 0xff = false ∧ s.aon.coolantPin = false ∧ s.pwr.settling = false ∧ 0 < s.pwr.pstate ∧
            s.pwr.lastUp + 1000000 ≤ s.now ∧ avg * 100 ≤ 95 * (s.cap * 1000) ∧ p10 * 100 ≤ 95 * (s.cap * 1000) ∧
            amps * 100 ≤ 95 * s.ras.currentLimit ∧ (∀ x ∈ s.pwr.temps, x < 776) ∧ ∀ x ∈ s.pwr.caseTemps, x ≤ 696)))) ∧
    (s.pwr.apexDown = false → s.pwr.energy.length = 9 → ∀ a : Activity,
      let e := s.pwr.core.charge (s.pwr.coreEnergy a) + s.pwr.stack.charge (s.pwr.stackEnergy a)
      let l := s.shares e a.source
      (l.map Prod.snd).sum = e ∧ (∀ x ∈ l, x.1 < 9) ∧
      Does (.apexEvaluation [a]) s (fun t => ∀ i, i < 9 → t.pwr.energy.getD i 0 =
        s.pwr.energy.getD i 0 + ((l.filter (fun x => x.1 = i)).map Prod.snd).sum))

/-- Telemetry is summed, faulty phases are swapped, and divergence is judged (R355, R377, R378, R388).
TELEMETRY_SAMPLE takes core and stack power, adds their energy (to the node account while Apex is down), and replaces a faulted
phase by a spare where one is left; MODEL_COMPARISON, with samples of both and Apex up, judges core and stacks: beyond 15 percent
of the measurement 11 times in a row raises, within it 100 times clears, and each change is logged; otherwise it does nothing.
Units are log entry 43. -/
def Obligations.DivergenceIsJudged : Prop :=
  ∀ (s : State), s.running = true →
    (∀ x : Telemetry, let core := x.coreMv * x.coreMa / 1000
      let e := (core + x.stackMw) * (s.now - s.pwr.telAt) * 1000
      Does (.telemetrySample x) s (fun t => t.pwr.telCore = core ∧ t.pwr.telStack = x.stackMw ∧ t.pwr.telAt = s.now ∧
        t.pwr.measCoreSum = s.pwr.measCoreSum + core ∧ t.pwr.measStackSum = s.pwr.measStackSum + x.stackMw ∧
        t.pwr.measN = s.pwr.measN + 1 ∧ t.pwr.energyMeas = s.pwr.energyMeas + e ∧
        (s.pwr.apexDown = false → t.pwr.energy = s.pwr.energy) ∧
        (s.pwr.apexDown = true → s.pwr.energy.length = 9 → t.pwr.energy.getD 8 0 = s.pwr.energy.getD 8 0 + e) ∧
        (x.phaseMa = [] → x.faultedPhase = none → t.ras = s.ras) ∧
        (∀ n, x.phaseMa = [] → x.faultedPhase = some n → s.ras.phasesOn.contains (n : Nat) = true → (n : Nat) ∈ t.ras.phasesBad ∧
          (32 ∉ s.ras.phasesOn → 32 ∉ s.ras.phasesBad →
            t.ras.phasesOn = s.ras.phasesOn.filter (· ≠ (n : Nat)) ++ [32] ∧ .phase 32 true ∈ t.emitted) ∧
          ((∀ k, k ∈ [32, 33, 34, 35] → k ∈ s.ras.phasesOn ∨ k ∈ s.ras.phasesBad) →
            t.ras.phasesOn = s.ras.phasesOn.filter (· ≠ (n : Nat)) ∧ .phase n false ∈ t.emitted)))) ∧
    (s.pwr.apexDown = true ∨ s.pwr.sumN = 0 ∨ s.pwr.measN = 0 → Gives (exec .modelComparison s) s) ∧
    (s.pwr.apexDown = false → s.pwr.sumN ≠ 0 → s.pwr.measN ≠ 0 →
      let judged (old new : Diverge) (model meas : Nat) : Prop :=
        let out := 15 * meas < 100 * (max model meas - min model meas)
        new.model = model ∧ new.meas = meas ∧ (out → new.overs = old.overs + 1 ∧ new.clean = 0) ∧
        (¬ out → new.overs = 0 ∧ new.clean = old.clean + 1) ∧
        (old.raised = false → (new.raised = true ↔ out ∧ 10 ≤ old.overs)) ∧ (old.raised = true → (new.raised = false ↔ ¬ out ∧ 99 ≤ old.clean))
      Does .modelComparison s (fun t =>
        judged s.pwr.core t.pwr.core (s.pwr.coreSum / s.pwr.sumN) (s.pwr.measCoreSum / s.pwr.measN) ∧
        judged s.pwr.stack t.pwr.stack (s.pwr.stackSum / s.pwr.sumN) (s.pwr.measStackSum / s.pwr.measN) ∧
        t.pwr.sumN = 0 ∧ t.pwr.measN = 0 ∧
        t.log.nextSeq = s.log.nextSeq + b2n (t.pwr.core.raised != s.pwr.core.raised) + b2n (t.pwr.stack.raised != s.pwr.stack.raised)))

/-- Junction and case temperatures limit, and trip the node (R381, R382, R454).
An island at 115 degrees or a case at 105 trips the node: latched, every island but 98 stopped, the flush abandoned, the pin
driven. Below that, with Apex up: an island at 100 opens the junction episode, at 105 forces P7, at 108 stops the blocks until all
are below 100; a case at 90 limits classes 2 to 5 of its stack to 50 percent, at 93 to 25, and below 87 lifts. Between 87 and 90
the limit stays (log entry 43). -/
def Obligations.HeatLimitsAndTrips : Prop :=
  ∀ (temps : List Int) (s : State), s.running = true →
    let trips (t : State) : Prop := t.aon.phase = .tripped ∧ t.aon.thermTrip = true ∧ t.running = false ∧ t.pwr.flushBusy = false ∧
      (∀ i, i < 100 → i ≠ 98 → i ∈ t.aon.stopped) ∧ t.emitted = s.emitted ++ [.thermTrip] ∧ t.mem = s.mem
    ((∃ x ∈ temps, 920 ≤ x) → Does (.junctionSample temps) s trips) ∧
    ((∃ x ∈ temps, 840 ≤ x) → Does (.stackCaseSample temps) s trips) ∧
    ((∀ x ∈ temps, x < 920) → s.pwr.apexDown = true → Does (.junctionSample temps) s (fun t => t = { s with pwr := { s.pwr with temps := temps } })) ∧
    ((∀ x ∈ temps, x < 920) → s.pwr.apexDown = false → s.pwr.pstate ≤ 7 → Does (.junctionSample temps) s (fun t =>
      t.pwr.temps = temps ∧ t.aon = s.aon ∧ (t.throttled 5 0xff = true ↔ ∃ x ∈ temps, 800 ≤ x) ∧
      ((∃ x ∈ temps, 840 ≤ x) → t.pwr.pstate = 7) ∧ ((∀ x ∈ temps, x < 840) → t.pwr.pstate = s.pwr.pstate) ∧
      ((∃ x ∈ temps, 864 ≤ x) → t.pwr.blocksHot = true) ∧ ((∀ x ∈ temps, x < 800) → t.pwr.blocksHot = false) ∧
      ((∀ x ∈ temps, x < 864) → (∃ x ∈ temps, 800 ≤ x) → t.pwr.blocksHot = s.pwr.blocksHot))) ∧
    ((∀ x ∈ temps, x < 840) → s.pwr.apexDown = false → s.pwr.caseLimit.length = 8 → temps.length = 8 → Does (.stackCaseSample temps) s (fun t =>
      t.pwr.caseTemps = temps ∧ t.aon = s.aon ∧ t.pwr.pstate = s.pwr.pstate ∧ ∀ n, n < 8 →
        let x := temps.getD n 0
        let v := t.pwr.caseLimit.getD n 100
        (744 ≤ x → v = 25) ∧ (720 ≤ x → x < 744 → v = 50) ∧ (x < 696 → v = 100) ∧ (696 ≤ x → x < 720 → v = s.pwr.caseLimit.getD n 100) ∧
        (t.throttled 6 n = true ↔ v < 100)))

/-- Regulator and coolant faults, the persistence flush, Apex and Vertex losses (R366, R385, R386, R387, R388, R389).
VR_ALERT_ASSERT and COOLANT_FAULT force P7, open their episode, raise the cause and start a flush unless one runs; COOLANT_FAULT
also stops its islands and takes every port down. Their ends act 10 ms and 1 s after the last assertion, and not before.
PERSIST_FLUSH_COMPLETE with a drive present leaves an image of the flushable entries, live sequences, map and log, marked on its
drives, and without one leaves the image as it was. APEX_HEARTBEAT_TIMEOUT forces P7 with comparisons afresh until
APEX_RESTART_DONE. VERTEX_LOSS fences the node with its first cause standing. Restart times are log entry 43. -/
def Obligations.FaultPinsForceP7AndFlush : Prop :=
  ∀ (s : State), s.running = true → s.pwr.pstate ≤ 7 →
    let flushes (t : State) : Prop := t.pwr.flushBusy = true ∧ (if s.pwr.flushBusy then t.pwr.flushStamp = s.pwr.flushStamp
      else t.pwr.flushStamp = s.now ∧ t.pwr.flushDone = false ∧ .flushStart ∈ t.emitted ∧ ∀ d ∈ t.mem.drives, d.2.mark = false)
    Does .vrAlertAssert s (fun t => t.aon = { s.aon with vrPin := true, vrAt := s.now } ∧ t.pwr.pstate = 7 ∧ t.throttled 10 0xff = true ∧
      bit t.host.cause 3 = true ∧ flushes t) ∧
    (s.aon.vrPin = true → s.aon.vrAt + 10000000 ≤ s.now → Does .vrAlertClear s (fun t => t.aon = { s.aon with vrPin := false } ∧
      t.pwr.flushBusy = s.pwr.flushBusy ∧ t.throttled 10 0xff = (s.pwr.flushBusy && s.throttled 10 0xff))) ∧
    (s.aon.vrPin = false ∨ s.now < s.aon.vrAt + 10000000 → Gives (exec .vrAlertClear s) s) ∧
    Does .coolantFault s (fun t => t.aon.coolantPin = true ∧ t.aon.coolantAt = s.now ∧ (∀ i ∈ coolantIslands, i ∈ t.aon.stopped) ∧
      (∀ i ∈ t.aon.stopped, i ∈ s.aon.stopped ∨ i ∈ coolantIslands) ∧ (∀ p, p < 8 → (t.port p).linkUp = false) ∧
      t.pwr.pstate = 7 ∧ t.throttled 9 0xff = true ∧ flushes t) ∧
    (s.aon.coolantPin = true → s.aon.coolantAt + 1000000000 ≤ s.now → Does .coolantRestart s (fun t => t.aon.coolantPin = false ∧
      (∀ i ∈ t.aon.stopped, i ∈ s.aon.stopped ∧ i ∉ coolantIslands) ∧ t.throttled 9 0xff = false ∧ t.pwr.pstate = s.pwr.pstate)) ∧
    (s.aon.coolantPin = false ∨ s.now < s.aon.coolantAt + 1000000000 → Gives (exec .coolantRestart s) s) ∧
    (s.pwr.flushBusy = false → Gives (exec .persistFlushComplete s) s) ∧
    (s.pwr.flushBusy = true → let present := s.mem.drives.any (fun d => d.2.usable)
      Does .persistFlushComplete s (fun t => t.pwr.flushBusy = false ∧ t.home = s.home ∧ (s.aon.vrPin = false → t.throttled 10 0xff = false) ∧
        (present = false → t.image = s.image ∧ t.mem = s.mem) ∧
        (present = true → t.pwr.flushDone = true ∧ .flushMark ∈ t.emitted ∧ ∃ i, t.image = some i ∧ i.stamp = s.pwr.flushStamp ∧
          (∀ e ∈ i.entries, e.frameState = .flash ∧ e.hullValid = false ∧ e.shadowValid = false ∧ e.writeValid = false ∧ e.pinCount = 0) ∧
          (∀ r ∈ i.seqs, r ∈ s.home.seqs ∧ (r.seqState = 1 ∨ r.seqState = 2)) ∧ i.cur = s.home.cur ∧ i.log = s.log ∧
          ∀ d ∈ i.drives, ∃ x, t.mem.drives.get? d = some x ∧ x.mark = true))) ∧
    (s.pwr.apexDown = true → Gives (exec .apexHeartbeatTimeout s) s) ∧
    (s.pwr.apexDown = false → Gives (exec .apexRestartDone s) s ∧ Does .apexHeartbeatTimeout s (fun t => t.pwr.apexDown = true ∧
      t.pwr.pstate = 7 ∧ t.throttled 11 0xff = true ∧ t.pwr.core = {} ∧ t.pwr.stack = {} ∧ t.aon = s.aon)) ∧
    (s.pwr.apexDown = true → Does .apexRestartDone s (fun t => t.pwr.apexDown = false ∧ t.throttled 11 0xff = false ∧ t.pwr.pstate = s.pwr.pstate)) ∧
    (∀ b, Does (.vertexLoss b) s (fun t => t.nodeFenced = true ∧ (if b then 95 else 94) ∈ t.aon.failed ∧
      t.aon.selfCause = (if s.aon.selfCause = 0 then (if b then 2 else 1) else s.aon.selfCause) ∧ t.ras = s.ras ∧
      (s.aon.selfCause = 0 → bit t.host.cause 1 = true ∧ t.log.nextSeq = s.log.nextSeq + 1)))

/-- What a reset of the islands keeps and what it drops, whichever pin or clock asks for it (R429, R430, R437). -/
def Sys2Proof.resetKeeps (s t : State) : Prop :=
  t.running = false ∧ t.mem.cells = s.mem.cells ∧ t.aon.stacksHeld = (s.aon.stacksHeld || s.aon.stacksUp) ∧ t.aon.stacksUp = false ∧
  t.aon.now = s.aon.now ∧ t.reqs = [] ∧ t.xpt.ctxs = [] ∧ t.home.leases = [] ∧ t.home.accs = [] ∧ t.home.cur = s.home.cur ∧ t.home.prev = none ∧
  t.locus.nodes = s.locus.nodes ∧ t.xpt.regionKeys = s.xpt.regionKeys ∧ t.xpt.serviceKeys = s.xpt.serviceKeys ∧
  t.ras.serials = s.ras.serials ∧ t.ras.fenced = s.ras.fenced ∧ t.ras.expelled = s.ras.expelled ∧ t.ras.reqFences = s.ras.reqFences ∧
  t.sec.slotKeys = s.sec.slotKeys ∧ t.sec.manifest = s.sec.manifest ∧ t.sec.image = s.sec.image ∧ t.aon.selfCause = s.aon.selfCause ∧
  t.log.entries = s.log.entries ∧ t.log.nextSeq = s.log.nextSeq ∧ t.pwr.energy = s.pwr.energy ∧ t.sch.bsLoaded = false ∧ t.image = s.image

/-- The node starts: its islands run but those that a coolant fault stops, and the power-up timeline counts from here (R386, R431). -/
def Sys2Proof.starts (s t : State) : Prop :=
  t.running = true ∧ t.aon.bootStage = 0 ∧ t.aon.releasedAt = s.aon.now ∧ t.aon.now = s.aon.now ∧
  t.aon.stopped = (if s.aon.coolantPin then coolantIslands else []) ∧ t.mem = s.mem ∧ t.home = s.home

/-- Reset pin, supplies and reference clocks (R429, R430, R437, R447, R450, R453, R454).
RESET_ASSERT and the loss of the 100 MHz clock stop a running node, keeping exactly what the first definition lists and dropping
what it lists, with the stacks held in self-refresh; asserted elsewhere, only the pin and phase change. RESET_RELEASE from reset
and the clock's return start the timeline unless the trip latch stands; after a supply that came back with the pin high, a pulse
below 10 microseconds starts nothing. SUPPLY_LOSS empties stack memory and keeps drives, key
store and serials; losing VDD_AON clears the trip latch and the time stamp. Losing the 156 MHz clock takes every port down; its
return trains them again. Stages before firmware are one (log entry 51). -/
def Obligations.PinsAndClocksReset : Prop :=
  ∀ (s : State),
    (s.running = true → Does .resetAssert s (fun t => resetKeeps s t ∧ t.aon.phase = .inReset ∧ t.aon.resetLow = true)) ∧
    (s.aon.phase = .inReset ∨ s.aon.phase = .tripped → Does .resetAssert s (fun t => t = { s with aon := { s.aon with resetLow := true } })) ∧
    (s.aon.phase = .coldWait → Does .resetAssert s (fun t =>
      t = { s with aon := { s.aon with resetLow := true, phase := .inReset, coldSince := some s.aon.now } })) ∧
    (s.aon.phase = .clockLost → Does .resetAssert s (fun t =>
      t = { s with aon := { s.aon with resetLow := true, phase := .inReset } })) ∧
    (s.aon.phase = .inReset → s.aon.resetLow = true → s.aon.thermTrip = false →
      (s.aon.lowLongEnough = true → s.aon.clk100Lost = false → Does .resetRelease s (fun t => starts s t ∧ t.aon.resetLow = false)) ∧
      (s.aon.lowLongEnough = false → Does .resetRelease s (fun t =>
        t = { s with aon := { s.aon with resetLow := false, coldSince := none, phase := .coldWait } }))) ∧
    (s.aon.thermTrip = true ∨ s.aon.resetLow = false ∨ s.aon.phase ≠ .inReset → Does .resetRelease s (fun t =>
      t = { s with aon := { s.aon with resetLow := false, coldSince := none } })) ∧
    (∀ b, Does (.supplyLoss b) s (fun t => t.running = false ∧ t.mem.cells = [] ∧ t.aon.stacksHeld = false ∧ t.aon.stacksUp = false ∧
      t.aon.phase = (if s.aon.resetLow then .inReset else .coldWait) ∧ t.aon.thermTrip = (s.aon.thermTrip && !b) ∧
      t.aon.now = (if b then 0 else s.aon.now) ∧ t.reqs = [] ∧ t.sec.slotKeys = s.sec.slotKeys ∧ t.ras.serials = s.ras.serials ∧
      t.image = s.image ∧ t.mem.drives.map (fun d => (d.1, d.2.cells, d.2.mark)) = s.mem.drives.map (fun d => (d.1, d.2.cells, d.2.mark)))) ∧
    (s.running = true → Does .refclk100Loss s (fun t => resetKeeps s t ∧ t.aon.phase = .clockLost ∧ t.aon.clk100Lost = true)) ∧
    (s.running = false → Does .refclk100Loss s (fun t => t = { s with aon := { s.aon with clk100Lost := true } })) ∧
    (s.aon.phase = .clockLost → Does (.refclkReturn false) s (fun t => starts s t ∧ t.aon.clk100Lost = false)) ∧
    (s.aon.phase ≠ .clockLost → Does (.refclkReturn false) s (fun t => t = { s with aon := { s.aon with clk100Lost := false } })) ∧
    (s.running = true → Does .refclk156Loss s (fun t => t.running = true ∧ t.aon = { s.aon with clk156Lost := true } ∧
      (∀ p, p < 8 → (t.port p).linkUp = false ∧ ((s.port p).linkUp = true → (t.port p).held = true ∧ (t.port p).downAt = s.now)) ∧
      t.mem = s.mem ∧ t.xpt = s.xpt)) ∧
    (s.running = true → s.aon.clk156Lost = true → Does (.refclkReturn true) s (fun t => t.aon.clk156Lost = false ∧ t.running = true ∧
      ∀ p, p < 8 → (s.port p).mode ≠ 0 → (s.port p).linkUp = false →
        (t.port p).training = !(s.eth.suspects.any (fun l => bit (s.port p).lanes l))))

/-- Firmware authentication, and the state source at stack training (R394, R399, R431, R433, R437, R439).
FIRMWARE_AUTHENTICATION at stage 0 enters recovery with reason 7 where requested, 6 where the flash does not answer, 1 without an
image, or the number of the failing check, and otherwise runs the image. STACK_TRAINING_DONE fences each untrained stack and takes
state from held stacks with a good header, else a usable image, else afresh, each keeping what R437 gives that column. Details of
the image and drives are log entries 51 and 52. -/
def Obligations.StartsChooseTheirState : Prop :=
  ∀ (s : State), s.running = true →
    let enters (answered : Bool) (reason : Nat) : Prop := Does (.firmwareAuthentication answered) s (fun t => t.aon.bootStage = 15 ∧
      t.sec.recReason = reason ∧ t.sec.running = s.sec.running ∧ t.mem = s.mem ∧ t.home = s.home)
    (s.aon.bootStage ≠ 0 → ∀ b, Gives (exec (.firmwareAuthentication b) s) s) ∧
    (s.aon.bootStage = 0 → (s.sec.recoveryReq = true → ∀ b, enters b 7) ∧ (s.sec.recoveryReq = false → enters false 6 ∧
      (s.sec.image = none → enters true 1) ∧ ∀ im, s.sec.image = some im →
        (s.sec.imageCheck im = 0 → Does (.firmwareAuthentication true) s (fun t => t.aon.bootStage = 4 ∧ t.sec.running = some im ∧
          t.mem = s.mem ∧ t.home = s.home)) ∧
        (s.sec.imageCheck im ≠ 0 → enters true (s.sec.imageCheck im)))) ∧
    (s.aon.bootStage ≠ 4 ∨ s.aon.stacksUp = true → ∀ l r, Gives (exec (.stackTrainingDone l r) s) s) ∧
    (s.aon.bootStage = 4 → s.aon.stacksUp = false → s.ras.quartersLost = [] → ∀ l r,
      Does (.stackTrainingDone l r) s (fun t => t.aon.stacksUp = true ∧ ∀ n, n < 8 → l.getD n false = false → t.stackFenced n = true) ∧
      ((∀ n, n < 8 → l.getD n false = true) →
        (s.aon.stacksHeld = true → r.headerOk = true → Does (.stackTrainingDone l r) s (fun t => t.mem.cells = s.mem.cells ∧
          t.home.entries = s.home.entries ∧ t.home.cur = s.home.cur ∧ t.locus = s.locus ∧ t.aon.now = s.aon.now ∧
          t.pwr.energy = s.pwr.energy ∧ ∀ x ∈ t.mem.spans, x.2.kind ≠ 5)) ∧
        ((s.aon.stacksHeld && r.headerOk) = false → s.image = none → Does (.stackTrainingDone l r) s (fun t => t.mem.cells = [] ∧
          t.mem.spans = [] ∧ t.home.entries = [] ∧ t.home.seqs = [] ∧ t.home.cur = none ∧ t.xpt.regionKeys = [] ∧ t.xpt.serviceKeys = [] ∧
          t.log = {} ∧ t.aon.now = s.aon.now - s.aon.releasedAt ∧ t.pwr.energy = List.replicate 9 0)) ∧
        (∀ i, (s.aon.stacksHeld && r.headerOk) = false → r.drives = [] → s.usableImage r.imageOk = some i →
          Does (.stackTrainingDone l r) s (fun t => t.mem.cells = [] ∧ t.home.entries = i.entries.map (fun e => { e with stale := true }) ∧
            t.home.cur = i.cur ∧ t.xpt.serviceKeys = i.serviceKeys ∧ t.xpt.regionKeys = [] ∧ t.log.entries = i.log.entries ∧
            t.log.nextSeq = i.log.nextSeq ∧ t.aon.now = (i.stamp + (s.aon.now - s.aon.releasedAt)) % 2 ^ 64 ∧
            t.pwr.energy = List.replicate 9 0))))

/-- Restart sweep, admission ramp and spill sweep (R438, R441, R444).
RESTART_SWEEP gives each stale entry of its quarter, and no other entry, the changes of R438 and the order of entries stays;
RAMP_STEP refills a ramping group's bucket to now and no other group; SPILL_SWEEP gives each spilled context whose last update is
more than 2^30 ticks old 127 timer updates and the current tick, and changes no other context. -/
def Obligations.SweepsBringStateUpToDate : Prop :=
  ∀ (s : State), s.running = true →
    (s.aon.stacksUp = false → ∀ q, Gives (exec (.restartSweep q) s) s) ∧
    (∀ q : Fin 4, s.aon.stacksUp = true → (s.home.entries.map (fun e => (e.slice, e.name))).Nodup →
      Does (.restartSweep q) s (fun t => t.home.entries.length = s.home.entries.length ∧
        ∀ (i : Nat) (e : Entry), s.home.entries[i]? = some e → ∃ x : Entry, t.home.entries[i]? = some x ∧
          (e.quarter ≠ (q : Nat) ∨ e.stale = false → x = e) ∧
          (e.quarter = (q : Nat) → e.stale = true → x.stale = false ∧ x.pinCount = 0 ∧ x.writeValid = false ∧ x.name = e.name ∧
            x.frameState = (if e.frameState = .filling then .flash else if e.frameState = .demoting then .stack else e.frameState) ∧
            x.pageState = (if e.pageState = .writeOpen then .torn else if e.pageState = .writeOpenNew then .tornNew else e.pageState)))) ∧
    (∀ g : Fin 4096, ((s.group g).ramp = none → Gives (exec (.rampStep g) s) s) ∧
      ∀ t0, (s.group g).ramp = some t0 → Does (.rampStep g) s (fun t => t.group g = (s.group g).refill s.now ∧
        t.xpt = s.xpt ∧ t.mem = s.mem ∧ ∀ k, k ≠ (g : Nat) → t.group k = s.group k)) ∧
    ((s.xpt.ctxs.map Prod.fst).Nodup → Does .spillSweep s (fun t => t.mem = s.mem ∧ t.eth = s.eth ∧ ∀ q c, s.ctx q = some c →
      (c.onDie = true ∨ c.echo.age s.tick ≤ 2 ^ 30 → t.ctx q = some c) ∧
      (c.onDie = false → 2 ^ 30 < c.echo.age s.tick → ∃ x, t.ctx q = some x ∧ x.echo.tUpdate = s.tick ∧ x.onDie = false ∧
        x.echo = (List.range 127).foldl (fun e _ => e.onTimer (s.lineRate c.port) s.eth.rAi s.eth.fastSteps s.tick) c.echo)))
end

