-- ==== Sys2Proof/Laws/Memory.lean ====
section
/-! SUPPORT. Memory cells: every operation keeps the canonical form, a read after a write to the same address gives what was
written, and a write leaves every other address as it was. -/

namespace Sys2Proof.Machine

/-- The canonical form, said of pairs: no zero is listed, and the addresses rise strictly. -/
theorem Memory.wf_iff (c : List Host.Cell) :
    Memory.wf c = true ↔ (∀ p ∈ c, p.2 ≠ 0) ∧ c.Pairwise (fun p q => p.1 < q.1) := by
  induction c with
  | nil => simp [Memory.wf]
  | cons p t ih =>
    obtain ⟨a, b⟩ := p
    cases t with
    | nil => simp [Memory.wf]
    | cons q t =>
      obtain ⟨a', b'⟩ := q
      simp only [Memory.wf, Bool.and_eq_true, bne_iff_ne, ne_eq, decide_eq_true_eq]
      rw [ih]
      constructor
      · rintro ⟨⟨hb, hlt⟩, hz, hp⟩
        refine ⟨fun p hm => ?_, ?_⟩
        · rcases List.mem_cons.mp hm with rfl | hm
          · exact hb
          · exact hz p hm
        · refine List.pairwise_cons.mpr ⟨fun p hm => ?_, hp⟩
          rcases List.mem_cons.mp hm with rfl | hm
          · exact hlt
          · exact Nat.lt_trans hlt ((List.pairwise_cons.mp hp).1 p hm)
      · rintro ⟨hz, hp⟩
        have h := List.pairwise_cons.mp hp
        exact ⟨⟨hz _ List.mem_cons_self, h.1 _ List.mem_cons_self⟩, fun p hm => hz p (List.mem_cons_of_mem _ hm), h.2⟩

/-- Nothing listed is in the canonical form. -/
@[simp] theorem Memory.wf_nil : Memory.wf [] = true := rfl

/-- A part of a canonical list is canonical. -/
theorem Memory.wf_filter {c : List Host.Cell} (p : Host.Cell → Bool) (h : Memory.wf c = true) : Memory.wf (c.filter p) = true := by
  rw [Memory.wf_iff] at *
  exact ⟨fun q hq => h.1 q (List.mem_of_mem_filter hq), h.2.filter p⟩

/-- Zeroing a range keeps the canonical form. -/
theorem Memory.wf_cellZero {c : List Host.Cell} (lo hi : Nat) (h : Memory.wf c = true) : Memory.wf (cellZero c lo hi) = true :=
  Memory.wf_filter _ h

/-- The addresses a write leaves in the list are those before it and the address written. -/
theorem cellWrite_mem {c : List Host.Cell} {x : Nat} {v : Byte} {p : Host.Cell} (h : p ∈ cellWrite c x v) :
    p ∈ c ∨ (p = (x, v) ∧ v ≠ 0) := by
  induction c with
  | nil =>
    by_cases hv : v = 0
    · simp [cellWrite, hv] at h
    · simp only [cellWrite, if_neg hv, List.mem_singleton] at h; exact .inr ⟨h, hv⟩
  | cons q t ih =>
    obtain ⟨a, b⟩ := q
    simp only [cellWrite] at h
    split at h
    · split at h
      · exact .inl h
      · rcases List.mem_cons.mp h with h | h
        · exact .inr ⟨h, by assumption⟩
        · exact .inl h
    · split at h
      · rename_i _ hxa
        subst hxa
        split at h
        · exact .inl (List.mem_cons_of_mem _ h)
        · rcases List.mem_cons.mp h with h | h
          · exact .inr ⟨h, by assumption⟩
          · exact .inl (List.mem_cons_of_mem _ h)
      · rcases List.mem_cons.mp h with h | h
        · exact .inl (h ▸ List.mem_cons_self)
        · exact (ih h).imp (List.mem_cons_of_mem _) id

/-- A write keeps the canonical form. -/
theorem Memory.wf_cellWrite {c : List Host.Cell} (x : Nat) (v : Byte) (h : Memory.wf c = true) :
    Memory.wf (cellWrite c x v) = true := by
  rw [Memory.wf_iff] at *
  refine ⟨fun p hp => ?_, ?_⟩
  · rcases cellWrite_mem hp with hp | ⟨rfl, hv⟩
    · exact h.1 p hp
    · exact hv
  · obtain ⟨-, h⟩ := h
    induction c with
    | nil => simp only [cellWrite]; split <;> simp
    | cons q t ih =>
      obtain ⟨a, b⟩ := q
      have ht := List.pairwise_cons.mp h
      simp only [cellWrite]
      split
      · split
        · exact h
        · refine List.pairwise_cons.mpr ⟨fun p hp => ?_, h⟩
          rcases List.mem_cons.mp hp with rfl | hp
          · assumption
          · exact Nat.lt_trans (by assumption) (ht.1 p hp)
      · split
        · split
          · exact ht.2
          · exact List.pairwise_cons.mpr ⟨ht.1, ht.2⟩
        · refine List.pairwise_cons.mpr ⟨fun p hp => ?_, ih ht.2⟩
          rcases cellWrite_mem hp with hp | ⟨rfl, -⟩
          · exact ht.1 p hp
          · show a < x; omega

/-- Writing a list of bytes keeps the canonical form. -/
theorem Memory.wf_cellWriteList {c : List Host.Cell} (x : Nat) (l : List Byte) (h : Memory.wf c = true) :
    Memory.wf (cellWriteList c x l) = true := by
  induction l generalizing c x with
  | nil => exact h
  | cons b t ih => exact ih _ (Memory.wf_cellWrite x b h)

/-- Writing through a fold keeps the canonical form. -/
theorem Memory.wf_foldWrite {α : Type} (f : α → Nat) (g : α → Byte) (l : List α) {c : List Host.Cell} (h : Memory.wf c = true) :
    Memory.wf (l.foldl (fun c p => cellWrite c (f p) (g p)) c) = true := by
  induction l generalizing c with
  | nil => exact h
  | cons p t ih => exact ih (Memory.wf_cellWrite _ _ h)

/-- An address below every listed one reads zero. -/
theorem cellRead_below {c : List Host.Cell} {x : Nat} (h : ∀ p ∈ c, x < p.1) : cellRead c x = 0 := by
  cases c with
  | nil => rfl
  | cons p t =>
    obtain ⟨a, b⟩ := p
    have ha : x < a := h (a, b) List.mem_cons_self
    simp [cellRead, Nat.ne_of_gt ha, ha]

/-- A read gives what was last written to its address; every other address reads as before. -/
theorem cellRead_cellWrite {c : List Host.Cell} (h : Memory.wf c = true) (x y : Nat) (v : Byte) :
    cellRead (cellWrite c x v) y = if y = x then v else cellRead c y := by
  rw [Memory.wf_iff] at h
  obtain ⟨-, h⟩ := h
  induction c with
  | nil =>
    simp only [cellWrite]
    by_cases hv : v = 0
    · rw [if_pos hv]; by_cases hy : y = x
      · rw [if_pos hy, hv]; rfl
      · rw [if_neg hy]
    · rw [if_neg hv]; by_cases hy : y = x
      · subst hy; simp [cellRead]
      · rw [if_neg hy]; simp [cellRead, Ne.symm hy]
  | cons q t ih =>
    obtain ⟨a, b⟩ := q
    have ht := List.pairwise_cons.mp h
    have hbelow : ∀ z, z ≤ a → cellRead t z = 0 := fun z hz => cellRead_below (fun p hp => Nat.lt_of_le_of_lt hz (ht.1 p hp))
    simp only [cellWrite]
    by_cases hxa : x < a
    · rw [if_pos hxa]
      by_cases hv : v = 0
      · rw [if_pos hv]
        by_cases hy : y = x
        · subst hy; simp [cellRead, Nat.ne_of_gt hxa, hxa, hv]
        · rw [if_neg hy]
      · rw [if_neg hv]
        by_cases hy : y = x
        · subst hy; simp [cellRead]
        · rw [if_neg hy]
          by_cases hyx : y < x
          · have hya : y < a := Nat.lt_trans hyx hxa
            simp [cellRead, Ne.symm hy, hyx, Nat.ne_of_gt hya, hya]
          · simp [cellRead, Ne.symm hy, hyx]
    · rw [if_neg hxa]
      by_cases hxe : x = a
      · subst hxe
        rw [if_pos rfl]
        by_cases hv : v = 0
        · rw [if_pos hv]
          by_cases hy : y = x
          · subst hy; rw [if_pos rfl, hbelow y (Nat.le_refl y), hv]
          · rw [if_neg hy]
            by_cases hyx : y < x
            · simp [cellRead, Ne.symm hy, hyx, hbelow y (Nat.le_of_lt hyx)]
            · simp [cellRead, Ne.symm hy, hyx]
        · rw [if_neg hv]
          by_cases hy : y = x
          · subst hy; simp [cellRead]
          · rw [if_neg hy]; simp [cellRead, Ne.symm hy]
      · rw [if_neg hxe]
        by_cases hya : a = y
        · subst hya; simp [cellRead, Ne.symm hxe]
        · by_cases hy : y < a
          · have : y ≠ x := by omega
            simp [cellRead, hya, hy, this]
          · simp only [cellRead, if_neg hya, if_neg hy]; exact ih ht.2

/-- A zeroed range reads zero; every other address reads as before. -/
theorem cellRead_cellZero {c : List Host.Cell} (h : Memory.wf c = true) (lo hi y : Nat) :
    cellRead (cellZero c lo hi) y = if lo ≤ y ∧ y < hi then 0 else cellRead c y := by
  rw [Memory.wf_iff] at h
  obtain ⟨-, h⟩ := h
  induction c with
  | nil => simp [cellZero, cellRead]
  | cons q t ih =>
    obtain ⟨a, b⟩ := q
    have ht := List.pairwise_cons.mp h
    have it := ih ht.2
    have hbelow : ∀ z, z ≤ a → cellRead (cellZero t lo hi) z = 0 := fun z hz =>
      cellRead_below (fun p hp => Nat.lt_of_le_of_lt hz (ht.1 p (List.mem_of_mem_filter hp)))
    by_cases hr : lo ≤ a ∧ a < hi
    · have e : cellZero ((a, b) :: t) lo hi = cellZero t lo hi := by simp [cellZero, hr]
      rw [e]
      by_cases hy : lo ≤ y ∧ y < hi
      · rw [it, if_pos hy, if_pos hy]
      · rw [if_neg hy]
        by_cases h1 : a = y
        · subst h1; exact absurd hr hy
        · by_cases h2 : y < a
          · simp [cellRead, h1, h2, hbelow y (Nat.le_of_lt h2)]
          · simp only [cellRead, if_neg h1, if_neg h2]; rw [it, if_neg hy]
    · have e : cellZero ((a, b) :: t) lo hi = (a, b) :: cellZero t lo hi := by
        simp only [cellZero, List.filter_cons]
        have : (!(decide (lo ≤ a) && decide (a < hi))) = true := by
          simp only [Bool.not_eq_true', Bool.and_eq_false_iff, decide_eq_false_iff_not]; omega
        simp [this]
      rw [e]
      by_cases h1 : a = y
      · subst h1; simp [cellRead, hr]
      · by_cases h2 : y < a
        · by_cases hy : lo ≤ y ∧ y < hi <;> simp [cellRead, h1, h2, hy]
        · simp only [cellRead, if_neg h1, if_neg h2]; exact it

end Sys2Proof.Machine
end

