-- ==== Sys2Proof/Laws/Table.lean ====
section
/-! SUPPORT. What a table reads after each of its updates: the entry written, and every other entry as it was. -/

namespace Sys2Proof.Tbl

variable {α : Type}

@[simp] theorem get?_nil (k : Nat) : get? ([] : Tbl α) k = none := rfl

/-- An entry that was set reads back. -/
@[simp] theorem get?_set_same (t : Tbl α) (k : Nat) (v : α) : (t.set k v).get? k = some v := by
  induction t with
  | nil => simp [set, get?]
  | cons p t ih =>
    obtain ⟨a, b⟩ := p
    simp only [set]
    split
    · simp [get?]
    · split
      · simp [get?]
      · rw [get?, if_neg (by omega), ih]

/-- Setting an entry leaves the others. -/
theorem get?_set_other (t : Tbl α) {j k : Nat} (v : α) (h : j ≠ k) : (t.set k v).get? j = t.get? j := by
  induction t with
  | nil => simp [set, get?, Ne.symm h]
  | cons p t ih =>
    obtain ⟨a, b⟩ := p
    simp only [set]
    split
    · simp [get?, Ne.symm h]
    · split
      · subst_vars; simp [get?, Ne.symm h]
      · simp only [get?, ih]

/-- An entry after a change of one entry. -/
theorem get?_modify (t : Tbl α) (j k : Nat) (f : α → α) :
    (t.modify k f).get? j = if j = k then (t.get? k).map f else t.get? j := by
  induction t with
  | nil => simp [modify, get?]
  | cons p t ih =>
    obtain ⟨a, b⟩ := p
    unfold modify at ih ⊢
    rw [List.map_cons]
    by_cases ha : a = k
    · subst ha
      rw [if_pos rfl]
      by_cases hj : j = a
      · subst hj; simp [get?]
      · rw [if_neg hj] at ih ⊢
        simp only [get?]
        rw [if_neg (Ne.symm hj), if_neg (Ne.symm hj)]
        exact ih
    · rw [if_neg ha]
      by_cases hj : j = k
      · subst hj
        rw [if_pos rfl] at ih ⊢
        simp only [get?]
        rw [if_neg ha, if_neg ha]
        exact ih
      · rw [if_neg hj] at ih ⊢
        simp only [get?]
        split
        · rfl
        · exact ih

@[simp] theorem get?_modify_same (t : Tbl α) (k : Nat) (f : α → α) : (t.modify k f).get? k = (t.get? k).map f := by
  rw [get?_modify, if_pos rfl]

/-- An erased entry is gone. -/
@[simp] theorem get?_erase_same (t : Tbl α) (k : Nat) : (t.erase k).get? k = none := by
  induction t with
  | nil => rfl
  | cons p t ih =>
    obtain ⟨a, b⟩ := p
    unfold erase at ih ⊢
    rw [List.filter_cons]
    split
    · rename_i h
      rw [get?, if_neg (by simpa using h)]
      exact ih
    · exact ih

/-- Erasing an entry leaves the others. -/
theorem get?_erase_other (t : Tbl α) {j k : Nat} (h : j ≠ k) : (t.erase k).get? j = t.get? j := by
  induction t with
  | nil => rfl
  | cons p t ih =>
    obtain ⟨a, b⟩ := p
    unfold erase at ih ⊢
    rw [List.filter_cons]
    split
    · simp only [get?, ih]
    · rename_i ha
      have : a = k := by simpa using ha
      rw [ih, get?, if_neg (by omega)]

@[simp] theorem getD_set_same (t : Tbl α) (k : Nat) (v d : α) : (t.set k v).getD k d = v := by
  rw [getD, get?_set_same]; rfl

theorem getD_set_other (t : Tbl α) {j k : Nat} (v d : α) (h : j ≠ k) : (t.set k v).getD j d = t.getD j d := by
  rw [getD, get?_set_other t v h]; rfl

@[simp] theorem getD_update_same (t : Tbl α) (k : Nat) (d : α) (f : α → α) : (t.update k d f).getD k d = f (t.getD k d) := by
  rw [update, getD_set_same]

theorem getD_update_other (t : Tbl α) {j k : Nat} (d e : α) (f : α → α) (h : j ≠ k) :
    (t.update k d f).getD j e = t.getD j e := by
  rw [update, getD_set_other t _ _ h]

/-- Erasing keeps the order of the keys. -/
theorem keys_erase (t : Tbl α) (k : Nat) : ((t.erase k).map Prod.fst).Sublist (t.map Prod.fst) := List.filter_sublist.map _

/-- A map that keeps the keys. -/
theorem keys_map {t : Tbl α} {f : Nat × α → Nat × α} (h : ∀ p, (f p).1 = p.1) : ((t.map f).map Prod.fst).Sublist (t.map Prod.fst) := by
  rw [List.map_map, show Prod.fst ∘ f = Prod.fst from funext h]

/-- Changing an entry keeps the keys. -/
theorem keys_modify (t : Tbl α) (k : Nat) (f : α → α) : ((t.modify k f).map Prod.fst).Sublist (t.map Prod.fst) :=
  keys_map (fun p => by split <;> rfl)

/-- An entry above every key is put at the end. -/
theorem set_above {t : Tbl α} {k : Nat} (h : ∀ j ∈ t.map Prod.fst, j < k) (v : α) : t.set k v = t ++ [(k, v)] := by
  induction t with
  | nil => rfl
  | cons p t ih =>
    obtain ⟨a, b⟩ := p
    have ha : a < k := h a (by simp)
    rw [set, if_neg (by omega), if_neg (by omega), ih (fun j hj => h j (by simp at hj ⊢; exact .inr hj)), List.cons_append]

end Sys2Proof.Tbl
end

