-- ==== Sys2Proof/Laws/Keep.lean ====
section
/-! SUPPORT. What a meaning can touch: a predicate of states that every update of some parts of the state keeps (`Closed`), and
how it passes through the forms that the meanings are written in. The files Keep*.lean say of every operation which parts it
touches, once; frames and invariants follow by choosing the predicate. -/

namespace Sys2Proof.Machine

/-- The predicate is kept by every update of the parts whose bits are set in the mask: 0 always-on, 1 reliability, 2 power,
3 security, 4 host interface, 5 event log, 6 slices, 7 cells and blocks, 8 near-bank, 9 memory but its stored bytes, 10 memory
with its stored bytes, 11 home, 12 prefix directory, 13 transport, 14 ports, 15 outstanding requests where no number is
added, 16 a request that takes the next number,
17 persistence image, 18 the count of free values, 19 what leaves the node, 20 a reset of the islands, 21 transport
where every context in RTS stays in RTS. An update of memory is one that keeps its canonical
form. -/
structure Closed (m : Nat) (P : State → Prop) : Prop where
  aon : m.testBit 0 = true → ∀ f s, P s → P (State.onAon f s)
  ras : m.testBit 1 = true → ∀ f s, P s → P (State.onRas f s)
  pwr : m.testBit 2 = true → ∀ f s, P s → P (State.onPwr f s)
  sec : m.testBit 3 = true → ∀ f s, P s → P (State.onSec f s)
  host : m.testBit 4 = true → ∀ f s, P s → P (State.onHost f s)
  log : m.testBit 5 = true → ∀ f s, P s → P (State.onLog f s)
  sch : m.testBit 6 = true → ∀ f s, P s → P (State.onSch f s)
  eng : m.testBit 7 = true → ∀ f s, P s → P (State.onEng f s)
  nbu : m.testBit 8 = true → ∀ r f s, P s → P (State.onNbu r f s)
  mem : m.testBit 9 = true → ∀ f s, (∀ m : Mem, (f m).cells = m.cells) → (∀ m : Mem, m.ok = true → (f m).ok = true) → P s → P (State.onMem f s)
  cells : m.testBit 10 = true → ∀ f s, (∀ m : Mem, m.ok = true → (f m).ok = true) → P s → P (State.onMem f s)
  home : m.testBit 11 = true → ∀ f s, P s → P (State.onHome f s)
  locus : m.testBit 12 = true → ∀ f s, P s → P (State.onLocus f s)
  xpt : m.testBit 13 = true → ∀ f s, P s → P (State.onXpt f s)
  eth : m.testBit 14 = true → ∀ f s, P s → P (State.onEth f s)
  reqs : m.testBit 15 = true → ∀ f s, (∀ t : Tbl Req, ((f t).map Prod.fst).Sublist (t.map Prod.fst)) → P s → P (State.onReqs f s)
  nextReq : m.testBit 16 = true → ∀ q s, P s → P (State.pushReq q s)
  image : m.testBit 17 = true → ∀ i s, P s → P (State.onImage i s)
  free : m.testBit 18 = true → ∀ s, P s → P (State.bump s)
  emitted : m.testBit 19 = true → ∀ e s, P s → P (State.emit e s)
  drop : m.testBit 20 = true → ∀ s, P s → P (State.dropVolatile s)
  link : m.testBit 21 = true → ∀ f s, (∀ (x : Xpt) q, (x.ctxs.get? q).map Ctx.state = some .rts →
    ((f x).ctxs.get? q).map Ctx.state = some .rts) → P s → P (State.onXpt f s)

/-- Fewer parts. -/
theorem Closed.mono {a b : Nat} {P : State → Prop} (h : Closed b P) (hs : a &&& b = a) : Closed a P := by
  have m : ∀ i, a.testBit i = true → b.testBit i = true := fun i hi => by
    rw [← hs, Nat.testBit_and, Bool.and_eq_true] at hi
    exact hi.2
  exact ⟨fun x => h.aon (m _ x), fun x => h.ras (m _ x), fun x => h.pwr (m _ x), fun x => h.sec (m _ x), 
    fun x => h.host (m _ x), fun x => h.log (m _ x), fun x => h.sch (m _ x), fun x => h.eng (m _ x), fun x => h.nbu (m _ x), 
    fun x => h.mem (m _ x), fun x => h.cells (m _ x), fun x => h.home (m _ x), fun x => h.locus (m _ x), fun x => h.xpt (m _ x), 
    fun x => h.eth (m _ x), fun x => h.reqs (m _ x), fun x => h.nextReq (m _ x), fun x => h.image (m _ x), fun x => h.free (m _ x), fun x => h.emitted (m _ x), fun x => h.drop (m _ x),
    fun x => h.link (m _ x)⟩

section forms
variable {α : Type} {P : State → Prop}

/-- A fact established on the way. -/
theorem keep_cut {G : Prop} (A : Prop) (h : A) (k : A → G) : G := k h

/-- The state of a pair. -/
theorem keep_snd {x : α} {s : State} (h : P s) : P (x, s).2 := h

/-- A fold. -/
theorem keep_fold_any {σ : Type} {P : σ → Prop} {l : List α} {f : σ → α → σ} {s : σ} (k : ∀ s x, P s → P (f s x)) (h : P s) : P (l.foldl f s) := by
  induction l generalizing s with
  | nil => exact h
  | cons x t ih => exact ih (k s x h)

/-- A fold over states. -/
theorem keep_foldl {l : List α} {f : State → α → State} {s : State} (k : ∀ s x, P s → P (f s x)) (h : P s) : P (l.foldl f s) :=
  keep_fold_any k h

/-- The state of a pair that begins with it. -/
theorem keep_fst {x : α} {s : State} (h : P s) : P (s, x).1 := h

/-- A fold over pairs that begin with a state. -/
theorem keep_foldl_fst {γ : Type} {l : List α} {f : State × γ → α → State × γ} {r : State × γ}
    (k : ∀ y s x, P s → P (f (s, y) x).1) (h : P r.1) : P (l.foldl f r).1 := by
  induction l generalizing r with
  | nil => exact h
  | cons x t ih => exact ih (k r.2 r.1 x h)

/-- A fold over pairs that hold a state. -/
theorem keep_foldl_snd {γ : Type} {l : List α} {f : γ × State → α → γ × State} {r : γ × State}
    (k : ∀ y s x, P s → P (f (y, s) x).2) (h : P r.2) : P (l.foldl f r).2 := by
  induction l generalizing r with
  | nil => exact h
  | cons x t ih => exact ih (k r.1 r.2 x h)

end forms

/-- What holds of the value, if there is one. -/
def OnSome {α : Type} (Q : α → Prop) (o : Option α) : Prop := ∀ x, o = some x → Q x

theorem OnSome.none {α : Type} {Q : α → Prop} : OnSome Q none := fun _ h => nomatch h
theorem OnSome.some {α : Type} {Q : α → Prop} {x : α} (h : Q x) : OnSome Q (some x) := fun _ e => by cases e; exact h
theorem OnSome.getD {α : Type} {Q : α → Prop} {o : Option α} {d : α} (h : OnSome Q o) (k : Q d) : Q (o.getD d) := by
  cases o with
  | none => exact k
  | some x => exact h x rfl
theorem OnSome.findSome {α β : Type} {Q : β → Prop} {l : List α} {f : α → Option β} (h : ∀ x, OnSome Q (f x)) : OnSome Q (l.findSome? f) := by
  intro y hy
  obtain ⟨x, _, hx⟩ := List.exists_of_findSome?_eq_some hy
  exact h x y hx
theorem OnSome.map {α β : Type} {Q : β → Prop} {o : Option α} {f : α → β} (h : ∀ x, o = Option.some x → Q (f x)) :
    OnSome Q (o.map f) := by
  cases o with
  | none => exact OnSome.none
  | some x => exact OnSome.some (h x rfl)

end Sys2Proof.Machine
end

