-- ==== Sys2Proof/Laws/KeepOps.lean ====
section
/-! SUPPORT. What the operations of Machine/Ops.lean touch: each keeps every predicate that is closed under the parts named. -/

namespace Sys2Proof.Machine

set_option linter.unusedTactic false
set_option linter.unreachableTactic false
set_option linter.unusedVariables false
set_option linter.tactic.unusedName false

theorem State.whenUp_keeps {P : State → Prop} (hP : Closed 0 P) {f : State → State} {s : State} (kf : ∀ s, P s → P (f s)) (h0 : P s) :
    P (State.whenUp f s) := by
  unfold State.whenUp
  repeat' (first
    | with_reducible assumption
    | with_reducible refine kf _ ?_
    | with_reducible refine keep_foldl (fun _ _ _ => ?_) ?_
    | with_reducible refine keep_foldl_snd (fun _ _ _ _ => ?_) ?_
    | split)

theorem State.collide_keeps {P : State → Prop} (hP : Closed 16640 P) {a len : Nat} {j : CqJob} {s : State}  (h0 : P s) :
    P (State.collide a len j s) := by
  unfold State.collide
  repeat' (first
    | with_reducible assumption
    | with_reducible refine hP.nbu rfl _ _ _ ?_
    | with_reducible refine State.enqueue_keeps (hP.mono rfl) ?_
    | with_reducible refine keep_foldl (fun _ _ _ => ?_) ?_
    | with_reducible refine keep_foldl_snd (fun _ _ _ _ => ?_) ?_
    | split)

theorem State.bare_keeps {P : State → Prop} (hP : Closed 256 P) {n : Nat} {s : State}  (h0 : P s) :
    P (State.bare n s) := by
  unfold State.bare
  repeat' (first
    | with_reducible assumption
    | with_reducible refine hP.nbu rfl _ _ _ ?_
    | with_reducible refine keep_foldl (fun _ _ _ => ?_) ?_
    | with_reducible refine keep_foldl_snd (fun _ _ _ _ => ?_) ?_
    | split)

theorem Mem.ok_iff (m : Mem) : m.ok = true ↔ Memory.wf m.cells = true ∧ ∀ d ∈ m.drives, Memory.wf d.2.cells = true := by
  simp [Mem.ok]

theorem State.bankWrite_keeps {P : State → Prop} (hP : Closed 1024 P) {a : Nat} {b : Byte} {s : State} (h0 : P s) :
    P (State.bankWrite a b s) := by
  unfold State.bankWrite
  split
  · exact h0
  · refine hP.cells rfl _ _ (fun m hm => ?_) h0
    rw [Mem.ok_iff] at *
    exact ⟨Memory.wf_cellWrite _ _ hm.1, hm.2⟩

theorem State.bankWriteN_keeps {P : State → Prop} (hP : Closed 1024 P) {a : Nat} {l : List Byte} {s : State} (h0 : P s) :
    P (State.bankWriteN a l s) := by
  induction l generalizing a s with
  | nil => exact h0
  | cons b t ih => exact ih (State.bankWrite_keeps hP h0)

theorem State.busWrite_keeps {P : State → Prop} (hP : Closed 17664 P) {a : Nat} {d : List Byte} {s : State}  (h0 : P s) :
    P (State.busWrite a d s) := by
  unfold State.busWrite
  repeat' (first
    | with_reducible assumption
    | with_reducible refine State.collide_keeps (hP.mono rfl) ?_
    | with_reducible refine State.bankWriteN_keeps (hP.mono rfl) ?_
    | with_reducible refine keep_foldl (fun _ _ _ => ?_) ?_
    | with_reducible refine keep_foldl_snd (fun _ _ _ _ => ?_) ?_
    | exact fun _ => rfl
    | exact fun _ h => h
    | split)

theorem State.memWrite_keeps {P : State → Prop} (hP : Closed 17664 P) {a : Nat} {b : Byte} {s : State}  (h0 : P s) :
    P (State.memWrite a b s) := by
  unfold State.memWrite
  repeat' (first
    | with_reducible assumption
    | with_reducible refine State.busWrite_keeps (hP.mono rfl) ?_
    | with_reducible refine keep_foldl (fun _ _ _ => ?_) ?_
    | with_reducible refine keep_foldl_snd (fun _ _ _ _ => ?_) ?_
    | exact fun _ => rfl
    | exact fun _ h => h
    | split)

theorem State.memWriteN_keeps {P : State → Prop} (hP : Closed 17664 P) {a : Nat} {l : List Byte} {s : State}  (h0 : P s) :
    P (State.memWriteN a l s) := by
  unfold State.memWriteN
  repeat' (first
    | with_reducible assumption
    | with_reducible refine State.busWrite_keeps (hP.mono rfl) ?_
    | with_reducible refine keep_foldl (fun _ _ _ => ?_) ?_
    | with_reducible refine keep_foldl_snd (fun _ _ _ _ => ?_) ?_
    | exact fun _ => rfl
    | exact fun _ h => h
    | split)

theorem State.busBytes_keeps {P : State → Prop} (hP : Closed 17664 P) {l : List (Nat × Byte)} {s : State}  (h0 : P s) :
    P (State.busBytes l s) := by
  unfold State.busBytes
  repeat' (first
    | with_reducible assumption
    | with_reducible refine State.busWrite_keeps (hP.mono rfl) ?_
    | with_reducible refine keep_foldl (fun _ _ _ => ?_) ?_
    | with_reducible refine keep_foldl_snd (fun _ _ _ _ => ?_) ?_
    | exact fun _ => rfl
    | exact fun _ h => h
    | split)

theorem State.busRead_keeps {P : State → Prop} (hP : Closed 16640 P) {a len : Nat} {s : State}  (h0 : P s) :
    P (State.busRead a len s) := by
  unfold State.busRead
  repeat' (first
    | with_reducible assumption
    | with_reducible refine State.collide_keeps (hP.mono rfl) ?_
    | with_reducible refine keep_foldl (fun _ _ _ => ?_) ?_
    | with_reducible refine keep_foldl_snd (fun _ _ _ _ => ?_) ?_
    | split)

theorem State.busReads_keeps {P : State → Prop} (hP : Closed 16640 P) {l : List Nat} {s : State}  (h0 : P s) :
    P (State.busReads l s) := by
  unfold State.busReads
  repeat' (first
    | with_reducible assumption
    | with_reducible refine State.busRead_keeps (hP.mono rfl) ?_
    | with_reducible refine keep_foldl (fun _ _ _ => ?_) ?_
    | with_reducible refine keep_foldl_snd (fun _ _ _ _ => ?_) ?_
    | split)

theorem State.memZero_keeps {P : State → Prop} (hP : Closed 1024 P) {lo hi : Nat} {s : State} (h : P s) :
    P (State.memZero lo hi s) := by
  refine hP.cells rfl _ _ (fun m hm => ?_) h
  rw [Mem.ok_iff] at *
  exact ⟨Memory.wf_cellZero _ _ hm.1, hm.2⟩

theorem State.zeroGranules_keeps {P : State → Prop} (hP : Closed 17664 P) {place : Nat × Nat} {n : Nat} {s : State}  (h0 : P s) :
    P (State.zeroGranules place n s) := by
  unfold State.zeroGranules
  repeat' (first
    | with_reducible assumption
    | with_reducible refine State.collide_keeps (hP.mono rfl) ?_
    | with_reducible refine State.memZero_keeps (hP.mono rfl) ?_
    | with_reducible refine keep_foldl (fun _ _ _ => ?_) ?_
    | with_reducible refine keep_foldl_snd (fun _ _ _ _ => ?_) ?_
    | exact fun _ => rfl
    | exact fun _ h => h
    | (extract_lets +onlyGivenNames x; refine keep_cut (P x) ?_ (fun _ => ?_); unfold x; clear x; rotate_left; clear_value x)
    | (extract_lets +onlyGivenNames x; refine keep_cut (P x.2) ?_ (fun _ => ?_); unfold x; clear x; rotate_left; clear_value x)
    | (extract_lets +onlyGivenNames x; clear_value x)
    | split)

theorem State.writeImage_keeps {P : State → Prop} (hP : Closed 17664 P) {f : PageFormat} {frame : Nat × Nat} {img : List (Nat × Byte)} {s : State}  (h0 : P s) :
    P (State.writeImage f frame img s) := by
  unfold State.writeImage
  repeat' (first
    | with_reducible assumption
    | with_reducible refine State.zeroGranules_keeps (hP.mono rfl) ?_
    | with_reducible refine State.busBytes_keeps (hP.mono rfl) ?_
    | with_reducible refine keep_foldl (fun _ _ _ => ?_) ?_
    | with_reducible refine keep_foldl_snd (fun _ _ _ _ => ?_) ?_
    | exact fun _ => rfl
    | exact fun _ h => h
    | split)

theorem State.readFrame_keeps {P : State → Prop} (hP : Closed 16640 P) {f : PageFormat} {frame : Nat × Nat} {s : State}  (h0 : P s) :
    P (State.readFrame f frame s) := by
  unfold State.readFrame
  repeat' (first
    | with_reducible assumption
    | with_reducible refine State.busReads_keeps (hP.mono rfl) ?_
    | with_reducible refine keep_foldl (fun _ _ _ => ?_) ?_
    | with_reducible refine keep_foldl_snd (fun _ _ _ _ => ?_) ?_
    | split)

theorem State.raise_keeps {P : State → Prop} (hP : Closed 524304 P) {i : Nat} {s : State}  (h0 : P s) :
    P (State.raise i s) := by
  unfold State.raise
  repeat' (first
    | with_reducible assumption
    | with_reducible refine hP.host rfl _ _ ?_
    | with_reducible refine hP.emitted rfl _ _ ?_
    | with_reducible refine keep_foldl (fun _ _ _ => ?_) ?_
    | with_reducible refine keep_foldl_snd (fun _ _ _ _ => ?_) ?_
    | (extract_lets +onlyGivenNames x; refine keep_cut (P x) ?_ (fun _ => ?_); unfold x; clear x; rotate_left; clear_value x)
    | (extract_lets +onlyGivenNames x; refine keep_cut (P x.2) ?_ (fun _ => ?_); unfold x; clear x; rotate_left; clear_value x)
    | (extract_lets +onlyGivenNames x; clear_value x)
    | split)

theorem State.logIrq_keeps {P : State → Prop} (hP : Closed 524304 P) {s : State}  (h0 : P s) :
    P (State.logIrq s) := by
  unfold State.logIrq
  repeat' (first
    | with_reducible assumption
    | with_reducible refine State.raise_keeps (hP.mono rfl) ?_
    | with_reducible refine keep_foldl (fun _ _ _ => ?_) ?_
    | with_reducible refine keep_foldl_snd (fun _ _ _ _ => ?_) ?_
    | split)

theorem State.logPut_keeps {P : State → Prop} (hP : Closed 524336 P) {e : LogEntry} {s : State}  (h0 : P s) :
    P (State.logPut e s) := by
  unfold State.logPut
  repeat' (first
    | with_reducible assumption
    | with_reducible refine hP.log rfl _ _ ?_
    | with_reducible refine State.logIrq_keeps (hP.mono rfl) ?_
    | with_reducible refine keep_foldl (fun _ _ _ => ?_) ?_
    | with_reducible refine keep_foldl_snd (fun _ _ _ _ => ?_) ?_
    | (extract_lets +onlyGivenNames x; refine keep_cut (P x) ?_ (fun _ => ?_); unfold x; clear x; rotate_left; clear_value x)
    | (extract_lets +onlyGivenNames x; refine keep_cut (P x.2) ?_ (fun _ => ?_); unfold x; clear x; rotate_left; clear_value x)
    | (extract_lets +onlyGivenNames x; clear_value x)
    | split)

theorem State.logEvent_keeps {P : State → Prop} (hP : Closed 524336 P) {island event slice status arg0 arg1 arg2 : Nat} {s : State}  (h0 : P s) :
    P (State.logEvent island event slice status arg0 arg1 arg2 s) := by
  unfold State.logEvent
  repeat' (first
    | with_reducible assumption
    | with_reducible refine State.logPut_keeps (hP.mono rfl) ?_
    | with_reducible refine keep_foldl (fun _ _ _ => ?_) ?_
    | with_reducible refine keep_foldl_snd (fun _ _ _ _ => ?_) ?_
    | split)

theorem State.onSlice_keeps {P : State → Prop} (hP : Closed 64 P) {i : Nat} {f : SliceS → SliceS} {s : State}  (h0 : P s) :
    P (State.onSlice i f s) := by
  unfold State.onSlice
  repeat' (first
    | with_reducible assumption
    | with_reducible refine hP.sch rfl _ _ ?_
    | with_reducible refine keep_foldl (fun _ _ _ => ?_) ?_
    | with_reducible refine keep_foldl_snd (fun _ _ _ _ => ?_) ?_
    | split)

end Sys2Proof.Machine
end

