-- ==== Sys2Proof/Laws/KeepLongOps.lean ====
section
/-! SUPPORT. What the operations of Machine/LongOps.lean touch: each keeps every predicate that is closed under the parts named. -/

namespace Sys2Proof.Machine

set_option linter.unusedTactic false
set_option linter.unreachableTactic false
set_option linter.unusedVariables false
set_option linter.tactic.unusedName false

theorem State.onRing_keeps {P : State → Prop} (hP : Closed 16 P) {r : Nat} {f : Ring → Ring} {s : State}  (h0 : P s) :
    P (State.onRing r f s) := by
  unfold State.onRing
  repeat' (first
    | with_reducible assumption
    | with_reducible refine hP.host rfl _ _ ?_
    | with_reducible refine keep_foldl (fun _ _ _ => ?_) ?_
    | with_reducible refine keep_foldl_snd (fun _ _ _ _ => ?_) ?_
    | split)

theorem State.dmaError_keeps {P : State → Prop} (hP : Closed 16 P) {s : State}  (h0 : P s) :
    P (State.dmaError s) := by
  unfold State.dmaError
  repeat' (first
    | with_reducible assumption
    | with_reducible refine hP.host rfl _ _ ?_
    | with_reducible refine keep_foldl (fun _ _ _ => ?_) ?_
    | with_reducible refine keep_foldl_snd (fun _ _ _ _ => ?_) ?_
    | split)

theorem State.ringError_keeps {P : State → Prop} (hP : Closed 524304 P) {r : Nat} {f : Ring → Ring} {s : State}  (h0 : P s) :
    P (State.ringError r f s) := by
  unfold State.ringError
  repeat' (first
    | with_reducible assumption
    | with_reducible refine State.onRing_keeps (hP.mono rfl) ?_
    | with_reducible refine State.raise_keeps (hP.mono rfl) ?_
    | with_reducible refine keep_foldl (fun _ _ _ => ?_) ?_
    | with_reducible refine keep_foldl_snd (fun _ _ _ _ => ?_) ?_
    | split)

theorem State.hostTakes_keeps {P : State → Prop} (hP : Closed 786480 P) {o : LongOp} {s : State}  (h0 : P s) :
    P (State.hostTakes o s) := by
  unfold State.hostTakes
  have h1 := hP.free rfl s h0
  simp only
  split
  · exact h1
  · exact State.dmaError_keeps (hP.mono rfl) (State.ringError_keeps (hP.mono rfl) (State.logEvent_keeps (hP.mono rfl) h1))

/-- Raising an event leaves the link and the operations as they are. -/
theorem State.raise_host (i : Nat) (s : State) : (s.raise i).hostUp = s.hostUp ∧ (s.raise i).host.ops = s.host.ops := by
  unfold State.raise
  split
  · exact ⟨rfl, rfl⟩
  · dsimp only; split <;> exact ⟨rfl, rfl⟩

/-- So does logging one. -/
theorem State.logPut_host (e : LogEntry) (s : State) : (s.logPut e).hostUp = s.hostUp ∧ (s.logPut e).host.ops = s.host.ops := by
  unfold State.logPut State.logIrq
  dsimp only
  split
  · exact State.raise_host _ _
  · exact ⟨rfl, rfl⟩

/-- So does a write that the host takes or rejects. -/
theorem State.hostTakes_host (o : LongOp) (s : State) : (s.hostTakes o).hostUp = s.hostUp ∧ (s.hostTakes o).host.ops = s.host.ops := by
  unfold State.hostTakes
  dsimp only
  split
  · exact ⟨rfl, rfl⟩
  · have h := State.logPut_host
      { kind := 3, island := 94, record := eventRecord s.bump.now 0x0503 o.entry.slice 0 o.ring o.index o.entry.opTag } s.bump
    have r := State.raise_host 4 ((s.bump.logEvent 94 0x0503 o.entry.slice 0 o.ring o.index o.entry.opTag).onRing o.ring
      (fun r => { r with errStatus := true }))
    exact ⟨r.1.trans h.1, r.2.trans h.2⟩

/-- So does a status word. -/
theorem State.writeStatus_host (o : LongOp) (s : State) : (s.writeStatus o).hostUp = s.hostUp ∧ (s.writeStatus o).host.ops = s.host.ops := by
  unfold State.writeStatus
  split
  · exact ⟨rfl, rfl⟩
  · exact State.hostTakes_host _ _

/-- The operations after one has moved. -/
theorem State.setOp_op (id st : Nat) (c : Code) (progress : Nat) (s : State) : (s.setOp id st c progress).op id =
    (s.op id).map (fun o => { o with state := st, code := c, progress := progress }) := by
  unfold State.setOp
  split
  · rename_i h; rw [h]; rfl
  · rename_i o h
    unfold State.op
    rw [(State.writeStatus_host _ _).2, show s.host.ops.get? id = some o from h]
    exact Tbl.get?_set_same _ _ _

/-- Moving an operation leaves the link as it is. -/
theorem State.setOp_hostUp (id st : Nat) (c : Code) (progress : Nat) (s : State) : (s.setOp id st c progress).hostUp = s.hostUp := by
  unfold State.setOp
  split
  · rfl
  · exact (State.writeStatus_host _ _).1

/-- A queued operation that nothing holds back starts. -/
theorem State.startOp_queued {s : State} {opcode id : Nat} {o : LongOp} (h : s.op id = some o) (hop : o.entry.op = opcode)
    (hs : o.state = 1) (hf : (s.opsRunning < 16 && s.opFree id o) = true) :
    s.startOp opcode id = ((s.setOp id 2 .ok 0).op id).map (fun o => (o, s.setOp id 2 .ok 0)) := by
  unfold State.startOp
  rw [h]
  simp only [hop, hs, hf, ne_eq, not_true_eq_false, if_false, if_true]

theorem State.writeStatus_keeps {P : State → Prop} (hP : Closed 786480 P) {o : LongOp} {s : State}  (h0 : P s) :
    P (State.writeStatus o s) := by
  unfold State.writeStatus
  repeat' (first
    | with_reducible assumption
    | with_reducible refine State.hostTakes_keeps (hP.mono rfl) ?_
    | with_reducible refine hP.emitted rfl _ _ ?_
    | with_reducible refine State.dmaError_keeps (hP.mono rfl) ?_
    | with_reducible refine keep_foldl (fun _ _ _ => ?_) ?_
    | with_reducible refine keep_foldl_snd (fun _ _ _ _ => ?_) ?_
    | split)

theorem State.writeBuffer_keeps {P : State → Prop} (hP : Closed 786480 P) {o : LongOp} {data : List Byte} {s : State}  (h0 : P s) :
    P (State.writeBuffer o data s) := by
  unfold State.writeBuffer
  repeat' (first
    | with_reducible assumption
    | with_reducible refine State.hostTakes_keeps (hP.mono rfl) ?_
    | with_reducible refine hP.emitted rfl _ _ ?_
    | with_reducible refine State.dmaError_keeps (hP.mono rfl) ?_
    | with_reducible refine keep_foldl (fun _ _ _ => ?_) ?_
    | with_reducible refine keep_foldl_snd (fun _ _ _ _ => ?_) ?_
    | split)

theorem State.opIrq_keeps {P : State → Prop} (hP : Closed 524288 P) {o : LongOp} {s : State}  (h0 : P s) :
    P (State.opIrq o s) := by
  unfold State.opIrq
  repeat' (first
    | with_reducible assumption
    | with_reducible refine hP.emitted rfl _ _ ?_
    | with_reducible refine keep_foldl (fun _ _ _ => ?_) ?_
    | with_reducible refine keep_foldl_snd (fun _ _ _ _ => ?_) ?_
    | split)

theorem State.setOp_keeps {P : State → Prop} (hP : Closed 786480 P) {id st : Nat} {c : Code} {progress : Nat} {s : State}  (h0 : P s) :
    P (State.setOp id st c progress s) := by
  unfold State.setOp
  repeat' (first
    | with_reducible assumption
    | with_reducible refine hP.host rfl _ _ ?_
    | with_reducible refine State.writeStatus_keeps (hP.mono rfl) ?_
    | with_reducible refine keep_foldl (fun _ _ _ => ?_) ?_
    | with_reducible refine keep_foldl_snd (fun _ _ _ _ => ?_) ?_
    | (extract_lets +onlyGivenNames x; refine keep_cut (P x) ?_ (fun _ => ?_); unfold x; clear x; rotate_left; clear_value x)
    | (extract_lets +onlyGivenNames x; refine keep_cut (P x.2) ?_ (fun _ => ?_); unfold x; clear x; rotate_left; clear_value x)
    | (extract_lets +onlyGivenNames x; clear_value x)
    | split)

theorem State.endOp_keeps {P : State → Prop} (hP : Closed 786480 P) {id st : Nat} {c : Code} {progress : Nat} {s : State}  (h0 : P s) :
    P (State.endOp id st c progress s) := by
  unfold State.endOp
  repeat' (first
    | with_reducible assumption
    | with_reducible refine hP.host rfl _ _ ?_
    | with_reducible refine State.writeStatus_keeps (hP.mono rfl) ?_
    | with_reducible refine State.opIrq_keeps (hP.mono rfl) ?_
    | with_reducible refine keep_foldl (fun _ _ _ => ?_) ?_
    | with_reducible refine keep_foldl_snd (fun _ _ _ _ => ?_) ?_
    | (extract_lets +onlyGivenNames x; refine keep_cut (P x) ?_ (fun _ => ?_); unfold x; clear x; rotate_left; clear_value x)
    | (extract_lets +onlyGivenNames x; refine keep_cut (P x.2) ?_ (fun _ => ?_); unfold x; clear x; rotate_left; clear_value x)
    | (extract_lets +onlyGivenNames x; clear_value x)
    | split)

theorem State.opDone_keeps {P : State → Prop} (hP : Closed 786480 P) {id : Nat} {s : State}  (h0 : P s) :
    P (State.opDone id s) := by
  unfold State.opDone
  repeat' (first
    | with_reducible assumption
    | with_reducible refine State.endOp_keeps (hP.mono rfl) ?_
    | with_reducible refine keep_foldl (fun _ _ _ => ?_) ?_
    | with_reducible refine keep_foldl_snd (fun _ _ _ _ => ?_) ?_
    | split)

theorem State.opFail_keeps {P : State → Prop} (hP : Closed 786480 P) {id : Nat} {c : Code} {s : State}  (h0 : P s) :
    P (State.opFail id c s) := by
  unfold State.opFail
  repeat' (first
    | with_reducible assumption
    | with_reducible refine State.endOp_keeps (hP.mono rfl) ?_
    | with_reducible refine keep_foldl (fun _ _ _ => ?_) ?_
    | with_reducible refine keep_foldl_snd (fun _ _ _ _ => ?_) ?_
    | split)

theorem State.latchOp_keeps {P : State → Prop} (hP : Closed 786480 P) {id : Nat} {s : State}  (h0 : P s) :
    P (State.latchOp id s) := by
  unfold State.latchOp
  repeat' (first
    | with_reducible assumption
    | with_reducible refine hP.host rfl _ _ ?_
    | with_reducible refine State.writeStatus_keeps (hP.mono rfl) ?_
    | with_reducible refine keep_foldl (fun _ _ _ => ?_) ?_
    | with_reducible refine keep_foldl_snd (fun _ _ _ _ => ?_) ?_
    | split)

theorem State.opFail?_keeps {P : State → Prop} (hP : Closed 786480 P) {id : Option Nat} {c : Code} {s : State}  (h0 : P s) :
    P (State.opFail? id c s) := by
  unfold State.opFail?
  repeat' (first
    | with_reducible assumption
    | with_reducible refine State.opFail_keeps (hP.mono rfl) ?_
    | with_reducible refine keep_foldl (fun _ _ _ => ?_) ?_
    | with_reducible refine keep_foldl_snd (fun _ _ _ _ => ?_) ?_
    | split)

theorem State.startOp_keeps {P : State → Prop} (hP : Closed 786480 P) {s : State} {opcode id : Nat}  (h0 : P s) :
    OnSome (fun r => P r.2) (State.startOp s opcode id) := by
  unfold State.startOp
  repeat' (first
    | with_reducible assumption
    | with_reducible refine State.setOp_keeps (hP.mono rfl) ?_
    | with_reducible refine State.pastStep9_keeps (hP.mono rfl) ?_
    | with_reducible exact OnSome.none
    | with_reducible refine OnSome.some ?_
    | with_reducible refine keep_foldl (fun _ _ _ => ?_) ?_
    | with_reducible refine keep_foldl_snd (fun _ _ _ _ => ?_) ?_
    | (extract_lets +onlyGivenNames x; refine keep_cut (P x) ?_ (fun _ => ?_); unfold x; clear x; rotate_left; clear_value x)
    | (extract_lets +onlyGivenNames x; refine keep_cut (P x.2) ?_ (fun _ => ?_); unfold x; clear x; rotate_left; clear_value x)
    | (extract_lets +onlyGivenNames x; clear_value x)
    | with_reducible refine OnSome.map fun _ _ => ?_
    | with_reducible refine OnSome.findSome fun _ => ?_
    | split)
theorem State.startOp_some {P : State → Prop} (hP : Closed 786480 P) {s : State} {opcode id : Nat}  (h0 : P s) {a0 : LongOp} {t : State}
    (e : State.startOp s opcode id = some (a0, t)) : P t := State.startOp_keeps hP h0 _ e

theorem State.runOp_keeps {P : State → Prop} (hP : Closed 786480 P) {opcode id : Nat} {f : LongOp → State → State} {s : State} (kf : ∀ x0 s, P s → P (f x0 s)) (h0 : P s) :
    P (State.runOp opcode id f s) := by
  unfold State.runOp
  repeat' (first
    | with_reducible assumption
    | with_reducible refine State.startOp_keeps (hP.mono rfl) ?_
    | with_reducible refine State.startOp_some (hP.mono rfl) ?_ ‹_›
    | with_reducible refine kf _ _ ?_
    | with_reducible refine keep_foldl (fun _ _ _ => ?_) ?_
    | with_reducible refine keep_foldl_snd (fun _ _ _ _ => ?_) ?_
    | split)

theorem State.linked_keeps {P : State → Prop} (hP : Closed 16 P) {s : State}  (h0 : P s) :
    P (State.linked s) := by
  unfold State.linked
  repeat' (first
    | with_reducible assumption
    | with_reducible refine hP.host rfl _ _ ?_
    | with_reducible refine keep_foldl (fun _ _ _ => ?_) ?_
    | with_reducible refine keep_foldl_snd (fun _ _ _ _ => ?_) ?_
    | split)

theorem State.fromHost_keeps {P : State → Prop} (hP : Closed 16 P) {bar0 : Bool} {f : State → State} {s : State} (kf : ∀ s, P s → P (f s)) (h0 : P s) :
    P (State.fromHost bar0 f s) := by
  unfold State.fromHost
  repeat' (first
    | with_reducible assumption
    | with_reducible refine State.linked_keeps (hP.mono rfl) ?_
    | with_reducible refine kf _ ?_
    | with_reducible refine keep_foldl (fun _ _ _ => ?_) ?_
    | with_reducible refine keep_foldl_snd (fun _ _ _ _ => ?_) ?_
    | split)

theorem execDoorbell_keeps {P : State → Prop} (hP : Closed 524304 P) {ring : Fin 64} {tail : Nat} {s : State}  (h0 : P s) {t0 : State}
    (e : execDoorbell ring tail s = .next t0) : P t0 := by
  unfold execDoorbell at e
  cases e
  repeat' (first
    | with_reducible assumption
    | with_reducible refine State.whenUp_keeps (hP.mono rfl) (fun _ _ => ?_) ?_
    | with_reducible refine State.fromHost_keeps (hP.mono rfl) (fun _ _ => ?_) ?_
    | with_reducible refine State.onRing_keeps (hP.mono rfl) ?_
    | with_reducible refine State.ringError_keeps (hP.mono rfl) ?_
    | with_reducible refine keep_foldl (fun _ _ _ => ?_) ?_
    | with_reducible refine keep_foldl_snd (fun _ _ _ _ => ?_) ?_
    | (extract_lets +onlyGivenNames x; refine keep_cut (P x) ?_ (fun _ => ?_); unfold x; clear x; rotate_left; clear_value x)
    | (extract_lets +onlyGivenNames x; refine keep_cut (P x.2) ?_ (fun _ => ?_); unfold x; clear x; rotate_left; clear_value x)
    | (extract_lets +onlyGivenNames x; clear_value x)
    | split)

theorem State.admitEntry_keeps {P : State → Prop} (hP : Closed 786480 P) {ring index : Nat} {e : RingEntry} {s : State}  (h0 : P s) :
    P (State.admitEntry ring index e s) := by
  unfold State.admitEntry
  repeat' (first
    | with_reducible assumption
    | with_reducible refine hP.host rfl _ _ ?_
    | with_reducible refine State.ringError_keeps (hP.mono rfl) ?_
    | with_reducible refine State.writeStatus_keeps (hP.mono rfl) ?_
    | with_reducible refine State.opIrq_keeps (hP.mono rfl) ?_
    | with_reducible refine keep_foldl (fun _ _ _ => ?_) ?_
    | with_reducible refine keep_foldl_snd (fun _ _ _ _ => ?_) ?_
    | (extract_lets +onlyGivenNames x; refine keep_cut (P x) ?_ (fun _ => ?_); unfold x; clear x; rotate_left; clear_value x)
    | (extract_lets +onlyGivenNames x; refine keep_cut (P x.2) ?_ (fun _ => ?_); unfold x; clear x; rotate_left; clear_value x)
    | (extract_lets +onlyGivenNames x; clear_value x)
    | split)

theorem execRingEntryFetch_keeps {P : State → Prop} (hP : Closed 786480 P) {ring : Fin 64} {entry : Option (List Byte)} {s : State}  (h0 : P s) {t0 : State}
    (e : execRingEntryFetch ring entry s = .next t0) : P t0 := by
  unfold execRingEntryFetch at e
  cases e
  repeat' (first
    | with_reducible assumption
    | with_reducible refine State.whenUp_keeps (hP.mono rfl) (fun _ _ => ?_) ?_
    | with_reducible refine State.onRing_keeps (hP.mono rfl) ?_
    | with_reducible refine State.admitEntry_keeps (hP.mono rfl) ?_
    | with_reducible refine keep_foldl (fun _ _ _ => ?_) ?_
    | with_reducible refine keep_foldl_snd (fun _ _ _ _ => ?_) ?_
    | (extract_lets +onlyGivenNames x; refine keep_cut (P x) ?_ (fun _ => ?_); unfold x; clear x; rotate_left; clear_value x)
    | (extract_lets +onlyGivenNames x; refine keep_cut (P x.2) ?_ (fun _ => ?_); unfold x; clear x; rotate_left; clear_value x)
    | (extract_lets +onlyGivenNames x; clear_value x)
    | split)

end Sys2Proof.Machine
end

