-- ==== Sys2Proof/Laws/KeepXport.lean ====
section
/-! SUPPORT. What the operations of Machine/Xport.lean touch: each keeps every predicate that is closed under the parts named. -/

namespace Sys2Proof.Machine

set_option linter.unusedTactic false
set_option linter.unreachableTactic false
set_option linter.unusedVariables false
set_option linter.tactic.unusedName false

theorem State.onGroup_keeps {P : State → Prop} (hP : Closed 16384 P) {g : Nat} {f : GroupS → GroupS} {s : State}  (h0 : P s) :
    P (State.onGroup g f s) := by
  unfold State.onGroup
  repeat' (first
    | with_reducible assumption
    | with_reducible refine hP.eth rfl _ _ ?_
    | with_reducible refine keep_foldl (fun _ _ _ => ?_) ?_
    | with_reducible refine keep_foldl_snd (fun _ _ _ _ => ?_) ?_
    | split)

theorem State.refillGroup_keeps {P : State → Prop} (hP : Closed 16384 P) {g : Nat} {s : State}  (h0 : P s) :
    P (State.refillGroup g s) := by
  unfold State.refillGroup
  repeat' (first
    | with_reducible assumption
    | with_reducible refine State.onGroup_keeps (hP.mono rfl) ?_
    | with_reducible refine keep_foldl (fun _ _ _ => ?_) ?_
    | with_reducible refine keep_foldl_snd (fun _ _ _ _ => ?_) ?_
    | split)

theorem State.chargeRx_keeps {P : State → Prop} (hP : Closed 16384 P) {g bytes : Nat} {s : State}  (h0 : P s) :
    P (State.chargeRx g bytes s) := by
  unfold State.chargeRx
  repeat' (first
    | with_reducible assumption
    | with_reducible refine State.refillGroup_keeps (hP.mono rfl) ?_
    | with_reducible refine State.onGroup_keeps (hP.mono rfl) ?_
    | with_reducible refine keep_foldl (fun _ _ _ => ?_) ?_
    | with_reducible refine keep_foldl_snd (fun _ _ _ _ => ?_) ?_
    | split)

theorem State.chargeTx_keeps {P : State → Prop} (hP : Closed 16384 P) {g bytes : Nat} {s : State}  (h0 : P s) :
    P (State.chargeTx g bytes s) := by
  unfold State.chargeTx
  repeat' (first
    | with_reducible assumption
    | with_reducible refine State.refillGroup_keeps (hP.mono rfl) ?_
    | with_reducible refine State.onGroup_keeps (hP.mono rfl) ?_
    | with_reducible refine keep_foldl (fun _ _ _ => ?_) ?_
    | with_reducible refine keep_foldl_snd (fun _ _ _ _ => ?_) ?_
    | split)

theorem State.startRamp_keeps {P : State → Prop} (hP : Closed 16384 P) {g : Nat} {s : State}  (h0 : P s) :
    P (State.startRamp g s) := by
  unfold State.startRamp
  repeat' (first
    | with_reducible assumption
    | with_reducible refine State.refillGroup_keeps (hP.mono rfl) ?_
    | with_reducible refine State.onGroup_keeps (hP.mono rfl) ?_
    | with_reducible refine keep_foldl (fun _ _ _ => ?_) ?_
    | with_reducible refine keep_foldl_snd (fun _ _ _ _ => ?_) ?_
    | split)

theorem State.rampAll_keeps {P : State → Prop} (hP : Closed 16384 P) {s : State}  (h0 : P s) :
    P (State.rampAll s) := by
  unfold State.rampAll
  repeat' (first
    | with_reducible assumption
    | with_reducible refine State.startRamp_keeps (hP.mono rfl) ?_
    | with_reducible refine keep_foldl (fun _ _ _ => ?_) ?_
    | with_reducible refine keep_foldl_snd (fun _ _ _ _ => ?_) ?_
    | split)

/-- A change of one context that leaves a context in RTS there. -/
theorem State.onCtx_keeps {P : State → Prop} (hP : Closed 2097152 P) {q : Nat} {f : Ctx → Ctx} {s : State}
    (k : ∀ c : Ctx, c.state = .rts → (f c).state = .rts) (h0 : P s) : P (State.onCtx q f s) := by
  refine hP.link rfl _ _ (fun x j h => ?_) h0
  rw [Tbl.get?_modify]
  split
  · rename_i hj
    rw [hj] at h
    cases hx : x.ctxs.get? q with
    | none => rw [hx] at h; cases h
    | some c =>
      rw [hx] at h
      simp only [Option.map_some, Option.some.injEq] at h ⊢
      exact k c h
  · exact h

/-- A change of one context. -/
theorem State.onCtx_any {P : State → Prop} (hP : Closed 8192 P) {q : Nat} {f : Ctx → Ctx} {s : State} (h0 : P s) :
    P (State.onCtx q f s) := hP.xpt rfl _ _ h0

theorem State.roomOnDie_keeps {P : State → Prop} (hP : Closed 2097152 P) {s : State} {i : Nat}  (h0 : P s) :
    OnSome P (State.roomOnDie s i) := by
  unfold State.roomOnDie
  repeat' (first
    | with_reducible assumption
    | with_reducible refine State.onCtx_keeps (hP.mono rfl) (fun _ h => h) ?_
    | with_reducible refine State.onCtx_keeps (hP.mono rfl) (by intro _ h; try dsimp only; split <;> exact h) ?_
    | with_reducible exact OnSome.none
    | with_reducible refine OnSome.some ?_
    | with_reducible refine keep_foldl (fun _ _ _ => ?_) ?_
    | with_reducible refine keep_foldl_snd (fun _ _ _ _ => ?_) ?_
    | with_reducible refine OnSome.map fun _ _ => ?_
    | with_reducible refine OnSome.findSome fun _ => ?_
    | split)
theorem State.roomOnDie_some {P : State → Prop} (hP : Closed 2097152 P) {s : State} {i : Nat}  (h0 : P s) {t : State}
    (e : State.roomOnDie s i = some t) : P t := State.roomOnDie_keeps hP h0 t e

theorem State.toRts_keeps {P : State → Prop} (hP : Closed 2097152 P) {q : Nat} {s : State}  (h0 : P s) :
    P (State.toRts q s) := by
  unfold State.toRts
  repeat' (first
    | with_reducible assumption
    | with_reducible refine State.onCtx_keeps (hP.mono rfl) (fun _ _ => rfl) ?_
    | with_reducible refine State.onCtx_keeps (hP.mono rfl) (fun _ h => h) ?_
    | with_reducible refine State.onCtx_keeps (hP.mono rfl) (by intro _ h; try dsimp only; split <;> exact h) ?_
    | with_reducible refine keep_foldl (fun _ _ _ => ?_) ?_
    | with_reducible refine keep_foldl_snd (fun _ _ _ _ => ?_) ?_
    | split)

theorem State.onPort_keeps {P : State → Prop} (hP : Closed 16384 P) {p : Nat} {f : PortS → PortS} {s : State}  (h0 : P s) :
    P (State.onPort p f s) := by
  unfold State.onPort
  repeat' (first
    | with_reducible assumption
    | with_reducible refine hP.eth rfl _ _ ?_
    | with_reducible refine keep_foldl (fun _ _ _ => ?_) ?_
    | with_reducible refine keep_foldl_snd (fun _ _ _ _ => ?_) ?_
    | split)

theorem State.enqueue_keeps {P : State → Prop} (hP : Closed 16384 P) {port : Nat} {t : TxPkt} {s : State}  (h0 : P s) :
    P (State.enqueue port t s) := by
  unfold State.enqueue
  repeat' (first
    | with_reducible assumption
    | with_reducible refine State.onPort_keeps (hP.mono rfl) ?_
    | with_reducible refine keep_foldl (fun _ _ _ => ?_) ?_
    | with_reducible refine keep_foldl_snd (fun _ _ _ _ => ?_) ?_
    | (extract_lets +onlyGivenNames x; refine keep_cut (P x) ?_ (fun _ => ?_); unfold x; clear x; rotate_left; clear_value x)
    | (extract_lets +onlyGivenNames x; refine keep_cut (P x.2) ?_ (fun _ => ?_); unfold x; clear x; rotate_left; clear_value x)
    | (extract_lets +onlyGivenNames x; clear_value x)
    | split)

theorem State.sendControl_keeps {P : State → Prop} (hP : Closed 16384 P) {q inner : Nat} {b : TxBody} {s : State}  (h0 : P s) :
    P (State.sendControl q inner b s) := by
  unfold State.sendControl
  repeat' (first
    | with_reducible assumption
    | with_reducible refine State.enqueue_keeps (hP.mono rfl) ?_
    | with_reducible refine keep_foldl (fun _ _ _ => ?_) ?_
    | with_reducible refine keep_foldl_snd (fun _ _ _ _ => ?_) ?_
    | split)

theorem State.sendMessage_keeps {P : State → Prop} (hP : Closed 2097152 P) {q queue bytes : Nat} {data : List Byte} {b : TxBody} {s : State}  (h0 : P s) :
    P (State.sendMessage q queue bytes data b s) := by
  unfold State.sendMessage
  repeat' (first
    | with_reducible assumption
    | with_reducible refine State.onCtx_keeps (hP.mono rfl) (fun _ h => h) ?_
    | with_reducible refine State.onCtx_keeps (hP.mono rfl) (by intro _ h; try dsimp only; split <;> exact h) ?_
    | with_reducible refine keep_foldl (fun _ _ _ => ?_) ?_
    | with_reducible refine keep_foldl_snd (fun _ _ _ _ => ?_) ?_
    | (extract_lets +onlyGivenNames x; refine keep_cut (P x) ?_ (fun _ => ?_); unfold x; clear x; rotate_left; clear_value x)
    | (extract_lets +onlyGivenNames x; refine keep_cut (P x.2) ?_ (fun _ => ?_); unfold x; clear x; rotate_left; clear_value x)
    | (extract_lets +onlyGivenNames x; clear_value x)
    | split)

theorem State.respond_keeps {P : State → Prop} (hP : Closed 2097152 P) {h : ExtHdr} {op variant : Nat} {code : Code} {aux : Nat} {body : RespBody} {s : State}  (h0 : P s) :
    P (State.respond h op variant code aux body s) := by
  unfold State.respond
  repeat' (first
    | with_reducible assumption
    | with_reducible refine State.sendMessage_keeps (hP.mono rfl) ?_
    | with_reducible refine keep_foldl (fun _ _ _ => ?_) ?_
    | with_reducible refine keep_foldl_snd (fun _ _ _ _ => ?_) ?_
    | (extract_lets +onlyGivenNames x; refine keep_cut (P x) ?_ (fun _ => ?_); unfold x; clear x; rotate_left; clear_value x)
    | (extract_lets +onlyGivenNames x; refine keep_cut (P x.2) ?_ (fun _ => ?_); unfold x; clear x; rotate_left; clear_value x)
    | (extract_lets +onlyGivenNames x; clear_value x)
    | split)

theorem State.dropReq_keeps {P : State → Prop} (hP : Closed 2132160 P) {r : Nat} {s : State}  (h0 : P s) :
    P (State.dropReq r s) := by
  unfold State.dropReq
  repeat' (first
    | with_reducible assumption
    | with_reducible refine hP.sch rfl _ _ ?_
    | with_reducible refine hP.eng rfl _ _ ?_
    | with_reducible refine hP.home rfl _ _ ?_
    | with_reducible refine hP.reqs rfl _ _ (fun t => ?_) ?_
    | with_reducible refine State.onCtx_keeps (hP.mono rfl) (fun _ h => h) ?_
    | with_reducible refine State.onCtx_keeps (hP.mono rfl) (by intro _ h; try dsimp only; split <;> exact h) ?_
    | with_reducible refine keep_foldl (fun _ _ _ => ?_) ?_
    | with_reducible refine keep_foldl_snd (fun _ _ _ _ => ?_) ?_
    | exact Tbl.keys_erase _ _
    | exact Tbl.keys_modify _ _ _
    | exact Tbl.keys_map (fun _ => rfl)
    | exact Tbl.keys_map (fun p => by split <;> rfl)
    | (extract_lets +onlyGivenNames x; refine keep_cut (P x) ?_ (fun _ => ?_); unfold x; clear x; rotate_left; clear_value x)
    | (extract_lets +onlyGivenNames x; refine keep_cut (P x.2) ?_ (fun _ => ?_); unfold x; clear x; rotate_left; clear_value x)
    | (extract_lets +onlyGivenNames x; clear_value x)
    | split)

theorem State.countFault_keeps {P : State → Prop} (hP : Closed 2099200 P) {c : Code} {s : State}  (h0 : P s) :
    P (State.countFault c s) := by
  unfold State.countFault
  repeat' (first
    | with_reducible assumption
    | with_reducible refine hP.home rfl _ _ ?_
    | with_reducible refine hP.link rfl _ _ (fun _ _ h => h) ?_
    | with_reducible refine keep_foldl (fun _ _ _ => ?_) ?_
    | with_reducible refine keep_foldl_snd (fun _ _ _ _ => ?_) ?_
    | split)

theorem State.countAdmitted_keeps {P : State → Prop} (hP : Closed 16384 P) {g : Nat} {s : State}  (h0 : P s) :
    P (State.countAdmitted g s) := by
  unfold State.countAdmitted
  repeat' (first
    | with_reducible assumption
    | with_reducible refine State.onGroup_keeps (hP.mono rfl) ?_
    | with_reducible refine keep_foldl (fun _ _ _ => ?_) ?_
    | with_reducible refine keep_foldl_snd (fun _ _ _ _ => ?_) ?_
    | split)

theorem State.countRetry_keeps {P : State → Prop} (hP : Closed 16384 P) {g : Nat} {s : State}  (h0 : P s) :
    P (State.countRetry g s) := by
  unfold State.countRetry
  repeat' (first
    | with_reducible assumption
    | with_reducible refine State.onGroup_keeps (hP.mono rfl) ?_
    | with_reducible refine keep_foldl (fun _ _ _ => ?_) ?_
    | with_reducible refine keep_foldl_snd (fun _ _ _ _ => ?_) ?_
    | split)

theorem State.dropPkt_keeps {P : State → Prop} (hP : Closed 2097152 P) {s : State}  (h0 : P s) :
    P (State.dropPkt s) := by
  unfold State.dropPkt
  repeat' (first
    | with_reducible assumption
    | with_reducible refine hP.link rfl _ _ (fun _ _ h => h) ?_
    | with_reducible refine keep_foldl (fun _ _ _ => ?_) ?_
    | with_reducible refine keep_foldl_snd (fun _ _ _ _ => ?_) ?_
    | split)

theorem State.missPkt_keeps {P : State → Prop} (hP : Closed 2113536 P) {k : Pkt} {cmd : Instr} {cnp : Bool} {s : State}  (h0 : P s) :
    P (State.missPkt k cmd cnp s) := by
  unfold State.missPkt
  repeat' (first
    | with_reducible assumption
    | with_reducible refine hP.eth rfl _ _ ?_
    | with_reducible refine hP.link rfl _ _ (fun _ _ h => h) ?_
    | with_reducible refine State.onCtx_keeps (hP.mono rfl) (fun _ h => h) ?_
    | with_reducible refine State.onCtx_keeps (hP.mono rfl) (by intro _ h; try dsimp only; split <;> exact h) ?_
    | with_reducible refine State.sendControl_keeps (hP.mono rfl) ?_
    | with_reducible refine keep_foldl (fun _ _ _ => ?_) ?_
    | with_reducible refine keep_foldl_snd (fun _ _ _ _ => ?_) ?_
    | (extract_lets +onlyGivenNames x; refine keep_cut (P x) ?_ (fun _ => ?_); unfold x; clear x; rotate_left; clear_value x)
    | (extract_lets +onlyGivenNames x; refine keep_cut (P x.2) ?_ (fun _ => ?_); unfold x; clear x; rotate_left; clear_value x)
    | (extract_lets +onlyGivenNames x; clear_value x)
    | split)

theorem State.noteCe_keeps {P : State → Prop} (hP : Closed 2113536 P) {k : Pkt} {packets : Nat} {s : State}  (h0 : P s) :
    P (State.noteCe k packets s) := by
  unfold State.noteCe
  repeat' (first
    | with_reducible assumption
    | with_reducible refine hP.eth rfl _ _ ?_
    | with_reducible refine State.onCtx_keeps (hP.mono rfl) (fun _ h => h) ?_
    | with_reducible refine State.onCtx_keeps (hP.mono rfl) (by intro _ h; try dsimp only; split <;> exact h) ?_
    | with_reducible refine State.sendControl_keeps (hP.mono rfl) ?_
    | with_reducible refine keep_foldl (fun _ _ _ => ?_) ?_
    | with_reducible refine keep_foldl_snd (fun _ _ _ _ => ?_) ?_
    | (extract_lets +onlyGivenNames x; refine keep_cut (P x) ?_ (fun _ => ?_); unfold x; clear x; rotate_left; clear_value x)
    | (extract_lets +onlyGivenNames x; refine keep_cut (P x.2) ?_ (fun _ => ?_); unfold x; clear x; rotate_left; clear_value x)
    | (extract_lets +onlyGivenNames x; clear_value x)
    | split)

theorem State.arrive_error {P : State → Prop} (hP : Closed 2113536 P) {k : Pkt} {cmd : Instr} {cnp : Bool} {s t : State} (h0 : P s)
    (e : State.arrive k cmd cnp s = .error t) : P t := by
  unfold State.arrive at e
  repeat' (first
    | with_reducible assumption
    | (injection e with e; subst e; with_reducible assumption)
    | (injection e with e; subst e; with_reducible refine State.dropPkt_keeps (hP.mono rfl) ?_)
    | (injection e with e; subst e; with_reducible refine State.missPkt_keeps (hP.mono rfl) ?_)
    | (injection e; done)
    | split at e)

/-- What holds of the state an arrival leaves, whichever way it goes. -/
def Rx.all (P : State → Prop) : Rx → Prop
  | .over s => P s
  | .fresh _ s => P s
  | .duplicate _ s => P s

theorem State.receive_keeps {P : State → Prop} (hP : Closed 2113536 P) {k : Pkt} {cmd : Instr} {packets : Nat} {s : State} (h0 : P s) :
    Rx.all P (State.receive k cmd packets s) := by
  unfold State.receive
  split
  · exact State.arrive_error hP h0 ‹_›
  · repeat' (first
      | with_reducible assumption
      | with_reducible refine hP.link rfl _ _ (fun _ _ h => h) ?_
      | with_reducible refine State.chargeRx_keeps (hP.mono rfl) ?_
      | with_reducible refine State.onCtx_keeps (hP.mono rfl) (fun _ h => h) ?_
      | with_reducible refine State.noteCe_keeps (hP.mono rfl) ?_
      | with_reducible refine State.toRts_keeps (hP.mono rfl) ?_
      | with_reducible refine State.sendControl_keeps (hP.mono rfl) ?_
      | (extract_lets +onlyGivenNames x; refine keep_cut (P x) ?_ (fun _ => ?_); unfold x; clear x; rotate_left; clear_value x)
      | (extract_lets +onlyGivenNames x; clear_value x)
      | (show P _)
      | split)
theorem State.receive_over {P : State → Prop} (hP : Closed 2113536 P) {k : Pkt} {cmd : Instr} {packets : Nat} {s t : State} (h0 : P s)
    (e : State.receive k cmd packets s = .over t) : P t := by have := State.receive_keeps hP h0 (P := P) (k := k) (cmd := cmd) (packets := packets); rw [e] at this; exact this
theorem State.receive_fresh {P : State → Prop} (hP : Closed 2113536 P) {k : Pkt} {cmd : Instr} {packets : Nat} {s t : State} {c : Ctx} (h0 : P s)
    (e : State.receive k cmd packets s = .fresh c t) : P t := by have := State.receive_keeps hP h0 (P := P) (k := k) (cmd := cmd) (packets := packets); rw [e] at this; exact this
theorem State.receive_duplicate {P : State → Prop} (hP : Closed 2113536 P) {k : Pkt} {cmd : Instr} {packets : Nat} {s t : State} {c : Ctx} (h0 : P s)
    (e : State.receive k cmd packets s = .duplicate c t) : P t := by have := State.receive_keeps hP h0 (P := P) (k := k) (cmd := cmd) (packets := packets); rw [e] at this; exact this

theorem State.acceptPsn_keeps {P : State → Prop} (hP : Closed 2113536 P) {k : Pkt} {packets : Nat} {s : State}  (h0 : P s) :
    P (State.acceptPsn k packets s) := by
  unfold State.acceptPsn
  repeat' (first
    | with_reducible assumption
    | with_reducible refine State.onCtx_keeps (hP.mono rfl) (fun _ h => h) ?_
    | with_reducible refine State.onCtx_keeps (hP.mono rfl) (by intro _ h; try dsimp only; split <;> exact h) ?_
    | with_reducible refine State.sendControl_keeps (hP.mono rfl) ?_
    | with_reducible refine keep_foldl (fun _ _ _ => ?_) ?_
    | with_reducible refine keep_foldl_snd (fun _ _ _ _ => ?_) ?_
    | (extract_lets +onlyGivenNames x; refine keep_cut (P x) ?_ (fun _ => ?_); unfold x; clear x; rotate_left; clear_value x)
    | (extract_lets +onlyGivenNames x; refine keep_cut (P x.2) ?_ (fun _ => ?_); unfold x; clear x; rotate_left; clear_value x)
    | (extract_lets +onlyGivenNames x; clear_value x)
    | split)

theorem State.extRefuse_keeps {P : State → Prop} (hP : Closed 2115584 P) {h : ExtHdr} {c : Ctx} {sp : ExtSpec} {code : Code} {s : State}
    (ksp : ∀ k s, P s → P (sp.refused k s)) (h0 : P s) : P (State.extRefuse h c sp code s) := by
  unfold State.extRefuse
  repeat' (first
    | with_reducible assumption
    | with_reducible refine ksp _ _ ?_
    | with_reducible refine State.countFault_keeps (hP.mono rfl) ?_
    | with_reducible refine State.countRetry_keeps (hP.mono rfl) ?_
    | with_reducible refine State.respond_keeps (hP.mono rfl) ?_
    | with_reducible refine keep_foldl (fun _ _ _ => ?_) ?_
    | with_reducible refine keep_foldl_snd (fun _ _ _ _ => ?_) ?_
    | (extract_lets +onlyGivenNames x; refine keep_cut (P x) ?_ (fun _ => ?_); unfold x; clear x; rotate_left; clear_value x)
    | (extract_lets +onlyGivenNames x; refine keep_cut (P x.2) ?_ (fun _ => ?_); unfold x; clear x; rotate_left; clear_value x)
    | (extract_lets +onlyGivenNames x; clear_value x)
    | split)

theorem State.extended_keeps {P : State → Prop} (hP : Closed 2115584 P) {h : ExtHdr} {cmd : Instr} {sp : Ctx → ExtSpec} {run : Ctx → State → State}
    {s : State} (ksp : ∀ c k s, P s → P ((sp c).refused k s)) (krun : ∀ c s, P s → P (run c s)) (h0 : P s) :
    P (State.extended h cmd sp run s) := by
  unfold State.extended
  repeat' (first
    | with_reducible assumption
    | with_reducible refine State.receive_over (hP.mono rfl) ?_ ‹_›
    | with_reducible refine State.receive_fresh (hP.mono rfl) ?_ ‹_›
    | with_reducible refine State.receive_duplicate (hP.mono rfl) ?_ ‹_›
    | with_reducible refine State.sendControl_keeps (hP.mono rfl) ?_
    | with_reducible refine State.acceptPsn_keeps (hP.mono rfl) ?_
    | with_reducible refine State.countAdmitted_keeps (hP.mono rfl) ?_
    | with_reducible refine State.extRefuse_keeps (hP.mono rfl) (ksp _) ?_
    | with_reducible refine krun _ _ ?_
    | with_reducible refine keep_foldl (fun _ _ _ => ?_) ?_
    | with_reducible refine keep_foldl_snd (fun _ _ _ _ => ?_) ?_
    | (extract_lets +onlyGivenNames x; refine keep_cut (P x) ?_ (fun _ => ?_); unfold x; clear x; rotate_left; clear_value x)
    | (extract_lets +onlyGivenNames x; refine keep_cut (P x.2) ?_ (fun _ => ?_); unfold x; clear x; rotate_left; clear_value x)
    | (extract_lets +onlyGivenNames x; clear_value x)
    | split)

end Sys2Proof.Machine
end

