-- ==== Sys2Proof/Laws/KeepSpace.lean ====
section
/-! SUPPORT. What the operations of Machine/Space.lean touch: each keeps every predicate that is closed under the parts named. -/

namespace Sys2Proof.Machine

set_option linter.unusedTactic false
set_option linter.unreachableTactic false
set_option linter.unusedVariables false
set_option linter.tactic.unusedName false

theorem State.clearMark_keeps {P : State → Prop} (hP : Closed 524800 P) {s : State} (h0 : P s) : P (State.clearMark s) := by
  unfold State.clearMark
  split
  · refine hP.emitted rfl _ _ (hP.mem rfl _ _ (fun _ => rfl) (fun m hm => ?_) h0)
    rw [Mem.ok_iff] at *
    refine ⟨hm.1, fun d hd => ?_⟩
    obtain ⟨x, hx, rfl⟩ := List.mem_map.mp hd
    exact hm.2 x hx
  · exact h0

theorem State.allocIn_keeps {P : State → Prop} (hP : Closed 524800 P) {s : State} {slice stack kind n : Nat} (h0 : P s) :
    OnSome (fun r => P r.2) (State.allocIn s slice stack kind n) := by
  unfold State.allocIn
  have k : ∀ f : Mem → Mem, (∀ m : Mem, (f m).cells = m.cells) → (∀ m : Mem, m.ok = true → (f m).ok = true) → P (s.clearMark.onMem f) :=
    fun f a b => hP.mem rfl _ _ a b (State.clearMark_keeps (hP.mono rfl) h0)
  split
  · exact OnSome.none
  · extract_lets x
    have kx : ∀ i u y, P (x i u y).2 := by
      intro i u y
      unfold x
      exact keep_snd (k _ (fun _ => rfl) (fun _ h => h))
    clear_value x
    repeat' (first
      | with_reducible exact OnSome.none
      | with_reducible refine OnSome.some (kx _ _ _)
      | with_reducible refine OnSome.map (fun _ _ => kx _ _ _)
      | split)
theorem State.allocIn_some {P : State → Prop} (hP : Closed 524800 P) {s : State} {slice stack kind n : Nat} (h0 : P s) {a : Nat × Nat} {t : State}
    (e : State.allocIn s slice stack kind n = some (a, t)) : P t := State.allocIn_keeps hP h0 _ e

theorem State.allocFrom_keeps {P : State → Prop} (hP : Closed 524800 P) {s : State} {slice kind n : Nat} {l : List Nat} (h0 : P s) :
    OnSome (fun r => P r.2) (State.allocFrom s slice kind n l) := by
  induction l with
  | nil => exact OnSome.none
  | cons k t ih =>
    unfold State.allocFrom
    split
    · rename_i r h
      exact OnSome.some (State.allocIn_keeps hP h0 r h)
    · exact ih
theorem State.allocFrom_some {P : State → Prop} (hP : Closed 524800 P) {s : State} {slice kind n : Nat} {l : List Nat} (h0 : P s) {a : Nat × Nat}
    {t : State} (e : State.allocFrom s slice kind n l = some (a, t)) : P t := State.allocFrom_keeps hP h0 _ e

theorem State.freeUnit_keeps {P : State → Prop} (hP : Closed 524800 P) {place : Nat × Nat} {s : State}  (h0 : P s) :
    P (State.freeUnit place s) := by
  unfold State.freeUnit
  repeat' (first
    | with_reducible assumption
    | with_reducible refine hP.mem rfl _ _ ?_ ?_ ?_
    | with_reducible refine State.clearMark_keeps (hP.mono rfl) ?_
    | with_reducible refine keep_foldl (fun _ _ _ => ?_) ?_
    | with_reducible refine keep_foldl_snd (fun _ _ _ _ => ?_) ?_
    | exact fun _ => rfl
    | exact fun _ h => h
    | (extract_lets +onlyGivenNames x; refine keep_cut (P x) ?_ (fun _ => ?_); unfold x; clear x; rotate_left; clear_value x)
    | (extract_lets +onlyGivenNames x; refine keep_cut (P x.2) ?_ (fun _ => ?_); unfold x; clear x; rotate_left; clear_value x)
    | (extract_lets +onlyGivenNames x; clear_value x)
    | split)

theorem State.retire_keeps {P : State → Prop} (hP : Closed 524800 P) {q : Nat} {r : Retired} {s : State}  (h0 : P s) :
    P (State.retire q r s) := by
  unfold State.retire
  repeat' (first
    | with_reducible assumption
    | with_reducible refine hP.mem rfl _ _ ?_ ?_ ?_
    | with_reducible refine State.clearMark_keeps (hP.mono rfl) ?_
    | with_reducible refine keep_foldl (fun _ _ _ => ?_) ?_
    | with_reducible refine keep_foldl_snd (fun _ _ _ _ => ?_) ?_
    | exact fun _ => rfl
    | exact fun _ h => h
    | split)

theorem State.retireUnit_keeps {P : State → Prop} (hP : Closed 524928 P) {q : Nat} {place : Nat × Nat} {n : Nat} {s : State}  (h0 : P s) :
    P (State.retireUnit q place n s) := by
  unfold State.retireUnit
  repeat' (first
    | with_reducible assumption
    | with_reducible refine hP.eng rfl _ _ ?_
    | with_reducible refine State.retire_keeps (hP.mono rfl) ?_
    | with_reducible refine keep_foldl (fun _ _ _ => ?_) ?_
    | with_reducible refine keep_foldl_snd (fun _ _ _ _ => ?_) ?_
    | exact fun _ => rfl
    | exact fun _ h => h
    | (extract_lets +onlyGivenNames x; refine keep_cut (P x) ?_ (fun _ => ?_); unfold x; clear x; rotate_left; clear_value x)
    | (extract_lets +onlyGivenNames x; refine keep_cut (P x.2) ?_ (fun _ => ?_); unfold x; clear x; rotate_left; clear_value x)
    | (extract_lets +onlyGivenNames x; clear_value x)
    | split)

theorem State.retireExtent_keeps {P : State → Prop} (hP : Closed 524800 P) {q drive granule n : Nat} {s : State}  (h0 : P s) :
    P (State.retireExtent q drive granule n s) := by
  unfold State.retireExtent
  repeat' (first
    | with_reducible assumption
    | with_reducible refine State.retire_keeps (hP.mono rfl) ?_
    | with_reducible refine keep_foldl (fun _ _ _ => ?_) ?_
    | with_reducible refine keep_foldl_snd (fun _ _ _ _ => ?_) ?_
    | exact fun _ => rfl
    | exact fun _ h => h
    | split)

theorem Tbl.modify_mem {α : Type} {t : Tbl α} {k : Nat} {f : α → α} {x : Nat × α} (h : x ∈ t.modify k f) :
    x ∈ t ∨ ∃ y ∈ t, x = (y.1, f y.2) := by
  unfold Tbl.modify at h
  obtain ⟨y, hy, rfl⟩ := List.mem_map.mp h
  split
  · exact .inr ⟨y, hy, rfl⟩
  · exact .inl hy

theorem Mem.ok_modify {m : Mem} {d : Nat} {f : Drive → Drive} (k : ∀ x : Drive, (f x).cells = x.cells) (h : m.ok = true) :
    Mem.ok { m with drives := m.drives.modify d f } = true := by
  rw [Mem.ok_iff] at *
  refine ⟨h.1, fun x hx => ?_⟩
  rcases Tbl.modify_mem hx with e | ⟨y, hy, rfl⟩
  · exact h.2 x e
  · rw [k]
    exact h.2 y hy

theorem State.capDrives_keeps {P : State → Prop} (hP : Closed 512 P) {s : State}  (h0 : P s) :
    P (State.capDrives s) := by
  unfold State.capDrives
  repeat' (first
    | with_reducible assumption
    | with_reducible refine hP.mem rfl _ _ ?_ ?_ ?_
    | with_reducible refine keep_foldl (fun _ _ _ => ?_) ?_
    | with_reducible refine keep_foldl_snd (fun _ _ _ _ => ?_) ?_
    | exact fun _ => rfl
    | exact fun _ h => h
    | (extract_lets +onlyGivenNames x; refine keep_cut (P x) ?_ (fun _ => ?_); unfold x; clear x; rotate_left; clear_value x)
    | (extract_lets +onlyGivenNames x; refine keep_cut (P x.2) ?_ (fun _ => ?_); unfold x; clear x; rotate_left; clear_value x)
    | (extract_lets +onlyGivenNames x; clear_value x)
    | exact fun m hm => Mem.ok_modify (fun _ => rfl) hm
    | split)

theorem Mem.ok_map {m : Mem} {g : Nat × Drive → Nat × Drive} (k : ∀ d, (g d).2.cells = d.2.cells) (h : m.ok = true) :
    Mem.ok { m with drives := m.drives.map g } = true := by
  rw [Mem.ok_iff] at *
  refine ⟨h.1, fun d hd => ?_⟩
  obtain ⟨x, hx, rfl⟩ := List.mem_map.mp hd
  rw [k]
  exact h.2 x hx

theorem State.onDrive_keeps {P : State → Prop} (hP : Closed 512 P) {d : Nat} {f : Drive → Drive} {s : State}
    (kf : ∀ x : Drive, Memory.wf x.cells = true → Memory.wf (f x).cells = true) (h0 : P s) : P (State.onDrive d f s) := by
  unfold State.onDrive
  refine hP.mem rfl _ _ (fun _ => rfl) (fun m hm => ?_) h0
  rw [Mem.ok_iff] at *
  refine ⟨hm.1, fun x hx => ?_⟩
  rcases Tbl.modify_mem hx with h | ⟨y, hy, rfl⟩
  · exact hm.2 x h
  · exact kf _ (hm.2 y hy)

theorem State.allocExtent_keeps {P : State → Prop} (hP : Closed 524800 P) {s : State} {slice : Nat} {n : PageName} {count : Nat}  (h0 : P s) :
    OnSome (fun r => P r.2) (State.allocExtent s slice n count) := by
  unfold State.allocExtent
  repeat' (first
    | with_reducible assumption
    | with_reducible refine State.clearMark_keeps (hP.mono rfl) ?_
    | with_reducible refine State.onDrive_keeps (hP.mono rfl) ?_ ?_
    | with_reducible exact OnSome.none
    | with_reducible refine OnSome.some ?_
    | with_reducible refine keep_foldl (fun _ _ _ => ?_) ?_
    | with_reducible refine keep_foldl_snd (fun _ _ _ _ => ?_) ?_
    | exact fun _ => rfl
    | exact fun _ h => h
    | (extract_lets +onlyGivenNames x; refine keep_cut (P x) ?_ (fun _ => ?_); unfold x; clear x; rotate_left; clear_value x)
    | (extract_lets +onlyGivenNames x; refine keep_cut (P x.2) ?_ (fun _ => ?_); unfold x; clear x; rotate_left; clear_value x)
    | (extract_lets +onlyGivenNames x; clear_value x)
    | with_reducible refine OnSome.map fun _ _ => ?_
    | with_reducible refine OnSome.findSome fun _ => ?_
    | split)
theorem State.allocExtent_some {P : State → Prop} (hP : Closed 524800 P) {s : State} {slice : Nat} {n : PageName} {count : Nat}  (h0 : P s) {a0 : (Nat × Nat)} {t : State}
    (e : State.allocExtent s slice n count = some (a0, t)) : P t := State.allocExtent_keeps hP h0 _ e

theorem State.issueOne_keeps {P : State → Prop} (hP : Closed 524800 P) {d : Nat} {s : State}  (h0 : P s) :
    P (State.issueOne d s) := by
  unfold State.issueOne
  repeat' (first
    | with_reducible assumption
    | with_reducible refine hP.emitted rfl _ _ ?_
    | with_reducible refine State.onDrive_keeps (hP.mono rfl) ?_ ?_
    | with_reducible refine keep_foldl (fun _ _ _ => ?_) ?_
    | with_reducible refine keep_foldl_snd (fun _ _ _ _ => ?_) ?_
    | exact fun _ => rfl
    | exact fun _ h => h
    | (extract_lets +onlyGivenNames x; refine keep_cut (P x) ?_ (fun _ => ?_); unfold x; clear x; rotate_left; clear_value x)
    | (extract_lets +onlyGivenNames x; refine keep_cut (P x.2) ?_ (fun _ => ?_); unfold x; clear x; rotate_left; clear_value x)
    | (extract_lets +onlyGivenNames x; clear_value x)
    | split)

theorem State.issueAll_keeps {P : State → Prop} (hP : Closed 524800 P) {d : Nat} {s : State}  (h0 : P s) :
    P (State.issueAll d s) := by
  unfold State.issueAll
  repeat' (first
    | with_reducible assumption
    | with_reducible refine State.issueOne_keeps (hP.mono rfl) ?_
    | with_reducible refine keep_foldl (fun _ _ _ => ?_) ?_
    | with_reducible refine keep_foldl_snd (fun _ _ _ _ => ?_) ?_
    | exact fun _ => rfl
    | exact fun _ h => h
    | split)

theorem State.addCmds_keeps {P : State → Prop} (hP : Closed 524800 P) {d : Nat} {c : NvmeCmd} {granule bytes : Nat} {s : State} (h0 : P s) :
    P (State.addCmds d c granule bytes s) := by
  unfold State.addCmds
  exact State.issueAll_keeps (hP.mono rfl) (State.onDrive_keeps (hP.mono rfl)
    (fun x hx => keep_fold_any (P := fun y : Drive => Memory.wf y.cells = true) (fun _ _ h => h) hx) h0)

theorem State.dropCmds_keeps {P : State → Prop} (hP : Closed 512 P) {d slice : Nat} {n : PageName} {s : State}  (h0 : P s) :
    P (State.dropCmds d slice n s) := by
  unfold State.dropCmds
  repeat' (first
    | with_reducible assumption
    | with_reducible refine State.onDrive_keeps (hP.mono rfl) ?_ ?_
    | with_reducible refine keep_foldl (fun _ _ _ => ?_) ?_
    | with_reducible refine keep_foldl_snd (fun _ _ _ _ => ?_) ?_
    | exact fun _ => rfl
    | exact fun _ h => h
    | split)

theorem State.freeExtent_keeps {P : State → Prop} (hP : Closed 524800 P) {d g n : Nat} {s : State}  (h0 : P s) :
    P (State.freeExtent d g n s) := by
  unfold State.freeExtent
  repeat' (first
    | with_reducible assumption
    | with_reducible refine State.clearMark_keeps (hP.mono rfl) ?_
    | with_reducible refine State.onDrive_keeps (hP.mono rfl) ?_ ?_
    | with_reducible refine State.issueAll_keeps (hP.mono rfl) ?_
    | with_reducible refine keep_foldl (fun _ _ _ => ?_) ?_
    | with_reducible refine keep_foldl_snd (fun _ _ _ _ => ?_) ?_
    | exact fun _ => rfl
    | exact fun _ h => h
    | exact fun _ h => Memory.wf_cellZero _ _ h
    | split)

theorem State.onEntry_keeps {P : State → Prop} (hP : Closed 526848 P) {slice : Nat} {n : PageName} {f : Entry → Entry} {s : State}  (h0 : P s) :
    P (State.onEntry slice n f s) := by
  unfold State.onEntry
  repeat' (first
    | with_reducible assumption
    | with_reducible refine hP.home rfl _ _ ?_
    | with_reducible refine State.clearMark_keeps (hP.mono rfl) ?_
    | with_reducible refine keep_foldl (fun _ _ _ => ?_) ?_
    | with_reducible refine keep_foldl_snd (fun _ _ _ _ => ?_) ?_
    | exact fun _ => rfl
    | exact fun _ h => h
    | split)

theorem State.onSeq_keeps {P : State → Prop} (hP : Closed 526848 P) {slice handle : Nat} {f : SeqRec → SeqRec} {s : State}  (h0 : P s) :
    P (State.onSeq slice handle f s) := by
  unfold State.onSeq
  repeat' (first
    | with_reducible assumption
    | with_reducible refine hP.home rfl _ _ ?_
    | with_reducible refine State.clearMark_keeps (hP.mono rfl) ?_
    | with_reducible refine keep_foldl (fun _ _ _ => ?_) ?_
    | with_reducible refine keep_foldl_snd (fun _ _ _ _ => ?_) ?_
    | exact fun _ => rfl
    | exact fun _ h => h
    | split)

theorem State.newEntry_keeps {P : State → Prop} (hP : Closed 788992 P) {s : State} {slice : Nat} {n : PageName}  (h0 : P s) :
    OnSome P (State.newEntry s slice n) := by
  unfold State.newEntry
  repeat' (first
    | with_reducible assumption
    | with_reducible refine hP.home rfl _ _ ?_
    | with_reducible refine hP.free rfl _ ?_
    | with_reducible refine State.clearMark_keeps (hP.mono rfl) ?_
    | with_reducible refine State.onSeq_keeps (hP.mono rfl) ?_
    | with_reducible exact OnSome.none
    | with_reducible refine OnSome.some ?_
    | with_reducible refine keep_foldl (fun _ _ _ => ?_) ?_
    | with_reducible refine keep_foldl_snd (fun _ _ _ _ => ?_) ?_
    | exact fun _ => rfl
    | exact fun _ h => h
    | (extract_lets +onlyGivenNames x; refine keep_cut (P x) ?_ (fun _ => ?_); unfold x; clear x; rotate_left; clear_value x)
    | (extract_lets +onlyGivenNames x; refine keep_cut (P x.2) ?_ (fun _ => ?_); unfold x; clear x; rotate_left; clear_value x)
    | (extract_lets +onlyGivenNames x; clear_value x)
    | with_reducible refine OnSome.map fun _ _ => ?_
    | with_reducible refine OnSome.findSome fun _ => ?_
    | split)
theorem State.newEntry_some {P : State → Prop} (hP : Closed 788992 P) {s : State} {slice : Nat} {n : PageName}  (h0 : P s) {t : State}
    (e : State.newEntry s slice n = some t) : P t := State.newEntry_keeps hP h0 t e

theorem State.countNameRefusal_keeps {P : State → Prop} (hP : Closed 2048 P) {s : State}  (h0 : P s) :
    P (State.countNameRefusal s) := by
  unfold State.countNameRefusal
  repeat' (first
    | with_reducible assumption
    | with_reducible refine hP.home rfl _ _ ?_
    | with_reducible refine keep_foldl (fun _ _ _ => ?_) ?_
    | with_reducible refine keep_foldl_snd (fun _ _ _ _ => ?_) ?_
    | split)

theorem State.dropEntry_keeps {P : State → Prop} (hP : Closed 526848 P) {slice : Nat} {n : PageName} {s : State}  (h0 : P s) :
    P (State.dropEntry slice n s) := by
  unfold State.dropEntry
  repeat' (first
    | with_reducible assumption
    | with_reducible refine hP.mem rfl _ _ ?_ ?_ ?_
    | with_reducible refine hP.home rfl _ _ ?_
    | with_reducible refine State.clearMark_keeps (hP.mono rfl) ?_
    | with_reducible refine State.onSeq_keeps (hP.mono rfl) ?_
    | with_reducible refine keep_foldl (fun _ _ _ => ?_) ?_
    | with_reducible refine keep_foldl_snd (fun _ _ _ _ => ?_) ?_
    | exact fun _ => rfl
    | exact fun _ h => h
    | (extract_lets +onlyGivenNames x; refine keep_cut (P x) ?_ (fun _ => ?_); unfold x; clear x; rotate_left; clear_value x)
    | (extract_lets +onlyGivenNames x; refine keep_cut (P x.2) ?_ (fun _ => ?_); unfold x; clear x; rotate_left; clear_value x)
    | (extract_lets +onlyGivenNames x; clear_value x)
    | split)

theorem State.writeAccHeader_keeps {P : State → Prop} (hP : Closed 17664 P) {a : Accumulator} {s : State}  (h0 : P s) :
    P (State.writeAccHeader a s) := by
  unfold State.writeAccHeader
  repeat' (first
    | with_reducible assumption
    | with_reducible refine State.memWriteN_keeps (hP.mono rfl) ?_
    | with_reducible refine keep_foldl (fun _ _ _ => ?_) ?_
    | with_reducible refine keep_foldl_snd (fun _ _ _ _ => ?_) ?_
    | exact fun _ => rfl
    | exact fun _ h => h
    | split)

theorem State.accGen_keeps {P : State → Prop} (hP : Closed 19712 P) {slice : Nat} {n : PageName} {relocation : Bool} {gen : Nat} {s : State}  (h0 : P s) :
    P (State.accGen slice n relocation gen s) := by
  unfold State.accGen
  repeat' (first
    | with_reducible assumption
    | with_reducible refine hP.home rfl _ _ ?_
    | with_reducible refine State.writeAccHeader_keeps (hP.mono rfl) ?_
    | with_reducible refine keep_foldl (fun _ _ _ => ?_) ?_
    | with_reducible refine keep_foldl_snd (fun _ _ _ _ => ?_) ?_
    | exact fun _ => rfl
    | exact fun _ h => h
    | (extract_lets +onlyGivenNames x; refine keep_cut (P x) ?_ (fun _ => ?_); unfold x; clear x; rotate_left; clear_value x)
    | (extract_lets +onlyGivenNames x; refine keep_cut (P x.2) ?_ (fun _ => ?_); unfold x; clear x; rotate_left; clear_value x)
    | (extract_lets +onlyGivenNames x; clear_value x)
    | split)

theorem State.tellReplicas_keeps {P : State → Prop} (hP : Closed 2097152 P) {slice : Nat} {n : PageName} {f : Nat → TxBody} {s : State}  (h0 : P s) :
    P (State.tellReplicas slice n f s) := by
  unfold State.tellReplicas
  repeat' (first
    | with_reducible assumption
    | with_reducible refine hP.link rfl _ _ (fun _ _ h => h) ?_
    | with_reducible refine keep_foldl (fun _ _ _ => ?_) ?_
    | with_reducible refine keep_foldl_snd (fun _ _ _ _ => ?_) ?_
    | split)

theorem State.onReplica_keeps {P : State → Prop} (hP : Closed 2048 P) {slice : Nat} {n : PageName} {f : Replica → Replica} {s : State}  (h0 : P s) :
    P (State.onReplica slice n f s) := by
  unfold State.onReplica
  repeat' (first
    | with_reducible assumption
    | with_reducible refine hP.home rfl _ _ ?_
    | with_reducible refine keep_foldl (fun _ _ _ => ?_) ?_
    | with_reducible refine keep_foldl_snd (fun _ _ _ _ => ?_) ?_
    | split)

theorem State.revokeGrants_keeps {P : State → Prop} (hP : Closed 2099200 P) {slice : Nat} {n : PageName} {s : State}  (h0 : P s) :
    P (State.revokeGrants slice n s) := by
  unfold State.revokeGrants
  repeat' (first
    | with_reducible assumption
    | with_reducible refine State.tellReplicas_keeps (hP.mono rfl) ?_
    | with_reducible refine State.onReplica_keeps (hP.mono rfl) ?_
    | with_reducible refine keep_foldl (fun _ _ _ => ?_) ?_
    | with_reducible refine keep_foldl_snd (fun _ _ _ _ => ?_) ?_
    | (extract_lets +onlyGivenNames x; refine keep_cut (P x) ?_ (fun _ => ?_); unfold x; clear x; rotate_left; clear_value x)
    | (extract_lets +onlyGivenNames x; refine keep_cut (P x.2) ?_ (fun _ => ?_); unfold x; clear x; rotate_left; clear_value x)
    | (extract_lets +onlyGivenNames x; clear_value x)
    | split)

theorem State.beginMove_keeps {P : State → Prop} (hP : Closed 2099200 P) {slice : Nat} {n : PageName} {k : MoveKind} {s : State}  (h0 : P s) :
    P (State.beginMove slice n k s) := by
  unfold State.beginMove
  repeat' (first
    | with_reducible assumption
    | with_reducible refine hP.home rfl _ _ ?_
    | with_reducible refine State.revokeGrants_keeps (hP.mono rfl) ?_
    | with_reducible refine keep_foldl (fun _ _ _ => ?_) ?_
    | with_reducible refine keep_foldl_snd (fun _ _ _ _ => ?_) ?_
    | split)

theorem State.bumpGen_keeps {P : State → Prop} (hP : Closed 2641664 P) {slice : Nat} {n : PageName} {relocation : Bool} {s : State}  (h0 : P s) :
    P (State.bumpGen slice n relocation s) := by
  unfold State.bumpGen
  repeat' (first
    | with_reducible assumption
    | with_reducible refine State.onEntry_keeps (hP.mono rfl) ?_
    | with_reducible refine State.accGen_keeps (hP.mono rfl) ?_
    | with_reducible refine State.revokeGrants_keeps (hP.mono rfl) ?_
    | with_reducible refine State.clearMark_keeps (hP.mono rfl) ?_
    | with_reducible refine State.tellReplicas_keeps (hP.mono rfl) ?_
    | with_reducible refine State.onReplica_keeps (hP.mono rfl) ?_
    | with_reducible refine keep_foldl (fun _ _ _ => ?_) ?_
    | with_reducible refine keep_foldl_snd (fun _ _ _ _ => ?_) ?_
    | exact fun _ => rfl
    | exact fun _ h => h
    | (extract_lets +onlyGivenNames x; refine keep_cut (P x) ?_ (fun _ => ?_); unfold x; clear x; rotate_left; clear_value x)
    | (extract_lets +onlyGivenNames x; refine keep_cut (P x.2) ?_ (fun _ => ?_); unfold x; clear x; rotate_left; clear_value x)
    | (extract_lets +onlyGivenNames x; clear_value x)
    | split)

theorem State.freeRetired_keeps {P : State → Prop} (hP : Closed 524800 P) {r : Retired} {s : State}  (h0 : P s) :
    P (State.freeRetired r s) := by
  unfold State.freeRetired
  repeat' (first
    | with_reducible assumption
    | with_reducible refine State.freeExtent_keeps (hP.mono rfl) ?_
    | with_reducible refine State.retire_keeps (hP.mono rfl) ?_
    | with_reducible refine State.freeUnit_keeps (hP.mono rfl) ?_
    | with_reducible refine keep_foldl (fun _ _ _ => ?_) ?_
    | with_reducible refine keep_foldl_snd (fun _ _ _ _ => ?_) ?_
    | exact fun _ => rfl
    | exact fun _ h => h
    | (extract_lets +onlyGivenNames x; refine keep_cut (P x) ?_ (fun _ => ?_); unfold x; clear x; rotate_left; clear_value x)
    | (extract_lets +onlyGivenNames x; refine keep_cut (P x.2) ?_ (fun _ => ?_); unfold x; clear x; rotate_left; clear_value x)
    | (extract_lets +onlyGivenNames x; clear_value x)
    | split)

theorem State.hullIn_keeps {P : State → Prop} (hP : Closed 524800 P) {s : State} {slice stack : Nat} {f : PageFormat}  (h0 : P s) :
    OnSome (fun r => P r.2) (State.hullIn s slice stack f) := by
  unfold State.hullIn
  repeat' (first
    | with_reducible assumption
    | with_reducible refine State.allocIn_keeps (hP.mono rfl) ?_
    | with_reducible refine State.allocIn_some (hP.mono rfl) ?_ ‹_›
    | with_reducible exact OnSome.none
    | with_reducible refine OnSome.some ?_
    | with_reducible refine keep_foldl (fun _ _ _ => ?_) ?_
    | with_reducible refine keep_foldl_snd (fun _ _ _ _ => ?_) ?_
    | exact fun _ => rfl
    | exact fun _ h => h
    | (extract_lets +onlyGivenNames x; refine keep_cut (P x) ?_ (fun _ => ?_); unfold x; clear x; rotate_left; clear_value x)
    | (extract_lets +onlyGivenNames x; refine keep_cut (P x.2) ?_ (fun _ => ?_); unfold x; clear x; rotate_left; clear_value x)
    | (extract_lets +onlyGivenNames x; clear_value x)
    | with_reducible refine OnSome.map fun _ _ => ?_
    | with_reducible refine OnSome.findSome fun _ => ?_
    | split)
theorem State.hullIn_some {P : State → Prop} (hP : Closed 524800 P) {s : State} {slice stack : Nat} {f : PageFormat}  (h0 : P s) {a0 : (Nat × Nat × Nat)} {t : State}
    (e : State.hullIn s slice stack f = some (a0, t)) : P t := State.hullIn_keeps hP h0 _ e

theorem State.hullFrom_keeps {P : State → Prop} (hP : Closed 524800 P) {s : State} {slice : Nat} {f : PageFormat} {l : List Nat} (h0 : P s) :
    OnSome (fun r => P r.2) (State.hullFrom s slice f l) := by
  induction l with
  | nil => exact OnSome.none
  | cons k t ih =>
    unfold State.hullFrom
    split
    · rename_i r h
      exact OnSome.some (State.hullIn_keeps hP h0 r h)
    · exact ih
theorem State.hullFrom_some {P : State → Prop} (hP : Closed 524800 P) {s : State} {slice : Nat} {f : PageFormat} {l : List Nat} (h0 : P s)
    {a : Nat × Nat × Nat} {t : State} (e : State.hullFrom s slice f l = some (a, t)) : P t := State.hullFrom_keeps hP h0 _ e

theorem State.writeHull_keeps {P : State → Prop} (hP : Closed 544512 P) {slice : Nat} {n : PageName} {scale fill : Nat} {s : State}  (h0 : P s) :
    P (State.writeHull slice n scale fill s) := by
  unfold State.writeHull
  repeat' (first
    | with_reducible assumption
    | with_reducible refine State.hullFrom_some (hP.mono rfl) ?_ ‹_›
    | with_reducible refine State.onEntry_keeps (hP.mono rfl) ?_
    | with_reducible refine State.hullFrom_keeps (hP.mono rfl) ?_
    | with_reducible refine State.hullFrom_some (hP.mono rfl) ?_ ‹_›
    | with_reducible refine State.memWriteN_keeps (hP.mono rfl) ?_
    | with_reducible refine keep_foldl (fun _ _ _ => ?_) ?_
    | with_reducible refine keep_foldl_snd (fun _ _ _ _ => ?_) ?_
    | exact fun _ => rfl
    | exact fun _ h => h
    | (extract_lets +onlyGivenNames x; refine keep_cut (P x) ?_ (fun _ => ?_); unfold x; clear x; rotate_left; clear_value x)
    | (extract_lets +onlyGivenNames x; refine keep_cut (P x.2) ?_ (fun _ => ?_); unfold x; clear x; rotate_left; clear_value x)
    | (extract_lets +onlyGivenNames x; clear_value x)
    | (injection ‹some _ = some _› with h; injection h with _ h; subst h)
    | split at *
    | split)

theorem State.sendCopy_keeps {P : State → Prop} (hP : Closed 2099200 P) {slice : Nat} {n : PageName} {node : Nat} {s : State}  (h0 : P s) :
    P (State.sendCopy slice n node s) := by
  unfold State.sendCopy
  repeat' (first
    | with_reducible assumption
    | with_reducible refine hP.link rfl _ _ (fun _ _ h => h) ?_
    | with_reducible refine State.onReplica_keeps (hP.mono rfl) ?_
    | with_reducible refine keep_foldl (fun _ _ _ => ?_) ?_
    | with_reducible refine keep_foldl_snd (fun _ _ _ _ => ?_) ?_
    | (extract_lets +onlyGivenNames x; refine keep_cut (P x) ?_ (fun _ => ?_); unfold x; clear x; rotate_left; clear_value x)
    | (extract_lets +onlyGivenNames x; refine keep_cut (P x.2) ?_ (fun _ => ?_); unfold x; clear x; rotate_left; clear_value x)
    | (extract_lets +onlyGivenNames x; clear_value x)
    | split)

theorem State.copyOut_keeps {P : State → Prop} (hP : Closed 2099200 P) {slice : Nat} {n : PageName} {s : State}  (h0 : P s) :
    P (State.copyOut slice n s) := by
  unfold State.copyOut
  repeat' (first
    | with_reducible assumption
    | with_reducible refine State.sendCopy_keeps (hP.mono rfl) ?_
    | with_reducible refine keep_foldl (fun _ _ _ => ?_) ?_
    | with_reducible refine keep_foldl_snd (fun _ _ _ _ => ?_) ?_
    | split)

theorem State.setPageState_keeps {P : State → Prop} (hP : Closed 2624000 P) {slice : Nat} {n : PageName} {st : PageState} {s : State}  (h0 : P s) :
    P (State.setPageState slice n st s) := by
  unfold State.setPageState
  repeat' (first
    | with_reducible assumption
    | with_reducible refine State.revokeGrants_keeps (hP.mono rfl) ?_
    | with_reducible refine State.onEntry_keeps (hP.mono rfl) ?_
    | with_reducible refine State.copyOut_keeps (hP.mono rfl) ?_
    | with_reducible refine keep_foldl (fun _ _ _ => ?_) ?_
    | with_reducible refine keep_foldl_snd (fun _ _ _ _ => ?_) ?_
    | exact fun _ => rfl
    | exact fun _ h => h
    | (extract_lets +onlyGivenNames x; refine keep_cut (P x) ?_ (fun _ => ?_); unfold x; clear x; rotate_left; clear_value x)
    | (extract_lets +onlyGivenNames x; refine keep_cut (P x.2) ?_ (fun _ => ?_); unfold x; clear x; rotate_left; clear_value x)
    | (extract_lets +onlyGivenNames x; clear_value x)
    | split)

theorem State.retireHull_keeps {P : State → Prop} (hP : Closed 526848 P) {slice : Nat} {n : PageName} {s : State}  (h0 : P s) :
    P (State.retireHull slice n s) := by
  unfold State.retireHull
  repeat' (first
    | with_reducible assumption
    | with_reducible refine State.retire_keeps (hP.mono rfl) ?_
    | with_reducible refine State.onEntry_keeps (hP.mono rfl) ?_
    | with_reducible refine keep_foldl (fun _ _ _ => ?_) ?_
    | with_reducible refine keep_foldl_snd (fun _ _ _ _ => ?_) ?_
    | exact fun _ => rfl
    | exact fun _ h => h
    | split)

theorem State.fillShadow_keeps {P : State → Prop} (hP : Closed 17664 P) {f : PageFormat} {src dst : Nat × Nat} {keyScale valueScale fill : Nat} {s : State}  (h0 : P s) :
    P (State.fillShadow f src dst keyScale valueScale fill s) := by
  unfold State.fillShadow
  repeat' (first
    | with_reducible assumption
    | with_reducible refine State.busBytes_keeps (hP.mono rfl) ?_
    | with_reducible refine State.zeroGranules_keeps (hP.mono rfl) ?_
    | with_reducible refine keep_foldl (fun _ _ _ => ?_) ?_
    | with_reducible refine keep_foldl_snd (fun _ _ _ _ => ?_) ?_
    | exact fun _ => rfl
    | exact fun _ h => h
    | (extract_lets +onlyGivenNames x; refine keep_cut (P x) ?_ (fun _ => ?_); unfold x; clear x; rotate_left; clear_value x)
    | (extract_lets +onlyGivenNames x; refine keep_cut (P x.2) ?_ (fun _ => ?_); unfold x; clear x; rotate_left; clear_value x)
    | (extract_lets +onlyGivenNames x; clear_value x)
    | split)

theorem State.retireShadow_keeps {P : State → Prop} (hP : Closed 526976 P) {slice : Nat} {n : PageName} {s : State}  (h0 : P s) :
    P (State.retireShadow slice n s) := by
  unfold State.retireShadow
  repeat' (first
    | with_reducible assumption
    | with_reducible refine State.retireUnit_keeps (hP.mono rfl) ?_
    | with_reducible refine State.onEntry_keeps (hP.mono rfl) ?_
    | with_reducible refine keep_foldl (fun _ _ _ => ?_) ?_
    | with_reducible refine keep_foldl_snd (fun _ _ _ _ => ?_) ?_
    | exact fun _ => rfl
    | exact fun _ h => h
    | split)

theorem State.allocFrame_keeps {P : State → Prop} (hP : Closed 524800 P) {s : State} {slice : Nat} {n : PageName}  (h0 : P s) :
    OnSome (fun r => P r.2) (State.allocFrame s slice n) := by
  unfold State.allocFrame
  repeat' (first
    | with_reducible assumption
    | with_reducible refine State.allocFrom_keeps (hP.mono rfl) ?_
    | with_reducible refine State.allocFrom_some (hP.mono rfl) ?_ ‹_›
    | with_reducible exact OnSome.none
    | with_reducible refine OnSome.some ?_
    | with_reducible refine keep_foldl (fun _ _ _ => ?_) ?_
    | with_reducible refine keep_foldl_snd (fun _ _ _ _ => ?_) ?_
    | exact fun _ => rfl
    | exact fun _ h => h
    | (extract_lets +onlyGivenNames x; refine keep_cut (P x) ?_ (fun _ => ?_); unfold x; clear x; rotate_left; clear_value x)
    | (extract_lets +onlyGivenNames x; refine keep_cut (P x.2) ?_ (fun _ => ?_); unfold x; clear x; rotate_left; clear_value x)
    | (extract_lets +onlyGivenNames x; clear_value x)
    | with_reducible refine OnSome.map fun _ _ => ?_
    | with_reducible refine OnSome.findSome fun _ => ?_
    | split)
theorem State.allocFrame_some {P : State → Prop} (hP : Closed 524800 P) {s : State} {slice : Nat} {n : PageName}  (h0 : P s) {a0 : (Nat × Nat)} {t : State}
    (e : State.allocFrame s slice n = some (a0, t)) : P t := State.allocFrame_keeps hP h0 _ e

end Sys2Proof.Machine
end

