-- ==== Sys2Proof/Laws/KeepHomeOps.lean ====
section
/-! SUPPORT. What the operations of Machine/HomeOps.lean touch: each keeps every predicate that is closed under the parts named. -/

namespace Sys2Proof.Machine

set_option linter.unusedTactic false
set_option linter.unreachableTactic false
set_option linter.unusedVariables false
set_option linter.tactic.unusedName false

theorem State.dropWriteFrame_keeps {P : State → Prop} (hP : Closed 526976 P) {slice : Nat} {n : PageName} {s : State}  (h0 : P s) :
    P (State.dropWriteFrame slice n s) := by
  unfold State.dropWriteFrame
  repeat' (first
    | with_reducible assumption
    | with_reducible refine State.retireUnit_keeps (hP.mono rfl) ?_
    | with_reducible refine State.onEntry_keeps (hP.mono rfl) ?_
    | with_reducible refine keep_foldl (fun _ _ _ => ?_) ?_
    | with_reducible refine keep_foldl_snd (fun _ _ _ _ => ?_) ?_
    | exact fun _ => rfl
    | exact fun _ h => h
    | split)

theorem State.dropReplica_keeps {P : State → Prop} (hP : Closed 2099200 P) {slice : Nat} {n : PageName} {s : State}  (h0 : P s) :
    P (State.dropReplica slice n s) := by
  unfold State.dropReplica
  repeat' (first
    | with_reducible assumption
    | with_reducible refine hP.home rfl _ _ ?_
    | with_reducible refine State.tellReplicas_keeps (hP.mono rfl) ?_
    | with_reducible refine keep_foldl (fun _ _ _ => ?_) ?_
    | with_reducible refine keep_foldl_snd (fun _ _ _ _ => ?_) ?_
    | split)

theorem State.retireFrames_keeps {P : State → Prop} (hP : Closed 526976 P) {slice : Nat} {n : PageName} {s : State}  (h0 : P s) :
    P (State.retireFrames slice n s) := by
  unfold State.retireFrames
  repeat' (first
    | with_reducible assumption
    | with_reducible refine State.retireUnit_keeps (hP.mono rfl) ?_
    | with_reducible refine State.retireExtent_keeps (hP.mono rfl) ?_
    | with_reducible refine State.dropWriteFrame_keeps (hP.mono rfl) ?_
    | with_reducible refine State.retireShadow_keeps (hP.mono rfl) ?_
    | with_reducible refine State.retireHull_keeps (hP.mono rfl) ?_
    | with_reducible refine keep_foldl (fun _ _ _ => ?_) ?_
    | with_reducible refine keep_foldl_snd (fun _ _ _ _ => ?_) ?_
    | exact fun _ => rfl
    | exact fun _ h => h
    | (extract_lets +onlyGivenNames x; refine keep_cut (P x) ?_ (fun _ => ?_); unfold x; clear x; rotate_left; clear_value x)
    | (extract_lets +onlyGivenNames x; refine keep_cut (P x.2) ?_ (fun _ => ?_); unfold x; clear x; rotate_left; clear_value x)
    | (extract_lets +onlyGivenNames x; clear_value x)
    | split)

theorem State.writeSlots_keeps {P : State → Prop} (hP : Closed 128 P) {slice : Nat} {n : PageName} {st : Nat} {code : Code} {s : State}  (h0 : P s) :
    P (State.writeSlots slice n st code s) := by
  unfold State.writeSlots
  repeat' (first
    | with_reducible assumption
    | with_reducible refine hP.eng rfl _ _ ?_
    | with_reducible refine keep_foldl (fun _ _ _ => ?_) ?_
    | with_reducible refine keep_foldl_snd (fun _ _ _ _ => ?_) ?_
    | (extract_lets +onlyGivenNames x; refine keep_cut (P x) ?_ (fun _ => ?_); unfold x; clear x; rotate_left; clear_value x)
    | (extract_lets +onlyGivenNames x; refine keep_cut (P x.2) ?_ (fun _ => ?_); unfold x; clear x; rotate_left; clear_value x)
    | (extract_lets +onlyGivenNames x; clear_value x)
    | split)

theorem State.accGen_false_keeps {P : State → Prop} (hP : Closed 2048 P) {slice gen : Nat} {n : PageName} {s : State} (h0 : P s) :
    P (State.accGen slice n false gen s) := by
  unfold State.accGen
  extract_lets x
  rw [if_neg Bool.false_ne_true]
  exact hP.home rfl _ _ h0

theorem State.discardPage_keeps {P : State → Prop} (hP : Closed 2624128 P) {slice : Nat} {n : PageName} {s : State}  (h0 : P s) :
    P (State.discardPage slice n s) := by
  unfold State.discardPage
  repeat' (first
    | with_reducible assumption
    | with_reducible refine State.accGen_false_keeps (hP.mono rfl) ?_
    | with_reducible refine State.retireFrames_keeps (hP.mono rfl) ?_
    | with_reducible refine State.dropReplica_keeps (hP.mono rfl) ?_
    | with_reducible refine State.writeSlots_keeps (hP.mono rfl) ?_
    | with_reducible refine State.dropEntry_keeps (hP.mono rfl) ?_
    | with_reducible refine keep_foldl (fun _ _ _ => ?_) ?_
    | with_reducible refine keep_foldl_snd (fun _ _ _ _ => ?_) ?_
    | exact fun _ => rfl
    | exact fun _ h => h
    | (extract_lets +onlyGivenNames x; refine keep_cut (P x) ?_ (fun _ => ?_); unfold x; clear x; rotate_left; clear_value x)
    | (extract_lets +onlyGivenNames x; refine keep_cut (P x.2) ?_ (fun _ => ?_); unfold x; clear x; rotate_left; clear_value x)
    | (extract_lets +onlyGivenNames x; clear_value x)
    | split)

theorem State.tearPage_keeps {P : State → Prop} (hP : Closed 2624128 P) {slice : Nat} {n : PageName} {s : State}  (h0 : P s) :
    P (State.tearPage slice n s) := by
  unfold State.tearPage
  repeat' (first
    | with_reducible assumption
    | with_reducible refine hP.home rfl _ _ ?_
    | with_reducible refine State.dropWriteFrame_keeps (hP.mono rfl) ?_
    | with_reducible refine State.setPageState_keeps (hP.mono rfl) ?_
    | with_reducible refine keep_foldl (fun _ _ _ => ?_) ?_
    | with_reducible refine keep_foldl_snd (fun _ _ _ _ => ?_) ?_
    | exact fun _ => rfl
    | exact fun _ h => h
    | (extract_lets +onlyGivenNames x; refine keep_cut (P x) ?_ (fun _ => ?_); unfold x; clear x; rotate_left; clear_value x)
    | (extract_lets +onlyGivenNames x; refine keep_cut (P x.2) ?_ (fun _ => ?_); unfold x; clear x; rotate_left; clear_value x)
    | (extract_lets +onlyGivenNames x; clear_value x)
    | split)

theorem State.abandonPage_keeps {P : State → Prop} (hP : Closed 2624128 P) {slice : Nat} {n : PageName} {s : State}  (h0 : P s) :
    P (State.abandonPage slice n s) := by
  unfold State.abandonPage
  repeat' (first
    | with_reducible assumption
    | with_reducible refine State.dropWriteFrame_keeps (hP.mono rfl) ?_
    | with_reducible refine State.discardPage_keeps (hP.mono rfl) ?_
    | with_reducible refine State.setPageState_keeps (hP.mono rfl) ?_
    | with_reducible refine keep_foldl (fun _ _ _ => ?_) ?_
    | with_reducible refine keep_foldl_snd (fun _ _ _ _ => ?_) ?_
    | exact fun _ => rfl
    | exact fun _ h => h
    | (extract_lets +onlyGivenNames x; refine keep_cut (P x) ?_ (fun _ => ?_); unfold x; clear x; rotate_left; clear_value x)
    | (extract_lets +onlyGivenNames x; refine keep_cut (P x.2) ?_ (fun _ => ?_); unfold x; clear x; rotate_left; clear_value x)
    | (extract_lets +onlyGivenNames x; clear_value x)
    | split)

theorem State.endPage_keeps {P : State → Prop} (hP : Closed 2624128 P) {slice : Nat} {how : LeaseEnd} {n : PageName} {s : State}  (h0 : P s) :
    P (State.endPage slice how n s) := by
  unfold State.endPage
  repeat' (first
    | with_reducible assumption
    | with_reducible refine State.tearPage_keeps (hP.mono rfl) ?_
    | with_reducible refine State.abandonPage_keeps (hP.mono rfl) ?_
    | with_reducible refine State.discardPage_keeps (hP.mono rfl) ?_
    | with_reducible refine keep_foldl (fun _ _ _ => ?_) ?_
    | with_reducible refine keep_foldl_snd (fun _ _ _ _ => ?_) ?_
    | exact fun _ => rfl
    | exact fun _ h => h
    | split)

theorem State.finishReq_keeps {P : State → Prop} (hP : Closed 2132160 P) {r : Nat} {code : Code} {body : RespBody} {s : State}  (h0 : P s) :
    P (State.finishReq r code body s) := by
  unfold State.finishReq
  repeat' (first
    | with_reducible assumption
    | with_reducible refine State.dropReq_keeps (hP.mono rfl) ?_
    | with_reducible refine State.respond_keeps (hP.mono rfl) ?_
    | with_reducible refine keep_foldl (fun _ _ _ => ?_) ?_
    | with_reducible refine keep_foldl_snd (fun _ _ _ _ => ?_) ?_
    | split)

theorem State.undoAcquire_keeps {P : State → Prop} (hP : Closed 2624128 P) {slot : Nat} {made : List PageName} {pre : List (PageName × PageState)} {s : State}  (h0 : P s) :
    P (State.undoAcquire slot made pre s) := by
  unfold State.undoAcquire
  repeat' (first
    | with_reducible assumption
    | with_reducible refine hP.home rfl _ _ ?_
    | with_reducible refine State.dropWriteFrame_keeps (hP.mono rfl) ?_
    | with_reducible refine State.setPageState_keeps (hP.mono rfl) ?_
    | with_reducible refine State.dropEntry_keeps (hP.mono rfl) ?_
    | with_reducible refine State.onSeq_keeps (hP.mono rfl) ?_
    | with_reducible refine keep_foldl (fun _ _ _ => ?_) ?_
    | with_reducible refine keep_foldl_snd (fun _ _ _ _ => ?_) ?_
    | exact fun _ => rfl
    | exact fun _ h => h
    | (extract_lets +onlyGivenNames x; refine keep_cut (P x) ?_ (fun _ => ?_); unfold x; clear x; rotate_left; clear_value x)
    | (extract_lets +onlyGivenNames x; refine keep_cut (P x.2) ?_ (fun _ => ?_); unfold x; clear x; rotate_left; clear_value x)
    | (extract_lets +onlyGivenNames x; clear_value x)
    | split)

theorem State.endLease_keeps {P : State → Prop} (hP : Closed 2656960 P) {key : Nat} {how : LeaseEnd} {s : State}  (h0 : P s) :
    P (State.endLease key how s) := by
  unfold State.endLease
  repeat' (first
    | with_reducible assumption
    | with_reducible refine hP.home rfl _ _ ?_
    | with_reducible refine State.undoAcquire_keeps (hP.mono rfl) ?_
    | with_reducible refine State.finishReq_keeps (hP.mono rfl) ?_
    | with_reducible refine State.endPage_keeps (hP.mono rfl) ?_
    | with_reducible refine State.onSeq_keeps (hP.mono rfl) ?_
    | with_reducible refine keep_foldl (fun _ _ _ => ?_) ?_
    | with_reducible refine keep_foldl_snd (fun _ _ _ _ => ?_) ?_
    | exact fun _ => rfl
    | exact fun _ h => h
    | (extract_lets +onlyGivenNames x; refine keep_cut (P x) ?_ (fun _ => ?_); unfold x; clear x; rotate_left; clear_value x)
    | (extract_lets +onlyGivenNames x; refine keep_cut (P x.2) ?_ (fun _ => ?_); unfold x; clear x; rotate_left; clear_value x)
    | (extract_lets +onlyGivenNames x; clear_value x)
    | split)

theorem State.endLeases_keeps {P : State → Prop} (hP : Closed 2656960 P) {p : Lease → Bool} {how : LeaseEnd} {s : State}  (h0 : P s) :
    P (State.endLeases p how s) := by
  unfold State.endLeases
  repeat' (first
    | with_reducible assumption
    | with_reducible refine State.endLease_keeps (hP.mono rfl) ?_
    | with_reducible refine keep_foldl (fun _ _ _ => ?_) ?_
    | with_reducible refine keep_foldl_snd (fun _ _ _ _ => ?_) ?_
    | exact fun _ => rfl
    | exact fun _ h => h
    | split)

theorem State.dropTombs_keeps {P : State → Prop} (hP : Closed 526848 P) {p : SeqRec → Bool} {s : State}  (h0 : P s) :
    P (State.dropTombs p s) := by
  unfold State.dropTombs
  repeat' (first
    | with_reducible assumption
    | with_reducible refine hP.home rfl _ _ ?_
    | with_reducible refine State.clearMark_keeps (hP.mono rfl) ?_
    | with_reducible refine keep_foldl (fun _ _ _ => ?_) ?_
    | with_reducible refine keep_foldl_snd (fun _ _ _ _ => ?_) ?_
    | exact fun _ => rfl
    | exact fun _ h => h
    | (extract_lets +onlyGivenNames x; refine keep_cut (P x) ?_ (fun _ => ?_); unfold x; clear x; rotate_left; clear_value x)
    | (extract_lets +onlyGivenNames x; refine keep_cut (P x.2) ?_ (fun _ => ?_); unfold x; clear x; rotate_left; clear_value x)
    | (extract_lets +onlyGivenNames x; clear_value x)
    | split)

theorem State.settle_keeps {P : State → Prop} (hP : Closed 2656960 P) {s : State}  (h0 : P s) :
    P (State.settle s) := by
  unfold State.settle
  repeat' (first
    | with_reducible assumption
    | with_reducible refine State.endLeases_keeps (hP.mono rfl) ?_
    | with_reducible refine State.dropTombs_keeps (hP.mono rfl) ?_
    | with_reducible refine keep_foldl (fun _ _ _ => ?_) ?_
    | with_reducible refine keep_foldl_snd (fun _ _ _ _ => ?_) ?_
    | exact fun _ => rfl
    | exact fun _ h => h
    | split)

theorem State.applyRestart_keeps {P : State → Prop} (hP : Closed 2641792 P) {slice : Nat} {n : PageName} {s : State}  (h0 : P s) :
    P (State.applyRestart slice n s) := by
  unfold State.applyRestart
  repeat' (first
    | with_reducible assumption
    | with_reducible refine hP.home rfl _ _ ?_
    | with_reducible refine State.freeUnit_keeps (hP.mono rfl) ?_
    | with_reducible refine State.freeExtent_keeps (hP.mono rfl) ?_
    | with_reducible refine State.retireShadow_keeps (hP.mono rfl) ?_
    | with_reducible refine State.onEntry_keeps (hP.mono rfl) ?_
    | with_reducible refine State.bumpGen_keeps (hP.mono rfl) ?_
    | with_reducible refine keep_foldl (fun _ _ _ => ?_) ?_
    | with_reducible refine keep_foldl_snd (fun _ _ _ _ => ?_) ?_
    | exact fun _ => rfl
    | exact fun _ h => h
    | (extract_lets +onlyGivenNames x; refine keep_cut (P x) ?_ (fun _ => ?_); unfold x; clear x; rotate_left; clear_value x)
    | (extract_lets +onlyGivenNames x; refine keep_cut (P x.2) ?_ (fun _ => ?_); unfold x; clear x; rotate_left; clear_value x)
    | (extract_lets +onlyGivenNames x; clear_value x)
    | split)

theorem State.forgetLook_keeps {P : State → Prop} (hP : Closed 2048 P) {slice : Nat} {n : PageName} {s : State}  (h0 : P s) :
    P (State.forgetLook slice n s) := by
  unfold State.forgetLook
  repeat' (first
    | with_reducible assumption
    | with_reducible refine hP.home rfl _ _ ?_
    | with_reducible refine keep_foldl (fun _ _ _ => ?_) ?_
    | with_reducible refine keep_foldl_snd (fun _ _ _ _ => ?_) ?_
    | split)

theorem State.applyFences_keeps {P : State → Prop} (hP : Closed 2641792 P) {slice : Nat} {n : PageName} {s : State}  (h0 : P s) :
    P (State.applyFences slice n s) := by
  unfold State.applyFences
  repeat' (first
    | with_reducible assumption
    | with_reducible refine hP.home rfl _ _ ?_
    | with_reducible refine State.onEntry_keeps (hP.mono rfl) ?_
    | with_reducible refine State.forgetLook_keeps (hP.mono rfl) ?_
    | with_reducible refine State.bumpGen_keeps (hP.mono rfl) ?_
    | with_reducible refine State.writeSlots_keeps (hP.mono rfl) ?_
    | with_reducible refine State.dropCmds_keeps (hP.mono rfl) ?_
    | with_reducible refine State.retireExtent_keeps (hP.mono rfl) ?_
    | with_reducible refine keep_foldl (fun _ _ _ => ?_) ?_
    | with_reducible refine keep_foldl_snd (fun _ _ _ _ => ?_) ?_
    | exact fun _ => rfl
    | exact fun _ h => h
    | (extract_lets +onlyGivenNames x; refine keep_cut (P x) ?_ (fun _ => ?_); unfold x; clear x; rotate_left; clear_value x)
    | (extract_lets +onlyGivenNames x; refine keep_cut (P x.2) ?_ (fun _ => ?_); unfold x; clear x; rotate_left; clear_value x)
    | (extract_lets +onlyGivenNames x; clear_value x)
    | split)

theorem State.applyDrive_keeps {P : State → Prop} (hP : Closed 2641792 P) {slice : Nat} {n : PageName} {s : State}  (h0 : P s) :
    P (State.applyDrive slice n s) := by
  unfold State.applyDrive
  repeat' (first
    | with_reducible assumption
    | with_reducible refine State.retireShadow_keeps (hP.mono rfl) ?_
    | with_reducible refine State.onEntry_keeps (hP.mono rfl) ?_
    | with_reducible refine State.bumpGen_keeps (hP.mono rfl) ?_
    | with_reducible refine State.dropCmds_keeps (hP.mono rfl) ?_
    | with_reducible refine keep_foldl (fun _ _ _ => ?_) ?_
    | with_reducible refine keep_foldl_snd (fun _ _ _ _ => ?_) ?_
    | exact fun _ => rfl
    | exact fun _ h => h
    | split)

theorem State.refresh_keeps {P : State → Prop} (hP : Closed 2641792 P) {slice : Nat} {n : PageName} {s : State}  (h0 : P s) :
    P (State.refresh slice n s) := by
  unfold State.refresh
  repeat' (first
    | with_reducible assumption
    | with_reducible refine State.applyRestart_keeps (hP.mono rfl) ?_
    | with_reducible refine State.applyFences_keeps (hP.mono rfl) ?_
    | with_reducible refine State.applyDrive_keeps (hP.mono rfl) ?_
    | with_reducible refine keep_foldl (fun _ _ _ => ?_) ?_
    | with_reducible refine keep_foldl_snd (fun _ _ _ _ => ?_) ?_
    | exact fun _ => rfl
    | exact fun _ h => h
    | split)

theorem State.onFill_keeps {P : State → Prop} (hP : Closed 2048 P) {slice : Nat} {n : PageName} {f : Fill → Fill} {s : State}  (h0 : P s) :
    P (State.onFill slice n f s) := by
  unfold State.onFill
  repeat' (first
    | with_reducible assumption
    | with_reducible refine hP.home rfl _ _ ?_
    | with_reducible refine keep_foldl (fun _ _ _ => ?_) ?_
    | with_reducible refine keep_foldl_snd (fun _ _ _ _ => ?_) ?_
    | split)

theorem State.endFill_keeps {P : State → Prop} (hP : Closed 2048 P) {slice : Nat} {n : PageName} {s : State}  (h0 : P s) :
    P (State.endFill slice n s) := by
  unfold State.endFill
  repeat' (first
    | with_reducible assumption
    | with_reducible refine hP.home rfl _ _ ?_
    | with_reducible refine keep_foldl (fun _ _ _ => ?_) ?_
    | with_reducible refine keep_foldl_snd (fun _ _ _ _ => ?_) ?_
    | split)

theorem State.classFill_keeps {P : State → Prop} (hP : Closed 2560 P) {slice : Nat} {n : PageName} {g : Nat → Nat} {s : State}  (h0 : P s) :
    P (State.classFill slice n g s) := by
  unfold State.classFill
  repeat' (first
    | with_reducible assumption
    | with_reducible refine State.onFill_keeps (hP.mono rfl) ?_
    | with_reducible refine State.onDrive_keeps (hP.mono rfl) ?_ ?_
    | with_reducible refine keep_foldl (fun _ _ _ => ?_) ?_
    | with_reducible refine keep_foldl_snd (fun _ _ _ _ => ?_) ?_
    | exact fun _ => rfl
    | exact fun _ h => h
    | split)

theorem State.raiseFill_keeps {P : State → Prop} (hP : Closed 2560 P) {slice : Nat} {n : PageName} {cls : Nat} {s : State}  (h0 : P s) :
    P (State.raiseFill slice n cls s) := by
  unfold State.raiseFill
  repeat' (first
    | with_reducible assumption
    | with_reducible refine State.classFill_keeps (hP.mono rfl) ?_
    | with_reducible refine keep_foldl (fun _ _ _ => ?_) ?_
    | with_reducible refine keep_foldl_snd (fun _ _ _ _ => ?_) ?_
    | exact fun _ => rfl
    | exact fun _ h => h
    | split)

theorem State.placeFill_keeps {P : State → Prop} (hP : Closed 526848 P) {slice : Nat} {n : PageName} {s : State}  (h0 : P s) :
    P (State.placeFill slice n s) := by
  unfold State.placeFill
  repeat' (first
    | with_reducible assumption
    | with_reducible refine State.allocFrame_keeps (hP.mono rfl) ?_
    | with_reducible refine State.allocFrame_some (hP.mono rfl) ?_ ‹_›
    | with_reducible refine State.onFill_keeps (hP.mono rfl) ?_
    | with_reducible refine State.onEntry_keeps (hP.mono rfl) ?_
    | with_reducible refine State.addCmds_keeps (hP.mono rfl) ?_
    | with_reducible refine keep_foldl (fun _ _ _ => ?_) ?_
    | with_reducible refine keep_foldl_snd (fun _ _ _ _ => ?_) ?_
    | exact fun _ => rfl
    | exact fun _ h => h
    | (extract_lets +onlyGivenNames x; refine keep_cut (P x) ?_ (fun _ => ?_); unfold x; clear x; rotate_left; clear_value x)
    | (extract_lets +onlyGivenNames x; refine keep_cut (P x.2) ?_ (fun _ => ?_); unfold x; clear x; rotate_left; clear_value x)
    | (extract_lets +onlyGivenNames x; clear_value x)
    | split)

theorem State.countTier_keeps {P : State → Prop} (hP : Closed 2048 P) {q : Nat} {f : TierCount → TierCount} {s : State}  (h0 : P s) :
    P (State.countTier q f s) := by
  unfold State.countTier
  repeat' (first
    | with_reducible assumption
    | with_reducible refine hP.home rfl _ _ ?_
    | with_reducible refine keep_foldl (fun _ _ _ => ?_) ?_
    | with_reducible refine keep_foldl_snd (fun _ _ _ _ => ?_) ?_
    | split)

theorem State.copyOld_keeps {P : State → Prop} (hP : Closed 2641792 P) {slice : Nat} {n : PageName} {s : State}  (h0 : P s) :
    P (State.copyOld slice n s) := by
  unfold State.copyOld
  repeat' (first
    | with_reducible assumption
    | with_reducible refine State.refresh_keeps (hP.mono rfl) ?_
    | with_reducible refine State.writeImage_keeps (hP.mono rfl) ?_
    | with_reducible refine keep_foldl (fun _ _ _ => ?_) ?_
    | with_reducible refine keep_foldl_snd (fun _ _ _ _ => ?_) ?_
    | exact fun _ => rfl
    | exact fun _ h => h
    | (extract_lets +onlyGivenNames x; refine keep_cut (P x) ?_ (fun _ => ?_); unfold x; clear x; rotate_left; clear_value x)
    | (extract_lets +onlyGivenNames x; refine keep_cut (P x.2) ?_ (fun _ => ?_); unfold x; clear x; rotate_left; clear_value x)
    | (extract_lets +onlyGivenNames x; clear_value x)
    | split)

theorem State.grantLease_keeps {P : State → Prop} (hP : Closed 2674624 P) {r slot : Nat} {s : State}  (h0 : P s) :
    P (State.grantLease r slot s) := by
  unfold State.grantLease
  repeat' (first
    | with_reducible assumption
    | with_reducible refine hP.home rfl _ _ ?_
    | with_reducible refine State.copyOld_keeps (hP.mono rfl) ?_
    | with_reducible refine State.finishReq_keeps (hP.mono rfl) ?_
    | with_reducible refine keep_foldl (fun _ _ _ => ?_) ?_
    | with_reducible refine keep_foldl_snd (fun _ _ _ _ => ?_) ?_
    | exact fun _ => rfl
    | exact fun _ h => h
    | (extract_lets +onlyGivenNames x; refine keep_cut (P x) ?_ (fun _ => ?_); unfold x; clear x; rotate_left; clear_value x)
    | (extract_lets +onlyGivenNames x; refine keep_cut (P x.2) ?_ (fun _ => ?_); unfold x; clear x; rotate_left; clear_value x)
    | (extract_lets +onlyGivenNames x; clear_value x)
    | split)

theorem State.tellFate_keeps {P : State → Prop} (hP : Closed 2674624 P) {slice : Nat} {n : PageName} {fate : Fate} {s : State}  (h0 : P s) :
    P (State.tellFate slice n fate s) := by
  unfold State.tellFate
  repeat' (first
    | with_reducible assumption
    | with_reducible refine hP.reqs rfl _ _ (fun t => ?_) ?_
    | with_reducible refine State.finishReq_keeps (hP.mono rfl) ?_
    | with_reducible refine State.grantLease_keeps (hP.mono rfl) ?_
    | with_reducible refine State.undoAcquire_keeps (hP.mono rfl) ?_
    | with_reducible refine keep_foldl (fun _ _ _ => ?_) ?_
    | with_reducible refine keep_foldl_snd (fun _ _ _ _ => ?_) ?_
    | exact fun _ => rfl
    | exact fun _ h => h
    | exact Tbl.keys_erase _ _
    | exact Tbl.keys_modify _ _ _
    | exact Tbl.keys_map (fun _ => rfl)
    | exact Tbl.keys_map (fun p => by split <;> rfl)
    | (extract_lets +onlyGivenNames x; refine keep_cut (P x) ?_ (fun _ => ?_); unfold x; clear x; rotate_left; clear_value x)
    | (extract_lets +onlyGivenNames x; refine keep_cut (P x.2) ?_ (fun _ => ?_); unfold x; clear x; rotate_left; clear_value x)
    | (extract_lets +onlyGivenNames x; clear_value x)
    | split)

theorem State.losePage_keeps {P : State → Prop} (hP : Closed 2674672 P) {slice : Nat} {n : PageName} {cause drive lba nvme : Nat} {s : State}  (h0 : P s) :
    P (State.losePage slice n cause drive lba nvme s) := by
  unfold State.losePage
  repeat' (first
    | with_reducible assumption
    | with_reducible refine State.writeSlots_keeps (hP.mono rfl) ?_
    | with_reducible refine State.endFill_keeps (hP.mono rfl) ?_
    | with_reducible refine State.logEvent_keeps (hP.mono rfl) ?_
    | with_reducible refine State.countTier_keeps (hP.mono rfl) ?_
    | with_reducible refine State.retireUnit_keeps (hP.mono rfl) ?_
    | with_reducible refine State.retireExtent_keeps (hP.mono rfl) ?_
    | with_reducible refine State.retireShadow_keeps (hP.mono rfl) ?_
    | with_reducible refine State.retireHull_keeps (hP.mono rfl) ?_
    | with_reducible refine State.dropReplica_keeps (hP.mono rfl) ?_
    | with_reducible refine State.onEntry_keeps (hP.mono rfl) ?_
    | with_reducible refine State.bumpGen_keeps (hP.mono rfl) ?_
    | with_reducible refine State.dropWriteFrame_keeps (hP.mono rfl) ?_
    | with_reducible refine State.dropEntry_keeps (hP.mono rfl) ?_
    | with_reducible refine State.tellFate_keeps (hP.mono rfl) ?_
    | with_reducible refine keep_foldl (fun _ _ _ => ?_) ?_
    | with_reducible refine keep_foldl_snd (fun _ _ _ _ => ?_) ?_
    | exact fun _ => rfl
    | exact fun _ h => h
    | (extract_lets +onlyGivenNames x; refine keep_cut (P x) ?_ (fun _ => ?_); unfold x; clear x; rotate_left; clear_value x)
    | (extract_lets +onlyGivenNames x; refine keep_cut (P x.2) ?_ (fun _ => ?_); unfold x; clear x; rotate_left; clear_value x)
    | (extract_lets +onlyGivenNames x; clear_value x)
    | split)

theorem State.askNext_keeps {P : State → Prop} (hP : Closed 2674672 P) {slice : Nat} {n : PageName} {s : State}  (h0 : P s) :
    P (State.askNext slice n s) := by
  unfold State.askNext
  repeat' (first
    | with_reducible assumption
    | with_reducible refine hP.link rfl _ _ (fun _ _ h => h) ?_
    | with_reducible refine State.onFill_keeps (hP.mono rfl) ?_
    | with_reducible refine State.mediaError_keeps (hP.mono rfl) ?_
    | with_reducible refine State.losePage_keeps (hP.mono rfl) ?_
    | with_reducible refine keep_foldl (fun _ _ _ => ?_) ?_
    | with_reducible refine keep_foldl_snd (fun _ _ _ _ => ?_) ?_
    | exact fun _ => rfl
    | exact fun _ h => h
    | split)

theorem State.startRecovery_keeps {P : State → Prop} (hP : Closed 2674672 P) {slice : Nat} {n : PageName} {cause : Nat} {media : Option (Nat × Nat)} {s : State}  (h0 : P s) :
    P (State.startRecovery slice n cause media s) := by
  unfold State.startRecovery
  repeat' (first
    | with_reducible assumption
    | with_reducible refine hP.home rfl _ _ ?_
    | with_reducible refine State.onFill_keeps (hP.mono rfl) ?_
    | with_reducible refine State.askNext_keeps (hP.mono rfl) ?_
    | with_reducible refine keep_foldl (fun _ _ _ => ?_) ?_
    | with_reducible refine keep_foldl_snd (fun _ _ _ _ => ?_) ?_
    | exact fun _ => rfl
    | exact fun _ h => h
    | split)

theorem State.startFill_keeps {P : State → Prop} (hP : Closed 2674672 P) {slice : Nat} {n : PageName} {cls : Nat} {lookahead : Bool} {s : State}  (h0 : P s) :
    P (State.startFill slice n cls lookahead s) := by
  unfold State.startFill
  repeat' (first
    | with_reducible assumption
    | with_reducible refine hP.home rfl _ _ ?_
    | with_reducible refine State.raiseFill_keeps (hP.mono rfl) ?_
    | with_reducible refine State.startRecovery_keeps (hP.mono rfl) ?_
    | with_reducible refine State.placeFill_keeps (hP.mono rfl) ?_
    | with_reducible refine keep_foldl (fun _ _ _ => ?_) ?_
    | with_reducible refine keep_foldl_snd (fun _ _ _ _ => ?_) ?_
    | exact fun _ => rfl
    | exact fun _ h => h
    | split)

theorem State.resolve_keeps {P : State → Prop} (hP : Closed 2641792 P) {slice : Nat} {n : PageName} {s : State}  (h0 : P s) :
    P (State.resolve slice n s).2 := by
  unfold State.resolve
  repeat' (first
    | with_reducible assumption
    | with_reducible refine State.refresh_keeps (hP.mono rfl) ?_
    | with_reducible refine State.onEntry_keeps (hP.mono rfl) ?_
    | with_reducible refine keep_foldl (fun _ _ _ => ?_) ?_
    | with_reducible refine keep_foldl_snd (fun _ _ _ _ => ?_) ?_
    | exact fun _ => rfl
    | exact fun _ h => h
    | (extract_lets +onlyGivenNames x; refine keep_cut (P x) ?_ (fun _ => ?_); unfold x; clear x; rotate_left; clear_value x)
    | (extract_lets +onlyGivenNames x; refine keep_cut (P x.2) ?_ (fun _ => ?_); unfold x; clear x; rotate_left; clear_value x)
    | (extract_lets +onlyGivenNames x; clear_value x)
    | split
    | with_reducible refine keep_snd ?_)
theorem State.resolve_eq {P : State → Prop} (hP : Closed 2641792 P) {slice : Nat} {n : PageName} {s : State}  (h0 : P s) {a0 : Resolved} {t : State}
    (e : State.resolve slice n s = (a0, t)) : P t := by
  have h1 : P (State.resolve slice n s).2 := State.resolve_keeps hP h0
  rw [e] at h1
  exact h1

/-- A fill that looks ahead touches the home, the drives and what they are asked. -/
theorem State.startFill_ahead {P : State → Prop} (hP : Closed 526848 P) {slice : Nat} {n : PageName} {cls : Nat} {s : State} (h0 : P s) :
    P (State.startFill slice n cls true s) := by
  unfold State.startFill
  repeat' (first
    | with_reducible assumption
    | with_reducible refine State.raiseFill_keeps (hP.mono rfl) ?_
    | with_reducible refine State.placeFill_keeps (hP.mono rfl) ?_
    | with_reducible refine hP.home rfl _ _ ?_
    | (rename_i hx; exact absurd hx Bool.true_ne_false)
    | contradiction
    | split)

theorem State.updateStream_keeps {P : State → Prop} (hP : Closed 526848 P) {slice : Nat} {handle group layer : Nat} {blocks : List Nat} {s : State}  (h0 : P s) :
    P (State.updateStream slice handle group layer blocks s) := by
  unfold State.updateStream
  repeat' (first
    | with_reducible assumption
    | with_reducible refine State.startFill_ahead (hP.mono rfl) ?_
    | with_reducible refine hP.home rfl _ _ ?_
    | with_reducible refine keep_foldl (fun _ _ _ => ?_) ?_
    | with_reducible refine keep_foldl_snd (fun _ _ _ _ => ?_) ?_
    | exact fun _ => rfl
    | exact fun _ h => h
    | (extract_lets +onlyGivenNames x; refine keep_cut (P x) ?_ (fun _ => ?_); unfold x; clear x; rotate_left; clear_value x)
    | (extract_lets +onlyGivenNames x; refine keep_cut (P x.2) ?_ (fun _ => ?_); unfold x; clear x; rotate_left; clear_value x)
    | (extract_lets +onlyGivenNames x; clear_value x)
    | split)

theorem State.addReq_keeps {P : State → Prop} (hP : Closed 2164800 P) {h : ExtHdr} {op : Nat} {c : Ctx} {prev : Bool} {kind : ReqKind} {s : State}  (h0 : P s) :
    P (State.addReq h op c prev kind s).2 := by
  unfold State.addReq
  repeat' (first
    | with_reducible assumption
    | with_reducible refine hP.sch rfl _ _ ?_
    | with_reducible refine hP.home rfl _ _ ?_
    | with_reducible refine hP.nextReq rfl _ _ ?_
    | with_reducible refine State.onCtx_keeps (hP.mono rfl) (fun _ h => h) ?_
    | with_reducible refine State.onCtx_keeps (hP.mono rfl) (by intro _ h; try dsimp only; split <;> exact h) ?_
    | with_reducible refine keep_foldl (fun _ _ _ => ?_) ?_
    | with_reducible refine keep_foldl_snd (fun _ _ _ _ => ?_) ?_
    | (extract_lets +onlyGivenNames x; refine keep_cut (P x) ?_ (fun _ => ?_); unfold x; clear x; rotate_left; clear_value x)
    | (extract_lets +onlyGivenNames x; refine keep_cut (P x.2) ?_ (fun _ => ?_); unfold x; clear x; rotate_left; clear_value x)
    | (extract_lets +onlyGivenNames x; clear_value x)
    | split
    | with_reducible refine keep_snd ?_)
theorem State.addReq_eq {P : State → Prop} (hP : Closed 2164800 P) {h : ExtHdr} {op : Nat} {c : Ctx} {prev : Bool} {kind : ReqKind} {s : State}  (h0 : P s) {a0 : Nat} {t : State}
    (e : State.addReq h op c prev kind s = (a0, t)) : P t := by
  have h1 : P (State.addReq h op c prev kind s).2 := State.addReq_keeps hP h0
  rw [e] at h1
  exact h1

theorem State.dropQueued_keeps {P : State → Prop} (hP : Closed 16384 P) {q : Nat} {s : State}  (h0 : P s) :
    P (State.dropQueued q s) := by
  unfold State.dropQueued
  repeat' (first
    | with_reducible assumption
    | with_reducible refine hP.eth rfl _ _ ?_
    | with_reducible refine keep_foldl (fun _ _ _ => ?_) ?_
    | with_reducible refine keep_foldl_snd (fun _ _ _ _ => ?_) ?_
    | split)

theorem State.abortReq_keeps {P : State → Prop} (hP : Closed 2656960 P) {r : Nat} {s : State}  (h0 : P s) :
    P (State.abortReq r s) := by
  unfold State.abortReq
  repeat' (first
    | with_reducible assumption
    | with_reducible refine State.undoAcquire_keeps (hP.mono rfl) ?_
    | with_reducible refine State.dropReq_keeps (hP.mono rfl) ?_
    | with_reducible refine keep_foldl (fun _ _ _ => ?_) ?_
    | with_reducible refine keep_foldl_snd (fun _ _ _ _ => ?_) ?_
    | exact fun _ => rfl
    | exact fun _ h => h
    | split)

theorem State.flushQp_keeps {P : State → Prop} (hP : Closed 2673344 P) {q : Nat} {s : State}  (h0 : P s) :
    P (State.flushQp q s) := by
  unfold State.flushQp
  repeat' (first
    | with_reducible assumption
    | with_reducible refine hP.link rfl _ _ (fun _ _ h => h) ?_
    | with_reducible refine State.abortReq_keeps (hP.mono rfl) ?_
    | with_reducible refine State.dropQueued_keeps (hP.mono rfl) ?_
    | with_reducible refine State.onCtx_keeps (hP.mono rfl) (fun _ h => h) ?_
    | with_reducible refine State.onCtx_keeps (hP.mono rfl) (by intro _ h; try dsimp only; split <;> exact h) ?_
    | with_reducible refine keep_foldl (fun _ _ _ => ?_) ?_
    | with_reducible refine keep_foldl_snd (fun _ _ _ _ => ?_) ?_
    | exact fun _ => rfl
    | exact fun _ h => h
    | (extract_lets +onlyGivenNames x; refine keep_cut (P x) ?_ (fun _ => ?_); unfold x; clear x; rotate_left; clear_value x)
    | (extract_lets +onlyGivenNames x; refine keep_cut (P x.2) ?_ (fun _ => ?_); unfold x; clear x; rotate_left; clear_value x)
    | (extract_lets +onlyGivenNames x; clear_value x)
    | split)

theorem State.qpError_keeps {P : State → Prop} (hP : Closed 2681536 P) {q : Nat} {s : State}  (h0 : P s) :
    P (State.qpError q s) := by
  unfold State.qpError
  repeat' (first
    | with_reducible assumption
    | with_reducible refine State.onCtx_any (hP.mono rfl) ?_
    | with_reducible refine hP.link rfl _ _ (fun _ _ h => h) ?_
    | with_reducible refine hP.xpt rfl _ _ ?_
    | with_reducible refine State.flushQp_keeps (hP.mono rfl) ?_
    | with_reducible refine State.onCtx_keeps (hP.mono rfl) (fun _ h => h) ?_
    | with_reducible refine State.onCtx_keeps (hP.mono rfl) (by intro _ h; try dsimp only; split <;> exact h) ?_
    | with_reducible refine keep_foldl (fun _ _ _ => ?_) ?_
    | with_reducible refine keep_foldl_snd (fun _ _ _ _ => ?_) ?_
    | exact fun _ => rfl
    | exact fun _ h => h
    | (extract_lets +onlyGivenNames x; refine keep_cut (P x) ?_ (fun _ => ?_); unfold x; clear x; rotate_left; clear_value x)
    | (extract_lets +onlyGivenNames x; refine keep_cut (P x.2) ?_ (fun _ => ?_); unfold x; clear x; rotate_left; clear_value x)
    | (extract_lets +onlyGivenNames x; clear_value x)
    | split)

theorem State.flushWhere_keeps {P : State → Prop} (hP : Closed 2681536 P) {p : Ctx → Bool} {s : State}  (h0 : P s) :
    P (State.flushWhere p s) := by
  unfold State.flushWhere
  repeat' (first
    | with_reducible assumption
    | with_reducible refine State.qpError_keeps (hP.mono rfl) ?_
    | with_reducible refine keep_foldl (fun _ _ _ => ?_) ?_
    | with_reducible refine keep_foldl_snd (fun _ _ _ _ => ?_) ?_
    | exact fun _ => rfl
    | exact fun _ h => h
    | split)

theorem State.stdRefuse_keeps {P : State → Prop} (hP : Closed 2681536 P) {k : Pkt} {c : Code} {s : State}  (h0 : P s) :
    P (State.stdRefuse k c s) := by
  unfold State.stdRefuse
  repeat' (first
    | with_reducible assumption
    | with_reducible refine State.countFault_keeps (hP.mono rfl) ?_
    | with_reducible refine State.onCtx_keeps (hP.mono rfl) (fun _ h => h) ?_
    | with_reducible refine State.onCtx_keeps (hP.mono rfl) (by intro _ h; try dsimp only; split <;> exact h) ?_
    | with_reducible refine State.countRetry_keeps (hP.mono rfl) ?_
    | with_reducible refine State.sendControl_keeps (hP.mono rfl) ?_
    | with_reducible refine State.qpError_keeps (hP.mono rfl) ?_
    | with_reducible refine keep_foldl (fun _ _ _ => ?_) ?_
    | with_reducible refine keep_foldl_snd (fun _ _ _ _ => ?_) ?_
    | exact fun _ => rfl
    | exact fun _ h => h
    | (extract_lets +onlyGivenNames x; refine keep_cut (P x) ?_ (fun _ => ?_); unfold x; clear x; rotate_left; clear_value x)
    | (extract_lets +onlyGivenNames x; refine keep_cut (P x.2) ?_ (fun _ => ?_); unfold x; clear x; rotate_left; clear_value x)
    | (extract_lets +onlyGivenNames x; clear_value x)
    | split)

end Sys2Proof.Machine
end

