-- ==== Sys2Proof/Laws/KeepBlocks.lean ====
section
/-! SUPPORT. What the operations of Machine/Blocks.lean touch: each keeps every predicate that is closed under the parts named. -/

namespace Sys2Proof.Machine

set_option linter.unusedTactic false
set_option linter.unreachableTactic false
set_option linter.unusedVariables false
set_option linter.tactic.unusedName false

theorem State.logDetection_keeps {P : State → Prop} (hP : Closed 524336 P) {island detector kind cls unit : Nat} {temp : Int} {volt outcome slice ctx : Nat} {s : State}  (h0 : P s) :
    P (State.logDetection island detector kind cls unit temp volt outcome slice ctx s) := by
  unfold State.logDetection
  repeat' (first
    | with_reducible assumption
    | with_reducible refine State.logPut_keeps (hP.mono rfl) ?_
    | with_reducible refine keep_foldl (fun _ _ _ => ?_) ?_
    | with_reducible refine keep_foldl_snd (fun _ _ _ _ => ?_) ?_
    | split)

theorem State.onBlock_keeps {P : State → Prop} (hP : Closed 128 P) {b : Nat} {f : BlockS → BlockS} {s : State}  (h0 : P s) :
    P (State.onBlock b f s) := by
  unfold State.onBlock
  repeat' (first
    | with_reducible assumption
    | with_reducible refine hP.eng rfl _ _ ?_
    | with_reducible refine keep_foldl (fun _ _ _ => ?_) ?_
    | with_reducible refine keep_foldl_snd (fun _ _ _ _ => ?_) ?_
    | split)

theorem State.onCell_keeps {P : State → Prop} (hP : Closed 128 P) {b p : Nat} {f : CellS → CellS} {s : State}  (h0 : P s) :
    P (State.onCell b p f s) := by
  unfold State.onCell
  repeat' (first
    | with_reducible assumption
    | with_reducible refine State.onBlock_keeps (hP.mono rfl) ?_
    | with_reducible refine keep_foldl (fun _ _ _ => ?_) ?_
    | with_reducible refine keep_foldl_snd (fun _ _ _ _ => ?_) ?_
    | split)

theorem State.lendLines_keeps {P : State → Prop} (hP : Closed 128 P) {n : Nat} {s : State}  (h0 : P s) :
    P (State.lendLines n s) := by
  unfold State.lendLines
  repeat' (first
    | with_reducible assumption
    | with_reducible refine hP.eng rfl _ _ ?_
    | with_reducible refine keep_foldl (fun _ _ _ => ?_) ?_
    | with_reducible refine keep_foldl_snd (fun _ _ _ _ => ?_) ?_
    | (extract_lets +onlyGivenNames x; refine keep_cut (P x) ?_ (fun _ => ?_); unfold x; clear x; rotate_left; clear_value x)
    | (extract_lets +onlyGivenNames x; refine keep_cut (P x.2) ?_ (fun _ => ?_); unfold x; clear x; rotate_left; clear_value x)
    | (extract_lets +onlyGivenNames x; clear_value x)
    | split)

theorem State.touchLine_keeps {P : State → Prop} (hP : Closed 128 P) {a : Nat} {s : State}  (h0 : P s) :
    P (State.touchLine a s) := by
  unfold State.touchLine
  repeat' (first
    | with_reducible assumption
    | with_reducible refine hP.eng rfl _ _ ?_
    | with_reducible refine State.lendLines_keeps (hP.mono rfl) ?_
    | with_reducible refine keep_foldl (fun _ _ _ => ?_) ?_
    | with_reducible refine keep_foldl_snd (fun _ _ _ _ => ?_) ?_
    | (extract_lets +onlyGivenNames x; refine keep_cut (P x) ?_ (fun _ => ?_); unfold x; clear x; rotate_left; clear_value x)
    | (extract_lets +onlyGivenNames x; refine keep_cut (P x.2) ?_ (fun _ => ?_); unfold x; clear x; rotate_left; clear_value x)
    | (extract_lets +onlyGivenNames x; clear_value x)
    | split)

theorem State.onArb_keeps {P : State → Prop} (hP : Closed 128 P) {n : Nat} {f : RegionArb → RegionArb} {s : State}  (h0 : P s) :
    P (State.onArb n f s) := by
  unfold State.onArb
  repeat' (first
    | with_reducible assumption
    | with_reducible refine hP.eng rfl _ _ ?_
    | with_reducible refine keep_foldl (fun _ _ _ => ?_) ?_
    | with_reducible refine keep_foldl_snd (fun _ _ _ _ => ?_) ?_
    | split)

theorem State.fillCell_keeps {P : State → Prop} (hP : Closed 16768 P) {b p : Nat} {s : State}  (h0 : P s) :
    P (State.fillCell b p s) := by
  unfold State.fillCell
  repeat' (first
    | with_reducible assumption
    | with_reducible refine State.onCell_keeps (hP.mono rfl) ?_
    | with_reducible refine State.touchLine_keeps (hP.mono rfl) ?_
    | with_reducible refine State.busReads_keeps (hP.mono rfl) ?_
    | with_reducible refine keep_foldl (fun _ _ _ => ?_) ?_
    | with_reducible refine keep_foldl_snd (fun _ _ _ _ => ?_) ?_
    | (extract_lets +onlyGivenNames x; refine keep_cut (P x) ?_ (fun _ => ?_); unfold x; clear x; rotate_left; clear_value x)
    | (extract_lets +onlyGivenNames x; refine keep_cut (P x.2) ?_ (fun _ => ?_); unfold x; clear x; rotate_left; clear_value x)
    | (extract_lets +onlyGivenNames x; clear_value x)
    | split)

theorem State.gather_keeps {P : State → Prop} (hP : Closed 16768 P) {b : Nat} {s : State}  (h0 : P s) :
    P (State.gather b s) := by
  unfold State.gather
  repeat' (first
    | with_reducible assumption
    | with_reducible refine State.fillCell_keeps (hP.mono rfl) ?_
    | with_reducible refine State.onBlock_keeps (hP.mono rfl) ?_
    | with_reducible refine keep_foldl (fun _ _ _ => ?_) ?_
    | with_reducible refine keep_foldl_snd (fun _ _ _ _ => ?_) ?_
    | split)

theorem State.grantOne_keeps {P : State → Prop} (hP : Closed 16768 P) {n : Nat} {s : State}  (h0 : P s) :
    P (State.grantOne n s) := by
  unfold State.grantOne
  repeat' (first
    | with_reducible assumption
    | with_reducible refine State.onArb_keeps (hP.mono rfl) ?_
    | with_reducible refine State.gather_keeps (hP.mono rfl) ?_
    | with_reducible refine keep_foldl (fun _ _ _ => ?_) ?_
    | with_reducible refine keep_foldl_snd (fun _ _ _ _ => ?_) ?_
    | (extract_lets +onlyGivenNames x; refine keep_cut (P x) ?_ (fun _ => ?_); unfold x; clear x; rotate_left; clear_value x)
    | (extract_lets +onlyGivenNames x; refine keep_cut (P x.2) ?_ (fun _ => ?_); unfold x; clear x; rotate_left; clear_value x)
    | (extract_lets +onlyGivenNames x; clear_value x)
    | split)

theorem State.serveArb_keeps {P : State → Prop} (hP : Closed 16768 P) {n : Nat} {s : State}  (h0 : P s) :
    P (State.serveArb n s) := by
  unfold State.serveArb
  repeat' (first
    | with_reducible assumption
    | with_reducible refine State.grantOne_keeps (hP.mono rfl) ?_
    | with_reducible refine keep_foldl (fun _ _ _ => ?_) ?_
    | with_reducible refine keep_foldl_snd (fun _ _ _ _ => ?_) ?_
    | split)

theorem State.takeSlot_keeps {P : State → Prop} (hP : Closed 16768 P) {n cls bank : Nat} {s : State}  (h0 : P s) :
    P (State.takeSlot n cls bank s) := by
  unfold State.takeSlot
  repeat' (first
    | with_reducible assumption
    | with_reducible refine State.onArb_keeps (hP.mono rfl) ?_
    | with_reducible refine State.serveArb_keeps (hP.mono rfl) ?_
    | with_reducible refine keep_foldl (fun _ _ _ => ?_) ?_
    | with_reducible refine keep_foldl_snd (fun _ _ _ _ => ?_) ?_
    | split)

theorem State.takeStack_keeps {P : State → Prop} (hP : Closed 16768 P) {cls a : Nat} {s : State}  (h0 : P s) :
    P (State.takeStack cls a s) := by
  unfold State.takeStack
  repeat' (first
    | with_reducible assumption
    | with_reducible refine State.takeSlot_keeps (hP.mono rfl) ?_
    | with_reducible refine keep_foldl (fun _ _ _ => ?_) ?_
    | with_reducible refine keep_foldl_snd (fun _ _ _ _ => ?_) ?_
    | split)

theorem State.askOperands_keeps {P : State → Prop} (hP : Closed 128 P) {b p : Nat} {s : State}  (h0 : P s) :
    P (State.askOperands b p s) := by
  unfold State.askOperands
  repeat' (first
    | with_reducible assumption
    | with_reducible refine State.onCell_keeps (hP.mono rfl) ?_
    | with_reducible refine State.onArb_keeps (hP.mono rfl) ?_
    | with_reducible refine keep_foldl (fun _ _ _ => ?_) ?_
    | with_reducible refine keep_foldl_snd (fun _ _ _ _ => ?_) ?_
    | split)

theorem State.portFirst_keeps {P : State → Prop} (hP : Closed 16768 P) {b p : Nat} {s : State}  (h0 : P s) :
    P (State.portFirst b p s) := by
  unfold State.portFirst
  repeat' (first
    | with_reducible assumption
    | with_reducible refine State.serveArb_keeps (hP.mono rfl) ?_
    | with_reducible refine State.fillCell_keeps (hP.mono rfl) ?_
    | with_reducible refine keep_foldl (fun _ _ _ => ?_) ?_
    | with_reducible refine keep_foldl_snd (fun _ _ _ _ => ?_) ?_
    | (extract_lets +onlyGivenNames x; refine keep_cut (P x) ?_ (fun _ => ?_); unfold x; clear x; rotate_left; clear_value x)
    | (extract_lets +onlyGivenNames x; refine keep_cut (P x.2) ?_ (fun _ => ?_); unfold x; clear x; rotate_left; clear_value x)
    | (extract_lets +onlyGivenNames x; clear_value x)
    | split)

theorem State.arbTick_keeps {P : State → Prop} (hP : Closed 16768 P) {s : State}  (h0 : P s) :
    P (State.arbTick s) := by
  unfold State.arbTick
  repeat' (first
    | with_reducible assumption
    | with_reducible refine State.serveArb_keeps (hP.mono rfl) ?_
    | with_reducible refine keep_foldl (fun _ _ _ => ?_) ?_
    | with_reducible refine keep_foldl_snd (fun _ _ _ _ => ?_) ?_
    | split)

theorem State.suspendOp_keeps {P : State → Prop} (hP : Closed 786480 P) {op : Option Nat} {yes : Bool} {s : State}  (h0 : P s) :
    P (State.suspendOp op yes s) := by
  unfold State.suspendOp
  repeat' (first
    | with_reducible assumption
    | with_reducible refine State.setOp_keeps (hP.mono rfl) ?_
    | with_reducible refine keep_foldl (fun _ _ _ => ?_) ?_
    | with_reducible refine keep_foldl_snd (fun _ _ _ _ => ?_) ?_
    | split)

theorem State.setLive_keeps {P : State → Prop} (hP : Closed 786608 P) {b p : Nat} {a : Accum} {shadow : Option Accum} {s : State}  (h0 : P s) :
    P (State.setLive b p a shadow s) := by
  unfold State.setLive
  repeat' (first
    | with_reducible assumption
    | with_reducible refine State.onCell_keeps (hP.mono rfl) ?_
    | with_reducible refine State.suspendOp_keeps (hP.mono rfl) ?_
    | with_reducible refine keep_foldl (fun _ _ _ => ?_) ?_
    | with_reducible refine keep_foldl_snd (fun _ _ _ _ => ?_) ?_
    | split)

theorem State.countSwitch_keeps {P : State → Prop} (hP : Closed 64 P) {bytes : Nat} {s : State}  (h0 : P s) :
    P (State.countSwitch bytes s) := by
  unfold State.countSwitch
  repeat' (first
    | with_reducible assumption
    | with_reducible refine hP.sch rfl _ _ ?_
    | with_reducible refine keep_foldl (fun _ _ _ => ?_) ?_
    | with_reducible refine keep_foldl_snd (fun _ _ _ _ => ?_) ?_
    | split)

theorem State.addCtx_keeps {P : State → Prop} (hP : Closed 128 P) {c : ParkedCtx} {s : State}  (h0 : P s) :
    P (State.addCtx c s).2 := by
  unfold State.addCtx
  repeat' (first
    | with_reducible assumption
    | with_reducible refine hP.eng rfl _ _ ?_
    | with_reducible refine keep_foldl (fun _ _ _ => ?_) ?_
    | with_reducible refine keep_foldl_snd (fun _ _ _ _ => ?_) ?_
    | split
    | with_reducible refine keep_snd ?_)
theorem State.addCtx_eq {P : State → Prop} (hP : Closed 128 P) {c : ParkedCtx} {s : State}  (h0 : P s) {a0 : Nat} {t : State}
    (e : State.addCtx c s = (a0, t)) : P t := by
  have h1 : P (State.addCtx c s).2 := State.addCtx_keeps hP h0
  rw [e] at h1
  exact h1

theorem State.onParked_keeps {P : State → Prop} (hP : Closed 128 P) {k : Nat} {f : ParkedCtx → ParkedCtx} {s : State}  (h0 : P s) :
    P (State.onParked k f s) := by
  unfold State.onParked
  repeat' (first
    | with_reducible assumption
    | with_reducible refine hP.eng rfl _ _ ?_
    | with_reducible refine keep_foldl (fun _ _ _ => ?_) ?_
    | with_reducible refine keep_foldl_snd (fun _ _ _ _ => ?_) ?_
    | split)

theorem State.saveAccum_keeps {P : State → Prop} (hP : Closed 786672 P) {b p : Nat} {fromShadow : Bool} {c : ParkedCtx} {a : Accum} {s : State}  (h0 : P s) :
    P (State.saveAccum b p fromShadow c a s) := by
  unfold State.saveAccum
  repeat' (first
    | with_reducible assumption
    | with_reducible refine State.addCtx_keeps (hP.mono rfl) ?_
    | with_reducible refine State.addCtx_eq (hP.mono rfl) ?_ ‹_›
    | with_reducible refine State.lendLines_keeps (hP.mono rfl) ?_
    | with_reducible refine State.countSwitch_keeps (hP.mono rfl) ?_
    | with_reducible refine State.suspendOp_keeps (hP.mono rfl) ?_
    | with_reducible refine State.onCell_keeps (hP.mono rfl) ?_
    | with_reducible refine keep_foldl (fun _ _ _ => ?_) ?_
    | with_reducible refine keep_foldl_snd (fun _ _ _ _ => ?_) ?_
    | (extract_lets +onlyGivenNames x; refine keep_cut (P x) ?_ (fun _ => ?_); unfold x; clear x; rotate_left; clear_value x)
    | (extract_lets +onlyGivenNames x; refine keep_cut (P x.2) ?_ (fun _ => ?_); unfold x; clear x; rotate_left; clear_value x)
    | (extract_lets +onlyGivenNames x; clear_value x)
    | split)

theorem State.parkCell_keeps {P : State → Prop} (hP : Closed 786672 P) {b p : Nat} {name : PageName} {page : Nat} {s : State}  (h0 : P s) :
    P (State.parkCell b p name page s) := by
  unfold State.parkCell
  repeat' (first
    | with_reducible assumption
    | with_reducible refine hP.sch rfl _ _ ?_
    | with_reducible refine State.onCell_keeps (hP.mono rfl) ?_
    | with_reducible refine State.saveAccum_keeps (hP.mono rfl) ?_
    | with_reducible refine keep_foldl (fun _ _ _ => ?_) ?_
    | with_reducible refine keep_foldl_snd (fun _ _ _ _ => ?_) ?_
    | (extract_lets +onlyGivenNames x; refine keep_cut (P x) ?_ (fun _ => ?_); unfold x; clear x; rotate_left; clear_value x)
    | (extract_lets +onlyGivenNames x; refine keep_cut (P x.2) ?_ (fun _ => ?_); unfold x; clear x; rotate_left; clear_value x)
    | (extract_lets +onlyGivenNames x; clear_value x)
    | split)

theorem State.spillShadow_keeps {P : State → Prop} (hP : Closed 786672 P) {b p : Nat} {s : State}  (h0 : P s) :
    P (State.spillShadow b p s) := by
  unfold State.spillShadow
  repeat' (first
    | with_reducible assumption
    | with_reducible refine hP.sch rfl _ _ ?_
    | with_reducible refine State.saveAccum_keeps (hP.mono rfl) ?_
    | with_reducible refine keep_foldl (fun _ _ _ => ?_) ?_
    | with_reducible refine keep_foldl_snd (fun _ _ _ _ => ?_) ?_
    | (extract_lets +onlyGivenNames x; refine keep_cut (P x) ?_ (fun _ => ?_); unfold x; clear x; rotate_left; clear_value x)
    | (extract_lets +onlyGivenNames x; refine keep_cut (P x.2) ?_ (fun _ => ?_); unfold x; clear x; rotate_left; clear_value x)
    | (extract_lets +onlyGivenNames x; clear_value x)
    | split)

theorem State.endGroup_keeps {P : State → Prop} (hP : Closed 128 P) {b p : Nat} {s : State}  (h0 : P s) :
    P (State.endGroup b p s) := by
  unfold State.endGroup
  repeat' (first
    | with_reducible assumption
    | with_reducible refine State.onCell_keeps (hP.mono rfl) ?_
    | with_reducible refine State.onBlock_keeps (hP.mono rfl) ?_
    | with_reducible refine keep_foldl (fun _ _ _ => ?_) ?_
    | with_reducible refine keep_foldl_snd (fun _ _ _ _ => ?_) ?_
    | split)

theorem State.nextTile_keeps {P : State → Prop} (hP : Closed 786672 P) {b p k : Nat} {s : State} (h0 : P s) :
    P (State.nextTile b p k s) := by
  induction k generalizing s with
  | zero =>
    unfold State.nextTile
    repeat' (first
      | with_reducible assumption
      | with_reducible refine State.endGroup_keeps (hP.mono rfl) ?_
      | with_reducible refine State.askOperands_keeps (hP.mono rfl) ?_
      | with_reducible refine State.onCell_keeps (hP.mono rfl) ?_
      | with_reducible refine State.parkCell_keeps (hP.mono rfl) ?_
      | with_reducible refine keep_foldl (fun _ _ _ => ?_) ?_
      | with_reducible refine keep_foldl_snd (fun _ _ _ _ => ?_) ?_
      | (extract_lets +onlyGivenNames x; refine keep_cut (P x) ?_ (fun _ => ?_); unfold x; clear x; rotate_left; clear_value x)
      | (extract_lets +onlyGivenNames x; refine keep_cut (P x.2) ?_ (fun _ => ?_); unfold x; clear x; rotate_left; clear_value x)
      | (extract_lets +onlyGivenNames x; clear_value x)
      | split)
  | succ k ih =>
    unfold State.nextTile
    repeat' (first
      | with_reducible assumption
      | with_reducible refine ih ?_
      | with_reducible refine State.endGroup_keeps (hP.mono rfl) ?_
      | with_reducible refine State.askOperands_keeps (hP.mono rfl) ?_
      | with_reducible refine State.onCell_keeps (hP.mono rfl) ?_
      | with_reducible refine State.parkCell_keeps (hP.mono rfl) ?_
      | with_reducible refine keep_foldl (fun _ _ _ => ?_) ?_
      | with_reducible refine keep_foldl_snd (fun _ _ _ _ => ?_) ?_
      | (extract_lets +onlyGivenNames x; refine keep_cut (P x) ?_ (fun _ => ?_); unfold x; clear x; rotate_left; clear_value x)
      | (extract_lets +onlyGivenNames x; refine keep_cut (P x.2) ?_ (fun _ => ?_); unfold x; clear x; rotate_left; clear_value x)
      | (extract_lets +onlyGivenNames x; clear_value x)
      | split)

theorem State.goOn_keeps {P : State → Prop} (hP : Closed 786672 P) {b p : Nat} {s : State}  (h0 : P s) :
    P (State.goOn b p s) := by
  unfold State.goOn
  repeat' (first
    | with_reducible assumption
    | with_reducible refine State.nextTile_keeps (hP.mono rfl) ?_
    | with_reducible refine keep_foldl (fun _ _ _ => ?_) ?_
    | with_reducible refine keep_foldl_snd (fun _ _ _ _ => ?_) ?_
    | split)

theorem State.putLive_keeps {P : State → Prop} (hP : Closed 786672 P) {b p : Nat} {a : Accum} {s : State}  (h0 : P s) :
    P (State.putLive b p a s) := by
  unfold State.putLive
  repeat' (first
    | with_reducible assumption
    | with_reducible refine hP.sch rfl _ _ ?_
    | with_reducible refine State.setLive_keeps (hP.mono rfl) ?_
    | with_reducible refine State.goOn_keeps (hP.mono rfl) ?_
    | with_reducible refine State.suspendOp_keeps (hP.mono rfl) ?_
    | with_reducible refine keep_foldl (fun _ _ _ => ?_) ?_
    | with_reducible refine keep_foldl_snd (fun _ _ _ _ => ?_) ?_
    | (extract_lets +onlyGivenNames x; refine keep_cut (P x) ?_ (fun _ => ?_); unfold x; clear x; rotate_left; clear_value x)
    | (extract_lets +onlyGivenNames x; refine keep_cut (P x.2) ?_ (fun _ => ?_); unfold x; clear x; rotate_left; clear_value x)
    | (extract_lets +onlyGivenNames x; clear_value x)
    | split)

theorem State.placeOne_keeps {P : State → Prop} (hP : Closed 786672 P) {b : Nat} {s : State}  (h0 : P s) :
    P (State.placeOne b s) := by
  unfold State.placeOne
  repeat' (first
    | with_reducible assumption
    | with_reducible refine State.onBlock_keeps (hP.mono rfl) ?_
    | with_reducible refine State.putLive_keeps (hP.mono rfl) ?_
    | with_reducible refine keep_foldl (fun _ _ _ => ?_) ?_
    | with_reducible refine keep_foldl_snd (fun _ _ _ _ => ?_) ?_
    | split)

theorem State.placeReady_keeps {P : State → Prop} (hP : Closed 786672 P) {b : Nat} {s : State}  (h0 : P s) :
    P (State.placeReady b s) := by
  unfold State.placeReady
  repeat' (first
    | with_reducible assumption
    | with_reducible refine State.placeOne_keeps (hP.mono rfl) ?_
    | with_reducible refine keep_foldl (fun _ _ _ => ?_) ?_
    | with_reducible refine keep_foldl_snd (fun _ _ _ _ => ?_) ?_
    | split)

theorem State.placeHeld_keeps {P : State → Prop} (hP : Closed 786672 P) {s : State}  (h0 : P s) :
    P (State.placeHeld s) := by
  unfold State.placeHeld
  repeat' (first
    | with_reducible assumption
    | with_reducible refine State.placeReady_keeps (hP.mono rfl) ?_
    | with_reducible refine keep_foldl (fun _ _ _ => ?_) ?_
    | with_reducible refine keep_foldl_snd (fun _ _ _ _ => ?_) ?_
    | split)

theorem State.exchange_keeps {P : State → Prop} (hP : Closed 786672 P) {b p : Nat} {a : Accum} {s : State}  (h0 : P s) :
    P (State.exchange b p a s) := by
  unfold State.exchange
  repeat' (first
    | with_reducible assumption
    | with_reducible refine hP.sch rfl _ _ ?_
    | with_reducible refine State.setLive_keeps (hP.mono rfl) ?_
    | with_reducible refine State.goOn_keeps (hP.mono rfl) ?_
    | with_reducible refine keep_foldl (fun _ _ _ => ?_) ?_
    | with_reducible refine keep_foldl_snd (fun _ _ _ _ => ?_) ?_
    | split)

theorem State.freed_keeps {P : State → Prop} (hP : Closed 786672 P) {b p : Nat} {s : State}  (h0 : P s) :
    P (State.freed b p s) := by
  unfold State.freed
  repeat' (first
    | with_reducible assumption
    | with_reducible refine State.placeReady_keeps (hP.mono rfl) ?_
    | with_reducible refine State.exchange_keeps (hP.mono rfl) ?_
    | with_reducible refine keep_foldl (fun _ _ _ => ?_) ?_
    | with_reducible refine keep_foldl_snd (fun _ _ _ _ => ?_) ?_
    | (extract_lets +onlyGivenNames x; refine keep_cut (P x) ?_ (fun _ => ?_); unfold x; clear x; rotate_left; clear_value x)
    | (extract_lets +onlyGivenNames x; refine keep_cut (P x.2) ?_ (fun _ => ?_); unfold x; clear x; rotate_left; clear_value x)
    | (extract_lets +onlyGivenNames x; clear_value x)
    | split)

theorem State.restartGroups_keeps {P : State → Prop} (hP : Closed 786672 P) {b : Nat} {s : State}  (h0 : P s) :
    P (State.restartGroups b s) := by
  unfold State.restartGroups
  repeat' (first
    | with_reducible assumption
    | with_reducible refine State.onBlock_keeps (hP.mono rfl) ?_
    | with_reducible refine State.placeReady_keeps (hP.mono rfl) ?_
    | with_reducible refine keep_foldl (fun _ _ _ => ?_) ?_
    | with_reducible refine keep_foldl_snd (fun _ _ _ _ => ?_) ?_
    | (extract_lets +onlyGivenNames x; refine keep_cut (P x) ?_ (fun _ => ?_); unfold x; clear x; rotate_left; clear_value x)
    | (extract_lets +onlyGivenNames x; refine keep_cut (P x.2) ?_ (fun _ => ?_); unfold x; clear x; rotate_left; clear_value x)
    | (extract_lets +onlyGivenNames x; clear_value x)
    | split)

theorem State.clearBlock_keeps {P : State → Prop} (hP : Closed 128 P) {b : Nat} {s : State}  (h0 : P s) :
    P (State.clearBlock b s) := by
  unfold State.clearBlock
  repeat' (first
    | with_reducible assumption
    | with_reducible refine State.onBlock_keeps (hP.mono rfl) ?_
    | with_reducible refine keep_foldl (fun _ _ _ => ?_) ?_
    | with_reducible refine keep_foldl_snd (fun _ _ _ _ => ?_) ?_
    | split)

theorem State.onAccums_keeps {P : State → Prop} (hP : Closed 786672 P) {sel : Accum → Bool} {f : Accum → Accum} {s : State}  (h0 : P s) :
    P (State.onAccums sel f s) := by
  unfold State.onAccums
  repeat' (first
    | with_reducible assumption
    | with_reducible refine hP.eng rfl _ _ ?_
    | with_reducible refine State.goOn_keeps (hP.mono rfl) ?_
    | with_reducible refine State.freed_keeps (hP.mono rfl) ?_
    | with_reducible refine keep_foldl (fun _ _ _ => ?_) ?_
    | with_reducible refine keep_foldl_snd (fun _ _ _ _ => ?_) ?_
    | (extract_lets +onlyGivenNames x; refine keep_cut (P x) ?_ (fun _ => ?_); unfold x; clear x; rotate_left; clear_value x)
    | (extract_lets +onlyGivenNames x; refine keep_cut (P x.2) ?_ (fun _ => ?_); unfold x; clear x; rotate_left; clear_value x)
    | (extract_lets +onlyGivenNames x; clear_value x)
    | split)

theorem State.takeProduct_keeps {P : State → Prop} (hP : Closed 786672 P) {b p : Nat} {a : Accum} {t : TileStep} {c : List (List Nat)} {s : State}  (h0 : P s) :
    P (State.takeProduct b p a t c s) := by
  unfold State.takeProduct
  repeat' (first
    | with_reducible assumption
    | with_reducible refine State.onCell_keeps (hP.mono rfl) ?_
    | with_reducible refine State.goOn_keeps (hP.mono rfl) ?_
    | with_reducible refine State.askOperands_keeps (hP.mono rfl) ?_
    | with_reducible refine keep_foldl (fun _ _ _ => ?_) ?_
    | with_reducible refine keep_foldl_snd (fun _ _ _ _ => ?_) ?_
    | (extract_lets +onlyGivenNames x; refine keep_cut (P x) ?_ (fun _ => ?_); unfold x; clear x; rotate_left; clear_value x)
    | (extract_lets +onlyGivenNames x; refine keep_cut (P x.2) ?_ (fun _ => ?_); unfold x; clear x; rotate_left; clear_value x)
    | (extract_lets +onlyGivenNames x; refine keep_cut (∀ a b, P b → P (x a b)) ?_ (fun kx => ?_); unfold x; clear x; intro _ _ _; beta_reduce; rotate_left; clear_value x)
    | with_reducible refine kx _ _ ?_
    | (extract_lets +onlyGivenNames x; clear_value x)
    | split)

end Sys2Proof.Machine
end

