-- ==== Sys2Proof/Laws/KeepLattice.lean ====
section
/-! SUPPORT. What the operations of Machine/Lattice.lean touch: each keeps every predicate that is closed under the parts named. -/

namespace Sys2Proof.Machine

set_option linter.unusedTactic false
set_option linter.unreachableTactic false
set_option linter.unusedVariables false
set_option linter.tactic.unusedName false

theorem State.onLink_keeps {P : State → Prop} (hP : Closed 128 P) {k : Nat} {f : LinkS → LinkS} {s : State}  (h0 : P s) :
    P (State.onLink k f s) := by
  unfold State.onLink
  repeat' (first
    | with_reducible assumption
    | with_reducible refine hP.eng rfl _ _ ?_
    | with_reducible refine keep_foldl (fun _ _ _ => ?_) ?_
    | with_reducible refine keep_foldl_snd (fun _ _ _ _ => ?_) ?_
    | split)

theorem State.enqueueFlit_keeps {P : State → Prop} (hP : Closed 128 P) {router : Nat} {f : Flit} {s : State}  (h0 : P s) :
    P (State.enqueueFlit router f s) := by
  unfold State.enqueueFlit
  repeat' (first
    | with_reducible assumption
    | with_reducible refine State.onLink_keeps (hP.mono rfl) ?_
    | with_reducible refine keep_foldl (fun _ _ _ => ?_) ?_
    | with_reducible refine keep_foldl_snd (fun _ _ _ _ => ?_) ?_
    | split)

theorem State.atRouter_keeps {P : State → Prop} (hP : Closed 128 P) {router : Nat} {f : Flit} {s : State}  (h0 : P s) :
    P (State.atRouter router f s) := by
  unfold State.atRouter
  repeat' (first
    | with_reducible assumption
    | with_reducible refine hP.eng rfl _ _ ?_
    | with_reducible refine State.enqueueFlit_keeps (hP.mono rfl) ?_
    | with_reducible refine keep_foldl (fun _ _ _ => ?_) ?_
    | with_reducible refine keep_foldl_snd (fun _ _ _ _ => ?_) ?_
    | split)

theorem State.logLink_keeps {P : State → Prop} (hP : Closed 524336 P) {event router link : Nat} {s : State}  (h0 : P s) :
    P (State.logLink event router link s) := by
  unfold State.logLink
  repeat' (first
    | with_reducible assumption
    | with_reducible refine State.logEvent_keeps (hP.mono rfl) ?_
    | with_reducible refine keep_foldl (fun _ _ _ => ?_) ?_
    | with_reducible refine keep_foldl_snd (fun _ _ _ _ => ?_) ?_
    | split)

theorem State.detectLink_keeps {P : State → Prop} (hP : Closed 524336 P) {router link : Nat} {s : State}  (h0 : P s) :
    P (State.detectLink router link s) := by
  unfold State.detectLink
  repeat' (first
    | with_reducible assumption
    | with_reducible refine State.logDetection_keeps (hP.mono rfl) ?_
    | with_reducible refine keep_foldl (fun _ _ _ => ?_) ?_
    | with_reducible refine keep_foldl_snd (fun _ _ _ _ => ?_) ?_
    | split)

theorem State.failLink_keeps {P : State → Prop} (hP : Closed 524464 P) {router link : Nat} {s : State}  (h0 : P s) :
    P (State.failLink router link s) := by
  unfold State.failLink
  repeat' (first
    | with_reducible assumption
    | with_reducible refine hP.eng rfl _ _ ?_
    | with_reducible refine State.onLink_keeps (hP.mono rfl) ?_
    | with_reducible refine State.enqueueFlit_keeps (hP.mono rfl) ?_
    | with_reducible refine State.logLink_keeps (hP.mono rfl) ?_
    | with_reducible refine keep_foldl (fun _ _ _ => ?_) ?_
    | with_reducible refine keep_foldl_snd (fun _ _ _ _ => ?_) ?_
    | (extract_lets +onlyGivenNames x; refine keep_cut (P x) ?_ (fun _ => ?_); unfold x; clear x; rotate_left; clear_value x)
    | (extract_lets +onlyGivenNames x; refine keep_cut (P x.2) ?_ (fun _ => ?_); unfold x; clear x; rotate_left; clear_value x)
    | (extract_lets +onlyGivenNames x; clear_value x)
    | split)

theorem State.flit_keeps {P : State → Prop} (hP : Closed 524464 P) {router link : Nat} {f : Flit} {crc : Nat} {s : State}  (h0 : P s) :
    P (State.flit router link f crc s) := by
  unfold State.flit
  repeat' (first
    | with_reducible assumption
    | with_reducible refine State.onLink_keeps (hP.mono rfl) ?_
    | with_reducible refine State.detectLink_keeps (hP.mono rfl) ?_
    | with_reducible refine State.atRouter_keeps (hP.mono rfl) ?_
    | with_reducible refine State.logLink_keeps (hP.mono rfl) ?_
    | with_reducible refine State.failLink_keeps (hP.mono rfl) ?_
    | with_reducible refine keep_foldl (fun _ _ _ => ?_) ?_
    | with_reducible refine keep_foldl_snd (fun _ _ _ _ => ?_) ?_
    | (extract_lets +onlyGivenNames x; refine keep_cut (P x) ?_ (fun _ => ?_); unfold x; clear x; rotate_left; clear_value x)
    | (extract_lets +onlyGivenNames x; refine keep_cut (P x.2) ?_ (fun _ => ?_); unfold x; clear x; rotate_left; clear_value x)
    | (extract_lets +onlyGivenNames x; clear_value x)
    | split)

theorem execFlitReceive_keeps {P : State → Prop} (hP : Closed 524464 P) {router : Fin 8} {link : Fin 3} {f : Flit} {crc : Nat} {s : State}  (h0 : P s) {t0 : State}
    (e : execFlitReceive router link f crc s = .next t0) : P t0 := by
  unfold execFlitReceive at e
  cases e
  repeat' (first
    | with_reducible assumption
    | with_reducible refine State.whenUp_keeps (hP.mono rfl) (fun _ _ => ?_) ?_
    | with_reducible refine State.flit_keeps (hP.mono rfl) ?_
    | with_reducible refine keep_foldl (fun _ _ _ => ?_) ?_
    | with_reducible refine keep_foldl_snd (fun _ _ _ _ => ?_) ?_
    | split)

theorem State.linkTimeout_keeps {P : State → Prop} (hP : Closed 524464 P) {router link : Nat} {s : State}  (h0 : P s) :
    P (State.linkTimeout router link s) := by
  unfold State.linkTimeout
  repeat' (first
    | with_reducible assumption
    | with_reducible refine State.detectLink_keeps (hP.mono rfl) ?_
    | with_reducible refine State.failLink_keeps (hP.mono rfl) ?_
    | with_reducible refine keep_foldl (fun _ _ _ => ?_) ?_
    | with_reducible refine keep_foldl_snd (fun _ _ _ _ => ?_) ?_
    | split)

theorem execLinkHandshakeTimeout_keeps {P : State → Prop} (hP : Closed 524464 P) {router : Fin 8} {link : Fin 3} {s : State}  (h0 : P s) {t0 : State}
    (e : execLinkHandshakeTimeout router link s = .next t0) : P t0 := by
  unfold execLinkHandshakeTimeout at e
  cases e
  repeat' (first
    | with_reducible assumption
    | with_reducible refine State.whenUp_keeps (hP.mono rfl) (fun _ _ => ?_) ?_
    | with_reducible refine State.linkTimeout_keeps (hP.mono rfl) ?_
    | with_reducible refine keep_foldl (fun _ _ _ => ?_) ?_
    | with_reducible refine keep_foldl_snd (fun _ _ _ _ => ?_) ?_
    | split)

theorem State.sendFlit_keeps {P : State → Prop} (hP : Closed 524464 P) {k : Nat} {s : State}  (h0 : P s) :
    P (State.sendFlit k s) := by
  unfold State.sendFlit
  repeat' (first
    | with_reducible assumption
    | with_reducible refine State.onLink_keeps (hP.mono rfl) ?_
    | with_reducible refine State.flit_keeps (hP.mono rfl) ?_
    | with_reducible refine keep_foldl (fun _ _ _ => ?_) ?_
    | with_reducible refine keep_foldl_snd (fun _ _ _ _ => ?_) ?_
    | (extract_lets +onlyGivenNames x; refine keep_cut (P x) ?_ (fun _ => ?_); unfold x; clear x; rotate_left; clear_value x)
    | (extract_lets +onlyGivenNames x; refine keep_cut (P x.2) ?_ (fun _ => ?_); unfold x; clear x; rotate_left; clear_value x)
    | (extract_lets +onlyGivenNames x; clear_value x)
    | split)

theorem State.latticeTick_keeps {P : State → Prop} (hP : Closed 524464 P) {s : State}  (h0 : P s) :
    P (State.latticeTick s) := by
  unfold State.latticeTick
  repeat' (first
    | with_reducible assumption
    | with_reducible refine State.sendFlit_keeps (hP.mono rfl) ?_
    | with_reducible refine keep_foldl (fun _ _ _ => ?_) ?_
    | with_reducible refine keep_foldl_snd (fun _ _ _ _ => ?_) ?_
    | split)

end Sys2Proof.Machine
end

