-- ==== Sys2Proof/Laws/KeepFaults.lean ====
section
/-! SUPPORT. What the operations of Machine/Faults.lean touch: each keeps every predicate that is closed under the parts named. -/

namespace Sys2Proof.Machine

set_option linter.unusedTactic false
set_option linter.unreachableTactic false
set_option linter.unusedVariables false
set_option linter.tactic.unusedName false

theorem State.onUnit_keeps {P : State → Prop} (hP : Closed 524802 P) {u : UnitId} {f : UnitHist → UnitHist} {s : State}  (h0 : P s) :
    P (State.onUnit u f s) := by
  unfold State.onUnit
  repeat' (first
    | with_reducible assumption
    | with_reducible refine hP.ras rfl _ _ ?_
    | with_reducible refine State.clearMark_keeps (hP.mono rfl) ?_
    | with_reducible refine keep_foldl (fun _ _ _ => ?_) ?_
    | with_reducible refine keep_foldl_snd (fun _ _ _ _ => ?_) ?_
    | exact fun _ => rfl
    | exact fun _ h => h
    | split)

theorem State.lendSpare_keeps {P : State → Prop} (hP : Closed 128 P) {n : Nat} {s : State}  (h0 : P s) :
    P (State.lendSpare n s) := by
  unfold State.lendSpare
  repeat' (first
    | with_reducible assumption
    | with_reducible refine State.onBlock_keeps (hP.mono rfl) ?_
    | with_reducible refine keep_foldl (fun _ _ _ => ?_) ?_
    | with_reducible refine keep_foldl_snd (fun _ _ _ _ => ?_) ?_
    | (extract_lets +onlyGivenNames x; refine keep_cut (P x) ?_ (fun _ => ?_); unfold x; clear x; rotate_left; clear_value x)
    | (extract_lets +onlyGivenNames x; refine keep_cut (P x.2) ?_ (fun _ => ?_); unfold x; clear x; rotate_left; clear_value x)
    | (extract_lets +onlyGivenNames x; clear_value x)
    | split)

theorem State.detectAt_keeps {P : State → Prop} (hP : Closed 524978 P) {u : UnitId} {detector cls slice ctx : Nat} {temp : Int} {volt : Nat} {s : State}  (h0 : P s) :
    P (State.detectAt u detector cls slice ctx temp volt s) := by
  unfold State.detectAt
  repeat' (first
    | with_reducible assumption
    | with_reducible refine State.logDetection_keeps (hP.mono rfl) ?_
    | with_reducible refine State.onUnit_keeps (hP.mono rfl) ?_
    | with_reducible refine State.lendSpare_keeps (hP.mono rfl) ?_
    | with_reducible refine keep_foldl (fun _ _ _ => ?_) ?_
    | with_reducible refine keep_foldl_snd (fun _ _ _ _ => ?_) ?_
    | exact fun _ => rfl
    | exact fun _ h => h
    | (extract_lets +onlyGivenNames x; refine keep_cut (P x) ?_ (fun _ => ?_); unfold x; clear x; rotate_left; clear_value x)
    | (extract_lets +onlyGivenNames x; refine keep_cut (P x.2) ?_ (fun _ => ?_); unfold x; clear x; rotate_left; clear_value x)
    | (extract_lets +onlyGivenNames x; clear_value x)
    | split)

theorem State.detect_keeps {P : State → Prop} (hP : Closed 524978 P) {u : UnitId} {detector cls slice ctx : Nat} {s : State}  (h0 : P s) :
    P (State.detect u detector cls slice ctx s) := by
  unfold State.detect
  repeat' (first
    | with_reducible assumption
    | with_reducible refine State.detectAt_keeps (hP.mono rfl) ?_
    | with_reducible refine keep_foldl (fun _ _ _ => ?_) ?_
    | with_reducible refine keep_foldl_snd (fun _ _ _ _ => ?_) ?_
    | exact fun _ => rfl
    | exact fun _ h => h
    | split)

theorem State.withdrawBlock_keeps {P : State → Prop} (hP : Closed 786674 P) {b : Nat} {s : State}  (h0 : P s) :
    P (State.withdrawBlock b s) := by
  unfold State.withdrawBlock
  repeat' (first
    | with_reducible assumption
    | with_reducible refine hP.ras rfl _ _ ?_
    | with_reducible refine State.restartGroups_keeps (hP.mono rfl) ?_
    | with_reducible refine keep_foldl (fun _ _ _ => ?_) ?_
    | with_reducible refine keep_foldl_snd (fun _ _ _ _ => ?_) ?_
    | split)

theorem State.retireOf_keeps {P : State → Prop} (hP : Closed 787442 P) {u : UnitId} {s : State}  (h0 : P s) :
    P (State.retireOf u s) := by
  unfold State.retireOf
  repeat' (first
    | with_reducible assumption
    | with_reducible refine hP.nbu rfl _ _ _ ?_
    | with_reducible refine State.onUnit_keeps (hP.mono rfl) ?_
    | with_reducible refine State.onBlock_keeps (hP.mono rfl) ?_
    | with_reducible refine State.onCell_keeps (hP.mono rfl) ?_
    | with_reducible refine State.withdrawBlock_keeps (hP.mono rfl) ?_
    | with_reducible refine keep_foldl (fun _ _ _ => ?_) ?_
    | with_reducible refine keep_foldl_snd (fun _ _ _ _ => ?_) ?_
    | exact fun _ => rfl
    | exact fun _ h => h
    | (extract_lets +onlyGivenNames x; refine keep_cut (P x) ?_ (fun _ => ?_); unfold x; clear x; rotate_left; clear_value x)
    | (extract_lets +onlyGivenNames x; refine keep_cut (P x.2) ?_ (fun _ => ?_); unfold x; clear x; rotate_left; clear_value x)
    | (extract_lets +onlyGivenNames x; clear_value x)
    | split)

theorem State.classify_keeps {P : State → Prop} (hP : Closed 787442 P) {u : UnitId} {pass : Bool} {s : State}  (h0 : P s) :
    P (State.classify u pass s) := by
  unfold State.classify
  repeat' (first
    | with_reducible assumption
    | with_reducible refine hP.ras rfl _ _ ?_
    | with_reducible refine State.logDetection_keeps (hP.mono rfl) ?_
    | with_reducible refine State.onUnit_keeps (hP.mono rfl) ?_
    | with_reducible refine State.onBlock_keeps (hP.mono rfl) ?_
    | with_reducible refine State.retireOf_keeps (hP.mono rfl) ?_
    | with_reducible refine keep_foldl (fun _ _ _ => ?_) ?_
    | with_reducible refine keep_foldl_snd (fun _ _ _ _ => ?_) ?_
    | exact fun _ => rfl
    | exact fun _ h => h
    | (extract_lets +onlyGivenNames x; refine keep_cut (P x) ?_ (fun _ => ?_); unfold x; clear x; rotate_left; clear_value x)
    | (extract_lets +onlyGivenNames x; refine keep_cut (P x.2) ?_ (fun _ => ?_); unfold x; clear x; rotate_left; clear_value x)
    | (extract_lets +onlyGivenNames x; clear_value x)
    | split)

theorem State.entryDriveFailed_keeps {P : State → Prop} (hP : Closed 2674672 P) {slice : Nat} {n : PageName} {s : State}  (h0 : P s) :
    P (State.entryDriveFailed slice n s) := by
  unfold State.entryDriveFailed
  repeat' (first
    | with_reducible assumption
    | with_reducible refine State.applyDrive_keeps (hP.mono rfl) ?_
    | with_reducible refine State.endFill_keeps (hP.mono rfl) ?_
    | with_reducible refine State.retireUnit_keeps (hP.mono rfl) ?_
    | with_reducible refine State.onEntry_keeps (hP.mono rfl) ?_
    | with_reducible refine State.bumpGen_keeps (hP.mono rfl) ?_
    | with_reducible refine State.startRecovery_keeps (hP.mono rfl) ?_
    | with_reducible refine keep_foldl (fun _ _ _ => ?_) ?_
    | with_reducible refine keep_foldl_snd (fun _ _ _ _ => ?_) ?_
    | exact fun _ => rfl
    | exact fun _ h => h
    | (extract_lets +onlyGivenNames x; refine keep_cut (P x) ?_ (fun _ => ?_); unfold x; clear x; rotate_left; clear_value x)
    | (extract_lets +onlyGivenNames x; refine keep_cut (P x.2) ?_ (fun _ => ?_); unfold x; clear x; rotate_left; clear_value x)
    | (extract_lets +onlyGivenNames x; clear_value x)
    | split)

theorem State.failDrive_keeps {P : State → Prop} (hP : Closed 2674672 P) {d : Nat} {s : State}  (h0 : P s) :
    P (State.failDrive d s) := by
  unfold State.failDrive
  repeat' (first
    | with_reducible assumption
    | with_reducible refine State.onDrive_keeps (hP.mono rfl) ?_ ?_
    | with_reducible refine State.logEvent_keeps (hP.mono rfl) ?_
    | with_reducible refine State.entryDriveFailed_keeps (hP.mono rfl) ?_
    | with_reducible refine keep_foldl (fun _ _ _ => ?_) ?_
    | with_reducible refine keep_foldl_snd (fun _ _ _ _ => ?_) ?_
    | exact fun _ => rfl
    | exact fun _ h => h
    | (extract_lets +onlyGivenNames x; refine keep_cut (P x) ?_ (fun _ => ?_); unfold x; clear x; rotate_left; clear_value x)
    | (extract_lets +onlyGivenNames x; refine keep_cut (P x.2) ?_ (fun _ => ?_); unfold x; clear x; rotate_left; clear_value x)
    | (extract_lets +onlyGivenNames x; clear_value x)
    | split)

theorem State.loseHomeUnit_keeps {P : State → Prop} (hP : Closed 526384 P) {h : Nat} {s : State}  (h0 : P s) :
    P (State.loseHomeUnit h s) := by
  unfold State.loseHomeUnit
  repeat' (first
    | with_reducible assumption
    | with_reducible refine hP.home rfl _ _ ?_
    | with_reducible refine State.logEvent_keeps (hP.mono rfl) ?_
    | with_reducible refine keep_foldl (fun _ _ _ => ?_) ?_
    | with_reducible refine keep_foldl_snd (fun _ _ _ _ => ?_) ?_
    | split)

theorem State.loseSpilled_keeps {P : State → Prop} (hP : Closed 2105344 P) {q : Nat} {s : State}  (h0 : P s) :
    P (State.loseSpilled q s) := by
  unfold State.loseSpilled
  repeat' (first
    | with_reducible assumption
    | with_reducible refine hP.link rfl _ _ (fun _ _ h => h) ?_
    | with_reducible refine hP.xpt rfl _ _ ?_
    | with_reducible refine keep_foldl (fun _ _ _ => ?_) ?_
    | with_reducible refine keep_foldl_snd (fun _ _ _ _ => ?_) ?_
    | split)

theorem State.loseQuarter_keeps {P : State → Prop} (hP : Closed 2686962 P) {q : Nat} {s : State}  (h0 : P s) :
    P (State.loseQuarter q s) := by
  unfold State.loseQuarter
  repeat' (first
    | with_reducible assumption
    | with_reducible refine hP.ras rfl _ _ ?_
    | with_reducible refine hP.locus rfl _ _ ?_
    | with_reducible refine State.logEvent_keeps (hP.mono rfl) ?_
    | with_reducible refine State.loseSpilled_keeps (hP.mono rfl) ?_
    | with_reducible refine State.failDrive_keeps (hP.mono rfl) ?_
    | with_reducible refine keep_foldl (fun _ _ _ => ?_) ?_
    | with_reducible refine keep_foldl_snd (fun _ _ _ _ => ?_) ?_
    | exact fun _ => rfl
    | exact fun _ h => h
    | (extract_lets +onlyGivenNames x; refine keep_cut (P x) ?_ (fun _ => ?_); unfold x; clear x; rotate_left; clear_value x)
    | (extract_lets +onlyGivenNames x; refine keep_cut (P x.2) ?_ (fun _ => ?_); unfold x; clear x; rotate_left; clear_value x)
    | (extract_lets +onlyGivenNames x; clear_value x)
    | split)

theorem State.rowCopies_keeps {P : State → Prop} (hP : Closed 2686962 P) {a : Nat} {s : State}  (h0 : P s) :
    P (State.rowCopies a s) := by
  unfold State.rowCopies
  repeat' (first
    | with_reducible assumption
    | with_reducible refine State.loseQuarter_keeps (hP.mono rfl) ?_
    | with_reducible refine keep_foldl (fun _ _ _ => ?_) ?_
    | with_reducible refine keep_foldl_snd (fun _ _ _ _ => ?_) ?_
    | exact fun _ => rfl
    | exact fun _ h => h
    | (extract_lets +onlyGivenNames x; refine keep_cut (P x) ?_ (fun _ => ?_); unfold x; clear x; rotate_left; clear_value x)
    | (extract_lets +onlyGivenNames x; refine keep_cut (P x.2) ?_ (fun _ => ?_); unfold x; clear x; rotate_left; clear_value x)
    | (extract_lets +onlyGivenNames x; clear_value x)
    | split)

theorem State.rowFaulty_keeps {P : State → Prop} (hP : Closed 2686962 P) {a : Nat} {s : State}  (h0 : P s) :
    P (State.rowFaulty a s) := by
  unfold State.rowFaulty
  repeat' (first
    | with_reducible assumption
    | with_reducible refine hP.ras rfl _ _ ?_
    | with_reducible refine hP.mem rfl _ _ ?_ ?_ ?_
    | with_reducible refine State.clearMark_keeps (hP.mono rfl) ?_
    | with_reducible refine State.onSlice_keeps (hP.mono rfl) ?_
    | with_reducible refine State.rowCopies_keeps (hP.mono rfl) ?_
    | with_reducible refine keep_foldl (fun _ _ _ => ?_) ?_
    | with_reducible refine keep_foldl_snd (fun _ _ _ _ => ?_) ?_
    | exact fun _ => rfl
    | exact fun _ h => h
    | (extract_lets +onlyGivenNames x; refine keep_cut (P x) ?_ (fun _ => ?_); unfold x; clear x; rotate_left; clear_value x)
    | (extract_lets +onlyGivenNames x; refine keep_cut (P x.2) ?_ (fun _ => ?_); unfold x; clear x; rotate_left; clear_value x)
    | (extract_lets +onlyGivenNames x; clear_value x)
    | split)

theorem State.rowCorrected_keeps {P : State → Prop} (hP : Closed 2686962 P) {a : Nat} {s : State}  (h0 : P s) :
    P (State.rowCorrected a s) := by
  unfold State.rowCorrected
  repeat' (first
    | with_reducible assumption
    | with_reducible refine hP.ras rfl _ _ ?_
    | with_reducible refine State.logDetection_keeps (hP.mono rfl) ?_
    | with_reducible refine State.rowFaulty_keeps (hP.mono rfl) ?_
    | with_reducible refine keep_foldl (fun _ _ _ => ?_) ?_
    | with_reducible refine keep_foldl_snd (fun _ _ _ _ => ?_) ?_
    | exact fun _ => rfl
    | exact fun _ h => h
    | (extract_lets +onlyGivenNames x; refine keep_cut (P x) ?_ (fun _ => ?_); unfold x; clear x; rotate_left; clear_value x)
    | (extract_lets +onlyGivenNames x; refine keep_cut (P x.2) ?_ (fun _ => ?_); unfold x; clear x; rotate_left; clear_value x)
    | (extract_lets +onlyGivenNames x; clear_value x)
    | split)

theorem State.poison_keeps {P : State → Prop} (hP : Closed 2641792 P) {slice : Nat} {n : PageName} {s : State}  (h0 : P s) :
    P (State.poison slice n s) := by
  unfold State.poison
  repeat' (first
    | with_reducible assumption
    | with_reducible refine State.retireUnit_keeps (hP.mono rfl) ?_
    | with_reducible refine State.forgetLook_keeps (hP.mono rfl) ?_
    | with_reducible refine State.onEntry_keeps (hP.mono rfl) ?_
    | with_reducible refine State.bumpGen_keeps (hP.mono rfl) ?_
    | with_reducible refine State.dropCmds_keeps (hP.mono rfl) ?_
    | with_reducible refine State.retireExtent_keeps (hP.mono rfl) ?_
    | with_reducible refine keep_foldl (fun _ _ _ => ?_) ?_
    | with_reducible refine keep_foldl_snd (fun _ _ _ _ => ?_) ?_
    | exact fun _ => rfl
    | exact fun _ h => h
    | (extract_lets +onlyGivenNames x; refine keep_cut (P x) ?_ (fun _ => ?_); unfold x; clear x; rotate_left; clear_value x)
    | (extract_lets +onlyGivenNames x; refine keep_cut (P x.2) ?_ (fun _ => ?_); unfold x; clear x; rotate_left; clear_value x)
    | (extract_lets +onlyGivenNames x; clear_value x)
    | split)

theorem State.uncorrectable_keeps {P : State → Prop} (hP : Closed 2686962 P) {a : Nat} {s : State}  (h0 : P s) :
    P (State.uncorrectable a s) := by
  unfold State.uncorrectable
  repeat' (first
    | with_reducible assumption
    | with_reducible refine hP.ras rfl _ _ ?_
    | with_reducible refine hP.home rfl _ _ ?_
    | with_reducible refine State.logDetection_keeps (hP.mono rfl) ?_
    | with_reducible refine State.poison_keeps (hP.mono rfl) ?_
    | with_reducible refine State.rowFaulty_keeps (hP.mono rfl) ?_
    | with_reducible refine keep_foldl (fun _ _ _ => ?_) ?_
    | with_reducible refine keep_foldl_snd (fun _ _ _ _ => ?_) ?_
    | exact fun _ => rfl
    | exact fun _ h => h
    | (extract_lets +onlyGivenNames x; refine keep_cut (P x) ?_ (fun _ => ?_); unfold x; clear x; rotate_left; clear_value x)
    | (extract_lets +onlyGivenNames x; refine keep_cut (P x.2) ?_ (fun _ => ?_); unfold x; clear x; rotate_left; clear_value x)
    | (extract_lets +onlyGivenNames x; clear_value x)
    | split)

theorem State.selfFence_keeps {P : State → Prop} (hP : Closed 524337 P) {cause : Nat} {s : State}  (h0 : P s) :
    P (State.selfFence cause s) := by
  unfold State.selfFence
  repeat' (first
    | with_reducible assumption
    | with_reducible refine hP.aon rfl _ _ ?_
    | with_reducible refine State.logEvent_keeps (hP.mono rfl) ?_
    | with_reducible refine State.raise_keeps (hP.mono rfl) ?_
    | with_reducible refine keep_foldl (fun _ _ _ => ?_) ?_
    | with_reducible refine keep_foldl_snd (fun _ _ _ _ => ?_) ?_
    | split)

theorem State.portDown_keeps {P : State → Prop} (hP : Closed 16384 P) {p : Nat} {s : State}  (h0 : P s) :
    P (State.portDown p s) := by
  unfold State.portDown
  repeat' (first
    | with_reducible assumption
    | with_reducible refine State.onPort_keeps (hP.mono rfl) ?_
    | with_reducible refine keep_foldl (fun _ _ _ => ?_) ?_
    | with_reducible refine keep_foldl_snd (fun _ _ _ _ => ?_) ?_
    | split)

theorem State.failIslands_keeps {P : State → Prop} (hP : Closed 1 P) {l : List Nat} {s : State}  (h0 : P s) :
    P (State.failIslands l s) := by
  unfold State.failIslands
  repeat' (first
    | with_reducible assumption
    | with_reducible refine hP.aon rfl _ _ ?_
    | with_reducible refine keep_foldl (fun _ _ _ => ?_) ?_
    | with_reducible refine keep_foldl_snd (fun _ _ _ _ => ?_) ?_
    | split)

theorem State.loseEngine_keeps {P : State → Prop} (hP : Closed 16385 P) {e : Nat} {s : State}  (h0 : P s) :
    P (State.loseEngine e s) := by
  unfold State.loseEngine
  repeat' (first
    | with_reducible assumption
    | with_reducible refine State.portDown_keeps (hP.mono rfl) ?_
    | with_reducible refine State.failIslands_keeps (hP.mono rfl) ?_
    | with_reducible refine keep_foldl (fun _ _ _ => ?_) ?_
    | with_reducible refine keep_foldl_snd (fun _ _ _ _ => ?_) ?_
    | split)

theorem State.loseLinks_keeps {P : State → Prop} (hP : Closed 524464 P) {n : Nat} {s : State}  (h0 : P s) :
    P (State.loseLinks n s) := by
  unfold State.loseLinks
  repeat' (first
    | with_reducible assumption
    | with_reducible refine State.failLink_keeps (hP.mono rfl) ?_
    | with_reducible refine keep_foldl (fun _ _ _ => ?_) ?_
    | with_reducible refine keep_foldl_snd (fun _ _ _ _ => ?_) ?_
    | split)

theorem State.loseRouter_keeps {P : State → Prop} (hP : Closed 2936819 P) {n : Nat} {s : State}  (h0 : P s) :
    P (State.loseRouter n s) := by
  unfold State.loseRouter
  repeat' (first
    | with_reducible assumption
    | with_reducible refine hP.host rfl _ _ ?_
    | with_reducible refine State.loseLinks_keeps (hP.mono rfl) ?_
    | with_reducible refine State.withdrawBlock_keeps (hP.mono rfl) ?_
    | with_reducible refine State.loseEngine_keeps (hP.mono rfl) ?_
    | with_reducible refine State.loseHomeUnit_keeps (hP.mono rfl) ?_
    | with_reducible refine State.failDrive_keeps (hP.mono rfl) ?_
    | with_reducible refine State.failIslands_keeps (hP.mono rfl) ?_
    | with_reducible refine State.selfFence_keeps (hP.mono rfl) ?_
    | with_reducible refine keep_foldl (fun _ _ _ => ?_) ?_
    | with_reducible refine keep_foldl_snd (fun _ _ _ _ => ?_) ?_
    | exact fun _ => rfl
    | exact fun _ h => h
    | (extract_lets +onlyGivenNames x; refine keep_cut (P x) ?_ (fun _ => ?_); unfold x; clear x; rotate_left; clear_value x)
    | (extract_lets +onlyGivenNames x; refine keep_cut (P x.2) ?_ (fun _ => ?_); unfold x; clear x; rotate_left; clear_value x)
    | (extract_lets +onlyGivenNames x; clear_value x)
    | split)

theorem State.abortAll_keeps {P : State → Prop} (hP : Closed 2132160 P) {l : List Nat} {s : State}  (h0 : P s) :
    P (State.abortAll l s) := by
  unfold State.abortAll
  repeat' (first
    | with_reducible assumption
    | with_reducible refine State.finishReq_keeps (hP.mono rfl) ?_
    | with_reducible refine keep_foldl (fun _ _ _ => ?_) ?_
    | with_reducible refine keep_foldl_snd (fun _ _ _ _ => ?_) ?_
    | split)

theorem State.loseContexts_keeps {P : State → Prop} (hP : Closed 2918640 P) {n : Nat} {s : State}  (h0 : P s) :
    P (State.loseContexts n s) := by
  unfold State.loseContexts
  repeat' (first
    | with_reducible assumption
    | with_reducible refine hP.eng rfl _ _ ?_
    | with_reducible refine State.onBlock_keeps (hP.mono rfl) ?_
    | with_reducible refine State.placeReady_keeps (hP.mono rfl) ?_
    | with_reducible refine State.onParked_keeps (hP.mono rfl) ?_
    | with_reducible refine State.abortAll_keeps (hP.mono rfl) ?_
    | with_reducible refine keep_foldl (fun _ _ _ => ?_) ?_
    | with_reducible refine keep_foldl_snd (fun _ _ _ _ => ?_) ?_
    | (extract_lets +onlyGivenNames x; refine keep_cut (P x) ?_ (fun _ => ?_); unfold x; clear x; rotate_left; clear_value x)
    | (extract_lets +onlyGivenNames x; refine keep_cut (P x.2) ?_ (fun _ => ?_); unfold x; clear x; rotate_left; clear_value x)
    | (extract_lets +onlyGivenNames x; clear_value x)
    | split)

theorem State.loseFabric_keeps {P : State → Prop} (hP : Closed 2936819 P) {n : Nat} {s : State}  (h0 : P s) :
    P (State.loseFabric n s) := by
  unfold State.loseFabric
  repeat' (first
    | with_reducible assumption
    | with_reducible refine State.failIslands_keeps (hP.mono rfl) ?_
    | with_reducible refine State.loseContexts_keeps (hP.mono rfl) ?_
    | with_reducible refine State.loseRouter_keeps (hP.mono rfl) ?_
    | with_reducible refine keep_foldl (fun _ _ _ => ?_) ?_
    | with_reducible refine keep_foldl_snd (fun _ _ _ _ => ?_) ?_
    | exact fun _ => rfl
    | exact fun _ h => h
    | split)

theorem State.leaveStack_keeps {P : State → Prop} (hP : Closed 786672 P) {n : Nat} {s : State}  (h0 : P s) :
    P (State.leaveStack n s) := by
  unfold State.leaveStack
  repeat' (first
    | with_reducible assumption
    | with_reducible refine State.onAccums_keeps (hP.mono rfl) ?_
    | with_reducible refine keep_foldl (fun _ _ _ => ?_) ?_
    | with_reducible refine keep_foldl_snd (fun _ _ _ _ => ?_) ?_
    | split)

theorem State.loseLocus_keeps {P : State → Prop} (hP : Closed 4096 P) {n : Nat} {s : State}  (h0 : P s) :
    P (State.loseLocus n s) := by
  unfold State.loseLocus
  repeat' (first
    | with_reducible assumption
    | with_reducible refine hP.locus rfl _ _ ?_
    | with_reducible refine keep_foldl (fun _ _ _ => ?_) ?_
    | with_reducible refine keep_foldl_snd (fun _ _ _ _ => ?_) ?_
    | (extract_lets +onlyGivenNames x; refine keep_cut (P x) ?_ (fun _ => ?_); unfold x; clear x; rotate_left; clear_value x)
    | (extract_lets +onlyGivenNames x; refine keep_cut (P x.2) ?_ (fun _ => ?_); unfold x; clear x; rotate_left; clear_value x)
    | (extract_lets +onlyGivenNames x; clear_value x)
    | split)

theorem State.abortLoads_keeps {P : State → Prop} (hP : Closed 786480 P) {n : Nat} {s : State}  (h0 : P s) :
    P (State.abortLoads n s) := by
  unfold State.abortLoads
  repeat' (first
    | with_reducible assumption
    | with_reducible refine State.opFail_keeps (hP.mono rfl) ?_
    | with_reducible refine keep_foldl (fun _ _ _ => ?_) ?_
    | with_reducible refine keep_foldl_snd (fun _ _ _ _ => ?_) ?_
    | split)

theorem State.fenceRegion_keeps {P : State → Prop} (hP : Closed 2949107 P) {n cause : Nat} {fabric : Bool} {s : State}  (h0 : P s) :
    P (State.fenceRegion n cause fabric s) := by
  unfold State.fenceRegion
  repeat' (first
    | with_reducible assumption
    | with_reducible refine hP.ras rfl _ _ ?_
    | with_reducible refine hP.eng rfl _ _ ?_
    | with_reducible refine hP.nbu rfl _ _ _ ?_
    | with_reducible refine hP.home rfl _ _ ?_
    | with_reducible refine State.loseFabric_keeps (hP.mono rfl) ?_
    | with_reducible refine State.endLeases_keeps (hP.mono rfl) ?_
    | with_reducible refine State.logEvent_keeps (hP.mono rfl) ?_
    | with_reducible refine State.abortLoads_keeps (hP.mono rfl) ?_
    | with_reducible refine State.leaveStack_keeps (hP.mono rfl) ?_
    | with_reducible refine State.loseLocus_keeps (hP.mono rfl) ?_
    | with_reducible refine State.loseQuarter_keeps (hP.mono rfl) ?_
    | with_reducible refine State.selfFence_keeps (hP.mono rfl) ?_
    | with_reducible refine keep_foldl (fun _ _ _ => ?_) ?_
    | with_reducible refine keep_foldl_snd (fun _ _ _ _ => ?_) ?_
    | exact fun _ => rfl
    | exact fun _ h => h
    | (extract_lets +onlyGivenNames x; refine keep_cut (P x) ?_ (fun _ => ?_); unfold x; clear x; rotate_left; clear_value x)
    | (extract_lets +onlyGivenNames x; refine keep_cut (P x.2) ?_ (fun _ => ?_); unfold x; clear x; rotate_left; clear_value x)
    | (extract_lets +onlyGivenNames x; clear_value x)
    | split)

end Sys2Proof.Machine
end

