-- ==== Sys2Proof/Laws/KeepWindows.lean ====
section
/-! SUPPORT. What the operations of Machine/Windows.lean touch: each keeps every predicate that is closed under the parts named. -/

namespace Sys2Proof.Machine

set_option linter.unusedTactic false
set_option linter.unreachableTactic false
set_option linter.unusedVariables false
set_option linter.tactic.unusedName false

theorem State.writeSlot_keeps {P : State → Prop} (hP : Closed 1024 P) {n pair k : Nat} {b : List Byte} {s : State}  (h0 : P s) :
    P (State.writeSlot n pair k b s) := by
  unfold State.writeSlot
  repeat' (first
    | with_reducible assumption
    | with_reducible refine State.bankWrite_keeps (hP.mono rfl) ?_
    | with_reducible refine keep_foldl (fun _ _ _ => ?_) ?_
    | with_reducible refine keep_foldl_snd (fun _ _ _ _ => ?_) ?_
    | exact fun _ => rfl
    | exact fun _ h => h
    | split)

theorem State.syncRegionClk_keeps {P : State → Prop} (hP : Closed 4 P) {n : Nat} {s : State}  (h0 : P s) :
    P (State.syncRegionClk n s) := by
  unfold State.syncRegionClk
  repeat' (first
    | with_reducible assumption
    | with_reducible refine hP.pwr rfl _ _ ?_
    | with_reducible refine keep_foldl (fun _ _ _ => ?_) ?_
    | with_reducible refine keep_foldl_snd (fun _ _ _ _ => ?_) ?_
    | split)

end Sys2Proof.Machine
end

