-- ==== Sys2Proof/Laws/KeepCells.lean ====
section
/-! SUPPORT. What the operations of Machine/Cells.lean touch: each keeps every predicate that is closed under the parts named. -/

namespace Sys2Proof.Machine

set_option linter.unusedTactic false
set_option linter.unreachableTactic false
set_option linter.unusedVariables false
set_option linter.tactic.unusedName false

theorem State.placeTile_keeps {P : State → Prop} (hP : Closed 786672 P) {b : Nat} {t : TileGroup} {s : State}  (h0 : P s) :
    P (State.placeTile b t s) := by
  unfold State.placeTile
  repeat' (first
    | with_reducible assumption
    | with_reducible refine hP.free rfl _ ?_
    | with_reducible refine State.onBlock_keeps (hP.mono rfl) ?_
    | with_reducible refine State.placeReady_keeps (hP.mono rfl) ?_
    | with_reducible refine keep_foldl (fun _ _ _ => ?_) ?_
    | with_reducible refine keep_foldl_snd (fun _ _ _ _ => ?_) ?_
    | split)

theorem execTilePlace_keeps {P : State → Prop} (hP : Closed 786672 P) {block : Fin 32} {t : TileGroup} {s : State}  (h0 : P s) {t0 : State}
    (e : execTilePlace block t s = .next t0) : P t0 := by
  unfold execTilePlace at e
  cases e
  repeat' (first
    | with_reducible assumption
    | with_reducible refine State.whenUp_keeps (hP.mono rfl) (fun _ _ => ?_) ?_
    | with_reducible refine State.placeTile_keeps (hP.mono rfl) ?_
    | with_reducible refine keep_foldl (fun _ _ _ => ?_) ?_
    | with_reducible refine keep_foldl_snd (fun _ _ _ _ => ?_) ?_
    | split)

theorem State.offer_keeps {P : State → Prop} (hP : Closed 786672 P) {b p : Nat} {s : State}  (h0 : P s) :
    P (State.offer b p s) := by
  unfold State.offer
  repeat' (first
    | with_reducible assumption
    | with_reducible refine State.freed_keeps (hP.mono rfl) ?_
    | with_reducible refine keep_foldl (fun _ _ _ => ?_) ?_
    | with_reducible refine keep_foldl_snd (fun _ _ _ _ => ?_) ?_
    | split)

theorem State.tileDone_keeps {P : State → Prop} (hP : Closed 803312 P) {b slot : Nat} {x : ArrayFault} {s : State}  (h0 : P s) :
    P (State.tileDone b slot x s) := by
  unfold State.tileDone
  repeat' (first
    | with_reducible assumption
    | with_reducible refine State.portFirst_keeps (hP.mono rfl) ?_
    | with_reducible refine State.goOn_keeps (hP.mono rfl) ?_
    | with_reducible refine State.offer_keeps (hP.mono rfl) ?_
    | with_reducible refine State.onBlock_keeps (hP.mono rfl) ?_
    | with_reducible refine State.takeProduct_keeps (hP.mono rfl) ?_
    | with_reducible refine State.onCell_keeps (hP.mono rfl) ?_
    | with_reducible refine keep_foldl (fun _ _ _ => ?_) ?_
    | with_reducible refine keep_foldl_snd (fun _ _ _ _ => ?_) ?_
    | (extract_lets +onlyGivenNames x; refine keep_cut (P x) ?_ (fun _ => ?_); unfold x; clear x; rotate_left; clear_value x)
    | (extract_lets +onlyGivenNames x; refine keep_cut (P x.2) ?_ (fun _ => ?_); unfold x; clear x; rotate_left; clear_value x)
    | (extract_lets +onlyGivenNames x; clear_value x)
    | split)

theorem execTileProduct_keeps {P : State → Prop} (hP : Closed 803312 P) {block : Fin 32} {slot : Fin 4} {x : ArrayFault} {s : State}  (h0 : P s) {t0 : State}
    (e : execTileProduct block slot x s = .next t0) : P t0 := by
  unfold execTileProduct at e
  cases e
  repeat' (first
    | with_reducible assumption
    | with_reducible refine State.whenUp_keeps (hP.mono rfl) (fun _ _ => ?_) ?_
    | with_reducible refine State.tileDone_keeps (hP.mono rfl) ?_
    | with_reducible refine keep_foldl (fun _ _ _ => ?_) ?_
    | with_reducible refine keep_foldl_snd (fun _ _ _ _ => ?_) ?_
    | split)

theorem State.giveUpTile_keeps {P : State → Prop} (hP : Closed 786672 P) {r : Retry} {s : State}  (h0 : P s) :
    P (State.giveUpTile r s) := by
  unfold State.giveUpTile
  repeat' (first
    | with_reducible assumption
    | with_reducible refine State.onAccums_keeps (hP.mono rfl) ?_
    | with_reducible refine keep_foldl (fun _ _ _ => ?_) ?_
    | with_reducible refine keep_foldl_snd (fun _ _ _ _ => ?_) ?_
    | split)

theorem State.tileAgain_keeps {P : State → Prop} (hP : Closed 2949106 P) {b : Nat} {f : ArrayFault} {s : State}  (h0 : P s) :
    P (State.tileAgain b f s) := by
  unfold State.tileAgain
  repeat' (first
    | with_reducible assumption
    | with_reducible refine hP.ras rfl _ _ ?_
    | with_reducible refine State.onBlock_keeps (hP.mono rfl) ?_
    | with_reducible refine State.fillCell_keeps (hP.mono rfl) ?_
    | with_reducible refine State.takeProduct_keeps (hP.mono rfl) ?_
    | with_reducible refine State.offer_keeps (hP.mono rfl) ?_
    | with_reducible refine State.reread_keeps (hP.mono rfl) ?_
    | with_reducible refine State.detect_keeps (hP.mono rfl) ?_
    | with_reducible refine State.giveUpTile_keeps (hP.mono rfl) ?_
    | with_reducible refine State.logDetection_keeps (hP.mono rfl) ?_
    | with_reducible refine State.retireOf_keeps (hP.mono rfl) ?_
    | with_reducible refine keep_foldl (fun _ _ _ => ?_) ?_
    | with_reducible refine keep_foldl_snd (fun _ _ _ _ => ?_) ?_
    | exact fun _ => rfl
    | exact fun _ h => h
    | (extract_lets +onlyGivenNames x; refine keep_cut (P x) ?_ (fun _ => ?_); unfold x; clear x; rotate_left; clear_value x)
    | (extract_lets +onlyGivenNames x; refine keep_cut (P x.2) ?_ (fun _ => ?_); unfold x; clear x; rotate_left; clear_value x)
    | (extract_lets +onlyGivenNames x; clear_value x)
    | split)

theorem execTileRetry_keeps {P : State → Prop} (hP : Closed 2949106 P) {block : Fin 32} {x : ArrayFault} {s : State}  (h0 : P s) {t0 : State}
    (e : execTileRetry block x s = .next t0) : P t0 := by
  unfold execTileRetry at e
  cases e
  repeat' (first
    | with_reducible assumption
    | with_reducible refine State.whenUp_keeps (hP.mono rfl) (fun _ _ => ?_) ?_
    | with_reducible refine State.tileAgain_keeps (hP.mono rfl) ?_
    | with_reducible refine keep_foldl (fun _ _ _ => ?_) ?_
    | with_reducible refine keep_foldl_snd (fun _ _ _ _ => ?_) ?_
    | exact fun _ => rfl
    | exact fun _ h => h
    | split)

theorem State.lineBad_keeps {P : State → Prop} (hP : Closed 524466 P) {n a : Nat} {s : State}  (h0 : P s) :
    P (State.lineBad n a s) := by
  unfold State.lineBad
  repeat' (first
    | with_reducible assumption
    | with_reducible refine hP.ras rfl _ _ ?_
    | with_reducible refine hP.eng rfl _ _ ?_
    | with_reducible refine State.logDetection_keeps (hP.mono rfl) ?_
    | with_reducible refine keep_foldl (fun _ _ _ => ?_) ?_
    | with_reducible refine keep_foldl_snd (fun _ _ _ _ => ?_) ?_
    | (extract_lets +onlyGivenNames x; refine keep_cut (P x) ?_ (fun _ => ?_); unfold x; clear x; rotate_left; clear_value x)
    | (extract_lets +onlyGivenNames x; refine keep_cut (P x.2) ?_ (fun _ => ?_); unfold x; clear x; rotate_left; clear_value x)
    | (extract_lets +onlyGivenNames x; clear_value x)
    | split)

theorem State.refillLine_keeps {P : State → Prop} (hP : Closed 128 P) {n a : Nat} {s : State}  (h0 : P s) :
    P (State.refillLine n a s) := by
  unfold State.refillLine
  repeat' (first
    | with_reducible assumption
    | with_reducible refine hP.eng rfl _ _ ?_
    | with_reducible refine keep_foldl (fun _ _ _ => ?_) ?_
    | with_reducible refine keep_foldl_snd (fun _ _ _ _ => ?_) ?_
    | (extract_lets +onlyGivenNames x; refine keep_cut (P x) ?_ (fun _ => ?_); unfold x; clear x; rotate_left; clear_value x)
    | (extract_lets +onlyGivenNames x; refine keep_cut (P x.2) ?_ (fun _ => ?_); unfold x; clear x; rotate_left; clear_value x)
    | (extract_lets +onlyGivenNames x; clear_value x)
    | split)

theorem State.poisonTile_keeps {P : State → Prop} (hP : Closed 2949106 P) {r : Retry} {a : Nat} {s : State}  (h0 : P s) :
    P (State.poisonTile r a s) := by
  unfold State.poisonTile
  repeat' (first
    | with_reducible assumption
    | with_reducible refine State.uncorrectable_keeps (hP.mono rfl) ?_
    | with_reducible refine State.onAccums_keeps (hP.mono rfl) ?_
    | with_reducible refine keep_foldl (fun _ _ _ => ?_) ?_
    | with_reducible refine keep_foldl_snd (fun _ _ _ _ => ?_) ?_
    | exact fun _ => rfl
    | exact fun _ h => h
    | (extract_lets +onlyGivenNames x; refine keep_cut (P x) ?_ (fun _ => ?_); unfold x; clear x; rotate_left; clear_value x)
    | (extract_lets +onlyGivenNames x; refine keep_cut (P x.2) ?_ (fun _ => ?_); unfold x; clear x; rotate_left; clear_value x)
    | (extract_lets +onlyGivenNames x; clear_value x)
    | split)

theorem State.refilled_keeps {P : State → Prop} (hP : Closed 2949106 P) {n a : Nat} {clean : Bool} {s : State}  (h0 : P s) :
    P (State.refilled n a clean s) := by
  unfold State.refilled
  repeat' (first
    | with_reducible assumption
    | with_reducible refine State.onBlock_keeps (hP.mono rfl) ?_
    | with_reducible refine State.refillLine_keeps (hP.mono rfl) ?_
    | with_reducible refine State.poisonTile_keeps (hP.mono rfl) ?_
    | with_reducible refine State.lineBad_keeps (hP.mono rfl) ?_
    | with_reducible refine State.uncorrectable_keeps (hP.mono rfl) ?_
    | with_reducible refine keep_foldl (fun _ _ _ => ?_) ?_
    | with_reducible refine keep_foldl_snd (fun _ _ _ _ => ?_) ?_
    | exact fun _ => rfl
    | exact fun _ h => h
    | (extract_lets +onlyGivenNames x; refine keep_cut (P x) ?_ (fun _ => ?_); unfold x; clear x; rotate_left; clear_value x)
    | (extract_lets +onlyGivenNames x; refine keep_cut (P x.2) ?_ (fun _ => ?_); unfold x; clear x; rotate_left; clear_value x)
    | (extract_lets +onlyGivenNames x; clear_value x)
    | split)

theorem State.reread_keeps {P : State → Prop} (hP : Closed 2949106 P) {n a : Nat} {clean : Bool} {s : State}  (h0 : P s) :
    P (State.reread n a clean s) := by
  unfold State.reread
  repeat' (first
    | with_reducible assumption
    | with_reducible refine hP.nbu rfl _ _ _ ?_
    | with_reducible refine State.takeSlot_keeps (hP.mono rfl) ?_
    | with_reducible refine State.enqueue_keeps (hP.mono rfl) ?_
    | with_reducible refine State.refilled_keeps (hP.mono rfl) ?_
    | with_reducible refine keep_foldl (fun _ _ _ => ?_) ?_
    | with_reducible refine keep_foldl_snd (fun _ _ _ _ => ?_) ?_
    | exact fun _ => rfl
    | exact fun _ h => h
    | (extract_lets +onlyGivenNames x; refine keep_cut (P x) ?_ (fun _ => ?_); unfold x; clear x; rotate_left; clear_value x)
    | (extract_lets +onlyGivenNames x; refine keep_cut (P x.2) ?_ (fun _ => ?_); unfold x; clear x; rotate_left; clear_value x)
    | (extract_lets +onlyGivenNames x; clear_value x)
    | split)

theorem execRegionReread_keeps {P : State → Prop} (hP : Closed 2949106 P) {region : Fin 8} {addr : Nat} {clean : Bool} {s : State}  (h0 : P s) {t0 : State}
    (e : execRegionReread region addr clean s = .next t0) : P t0 := by
  unfold execRegionReread at e
  cases e
  repeat' (first
    | with_reducible assumption
    | with_reducible refine State.whenUp_keeps (hP.mono rfl) (fun _ _ => ?_) ?_
    | with_reducible refine State.reread_keeps (hP.mono rfl) ?_
    | with_reducible refine keep_foldl (fun _ _ _ => ?_) ?_
    | with_reducible refine keep_foldl_snd (fun _ _ _ _ => ?_) ?_
    | exact fun _ => rfl
    | exact fun _ h => h
    | split)

theorem State.returnLent_keeps {P : State → Prop} (hP : Closed 128 P) {b : Nat} {s : State}  (h0 : P s) :
    P (State.returnLent b s) := by
  unfold State.returnLent
  repeat' (first
    | with_reducible assumption
    | with_reducible refine State.onBlock_keeps (hP.mono rfl) ?_
    | with_reducible refine keep_foldl (fun _ _ _ => ?_) ?_
    | with_reducible refine keep_foldl_snd (fun _ _ _ _ => ?_) ?_
    | split)

theorem State.moveFaulted_keeps {P : State → Prop} (hP : Closed 128 P) {b p : Nat} {spare : Bool} {s : State}  (h0 : P s) :
    P (State.moveFaulted b p spare s) := by
  unfold State.moveFaulted
  repeat' (first
    | with_reducible assumption
    | with_reducible refine State.onCell_keeps (hP.mono rfl) ?_
    | with_reducible refine State.onBlock_keeps (hP.mono rfl) ?_
    | with_reducible refine keep_foldl (fun _ _ _ => ?_) ?_
    | with_reducible refine keep_foldl_snd (fun _ _ _ _ => ?_) ?_
    | (extract_lets +onlyGivenNames x; refine keep_cut (P x) ?_ (fun _ => ?_); unfold x; clear x; rotate_left; clear_value x)
    | (extract_lets +onlyGivenNames x; refine keep_cut (P x.2) ?_ (fun _ => ?_); unfold x; clear x; rotate_left; clear_value x)
    | (extract_lets +onlyGivenNames x; clear_value x)
    | split)

theorem State.moveSlot_keeps {P : State → Prop} (hP : Closed 787186 P) {b i p : Nat} {s : State}  (h0 : P s) :
    P (State.moveSlot b i p s) := by
  unfold State.moveSlot
  repeat' (first
    | with_reducible assumption
    | with_reducible refine State.spillShadow_keeps (hP.mono rfl) ?_
    | with_reducible refine State.returnLent_keeps (hP.mono rfl) ?_
    | with_reducible refine State.onBlock_keeps (hP.mono rfl) ?_
    | with_reducible refine State.moveFaulted_keeps (hP.mono rfl) ?_
    | with_reducible refine State.withdrawBlock_keeps (hP.mono rfl) ?_
    | with_reducible refine State.placeReady_keeps (hP.mono rfl) ?_
    | with_reducible refine State.onUnit_keeps (hP.mono rfl) ?_
    | with_reducible refine keep_foldl (fun _ _ _ => ?_) ?_
    | with_reducible refine keep_foldl_snd (fun _ _ _ _ => ?_) ?_
    | exact fun _ => rfl
    | exact fun _ h => h
    | (extract_lets +onlyGivenNames x; refine keep_cut (P x) ?_ (fun _ => ?_); unfold x; clear x; rotate_left; clear_value x)
    | (extract_lets +onlyGivenNames x; refine keep_cut (P x.2) ?_ (fun _ => ?_); unfold x; clear x; rotate_left; clear_value x)
    | (extract_lets +onlyGivenNames x; clear_value x)
    | split)

theorem State.moveSlots_keeps {P : State → Prop} (hP : Closed 787186 P) {b : Nat} {s : State}  (h0 : P s) :
    P (State.moveSlots b s) := by
  unfold State.moveSlots
  repeat' (first
    | with_reducible assumption
    | with_reducible refine State.moveSlot_keeps (hP.mono rfl) ?_
    | with_reducible refine keep_foldl (fun _ _ _ => ?_) ?_
    | with_reducible refine keep_foldl_snd (fun _ _ _ _ => ?_) ?_
    | exact fun _ => rfl
    | exact fun _ h => h
    | split)

theorem execCellSlotMove_keeps {P : State → Prop} (hP : Closed 787186 P) {block : Fin 32} {s : State}  (h0 : P s) {t0 : State}
    (e : execCellSlotMove block s = .next t0) : P t0 := by
  unfold execCellSlotMove at e
  cases e
  repeat' (first
    | with_reducible assumption
    | with_reducible refine State.whenUp_keeps (hP.mono rfl) (fun _ _ => ?_) ?_
    | with_reducible refine State.moveSlots_keeps (hP.mono rfl) ?_
    | with_reducible refine keep_foldl (fun _ _ _ => ?_) ?_
    | with_reducible refine keep_foldl_snd (fun _ _ _ _ => ?_) ?_
    | exact fun _ => rfl
    | exact fun _ h => h
    | split)

theorem State.detectVector_keeps {P : State → Prop} (hP : Closed 524978 P) {b : Nat} {slice : Nat} {s : State}  (h0 : P s) :
    P (State.detectVector b slice s) := by
  unfold State.detectVector
  repeat' (first
    | with_reducible assumption
    | with_reducible refine State.detect_keeps (hP.mono rfl) ?_
    | with_reducible refine keep_foldl (fun _ _ _ => ?_) ?_
    | with_reducible refine keep_foldl_snd (fun _ _ _ _ => ?_) ?_
    | exact fun _ => rfl
    | exact fun _ h => h
    | split)

theorem State.auditTile_keeps {P : State → Prop} (hP : Closed 524978 P) {b : Nat} {first second third : List Nat} {b2 b3 : Nat} {s : State}  (h0 : P s) :
    P (State.auditTile b first second third b2 b3 s) := by
  unfold State.auditTile
  repeat' (first
    | with_reducible assumption
    | with_reducible refine hP.ras rfl _ _ ?_
    | with_reducible refine State.detectVector_keeps (hP.mono rfl) ?_
    | with_reducible refine State.onCell_keeps (hP.mono rfl) ?_
    | with_reducible refine State.onBlock_keeps (hP.mono rfl) ?_
    | with_reducible refine keep_foldl (fun _ _ _ => ?_) ?_
    | with_reducible refine keep_foldl_snd (fun _ _ _ _ => ?_) ?_
    | exact fun _ => rfl
    | exact fun _ h => h
    | (extract_lets +onlyGivenNames x; refine keep_cut (P x) ?_ (fun _ => ?_); unfold x; clear x; rotate_left; clear_value x)
    | (extract_lets +onlyGivenNames x; refine keep_cut (P x.2) ?_ (fun _ => ?_); unfold x; clear x; rotate_left; clear_value x)
    | (extract_lets +onlyGivenNames x; clear_value x)
    | split)

theorem State.auditGroup_keeps {P : State → Prop} (hP : Closed 524978 P) {members : List UnitId} {agree : Bool} {s : State}  (h0 : P s) :
    P (State.auditGroup members agree s) := by
  unfold State.auditGroup
  repeat' (first
    | with_reducible assumption
    | with_reducible refine hP.ras rfl _ _ ?_
    | with_reducible refine State.detect_keeps (hP.mono rfl) ?_
    | with_reducible refine keep_foldl (fun _ _ _ => ?_) ?_
    | with_reducible refine keep_foldl_snd (fun _ _ _ _ => ?_) ?_
    | exact fun _ => rfl
    | exact fun _ h => h
    | split)

theorem execAuditDuplicate_keeps {P : State → Prop} (hP : Closed 524978 P) {block : Fin 32} {first second third : List Nat} {secondBlock thirdBlock : Fin 32} {group : Option (List UnitId × Bool)} {s : State}  (h0 : P s) {t0 : State}
    (e : execAuditDuplicate block first second third secondBlock thirdBlock group s = .next t0) : P t0 := by
  unfold execAuditDuplicate at e
  cases e
  repeat' (first
    | with_reducible assumption
    | with_reducible refine State.whenUp_keeps (hP.mono rfl) (fun _ _ => ?_) ?_
    | with_reducible refine State.auditGroup_keeps (hP.mono rfl) ?_
    | with_reducible refine State.auditTile_keeps (hP.mono rfl) ?_
    | with_reducible refine keep_foldl (fun _ _ _ => ?_) ?_
    | with_reducible refine keep_foldl_snd (fun _ _ _ _ => ?_) ?_
    | exact fun _ => rfl
    | exact fun _ h => h
    | split)

theorem State.sentinel_keeps {P : State → Prop} (hP : Closed 524978 P) {u : UnitId} {pass late : Bool} {temp volt : Nat} {s : State}  (h0 : P s) :
    P (State.sentinel u pass late temp volt s) := by
  unfold State.sentinel
  repeat' (first
    | with_reducible assumption
    | with_reducible refine hP.ras rfl _ _ ?_
    | with_reducible refine State.detectAt_keeps (hP.mono rfl) ?_
    | with_reducible refine keep_foldl (fun _ _ _ => ?_) ?_
    | with_reducible refine keep_foldl_snd (fun _ _ _ _ => ?_) ?_
    | exact fun _ => rfl
    | exact fun _ h => h
    | (extract_lets +onlyGivenNames x; refine keep_cut (P x) ?_ (fun _ => ?_); unfold x; clear x; rotate_left; clear_value x)
    | (extract_lets +onlyGivenNames x; refine keep_cut (P x.2) ?_ (fun _ => ?_); unfold x; clear x; rotate_left; clear_value x)
    | (extract_lets +onlyGivenNames x; clear_value x)
    | split)

theorem State.portOf_keeps {P : State → Prop} (hP : Closed 16768 P) {u : UnitId} {s : State}  (h0 : P s) :
    P (State.portOf u s) := by
  unfold State.portOf
  repeat' (first
    | with_reducible assumption
    | with_reducible refine State.portFirst_keeps (hP.mono rfl) ?_
    | with_reducible refine keep_foldl (fun _ _ _ => ?_) ?_
    | with_reducible refine keep_foldl_snd (fun _ _ _ _ => ?_) ?_
    | split)

theorem execSentinelRun_keeps {P : State → Prop} (hP : Closed 541618 P) {u : UnitId} {pass late : Bool} {temp volt : Nat} {s : State}  (h0 : P s) {t0 : State}
    (e : execSentinelRun u pass late temp volt s = .next t0) : P t0 := by
  unfold execSentinelRun at e
  cases e
  repeat' (first
    | with_reducible assumption
    | with_reducible refine State.whenUp_keeps (hP.mono rfl) (fun _ _ => ?_) ?_
    | with_reducible refine State.portOf_keeps (hP.mono rfl) ?_
    | with_reducible refine State.sentinel_keeps (hP.mono rfl) ?_
    | with_reducible refine keep_foldl (fun _ _ _ => ?_) ?_
    | with_reducible refine keep_foldl_snd (fun _ _ _ _ => ?_) ?_
    | exact fun _ => rfl
    | exact fun _ h => h
    | split)

theorem execRetestComplete_keeps {P : State → Prop} (hP : Closed 787442 P) {u : UnitId} {pass : Bool} {s : State}  (h0 : P s) {t0 : State}
    (e : execRetestComplete u pass s = .next t0) : P t0 := by
  unfold execRetestComplete at e
  cases e
  repeat' (first
    | with_reducible assumption
    | with_reducible refine State.whenUp_keeps (hP.mono rfl) (fun _ _ => ?_) ?_
    | with_reducible refine State.classify_keeps (hP.mono rfl) ?_
    | with_reducible refine keep_foldl (fun _ _ _ => ?_) ?_
    | with_reducible refine keep_foldl_snd (fun _ _ _ _ => ?_) ?_
    | exact fun _ => rfl
    | exact fun _ h => h
    | split)

theorem State.scrubbed_keeps {P : State → Prop} (hP : Closed 2686962 P) {x : Nat} {corrected uncorrectable : Bool} {s : State}  (h0 : P s) :
    P (State.scrubbed x corrected uncorrectable s) := by
  unfold State.scrubbed
  repeat' (first
    | with_reducible assumption
    | with_reducible refine State.uncorrectable_keeps (hP.mono rfl) ?_
    | with_reducible refine State.rowCorrected_keeps (hP.mono rfl) ?_
    | with_reducible refine keep_foldl (fun _ _ _ => ?_) ?_
    | with_reducible refine keep_foldl_snd (fun _ _ _ _ => ?_) ?_
    | exact fun _ => rfl
    | exact fun _ h => h
    | split)

theorem State.scrub_keeps {P : State → Prop} (hP : Closed 2686962 P) {n a : Nat} {corrected uncorrectable : Bool} {s : State}  (h0 : P s) :
    P (State.scrub n a corrected uncorrectable s) := by
  unfold State.scrub
  repeat' (first
    | with_reducible assumption
    | with_reducible refine State.takeStack_keeps (hP.mono rfl) ?_
    | with_reducible refine State.collide_keeps (hP.mono rfl) ?_
    | with_reducible refine State.scrubbed_keeps (hP.mono rfl) ?_
    | with_reducible refine keep_foldl (fun _ _ _ => ?_) ?_
    | with_reducible refine keep_foldl_snd (fun _ _ _ _ => ?_) ?_
    | exact fun _ => rfl
    | exact fun _ h => h
    | (extract_lets +onlyGivenNames x; refine keep_cut (P x) ?_ (fun _ => ?_); unfold x; clear x; rotate_left; clear_value x)
    | (extract_lets +onlyGivenNames x; refine keep_cut (P x.2) ?_ (fun _ => ?_); unfold x; clear x; rotate_left; clear_value x)
    | (extract_lets +onlyGivenNames x; clear_value x)
    | split)

theorem execPatrolScrub_keeps {P : State → Prop} (hP : Closed 2686962 P) {stack : Fin 8} {addr : Nat} {corrected uncorrectable : Bool} {s : State}  (h0 : P s) {t0 : State}
    (e : execPatrolScrub stack addr corrected uncorrectable s = .next t0) : P t0 := by
  unfold execPatrolScrub at e
  cases e
  repeat' (first
    | with_reducible assumption
    | with_reducible refine State.whenUp_keeps (hP.mono rfl) (fun _ _ => ?_) ?_
    | with_reducible refine State.scrub_keeps (hP.mono rfl) ?_
    | with_reducible refine keep_foldl (fun _ _ _ => ?_) ?_
    | with_reducible refine keep_foldl_snd (fun _ _ _ _ => ?_) ?_
    | exact fun _ => rfl
    | exact fun _ h => h
    | split)

end Sys2Proof.Machine
end

