-- ==== Sys2Proof/Laws/KeepAttend.lean ====
section
/-! SUPPORT. What the operations of Machine/Attend.lean touch: each keeps every predicate that is closed under the parts named. -/

namespace Sys2Proof.Machine

set_option linter.unusedTactic false
set_option linter.unreachableTactic false
set_option linter.unusedVariables false
set_option linter.tactic.unusedName false

theorem State.touchFrame_keeps {P : State → Prop} (hP : Closed 16768 P) {src : PageSrc} {heads : List Nat} {s : State}  (h0 : P s) :
    P (State.touchFrame src heads s) := by
  unfold State.touchFrame
  repeat' (first
    | with_reducible assumption
    | with_reducible refine State.touchLine_keeps (hP.mono rfl) ?_
    | with_reducible refine State.busReads_keeps (hP.mono rfl) ?_
    | with_reducible refine keep_foldl (fun _ _ _ => ?_) ?_
    | with_reducible refine keep_foldl_snd (fun _ _ _ _ => ?_) ?_
    | split)

theorem State.sendNear_keeps {P : State → Prop} (hP : Closed 256 P) {r idx slice rowsPerHead : Nat} {n : PageName} {src : PageSrc} {skip : List Nat} {s : State}  (h0 : P s) :
    P (State.sendNear r idx slice rowsPerHead n src skip s) := by
  unfold State.sendNear
  repeat' (first
    | with_reducible assumption
    | with_reducible refine hP.nbu rfl _ _ _ ?_
    | with_reducible refine keep_foldl (fun _ _ _ => ?_) ?_
    | with_reducible refine keep_foldl_snd (fun _ _ _ _ => ?_) ?_
    | (extract_lets +onlyGivenNames x; refine keep_cut (P x) ?_ (fun _ => ?_); unfold x; clear x; rotate_left; clear_value x)
    | (extract_lets +onlyGivenNames x; refine keep_cut (P x.2) ?_ (fun _ => ?_); unfold x; clear x; rotate_left; clear_value x)
    | (extract_lets +onlyGivenNames x; clear_value x)
    | split)

theorem State.parkOn_keeps {P : State → Prop} (hP : Closed 192 P) {r idx slice cls admitted : Nat} {n : PageName} {tg : TileGroup} {tries : Nat} {s : State}  (h0 : P s) :
    P (State.parkOn r idx slice cls admitted n tg tries s).2 := by
  unfold State.parkOn
  repeat' (first
    | with_reducible assumption
    | with_reducible refine hP.sch rfl _ _ ?_
    | with_reducible refine State.addCtx_keeps (hP.mono rfl) ?_
    | with_reducible refine State.addCtx_eq (hP.mono rfl) ?_ ‹_›
    | with_reducible refine keep_foldl (fun _ _ _ => ?_) ?_
    | with_reducible refine keep_foldl_snd (fun _ _ _ _ => ?_) ?_
    | (extract_lets +onlyGivenNames x; refine keep_cut (P x) ?_ (fun _ => ?_); unfold x; clear x; rotate_left; clear_value x)
    | (extract_lets +onlyGivenNames x; refine keep_cut (P x.2) ?_ (fun _ => ?_); unfold x; clear x; rotate_left; clear_value x)
    | (extract_lets +onlyGivenNames x; clear_value x)
    | split
    | with_reducible refine keep_snd ?_)
theorem State.parkOn_eq {P : State → Prop} (hP : Closed 192 P) {r idx slice cls admitted : Nat} {n : PageName} {tg : TileGroup} {tries : Nat} {s : State}  (h0 : P s) {a0 : Nat} {t : State}
    (e : State.parkOn r idx slice cls admitted n tg tries s = (a0, t)) : P t := by
  have h1 : P (State.parkOn r idx slice cls admitted n tg tries s).2 := State.parkOn_keeps hP h0
  rw [e] at h1
  exact h1

theorem State.lowerFill_keeps {P : State → Prop} (hP : Closed 2560 P) {slice : Nat} {n : PageName} {s : State}  (h0 : P s) :
    P (State.lowerFill slice n s) := by
  unfold State.lowerFill
  repeat' (first
    | with_reducible assumption
    | with_reducible refine State.classFill_keeps (hP.mono rfl) ?_
    | with_reducible refine keep_foldl (fun _ _ _ => ?_) ?_
    | with_reducible refine keep_foldl_snd (fun _ _ _ _ => ?_) ?_
    | exact fun _ => rfl
    | exact fun _ h => h
    | split)

theorem State.fallBack_keeps {P : State → Prop} (hP : Closed 2674672 P) {slice : Nat} {n : PageName} {s : State}  (h0 : P s) :
    P (State.fallBack slice n s).2.2 := by
  unfold State.fallBack
  repeat' (first
    | with_reducible assumption
    | with_reducible refine State.countTier_keeps (hP.mono rfl) ?_
    | with_reducible refine State.startRecovery_keeps (hP.mono rfl) ?_
    | with_reducible refine State.startFill_keeps (hP.mono rfl) ?_
    | with_reducible refine State.lowerFill_keeps (hP.mono rfl) ?_
    | with_reducible refine keep_foldl (fun _ _ _ => ?_) ?_
    | with_reducible refine keep_foldl_snd (fun _ _ _ _ => ?_) ?_
    | exact fun _ => rfl
    | exact fun _ h => h
    | (extract_lets +onlyGivenNames x; refine keep_cut (P x) ?_ (fun _ => ?_); unfold x; clear x; rotate_left; clear_value x)
    | (extract_lets +onlyGivenNames x; refine keep_cut (P x.2) ?_ (fun _ => ?_); unfold x; clear x; rotate_left; clear_value x)
    | (extract_lets +onlyGivenNames x; clear_value x)
    | split
    | with_reducible refine keep_snd ?_)
theorem State.fallBack_eq {P : State → Prop} (hP : Closed 2674672 P) {slice : Nat} {n : PageName} {s : State}  (h0 : P s) {a0 : Code} {a1 : Option PageSrc} {t : State}
    (e : State.fallBack slice n s = (a0, a1, t)) : P t := by
  have h1 : P (State.fallBack slice n s).2.2 := State.fallBack_keeps hP h0
  rw [e] at h1
  exact h1

theorem State.awaitPage_keeps {P : State → Prop} (hP : Closed 2674672 P) {slice : Nat} {n : PageName} {cls : Nat} {s : State}  (h0 : P s) :
    P (State.awaitPage slice n cls s) := by
  unfold State.awaitPage
  repeat' (first
    | with_reducible assumption
    | with_reducible refine State.startRecovery_keeps (hP.mono rfl) ?_
    | with_reducible refine State.startFill_keeps (hP.mono rfl) ?_
    | with_reducible refine keep_foldl (fun _ _ _ => ?_) ?_
    | with_reducible refine keep_foldl_snd (fun _ _ _ _ => ?_) ?_
    | exact fun _ => rfl
    | exact fun _ h => h
    | split)

theorem State.countLookahead_keeps {P : State → Prop} (hP : Closed 2048 P) {slice : Nat} {n : PageName} {s : State}  (h0 : P s) :
    P (State.countLookahead slice n s) := by
  unfold State.countLookahead
  repeat' (first
    | with_reducible assumption
    | with_reducible refine hP.home rfl _ _ ?_
    | with_reducible refine State.countTier_keeps (hP.mono rfl) ?_
    | with_reducible refine keep_foldl (fun _ _ _ => ?_) ?_
    | with_reducible refine keep_foldl_snd (fun _ _ _ _ => ?_) ?_
    | split)

theorem State.countPath_keeps {P : State → Prop} (hP : Closed 32768 P) {r : Nat} {near : Bool} {s : State}  (h0 : P s) :
    P (State.countPath r near s) := by
  unfold State.countPath
  repeat' (first
    | with_reducible assumption
    | with_reducible refine hP.reqs rfl _ _ (fun t => ?_) ?_
    | with_reducible refine keep_foldl (fun _ _ _ => ?_) ?_
    | with_reducible refine keep_foldl_snd (fun _ _ _ _ => ?_) ?_
    | exact Tbl.keys_erase _ _
    | exact Tbl.keys_modify _ _ _
    | exact Tbl.keys_map (fun _ => rfl)
    | exact Tbl.keys_map (fun p => by split <;> rfl)
    | split)

theorem State.takePage_keeps {P : State → Prop} (hP : Closed 311680 P) {o : RunOf} {src : PageSrc} {skip : List Nat} {x : Run} {s : State}  (h0 : P s) :
    P (State.takePage o src skip x s).2 := by
  unfold State.takePage
  repeat' (first
    | with_reducible assumption
    | with_reducible refine hP.free rfl _ ?_
    | with_reducible refine State.touchFrame_keeps (hP.mono rfl) ?_
    | with_reducible refine State.countPath_keeps (hP.mono rfl) ?_
    | with_reducible refine keep_foldl (fun _ _ _ => ?_) ?_
    | with_reducible refine keep_foldl_snd (fun _ _ _ _ => ?_) ?_
    | split
    | with_reducible refine keep_snd ?_)
theorem State.takePage_eq {P : State → Prop} (hP : Closed 311680 P) {o : RunOf} {src : PageSrc} {skip : List Nat} {x : Run} {s : State}  (h0 : P s) {a0 : Run} {t : State}
    (e : State.takePage o src skip x s = (a0, t)) : P t := by
  have h1 : P (State.takePage o src skip x s).2 := State.takePage_keeps hP h0
  rw [e] at h1
  exact h1

theorem State.dispatch_keeps {P : State → Prop} (hP : Closed 2936816 P) {o : RunOf} {i : Item} {x : Run} {s : State}  (h0 : P s) :
    P (State.dispatch o i x s).2 := by
  unfold State.dispatch
  repeat' (first
    | with_reducible assumption
    | with_reducible refine State.sendNear_keeps (hP.mono rfl) ?_
    | with_reducible refine State.takePage_keeps (hP.mono rfl) ?_
    | with_reducible refine State.takePage_eq (hP.mono rfl) ?_ ‹_›
    | with_reducible refine State.parkOn_keeps (hP.mono rfl) ?_
    | with_reducible refine State.parkOn_eq (hP.mono rfl) ?_ ‹_›
    | with_reducible refine State.awaitPage_keeps (hP.mono rfl) ?_
    | with_reducible refine State.fallBack_keeps (hP.mono rfl) ?_
    | with_reducible refine State.fallBack_eq (hP.mono rfl) ?_ ‹_›
    | with_reducible refine keep_foldl (fun _ _ _ => ?_) ?_
    | with_reducible refine keep_foldl_snd (fun _ _ _ _ => ?_) ?_
    | exact fun _ => rfl
    | exact fun _ h => h
    | (extract_lets +onlyGivenNames x; refine keep_cut (P x) ?_ (fun _ => ?_); unfold x; clear x; rotate_left; clear_value x)
    | (extract_lets +onlyGivenNames x; refine keep_cut (P x.2) ?_ (fun _ => ?_); unfold x; clear x; rotate_left; clear_value x)
    | (extract_lets +onlyGivenNames x; clear_value x)
    | split
    | with_reducible refine keep_snd ?_)
theorem State.dispatch_eq {P : State → Prop} (hP : Closed 2936816 P) {o : RunOf} {i : Item} {x : Run} {s : State}  (h0 : P s) {a0 : Run} {t : State}
    (e : State.dispatch o i x s = (a0, t)) : P t := by
  have h1 : P (State.dispatch o i x s).2 := State.dispatch_keeps hP h0
  rw [e] at h1
  exact h1

theorem State.resolveRange_keeps {P : State → Prop} (hP : Closed 2641792 P) {o : RunOf} {s : State}  (h0 : P s) :
    P (State.resolveRange o s).2 := by
  unfold State.resolveRange
  repeat' (first
    | with_reducible assumption
    | with_reducible refine State.countLookahead_keeps (hP.mono rfl) ?_
    | with_reducible refine State.resolve_keeps (hP.mono rfl) ?_
    | with_reducible refine State.resolve_eq (hP.mono rfl) ?_ ‹_›
    | with_reducible refine keep_foldl (fun _ _ _ => ?_) ?_
    | with_reducible refine keep_foldl_snd (fun _ _ _ _ => ?_) ?_
    | exact fun _ => rfl
    | exact fun _ h => h
    | (extract_lets +onlyGivenNames x; refine keep_cut (P x) ?_ (fun _ => ?_); unfold x; clear x; rotate_left; clear_value x)
    | (extract_lets +onlyGivenNames x; refine keep_cut (P x.2) ?_ (fun _ => ?_); unfold x; clear x; rotate_left; clear_value x)
    | (extract_lets +onlyGivenNames x; clear_value x)
    | split
    | with_reducible refine keep_snd ?_)
theorem State.resolveRange_eq {P : State → Prop} (hP : Closed 2641792 P) {o : RunOf} {s : State}  (h0 : P s) {a0 : List Item} {t : State}
    (e : State.resolveRange o s = (a0, t)) : P t := by
  have h1 : P (State.resolveRange o s).2 := State.resolveRange_keeps hP h0
  rw [e] at h1
  exact h1

theorem State.keepOrAnswer_keeps {P : State → Prop} (hP : Closed 2132160 P) {r : Nat} {p : FwdParams} {pages : List PageWait} {rows : List Triple} {skips : List Nat} {nskip : Nat} {s : State}  (h0 : P s) :
    P (State.keepOrAnswer r p pages rows skips nskip s) := by
  unfold State.keepOrAnswer
  repeat' (first
    | with_reducible assumption
    | with_reducible refine hP.reqs rfl _ _ (fun t => ?_) ?_
    | with_reducible refine State.finishReq_keeps (hP.mono rfl) ?_
    | with_reducible refine keep_foldl (fun _ _ _ => ?_) ?_
    | with_reducible refine keep_foldl_snd (fun _ _ _ _ => ?_) ?_
    | exact Tbl.keys_erase _ _
    | exact Tbl.keys_modify _ _ _
    | exact Tbl.keys_map (fun _ => rfl)
    | exact Tbl.keys_map (fun p => by split <;> rfl)
    | split)

theorem State.setPage_keeps {P : State → Prop} (hP : Closed 2132160 P) {r idx : Nat} {w : PageWait} {s : State}  (h0 : P s) :
    P (State.setPage r idx w s) := by
  unfold State.setPage
  repeat' (first
    | with_reducible assumption
    | with_reducible refine State.keepOrAnswer_keeps (hP.mono rfl) ?_
    | with_reducible refine keep_foldl (fun _ _ _ => ?_) ?_
    | with_reducible refine keep_foldl_snd (fun _ _ _ _ => ?_) ?_
    | split)

theorem State.mergePage_keeps {P : State → Prop} (hP : Closed 2394304 P) {r idx : Nat} {code : Code} {near : Bool} {accs : State → FwdParams → List RowAcc} {s : State}  (h0 : P s) :
    P (State.mergePage r idx code near accs s) := by
  unfold State.mergePage
  repeat' (first
    | with_reducible assumption
    | with_reducible refine hP.free rfl _ ?_
    | with_reducible refine State.countPath_keeps (hP.mono rfl) ?_
    | with_reducible refine State.keepOrAnswer_keeps (hP.mono rfl) ?_
    | with_reducible refine keep_foldl (fun _ _ _ => ?_) ?_
    | with_reducible refine keep_foldl_snd (fun _ _ _ _ => ?_) ?_
    | (extract_lets +onlyGivenNames x; refine keep_cut (P x) ?_ (fun _ => ?_); unfold x; clear x; rotate_left; clear_value x)
    | (extract_lets +onlyGivenNames x; refine keep_cut (P x.2) ?_ (fun _ => ?_); unfold x; clear x; rotate_left; clear_value x)
    | (extract_lets +onlyGivenNames x; clear_value x)
    | split)

theorem State.addPage_keeps {P : State → Prop} (hP : Closed 2410944 P) {r idx : Nat} {code : Code} {src : PageSrc} {skip : List Nat} {s : State}  (h0 : P s) :
    P (State.addPage r idx code src skip s) := by
  unfold State.addPage
  repeat' (first
    | with_reducible assumption
    | with_reducible refine State.touchFrame_keeps (hP.mono rfl) ?_
    | with_reducible refine State.mergePage_keeps (hP.mono rfl) ?_
    | with_reducible refine keep_foldl (fun _ _ _ => ?_) ?_
    | with_reducible refine keep_foldl_snd (fun _ _ _ _ => ?_) ?_
    | split)

theorem State.setNear_keeps {P : State → Prop} (hP : Closed 2132416 P) {r idx : Nat} {n : PageName} {slice : Nat} {p : FwdParams} {src : PageSrc} {skip : List Nat} {s : State}  (h0 : P s) :
    P (State.setNear r idx n slice p src skip s) := by
  unfold State.setNear
  repeat' (first
    | with_reducible assumption
    | with_reducible refine State.setPage_keeps (hP.mono rfl) ?_
    | with_reducible refine State.sendNear_keeps (hP.mono rfl) ?_
    | with_reducible refine keep_foldl (fun _ _ _ => ?_) ?_
    | with_reducible refine keep_foldl_snd (fun _ _ _ _ => ?_) ?_
    | split)

theorem State.freeCtx_keeps {P : State → Prop} (hP : Closed 128 P) {k : Nat} {s : State}  (h0 : P s) :
    P (State.freeCtx k s) := by
  unfold State.freeCtx
  repeat' (first
    | with_reducible assumption
    | with_reducible refine hP.eng rfl _ _ ?_
    | with_reducible refine keep_foldl (fun _ _ _ => ?_) ?_
    | with_reducible refine keep_foldl_snd (fun _ _ _ _ => ?_) ?_
    | split)

theorem State.wakeFwd_keeps {P : State → Prop} (hP : Closed 2936816 P) {tot k : Nat} {c : ParkedCtx} {q : Req} {p : FwdParams} {skip : List Nat} {s : State}  (h0 : P s) :
    P (State.wakeFwd tot k c q p skip s) := by
  unfold State.wakeFwd
  repeat' (first
    | with_reducible assumption
    | with_reducible refine State.freeCtx_keeps (hP.mono rfl) ?_
    | with_reducible refine State.setPage_keeps (hP.mono rfl) ?_
    | with_reducible refine State.resolve_keeps (hP.mono rfl) ?_
    | with_reducible refine State.resolve_eq (hP.mono rfl) ?_ ‹_›
    | with_reducible refine State.setNear_keeps (hP.mono rfl) ?_
    | with_reducible refine State.addPage_keeps (hP.mono rfl) ?_
    | with_reducible refine State.onParked_keeps (hP.mono rfl) ?_
    | with_reducible refine State.awaitPage_keeps (hP.mono rfl) ?_
    | with_reducible refine State.fallBack_keeps (hP.mono rfl) ?_
    | with_reducible refine State.fallBack_eq (hP.mono rfl) ?_ ‹_›
    | with_reducible refine keep_foldl (fun _ _ _ => ?_) ?_
    | with_reducible refine keep_foldl_snd (fun _ _ _ _ => ?_) ?_
    | exact fun _ => rfl
    | exact fun _ h => h
    | (extract_lets +onlyGivenNames x; refine keep_cut (P x) ?_ (fun _ => ?_); unfold x; clear x; rotate_left; clear_value x)
    | (extract_lets +onlyGivenNames x; refine keep_cut (P x.2) ?_ (fun _ => ?_); unfold x; clear x; rotate_left; clear_value x)
    | (extract_lets +onlyGivenNames x; clear_value x)
    | split)

theorem State.wakeWaiting_keeps {P : State → Prop} (hP : Closed 2936816 P) {tot slice : Nat} {n : PageName} {s : State}  (h0 : P s) :
    P (State.wakeWaiting tot slice n s) := by
  unfold State.wakeWaiting
  repeat' (first
    | with_reducible assumption
    | with_reducible refine State.wakeFwd_keeps (hP.mono rfl) ?_
    | with_reducible refine keep_foldl (fun _ _ _ => ?_) ?_
    | with_reducible refine keep_foldl_snd (fun _ _ _ _ => ?_) ?_
    | exact fun _ => rfl
    | exact fun _ h => h
    | split)

theorem State.runFwd_keeps {P : State → Prop} (hP : Closed 3002352 P) {h : ExtHdr} {p : FwdParams} {prev : Bool} {c : Ctx} {s : State}  (h0 : P s) :
    P (State.runFwd h p prev c s) := by
  unfold State.runFwd
  repeat' (first
    | with_reducible assumption
    | with_reducible refine hP.free rfl _ ?_
    | with_reducible refine State.addReq_keeps (hP.mono rfl) ?_
    | with_reducible refine State.addReq_eq (hP.mono rfl) ?_ ‹_›
    | with_reducible refine State.resolveRange_keeps (hP.mono rfl) ?_
    | with_reducible refine State.resolveRange_eq (hP.mono rfl) ?_ ‹_›
    | with_reducible refine State.dispatch_keeps (hP.mono rfl) ?_
    | with_reducible refine State.dispatch_eq (hP.mono rfl) ?_ ‹_›
    | with_reducible refine State.updateStream_keeps (hP.mono rfl) ?_
    | with_reducible refine State.wakeWaiting_keeps (hP.mono rfl) ?_
    | with_reducible refine State.keepOrAnswer_keeps (hP.mono rfl) ?_
    | with_reducible refine keep_foldl (fun _ _ _ => ?_) ?_
    | with_reducible refine keep_foldl_snd (fun _ _ _ _ => ?_) ?_
    | exact fun _ => rfl
    | exact fun _ h => h
    | (extract_lets +onlyGivenNames x; refine keep_cut (P x) ?_ (fun _ => ?_); unfold x; clear x; rotate_left; clear_value x)
    | (extract_lets +onlyGivenNames x; refine keep_cut (P x.2) ?_ (fun _ => ?_); unfold x; clear x; rotate_left; clear_value x)
    | (extract_lets +onlyGivenNames x; clear_value x)
    | split)

theorem execAttendFwd_keeps {P : State → Prop} (hP : Closed 3002352 P) {h : ExtHdr} {p : FwdParams} {s : State}  (h0 : P s) {t0 : State}
    (e : execAttendFwd h p s = .next t0) : P t0 := by
  unfold execAttendFwd at e
  cases e
  repeat' (first
    | with_reducible assumption
    | with_reducible refine State.whenUp_keeps (hP.mono rfl) (fun _ _ => ?_) ?_
    | with_reducible refine State.settle_keeps (hP.mono rfl) ?_
    | with_reducible refine State.extended_keeps (hP.mono rfl) ?_ (fun _ _ _ => ?_) ?_
    | with_reducible refine State.runFwd_keeps (hP.mono rfl) ?_
    | with_reducible refine keep_foldl (fun _ _ _ => ?_) ?_
    | with_reducible refine keep_foldl_snd (fun _ _ _ _ => ?_) ?_
    | exact fun _ => rfl
    | exact fun _ h => h
    | exact fun _ _ _ h => h
    | split)

theorem execAttendFwd_after {P : State → Prop} (hP : Closed 3002352 P) {h : ExtHdr} {p : FwdParams} {s : State} (h0 : P s.settle) (hr : s.running = true) {t0 : State}
    (e : execAttendFwd h p s = .next t0) : P t0 := by
  unfold execAttendFwd at e
  cases e
  unfold State.whenUp
  rw [if_pos hr]
  beta_reduce
  repeat' (first
    | with_reducible assumption
    | with_reducible refine State.extended_keeps (hP.mono rfl) ?_ (fun _ _ _ => ?_) ?_
    | with_reducible refine State.runFwd_keeps (hP.mono rfl) ?_
    | with_reducible refine keep_foldl (fun _ _ _ => ?_) ?_
    | with_reducible refine keep_foldl_snd (fun _ _ _ _ => ?_) ?_
    | exact fun _ => rfl
    | exact fun _ h => h
    | exact fun _ _ _ h => h
    | split)

theorem State.decideDeadline_keeps {P : State → Prop} (hP : Closed 2936816 P) {r idx : Nat} {s : State}  (h0 : P s) :
    P (State.decideDeadline r idx s) := by
  unfold State.decideDeadline
  repeat' (first
    | with_reducible assumption
    | with_reducible refine State.freeCtx_keeps (hP.mono rfl) ?_
    | with_reducible refine State.fallBack_keeps (hP.mono rfl) ?_
    | with_reducible refine State.fallBack_eq (hP.mono rfl) ?_ ‹_›
    | with_reducible refine State.setPage_keeps (hP.mono rfl) ?_
    | with_reducible refine State.addPage_keeps (hP.mono rfl) ?_
    | with_reducible refine keep_foldl (fun _ _ _ => ?_) ?_
    | with_reducible refine keep_foldl_snd (fun _ _ _ _ => ?_) ?_
    | exact fun _ => rfl
    | exact fun _ h => h
    | split)

theorem execDeadlineDecision_keeps {P : State → Prop} (hP : Closed 2936816 P) {req page : Nat} {s : State}  (h0 : P s) {t0 : State}
    (e : execDeadlineDecision req page s = .next t0) : P t0 := by
  unfold execDeadlineDecision at e
  cases e
  repeat' (first
    | with_reducible assumption
    | with_reducible refine State.whenUp_keeps (hP.mono rfl) (fun _ _ => ?_) ?_
    | with_reducible refine State.decideDeadline_keeps (hP.mono rfl) ?_
    | with_reducible refine keep_foldl (fun _ _ _ => ?_) ?_
    | with_reducible refine keep_foldl_snd (fun _ _ _ _ => ?_) ?_
    | exact fun _ => rfl
    | exact fun _ h => h
    | split)

end Sys2Proof.Machine
end

