-- ==== Sys2Proof/Laws/KeepBackward.lean ====
section
/-! SUPPORT. What the operations of Machine/Backward.lean touch: each keeps every predicate that is closed under the parts named. -/

namespace Sys2Proof.Machine

set_option linter.unusedTactic false
set_option linter.unreachableTactic false
set_option linter.unusedVariables false
set_option linter.tactic.unusedName false

theorem State.onAcc_keeps {P : State → Prop} (hP : Closed 19712 P) {slice : Nat} {n : PageName} {f : Accumulator → Accumulator} {s : State}  (h0 : P s) :
    P (State.onAcc slice n f s) := by
  unfold State.onAcc
  repeat' (first
    | with_reducible assumption
    | with_reducible refine hP.home rfl _ _ ?_
    | with_reducible refine State.writeAccHeader_keeps (hP.mono rfl) ?_
    | with_reducible refine keep_foldl (fun _ _ _ => ?_) ?_
    | with_reducible refine keep_foldl_snd (fun _ _ _ _ => ?_) ?_
    | exact fun _ => rfl
    | exact fun _ h => h
    | (extract_lets +onlyGivenNames x; refine keep_cut (P x) ?_ (fun _ => ?_); unfold x; clear x; rotate_left; clear_value x)
    | (extract_lets +onlyGivenNames x; refine keep_cut (P x.2) ?_ (fun _ => ?_); unfold x; clear x; rotate_left; clear_value x)
    | (extract_lets +onlyGivenNames x; clear_value x)
    | split)

theorem State.allocParts_keeps {P : State → Prop} (hP : Closed 524800 P) {s : State} {slice : Nat} {sts l : List Nat} (h0 : P s) :
    OnSome (fun r => P r.2) (State.allocParts s slice sts l) := by
  induction l generalizing s with
  | nil =>
    unfold State.allocParts
    repeat' (first
      | with_reducible assumption
      | with_reducible refine State.allocFrom_keeps (hP.mono rfl) ?_
      | with_reducible refine State.allocFrom_some (hP.mono rfl) ?_ ‹_›
      | with_reducible exact OnSome.none
      | with_reducible refine OnSome.some ?_
      | with_reducible refine keep_foldl (fun _ _ _ => ?_) ?_
      | with_reducible refine keep_foldl_snd (fun _ _ _ _ => ?_) ?_
      | exact fun _ => rfl
      | exact fun _ h => h
      | with_reducible refine OnSome.map fun _ _ => ?_
      | with_reducible refine OnSome.findSome fun _ => ?_
      | split)
  | cons x t ih =>
    unfold State.allocParts
    repeat' (first
      | with_reducible assumption
      | refine OnSome.map fun r h => ih (s := _) ?_ r h
      | with_reducible refine State.allocFrom_keeps (hP.mono rfl) ?_
      | with_reducible refine State.allocFrom_some (hP.mono rfl) ?_ ‹_›
      | with_reducible exact OnSome.none
      | with_reducible refine OnSome.some ?_
      | with_reducible refine keep_foldl (fun _ _ _ => ?_) ?_
      | with_reducible refine keep_foldl_snd (fun _ _ _ _ => ?_) ?_
      | exact fun _ => rfl
      | exact fun _ h => h
      | with_reducible refine OnSome.map fun _ _ => ?_
      | with_reducible refine OnSome.findSome fun _ => ?_
      | split)
theorem State.allocParts_some {P : State → Prop} (hP : Closed 524800 P) {s : State} {slice : Nat} {sts l : List Nat} (h0 : P s) {a : List (Nat × Nat × Nat)} {t : State}
    (e : State.allocParts s slice sts l = some (a, t)) : P t := State.allocParts_keeps hP h0 _ e

theorem State.dropAcc_keeps {P : State → Prop} (hP : Closed 526976 P) {slice : Nat} {n : PageName} {s : State}  (h0 : P s) :
    P (State.dropAcc slice n s) := by
  unfold State.dropAcc
  repeat' (first
    | with_reducible assumption
    | with_reducible refine hP.home rfl _ _ ?_
    | with_reducible refine State.retireUnit_keeps (hP.mono rfl) ?_
    | with_reducible refine keep_foldl (fun _ _ _ => ?_) ?_
    | with_reducible refine keep_foldl_snd (fun _ _ _ _ => ?_) ?_
    | exact fun _ => rfl
    | exact fun _ h => h
    | split)

theorem State.openPage_keeps {P : State → Prop} (hP : Closed 2674672 P) {s : State} {slice pass : Nat} {n : PageName}  (h0 : P s) :
    OnSome (fun r => P r.2) (State.openPage s slice pass n) := by
  unfold State.openPage
  repeat' (first
    | with_reducible assumption
    | with_reducible refine hP.home rfl _ _ ?_
    | with_reducible refine State.resolve_keeps (hP.mono rfl) ?_
    | with_reducible refine State.resolve_eq (hP.mono rfl) ?_ ‹_›
    | with_reducible refine State.awaitPage_keeps (hP.mono rfl) ?_
    | with_reducible refine State.allocParts_keeps (hP.mono rfl) ?_
    | with_reducible refine State.allocParts_some (hP.mono rfl) ?_ ‹_›
    | with_reducible refine State.zeroGranules_keeps (hP.mono rfl) ?_
    | with_reducible refine State.writeAccHeader_keeps (hP.mono rfl) ?_
    | with_reducible exact OnSome.none
    | with_reducible refine OnSome.some ?_
    | with_reducible refine keep_foldl (fun _ _ _ => ?_) ?_
    | with_reducible refine keep_foldl_snd (fun _ _ _ _ => ?_) ?_
    | exact fun _ => rfl
    | exact fun _ h => h
    | (extract_lets +onlyGivenNames x; refine keep_cut (P x) ?_ (fun _ => ?_); unfold x; clear x; rotate_left; clear_value x)
    | (extract_lets +onlyGivenNames x; refine keep_cut (P x.2) ?_ (fun _ => ?_); unfold x; clear x; rotate_left; clear_value x)
    | (extract_lets +onlyGivenNames x; clear_value x)
    | with_reducible refine OnSome.map fun _ _ => ?_
    | with_reducible refine OnSome.findSome fun _ => ?_
    | split)
theorem State.openPage_some {P : State → Prop} (hP : Closed 2674672 P) {s : State} {slice pass : Nat} {n : PageName}  (h0 : P s) {a0 : Code} {t : State}
    (e : State.openPage s slice pass n = some (a0, t)) : P t := State.openPage_keeps hP h0 _ e

theorem State.openAll_keeps {P : State → Prop} (hP : Closed 2674672 P) {s : State} {slice pass : Nat} {l : List PageName} (h0 : P s) :
    OnSome (fun r => P r.2) (State.openAll s slice pass l) := by
  induction l generalizing s with
  | nil =>
    unfold State.openAll
    repeat' (first
      | with_reducible assumption
      | with_reducible refine State.openPage_keeps (hP.mono rfl) ?_
      | with_reducible refine State.openPage_some (hP.mono rfl) ?_ ‹_›
      | with_reducible exact OnSome.none
      | with_reducible refine OnSome.some ?_
      | with_reducible refine keep_foldl (fun _ _ _ => ?_) ?_
      | with_reducible refine keep_foldl_snd (fun _ _ _ _ => ?_) ?_
      | exact fun _ => rfl
      | exact fun _ h => h
      | with_reducible refine OnSome.map fun _ _ => ?_
      | with_reducible refine OnSome.findSome fun _ => ?_
      | split)
  | cons x t ih =>
    unfold State.openAll
    repeat' (first
      | with_reducible assumption
      | refine OnSome.map fun r h => ih (s := _) ?_ r h
      | with_reducible refine State.openPage_keeps (hP.mono rfl) ?_
      | with_reducible refine State.openPage_some (hP.mono rfl) ?_ ‹_›
      | with_reducible exact OnSome.none
      | with_reducible refine OnSome.some ?_
      | with_reducible refine keep_foldl (fun _ _ _ => ?_) ?_
      | with_reducible refine keep_foldl_snd (fun _ _ _ _ => ?_) ?_
      | exact fun _ => rfl
      | exact fun _ h => h
      | with_reducible refine OnSome.map fun _ _ => ?_
      | with_reducible refine OnSome.findSome fun _ => ?_
      | split)
theorem State.openAll_some {P : State → Prop} (hP : Closed 2674672 P) {s : State} {slice pass : Nat} {l : List PageName} (h0 : P s) {a : List Code} {t : State}
    (e : State.openAll s slice pass l = some (a, t)) : P t := State.openAll_keeps hP h0 _ e

theorem State.runOpen_keeps {P : State → Prop} (hP : Closed 2674672 P) {h : ExtHdr} {p : BwdParams} {c : Ctx} {s : State}  (h0 : P s) :
    P (State.runOpen h p c s) := by
  unfold State.runOpen
  repeat' (first
    | with_reducible assumption
    | with_reducible refine State.openAll_keeps (hP.mono rfl) ?_
    | with_reducible refine State.openAll_some (hP.mono rfl) ?_ ‹_›
    | with_reducible refine State.respond_keeps (hP.mono rfl) ?_
    | with_reducible refine keep_foldl (fun _ _ _ => ?_) ?_
    | with_reducible refine keep_foldl_snd (fun _ _ _ _ => ?_) ?_
    | exact fun _ => rfl
    | exact fun _ h => h
    | split)

theorem execAttendBwdOpen_keeps {P : State → Prop} (hP : Closed 2674672 P) {h : ExtHdr} {p : BwdParams} {s : State}  (h0 : P s) {t0 : State}
    (e : execAttendBwdOpen h p s = .next t0) : P t0 := by
  unfold execAttendBwdOpen at e
  cases e
  repeat' (first
    | with_reducible assumption
    | with_reducible refine State.whenUp_keeps (hP.mono rfl) (fun _ _ => ?_) ?_
    | with_reducible refine State.settle_keeps (hP.mono rfl) ?_
    | with_reducible refine State.extended_keeps (hP.mono rfl) ?_ (fun _ _ _ => ?_) ?_
    | with_reducible refine State.runOpen_keeps (hP.mono rfl) ?_
    | with_reducible refine keep_foldl (fun _ _ _ => ?_) ?_
    | with_reducible refine keep_foldl_snd (fun _ _ _ _ => ?_) ?_
    | exact fun _ => rfl
    | exact fun _ h => h
    | exact fun _ _ _ h => h
    | split)

theorem execAttendBwdOpen_after {P : State → Prop} (hP : Closed 2674672 P) {h : ExtHdr} {p : BwdParams} {s : State} (h0 : P s.settle) (hr : s.running = true) {t0 : State}
    (e : execAttendBwdOpen h p s = .next t0) : P t0 := by
  unfold execAttendBwdOpen at e
  cases e
  unfold State.whenUp
  rw [if_pos hr]
  beta_reduce
  repeat' (first
    | with_reducible assumption
    | with_reducible refine State.extended_keeps (hP.mono rfl) ?_ (fun _ _ _ => ?_) ?_
    | with_reducible refine State.runOpen_keeps (hP.mono rfl) ?_
    | with_reducible refine keep_foldl (fun _ _ _ => ?_) ?_
    | with_reducible refine keep_foldl_snd (fun _ _ _ _ => ?_) ?_
    | exact fun _ => rfl
    | exact fun _ h => h
    | exact fun _ _ _ h => h
    | split)

theorem State.addElem_keeps {P : State → Prop} (hP : Closed 17664 P) {a : Accumulator} {off : Nat} {x : Num} {s : State}  (h0 : P s) :
    P (State.addElem a off x s).2 := by
  unfold State.addElem
  repeat' (first
    | with_reducible assumption
    | with_reducible refine State.memWriteN_keeps (hP.mono rfl) ?_
    | with_reducible refine keep_foldl (fun _ _ _ => ?_) ?_
    | with_reducible refine keep_foldl_snd (fun _ _ _ _ => ?_) ?_
    | exact fun _ => rfl
    | exact fun _ h => h
    | (extract_lets +onlyGivenNames x; refine keep_cut (P x) ?_ (fun _ => ?_); unfold x; clear x; rotate_left; clear_value x)
    | (extract_lets +onlyGivenNames x; refine keep_cut (P x.2) ?_ (fun _ => ?_); unfold x; clear x; rotate_left; clear_value x)
    | (extract_lets +onlyGivenNames x; clear_value x)
    | split
    | with_reducible refine keep_snd ?_)
theorem State.addElem_eq {P : State → Prop} (hP : Closed 17664 P) {a : Accumulator} {off : Nat} {x : Num} {s : State}  (h0 : P s) {a0 : Bool} {t : State}
    (e : State.addElem a off x s = (a0, t)) : P t := by
  have h1 : P (State.addElem a off x s).2 := State.addElem_keeps hP h0
  rw [e] at h1
  exact h1

theorem State.commitPage_keeps {P : State → Prop} (hP : Closed 19712 P) {r slice : Nat} {p : BwdParams} {use : List Nat} {n : PageName} {x : Staging} {s : State}  (h0 : P s) :
    P (State.commitPage r slice p use n x s) := by
  unfold State.commitPage
  repeat' (first
    | with_reducible assumption
    | with_reducible refine State.addElem_keeps (hP.mono rfl) ?_
    | with_reducible refine State.addElem_eq (hP.mono rfl) ?_ ‹_›
    | with_reducible refine State.onAcc_keeps (hP.mono rfl) ?_
    | with_reducible refine keep_foldl (fun _ _ _ => ?_) ?_
    | with_reducible refine keep_foldl_snd (fun _ _ _ _ => ?_) ?_
    | exact fun _ => rfl
    | exact fun _ h => h
    | (extract_lets +onlyGivenNames x; refine keep_cut (P x) ?_ (fun _ => ?_); unfold x; clear x; rotate_left; clear_value x)
    | (extract_lets +onlyGivenNames x; refine keep_cut (P x.2) ?_ (fun _ => ?_); unfold x; clear x; rotate_left; clear_value x)
    | (extract_lets +onlyGivenNames x; clear_value x)
    | split)

theorem State.commitReq_keeps {P : State → Prop} (hP : Closed 2411968 P) {r : Nat} {q : Req} {p : BwdParams} {codes : List Code} {st : List Staging} {s : State}  (h0 : P s) :
    P (State.commitReq r q p codes st s) := by
  unfold State.commitReq
  repeat' (first
    | with_reducible assumption
    | with_reducible refine hP.free rfl _ ?_
    | with_reducible refine State.commitPage_keeps (hP.mono rfl) ?_
    | with_reducible refine State.finishReq_keeps (hP.mono rfl) ?_
    | with_reducible refine keep_foldl (fun _ _ _ => ?_) ?_
    | with_reducible refine keep_foldl_snd (fun _ _ _ _ => ?_) ?_
    | exact fun _ => rfl
    | exact fun _ h => h
    | (extract_lets +onlyGivenNames x; refine keep_cut (P x) ?_ (fun _ => ?_); unfold x; clear x; rotate_left; clear_value x)
    | (extract_lets +onlyGivenNames x; refine keep_cut (P x.2) ?_ (fun _ => ?_); unfold x; clear x; rotate_left; clear_value x)
    | (extract_lets +onlyGivenNames x; clear_value x)
    | split)

theorem State.collectRange_keeps {P : State → Prop} (hP : Closed 526976 P) {slice : Nat} {p : BwdParams} {s : State}  (h0 : P s) :
    P (State.collectRange slice p s).2 := by
  unfold State.collectRange
  repeat' (first
    | with_reducible assumption
    | with_reducible refine State.dropAcc_keeps (hP.mono rfl) ?_
    | with_reducible refine keep_foldl (fun _ _ _ => ?_) ?_
    | with_reducible refine keep_foldl_snd (fun _ _ _ _ => ?_) ?_
    | exact fun _ => rfl
    | exact fun _ h => h
    | (extract_lets +onlyGivenNames x; refine keep_cut (P x) ?_ (fun _ => ?_); unfold x; clear x; rotate_left; clear_value x)
    | (extract_lets +onlyGivenNames x; refine keep_cut (P x.2) ?_ (fun _ => ?_); unfold x; clear x; rotate_left; clear_value x)
    | (extract_lets +onlyGivenNames x; clear_value x)
    | split
    | with_reducible refine keep_snd ?_)
theorem State.collectRange_eq {P : State → Prop} (hP : Closed 526976 P) {slice : Nat} {p : BwdParams} {s : State}  (h0 : P s) {a0 : (List Code × List (List Byte))} {t : State}
    (e : State.collectRange slice p s = (a0, t)) : P t := by
  have h1 : P (State.collectRange slice p s).2 := State.collectRange_keeps hP h0
  rw [e] at h1
  exact h1

theorem State.tryCollect_keeps {P : State → Prop} (hP : Closed 2656960 P) {r : Nat} {s : State}  (h0 : P s) :
    P (State.tryCollect r s) := by
  unfold State.tryCollect
  repeat' (first
    | with_reducible assumption
    | with_reducible refine State.collectRange_keeps (hP.mono rfl) ?_
    | with_reducible refine State.collectRange_eq (hP.mono rfl) ?_ ‹_›
    | with_reducible refine State.finishReq_keeps (hP.mono rfl) ?_
    | with_reducible refine keep_foldl (fun _ _ _ => ?_) ?_
    | with_reducible refine keep_foldl_snd (fun _ _ _ _ => ?_) ?_
    | exact fun _ => rfl
    | exact fun _ h => h
    | (extract_lets +onlyGivenNames x; refine keep_cut (P x) ?_ (fun _ => ?_); unfold x; clear x; rotate_left; clear_value x)
    | (extract_lets +onlyGivenNames x; refine keep_cut (P x.2) ?_ (fun _ => ?_); unfold x; clear x; rotate_left; clear_value x)
    | (extract_lets +onlyGivenNames x; clear_value x)
    | split)

theorem State.tryCollects_keeps {P : State → Prop} (hP : Closed 2656960 P) {s : State}  (h0 : P s) :
    P (State.tryCollects s) := by
  unfold State.tryCollects
  repeat' (first
    | with_reducible assumption
    | with_reducible refine State.tryCollect_keeps (hP.mono rfl) ?_
    | with_reducible refine keep_foldl (fun _ _ _ => ?_) ?_
    | with_reducible refine keep_foldl_snd (fun _ _ _ _ => ?_) ?_
    | exact fun _ => rfl
    | exact fun _ h => h
    | split)

theorem State.commitTurn_keeps {P : State → Prop} (hP : Closed 2936768 P) {r : Nat} {s : State}  (h0 : P s) :
    P (State.commitTurn r s) := by
  unfold State.commitTurn
  repeat' (first
    | with_reducible assumption
    | with_reducible refine State.commitReq_keeps (hP.mono rfl) ?_
    | with_reducible refine State.tryCollects_keeps (hP.mono rfl) ?_
    | with_reducible refine keep_foldl (fun _ _ _ => ?_) ?_
    | with_reducible refine keep_foldl_snd (fun _ _ _ _ => ?_) ?_
    | exact fun _ => rfl
    | exact fun _ h => h
    | (extract_lets +onlyGivenNames x; refine keep_cut (P x) ?_ (fun _ => ?_); unfold x; clear x; rotate_left; clear_value x)
    | (extract_lets +onlyGivenNames x; refine keep_cut (P x.2) ?_ (fun _ => ?_); unfold x; clear x; rotate_left; clear_value x)
    | (extract_lets +onlyGivenNames x; clear_value x)
    | split)

theorem execAccumulatorCommit_keeps {P : State → Prop} (hP : Closed 2936768 P) {req : Nat} {s : State}  (h0 : P s) {t0 : State}
    (e : execAccumulatorCommit req s = .next t0) : P t0 := by
  unfold execAccumulatorCommit at e
  cases e
  repeat' (first
    | with_reducible assumption
    | with_reducible refine State.whenUp_keeps (hP.mono rfl) (fun _ _ => ?_) ?_
    | with_reducible refine State.commitTurn_keeps (hP.mono rfl) ?_
    | with_reducible refine keep_foldl (fun _ _ _ => ?_) ?_
    | with_reducible refine keep_foldl_snd (fun _ _ _ _ => ?_) ?_
    | exact fun _ => rfl
    | exact fun _ h => h
    | split)

theorem State.onBwd_keeps {P : State → Prop} (hP : Closed 32768 P) {r : Nat} {f : List PageWait → List PageWait} {g : List Staging → List Staging} {s : State}  (h0 : P s) :
    P (State.onBwd r f g s) := by
  unfold State.onBwd
  repeat' (first
    | with_reducible assumption
    | with_reducible refine hP.reqs rfl _ _ (fun t => ?_) ?_
    | with_reducible refine keep_foldl (fun _ _ _ => ?_) ?_
    | with_reducible refine keep_foldl_snd (fun _ _ _ _ => ?_) ?_
    | exact Tbl.keys_erase _ _
    | exact Tbl.keys_modify _ _ _
    | exact Tbl.keys_map (fun _ => rfl)
    | exact Tbl.keys_map (fun p => by split <;> rfl)
    | split)

theorem State.bwdPage_keeps {P : State → Prop} (hP : Closed 2936816 P) {r idx slice cls : Nat} {p : BwdParams} {n : PageName} {s : State}  (h0 : P s) :
    P (State.bwdPage r idx slice cls p n s) := by
  unfold State.bwdPage
  repeat' (first
    | with_reducible assumption
    | with_reducible refine hP.free rfl _ ?_
    | with_reducible refine State.onBwd_keeps (hP.mono rfl) ?_
    | with_reducible refine State.countLookahead_keeps (hP.mono rfl) ?_
    | with_reducible refine State.resolve_keeps (hP.mono rfl) ?_
    | with_reducible refine State.resolve_eq (hP.mono rfl) ?_ ‹_›
    | with_reducible refine State.touchFrame_keeps (hP.mono rfl) ?_
    | with_reducible refine State.parkOn_keeps (hP.mono rfl) ?_
    | with_reducible refine State.parkOn_eq (hP.mono rfl) ?_ ‹_›
    | with_reducible refine State.awaitPage_keeps (hP.mono rfl) ?_
    | with_reducible refine keep_foldl (fun _ _ _ => ?_) ?_
    | with_reducible refine keep_foldl_snd (fun _ _ _ _ => ?_) ?_
    | exact fun _ => rfl
    | exact fun _ h => h
    | (extract_lets +onlyGivenNames x; refine keep_cut (P x) ?_ (fun _ => ?_); unfold x; clear x; rotate_left; clear_value x)
    | (extract_lets +onlyGivenNames x; refine keep_cut (P x.2) ?_ (fun _ => ?_); unfold x; clear x; rotate_left; clear_value x)
    | (extract_lets +onlyGivenNames x; refine keep_cut (∀ a b, P b → P (x a b)) ?_ (fun kx => ?_); unfold x; clear x; intro _ _ _; beta_reduce; rotate_left; clear_value x)
    | with_reducible refine kx _ _ ?_
    | (extract_lets +onlyGivenNames x; clear_value x)
    | split)

theorem State.runAcc_keeps {P : State → Prop} (hP : Closed 3002352 P) {h : ExtHdr} {p : BwdParams} {prev : Bool} {c : Ctx} {s : State}  (h0 : P s) :
    P (State.runAcc h p prev c s) := by
  unfold State.runAcc
  repeat' (first
    | with_reducible assumption
    | with_reducible refine State.addReq_keeps (hP.mono rfl) ?_
    | with_reducible refine State.addReq_eq (hP.mono rfl) ?_ ‹_›
    | with_reducible refine State.bwdPage_keeps (hP.mono rfl) ?_
    | with_reducible refine State.updateStream_keeps (hP.mono rfl) ?_
    | with_reducible refine keep_foldl (fun _ _ _ => ?_) ?_
    | with_reducible refine keep_foldl_snd (fun _ _ _ _ => ?_) ?_
    | exact fun _ => rfl
    | exact fun _ h => h
    | (extract_lets +onlyGivenNames x; refine keep_cut (P x) ?_ (fun _ => ?_); unfold x; clear x; rotate_left; clear_value x)
    | (extract_lets +onlyGivenNames x; refine keep_cut (P x.2) ?_ (fun _ => ?_); unfold x; clear x; rotate_left; clear_value x)
    | (extract_lets +onlyGivenNames x; clear_value x)
    | split)

theorem execAttendBwdAccumulate_keeps {P : State → Prop} (hP : Closed 3002352 P) {h : ExtHdr} {p : BwdParams} {s : State}  (h0 : P s) {t0 : State}
    (e : execAttendBwdAccumulate h p s = .next t0) : P t0 := by
  unfold execAttendBwdAccumulate at e
  cases e
  repeat' (first
    | with_reducible assumption
    | with_reducible refine State.whenUp_keeps (hP.mono rfl) (fun _ _ => ?_) ?_
    | with_reducible refine State.settle_keeps (hP.mono rfl) ?_
    | with_reducible refine State.extended_keeps (hP.mono rfl) ?_ (fun _ _ _ => ?_) ?_
    | with_reducible refine State.runAcc_keeps (hP.mono rfl) ?_
    | with_reducible refine keep_foldl (fun _ _ _ => ?_) ?_
    | with_reducible refine keep_foldl_snd (fun _ _ _ _ => ?_) ?_
    | exact fun _ => rfl
    | exact fun _ h => h
    | exact fun _ _ _ h => h
    | split)

theorem execAttendBwdAccumulate_after {P : State → Prop} (hP : Closed 3002352 P) {h : ExtHdr} {p : BwdParams} {s : State} (h0 : P s.settle) (hr : s.running = true) {t0 : State}
    (e : execAttendBwdAccumulate h p s = .next t0) : P t0 := by
  unfold execAttendBwdAccumulate at e
  cases e
  unfold State.whenUp
  rw [if_pos hr]
  beta_reduce
  repeat' (first
    | with_reducible assumption
    | with_reducible refine State.extended_keeps (hP.mono rfl) ?_ (fun _ _ _ => ?_) ?_
    | with_reducible refine State.runAcc_keeps (hP.mono rfl) ?_
    | with_reducible refine keep_foldl (fun _ _ _ => ?_) ?_
    | with_reducible refine keep_foldl_snd (fun _ _ _ _ => ?_) ?_
    | exact fun _ => rfl
    | exact fun _ h => h
    | exact fun _ _ _ h => h
    | split)

theorem State.runCollect_keeps {P : State → Prop} (hP : Closed 2722496 P) {h : ExtHdr} {p : BwdParams} {prev : Bool} {c : Ctx} {s : State}  (h0 : P s) :
    P (State.runCollect h p prev c s) := by
  unfold State.runCollect
  repeat' (first
    | with_reducible assumption
    | with_reducible refine State.addReq_keeps (hP.mono rfl) ?_
    | with_reducible refine State.addReq_eq (hP.mono rfl) ?_ ‹_›
    | with_reducible refine State.tryCollect_keeps (hP.mono rfl) ?_
    | with_reducible refine keep_foldl (fun _ _ _ => ?_) ?_
    | with_reducible refine keep_foldl_snd (fun _ _ _ _ => ?_) ?_
    | exact fun _ => rfl
    | exact fun _ h => h
    | (extract_lets +onlyGivenNames x; refine keep_cut (P x) ?_ (fun _ => ?_); unfold x; clear x; rotate_left; clear_value x)
    | (extract_lets +onlyGivenNames x; refine keep_cut (P x.2) ?_ (fun _ => ?_); unfold x; clear x; rotate_left; clear_value x)
    | (extract_lets +onlyGivenNames x; clear_value x)
    | split)

theorem execAttendBwdCollect_keeps {P : State → Prop} (hP : Closed 2738880 P) {h : ExtHdr} {p : BwdParams} {s : State}  (h0 : P s) {t0 : State}
    (e : execAttendBwdCollect h p s = .next t0) : P t0 := by
  unfold execAttendBwdCollect at e
  cases e
  repeat' (first
    | with_reducible assumption
    | with_reducible refine State.whenUp_keeps (hP.mono rfl) (fun _ _ => ?_) ?_
    | with_reducible refine State.settle_keeps (hP.mono rfl) ?_
    | with_reducible refine State.extended_keeps (hP.mono rfl) ?_ (fun _ _ _ => ?_) ?_
    | with_reducible refine State.runCollect_keeps (hP.mono rfl) ?_
    | with_reducible refine keep_foldl (fun _ _ _ => ?_) ?_
    | with_reducible refine keep_foldl_snd (fun _ _ _ _ => ?_) ?_
    | exact fun _ => rfl
    | exact fun _ h => h
    | exact fun _ _ _ h => h
    | split)

theorem execAttendBwdCollect_after {P : State → Prop} (hP : Closed 2738880 P) {h : ExtHdr} {p : BwdParams} {s : State} (h0 : P s.settle) (hr : s.running = true) {t0 : State}
    (e : execAttendBwdCollect h p s = .next t0) : P t0 := by
  unfold execAttendBwdCollect at e
  cases e
  unfold State.whenUp
  rw [if_pos hr]
  beta_reduce
  repeat' (first
    | with_reducible assumption
    | with_reducible refine State.extended_keeps (hP.mono rfl) ?_ (fun _ _ _ => ?_) ?_
    | with_reducible refine State.runCollect_keeps (hP.mono rfl) ?_
    | with_reducible refine keep_foldl (fun _ _ _ => ?_) ?_
    | with_reducible refine keep_foldl_snd (fun _ _ _ _ => ?_) ?_
    | exact fun _ => rfl
    | exact fun _ h => h
    | exact fun _ _ _ h => h
    | split)

theorem State.runDiscard_keeps {P : State → Prop} (hP : Closed 2624128 P) {h : ExtHdr} {p : BwdParams} {c : Ctx} {s : State}  (h0 : P s) :
    P (State.runDiscard h p c s) := by
  unfold State.runDiscard
  repeat' (first
    | with_reducible assumption
    | with_reducible refine State.dropAcc_keeps (hP.mono rfl) ?_
    | with_reducible refine State.respond_keeps (hP.mono rfl) ?_
    | with_reducible refine keep_foldl (fun _ _ _ => ?_) ?_
    | with_reducible refine keep_foldl_snd (fun _ _ _ _ => ?_) ?_
    | exact fun _ => rfl
    | exact fun _ h => h
    | (extract_lets +onlyGivenNames x; refine keep_cut (P x) ?_ (fun _ => ?_); unfold x; clear x; rotate_left; clear_value x)
    | (extract_lets +onlyGivenNames x; refine keep_cut (P x.2) ?_ (fun _ => ?_); unfold x; clear x; rotate_left; clear_value x)
    | (extract_lets +onlyGivenNames x; clear_value x)
    | split)

theorem execAttendBwdDiscard_keeps {P : State → Prop} (hP : Closed 2673344 P) {h : ExtHdr} {p : BwdParams} {s : State}  (h0 : P s) {t0 : State}
    (e : execAttendBwdDiscard h p s = .next t0) : P t0 := by
  unfold execAttendBwdDiscard at e
  cases e
  repeat' (first
    | with_reducible assumption
    | with_reducible refine State.whenUp_keeps (hP.mono rfl) (fun _ _ => ?_) ?_
    | with_reducible refine State.settle_keeps (hP.mono rfl) ?_
    | with_reducible refine State.extended_keeps (hP.mono rfl) ?_ (fun _ _ _ => ?_) ?_
    | with_reducible refine State.runDiscard_keeps (hP.mono rfl) ?_
    | with_reducible refine keep_foldl (fun _ _ _ => ?_) ?_
    | with_reducible refine keep_foldl_snd (fun _ _ _ _ => ?_) ?_
    | exact fun _ => rfl
    | exact fun _ h => h
    | exact fun _ _ _ h => h
    | split)

theorem execAttendBwdDiscard_after {P : State → Prop} (hP : Closed 2640512 P) {h : ExtHdr} {p : BwdParams} {s : State} (h0 : P s.settle) (hr : s.running = true) {t0 : State}
    (e : execAttendBwdDiscard h p s = .next t0) : P t0 := by
  unfold execAttendBwdDiscard at e
  cases e
  unfold State.whenUp
  rw [if_pos hr]
  beta_reduce
  repeat' (first
    | with_reducible assumption
    | with_reducible refine State.extended_keeps (hP.mono rfl) ?_ (fun _ _ _ => ?_) ?_
    | with_reducible refine State.runDiscard_keeps (hP.mono rfl) ?_
    | with_reducible refine keep_foldl (fun _ _ _ => ?_) ?_
    | with_reducible refine keep_foldl_snd (fun _ _ _ _ => ?_) ?_
    | exact fun _ => rfl
    | exact fun _ h => h
    | exact fun _ _ _ h => h
    | split)

theorem State.wakeBwd_keeps {P : State → Prop} (hP : Closed 2936816 P) {k : Nat} {c : ParkedCtx} {p : BwdParams} {s : State}  (h0 : P s) :
    P (State.wakeBwd k c p s) := by
  unfold State.wakeBwd
  repeat' (first
    | with_reducible assumption
    | with_reducible refine hP.free rfl _ ?_
    | with_reducible refine State.onBwd_keeps (hP.mono rfl) ?_
    | with_reducible refine State.freeCtx_keeps (hP.mono rfl) ?_
    | with_reducible refine State.resolve_keeps (hP.mono rfl) ?_
    | with_reducible refine State.resolve_eq (hP.mono rfl) ?_ ‹_›
    | with_reducible refine State.finishReq_keeps (hP.mono rfl) ?_
    | with_reducible refine State.touchFrame_keeps (hP.mono rfl) ?_
    | with_reducible refine State.onParked_keeps (hP.mono rfl) ?_
    | with_reducible refine State.awaitPage_keeps (hP.mono rfl) ?_
    | with_reducible refine keep_foldl (fun _ _ _ => ?_) ?_
    | with_reducible refine keep_foldl_snd (fun _ _ _ _ => ?_) ?_
    | exact fun _ => rfl
    | exact fun _ h => h
    | (extract_lets +onlyGivenNames x; refine keep_cut (P x) ?_ (fun _ => ?_); unfold x; clear x; rotate_left; clear_value x)
    | (extract_lets +onlyGivenNames x; refine keep_cut (P x.2) ?_ (fun _ => ?_); unfold x; clear x; rotate_left; clear_value x)
    | (extract_lets +onlyGivenNames x; refine keep_cut (∀ a b, P b → P (x a b)) ?_ (fun kx => ?_); unfold x; clear x; intro _ _ _; beta_reduce; rotate_left; clear_value x)
    | with_reducible refine kx _ _ ?_
    | (extract_lets +onlyGivenNames x; clear_value x)
    | split)

theorem State.resume_keeps {P : State → Prop} (hP : Closed 2936816 P) {k : Nat} {s : State}  (h0 : P s) :
    P (State.resume k s) := by
  unfold State.resume
  repeat' (first
    | with_reducible assumption
    | with_reducible refine State.onParked_keeps (hP.mono rfl) ?_
    | with_reducible refine State.freeCtx_keeps (hP.mono rfl) ?_
    | with_reducible refine State.wakeFwd_keeps (hP.mono rfl) ?_
    | with_reducible refine State.wakeWaiting_keeps (hP.mono rfl) ?_
    | with_reducible refine State.wakeBwd_keeps (hP.mono rfl) ?_
    | with_reducible refine keep_foldl (fun _ _ _ => ?_) ?_
    | with_reducible refine keep_foldl_snd (fun _ _ _ _ => ?_) ?_
    | exact fun _ => rfl
    | exact fun _ h => h
    | (extract_lets +onlyGivenNames x; refine keep_cut (P x) ?_ (fun _ => ?_); unfold x; clear x; rotate_left; clear_value x)
    | (extract_lets +onlyGivenNames x; refine keep_cut (P x.2) ?_ (fun _ => ?_); unfold x; clear x; rotate_left; clear_value x)
    | (extract_lets +onlyGivenNames x; clear_value x)
    | split)

theorem execContextResume_keeps {P : State → Prop} (hP : Closed 2936816 P) {ctx : Nat} {s : State}  (h0 : P s) {t0 : State}
    (e : execContextResume ctx s = .next t0) : P t0 := by
  unfold execContextResume at e
  cases e
  repeat' (first
    | with_reducible assumption
    | with_reducible refine State.whenUp_keeps (hP.mono rfl) (fun _ _ => ?_) ?_
    | with_reducible refine State.resume_keeps (hP.mono rfl) ?_
    | with_reducible refine keep_foldl (fun _ _ _ => ?_) ?_
    | with_reducible refine keep_foldl_snd (fun _ _ _ _ => ?_) ?_
    | exact fun _ => rfl
    | exact fun _ h => h
    | split)

end Sys2Proof.Machine
end

