-- ==== Sys2Proof/Laws/KeepLeases.lean ====
section
/-! SUPPORT. What the operations of Machine/Leases.lean touch: each keeps every predicate that is closed under the parts named. -/

namespace Sys2Proof.Machine

set_option linter.unusedTactic false
set_option linter.unreachableTactic false
set_option linter.unusedVariables false
set_option linter.tactic.unusedName false

theorem State.orRevoke_keeps {P : State → Prop} (hP : Closed 2164800 P) {h : ExtHdr} {op : Nat} {cmd : Instr} {run : Ctx → State → State} {c : Ctx} {s : State} (krun : ∀ x0 s, P s → P (run x0 s)) (h0 : P s) :
    P (State.orRevoke h op cmd run c s) := by
  unfold State.orRevoke
  repeat' (first
    | with_reducible assumption
    | with_reducible refine State.revokeGrants_keeps (hP.mono rfl) ?_
    | with_reducible refine State.addReq_keeps (hP.mono rfl) ?_
    | with_reducible refine State.addReq_eq (hP.mono rfl) ?_ ‹_›
    | with_reducible refine krun _ _ ?_
    | with_reducible refine keep_foldl (fun _ _ _ => ?_) ?_
    | with_reducible refine keep_foldl_snd (fun _ _ _ _ => ?_) ?_
    | (extract_lets +onlyGivenNames x; refine keep_cut (P x) ?_ (fun _ => ?_); unfold x; clear x; rotate_left; clear_value x)
    | (extract_lets +onlyGivenNames x; refine keep_cut (P x.2) ?_ (fun _ => ?_); unfold x; clear x; rotate_left; clear_value x)
    | (extract_lets +onlyGivenNames x; clear_value x)
    | split)

theorem State.giveWriteFrame_keeps {P : State → Prop} (hP : Closed 526848 P) {s : State} {slice : Nat} {n : PageName}  (h0 : P s) :
    OnSome P (State.giveWriteFrame s slice n) := by
  unfold State.giveWriteFrame
  repeat' (first
    | with_reducible assumption
    | with_reducible refine State.allocFrame_keeps (hP.mono rfl) ?_
    | with_reducible refine State.allocFrame_some (hP.mono rfl) ?_ ‹_›
    | with_reducible refine State.onEntry_keeps (hP.mono rfl) ?_
    | with_reducible exact OnSome.none
    | with_reducible refine OnSome.some ?_
    | with_reducible refine keep_foldl (fun _ _ _ => ?_) ?_
    | with_reducible refine keep_foldl_snd (fun _ _ _ _ => ?_) ?_
    | exact fun _ => rfl
    | exact fun _ h => h
    | with_reducible refine OnSome.map fun _ _ => ?_
    | with_reducible refine OnSome.findSome fun _ => ?_
    | split)
theorem State.giveWriteFrame_some {P : State → Prop} (hP : Closed 526848 P) {s : State} {slice : Nat} {n : PageName}  (h0 : P s) {t : State}
    (e : State.giveWriteFrame s slice n = some t) : P t := State.giveWriteFrame_keeps hP h0 t e

theorem State.leasePage_keeps {P : State → Prop} (hP : Closed 2903936 P) {s : State} {slice : Nat} {p : LeaseParams} {n : PageName}  (h0 : P s) :
    OnSome (fun r => P r.2) (State.leasePage s slice p n) := by
  unfold State.leasePage
  repeat' (first
    | with_reducible assumption
    | with_reducible refine State.refresh_keeps (hP.mono rfl) ?_
    | with_reducible refine State.newEntry_keeps (hP.mono rfl) ?_
    | with_reducible refine State.newEntry_some (hP.mono rfl) ?_ ‹_›
    | with_reducible refine State.giveWriteFrame_keeps (hP.mono rfl) ?_
    | with_reducible refine State.giveWriteFrame_some (hP.mono rfl) ?_ ‹_›
    | with_reducible refine State.onEntry_keeps (hP.mono rfl) ?_
    | with_reducible refine State.setPageState_keeps (hP.mono rfl) ?_
    | with_reducible exact OnSome.none
    | with_reducible refine OnSome.some ?_
    | with_reducible refine keep_foldl (fun _ _ _ => ?_) ?_
    | with_reducible refine keep_foldl_snd (fun _ _ _ _ => ?_) ?_
    | exact fun _ => rfl
    | exact fun _ h => h
    | (extract_lets +onlyGivenNames x; refine keep_cut (P x) ?_ (fun _ => ?_); unfold x; clear x; rotate_left; clear_value x)
    | (extract_lets +onlyGivenNames x; refine keep_cut (P x.2) ?_ (fun _ => ?_); unfold x; clear x; rotate_left; clear_value x)
    | (extract_lets +onlyGivenNames x; clear_value x)
    | with_reducible refine OnSome.map fun _ _ => ?_
    | with_reducible refine OnSome.findSome fun _ => ?_
    | split)
theorem State.leasePage_some {P : State → Prop} (hP : Closed 2903936 P) {s : State} {slice : Nat} {p : LeaseParams} {n : PageName}  (h0 : P s) {a0 : Option PageState} {t : State}
    (e : State.leasePage s slice p n = some (a0, t)) : P t := State.leasePage_keeps hP h0 _ e

theorem State.leasePagesAll_keeps {P : State → Prop} (hP : Closed 2903936 P) {s : State} {slice : Nat} {p : LeaseParams} {l : List PageName} (h0 : P s) :
    OnSome (fun r => P r.2.2) (State.leasePagesAll s slice p l) := by
  induction l generalizing s with
  | nil => exact OnSome.some h0
  | cons x t ih =>
    unfold State.leasePagesAll
    split
    · exact OnSome.none
    · rename_i b s1 e
      refine OnSome.map fun r h => ?_
      have k := ih (State.leasePage_some hP h0 e) r h
      split <;> exact k
theorem State.leasePagesAll_some {P : State → Prop} (hP : Closed 2903936 P) {s : State} {slice : Nat} {p : LeaseParams} {l : List PageName} (h0 : P s)
    {a : List PageName} {b : List (PageName × PageState)} {t : State} (e : State.leasePagesAll s slice p l = some (a, b, t)) : P t :=
  State.leasePagesAll_keeps hP h0 _ e

theorem State.runAcquire_keeps {P : State → Prop} (hP : Closed 3002352 P) {h : ExtHdr} {p : LeaseParams} {prev : Bool} {c : Ctx} {s : State}  (h0 : P s) :
    P (State.runAcquire h p prev c s) := by
  unfold State.runAcquire
  repeat' (first
    | with_reducible assumption
    | with_reducible refine hP.home rfl _ _ ?_
    | with_reducible refine State.leasePagesAll_some (hP.mono rfl) ?_ ‹_›
    | with_reducible refine State.onSeq_keeps (hP.mono rfl) ?_
    | with_reducible refine State.addReq_keeps (hP.mono rfl) ?_
    | with_reducible refine State.addReq_eq (hP.mono rfl) ?_ ‹_›
    | with_reducible refine State.grantLease_keeps (hP.mono rfl) ?_
    | with_reducible refine State.awaitPage_keeps (hP.mono rfl) ?_
    | with_reducible refine keep_foldl (fun _ _ _ => ?_) ?_
    | with_reducible refine keep_foldl_snd (fun _ _ _ _ => ?_) ?_
    | exact fun _ => rfl
    | exact fun _ h => h
    | (extract_lets +onlyGivenNames x; refine keep_cut (P x) ?_ (fun _ => ?_); unfold x; clear x; rotate_left; clear_value x)
    | (extract_lets +onlyGivenNames x; refine keep_cut (P x.2) ?_ (fun _ => ?_); unfold x; clear x; rotate_left; clear_value x)
    | (extract_lets +onlyGivenNames x; clear_value x)
    | split)

theorem State.admitAcquire_keeps {P : State → Prop} (hP : Closed 3002352 P) {h : ExtHdr} {p : LeaseParams} {c : Ctx} {s : State}  (h0 : P s) :
    P (State.admitAcquire h p c s) := by
  unfold State.admitAcquire
  repeat' (first
    | with_reducible assumption
    | with_reducible refine State.orRevoke_keeps (hP.mono rfl) (fun _ _ _ => ?_) ?_
    | with_reducible refine State.runAcquire_keeps (hP.mono rfl) ?_
    | with_reducible refine keep_foldl (fun _ _ _ => ?_) ?_
    | with_reducible refine keep_foldl_snd (fun _ _ _ _ => ?_) ?_
    | exact fun _ => rfl
    | exact fun _ h => h
    | split)

theorem acquireSpec_refused {P : State → Prop} (hP : Closed 2048 P) {h : ExtHdr} {p : LeaseParams} {x : Ctx} {k : Code} {s : State} (h0 : P s) :
    P ((acquireSpec h p x).refused k s) := by
  show P (ite _ _ _)
  repeat' (first
    | with_reducible assumption
    | with_reducible refine State.countNameRefusal_keeps (hP.mono rfl) ?_
    | (extract_lets +onlyGivenNames x; refine keep_cut (P x) ?_ (fun _ => ?_); unfold x; clear x; rotate_left; clear_value x)
    | split)

theorem execLeaseAcquire_keeps {P : State → Prop} (hP : Closed 3002352 P) {h : ExtHdr} {p : LeaseParams} {s : State}  (h0 : P s) {t0 : State}
    (e : execLeaseAcquire h p s = .next t0) : P t0 := by
  unfold execLeaseAcquire at e
  cases e
  repeat' (first
    | with_reducible assumption
    | with_reducible refine State.whenUp_keeps (hP.mono rfl) (fun _ _ => ?_) ?_
    | with_reducible refine State.settle_keeps (hP.mono rfl) ?_
    | with_reducible refine State.extended_keeps (hP.mono rfl) ?_ (fun _ _ _ => ?_) ?_
    | with_reducible refine State.countNameRefusal_keeps (hP.mono rfl) ?_
    | with_reducible refine State.admitAcquire_keeps (hP.mono rfl) ?_
    | with_reducible refine keep_foldl (fun _ _ _ => ?_) ?_
    | with_reducible refine keep_foldl_snd (fun _ _ _ _ => ?_) ?_
    | exact fun _ => rfl
    | exact fun _ h => h
    | exact fun _ _ _ h => h
    | exact fun _ _ _ h => acquireSpec_refused (hP.mono rfl) h
    | split)

theorem execLeaseAcquire_after {P : State → Prop} (hP : Closed 3002352 P) {h : ExtHdr} {p : LeaseParams} {s : State} (h0 : P s.settle) (hr : s.running = true) {t0 : State}
    (e : execLeaseAcquire h p s = .next t0) : P t0 := by
  unfold execLeaseAcquire at e
  cases e
  unfold State.whenUp
  rw [if_pos hr]
  beta_reduce
  repeat' (first
    | with_reducible assumption
    | with_reducible refine State.extended_keeps (hP.mono rfl) ?_ (fun _ _ _ => ?_) ?_
    | with_reducible refine State.countNameRefusal_keeps (hP.mono rfl) ?_
    | with_reducible refine State.admitAcquire_keeps (hP.mono rfl) ?_
    | with_reducible refine keep_foldl (fun _ _ _ => ?_) ?_
    | with_reducible refine keep_foldl_snd (fun _ _ _ _ => ?_) ?_
    | exact fun _ => rfl
    | exact fun _ h => h
    | exact fun _ _ _ h => h
    | exact fun _ _ _ h => acquireSpec_refused (hP.mono rfl) h
    | split)

theorem State.runRenew_keeps {P : State → Prop} (hP : Closed 2099200 P) {h : ExtHdr} {p : LeaseParams} {s : State}  (h0 : P s) :
    P (State.runRenew h p s) := by
  unfold State.runRenew
  repeat' (first
    | with_reducible assumption
    | with_reducible refine hP.home rfl _ _ ?_
    | with_reducible refine State.respond_keeps (hP.mono rfl) ?_
    | with_reducible refine keep_foldl (fun _ _ _ => ?_) ?_
    | with_reducible refine keep_foldl_snd (fun _ _ _ _ => ?_) ?_
    | (extract_lets +onlyGivenNames x; refine keep_cut (P x) ?_ (fun _ => ?_); unfold x; clear x; rotate_left; clear_value x)
    | (extract_lets +onlyGivenNames x; refine keep_cut (P x.2) ?_ (fun _ => ?_); unfold x; clear x; rotate_left; clear_value x)
    | (extract_lets +onlyGivenNames x; clear_value x)
    | split)

theorem execLeaseRenew_keeps {P : State → Prop} (hP : Closed 2673344 P) {h : ExtHdr} {p : LeaseParams} {s : State}  (h0 : P s) {t0 : State}
    (e : execLeaseRenew h p s = .next t0) : P t0 := by
  unfold execLeaseRenew at e
  cases e
  repeat' (first
    | with_reducible assumption
    | with_reducible refine State.whenUp_keeps (hP.mono rfl) (fun _ _ => ?_) ?_
    | with_reducible refine State.settle_keeps (hP.mono rfl) ?_
    | with_reducible refine State.extended_keeps (hP.mono rfl) ?_ (fun _ _ _ => ?_) ?_
    | with_reducible refine State.runRenew_keeps (hP.mono rfl) ?_
    | with_reducible refine keep_foldl (fun _ _ _ => ?_) ?_
    | with_reducible refine keep_foldl_snd (fun _ _ _ _ => ?_) ?_
    | exact fun _ => rfl
    | exact fun _ h => h
    | exact fun _ _ _ h => h
    | split)

theorem execLeaseRenew_after {P : State → Prop} (hP : Closed 2115584 P) {h : ExtHdr} {p : LeaseParams} {s : State} (h0 : P s.settle) (hr : s.running = true) {t0 : State}
    (e : execLeaseRenew h p s = .next t0) : P t0 := by
  unfold execLeaseRenew at e
  cases e
  unfold State.whenUp
  rw [if_pos hr]
  beta_reduce
  repeat' (first
    | with_reducible assumption
    | with_reducible refine State.extended_keeps (hP.mono rfl) ?_ (fun _ _ _ => ?_) ?_
    | with_reducible refine State.runRenew_keeps (hP.mono rfl) ?_
    | with_reducible refine keep_foldl (fun _ _ _ => ?_) ?_
    | with_reducible refine keep_foldl_snd (fun _ _ _ _ => ?_) ?_
    | exact fun _ => rfl
    | exact fun _ h => h
    | exact fun _ _ _ h => h
    | split)

theorem State.runRelease_keeps {P : State → Prop} (hP : Closed 2656960 P) {h : ExtHdr} {p : ReleaseParams} {s : State}  (h0 : P s) :
    P (State.runRelease h p s) := by
  unfold State.runRelease
  repeat' (first
    | with_reducible assumption
    | with_reducible refine State.endLease_keeps (hP.mono rfl) ?_
    | with_reducible refine State.respond_keeps (hP.mono rfl) ?_
    | with_reducible refine keep_foldl (fun _ _ _ => ?_) ?_
    | with_reducible refine keep_foldl_snd (fun _ _ _ _ => ?_) ?_
    | exact fun _ => rfl
    | exact fun _ h => h
    | split)

theorem State.admitRelease_keeps {P : State → Prop} (hP : Closed 2722496 P) {h : ExtHdr} {p : ReleaseParams} {c : Ctx} {s : State}  (h0 : P s) :
    P (State.admitRelease h p c s) := by
  unfold State.admitRelease
  repeat' (first
    | with_reducible assumption
    | with_reducible refine State.orRevoke_keeps (hP.mono rfl) (fun _ _ _ => ?_) ?_
    | with_reducible refine State.runRelease_keeps (hP.mono rfl) ?_
    | with_reducible refine keep_foldl (fun _ _ _ => ?_) ?_
    | with_reducible refine keep_foldl_snd (fun _ _ _ _ => ?_) ?_
    | exact fun _ => rfl
    | exact fun _ h => h
    | split)

theorem execLeaseRelease_keeps {P : State → Prop} (hP : Closed 2738880 P) {h : ExtHdr} {p : ReleaseParams} {s : State}  (h0 : P s) {t0 : State}
    (e : execLeaseRelease h p s = .next t0) : P t0 := by
  unfold execLeaseRelease at e
  cases e
  repeat' (first
    | with_reducible assumption
    | with_reducible refine State.whenUp_keeps (hP.mono rfl) (fun _ _ => ?_) ?_
    | with_reducible refine State.settle_keeps (hP.mono rfl) ?_
    | with_reducible refine State.extended_keeps (hP.mono rfl) ?_ (fun _ _ _ => ?_) ?_
    | with_reducible refine State.admitRelease_keeps (hP.mono rfl) ?_
    | with_reducible refine keep_foldl (fun _ _ _ => ?_) ?_
    | with_reducible refine keep_foldl_snd (fun _ _ _ _ => ?_) ?_
    | exact fun _ => rfl
    | exact fun _ h => h
    | exact fun _ _ _ h => h
    | split)

theorem execLeaseRelease_after {P : State → Prop} (hP : Closed 2738880 P) {h : ExtHdr} {p : ReleaseParams} {s : State} (h0 : P s.settle) (hr : s.running = true) {t0 : State}
    (e : execLeaseRelease h p s = .next t0) : P t0 := by
  unfold execLeaseRelease at e
  cases e
  unfold State.whenUp
  rw [if_pos hr]
  beta_reduce
  repeat' (first
    | with_reducible assumption
    | with_reducible refine State.extended_keeps (hP.mono rfl) ?_ (fun _ _ _ => ?_) ?_
    | with_reducible refine State.admitRelease_keeps (hP.mono rfl) ?_
    | with_reducible refine keep_foldl (fun _ _ _ => ?_) ?_
    | with_reducible refine keep_foldl_snd (fun _ _ _ _ => ?_) ?_
    | exact fun _ => rfl
    | exact fun _ h => h
    | exact fun _ _ _ h => h
    | split)

theorem State.retireOld_keeps {P : State → Prop} (hP : Closed 526976 P) {slice : Nat} {n : PageName} {s : State}  (h0 : P s) :
    P (State.retireOld slice n s) := by
  unfold State.retireOld
  repeat' (first
    | with_reducible assumption
    | with_reducible refine State.retireUnit_keeps (hP.mono rfl) ?_
    | with_reducible refine State.retireExtent_keeps (hP.mono rfl) ?_
    | with_reducible refine State.dropCmds_keeps (hP.mono rfl) ?_
    | with_reducible refine State.endFill_keeps (hP.mono rfl) ?_
    | with_reducible refine State.retireShadow_keeps (hP.mono rfl) ?_
    | with_reducible refine keep_foldl (fun _ _ _ => ?_) ?_
    | with_reducible refine keep_foldl_snd (fun _ _ _ _ => ?_) ?_
    | exact fun _ => rfl
    | exact fun _ h => h
    | (extract_lets +onlyGivenNames x; refine keep_cut (P x) ?_ (fun _ => ?_); unfold x; clear x; rotate_left; clear_value x)
    | (extract_lets +onlyGivenNames x; refine keep_cut (P x.2) ?_ (fun _ => ?_); unfold x; clear x; rotate_left; clear_value x)
    | (extract_lets +onlyGivenNames x; clear_value x)
    | split)

theorem State.installFrame_keeps {P : State → Prop} (hP : Closed 2641792 P) {slice : Nat} {n : PageName} {g : PagePub} {s : State}  (h0 : P s) :
    P (State.installFrame slice n g s) := by
  unfold State.installFrame
  repeat' (first
    | with_reducible assumption
    | with_reducible refine State.retireOld_keeps (hP.mono rfl) ?_
    | with_reducible refine State.onEntry_keeps (hP.mono rfl) ?_
    | with_reducible refine State.bumpGen_keeps (hP.mono rfl) ?_
    | with_reducible refine keep_foldl (fun _ _ _ => ?_) ?_
    | with_reducible refine keep_foldl_snd (fun _ _ _ _ => ?_) ?_
    | exact fun _ => rfl
    | exact fun _ h => h
    | split)

theorem State.publishPage_keeps {P : State → Prop} (hP : Closed 2674624 P) {slice : Nat} {keep : Bool} {n : PageName} {g : PagePub} {s : State}  (h0 : P s) :
    P (State.publishPage slice keep n g s) := by
  unfold State.publishPage
  repeat' (first
    | with_reducible assumption
    | with_reducible refine hP.mem rfl _ _ ?_ ?_ ?_
    | with_reducible refine State.refresh_keeps (hP.mono rfl) ?_
    | with_reducible refine State.revokeGrants_keeps (hP.mono rfl) ?_
    | with_reducible refine State.writeHull_keeps (hP.mono rfl) ?_
    | with_reducible refine State.onEntry_keeps (hP.mono rfl) ?_
    | with_reducible refine State.installFrame_keeps (hP.mono rfl) ?_
    | with_reducible refine State.writeSlots_keeps (hP.mono rfl) ?_
    | with_reducible refine State.tellFate_keeps (hP.mono rfl) ?_
    | with_reducible refine State.copyOut_keeps (hP.mono rfl) ?_
    | with_reducible refine keep_foldl (fun _ _ _ => ?_) ?_
    | with_reducible refine keep_foldl_snd (fun _ _ _ _ => ?_) ?_
    | exact fun _ => rfl
    | exact fun _ h => h
    | (extract_lets +onlyGivenNames x; refine keep_cut (P x) ?_ (fun _ => ?_); unfold x; clear x; rotate_left; clear_value x)
    | (extract_lets +onlyGivenNames x; refine keep_cut (P x.2) ?_ (fun _ => ?_); unfold x; clear x; rotate_left; clear_value x)
    | (extract_lets +onlyGivenNames x; clear_value x)
    | split)

theorem State.runPublish_keeps {P : State → Prop} (hP : Closed 2674624 P) {h : ExtHdr} {p : PublishParams} {s : State}  (h0 : P s) :
    P (State.runPublish h p s) := by
  unfold State.runPublish
  repeat' (first
    | with_reducible assumption
    | with_reducible refine hP.home rfl _ _ ?_
    | with_reducible refine State.publishPage_keeps (hP.mono rfl) ?_
    | with_reducible refine State.endLease_keeps (hP.mono rfl) ?_
    | with_reducible refine State.respond_keeps (hP.mono rfl) ?_
    | with_reducible refine keep_foldl (fun _ _ _ => ?_) ?_
    | with_reducible refine keep_foldl_snd (fun _ _ _ _ => ?_) ?_
    | exact fun _ => rfl
    | exact fun _ h => h
    | (extract_lets +onlyGivenNames x; refine keep_cut (P x) ?_ (fun _ => ?_); unfold x; clear x; rotate_left; clear_value x)
    | (extract_lets +onlyGivenNames x; refine keep_cut (P x.2) ?_ (fun _ => ?_); unfold x; clear x; rotate_left; clear_value x)
    | (extract_lets +onlyGivenNames x; clear_value x)
    | split)

theorem State.admitPublish_keeps {P : State → Prop} (hP : Closed 2740160 P) {h : ExtHdr} {p : PublishParams} {c : Ctx} {s : State}  (h0 : P s) :
    P (State.admitPublish h p c s) := by
  unfold State.admitPublish
  repeat' (first
    | with_reducible assumption
    | with_reducible refine State.orRevoke_keeps (hP.mono rfl) (fun _ _ _ => ?_) ?_
    | with_reducible refine State.runPublish_keeps (hP.mono rfl) ?_
    | with_reducible refine keep_foldl (fun _ _ _ => ?_) ?_
    | with_reducible refine keep_foldl_snd (fun _ _ _ _ => ?_) ?_
    | exact fun _ => rfl
    | exact fun _ h => h
    | split)

theorem execPublishPage_keeps {P : State → Prop} (hP : Closed 2740160 P) {h : ExtHdr} {p : PublishParams} {s : State}  (h0 : P s) {t0 : State}
    (e : execPublishPage h p s = .next t0) : P t0 := by
  unfold execPublishPage at e
  cases e
  repeat' (first
    | with_reducible assumption
    | with_reducible refine State.whenUp_keeps (hP.mono rfl) (fun _ _ => ?_) ?_
    | with_reducible refine State.settle_keeps (hP.mono rfl) ?_
    | with_reducible refine State.extended_keeps (hP.mono rfl) ?_ (fun _ _ _ => ?_) ?_
    | with_reducible refine State.admitPublish_keeps (hP.mono rfl) ?_
    | with_reducible refine keep_foldl (fun _ _ _ => ?_) ?_
    | with_reducible refine keep_foldl_snd (fun _ _ _ _ => ?_) ?_
    | exact fun _ => rfl
    | exact fun _ h => h
    | exact fun _ _ _ h => h
    | split)

theorem execPublishPage_after {P : State → Prop} (hP : Closed 2740160 P) {h : ExtHdr} {p : PublishParams} {s : State} (h0 : P s.settle) (hr : s.running = true) {t0 : State}
    (e : execPublishPage h p s = .next t0) : P t0 := by
  unfold execPublishPage at e
  cases e
  unfold State.whenUp
  rw [if_pos hr]
  beta_reduce
  repeat' (first
    | with_reducible assumption
    | with_reducible refine State.extended_keeps (hP.mono rfl) ?_ (fun _ _ _ => ?_) ?_
    | with_reducible refine State.admitPublish_keeps (hP.mono rfl) ?_
    | with_reducible refine keep_foldl (fun _ _ _ => ?_) ?_
    | with_reducible refine keep_foldl_snd (fun _ _ _ _ => ?_) ?_
    | exact fun _ => rfl
    | exact fun _ h => h
    | exact fun _ _ _ h => h
    | split)

theorem State.runTransfer_keeps {P : State → Prop} (hP : Closed 2656960 P) {h : ExtHdr} {p : HandoverParams} {c : Ctx} {s : State}  (h0 : P s) :
    P (State.runTransfer h p c s) := by
  unfold State.runTransfer
  repeat' (first
    | with_reducible assumption
    | with_reducible refine hP.home rfl _ _ ?_
    | with_reducible refine State.clearMark_keeps (hP.mono rfl) ?_
    | with_reducible refine State.respond_keeps (hP.mono rfl) ?_
    | with_reducible refine State.onSeq_keeps (hP.mono rfl) ?_
    | with_reducible refine State.endLeases_keeps (hP.mono rfl) ?_
    | with_reducible refine keep_foldl (fun _ _ _ => ?_) ?_
    | with_reducible refine keep_foldl_snd (fun _ _ _ _ => ?_) ?_
    | exact fun _ => rfl
    | exact fun _ h => h
    | (extract_lets +onlyGivenNames x; refine keep_cut (P x) ?_ (fun _ => ?_); unfold x; clear x; rotate_left; clear_value x)
    | (extract_lets +onlyGivenNames x; refine keep_cut (P x.2) ?_ (fun _ => ?_); unfold x; clear x; rotate_left; clear_value x)
    | (extract_lets +onlyGivenNames x; clear_value x)
    | split)

theorem State.admitTransfer_keeps {P : State → Prop} (hP : Closed 2722496 P) {h : ExtHdr} {p : HandoverParams} {c : Ctx} {s : State}  (h0 : P s) :
    P (State.admitTransfer h p c s) := by
  unfold State.admitTransfer
  repeat' (first
    | with_reducible assumption
    | with_reducible refine State.orRevoke_keeps (hP.mono rfl) (fun _ _ _ => ?_) ?_
    | with_reducible refine State.runTransfer_keeps (hP.mono rfl) ?_
    | with_reducible refine keep_foldl (fun _ _ _ => ?_) ?_
    | with_reducible refine keep_foldl_snd (fun _ _ _ _ => ?_) ?_
    | exact fun _ => rfl
    | exact fun _ h => h
    | split)

theorem execHandoverTransfer_keeps {P : State → Prop} (hP : Closed 2738880 P) {h : ExtHdr} {p : HandoverParams} {s : State}  (h0 : P s) {t0 : State}
    (e : execHandoverTransfer h p s = .next t0) : P t0 := by
  unfold execHandoverTransfer at e
  cases e
  repeat' (first
    | with_reducible assumption
    | with_reducible refine State.whenUp_keeps (hP.mono rfl) (fun _ _ => ?_) ?_
    | with_reducible refine State.settle_keeps (hP.mono rfl) ?_
    | with_reducible refine State.extended_keeps (hP.mono rfl) ?_ (fun _ _ _ => ?_) ?_
    | with_reducible refine State.admitTransfer_keeps (hP.mono rfl) ?_
    | with_reducible refine keep_foldl (fun _ _ _ => ?_) ?_
    | with_reducible refine keep_foldl_snd (fun _ _ _ _ => ?_) ?_
    | exact fun _ => rfl
    | exact fun _ h => h
    | exact fun _ _ _ h => h
    | split)

theorem execHandoverTransfer_after {P : State → Prop} (hP : Closed 2738880 P) {h : ExtHdr} {p : HandoverParams} {s : State} (h0 : P s.settle) (hr : s.running = true) {t0 : State}
    (e : execHandoverTransfer h p s = .next t0) : P t0 := by
  unfold execHandoverTransfer at e
  cases e
  unfold State.whenUp
  rw [if_pos hr]
  beta_reduce
  repeat' (first
    | with_reducible assumption
    | with_reducible refine State.extended_keeps (hP.mono rfl) ?_ (fun _ _ _ => ?_) ?_
    | with_reducible refine State.admitTransfer_keeps (hP.mono rfl) ?_
    | with_reducible refine keep_foldl (fun _ _ _ => ?_) ?_
    | with_reducible refine keep_foldl_snd (fun _ _ _ _ => ?_) ?_
    | exact fun _ => rfl
    | exact fun _ h => h
    | exact fun _ _ _ h => h
    | split)

theorem State.runHvDiscard_keeps {P : State → Prop} (hP : Closed 2656960 P) {h : ExtHdr} {p : HandoverParams} {c : Ctx} {s : State}  (h0 : P s) :
    P (State.runHvDiscard h p c s) := by
  unfold State.runHvDiscard
  repeat' (first
    | with_reducible assumption
    | with_reducible refine State.endLeases_keeps (hP.mono rfl) ?_
    | with_reducible refine State.discardPage_keeps (hP.mono rfl) ?_
    | with_reducible refine State.onSeq_keeps (hP.mono rfl) ?_
    | with_reducible refine State.clearMark_keeps (hP.mono rfl) ?_
    | with_reducible refine State.respond_keeps (hP.mono rfl) ?_
    | with_reducible refine keep_foldl (fun _ _ _ => ?_) ?_
    | with_reducible refine keep_foldl_snd (fun _ _ _ _ => ?_) ?_
    | exact fun _ => rfl
    | exact fun _ h => h
    | (extract_lets +onlyGivenNames x; refine keep_cut (P x) ?_ (fun _ => ?_); unfold x; clear x; rotate_left; clear_value x)
    | (extract_lets +onlyGivenNames x; refine keep_cut (P x.2) ?_ (fun _ => ?_); unfold x; clear x; rotate_left; clear_value x)
    | (extract_lets +onlyGivenNames x; clear_value x)
    | split)

theorem State.admitHvDiscard_keeps {P : State → Prop} (hP : Closed 2722496 P) {h : ExtHdr} {p : HandoverParams} {c : Ctx} {s : State}  (h0 : P s) :
    P (State.admitHvDiscard h p c s) := by
  unfold State.admitHvDiscard
  repeat' (first
    | with_reducible assumption
    | with_reducible refine State.orRevoke_keeps (hP.mono rfl) (fun _ _ _ => ?_) ?_
    | with_reducible refine State.runHvDiscard_keeps (hP.mono rfl) ?_
    | with_reducible refine keep_foldl (fun _ _ _ => ?_) ?_
    | with_reducible refine keep_foldl_snd (fun _ _ _ _ => ?_) ?_
    | exact fun _ => rfl
    | exact fun _ h => h
    | split)

theorem execHandoverDiscard_keeps {P : State → Prop} (hP : Closed 2738880 P) {h : ExtHdr} {p : HandoverParams} {s : State}  (h0 : P s) {t0 : State}
    (e : execHandoverDiscard h p s = .next t0) : P t0 := by
  unfold execHandoverDiscard at e
  cases e
  repeat' (first
    | with_reducible assumption
    | with_reducible refine State.whenUp_keeps (hP.mono rfl) (fun _ _ => ?_) ?_
    | with_reducible refine State.settle_keeps (hP.mono rfl) ?_
    | with_reducible refine State.extended_keeps (hP.mono rfl) ?_ (fun _ _ _ => ?_) ?_
    | with_reducible refine State.admitHvDiscard_keeps (hP.mono rfl) ?_
    | with_reducible refine keep_foldl (fun _ _ _ => ?_) ?_
    | with_reducible refine keep_foldl_snd (fun _ _ _ _ => ?_) ?_
    | exact fun _ => rfl
    | exact fun _ h => h
    | exact fun _ _ _ h => h
    | split)

theorem execHandoverDiscard_after {P : State → Prop} (hP : Closed 2738880 P) {h : ExtHdr} {p : HandoverParams} {s : State} (h0 : P s.settle) (hr : s.running = true) {t0 : State}
    (e : execHandoverDiscard h p s = .next t0) : P t0 := by
  unfold execHandoverDiscard at e
  cases e
  unfold State.whenUp
  rw [if_pos hr]
  beta_reduce
  repeat' (first
    | with_reducible assumption
    | with_reducible refine State.extended_keeps (hP.mono rfl) ?_ (fun _ _ _ => ?_) ?_
    | with_reducible refine State.admitHvDiscard_keeps (hP.mono rfl) ?_
    | with_reducible refine keep_foldl (fun _ _ _ => ?_) ?_
    | with_reducible refine keep_foldl_snd (fun _ _ _ _ => ?_) ?_
    | exact fun _ => rfl
    | exact fun _ h => h
    | exact fun _ _ _ h => h
    | split)

theorem execHandoverQuery_keeps {P : State → Prop} (hP : Closed 2673344 P) {h : ExtHdr} {p : HandoverParams} {s : State}  (h0 : P s) {t0 : State}
    (e : execHandoverQuery h p s = .next t0) : P t0 := by
  unfold execHandoverQuery at e
  cases e
  repeat' (first
    | with_reducible assumption
    | with_reducible refine State.whenUp_keeps (hP.mono rfl) (fun _ _ => ?_) ?_
    | with_reducible refine State.settle_keeps (hP.mono rfl) ?_
    | with_reducible refine State.extended_keeps (hP.mono rfl) ?_ (fun _ _ _ => ?_) ?_
    | with_reducible refine State.respond_keeps (hP.mono rfl) ?_
    | with_reducible refine keep_foldl (fun _ _ _ => ?_) ?_
    | with_reducible refine keep_foldl_snd (fun _ _ _ _ => ?_) ?_
    | exact fun _ => rfl
    | exact fun _ h => h
    | exact fun _ _ _ h => h
    | split)

theorem execHandoverQuery_after {P : State → Prop} (hP : Closed 2115584 P) {h : ExtHdr} {p : HandoverParams} {s : State} (h0 : P s.settle) (hr : s.running = true) {t0 : State}
    (e : execHandoverQuery h p s = .next t0) : P t0 := by
  unfold execHandoverQuery at e
  cases e
  unfold State.whenUp
  rw [if_pos hr]
  beta_reduce
  repeat' (first
    | with_reducible assumption
    | with_reducible refine State.extended_keeps (hP.mono rfl) ?_ (fun _ _ _ => ?_) ?_
    | with_reducible refine State.respond_keeps (hP.mono rfl) ?_
    | with_reducible refine keep_foldl (fun _ _ _ => ?_) ?_
    | with_reducible refine keep_foldl_snd (fun _ _ _ _ => ?_) ?_
    | exact fun _ => rfl
    | exact fun _ h => h
    | exact fun _ _ _ h => h
    | split)

theorem State.again_keeps {P : State → Prop} (hP : Closed 2115584 P) {h : ExtHdr} {c : Ctx} {sp : ExtSpec} {run : Ctx → State → State} {s : State}
    (ksp : ∀ k s, P s → P (sp.refused k s)) (krun : ∀ c s, P s → P (run c s)) (h0 : P s) : P (State.again h c sp run s) := by
  unfold State.again
  split
  · split
    · exact krun _ _ h0
    · exact State.extRefuse_keeps (hP.mono rfl) ksp h0
  · exact State.extRefuse_keeps (hP.mono rfl) ksp h0

theorem State.readmit_keeps {P : State → Prop} (hP : Closed 3002352 P) {c : Ctx} {cmd : Instr} {s : State}  (h0 : P s) :
    P (State.readmit c cmd s) := by
  unfold State.readmit
  repeat' (first
    | with_reducible assumption
    | with_reducible refine State.again_keeps (hP.mono rfl) (fun _ _ h => ?_) (fun _ _ _ => ?_) ?_
    | with_reducible refine State.admitPublish_keeps (hP.mono rfl) ?_
    | with_reducible refine State.countNameRefusal_keeps (hP.mono rfl) ?_
    | with_reducible refine State.admitAcquire_keeps (hP.mono rfl) ?_
    | with_reducible refine State.admitRelease_keeps (hP.mono rfl) ?_
    | with_reducible refine State.admitTransfer_keeps (hP.mono rfl) ?_
    | with_reducible refine State.admitHvDiscard_keeps (hP.mono rfl) ?_
    | with_reducible refine keep_foldl (fun _ _ _ => ?_) ?_
    | with_reducible refine keep_foldl_snd (fun _ _ _ _ => ?_) ?_
    | exact fun _ => rfl
    | exact fun _ h => h
    | exact h
    | exact acquireSpec_refused (hP.mono rfl) h
    | split)

theorem State.readmitHeld_keeps {P : State → Prop} (hP : Closed 3002352 P) {s : State}  (h0 : P s) :
    P (State.readmitHeld s) := by
  unfold State.readmitHeld
  repeat' (first
    | with_reducible assumption
    | with_reducible refine State.dropReq_keeps (hP.mono rfl) ?_
    | with_reducible refine State.readmit_keeps (hP.mono rfl) ?_
    | with_reducible refine keep_foldl (fun _ _ _ => ?_) ?_
    | with_reducible refine keep_foldl_snd (fun _ _ _ _ => ?_) ?_
    | exact fun _ => rfl
    | exact fun _ h => h
    | split)

theorem State.startReplica_keeps {P : State → Prop} (hP : Closed 2099200 P) {slice : Nat} {n : PageName} {s : State}  (h0 : P s) :
    P (State.startReplica slice n s) := by
  unfold State.startReplica
  repeat' (first
    | with_reducible assumption
    | with_reducible refine hP.home rfl _ _ ?_
    | with_reducible refine State.copyOut_keeps (hP.mono rfl) ?_
    | with_reducible refine keep_foldl (fun _ _ _ => ?_) ?_
    | with_reducible refine keep_foldl_snd (fun _ _ _ _ => ?_) ?_
    | (extract_lets +onlyGivenNames x; refine keep_cut (P x) ?_ (fun _ => ?_); unfold x; clear x; rotate_left; clear_value x)
    | (extract_lets +onlyGivenNames x; refine keep_cut (P x.2) ?_ (fun _ => ?_); unfold x; clear x; rotate_left; clear_value x)
    | (extract_lets +onlyGivenNames x; clear_value x)
    | split)

theorem State.endReplica_keeps {P : State → Prop} (hP : Closed 2099200 P) {slice : Nat} {n : PageName} {s : State}  (h0 : P s) :
    P (State.endReplica slice n s) := by
  unfold State.endReplica
  repeat' (first
    | with_reducible assumption
    | with_reducible refine State.dropReplica_keeps (hP.mono rfl) ?_
    | with_reducible refine keep_foldl (fun _ _ _ => ?_) ?_
    | with_reducible refine keep_foldl_snd (fun _ _ _ _ => ?_) ?_
    | split)

theorem State.pinPage_keeps {P : State → Prop} (hP : Closed 2624000 P) {slice : Nat} {rep : Bool} {n : PageName} {s : State}  (h0 : P s) :
    P (State.pinPage slice rep n s) := by
  unfold State.pinPage
  repeat' (first
    | with_reducible assumption
    | with_reducible refine State.onEntry_keeps (hP.mono rfl) ?_
    | with_reducible refine State.startReplica_keeps (hP.mono rfl) ?_
    | with_reducible refine State.onReplica_keeps (hP.mono rfl) ?_
    | with_reducible refine keep_foldl (fun _ _ _ => ?_) ?_
    | with_reducible refine keep_foldl_snd (fun _ _ _ _ => ?_) ?_
    | exact fun _ => rfl
    | exact fun _ h => h
    | (extract_lets +onlyGivenNames x; refine keep_cut (P x) ?_ (fun _ => ?_); unfold x; clear x; rotate_left; clear_value x)
    | (extract_lets +onlyGivenNames x; refine keep_cut (P x.2) ?_ (fun _ => ?_); unfold x; clear x; rotate_left; clear_value x)
    | (extract_lets +onlyGivenNames x; clear_value x)
    | split)

theorem State.runPin_keeps {P : State → Prop} (hP : Closed 2740208 P) {h : ExtHdr} {p : PinParams} {prev : Bool} {c : Ctx} {s : State}  (h0 : P s) :
    P (State.runPin h p prev c s) := by
  unfold State.runPin
  repeat' (first
    | with_reducible assumption
    | with_reducible refine State.refresh_keeps (hP.mono rfl) ?_
    | with_reducible refine State.pinPage_keeps (hP.mono rfl) ?_
    | with_reducible refine State.addReq_keeps (hP.mono rfl) ?_
    | with_reducible refine State.addReq_eq (hP.mono rfl) ?_ ‹_›
    | with_reducible refine State.finishReq_keeps (hP.mono rfl) ?_
    | with_reducible refine State.awaitPage_keeps (hP.mono rfl) ?_
    | with_reducible refine keep_foldl (fun _ _ _ => ?_) ?_
    | with_reducible refine keep_foldl_snd (fun _ _ _ _ => ?_) ?_
    | exact fun _ => rfl
    | exact fun _ h => h
    | (extract_lets +onlyGivenNames x; refine keep_cut (P x) ?_ (fun _ => ?_); unfold x; clear x; rotate_left; clear_value x)
    | (extract_lets +onlyGivenNames x; refine keep_cut (P x.2) ?_ (fun _ => ?_); unfold x; clear x; rotate_left; clear_value x)
    | (extract_lets +onlyGivenNames x; clear_value x)
    | split)

theorem execPin_keeps {P : State → Prop} (hP : Closed 2740208 P) {h : ExtHdr} {p : PinParams} {s : State}  (h0 : P s) {t0 : State}
    (e : execPin h p s = .next t0) : P t0 := by
  unfold execPin at e
  cases e
  repeat' (first
    | with_reducible assumption
    | with_reducible refine State.whenUp_keeps (hP.mono rfl) (fun _ _ => ?_) ?_
    | with_reducible refine State.settle_keeps (hP.mono rfl) ?_
    | with_reducible refine State.extended_keeps (hP.mono rfl) ?_ (fun _ _ _ => ?_) ?_
    | with_reducible refine State.runPin_keeps (hP.mono rfl) ?_
    | with_reducible refine keep_foldl (fun _ _ _ => ?_) ?_
    | with_reducible refine keep_foldl_snd (fun _ _ _ _ => ?_) ?_
    | exact fun _ => rfl
    | exact fun _ h => h
    | exact fun _ _ _ h => h
    | split)

theorem execPin_after {P : State → Prop} (hP : Closed 2740208 P) {h : ExtHdr} {p : PinParams} {s : State} (h0 : P s.settle) (hr : s.running = true) {t0 : State}
    (e : execPin h p s = .next t0) : P t0 := by
  unfold execPin at e
  cases e
  unfold State.whenUp
  rw [if_pos hr]
  beta_reduce
  repeat' (first
    | with_reducible assumption
    | with_reducible refine State.extended_keeps (hP.mono rfl) ?_ (fun _ _ _ => ?_) ?_
    | with_reducible refine State.runPin_keeps (hP.mono rfl) ?_
    | with_reducible refine keep_foldl (fun _ _ _ => ?_) ?_
    | with_reducible refine keep_foldl_snd (fun _ _ _ _ => ?_) ?_
    | exact fun _ => rfl
    | exact fun _ h => h
    | exact fun _ _ _ h => h
    | split)

theorem State.unpinPage_keeps {P : State → Prop} (hP : Closed 2624000 P) {slice : Nat} {rep : Bool} {n : PageName} {s : State}  (h0 : P s) :
    P (State.unpinPage slice rep n s).2 := by
  unfold State.unpinPage
  repeat' (first
    | with_reducible assumption
    | with_reducible refine State.onReplica_keeps (hP.mono rfl) ?_
    | with_reducible refine State.endReplica_keeps (hP.mono rfl) ?_
    | with_reducible refine State.onEntry_keeps (hP.mono rfl) ?_
    | with_reducible refine keep_foldl (fun _ _ _ => ?_) ?_
    | with_reducible refine keep_foldl_snd (fun _ _ _ _ => ?_) ?_
    | exact fun _ => rfl
    | exact fun _ h => h
    | (extract_lets +onlyGivenNames x; refine keep_cut (P x) ?_ (fun _ => ?_); unfold x; clear x; rotate_left; clear_value x)
    | (extract_lets +onlyGivenNames x; refine keep_cut (P x.2) ?_ (fun _ => ?_); unfold x; clear x; rotate_left; clear_value x)
    | (extract_lets +onlyGivenNames x; clear_value x)
    | split
    | with_reducible refine keep_snd ?_)
theorem State.unpinPage_eq {P : State → Prop} (hP : Closed 2624000 P) {slice : Nat} {rep : Bool} {n : PageName} {s : State}  (h0 : P s) {a0 : Bool} {t : State}
    (e : State.unpinPage slice rep n s = (a0, t)) : P t := by
  have h1 : P (State.unpinPage slice rep n s).2 := State.unpinPage_keeps hP h0
  rw [e] at h1
  exact h1

theorem State.runUnpin_keeps {P : State → Prop} (hP : Closed 2624000 P) {h : ExtHdr} {p : PinParams} {c : Ctx} {s : State}  (h0 : P s) :
    P (State.runUnpin h p c s) := by
  unfold State.runUnpin
  repeat' (first
    | with_reducible assumption
    | with_reducible refine State.unpinPage_keeps (hP.mono rfl) ?_
    | with_reducible refine State.unpinPage_eq (hP.mono rfl) ?_ ‹_›
    | with_reducible refine State.respond_keeps (hP.mono rfl) ?_
    | with_reducible refine keep_foldl (fun _ _ _ => ?_) ?_
    | with_reducible refine keep_foldl_snd (fun _ _ _ _ => ?_) ?_
    | exact fun _ => rfl
    | exact fun _ h => h
    | (extract_lets +onlyGivenNames x; refine keep_cut (P x) ?_ (fun _ => ?_); unfold x; clear x; rotate_left; clear_value x)
    | (extract_lets +onlyGivenNames x; refine keep_cut (P x.2) ?_ (fun _ => ?_); unfold x; clear x; rotate_left; clear_value x)
    | (extract_lets +onlyGivenNames x; clear_value x)
    | split)

theorem execUnpin_keeps {P : State → Prop} (hP : Closed 2673344 P) {h : ExtHdr} {p : PinParams} {s : State}  (h0 : P s) {t0 : State}
    (e : execUnpin h p s = .next t0) : P t0 := by
  unfold execUnpin at e
  cases e
  repeat' (first
    | with_reducible assumption
    | with_reducible refine State.whenUp_keeps (hP.mono rfl) (fun _ _ => ?_) ?_
    | with_reducible refine State.settle_keeps (hP.mono rfl) ?_
    | with_reducible refine State.extended_keeps (hP.mono rfl) ?_ (fun _ _ _ => ?_) ?_
    | with_reducible refine State.runUnpin_keeps (hP.mono rfl) ?_
    | with_reducible refine keep_foldl (fun _ _ _ => ?_) ?_
    | with_reducible refine keep_foldl_snd (fun _ _ _ _ => ?_) ?_
    | exact fun _ => rfl
    | exact fun _ h => h
    | exact fun _ _ _ h => h
    | split)

theorem execUnpin_after {P : State → Prop} (hP : Closed 2640384 P) {h : ExtHdr} {p : PinParams} {s : State} (h0 : P s.settle) (hr : s.running = true) {t0 : State}
    (e : execUnpin h p s = .next t0) : P t0 := by
  unfold execUnpin at e
  cases e
  unfold State.whenUp
  rw [if_pos hr]
  beta_reduce
  repeat' (first
    | with_reducible assumption
    | with_reducible refine State.extended_keeps (hP.mono rfl) ?_ (fun _ _ _ => ?_) ?_
    | with_reducible refine State.runUnpin_keeps (hP.mono rfl) ?_
    | with_reducible refine keep_foldl (fun _ _ _ => ?_) ?_
    | with_reducible refine keep_foldl_snd (fun _ _ _ _ => ?_) ?_
    | exact fun _ => rfl
    | exact fun _ h => h
    | exact fun _ _ _ h => h
    | split)

theorem State.expireLease_keeps {P : State → Prop} (hP : Closed 2656960 P) {key : Nat} {s : State}  (h0 : P s) :
    P (State.expireLease key s) := by
  unfold State.expireLease
  repeat' (first
    | with_reducible assumption
    | with_reducible refine State.endLease_keeps (hP.mono rfl) ?_
    | with_reducible refine keep_foldl (fun _ _ _ => ?_) ?_
    | with_reducible refine keep_foldl_snd (fun _ _ _ _ => ?_) ?_
    | exact fun _ => rfl
    | exact fun _ h => h
    | split)

theorem execLeaseExpiry_keeps {P : State → Prop} (hP : Closed 2656960 P) {unit : Fin 4} {slot : Nat} {s : State}  (h0 : P s) {t0 : State}
    (e : execLeaseExpiry unit slot s = .next t0) : P t0 := by
  unfold execLeaseExpiry at e
  cases e
  repeat' (first
    | with_reducible assumption
    | with_reducible refine State.whenUp_keeps (hP.mono rfl) (fun _ _ => ?_) ?_
    | with_reducible refine State.expireLease_keeps (hP.mono rfl) ?_
    | with_reducible refine keep_foldl (fun _ _ _ => ?_) ?_
    | with_reducible refine keep_foldl_snd (fun _ _ _ _ => ?_) ?_
    | exact fun _ => rfl
    | exact fun _ h => h
    | split)

theorem State.expireTomb_keeps {P : State → Prop} (hP : Closed 526848 P) {slice handle : Nat} {s : State}  (h0 : P s) :
    P (State.expireTomb slice handle s) := by
  unfold State.expireTomb
  repeat' (first
    | with_reducible assumption
    | with_reducible refine State.dropTombs_keeps (hP.mono rfl) ?_
    | with_reducible refine keep_foldl (fun _ _ _ => ?_) ?_
    | with_reducible refine keep_foldl_snd (fun _ _ _ _ => ?_) ?_
    | exact fun _ => rfl
    | exact fun _ h => h
    | split)

theorem execTombstoneExpiry_keeps {P : State → Prop} (hP : Closed 526848 P) {slice : Fin 8} {handle : Nat} {s : State}  (h0 : P s) {t0 : State}
    (e : execTombstoneExpiry slice handle s = .next t0) : P t0 := by
  unfold execTombstoneExpiry at e
  cases e
  repeat' (first
    | with_reducible assumption
    | with_reducible refine State.whenUp_keeps (hP.mono rfl) (fun _ _ => ?_) ?_
    | with_reducible refine State.expireTomb_keeps (hP.mono rfl) ?_
    | with_reducible refine keep_foldl (fun _ _ _ => ?_) ?_
    | with_reducible refine keep_foldl_snd (fun _ _ _ _ => ?_) ?_
    | exact fun _ => rfl
    | exact fun _ h => h
    | split)

end Sys2Proof.Machine
end

