-- ==== Sys2Proof/Laws/KeepLocus.lean ====
section
/-! SUPPORT. What the operations of Machine/Locus.lean touch: each keeps every predicate that is closed under the parts named. -/

namespace Sys2Proof.Machine

set_option linter.unusedTactic false
set_option linter.unreachableTactic false
set_option linter.unusedVariables false
set_option linter.tactic.unusedName false

theorem State.putNode_keeps {P : State → Prop} (hP : Closed 21760 P) {n : PfxNode} {s : State}  (h0 : P s) :
    P (State.putNode n s) := by
  unfold State.putNode
  repeat' (first
    | with_reducible assumption
    | with_reducible refine hP.locus rfl _ _ ?_
    | with_reducible refine State.memWriteN_keeps (hP.mono rfl) ?_
    | with_reducible refine keep_foldl (fun _ _ _ => ?_) ?_
    | with_reducible refine keep_foldl_snd (fun _ _ _ _ => ?_) ?_
    | exact fun _ => rfl
    | exact fun _ h => h
    | split)

theorem State.onNode_keeps {P : State → Prop} (hP : Closed 21760 P) {a : Nat} {f : PfxNode → PfxNode} {s : State}  (h0 : P s) :
    P (State.onNode a f s) := by
  unfold State.onNode
  repeat' (first
    | with_reducible assumption
    | with_reducible refine State.putNode_keeps (hP.mono rfl) ?_
    | with_reducible refine keep_foldl (fun _ _ _ => ?_) ?_
    | with_reducible refine keep_foldl_snd (fun _ _ _ _ => ?_) ?_
    | exact fun _ => rfl
    | exact fun _ h => h
    | split)

theorem State.useNodeGranule_keeps {P : State → Prop} (hP : Closed 524800 P) {slice k g : Nat} {s : State}  (h0 : P s) :
    P (State.useNodeGranule slice k g s) := by
  unfold State.useNodeGranule
  repeat' (first
    | with_reducible assumption
    | with_reducible refine hP.mem rfl _ _ ?_ ?_ ?_
    | with_reducible refine State.clearMark_keeps (hP.mono rfl) ?_
    | with_reducible refine keep_foldl (fun _ _ _ => ?_) ?_
    | with_reducible refine keep_foldl_snd (fun _ _ _ _ => ?_) ?_
    | exact fun _ => rfl
    | exact fun _ h => h
    | split)

theorem State.allocNodeIn_keeps {P : State → Prop} (hP : Closed 524800 P) {s : State} {slice k : Nat}  (h0 : P s) :
    OnSome (fun r => P r.2) (State.allocNodeIn s slice k) := by
  unfold State.allocNodeIn
  repeat' (first
    | with_reducible assumption
    | with_reducible refine State.useNodeGranule_keeps (hP.mono rfl) ?_
    | with_reducible exact OnSome.none
    | with_reducible refine OnSome.some ?_
    | with_reducible refine keep_foldl (fun _ _ _ => ?_) ?_
    | with_reducible refine keep_foldl_snd (fun _ _ _ _ => ?_) ?_
    | exact fun _ => rfl
    | exact fun _ h => h
    | with_reducible refine OnSome.map fun _ _ => ?_
    | with_reducible refine OnSome.findSome fun _ => ?_
    | split)
theorem State.allocNodeIn_some {P : State → Prop} (hP : Closed 524800 P) {s : State} {slice k : Nat}  (h0 : P s) {a0 : Nat} {t : State}
    (e : State.allocNodeIn s slice k = some (a0, t)) : P t := State.allocNodeIn_keeps hP h0 _ e

theorem State.allocNode_keeps {P : State → Prop} (hP : Closed 524800 P) {s : State} {slice key : Nat}  (h0 : P s) :
    OnSome (fun r => P r.2) (State.allocNode s slice key) := by
  unfold State.allocNode
  repeat' (first
    | with_reducible assumption
    | with_reducible refine State.allocNodeIn_keeps (hP.mono rfl) ?_
    | with_reducible refine State.allocNodeIn_some (hP.mono rfl) ?_ ‹_›
    | with_reducible exact OnSome.none
    | with_reducible refine OnSome.some ?_
    | with_reducible refine keep_foldl (fun _ _ _ => ?_) ?_
    | with_reducible refine keep_foldl_snd (fun _ _ _ _ => ?_) ?_
    | exact fun _ => rfl
    | exact fun _ h => h
    | (extract_lets +onlyGivenNames x; refine keep_cut (P x) ?_ (fun _ => ?_); unfold x; clear x; rotate_left; clear_value x)
    | (extract_lets +onlyGivenNames x; refine keep_cut (P x.2) ?_ (fun _ => ?_); unfold x; clear x; rotate_left; clear_value x)
    | (extract_lets +onlyGivenNames x; clear_value x)
    | with_reducible refine OnSome.map fun _ _ => ?_
    | with_reducible refine OnSome.findSome fun _ => ?_
    | split)
theorem State.allocNode_some {P : State → Prop} (hP : Closed 524800 P) {s : State} {slice key : Nat}  (h0 : P s) {a0 : Nat} {t : State}
    (e : State.allocNode s slice key = some (a0, t)) : P t := State.allocNode_keeps hP h0 _ e

theorem State.orphans_keeps {P : State → Prop} (hP : Closed 21760 P) {gone : List PfxNode} {s : State}  (h0 : P s) :
    P (State.orphans gone s) := by
  unfold State.orphans
  repeat' (first
    | with_reducible assumption
    | with_reducible refine State.onNode_keeps (hP.mono rfl) ?_
    | with_reducible refine keep_foldl (fun _ _ _ => ?_) ?_
    | with_reducible refine keep_foldl_snd (fun _ _ _ _ => ?_) ?_
    | exact fun _ => rfl
    | exact fun _ h => h
    | (extract_lets +onlyGivenNames x; refine keep_cut (P x) ?_ (fun _ => ?_); unfold x; clear x; rotate_left; clear_value x)
    | (extract_lets +onlyGivenNames x; refine keep_cut (P x.2) ?_ (fun _ => ?_); unfold x; clear x; rotate_left; clear_value x)
    | (extract_lets +onlyGivenNames x; clear_value x)
    | split)

theorem State.unadopt_keeps {P : State → Prop} (hP : Closed 2624128 P) {n : PfxNode} {s : State}  (h0 : P s) :
    P (State.unadopt n s) := by
  unfold State.unadopt
  repeat' (first
    | with_reducible assumption
    | with_reducible refine State.discardPage_keeps (hP.mono rfl) ?_
    | with_reducible refine State.endReplica_keeps (hP.mono rfl) ?_
    | with_reducible refine keep_foldl (fun _ _ _ => ?_) ?_
    | with_reducible refine keep_foldl_snd (fun _ _ _ _ => ?_) ?_
    | exact fun _ => rfl
    | exact fun _ h => h
    | (extract_lets +onlyGivenNames x; refine keep_cut (P x) ?_ (fun _ => ?_); unfold x; clear x; rotate_left; clear_value x)
    | (extract_lets +onlyGivenNames x; refine keep_cut (P x.2) ?_ (fun _ => ?_); unfold x; clear x; rotate_left; clear_value x)
    | (extract_lets +onlyGivenNames x; clear_value x)
    | split)

theorem State.freeNode_keeps {P : State → Prop} (hP : Closed 2645888 P) {n : PfxNode} {s : State}  (h0 : P s) :
    P (State.freeNode n s) := by
  unfold State.freeNode
  repeat' (first
    | with_reducible assumption
    | with_reducible refine hP.mem rfl _ _ ?_ ?_ ?_
    | with_reducible refine hP.locus rfl _ _ ?_
    | with_reducible refine State.memWriteN_keeps (hP.mono rfl) ?_
    | with_reducible refine State.clearMark_keeps (hP.mono rfl) ?_
    | with_reducible refine State.retire_keeps (hP.mono rfl) ?_
    | with_reducible refine State.unadopt_keeps (hP.mono rfl) ?_
    | with_reducible refine keep_foldl (fun _ _ _ => ?_) ?_
    | with_reducible refine keep_foldl_snd (fun _ _ _ _ => ?_) ?_
    | exact fun _ => rfl
    | exact fun _ h => h
    | (extract_lets +onlyGivenNames x; refine keep_cut (P x) ?_ (fun _ => ?_); unfold x; clear x; rotate_left; clear_value x)
    | (extract_lets +onlyGivenNames x; refine keep_cut (P x.2) ?_ (fun _ => ?_); unfold x; clear x; rotate_left; clear_value x)
    | (extract_lets +onlyGivenNames x; clear_value x)
    | split)

theorem State.unlinkNode_keeps {P : State → Prop} (hP : Closed 4096 P) {n : PfxNode} {s : State}  (h0 : P s) :
    P (State.unlinkNode n s) := by
  unfold State.unlinkNode
  repeat' (first
    | with_reducible assumption
    | with_reducible refine hP.locus rfl _ _ ?_
    | with_reducible refine keep_foldl (fun _ _ _ => ?_) ?_
    | with_reducible refine keep_foldl_snd (fun _ _ _ _ => ?_) ?_
    | split)

theorem State.evict_keeps {P : State → Prop} (hP : Closed 2645888 P) {a : Nat} {s : State}  (h0 : P s) :
    P (State.evict a s) := by
  unfold State.evict
  repeat' (first
    | with_reducible assumption
    | with_reducible refine hP.locus rfl _ _ ?_
    | with_reducible refine State.unlinkNode_keeps (hP.mono rfl) ?_
    | with_reducible refine State.onNode_keeps (hP.mono rfl) ?_
    | with_reducible refine State.freeNode_keeps (hP.mono rfl) ?_
    | with_reducible refine keep_foldl (fun _ _ _ => ?_) ?_
    | with_reducible refine keep_foldl_snd (fun _ _ _ _ => ?_) ?_
    | exact fun _ => rfl
    | exact fun _ h => h
    | (extract_lets +onlyGivenNames x; refine keep_cut (P x) ?_ (fun _ => ?_); unfold x; clear x; rotate_left; clear_value x)
    | (extract_lets +onlyGivenNames x; refine keep_cut (P x.2) ?_ (fun _ => ?_); unfold x; clear x; rotate_left; clear_value x)
    | (extract_lets +onlyGivenNames x; clear_value x)
    | split)

theorem State.putEntry_keeps {P : State → Prop} (hP : Closed 4096 P) {l : LocusCfg} {a : Nat} {e : LEntry} {s : State}  (h0 : P s) :
    P (State.putEntry l a e s) := by
  unfold State.putEntry
  repeat' (first
    | with_reducible assumption
    | with_reducible refine hP.locus rfl _ _ ?_
    | with_reducible refine keep_foldl (fun _ _ _ => ?_) ?_
    | with_reducible refine keep_foldl_snd (fun _ _ _ _ => ?_) ?_
    | split)

theorem State.dropEntryAt_keeps {P : State → Prop} (hP : Closed 4096 P) {l : LocusCfg} {a : Nat} {s : State}  (h0 : P s) :
    P (State.dropEntryAt l a s) := by
  unfold State.dropEntryAt
  repeat' (first
    | with_reducible assumption
    | with_reducible refine hP.locus rfl _ _ ?_
    | with_reducible refine keep_foldl (fun _ _ _ => ?_) ?_
    | with_reducible refine keep_foldl_snd (fun _ _ _ _ => ?_) ?_
    | split)

theorem State.insertDie_keeps {P : State → Prop} (hP : Closed 4096 P) {s : State} {l : LocusCfg} {e : LEntry}  (h0 : P s) :
    OnSome P (State.insertDie s l e) := by
  unfold State.insertDie
  repeat' (first
    | with_reducible assumption
    | with_reducible refine State.putEntry_keeps (hP.mono rfl) ?_
    | with_reducible refine State.dropEntryAt_keeps (hP.mono rfl) ?_
    | with_reducible exact OnSome.none
    | with_reducible refine OnSome.some ?_
    | with_reducible refine keep_foldl (fun _ _ _ => ?_) ?_
    | with_reducible refine keep_foldl_snd (fun _ _ _ _ => ?_) ?_
    | (extract_lets +onlyGivenNames x; refine keep_cut (P x) ?_ (fun _ => ?_); unfold x; clear x; rotate_left; clear_value x)
    | (extract_lets +onlyGivenNames x; refine keep_cut (P x.2) ?_ (fun _ => ?_); unfold x; clear x; rotate_left; clear_value x)
    | (extract_lets +onlyGivenNames x; refine keep_cut (∀ a, P (x a)) ?_ (fun kx => ?_); unfold x; clear x; intro _; beta_reduce; rotate_left; clear_value x)
    | with_reducible apply_assumption
    | (extract_lets +onlyGivenNames x; clear_value x)
    | with_reducible refine OnSome.map fun _ _ => ?_
    | with_reducible refine OnSome.findSome fun _ => ?_
    | split)
theorem State.insertDie_some {P : State → Prop} (hP : Closed 4096 P) {s : State} {l : LocusCfg} {e : LEntry}  (h0 : P s) {t : State}
    (e : State.insertDie s l e = some t) : P t := State.insertDie_keeps hP h0 t e

theorem State.insertOvf_keeps {P : State → Prop} (hP : Closed 2645888 P) {s : State} {slice : Nat} {keep : List Nat} {e : LEntry}  (h0 : P s) :
    OnSome P (State.insertOvf s slice keep e) := by
  unfold State.insertOvf
  repeat' (first
    | with_reducible assumption
    | with_reducible refine hP.locus rfl _ _ ?_
    | with_reducible refine State.evict_keeps (hP.mono rfl) ?_
    | with_reducible exact OnSome.none
    | with_reducible refine OnSome.some ?_
    | with_reducible refine keep_foldl (fun _ _ _ => ?_) ?_
    | with_reducible refine keep_foldl_snd (fun _ _ _ _ => ?_) ?_
    | exact fun _ => rfl
    | exact fun _ h => h
    | (extract_lets +onlyGivenNames x; refine keep_cut (P x) ?_ (fun _ => ?_); unfold x; clear x; rotate_left; clear_value x)
    | (extract_lets +onlyGivenNames x; refine keep_cut (P x.2) ?_ (fun _ => ?_); unfold x; clear x; rotate_left; clear_value x)
    | (extract_lets +onlyGivenNames x; refine keep_cut (∀ a b, P b → P (x a b)) ?_ (fun kx => ?_); unfold x; clear x; intro _ _ _; beta_reduce; rotate_left; clear_value x)
    | with_reducible refine kx _ _ ?_
    | (extract_lets +onlyGivenNames x; clear_value x)
    | with_reducible refine OnSome.map fun _ _ => ?_
    | with_reducible refine OnSome.findSome fun _ => ?_
    | split)
theorem State.insertOvf_some {P : State → Prop} (hP : Closed 2645888 P) {s : State} {slice : Nat} {keep : List Nat} {e : LEntry}  (h0 : P s) {t : State}
    (e : State.insertOvf s slice keep e = some t) : P t := State.insertOvf_keeps hP h0 t e

theorem State.insertPublic_keeps {P : State → Prop} (hP : Closed 2645888 P) {slice k : Nat} {keep : List Nat} {e : LEntry} {s : State} (h0 : P s) :
    OnSome P (State.insertPublic slice keep e k s) := by
  induction k generalizing s with
  | zero =>
    unfold State.insertPublic
    repeat' (first
      | with_reducible assumption
      | with_reducible refine State.insertDie_keeps (hP.mono rfl) ?_
      | with_reducible refine State.insertDie_some (hP.mono rfl) ?_ ‹_›
      | with_reducible refine State.evict_keeps (hP.mono rfl) ?_
      | with_reducible exact OnSome.none
      | with_reducible refine OnSome.some ?_
      | with_reducible refine keep_foldl (fun _ _ _ => ?_) ?_
      | with_reducible refine keep_foldl_snd (fun _ _ _ _ => ?_) ?_
      | exact fun _ => rfl
      | exact fun _ h => h
      | (extract_lets +onlyGivenNames x; refine keep_cut (P x) ?_ (fun _ => ?_); unfold x; clear x; rotate_left; clear_value x)
      | (extract_lets +onlyGivenNames x; refine keep_cut (P x.2) ?_ (fun _ => ?_); unfold x; clear x; rotate_left; clear_value x)
      | (extract_lets +onlyGivenNames x; clear_value x)
      | with_reducible refine OnSome.map fun _ _ => ?_
      | with_reducible refine OnSome.findSome fun _ => ?_
      | split)
  | succ k ih =>
    unfold State.insertPublic
    repeat' (first
      | with_reducible assumption
      | with_reducible refine ih ?_
      | with_reducible refine State.insertDie_keeps (hP.mono rfl) ?_
      | with_reducible refine State.insertDie_some (hP.mono rfl) ?_ ‹_›
      | with_reducible refine State.evict_keeps (hP.mono rfl) ?_
      | with_reducible exact OnSome.none
      | with_reducible refine OnSome.some ?_
      | with_reducible refine keep_foldl (fun _ _ _ => ?_) ?_
      | with_reducible refine keep_foldl_snd (fun _ _ _ _ => ?_) ?_
      | exact fun _ => rfl
      | exact fun _ h => h
      | (extract_lets +onlyGivenNames x; refine keep_cut (P x) ?_ (fun _ => ?_); unfold x; clear x; rotate_left; clear_value x)
      | (extract_lets +onlyGivenNames x; refine keep_cut (P x.2) ?_ (fun _ => ?_); unfold x; clear x; rotate_left; clear_value x)
      | (extract_lets +onlyGivenNames x; clear_value x)
      | with_reducible refine OnSome.map fun _ _ => ?_
      | with_reducible refine OnSome.findSome fun _ => ?_
      | split)
theorem State.insertPublic_some {P : State → Prop} (hP : Closed 2645888 P) {slice k : Nat} {keep : List Nat} {e : LEntry} {s : State} (h0 : P s)  {t : State}
    (e1 : State.insertPublic slice keep e k s = some t) : P t := State.insertPublic_keeps hP h0 _ e1

theorem State.insertEntry_keeps {P : State → Prop} (hP : Closed 2645888 P) {s : State} {slice : Nat} {keep : List Nat} {e : LEntry}  (h0 : P s) :
    OnSome P (State.insertEntry s slice keep e) := by
  unfold State.insertEntry
  repeat' (first
    | with_reducible assumption
    | with_reducible refine State.insertDie_keeps (hP.mono rfl) ?_
    | with_reducible refine State.insertDie_some (hP.mono rfl) ?_ ‹_›
    | with_reducible refine State.insertPublic_keeps (hP.mono rfl) ?_
    | with_reducible refine State.insertPublic_some (hP.mono rfl) ?_ ‹_›
    | with_reducible refine State.insertOvf_keeps (hP.mono rfl) ?_
    | with_reducible refine State.insertOvf_some (hP.mono rfl) ?_ ‹_›
    | with_reducible exact OnSome.none
    | with_reducible refine OnSome.some ?_
    | with_reducible refine keep_foldl (fun _ _ _ => ?_) ?_
    | with_reducible refine keep_foldl_snd (fun _ _ _ _ => ?_) ?_
    | exact fun _ => rfl
    | exact fun _ h => h
    | with_reducible refine OnSome.map fun _ _ => ?_
    | with_reducible refine OnSome.findSome fun _ => ?_
    | split)
theorem State.insertEntry_some {P : State → Prop} (hP : Closed 2645888 P) {s : State} {slice : Nat} {keep : List Nat} {e : LEntry}  (h0 : P s) {t : State}
    (e : State.insertEntry s slice keep e = some t) : P t := State.insertEntry_keeps hP h0 t e

theorem State.appendNode_keeps {P : State → Prop} (hP : Closed 21760 P) {head addr : Nat} {s : State}  (h0 : P s) :
    P (State.appendNode head addr s) := by
  unfold State.appendNode
  repeat' (first
    | with_reducible assumption
    | with_reducible refine State.onNode_keeps (hP.mono rfl) ?_
    | with_reducible refine keep_foldl (fun _ _ _ => ?_) ?_
    | with_reducible refine keep_foldl_snd (fun _ _ _ _ => ?_) ?_
    | exact fun _ => rfl
    | exact fun _ h => h
    | split)

theorem State.reindexNode_keeps {P : State → Prop} (hP : Closed 2645888 P) {n : PfxNode} {s : State} (h0 : P s) :
    P (State.reindexNode n s) := by
  unfold State.reindexNode
  split
  · exact State.appendNode_keeps (hP.mono rfl) h0
  · have k : OnSome P (match s.insertDie (s.pfx n.slice) (entryOf n) with
      | some r => some r
      | none => if n.isPublic then none else s.insertOvf n.slice [] (entryOf n)) := by
      split
      · exact OnSome.some (State.insertDie_some (hP.mono rfl) h0 ‹_›)
      · split
        · exact OnSome.none
        · exact State.insertOvf_keeps (hP.mono rfl) h0
    split
    · exact k _ ‹_›
    · exact State.orphans_keeps (hP.mono rfl) (State.evict_keeps (hP.mono rfl) h0)

theorem State.reindex_keeps {P : State → Prop} (hP : Closed 2645888 P) {slice : Nat} {s : State}  (h0 : P s) :
    P (State.reindex slice s) := by
  unfold State.reindex
  repeat' (first
    | with_reducible assumption
    | with_reducible refine State.onNode_keeps (hP.mono rfl) ?_
    | with_reducible refine State.reindexNode_keeps (hP.mono rfl) ?_
    | with_reducible refine keep_foldl (fun _ _ _ => ?_) ?_
    | with_reducible refine keep_foldl_snd (fun _ _ _ _ => ?_) ?_
    | exact fun _ => rfl
    | exact fun _ h => h
    | (extract_lets +onlyGivenNames x; refine keep_cut (P x) ?_ (fun _ => ?_); unfold x; clear x; rotate_left; clear_value x)
    | (extract_lets +onlyGivenNames x; refine keep_cut (P x.2) ?_ (fun _ => ?_); unfold x; clear x; rotate_left; clear_value x)
    | (extract_lets +onlyGivenNames x; clear_value x)
    | split)

theorem State.rebuildCascade_keeps {P : State → Prop} (hP : Closed 2645888 P) {slice : Nat} {old : LocusCfg} {s : State}  (h0 : P s) :
    P (State.rebuildCascade slice old s) := by
  unfold State.rebuildCascade
  repeat' (first
    | with_reducible assumption
    | with_reducible refine hP.locus rfl _ _ ?_
    | with_reducible refine State.reindex_keeps (hP.mono rfl) ?_
    | with_reducible refine keep_foldl (fun _ _ _ => ?_) ?_
    | with_reducible refine keep_foldl_snd (fun _ _ _ _ => ?_) ?_
    | exact fun _ => rfl
    | exact fun _ h => h
    | split)

theorem State.sweepLocus_keeps {P : State → Prop} (hP : Closed 2645888 P) {s : State}  (h0 : P s) :
    P (State.sweepLocus s) := by
  unfold State.sweepLocus
  repeat' (first
    | with_reducible assumption
    | with_reducible refine hP.locus rfl _ _ ?_
    | with_reducible refine State.unadopt_keeps (hP.mono rfl) ?_
    | with_reducible refine State.orphans_keeps (hP.mono rfl) ?_
    | with_reducible refine State.reindex_keeps (hP.mono rfl) ?_
    | with_reducible refine keep_foldl (fun _ _ _ => ?_) ?_
    | with_reducible refine keep_foldl_snd (fun _ _ _ _ => ?_) ?_
    | exact fun _ => rfl
    | exact fun _ h => h
    | (extract_lets +onlyGivenNames x; refine keep_cut (P x) ?_ (fun _ => ?_); unfold x; clear x; rotate_left; clear_value x)
    | (extract_lets +onlyGivenNames x; refine keep_cut (P x.2) ?_ (fun _ => ?_); unfold x; clear x; rotate_left; clear_value x)
    | (extract_lets +onlyGivenNames x; clear_value x)
    | split)

theorem State.groupParity_keeps {P : State → Prop} (hP : Closed 4098 P) {b g : Nat} {s : State}  (h0 : P s) :
    P (State.groupParity b g s) := by
  unfold State.groupParity
  repeat' (first
    | with_reducible assumption
    | with_reducible refine hP.ras rfl _ _ ?_
    | with_reducible refine hP.locus rfl _ _ ?_
    | with_reducible refine keep_foldl (fun _ _ _ => ?_) ?_
    | with_reducible refine keep_foldl_snd (fun _ _ _ _ => ?_) ?_
    | (extract_lets +onlyGivenNames x; refine keep_cut (P x) ?_ (fun _ => ?_); unfold x; clear x; rotate_left; clear_value x)
    | (extract_lets +onlyGivenNames x; refine keep_cut (P x.2) ?_ (fun _ => ?_); unfold x; clear x; rotate_left; clear_value x)
    | (extract_lets +onlyGivenNames x; clear_value x)
    | split)

theorem State.parityError_keeps {P : State → Prop} (hP : Closed 2645938 P) {l : LocusCfg} {a : Nat} {e : LEntry} {s : State}  (h0 : P s) :
    P (State.parityError l a e s) := by
  unfold State.parityError
  repeat' (first
    | with_reducible assumption
    | with_reducible refine hP.locus rfl _ _ ?_
    | with_reducible refine State.logEvent_keeps (hP.mono rfl) ?_
    | with_reducible refine State.logDetection_keeps (hP.mono rfl) ?_
    | with_reducible refine State.dropEntryAt_keeps (hP.mono rfl) ?_
    | with_reducible refine State.onNode_keeps (hP.mono rfl) ?_
    | with_reducible refine State.freeNode_keeps (hP.mono rfl) ?_
    | with_reducible refine State.orphans_keeps (hP.mono rfl) ?_
    | with_reducible refine State.groupParity_keeps (hP.mono rfl) ?_
    | with_reducible refine keep_foldl (fun _ _ _ => ?_) ?_
    | with_reducible refine keep_foldl_snd (fun _ _ _ _ => ?_) ?_
    | exact fun _ => rfl
    | exact fun _ h => h
    | (extract_lets +onlyGivenNames x; refine keep_cut (P x) ?_ (fun _ => ?_); unfold x; clear x; rotate_left; clear_value x)
    | (extract_lets +onlyGivenNames x; refine keep_cut (P x.2) ?_ (fun _ => ?_); unfold x; clear x; rotate_left; clear_value x)
    | (extract_lets +onlyGivenNames x; clear_value x)
    | split)

theorem State.searchParity_keeps {P : State → Prop} (hP : Closed 2645938 P) {slice key key2 tenant epoch16 k : Nat} {s : State} (h0 : P s) :
    P (State.searchParity slice key key2 tenant epoch16 k s).2 := by
  induction k generalizing s with
  | zero =>
    unfold State.searchParity
    repeat' (first
      | with_reducible assumption
      | with_reducible refine State.parityError_keeps (hP.mono rfl) ?_
      | with_reducible refine keep_foldl (fun _ _ _ => ?_) ?_
      | with_reducible refine keep_foldl_snd (fun _ _ _ _ => ?_) ?_
      | exact fun _ => rfl
      | exact fun _ h => h
      | split
      | with_reducible refine keep_snd ?_)
  | succ k ih =>
    unfold State.searchParity
    repeat' (first
      | with_reducible assumption
      | with_reducible refine ih ?_
      | with_reducible refine State.parityError_keeps (hP.mono rfl) ?_
      | with_reducible refine keep_foldl (fun _ _ _ => ?_) ?_
      | with_reducible refine keep_foldl_snd (fun _ _ _ _ => ?_) ?_
      | exact fun _ => rfl
      | exact fun _ h => h
      | split
      | with_reducible refine keep_snd ?_)
theorem State.searchParity_eq {P : State → Prop} (hP : Closed 2645938 P) {slice key key2 tenant epoch16 k : Nat} {s : State} (h0 : P s)
    {a : Option Found} {t : State} (e : State.searchParity slice key key2 tenant epoch16 k s = (a, t)) : P t := by
  have h1 : P (State.searchParity slice key key2 tenant epoch16 k s).2 := State.searchParity_keeps hP h0
  rw [e] at h1
  exact h1

theorem State.markParity_keeps {P : State → Prop} (hP : Closed 4096 P) {slots : List Nat} {s : State}  (h0 : P s) :
    P (State.markParity slots s) := by
  unfold State.markParity
  repeat' (first
    | with_reducible assumption
    | with_reducible refine hP.locus rfl _ _ ?_
    | with_reducible refine keep_foldl (fun _ _ _ => ?_) ?_
    | with_reducible refine keep_foldl_snd (fun _ _ _ _ => ?_) ?_
    | split)

theorem State.scrubKeys_keeps {P : State → Prop} (hP : Closed 2645938 P) {slice tenant epoch16 : Nat} {pub : Bool} {keys : List (Nat × Nat)} {s : State}  (h0 : P s) :
    P (State.scrubKeys slice tenant epoch16 pub keys s) := by
  unfold State.scrubKeys
  repeat' (first
    | with_reducible assumption
    | with_reducible refine State.searchParity_keeps (hP.mono rfl) ?_
    | with_reducible refine State.searchParity_eq (hP.mono rfl) ?_ ‹_›
    | with_reducible refine State.searchParity_keeps (hP.mono rfl) ?_
    | with_reducible refine State.searchParity_eq (hP.mono rfl) ?_ ‹_›
    | with_reducible refine State.parityError_keeps (hP.mono rfl) ?_
    | with_reducible refine keep_foldl (fun _ _ _ => ?_) ?_
    | with_reducible refine keep_foldl_snd (fun _ _ _ _ => ?_) ?_
    | exact fun _ => rfl
    | exact fun _ h => h
    | (extract_lets +onlyGivenNames x; refine keep_cut (P x) ?_ (fun _ => ?_); unfold x; clear x; rotate_left; clear_value x)
    | (extract_lets +onlyGivenNames x; refine keep_cut (P x.2) ?_ (fun _ => ?_); unfold x; clear x; rotate_left; clear_value x)
    | (extract_lets +onlyGivenNames x; clear_value x)
    | split)

theorem State.promote_keeps {P : State → Prop} (hP : Closed 4096 P) {slice : Nat} {o : OvfEntry} {s : State}  (h0 : P s) :
    P (State.promote slice o s) := by
  unfold State.promote
  repeat' (first
    | with_reducible assumption
    | with_reducible refine hP.locus rfl _ _ ?_
    | with_reducible refine State.insertDie_keeps (hP.mono rfl) ?_
    | with_reducible refine State.insertDie_some (hP.mono rfl) ?_ ‹_›
    | with_reducible refine keep_foldl (fun _ _ _ => ?_) ?_
    | with_reducible refine keep_foldl_snd (fun _ _ _ _ => ?_) ?_
    | split)

theorem State.matchBlocks_keeps {P : State → Prop} (hP : Closed 2645938 P) {slice tenant epoch i prev : Nat} {tokens : List (List Nat)} {l : List (Nat × Nat)} {s : State} (h0 : P s) :
    P (State.matchBlocks slice tenant epoch tokens i prev l s).2.2 := by
  induction l generalizing s i prev with
  | nil =>
    unfold State.matchBlocks
    repeat' (first
      | with_reducible assumption
      | with_reducible refine State.searchParity_keeps (hP.mono rfl) ?_
      | with_reducible refine State.searchParity_eq (hP.mono rfl) ?_ ‹_›
      | with_reducible refine State.searchParity_keeps (hP.mono rfl) ?_
      | with_reducible refine State.searchParity_eq (hP.mono rfl) ?_ ‹_›
      | with_reducible refine State.onNode_keeps (hP.mono rfl) ?_
      | with_reducible refine State.promote_keeps (hP.mono rfl) ?_
      | with_reducible refine keep_foldl (fun _ _ _ => ?_) ?_
      | with_reducible refine keep_foldl_snd (fun _ _ _ _ => ?_) ?_
      | exact fun _ => rfl
      | exact fun _ h => h
      | (extract_lets +onlyGivenNames x; refine keep_cut (P x) ?_ (fun _ => ?_); unfold x; clear x; rotate_left; clear_value x)
      | (extract_lets +onlyGivenNames x; refine keep_cut (P x.2) ?_ (fun _ => ?_); unfold x; clear x; rotate_left; clear_value x)
      | (extract_lets +onlyGivenNames x; clear_value x)
      | split
      | with_reducible refine keep_snd ?_)
  | cons x t ih =>
    unfold State.matchBlocks
    repeat' (first
      | with_reducible assumption
      | with_reducible refine ih ?_
      | with_reducible refine State.searchParity_keeps (hP.mono rfl) ?_
      | with_reducible refine State.searchParity_eq (hP.mono rfl) ?_ ‹_›
      | with_reducible refine State.searchParity_keeps (hP.mono rfl) ?_
      | with_reducible refine State.searchParity_eq (hP.mono rfl) ?_ ‹_›
      | with_reducible refine State.onNode_keeps (hP.mono rfl) ?_
      | with_reducible refine State.promote_keeps (hP.mono rfl) ?_
      | with_reducible refine keep_foldl (fun _ _ _ => ?_) ?_
      | with_reducible refine keep_foldl_snd (fun _ _ _ _ => ?_) ?_
      | exact fun _ => rfl
      | exact fun _ h => h
      | (extract_lets +onlyGivenNames x; refine keep_cut (P x) ?_ (fun _ => ?_); unfold x; clear x; rotate_left; clear_value x)
      | (extract_lets +onlyGivenNames x; refine keep_cut (P x.2) ?_ (fun _ => ?_); unfold x; clear x; rotate_left; clear_value x)
      | (extract_lets +onlyGivenNames x; clear_value x)
      | split
      | with_reducible refine keep_snd ?_)
theorem State.matchBlocks_eq {P : State → Prop} (hP : Closed 2645938 P) {slice tenant epoch i prev : Nat} {tokens : List (List Nat)}
    {l : List (Nat × Nat)} {s : State} (h0 : P s) {a : List PfxNode} {b : Nat} {t : State}
    (e : State.matchBlocks slice tenant epoch tokens i prev l s = (a, b, t)) : P t := by
  have h1 : P (State.matchBlocks slice tenant epoch tokens i prev l s).2.2 := State.matchBlocks_keeps hP h0
  rw [e] at h1
  exact h1

theorem State.runLookup_keeps {P : State → Prop} (hP : Closed 2645938 P) {h : ExtHdr} {p : LookupParams} {c : Ctx} {s : State}  (h0 : P s) :
    P (State.runLookup h p c s) := by
  unfold State.runLookup
  repeat' (first
    | with_reducible assumption
    | with_reducible refine hP.locus rfl _ _ ?_
    | with_reducible refine State.markParity_keeps (hP.mono rfl) ?_
    | with_reducible refine State.matchBlocks_keeps (hP.mono rfl) ?_
    | with_reducible refine State.matchBlocks_eq (hP.mono rfl) ?_ ‹_›
    | with_reducible refine State.matchBlocks_keeps (hP.mono rfl) ?_
    | with_reducible refine State.matchBlocks_eq (hP.mono rfl) ?_ ‹_›
    | with_reducible refine State.onNode_keeps (hP.mono rfl) ?_
    | with_reducible refine State.respond_keeps (hP.mono rfl) ?_
    | with_reducible refine keep_foldl (fun _ _ _ => ?_) ?_
    | with_reducible refine keep_foldl_snd (fun _ _ _ _ => ?_) ?_
    | exact fun _ => rfl
    | exact fun _ h => h
    | (extract_lets +onlyGivenNames x; refine keep_cut (P x) ?_ (fun _ => ?_); unfold x; clear x; rotate_left; clear_value x)
    | (extract_lets +onlyGivenNames x; refine keep_cut (P x.2) ?_ (fun _ => ?_); unfold x; clear x; rotate_left; clear_value x)
    | (extract_lets +onlyGivenNames x; clear_value x)
    | split)

theorem execLookup_keeps {P : State → Prop} (hP : Closed 2678770 P) {h : ExtHdr} {p : LookupParams} {s : State}  (h0 : P s) {t0 : State}
    (e : execLookup h p s = .next t0) : P t0 := by
  unfold execLookup at e
  cases e
  repeat' (first
    | with_reducible assumption
    | with_reducible refine State.whenUp_keeps (hP.mono rfl) (fun _ _ => ?_) ?_
    | with_reducible refine State.settle_keeps (hP.mono rfl) ?_
    | with_reducible refine State.extended_keeps (hP.mono rfl) ?_ (fun _ _ _ => ?_) ?_
    | with_reducible refine State.runLookup_keeps (hP.mono rfl) ?_
    | with_reducible refine keep_foldl (fun _ _ _ => ?_) ?_
    | with_reducible refine keep_foldl_snd (fun _ _ _ _ => ?_) ?_
    | exact fun _ => rfl
    | exact fun _ h => h
    | exact fun _ _ _ h => h
    | split)

theorem execLookup_after {P : State → Prop} (hP : Closed 2645938 P) {h : ExtHdr} {p : LookupParams} {s : State} (h0 : P s.settle) (hr : s.running = true) {t0 : State}
    (e : execLookup h p s = .next t0) : P t0 := by
  unfold execLookup at e
  cases e
  unfold State.whenUp
  rw [if_pos hr]
  beta_reduce
  repeat' (first
    | with_reducible assumption
    | with_reducible refine State.extended_keeps (hP.mono rfl) ?_ (fun _ _ _ => ?_) ?_
    | with_reducible refine State.runLookup_keeps (hP.mono rfl) ?_
    | with_reducible refine keep_foldl (fun _ _ _ => ?_) ?_
    | with_reducible refine keep_foldl_snd (fun _ _ _ _ => ?_) ?_
    | exact fun _ => rfl
    | exact fun _ h => h
    | exact fun _ _ _ h => h
    | split)

theorem State.discardWithin_keeps {P : State → Prop} (hP : Closed 2624128 P) {slice : Nat} {p : PfxParams} {lo hi : Nat} {s : State}  (h0 : P s) :
    P (State.discardWithin slice p lo hi s) := by
  unfold State.discardWithin
  repeat' (first
    | with_reducible assumption
    | with_reducible refine State.discardPage_keeps (hP.mono rfl) ?_
    | with_reducible refine keep_foldl (fun _ _ _ => ?_) ?_
    | with_reducible refine keep_foldl_snd (fun _ _ _ _ => ?_) ?_
    | exact fun _ => rfl
    | exact fun _ h => h
    | (extract_lets +onlyGivenNames x; refine keep_cut (P x) ?_ (fun _ => ?_); unfold x; clear x; rotate_left; clear_value x)
    | (extract_lets +onlyGivenNames x; refine keep_cut (P x.2) ?_ (fun _ => ?_); unfold x; clear x; rotate_left; clear_value x)
    | (extract_lets +onlyGivenNames x; clear_value x)
    | split)

theorem State.nodeRoom_keeps {P : State → Prop} (hP : Closed 2645888 P) {slice k : Nat} {keep : List Nat} {s : State} (h0 : P s) :
    OnSome P (State.nodeRoom slice keep k s) := by
  induction k generalizing s with
  | zero =>
    unfold State.nodeRoom
    repeat' (first
      | with_reducible assumption
      | with_reducible refine State.evict_keeps (hP.mono rfl) ?_
      | with_reducible exact OnSome.none
      | with_reducible refine OnSome.some ?_
      | with_reducible refine keep_foldl (fun _ _ _ => ?_) ?_
      | with_reducible refine keep_foldl_snd (fun _ _ _ _ => ?_) ?_
      | exact fun _ => rfl
      | exact fun _ h => h
      | with_reducible refine OnSome.map fun _ _ => ?_
      | with_reducible refine OnSome.findSome fun _ => ?_
      | split)
  | succ k ih =>
    unfold State.nodeRoom
    repeat' (first
      | with_reducible assumption
      | with_reducible refine ih ?_
      | with_reducible refine State.evict_keeps (hP.mono rfl) ?_
      | with_reducible exact OnSome.none
      | with_reducible refine OnSome.some ?_
      | with_reducible refine keep_foldl (fun _ _ _ => ?_) ?_
      | with_reducible refine keep_foldl_snd (fun _ _ _ _ => ?_) ?_
      | exact fun _ => rfl
      | exact fun _ h => h
      | with_reducible refine OnSome.map fun _ _ => ?_
      | with_reducible refine OnSome.findSome fun _ => ?_
      | split)
theorem State.nodeRoom_some {P : State → Prop} (hP : Closed 2645888 P) {slice k : Nat} {keep : List Nat} {s : State} (h0 : P s)  {t : State}
    (e : State.nodeRoom slice keep k s = some t) : P t := State.nodeRoom_keeps hP h0 _ e

theorem State.refReplicas_keeps {P : State → Prop} (hP : Closed 2099200 P) {n : PfxNode} {s : State}  (h0 : P s) :
    P (State.refReplicas n s) := by
  unfold State.refReplicas
  repeat' (first
    | with_reducible assumption
    | with_reducible refine State.startReplica_keeps (hP.mono rfl) ?_
    | with_reducible refine keep_foldl (fun _ _ _ => ?_) ?_
    | with_reducible refine keep_foldl_snd (fun _ _ _ _ => ?_) ?_
    | split)

theorem State.pfxBlock_keeps {P : State → Prop} (hP : Closed 2645888 P) {s : State} {p : PfxParams} {c : Ctx} {keep : List Nat} {depth : Nat} {k : Nat × Nat} {b : PfxBlock} {par : Option PfxNode} {prev : Nat}  (h0 : P s) :
    OnSome (fun r => P r.2.2) (State.pfxBlock s p c keep depth k b par prev) := by
  unfold State.pfxBlock
  repeat' (first
    | with_reducible assumption
    | with_reducible refine State.onNode_keeps (hP.mono rfl) ?_
    | with_reducible refine State.discardWithin_keeps (hP.mono rfl) ?_
    | with_reducible refine State.refReplicas_keeps (hP.mono rfl) ?_
    | with_reducible refine State.nodeRoom_keeps (hP.mono rfl) ?_
    | with_reducible refine State.nodeRoom_some (hP.mono rfl) ?_ ‹_›
    | with_reducible refine State.allocNode_keeps (hP.mono rfl) ?_
    | with_reducible refine State.allocNode_some (hP.mono rfl) ?_ ‹_›
    | with_reducible refine State.putNode_keeps (hP.mono rfl) ?_
    | with_reducible refine State.appendNode_keeps (hP.mono rfl) ?_
    | with_reducible refine State.insertEntry_keeps (hP.mono rfl) ?_
    | with_reducible refine State.insertEntry_some (hP.mono rfl) ?_ ‹_›
    | with_reducible exact OnSome.none
    | with_reducible refine OnSome.some ?_
    | with_reducible refine keep_foldl (fun _ _ _ => ?_) ?_
    | with_reducible refine keep_foldl_snd (fun _ _ _ _ => ?_) ?_
    | exact fun _ => rfl
    | exact fun _ h => h
    | (extract_lets +onlyGivenNames x; refine keep_cut (P x) ?_ (fun _ => ?_); unfold x; clear x; rotate_left; clear_value x)
    | (extract_lets +onlyGivenNames x; refine keep_cut (P x.2) ?_ (fun _ => ?_); unfold x; clear x; rotate_left; clear_value x)
    | (extract_lets +onlyGivenNames x; refine keep_cut (OnSome P x) ?_ (fun ko => ?_); unfold x; clear x; rotate_left; clear_value x)
    | exact ko _ ‹_›
    | exact ko _ rfl
    | (extract_lets +onlyGivenNames x; clear_value x)
    | with_reducible refine OnSome.map fun _ _ => ?_
    | with_reducible refine OnSome.findSome fun _ => ?_
    | split)
theorem State.pfxBlock_some {P : State → Prop} (hP : Closed 2645888 P) {s : State} {p : PfxParams} {c : Ctx} {keep : List Nat} {depth : Nat} {k : Nat × Nat} {b : PfxBlock} {par : Option PfxNode} {prev : Nat}  (h0 : P s) {a0 : Bool} {a1 : PfxNode} {t : State}
    (e : State.pfxBlock s p c keep depth k b par prev = some (a0, a1, t)) : P t := State.pfxBlock_keeps hP h0 _ e

theorem State.pfxBlocks_keeps {P : State → Prop} (hP : Closed 2645888 P) {p : PfxParams} {c : Ctx} {keep : List Nat} {d prev : Nat} {par : Option PfxNode} {l : List ((Nat × Nat) × PfxBlock)} {s : State} (h0 : P s) :
    OnSome (fun r => P r.2) (State.pfxBlocks p c keep d par prev l s) := by
  induction l generalizing keep d prev par s with
  | nil =>
    unfold State.pfxBlocks
    repeat' (first
      | with_reducible assumption
      | with_reducible refine State.pfxBlock_keeps (hP.mono rfl) ?_
      | with_reducible refine State.pfxBlock_some (hP.mono rfl) ?_ ‹_›
      | with_reducible exact OnSome.none
      | with_reducible refine OnSome.some ?_
      | with_reducible refine keep_foldl (fun _ _ _ => ?_) ?_
      | with_reducible refine keep_foldl_snd (fun _ _ _ _ => ?_) ?_
      | exact fun _ => rfl
      | exact fun _ h => h
      | with_reducible refine OnSome.map fun _ _ => ?_
      | with_reducible refine OnSome.findSome fun _ => ?_
      | split)
  | cons x t ih =>
    unfold State.pfxBlocks
    repeat' (first
      | with_reducible assumption
      | refine OnSome.map fun r h => ih (s := _) ?_ r h
      | with_reducible refine State.pfxBlock_keeps (hP.mono rfl) ?_
      | with_reducible refine State.pfxBlock_some (hP.mono rfl) ?_ ‹_›
      | with_reducible exact OnSome.none
      | with_reducible refine OnSome.some ?_
      | with_reducible refine keep_foldl (fun _ _ _ => ?_) ?_
      | with_reducible refine keep_foldl_snd (fun _ _ _ _ => ?_) ?_
      | exact fun _ => rfl
      | exact fun _ h => h
      | with_reducible refine OnSome.map fun _ _ => ?_
      | with_reducible refine OnSome.findSome fun _ => ?_
      | split)
theorem State.pfxBlocks_some {P : State → Prop} (hP : Closed 2645888 P) {p : PfxParams} {c : Ctx} {keep : List Nat} {d prev : Nat} {par : Option PfxNode} {l : List ((Nat × Nat) × PfxBlock)} {s : State} (h0 : P s) {a : List (Bool × Nat)} {t : State}
    (e : State.pfxBlocks p c keep d par prev l s = some (a, t)) : P t := State.pfxBlocks_keeps hP h0 _ e

theorem State.pfxAll_keeps {P : State → Prop} (hP : Closed 2645888 P) {s : State} {p : PfxParams} {c : Ctx}  (h0 : P s) :
    OnSome (fun r => P r.2) (State.pfxAll s p c) := by
  unfold State.pfxAll
  repeat' (first
    | with_reducible assumption
    | with_reducible refine State.pfxBlocks_keeps (hP.mono rfl) ?_
    | with_reducible refine State.pfxBlocks_some (hP.mono rfl) ?_ ‹_›
    | with_reducible exact OnSome.none
    | with_reducible refine OnSome.some ?_
    | with_reducible refine keep_foldl (fun _ _ _ => ?_) ?_
    | with_reducible refine keep_foldl_snd (fun _ _ _ _ => ?_) ?_
    | exact fun _ => rfl
    | exact fun _ h => h
    | with_reducible refine OnSome.map fun _ _ => ?_
    | with_reducible refine OnSome.findSome fun _ => ?_
    | split)
theorem State.pfxAll_some {P : State → Prop} (hP : Closed 2645888 P) {s : State} {p : PfxParams} {c : Ctx}  (h0 : P s) {a0 : List (Bool × Nat)} {t : State}
    (e : State.pfxAll s p c = some (a0, t)) : P t := State.pfxAll_keeps hP h0 _ e

theorem State.pfxScrub_keeps {P : State → Prop} (hP : Closed 2645938 P) {p : PfxParams} {c : Ctx} {s : State}  (h0 : P s) :
    P (State.pfxScrub p c s) := by
  unfold State.pfxScrub
  repeat' (first
    | with_reducible assumption
    | with_reducible refine State.scrubKeys_keeps (hP.mono rfl) ?_
    | with_reducible refine keep_foldl (fun _ _ _ => ?_) ?_
    | with_reducible refine keep_foldl_snd (fun _ _ _ _ => ?_) ?_
    | exact fun _ => rfl
    | exact fun _ h => h
    | split)

theorem State.runPfx_keeps {P : State → Prop} (hP : Closed 2645938 P) {h : ExtHdr} {p : PfxParams} {c : Ctx} {s : State}  (h0 : P s) :
    P (State.runPfx h p c s) := by
  unfold State.runPfx
  repeat' (first
    | with_reducible assumption
    | with_reducible refine State.pfxScrub_keeps (hP.mono rfl) ?_
    | with_reducible refine State.respond_keeps (hP.mono rfl) ?_
    | with_reducible refine State.pfxAll_keeps (hP.mono rfl) ?_
    | with_reducible refine State.pfxAll_some (hP.mono rfl) ?_ ‹_›
    | with_reducible refine keep_foldl (fun _ _ _ => ?_) ?_
    | with_reducible refine keep_foldl_snd (fun _ _ _ _ => ?_) ?_
    | exact fun _ => rfl
    | exact fun _ h => h
    | (extract_lets +onlyGivenNames x; refine keep_cut (P x) ?_ (fun _ => ?_); unfold x; clear x; rotate_left; clear_value x)
    | (extract_lets +onlyGivenNames x; refine keep_cut (P x.2) ?_ (fun _ => ?_); unfold x; clear x; rotate_left; clear_value x)
    | (extract_lets +onlyGivenNames x; clear_value x)
    | split)

theorem pfxSpec_refused {P : State → Prop} (hP : Closed 2645938 P) {h : ExtHdr} {p : PfxParams} {y : State} {x : Ctx} {k : Code} {s : State} (h0 : P s) :
    P ((pfxSpec h p y x).refused k s) := by
  show P (ite _ _ _)
  repeat' (first
    | with_reducible assumption
    | with_reducible refine State.discardWithin_keeps (hP.mono rfl) ?_
    | with_reducible refine State.pfxScrub_keeps (hP.mono rfl) ?_
    | with_reducible refine hP.locus rfl _ _ ?_
    | (extract_lets +onlyGivenNames x; refine keep_cut (P x) ?_ (fun _ => ?_); unfold x; clear x; rotate_left; clear_value x)
    | split)

theorem execPublishPrefix_keeps {P : State → Prop} (hP : Closed 2678770 P) {h : ExtHdr} {p : PfxParams} {s : State}  (h0 : P s) {t0 : State}
    (e : execPublishPrefix h p s = .next t0) : P t0 := by
  unfold execPublishPrefix at e
  cases e
  repeat' (first
    | with_reducible assumption
    | with_reducible refine State.whenUp_keeps (hP.mono rfl) (fun _ _ => ?_) ?_
    | with_reducible refine State.settle_keeps (hP.mono rfl) ?_
    | with_reducible refine State.markParity_keeps (hP.mono rfl) ?_
    | with_reducible refine State.extended_keeps (hP.mono rfl) ?_ (fun _ _ _ => ?_) ?_
    | with_reducible refine State.discardWithin_keeps (hP.mono rfl) ?_
    | with_reducible refine State.runPfx_keeps (hP.mono rfl) ?_
    | with_reducible refine keep_foldl (fun _ _ _ => ?_) ?_
    | with_reducible refine keep_foldl_snd (fun _ _ _ _ => ?_) ?_
    | exact fun _ => rfl
    | exact fun _ h => h
    | exact fun _ _ _ h => h
    | exact fun _ _ _ h => pfxSpec_refused (hP.mono rfl) h
    | split)

theorem execPublishPrefix_after {P : State → Prop} (hP : Closed 2645938 P) {h : ExtHdr} {p : PfxParams} {s : State} (h0 : P s.settle) (hr : s.running = true) {t0 : State}
    (e : execPublishPrefix h p s = .next t0) : P t0 := by
  unfold execPublishPrefix at e
  cases e
  unfold State.whenUp
  rw [if_pos hr]
  beta_reduce
  repeat' (first
    | with_reducible assumption
    | with_reducible refine State.markParity_keeps (hP.mono rfl) ?_
    | with_reducible refine State.extended_keeps (hP.mono rfl) ?_ (fun _ _ _ => ?_) ?_
    | with_reducible refine State.discardWithin_keeps (hP.mono rfl) ?_
    | with_reducible refine State.runPfx_keeps (hP.mono rfl) ?_
    | with_reducible refine keep_foldl (fun _ _ _ => ?_) ?_
    | with_reducible refine keep_foldl_snd (fun _ _ _ _ => ?_) ?_
    | exact fun _ => rfl
    | exact fun _ h => h
    | exact fun _ _ _ h => h
    | exact fun _ _ _ h => pfxSpec_refused (hP.mono rfl) h
    | split)

theorem State.releaseOne_keeps {P : State → Prop} (hP : Closed 2120960 P) {p : PfxRelease} {c : Ctx} {k : Nat × Nat} {s : State}  (h0 : P s) :
    P (State.releaseOne p c k s).2 := by
  unfold State.releaseOne
  repeat' (first
    | with_reducible assumption
    | with_reducible refine State.onNode_keeps (hP.mono rfl) ?_
    | with_reducible refine State.endReplica_keeps (hP.mono rfl) ?_
    | with_reducible refine keep_foldl (fun _ _ _ => ?_) ?_
    | with_reducible refine keep_foldl_snd (fun _ _ _ _ => ?_) ?_
    | exact fun _ => rfl
    | exact fun _ h => h
    | (extract_lets +onlyGivenNames x; refine keep_cut (P x) ?_ (fun _ => ?_); unfold x; clear x; rotate_left; clear_value x)
    | (extract_lets +onlyGivenNames x; refine keep_cut (P x.2) ?_ (fun _ => ?_); unfold x; clear x; rotate_left; clear_value x)
    | (extract_lets +onlyGivenNames x; clear_value x)
    | split
    | with_reducible refine keep_snd ?_)
theorem State.releaseOne_eq {P : State → Prop} (hP : Closed 2120960 P) {p : PfxRelease} {c : Ctx} {k : Nat × Nat} {s : State}  (h0 : P s) {a0 : Bool} {t : State}
    (e : State.releaseOne p c k s = (a0, t)) : P t := by
  have h1 : P (State.releaseOne p c k s).2 := State.releaseOne_keeps hP h0
  rw [e] at h1
  exact h1

theorem State.runPfxRelease_keeps {P : State → Prop} (hP : Closed 2120960 P) {h : ExtHdr} {p : PfxRelease} {c : Ctx} {s : State}  (h0 : P s) :
    P (State.runPfxRelease h p c s) := by
  unfold State.runPfxRelease
  repeat' (first
    | with_reducible assumption
    | with_reducible refine State.releaseOne_keeps (hP.mono rfl) ?_
    | with_reducible refine State.releaseOne_eq (hP.mono rfl) ?_ ‹_›
    | with_reducible refine State.respond_keeps (hP.mono rfl) ?_
    | with_reducible refine keep_foldl (fun _ _ _ => ?_) ?_
    | with_reducible refine keep_foldl_snd (fun _ _ _ _ => ?_) ?_
    | exact fun _ => rfl
    | exact fun _ h => h
    | (extract_lets +onlyGivenNames x; refine keep_cut (P x) ?_ (fun _ => ?_); unfold x; clear x; rotate_left; clear_value x)
    | (extract_lets +onlyGivenNames x; refine keep_cut (P x.2) ?_ (fun _ => ?_); unfold x; clear x; rotate_left; clear_value x)
    | (extract_lets +onlyGivenNames x; clear_value x)
    | split)

theorem execPrefixRelease_keeps {P : State → Prop} (hP : Closed 2678770 P) {h : ExtHdr} {p : PfxRelease} {s : State}  (h0 : P s) {t0 : State}
    (e : execPrefixRelease h p s = .next t0) : P t0 := by
  unfold execPrefixRelease at e
  cases e
  repeat' (first
    | with_reducible assumption
    | with_reducible refine State.whenUp_keeps (hP.mono rfl) (fun _ _ => ?_) ?_
    | with_reducible refine State.settle_keeps (hP.mono rfl) ?_
    | with_reducible refine State.extended_keeps (hP.mono rfl) ?_ (fun _ _ _ => ?_) ?_
    | with_reducible refine State.markParity_keeps (hP.mono rfl) ?_
    | with_reducible refine State.scrubKeys_keeps (hP.mono rfl) ?_
    | with_reducible refine State.runPfxRelease_keeps (hP.mono rfl) ?_
    | with_reducible refine keep_foldl (fun _ _ _ => ?_) ?_
    | with_reducible refine keep_foldl_snd (fun _ _ _ _ => ?_) ?_
    | exact fun _ => rfl
    | exact fun _ h => h
    | exact fun _ _ _ h => h
    | split)

theorem execPrefixRelease_after {P : State → Prop} (hP : Closed 2645938 P) {h : ExtHdr} {p : PfxRelease} {s : State} (h0 : P s.settle) (hr : s.running = true) {t0 : State}
    (e : execPrefixRelease h p s = .next t0) : P t0 := by
  unfold execPrefixRelease at e
  cases e
  unfold State.whenUp
  rw [if_pos hr]
  beta_reduce
  repeat' (first
    | with_reducible assumption
    | with_reducible refine State.extended_keeps (hP.mono rfl) ?_ (fun _ _ _ => ?_) ?_
    | with_reducible refine State.markParity_keeps (hP.mono rfl) ?_
    | with_reducible refine State.scrubKeys_keeps (hP.mono rfl) ?_
    | with_reducible refine State.runPfxRelease_keeps (hP.mono rfl) ?_
    | with_reducible refine keep_foldl (fun _ _ _ => ?_) ?_
    | with_reducible refine keep_foldl_snd (fun _ _ _ _ => ?_) ?_
    | exact fun _ => rfl
    | exact fun _ h => h
    | exact fun _ _ _ h => h
    | split)

theorem State.idleSweep_keeps {P : State → Prop} (hP : Closed 2645888 P) {slice k : Nat} {s : State} (h0 : P s) :
    P (State.idleSweep slice k s) := by
  induction k generalizing s with
  | zero =>
    unfold State.idleSweep
    repeat' (first
      | with_reducible assumption
      | with_reducible refine State.evict_keeps (hP.mono rfl) ?_
      | with_reducible refine keep_foldl (fun _ _ _ => ?_) ?_
      | with_reducible refine keep_foldl_snd (fun _ _ _ _ => ?_) ?_
      | exact fun _ => rfl
      | exact fun _ h => h
      | (extract_lets +onlyGivenNames x; refine keep_cut (P x) ?_ (fun _ => ?_); unfold x; clear x; rotate_left; clear_value x)
      | (extract_lets +onlyGivenNames x; refine keep_cut (P x.2) ?_ (fun _ => ?_); unfold x; clear x; rotate_left; clear_value x)
      | (extract_lets +onlyGivenNames x; clear_value x)
      | split)
  | succ k ih =>
    unfold State.idleSweep
    repeat' (first
      | with_reducible assumption
      | with_reducible refine ih ?_
      | with_reducible refine State.evict_keeps (hP.mono rfl) ?_
      | with_reducible refine keep_foldl (fun _ _ _ => ?_) ?_
      | with_reducible refine keep_foldl_snd (fun _ _ _ _ => ?_) ?_
      | exact fun _ => rfl
      | exact fun _ h => h
      | (extract_lets +onlyGivenNames x; refine keep_cut (P x) ?_ (fun _ => ?_); unfold x; clear x; rotate_left; clear_value x)
      | (extract_lets +onlyGivenNames x; refine keep_cut (P x.2) ?_ (fun _ => ?_); unfold x; clear x; rotate_left; clear_value x)
      | (extract_lets +onlyGivenNames x; clear_value x)
      | split)

theorem execPfxEvictSweep_keeps {P : State → Prop} (hP : Closed 2645888 P) {slice : Fin 8} {s : State}  (h0 : P s) {t0 : State}
    (e : execPfxEvictSweep slice s = .next t0) : P t0 := by
  unfold execPfxEvictSweep at e
  cases e
  repeat' (first
    | with_reducible assumption
    | with_reducible refine State.whenUp_keeps (hP.mono rfl) (fun _ _ => ?_) ?_
    | with_reducible refine State.idleSweep_keeps (hP.mono rfl) ?_
    | with_reducible refine keep_foldl (fun _ _ _ => ?_) ?_
    | with_reducible refine keep_foldl_snd (fun _ _ _ _ => ?_) ?_
    | exact fun _ => rfl
    | exact fun _ h => h
    | split)

end Sys2Proof.Machine
end

