-- ==== Sys2Proof/Laws/KeepNearBank.lean ====
section
/-! SUPPORT. What the operations of Machine/NearBank.lean touch: each keeps every predicate that is closed under the parts named. -/

namespace Sys2Proof.Machine

set_option linter.unusedTactic false
set_option linter.unreachableTactic false
set_option linter.unusedVariables false
set_option linter.tactic.unusedName false

theorem State.onWin_keeps {P : State → Prop} (hP : Closed 256 P) {n w : Nat} {f : NbWin → NbWin} {s : State}  (h0 : P s) :
    P (State.onWin n w f s) := by
  unfold State.onWin
  repeat' (first
    | with_reducible assumption
    | with_reducible refine hP.nbu rfl _ _ _ ?_
    | with_reducible refine keep_foldl (fun _ _ _ => ?_) ?_
    | with_reducible refine keep_foldl_snd (fun _ _ _ _ => ?_) ?_
    | split)

theorem State.purgeNear_keeps {P : State → Prop} (hP : Closed 256 P) {n : Nat} {s : State}  (h0 : P s) :
    P (State.purgeNear n s) := by
  unfold State.purgeNear
  repeat' (first
    | with_reducible assumption
    | with_reducible refine hP.nbu rfl _ _ _ ?_
    | with_reducible refine keep_foldl (fun _ _ _ => ?_) ?_
    | with_reducible refine keep_foldl_snd (fun _ _ _ _ => ?_) ?_
    | (extract_lets +onlyGivenNames x; refine keep_cut (P x) ?_ (fun _ => ?_); unfold x; clear x; rotate_left; clear_value x)
    | (extract_lets +onlyGivenNames x; refine keep_cut (P x.2) ?_ (fun _ => ?_); unfold x; clear x; rotate_left; clear_value x)
    | (extract_lets +onlyGivenNames x; clear_value x)
    | split)

theorem State.dropNear_keeps {P : State → Prop} (hP : Closed 256 P) {n : Nat} {p : NearPage} {s : State}  (h0 : P s) :
    P (State.dropNear n p s) := by
  unfold State.dropNear
  repeat' (first
    | with_reducible assumption
    | with_reducible refine hP.nbu rfl _ _ _ ?_
    | with_reducible refine State.purgeNear_keeps (hP.mono rfl) ?_
    | with_reducible refine keep_foldl (fun _ _ _ => ?_) ?_
    | with_reducible refine keep_foldl_snd (fun _ _ _ _ => ?_) ?_
    | split)

theorem State.nearToCells_keeps {P : State → Prop} (hP : Closed 2410944 P) {n : Nat} {p : NearPage} {s : State}  (h0 : P s) :
    P (State.nearToCells n p s) := by
  unfold State.nearToCells
  repeat' (first
    | with_reducible assumption
    | with_reducible refine State.dropNear_keeps (hP.mono rfl) ?_
    | with_reducible refine State.addPage_keeps (hP.mono rfl) ?_
    | with_reducible refine keep_foldl (fun _ _ _ => ?_) ?_
    | with_reducible refine keep_foldl_snd (fun _ _ _ _ => ?_) ?_
    | split)

theorem State.mergeNear_keeps {P : State → Prop} (hP : Closed 2394560 P) {n req page : Nat} {s : State}  (h0 : P s) :
    P (State.mergeNear n req page s) := by
  unfold State.mergeNear
  repeat' (first
    | with_reducible assumption
    | with_reducible refine State.dropNear_keeps (hP.mono rfl) ?_
    | with_reducible refine State.mergePage_keeps (hP.mono rfl) ?_
    | with_reducible refine keep_foldl (fun _ _ _ => ?_) ?_
    | with_reducible refine keep_foldl_snd (fun _ _ _ _ => ?_) ?_
    | split)

theorem State.nearAgain_keeps {P : State → Prop} (hP : Closed 2936816 P) {n : Nat} {p : NearPage} {s : State}  (h0 : P s) :
    P (State.nearAgain n p s) := by
  unfold State.nearAgain
  repeat' (first
    | with_reducible assumption
    | with_reducible refine State.dropNear_keeps (hP.mono rfl) ?_
    | with_reducible refine State.resolve_keeps (hP.mono rfl) ?_
    | with_reducible refine State.resolve_eq (hP.mono rfl) ?_ ‹_›
    | with_reducible refine State.setPage_keeps (hP.mono rfl) ?_
    | with_reducible refine State.addPage_keeps (hP.mono rfl) ?_
    | with_reducible refine State.parkOn_keeps (hP.mono rfl) ?_
    | with_reducible refine State.parkOn_eq (hP.mono rfl) ?_ ‹_›
    | with_reducible refine State.awaitPage_keeps (hP.mono rfl) ?_
    | with_reducible refine keep_foldl (fun _ _ _ => ?_) ?_
    | with_reducible refine keep_foldl_snd (fun _ _ _ _ => ?_) ?_
    | exact fun _ => rfl
    | exact fun _ h => h
    | (extract_lets +onlyGivenNames x; refine keep_cut (P x) ?_ (fun _ => ?_); unfold x; clear x; rotate_left; clear_value x)
    | (extract_lets +onlyGivenNames x; refine keep_cut (P x.2) ?_ (fun _ => ?_); unfold x; clear x; rotate_left; clear_value x)
    | (extract_lets +onlyGivenNames x; clear_value x)
    | split)

theorem State.fenceNear_keeps {P : State → Prop} (hP : Closed 2936816 P) {n : Nat} {s : State}  (h0 : P s) :
    P (State.fenceNear n s) := by
  unfold State.fenceNear
  repeat' (first
    | with_reducible assumption
    | with_reducible refine State.nearAgain_keeps (hP.mono rfl) ?_
    | with_reducible refine keep_foldl (fun _ _ _ => ?_) ?_
    | with_reducible refine keep_foldl_snd (fun _ _ _ _ => ?_) ?_
    | exact fun _ => rfl
    | exact fun _ h => h
    | split)

theorem State.openWindow_keeps {P : State → Prop} (hP : Closed 2410944 P) {n : Nat} {w : WinPlan} {s : State}  (h0 : P s) :
    P (State.openWindow n w s) := by
  unfold State.openWindow
  repeat' (first
    | with_reducible assumption
    | with_reducible refine hP.nbu rfl _ _ _ ?_
    | with_reducible refine State.purgeNear_keeps (hP.mono rfl) ?_
    | with_reducible refine State.nearToCells_keeps (hP.mono rfl) ?_
    | with_reducible refine keep_foldl (fun _ _ _ => ?_) ?_
    | with_reducible refine keep_foldl_snd (fun _ _ _ _ => ?_) ?_
    | (extract_lets +onlyGivenNames x; refine keep_cut (P x) ?_ (fun _ => ?_); unfold x; clear x; rotate_left; clear_value x)
    | (extract_lets +onlyGivenNames x; refine keep_cut (P x.2) ?_ (fun _ => ?_); unfold x; clear x; rotate_left; clear_value x)
    | (extract_lets +onlyGivenNames x; clear_value x)
    | split)

theorem execNbWindowOpen_keeps {P : State → Prop} (hP : Closed 2410944 P) {region : Fin 8} {w : WinPlan} {s : State}  (h0 : P s) {t0 : State}
    (e : execNbWindowOpen region w s = .next t0) : P t0 := by
  unfold execNbWindowOpen at e
  cases e
  repeat' (first
    | with_reducible assumption
    | with_reducible refine State.whenUp_keeps (hP.mono rfl) (fun _ _ => ?_) ?_
    | with_reducible refine State.openWindow_keeps (hP.mono rfl) ?_
    | with_reducible refine keep_foldl (fun _ _ _ => ?_) ?_
    | with_reducible refine keep_foldl_snd (fun _ _ _ _ => ?_) ?_
    | split)

theorem State.dropLines_keeps {P : State → Prop} (hP : Closed 128 P) {n : Nat} {gs : List Nat} {s : State}  (h0 : P s) :
    P (State.dropLines n gs s) := by
  unfold State.dropLines
  repeat' (first
    | with_reducible assumption
    | with_reducible refine hP.eng rfl _ _ ?_
    | with_reducible refine keep_foldl (fun _ _ _ => ?_) ?_
    | with_reducible refine keep_foldl_snd (fun _ _ _ _ => ?_) ?_
    | split)

theorem State.refreshDue_keeps {P : State → Prop} (hP : Closed 256 P) {n : Nat} {w : NbWin} {s : State}  (h0 : P s) :
    P (State.refreshDue n w s) := by
  unfold State.refreshDue
  repeat' (first
    | with_reducible assumption
    | with_reducible refine hP.nbu rfl _ _ _ ?_
    | with_reducible refine keep_foldl (fun _ _ _ => ?_) ?_
    | with_reducible refine keep_foldl_snd (fun _ _ _ _ => ?_) ?_
    | (extract_lets +onlyGivenNames x; refine keep_cut (P x) ?_ (fun _ => ?_); unfold x; clear x; rotate_left; clear_value x)
    | (extract_lets +onlyGivenNames x; refine keep_cut (P x.2) ?_ (fun _ => ?_); unfold x; clear x; rotate_left; clear_value x)
    | (extract_lets +onlyGivenNames x; clear_value x)
    | split)

theorem State.enterWindow_keeps {P : State → Prop} (hP : Closed 384 P) {n k : Nat} {s : State}  (h0 : P s) :
    P (State.enterWindow n k s) := by
  unfold State.enterWindow
  repeat' (first
    | with_reducible assumption
    | with_reducible refine State.purgeNear_keeps (hP.mono rfl) ?_
    | with_reducible refine State.dropLines_keeps (hP.mono rfl) ?_
    | with_reducible refine State.refreshDue_keeps (hP.mono rfl) ?_
    | with_reducible refine State.onWin_keeps (hP.mono rfl) ?_
    | with_reducible refine keep_foldl (fun _ _ _ => ?_) ?_
    | with_reducible refine keep_foldl_snd (fun _ _ _ _ => ?_) ?_
    | (extract_lets +onlyGivenNames x; refine keep_cut (P x) ?_ (fun _ => ?_); unfold x; clear x; rotate_left; clear_value x)
    | (extract_lets +onlyGivenNames x; refine keep_cut (P x.2) ?_ (fun _ => ?_); unfold x; clear x; rotate_left; clear_value x)
    | (extract_lets +onlyGivenNames x; clear_value x)
    | split)

theorem execNbEnter_keeps {P : State → Prop} (hP : Closed 384 P) {region : Fin 8} {win : Nat} {s : State}  (h0 : P s) {t0 : State}
    (e : execNbEnter region win s = .next t0) : P t0 := by
  unfold execNbEnter at e
  cases e
  repeat' (first
    | with_reducible assumption
    | with_reducible refine State.whenUp_keeps (hP.mono rfl) (fun _ _ => ?_) ?_
    | with_reducible refine State.enterWindow_keeps (hP.mono rfl) ?_
    | with_reducible refine keep_foldl (fun _ _ _ => ?_) ?_
    | with_reducible refine keep_foldl_snd (fun _ _ _ _ => ?_) ?_
    | split)

theorem State.loadWindow_keeps {P : State → Prop} (hP : Closed 256 P) {n k : Nat} {s : State}  (h0 : P s) :
    P (State.loadWindow n k s) := by
  unfold State.loadWindow
  repeat' (first
    | with_reducible assumption
    | with_reducible refine hP.nbu rfl _ _ _ ?_
    | with_reducible refine State.onWin_keeps (hP.mono rfl) ?_
    | with_reducible refine keep_foldl (fun _ _ _ => ?_) ?_
    | with_reducible refine keep_foldl_snd (fun _ _ _ _ => ?_) ?_
    | split)

theorem execNbLoad_keeps {P : State → Prop} (hP : Closed 256 P) {region : Fin 8} {win : Nat} {s : State}  (h0 : P s) {t0 : State}
    (e : execNbLoad region win s = .next t0) : P t0 := by
  unfold execNbLoad at e
  cases e
  repeat' (first
    | with_reducible assumption
    | with_reducible refine State.whenUp_keeps (hP.mono rfl) (fun _ _ => ?_) ?_
    | with_reducible refine State.loadWindow_keeps (hP.mono rfl) ?_
    | with_reducible refine keep_foldl (fun _ _ _ => ?_) ?_
    | with_reducible refine keep_foldl_snd (fun _ _ _ _ => ?_) ?_
    | split)

theorem State.activate_keeps {P : State → Prop} (hP : Closed 256 P) {n k : Nat} {s : State}  (h0 : P s) :
    P (State.activate n k s) := by
  unfold State.activate
  repeat' (first
    | with_reducible assumption
    | with_reducible refine State.onWin_keeps (hP.mono rfl) ?_
    | with_reducible refine keep_foldl (fun _ _ _ => ?_) ?_
    | with_reducible refine keep_foldl_snd (fun _ _ _ _ => ?_) ?_
    | split)

theorem execNbAct_keeps {P : State → Prop} (hP : Closed 256 P) {region : Fin 8} {win : Nat} {s : State}  (h0 : P s) {t0 : State}
    (e : execNbAct region win s = .next t0) : P t0 := by
  unfold execNbAct at e
  cases e
  repeat' (first
    | with_reducible assumption
    | with_reducible refine State.whenUp_keeps (hP.mono rfl) (fun _ _ => ?_) ?_
    | with_reducible refine State.activate_keeps (hP.mono rfl) ?_
    | with_reducible refine keep_foldl (fun _ _ _ => ?_) ?_
    | with_reducible refine keep_foldl_snd (fun _ _ _ _ => ?_) ?_
    | split)

theorem State.readColumn_keeps {P : State → Prop} (hP : Closed 278912 P) {n k : Nat} {x : ColumnEcc} {s : State}  (h0 : P s) :
    P (State.readColumn n k x s) := by
  unfold State.readColumn
  repeat' (first
    | with_reducible assumption
    | with_reducible refine hP.free rfl _ ?_
    | with_reducible refine State.onWin_keeps (hP.mono rfl) ?_
    | with_reducible refine State.takeSlot_keeps (hP.mono rfl) ?_
    | with_reducible refine keep_foldl (fun _ _ _ => ?_) ?_
    | with_reducible refine keep_foldl_snd (fun _ _ _ _ => ?_) ?_
    | (extract_lets +onlyGivenNames x; refine keep_cut (P x) ?_ (fun _ => ?_); unfold x; clear x; rotate_left; clear_value x)
    | (extract_lets +onlyGivenNames x; refine keep_cut (P x.2) ?_ (fun _ => ?_); unfold x; clear x; rotate_left; clear_value x)
    | (extract_lets +onlyGivenNames x; clear_value x)
    | split)

theorem execNbRead_keeps {P : State → Prop} (hP : Closed 278912 P) {region : Fin 8} {win : Nat} {abort : ColumnEcc} {s : State}  (h0 : P s) {t0 : State}
    (e : execNbRead region win abort s = .next t0) : P t0 := by
  unfold execNbRead at e
  cases e
  repeat' (first
    | with_reducible assumption
    | with_reducible refine State.whenUp_keeps (hP.mono rfl) (fun _ _ => ?_) ?_
    | with_reducible refine State.readColumn_keeps (hP.mono rfl) ?_
    | with_reducible refine keep_foldl (fun _ _ _ => ?_) ?_
    | with_reducible refine keep_foldl_snd (fun _ _ _ _ => ?_) ?_
    | split)

theorem State.chordWindow_keeps {P : State → Prop} (hP : Closed 256 P) {n k : Nat} {s : State}  (h0 : P s) :
    P (State.chordWindow n k s) := by
  unfold State.chordWindow
  repeat' (first
    | with_reducible assumption
    | with_reducible refine State.onWin_keeps (hP.mono rfl) ?_
    | with_reducible refine keep_foldl (fun _ _ _ => ?_) ?_
    | with_reducible refine keep_foldl_snd (fun _ _ _ _ => ?_) ?_
    | split)

theorem execNbChord_keeps {P : State → Prop} (hP : Closed 256 P) {region : Fin 8} {win : Nat} {s : State}  (h0 : P s) {t0 : State}
    (e : execNbChord region win s = .next t0) : P t0 := by
  unfold execNbChord at e
  cases e
  repeat' (first
    | with_reducible assumption
    | with_reducible refine State.whenUp_keeps (hP.mono rfl) (fun _ _ => ?_) ?_
    | with_reducible refine State.chordWindow_keeps (hP.mono rfl) ?_
    | with_reducible refine keep_foldl (fun _ _ _ => ?_) ?_
    | with_reducible refine keep_foldl_snd (fun _ _ _ _ => ?_) ?_
    | split)

theorem State.resultWindow_keeps {P : State → Prop} (hP : Closed 1281 P) {n k : Nat} {s : State}  (h0 : P s) :
    P (State.resultWindow n k s) := by
  unfold State.resultWindow
  repeat' (first
    | with_reducible assumption
    | with_reducible refine State.stamp_keeps (hP.mono rfl) ?_
    | with_reducible refine State.writeSlot_keeps (hP.mono rfl) ?_
    | with_reducible refine State.onWin_keeps (hP.mono rfl) ?_
    | with_reducible refine keep_foldl (fun _ _ _ => ?_) ?_
    | with_reducible refine keep_foldl_snd (fun _ _ _ _ => ?_) ?_
    | exact fun _ => rfl
    | exact fun _ h => h
    | (extract_lets +onlyGivenNames x; refine keep_cut (P x) ?_ (fun _ => ?_); unfold x; clear x; rotate_left; clear_value x)
    | (extract_lets +onlyGivenNames x; refine keep_cut (P x.2) ?_ (fun _ => ?_); unfold x; clear x; rotate_left; clear_value x)
    | (extract_lets +onlyGivenNames x; clear_value x)
    | split)

theorem execNbResult_keeps {P : State → Prop} (hP : Closed 1281 P) {region : Fin 8} {win : Nat} {s : State}  (h0 : P s) {t0 : State}
    (e : execNbResult region win s = .next t0) : P t0 := by
  unfold execNbResult at e
  cases e
  repeat' (first
    | with_reducible assumption
    | with_reducible refine State.whenUp_keeps (hP.mono rfl) (fun _ _ => ?_) ?_
    | with_reducible refine State.resultWindow_keeps (hP.mono rfl) ?_
    | with_reducible refine keep_foldl (fun _ _ _ => ?_) ?_
    | with_reducible refine keep_foldl_snd (fun _ _ _ _ => ?_) ?_
    | exact fun _ => rfl
    | exact fun _ h => h
    | split)

theorem State.settleWin_keeps {P : State → Prop} (hP : Closed 2394560 P) {n k : Nat} {s : State}  (h0 : P s) :
    P (State.settleWin n k s) := by
  unfold State.settleWin
  repeat' (first
    | with_reducible assumption
    | with_reducible refine hP.nbu rfl _ _ _ ?_
    | with_reducible refine State.mergeNear_keeps (hP.mono rfl) ?_
    | with_reducible refine keep_foldl (fun _ _ _ => ?_) ?_
    | with_reducible refine keep_foldl_snd (fun _ _ _ _ => ?_) ?_
    | split)

theorem State.redoGroup_keeps {P : State → Prop} (hP : Closed 2410944 P) {n k die unit head : Nat} {s : State}  (h0 : P s) :
    P (State.redoGroup n k die unit head s) := by
  unfold State.redoGroup
  repeat' (first
    | with_reducible assumption
    | with_reducible refine hP.nbu rfl _ _ _ ?_
    | with_reducible refine hP.free rfl _ ?_
    | with_reducible refine State.touchFrame_keeps (hP.mono rfl) ?_
    | with_reducible refine State.onWin_keeps (hP.mono rfl) ?_
    | with_reducible refine State.settleWin_keeps (hP.mono rfl) ?_
    | with_reducible refine keep_foldl (fun _ _ _ => ?_) ?_
    | with_reducible refine keep_foldl_snd (fun _ _ _ _ => ?_) ?_
    | (extract_lets +onlyGivenNames x; refine keep_cut (P x) ?_ (fun _ => ?_); unfold x; clear x; rotate_left; clear_value x)
    | (extract_lets +onlyGivenNames x; refine keep_cut (P x.2) ?_ (fun _ => ?_); unfold x; clear x; rotate_left; clear_value x)
    | (extract_lets +onlyGivenNames x; clear_value x)
    | split)

theorem State.decideGroup_keeps {P : State → Prop} (hP : Closed 2410944 P) {n k : Nat} {g : GroupTriple} {s : State}  (h0 : P s) :
    P (State.decideGroup n k g s) := by
  unfold State.decideGroup
  repeat' (first
    | with_reducible assumption
    | with_reducible refine State.redoGroup_keeps (hP.mono rfl) ?_
    | with_reducible refine State.settleWin_keeps (hP.mono rfl) ?_
    | with_reducible refine keep_foldl (fun _ _ _ => ?_) ?_
    | with_reducible refine keep_foldl_snd (fun _ _ _ _ => ?_) ?_
    | split)

theorem State.logCorrected_keeps {P : State → Prop} (hP : Closed 524338 P) {n slice : Nat} {g : GroupTriple} {stamp count : Nat} {s : State}  (h0 : P s) :
    P (State.logCorrected n slice g stamp count s) := by
  unfold State.logCorrected
  repeat' (first
    | with_reducible assumption
    | with_reducible refine hP.ras rfl _ _ ?_
    | with_reducible refine State.logDetection_keeps (hP.mono rfl) ?_
    | with_reducible refine keep_foldl (fun _ _ _ => ?_) ?_
    | with_reducible refine keep_foldl_snd (fun _ _ _ _ => ?_) ?_
    | split)

theorem State.checkRecord_keeps {P : State → Prop} (hP : Closed 2935795 P) {n k slot : Nat} {errors : List (Nat × Byte)} {s : State}  (h0 : P s) :
    P (State.checkRecord n k slot errors s) := by
  unfold State.checkRecord
  repeat' (first
    | with_reducible assumption
    | with_reducible refine hP.nbu rfl _ _ _ ?_
    | with_reducible refine State.stamp_keeps (hP.mono rfl) ?_
    | with_reducible refine State.logCorrected_keeps (hP.mono rfl) ?_
    | with_reducible refine State.onWin_keeps (hP.mono rfl) ?_
    | with_reducible refine State.logEvent_keeps (hP.mono rfl) ?_
    | with_reducible refine State.detect_keeps (hP.mono rfl) ?_
    | with_reducible refine State.decideGroup_keeps (hP.mono rfl) ?_
    | with_reducible refine keep_foldl (fun _ _ _ => ?_) ?_
    | with_reducible refine keep_foldl_snd (fun _ _ _ _ => ?_) ?_
    | exact fun _ => rfl
    | exact fun _ h => h
    | (extract_lets +onlyGivenNames x; refine keep_cut (P x) ?_ (fun _ => ?_); unfold x; clear x; rotate_left; clear_value x)
    | (extract_lets +onlyGivenNames x; refine keep_cut (P x.2) ?_ (fun _ => ?_); unfold x; clear x; rotate_left; clear_value x)
    | (extract_lets +onlyGivenNames x; clear_value x)
    | split)

theorem State.readRecord_keeps {P : State → Prop} (hP : Closed 2935795 P) {n k slot : Nat} {errors : List (Nat × Byte)} {s : State}  (h0 : P s) :
    P (State.readRecord n k slot errors s) := by
  unfold State.readRecord
  repeat' (first
    | with_reducible assumption
    | with_reducible refine State.purgeNear_keeps (hP.mono rfl) ?_
    | with_reducible refine State.collide_keeps (hP.mono rfl) ?_
    | with_reducible refine State.checkRecord_keeps (hP.mono rfl) ?_
    | with_reducible refine keep_foldl (fun _ _ _ => ?_) ?_
    | with_reducible refine keep_foldl_snd (fun _ _ _ _ => ?_) ?_
    | exact fun _ => rfl
    | exact fun _ h => h
    | (extract_lets +onlyGivenNames x; refine keep_cut (P x) ?_ (fun _ => ?_); unfold x; clear x; rotate_left; clear_value x)
    | (extract_lets +onlyGivenNames x; refine keep_cut (P x.2) ?_ (fun _ => ?_); unfold x; clear x; rotate_left; clear_value x)
    | (extract_lets +onlyGivenNames x; clear_value x)
    | (extract_lets +onlyGivenNames x; unfold x)
    | split)

theorem execResultRecordRead_keeps {P : State → Prop} (hP : Closed 2935795 P) {region : Fin 8} {win slot : Nat} {errors : List (Nat × Byte)} {s : State}  (h0 : P s) {t0 : State}
    (e : execResultRecordRead region win slot errors s = .next t0) : P t0 := by
  unfold execResultRecordRead at e
  cases e
  repeat' (first
    | with_reducible assumption
    | with_reducible refine State.whenUp_keeps (hP.mono rfl) (fun _ _ => ?_) ?_
    | with_reducible refine State.readRecord_keeps (hP.mono rfl) ?_
    | with_reducible refine keep_foldl (fun _ _ _ => ?_) ?_
    | with_reducible refine keep_foldl_snd (fun _ _ _ _ => ?_) ?_
    | exact fun _ => rfl
    | exact fun _ h => h
    | split)

theorem State.abortRead_keeps {P : State → Prop} (hP : Closed 2949106 P) {n k slot : Nat} {recovered : Bool} {s : State}  (h0 : P s) :
    P (State.abortRead n k slot recovered s) := by
  unfold State.abortRead
  repeat' (first
    | with_reducible assumption
    | with_reducible refine hP.nbu rfl _ _ _ ?_
    | with_reducible refine State.rowCorrected_keeps (hP.mono rfl) ?_
    | with_reducible refine State.redoGroup_keeps (hP.mono rfl) ?_
    | with_reducible refine State.uncorrectable_keeps (hP.mono rfl) ?_
    | with_reducible refine State.poison_keeps (hP.mono rfl) ?_
    | with_reducible refine State.nearAgain_keeps (hP.mono rfl) ?_
    | with_reducible refine keep_foldl (fun _ _ _ => ?_) ?_
    | with_reducible refine keep_foldl_snd (fun _ _ _ _ => ?_) ?_
    | exact fun _ => rfl
    | exact fun _ h => h
    | (extract_lets +onlyGivenNames x; refine keep_cut (P x) ?_ (fun _ => ?_); unfold x; clear x; rotate_left; clear_value x)
    | (extract_lets +onlyGivenNames x; refine keep_cut (P x.2) ?_ (fun _ => ?_); unfold x; clear x; rotate_left; clear_value x)
    | (extract_lets +onlyGivenNames x; clear_value x)
    | split)

theorem State.rereadAbort_keeps {P : State → Prop} (hP : Closed 2949106 P) {n k slot : Nat} {recovered : Bool} {s : State}  (h0 : P s) :
    P (State.rereadAbort n k slot recovered s) := by
  unfold State.rereadAbort
  repeat' (first
    | with_reducible assumption
    | with_reducible refine State.purgeNear_keeps (hP.mono rfl) ?_
    | with_reducible refine State.takeSlot_keeps (hP.mono rfl) ?_
    | with_reducible refine State.collide_keeps (hP.mono rfl) ?_
    | with_reducible refine State.abortRead_keeps (hP.mono rfl) ?_
    | with_reducible refine keep_foldl (fun _ _ _ => ?_) ?_
    | with_reducible refine keep_foldl_snd (fun _ _ _ _ => ?_) ?_
    | exact fun _ => rfl
    | exact fun _ h => h
    | (extract_lets +onlyGivenNames x; refine keep_cut (P x) ?_ (fun _ => ?_); unfold x; clear x; rotate_left; clear_value x)
    | (extract_lets +onlyGivenNames x; refine keep_cut (P x.2) ?_ (fun _ => ?_); unfold x; clear x; rotate_left; clear_value x)
    | (extract_lets +onlyGivenNames x; clear_value x)
    | split)

theorem execOndieAbortReread_keeps {P : State → Prop} (hP : Closed 2949106 P) {region : Fin 8} {win slot : Nat} {recovered : Bool} {s : State}  (h0 : P s) {t0 : State}
    (e : execOndieAbortReread region win slot recovered s = .next t0) : P t0 := by
  unfold execOndieAbortReread at e
  cases e
  repeat' (first
    | with_reducible assumption
    | with_reducible refine State.whenUp_keeps (hP.mono rfl) (fun _ _ => ?_) ?_
    | with_reducible refine State.rereadAbort_keeps (hP.mono rfl) ?_
    | with_reducible refine keep_foldl (fun _ _ _ => ?_) ?_
    | with_reducible refine keep_foldl_snd (fun _ _ _ _ => ?_) ?_
    | exact fun _ => rfl
    | exact fun _ h => h
    | split)

theorem State.issueAccess_keeps {P : State → Prop} (hP : Closed 2949107 P) {c : CqEntry} {s : State}  (h0 : P s) :
    P (State.issueAccess c s) := by
  unfold State.issueAccess
  repeat' (first
    | with_reducible assumption
    | with_reducible refine hP.emitted rfl _ _ ?_
    | with_reducible refine State.bankWriteN_keeps (hP.mono rfl) ?_
    | with_reducible refine State.scrubbed_keeps (hP.mono rfl) ?_
    | with_reducible refine State.checkRecord_keeps (hP.mono rfl) ?_
    | with_reducible refine State.abortRead_keeps (hP.mono rfl) ?_
    | with_reducible refine State.refilled_keeps (hP.mono rfl) ?_
    | with_reducible refine keep_foldl (fun _ _ _ => ?_) ?_
    | with_reducible refine keep_foldl_snd (fun _ _ _ _ => ?_) ?_
    | exact fun _ => rfl
    | exact fun _ h => h
    | (extract_lets +onlyGivenNames x; refine keep_cut (P x) ?_ (fun _ => ?_); unfold x; clear x; rotate_left; clear_value x)
    | (extract_lets +onlyGivenNames x; refine keep_cut (P x.2) ?_ (fun _ => ?_); unfold x; clear x; rotate_left; clear_value x)
    | (extract_lets +onlyGivenNames x; clear_value x)
    | split)

theorem State.drainQueue_keeps {P : State → Prop} (hP : Closed 2949107 P) {n : Nat} {s : State}  (h0 : P s) :
    P (State.drainQueue n s) := by
  unfold State.drainQueue
  repeat' (first
    | with_reducible assumption
    | with_reducible refine hP.nbu rfl _ _ _ ?_
    | with_reducible refine State.enqueue_keeps (hP.mono rfl) ?_
    | with_reducible refine State.issueAccess_keeps (hP.mono rfl) ?_
    | with_reducible refine keep_foldl (fun _ _ _ => ?_) ?_
    | with_reducible refine keep_foldl_snd (fun _ _ _ _ => ?_) ?_
    | exact fun _ => rfl
    | exact fun _ h => h
    | (extract_lets +onlyGivenNames x; refine keep_cut (P x) ?_ (fun _ => ?_); unfold x; clear x; rotate_left; clear_value x)
    | (extract_lets +onlyGivenNames x; refine keep_cut (P x.2) ?_ (fun _ => ?_); unfold x; clear x; rotate_left; clear_value x)
    | (extract_lets +onlyGivenNames x; clear_value x)
    | split)

theorem State.retireWaiting_keeps {P : State → Prop} (hP : Closed 256 P) {n : Nat} {s : State}  (h0 : P s) :
    P (State.retireWaiting n s) := by
  unfold State.retireWaiting
  repeat' (first
    | with_reducible assumption
    | with_reducible refine hP.nbu rfl _ _ _ ?_
    | with_reducible refine keep_foldl (fun _ _ _ => ?_) ?_
    | with_reducible refine keep_foldl_snd (fun _ _ _ _ => ?_) ?_
    | (extract_lets +onlyGivenNames x; refine keep_cut (P x) ?_ (fun _ => ?_); unfold x; clear x; rotate_left; clear_value x)
    | (extract_lets +onlyGivenNames x; refine keep_cut (P x.2) ?_ (fun _ => ?_); unfold x; clear x; rotate_left; clear_value x)
    | (extract_lets +onlyGivenNames x; clear_value x)
    | split)

theorem State.endNbDrain_keeps {P : State → Prop} (hP : Closed 64 P) {n : Nat} {s : State}  (h0 : P s) :
    P (State.endNbDrain n s) := by
  unfold State.endNbDrain
  repeat' (first
    | with_reducible assumption
    | with_reducible refine hP.sch rfl _ _ ?_
    | with_reducible refine keep_foldl (fun _ _ _ => ?_) ?_
    | with_reducible refine keep_foldl_snd (fun _ _ _ _ => ?_) ?_
    | split)

theorem State.exitWindow_keeps {P : State → Prop} (hP : Closed 2949111 P) {n k : Nat} {s : State}  (h0 : P s) :
    P (State.exitWindow n k s) := by
  unfold State.exitWindow
  repeat' (first
    | with_reducible assumption
    | with_reducible refine State.onWin_keeps (hP.mono rfl) ?_
    | with_reducible refine State.retireWaiting_keeps (hP.mono rfl) ?_
    | with_reducible refine State.purgeNear_keeps (hP.mono rfl) ?_
    | with_reducible refine State.drainQueue_keeps (hP.mono rfl) ?_
    | with_reducible refine State.endNbDrain_keeps (hP.mono rfl) ?_
    | with_reducible refine State.syncRegionClk_keeps (hP.mono rfl) ?_
    | with_reducible refine keep_foldl (fun _ _ _ => ?_) ?_
    | with_reducible refine keep_foldl_snd (fun _ _ _ _ => ?_) ?_
    | exact fun _ => rfl
    | exact fun _ h => h
    | split)

theorem execNbExit_keeps {P : State → Prop} (hP : Closed 2949111 P) {region : Fin 8} {win : Nat} {s : State}  (h0 : P s) {t0 : State}
    (e : execNbExit region win s = .next t0) : P t0 := by
  unfold execNbExit at e
  cases e
  repeat' (first
    | with_reducible assumption
    | with_reducible refine State.whenUp_keeps (hP.mono rfl) (fun _ _ => ?_) ?_
    | with_reducible refine State.exitWindow_keeps (hP.mono rfl) ?_
    | with_reducible refine keep_foldl (fun _ _ _ => ?_) ?_
    | with_reducible refine keep_foldl_snd (fun _ _ _ _ => ?_) ?_
    | exact fun _ => rfl
    | exact fun _ h => h
    | split)

theorem State.steerSpare_keeps {P : State → Prop} (hP : Closed 258 P) {n die unit : Nat} {s : State}  (h0 : P s) :
    P (State.steerSpare n die unit s) := by
  unfold State.steerSpare
  repeat' (first
    | with_reducible assumption
    | with_reducible refine hP.ras rfl _ _ ?_
    | with_reducible refine hP.nbu rfl _ _ _ ?_
    | with_reducible refine keep_foldl (fun _ _ _ => ?_) ?_
    | with_reducible refine keep_foldl_snd (fun _ _ _ _ => ?_) ?_
    | (extract_lets +onlyGivenNames x; refine keep_cut (P x) ?_ (fun _ => ?_); unfold x; clear x; rotate_left; clear_value x)
    | (extract_lets +onlyGivenNames x; refine keep_cut (P x.2) ?_ (fun _ => ?_); unfold x; clear x; rotate_left; clear_value x)
    | (extract_lets +onlyGivenNames x; clear_value x)
    | split)

theorem execNbuSpareSteer_keeps {P : State → Prop} (hP : Closed 258 P) {stack : Fin 8} {die : Fin 12} {unit : Fin 128} {s : State}  (h0 : P s) {t0 : State}
    (e : execNbuSpareSteer stack die unit s = .next t0) : P t0 := by
  unfold execNbuSpareSteer at e
  cases e
  repeat' (first
    | with_reducible assumption
    | with_reducible refine State.whenUp_keeps (hP.mono rfl) (fun _ _ => ?_) ?_
    | with_reducible refine State.steerSpare_keeps (hP.mono rfl) ?_
    | with_reducible refine keep_foldl (fun _ _ _ => ?_) ?_
    | with_reducible refine keep_foldl_snd (fun _ _ _ _ => ?_) ?_
    | split)

theorem State.refreshPair_keeps {P : State → Prop} (hP : Closed 256 P) {n pair : Nat} {s : State}  (h0 : P s) :
    P (State.refreshPair n pair s) := by
  unfold State.refreshPair
  repeat' (first
    | with_reducible assumption
    | with_reducible refine hP.nbu rfl _ _ _ ?_
    | with_reducible refine keep_foldl (fun _ _ _ => ?_) ?_
    | with_reducible refine keep_foldl_snd (fun _ _ _ _ => ?_) ?_
    | (extract_lets +onlyGivenNames x; refine keep_cut (P x) ?_ (fun _ => ?_); unfold x; clear x; rotate_left; clear_value x)
    | (extract_lets +onlyGivenNames x; refine keep_cut (P x.2) ?_ (fun _ => ?_); unfold x; clear x; rotate_left; clear_value x)
    | (extract_lets +onlyGivenNames x; clear_value x)
    | split)

theorem execRefresh_keeps {P : State → Prop} (hP : Closed 256 P) {stack : Fin 8} {sid : Fin 3} {pc : Fin 64} {pair : Fin 8} {s : State}  (h0 : P s) {t0 : State}
    (e : execRefresh stack sid pc pair s = .next t0) : P t0 := by
  unfold execRefresh at e
  cases e
  repeat' (first
    | with_reducible assumption
    | with_reducible refine State.whenUp_keeps (hP.mono rfl) (fun _ _ => ?_) ?_
    | with_reducible refine State.refreshPair_keeps (hP.mono rfl) ?_
    | with_reducible refine keep_foldl (fun _ _ _ => ?_) ?_
    | with_reducible refine keep_foldl_snd (fun _ _ _ _ => ?_) ?_
    | split)

theorem State.enableNb_keeps {P : State → Prop} (hP : Closed 320 P) {n : Nat} {s : State}  (h0 : P s) :
    P (State.enableNb n s) := by
  unfold State.enableNb
  repeat' (first
    | with_reducible assumption
    | with_reducible refine hP.sch rfl _ _ ?_
    | with_reducible refine hP.nbu rfl _ _ _ ?_
    | with_reducible refine keep_foldl (fun _ _ _ => ?_) ?_
    | with_reducible refine keep_foldl_snd (fun _ _ _ _ => ?_) ?_
    | (extract_lets +onlyGivenNames x; refine keep_cut (P x) ?_ (fun _ => ?_); unfold x; clear x; rotate_left; clear_value x)
    | (extract_lets +onlyGivenNames x; refine keep_cut (P x.2) ?_ (fun _ => ?_); unfold x; clear x; rotate_left; clear_value x)
    | (extract_lets +onlyGivenNames x; clear_value x)
    | split)

theorem State.disableNb_keeps {P : State → Prop} (hP : Closed 2410944 P) {n : Nat} {s : State}  (h0 : P s) :
    P (State.disableNb n s) := by
  unfold State.disableNb
  repeat' (first
    | with_reducible assumption
    | with_reducible refine hP.sch rfl _ _ ?_
    | with_reducible refine hP.nbu rfl _ _ _ ?_
    | with_reducible refine State.nearToCells_keeps (hP.mono rfl) ?_
    | with_reducible refine keep_foldl (fun _ _ _ => ?_) ?_
    | with_reducible refine keep_foldl_snd (fun _ _ _ _ => ?_) ?_
    | (extract_lets +onlyGivenNames x; refine keep_cut (P x) ?_ (fun _ => ?_); unfold x; clear x; rotate_left; clear_value x)
    | (extract_lets +onlyGivenNames x; refine keep_cut (P x.2) ?_ (fun _ => ?_); unfold x; clear x; rotate_left; clear_value x)
    | (extract_lets +onlyGivenNames x; clear_value x)
    | split)

theorem execNbEnable_keeps {P : State → Prop} (hP : Closed 320 P) {region : Fin 8} {s : State}  (h0 : P s) {t0 : State}
    (e : execNbEnable region s = .next t0) : P t0 := by
  unfold execNbEnable at e
  cases e
  repeat' (first
    | with_reducible assumption
    | with_reducible refine State.whenUp_keeps (hP.mono rfl) (fun _ _ => ?_) ?_
    | with_reducible refine State.enableNb_keeps (hP.mono rfl) ?_
    | with_reducible refine keep_foldl (fun _ _ _ => ?_) ?_
    | with_reducible refine keep_foldl_snd (fun _ _ _ _ => ?_) ?_
    | split)

theorem execNbDisable_keeps {P : State → Prop} (hP : Closed 2410944 P) {region : Fin 8} {s : State}  (h0 : P s) {t0 : State}
    (e : execNbDisable region s = .next t0) : P t0 := by
  unfold execNbDisable at e
  cases e
  repeat' (first
    | with_reducible assumption
    | with_reducible refine State.whenUp_keeps (hP.mono rfl) (fun _ _ => ?_) ?_
    | with_reducible refine State.disableNb_keeps (hP.mono rfl) ?_
    | with_reducible refine keep_foldl (fun _ _ _ => ?_) ?_
    | with_reducible refine keep_foldl_snd (fun _ _ _ _ => ?_) ?_
    | split)

end Sys2Proof.Machine
end

