-- ==== Sys2Proof/Laws/KeepTiers.lean ====
section
/-! SUPPORT. What the operations of Machine/Tiers.lean touch: each keeps every predicate that is closed under the parts named. -/

namespace Sys2Proof.Machine

set_option linter.unusedTactic false
set_option linter.unreachableTactic false
set_option linter.unusedVariables false
set_option linter.tactic.unusedName false

theorem State.releaseFrame_keeps {P : State → Prop} (hP : Closed 2641792 P) {e : Entry} {s : State}  (h0 : P s) :
    P (State.releaseFrame e s) := by
  unfold State.releaseFrame
  repeat' (first
    | with_reducible assumption
    | with_reducible refine State.retireUnit_keeps (hP.mono rfl) ?_
    | with_reducible refine State.forgetLook_keeps (hP.mono rfl) ?_
    | with_reducible refine State.onEntry_keeps (hP.mono rfl) ?_
    | with_reducible refine State.bumpGen_keeps (hP.mono rfl) ?_
    | with_reducible refine keep_foldl (fun _ _ _ => ?_) ?_
    | with_reducible refine keep_foldl_snd (fun _ _ _ _ => ?_) ?_
    | exact fun _ => rfl
    | exact fun _ h => h
    | split)

theorem State.writeShadow_keeps {P : State → Prop} (hP : Closed 544512 P) {e : Entry} {s : State}  (h0 : P s) :
    P (State.writeShadow e s) := by
  unfold State.writeShadow
  repeat' (first
    | with_reducible assumption
    | with_reducible refine hP.home rfl _ _ ?_
    | with_reducible refine State.allocFrom_keeps (hP.mono rfl) ?_
    | with_reducible refine State.allocFrom_some (hP.mono rfl) ?_ ‹_›
    | with_reducible refine State.fillShadow_keeps (hP.mono rfl) ?_
    | with_reducible refine State.onEntry_keeps (hP.mono rfl) ?_
    | with_reducible refine keep_foldl (fun _ _ _ => ?_) ?_
    | with_reducible refine keep_foldl_snd (fun _ _ _ _ => ?_) ?_
    | exact fun _ => rfl
    | exact fun _ h => h
    | (extract_lets +onlyGivenNames x; refine keep_cut (P x) ?_ (fun _ => ?_); unfold x; clear x; rotate_left; clear_value x)
    | (extract_lets +onlyGivenNames x; refine keep_cut (P x.2) ?_ (fun _ => ?_); unfold x; clear x; rotate_left; clear_value x)
    | (extract_lets +onlyGivenNames x; clear_value x)
    | split)

theorem State.demote_keeps {P : State → Prop} (hP : Closed 544512 P) {s : State} {e : Entry}  (h0 : P s) :
    OnSome P (State.demote s e) := by
  unfold State.demote
  repeat' (first
    | with_reducible assumption
    | with_reducible refine State.allocExtent_keeps (hP.mono rfl) ?_
    | with_reducible refine State.allocExtent_some (hP.mono rfl) ?_ ‹_›
    | with_reducible refine State.writeShadow_keeps (hP.mono rfl) ?_
    | with_reducible refine State.onEntry_keeps (hP.mono rfl) ?_
    | with_reducible refine State.addCmds_keeps (hP.mono rfl) ?_
    | with_reducible exact OnSome.none
    | with_reducible refine OnSome.some ?_
    | with_reducible refine keep_foldl (fun _ _ _ => ?_) ?_
    | with_reducible refine keep_foldl_snd (fun _ _ _ _ => ?_) ?_
    | exact fun _ => rfl
    | exact fun _ h => h
    | (extract_lets +onlyGivenNames x; refine keep_cut (P x) ?_ (fun _ => ?_); unfold x; clear x; rotate_left; clear_value x)
    | (extract_lets +onlyGivenNames x; refine keep_cut (P x.2) ?_ (fun _ => ?_); unfold x; clear x; rotate_left; clear_value x)
    | (extract_lets +onlyGivenNames x; clear_value x)
    | with_reducible refine OnSome.map fun _ _ => ?_
    | with_reducible refine OnSome.findSome fun _ => ?_
    | split)
theorem State.demote_some {P : State → Prop} (hP : Closed 544512 P) {s : State} {e : Entry}  (h0 : P s) {t : State}
    (e : State.demote s e = some t) : P t := State.demote_keeps hP h0 t e

theorem State.releaseRounds_keeps {P : State → Prop} (hP : Closed 2641792 P) {sts : List Nat} {pct : Nat} {es : List Entry} {s : State}  (h0 : P s) :
    P (State.releaseRounds sts pct es s) := by
  unfold State.releaseRounds
  repeat' (first
    | with_reducible assumption
    | with_reducible refine State.beginMove_keeps (hP.mono rfl) ?_
    | with_reducible refine State.releaseFrame_keeps (hP.mono rfl) ?_
    | with_reducible refine keep_foldl (fun _ _ _ => ?_) ?_
    | with_reducible refine keep_foldl_snd (fun _ _ _ _ => ?_) ?_
    | exact fun _ => rfl
    | exact fun _ h => h
    | split)

theorem State.demoteRound_keeps {P : State → Prop} (hP : Closed 2641664 P) {sts : List Nat} {pct : Nat} {l : List Entry} {s : State} (h0 : P s) :
    P (State.demoteRound sts pct l s) := by
  induction l generalizing s with
  | nil =>
    unfold State.demoteRound
    repeat' (first
      | with_reducible assumption
      | with_reducible refine State.beginMove_keeps (hP.mono rfl) ?_
      | with_reducible refine State.demote_keeps (hP.mono rfl) ?_
      | with_reducible refine State.demote_some (hP.mono rfl) ?_ ‹_›
      | with_reducible refine keep_foldl (fun _ _ _ => ?_) ?_
      | with_reducible refine keep_foldl_snd (fun _ _ _ _ => ?_) ?_
      | exact fun _ => rfl
      | exact fun _ h => h
      | split)
  | cons x t ih =>
    unfold State.demoteRound
    repeat' (first
      | with_reducible assumption
      | with_reducible refine ih ?_
      | with_reducible refine State.beginMove_keeps (hP.mono rfl) ?_
      | with_reducible refine State.demote_keeps (hP.mono rfl) ?_
      | with_reducible refine State.demote_some (hP.mono rfl) ?_ ‹_›
      | with_reducible refine keep_foldl (fun _ _ _ => ?_) ?_
      | with_reducible refine keep_foldl_snd (fun _ _ _ _ => ?_) ?_
      | exact fun _ => rfl
      | exact fun _ h => h
      | split)

theorem State.reclaim_keeps {P : State → Prop} (hP : Closed 2641792 P) {slice : Nat} {sts : List Nat} {s : State}  (h0 : P s) :
    P (State.reclaim slice sts s) := by
  unfold State.reclaim
  repeat' (first
    | with_reducible assumption
    | with_reducible refine State.releaseRounds_keeps (hP.mono rfl) ?_
    | with_reducible refine State.demoteRound_keeps (hP.mono rfl) ?_
    | with_reducible refine keep_foldl (fun _ _ _ => ?_) ?_
    | with_reducible refine keep_foldl_snd (fun _ _ _ _ => ?_) ?_
    | exact fun _ => rfl
    | exact fun _ h => h
    | (extract_lets +onlyGivenNames x; refine keep_cut (P x) ?_ (fun _ => ?_); unfold x; clear x; rotate_left; clear_value x)
    | (extract_lets +onlyGivenNames x; refine keep_cut (P x.2) ?_ (fun _ => ?_); unfold x; clear x; rotate_left; clear_value x)
    | (extract_lets +onlyGivenNames x; clear_value x)
    | split)

theorem State.reclaimOn_keeps {P : State → Prop} (hP : Closed 2641792 P) {s : State}  (h0 : P s) :
    P (State.reclaimOn s) := by
  unfold State.reclaimOn
  repeat' (first
    | with_reducible assumption
    | with_reducible refine hP.home rfl _ _ ?_
    | with_reducible refine State.reclaim_keeps (hP.mono rfl) ?_
    | with_reducible refine keep_foldl (fun _ _ _ => ?_) ?_
    | with_reducible refine keep_foldl_snd (fun _ _ _ _ => ?_) ?_
    | exact fun _ => rfl
    | exact fun _ h => h
    | (extract_lets +onlyGivenNames x; refine keep_cut (P x) ?_ (fun _ => ?_); unfold x; clear x; rotate_left; clear_value x)
    | (extract_lets +onlyGivenNames x; refine keep_cut (P x.2) ?_ (fun _ => ?_); unfold x; clear x; rotate_left; clear_value x)
    | (extract_lets +onlyGivenNames x; clear_value x)
    | split)

theorem State.startReclaim_keeps {P : State → Prop} (hP : Closed 2641792 P) {slice : Nat} {k : Option Nat} {s : State}  (h0 : P s) :
    P (State.startReclaim slice k s) := by
  unfold State.startReclaim
  repeat' (first
    | with_reducible assumption
    | with_reducible refine hP.home rfl _ _ ?_
    | with_reducible refine State.reclaimOn_keeps (hP.mono rfl) ?_
    | with_reducible refine keep_foldl (fun _ _ _ => ?_) ?_
    | with_reducible refine keep_foldl_snd (fun _ _ _ _ => ?_) ?_
    | exact fun _ => rfl
    | exact fun _ h => h
    | split)

theorem State.storeImage_keeps {P : State → Prop} (hP : Closed 512 P) {slice d granule n : Nat} {img : List (Nat × Byte)} {s : State}  (h0 : P s) :
    P (State.storeImage slice d granule n img s) := by
  unfold State.storeImage
  repeat' (first
    | with_reducible assumption
    | with_reducible refine State.onDrive_keeps (hP.mono rfl) ?_ ?_
    | with_reducible refine keep_foldl (fun _ _ _ => ?_) ?_
    | with_reducible refine keep_foldl_snd (fun _ _ _ _ => ?_) ?_
    | exact fun _ => rfl
    | exact fun _ h => h
    | (extract_lets +onlyGivenNames x; refine keep_cut (P x) ?_ (fun _ => ?_); unfold x; clear x; rotate_left; clear_value x)
    | (extract_lets +onlyGivenNames x; refine keep_cut (P x.2) ?_ (fun _ => ?_); unfold x; clear x; rotate_left; clear_value x)
    | (extract_lets +onlyGivenNames x; clear_value x)
    | exact fun x hx => Memory.wf_foldWrite _ _ _ (Memory.wf_cellZero _ _ hx)
    | split)

theorem State.unclean_keeps {P : State → Prop} (hP : Closed 2641792 P) {slice : Nat} {n : PageName} {s : State}  (h0 : P s) :
    P (State.unclean slice n s) := by
  unfold State.unclean
  repeat' (first
    | with_reducible assumption
    | with_reducible refine State.retireShadow_keeps (hP.mono rfl) ?_
    | with_reducible refine State.retireExtent_keeps (hP.mono rfl) ?_
    | with_reducible refine State.onEntry_keeps (hP.mono rfl) ?_
    | with_reducible refine State.bumpGen_keeps (hP.mono rfl) ?_
    | with_reducible refine State.dropCmds_keeps (hP.mono rfl) ?_
    | with_reducible refine keep_foldl (fun _ _ _ => ?_) ?_
    | with_reducible refine keep_foldl_snd (fun _ _ _ _ => ?_) ?_
    | exact fun _ => rfl
    | exact fun _ h => h
    | (extract_lets +onlyGivenNames x; refine keep_cut (P x) ?_ (fun _ => ?_); unfold x; clear x; rotate_left; clear_value x)
    | (extract_lets +onlyGivenNames x; refine keep_cut (P x.2) ?_ (fun _ => ?_); unfold x; clear x; rotate_left; clear_value x)
    | (extract_lets +onlyGivenNames x; clear_value x)
    | split)

theorem State.writePage_keeps {P : State → Prop} (hP : Closed 2674672 P) {slice : Nat} {n : PageName} {at_ : Nat} {data : List Byte} {s : State}  (h0 : P s) :
    P (State.writePage slice n at_ data s) := by
  unfold State.writePage
  repeat' (first
    | with_reducible assumption
    | with_reducible refine hP.mem rfl _ _ ?_ ?_ ?_
    | with_reducible refine State.refresh_keeps (hP.mono rfl) ?_
    | with_reducible refine State.beginMove_keeps (hP.mono rfl) ?_
    | with_reducible refine State.unclean_keeps (hP.mono rfl) ?_
    | with_reducible refine State.busBytes_keeps (hP.mono rfl) ?_
    | with_reducible refine State.awaitPage_keeps (hP.mono rfl) ?_
    | with_reducible refine keep_foldl (fun _ _ _ => ?_) ?_
    | with_reducible refine keep_foldl_snd (fun _ _ _ _ => ?_) ?_
    | exact fun _ => rfl
    | exact fun _ h => h
    | (extract_lets +onlyGivenNames x; refine keep_cut (P x) ?_ (fun _ => ?_); unfold x; clear x; rotate_left; clear_value x)
    | (extract_lets +onlyGivenNames x; refine keep_cut (P x.2) ?_ (fun _ => ?_); unfold x; clear x; rotate_left; clear_value x)
    | (extract_lets +onlyGivenNames x; refine keep_cut (∀ a, P a → P (x a)) ?_ (fun kx => ?_); unfold x; clear x; intro _ _; beta_reduce; rotate_left; clear_value x)
    | with_reducible refine kx _ ?_
    | (extract_lets +onlyGivenNames x; clear_value x)
    | (with_reducible refine hP.mem rfl _ _ ?_ ?_ ?_)
    | split)

theorem State.applyWaits_keeps {P : State → Prop} (hP : Closed 2674672 P) {slice : Nat} {n : PageName} {s : State}  (h0 : P s) :
    P (State.applyWaits slice n s) := by
  unfold State.applyWaits
  repeat' (first
    | with_reducible assumption
    | with_reducible refine hP.mem rfl _ _ ?_ ?_ ?_
    | with_reducible refine State.writePage_keeps (hP.mono rfl) ?_
    | with_reducible refine keep_foldl (fun _ _ _ => ?_) ?_
    | with_reducible refine keep_foldl_snd (fun _ _ _ _ => ?_) ?_
    | exact fun _ => rfl
    | exact fun _ h => h
    | (extract_lets +onlyGivenNames x; refine keep_cut (P x) ?_ (fun _ => ?_); unfold x; clear x; rotate_left; clear_value x)
    | (extract_lets +onlyGivenNames x; refine keep_cut (P x.2) ?_ (fun _ => ?_); unfold x; clear x; rotate_left; clear_value x)
    | (extract_lets +onlyGivenNames x; clear_value x)
    | split)

theorem State.fillStale_keeps {P : State → Prop} (hP : Closed 2674672 P) {f : Fill} {s : State}  (h0 : P s) :
    P (State.fillStale f s) := by
  unfold State.fillStale
  repeat' (first
    | with_reducible assumption
    | with_reducible refine State.retireUnit_keeps (hP.mono rfl) ?_
    | with_reducible refine State.endFill_keeps (hP.mono rfl) ?_
    | with_reducible refine State.writeSlots_keeps (hP.mono rfl) ?_
    | with_reducible refine State.tellFate_keeps (hP.mono rfl) ?_
    | with_reducible refine State.applyWaits_keeps (hP.mono rfl) ?_
    | with_reducible refine State.awaitPage_keeps (hP.mono rfl) ?_
    | with_reducible refine keep_foldl (fun _ _ _ => ?_) ?_
    | with_reducible refine keep_foldl_snd (fun _ _ _ _ => ?_) ?_
    | exact fun _ => rfl
    | exact fun _ h => h
    | (extract_lets +onlyGivenNames x; refine keep_cut (P x) ?_ (fun _ => ?_); unfold x; clear x; rotate_left; clear_value x)
    | (extract_lets +onlyGivenNames x; refine keep_cut (P x.2) ?_ (fun _ => ?_); unfold x; clear x; rotate_left; clear_value x)
    | (extract_lets +onlyGivenNames x; clear_value x)
    | split)

theorem State.landed_keeps {P : State → Prop} (hP : Closed 2674672 P) {slice : Nat} {n : PageName} {f : Fill} {s : State}  (h0 : P s) :
    P (State.landed slice n f s) := by
  unfold State.landed
  repeat' (first
    | with_reducible assumption
    | with_reducible refine hP.home rfl _ _ ?_
    | with_reducible refine State.endFill_keeps (hP.mono rfl) ?_
    | with_reducible refine State.applyWaits_keeps (hP.mono rfl) ?_
    | with_reducible refine State.writeSlots_keeps (hP.mono rfl) ?_
    | with_reducible refine State.tellFate_keeps (hP.mono rfl) ?_
    | with_reducible refine keep_foldl (fun _ _ _ => ?_) ?_
    | with_reducible refine keep_foldl_snd (fun _ _ _ _ => ?_) ?_
    | exact fun _ => rfl
    | exact fun _ h => h
    | (extract_lets +onlyGivenNames x; refine keep_cut (P x) ?_ (fun _ => ?_); unfold x; clear x; rotate_left; clear_value x)
    | (extract_lets +onlyGivenNames x; refine keep_cut (P x.2) ?_ (fun _ => ?_); unfold x; clear x; rotate_left; clear_value x)
    | (extract_lets +onlyGivenNames x; clear_value x)
    | split)

theorem State.fillLand_keeps {P : State → Prop} (hP : Closed 2936816 P) {slice : Nat} {n : PageName} {s : State}  (h0 : P s) :
    P (State.fillLand slice n s) := by
  unfold State.fillLand
  repeat' (first
    | with_reducible assumption
    | with_reducible refine hP.free rfl _ ?_
    | with_reducible refine State.beginMove_keeps (hP.mono rfl) ?_
    | with_reducible refine State.takeStack_keeps (hP.mono rfl) ?_
    | with_reducible refine State.writeImage_keeps (hP.mono rfl) ?_
    | with_reducible refine State.onEntry_keeps (hP.mono rfl) ?_
    | with_reducible refine State.bumpGen_keeps (hP.mono rfl) ?_
    | with_reducible refine State.countTier_keeps (hP.mono rfl) ?_
    | with_reducible refine State.landed_keeps (hP.mono rfl) ?_
    | with_reducible refine State.fillStale_keeps (hP.mono rfl) ?_
    | with_reducible refine keep_foldl (fun _ _ _ => ?_) ?_
    | with_reducible refine keep_foldl_snd (fun _ _ _ _ => ?_) ?_
    | exact fun _ => rfl
    | exact fun _ h => h
    | (extract_lets +onlyGivenNames x; refine keep_cut (P x) ?_ (fun _ => ?_); unfold x; clear x; rotate_left; clear_value x)
    | (extract_lets +onlyGivenNames x; refine keep_cut (P x.2) ?_ (fun _ => ?_); unfold x; clear x; rotate_left; clear_value x)
    | (extract_lets +onlyGivenNames x; clear_value x)
    | split)

theorem State.rehull_keeps {P : State → Prop} (hP : Closed 544512 P) {slice : Nat} {n : PageName} {s : State}  (h0 : P s) :
    P (State.rehull slice n s) := by
  unfold State.rehull
  repeat' (first
    | with_reducible assumption
    | with_reducible refine State.writeHull_keeps (hP.mono rfl) ?_
    | with_reducible refine keep_foldl (fun _ _ _ => ?_) ?_
    | with_reducible refine keep_foldl_snd (fun _ _ _ _ => ?_) ?_
    | exact fun _ => rfl
    | exact fun _ h => h
    | split)

theorem State.recovered_keeps {P : State → Prop} (hP : Closed 2674672 P) {slice : Nat} {n : PageName} {f : Fill} {img : PageImage} {s : State}  (h0 : P s) :
    P (State.recovered slice n f img s) := by
  unfold State.recovered
  repeat' (first
    | with_reducible assumption
    | with_reducible refine State.fillStale_keeps (hP.mono rfl) ?_
    | with_reducible refine State.revokeGrants_keeps (hP.mono rfl) ?_
    | with_reducible refine State.onFill_keeps (hP.mono rfl) ?_
    | with_reducible refine State.askNext_keeps (hP.mono rfl) ?_
    | with_reducible refine State.allocFrame_keeps (hP.mono rfl) ?_
    | with_reducible refine State.allocFrame_some (hP.mono rfl) ?_ ‹_›
    | with_reducible refine State.retireUnit_keeps (hP.mono rfl) ?_
    | with_reducible refine State.retireExtent_keeps (hP.mono rfl) ?_
    | with_reducible refine State.retireShadow_keeps (hP.mono rfl) ?_
    | with_reducible refine State.writeImage_keeps (hP.mono rfl) ?_
    | with_reducible refine State.onEntry_keeps (hP.mono rfl) ?_
    | with_reducible refine State.bumpGen_keeps (hP.mono rfl) ?_
    | with_reducible refine State.countTier_keeps (hP.mono rfl) ?_
    | with_reducible refine State.landed_keeps (hP.mono rfl) ?_
    | with_reducible refine State.rehull_keeps (hP.mono rfl) ?_
    | with_reducible refine keep_foldl (fun _ _ _ => ?_) ?_
    | with_reducible refine keep_foldl_snd (fun _ _ _ _ => ?_) ?_
    | exact fun _ => rfl
    | exact fun _ h => h
    | (extract_lets +onlyGivenNames x; refine keep_cut (P x) ?_ (fun _ => ?_); unfold x; clear x; rotate_left; clear_value x)
    | (extract_lets +onlyGivenNames x; refine keep_cut (P x.2) ?_ (fun _ => ?_); unfold x; clear x; rotate_left; clear_value x)
    | (extract_lets +onlyGivenNames x; clear_value x)
    | split)

theorem State.placeFills_keeps {P : State → Prop} (hP : Closed 2674672 P) {s : State}  (h0 : P s) :
    P (State.placeFills s) := by
  unfold State.placeFills
  repeat' (first
    | with_reducible assumption
    | with_reducible refine State.placeFill_keeps (hP.mono rfl) ?_
    | with_reducible refine State.recovered_keeps (hP.mono rfl) ?_
    | with_reducible refine keep_foldl (fun _ _ _ => ?_) ?_
    | with_reducible refine keep_foldl_snd (fun _ _ _ _ => ?_) ?_
    | exact fun _ => rfl
    | exact fun _ h => h
    | split)

theorem State.advanceEpoch_keeps {P : State → Prop} (hP : Closed 2674672 P) {q : Nat} {s : State}  (h0 : P s) :
    P (State.advanceEpoch q s) := by
  unfold State.advanceEpoch
  repeat' (first
    | with_reducible assumption
    | with_reducible refine hP.mem rfl _ _ ?_ ?_ ?_
    | with_reducible refine State.retire_keeps (hP.mono rfl) ?_
    | with_reducible refine State.freeRetired_keeps (hP.mono rfl) ?_
    | with_reducible refine State.reclaimOn_keeps (hP.mono rfl) ?_
    | with_reducible refine State.placeFills_keeps (hP.mono rfl) ?_
    | with_reducible refine keep_foldl (fun _ _ _ => ?_) ?_
    | with_reducible refine keep_foldl_snd (fun _ _ _ _ => ?_) ?_
    | exact fun _ => rfl
    | exact fun _ h => h
    | (extract_lets +onlyGivenNames x; refine keep_cut (P x) ?_ (fun _ => ?_); unfold x; clear x; rotate_left; clear_value x)
    | (extract_lets +onlyGivenNames x; refine keep_cut (P x.2) ?_ (fun _ => ?_); unfold x; clear x; rotate_left; clear_value x)
    | (extract_lets +onlyGivenNames x; clear_value x)
    | split)

theorem execReclaimEpochAdvance_keeps {P : State → Prop} (hP : Closed 2674672 P) {quarter : Fin 4} {s : State}  (h0 : P s) {t0 : State}
    (e : execReclaimEpochAdvance quarter s = .next t0) : P t0 := by
  unfold execReclaimEpochAdvance at e
  cases e
  repeat' (first
    | with_reducible assumption
    | with_reducible refine State.whenUp_keeps (hP.mono rfl) (fun _ _ => ?_) ?_
    | with_reducible refine State.advanceEpoch_keeps (hP.mono rfl) ?_
    | with_reducible refine keep_foldl (fun _ _ _ => ?_) ?_
    | with_reducible refine keep_foldl_snd (fun _ _ _ _ => ?_) ?_
    | exact fun _ => rfl
    | exact fun _ h => h
    | split)

theorem execReclamation_keeps {P : State → Prop} (hP : Closed 2674672 P) {slice : Fin 8} {stack : Option (Fin 8)} {s : State}  (h0 : P s) {t0 : State}
    (e : execReclamation slice stack s = .next t0) : P t0 := by
  unfold execReclamation at e
  cases e
  repeat' (first
    | with_reducible assumption
    | with_reducible refine State.whenUp_keeps (hP.mono rfl) (fun _ _ => ?_) ?_
    | with_reducible refine State.startReclaim_keeps (hP.mono rfl) ?_
    | with_reducible refine State.reclaimOn_keeps (hP.mono rfl) ?_
    | with_reducible refine State.placeFills_keeps (hP.mono rfl) ?_
    | with_reducible refine keep_foldl (fun _ _ _ => ?_) ?_
    | with_reducible refine keep_foldl_snd (fun _ _ _ _ => ?_) ?_
    | exact fun _ => rfl
    | exact fun _ h => h
    | split)

theorem State.demotionDone_keeps {P : State → Prop} (hP : Closed 2641792 P) {slice : Nat} {n : PageName} {s : State}  (h0 : P s) :
    P (State.demotionDone slice n s) := by
  unfold State.demotionDone
  repeat' (first
    | with_reducible assumption
    | with_reducible refine State.refresh_keeps (hP.mono rfl) ?_
    | with_reducible refine State.beginMove_keeps (hP.mono rfl) ?_
    | with_reducible refine State.storeImage_keeps (hP.mono rfl) ?_
    | with_reducible refine State.takeStack_keeps (hP.mono rfl) ?_
    | with_reducible refine State.readFrame_keeps (hP.mono rfl) ?_
    | with_reducible refine State.onEntry_keeps (hP.mono rfl) ?_
    | with_reducible refine State.bumpGen_keeps (hP.mono rfl) ?_
    | with_reducible refine State.countTier_keeps (hP.mono rfl) ?_
    | with_reducible refine keep_foldl (fun _ _ _ => ?_) ?_
    | with_reducible refine keep_foldl_snd (fun _ _ _ _ => ?_) ?_
    | exact fun _ => rfl
    | exact fun _ h => h
    | (extract_lets +onlyGivenNames x; refine keep_cut (P x) ?_ (fun _ => ?_); unfold x; clear x; rotate_left; clear_value x)
    | (extract_lets +onlyGivenNames x; refine keep_cut (P x.2) ?_ (fun _ => ?_); unfold x; clear x; rotate_left; clear_value x)
    | (extract_lets +onlyGivenNames x; clear_value x)
    | split)

theorem execDemotionComplete_keeps {P : State → Prop} (hP : Closed 2674672 P) {slice : Fin 8} {name : PageName} {s : State}  (h0 : P s) {t0 : State}
    (e : execDemotionComplete slice name s = .next t0) : P t0 := by
  unfold execDemotionComplete at e
  cases e
  repeat' (first
    | with_reducible assumption
    | with_reducible refine State.whenUp_keeps (hP.mono rfl) (fun _ _ => ?_) ?_
    | with_reducible refine State.demotionDone_keeps (hP.mono rfl) ?_
    | with_reducible refine State.reclaimOn_keeps (hP.mono rfl) ?_
    | with_reducible refine State.placeFills_keeps (hP.mono rfl) ?_
    | with_reducible refine keep_foldl (fun _ _ _ => ?_) ?_
    | with_reducible refine keep_foldl_snd (fun _ _ _ _ => ?_) ?_
    | exact fun _ => rfl
    | exact fun _ h => h
    | split)

theorem State.doMove_keeps {P : State → Prop} (hP : Closed 2936816 P) {m : PageMove} {s : State}  (h0 : P s) :
    P (State.doMove m s) := by
  unfold State.doMove
  repeat' (first
    | with_reducible assumption
    | with_reducible refine OnSome.getD (State.demote_keeps (hP.mono rfl) ?_) ?_
    | with_reducible refine State.refresh_keeps (hP.mono rfl) ?_
    | with_reducible refine State.releaseFrame_keeps (hP.mono rfl) ?_
    | with_reducible refine State.demote_keeps (hP.mono rfl) ?_
    | with_reducible refine State.demote_some (hP.mono rfl) ?_ ‹_›
    | with_reducible refine State.demotionDone_keeps (hP.mono rfl) ?_
    | with_reducible refine State.fillLand_keeps (hP.mono rfl) ?_
    | with_reducible refine State.applyWaits_keeps (hP.mono rfl) ?_
    | with_reducible refine keep_foldl (fun _ _ _ => ?_) ?_
    | with_reducible refine keep_foldl_snd (fun _ _ _ _ => ?_) ?_
    | exact fun _ => rfl
    | exact fun _ h => h
    | (extract_lets +onlyGivenNames x; refine keep_cut (P x) ?_ (fun _ => ?_); unfold x; clear x; rotate_left; clear_value x)
    | (extract_lets +onlyGivenNames x; refine keep_cut (P x.2) ?_ (fun _ => ?_); unfold x; clear x; rotate_left; clear_value x)
    | (extract_lets +onlyGivenNames x; clear_value x)
    | split)

theorem State.runMoves_keeps {P : State → Prop} (hP : Closed 2936816 P) {slice : Nat} {n : PageName} {s : State}  (h0 : P s) :
    P (State.runMoves slice n s) := by
  unfold State.runMoves
  repeat' (first
    | with_reducible assumption
    | with_reducible refine hP.home rfl _ _ ?_
    | with_reducible refine State.doMove_keeps (hP.mono rfl) ?_
    | with_reducible refine State.placeFills_keeps (hP.mono rfl) ?_
    | with_reducible refine keep_foldl (fun _ _ _ => ?_) ?_
    | with_reducible refine keep_foldl_snd (fun _ _ _ _ => ?_) ?_
    | exact fun _ => rfl
    | exact fun _ h => h
    | (extract_lets +onlyGivenNames x; refine keep_cut (P x) ?_ (fun _ => ?_); unfold x; clear x; rotate_left; clear_value x)
    | (extract_lets +onlyGivenNames x; refine keep_cut (P x.2) ?_ (fun _ => ?_); unfold x; clear x; rotate_left; clear_value x)
    | (extract_lets +onlyGivenNames x; clear_value x)
    | split)

theorem execFillLand_keeps {P : State → Prop} (hP : Closed 2936816 P) {slice : Fin 8} {name : PageName} {s : State}  (h0 : P s) {t0 : State}
    (e : execFillLand slice name s = .next t0) : P t0 := by
  unfold execFillLand at e
  cases e
  repeat' (first
    | with_reducible assumption
    | with_reducible refine State.whenUp_keeps (hP.mono rfl) (fun _ _ => ?_) ?_
    | with_reducible refine State.fillLand_keeps (hP.mono rfl) ?_
    | with_reducible refine keep_foldl (fun _ _ _ => ?_) ?_
    | with_reducible refine keep_foldl_snd (fun _ _ _ _ => ?_) ?_
    | exact fun _ => rfl
    | exact fun _ h => h
    | split)

theorem State.fillTimeout_keeps {P : State → Prop} (hP : Closed 2674672 P) {slice : Nat} {n : PageName} {s : State}  (h0 : P s) :
    P (State.fillTimeout slice n s) := by
  unfold State.fillTimeout
  repeat' (first
    | with_reducible assumption
    | with_reducible refine State.placeFills_keeps (hP.mono rfl) ?_
    | with_reducible refine State.endFill_keeps (hP.mono rfl) ?_
    | with_reducible refine State.writeSlots_keeps (hP.mono rfl) ?_
    | with_reducible refine State.tellFate_keeps (hP.mono rfl) ?_
    | with_reducible refine keep_foldl (fun _ _ _ => ?_) ?_
    | with_reducible refine keep_foldl_snd (fun _ _ _ _ => ?_) ?_
    | exact fun _ => rfl
    | exact fun _ h => h
    | (extract_lets +onlyGivenNames x; refine keep_cut (P x) ?_ (fun _ => ?_); unfold x; clear x; rotate_left; clear_value x)
    | (extract_lets +onlyGivenNames x; refine keep_cut (P x.2) ?_ (fun _ => ?_); unfold x; clear x; rotate_left; clear_value x)
    | (extract_lets +onlyGivenNames x; clear_value x)
    | split)

theorem execFillAllocTimeout_keeps {P : State → Prop} (hP : Closed 2674672 P) {slice : Fin 8} {name : PageName} {s : State}  (h0 : P s) {t0 : State}
    (e : execFillAllocTimeout slice name s = .next t0) : P t0 := by
  unfold execFillAllocTimeout at e
  cases e
  repeat' (first
    | with_reducible assumption
    | with_reducible refine State.whenUp_keeps (hP.mono rfl) (fun _ _ => ?_) ?_
    | with_reducible refine State.fillTimeout_keeps (hP.mono rfl) ?_
    | with_reducible refine keep_foldl (fun _ _ _ => ?_) ?_
    | with_reducible refine keep_foldl_snd (fun _ _ _ _ => ?_) ?_
    | exact fun _ => rfl
    | exact fun _ h => h
    | split)

theorem State.writeFailed_keeps {P : State → Prop} (hP : Closed 526976 P) {d : Nat} {c : NvmeCmd} {s : State}  (h0 : P s) :
    P (State.writeFailed d c s) := by
  unfold State.writeFailed
  repeat' (first
    | with_reducible assumption
    | with_reducible refine State.dropCmds_keeps (hP.mono rfl) ?_
    | with_reducible refine State.retireShadow_keeps (hP.mono rfl) ?_
    | with_reducible refine State.onEntry_keeps (hP.mono rfl) ?_
    | with_reducible refine State.retireExtent_keeps (hP.mono rfl) ?_
    | with_reducible refine State.allocExtent_keeps (hP.mono rfl) ?_
    | with_reducible refine State.allocExtent_some (hP.mono rfl) ?_ ‹_›
    | with_reducible refine State.addCmds_keeps (hP.mono rfl) ?_
    | with_reducible refine keep_foldl (fun _ _ _ => ?_) ?_
    | with_reducible refine keep_foldl_snd (fun _ _ _ _ => ?_) ?_
    | exact fun _ => rfl
    | exact fun _ h => h
    | (extract_lets +onlyGivenNames x; refine keep_cut (P x) ?_ (fun _ => ?_); unfold x; clear x; rotate_left; clear_value x)
    | (extract_lets +onlyGivenNames x; refine keep_cut (P x.2) ?_ (fun _ => ?_); unfold x; clear x; rotate_left; clear_value x)
    | (extract_lets +onlyGivenNames x; refine keep_cut (∀ a, P a → P (x a)) ?_ (fun kx => ?_); unfold x; clear x; intro _ _; beta_reduce; rotate_left; clear_value x)
    | with_reducible refine kx _ ?_
    | (extract_lets +onlyGivenNames x; clear_value x)
    | split)

theorem State.mediaError_keeps {P : State → Prop} (hP : Closed 2674672 P) {d id : Nat} {c : NvmeCmd} {cause st : Nat} {s : State}  (h0 : P s) :
    P (State.mediaError d id c cause st s) := by
  unfold State.mediaError
  repeat' (first
    | with_reducible assumption
    | with_reducible refine State.onDrive_keeps (hP.mono rfl) ?_ ?_
    | with_reducible refine State.writeFailed_keeps (hP.mono rfl) ?_
    | with_reducible refine State.dropCmds_keeps (hP.mono rfl) ?_
    | with_reducible refine State.startRecovery_keeps (hP.mono rfl) ?_
    | with_reducible refine keep_foldl (fun _ _ _ => ?_) ?_
    | with_reducible refine keep_foldl_snd (fun _ _ _ _ => ?_) ?_
    | exact fun _ => rfl
    | exact fun _ h => h
    | (extract_lets +onlyGivenNames x; refine keep_cut (P x) ?_ (fun _ => ?_); unfold x; clear x; rotate_left; clear_value x)
    | (extract_lets +onlyGivenNames x; refine keep_cut (P x.2) ?_ (fun _ => ?_); unfold x; clear x; rotate_left; clear_value x)
    | (extract_lets +onlyGivenNames x; clear_value x)
    | split)

theorem State.reissue_keeps {P : State → Prop} (hP : Closed 2674672 P) {d id : Nat} {c : NvmeCmd} {cause : Nat} {s : State}  (h0 : P s) :
    P (State.reissue d id c cause s) := by
  unfold State.reissue
  repeat' (first
    | with_reducible assumption
    | with_reducible refine State.mediaError_keeps (hP.mono rfl) ?_
    | with_reducible refine State.onDrive_keeps (hP.mono rfl) ?_ ?_
    | with_reducible refine State.issueAll_keeps (hP.mono rfl) ?_
    | with_reducible refine keep_foldl (fun _ _ _ => ?_) ?_
    | with_reducible refine keep_foldl_snd (fun _ _ _ _ => ?_) ?_
    | exact fun _ => rfl
    | exact fun _ h => h
    | split)

theorem State.nvmeDone_keeps {P : State → Prop} (hP : Closed 2936816 P) {d id : Nat} {st : NvmeStatus} {s : State}  (h0 : P s) :
    P (State.nvmeDone d id st s) := by
  unfold State.nvmeDone
  repeat' (first
    | with_reducible assumption
    | with_reducible refine hP.free rfl _ ?_
    | with_reducible refine State.onDrive_keeps (hP.mono rfl) ?_ ?_
    | with_reducible refine State.issueAll_keeps (hP.mono rfl) ?_
    | with_reducible refine State.reissue_keeps (hP.mono rfl) ?_
    | with_reducible refine State.mediaError_keeps (hP.mono rfl) ?_
    | with_reducible refine State.failDrive_keeps (hP.mono rfl) ?_
    | with_reducible refine keep_foldl (fun _ _ _ => ?_) ?_
    | with_reducible refine keep_foldl_snd (fun _ _ _ _ => ?_) ?_
    | exact fun _ => rfl
    | exact fun _ h => h
    | (extract_lets +onlyGivenNames x; refine keep_cut (P x) ?_ (fun _ => ?_); unfold x; clear x; rotate_left; clear_value x)
    | (extract_lets +onlyGivenNames x; refine keep_cut (P x.2) ?_ (fun _ => ?_); unfold x; clear x; rotate_left; clear_value x)
    | (extract_lets +onlyGivenNames x; clear_value x)
    | split)

theorem execNvmeCompletion_keeps {P : State → Prop} (hP : Closed 2936816 P) {drive : Fin 16} {cmd : Nat} {status : NvmeStatus} {s : State}  (h0 : P s) {t0 : State}
    (e : execNvmeCompletion drive cmd status s = .next t0) : P t0 := by
  unfold execNvmeCompletion at e
  cases e
  repeat' (first
    | with_reducible assumption
    | with_reducible refine State.whenUp_keeps (hP.mono rfl) (fun _ _ => ?_) ?_
    | with_reducible refine State.nvmeDone_keeps (hP.mono rfl) ?_
    | with_reducible refine keep_foldl (fun _ _ _ => ?_) ?_
    | with_reducible refine keep_foldl_snd (fun _ _ _ _ => ?_) ?_
    | exact fun _ => rfl
    | exact fun _ h => h
    | split)

theorem State.nvmeTimeout_keeps {P : State → Prop} (hP : Closed 2674672 P) {d id : Nat} {s : State}  (h0 : P s) :
    P (State.nvmeTimeout d id s) := by
  unfold State.nvmeTimeout
  repeat' (first
    | with_reducible assumption
    | with_reducible refine State.onDrive_keeps (hP.mono rfl) ?_ ?_
    | with_reducible refine State.failDrive_keeps (hP.mono rfl) ?_
    | with_reducible refine State.reissue_keeps (hP.mono rfl) ?_
    | with_reducible refine keep_foldl (fun _ _ _ => ?_) ?_
    | with_reducible refine keep_foldl_snd (fun _ _ _ _ => ?_) ?_
    | exact fun _ => rfl
    | exact fun _ h => h
    | (extract_lets +onlyGivenNames x; refine keep_cut (P x) ?_ (fun _ => ?_); unfold x; clear x; rotate_left; clear_value x)
    | (extract_lets +onlyGivenNames x; refine keep_cut (P x.2) ?_ (fun _ => ?_); unfold x; clear x; rotate_left; clear_value x)
    | (extract_lets +onlyGivenNames x; clear_value x)
    | split)

theorem execNvmeTimeout_keeps {P : State → Prop} (hP : Closed 2674672 P) {drive : Fin 16} {cmd : Nat} {s : State}  (h0 : P s) {t0 : State}
    (e : execNvmeTimeout drive cmd s = .next t0) : P t0 := by
  unfold execNvmeTimeout at e
  cases e
  repeat' (first
    | with_reducible assumption
    | with_reducible refine State.whenUp_keeps (hP.mono rfl) (fun _ _ => ?_) ?_
    | with_reducible refine State.nvmeTimeout_keeps (hP.mono rfl) ?_
    | with_reducible refine keep_foldl (fun _ _ _ => ?_) ?_
    | with_reducible refine keep_foldl_snd (fun _ _ _ _ => ?_) ?_
    | exact fun _ => rfl
    | exact fun _ h => h
    | split)

theorem execDriveFailed_keeps {P : State → Prop} (hP : Closed 2674672 P) {drive : Fin 16} {s : State}  (h0 : P s) {t0 : State}
    (e : execDriveFailed drive s = .next t0) : P t0 := by
  unfold execDriveFailed at e
  cases e
  repeat' (first
    | with_reducible assumption
    | with_reducible refine State.whenUp_keeps (hP.mono rfl) (fun _ _ => ?_) ?_
    | with_reducible refine State.failDrive_keeps (hP.mono rfl) ?_
    | with_reducible refine keep_foldl (fun _ _ _ => ?_) ?_
    | with_reducible refine keep_foldl_snd (fun _ _ _ _ => ?_) ?_
    | exact fun _ => rfl
    | exact fun _ h => h
    | split)

theorem State.flushBitmap_keeps {P : State → Prop} (hP : Closed 524800 P) {d b : Nat} {s : State}  (h0 : P s) :
    P (State.flushBitmap d b s) := by
  unfold State.flushBitmap
  repeat' (first
    | with_reducible assumption
    | with_reducible refine State.onDrive_keeps (hP.mono rfl) ?_ ?_
    | with_reducible refine State.issueAll_keeps (hP.mono rfl) ?_
    | with_reducible refine keep_foldl (fun _ _ _ => ?_) ?_
    | with_reducible refine keep_foldl_snd (fun _ _ _ _ => ?_) ?_
    | exact fun _ => rfl
    | exact fun _ h => h
    | split)

theorem execBitmapFlush_keeps {P : State → Prop} (hP : Closed 524800 P) {drive : Fin 16} {block : Nat} {s : State}  (h0 : P s) {t0 : State}
    (e : execBitmapFlush drive block s = .next t0) : P t0 := by
  unfold execBitmapFlush at e
  cases e
  repeat' (first
    | with_reducible assumption
    | with_reducible refine State.whenUp_keeps (hP.mono rfl) (fun _ _ => ?_) ?_
    | with_reducible refine State.flushBitmap_keeps (hP.mono rfl) ?_
    | with_reducible refine keep_foldl (fun _ _ _ => ?_) ?_
    | with_reducible refine keep_foldl_snd (fun _ _ _ _ => ?_) ?_
    | exact fun _ => rfl
    | exact fun _ h => h
    | split)

theorem State.recoveryWait_keeps {P : State → Prop} (hP : Closed 2674672 P) {slice : Nat} {n : PageName} {copy : Option PageImage} {s : State}  (h0 : P s) :
    P (State.recoveryWait slice n copy s) := by
  unfold State.recoveryWait
  repeat' (first
    | with_reducible assumption
    | with_reducible refine State.recovered_keeps (hP.mono rfl) ?_
    | with_reducible refine State.fillStale_keeps (hP.mono rfl) ?_
    | with_reducible refine State.askNext_keeps (hP.mono rfl) ?_
    | with_reducible refine keep_foldl (fun _ _ _ => ?_) ?_
    | with_reducible refine keep_foldl_snd (fun _ _ _ _ => ?_) ?_
    | exact fun _ => rfl
    | exact fun _ h => h
    | split)

theorem execReplicaRecoveryWait_keeps {P : State → Prop} (hP : Closed 2674672 P) {slice : Fin 8} {name : PageName} {copy : Option PageImage} {s : State}  (h0 : P s) {t0 : State}
    (e : execReplicaRecoveryWait slice name copy s = .next t0) : P t0 := by
  unfold execReplicaRecoveryWait at e
  cases e
  repeat' (first
    | with_reducible assumption
    | with_reducible refine State.whenUp_keeps (hP.mono rfl) (fun _ _ => ?_) ?_
    | with_reducible refine State.recoveryWait_keeps (hP.mono rfl) ?_
    | with_reducible refine keep_foldl (fun _ _ _ => ?_) ?_
    | with_reducible refine keep_foldl_snd (fun _ _ _ _ => ?_) ?_
    | exact fun _ => rfl
    | exact fun _ h => h
    | split)

theorem State.onCopy_keeps {P : State → Prop} (hP : Closed 2048 P) {slice : Nat} {n : PageName} {node : Nat} {f : CopyS → CopyS} {s : State}  (h0 : P s) :
    P (State.onCopy slice n node f s) := by
  unfold State.onCopy
  repeat' (first
    | with_reducible assumption
    | with_reducible refine State.onReplica_keeps (hP.mono rfl) ?_
    | with_reducible refine keep_foldl (fun _ _ _ => ?_) ?_
    | with_reducible refine keep_foldl_snd (fun _ _ _ _ => ?_) ?_
    | split)

theorem State.repeatCopy_keeps {P : State → Prop} (hP : Closed 2641792 P) {slice : Nat} {n : PageName} {node : Nat} {s : State}  (h0 : P s) :
    P (State.repeatCopy slice n node s) := by
  unfold State.repeatCopy
  repeat' (first
    | with_reducible assumption
    | with_reducible refine State.refresh_keeps (hP.mono rfl) ?_
    | with_reducible refine State.sendCopy_keeps (hP.mono rfl) ?_
    | with_reducible refine keep_foldl (fun _ _ _ => ?_) ?_
    | with_reducible refine keep_foldl_snd (fun _ _ _ _ => ?_) ?_
    | exact fun _ => rfl
    | exact fun _ h => h
    | split)

theorem execReplicaCopyRepeat_keeps {P : State → Prop} (hP : Closed 2641792 P) {slice : Fin 8} {name : PageName} {node : Nat} {s : State}  (h0 : P s) {t0 : State}
    (e : execReplicaCopyRepeat slice name node s = .next t0) : P t0 := by
  unfold execReplicaCopyRepeat at e
  cases e
  repeat' (first
    | with_reducible assumption
    | with_reducible refine State.whenUp_keeps (hP.mono rfl) (fun _ _ => ?_) ?_
    | with_reducible refine State.repeatCopy_keeps (hP.mono rfl) ?_
    | with_reducible refine keep_foldl (fun _ _ _ => ?_) ?_
    | with_reducible refine keep_foldl_snd (fun _ _ _ _ => ?_) ?_
    | exact fun _ => rfl
    | exact fun _ h => h
    | split)

theorem State.grantCopy_keeps {P : State → Prop} (hP : Closed 2099200 P) {slice : Nat} {n : PageName} {node : Nat} {s : State}  (h0 : P s) :
    P (State.grantCopy slice n node s) := by
  unfold State.grantCopy
  repeat' (first
    | with_reducible assumption
    | with_reducible refine hP.link rfl _ _ (fun _ _ h => h) ?_
    | with_reducible refine State.onCopy_keeps (hP.mono rfl) ?_
    | with_reducible refine keep_foldl (fun _ _ _ => ?_) ?_
    | with_reducible refine keep_foldl_snd (fun _ _ _ _ => ?_) ?_
    | split)

theorem execGrantRenew_keeps {P : State → Prop} (hP : Closed 2099200 P) {slice : Fin 8} {name : PageName} {node : Nat} {s : State}  (h0 : P s) {t0 : State}
    (e : execGrantRenew slice name node s = .next t0) : P t0 := by
  unfold execGrantRenew at e
  cases e
  repeat' (first
    | with_reducible assumption
    | with_reducible refine State.whenUp_keeps (hP.mono rfl) (fun _ _ => ?_) ?_
    | with_reducible refine State.grantCopy_keeps (hP.mono rfl) ?_
    | with_reducible refine keep_foldl (fun _ _ _ => ?_) ?_
    | with_reducible refine keep_foldl_snd (fun _ _ _ _ => ?_) ?_
    | split)

theorem State.grantsMoved_keeps {P : State → Prop} (hP : Closed 3002352 P) {slice : Nat} {n : PageName} {s : State}  (h0 : P s) :
    P (State.grantsMoved slice n s) := by
  unfold State.grantsMoved
  repeat' (first
    | with_reducible assumption
    | with_reducible refine State.runMoves_keeps (hP.mono rfl) ?_
    | with_reducible refine State.readmitHeld_keeps (hP.mono rfl) ?_
    | with_reducible refine State.askNext_keeps (hP.mono rfl) ?_
    | with_reducible refine keep_foldl (fun _ _ _ => ?_) ?_
    | with_reducible refine keep_foldl_snd (fun _ _ _ _ => ?_) ?_
    | exact fun _ => rfl
    | exact fun _ h => h
    | (extract_lets +onlyGivenNames x; refine keep_cut (P x) ?_ (fun _ => ?_); unfold x; clear x; rotate_left; clear_value x)
    | (extract_lets +onlyGivenNames x; refine keep_cut (P x.2) ?_ (fun _ => ?_); unfold x; clear x; rotate_left; clear_value x)
    | (extract_lets +onlyGivenNames x; clear_value x)
    | split)

theorem State.lapse_keeps {P : State → Prop} (hP : Closed 3002352 P) {slice : Nat} {n : PageName} {node : Nat} {s : State}  (h0 : P s) :
    P (State.lapse slice n node s) := by
  unfold State.lapse
  repeat' (first
    | with_reducible assumption
    | with_reducible refine hP.home rfl _ _ ?_
    | with_reducible refine State.onCopy_keeps (hP.mono rfl) ?_
    | with_reducible refine State.grantsMoved_keeps (hP.mono rfl) ?_
    | with_reducible refine keep_foldl (fun _ _ _ => ?_) ?_
    | with_reducible refine keep_foldl_snd (fun _ _ _ _ => ?_) ?_
    | exact fun _ => rfl
    | exact fun _ h => h
    | (extract_lets +onlyGivenNames x; refine keep_cut (P x) ?_ (fun _ => ?_); unfold x; clear x; rotate_left; clear_value x)
    | (extract_lets +onlyGivenNames x; refine keep_cut (P x.2) ?_ (fun _ => ?_); unfold x; clear x; rotate_left; clear_value x)
    | (extract_lets +onlyGivenNames x; clear_value x)
    | split)

theorem execGrantExpire_keeps {P : State → Prop} (hP : Closed 3002352 P) {slice : Fin 8} {name : PageName} {node : Nat} {s : State}  (h0 : P s) {t0 : State}
    (e : execGrantExpire slice name node s = .next t0) : P t0 := by
  unfold execGrantExpire at e
  cases e
  repeat' (first
    | with_reducible assumption
    | with_reducible refine State.whenUp_keeps (hP.mono rfl) (fun _ _ => ?_) ?_
    | with_reducible refine State.lapse_keeps (hP.mono rfl) ?_
    | with_reducible refine keep_foldl (fun _ _ _ => ?_) ?_
    | with_reducible refine keep_foldl_snd (fun _ _ _ _ => ?_) ?_
    | exact fun _ => rfl
    | exact fun _ h => h
    | split)

theorem State.expireStream_keeps {P : State → Prop} (hP : Closed 2048 P) {q slice handle group : Nat} {s : State}  (h0 : P s) :
    P (State.expireStream q slice handle group s) := by
  unfold State.expireStream
  repeat' (first
    | with_reducible assumption
    | with_reducible refine hP.home rfl _ _ ?_
    | with_reducible refine keep_foldl (fun _ _ _ => ?_) ?_
    | with_reducible refine keep_foldl_snd (fun _ _ _ _ => ?_) ?_
    | split)

theorem execStreamEntryExpire_keeps {P : State → Prop} (hP : Closed 2048 P) {quarter : Fin 4} {slice : Fin 8} {handle group : Nat} {s : State}  (h0 : P s) {t0 : State}
    (e : execStreamEntryExpire quarter slice handle group s = .next t0) : P t0 := by
  unfold execStreamEntryExpire at e
  cases e
  repeat' (first
    | with_reducible assumption
    | with_reducible refine State.whenUp_keeps (hP.mono rfl) (fun _ _ => ?_) ?_
    | with_reducible refine State.expireStream_keeps (hP.mono rfl) ?_
    | with_reducible refine keep_foldl (fun _ _ _ => ?_) ?_
    | with_reducible refine keep_foldl_snd (fun _ _ _ _ => ?_) ?_
    | split)

theorem execRegionFence_keeps {P : State → Prop} (hP : Closed 2949107 P) {region : Fin 8} {cause : Fin 5} {island : Fin 3} {s : State}  (h0 : P s) {t0 : State}
    (e : execRegionFence region cause island s = .next t0) : P t0 := by
  unfold execRegionFence at e
  cases e
  repeat' (first
    | with_reducible assumption
    | with_reducible refine State.whenUp_keeps (hP.mono rfl) (fun _ _ => ?_) ?_
    | with_reducible refine State.settle_keeps (hP.mono rfl) ?_
    | with_reducible refine State.fenceRegion_keeps (hP.mono rfl) ?_
    | with_reducible refine State.fenceNear_keeps (hP.mono rfl) ?_
    | with_reducible refine keep_foldl (fun _ _ _ => ?_) ?_
    | with_reducible refine keep_foldl_snd (fun _ _ _ _ => ?_) ?_
    | exact fun _ => rfl
    | exact fun _ h => h
    | split)

theorem State.fenceSweep_keeps {P : State → Prop} (hP : Closed 2678768 P) {q : Nat} {s : State}  (h0 : P s) :
    P (State.fenceSweep q s) := by
  unfold State.fenceSweep
  repeat' (first
    | with_reducible assumption
    | with_reducible refine State.refresh_keeps (hP.mono rfl) ?_
    | with_reducible refine State.awaitPage_keeps (hP.mono rfl) ?_
    | with_reducible refine State.sweepLocus_keeps (hP.mono rfl) ?_
    | with_reducible refine keep_foldl (fun _ _ _ => ?_) ?_
    | with_reducible refine keep_foldl_snd (fun _ _ _ _ => ?_) ?_
    | exact fun _ => rfl
    | exact fun _ h => h
    | (extract_lets +onlyGivenNames x; refine keep_cut (P x) ?_ (fun _ => ?_); unfold x; clear x; rotate_left; clear_value x)
    | (extract_lets +onlyGivenNames x; refine keep_cut (P x.2) ?_ (fun _ => ?_); unfold x; clear x; rotate_left; clear_value x)
    | (extract_lets +onlyGivenNames x; clear_value x)
    | split)

theorem execFenceSweep_keeps {P : State → Prop} (hP : Closed 2678768 P) {quarter : Fin 4} {s : State}  (h0 : P s) {t0 : State}
    (e : execFenceSweep quarter s = .next t0) : P t0 := by
  unfold execFenceSweep at e
  cases e
  repeat' (first
    | with_reducible assumption
    | with_reducible refine State.whenUp_keeps (hP.mono rfl) (fun _ _ => ?_) ?_
    | with_reducible refine State.fenceSweep_keeps (hP.mono rfl) ?_
    | with_reducible refine keep_foldl (fun _ _ _ => ?_) ?_
    | with_reducible refine keep_foldl_snd (fun _ _ _ _ => ?_) ?_
    | exact fun _ => rfl
    | exact fun _ h => h
    | split)

end Sys2Proof.Machine
end

