-- ==== Sys2Proof/Laws/KeepMaps.lean ====
section
/-! SUPPORT. What the operations of Machine/Maps.lean touch: each keeps every predicate that is closed under the parts named. -/

namespace Sys2Proof.Machine

set_option linter.unusedTactic false
set_option linter.unreachableTactic false
set_option linter.unusedVariables false
set_option linter.tactic.unusedName false

theorem State.forgetNames_keeps {P : State → Prop} (hP : Closed 2645888 P) {slice : Nat} {seq root : Nat → Bool} {s : State}  (h0 : P s) :
    P (State.forgetNames slice seq root s) := by
  unfold State.forgetNames
  repeat' (first
    | with_reducible assumption
    | with_reducible refine hP.home rfl _ _ ?_
    | with_reducible refine State.unlinkNode_keeps (hP.mono rfl) ?_
    | with_reducible refine State.freeNode_keeps (hP.mono rfl) ?_
    | with_reducible refine State.dropAcc_keeps (hP.mono rfl) ?_
    | with_reducible refine State.discardPage_keeps (hP.mono rfl) ?_
    | with_reducible refine keep_foldl (fun _ _ _ => ?_) ?_
    | with_reducible refine keep_foldl_snd (fun _ _ _ _ => ?_) ?_
    | exact fun _ => rfl
    | exact fun _ h => h
    | (extract_lets +onlyGivenNames x; refine keep_cut (P x) ?_ (fun _ => ?_); unfold x; clear x; rotate_left; clear_value x)
    | (extract_lets +onlyGivenNames x; refine keep_cut (P x.2) ?_ (fun _ => ?_); unfold x; clear x; rotate_left; clear_value x)
    | (extract_lets +onlyGivenNames x; clear_value x)
    | split)

theorem State.endMoving_keeps {P : State → Prop} (hP : Closed 2656960 P) {p m : RouteMap} {s : State}  (h0 : P s) :
    P (State.endMoving p m s) := by
  unfold State.endMoving
  repeat' (first
    | with_reducible assumption
    | with_reducible refine State.endLeases_keeps (hP.mono rfl) ?_
    | with_reducible refine keep_foldl (fun _ _ _ => ?_) ?_
    | with_reducible refine keep_foldl_snd (fun _ _ _ _ => ?_) ?_
    | exact fun _ => rfl
    | exact fun _ h => h
    | split)

theorem State.tellPeer_keeps {P : State → Prop} (hP : Closed 2097152 P) {b : TxBody} {s : State}  (h0 : P s) :
    P (State.tellPeer b s) := by
  unfold State.tellPeer
  repeat' (first
    | with_reducible assumption
    | with_reducible refine hP.link rfl _ _ (fun _ _ h => h) ?_
    | with_reducible refine keep_foldl (fun _ _ _ => ?_) ?_
    | with_reducible refine keep_foldl_snd (fun _ _ _ _ => ?_) ?_
    | split)

theorem State.sendBuckets_keeps {P : State → Prop} (hP : Closed 2099200 P) {p m : RouteMap} {s : State}  (h0 : P s) :
    P (State.sendBuckets p m s) := by
  unfold State.sendBuckets
  repeat' (first
    | with_reducible assumption
    | with_reducible refine hP.home rfl _ _ ?_
    | with_reducible refine State.tellPeer_keeps (hP.mono rfl) ?_
    | with_reducible refine keep_foldl (fun _ _ _ => ?_) ?_
    | with_reducible refine keep_foldl_snd (fun _ _ _ _ => ?_) ?_
    | (extract_lets +onlyGivenNames x; refine keep_cut (P x) ?_ (fun _ => ?_); unfold x; clear x; rotate_left; clear_value x)
    | (extract_lets +onlyGivenNames x; refine keep_cut (P x.2) ?_ (fun _ => ?_); unfold x; clear x; rotate_left; clear_value x)
    | (extract_lets +onlyGivenNames x; clear_value x)
    | split)

theorem State.sendNames_keeps {P : State → Prop} (hP : Closed 2099200 P) {m : RouteMap} {s : State}  (h0 : P s) :
    P (State.sendNames m s) := by
  unfold State.sendNames
  repeat' (first
    | with_reducible assumption
    | with_reducible refine hP.home rfl _ _ ?_
    | with_reducible refine State.tellPeer_keeps (hP.mono rfl) ?_
    | with_reducible refine keep_foldl (fun _ _ _ => ?_) ?_
    | with_reducible refine keep_foldl_snd (fun _ _ _ _ => ?_) ?_
    | (extract_lets +onlyGivenNames x; refine keep_cut (P x) ?_ (fun _ => ?_); unfold x; clear x; rotate_left; clear_value x)
    | (extract_lets +onlyGivenNames x; refine keep_cut (P x.2) ?_ (fun _ => ?_); unfold x; clear x; rotate_left; clear_value x)
    | (extract_lets +onlyGivenNames x; clear_value x)
    | split)

theorem State.refreshHeld_keeps {P : State → Prop} (hP : Closed 2641792 P) {s : State}  (h0 : P s) :
    P (State.refreshHeld s) := by
  unfold State.refreshHeld
  repeat' (first
    | with_reducible assumption
    | with_reducible refine State.refresh_keeps (hP.mono rfl) ?_
    | with_reducible refine keep_foldl (fun _ _ _ => ?_) ?_
    | with_reducible refine keep_foldl_snd (fun _ _ _ _ => ?_) ?_
    | exact fun _ => rfl
    | exact fun _ h => h
    | split)

theorem State.retireMap_keeps {P : State → Prop} (hP : Closed 2674624 P) {s : State}  (h0 : P s) :
    P (State.retireMap s) := by
  unfold State.retireMap
  repeat' (first
    | with_reducible assumption
    | with_reducible refine hP.home rfl _ _ ?_
    | with_reducible refine State.endMoving_keeps (hP.mono rfl) ?_
    | with_reducible refine State.clearMark_keeps (hP.mono rfl) ?_
    | with_reducible refine State.refreshHeld_keeps (hP.mono rfl) ?_
    | with_reducible refine State.sendBuckets_keeps (hP.mono rfl) ?_
    | with_reducible refine State.sendNames_keeps (hP.mono rfl) ?_
    | with_reducible refine keep_foldl (fun _ _ _ => ?_) ?_
    | with_reducible refine keep_foldl_snd (fun _ _ _ _ => ?_) ?_
    | exact fun _ => rfl
    | exact fun _ h => h
    | (extract_lets +onlyGivenNames x; refine keep_cut (P x) ?_ (fun _ => ?_); unfold x; clear x; rotate_left; clear_value x)
    | (extract_lets +onlyGivenNames x; refine keep_cut (P x.2) ?_ (fun _ => ?_); unfold x; clear x; rotate_left; clear_value x)
    | (extract_lets +onlyGivenNames x; clear_value x)
    | split)

theorem execMapRetire_keeps {P : State → Prop} (hP : Closed 2674624 P) {s : State}  (h0 : P s) {t0 : State}
    (e : execMapRetire s = .next t0) : P t0 := by
  unfold execMapRetire at e
  cases e
  repeat' (first
    | with_reducible assumption
    | with_reducible refine State.whenUp_keeps (hP.mono rfl) (fun _ _ => ?_) ?_
    | with_reducible refine State.settle_keeps (hP.mono rfl) ?_
    | with_reducible refine State.retireMap_keeps (hP.mono rfl) ?_
    | with_reducible refine keep_foldl (fun _ _ _ => ?_) ?_
    | with_reducible refine keep_foldl_snd (fun _ _ _ _ => ?_) ?_
    | exact fun _ => rfl
    | exact fun _ h => h
    | split)

theorem execMapRetire_after {P : State → Prop} (hP : Closed 2674624 P) {s : State} (h0 : P s.settle) (hr : s.running = true) {t0 : State}
    (e : execMapRetire s = .next t0) : P t0 := by
  unfold execMapRetire at e
  cases e
  unfold State.whenUp
  rw [if_pos hr]
  beta_reduce
  repeat' (first
    | with_reducible assumption
    | with_reducible refine State.retireMap_keeps (hP.mono rfl) ?_
    | with_reducible refine keep_foldl (fun _ _ _ => ?_) ?_
    | with_reducible refine keep_foldl_snd (fun _ _ _ _ => ?_) ?_
    | exact fun _ => rfl
    | exact fun _ h => h
    | split)

theorem execDrainWindowClose_keeps {P : State → Prop} (hP : Closed 2048 P) {s : State}  (h0 : P s) {t0 : State}
    (e : execDrainWindowClose s = .next t0) : P t0 := by
  unfold execDrainWindowClose at e
  cases e
  repeat' (first
    | with_reducible assumption
    | with_reducible refine hP.home rfl _ _ ?_
    | with_reducible refine State.whenUp_keeps (hP.mono rfl) (fun _ _ => ?_) ?_
    | with_reducible refine keep_foldl (fun _ _ _ => ?_) ?_
    | with_reducible refine keep_foldl_snd (fun _ _ _ _ => ?_) ?_
    | split)

theorem State.installMap_keeps {P : State → Prop} (hP : Closed 559152 P) {m : RouteMap} {s : State}  (h0 : P s) :
    P (State.installMap m s) := by
  unfold State.installMap
  repeat' (first
    | with_reducible assumption
    | with_reducible refine hP.home rfl _ _ ?_
    | with_reducible refine hP.reqs rfl _ _ (fun t => ?_) ?_
    | with_reducible refine State.logEvent_keeps (hP.mono rfl) ?_
    | with_reducible refine keep_foldl (fun _ _ _ => ?_) ?_
    | with_reducible refine keep_foldl_snd (fun _ _ _ _ => ?_) ?_
    | exact Tbl.keys_erase _ _
    | exact Tbl.keys_modify _ _ _
    | exact Tbl.keys_map (fun _ => rfl)
    | exact Tbl.keys_map (fun p => by split <;> rfl)
    | (extract_lets +onlyGivenNames x; refine keep_cut (P x) ?_ (fun _ => ?_); unfold x; clear x; rotate_left; clear_value x)
    | (extract_lets +onlyGivenNames x; refine keep_cut (P x.2) ?_ (fun _ => ?_); unfold x; clear x; rotate_left; clear_value x)
    | (extract_lets +onlyGivenNames x; clear_value x)
    | split)

theorem State.putPage_keeps {P : State → Prop} (hP : Closed 806656 P) {s : State} {slice : Nat} {p : PageImage}  (h0 : P s) :
    OnSome P (State.putPage s slice p) := by
  unfold State.putPage
  repeat' (first
    | with_reducible assumption
    | with_reducible refine State.newEntry_keeps (hP.mono rfl) ?_
    | with_reducible refine State.newEntry_some (hP.mono rfl) ?_ ‹_›
    | with_reducible refine State.onEntry_keeps (hP.mono rfl) ?_
    | with_reducible refine State.allocFrame_keeps (hP.mono rfl) ?_
    | with_reducible refine State.allocFrame_some (hP.mono rfl) ?_ ‹_›
    | with_reducible refine State.writeImage_keeps (hP.mono rfl) ?_
    | with_reducible refine State.hullFrom_keeps (hP.mono rfl) ?_
    | with_reducible refine State.hullFrom_some (hP.mono rfl) ?_ ‹_›
    | with_reducible refine State.busBytes_keeps (hP.mono rfl) ?_
    | with_reducible refine State.allocFrom_keeps (hP.mono rfl) ?_
    | with_reducible refine State.allocFrom_some (hP.mono rfl) ?_ ‹_›
    | with_reducible exact OnSome.none
    | with_reducible refine OnSome.some ?_
    | with_reducible refine keep_foldl (fun _ _ _ => ?_) ?_
    | with_reducible refine keep_foldl_snd (fun _ _ _ _ => ?_) ?_
    | exact fun _ => rfl
    | exact fun _ h => h
    | (extract_lets +onlyGivenNames x; refine keep_cut (P x) ?_ (fun _ => ?_); unfold x; clear x; rotate_left; clear_value x)
    | (extract_lets +onlyGivenNames x; refine keep_cut (P x.2) ?_ (fun _ => ?_); unfold x; clear x; rotate_left; clear_value x)
    | (extract_lets +onlyGivenNames x; refine keep_cut (∀ a b c, P c → P (x a b c)) ?_ (fun kx => ?_); unfold x; clear x; intro _ _ _ _; beta_reduce; rotate_left; clear_value x)
    | with_reducible refine kx _ _ _ ?_
    | (extract_lets +onlyGivenNames x; refine keep_cut (OnSome P x) ?_ (fun ko => ?_); unfold x; clear x; rotate_left; clear_value x)
    | exact ko _ ‹_›
    | exact ko _ rfl
    | (extract_lets +onlyGivenNames x; clear_value x)
    | with_reducible refine OnSome.map fun _ _ => ?_
    | with_reducible refine OnSome.findSome fun _ => ?_
    | split)
theorem State.putPage_some {P : State → Prop} (hP : Closed 806656 P) {s : State} {slice : Nat} {p : PageImage}  (h0 : P s) {t : State}
    (e : State.putPage s slice p = some t) : P t := State.putPage_keeps hP h0 t e

theorem State.putPages_keeps {P : State → Prop} (hP : Closed 806656 P) {slice : Nat} {l : List PageImage} {s : State} (h0 : P s) :
    OnSome P (State.putPages slice l s) := by
  induction l generalizing s with
  | nil =>
    unfold State.putPages
    repeat' (first
      | with_reducible assumption
      | with_reducible refine State.putPage_keeps (hP.mono rfl) ?_
      | with_reducible refine State.putPage_some (hP.mono rfl) ?_ ‹_›
      | with_reducible exact OnSome.none
      | with_reducible refine OnSome.some ?_
      | with_reducible refine keep_foldl (fun _ _ _ => ?_) ?_
      | with_reducible refine keep_foldl_snd (fun _ _ _ _ => ?_) ?_
      | exact fun _ => rfl
      | exact fun _ h => h
      | with_reducible refine OnSome.map fun _ _ => ?_
      | with_reducible refine OnSome.findSome fun _ => ?_
      | split)
  | cons x t ih =>
    unfold State.putPages
    repeat' (first
      | with_reducible assumption
      | with_reducible refine ih ?_
      | with_reducible refine State.putPage_keeps (hP.mono rfl) ?_
      | with_reducible refine State.putPage_some (hP.mono rfl) ?_ ‹_›
      | with_reducible exact OnSome.none
      | with_reducible refine OnSome.some ?_
      | with_reducible refine keep_foldl (fun _ _ _ => ?_) ?_
      | with_reducible refine keep_foldl_snd (fun _ _ _ _ => ?_) ?_
      | exact fun _ => rfl
      | exact fun _ h => h
      | with_reducible refine OnSome.map fun _ _ => ?_
      | with_reducible refine OnSome.findSome fun _ => ?_
      | split)
theorem State.putPages_some {P : State → Prop} (hP : Closed 806656 P) {slice : Nat} {l : List PageImage} {s : State} (h0 : P s)  {t : State}
    (e : State.putPages slice l s = some t) : P t := State.putPages_keeps hP h0 _ e

theorem State.putTransferred_keeps {P : State → Prop} (hP : Closed 2645888 P) {slice : Nat} {n : PfxNode} {s : State}  (h0 : P s) :
    OnSome P (State.putTransferred slice n s) := by
  unfold State.putTransferred
  repeat' (first
    | with_reducible assumption
    | with_reducible refine State.allocNode_keeps (hP.mono rfl) ?_
    | with_reducible refine State.allocNode_some (hP.mono rfl) ?_ ‹_›
    | with_reducible refine State.putNode_keeps (hP.mono rfl) ?_
    | with_reducible refine State.reindexNode_keeps (hP.mono rfl) ?_
    | with_reducible exact OnSome.none
    | with_reducible refine OnSome.some ?_
    | with_reducible refine keep_foldl (fun _ _ _ => ?_) ?_
    | with_reducible refine keep_foldl_snd (fun _ _ _ _ => ?_) ?_
    | exact fun _ => rfl
    | exact fun _ h => h
    | (extract_lets +onlyGivenNames x; refine keep_cut (P x) ?_ (fun _ => ?_); unfold x; clear x; rotate_left; clear_value x)
    | (extract_lets +onlyGivenNames x; refine keep_cut (P x.2) ?_ (fun _ => ?_); unfold x; clear x; rotate_left; clear_value x)
    | (extract_lets +onlyGivenNames x; clear_value x)
    | with_reducible refine OnSome.map fun _ _ => ?_
    | with_reducible refine OnSome.findSome fun _ => ?_
    | split)
theorem State.putTransferred_some {P : State → Prop} (hP : Closed 2645888 P) {slice : Nat} {n : PfxNode} {s : State}  (h0 : P s) {t : State}
    (e : State.putTransferred slice n s = some t) : P t := State.putTransferred_keeps hP h0 t e

theorem State.putNodes_keeps {P : State → Prop} (hP : Closed 2645888 P) {slice : Nat} {l : List PfxNode} {s : State} (h0 : P s) :
    OnSome P (State.putNodes slice l s) := by
  induction l generalizing s with
  | nil =>
    unfold State.putNodes
    exact OnSome.some h0
  | cons n t ih =>
    unfold State.putNodes
    intro x hx
    obtain ⟨y, hy, hx⟩ := Option.bind_eq_some_iff.mp hx
    exact ih (State.putTransferred_keeps (hP.mono rfl) h0 _ hy) x hx
theorem State.putNodes_some {P : State → Prop} (hP : Closed 2645888 P) {slice : Nat} {l : List PfxNode} {s : State} (h0 : P s) {t : State}
    (e : State.putNodes slice l s = some t) : P t := State.putNodes_keeps hP h0 t e

theorem State.putSeqs_keeps {P : State → Prop} (hP : Closed 2048 P) {slice : Nat} {l : List SeqRec} {s : State} (h0 : P s) :
    OnSome P (State.putSeqs slice l s) := by
  induction l generalizing s with
  | nil =>
    unfold State.putSeqs
    exact OnSome.some h0
  | cons n t ih =>
    unfold State.putSeqs
    intro x hx
    obtain ⟨y, hy, hx⟩ := Option.bind_eq_some_iff.mp hx
    exact ih (hP.home rfl _ _ (hP.home rfl _ _ h0)) x hx
theorem State.putSeqs_some {P : State → Prop} (hP : Closed 2048 P) {slice : Nat} {l : List SeqRec} {s : State} (h0 : P s) {t : State}
    (e : State.putSeqs slice l s = some t) : P t := State.putSeqs_keeps hP h0 t e

theorem State.putBucket_keeps {P : State → Prop} (hP : Closed 2908032 P) {b : BucketState} {s : State} (h0 : P s) :
    OnSome P (State.putBucket b s) := by
  unfold State.putBucket
  refine OnSome.map fun x hx => State.clearMark_keeps (hP.mono rfl) ?_
  obtain ⟨y, hy, hx⟩ := Option.bind_eq_some_iff.mp hx
  obtain ⟨z, hz, hy⟩ := Option.bind_eq_some_iff.mp hy
  exact State.putNodes_keeps (hP.mono rfl) (State.putPages_keeps (hP.mono rfl) (State.putSeqs_keeps (hP.mono rfl) h0 _ hz) _ hy) _ hx
theorem State.putBucket_some {P : State → Prop} (hP : Closed 2908032 P) {b : BucketState} {s : State} (h0 : P s) {t : State}
    (e : State.putBucket b s = some t) : P t := State.putBucket_keeps hP h0 t e

theorem execHomeUnitLoss_keeps {P : State → Prop} (hP : Closed 2657008 P) {unit : Fin 4} {s : State}  (h0 : P s) {t0 : State}
    (e : execHomeUnitLoss unit s = .next t0) : P t0 := by
  unfold execHomeUnitLoss at e
  cases e
  repeat' (first
    | with_reducible assumption
    | with_reducible refine State.whenUp_keeps (hP.mono rfl) (fun _ _ => ?_) ?_
    | with_reducible refine State.settle_keeps (hP.mono rfl) ?_
    | with_reducible refine State.loseHomeUnit_keeps (hP.mono rfl) ?_
    | with_reducible refine keep_foldl (fun _ _ _ => ?_) ?_
    | with_reducible refine keep_foldl_snd (fun _ _ _ _ => ?_) ?_
    | exact fun _ => rfl
    | exact fun _ h => h
    | split)

theorem execHomeUnitLoss_after {P : State → Prop} (hP : Closed 526384 P) {unit : Fin 4} {s : State} (h0 : P s.settle) (hr : s.running = true) {t0 : State}
    (e : execHomeUnitLoss unit s = .next t0) : P t0 := by
  unfold execHomeUnitLoss at e
  cases e
  unfold State.whenUp
  rw [if_pos hr]
  beta_reduce
  repeat' (first
    | with_reducible assumption
    | with_reducible refine State.loseHomeUnit_keeps (hP.mono rfl) ?_
    | with_reducible refine keep_foldl (fun _ _ _ => ?_) ?_
    | with_reducible refine keep_foldl_snd (fun _ _ _ _ => ?_) ?_
    | exact fun _ => rfl
    | exact fun _ h => h
    | split)

theorem State.returnUnit_keeps {P : State → Prop} (hP : Closed 2656960 P) {q : Nat} {s : State}  (h0 : P s) :
    P (State.returnUnit q s) := by
  unfold State.returnUnit
  repeat' (first
    | with_reducible assumption
    | with_reducible refine hP.home rfl _ _ ?_
    | with_reducible refine State.endLeases_keeps (hP.mono rfl) ?_
    | with_reducible refine State.tearPage_keeps (hP.mono rfl) ?_
    | with_reducible refine keep_foldl (fun _ _ _ => ?_) ?_
    | with_reducible refine keep_foldl_snd (fun _ _ _ _ => ?_) ?_
    | exact fun _ => rfl
    | exact fun _ h => h
    | (extract_lets +onlyGivenNames x; refine keep_cut (P x) ?_ (fun _ => ?_); unfold x; clear x; rotate_left; clear_value x)
    | (extract_lets +onlyGivenNames x; refine keep_cut (P x.2) ?_ (fun _ => ?_); unfold x; clear x; rotate_left; clear_value x)
    | (extract_lets +onlyGivenNames x; clear_value x)
    | split)

theorem execHomeUnitReturn_keeps {P : State → Prop} (hP : Closed 2656960 P) {unit : Fin 4} {s : State}  (h0 : P s) {t0 : State}
    (e : execHomeUnitReturn unit s = .next t0) : P t0 := by
  unfold execHomeUnitReturn at e
  cases e
  repeat' (first
    | with_reducible assumption
    | with_reducible refine State.whenUp_keeps (hP.mono rfl) (fun _ _ => ?_) ?_
    | with_reducible refine State.settle_keeps (hP.mono rfl) ?_
    | with_reducible refine State.returnUnit_keeps (hP.mono rfl) ?_
    | with_reducible refine keep_foldl (fun _ _ _ => ?_) ?_
    | with_reducible refine keep_foldl_snd (fun _ _ _ _ => ?_) ?_
    | exact fun _ => rfl
    | exact fun _ h => h
    | split)

theorem execHomeUnitReturn_after {P : State → Prop} (hP : Closed 2656960 P) {unit : Fin 4} {s : State} (h0 : P s.settle) (hr : s.running = true) {t0 : State}
    (e : execHomeUnitReturn unit s = .next t0) : P t0 := by
  unfold execHomeUnitReturn at e
  cases e
  unfold State.whenUp
  rw [if_pos hr]
  beta_reduce
  repeat' (first
    | with_reducible assumption
    | with_reducible refine State.returnUnit_keeps (hP.mono rfl) ?_
    | with_reducible refine keep_foldl (fun _ _ _ => ?_) ?_
    | with_reducible refine keep_foldl_snd (fun _ _ _ _ => ?_) ?_
    | exact fun _ => rfl
    | exact fun _ h => h
    | split)

theorem execQuarterLost_keeps {P : State → Prop} (hP : Closed 2686962 P) {quarter : Fin 4} {s : State}  (h0 : P s) {t0 : State}
    (e : execQuarterLost quarter s = .next t0) : P t0 := by
  unfold execQuarterLost at e
  cases e
  repeat' (first
    | with_reducible assumption
    | with_reducible refine State.whenUp_keeps (hP.mono rfl) (fun _ _ => ?_) ?_
    | with_reducible refine State.settle_keeps (hP.mono rfl) ?_
    | with_reducible refine State.loseQuarter_keeps (hP.mono rfl) ?_
    | with_reducible refine keep_foldl (fun _ _ _ => ?_) ?_
    | with_reducible refine keep_foldl_snd (fun _ _ _ _ => ?_) ?_
    | exact fun _ => rfl
    | exact fun _ h => h
    | split)

theorem execQuarterLost_after {P : State → Prop} (hP : Closed 2686962 P) {quarter : Fin 4} {s : State} (h0 : P s.settle) (hr : s.running = true) {t0 : State}
    (e : execQuarterLost quarter s = .next t0) : P t0 := by
  unfold execQuarterLost at e
  cases e
  unfold State.whenUp
  rw [if_pos hr]
  beta_reduce
  repeat' (first
    | with_reducible assumption
    | with_reducible refine State.loseQuarter_keeps (hP.mono rfl) ?_
    | with_reducible refine keep_foldl (fun _ _ _ => ?_) ?_
    | with_reducible refine keep_foldl_snd (fun _ _ _ _ => ?_) ?_
    | exact fun _ => rfl
    | exact fun _ h => h
    | split)

end Sys2Proof.Machine
end

