-- ==== Sys2Proof/Laws/KeepKeys.lean ====
section
/-! SUPPORT. What the operations of Machine/Keys.lean touch: each keeps every predicate that is closed under the parts named. -/

namespace Sys2Proof.Machine

set_option linter.unusedTactic false
set_option linter.unreachableTactic false
set_option linter.unusedVariables false
set_option linter.tactic.unusedName false

theorem State.putKey_keeps {P : State → Prop} (hP : Closed 2621952 P) {kind i : Nat} {e : KeyEnt} {g : GenState} {s : State}  (h0 : P s) :
    P (State.putKey kind i e g s) := by
  unfold State.putKey
  repeat' (first
    | with_reducible assumption
    | with_reducible refine hP.link rfl _ _ (fun _ _ h => h) ?_
    | with_reducible refine State.clearMark_keeps (hP.mono rfl) ?_
    | with_reducible refine keep_foldl (fun _ _ _ => ?_) ?_
    | with_reducible refine keep_foldl_snd (fun _ _ _ _ => ?_) ?_
    | exact fun _ => rfl
    | exact fun _ h => h
    | split)

theorem State.retireRegion_keeps {P : State → Prop} (hP : Closed 524928 P) {e : KeyEnt} {s : State}  (h0 : P s) :
    P (State.retireRegion e s) := by
  unfold State.retireRegion
  repeat' (first
    | with_reducible assumption
    | with_reducible refine State.retireUnit_keeps (hP.mono rfl) ?_
    | with_reducible refine keep_foldl (fun _ _ _ => ?_) ?_
    | with_reducible refine keep_foldl_snd (fun _ _ _ _ => ?_) ?_
    | exact fun _ => rfl
    | exact fun _ h => h
    | split)

theorem State.createKey_ok {P : State → Prop} (hP : Closed 2622080 P) {s : State} {slice : Nat} {k : KeyParams} (h0 : P s) {a : Nat × Nat} {t : State}
    (e : State.createKey s slice k = .ok (a, t)) : P t := by
  unfold State.createKey at e
  repeat' (first
    | with_reducible assumption
    | with_reducible refine State.putKey_keeps (hP.mono rfl) ?_
    | with_reducible refine State.retireRegion_keeps (hP.mono rfl) ?_
    | with_reducible refine State.allocIn_some (hP.mono rfl) ?_ ‹_›
    | (injection e; done)
    | (injection e with e; injection e with _ e; subst e)
    | split
    | (extract_lets +onlyGivenNames z at e; first | (have : (z : Option KeyEnt) = z := rfl; clear_value z) | skip)
    | split at e)

theorem State.removeKey_ok {P : State → Prop} (hP : Closed 2622080 P) {s : State} {slice key : Nat} (h0 : P s) {t : State}
    (e : State.removeKey s slice key = .ok t) : P t := by
  unfold State.removeKey at e
  repeat' (first
    | with_reducible assumption
    | with_reducible refine hP.link rfl _ _ (fun _ _ h => h) ?_
    | with_reducible refine State.clearMark_keeps (hP.mono rfl) ?_
    | with_reducible refine State.retireRegion_keeps (hP.mono rfl) ?_
    | (injection e; done)
    | (injection e with e; subst e)
    | (extract_lets at e)
    | split at e)

theorem State.loadManifest_keeps {P : State → Prop} (hP : Closed 524344 P) {m : Manifest} {s : State}  (h0 : P s) :
    P (State.loadManifest m s).2 := by
  unfold State.loadManifest
  repeat' (first
    | with_reducible assumption
    | with_reducible refine hP.sec rfl _ _ ?_
    | with_reducible refine State.logEvent_keeps (hP.mono rfl) ?_
    | with_reducible refine keep_foldl (fun _ _ _ => ?_) ?_
    | with_reducible refine keep_foldl_snd (fun _ _ _ _ => ?_) ?_
    | split
    | with_reducible refine keep_snd ?_)
theorem State.loadManifest_eq {P : State → Prop} (hP : Closed 524344 P) {m : Manifest} {s : State}  (h0 : P s) {a0 : Code} {t : State}
    (e : State.loadManifest m s = (a0, t)) : P t := by
  have h1 : P (State.loadManifest m s).2 := State.loadManifest_keeps hP h0
  rw [e] at h1
  exact h1

theorem State.saveRecord_keeps {P : State → Prop} (hP : Closed 524800 P) {s : State}  (h0 : P s) :
    P (State.saveRecord s) := by
  unfold State.saveRecord
  repeat' (first
    | with_reducible assumption
    | with_reducible refine State.clearMark_keeps (hP.mono rfl) ?_
    | with_reducible refine keep_foldl (fun _ _ _ => ?_) ?_
    | with_reducible refine keep_foldl_snd (fun _ _ _ _ => ?_) ?_
    | exact fun _ => rfl
    | exact fun _ h => h
    | split)

theorem State.acceptCert_keeps {P : State → Prop} (hP : Closed 524850 P) {c : Cert} {s : State}  (h0 : P s) :
    P (State.acceptCert c s) := by
  unfold State.acceptCert
  repeat' (first
    | with_reducible assumption
    | with_reducible refine hP.ras rfl _ _ ?_
    | with_reducible refine State.logEvent_keeps (hP.mono rfl) ?_
    | with_reducible refine State.saveRecord_keeps (hP.mono rfl) ?_
    | with_reducible refine keep_foldl (fun _ _ _ => ?_) ?_
    | with_reducible refine keep_foldl_snd (fun _ _ _ _ => ?_) ?_
    | exact fun _ => rfl
    | exact fun _ h => h
    | split)

end Sys2Proof.Machine
end

