-- ==== Sys2Proof/Laws/KeepManage.lean ====
section
/-! SUPPORT. What the operations of Machine/Manage.lean touch: each keeps every predicate that is closed under the parts named. -/

namespace Sys2Proof.Machine

set_option linter.unusedTactic false
set_option linter.unreachableTactic false
set_option linter.unusedVariables false
set_option linter.tactic.unusedName false

theorem State.sendDreq_keeps {P : State → Prop} (hP : Closed 2113536 P) {q : Nat} {s : State}  (h0 : P s) :
    P (State.sendDreq q s) := by
  unfold State.sendDreq
  repeat' (first
    | with_reducible assumption
    | with_reducible refine State.sendControl_keeps (hP.mono rfl) ?_
    | with_reducible refine State.onCtx_keeps (hP.mono rfl) (fun _ h => h) ?_
    | with_reducible refine State.onCtx_keeps (hP.mono rfl) (by intro _ h; try dsimp only; split <;> exact h) ?_
    | with_reducible refine keep_foldl (fun _ _ _ => ?_) ?_
    | with_reducible refine keep_foldl_snd (fun _ _ _ _ => ?_) ?_
    | split)

theorem execHello_keeps {P : State → Prop} (hP : Closed 2673344 P) {h : ExtHdr} {levels role : Nat} {s : State}  (h0 : P s) {t0 : State}
    (e : execHello h levels role s = .next t0) : P t0 := by
  unfold execHello at e
  cases e
  repeat' (first
    | with_reducible assumption
    | with_reducible refine State.whenUp_keeps (hP.mono rfl) (fun _ _ => ?_) ?_
    | with_reducible refine State.settle_keeps (hP.mono rfl) ?_
    | with_reducible refine State.extended_keeps (hP.mono rfl) ?_ (fun _ _ _ => ?_) ?_
    | with_reducible refine State.onCtx_keeps (hP.mono rfl) (fun _ h => h) ?_
    | with_reducible refine State.onCtx_keeps (hP.mono rfl) (by intro _ h; try dsimp only; split <;> exact h) ?_
    | with_reducible refine State.respond_keeps (hP.mono rfl) ?_
    | with_reducible refine State.sendDreq_keeps (hP.mono rfl) ?_
    | with_reducible refine keep_foldl (fun _ _ _ => ?_) ?_
    | with_reducible refine keep_foldl_snd (fun _ _ _ _ => ?_) ?_
    | exact fun _ => rfl
    | exact fun _ h => h
    | (extract_lets +onlyGivenNames x; refine keep_cut (P x) ?_ (fun _ => ?_); unfold x; clear x; rotate_left; clear_value x)
    | (extract_lets +onlyGivenNames x; refine keep_cut (P x.2) ?_ (fun _ => ?_); unfold x; clear x; rotate_left; clear_value x)
    | (extract_lets +onlyGivenNames x; clear_value x)
    | exact fun _ _ _ h => h
    | split)

theorem execHello_after {P : State → Prop} (hP : Closed 2115584 P) {h : ExtHdr} {levels role : Nat} {s : State} (h0 : P s.settle) (hr : s.running = true) {t0 : State}
    (e : execHello h levels role s = .next t0) : P t0 := by
  unfold execHello at e
  cases e
  unfold State.whenUp
  rw [if_pos hr]
  beta_reduce
  repeat' (first
    | with_reducible assumption
    | with_reducible refine State.extended_keeps (hP.mono rfl) ?_ (fun _ _ _ => ?_) ?_
    | with_reducible refine State.onCtx_keeps (hP.mono rfl) (fun _ h => h) ?_
    | with_reducible refine State.onCtx_keeps (hP.mono rfl) (by intro _ h; try dsimp only; split <;> exact h) ?_
    | with_reducible refine State.respond_keeps (hP.mono rfl) ?_
    | with_reducible refine State.sendDreq_keeps (hP.mono rfl) ?_
    | with_reducible refine keep_foldl (fun _ _ _ => ?_) ?_
    | with_reducible refine keep_foldl_snd (fun _ _ _ _ => ?_) ?_
    | exact fun _ => rfl
    | exact fun _ h => h
    | (extract_lets +onlyGivenNames x; refine keep_cut (P x) ?_ (fun _ => ?_); unfold x; clear x; rotate_left; clear_value x)
    | (extract_lets +onlyGivenNames x; refine keep_cut (P x.2) ?_ (fun _ => ?_); unfold x; clear x; rotate_left; clear_value x)
    | (extract_lets +onlyGivenNames x; clear_value x)
    | exact fun _ _ _ h => h
    | split)

theorem execStatOwnQp_keeps {P : State → Prop} (hP : Closed 2673344 P) {h : ExtHdr} {s : State}  (h0 : P s) {t0 : State}
    (e : execStatOwnQp h s = .next t0) : P t0 := by
  unfold execStatOwnQp at e
  cases e
  repeat' (first
    | with_reducible assumption
    | with_reducible refine State.whenUp_keeps (hP.mono rfl) (fun _ _ => ?_) ?_
    | with_reducible refine State.settle_keeps (hP.mono rfl) ?_
    | with_reducible refine State.extended_keeps (hP.mono rfl) ?_ (fun _ _ _ => ?_) ?_
    | with_reducible refine State.respond_keeps (hP.mono rfl) ?_
    | with_reducible refine keep_foldl (fun _ _ _ => ?_) ?_
    | with_reducible refine keep_foldl_snd (fun _ _ _ _ => ?_) ?_
    | exact fun _ => rfl
    | exact fun _ h => h
    | exact fun _ _ _ h => h
    | split)

theorem execStatOwnQp_after {P : State → Prop} (hP : Closed 2115584 P) {h : ExtHdr} {s : State} (h0 : P s.settle) (hr : s.running = true) {t0 : State}
    (e : execStatOwnQp h s = .next t0) : P t0 := by
  unfold execStatOwnQp at e
  cases e
  unfold State.whenUp
  rw [if_pos hr]
  beta_reduce
  repeat' (first
    | with_reducible assumption
    | with_reducible refine State.extended_keeps (hP.mono rfl) ?_ (fun _ _ _ => ?_) ?_
    | with_reducible refine State.respond_keeps (hP.mono rfl) ?_
    | with_reducible refine keep_foldl (fun _ _ _ => ?_) ?_
    | with_reducible refine keep_foldl_snd (fun _ _ _ _ => ?_) ?_
    | exact fun _ => rfl
    | exact fun _ h => h
    | exact fun _ _ _ h => h
    | split)

theorem execStatGroup_keeps {P : State → Prop} (hP : Closed 2673344 P) {h : ExtHdr} {s : State}  (h0 : P s) {t0 : State}
    (e : execStatGroup h s = .next t0) : P t0 := by
  unfold execStatGroup at e
  cases e
  repeat' (first
    | with_reducible assumption
    | with_reducible refine State.whenUp_keeps (hP.mono rfl) (fun _ _ => ?_) ?_
    | with_reducible refine State.settle_keeps (hP.mono rfl) ?_
    | with_reducible refine State.extended_keeps (hP.mono rfl) ?_ (fun _ _ _ => ?_) ?_
    | with_reducible refine State.respond_keeps (hP.mono rfl) ?_
    | with_reducible refine keep_foldl (fun _ _ _ => ?_) ?_
    | with_reducible refine keep_foldl_snd (fun _ _ _ _ => ?_) ?_
    | exact fun _ => rfl
    | exact fun _ h => h
    | exact fun _ _ _ h => h
    | split)

theorem execStatGroup_after {P : State → Prop} (hP : Closed 2115584 P) {h : ExtHdr} {s : State} (h0 : P s.settle) (hr : s.running = true) {t0 : State}
    (e : execStatGroup h s = .next t0) : P t0 := by
  unfold execStatGroup at e
  cases e
  unfold State.whenUp
  rw [if_pos hr]
  beta_reduce
  repeat' (first
    | with_reducible assumption
    | with_reducible refine State.extended_keeps (hP.mono rfl) ?_ (fun _ _ _ => ?_) ?_
    | with_reducible refine State.respond_keeps (hP.mono rfl) ?_
    | with_reducible refine keep_foldl (fun _ _ _ => ?_) ?_
    | with_reducible refine keep_foldl_snd (fun _ _ _ _ => ?_) ?_
    | exact fun _ => rfl
    | exact fun _ h => h
    | exact fun _ _ _ h => h
    | split)

theorem execStatNode_keeps {P : State → Prop} (hP : Closed 2673344 P) {h : ExtHdr} {s : State}  (h0 : P s) {t0 : State}
    (e : execStatNode h s = .next t0) : P t0 := by
  unfold execStatNode at e
  cases e
  repeat' (first
    | with_reducible assumption
    | with_reducible refine State.whenUp_keeps (hP.mono rfl) (fun _ _ => ?_) ?_
    | with_reducible refine State.settle_keeps (hP.mono rfl) ?_
    | with_reducible refine State.extended_keeps (hP.mono rfl) ?_ (fun _ _ _ => ?_) ?_
    | with_reducible refine State.respond_keeps (hP.mono rfl) ?_
    | with_reducible refine keep_foldl (fun _ _ _ => ?_) ?_
    | with_reducible refine keep_foldl_snd (fun _ _ _ _ => ?_) ?_
    | exact fun _ => rfl
    | exact fun _ h => h
    | exact fun _ _ _ h => h
    | split)

theorem execStatNode_after {P : State → Prop} (hP : Closed 2115584 P) {h : ExtHdr} {s : State} (h0 : P s.settle) (hr : s.running = true) {t0 : State}
    (e : execStatNode h s = .next t0) : P t0 := by
  unfold execStatNode at e
  cases e
  unfold State.whenUp
  rw [if_pos hr]
  beta_reduce
  repeat' (first
    | with_reducible assumption
    | with_reducible refine State.extended_keeps (hP.mono rfl) ?_ (fun _ _ _ => ?_) ?_
    | with_reducible refine State.respond_keeps (hP.mono rfl) ?_
    | with_reducible refine keep_foldl (fun _ _ _ => ?_) ?_
    | with_reducible refine keep_foldl_snd (fun _ _ _ _ => ?_) ?_
    | exact fun _ => rfl
    | exact fun _ h => h
    | exact fun _ _ _ h => h
    | split)

theorem manageSpec_refused {P : State → Prop} (hP : Closed 524336 P) {v kd : Nat} {ps : Bool} {c : Cert} {od : Bool} {b : State → Code} {y : State} {x : Ctx} {k : Code} {s : State} (h0 : P s) :
    P ((manageSpec v kd ps c od b y x).refused k s) := by
  show P (ite _ _ _)
  repeat' (first
    | with_reducible assumption
    | with_reducible refine State.logEvent_keeps (hP.mono rfl) ?_
    | (extract_lets +onlyGivenNames x; refine keep_cut (P x) ?_ (fun _ => ?_); unfold x; clear x; rotate_left; clear_value x)
    | split)

theorem State.manage_keeps {P : State → Prop} (hP : Closed 2673394 P) {h : ExtHdr} {cmd : Instr} {variant kind : Nat} {parses : Bool} {c : Cert} {busy : State → Code} {run : State → Code × RespBody × State} {s : State} (krun : ∀ s, P s → P (run s).2.2) (h0 : P s) :
    P (State.manage h cmd variant kind parses c busy run s) := by
  unfold State.manage
  repeat' (first
    | with_reducible assumption
    | with_reducible refine State.settle_keeps (hP.mono rfl) ?_
    | with_reducible refine State.extended_keeps (hP.mono rfl) ?_ (fun _ _ _ => ?_) ?_
    | with_reducible refine State.logEvent_keeps (hP.mono rfl) ?_
    | with_reducible refine State.respond_keeps (hP.mono rfl) ?_
    | with_reducible refine State.acceptCert_keeps (hP.mono rfl) ?_
    | with_reducible refine krun _ ?_
    | with_reducible refine keep_foldl (fun _ _ _ => ?_) ?_
    | with_reducible refine keep_foldl_snd (fun _ _ _ _ => ?_) ?_
    | exact fun _ => rfl
    | exact fun _ h => h
    | (extract_lets +onlyGivenNames x; refine keep_cut (P x) ?_ (fun _ => ?_); unfold x; clear x; rotate_left; clear_value x)
    | (extract_lets +onlyGivenNames x; refine keep_cut (P x.2) ?_ (fun _ => ?_); unfold x; clear x; rotate_left; clear_value x)
    | (extract_lets +onlyGivenNames x; refine keep_cut (P x.2.2) ?_ (fun _ => ?_); unfold x; clear x; rotate_left; clear_value x)
    | (extract_lets +onlyGivenNames x; clear_value x)
    | exact fun _ _ _ h => h
    | exact fun _ _ _ h => manageSpec_refused (hP.mono rfl) h
    | split)

theorem State.manage_after {P : State → Prop} (hP : Closed 2640434 P) {h : ExtHdr} {cmd : Instr} {variant kind : Nat} {parses : Bool} {c : Cert} {busy : State → Code} {run : State → Code × RespBody × State} {s : State} (krun : ∀ s, P s → P (run s).2.2) (h0 : P s.settle) :
    P (State.manage h cmd variant kind parses c busy run s) := by
  unfold State.manage
  repeat' (first
    | with_reducible assumption
    | with_reducible refine State.extended_keeps (hP.mono rfl) ?_ (fun _ _ _ => ?_) ?_
    | with_reducible refine State.logEvent_keeps (hP.mono rfl) ?_
    | with_reducible refine State.respond_keeps (hP.mono rfl) ?_
    | with_reducible refine State.acceptCert_keeps (hP.mono rfl) ?_
    | with_reducible refine krun _ ?_
    | with_reducible refine keep_foldl (fun _ _ _ => ?_) ?_
    | with_reducible refine keep_foldl_snd (fun _ _ _ _ => ?_) ?_
    | exact fun _ => rfl
    | exact fun _ h => h
    | (extract_lets +onlyGivenNames x; refine keep_cut (P x) ?_ (fun _ => ?_); unfold x; clear x; rotate_left; clear_value x)
    | (extract_lets +onlyGivenNames x; refine keep_cut (P x.2) ?_ (fun _ => ?_); unfold x; clear x; rotate_left; clear_value x)
    | (extract_lets +onlyGivenNames x; refine keep_cut (P x.2.2) ?_ (fun _ => ?_); unfold x; clear x; rotate_left; clear_value x)
    | (extract_lets +onlyGivenNames x; clear_value x)
    | exact fun _ _ _ h => h
    | exact fun _ _ _ h => manageSpec_refused (hP.mono rfl) h
    | split)

theorem execMapInstall_keeps {P : State → Prop} (hP : Closed 2673392 P) {h : ExtHdr} {c : Cert} {m : RouteMap} {s : State}  (h0 : P s) {t0 : State}
    (e : execMapInstall h c m s = .next t0) : P t0 := by
  unfold execMapInstall at e
  cases e
  repeat' (first
    | with_reducible assumption
    | with_reducible refine State.whenUp_keeps (hP.mono rfl) (fun _ _ => ?_) ?_
    | with_reducible refine State.settle_keeps (hP.mono rfl) ?_
    | with_reducible refine State.extended_keeps (hP.mono rfl) ?_ (fun _ _ _ => ?_) ?_
    | with_reducible refine State.logEvent_keeps (hP.mono rfl) ?_
    | with_reducible refine State.installMap_keeps (hP.mono rfl) ?_
    | with_reducible refine State.clearMark_keeps (hP.mono rfl) ?_
    | with_reducible refine State.respond_keeps (hP.mono rfl) ?_
    | with_reducible refine keep_foldl (fun _ _ _ => ?_) ?_
    | with_reducible refine keep_foldl_snd (fun _ _ _ _ => ?_) ?_
    | exact fun _ => rfl
    | exact fun _ h => h
    | (extract_lets +onlyGivenNames x; refine keep_cut (P x) ?_ (fun _ => ?_); unfold x; clear x; rotate_left; clear_value x)
    | (extract_lets +onlyGivenNames x; refine keep_cut (P x.2) ?_ (fun _ => ?_); unfold x; clear x; rotate_left; clear_value x)
    | (extract_lets +onlyGivenNames x; clear_value x)
    | exact fun _ _ _ h => h
    | exact fun _ _ _ h => manageSpec_refused (hP.mono rfl) h
    | split)

theorem execMapInstall_after {P : State → Prop} (hP : Closed 2673200 P) {h : ExtHdr} {c : Cert} {m : RouteMap} {s : State} (h0 : P s.settle) (hr : s.running = true) {t0 : State}
    (e : execMapInstall h c m s = .next t0) : P t0 := by
  unfold execMapInstall at e
  cases e
  unfold State.whenUp
  rw [if_pos hr]
  beta_reduce
  repeat' (first
    | with_reducible assumption
    | with_reducible refine State.extended_keeps (hP.mono rfl) ?_ (fun _ _ _ => ?_) ?_
    | with_reducible refine State.logEvent_keeps (hP.mono rfl) ?_
    | with_reducible refine State.installMap_keeps (hP.mono rfl) ?_
    | with_reducible refine State.clearMark_keeps (hP.mono rfl) ?_
    | with_reducible refine State.respond_keeps (hP.mono rfl) ?_
    | with_reducible refine keep_foldl (fun _ _ _ => ?_) ?_
    | with_reducible refine keep_foldl_snd (fun _ _ _ _ => ?_) ?_
    | exact fun _ => rfl
    | exact fun _ h => h
    | (extract_lets +onlyGivenNames x; refine keep_cut (P x) ?_ (fun _ => ?_); unfold x; clear x; rotate_left; clear_value x)
    | (extract_lets +onlyGivenNames x; refine keep_cut (P x.2) ?_ (fun _ => ?_); unfold x; clear x; rotate_left; clear_value x)
    | (extract_lets +onlyGivenNames x; clear_value x)
    | exact fun _ _ _ h => h
    | exact fun _ _ _ h => manageSpec_refused (hP.mono rfl) h
    | split)

theorem State.setFence_keeps {P : State → Prop} (hP : Closed 524818 P) {f : Ras → Ras} {s : State}  (h0 : P s) :
    P (State.setFence f s) := by
  unfold State.setFence
  repeat' (first
    | with_reducible assumption
    | with_reducible refine hP.ras rfl _ _ ?_
    | with_reducible refine State.raise_keeps (hP.mono rfl) ?_
    | with_reducible refine State.saveRecord_keeps (hP.mono rfl) ?_
    | with_reducible refine keep_foldl (fun _ _ _ => ?_) ?_
    | with_reducible refine keep_foldl_snd (fun _ _ _ _ => ?_) ?_
    | exact fun _ => rfl
    | exact fun _ h => h
    | split)

theorem execNodeFence_keeps {P : State → Prop} (hP : Closed 2673394 P) {h : ExtHdr} {c : Cert} {s : State}  (h0 : P s) {t0 : State}
    (e : execNodeFence h c s = .next t0) : P t0 := by
  unfold execNodeFence at e
  cases e
  repeat' (first
    | with_reducible assumption
    | with_reducible refine State.whenUp_keeps (hP.mono rfl) (fun _ _ => ?_) ?_
    | with_reducible refine State.manage_keeps (hP.mono rfl) (fun _ _ => ?_) ?_
    | with_reducible refine State.setFence_keeps (hP.mono rfl) ?_
    | with_reducible refine keep_foldl (fun _ _ _ => ?_) ?_
    | with_reducible refine keep_foldl_snd (fun _ _ _ _ => ?_) ?_
    | exact fun _ => rfl
    | exact fun _ h => h
    | split)

theorem execNodeFence_after {P : State → Prop} (hP : Closed 2640434 P) {h : ExtHdr} {c : Cert} {s : State} (h0 : P s.settle) (hr : s.running = true) {t0 : State}
    (e : execNodeFence h c s = .next t0) : P t0 := by
  unfold execNodeFence at e
  cases e
  unfold State.whenUp
  rw [if_pos hr]
  beta_reduce
  repeat' (first
    | with_reducible assumption
    | with_reducible refine State.manage_after (hP.mono rfl) (fun _ _ => ?_) ?_
    | with_reducible refine State.setFence_keeps (hP.mono rfl) ?_
    | with_reducible refine keep_foldl (fun _ _ _ => ?_) ?_
    | with_reducible refine keep_foldl_snd (fun _ _ _ _ => ?_) ?_
    | exact fun _ => rfl
    | exact fun _ h => h
    | split)

theorem execNodeUnfence_keeps {P : State → Prop} (hP : Closed 2673395 P) {h : ExtHdr} {c : Cert} {s : State}  (h0 : P s) {t0 : State}
    (e : execNodeUnfence h c s = .next t0) : P t0 := by
  unfold execNodeUnfence at e
  cases e
  repeat' (first
    | with_reducible assumption
    | with_reducible refine hP.aon rfl _ _ ?_
    | with_reducible refine State.whenUp_keeps (hP.mono rfl) (fun _ _ => ?_) ?_
    | with_reducible refine State.manage_keeps (hP.mono rfl) (fun _ _ => ?_) ?_
    | with_reducible refine State.setFence_keeps (hP.mono rfl) ?_
    | with_reducible refine State.rampAll_keeps (hP.mono rfl) ?_
    | with_reducible refine keep_foldl (fun _ _ _ => ?_) ?_
    | with_reducible refine keep_foldl_snd (fun _ _ _ _ => ?_) ?_
    | exact fun _ => rfl
    | exact fun _ h => h
    | (extract_lets +onlyGivenNames x; refine keep_cut (P x) ?_ (fun _ => ?_); unfold x; clear x; rotate_left; clear_value x)
    | (extract_lets +onlyGivenNames x; refine keep_cut (P x.2) ?_ (fun _ => ?_); unfold x; clear x; rotate_left; clear_value x)
    | (extract_lets +onlyGivenNames x; clear_value x)
    | split)

theorem execNodeUnfence_after {P : State → Prop} (hP : Closed 2640435 P) {h : ExtHdr} {c : Cert} {s : State} (h0 : P s.settle) (hr : s.running = true) {t0 : State}
    (e : execNodeUnfence h c s = .next t0) : P t0 := by
  unfold execNodeUnfence at e
  cases e
  unfold State.whenUp
  rw [if_pos hr]
  beta_reduce
  repeat' (first
    | with_reducible assumption
    | with_reducible refine hP.aon rfl _ _ ?_
    | with_reducible refine State.manage_after (hP.mono rfl) (fun _ _ => ?_) ?_
    | with_reducible refine State.setFence_keeps (hP.mono rfl) ?_
    | with_reducible refine State.rampAll_keeps (hP.mono rfl) ?_
    | with_reducible refine keep_foldl (fun _ _ _ => ?_) ?_
    | with_reducible refine keep_foldl_snd (fun _ _ _ _ => ?_) ?_
    | exact fun _ => rfl
    | exact fun _ h => h
    | (extract_lets +onlyGivenNames x; refine keep_cut (P x) ?_ (fun _ => ?_); unfold x; clear x; rotate_left; clear_value x)
    | (extract_lets +onlyGivenNames x; refine keep_cut (P x.2) ?_ (fun _ => ?_); unfold x; clear x; rotate_left; clear_value x)
    | (extract_lets +onlyGivenNames x; clear_value x)
    | split)

theorem execNodeExpel_keeps {P : State → Prop} (hP : Closed 2681586 P) {h : ExtHdr} {c : Cert} {s : State}  (h0 : P s) {t0 : State}
    (e : execNodeExpel h c s = .next t0) : P t0 := by
  unfold execNodeExpel at e
  cases e
  repeat' (first
    | with_reducible assumption
    | with_reducible refine State.whenUp_keeps (hP.mono rfl) (fun _ _ => ?_) ?_
    | with_reducible refine State.manage_keeps (hP.mono rfl) (fun _ _ => ?_) ?_
    | with_reducible refine State.setFence_keeps (hP.mono rfl) ?_
    | with_reducible refine State.flushWhere_keeps (hP.mono rfl) ?_
    | with_reducible refine keep_foldl (fun _ _ _ => ?_) ?_
    | with_reducible refine keep_foldl_snd (fun _ _ _ _ => ?_) ?_
    | exact fun _ => rfl
    | exact fun _ h => h
    | split)

theorem execNodeExpel_after {P : State → Prop} (hP : Closed 2681586 P) {h : ExtHdr} {c : Cert} {s : State} (h0 : P s.settle) (hr : s.running = true) {t0 : State}
    (e : execNodeExpel h c s = .next t0) : P t0 := by
  unfold execNodeExpel at e
  cases e
  unfold State.whenUp
  rw [if_pos hr]
  beta_reduce
  repeat' (first
    | with_reducible assumption
    | with_reducible refine State.manage_after (hP.mono rfl) (fun _ _ => ?_) ?_
    | with_reducible refine State.setFence_keeps (hP.mono rfl) ?_
    | with_reducible refine State.flushWhere_keeps (hP.mono rfl) ?_
    | with_reducible refine keep_foldl (fun _ _ _ => ?_) ?_
    | with_reducible refine keep_foldl_snd (fun _ _ _ _ => ?_) ?_
    | exact fun _ => rfl
    | exact fun _ h => h
    | split)

theorem execRequesterFence_keeps {P : State → Prop} (hP : Closed 2681586 P) {h : ExtHdr} {c : Cert} {ranges : List (Nat × Nat)} {s : State}  (h0 : P s) {t0 : State}
    (e : execRequesterFence h c ranges s = .next t0) : P t0 := by
  unfold execRequesterFence at e
  cases e
  repeat' (first
    | with_reducible assumption
    | with_reducible refine hP.ras rfl _ _ ?_
    | with_reducible refine State.whenUp_keeps (hP.mono rfl) (fun _ _ => ?_) ?_
    | with_reducible refine State.manage_keeps (hP.mono rfl) (fun _ _ => ?_) ?_
    | with_reducible refine State.saveRecord_keeps (hP.mono rfl) ?_
    | with_reducible refine State.flushWhere_keeps (hP.mono rfl) ?_
    | with_reducible refine State.endLeases_keeps (hP.mono rfl) ?_
    | with_reducible refine keep_foldl (fun _ _ _ => ?_) ?_
    | with_reducible refine keep_foldl_snd (fun _ _ _ _ => ?_) ?_
    | exact fun _ => rfl
    | exact fun _ h => h
    | (extract_lets +onlyGivenNames x; refine keep_cut (P x) ?_ (fun _ => ?_); unfold x; clear x; rotate_left; clear_value x)
    | (extract_lets +onlyGivenNames x; refine keep_cut (P x.2) ?_ (fun _ => ?_); unfold x; clear x; rotate_left; clear_value x)
    | (extract_lets +onlyGivenNames x; clear_value x)
    | split)

theorem execRequesterFence_after {P : State → Prop} (hP : Closed 2681586 P) {h : ExtHdr} {c : Cert} {ranges : List (Nat × Nat)} {s : State} (h0 : P s.settle) (hr : s.running = true) {t0 : State}
    (e : execRequesterFence h c ranges s = .next t0) : P t0 := by
  unfold execRequesterFence at e
  cases e
  unfold State.whenUp
  rw [if_pos hr]
  beta_reduce
  repeat' (first
    | with_reducible assumption
    | with_reducible refine hP.ras rfl _ _ ?_
    | with_reducible refine State.manage_after (hP.mono rfl) (fun _ _ => ?_) ?_
    | with_reducible refine State.saveRecord_keeps (hP.mono rfl) ?_
    | with_reducible refine State.flushWhere_keeps (hP.mono rfl) ?_
    | with_reducible refine State.endLeases_keeps (hP.mono rfl) ?_
    | with_reducible refine keep_foldl (fun _ _ _ => ?_) ?_
    | with_reducible refine keep_foldl_snd (fun _ _ _ _ => ?_) ?_
    | exact fun _ => rfl
    | exact fun _ h => h
    | (extract_lets +onlyGivenNames x; refine keep_cut (P x) ?_ (fun _ => ?_); unfold x; clear x; rotate_left; clear_value x)
    | (extract_lets +onlyGivenNames x; refine keep_cut (P x.2) ?_ (fun _ => ?_); unfold x; clear x; rotate_left; clear_value x)
    | (extract_lets +onlyGivenNames x; clear_value x)
    | split)

theorem execRequesterUnfence_keeps {P : State → Prop} (hP : Closed 2673394 P) {h : ExtHdr} {c : Cert} {ranges : List (Nat × Nat)} {s : State}  (h0 : P s) {t0 : State}
    (e : execRequesterUnfence h c ranges s = .next t0) : P t0 := by
  unfold execRequesterUnfence at e
  cases e
  repeat' (first
    | with_reducible assumption
    | with_reducible refine hP.ras rfl _ _ ?_
    | with_reducible refine State.whenUp_keeps (hP.mono rfl) (fun _ _ => ?_) ?_
    | with_reducible refine State.manage_keeps (hP.mono rfl) (fun _ _ => ?_) ?_
    | with_reducible refine State.saveRecord_keeps (hP.mono rfl) ?_
    | with_reducible refine keep_foldl (fun _ _ _ => ?_) ?_
    | with_reducible refine keep_foldl_snd (fun _ _ _ _ => ?_) ?_
    | exact fun _ => rfl
    | exact fun _ h => h
    | split)

theorem execRequesterUnfence_after {P : State → Prop} (hP : Closed 2640434 P) {h : ExtHdr} {c : Cert} {ranges : List (Nat × Nat)} {s : State} (h0 : P s.settle) (hr : s.running = true) {t0 : State}
    (e : execRequesterUnfence h c ranges s = .next t0) : P t0 := by
  unfold execRequesterUnfence at e
  cases e
  unfold State.whenUp
  rw [if_pos hr]
  beta_reduce
  repeat' (first
    | with_reducible assumption
    | with_reducible refine hP.ras rfl _ _ ?_
    | with_reducible refine State.manage_after (hP.mono rfl) (fun _ _ => ?_) ?_
    | with_reducible refine State.saveRecord_keeps (hP.mono rfl) ?_
    | with_reducible refine keep_foldl (fun _ _ _ => ?_) ?_
    | with_reducible refine keep_foldl_snd (fun _ _ _ _ => ?_) ?_
    | exact fun _ => rfl
    | exact fun _ h => h
    | split)

theorem execAdmKeyCreate_keeps {P : State → Prop} (hP : Closed 2673394 P) {h : ExtHdr} {c : Cert} {slice : Nat} {k : KeyParams} {s : State}  (h0 : P s) {t0 : State}
    (e : execAdmKeyCreate h c slice k s = .next t0) : P t0 := by
  unfold execAdmKeyCreate at e
  cases e
  repeat' (first
    | with_reducible assumption
    | with_reducible refine State.whenUp_keeps (hP.mono rfl) (fun _ _ => ?_) ?_
    | with_reducible refine State.manage_keeps (hP.mono rfl) (fun _ _ => ?_) ?_
    | with_reducible refine State.createKey_ok (hP.mono rfl) ?_ ‹_›
    | with_reducible refine keep_foldl (fun _ _ _ => ?_) ?_
    | with_reducible refine keep_foldl_snd (fun _ _ _ _ => ?_) ?_
    | exact fun _ => rfl
    | exact fun _ h => h
    | split)

theorem execAdmKeyCreate_after {P : State → Prop} (hP : Closed 2640562 P) {h : ExtHdr} {c : Cert} {slice : Nat} {k : KeyParams} {s : State} (h0 : P s.settle) (hr : s.running = true) {t0 : State}
    (e : execAdmKeyCreate h c slice k s = .next t0) : P t0 := by
  unfold execAdmKeyCreate at e
  cases e
  unfold State.whenUp
  rw [if_pos hr]
  beta_reduce
  repeat' (first
    | with_reducible assumption
    | with_reducible refine State.manage_after (hP.mono rfl) (fun _ _ => ?_) ?_
    | with_reducible refine State.createKey_ok (hP.mono rfl) ?_ ‹_›
    | with_reducible refine keep_foldl (fun _ _ _ => ?_) ?_
    | with_reducible refine keep_foldl_snd (fun _ _ _ _ => ?_) ?_
    | exact fun _ => rfl
    | exact fun _ h => h
    | split)

theorem execAdmKeyRemove_keeps {P : State → Prop} (hP : Closed 2673394 P) {h : ExtHdr} {c : Cert} {slice key : Nat} {s : State}  (h0 : P s) {t0 : State}
    (e : execAdmKeyRemove h c slice key s = .next t0) : P t0 := by
  unfold execAdmKeyRemove at e
  cases e
  repeat' (first
    | with_reducible assumption
    | with_reducible refine State.whenUp_keeps (hP.mono rfl) (fun _ _ => ?_) ?_
    | with_reducible refine State.manage_keeps (hP.mono rfl) (fun _ _ => ?_) ?_
    | with_reducible refine State.removeKey_ok (hP.mono rfl) ?_ ‹_›
    | with_reducible refine keep_foldl (fun _ _ _ => ?_) ?_
    | with_reducible refine keep_foldl_snd (fun _ _ _ _ => ?_) ?_
    | exact fun _ => rfl
    | exact fun _ h => h
    | split)

theorem execAdmKeyRemove_after {P : State → Prop} (hP : Closed 2640562 P) {h : ExtHdr} {c : Cert} {slice key : Nat} {s : State} (h0 : P s.settle) (hr : s.running = true) {t0 : State}
    (e : execAdmKeyRemove h c slice key s = .next t0) : P t0 := by
  unfold execAdmKeyRemove at e
  cases e
  unfold State.whenUp
  rw [if_pos hr]
  beta_reduce
  repeat' (first
    | with_reducible assumption
    | with_reducible refine State.manage_after (hP.mono rfl) (fun _ _ => ?_) ?_
    | with_reducible refine State.removeKey_ok (hP.mono rfl) ?_ ‹_›
    | with_reducible refine keep_foldl (fun _ _ _ => ?_) ?_
    | with_reducible refine keep_foldl_snd (fun _ _ _ _ => ?_) ?_
    | exact fun _ => rfl
    | exact fun _ h => h
    | split)

theorem execIsolationSet_keeps {P : State → Prop} (hP : Closed 2673394 P) {h : ExtHdr} {c : Cert} {slice index entryValid : Nat} {e : IsoEntry} {s : State}  (h0 : P s) {t0 : State}
    (e : execIsolationSet h c slice index entryValid e s = .next t0) : P t0 := by
  unfold execIsolationSet at e
  cases e
  repeat' (first
    | with_reducible assumption
    | with_reducible refine hP.link rfl _ _ (fun _ _ h => h) ?_
    | with_reducible refine State.whenUp_keeps (hP.mono rfl) (fun _ _ => ?_) ?_
    | with_reducible refine State.manage_keeps (hP.mono rfl) (fun _ _ => ?_) ?_
    | with_reducible refine keep_foldl (fun _ _ _ => ?_) ?_
    | with_reducible refine keep_foldl_snd (fun _ _ _ _ => ?_) ?_
    | exact fun _ => rfl
    | exact fun _ h => h
    | (extract_lets +onlyGivenNames x; refine keep_cut (P x) ?_ (fun _ => ?_); unfold x; clear x; rotate_left; clear_value x)
    | (extract_lets +onlyGivenNames x; refine keep_cut (P x.2) ?_ (fun _ => ?_); unfold x; clear x; rotate_left; clear_value x)
    | (extract_lets +onlyGivenNames x; clear_value x)
    | split)

theorem execIsolationSet_after {P : State → Prop} (hP : Closed 2640434 P) {h : ExtHdr} {c : Cert} {slice index entryValid : Nat} {e : IsoEntry} {s : State} (h0 : P s.settle) (hr : s.running = true) {t0 : State}
    (e : execIsolationSet h c slice index entryValid e s = .next t0) : P t0 := by
  unfold execIsolationSet at e
  cases e
  unfold State.whenUp
  rw [if_pos hr]
  beta_reduce
  repeat' (first
    | with_reducible assumption
    | with_reducible refine hP.link rfl _ _ (fun _ _ h => h) ?_
    | with_reducible refine State.manage_after (hP.mono rfl) (fun _ _ => ?_) ?_
    | with_reducible refine keep_foldl (fun _ _ _ => ?_) ?_
    | with_reducible refine keep_foldl_snd (fun _ _ _ _ => ?_) ?_
    | exact fun _ => rfl
    | exact fun _ h => h
    | (extract_lets +onlyGivenNames x; refine keep_cut (P x) ?_ (fun _ => ?_); unfold x; clear x; rotate_left; clear_value x)
    | (extract_lets +onlyGivenNames x; refine keep_cut (P x.2) ?_ (fun _ => ?_); unfold x; clear x; rotate_left; clear_value x)
    | (extract_lets +onlyGivenNames x; clear_value x)
    | split)

theorem State.setGroup_keeps {P : State → Prop} (hP : Closed 16384 P) {g : Nat} {e : GroupCfg} {s : State}  (h0 : P s) :
    P (State.setGroup g e s) := by
  unfold State.setGroup
  repeat' (first
    | with_reducible assumption
    | with_reducible refine State.refillGroup_keeps (hP.mono rfl) ?_
    | with_reducible refine State.onGroup_keeps (hP.mono rfl) ?_
    | with_reducible refine State.startRamp_keeps (hP.mono rfl) ?_
    | with_reducible refine keep_foldl (fun _ _ _ => ?_) ?_
    | with_reducible refine keep_foldl_snd (fun _ _ _ _ => ?_) ?_
    | (extract_lets +onlyGivenNames x; refine keep_cut (P x) ?_ (fun _ => ?_); unfold x; clear x; rotate_left; clear_value x)
    | (extract_lets +onlyGivenNames x; refine keep_cut (P x.2) ?_ (fun _ => ?_); unfold x; clear x; rotate_left; clear_value x)
    | (extract_lets +onlyGivenNames x; clear_value x)
    | (extract_lets +onlyGivenNames x; unfold x)
    | split)

theorem execGroupSet_keeps {P : State → Prop} (hP : Closed 2673394 P) {h : ExtHdr} {c : Cert} {slice group gClass : Nat} {e : GroupCfg} {s : State}  (h0 : P s) {t0 : State}
    (e : execGroupSet h c slice group gClass e s = .next t0) : P t0 := by
  unfold execGroupSet at e
  cases e
  repeat' (first
    | with_reducible assumption
    | with_reducible refine hP.sch rfl _ _ ?_
    | with_reducible refine State.whenUp_keeps (hP.mono rfl) (fun _ _ => ?_) ?_
    | with_reducible refine State.manage_keeps (hP.mono rfl) (fun _ _ => ?_) ?_
    | with_reducible refine State.setGroup_keeps (hP.mono rfl) ?_
    | with_reducible refine keep_foldl (fun _ _ _ => ?_) ?_
    | with_reducible refine keep_foldl_snd (fun _ _ _ _ => ?_) ?_
    | exact fun _ => rfl
    | exact fun _ h => h
    | split)

theorem execGroupSet_after {P : State → Prop} (hP : Closed 2640498 P) {h : ExtHdr} {c : Cert} {slice group gClass : Nat} {e : GroupCfg} {s : State} (h0 : P s.settle) (hr : s.running = true) {t0 : State}
    (e : execGroupSet h c slice group gClass e s = .next t0) : P t0 := by
  unfold execGroupSet at e
  cases e
  unfold State.whenUp
  rw [if_pos hr]
  beta_reduce
  repeat' (first
    | with_reducible assumption
    | with_reducible refine hP.sch rfl _ _ ?_
    | with_reducible refine State.manage_after (hP.mono rfl) (fun _ _ => ?_) ?_
    | with_reducible refine State.setGroup_keeps (hP.mono rfl) ?_
    | with_reducible refine keep_foldl (fun _ _ _ => ?_) ?_
    | with_reducible refine keep_foldl_snd (fun _ _ _ _ => ?_) ?_
    | exact fun _ => rfl
    | exact fun _ h => h
    | split)

theorem execIsolationExport_keeps {P : State → Prop} (hP : Closed 2673394 P) {h : ExtHdr} {c : Cert} {slice port first count : Nat} {s : State}  (h0 : P s) {t0 : State}
    (e : execIsolationExport h c slice port first count s = .next t0) : P t0 := by
  unfold execIsolationExport at e
  cases e
  repeat' (first
    | with_reducible assumption
    | with_reducible refine State.whenUp_keeps (hP.mono rfl) (fun _ _ => ?_) ?_
    | with_reducible refine State.manage_keeps (hP.mono rfl) (fun _ _ => ?_) ?_
    | with_reducible refine keep_foldl (fun _ _ _ => ?_) ?_
    | with_reducible refine keep_foldl_snd (fun _ _ _ _ => ?_) ?_
    | exact fun _ => rfl
    | exact fun _ h => h
    | (extract_lets +onlyGivenNames x; refine keep_cut (P x) ?_ (fun _ => ?_); unfold x; clear x; rotate_left; clear_value x)
    | (extract_lets +onlyGivenNames x; refine keep_cut (P x.2) ?_ (fun _ => ?_); unfold x; clear x; rotate_left; clear_value x)
    | (extract_lets +onlyGivenNames x; clear_value x)
    | split)

theorem execIsolationExport_after {P : State → Prop} (hP : Closed 2640434 P) {h : ExtHdr} {c : Cert} {slice port first count : Nat} {s : State} (h0 : P s.settle) (hr : s.running = true) {t0 : State}
    (e : execIsolationExport h c slice port first count s = .next t0) : P t0 := by
  unfold execIsolationExport at e
  cases e
  unfold State.whenUp
  rw [if_pos hr]
  beta_reduce
  repeat' (first
    | with_reducible assumption
    | with_reducible refine State.manage_after (hP.mono rfl) (fun _ _ => ?_) ?_
    | with_reducible refine keep_foldl (fun _ _ _ => ?_) ?_
    | with_reducible refine keep_foldl_snd (fun _ _ _ _ => ?_) ?_
    | exact fun _ => rfl
    | exact fun _ h => h
    | (extract_lets +onlyGivenNames x; refine keep_cut (P x) ?_ (fun _ => ?_); unfold x; clear x; rotate_left; clear_value x)
    | (extract_lets +onlyGivenNames x; refine keep_cut (P x.2) ?_ (fun _ => ?_); unfold x; clear x; rotate_left; clear_value x)
    | (extract_lets +onlyGivenNames x; clear_value x)
    | split)

theorem execAdmManifestLoad_keeps {P : State → Prop} (hP : Closed 2673402 P) {h : ExtHdr} {c : Cert} {slice : Nat} {m : Manifest} {s : State}  (h0 : P s) {t0 : State}
    (e : execAdmManifestLoad h c slice m s = .next t0) : P t0 := by
  unfold execAdmManifestLoad at e
  cases e
  repeat' (first
    | with_reducible assumption
    | with_reducible refine State.whenUp_keeps (hP.mono rfl) (fun _ _ => ?_) ?_
    | with_reducible refine State.manage_keeps (hP.mono rfl) (fun _ _ => ?_) ?_
    | with_reducible refine State.loadManifest_keeps (hP.mono rfl) ?_
    | with_reducible refine State.loadManifest_eq (hP.mono rfl) ?_ ‹_›
    | with_reducible refine keep_foldl (fun _ _ _ => ?_) ?_
    | with_reducible refine keep_foldl_snd (fun _ _ _ _ => ?_) ?_
    | exact fun _ => rfl
    | exact fun _ h => h
    | (extract_lets +onlyGivenNames x; refine keep_cut (P x) ?_ (fun _ => ?_); unfold x; clear x; rotate_left; clear_value x)
    | (extract_lets +onlyGivenNames x; refine keep_cut (P x.2) ?_ (fun _ => ?_); unfold x; clear x; rotate_left; clear_value x)
    | (extract_lets +onlyGivenNames x; clear_value x)
    | split)

theorem execAdmManifestLoad_after {P : State → Prop} (hP : Closed 2640442 P) {h : ExtHdr} {c : Cert} {slice : Nat} {m : Manifest} {s : State} (h0 : P s.settle) (hr : s.running = true) {t0 : State}
    (e : execAdmManifestLoad h c slice m s = .next t0) : P t0 := by
  unfold execAdmManifestLoad at e
  cases e
  unfold State.whenUp
  rw [if_pos hr]
  beta_reduce
  repeat' (first
    | with_reducible assumption
    | with_reducible refine State.manage_after (hP.mono rfl) (fun _ _ => ?_) ?_
    | with_reducible refine State.loadManifest_keeps (hP.mono rfl) ?_
    | with_reducible refine State.loadManifest_eq (hP.mono rfl) ?_ ‹_›
    | with_reducible refine keep_foldl (fun _ _ _ => ?_) ?_
    | with_reducible refine keep_foldl_snd (fun _ _ _ _ => ?_) ?_
    | exact fun _ => rfl
    | exact fun _ h => h
    | (extract_lets +onlyGivenNames x; refine keep_cut (P x) ?_ (fun _ => ?_); unfold x; clear x; rotate_left; clear_value x)
    | (extract_lets +onlyGivenNames x; refine keep_cut (P x.2) ?_ (fun _ => ?_); unfold x; clear x; rotate_left; clear_value x)
    | (extract_lets +onlyGivenNames x; clear_value x)
    | split)

theorem State.peer_keeps {P : State → Prop} (hP : Closed 2673344 P) {h : ExtHdr} {cmd : Instr} {variant : Nat} {own : State → Code} {run : Ctx → State → Code × State} {s : State} (krun : ∀ x0 s, P s → P (run x0 s).2) (h0 : P s) :
    P (State.peer h cmd variant own run s) := by
  unfold State.peer
  repeat' (first
    | with_reducible assumption
    | with_reducible refine State.settle_keeps (hP.mono rfl) ?_
    | with_reducible refine State.extended_keeps (hP.mono rfl) ?_ (fun _ _ _ => ?_) ?_
    | with_reducible refine State.onCtx_keeps (hP.mono rfl) (fun _ h => h) ?_
    | with_reducible refine State.onCtx_keeps (hP.mono rfl) (by intro _ h; try dsimp only; split <;> exact h) ?_
    | with_reducible refine State.respond_keeps (hP.mono rfl) ?_
    | with_reducible refine krun _ _ ?_
    | with_reducible refine keep_foldl (fun _ _ _ => ?_) ?_
    | with_reducible refine keep_foldl_snd (fun _ _ _ _ => ?_) ?_
    | exact fun _ => rfl
    | exact fun _ h => h
    | (extract_lets +onlyGivenNames x; refine keep_cut (P x) ?_ (fun _ => ?_); unfold x; clear x; rotate_left; clear_value x)
    | (extract_lets +onlyGivenNames x; refine keep_cut (P x.2) ?_ (fun _ => ?_); unfold x; clear x; rotate_left; clear_value x)
    | (extract_lets +onlyGivenNames x; clear_value x)
    | exact fun _ _ _ h => h
    | split)

theorem State.peer_after {P : State → Prop} (hP : Closed 2115584 P) {h : ExtHdr} {cmd : Instr} {variant : Nat} {own : State → Code} {run : Ctx → State → Code × State} {s : State} (krun : ∀ x0 s, P s → P (run x0 s).2) (h0 : P s.settle) :
    P (State.peer h cmd variant own run s) := by
  unfold State.peer
  repeat' (first
    | with_reducible assumption
    | with_reducible refine State.extended_keeps (hP.mono rfl) ?_ (fun _ _ _ => ?_) ?_
    | with_reducible refine State.onCtx_keeps (hP.mono rfl) (fun _ h => h) ?_
    | with_reducible refine State.onCtx_keeps (hP.mono rfl) (by intro _ h; try dsimp only; split <;> exact h) ?_
    | with_reducible refine State.respond_keeps (hP.mono rfl) ?_
    | with_reducible refine krun _ _ ?_
    | with_reducible refine keep_foldl (fun _ _ _ => ?_) ?_
    | with_reducible refine keep_foldl_snd (fun _ _ _ _ => ?_) ?_
    | exact fun _ => rfl
    | exact fun _ h => h
    | (extract_lets +onlyGivenNames x; refine keep_cut (P x) ?_ (fun _ => ?_); unfold x; clear x; rotate_left; clear_value x)
    | (extract_lets +onlyGivenNames x; refine keep_cut (P x.2) ?_ (fun _ => ?_); unfold x; clear x; rotate_left; clear_value x)
    | (extract_lets +onlyGivenNames x; clear_value x)
    | exact fun _ _ _ h => h
    | split)

theorem State.takeBucket_keeps {P : State → Prop} (hP : Closed 2908032 P) {b : BucketState} {s : State}  (h0 : P s) :
    P (State.takeBucket b s).2 := by
  unfold State.takeBucket
  repeat' (first
    | with_reducible assumption
    | with_reducible refine hP.home rfl _ _ ?_
    | with_reducible refine State.putBucket_keeps (hP.mono rfl) ?_
    | with_reducible refine State.putBucket_some (hP.mono rfl) ?_ ‹_›
    | with_reducible refine keep_foldl (fun _ _ _ => ?_) ?_
    | with_reducible refine keep_foldl_snd (fun _ _ _ _ => ?_) ?_
    | exact fun _ => rfl
    | exact fun _ h => h
    | split
    | with_reducible refine keep_snd ?_)
theorem State.takeBucket_eq {P : State → Prop} (hP : Closed 2908032 P) {b : BucketState} {s : State}  (h0 : P s) {a0 : Code} {t : State}
    (e : State.takeBucket b s = (a0, t)) : P t := by
  have h1 : P (State.takeBucket b s).2 := State.takeBucket_keeps hP h0
  rw [e] at h1
  exact h1

theorem execPeerBucketState_keeps {P : State → Prop} (hP : Closed 2940864 P) {h : ExtHdr} {b : BucketState} {s : State}  (h0 : P s) {t0 : State}
    (e : execPeerBucketState h b s = .next t0) : P t0 := by
  unfold execPeerBucketState at e
  cases e
  repeat' (first
    | with_reducible assumption
    | with_reducible refine State.whenUp_keeps (hP.mono rfl) (fun _ _ => ?_) ?_
    | with_reducible refine State.peer_keeps (hP.mono rfl) (fun _ _ _ => ?_) ?_
    | with_reducible refine State.takeBucket_keeps (hP.mono rfl) ?_
    | with_reducible refine State.takeBucket_eq (hP.mono rfl) ?_ ‹_›
    | with_reducible refine keep_foldl (fun _ _ _ => ?_) ?_
    | with_reducible refine keep_foldl_snd (fun _ _ _ _ => ?_) ?_
    | exact fun _ => rfl
    | exact fun _ h => h
    | split)

theorem execPeerBucketState_after {P : State → Prop} (hP : Closed 2908032 P) {h : ExtHdr} {b : BucketState} {s : State} (h0 : P s.settle) (hr : s.running = true) {t0 : State}
    (e : execPeerBucketState h b s = .next t0) : P t0 := by
  unfold execPeerBucketState at e
  cases e
  unfold State.whenUp
  rw [if_pos hr]
  beta_reduce
  repeat' (first
    | with_reducible assumption
    | with_reducible refine State.peer_after (hP.mono rfl) (fun _ _ _ => ?_) ?_
    | with_reducible refine State.takeBucket_keeps (hP.mono rfl) ?_
    | with_reducible refine State.takeBucket_eq (hP.mono rfl) ?_ ‹_›
    | with_reducible refine keep_foldl (fun _ _ _ => ?_) ?_
    | with_reducible refine keep_foldl_snd (fun _ _ _ _ => ?_) ?_
    | exact fun _ => rfl
    | exact fun _ h => h
    | split)

theorem execPeerCompletionMarker_keeps {P : State → Prop} (hP : Closed 2673344 P) {h : ExtHdr} {fromNode generation : Nat} {s : State}  (h0 : P s) {t0 : State}
    (e : execPeerCompletionMarker h fromNode generation s = .next t0) : P t0 := by
  unfold execPeerCompletionMarker at e
  cases e
  repeat' (first
    | with_reducible assumption
    | with_reducible refine hP.home rfl _ _ ?_
    | with_reducible refine State.whenUp_keeps (hP.mono rfl) (fun _ _ => ?_) ?_
    | with_reducible refine State.peer_keeps (hP.mono rfl) (fun _ _ _ => ?_) ?_
    | with_reducible refine keep_foldl (fun _ _ _ => ?_) ?_
    | with_reducible refine keep_foldl_snd (fun _ _ _ _ => ?_) ?_
    | exact fun _ => rfl
    | exact fun _ h => h
    | split)

theorem execPeerCompletionMarker_after {P : State → Prop} (hP : Closed 2115584 P) {h : ExtHdr} {fromNode generation : Nat} {s : State} (h0 : P s.settle) (hr : s.running = true) {t0 : State}
    (e : execPeerCompletionMarker h fromNode generation s = .next t0) : P t0 := by
  unfold execPeerCompletionMarker at e
  cases e
  unfold State.whenUp
  rw [if_pos hr]
  beta_reduce
  repeat' (first
    | with_reducible assumption
    | with_reducible refine hP.home rfl _ _ ?_
    | with_reducible refine State.peer_after (hP.mono rfl) (fun _ _ _ => ?_) ?_
    | with_reducible refine keep_foldl (fun _ _ _ => ?_) ?_
    | with_reducible refine keep_foldl_snd (fun _ _ _ _ => ?_) ?_
    | exact fun _ => rfl
    | exact fun _ h => h
    | split)

theorem State.takeCopy_keeps {P : State → Prop} (hP : Closed 2903936 P) {r : ReplicaCopy} {s : State}  (h0 : P s) :
    P (State.takeCopy r s).2 := by
  unfold State.takeCopy
  repeat' (first
    | with_reducible assumption
    | with_reducible refine hP.home rfl _ _ ?_
    | with_reducible refine State.discardPage_keeps (hP.mono rfl) ?_
    | with_reducible refine State.putPage_keeps (hP.mono rfl) ?_
    | with_reducible refine State.putPage_some (hP.mono rfl) ?_ ‹_›
    | with_reducible refine State.onEntry_keeps (hP.mono rfl) ?_
    | with_reducible refine keep_foldl (fun _ _ _ => ?_) ?_
    | with_reducible refine keep_foldl_snd (fun _ _ _ _ => ?_) ?_
    | exact fun _ => rfl
    | exact fun _ h => h
    | (extract_lets +onlyGivenNames x; refine keep_cut (P x) ?_ (fun _ => ?_); unfold x; clear x; rotate_left; clear_value x)
    | (extract_lets +onlyGivenNames x; refine keep_cut (P x.2) ?_ (fun _ => ?_); unfold x; clear x; rotate_left; clear_value x)
    | (extract_lets +onlyGivenNames x; clear_value x)
    | split
    | with_reducible refine keep_snd ?_)
theorem State.takeCopy_eq {P : State → Prop} (hP : Closed 2903936 P) {r : ReplicaCopy} {s : State}  (h0 : P s) {a0 : Code} {t : State}
    (e : State.takeCopy r s = (a0, t)) : P t := by
  have h1 : P (State.takeCopy r s).2 := State.takeCopy_keeps hP h0
  rw [e] at h1
  exact h1

theorem execPeerReplicaCopy_keeps {P : State → Prop} (hP : Closed 2936768 P) {h : ExtHdr} {r : ReplicaCopy} {s : State}  (h0 : P s) {t0 : State}
    (e : execPeerReplicaCopy h r s = .next t0) : P t0 := by
  unfold execPeerReplicaCopy at e
  cases e
  repeat' (first
    | with_reducible assumption
    | with_reducible refine State.whenUp_keeps (hP.mono rfl) (fun _ _ => ?_) ?_
    | with_reducible refine State.peer_keeps (hP.mono rfl) (fun _ _ _ => ?_) ?_
    | with_reducible refine State.takeCopy_keeps (hP.mono rfl) ?_
    | with_reducible refine State.takeCopy_eq (hP.mono rfl) ?_ ‹_›
    | with_reducible refine keep_foldl (fun _ _ _ => ?_) ?_
    | with_reducible refine keep_foldl_snd (fun _ _ _ _ => ?_) ?_
    | exact fun _ => rfl
    | exact fun _ h => h
    | split)

theorem execPeerReplicaCopy_after {P : State → Prop} (hP : Closed 2903936 P) {h : ExtHdr} {r : ReplicaCopy} {s : State} (h0 : P s.settle) (hr : s.running = true) {t0 : State}
    (e : execPeerReplicaCopy h r s = .next t0) : P t0 := by
  unfold execPeerReplicaCopy at e
  cases e
  unfold State.whenUp
  rw [if_pos hr]
  beta_reduce
  repeat' (first
    | with_reducible assumption
    | with_reducible refine State.peer_after (hP.mono rfl) (fun _ _ _ => ?_) ?_
    | with_reducible refine State.takeCopy_keeps (hP.mono rfl) ?_
    | with_reducible refine State.takeCopy_eq (hP.mono rfl) ?_ ‹_›
    | with_reducible refine keep_foldl (fun _ _ _ => ?_) ?_
    | with_reducible refine keep_foldl_snd (fun _ _ _ _ => ?_) ?_
    | exact fun _ => rfl
    | exact fun _ h => h
    | split)

theorem execPeerGrant_keeps {P : State → Prop} (hP : Closed 2673344 P) {h : ExtHdr} {slice : Nat} {name : PageName} {frameGen : Nat} {s : State}  (h0 : P s) {t0 : State}
    (e : execPeerGrant h slice name frameGen s = .next t0) : P t0 := by
  unfold execPeerGrant at e
  cases e
  repeat' (first
    | with_reducible assumption
    | with_reducible refine hP.home rfl _ _ ?_
    | with_reducible refine State.whenUp_keeps (hP.mono rfl) (fun _ _ => ?_) ?_
    | with_reducible refine State.peer_keeps (hP.mono rfl) (fun _ _ _ => ?_) ?_
    | with_reducible refine keep_foldl (fun _ _ _ => ?_) ?_
    | with_reducible refine keep_foldl_snd (fun _ _ _ _ => ?_) ?_
    | exact fun _ => rfl
    | exact fun _ h => h
    | split)

theorem execPeerGrant_after {P : State → Prop} (hP : Closed 2115584 P) {h : ExtHdr} {slice : Nat} {name : PageName} {frameGen : Nat} {s : State} (h0 : P s.settle) (hr : s.running = true) {t0 : State}
    (e : execPeerGrant h slice name frameGen s = .next t0) : P t0 := by
  unfold execPeerGrant at e
  cases e
  unfold State.whenUp
  rw [if_pos hr]
  beta_reduce
  repeat' (first
    | with_reducible assumption
    | with_reducible refine hP.home rfl _ _ ?_
    | with_reducible refine State.peer_after (hP.mono rfl) (fun _ _ _ => ?_) ?_
    | with_reducible refine keep_foldl (fun _ _ _ => ?_) ?_
    | with_reducible refine keep_foldl_snd (fun _ _ _ _ => ?_) ?_
    | exact fun _ => rfl
    | exact fun _ h => h
    | split)

theorem execPeerRevoke_keeps {P : State → Prop} (hP : Closed 2673344 P) {h : ExtHdr} {slice : Nat} {name : PageName} {s : State}  (h0 : P s) {t0 : State}
    (e : execPeerRevoke h slice name s = .next t0) : P t0 := by
  unfold execPeerRevoke at e
  cases e
  repeat' (first
    | with_reducible assumption
    | with_reducible refine hP.home rfl _ _ ?_
    | with_reducible refine State.whenUp_keeps (hP.mono rfl) (fun _ _ => ?_) ?_
    | with_reducible refine State.peer_keeps (hP.mono rfl) (fun _ _ _ => ?_) ?_
    | with_reducible refine keep_foldl (fun _ _ _ => ?_) ?_
    | with_reducible refine keep_foldl_snd (fun _ _ _ _ => ?_) ?_
    | exact fun _ => rfl
    | exact fun _ h => h
    | split)

theorem execPeerRevoke_after {P : State → Prop} (hP : Closed 2115584 P) {h : ExtHdr} {slice : Nat} {name : PageName} {s : State} (h0 : P s.settle) (hr : s.running = true) {t0 : State}
    (e : execPeerRevoke h slice name s = .next t0) : P t0 := by
  unfold execPeerRevoke at e
  cases e
  unfold State.whenUp
  rw [if_pos hr]
  beta_reduce
  repeat' (first
    | with_reducible assumption
    | with_reducible refine hP.home rfl _ _ ?_
    | with_reducible refine State.peer_after (hP.mono rfl) (fun _ _ _ => ?_) ?_
    | with_reducible refine keep_foldl (fun _ _ _ => ?_) ?_
    | with_reducible refine keep_foldl_snd (fun _ _ _ _ => ?_) ?_
    | exact fun _ => rfl
    | exact fun _ h => h
    | split)

theorem execPeerRelabel_keeps {P : State → Prop} (hP : Closed 2673344 P) {h : ExtHdr} {slice : Nat} {name : PageName} {oldGen newGen : Nat} {s : State}  (h0 : P s) {t0 : State}
    (e : execPeerRelabel h slice name oldGen newGen s = .next t0) : P t0 := by
  unfold execPeerRelabel at e
  cases e
  repeat' (first
    | with_reducible assumption
    | with_reducible refine hP.home rfl _ _ ?_
    | with_reducible refine State.whenUp_keeps (hP.mono rfl) (fun _ _ => ?_) ?_
    | with_reducible refine State.peer_keeps (hP.mono rfl) (fun _ _ _ => ?_) ?_
    | with_reducible refine State.onEntry_keeps (hP.mono rfl) ?_
    | with_reducible refine keep_foldl (fun _ _ _ => ?_) ?_
    | with_reducible refine keep_foldl_snd (fun _ _ _ _ => ?_) ?_
    | exact fun _ => rfl
    | exact fun _ h => h
    | split)

theorem execPeerRelabel_after {P : State → Prop} (hP : Closed 2640384 P) {h : ExtHdr} {slice : Nat} {name : PageName} {oldGen newGen : Nat} {s : State} (h0 : P s.settle) (hr : s.running = true) {t0 : State}
    (e : execPeerRelabel h slice name oldGen newGen s = .next t0) : P t0 := by
  unfold execPeerRelabel at e
  cases e
  unfold State.whenUp
  rw [if_pos hr]
  beta_reduce
  repeat' (first
    | with_reducible assumption
    | with_reducible refine hP.home rfl _ _ ?_
    | with_reducible refine State.peer_after (hP.mono rfl) (fun _ _ _ => ?_) ?_
    | with_reducible refine State.onEntry_keeps (hP.mono rfl) ?_
    | with_reducible refine keep_foldl (fun _ _ _ => ?_) ?_
    | with_reducible refine keep_foldl_snd (fun _ _ _ _ => ?_) ?_
    | exact fun _ => rfl
    | exact fun _ h => h
    | split)

theorem execPeerDrop_keeps {P : State → Prop} (hP : Closed 2673344 P) {h : ExtHdr} {slice : Nat} {name : PageName} {s : State}  (h0 : P s) {t0 : State}
    (e : execPeerDrop h slice name s = .next t0) : P t0 := by
  unfold execPeerDrop at e
  cases e
  repeat' (first
    | with_reducible assumption
    | with_reducible refine hP.home rfl _ _ ?_
    | with_reducible refine State.whenUp_keeps (hP.mono rfl) (fun _ _ => ?_) ?_
    | with_reducible refine State.peer_keeps (hP.mono rfl) (fun _ _ _ => ?_) ?_
    | with_reducible refine State.discardPage_keeps (hP.mono rfl) ?_
    | with_reducible refine keep_foldl (fun _ _ _ => ?_) ?_
    | with_reducible refine keep_foldl_snd (fun _ _ _ _ => ?_) ?_
    | exact fun _ => rfl
    | exact fun _ h => h
    | (extract_lets +onlyGivenNames x; refine keep_cut (P x) ?_ (fun _ => ?_); unfold x; clear x; rotate_left; clear_value x)
    | (extract_lets +onlyGivenNames x; refine keep_cut (P x.2) ?_ (fun _ => ?_); unfold x; clear x; rotate_left; clear_value x)
    | (extract_lets +onlyGivenNames x; clear_value x)
    | split)

theorem execPeerDrop_after {P : State → Prop} (hP : Closed 2640512 P) {h : ExtHdr} {slice : Nat} {name : PageName} {s : State} (h0 : P s.settle) (hr : s.running = true) {t0 : State}
    (e : execPeerDrop h slice name s = .next t0) : P t0 := by
  unfold execPeerDrop at e
  cases e
  unfold State.whenUp
  rw [if_pos hr]
  beta_reduce
  repeat' (first
    | with_reducible assumption
    | with_reducible refine hP.home rfl _ _ ?_
    | with_reducible refine State.peer_after (hP.mono rfl) (fun _ _ _ => ?_) ?_
    | with_reducible refine State.discardPage_keeps (hP.mono rfl) ?_
    | with_reducible refine keep_foldl (fun _ _ _ => ?_) ?_
    | with_reducible refine keep_foldl_snd (fun _ _ _ _ => ?_) ?_
    | exact fun _ => rfl
    | exact fun _ h => h
    | (extract_lets +onlyGivenNames x; refine keep_cut (P x) ?_ (fun _ => ?_); unfold x; clear x; rotate_left; clear_value x)
    | (extract_lets +onlyGivenNames x; refine keep_cut (P x.2) ?_ (fun _ => ?_); unfold x; clear x; rotate_left; clear_value x)
    | (extract_lets +onlyGivenNames x; clear_value x)
    | split)

theorem State.peerAcked_keeps {P : State → Prop} (hP : Closed 3006448 P) {a : PeerAck} {s : State}  (h0 : P s) :
    P (State.peerAcked a s) := by
  unfold State.peerAcked
  repeat' (first
    | with_reducible assumption
    | with_reducible refine hP.home rfl _ _ ?_
    | with_reducible refine State.forgetNames_keeps (hP.mono rfl) ?_
    | with_reducible refine State.onCopy_keeps (hP.mono rfl) ?_
    | with_reducible refine State.grantCopy_keeps (hP.mono rfl) ?_
    | with_reducible refine State.grantsMoved_keeps (hP.mono rfl) ?_
    | with_reducible refine keep_foldl (fun _ _ _ => ?_) ?_
    | with_reducible refine keep_foldl_snd (fun _ _ _ _ => ?_) ?_
    | exact fun _ => rfl
    | exact fun _ h => h
    | (extract_lets +onlyGivenNames x; refine keep_cut (P x) ?_ (fun _ => ?_); unfold x; clear x; rotate_left; clear_value x)
    | (extract_lets +onlyGivenNames x; refine keep_cut (P x.2) ?_ (fun _ => ?_); unfold x; clear x; rotate_left; clear_value x)
    | (extract_lets +onlyGivenNames x; clear_value x)
    | split)

theorem execPeerAcknowledgement_keeps {P : State → Prop} (hP : Closed 3006448 P) {k : Pkt} {a : PeerAck} {s : State}  (h0 : P s) {t0 : State}
    (e : execPeerAcknowledgement k a s = .next t0) : P t0 := by
  unfold execPeerAcknowledgement at e
  cases e
  repeat' (first
    | with_reducible assumption
    | with_reducible refine State.whenUp_keeps (hP.mono rfl) (fun _ _ => ?_) ?_
    | with_reducible refine State.settle_keeps (hP.mono rfl) ?_
    | with_reducible refine State.receive_over (hP.mono rfl) ?_ ‹_›
    | with_reducible refine State.receive_fresh (hP.mono rfl) ?_ ‹_›
    | with_reducible refine State.receive_duplicate (hP.mono rfl) ?_ ‹_›
    | with_reducible refine State.sendControl_keeps (hP.mono rfl) ?_
    | with_reducible refine State.acceptPsn_keeps (hP.mono rfl) ?_
    | with_reducible refine State.onCtx_keeps (hP.mono rfl) (fun _ h => h) ?_
    | with_reducible refine State.onCtx_keeps (hP.mono rfl) (by intro _ h; try dsimp only; split <;> exact h) ?_
    | with_reducible refine State.peerAcked_keeps (hP.mono rfl) ?_
    | with_reducible refine keep_foldl (fun _ _ _ => ?_) ?_
    | with_reducible refine keep_foldl_snd (fun _ _ _ _ => ?_) ?_
    | exact fun _ => rfl
    | exact fun _ h => h
    | (extract_lets +onlyGivenNames x; refine keep_cut (P x) ?_ (fun _ => ?_); unfold x; clear x; rotate_left; clear_value x)
    | (extract_lets +onlyGivenNames x; refine keep_cut (P x.2) ?_ (fun _ => ?_); unfold x; clear x; rotate_left; clear_value x)
    | (extract_lets +onlyGivenNames x; clear_value x)
    | split)

theorem execPeerAcknowledgement_after {P : State → Prop} (hP : Closed 3006448 P) {k : Pkt} {a : PeerAck} {s : State} (h0 : P s.settle) (hr : s.running = true) {t0 : State}
    (e : execPeerAcknowledgement k a s = .next t0) : P t0 := by
  unfold execPeerAcknowledgement at e
  cases e
  unfold State.whenUp
  rw [if_pos hr]
  beta_reduce
  repeat' (first
    | with_reducible assumption
    | with_reducible refine State.receive_over (hP.mono rfl) ?_ ‹_›
    | with_reducible refine State.receive_fresh (hP.mono rfl) ?_ ‹_›
    | with_reducible refine State.receive_duplicate (hP.mono rfl) ?_ ‹_›
    | with_reducible refine State.sendControl_keeps (hP.mono rfl) ?_
    | with_reducible refine State.acceptPsn_keeps (hP.mono rfl) ?_
    | with_reducible refine State.onCtx_keeps (hP.mono rfl) (fun _ h => h) ?_
    | with_reducible refine State.onCtx_keeps (hP.mono rfl) (by intro _ h; try dsimp only; split <;> exact h) ?_
    | with_reducible refine State.peerAcked_keeps (hP.mono rfl) ?_
    | with_reducible refine keep_foldl (fun _ _ _ => ?_) ?_
    | with_reducible refine keep_foldl_snd (fun _ _ _ _ => ?_) ?_
    | exact fun _ => rfl
    | exact fun _ h => h
    | (extract_lets +onlyGivenNames x; refine keep_cut (P x) ?_ (fun _ => ?_); unfold x; clear x; rotate_left; clear_value x)
    | (extract_lets +onlyGivenNames x; refine keep_cut (P x.2) ?_ (fun _ => ?_); unfold x; clear x; rotate_left; clear_value x)
    | (extract_lets +onlyGivenNames x; clear_value x)
    | split)

end Sys2Proof.Machine
end

