-- ==== Sys2Proof/Laws/KeepPackets.lean ====
section
/-! SUPPORT. What the operations of Machine/Packets.lean touch: each keeps every predicate that is closed under the parts named. -/

namespace Sys2Proof.Machine

set_option linter.unusedTactic false
set_option linter.unreachableTactic false
set_option linter.unusedVariables false
set_option linter.tactic.unusedName false

theorem State.paced_keeps {P : State → Prop} (hP : Closed 2097152 P) {q : Nat} {ps : List TxPkt} {s : State}  (h0 : P s) :
    P (State.paced q ps s) := by
  unfold State.paced
  repeat' (first
    | with_reducible assumption
    | with_reducible refine State.onCtx_keeps (hP.mono rfl) (fun _ h => h) ?_
    | with_reducible refine State.onCtx_keeps (hP.mono rfl) (by intro _ h; try dsimp only; split <;> exact h) ?_
    | with_reducible refine keep_foldl (fun _ _ _ => ?_) ?_
    | with_reducible refine keep_foldl_snd (fun _ _ _ _ => ?_) ?_
    | split)

theorem State.advance_keeps {P : State → Prop} (hP : Closed 2097152 P) {q packets messages : Nat} {s : State}  (h0 : P s) :
    P (State.advance q packets messages s) := by
  unfold State.advance
  repeat' (first
    | with_reducible assumption
    | with_reducible refine State.onCtx_keeps (hP.mono rfl) (fun _ h => h) ?_
    | with_reducible refine State.onCtx_keeps (hP.mono rfl) (by intro _ h; try dsimp only; split <;> exact h) ?_
    | with_reducible refine keep_foldl (fun _ _ _ => ?_) ?_
    | with_reducible refine keep_foldl_snd (fun _ _ _ _ => ?_) ?_
    | split)

theorem State.readKey_keeps {P : State → Prop} (hP : Closed 16640 P) {key va len : Nat} {s : State}  (h0 : P s) :
    P (State.readKey key va len s) := by
  unfold State.readKey
  repeat' (first
    | with_reducible assumption
    | with_reducible refine State.busReads_keeps (hP.mono rfl) ?_
    | with_reducible refine keep_foldl (fun _ _ _ => ?_) ?_
    | with_reducible refine keep_foldl_snd (fun _ _ _ _ => ?_) ?_
    | split)

theorem State.sendRead_keeps {P : State → Prop} (hP : Closed 2097152 P) {k : Pkt} {c : Ctx} {data : List Byte} {s : State}  (h0 : P s) :
    P (State.sendRead k c data s) := by
  unfold State.sendRead
  repeat' (first
    | with_reducible assumption
    | with_reducible refine State.paced_keeps (hP.mono rfl) ?_
    | with_reducible refine keep_foldl (fun _ _ _ => ?_) ?_
    | with_reducible refine keep_foldl_snd (fun _ _ _ _ => ?_) ?_
    | (extract_lets +onlyGivenNames x; refine keep_cut (P x) ?_ (fun _ => ?_); unfold x; clear x; rotate_left; clear_value x)
    | (extract_lets +onlyGivenNames x; refine keep_cut (P x.2) ?_ (fun _ => ?_); unfold x; clear x; rotate_left; clear_value x)
    | (extract_lets +onlyGivenNames x; clear_value x)
    | split)

theorem State.read_keeps {P : State → Prop} (hP : Closed 2681792 P) {k : Pkt} {rkey va len : Nat} {s : State}  (h0 : P s) :
    P (State.read k rkey va len s) := by
  unfold State.read
  repeat' (first
    | with_reducible assumption
    | with_reducible refine State.receive_over (hP.mono rfl) ?_ ‹_›
    | with_reducible refine State.receive_fresh (hP.mono rfl) ?_ ‹_›
    | with_reducible refine State.receive_duplicate (hP.mono rfl) ?_ ‹_›
    | with_reducible refine State.readKey_keeps (hP.mono rfl) ?_
    | with_reducible refine State.sendRead_keeps (hP.mono rfl) ?_
    | with_reducible refine State.countAdmitted_keeps (hP.mono rfl) ?_
    | with_reducible refine State.advance_keeps (hP.mono rfl) ?_
    | with_reducible refine State.stdRefuse_keeps (hP.mono rfl) ?_
    | with_reducible refine keep_foldl (fun _ _ _ => ?_) ?_
    | with_reducible refine keep_foldl_snd (fun _ _ _ _ => ?_) ?_
    | exact fun _ => rfl
    | exact fun _ h => h
    | (extract_lets +onlyGivenNames x; refine keep_cut (P x) ?_ (fun _ => ?_); unfold x; clear x; rotate_left; clear_value x)
    | (extract_lets +onlyGivenNames x; refine keep_cut (P x.2) ?_ (fun _ => ?_); unfold x; clear x; rotate_left; clear_value x)
    | (extract_lets +onlyGivenNames x; clear_value x)
    | split)

theorem execRdmaReadRequest_keeps {P : State → Prop} (hP : Closed 2681792 P) {k : Pkt} {rkey va len : Nat} {s : State}  (h0 : P s) {t0 : State}
    (e : execRdmaReadRequest k rkey va len s = .next t0) : P t0 := by
  unfold execRdmaReadRequest at e
  cases e
  repeat' (first
    | with_reducible assumption
    | with_reducible refine State.whenUp_keeps (hP.mono rfl) (fun _ _ => ?_) ?_
    | with_reducible refine State.settle_keeps (hP.mono rfl) ?_
    | with_reducible refine State.read_keeps (hP.mono rfl) ?_
    | with_reducible refine keep_foldl (fun _ _ _ => ?_) ?_
    | with_reducible refine keep_foldl_snd (fun _ _ _ _ => ?_) ?_
    | exact fun _ => rfl
    | exact fun _ h => h
    | split)

theorem execRdmaReadRequest_after {P : State → Prop} (hP : Closed 2681792 P) {k : Pkt} {rkey va len : Nat} {s : State} (h0 : P s.settle) (hr : s.running = true) {t0 : State}
    (e : execRdmaReadRequest k rkey va len s = .next t0) : P t0 := by
  unfold execRdmaReadRequest at e
  cases e
  unfold State.whenUp
  rw [if_pos hr]
  beta_reduce
  repeat' (first
    | with_reducible assumption
    | with_reducible refine State.read_keeps (hP.mono rfl) ?_
    | with_reducible refine keep_foldl (fun _ _ _ => ?_) ?_
    | with_reducible refine keep_foldl_snd (fun _ _ _ _ => ?_) ?_
    | exact fun _ => rfl
    | exact fun _ h => h
    | split)

theorem State.applyWrite_keeps {P : State → Prop} (hP : Closed 2674672 P) {c : Ctx} {key va : Nat} {d : List Byte} {s : State}  (h0 : P s) :
    P (State.applyWrite c key va d s) := by
  unfold State.applyWrite
  repeat' (first
    | with_reducible assumption
    | with_reducible refine State.busBytes_keeps (hP.mono rfl) ?_
    | with_reducible refine State.writePage_keeps (hP.mono rfl) ?_
    | with_reducible refine keep_foldl (fun _ _ _ => ?_) ?_
    | with_reducible refine keep_foldl_snd (fun _ _ _ _ => ?_) ?_
    | exact fun _ => rfl
    | exact fun _ h => h
    | (extract_lets +onlyGivenNames x; refine keep_cut (P x) ?_ (fun _ => ?_); unfold x; clear x; rotate_left; clear_value x)
    | (extract_lets +onlyGivenNames x; refine keep_cut (P x.2) ?_ (fun _ => ?_); unfold x; clear x; rotate_left; clear_value x)
    | (extract_lets +onlyGivenNames x; clear_value x)
    | split)

theorem State.writeFresh_keeps {P : State → Prop} (hP : Closed 2682864 P) {k : Pkt} {pos : WritePos} {rkey va dmaLen : Nat} {d : List Byte} {c : Ctx} {s : State}  (h0 : P s) :
    P (State.writeFresh k pos rkey va dmaLen d c s) := by
  unfold State.writeFresh
  repeat' (first
    | with_reducible assumption
    | with_reducible refine State.countAdmitted_keeps (hP.mono rfl) ?_
    | with_reducible refine State.applyWrite_keeps (hP.mono rfl) ?_
    | with_reducible refine State.onCtx_keeps (hP.mono rfl) (fun _ h => h) ?_
    | with_reducible refine State.onCtx_keeps (hP.mono rfl) (by intro _ h; try dsimp only; split <;> exact h) ?_
    | with_reducible refine State.acceptPsn_keeps (hP.mono rfl) ?_
    | with_reducible refine State.advance_keeps (hP.mono rfl) ?_
    | with_reducible refine State.stdRefuse_keeps (hP.mono rfl) ?_
    | with_reducible refine keep_foldl (fun _ _ _ => ?_) ?_
    | with_reducible refine keep_foldl_snd (fun _ _ _ _ => ?_) ?_
    | exact fun _ => rfl
    | exact fun _ h => h
    | (extract_lets +onlyGivenNames x; refine keep_cut (P x) ?_ (fun _ => ?_); unfold x; clear x; rotate_left; clear_value x)
    | (extract_lets +onlyGivenNames x; refine keep_cut (P x.2) ?_ (fun _ => ?_); unfold x; clear x; rotate_left; clear_value x)
    | (extract_lets +onlyGivenNames x; clear_value x)
    | split)

theorem State.writeDup_keeps {P : State → Prop} (hP : Closed 2674672 P) {k : Pkt} {pos : WritePos} {rkey va dmaLen : Nat} {d : List Byte} {c : Ctx} {s : State}  (h0 : P s) :
    P (State.writeDup k pos rkey va dmaLen d c s) := by
  unfold State.writeDup
  repeat' (first
    | with_reducible assumption
    | with_reducible refine hP.link rfl _ _ (fun _ _ h => h) ?_
    | with_reducible refine State.applyWrite_keeps (hP.mono rfl) ?_
    | with_reducible refine State.onCtx_keeps (hP.mono rfl) (fun _ h => h) ?_
    | with_reducible refine State.onCtx_keeps (hP.mono rfl) (by intro _ h; try dsimp only; split <;> exact h) ?_
    | with_reducible refine State.sendControl_keeps (hP.mono rfl) ?_
    | with_reducible refine keep_foldl (fun _ _ _ => ?_) ?_
    | with_reducible refine keep_foldl_snd (fun _ _ _ _ => ?_) ?_
    | exact fun _ => rfl
    | exact fun _ h => h
    | (extract_lets +onlyGivenNames x; refine keep_cut (P x) ?_ (fun _ => ?_); unfold x; clear x; rotate_left; clear_value x)
    | (extract_lets +onlyGivenNames x; refine keep_cut (P x.2) ?_ (fun _ => ?_); unfold x; clear x; rotate_left; clear_value x)
    | (extract_lets +onlyGivenNames x; clear_value x)
    | split)

theorem execRdmaWrite_keeps {P : State → Prop} (hP : Closed 2682864 P) {k : Pkt} {pos : WritePos} {rkey va dmaLen : Nat} {data : List Byte} {s : State}  (h0 : P s) {t0 : State}
    (e : execRdmaWrite k pos rkey va dmaLen data s = .next t0) : P t0 := by
  unfold execRdmaWrite at e
  cases e
  repeat' (first
    | with_reducible assumption
    | with_reducible refine State.whenUp_keeps (hP.mono rfl) (fun _ _ => ?_) ?_
    | with_reducible refine State.settle_keeps (hP.mono rfl) ?_
    | with_reducible refine State.receive_over (hP.mono rfl) ?_ ‹_›
    | with_reducible refine State.receive_fresh (hP.mono rfl) ?_ ‹_›
    | with_reducible refine State.receive_duplicate (hP.mono rfl) ?_ ‹_›
    | with_reducible refine State.writeDup_keeps (hP.mono rfl) ?_
    | with_reducible refine State.writeFresh_keeps (hP.mono rfl) ?_
    | with_reducible refine keep_foldl (fun _ _ _ => ?_) ?_
    | with_reducible refine keep_foldl_snd (fun _ _ _ _ => ?_) ?_
    | exact fun _ => rfl
    | exact fun _ h => h
    | (extract_lets +onlyGivenNames x; refine keep_cut (P x) ?_ (fun _ => ?_); unfold x; clear x; rotate_left; clear_value x)
    | (extract_lets +onlyGivenNames x; refine keep_cut (P x.2) ?_ (fun _ => ?_); unfold x; clear x; rotate_left; clear_value x)
    | (extract_lets +onlyGivenNames x; clear_value x)
    | split)

theorem execRdmaWrite_after {P : State → Prop} (hP : Closed 2682864 P) {k : Pkt} {pos : WritePos} {rkey va dmaLen : Nat} {data : List Byte} {s : State} (h0 : P s.settle) (hr : s.running = true) {t0 : State}
    (e : execRdmaWrite k pos rkey va dmaLen data s = .next t0) : P t0 := by
  unfold execRdmaWrite at e
  cases e
  unfold State.whenUp
  rw [if_pos hr]
  beta_reduce
  repeat' (first
    | with_reducible assumption
    | with_reducible refine State.receive_over (hP.mono rfl) ?_ ‹_›
    | with_reducible refine State.receive_fresh (hP.mono rfl) ?_ ‹_›
    | with_reducible refine State.receive_duplicate (hP.mono rfl) ?_ ‹_›
    | with_reducible refine State.writeDup_keeps (hP.mono rfl) ?_
    | with_reducible refine State.writeFresh_keeps (hP.mono rfl) ?_
    | with_reducible refine keep_foldl (fun _ _ _ => ?_) ?_
    | with_reducible refine keep_foldl_snd (fun _ _ _ _ => ?_) ?_
    | exact fun _ => rfl
    | exact fun _ h => h
    | (extract_lets +onlyGivenNames x; refine keep_cut (P x) ?_ (fun _ => ?_); unfold x; clear x; rotate_left; clear_value x)
    | (extract_lets +onlyGivenNames x; refine keep_cut (P x.2) ?_ (fun _ => ?_); unfold x; clear x; rotate_left; clear_value x)
    | (extract_lets +onlyGivenNames x; clear_value x)
    | split)

theorem State.sendAtomic_keeps {P : State → Prop} (hP : Closed 2097152 P) {k : Pkt} {c : Ctx} {orig : Nat} {s : State}  (h0 : P s) :
    P (State.sendAtomic k c orig s) := by
  unfold State.sendAtomic
  repeat' (first
    | with_reducible assumption
    | with_reducible refine State.paced_keeps (hP.mono rfl) ?_
    | with_reducible refine keep_foldl (fun _ _ _ => ?_) ?_
    | with_reducible refine keep_foldl_snd (fun _ _ _ _ => ?_) ?_
    | split)

theorem State.atomic_keeps {P : State → Prop} (hP : Closed 2682864 P) {k : Pkt} {cmd : Instr} {rkey va : Nat} {parses : Bool} {f : Nat → Nat} {s : State}  (h0 : P s) :
    P (State.atomic k cmd rkey va parses f s) := by
  unfold State.atomic
  repeat' (first
    | with_reducible assumption
    | with_reducible refine State.receive_over (hP.mono rfl) ?_ ‹_›
    | with_reducible refine State.receive_fresh (hP.mono rfl) ?_ ‹_›
    | with_reducible refine State.receive_duplicate (hP.mono rfl) ?_ ‹_›
    | with_reducible refine State.sendAtomic_keeps (hP.mono rfl) ?_
    | with_reducible refine State.onCtx_keeps (hP.mono rfl) (fun _ h => h) ?_
    | with_reducible refine State.onCtx_keeps (hP.mono rfl) (by intro _ h; try dsimp only; split <;> exact h) ?_
    | with_reducible refine State.qpError_keeps (hP.mono rfl) ?_
    | with_reducible refine State.sendControl_keeps (hP.mono rfl) ?_
    | with_reducible refine State.countAdmitted_keeps (hP.mono rfl) ?_
    | with_reducible refine State.readKey_keeps (hP.mono rfl) ?_
    | with_reducible refine State.applyWrite_keeps (hP.mono rfl) ?_
    | with_reducible refine State.advance_keeps (hP.mono rfl) ?_
    | with_reducible refine State.stdRefuse_keeps (hP.mono rfl) ?_
    | with_reducible refine keep_foldl (fun _ _ _ => ?_) ?_
    | with_reducible refine keep_foldl_snd (fun _ _ _ _ => ?_) ?_
    | exact fun _ => rfl
    | exact fun _ h => h
    | (extract_lets +onlyGivenNames x; refine keep_cut (P x) ?_ (fun _ => ?_); unfold x; clear x; rotate_left; clear_value x)
    | (extract_lets +onlyGivenNames x; refine keep_cut (P x.2) ?_ (fun _ => ?_); unfold x; clear x; rotate_left; clear_value x)
    | (extract_lets +onlyGivenNames x; clear_value x)
    | split)

theorem execCompareAndSwap_keeps {P : State → Prop} (hP : Closed 2682864 P) {k : Pkt} {rkey va compare swap : Nat} {s : State}  (h0 : P s) {t0 : State}
    (e : execCompareAndSwap k rkey va compare swap s = .next t0) : P t0 := by
  unfold execCompareAndSwap at e
  cases e
  repeat' (first
    | with_reducible assumption
    | with_reducible refine State.whenUp_keeps (hP.mono rfl) (fun _ _ => ?_) ?_
    | with_reducible refine State.settle_keeps (hP.mono rfl) ?_
    | with_reducible refine State.atomic_keeps (hP.mono rfl) ?_
    | with_reducible refine keep_foldl (fun _ _ _ => ?_) ?_
    | with_reducible refine keep_foldl_snd (fun _ _ _ _ => ?_) ?_
    | exact fun _ => rfl
    | exact fun _ h => h
    | split)

theorem execCompareAndSwap_after {P : State → Prop} (hP : Closed 2682864 P) {k : Pkt} {rkey va compare swap : Nat} {s : State} (h0 : P s.settle) (hr : s.running = true) {t0 : State}
    (e : execCompareAndSwap k rkey va compare swap s = .next t0) : P t0 := by
  unfold execCompareAndSwap at e
  cases e
  unfold State.whenUp
  rw [if_pos hr]
  beta_reduce
  repeat' (first
    | with_reducible assumption
    | with_reducible refine State.atomic_keeps (hP.mono rfl) ?_
    | with_reducible refine keep_foldl (fun _ _ _ => ?_) ?_
    | with_reducible refine keep_foldl_snd (fun _ _ _ _ => ?_) ?_
    | exact fun _ => rfl
    | exact fun _ h => h
    | split)

theorem execFetchAndAdd_keeps {P : State → Prop} (hP : Closed 2682864 P) {k : Pkt} {rkey va add : Nat} {s : State}  (h0 : P s) {t0 : State}
    (e : execFetchAndAdd k rkey va add s = .next t0) : P t0 := by
  unfold execFetchAndAdd at e
  cases e
  repeat' (first
    | with_reducible assumption
    | with_reducible refine State.whenUp_keeps (hP.mono rfl) (fun _ _ => ?_) ?_
    | with_reducible refine State.settle_keeps (hP.mono rfl) ?_
    | with_reducible refine State.atomic_keeps (hP.mono rfl) ?_
    | with_reducible refine keep_foldl (fun _ _ _ => ?_) ?_
    | with_reducible refine keep_foldl_snd (fun _ _ _ _ => ?_) ?_
    | exact fun _ => rfl
    | exact fun _ h => h
    | split)

theorem execFetchAndAdd_after {P : State → Prop} (hP : Closed 2682864 P) {k : Pkt} {rkey va add : Nat} {s : State} (h0 : P s.settle) (hr : s.running = true) {t0 : State}
    (e : execFetchAndAdd k rkey va add s = .next t0) : P t0 := by
  unfold execFetchAndAdd at e
  cases e
  unfold State.whenUp
  rw [if_pos hr]
  beta_reduce
  repeat' (first
    | with_reducible assumption
    | with_reducible refine State.atomic_keeps (hP.mono rfl) ?_
    | with_reducible refine keep_foldl (fun _ _ _ => ?_) ?_
    | with_reducible refine keep_foldl_snd (fun _ _ _ _ => ?_) ?_
    | exact fun _ => rfl
    | exact fun _ h => h
    | split)

theorem execInvalidOpcode_keeps {P : State → Prop} (hP : Closed 2681536 P) {k : Pkt} {opcode : Nat} {s : State}  (h0 : P s) {t0 : State}
    (e : execInvalidOpcode k opcode s = .next t0) : P t0 := by
  unfold execInvalidOpcode at e
  cases e
  repeat' (first
    | with_reducible assumption
    | with_reducible refine State.whenUp_keeps (hP.mono rfl) (fun _ _ => ?_) ?_
    | with_reducible refine State.dropPkt_keeps (hP.mono rfl) ?_
    | with_reducible refine State.receive_over (hP.mono rfl) ?_ ‹_›
    | with_reducible refine State.receive_fresh (hP.mono rfl) ?_ ‹_›
    | with_reducible refine State.receive_duplicate (hP.mono rfl) ?_ ‹_›
    | with_reducible refine State.stdRefuse_keeps (hP.mono rfl) ?_
    | with_reducible refine keep_foldl (fun _ _ _ => ?_) ?_
    | with_reducible refine keep_foldl_snd (fun _ _ _ _ => ?_) ?_
    | exact fun _ => rfl
    | exact fun _ h => h
    | split)

theorem State.ackUpTo_keeps {P : State → Prop} (hP : Closed 2097152 P) {q psn : Nat} {s : State}  (h0 : P s) :
    P (State.ackUpTo q psn s) := by
  unfold State.ackUpTo
  repeat' (first
    | with_reducible assumption
    | with_reducible refine State.onCtx_keeps (hP.mono rfl) (fun _ h => h) ?_
    | with_reducible refine State.onCtx_keeps (hP.mono rfl) (by intro _ h; try dsimp only; split <;> exact h) ?_
    | with_reducible refine keep_foldl (fun _ _ _ => ?_) ?_
    | with_reducible refine keep_foldl_snd (fun _ _ _ _ => ?_) ?_
    | (extract_lets +onlyGivenNames x; refine keep_cut (P x) ?_ (fun _ => ?_); unfold x; clear x; rotate_left; clear_value x)
    | (extract_lets +onlyGivenNames x; refine keep_cut (P x.2) ?_ (fun _ => ?_); unfold x; clear x; rotate_left; clear_value x)
    | (extract_lets +onlyGivenNames x; clear_value x)
    | split)

theorem State.resend_keeps {P : State → Prop} (hP : Closed 2097152 P) {q : Nat} {s : State}  (h0 : P s) :
    P (State.resend q s) := by
  unfold State.resend
  repeat' (first
    | with_reducible assumption
    | with_reducible refine State.onCtx_keeps (hP.mono rfl) (fun _ h => h) ?_
    | with_reducible refine State.onCtx_keeps (hP.mono rfl) (by intro _ h; try dsimp only; split <;> exact h) ?_
    | with_reducible refine keep_foldl (fun _ _ _ => ?_) ?_
    | with_reducible refine keep_foldl_snd (fun _ _ _ _ => ?_) ?_
    | (extract_lets +onlyGivenNames x; refine keep_cut (P x) ?_ (fun _ => ?_); unfold x; clear x; rotate_left; clear_value x)
    | (extract_lets +onlyGivenNames x; refine keep_cut (P x.2) ?_ (fun _ => ?_); unfold x; clear x; rotate_left; clear_value x)
    | (extract_lets +onlyGivenNames x; clear_value x)
    | split)

theorem State.answer_keeps {P : State → Prop} (hP : Closed 2113536 P) {k : Pkt} {cmd : Instr} {f : Ctx → State → State} {s : State} (kf : ∀ x0 s, P s → P (f x0 s)) (h0 : P s) :
    P (State.answer k cmd f s) := by
  unfold State.answer
  repeat' (first
    | with_reducible assumption
    | with_reducible refine State.arrive_error (hP.mono rfl) ?_ ‹_›
    | with_reducible refine State.onCtx_keeps (hP.mono rfl) (fun _ h => h) ?_
    | with_reducible refine State.onCtx_keeps (hP.mono rfl) (by intro _ h; try dsimp only; split <;> exact h) ?_
    | with_reducible refine State.noteCe_keeps (hP.mono rfl) ?_
    | with_reducible refine kf _ _ ?_
    | with_reducible refine keep_foldl (fun _ _ _ => ?_) ?_
    | with_reducible refine keep_foldl_snd (fun _ _ _ _ => ?_) ?_
    | (extract_lets +onlyGivenNames x; refine keep_cut (P x) ?_ (fun _ => ?_); unfold x; clear x; rotate_left; clear_value x)
    | (extract_lets +onlyGivenNames x; refine keep_cut (P x.2) ?_ (fun _ => ?_); unfold x; clear x; rotate_left; clear_value x)
    | (extract_lets +onlyGivenNames x; clear_value x)
    | split)

theorem execAcknowledgeReceived_keeps {P : State → Prop} (hP : Closed 2113536 P) {k : Pkt} {s : State}  (h0 : P s) {t0 : State}
    (e : execAcknowledgeReceived k s = .next t0) : P t0 := by
  unfold execAcknowledgeReceived at e
  cases e
  repeat' (first
    | with_reducible assumption
    | with_reducible refine State.whenUp_keeps (hP.mono rfl) (fun _ _ => ?_) ?_
    | with_reducible refine State.answer_keeps (hP.mono rfl) (fun _ _ _ => ?_) ?_
    | with_reducible refine State.ackUpTo_keeps (hP.mono rfl) ?_
    | with_reducible refine keep_foldl (fun _ _ _ => ?_) ?_
    | with_reducible refine keep_foldl_snd (fun _ _ _ _ => ?_) ?_
    | split)

theorem execRnrNakReceived_keeps {P : State → Prop} (hP : Closed 2681536 P) {k : Pkt} {timer : Nat} {s : State}  (h0 : P s) {t0 : State}
    (e : execRnrNakReceived k timer s = .next t0) : P t0 := by
  unfold execRnrNakReceived at e
  cases e
  repeat' (first
    | with_reducible assumption
    | with_reducible refine State.whenUp_keeps (hP.mono rfl) (fun _ _ => ?_) ?_
    | with_reducible refine State.answer_keeps (hP.mono rfl) (fun _ _ _ => ?_) ?_
    | with_reducible refine State.ackUpTo_keeps (hP.mono rfl) ?_
    | with_reducible refine State.qpError_keeps (hP.mono rfl) ?_
    | with_reducible refine State.onCtx_keeps (hP.mono rfl) (fun _ h => h) ?_
    | with_reducible refine State.onCtx_keeps (hP.mono rfl) (by intro _ h; try dsimp only; split <;> exact h) ?_
    | with_reducible refine keep_foldl (fun _ _ _ => ?_) ?_
    | with_reducible refine keep_foldl_snd (fun _ _ _ _ => ?_) ?_
    | exact fun _ => rfl
    | exact fun _ h => h
    | (extract_lets +onlyGivenNames x; refine keep_cut (P x) ?_ (fun _ => ?_); unfold x; clear x; rotate_left; clear_value x)
    | (extract_lets +onlyGivenNames x; refine keep_cut (P x.2) ?_ (fun _ => ?_); unfold x; clear x; rotate_left; clear_value x)
    | (extract_lets +onlyGivenNames x; clear_value x)
    | split)

theorem execRnrTimerExpiry_keeps {P : State → Prop} (hP : Closed 2097152 P) {qpn : Nat} {s : State}  (h0 : P s) {t0 : State}
    (e : execRnrTimerExpiry qpn s = .next t0) : P t0 := by
  unfold execRnrTimerExpiry at e
  cases e
  repeat' (first
    | with_reducible assumption
    | with_reducible refine State.whenUp_keeps (hP.mono rfl) (fun _ _ => ?_) ?_
    | with_reducible refine State.onCtx_keeps (hP.mono rfl) (fun _ h => h) ?_
    | with_reducible refine State.onCtx_keeps (hP.mono rfl) (by intro _ h; try dsimp only; split <;> exact h) ?_
    | with_reducible refine State.resend_keeps (hP.mono rfl) ?_
    | with_reducible refine keep_foldl (fun _ _ _ => ?_) ?_
    | with_reducible refine keep_foldl_snd (fun _ _ _ _ => ?_) ?_
    | split)

theorem State.retry_keeps {P : State → Prop} (hP : Closed 2681536 P) {q : Nat} {s : State}  (h0 : P s) :
    P (State.retry q s) := by
  unfold State.retry
  repeat' (first
    | with_reducible assumption
    | with_reducible refine State.qpError_keeps (hP.mono rfl) ?_
    | with_reducible refine State.onCtx_keeps (hP.mono rfl) (fun _ h => h) ?_
    | with_reducible refine State.onCtx_keeps (hP.mono rfl) (by intro _ h; try dsimp only; split <;> exact h) ?_
    | with_reducible refine State.resend_keeps (hP.mono rfl) ?_
    | with_reducible refine keep_foldl (fun _ _ _ => ?_) ?_
    | with_reducible refine keep_foldl_snd (fun _ _ _ _ => ?_) ?_
    | exact fun _ => rfl
    | exact fun _ h => h
    | split)

theorem execFatalNakReceived_keeps {P : State → Prop} (hP : Closed 2681536 P) {k : Pkt} {syndrome : Nat} {s : State}  (h0 : P s) {t0 : State}
    (e : execFatalNakReceived k syndrome s = .next t0) : P t0 := by
  unfold execFatalNakReceived at e
  cases e
  repeat' (first
    | with_reducible assumption
    | with_reducible refine State.whenUp_keeps (hP.mono rfl) (fun _ _ => ?_) ?_
    | with_reducible refine State.answer_keeps (hP.mono rfl) (fun _ _ _ => ?_) ?_
    | with_reducible refine State.ackUpTo_keeps (hP.mono rfl) ?_
    | with_reducible refine State.retry_keeps (hP.mono rfl) ?_
    | with_reducible refine State.qpError_keeps (hP.mono rfl) ?_
    | with_reducible refine keep_foldl (fun _ _ _ => ?_) ?_
    | with_reducible refine keep_foldl_snd (fun _ _ _ _ => ?_) ?_
    | exact fun _ => rfl
    | exact fun _ h => h
    | (extract_lets +onlyGivenNames x; refine keep_cut (P x) ?_ (fun _ => ?_); unfold x; clear x; rotate_left; clear_value x)
    | (extract_lets +onlyGivenNames x; refine keep_cut (P x.2) ?_ (fun _ => ?_); unfold x; clear x; rotate_left; clear_value x)
    | (extract_lets +onlyGivenNames x; clear_value x)
    | split)

theorem execResponseRetransmit_keeps {P : State → Prop} (hP : Closed 2681536 P) {qpn : Nat} {s : State}  (h0 : P s) {t0 : State}
    (e : execResponseRetransmit qpn s = .next t0) : P t0 := by
  unfold execResponseRetransmit at e
  cases e
  repeat' (first
    | with_reducible assumption
    | with_reducible refine State.whenUp_keeps (hP.mono rfl) (fun _ _ => ?_) ?_
    | with_reducible refine State.retry_keeps (hP.mono rfl) ?_
    | with_reducible refine keep_foldl (fun _ _ _ => ?_) ?_
    | with_reducible refine keep_foldl_snd (fun _ _ _ _ => ?_) ?_
    | exact fun _ => rfl
    | exact fun _ h => h
    | split)

theorem execCnpReceived_keeps {P : State → Prop} (hP : Closed 2113536 P) {k : Pkt} {echoValid : Bool} {echo : Nat} {s : State}  (h0 : P s) {t0 : State}
    (e : execCnpReceived k echoValid echo s = .next t0) : P t0 := by
  unfold execCnpReceived at e
  cases e
  repeat' (first
    | with_reducible assumption
    | with_reducible refine hP.eth rfl _ _ ?_
    | with_reducible refine State.whenUp_keeps (hP.mono rfl) (fun _ _ => ?_) ?_
    | with_reducible refine State.arrive_error (hP.mono rfl) ?_ ‹_›
    | with_reducible refine State.onCtx_keeps (hP.mono rfl) (fun _ h => h) ?_
    | with_reducible refine State.onCtx_keeps (hP.mono rfl) (by intro _ h; try dsimp only; split <;> exact h) ?_
    | with_reducible refine keep_foldl (fun _ _ _ => ?_) ?_
    | with_reducible refine keep_foldl_snd (fun _ _ _ _ => ?_) ?_
    | (extract_lets +onlyGivenNames x; refine keep_cut (P x) ?_ (fun _ => ?_); unfold x; clear x; rotate_left; clear_value x)
    | (extract_lets +onlyGivenNames x; refine keep_cut (P x.2) ?_ (fun _ => ?_); unfold x; clear x; rotate_left; clear_value x)
    | (extract_lets +onlyGivenNames x; clear_value x)
    | split)

theorem execPauseFrameRx_keeps {P : State → Prop} (hP : Closed 16384 P) {port : Fin 8} {s : State}  (h0 : P s) {t0 : State}
    (e : execPauseFrameRx port s = .next t0) : P t0 := by
  unfold execPauseFrameRx at e
  cases e
  repeat' (first
    | with_reducible assumption
    | with_reducible refine hP.eth rfl _ _ ?_
    | with_reducible refine State.whenUp_keeps (hP.mono rfl) (fun _ _ => ?_) ?_
    | with_reducible refine keep_foldl (fun _ _ _ => ?_) ?_
    | with_reducible refine keep_foldl_snd (fun _ _ _ _ => ?_) ?_
    | split)

theorem State.sendCm_keeps {P : State → Prop} (hP : Closed 16384 P) {port addr : Nat} {b : TxBody} {s : State}  (h0 : P s) :
    P (State.sendCm port addr b s) := by
  unfold State.sendCm
  repeat' (first
    | with_reducible assumption
    | with_reducible refine State.enqueue_keeps (hP.mono rfl) ?_
    | with_reducible refine keep_foldl (fun _ _ _ => ?_) ?_
    | with_reducible refine keep_foldl_snd (fun _ _ _ _ => ?_) ?_
    | split)

theorem State.cmReq_keeps {P : State → Prop} (hP : Closed 2383872 P) {r : CmReq} {s : State}  (h0 : P s) :
    P (State.cmReq r s) := by
  unfold State.cmReq
  repeat' (first
    | with_reducible assumption
    | with_reducible refine hP.free rfl _ ?_
    | with_reducible refine hP.link rfl _ _ (fun _ _ h => h) ?_
    | with_reducible refine hP.xpt rfl _ _ ?_
    | with_reducible refine State.roomOnDie_keeps (hP.mono rfl) ?_
    | with_reducible refine State.roomOnDie_some (hP.mono rfl) ?_ ‹_›
    | with_reducible refine State.sendCm_keeps (hP.mono rfl) ?_
    | with_reducible refine keep_foldl (fun _ _ _ => ?_) ?_
    | with_reducible refine keep_foldl_snd (fun _ _ _ _ => ?_) ?_
    | (extract_lets +onlyGivenNames x; refine keep_cut (P x) ?_ (fun _ => ?_); unfold x; clear x; rotate_left; clear_value x)
    | (extract_lets +onlyGivenNames x; refine keep_cut (P x.2) ?_ (fun _ => ?_); unfold x; clear x; rotate_left; clear_value x)
    | (extract_lets +onlyGivenNames x; clear_value x)
    | split)

theorem execCmReq_keeps {P : State → Prop} (hP : Closed 2383872 P) {r : CmReq} {s : State}  (h0 : P s) {t0 : State}
    (e : execCmReq r s = .next t0) : P t0 := by
  unfold execCmReq at e
  cases e
  repeat' (first
    | with_reducible assumption
    | with_reducible refine State.whenUp_keeps (hP.mono rfl) (fun _ _ => ?_) ?_
    | with_reducible refine State.cmReq_keeps (hP.mono rfl) ?_
    | with_reducible refine keep_foldl (fun _ _ _ => ?_) ?_
    | with_reducible refine keep_foldl_snd (fun _ _ _ _ => ?_) ?_
    | split)

theorem execCmRtu_keeps {P : State → Prop} (hP : Closed 2097152 P) {qpn : Nat} {s : State}  (h0 : P s) {t0 : State}
    (e : execCmRtu qpn s = .next t0) : P t0 := by
  unfold execCmRtu at e
  cases e
  repeat' (first
    | with_reducible assumption
    | with_reducible refine State.whenUp_keeps (hP.mono rfl) (fun _ _ => ?_) ?_
    | with_reducible refine State.toRts_keeps (hP.mono rfl) ?_
    | with_reducible refine keep_foldl (fun _ _ _ => ?_) ?_
    | with_reducible refine keep_foldl_snd (fun _ _ _ _ => ?_) ?_
    | split)

theorem execCmDreq_keeps {P : State → Prop} (hP : Closed 2681536 P) {qpn : Nat} {s : State}  (h0 : P s) {t0 : State}
    (e : execCmDreq qpn s = .next t0) : P t0 := by
  unfold execCmDreq at e
  cases e
  repeat' (first
    | with_reducible assumption
    | with_reducible refine State.whenUp_keeps (hP.mono rfl) (fun _ _ => ?_) ?_
    | with_reducible refine State.sendCm_keeps (hP.mono rfl) ?_
    | with_reducible refine State.qpError_keeps (hP.mono rfl) ?_
    | with_reducible refine keep_foldl (fun _ _ _ => ?_) ?_
    | with_reducible refine keep_foldl_snd (fun _ _ _ _ => ?_) ?_
    | exact fun _ => rfl
    | exact fun _ h => h
    | split)

theorem State.cmRep_keeps {P : State → Prop} (hP : Closed 2943680 P) {r : CmRep} {s : State}  (h0 : P s) :
    P (State.cmRep r s) := by
  unfold State.cmRep
  repeat' (first
    | with_reducible assumption
    | with_reducible refine hP.free rfl _ ?_
    | with_reducible refine hP.link rfl _ _ (fun _ _ h => h) ?_
    | with_reducible refine hP.xpt rfl _ _ ?_
    | with_reducible refine State.peer_keeps (hP.mono rfl) (fun _ _ _ => ?_) ?_
    | with_reducible refine State.roomOnDie_keeps (hP.mono rfl) ?_
    | with_reducible refine State.roomOnDie_some (hP.mono rfl) ?_ ‹_›
    | with_reducible refine State.sendCm_keeps (hP.mono rfl) ?_
    | with_reducible refine State.toRts_keeps (hP.mono rfl) ?_
    | with_reducible refine State.sendMessage_keeps (hP.mono rfl) ?_
    | with_reducible refine keep_foldl (fun _ _ _ => ?_) ?_
    | with_reducible refine keep_foldl_snd (fun _ _ _ _ => ?_) ?_
    | exact fun _ => rfl
    | exact fun _ h => h
    | (extract_lets +onlyGivenNames x; refine keep_cut (P x) ?_ (fun _ => ?_); unfold x; clear x; rotate_left; clear_value x)
    | (extract_lets +onlyGivenNames x; refine keep_cut (P x.2) ?_ (fun _ => ?_); unfold x; clear x; rotate_left; clear_value x)
    | (extract_lets +onlyGivenNames x; clear_value x)
    | split)

theorem execCmRep_keeps {P : State → Prop} (hP : Closed 2943680 P) {r : CmRep} {s : State}  (h0 : P s) {t0 : State}
    (e : execCmRep r s = .next t0) : P t0 := by
  unfold execCmRep at e
  cases e
  repeat' (first
    | with_reducible assumption
    | with_reducible refine State.whenUp_keeps (hP.mono rfl) (fun _ _ => ?_) ?_
    | with_reducible refine State.cmRep_keeps (hP.mono rfl) ?_
    | with_reducible refine keep_foldl (fun _ _ _ => ?_) ?_
    | with_reducible refine keep_foldl_snd (fun _ _ _ _ => ?_) ?_
    | exact fun _ => rfl
    | exact fun _ h => h
    | split)

theorem execCmDrep_keeps {P : State → Prop} (hP : Closed 2681536 P) {qpn : Nat} {s : State}  (h0 : P s) {t0 : State}
    (e : execCmDrep qpn s = .next t0) : P t0 := by
  unfold execCmDrep at e
  cases e
  repeat' (first
    | with_reducible assumption
    | with_reducible refine State.whenUp_keeps (hP.mono rfl) (fun _ _ => ?_) ?_
    | with_reducible refine State.qpError_keeps (hP.mono rfl) ?_
    | with_reducible refine keep_foldl (fun _ _ _ => ?_) ?_
    | with_reducible refine keep_foldl_snd (fun _ _ _ _ => ?_) ?_
    | exact fun _ => rfl
    | exact fun _ h => h
    | split)

theorem State.connectPeer_keeps {P : State → Prop} (hP : Closed 2900016 P) {peer : Nat} {s : State}  (h0 : P s) :
    P (State.connectPeer peer s) := by
  unfold State.connectPeer
  repeat' (first
    | with_reducible assumption
    | with_reducible refine hP.free rfl _ ?_
    | with_reducible refine hP.link rfl _ _ (fun _ _ h => h) ?_
    | with_reducible refine State.sendCm_keeps (hP.mono rfl) ?_
    | with_reducible refine State.logEvent_keeps (hP.mono rfl) ?_
    | with_reducible refine keep_foldl (fun _ _ _ => ?_) ?_
    | with_reducible refine keep_foldl_snd (fun _ _ _ _ => ?_) ?_
    | (extract_lets +onlyGivenNames x; refine keep_cut (P x) ?_ (fun _ => ?_); unfold x; clear x; rotate_left; clear_value x)
    | (extract_lets +onlyGivenNames x; refine keep_cut (P x.2) ?_ (fun _ => ?_); unfold x; clear x; rotate_left; clear_value x)
    | (extract_lets +onlyGivenNames x; clear_value x)
    | split)

theorem execPeerConnectRetry_keeps {P : State → Prop} (hP : Closed 2900016 P) {peer : Nat} {s : State}  (h0 : P s) {t0 : State}
    (e : execPeerConnectRetry peer s = .next t0) : P t0 := by
  unfold execPeerConnectRetry at e
  cases e
  repeat' (first
    | with_reducible assumption
    | with_reducible refine State.whenUp_keeps (hP.mono rfl) (fun _ _ => ?_) ?_
    | with_reducible refine State.connectPeer_keeps (hP.mono rfl) ?_
    | with_reducible refine keep_foldl (fun _ _ _ => ?_) ?_
    | with_reducible refine keep_foldl_snd (fun _ _ _ _ => ?_) ?_
    | split)

theorem execPeerIdleClose_keeps {P : State → Prop} (hP : Closed 2113536 P) {qpn : Nat} {s : State}  (h0 : P s) {t0 : State}
    (e : execPeerIdleClose qpn s = .next t0) : P t0 := by
  unfold execPeerIdleClose at e
  cases e
  repeat' (first
    | with_reducible assumption
    | with_reducible refine State.whenUp_keeps (hP.mono rfl) (fun _ _ => ?_) ?_
    | with_reducible refine State.sendDreq_keeps (hP.mono rfl) ?_
    | with_reducible refine keep_foldl (fun _ _ _ => ?_) ?_
    | with_reducible refine keep_foldl_snd (fun _ _ _ _ => ?_) ?_
    | split)

theorem execMissBufferTimeout_keeps {P : State → Prop} (hP : Closed 2113536 P) {qpn : Nat} {s : State}  (h0 : P s) {t0 : State}
    (e : execMissBufferTimeout qpn s = .next t0) : P t0 := by
  unfold execMissBufferTimeout at e
  cases e
  repeat' (first
    | with_reducible assumption
    | with_reducible refine hP.link rfl _ _ (fun _ _ h => h) ?_
    | with_reducible refine State.whenUp_keeps (hP.mono rfl) (fun _ _ => ?_) ?_
    | with_reducible refine State.onCtx_keeps (hP.mono rfl) (fun _ h => h) ?_
    | with_reducible refine State.onCtx_keeps (hP.mono rfl) (by intro _ h; try dsimp only; split <;> exact h) ?_
    | with_reducible refine State.sendControl_keeps (hP.mono rfl) ?_
    | with_reducible refine keep_foldl (fun _ _ _ => ?_) ?_
    | with_reducible refine keep_foldl_snd (fun _ _ _ _ => ?_) ?_
    | (extract_lets +onlyGivenNames x; refine keep_cut (P x) ?_ (fun _ => ?_); unfold x; clear x; rotate_left; clear_value x)
    | (extract_lets +onlyGivenNames x; refine keep_cut (P x.2) ?_ (fun _ => ?_); unfold x; clear x; rotate_left; clear_value x)
    | (extract_lets +onlyGivenNames x; clear_value x)
    | split)

theorem execFlushComplete_keeps {P : State → Prop} (hP : Closed 2105344 P) {qpn : Nat} {s : State}  (h0 : P s) {t0 : State}
    (e : execFlushComplete qpn s = .next t0) : P t0 := by
  unfold execFlushComplete at e
  cases e
  repeat' (first
    | with_reducible assumption
    | with_reducible refine hP.link rfl _ _ (fun _ _ h => h) ?_
    | with_reducible refine hP.xpt rfl _ _ ?_
    | with_reducible refine State.whenUp_keeps (hP.mono rfl) (fun _ _ => ?_) ?_
    | with_reducible refine keep_foldl (fun _ _ _ => ?_) ?_
    | with_reducible refine keep_foldl_snd (fun _ _ _ _ => ?_) ?_
    | split)

end Sys2Proof.Machine
end

