-- ==== Sys2Proof/Laws/KeepPorts.lean ====
section
/-! SUPPORT. What the operations of Machine/Ports.lean touch: each keeps every predicate that is closed under the parts named. -/

namespace Sys2Proof.Machine

set_option linter.unusedTactic false
set_option linter.unreachableTactic false
set_option linter.unusedVariables false
set_option linter.tactic.unusedName false

theorem State.echoUpdate_keeps {P : State → Prop} (hP : Closed 2097152 P) {q : Nat} {s : State}  (h0 : P s) :
    P (State.echoUpdate q s) := by
  unfold State.echoUpdate
  repeat' (first
    | with_reducible assumption
    | with_reducible refine State.onCtx_keeps (hP.mono rfl) (fun _ h => h) ?_
    | with_reducible refine State.onCtx_keeps (hP.mono rfl) (by intro _ h; try dsimp only; split <;> exact h) ?_
    | with_reducible refine keep_foldl (fun _ _ _ => ?_) ?_
    | with_reducible refine keep_foldl_snd (fun _ _ _ _ => ?_) ?_
    | split)

theorem execEchoTimer_keeps {P : State → Prop} (hP : Closed 2097152 P) {qpn : Nat} {s : State}  (h0 : P s) {t0 : State}
    (e : execEchoTimer qpn s = .next t0) : P t0 := by
  unfold execEchoTimer at e
  cases e
  repeat' (first
    | with_reducible assumption
    | with_reducible refine State.whenUp_keeps (hP.mono rfl) (fun _ _ => ?_) ?_
    | with_reducible refine State.echoUpdate_keeps (hP.mono rfl) ?_
    | with_reducible refine keep_foldl (fun _ _ _ => ?_) ?_
    | with_reducible refine keep_foldl_snd (fun _ _ _ _ => ?_) ?_
    | split)

theorem State.takePeerOut_keeps {P : State → Prop} (hP : Closed 2673344 P) {q : Nat} {s : State}  (h0 : P s) :
    P (State.takePeerOut q s) := by
  unfold State.takePeerOut
  repeat' (first
    | with_reducible assumption
    | with_reducible refine hP.link rfl _ _ (fun _ _ h => h) ?_
    | with_reducible refine State.peer_keeps (hP.mono rfl) (fun _ _ _ => ?_) ?_
    | with_reducible refine State.sendMessage_keeps (hP.mono rfl) ?_
    | with_reducible refine State.onCtx_keeps (hP.mono rfl) (fun _ h => h) ?_
    | with_reducible refine State.onCtx_keeps (hP.mono rfl) (by intro _ h; try dsimp only; split <;> exact h) ?_
    | with_reducible refine keep_foldl (fun _ _ _ => ?_) ?_
    | with_reducible refine keep_foldl_snd (fun _ _ _ _ => ?_) ?_
    | exact fun _ => rfl
    | exact fun _ h => h
    | (extract_lets +onlyGivenNames x; refine keep_cut (P x) ?_ (fun _ => ?_); unfold x; clear x; rotate_left; clear_value x)
    | (extract_lets +onlyGivenNames x; refine keep_cut (P x.2) ?_ (fun _ => ?_); unfold x; clear x; rotate_left; clear_value x)
    | (extract_lets +onlyGivenNames x; clear_value x)
    | split)

theorem State.pacerRelease_keeps {P : State → Prop} (hP : Closed 2673344 P) {q : Nat} {s : State}  (h0 : P s) :
    P (State.pacerRelease q s) := by
  unfold State.pacerRelease
  repeat' (first
    | with_reducible assumption
    | with_reducible refine State.takePeerOut_keeps (hP.mono rfl) ?_
    | with_reducible refine State.onCtx_keeps (hP.mono rfl) (fun _ h => h) ?_
    | with_reducible refine State.onCtx_keeps (hP.mono rfl) (by intro _ h; try dsimp only; split <;> exact h) ?_
    | with_reducible refine State.enqueue_keeps (hP.mono rfl) ?_
    | with_reducible refine keep_foldl (fun _ _ _ => ?_) ?_
    | with_reducible refine keep_foldl_snd (fun _ _ _ _ => ?_) ?_
    | exact fun _ => rfl
    | exact fun _ h => h
    | (extract_lets +onlyGivenNames x; refine keep_cut (P x) ?_ (fun _ => ?_); unfold x; clear x; rotate_left; clear_value x)
    | (extract_lets +onlyGivenNames x; refine keep_cut (P x.2) ?_ (fun _ => ?_); unfold x; clear x; rotate_left; clear_value x)
    | (extract_lets +onlyGivenNames x; clear_value x)
    | split)

theorem execPacerRelease_keeps {P : State → Prop} (hP : Closed 2673344 P) {qpn : Nat} {s : State}  (h0 : P s) {t0 : State}
    (e : execPacerRelease qpn s = .next t0) : P t0 := by
  unfold execPacerRelease at e
  cases e
  repeat' (first
    | with_reducible assumption
    | with_reducible refine State.whenUp_keeps (hP.mono rfl) (fun _ _ => ?_) ?_
    | with_reducible refine State.pacerRelease_keeps (hP.mono rfl) ?_
    | with_reducible refine keep_foldl (fun _ _ _ => ?_) ?_
    | with_reducible refine keep_foldl_snd (fun _ _ _ _ => ?_) ?_
    | exact fun _ => rfl
    | exact fun _ h => h
    | split)

theorem State.sendHead_keeps {P : State → Prop} (hP : Closed 2637824 P) {p q : Nat} {s : State}  (h0 : P s) :
    P (State.sendHead p q s) := by
  unfold State.sendHead
  repeat' (first
    | with_reducible assumption
    | with_reducible refine hP.emitted rfl _ _ ?_
    | with_reducible refine State.onPort_keeps (hP.mono rfl) ?_
    | with_reducible refine State.onCtx_keeps (hP.mono rfl) (fun _ h => h) ?_
    | with_reducible refine State.onCtx_keeps (hP.mono rfl) (by intro _ h; try dsimp only; split <;> exact h) ?_
    | with_reducible refine State.chargeTx_keeps (hP.mono rfl) ?_
    | with_reducible refine keep_foldl (fun _ _ _ => ?_) ?_
    | with_reducible refine keep_foldl_snd (fun _ _ _ _ => ?_) ?_
    | (extract_lets +onlyGivenNames x; refine keep_cut (P x) ?_ (fun _ => ?_); unfold x; clear x; rotate_left; clear_value x)
    | (extract_lets +onlyGivenNames x; refine keep_cut (P x.2) ?_ (fun _ => ?_); unfold x; clear x; rotate_left; clear_value x)
    | (extract_lets +onlyGivenNames x; clear_value x)
    | split)

theorem execEgressTransmit_keeps {P : State → Prop} (hP : Closed 2637824 P) {port : Fin 8} {s : State}  (h0 : P s) {t0 : State}
    (e : execEgressTransmit port s = .next t0) : P t0 := by
  unfold execEgressTransmit at e
  cases e
  repeat' (first
    | with_reducible assumption
    | with_reducible refine State.whenUp_keeps (hP.mono rfl) (fun _ _ => ?_) ?_
    | with_reducible refine State.onPort_keeps (hP.mono rfl) ?_
    | with_reducible refine State.sendHead_keeps (hP.mono rfl) ?_
    | with_reducible refine keep_foldl (fun _ _ _ => ?_) ?_
    | with_reducible refine keep_foldl_snd (fun _ _ _ _ => ?_) ?_
    | (extract_lets +onlyGivenNames x; refine keep_cut (P x) ?_ (fun _ => ?_); unfold x; clear x; rotate_left; clear_value x)
    | (extract_lets +onlyGivenNames x; refine keep_cut (P x.2) ?_ (fun _ => ?_); unfold x; clear x; rotate_left; clear_value x)
    | (extract_lets +onlyGivenNames x; clear_value x)
    | split)

theorem execQueueSample_keeps {P : State → Prop} (hP : Closed 16384 P) {s : State}  (h0 : P s) {t0 : State}
    (e : execQueueSample s = .next t0) : P t0 := by
  unfold execQueueSample at e
  cases e
  repeat' (first
    | with_reducible assumption
    | with_reducible refine hP.eth rfl _ _ ?_
    | with_reducible refine State.whenUp_keeps (hP.mono rfl) (fun _ _ => ?_) ?_
    | with_reducible refine keep_foldl (fun _ _ _ => ?_) ?_
    | with_reducible refine keep_foldl_snd (fun _ _ _ _ => ?_) ?_
    | split)

theorem State.meter_keeps {P : State → Prop} (hP : Closed 16384 P) {s : State}  (h0 : P s) :
    P (State.meter s) := by
  unfold State.meter
  repeat' (first
    | with_reducible assumption
    | with_reducible refine hP.eth rfl _ _ ?_
    | split)

theorem execLoadRecompute_keeps {P : State → Prop} (hP : Closed 16384 P) {slice : Fin 8} {port : Fin 8} {stackBytes : Nat} {s : State}  (h0 : P s) {t0 : State}
    (e : execLoadRecompute slice port stackBytes s = .next t0) : P t0 := by
  unfold execLoadRecompute at e
  cases e
  repeat' (first
    | with_reducible assumption
    | with_reducible refine hP.eth rfl _ _ ?_
    | with_reducible refine State.whenUp_keeps (hP.mono rfl) (fun _ _ => ?_) ?_
    | with_reducible refine keep_foldl (fun _ _ _ => ?_) ?_
    | with_reducible refine keep_foldl_snd (fun _ _ _ _ => ?_) ?_
    | split)

theorem State.expireHold_keeps {P : State → Prop} (hP : Closed 2681536 P) {p : Nat} {s : State}  (h0 : P s) :
    P (State.expireHold p s) := by
  unfold State.expireHold
  repeat' (first
    | with_reducible assumption
    | with_reducible refine State.onPort_keeps (hP.mono rfl) ?_
    | with_reducible refine State.flushWhere_keeps (hP.mono rfl) ?_
    | with_reducible refine keep_foldl (fun _ _ _ => ?_) ?_
    | with_reducible refine keep_foldl_snd (fun _ _ _ _ => ?_) ?_
    | exact fun _ => rfl
    | exact fun _ h => h
    | (extract_lets +onlyGivenNames x; refine keep_cut (P x) ?_ (fun _ => ?_); unfold x; clear x; rotate_left; clear_value x)
    | (extract_lets +onlyGivenNames x; refine keep_cut (P x.2) ?_ (fun _ => ?_); unfold x; clear x; rotate_left; clear_value x)
    | (extract_lets +onlyGivenNames x; clear_value x)
    | split)

theorem State.countSwap_keeps {P : State → Prop} (hP : Closed 2 P) {p : Nat} {s : State}  (h0 : P s) :
    P (State.countSwap p s) := by
  unfold State.countSwap
  repeat' (first
    | with_reducible assumption
    | with_reducible refine hP.ras rfl _ _ ?_
    | with_reducible refine keep_foldl (fun _ _ _ => ?_) ?_
    | with_reducible refine keep_foldl_snd (fun _ _ _ _ => ?_) ?_
    | split)

theorem State.portUp_keeps {P : State → Prop} (hP : Closed 2681538 P) {p : Nat} {s : State}  (h0 : P s) :
    P (State.portUp p s) := by
  unfold State.portUp
  repeat' (first
    | with_reducible assumption
    | with_reducible refine State.countSwap_keeps (hP.mono rfl) ?_
    | with_reducible refine State.expireHold_keeps (hP.mono rfl) ?_
    | with_reducible refine State.onPort_keeps (hP.mono rfl) ?_
    | with_reducible refine keep_foldl (fun _ _ _ => ?_) ?_
    | with_reducible refine keep_foldl_snd (fun _ _ _ _ => ?_) ?_
    | exact fun _ => rfl
    | exact fun _ h => h
    | split)

theorem execPortLinkLoss_keeps {P : State → Prop} (hP : Closed 16384 P) {port : Fin 8} {s : State}  (h0 : P s) {t0 : State}
    (e : execPortLinkLoss port s = .next t0) : P t0 := by
  unfold execPortLinkLoss at e
  cases e
  repeat' (first
    | with_reducible assumption
    | with_reducible refine State.whenUp_keeps (hP.mono rfl) (fun _ _ => ?_) ?_
    | with_reducible refine State.portDown_keeps (hP.mono rfl) ?_
    | with_reducible refine keep_foldl (fun _ _ _ => ?_) ?_
    | with_reducible refine keep_foldl_snd (fun _ _ _ _ => ?_) ?_
    | split)

theorem execPortLinkReturn_keeps {P : State → Prop} (hP : Closed 2681538 P) {port : Fin 8} {s : State}  (h0 : P s) {t0 : State}
    (e : execPortLinkReturn port s = .next t0) : P t0 := by
  unfold execPortLinkReturn at e
  cases e
  repeat' (first
    | with_reducible assumption
    | with_reducible refine State.whenUp_keeps (hP.mono rfl) (fun _ _ => ?_) ?_
    | with_reducible refine State.portUp_keeps (hP.mono rfl) ?_
    | with_reducible refine keep_foldl (fun _ _ _ => ?_) ?_
    | with_reducible refine keep_foldl_snd (fun _ _ _ _ => ?_) ?_
    | exact fun _ => rfl
    | exact fun _ h => h
    | split)

theorem execLinkHoldExpiry_keeps {P : State → Prop} (hP : Closed 2681536 P) {port : Fin 8} {s : State}  (h0 : P s) {t0 : State}
    (e : execLinkHoldExpiry port s = .next t0) : P t0 := by
  unfold execLinkHoldExpiry at e
  cases e
  repeat' (first
    | with_reducible assumption
    | with_reducible refine State.whenUp_keeps (hP.mono rfl) (fun _ _ => ?_) ?_
    | with_reducible refine State.expireHold_keeps (hP.mono rfl) ?_
    | with_reducible refine keep_foldl (fun _ _ _ => ?_) ?_
    | with_reducible refine keep_foldl_snd (fun _ _ _ _ => ?_) ?_
    | exact fun _ => rfl
    | exact fun _ h => h
    | split)

theorem State.logLane_keeps {P : State → Prop} (hP : Closed 524336 P) {lane outcome : Nat} {s : State}  (h0 : P s) :
    P (State.logLane lane outcome s) := by
  unfold State.logLane
  repeat' (first
    | with_reducible assumption
    | with_reducible refine State.logDetection_keeps (hP.mono rfl) ?_
    | with_reducible refine keep_foldl (fun _ _ _ => ?_) ?_
    | with_reducible refine keep_foldl_snd (fun _ _ _ _ => ?_) ?_
    | (extract_lets +onlyGivenNames x; refine keep_cut (P x) ?_ (fun _ => ?_); unfold x; clear x; rotate_left; clear_value x)
    | (extract_lets +onlyGivenNames x; refine keep_cut (P x.2) ?_ (fun _ => ?_); unfold x; clear x; rotate_left; clear_value x)
    | (extract_lets +onlyGivenNames x; clear_value x)
    | split)

theorem execLaneSuspicion_keeps {P : State → Prop} (hP : Closed 540720 P) {lane : Fin 16} {s : State}  (h0 : P s) {t0 : State}
    (e : execLaneSuspicion lane s = .next t0) : P t0 := by
  unfold execLaneSuspicion at e
  cases e
  repeat' (first
    | with_reducible assumption
    | with_reducible refine hP.eth rfl _ _ ?_
    | with_reducible refine State.whenUp_keeps (hP.mono rfl) (fun _ _ => ?_) ?_
    | with_reducible refine State.portDown_keeps (hP.mono rfl) ?_
    | with_reducible refine State.onPort_keeps (hP.mono rfl) ?_
    | with_reducible refine State.logLane_keeps (hP.mono rfl) ?_
    | with_reducible refine keep_foldl (fun _ _ _ => ?_) ?_
    | with_reducible refine keep_foldl_snd (fun _ _ _ _ => ?_) ?_
    | (extract_lets +onlyGivenNames x; refine keep_cut (P x) ?_ (fun _ => ?_); unfold x; clear x; rotate_left; clear_value x)
    | (extract_lets +onlyGivenNames x; refine keep_cut (P x.2) ?_ (fun _ => ?_); unfold x; clear x; rotate_left; clear_value x)
    | (extract_lets +onlyGivenNames x; clear_value x)
    | split)

theorem State.logUnreachable_keeps {P : State → Prop} (hP : Closed 786480 P) {p : Nat} {s : State}  (h0 : P s) :
    P (State.logUnreachable p s) := by
  unfold State.logUnreachable
  repeat' (first
    | with_reducible assumption
    | with_reducible refine hP.free rfl _ ?_
    | with_reducible refine State.logEvent_keeps (hP.mono rfl) ?_
    | with_reducible refine keep_foldl (fun _ _ _ => ?_) ?_
    | with_reducible refine keep_foldl_snd (fun _ _ _ _ => ?_) ?_
    | (extract_lets +onlyGivenNames x; refine keep_cut (P x) ?_ (fun _ => ?_); unfold x; clear x; rotate_left; clear_value x)
    | (extract_lets +onlyGivenNames x; refine keep_cut (P x.2) ?_ (fun _ => ?_); unfold x; clear x; rotate_left; clear_value x)
    | (extract_lets +onlyGivenNames x; clear_value x)
    | split)

theorem State.withdrawPort_keeps {P : State → Prop} (hP : Closed 786482 P) {p : Nat} {s : State}  (h0 : P s) :
    P (State.withdrawPort p s) := by
  unfold State.withdrawPort
  repeat' (first
    | with_reducible assumption
    | with_reducible refine hP.ras rfl _ _ ?_
    | with_reducible refine State.logUnreachable_keeps (hP.mono rfl) ?_
    | with_reducible refine keep_foldl (fun _ _ _ => ?_) ?_
    | with_reducible refine keep_foldl_snd (fun _ _ _ _ => ?_) ?_
    | split)

theorem State.retireLane_keeps {P : State → Prop} (hP : Closed 541232 P) {lane : Nat} {s : State}  (h0 : P s) :
    P (State.retireLane lane s) := by
  unfold State.retireLane
  repeat' (first
    | with_reducible assumption
    | with_reducible refine hP.eth rfl _ _ ?_
    | with_reducible refine State.logEvent_keeps (hP.mono rfl) ?_
    | with_reducible refine State.saveRecord_keeps (hP.mono rfl) ?_
    | with_reducible refine keep_foldl (fun _ _ _ => ?_) ?_
    | with_reducible refine keep_foldl_snd (fun _ _ _ _ => ?_) ?_
    | exact fun _ => rfl
    | exact fun _ h => h
    | split)

theorem execLoopbackTestDone_keeps {P : State → Prop} (hP : Closed 803378 P) {lane : Fin 16} {pass : Bool} {s : State}  (h0 : P s) {t0 : State}
    (e : execLoopbackTestDone lane pass s = .next t0) : P t0 := by
  unfold execLoopbackTestDone at e
  cases e
  repeat' (first
    | with_reducible assumption
    | with_reducible refine hP.eth rfl _ _ ?_
    | with_reducible refine State.whenUp_keeps (hP.mono rfl) (fun _ _ => ?_) ?_
    | with_reducible refine State.logLane_keeps (hP.mono rfl) ?_
    | with_reducible refine State.onPort_keeps (hP.mono rfl) ?_
    | with_reducible refine State.retireLane_keeps (hP.mono rfl) ?_
    | with_reducible refine State.withdrawPort_keeps (hP.mono rfl) ?_
    | with_reducible refine keep_foldl (fun _ _ _ => ?_) ?_
    | with_reducible refine keep_foldl_snd (fun _ _ _ _ => ?_) ?_
    | exact fun _ => rfl
    | exact fun _ h => h
    | (extract_lets +onlyGivenNames x; refine keep_cut (P x) ?_ (fun _ => ?_); unfold x; clear x; rotate_left; clear_value x)
    | (extract_lets +onlyGivenNames x; refine keep_cut (P x.2) ?_ (fun _ => ?_); unfold x; clear x; rotate_left; clear_value x)
    | (extract_lets +onlyGivenNames x; clear_value x)
    | split)

theorem execPortTrainingDone_keeps {P : State → Prop} (hP : Closed 2681538 P) {port : Fin 8} {s : State}  (h0 : P s) {t0 : State}
    (e : execPortTrainingDone port s = .next t0) : P t0 := by
  unfold execPortTrainingDone at e
  cases e
  repeat' (first
    | with_reducible assumption
    | with_reducible refine State.whenUp_keeps (hP.mono rfl) (fun _ _ => ?_) ?_
    | with_reducible refine State.portUp_keeps (hP.mono rfl) ?_
    | with_reducible refine keep_foldl (fun _ _ _ => ?_) ?_
    | with_reducible refine keep_foldl_snd (fun _ _ _ _ => ?_) ?_
    | exact fun _ => rfl
    | exact fun _ h => h
    | split)

end Sys2Proof.Machine
end

