-- ==== Sys2Proof/Laws/KeepRelocate.lean ====
section
/-! SUPPORT. What the operations of Machine/Relocate.lean touch: each keeps every predicate that is closed under the parts named. -/

namespace Sys2Proof.Machine

set_option linter.unusedTactic false
set_option linter.unreachableTactic false
set_option linter.unusedVariables false
set_option linter.tactic.unusedName false

theorem State.copyUnit_keeps {P : State → Prop} (hP : Closed 17664 P) {src dst : Nat × Nat} {n : Nat} {s : State}  (h0 : P s) :
    P (State.copyUnit src dst n s) := by
  unfold State.copyUnit
  repeat' (first
    | with_reducible assumption
    | with_reducible refine State.busReads_keeps (hP.mono rfl) ?_
    | with_reducible refine State.zeroGranules_keeps (hP.mono rfl) ?_
    | with_reducible refine State.memWriteN_keeps (hP.mono rfl) ?_
    | with_reducible refine State.busBytes_keeps (hP.mono rfl) ?_
    | with_reducible refine keep_foldl (fun _ _ _ => ?_) ?_
    | with_reducible refine keep_foldl_snd (fun _ _ _ _ => ?_) ?_
    | exact fun _ => rfl
    | exact fun _ h => h
    | (extract_lets +onlyGivenNames x; refine keep_cut (P x) ?_ (fun _ => ?_); unfold x; clear x; rotate_left; clear_value x)
    | (extract_lets +onlyGivenNames x; refine keep_cut (P x.2) ?_ (fun _ => ?_); unfold x; clear x; rotate_left; clear_value x)
    | (extract_lets +onlyGivenNames x; clear_value x)
    | split)

theorem State.newUnit_keeps {P : State → Prop} (hP : Closed 524800 P) {s : State} {slice kind n stack : Nat}  (h0 : P s) :
    OnSome (fun r => P r.2) (State.newUnit s slice kind n stack) := by
  unfold State.newUnit
  repeat' (first
    | with_reducible assumption
    | with_reducible refine State.allocFrom_keeps (hP.mono rfl) ?_
    | with_reducible refine State.allocFrom_some (hP.mono rfl) ?_ ‹_›
    | with_reducible exact OnSome.none
    | with_reducible refine OnSome.some ?_
    | with_reducible refine keep_foldl (fun _ _ _ => ?_) ?_
    | with_reducible refine keep_foldl_snd (fun _ _ _ _ => ?_) ?_
    | exact fun _ => rfl
    | exact fun _ h => h
    | with_reducible refine OnSome.map fun _ _ => ?_
    | with_reducible refine OnSome.findSome fun _ => ?_
    | split)
theorem State.newUnit_some {P : State → Prop} (hP : Closed 524800 P) {s : State} {slice kind n stack : Nat}  (h0 : P s) {a0 : (Nat × Nat)} {t : State}
    (e : State.newUnit s slice kind n stack = some (a0, t)) : P t := State.newUnit_keeps hP h0 _ e

theorem State.moveUnit_keeps {P : State → Prop} (hP : Closed 542592 P) {s : State} {slice kind n q : Nat} {src : Nat × Nat}  (h0 : P s) :
    OnSome (fun r => P r.2) (State.moveUnit s slice kind n q src) := by
  unfold State.moveUnit
  repeat' (first
    | with_reducible assumption
    | with_reducible refine State.newUnit_keeps (hP.mono rfl) ?_
    | with_reducible refine State.newUnit_some (hP.mono rfl) ?_ ‹_›
    | with_reducible refine State.copyUnit_keeps (hP.mono rfl) ?_
    | with_reducible refine State.retireUnit_keeps (hP.mono rfl) ?_
    | with_reducible exact OnSome.none
    | with_reducible refine OnSome.some ?_
    | with_reducible refine keep_foldl (fun _ _ _ => ?_) ?_
    | with_reducible refine keep_foldl_snd (fun _ _ _ _ => ?_) ?_
    | exact fun _ => rfl
    | exact fun _ h => h
    | with_reducible refine OnSome.map fun _ _ => ?_
    | with_reducible refine OnSome.findSome fun _ => ?_
    | split)
theorem State.moveUnit_some {P : State → Prop} (hP : Closed 542592 P) {s : State} {slice kind n q : Nat} {src : Nat × Nat}  (h0 : P s) {a0 : (Nat × Nat)} {t : State}
    (e : State.moveUnit s slice kind n q src = some (a0, t)) : P t := State.moveUnit_keeps hP h0 _ e

theorem Moved.then_keeps {P : State → Prop} {m : Moved} {f : State → Moved} (h : P m.1) (k : ∀ s, P s → P (f s).1) : P (m.then f).1 := by
  unfold Moved.then
  split
  · exact k _ h
  · exact h

theorem State.moveFrame_keeps {P : State → Prop} (hP : Closed 2641792 P) {p : Nat × Nat → Bool} {slice : Nat} {n : PageName} {s : State}  (h0 : P s) :
    P (State.moveFrame p slice n s).1 := by
  unfold State.moveFrame
  repeat' (first
    | with_reducible assumption
    | with_reducible refine State.releaseFrame_keeps (hP.mono rfl) ?_
    | with_reducible refine State.newUnit_keeps (hP.mono rfl) ?_
    | with_reducible refine State.newUnit_some (hP.mono rfl) ?_ ‹_›
    | with_reducible refine State.retireUnit_keeps (hP.mono rfl) ?_
    | with_reducible refine State.onEntry_keeps (hP.mono rfl) ?_
    | with_reducible refine State.onFill_keeps (hP.mono rfl) ?_
    | with_reducible refine State.moveUnit_keeps (hP.mono rfl) ?_
    | with_reducible refine State.moveUnit_some (hP.mono rfl) ?_ ‹_›
    | with_reducible refine State.dropCmds_keeps (hP.mono rfl) ?_
    | with_reducible refine State.retireExtent_keeps (hP.mono rfl) ?_
    | with_reducible refine State.bumpGen_keeps (hP.mono rfl) ?_
    | with_reducible refine keep_foldl (fun _ _ _ => ?_) ?_
    | with_reducible refine keep_foldl_snd (fun _ _ _ _ => ?_) ?_
    | with_reducible refine keep_foldl_fst (fun _ _ _ _ => ?_) ?_
    | with_reducible refine Moved.then_keeps ?_ (fun _ _ => ?_)
    | exact fun _ => rfl
    | exact fun _ h => h
    | (extract_lets +onlyGivenNames x; refine keep_cut (P x) ?_ (fun _ => ?_); unfold x; clear x; rotate_left; clear_value x)
    | (extract_lets +onlyGivenNames x; refine keep_cut (P x.2) ?_ (fun _ => ?_); unfold x; clear x; rotate_left; clear_value x)
    | (extract_lets +onlyGivenNames x; refine keep_cut (P x.1) ?_ (fun _ => ?_); unfold x; clear x; rotate_left; clear_value x)
    | (extract_lets +onlyGivenNames x; clear_value x)
    | split
    | with_reducible refine keep_fst ?_)

theorem State.moveWrite_keeps {P : State → Prop} (hP : Closed 2641792 P) {p : Nat × Nat → Bool} {slice : Nat} {n : PageName} {s : State}  (h0 : P s) :
    P (State.moveWrite p slice n s).1 := by
  unfold State.moveWrite
  repeat' (first
    | with_reducible assumption
    | with_reducible refine State.moveUnit_keeps (hP.mono rfl) ?_
    | with_reducible refine State.moveUnit_some (hP.mono rfl) ?_ ‹_›
    | with_reducible refine State.onEntry_keeps (hP.mono rfl) ?_
    | with_reducible refine State.bumpGen_keeps (hP.mono rfl) ?_
    | with_reducible refine keep_foldl (fun _ _ _ => ?_) ?_
    | with_reducible refine keep_foldl_snd (fun _ _ _ _ => ?_) ?_
    | with_reducible refine keep_foldl_fst (fun _ _ _ _ => ?_) ?_
    | with_reducible refine Moved.then_keeps ?_ (fun _ _ => ?_)
    | exact fun _ => rfl
    | exact fun _ h => h
    | split
    | with_reducible refine keep_fst ?_)

theorem State.moveShadow_keeps {P : State → Prop} (hP : Closed 2641792 P) {p : Nat × Nat → Bool} {slice : Nat} {n : PageName} {s : State}  (h0 : P s) :
    P (State.moveShadow p slice n s).1 := by
  unfold State.moveShadow
  repeat' (first
    | with_reducible assumption
    | with_reducible refine State.moveUnit_keeps (hP.mono rfl) ?_
    | with_reducible refine State.moveUnit_some (hP.mono rfl) ?_ ‹_›
    | with_reducible refine State.onEntry_keeps (hP.mono rfl) ?_
    | with_reducible refine State.bumpGen_keeps (hP.mono rfl) ?_
    | with_reducible refine keep_foldl (fun _ _ _ => ?_) ?_
    | with_reducible refine keep_foldl_snd (fun _ _ _ _ => ?_) ?_
    | with_reducible refine keep_foldl_fst (fun _ _ _ _ => ?_) ?_
    | with_reducible refine Moved.then_keeps ?_ (fun _ _ => ?_)
    | exact fun _ => rfl
    | exact fun _ h => h
    | split
    | with_reducible refine keep_fst ?_)

theorem State.moveHull_keeps {P : State → Prop} (hP : Closed 2641664 P) {p : Nat × Nat → Bool} {slice : Nat} {n : PageName} {s : State}  (h0 : P s) :
    P (State.moveHull p slice n s).1 := by
  unfold State.moveHull
  repeat' (first
    | with_reducible assumption
    | with_reducible refine State.hullFrom_keeps (hP.mono rfl) ?_
    | with_reducible refine State.hullFrom_some (hP.mono rfl) ?_ ‹_›
    | with_reducible refine State.memWriteN_keeps (hP.mono rfl) ?_
    | with_reducible refine State.retire_keeps (hP.mono rfl) ?_
    | with_reducible refine State.onEntry_keeps (hP.mono rfl) ?_
    | with_reducible refine State.bumpGen_keeps (hP.mono rfl) ?_
    | with_reducible refine keep_foldl (fun _ _ _ => ?_) ?_
    | with_reducible refine keep_foldl_snd (fun _ _ _ _ => ?_) ?_
    | with_reducible refine keep_foldl_fst (fun _ _ _ _ => ?_) ?_
    | with_reducible refine Moved.then_keeps ?_ (fun _ _ => ?_)
    | exact fun _ => rfl
    | exact fun _ h => h
    | (extract_lets +onlyGivenNames x; refine keep_cut (P x) ?_ (fun _ => ?_); unfold x; clear x; rotate_left; clear_value x)
    | (extract_lets +onlyGivenNames x; refine keep_cut (P x.2) ?_ (fun _ => ?_); unfold x; clear x; rotate_left; clear_value x)
    | (extract_lets +onlyGivenNames x; refine keep_cut (P x.1) ?_ (fun _ => ?_); unfold x; clear x; rotate_left; clear_value x)
    | (extract_lets +onlyGivenNames x; clear_value x)
    | split
    | with_reducible refine keep_fst ?_)

theorem State.moveEntry_keeps {P : State → Prop} (hP : Closed 2641792 P) {p : Nat × Nat → Bool} {slice : Nat} {n : PageName} {s : State}  (h0 : P s) :
    P (State.moveEntry p slice n s).1 := by
  unfold State.moveEntry
  repeat' (first
    | with_reducible assumption
    | with_reducible refine State.refresh_keeps (hP.mono rfl) ?_
    | with_reducible refine State.revokeGrants_keeps (hP.mono rfl) ?_
    | with_reducible refine State.moveFrame_keeps (hP.mono rfl) ?_
    | with_reducible refine State.moveWrite_keeps (hP.mono rfl) ?_
    | with_reducible refine State.moveShadow_keeps (hP.mono rfl) ?_
    | with_reducible refine State.moveHull_keeps (hP.mono rfl) ?_
    | with_reducible refine keep_foldl (fun _ _ _ => ?_) ?_
    | with_reducible refine keep_foldl_snd (fun _ _ _ _ => ?_) ?_
    | with_reducible refine keep_foldl_fst (fun _ _ _ _ => ?_) ?_
    | with_reducible refine Moved.then_keeps ?_ (fun _ _ => ?_)
    | exact fun _ => rfl
    | exact fun _ h => h
    | (extract_lets +onlyGivenNames x; refine keep_cut (P x) ?_ (fun _ => ?_); unfold x; clear x; rotate_left; clear_value x)
    | (extract_lets +onlyGivenNames x; refine keep_cut (P x.2) ?_ (fun _ => ?_); unfold x; clear x; rotate_left; clear_value x)
    | (extract_lets +onlyGivenNames x; refine keep_cut (P x.1) ?_ (fun _ => ?_); unfold x; clear x; rotate_left; clear_value x)
    | (extract_lets +onlyGivenNames x; clear_value x)
    | split
    | with_reducible refine keep_fst ?_)

theorem State.moveNode_keeps {P : State → Prop} (hP : Closed 546560 P) {p : Nat × Nat → Bool} {a : Nat} {s : State}  (h0 : P s) :
    P (State.moveNode p a s).1 := by
  unfold State.moveNode
  repeat' (first
    | with_reducible assumption
    | with_reducible refine hP.locus rfl _ _ ?_
    | with_reducible refine State.allocNode_keeps (hP.mono rfl) ?_
    | with_reducible refine State.allocNode_some (hP.mono rfl) ?_ ‹_›
    | with_reducible refine State.retire_keeps (hP.mono rfl) ?_
    | with_reducible refine State.putNode_keeps (hP.mono rfl) ?_
    | with_reducible refine keep_foldl (fun _ _ _ => ?_) ?_
    | with_reducible refine keep_foldl_snd (fun _ _ _ _ => ?_) ?_
    | with_reducible refine keep_foldl_fst (fun _ _ _ _ => ?_) ?_
    | with_reducible refine Moved.then_keeps ?_ (fun _ _ => ?_)
    | exact fun _ => rfl
    | exact fun _ h => h
    | (extract_lets +onlyGivenNames x; refine keep_cut (P x) ?_ (fun _ => ?_); unfold x; clear x; rotate_left; clear_value x)
    | (extract_lets +onlyGivenNames x; refine keep_cut (P x.2) ?_ (fun _ => ?_); unfold x; clear x; rotate_left; clear_value x)
    | (extract_lets +onlyGivenNames x; refine keep_cut (P x.1) ?_ (fun _ => ?_); unfold x; clear x; rotate_left; clear_value x)
    | (extract_lets +onlyGivenNames x; clear_value x)
    | split
    | with_reducible refine keep_fst ?_)

theorem State.moveAcc_keeps {P : State → Prop} (hP : Closed 544640 P) {p : Nat × Nat → Bool} {slice : Nat} {n : PageName} {s : State} (h0 : P s) :
    P (State.moveAcc p slice n s).1 := by
  unfold State.moveAcc
  split
  · exact h0
  · split
    · split
      · exact h0
      extract_lets r done b
      have hr : P r.1.2 := by
        unfold r
        refine keep_fold_any (P := fun (m : (List (Nat × Nat × Nat) × State) × Bool) => P m.1.2) (fun m x hm => ?_) h0
        split
        · exact hm
        · split
          · split
            · exact hm
            · exact State.moveUnit_keeps (hP.mono rfl) hm _ ‹_›
          · exact hm
      clear_value r
      with_reducible refine keep_fst ?_
      with_reducible refine State.writeAccHeader_keeps (hP.mono rfl) ?_
      with_reducible exact hP.home rfl _ _ hr
    · exact h0

theorem State.moveRegion_keeps {P : State → Prop} (hP : Closed 2639744 P) {p : Nat × Nat → Bool} {i : Nat} {s : State}  (h0 : P s) :
    P (State.moveRegion p i s).1 := by
  unfold State.moveRegion
  repeat' (first
    | with_reducible assumption
    | with_reducible refine hP.link rfl _ _ (fun _ _ h => h) ?_
    | with_reducible refine State.moveUnit_keeps (hP.mono rfl) ?_
    | with_reducible refine State.moveUnit_some (hP.mono rfl) ?_ ‹_›
    | with_reducible refine keep_foldl (fun _ _ _ => ?_) ?_
    | with_reducible refine keep_foldl_snd (fun _ _ _ _ => ?_) ?_
    | with_reducible refine keep_foldl_fst (fun _ _ _ _ => ?_) ?_
    | with_reducible refine Moved.then_keeps ?_ (fun _ _ => ?_)
    | exact fun _ => rfl
    | exact fun _ h => h
    | (extract_lets +onlyGivenNames x; refine keep_cut (P x) ?_ (fun _ => ?_); unfold x; clear x; rotate_left; clear_value x)
    | (extract_lets +onlyGivenNames x; refine keep_cut (P x.2) ?_ (fun _ => ?_); unfold x; clear x; rotate_left; clear_value x)
    | (extract_lets +onlyGivenNames x; refine keep_cut (P x.1) ?_ (fun _ => ?_); unfold x; clear x; rotate_left; clear_value x)
    | (extract_lets +onlyGivenNames x; clear_value x)
    | split
    | with_reducible refine keep_fst ?_)

theorem State.moveUnits_keeps {P : State → Prop} (hP : Closed 2645888 P) {p : Nat × Nat → Bool} {slice : Nat} {regions : Bool} {s : State}  (h0 : P s) :
    P (State.moveUnits p slice regions s).1 := by
  unfold State.moveUnits
  repeat' (first
    | with_reducible assumption
    | with_reducible refine State.moveEntry_keeps (hP.mono rfl) ?_
    | with_reducible refine State.moveNode_keeps (hP.mono rfl) ?_
    | with_reducible refine State.moveAcc_keeps (hP.mono rfl) ?_
    | with_reducible refine State.moveRegion_keeps (hP.mono rfl) ?_
    | with_reducible refine keep_foldl (fun _ _ _ => ?_) ?_
    | with_reducible refine keep_foldl_snd (fun _ _ _ _ => ?_) ?_
    | with_reducible refine keep_foldl_fst (fun _ _ _ _ => ?_) ?_
    | with_reducible refine Moved.then_keeps ?_ (fun _ _ => ?_)
    | exact fun _ => rfl
    | exact fun _ h => h
    | (extract_lets +onlyGivenNames x; refine keep_cut (P x) ?_ (fun _ => ?_); unfold x; clear x; rotate_left; clear_value x)
    | (extract_lets +onlyGivenNames x; refine keep_cut (P x.2) ?_ (fun _ => ?_); unfold x; clear x; rotate_left; clear_value x)
    | (extract_lets +onlyGivenNames x; refine keep_cut (P x.1) ?_ (fun _ => ?_); unfold x; clear x; rotate_left; clear_value x)
    | (extract_lets +onlyGivenNames x; clear_value x)
    | split
    | with_reducible refine keep_fst ?_)

end Sys2Proof.Machine
end

