-- ==== Sys2Proof/Laws/KeepSlices.lean ====
section
/-! SUPPORT. What the operations of Machine/Slices.lean touch: each keeps every predicate that is closed under the parts named. -/

namespace Sys2Proof.Machine

set_option linter.unusedTactic false
set_option linter.unreachableTactic false
set_option linter.unusedVariables false
set_option linter.tactic.unusedName false

theorem State.join_keeps {P : State → Prop} (hP : Closed 64 P) {key i : Nat} {clear : State → State} {s : State} (kclear : ∀ s, P s → P (clear s)) (h0 : P s) :
    P (State.join key i clear s) := by
  unfold State.join
  repeat' (first
    | with_reducible assumption
    | with_reducible refine hP.sch rfl _ _ ?_
    | with_reducible refine kclear _ ?_
    | with_reducible refine keep_foldl (fun _ _ _ => ?_) ?_
    | with_reducible refine keep_foldl_snd (fun _ _ _ _ => ?_) ?_
    | (extract_lets +onlyGivenNames x; refine keep_cut (P x) ?_ (fun _ => ?_); unfold x; clear x; rotate_left; clear_value x)
    | (extract_lets +onlyGivenNames x; refine keep_cut (P x.2) ?_ (fun _ => ?_); unfold x; clear x; rotate_left; clear_value x)
    | (extract_lets +onlyGivenNames x; clear_value x)
    | split)

theorem State.clearStack_keeps {P : State → Prop} (hP : Closed 525824 P) {k : Nat} {s : State} (h0 : P s) : P (State.clearStack k s) := by
  unfold State.clearStack
  refine hP.cells rfl _ _ (fun m hm => ?_) (State.clearMark_keeps (hP.mono rfl) h0)
  rw [Mem.ok_iff] at *
  exact ⟨Memory.wf_filter _ hm.1, hm.2⟩

theorem State.clearLocus_keeps {P : State → Prop} (hP : Closed 4096 P) {b : Nat} {s : State}  (h0 : P s) :
    P (State.clearLocus b s) := by
  unfold State.clearLocus
  repeat' (first
    | with_reducible assumption
    | with_reducible refine hP.locus rfl _ _ ?_
    | with_reducible refine keep_foldl (fun _ _ _ => ?_) ?_
    | with_reducible refine keep_foldl_snd (fun _ _ _ _ => ?_) ?_
    | split)

theorem State.joinAll_keeps {P : State → Prop} (hP : Closed 530112 P) {i : Nat} {c : SliceCfg} {s : State}  (h0 : P s) :
    P (State.joinAll i c s) := by
  unfold State.joinAll
  repeat' (first
    | with_reducible assumption
    | with_reducible refine State.join_keeps (hP.mono rfl) (fun _ _ => ?_) ?_
    | with_reducible refine State.clearBlock_keeps (hP.mono rfl) ?_
    | with_reducible refine State.clearStack_keeps (hP.mono rfl) ?_
    | with_reducible refine State.clearLocus_keeps (hP.mono rfl) ?_
    | with_reducible refine keep_foldl (fun _ _ _ => ?_) ?_
    | with_reducible refine keep_foldl_snd (fun _ _ _ _ => ?_) ?_
    | exact fun _ => rfl
    | exact fun _ h => h
    | (extract_lets +onlyGivenNames x; refine keep_cut (P x) ?_ (fun _ => ?_); unfold x; clear x; rotate_left; clear_value x)
    | (extract_lets +onlyGivenNames x; refine keep_cut (P x.2) ?_ (fun _ => ?_); unfold x; clear x; rotate_left; clear_value x)
    | (extract_lets +onlyGivenNames x; clear_value x)
    | split)

theorem State.loadTable_keeps {P : State → Prop} (hP : Closed 64 P) {c : SliceCfg} {s : State}  (h0 : P s) :
    P (State.loadTable c s) := by
  unfold State.loadTable
  repeat' (first
    | with_reducible assumption
    | with_reducible refine hP.sch rfl _ _ ?_
    | with_reducible refine keep_foldl (fun _ _ _ => ?_) ?_
    | with_reducible refine keep_foldl_snd (fun _ _ _ _ => ?_) ?_
    | split)

theorem State.stageTable_keeps {P : State → Prop} (hP : Closed 64 P) {old c : SliceCfg} {s : State}  (h0 : P s) :
    P (State.stageTable old c s) := by
  unfold State.stageTable
  repeat' (first
    | with_reducible assumption
    | with_reducible refine hP.sch rfl _ _ ?_
    | with_reducible refine keep_foldl (fun _ _ _ => ?_) ?_
    | with_reducible refine keep_foldl_snd (fun _ _ _ _ => ?_) ?_
    | (extract_lets +onlyGivenNames x; refine keep_cut (P x) ?_ (fun _ => ?_); unfold x; clear x; rotate_left; clear_value x)
    | (extract_lets +onlyGivenNames x; refine keep_cut (P x.2) ?_ (fun _ => ?_); unfold x; clear x; rotate_left; clear_value x)
    | (extract_lets +onlyGivenNames x; clear_value x)
    | split)

theorem State.applyStaged_keeps {P : State → Prop} (hP : Closed 64 P) {s : State}  (h0 : P s) :
    P (State.applyStaged s) := by
  unfold State.applyStaged
  repeat' (first
    | with_reducible assumption
    | with_reducible refine hP.sch rfl _ _ ?_
    | with_reducible refine keep_foldl (fun _ _ _ => ?_) ?_
    | with_reducible refine keep_foldl_snd (fun _ _ _ _ => ?_) ?_
    | (extract_lets +onlyGivenNames x; refine keep_cut (P x) ?_ (fun _ => ?_); unfold x; clear x; rotate_left; clear_value x)
    | (extract_lets +onlyGivenNames x; refine keep_cut (P x.2) ?_ (fun _ => ?_); unfold x; clear x; rotate_left; clear_value x)
    | (extract_lets +onlyGivenNames x; clear_value x)
    | split)

theorem State.opReady_keeps {P : State → Prop} (hP : Closed 786480 P) {id : Option Nat} {s : State}  (h0 : P s) :
    P (State.opReady id s) := by
  unfold State.opReady
  repeat' (first
    | with_reducible assumption
    | with_reducible refine State.opDone_keeps (hP.mono rfl) ?_
    | with_reducible refine keep_foldl (fun _ _ _ => ?_) ?_
    | with_reducible refine keep_foldl_snd (fun _ _ _ _ => ?_) ?_
    | split)

theorem State.burnSvn_keeps {P : State → Prop} (hP : Closed 524296 P) {s : State}  (h0 : P s) :
    P (State.burnSvn s) := by
  unfold State.burnSvn
  repeat' (first
    | with_reducible assumption
    | with_reducible refine hP.sec rfl _ _ ?_
    | with_reducible refine hP.emitted rfl _ _ ?_
    | with_reducible refine keep_foldl (fun _ _ _ => ?_) ?_
    | with_reducible refine keep_foldl_snd (fun _ _ _ _ => ?_) ?_
    | split)

theorem State.startServing_keeps {P : State → Prop} (hP : Closed 802936 P) {i : Nat} {s : State}  (h0 : P s) :
    P (State.startServing i s) := by
  unfold State.startServing
  repeat' (first
    | with_reducible assumption
    | with_reducible refine State.burnSvn_keeps (hP.mono rfl) ?_
    | with_reducible refine State.onSlice_keeps (hP.mono rfl) ?_
    | with_reducible refine State.startRamp_keeps (hP.mono rfl) ?_
    | with_reducible refine State.opReady_keeps (hP.mono rfl) ?_
    | with_reducible refine keep_foldl (fun _ _ _ => ?_) ?_
    | with_reducible refine keep_foldl_snd (fun _ _ _ _ => ?_) ?_
    | (extract_lets +onlyGivenNames x; refine keep_cut (P x) ?_ (fun _ => ?_); unfold x; clear x; rotate_left; clear_value x)
    | (extract_lets +onlyGivenNames x; refine keep_cut (P x.2) ?_ (fun _ => ?_); unfold x; clear x; rotate_left; clear_value x)
    | (extract_lets +onlyGivenNames x; clear_value x)
    | split)

theorem State.endRecompose_keeps {P : State → Prop} (hP : Closed 786544 P) {i : Nat} {s : State}  (h0 : P s) :
    P (State.endRecompose i s) := by
  unfold State.endRecompose
  repeat' (first
    | with_reducible assumption
    | with_reducible refine State.onSlice_keeps (hP.mono rfl) ?_
    | with_reducible refine State.opReady_keeps (hP.mono rfl) ?_
    | with_reducible refine keep_foldl (fun _ _ _ => ?_) ?_
    | with_reducible refine keep_foldl_snd (fun _ _ _ _ => ?_) ?_
    | (extract_lets +onlyGivenNames x; refine keep_cut (P x) ?_ (fun _ => ?_); unfold x; clear x; rotate_left; clear_value x)
    | (extract_lets +onlyGivenNames x; refine keep_cut (P x.2) ?_ (fun _ => ?_); unfold x; clear x; rotate_left; clear_value x)
    | (extract_lets +onlyGivenNames x; clear_value x)
    | split)

theorem State.switchFlash_keeps {P : State → Prop} (hP : Closed 786544 P) {i drives : Nat} {op : Option Nat} {s : State}  (h0 : P s) :
    P (State.switchFlash i drives op s).2 := by
  unfold State.switchFlash
  repeat' (first
    | with_reducible assumption
    | with_reducible refine State.opFail?_keeps (hP.mono rfl) ?_
    | with_reducible refine State.onSlice_keeps (hP.mono rfl) ?_
    | with_reducible refine State.latchOp_keeps (hP.mono rfl) ?_
    | with_reducible refine keep_foldl (fun _ _ _ => ?_) ?_
    | with_reducible refine keep_foldl_snd (fun _ _ _ _ => ?_) ?_
    | (extract_lets +onlyGivenNames x; refine keep_cut (P x) ?_ (fun _ => ?_); unfold x; clear x; rotate_left; clear_value x)
    | (extract_lets +onlyGivenNames x; refine keep_cut (P x.2) ?_ (fun _ => ?_); unfold x; clear x; rotate_left; clear_value x)
    | (extract_lets +onlyGivenNames x; clear_value x)
    | split
    | with_reducible refine keep_snd ?_)
theorem State.switchFlash_eq {P : State → Prop} (hP : Closed 786544 P) {i drives : Nat} {op : Option Nat} {s : State}  (h0 : P s) {a0 : Nat} {t : State}
    (e : State.switchFlash i drives op s = (a0, t)) : P t := by
  have h1 : P (State.switchFlash i drives op s).2 := State.switchFlash_keeps hP h0
  rw [e] at h1
  exact h1

theorem State.redispatch_keeps {P : State → Prop} (hP : Closed 786672 P) {i b : Nat} {s : State}  (h0 : P s) :
    P (State.redispatch i b s) := by
  unfold State.redispatch
  repeat' (first
    | with_reducible assumption
    | with_reducible refine State.onBlock_keeps (hP.mono rfl) ?_
    | with_reducible refine State.placeReady_keeps (hP.mono rfl) ?_
    | with_reducible refine keep_foldl (fun _ _ _ => ?_) ?_
    | with_reducible refine keep_foldl_snd (fun _ _ _ _ => ?_) ?_
    | (extract_lets +onlyGivenNames x; refine keep_cut (P x) ?_ (fun _ => ?_); unfold x; clear x; rotate_left; clear_value x)
    | (extract_lets +onlyGivenNames x; refine keep_cut (P x.2) ?_ (fun _ => ?_); unfold x; clear x; rotate_left; clear_value x)
    | (extract_lets +onlyGivenNames x; clear_value x)
    | split)

theorem State.putSection_keeps {P : State → Prop} (hP : Closed 792304 P) {i : Nat} {c : SliceCfg} {op : Option Nat} {s : State}  (h0 : P s) :
    P (State.putSection i c op s) := by
  unfold State.putSection
  repeat' (first
    | with_reducible assumption
    | with_reducible refine State.switchFlash_keeps (hP.mono rfl) ?_
    | with_reducible refine State.switchFlash_eq (hP.mono rfl) ?_ ‹_›
    | with_reducible refine State.joinAll_keeps (hP.mono rfl) ?_
    | with_reducible refine State.onSlice_keeps (hP.mono rfl) ?_
    | with_reducible refine State.redispatch_keeps (hP.mono rfl) ?_
    | with_reducible refine keep_foldl (fun _ _ _ => ?_) ?_
    | with_reducible refine keep_foldl_snd (fun _ _ _ _ => ?_) ?_
    | exact fun _ => rfl
    | exact fun _ h => h
    | (extract_lets +onlyGivenNames x; refine keep_cut (P x) ?_ (fun _ => ?_); unfold x; clear x; rotate_left; clear_value x)
    | (extract_lets +onlyGivenNames x; refine keep_cut (P x.2) ?_ (fun _ => ?_); unfold x; clear x; rotate_left; clear_value x)
    | (extract_lets +onlyGivenNames x; clear_value x)
    | split)

theorem State.recompose_keeps {P : State → Prop} (hP : Closed 792304 P) {i : Nat} {c : SliceCfg} {serial digest : Nat} {op : Nat} {s : State}  (h0 : P s) :
    P (State.recompose i c serial digest op s) := by
  unfold State.recompose
  repeat' (first
    | with_reducible assumption
    | with_reducible refine State.stageTable_keeps (hP.mono rfl) ?_
    | with_reducible refine State.putSection_keeps (hP.mono rfl) ?_
    | with_reducible refine State.clearMark_keeps (hP.mono rfl) ?_
    | with_reducible refine State.onSlice_keeps (hP.mono rfl) ?_
    | with_reducible refine State.endRecompose_keeps (hP.mono rfl) ?_
    | with_reducible refine keep_foldl (fun _ _ _ => ?_) ?_
    | with_reducible refine keep_foldl_snd (fun _ _ _ _ => ?_) ?_
    | exact fun _ => rfl
    | exact fun _ h => h
    | (extract_lets +onlyGivenNames x; refine keep_cut (P x) ?_ (fun _ => ?_); unfold x; clear x; rotate_left; clear_value x)
    | (extract_lets +onlyGivenNames x; refine keep_cut (P x.2) ?_ (fun _ => ?_); unfold x; clear x; rotate_left; clear_value x)
    | (extract_lets +onlyGivenNames x; clear_value x)
    | split)

theorem State.compose_keeps {P : State → Prop} (hP : Closed 792304 P) {i : Nat} {c : SliceCfg} {serial digest : Nat} {op : Option Nat} {s : State}  (h0 : P s) :
    P (State.compose i c serial digest op s) := by
  unfold State.compose
  repeat' (first
    | with_reducible assumption
    | with_reducible refine State.joinAll_keeps (hP.mono rfl) ?_
    | with_reducible refine State.onSlice_keeps (hP.mono rfl) ?_
    | with_reducible refine State.putSection_keeps (hP.mono rfl) ?_
    | with_reducible refine State.clearMark_keeps (hP.mono rfl) ?_
    | with_reducible refine State.loadTable_keeps (hP.mono rfl) ?_
    | with_reducible refine keep_foldl (fun _ _ _ => ?_) ?_
    | with_reducible refine keep_foldl_snd (fun _ _ _ _ => ?_) ?_
    | exact fun _ => rfl
    | exact fun _ h => h
    | (extract_lets +onlyGivenNames x; refine keep_cut (P x) ?_ (fun _ => ?_); unfold x; clear x; rotate_left; clear_value x)
    | (extract_lets +onlyGivenNames x; refine keep_cut (P x.2) ?_ (fun _ => ?_); unfold x; clear x; rotate_left; clear_value x)
    | (extract_lets +onlyGivenNames x; clear_value x)
    | split)

theorem execSliceContextRestore_keeps {P : State → Prop} (hP : Closed 2908152 P) {slice : Fin 8} {s : State}  (h0 : P s) {t0 : State}
    (e : execSliceContextRestore slice s = .next t0) : P t0 := by
  unfold execSliceContextRestore at e
  cases e
  repeat' (first
    | with_reducible assumption
    | with_reducible refine State.whenUp_keeps (hP.mono rfl) (fun _ _ => ?_) ?_
    | with_reducible refine State.onSlice_keeps (hP.mono rfl) ?_
    | with_reducible refine State.loadTable_keeps (hP.mono rfl) ?_
    | with_reducible refine State.reindex_keeps (hP.mono rfl) ?_
    | with_reducible refine State.startServing_keeps (hP.mono rfl) ?_
    | with_reducible refine keep_foldl (fun _ _ _ => ?_) ?_
    | with_reducible refine keep_foldl_snd (fun _ _ _ _ => ?_) ?_
    | exact fun _ => rfl
    | exact fun _ h => h
    | (extract_lets +onlyGivenNames x; refine keep_cut (P x) ?_ (fun _ => ?_); unfold x; clear x; rotate_left; clear_value x)
    | (extract_lets +onlyGivenNames x; refine keep_cut (P x.2) ?_ (fun _ => ?_); unfold x; clear x; rotate_left; clear_value x)
    | (extract_lets +onlyGivenNames x; clear_value x)
    | split)

theorem State.dropChange_keeps {P : State → Prop} (hP : Closed 64 P) {i : Nat} {c : Change} {s : State}  (h0 : P s) :
    P (State.dropChange i c s) := by
  unfold State.dropChange
  repeat' (first
    | with_reducible assumption
    | with_reducible refine State.onSlice_keeps (hP.mono rfl) ?_
    | with_reducible refine keep_foldl (fun _ _ _ => ?_) ?_
    | with_reducible refine keep_foldl_snd (fun _ _ _ _ => ?_) ?_
    | split)

theorem State.stopChange_keeps {P : State → Prop} (hP : Closed 786544 P) {i : Nat} {c : Code} {s : State}  (h0 : P s) :
    P (State.stopChange i c s) := by
  unfold State.stopChange
  repeat' (first
    | with_reducible assumption
    | with_reducible refine State.onSlice_keeps (hP.mono rfl) ?_
    | with_reducible refine State.opFail?_keeps (hP.mono rfl) ?_
    | with_reducible refine keep_foldl (fun _ _ _ => ?_) ?_
    | with_reducible refine keep_foldl_snd (fun _ _ _ _ => ?_) ?_
    | (extract_lets +onlyGivenNames x; refine keep_cut (P x) ?_ (fun _ => ?_); unfold x; clear x; rotate_left; clear_value x)
    | (extract_lets +onlyGivenNames x; refine keep_cut (P x.2) ?_ (fun _ => ?_); unfold x; clear x; rotate_left; clear_value x)
    | (extract_lets +onlyGivenNames x; clear_value x)
    | split)

theorem State.removeBlock_keeps {P : State → Prop} (hP : Closed 786672 P) {i b : Nat} {s : State}  (h0 : P s) :
    P (State.removeBlock i b s) := by
  unfold State.removeBlock
  repeat' (first
    | with_reducible assumption
    | with_reducible refine hP.sch rfl _ _ ?_
    | with_reducible refine State.spillShadow_keeps (hP.mono rfl) ?_
    | with_reducible refine State.redispatch_keeps (hP.mono rfl) ?_
    | with_reducible refine State.clearBlock_keeps (hP.mono rfl) ?_
    | with_reducible refine State.dropChange_keeps (hP.mono rfl) ?_
    | with_reducible refine keep_foldl (fun _ _ _ => ?_) ?_
    | with_reducible refine keep_foldl_snd (fun _ _ _ _ => ?_) ?_
    | (extract_lets +onlyGivenNames x; refine keep_cut (P x) ?_ (fun _ => ?_); unfold x; clear x; rotate_left; clear_value x)
    | (extract_lets +onlyGivenNames x; refine keep_cut (P x.2) ?_ (fun _ => ?_); unfold x; clear x; rotate_left; clear_value x)
    | (extract_lets +onlyGivenNames x; clear_value x)
    | split)

theorem State.removeStack_keeps {P : State → Prop} (hP : Closed 2908144 P) {i k : Nat} {s : State}  (h0 : P s) :
    P (State.removeStack i k s) := by
  unfold State.removeStack
  repeat' (first
    | with_reducible assumption
    | with_reducible refine State.moveUnits_keeps (hP.mono rfl) ?_
    | with_reducible refine State.suspendOp_keeps (hP.mono rfl) ?_
    | with_reducible refine State.onSlice_keeps (hP.mono rfl) ?_
    | with_reducible refine State.dropChange_keeps (hP.mono rfl) ?_
    | with_reducible refine State.stopChange_keeps (hP.mono rfl) ?_
    | with_reducible refine keep_foldl (fun _ _ _ => ?_) ?_
    | with_reducible refine keep_foldl_snd (fun _ _ _ _ => ?_) ?_
    | exact fun _ => rfl
    | exact fun _ h => h
    | (extract_lets +onlyGivenNames x; refine keep_cut (P x) ?_ (fun _ => ?_); unfold x; clear x; rotate_left; clear_value x)
    | (extract_lets +onlyGivenNames x; refine keep_cut (P x.2) ?_ (fun _ => ?_); unfold x; clear x; rotate_left; clear_value x)
    | (extract_lets +onlyGivenNames x; refine keep_cut (P x.1) ?_ (fun _ => ?_); unfold x; clear x; rotate_left; clear_value x)
    | (extract_lets +onlyGivenNames x; refine keep_cut (∀ a, P (x a)) ?_ (fun kx => ?_); unfold x; clear x; intro _; beta_reduce; rotate_left; clear_value x)
    | with_reducible apply_assumption
    | (extract_lets +onlyGivenNames x; clear_value x)
    | split)

theorem State.moveCascade_keeps {P : State → Prop} (hP : Closed 2645952 P) {i : Nat} {old : LocusCfg} {s : State}  (h0 : P s) :
    P (State.moveCascade i old s) := by
  unfold State.moveCascade
  repeat' (first
    | with_reducible assumption
    | with_reducible refine State.dropChange_keeps (hP.mono rfl) ?_
    | with_reducible refine State.rebuildCascade_keeps (hP.mono rfl) ?_
    | with_reducible refine keep_foldl (fun _ _ _ => ?_) ?_
    | with_reducible refine keep_foldl_snd (fun _ _ _ _ => ?_) ?_
    | exact fun _ => rfl
    | exact fun _ h => h
    | split)

theorem State.removePort_keeps {P : State → Prop} (hP : Closed 2681536 P) {i p : Nat} {s : State}  (h0 : P s) :
    P (State.removePort i p s) := by
  unfold State.removePort
  repeat' (first
    | with_reducible assumption
    | with_reducible refine State.flushWhere_keeps (hP.mono rfl) ?_
    | with_reducible refine State.dropChange_keeps (hP.mono rfl) ?_
    | with_reducible refine keep_foldl (fun _ _ _ => ?_) ?_
    | with_reducible refine keep_foldl_snd (fun _ _ _ _ => ?_) ?_
    | exact fun _ => rfl
    | exact fun _ h => h
    | (extract_lets +onlyGivenNames x; refine keep_cut (P x) ?_ (fun _ => ?_); unfold x; clear x; rotate_left; clear_value x)
    | (extract_lets +onlyGivenNames x; refine keep_cut (P x.2) ?_ (fun _ => ?_); unfold x; clear x; rotate_left; clear_value x)
    | (extract_lets +onlyGivenNames x; clear_value x)
    | split)

theorem State.copySpan_keeps {P : State → Prop} (hP : Closed 2645952 P) {i st sp : Nat} {s : State}  (h0 : P s) :
    P (State.copySpan i st sp s) := by
  unfold State.copySpan
  repeat' (first
    | with_reducible assumption
    | with_reducible refine State.moveUnits_keeps (hP.mono rfl) ?_
    | with_reducible refine State.dropChange_keeps (hP.mono rfl) ?_
    | with_reducible refine keep_foldl (fun _ _ _ => ?_) ?_
    | with_reducible refine keep_foldl_snd (fun _ _ _ _ => ?_) ?_
    | exact fun _ => rfl
    | exact fun _ h => h
    | (extract_lets +onlyGivenNames x; refine keep_cut (P x) ?_ (fun _ => ?_); unfold x; clear x; rotate_left; clear_value x)
    | (extract_lets +onlyGivenNames x; refine keep_cut (P x.2) ?_ (fun _ => ?_); unfold x; clear x; rotate_left; clear_value x)
    | (extract_lets +onlyGivenNames x; refine keep_cut (P x.1) ?_ (fun _ => ?_); unfold x; clear x; rotate_left; clear_value x)
    | (extract_lets +onlyGivenNames x; clear_value x)
    | split)

theorem execRecomposeChangeComplete_keeps {P : State → Prop} (hP : Closed 2949104 P) {slice : Fin 8} {s : State}  (h0 : P s) {t0 : State}
    (e : execRecomposeChangeComplete slice s = .next t0) : P t0 := by
  unfold execRecomposeChangeComplete at e
  cases e
  repeat' (first
    | with_reducible assumption
    | with_reducible refine State.whenUp_keeps (hP.mono rfl) (fun _ _ => ?_) ?_
    | with_reducible refine State.removeBlock_keeps (hP.mono rfl) ?_
    | with_reducible refine State.removeStack_keeps (hP.mono rfl) ?_
    | with_reducible refine State.moveCascade_keeps (hP.mono rfl) ?_
    | with_reducible refine State.removePort_keeps (hP.mono rfl) ?_
    | with_reducible refine State.copySpan_keeps (hP.mono rfl) ?_
    | with_reducible refine State.endRecompose_keeps (hP.mono rfl) ?_
    | with_reducible refine keep_foldl (fun _ _ _ => ?_) ?_
    | with_reducible refine keep_foldl_snd (fun _ _ _ _ => ?_) ?_
    | exact fun _ => rfl
    | exact fun _ h => h
    | (extract_lets +onlyGivenNames x; refine keep_cut (P x) ?_ (fun _ => ?_); unfold x; clear x; rotate_left; clear_value x)
    | (extract_lets +onlyGivenNames x; refine keep_cut (P x.2) ?_ (fun _ => ?_); unfold x; clear x; rotate_left; clear_value x)
    | (extract_lets +onlyGivenNames x; clear_value x)
    | split)

theorem State.joinBlocks_keeps {P : State → Prop} (hP : Closed 786544 P) {i : Nat} {s : State}  (h0 : P s) :
    P (State.joinBlocks i s) := by
  unfold State.joinBlocks
  repeat' (first
    | with_reducible assumption
    | with_reducible refine State.onSlice_keeps (hP.mono rfl) ?_
    | with_reducible refine State.endRecompose_keeps (hP.mono rfl) ?_
    | with_reducible refine keep_foldl (fun _ _ _ => ?_) ?_
    | with_reducible refine keep_foldl_snd (fun _ _ _ _ => ?_) ?_
    | (extract_lets +onlyGivenNames x; refine keep_cut (P x) ?_ (fun _ => ?_); unfold x; clear x; rotate_left; clear_value x)
    | (extract_lets +onlyGivenNames x; refine keep_cut (P x.2) ?_ (fun _ => ?_); unfold x; clear x; rotate_left; clear_value x)
    | (extract_lets +onlyGivenNames x; clear_value x)
    | split)

theorem State.discardSlice_keeps {P : State → Prop} (hP : Closed 2628096 P) {i : Nat} {s : State}  (h0 : P s) :
    P (State.discardSlice i s) := by
  unfold State.discardSlice
  repeat' (first
    | with_reducible assumption
    | with_reducible refine hP.mem rfl _ _ ?_ ?_ ?_
    | with_reducible refine hP.home rfl _ _ ?_
    | with_reducible refine hP.locus rfl _ _ ?_
    | with_reducible refine hP.link rfl _ _ (fun _ _ h => h) ?_
    | with_reducible refine State.freeExtent_keeps (hP.mono rfl) ?_
    | with_reducible refine State.retire_keeps (hP.mono rfl) ?_
    | with_reducible refine State.clearMark_keeps (hP.mono rfl) ?_
    | with_reducible refine keep_foldl (fun _ _ _ => ?_) ?_
    | with_reducible refine keep_foldl_snd (fun _ _ _ _ => ?_) ?_
    | exact fun _ => rfl
    | exact fun _ h => h
    | (extract_lets +onlyGivenNames x; refine keep_cut (P x) ?_ (fun _ => ?_); unfold x; clear x; rotate_left; clear_value x)
    | (extract_lets +onlyGivenNames x; refine keep_cut (P x.2) ?_ (fun _ => ?_); unfold x; clear x; rotate_left; clear_value x)
    | (extract_lets +onlyGivenNames x; clear_value x)
    | split)

theorem State.removeSlice_keeps {P : State → Prop} (hP : Closed 2685632 P) {i : Nat} {s : State}  (h0 : P s) :
    P (State.removeSlice i s) := by
  unfold State.removeSlice
  repeat' (first
    | with_reducible assumption
    | with_reducible refine hP.sch rfl _ _ ?_
    | with_reducible refine State.flushWhere_keeps (hP.mono rfl) ?_
    | with_reducible refine State.discardSlice_keeps (hP.mono rfl) ?_
    | with_reducible refine State.onSlice_keeps (hP.mono rfl) ?_
    | with_reducible refine keep_foldl (fun _ _ _ => ?_) ?_
    | with_reducible refine keep_foldl_snd (fun _ _ _ _ => ?_) ?_
    | exact fun _ => rfl
    | exact fun _ h => h
    | (extract_lets +onlyGivenNames x; refine keep_cut (P x) ?_ (fun _ => ?_); unfold x; clear x; rotate_left; clear_value x)
    | (extract_lets +onlyGivenNames x; refine keep_cut (P x.2) ?_ (fun _ => ?_); unfold x; clear x; rotate_left; clear_value x)
    | (extract_lets +onlyGivenNames x; clear_value x)
    | split)

theorem State.startDrain_keeps {P : State → Prop} (hP : Closed 786544 P) {i : Nat} {o : Outcome} {s : State}  (h0 : P s) :
    P (State.startDrain i o s) := by
  unfold State.startDrain
  repeat' (first
    | with_reducible assumption
    | with_reducible refine State.stopChange_keeps (hP.mono rfl) ?_
    | with_reducible refine State.onSlice_keeps (hP.mono rfl) ?_
    | with_reducible refine keep_foldl (fun _ _ _ => ?_) ?_
    | with_reducible refine keep_foldl_snd (fun _ _ _ _ => ?_) ?_
    | (extract_lets +onlyGivenNames x; refine keep_cut (P x) ?_ (fun _ => ?_); unfold x; clear x; rotate_left; clear_value x)
    | (extract_lets +onlyGivenNames x; refine keep_cut (P x.2) ?_ (fun _ => ?_); unfold x; clear x; rotate_left; clear_value x)
    | (extract_lets +onlyGivenNames x; clear_value x)
    | split)

theorem State.replaceOutcome_keeps {P : State → Prop} (hP : Closed 786544 P) {i : Nat} {o : Outcome} {s : State}  (h0 : P s) :
    P (State.replaceOutcome i o s) := by
  unfold State.replaceOutcome
  repeat' (first
    | with_reducible assumption
    | with_reducible refine State.onSlice_keeps (hP.mono rfl) ?_
    | with_reducible refine State.opFail?_keeps (hP.mono rfl) ?_
    | with_reducible refine keep_foldl (fun _ _ _ => ?_) ?_
    | with_reducible refine keep_foldl_snd (fun _ _ _ _ => ?_) ?_
    | (extract_lets +onlyGivenNames x; refine keep_cut (P x) ?_ (fun _ => ?_); unfold x; clear x; rotate_left; clear_value x)
    | (extract_lets +onlyGivenNames x; refine keep_cut (P x.2) ?_ (fun _ => ?_); unfold x; clear x; rotate_left; clear_value x)
    | (extract_lets +onlyGivenNames x; clear_value x)
    | split)

theorem State.endDrain_keeps {P : State → Prop} (hP : Closed 2948848 P) {i : Nat} {s : State}  (h0 : P s) :
    P (State.endDrain i s) := by
  unfold State.endDrain
  repeat' (first
    | with_reducible assumption
    | with_reducible refine State.onSlice_keeps (hP.mono rfl) ?_
    | with_reducible refine State.opReady_keeps (hP.mono rfl) ?_
    | with_reducible refine State.compose_keeps (hP.mono rfl) ?_
    | with_reducible refine State.setOp_keeps (hP.mono rfl) ?_
    | with_reducible refine State.removeSlice_keeps (hP.mono rfl) ?_
    | with_reducible refine keep_foldl (fun _ _ _ => ?_) ?_
    | with_reducible refine keep_foldl_snd (fun _ _ _ _ => ?_) ?_
    | exact fun _ => rfl
    | exact fun _ h => h
    | (extract_lets +onlyGivenNames x; refine keep_cut (P x) ?_ (fun _ => ?_); unfold x; clear x; rotate_left; clear_value x)
    | (extract_lets +onlyGivenNames x; refine keep_cut (P x.2) ?_ (fun _ => ?_); unfold x; clear x; rotate_left; clear_value x)
    | (extract_lets +onlyGivenNames x; clear_value x)
    | split)

theorem State.endFlashDrain_keeps {P : State → Prop} (hP : Closed 786544 P) {i : Nat} {s : State}  (h0 : P s) :
    P (State.endFlashDrain i s) := by
  unfold State.endFlashDrain
  repeat' (first
    | with_reducible assumption
    | with_reducible refine State.onSlice_keeps (hP.mono rfl) ?_
    | with_reducible refine State.opReady_keeps (hP.mono rfl) ?_
    | with_reducible refine keep_foldl (fun _ _ _ => ?_) ?_
    | with_reducible refine keep_foldl_snd (fun _ _ _ _ => ?_) ?_
    | (extract_lets +onlyGivenNames x; refine keep_cut (P x) ?_ (fun _ => ?_); unfold x; clear x; rotate_left; clear_value x)
    | (extract_lets +onlyGivenNames x; refine keep_cut (P x.2) ?_ (fun _ => ?_); unfold x; clear x; rotate_left; clear_value x)
    | (extract_lets +onlyGivenNames x; clear_value x)
    | split)

theorem execDrainComplete_keeps {P : State → Prop} (hP : Closed 2948848 P) {slice : Fin 8} {s : State}  (h0 : P s) {t0 : State}
    (e : execDrainComplete slice s = .next t0) : P t0 := by
  unfold execDrainComplete at e
  cases e
  repeat' (first
    | with_reducible assumption
    | with_reducible refine State.whenUp_keeps (hP.mono rfl) (fun _ _ => ?_) ?_
    | with_reducible refine State.endFlashDrain_keeps (hP.mono rfl) ?_
    | with_reducible refine State.endDrain_keeps (hP.mono rfl) ?_
    | with_reducible refine keep_foldl (fun _ _ _ => ?_) ?_
    | with_reducible refine keep_foldl_snd (fun _ _ _ _ => ?_) ?_
    | exact fun _ => rfl
    | exact fun _ h => h
    | (extract_lets +onlyGivenNames x; refine keep_cut (P x) ?_ (fun _ => ?_); unfold x; clear x; rotate_left; clear_value x)
    | (extract_lets +onlyGivenNames x; refine keep_cut (P x.2) ?_ (fun _ => ?_); unfold x; clear x; rotate_left; clear_value x)
    | (extract_lets +onlyGivenNames x; clear_value x)
    | split)

theorem execDrainOpenLog_keeps {P : State → Prop} (hP : Closed 524400 P) {slice : Fin 8} {s : State}  (h0 : P s) {t0 : State}
    (e : execDrainOpenLog slice s = .next t0) : P t0 := by
  unfold execDrainOpenLog at e
  cases e
  repeat' (first
    | with_reducible assumption
    | with_reducible refine State.whenUp_keeps (hP.mono rfl) (fun _ _ => ?_) ?_
    | with_reducible refine State.onSlice_keeps (hP.mono rfl) ?_
    | with_reducible refine State.logEvent_keeps (hP.mono rfl) ?_
    | with_reducible refine keep_foldl (fun _ _ _ => ?_) ?_
    | with_reducible refine keep_foldl_snd (fun _ _ _ _ => ?_) ?_
    | (extract_lets +onlyGivenNames x; refine keep_cut (P x) ?_ (fun _ => ?_); unfold x; clear x; rotate_left; clear_value x)
    | (extract_lets +onlyGivenNames x; refine keep_cut (P x.2) ?_ (fun _ => ?_); unfold x; clear x; rotate_left; clear_value x)
    | (extract_lets +onlyGivenNames x; clear_value x)
    | split)

theorem execSliceDisable_keeps {P : State → Prop} (hP : Closed 786544 P) {op : Nat} {s : State}  (h0 : P s) {t0 : State}
    (e : execSliceDisable op s = .next t0) : P t0 := by
  unfold execSliceDisable at e
  cases e
  repeat' (first
    | with_reducible assumption
    | with_reducible refine State.whenUp_keeps (hP.mono rfl) (fun _ _ => ?_) ?_
    | with_reducible refine State.runOp_keeps (hP.mono rfl) (fun _ _ _ => ?_) ?_
    | with_reducible refine State.startDrain_keeps (hP.mono rfl) ?_
    | with_reducible refine State.replaceOutcome_keeps (hP.mono rfl) ?_
    | with_reducible refine State.opFail_keeps (hP.mono rfl) ?_
    | with_reducible refine keep_foldl (fun _ _ _ => ?_) ?_
    | with_reducible refine keep_foldl_snd (fun _ _ _ _ => ?_) ?_
    | (extract_lets +onlyGivenNames x; refine keep_cut (P x) ?_ (fun _ => ?_); unfold x; clear x; rotate_left; clear_value x)
    | (extract_lets +onlyGivenNames x; refine keep_cut (P x.2) ?_ (fun _ => ?_); unfold x; clear x; rotate_left; clear_value x)
    | (extract_lets +onlyGivenNames x; clear_value x)
    | split)

theorem execSliceEnable_keeps {P : State → Prop} (hP : Closed 792304 P) {op : Nat} {s : State}  (h0 : P s) {t0 : State}
    (e : execSliceEnable op s = .next t0) : P t0 := by
  unfold execSliceEnable at e
  cases e
  repeat' (first
    | with_reducible assumption
    | with_reducible refine State.whenUp_keeps (hP.mono rfl) (fun _ _ => ?_) ?_
    | with_reducible refine State.runOp_keeps (hP.mono rfl) (fun _ _ _ => ?_) ?_
    | with_reducible refine State.replaceOutcome_keeps (hP.mono rfl) ?_
    | with_reducible refine State.latchOp_keeps (hP.mono rfl) ?_
    | with_reducible refine State.compose_keeps (hP.mono rfl) ?_
    | with_reducible refine State.opDone_keeps (hP.mono rfl) ?_
    | with_reducible refine State.opFail_keeps (hP.mono rfl) ?_
    | with_reducible refine keep_foldl (fun _ _ _ => ?_) ?_
    | with_reducible refine keep_foldl_snd (fun _ _ _ _ => ?_) ?_
    | exact fun _ => rfl
    | exact fun _ h => h
    | (extract_lets +onlyGivenNames x; refine keep_cut (P x) ?_ (fun _ => ?_); unfold x; clear x; rotate_left; clear_value x)
    | (extract_lets +onlyGivenNames x; refine keep_cut (P x.2) ?_ (fun _ => ?_); unfold x; clear x; rotate_left; clear_value x)
    | (extract_lets +onlyGivenNames x; clear_value x)
    | split)

theorem execSliceRemove_keeps {P : State → Prop} (hP : Closed 2947824 P) {op : Nat} {s : State}  (h0 : P s) {t0 : State}
    (e : execSliceRemove op s = .next t0) : P t0 := by
  unfold execSliceRemove at e
  cases e
  repeat' (first
    | with_reducible assumption
    | with_reducible refine State.whenUp_keeps (hP.mono rfl) (fun _ _ => ?_) ?_
    | with_reducible refine State.runOp_keeps (hP.mono rfl) (fun _ _ _ => ?_) ?_
    | with_reducible refine State.opFail_keeps (hP.mono rfl) ?_
    | with_reducible refine State.startDrain_keeps (hP.mono rfl) ?_
    | with_reducible refine State.replaceOutcome_keeps (hP.mono rfl) ?_
    | with_reducible refine State.removeSlice_keeps (hP.mono rfl) ?_
    | with_reducible refine State.opDone_keeps (hP.mono rfl) ?_
    | with_reducible refine keep_foldl (fun _ _ _ => ?_) ?_
    | with_reducible refine keep_foldl_snd (fun _ _ _ _ => ?_) ?_
    | exact fun _ => rfl
    | exact fun _ h => h
    | (extract_lets +onlyGivenNames x; refine keep_cut (P x) ?_ (fun _ => ?_); unfold x; clear x; rotate_left; clear_value x)
    | (extract_lets +onlyGivenNames x; refine keep_cut (P x.2) ?_ (fun _ => ?_); unfold x; clear x; rotate_left; clear_value x)
    | (extract_lets +onlyGivenNames x; clear_value x)
    | split)

theorem execStatePurge_keeps {P : State → Prop} (hP : Closed 2890288 P) {op : Nat} {s : State}  (h0 : P s) {t0 : State}
    (e : execStatePurge op s = .next t0) : P t0 := by
  unfold execStatePurge at e
  cases e
  repeat' (first
    | with_reducible assumption
    | with_reducible refine State.whenUp_keeps (hP.mono rfl) (fun _ _ => ?_) ?_
    | with_reducible refine State.runOp_keeps (hP.mono rfl) (fun _ _ _ => ?_) ?_
    | with_reducible refine State.discardSlice_keeps (hP.mono rfl) ?_
    | with_reducible refine State.endOp_keeps (hP.mono rfl) ?_
    | with_reducible refine State.opFail_keeps (hP.mono rfl) ?_
    | with_reducible refine keep_foldl (fun _ _ _ => ?_) ?_
    | with_reducible refine keep_foldl_snd (fun _ _ _ _ => ?_) ?_
    | exact fun _ => rfl
    | exact fun _ h => h
    | (extract_lets +onlyGivenNames x; refine keep_cut (P x) ?_ (fun _ => ?_); unfold x; clear x; rotate_left; clear_value x)
    | (extract_lets +onlyGivenNames x; refine keep_cut (P x.2) ?_ (fun _ => ?_); unfold x; clear x; rotate_left; clear_value x)
    | (extract_lets +onlyGivenNames x; clear_value x)
    | split)

theorem State.cancelLatch_keeps {P : State → Prop} (hP : Closed 64 P) {id : Nat} {s : State}  (h0 : P s) :
    P (State.cancelLatch id s) := by
  unfold State.cancelLatch
  repeat' (first
    | with_reducible assumption
    | with_reducible refine State.onSlice_keeps (hP.mono rfl) ?_
    | with_reducible refine keep_foldl (fun _ _ _ => ?_) ?_
    | with_reducible refine keep_foldl_snd (fun _ _ _ _ => ?_) ?_
    | (extract_lets +onlyGivenNames x; refine keep_cut (P x) ?_ (fun _ => ?_); unfold x; clear x; rotate_left; clear_value x)
    | (extract_lets +onlyGivenNames x; refine keep_cut (P x.2) ?_ (fun _ => ?_); unfold x; clear x; rotate_left; clear_value x)
    | (extract_lets +onlyGivenNames x; clear_value x)
    | split)

theorem execCancel_keeps {P : State → Prop} (hP : Closed 786544 P) {op : Nat} {s : State}  (h0 : P s) {t0 : State}
    (e : execCancel op s = .next t0) : P t0 := by
  unfold execCancel at e
  cases e
  repeat' (first
    | with_reducible assumption
    | with_reducible refine State.whenUp_keeps (hP.mono rfl) (fun _ _ => ?_) ?_
    | with_reducible refine State.runOp_keeps (hP.mono rfl) (fun _ _ _ => ?_) ?_
    | with_reducible refine State.opFail_keeps (hP.mono rfl) ?_
    | with_reducible refine State.pastStep9_keeps (hP.mono rfl) ?_
    | with_reducible refine State.opDone_keeps (hP.mono rfl) ?_
    | with_reducible refine State.cancelLatch_keeps (hP.mono rfl) ?_
    | with_reducible refine keep_foldl (fun _ _ _ => ?_) ?_
    | with_reducible refine keep_foldl_snd (fun _ _ _ _ => ?_) ?_
    | split)

end Sys2Proof.Machine
end

