-- ==== Sys2Proof/Laws/KeepSched.lean ====
section
/-! SUPPORT. What the operations of Machine/Sched.lean touch: each keeps every predicate that is closed under the parts named. -/

namespace Sys2Proof.Machine

set_option linter.unusedTactic false
set_option linter.unreachableTactic false
set_option linter.unusedVariables false
set_option linter.tactic.unusedName false

theorem State.preemptCell_keeps {P : State → Prop} (hP : Closed 786672 P) {b p : Nat} {t : TileGroup} {s : State}  (h0 : P s) :
    P (State.preemptCell b p t s) := by
  unfold State.preemptCell
  repeat' (first
    | with_reducible assumption
    | with_reducible refine hP.sch rfl _ _ ?_
    | with_reducible refine State.onBlock_keeps (hP.mono rfl) ?_
    | with_reducible refine State.putLive_keeps (hP.mono rfl) ?_
    | with_reducible refine State.saveAccum_keeps (hP.mono rfl) ?_
    | with_reducible refine State.onParked_keeps (hP.mono rfl) ?_
    | with_reducible refine keep_foldl (fun _ _ _ => ?_) ?_
    | with_reducible refine keep_foldl_snd (fun _ _ _ _ => ?_) ?_
    | (extract_lets +onlyGivenNames x; refine keep_cut (P x) ?_ (fun _ => ?_); unfold x; clear x; rotate_left; clear_value x)
    | (extract_lets +onlyGivenNames x; refine keep_cut (P x.2) ?_ (fun _ => ?_); unfold x; clear x; rotate_left; clear_value x)
    | (extract_lets +onlyGivenNames x; clear_value x)
    | split)

theorem State.preemptFor_keeps {P : State → Prop} (hP : Closed 786672 P) {b cls : Nat} {l : List Nat} {s : State} (h0 : P s) :
    P (State.preemptFor b cls l s) := by
  induction l generalizing s with
  | nil =>
    unfold State.preemptFor
    repeat' (first
      | with_reducible assumption
      | with_reducible refine State.preemptCell_keeps (hP.mono rfl) ?_
      | with_reducible refine keep_foldl (fun _ _ _ => ?_) ?_
      | with_reducible refine keep_foldl_snd (fun _ _ _ _ => ?_) ?_
      | (extract_lets +onlyGivenNames x; refine keep_cut (P x) ?_ (fun _ => ?_); unfold x; clear x; rotate_left; clear_value x)
      | (extract_lets +onlyGivenNames x; refine keep_cut (P x.2) ?_ (fun _ => ?_); unfold x; clear x; rotate_left; clear_value x)
      | (extract_lets +onlyGivenNames x; clear_value x)
      | split)
  | cons x t ih =>
    unfold State.preemptFor
    repeat' (first
      | with_reducible assumption
      | with_reducible refine ih ?_
      | with_reducible refine State.preemptCell_keeps (hP.mono rfl) ?_
      | with_reducible refine keep_foldl (fun _ _ _ => ?_) ?_
      | with_reducible refine keep_foldl_snd (fun _ _ _ _ => ?_) ?_
      | (extract_lets +onlyGivenNames x; refine keep_cut (P x) ?_ (fun _ => ?_); unfold x; clear x; rotate_left; clear_value x)
      | (extract_lets +onlyGivenNames x; refine keep_cut (P x.2) ?_ (fun _ => ?_); unfold x; clear x; rotate_left; clear_value x)
      | (extract_lets +onlyGivenNames x; clear_value x)
      | split)

theorem State.boundaryAt_keeps {P : State → Prop} (hP : Closed 786672 P) {b : Nat} {s : State}  (h0 : P s) :
    P (State.boundaryAt b s) := by
  unfold State.boundaryAt
  repeat' (first
    | with_reducible assumption
    | with_reducible refine State.placeReady_keeps (hP.mono rfl) ?_
    | with_reducible refine State.preemptFor_keeps (hP.mono rfl) ?_
    | with_reducible refine keep_foldl (fun _ _ _ => ?_) ?_
    | with_reducible refine keep_foldl_snd (fun _ _ _ _ => ?_) ?_
    | (extract_lets +onlyGivenNames x; refine keep_cut (P x) ?_ (fun _ => ?_); unfold x; clear x; rotate_left; clear_value x)
    | (extract_lets +onlyGivenNames x; refine keep_cut (P x.2) ?_ (fun _ => ?_); unfold x; clear x; rotate_left; clear_value x)
    | (extract_lets +onlyGivenNames x; clear_value x)
    | split)

theorem execWindowBoundary_keeps {P : State → Prop} (hP : Closed 786672 P) {s : State}  (h0 : P s) {t0 : State}
    (e : execWindowBoundary s = .next t0) : P t0 := by
  unfold execWindowBoundary at e
  cases e
  repeat' (first
    | with_reducible assumption
    | with_reducible refine hP.sch rfl _ _ ?_
    | with_reducible refine State.whenUp_keeps (hP.mono rfl) (fun _ _ => ?_) ?_
    | with_reducible refine State.joinBlocks_keeps (hP.mono rfl) ?_
    | with_reducible refine State.applyStaged_keeps (hP.mono rfl) ?_
    | with_reducible refine State.boundaryAt_keeps (hP.mono rfl) ?_
    | with_reducible refine keep_foldl (fun _ _ _ => ?_) ?_
    | with_reducible refine keep_foldl_snd (fun _ _ _ _ => ?_) ?_
    | (extract_lets +onlyGivenNames x; refine keep_cut (P x) ?_ (fun _ => ?_); unfold x; clear x; rotate_left; clear_value x)
    | (extract_lets +onlyGivenNames x; refine keep_cut (P x.2) ?_ (fun _ => ?_); unfold x; clear x; rotate_left; clear_value x)
    | (extract_lets +onlyGivenNames x; clear_value x)
    | split)

theorem execContextSaveComplete_keeps {P : State → Prop} (hP : Closed 786672 P) {ctx : Nat} {s : State}  (h0 : P s) {t0 : State}
    (e : execContextSaveComplete ctx s = .next t0) : P t0 := by
  unfold execContextSaveComplete at e
  cases e
  repeat' (first
    | with_reducible assumption
    | with_reducible refine State.whenUp_keeps (hP.mono rfl) (fun _ _ => ?_) ?_
    | with_reducible refine State.onParked_keeps (hP.mono rfl) ?_
    | with_reducible refine State.onCell_keeps (hP.mono rfl) ?_
    | with_reducible refine State.placeReady_keeps (hP.mono rfl) ?_
    | with_reducible refine State.putLive_keeps (hP.mono rfl) ?_
    | with_reducible refine State.freed_keeps (hP.mono rfl) ?_
    | with_reducible refine keep_foldl (fun _ _ _ => ?_) ?_
    | with_reducible refine keep_foldl_snd (fun _ _ _ _ => ?_) ?_
    | (extract_lets +onlyGivenNames x; refine keep_cut (P x) ?_ (fun _ => ?_); unfold x; clear x; rotate_left; clear_value x)
    | (extract_lets +onlyGivenNames x; refine keep_cut (P x.2) ?_ (fun _ => ?_); unfold x; clear x; rotate_left; clear_value x)
    | (extract_lets +onlyGivenNames x; clear_value x)
    | split)

theorem execContextRestoreComplete_keeps {P : State → Prop} (hP : Closed 803312 P) {ctx : Nat} {s : State}  (h0 : P s) {t0 : State}
    (e : execContextRestoreComplete ctx s = .next t0) : P t0 := by
  unfold execContextRestoreComplete at e
  cases e
  repeat' (first
    | with_reducible assumption
    | with_reducible refine hP.eng rfl _ _ ?_
    | with_reducible refine State.whenUp_keeps (hP.mono rfl) (fun _ _ => ?_) ?_
    | with_reducible refine State.onParked_keeps (hP.mono rfl) ?_
    | with_reducible refine State.portFirst_keeps (hP.mono rfl) ?_
    | with_reducible refine State.countSwitch_keeps (hP.mono rfl) ?_
    | with_reducible refine State.putLive_keeps (hP.mono rfl) ?_
    | with_reducible refine State.onCell_keeps (hP.mono rfl) ?_
    | with_reducible refine keep_foldl (fun _ _ _ => ?_) ?_
    | with_reducible refine keep_foldl_snd (fun _ _ _ _ => ?_) ?_
    | (extract_lets +onlyGivenNames x; refine keep_cut (P x) ?_ (fun _ => ?_); unfold x; clear x; rotate_left; clear_value x)
    | (extract_lets +onlyGivenNames x; refine keep_cut (P x.2) ?_ (fun _ => ?_); unfold x; clear x; rotate_left; clear_value x)
    | (extract_lets +onlyGivenNames x; clear_value x)
    | split)

end Sys2Proof.Machine
end

