-- ==== Sys2Proof/Laws/KeepLoads.lean ====
section
/-! SUPPORT. What the operations of Machine/Loads.lean touch: each keeps every predicate that is closed under the parts named. -/

namespace Sys2Proof.Machine

set_option linter.unusedTactic false
set_option linter.unreachableTactic false
set_option linter.unusedVariables false
set_option linter.tactic.unusedName false

theorem State.judgeDrives_keeps {P : State → Prop} (hP : Closed 524848 P) {s : State}  (h0 : P s) :
    P (State.judgeDrives s) := by
  unfold State.judgeDrives
  repeat' (first
    | with_reducible assumption
    | with_reducible refine State.logEvent_keeps (hP.mono rfl) ?_
    | with_reducible refine State.onDrive_keeps (hP.mono rfl) ?_ ?_
    | with_reducible refine State.capDrives_keeps (hP.mono rfl) ?_
    | with_reducible refine keep_foldl (fun _ _ _ => ?_) ?_
    | with_reducible refine keep_foldl_snd (fun _ _ _ _ => ?_) ?_
    | exact fun _ => rfl
    | exact fun _ h => h
    | (extract_lets +onlyGivenNames x; refine keep_cut (P x) ?_ (fun _ => ?_); unfold x; clear x; rotate_left; clear_value x)
    | (extract_lets +onlyGivenNames x; refine keep_cut (P x.2) ?_ (fun _ => ?_); unfold x; clear x; rotate_left; clear_value x)
    | (extract_lets +onlyGivenNames x; clear_value x)
    | split)

theorem State.loadNode_keeps {P : State → Prop} (hP : Closed 541298 P) {n : NodeCfg} {s : State}  (h0 : P s) :
    P (State.loadNode n s) := by
  unfold State.loadNode
  repeat' (first
    | with_reducible assumption
    | with_reducible refine hP.ras rfl _ _ ?_
    | with_reducible refine hP.sch rfl _ _ ?_
    | with_reducible refine hP.eth rfl _ _ ?_
    | with_reducible refine State.judgeDrives_keeps (hP.mono rfl) ?_
    | with_reducible refine State.onPort_keeps (hP.mono rfl) ?_
    | with_reducible refine keep_foldl (fun _ _ _ => ?_) ?_
    | with_reducible refine keep_foldl_snd (fun _ _ _ _ => ?_) ?_
    | exact fun _ => rfl
    | exact fun _ h => h
    | (extract_lets +onlyGivenNames x; refine keep_cut (P x) ?_ (fun _ => ?_); unfold x; clear x; rotate_left; clear_value x)
    | (extract_lets +onlyGivenNames x; refine keep_cut (P x.2) ?_ (fun _ => ?_); unfold x; clear x; rotate_left; clear_value x)
    | (extract_lets +onlyGivenNames x; clear_value x)
    | split)

theorem State.loadTables_keeps {P : State → Prop} (hP : Closed 2113600 P) {b : Bitstream} {s : State}  (h0 : P s) :
    P (State.loadTables b s) := by
  unfold State.loadTables
  repeat' (first
    | with_reducible assumption
    | with_reducible refine hP.sch rfl _ _ ?_
    | with_reducible refine hP.link rfl _ _ (fun _ _ h => h) ?_
    | with_reducible refine State.refillGroup_keeps (hP.mono rfl) ?_
    | with_reducible refine State.onGroup_keeps (hP.mono rfl) ?_
    | with_reducible refine keep_foldl (fun _ _ _ => ?_) ?_
    | with_reducible refine keep_foldl_snd (fun _ _ _ _ => ?_) ?_
    | (extract_lets +onlyGivenNames x; refine keep_cut (P x) ?_ (fun _ => ?_); unfold x; clear x; rotate_left; clear_value x)
    | (extract_lets +onlyGivenNames x; refine keep_cut (P x.2) ?_ (fun _ => ?_); unfold x; clear x; rotate_left; clear_value x)
    | (extract_lets +onlyGivenNames x; clear_value x)
    | split)

theorem State.loadFull_keeps {P : State → Prop} (hP : Closed 2905842 P) {op : Nat} {b : Bitstream} {s : State}  (h0 : P s) :
    P (State.loadFull op b s) := by
  unfold State.loadFull
  repeat' (first
    | with_reducible assumption
    | with_reducible refine hP.sch rfl _ _ ?_
    | with_reducible refine State.clearMark_keeps (hP.mono rfl) ?_
    | with_reducible refine State.loadNode_keeps (hP.mono rfl) ?_
    | with_reducible refine State.loadTables_keeps (hP.mono rfl) ?_
    | with_reducible refine State.compose_keeps (hP.mono rfl) ?_
    | with_reducible refine State.opReady_keeps (hP.mono rfl) ?_
    | with_reducible refine keep_foldl (fun _ _ _ => ?_) ?_
    | with_reducible refine keep_foldl_snd (fun _ _ _ _ => ?_) ?_
    | exact fun _ => rfl
    | exact fun _ h => h
    | (extract_lets +onlyGivenNames x; refine keep_cut (P x) ?_ (fun _ => ?_); unfold x; clear x; rotate_left; clear_value x)
    | (extract_lets +onlyGivenNames x; refine keep_cut (P x.2) ?_ (fun _ => ?_); unfold x; clear x; rotate_left; clear_value x)
    | (extract_lets +onlyGivenNames x; clear_value x)
    | split)

theorem State.loadPartial_keeps {P : State → Prop} (hP : Closed 792304 P) {op : Nat} {b : Bitstream} {s : State}  (h0 : P s) :
    P (State.loadPartial op b s) := by
  unfold State.loadPartial
  repeat' (first
    | with_reducible assumption
    | with_reducible refine State.clearMark_keeps (hP.mono rfl) ?_
    | with_reducible refine State.onSlice_keeps (hP.mono rfl) ?_
    | with_reducible refine State.opDone_keeps (hP.mono rfl) ?_
    | with_reducible refine State.recompose_keeps (hP.mono rfl) ?_
    | with_reducible refine State.replaceOutcome_keeps (hP.mono rfl) ?_
    | with_reducible refine State.latchOp_keeps (hP.mono rfl) ?_
    | with_reducible refine State.compose_keeps (hP.mono rfl) ?_
    | with_reducible refine keep_foldl (fun _ _ _ => ?_) ?_
    | with_reducible refine keep_foldl_snd (fun _ _ _ _ => ?_) ?_
    | exact fun _ => rfl
    | exact fun _ h => h
    | split)

theorem State.pastStep9_keeps {P : State → Prop} (hP : Closed 16 P) {op : Nat} {s : State}  (h0 : P s) :
    P (State.pastStep9 op s) := by
  unfold State.pastStep9
  repeat' (first
    | with_reducible assumption
    | with_reducible refine hP.host rfl _ _ ?_
    | with_reducible refine keep_foldl (fun _ _ _ => ?_) ?_
    | with_reducible refine keep_foldl_snd (fun _ _ _ _ => ?_) ?_
    | split)

theorem State.stageLoad_keeps {P : State → Prop} (hP : Closed 786608 P) {op : Nat} {im : BsImage} {s : State}  (h0 : P s) :
    P (State.stageLoad op im s) := by
  unfold State.stageLoad
  repeat' (first
    | with_reducible assumption
    | with_reducible refine hP.host rfl _ _ ?_
    | with_reducible refine State.opFail_keeps (hP.mono rfl) ?_
    | with_reducible refine State.lendLines_keeps (hP.mono rfl) ?_
    | with_reducible refine keep_foldl (fun _ _ _ => ?_) ?_
    | with_reducible refine keep_foldl_snd (fun _ _ _ _ => ?_) ?_
    | split)

theorem State.refuseLoad_keeps {P : State → Prop} (hP : Closed 786480 P) {op tag step : Nat} {c : Code} {frame : Nat} {s : State}  (h0 : P s) :
    P (State.refuseLoad op tag step c frame s) := by
  unfold State.refuseLoad
  repeat' (first
    | with_reducible assumption
    | with_reducible refine State.logEvent_keeps (hP.mono rfl) ?_
    | with_reducible refine State.opFail_keeps (hP.mono rfl) ?_
    | with_reducible refine keep_foldl (fun _ _ _ => ?_) ?_
    | with_reducible refine keep_foldl_snd (fun _ _ _ _ => ?_) ?_
    | split)

theorem State.finishLoad_keeps {P : State → Prop} (hP : Closed 2905842 P) {op : Nat} {o : LongOp} {im : BsImage} {s : State}  (h0 : P s) :
    P (State.finishLoad op o im s) := by
  unfold State.finishLoad
  repeat' (first
    | with_reducible assumption
    | with_reducible refine State.pastStep9_keeps (hP.mono rfl) ?_
    | with_reducible refine State.loadFull_keeps (hP.mono rfl) ?_
    | with_reducible refine State.loadPartial_keeps (hP.mono rfl) ?_
    | with_reducible refine State.refuseLoad_keeps (hP.mono rfl) ?_
    | with_reducible refine keep_foldl (fun _ _ _ => ?_) ?_
    | with_reducible refine keep_foldl_snd (fun _ _ _ _ => ?_) ?_
    | exact fun _ => rfl
    | exact fun _ h => h
    | (extract_lets +onlyGivenNames x; refine keep_cut (P x) ?_ (fun _ => ?_); unfold x; clear x; rotate_left; clear_value x)
    | (extract_lets +onlyGivenNames x; refine keep_cut (P x.2) ?_ (fun _ => ?_); unfold x; clear x; rotate_left; clear_value x)
    | (extract_lets +onlyGivenNames x; clear_value x)
    | split)

theorem execBitstreamLoad_keeps {P : State → Prop} (hP : Closed 2905842 P) {op : Nat} {b : Option BsImage} {s : State}  (h0 : P s) {t0 : State}
    (e : execBitstreamLoad op b s = .next t0) : P t0 := by
  unfold execBitstreamLoad at e
  cases e
  repeat' (first
    | with_reducible assumption
    | with_reducible refine State.whenUp_keeps (hP.mono rfl) (fun _ _ => ?_) ?_
    | with_reducible refine State.runOp_keeps (hP.mono rfl) (fun _ _ _ => ?_) ?_
    | with_reducible refine State.finishLoad_keeps (hP.mono rfl) ?_
    | with_reducible refine State.opFail_keeps (hP.mono rfl) ?_
    | with_reducible refine State.stageLoad_keeps (hP.mono rfl) ?_
    | with_reducible refine State.refuseLoad_keeps (hP.mono rfl) ?_
    | with_reducible refine keep_foldl (fun _ _ _ => ?_) ?_
    | with_reducible refine keep_foldl_snd (fun _ _ _ _ => ?_) ?_
    | exact fun _ => rfl
    | exact fun _ h => h
    | (extract_lets +onlyGivenNames x; refine keep_cut (P x) ?_ (fun _ => ?_); unfold x; clear x; rotate_left; clear_value x)
    | (extract_lets +onlyGivenNames x; refine keep_cut (P x.2) ?_ (fun _ => ?_); unfold x; clear x; rotate_left; clear_value x)
    | (extract_lets +onlyGivenNames x; clear_value x)
    | split)

end Sys2Proof.Machine
end

