-- ==== Sys2Proof/Laws/KeepPower.lean ====
section
/-! SUPPORT. What the operations of Machine/Power.lean touch: each keeps every predicate that is closed under the parts named. -/

namespace Sys2Proof.Machine

set_option linter.unusedTactic false
set_option linter.unreachableTactic false
set_option linter.unusedVariables false
set_option linter.tactic.unusedName false

theorem State.setShift_keeps {P : State → Prop} (hP : Closed 4 P) {capW ms : Nat} {s : State}  (h0 : P s) :
    P (State.setShift capW ms s) := by
  unfold State.setShift
  repeat' (first
    | with_reducible assumption
    | with_reducible refine hP.pwr rfl _ _ ?_
    | with_reducible refine keep_foldl (fun _ _ _ => ?_) ?_
    | with_reducible refine keep_foldl_snd (fun _ _ _ _ => ?_) ?_
    | split)

theorem execPowerShift_keeps {P : State → Prop} (hP : Closed 2673398 P) {h : ExtHdr} {c : Cert} {capW ms : Nat} {s : State}  (h0 : P s) {t0 : State}
    (e : execPowerShift h c capW ms s = .next t0) : P t0 := by
  unfold execPowerShift at e
  cases e
  repeat' (first
    | with_reducible assumption
    | with_reducible refine State.whenUp_keeps (hP.mono rfl) (fun _ _ => ?_) ?_
    | with_reducible refine State.manage_keeps (hP.mono rfl) (fun _ _ => ?_) ?_
    | with_reducible refine State.setShift_keeps (hP.mono rfl) ?_
    | with_reducible refine keep_foldl (fun _ _ _ => ?_) ?_
    | with_reducible refine keep_foldl_snd (fun _ _ _ _ => ?_) ?_
    | exact fun _ => rfl
    | exact fun _ h => h
    | (extract_lets +onlyGivenNames x; refine keep_cut (P x) ?_ (fun _ => ?_); unfold x; clear x; rotate_left; clear_value x)
    | (extract_lets +onlyGivenNames x; refine keep_cut (P x.2) ?_ (fun _ => ?_); unfold x; clear x; rotate_left; clear_value x)
    | (extract_lets +onlyGivenNames x; clear_value x)
    | split)

theorem execPowerShift_after {P : State → Prop} (hP : Closed 2640438 P) {h : ExtHdr} {c : Cert} {capW ms : Nat} {s : State} (h0 : P s.settle) (hr : s.running = true) {t0 : State}
    (e : execPowerShift h c capW ms s = .next t0) : P t0 := by
  unfold execPowerShift at e
  cases e
  unfold State.whenUp
  rw [if_pos hr]
  beta_reduce
  repeat' (first
    | with_reducible assumption
    | with_reducible refine State.manage_after (hP.mono rfl) (fun _ _ => ?_) ?_
    | with_reducible refine State.setShift_keeps (hP.mono rfl) ?_
    | with_reducible refine keep_foldl (fun _ _ _ => ?_) ?_
    | with_reducible refine keep_foldl_snd (fun _ _ _ _ => ?_) ?_
    | exact fun _ => rfl
    | exact fun _ h => h
    | (extract_lets +onlyGivenNames x; refine keep_cut (P x) ?_ (fun _ => ?_); unfold x; clear x; rotate_left; clear_value x)
    | (extract_lets +onlyGivenNames x; refine keep_cut (P x.2) ?_ (fun _ => ?_); unfold x; clear x; rotate_left; clear_value x)
    | (extract_lets +onlyGivenNames x; clear_value x)
    | split)

theorem execShiftExpiry_keeps {P : State → Prop} (hP : Closed 4 P) {s : State}  (h0 : P s) {t0 : State}
    (e : execShiftExpiry s = .next t0) : P t0 := by
  unfold execShiftExpiry at e
  cases e
  repeat' (first
    | with_reducible assumption
    | with_reducible refine hP.pwr rfl _ _ ?_
    | with_reducible refine State.whenUp_keeps (hP.mono rfl) (fun _ _ => ?_) ?_
    | with_reducible refine keep_foldl (fun _ _ _ => ?_) ?_
    | with_reducible refine keep_foldl_snd (fun _ _ _ _ => ?_) ?_
    | split)

theorem State.openEpisode_keeps {P : State → Prop} (hP : Closed 524308 P) {reason scope : Nat} {s : State}  (h0 : P s) :
    P (State.openEpisode reason scope s) := by
  unfold State.openEpisode
  repeat' (first
    | with_reducible assumption
    | with_reducible refine hP.pwr rfl _ _ ?_
    | with_reducible refine State.raise_keeps (hP.mono rfl) ?_
    | with_reducible refine keep_foldl (fun _ _ _ => ?_) ?_
    | with_reducible refine keep_foldl_snd (fun _ _ _ _ => ?_) ?_
    | (extract_lets +onlyGivenNames x; refine keep_cut (P x) ?_ (fun _ => ?_); unfold x; clear x; rotate_left; clear_value x)
    | (extract_lets +onlyGivenNames x; refine keep_cut (P x.2) ?_ (fun _ => ?_); unfold x; clear x; rotate_left; clear_value x)
    | (extract_lets +onlyGivenNames x; clear_value x)
    | split)

theorem State.closeEpisode_keeps {P : State → Prop} (hP : Closed 524341 P) {reason scope : Nat} {s : State}  (h0 : P s) :
    P (State.closeEpisode reason scope s) := by
  unfold State.closeEpisode
  repeat' (first
    | with_reducible assumption
    | with_reducible refine hP.pwr rfl _ _ ?_
    | with_reducible refine State.stamp_keeps (hP.mono rfl) ?_
    | with_reducible refine State.logPut_keeps (hP.mono rfl) ?_
    | with_reducible refine keep_foldl (fun _ _ _ => ?_) ?_
    | with_reducible refine keep_foldl_snd (fun _ _ _ _ => ?_) ?_
    | split)

theorem State.setEpisode_keeps {P : State → Prop} (hP : Closed 524341 P) {reason scope : Nat} {binds : Bool} {s : State}  (h0 : P s) :
    P (State.setEpisode reason scope binds s) := by
  unfold State.setEpisode
  repeat' (first
    | with_reducible assumption
    | with_reducible refine State.openEpisode_keeps (hP.mono rfl) ?_
    | with_reducible refine State.closeEpisode_keeps (hP.mono rfl) ?_
    | with_reducible refine keep_foldl (fun _ _ _ => ?_) ?_
    | with_reducible refine keep_foldl_snd (fun _ _ _ _ => ?_) ?_
    | split)

theorem State.syncClocks_keeps {P : State → Prop} (hP : Closed 4 P) {s : State}  (h0 : P s) :
    P (State.syncClocks s) := by
  unfold State.syncClocks
  repeat' (first
    | with_reducible assumption
    | with_reducible refine State.syncRegionClk_keeps (hP.mono rfl) ?_
    | with_reducible refine keep_foldl (fun _ _ _ => ?_) ?_
    | with_reducible refine keep_foldl_snd (fun _ _ _ _ => ?_) ?_
    | split)

theorem State.fallTo_keeps {P : State → Prop} (hP : Closed 4 P) {n : Nat} {s : State}  (h0 : P s) :
    P (State.fallTo n s) := by
  unfold State.fallTo
  repeat' (first
    | with_reducible assumption
    | with_reducible refine hP.pwr rfl _ _ ?_
    | with_reducible refine State.syncClocks_keeps (hP.mono rfl) ?_
    | with_reducible refine keep_foldl (fun _ _ _ => ?_) ?_
    | with_reducible refine keep_foldl_snd (fun _ _ _ _ => ?_) ?_
    | split)

theorem State.stepDown_keeps {P : State → Prop} (hP : Closed 4 P) {s : State}  (h0 : P s) :
    P (State.stepDown s) := by
  unfold State.stepDown
  repeat' (first
    | with_reducible assumption
    | with_reducible refine State.fallTo_keeps (hP.mono rfl) ?_
    | with_reducible refine keep_foldl (fun _ _ _ => ?_) ?_
    | with_reducible refine keep_foldl_snd (fun _ _ _ _ => ?_) ?_
    | split)

theorem State.goP7_keeps {P : State → Prop} (hP : Closed 4 P) {s : State}  (h0 : P s) :
    P (State.goP7 s) := by
  unfold State.goP7
  repeat' (first
    | with_reducible assumption
    | with_reducible refine State.fallTo_keeps (hP.mono rfl) ?_
    | with_reducible refine keep_foldl (fun _ _ _ => ?_) ?_
    | with_reducible refine keep_foldl_snd (fun _ _ _ _ => ?_) ?_
    | split)

theorem State.stepUp_keeps {P : State → Prop} (hP : Closed 4 P) {s : State}  (h0 : P s) :
    P (State.stepUp s) := by
  unfold State.stepUp
  repeat' (first
    | with_reducible assumption
    | with_reducible refine hP.pwr rfl _ _ ?_
    | with_reducible refine keep_foldl (fun _ _ _ => ?_) ?_
    | with_reducible refine keep_foldl_snd (fun _ _ _ _ => ?_) ?_
    | split)

theorem execVoltageSettled_keeps {P : State → Prop} (hP : Closed 4 P) {s : State}  (h0 : P s) {t0 : State}
    (e : execVoltageSettled s = .next t0) : P t0 := by
  unfold execVoltageSettled at e
  cases e
  repeat' (first
    | with_reducible assumption
    | with_reducible refine hP.pwr rfl _ _ ?_
    | with_reducible refine State.whenUp_keeps (hP.mono rfl) (fun _ _ => ?_) ?_
    | with_reducible refine State.syncClocks_keeps (hP.mono rfl) ?_
    | with_reducible refine keep_foldl (fun _ _ _ => ?_) ?_
    | with_reducible refine keep_foldl_snd (fun _ _ _ _ => ?_) ?_
    | split)

theorem State.account_keeps {P : State → Prop} (hP : Closed 4 P) {a : Activity} {s : State}  (h0 : P s) :
    P (State.account a s) := by
  unfold State.account
  repeat' (first
    | with_reducible assumption
    | with_reducible refine hP.pwr rfl _ _ ?_
    | with_reducible refine keep_foldl (fun _ _ _ => ?_) ?_
    | with_reducible refine keep_foldl_snd (fun _ _ _ _ => ?_) ?_
    | (extract_lets +onlyGivenNames x; refine keep_cut (P x) ?_ (fun _ => ?_); unfold x; clear x; rotate_left; clear_value x)
    | (extract_lets +onlyGivenNames x; refine keep_cut (P x.2) ?_ (fun _ => ?_); unfold x; clear x; rotate_left; clear_value x)
    | (extract_lets +onlyGivenNames x; clear_value x)
    | split)

theorem State.evaluate_keeps {P : State → Prop} (hP : Closed 524341 P) {act : List Activity} {s : State}  (h0 : P s) :
    P (State.evaluate act s) := by
  unfold State.evaluate
  repeat' (first
    | with_reducible assumption
    | with_reducible refine hP.pwr rfl _ _ ?_
    | with_reducible refine State.account_keeps (hP.mono rfl) ?_
    | with_reducible refine State.setEpisode_keeps (hP.mono rfl) ?_
    | with_reducible refine State.stepDown_keeps (hP.mono rfl) ?_
    | with_reducible refine State.stepUp_keeps (hP.mono rfl) ?_
    | with_reducible refine keep_foldl (fun _ _ _ => ?_) ?_
    | with_reducible refine keep_foldl_snd (fun _ _ _ _ => ?_) ?_
    | (extract_lets +onlyGivenNames x; refine keep_cut (P x) ?_ (fun _ => ?_); unfold x; clear x; rotate_left; clear_value x)
    | (extract_lets +onlyGivenNames x; refine keep_cut (P x.2) ?_ (fun _ => ?_); unfold x; clear x; rotate_left; clear_value x)
    | (extract_lets +onlyGivenNames x; clear_value x)
    | split)

theorem execApexEvaluation_keeps {P : State → Prop} (hP : Closed 524341 P) {act : List Activity} {s : State}  (h0 : P s) {t0 : State}
    (e : execApexEvaluation act s = .next t0) : P t0 := by
  unfold execApexEvaluation at e
  cases e
  repeat' (first
    | with_reducible assumption
    | with_reducible refine State.whenUp_keeps (hP.mono rfl) (fun _ _ => ?_) ?_
    | with_reducible refine State.evaluate_keeps (hP.mono rfl) ?_
    | with_reducible refine keep_foldl (fun _ _ _ => ?_) ?_
    | with_reducible refine keep_foldl_snd (fun _ _ _ _ => ?_) ?_
    | split)

theorem State.swapPhase_keeps {P : State → Prop} (hP : Closed 524850 P) {n : Nat} {s : State}  (h0 : P s) :
    P (State.swapPhase n s) := by
  unfold State.swapPhase
  repeat' (first
    | with_reducible assumption
    | with_reducible refine hP.ras rfl _ _ ?_
    | with_reducible refine hP.emitted rfl _ _ ?_
    | with_reducible refine State.saveRecord_keeps (hP.mono rfl) ?_
    | with_reducible refine State.logDetection_keeps (hP.mono rfl) ?_
    | with_reducible refine keep_foldl (fun _ _ _ => ?_) ?_
    | with_reducible refine keep_foldl_snd (fun _ _ _ _ => ?_) ?_
    | exact fun _ => rfl
    | exact fun _ h => h
    | (extract_lets +onlyGivenNames x; refine keep_cut (P x) ?_ (fun _ => ?_); unfold x; clear x; rotate_left; clear_value x)
    | (extract_lets +onlyGivenNames x; refine keep_cut (P x.2) ?_ (fun _ => ?_); unfold x; clear x; rotate_left; clear_value x)
    | (extract_lets +onlyGivenNames x; clear_value x)
    | split)

theorem State.watchPhases_keeps {P : State → Prop} (hP : Closed 524850 P) {ma : List Nat} {s : State}  (h0 : P s) :
    P (State.watchPhases ma s) := by
  unfold State.watchPhases
  repeat' (first
    | with_reducible assumption
    | with_reducible refine hP.ras rfl _ _ ?_
    | with_reducible refine State.swapPhase_keeps (hP.mono rfl) ?_
    | with_reducible refine keep_foldl (fun _ _ _ => ?_) ?_
    | with_reducible refine keep_foldl_snd (fun _ _ _ _ => ?_) ?_
    | exact fun _ => rfl
    | exact fun _ h => h
    | (extract_lets +onlyGivenNames x; refine keep_cut (P x) ?_ (fun _ => ?_); unfold x; clear x; rotate_left; clear_value x)
    | (extract_lets +onlyGivenNames x; refine keep_cut (P x.2) ?_ (fun _ => ?_); unfold x; clear x; rotate_left; clear_value x)
    | (extract_lets +onlyGivenNames x; clear_value x)
    | split)

theorem State.takeTelemetry_keeps {P : State → Prop} (hP : Closed 524854 P) {t : Telemetry} {s : State}  (h0 : P s) :
    P (State.takeTelemetry t s) := by
  unfold State.takeTelemetry
  repeat' (first
    | with_reducible assumption
    | with_reducible refine hP.pwr rfl _ _ ?_
    | with_reducible refine State.watchPhases_keeps (hP.mono rfl) ?_
    | with_reducible refine State.swapPhase_keeps (hP.mono rfl) ?_
    | with_reducible refine keep_foldl (fun _ _ _ => ?_) ?_
    | with_reducible refine keep_foldl_snd (fun _ _ _ _ => ?_) ?_
    | exact fun _ => rfl
    | exact fun _ h => h
    | (extract_lets +onlyGivenNames x; refine keep_cut (P x) ?_ (fun _ => ?_); unfold x; clear x; rotate_left; clear_value x)
    | (extract_lets +onlyGivenNames x; refine keep_cut (P x.2) ?_ (fun _ => ?_); unfold x; clear x; rotate_left; clear_value x)
    | (extract_lets +onlyGivenNames x; clear_value x)
    | split)

theorem execTelemetrySample_keeps {P : State → Prop} (hP : Closed 524854 P) {t : Telemetry} {s : State}  (h0 : P s) {t0 : State}
    (e : execTelemetrySample t s = .next t0) : P t0 := by
  unfold execTelemetrySample at e
  cases e
  repeat' (first
    | with_reducible assumption
    | with_reducible refine State.whenUp_keeps (hP.mono rfl) (fun _ _ => ?_) ?_
    | with_reducible refine State.takeTelemetry_keeps (hP.mono rfl) ?_
    | with_reducible refine keep_foldl (fun _ _ _ => ?_) ?_
    | with_reducible refine keep_foldl_snd (fun _ _ _ _ => ?_) ?_
    | exact fun _ => rfl
    | exact fun _ h => h
    | split)

theorem State.logDiverge_keeps {P : State → Prop} (hP : Closed 524340 P) {part : Nat} {old new : Diverge} {s : State}  (h0 : P s) :
    P (State.logDiverge part old new s) := by
  unfold State.logDiverge
  repeat' (first
    | with_reducible assumption
    | with_reducible refine hP.pwr rfl _ _ ?_
    | with_reducible refine State.logEvent_keeps (hP.mono rfl) ?_
    | with_reducible refine keep_foldl (fun _ _ _ => ?_) ?_
    | with_reducible refine keep_foldl_snd (fun _ _ _ _ => ?_) ?_
    | split)

theorem State.compareModel_keeps {P : State → Prop} (hP : Closed 524340 P) {s : State}  (h0 : P s) :
    P (State.compareModel s) := by
  unfold State.compareModel
  repeat' (first
    | with_reducible assumption
    | with_reducible refine hP.pwr rfl _ _ ?_
    | with_reducible refine State.logDiverge_keeps (hP.mono rfl) ?_
    | with_reducible refine keep_foldl (fun _ _ _ => ?_) ?_
    | with_reducible refine keep_foldl_snd (fun _ _ _ _ => ?_) ?_
    | (extract_lets +onlyGivenNames x; refine keep_cut (P x) ?_ (fun _ => ?_); unfold x; clear x; rotate_left; clear_value x)
    | (extract_lets +onlyGivenNames x; refine keep_cut (P x.2) ?_ (fun _ => ?_); unfold x; clear x; rotate_left; clear_value x)
    | (extract_lets +onlyGivenNames x; clear_value x)
    | split)

theorem execModelComparison_keeps {P : State → Prop} (hP : Closed 524340 P) {s : State}  (h0 : P s) {t0 : State}
    (e : execModelComparison s = .next t0) : P t0 := by
  unfold execModelComparison at e
  cases e
  repeat' (first
    | with_reducible assumption
    | with_reducible refine State.whenUp_keeps (hP.mono rfl) (fun _ _ => ?_) ?_
    | with_reducible refine State.compareModel_keeps (hP.mono rfl) ?_
    | with_reducible refine keep_foldl (fun _ _ _ => ?_) ?_
    | with_reducible refine keep_foldl_snd (fun _ _ _ _ => ?_) ?_
    | split)

theorem State.thermalTrip_keeps {P : State → Prop} (hP : Closed 524293 P) {s : State}  (h0 : P s) :
    P (State.thermalTrip s) := by
  unfold State.thermalTrip
  repeat' (first
    | with_reducible assumption
    | with_reducible refine hP.aon rfl _ _ ?_
    | with_reducible refine hP.pwr rfl _ _ ?_
    | with_reducible refine hP.emitted rfl _ _ ?_
    | with_reducible refine keep_foldl (fun _ _ _ => ?_) ?_
    | with_reducible refine keep_foldl_snd (fun _ _ _ _ => ?_) ?_
    | split)

theorem State.junction_keeps {P : State → Prop} (hP : Closed 786677 P) {temps : List Int} {s : State}  (h0 : P s) :
    P (State.junction temps s) := by
  unfold State.junction
  repeat' (first
    | with_reducible assumption
    | with_reducible refine hP.pwr rfl _ _ ?_
    | with_reducible refine State.setEpisode_keeps (hP.mono rfl) ?_
    | with_reducible refine State.goP7_keeps (hP.mono rfl) ?_
    | with_reducible refine State.placeHeld_keeps (hP.mono rfl) ?_
    | with_reducible refine keep_foldl (fun _ _ _ => ?_) ?_
    | with_reducible refine keep_foldl_snd (fun _ _ _ _ => ?_) ?_
    | (extract_lets +onlyGivenNames x; refine keep_cut (P x) ?_ (fun _ => ?_); unfold x; clear x; rotate_left; clear_value x)
    | (extract_lets +onlyGivenNames x; refine keep_cut (P x.2) ?_ (fun _ => ?_); unfold x; clear x; rotate_left; clear_value x)
    | (extract_lets +onlyGivenNames x; clear_value x)
    | split)

theorem execJunctionSample_keeps {P : State → Prop} (hP : Closed 786677 P) {temps : List Int} {s : State}  (h0 : P s) {t0 : State}
    (e : execJunctionSample temps s = .next t0) : P t0 := by
  unfold execJunctionSample at e
  cases e
  repeat' (first
    | with_reducible assumption
    | with_reducible refine hP.pwr rfl _ _ ?_
    | with_reducible refine State.whenUp_keeps (hP.mono rfl) (fun _ _ => ?_) ?_
    | with_reducible refine State.thermalTrip_keeps (hP.mono rfl) ?_
    | with_reducible refine State.junction_keeps (hP.mono rfl) ?_
    | with_reducible refine keep_foldl (fun _ _ _ => ?_) ?_
    | with_reducible refine keep_foldl_snd (fun _ _ _ _ => ?_) ?_
    | (extract_lets +onlyGivenNames x; refine keep_cut (P x) ?_ (fun _ => ?_); unfold x; clear x; rotate_left; clear_value x)
    | (extract_lets +onlyGivenNames x; refine keep_cut (P x.2) ?_ (fun _ => ?_); unfold x; clear x; rotate_left; clear_value x)
    | (extract_lets +onlyGivenNames x; clear_value x)
    | split)

theorem State.caseLimit_keeps {P : State → Prop} (hP : Closed 524341 P) {n : Nat} {s : State}  (h0 : P s) :
    P (State.caseLimit n s) := by
  unfold State.caseLimit
  repeat' (first
    | with_reducible assumption
    | with_reducible refine hP.pwr rfl _ _ ?_
    | with_reducible refine State.setEpisode_keeps (hP.mono rfl) ?_
    | with_reducible refine keep_foldl (fun _ _ _ => ?_) ?_
    | with_reducible refine keep_foldl_snd (fun _ _ _ _ => ?_) ?_
    | (extract_lets +onlyGivenNames x; refine keep_cut (P x) ?_ (fun _ => ?_); unfold x; clear x; rotate_left; clear_value x)
    | (extract_lets +onlyGivenNames x; refine keep_cut (P x.2) ?_ (fun _ => ?_); unfold x; clear x; rotate_left; clear_value x)
    | (extract_lets +onlyGivenNames x; clear_value x)
    | split)

theorem execStackCaseSample_keeps {P : State → Prop} (hP : Closed 524341 P) {temps : List Int} {s : State}  (h0 : P s) {t0 : State}
    (e : execStackCaseSample temps s = .next t0) : P t0 := by
  unfold execStackCaseSample at e
  cases e
  repeat' (first
    | with_reducible assumption
    | with_reducible refine hP.pwr rfl _ _ ?_
    | with_reducible refine State.whenUp_keeps (hP.mono rfl) (fun _ _ => ?_) ?_
    | with_reducible refine State.thermalTrip_keeps (hP.mono rfl) ?_
    | with_reducible refine State.caseLimit_keeps (hP.mono rfl) ?_
    | with_reducible refine keep_foldl (fun _ _ _ => ?_) ?_
    | with_reducible refine keep_foldl_snd (fun _ _ _ _ => ?_) ?_
    | (extract_lets +onlyGivenNames x; refine keep_cut (P x) ?_ (fun _ => ?_); unfold x; clear x; rotate_left; clear_value x)
    | (extract_lets +onlyGivenNames x; refine keep_cut (P x.2) ?_ (fun _ => ?_); unfold x; clear x; rotate_left; clear_value x)
    | (extract_lets +onlyGivenNames x; clear_value x)
    | split)

theorem State.startFlush_keeps {P : State → Prop} (hP : Closed 524804 P) {s : State}  (h0 : P s) :
    P (State.startFlush s) := by
  unfold State.startFlush
  repeat' (first
    | with_reducible assumption
    | with_reducible refine hP.pwr rfl _ _ ?_
    | with_reducible refine hP.emitted rfl _ _ ?_
    | with_reducible refine State.clearMark_keeps (hP.mono rfl) ?_
    | with_reducible refine keep_foldl (fun _ _ _ => ?_) ?_
    | with_reducible refine keep_foldl_snd (fun _ _ _ _ => ?_) ?_
    | exact fun _ => rfl
    | exact fun _ h => h
    | split)

theorem State.endFlush_keeps {P : State → Prop} (hP : Closed 655925 P) {s : State}  (h0 : P s) :
    P (State.endFlush s) := by
  unfold State.endFlush
  repeat' (first
    | with_reducible assumption
    | with_reducible refine hP.pwr rfl _ _ ?_
    | with_reducible refine hP.mem rfl _ _ ?_ ?_ ?_
    | with_reducible refine hP.image rfl _ _ ?_
    | with_reducible refine hP.emitted rfl _ _ ?_
    | with_reducible refine State.closeEpisode_keeps (hP.mono rfl) ?_
    | with_reducible refine keep_foldl (fun _ _ _ => ?_) ?_
    | with_reducible refine keep_foldl_snd (fun _ _ _ _ => ?_) ?_
    | exact fun _ => rfl
    | exact fun _ h => h
    | (extract_lets +onlyGivenNames x; refine keep_cut (P x) ?_ (fun _ => ?_); unfold x; clear x; rotate_left; clear_value x)
    | (extract_lets +onlyGivenNames x; refine keep_cut (P x.2) ?_ (fun _ => ?_); unfold x; clear x; rotate_left; clear_value x)
    | (extract_lets +onlyGivenNames x; refine keep_cut (∀ d : Nat × Drive, (x d).2.cells = d.2.cells) (fun _ => rfl) (fun kd => ?_); clear_value x)
    | (extract_lets +onlyGivenNames x; clear_value x)
    | exact fun m hm => Mem.ok_map kd hm
    | split)

theorem execPersistFlushComplete_keeps {P : State → Prop} (hP : Closed 655925 P) {s : State}  (h0 : P s) {t0 : State}
    (e : execPersistFlushComplete s = .next t0) : P t0 := by
  unfold execPersistFlushComplete at e
  cases e
  repeat' (first
    | with_reducible assumption
    | with_reducible refine State.whenUp_keeps (hP.mono rfl) (fun _ _ => ?_) ?_
    | with_reducible refine State.endFlush_keeps (hP.mono rfl) ?_
    | with_reducible refine keep_foldl (fun _ _ _ => ?_) ?_
    | with_reducible refine keep_foldl_snd (fun _ _ _ _ => ?_) ?_
    | exact fun _ => rfl
    | exact fun _ h => h
    | split)

theorem execVrAlertAssert_keeps {P : State → Prop} (hP : Closed 524821 P) {s : State}  (h0 : P s) {t0 : State}
    (e : execVrAlertAssert s = .next t0) : P t0 := by
  unfold execVrAlertAssert at e
  cases e
  repeat' (first
    | with_reducible assumption
    | with_reducible refine hP.aon rfl _ _ ?_
    | with_reducible refine State.whenUp_keeps (hP.mono rfl) (fun _ _ => ?_) ?_
    | with_reducible refine State.goP7_keeps (hP.mono rfl) ?_
    | with_reducible refine State.openEpisode_keeps (hP.mono rfl) ?_
    | with_reducible refine State.raise_keeps (hP.mono rfl) ?_
    | with_reducible refine State.startFlush_keeps (hP.mono rfl) ?_
    | with_reducible refine keep_foldl (fun _ _ _ => ?_) ?_
    | with_reducible refine keep_foldl_snd (fun _ _ _ _ => ?_) ?_
    | exact fun _ => rfl
    | exact fun _ h => h
    | (extract_lets +onlyGivenNames x; refine keep_cut (P x) ?_ (fun _ => ?_); unfold x; clear x; rotate_left; clear_value x)
    | (extract_lets +onlyGivenNames x; refine keep_cut (P x.2) ?_ (fun _ => ?_); unfold x; clear x; rotate_left; clear_value x)
    | (extract_lets +onlyGivenNames x; clear_value x)
    | split)

theorem execVrAlertClear_keeps {P : State → Prop} (hP : Closed 524341 P) {s : State}  (h0 : P s) {t0 : State}
    (e : execVrAlertClear s = .next t0) : P t0 := by
  unfold execVrAlertClear at e
  cases e
  repeat' (first
    | with_reducible assumption
    | with_reducible refine hP.aon rfl _ _ ?_
    | with_reducible refine State.whenUp_keeps (hP.mono rfl) (fun _ _ => ?_) ?_
    | with_reducible refine State.closeEpisode_keeps (hP.mono rfl) ?_
    | with_reducible refine keep_foldl (fun _ _ _ => ?_) ?_
    | with_reducible refine keep_foldl_snd (fun _ _ _ _ => ?_) ?_
    | (extract_lets +onlyGivenNames x; refine keep_cut (P x) ?_ (fun _ => ?_); unfold x; clear x; rotate_left; clear_value x)
    | (extract_lets +onlyGivenNames x; refine keep_cut (P x.2) ?_ (fun _ => ?_); unfold x; clear x; rotate_left; clear_value x)
    | (extract_lets +onlyGivenNames x; clear_value x)
    | split)

theorem execCoolantFault_keeps {P : State → Prop} (hP : Closed 541205 P) {s : State}  (h0 : P s) {t0 : State}
    (e : execCoolantFault s = .next t0) : P t0 := by
  unfold execCoolantFault at e
  cases e
  repeat' (first
    | with_reducible assumption
    | with_reducible refine hP.aon rfl _ _ ?_
    | with_reducible refine State.whenUp_keeps (hP.mono rfl) (fun _ _ => ?_) ?_
    | with_reducible refine State.portDown_keeps (hP.mono rfl) ?_
    | with_reducible refine State.goP7_keeps (hP.mono rfl) ?_
    | with_reducible refine State.openEpisode_keeps (hP.mono rfl) ?_
    | with_reducible refine State.raise_keeps (hP.mono rfl) ?_
    | with_reducible refine State.startFlush_keeps (hP.mono rfl) ?_
    | with_reducible refine keep_foldl (fun _ _ _ => ?_) ?_
    | with_reducible refine keep_foldl_snd (fun _ _ _ _ => ?_) ?_
    | exact fun _ => rfl
    | exact fun _ h => h
    | (extract_lets +onlyGivenNames x; refine keep_cut (P x) ?_ (fun _ => ?_); unfold x; clear x; rotate_left; clear_value x)
    | (extract_lets +onlyGivenNames x; refine keep_cut (P x.2) ?_ (fun _ => ?_); unfold x; clear x; rotate_left; clear_value x)
    | (extract_lets +onlyGivenNames x; clear_value x)
    | split)

theorem State.retrainPort_keeps {P : State → Prop} (hP : Closed 2681536 P) {p : Nat} {s : State}  (h0 : P s) :
    P (State.retrainPort p s) := by
  unfold State.retrainPort
  repeat' (first
    | with_reducible assumption
    | with_reducible refine State.expireHold_keeps (hP.mono rfl) ?_
    | with_reducible refine State.onPort_keeps (hP.mono rfl) ?_
    | with_reducible refine keep_foldl (fun _ _ _ => ?_) ?_
    | with_reducible refine keep_foldl_snd (fun _ _ _ _ => ?_) ?_
    | exact fun _ => rfl
    | exact fun _ h => h
    | split)

theorem execApexHeartbeatTimeout_keeps {P : State → Prop} (hP : Closed 524308 P) {s : State}  (h0 : P s) {t0 : State}
    (e : execApexHeartbeatTimeout s = .next t0) : P t0 := by
  unfold execApexHeartbeatTimeout at e
  cases e
  repeat' (first
    | with_reducible assumption
    | with_reducible refine hP.pwr rfl _ _ ?_
    | with_reducible refine State.whenUp_keeps (hP.mono rfl) (fun _ _ => ?_) ?_
    | with_reducible refine State.goP7_keeps (hP.mono rfl) ?_
    | with_reducible refine State.openEpisode_keeps (hP.mono rfl) ?_
    | with_reducible refine keep_foldl (fun _ _ _ => ?_) ?_
    | with_reducible refine keep_foldl_snd (fun _ _ _ _ => ?_) ?_
    | split)

end Sys2Proof.Machine
end

