-- ==== Sys2Proof/Laws/KeepRegs.lean ====
section
/-! SUPPORT. What the operations of Machine/Regs.lean touch: each keeps every predicate that is closed under the parts named. -/

namespace Sys2Proof.Machine

set_option linter.unusedTactic false
set_option linter.unreachableTactic false
set_option linter.unusedVariables false
set_option linter.tactic.unusedName false

theorem clearTier_keeps {P : State → Prop} (hP : Closed 2048 P) {q : Nat} {f : TierCount → TierCount} {s : State}  (h0 : P s) :
    P (clearTier q f s) := by
  unfold clearTier
  repeat' (first
    | with_reducible assumption
    | with_reducible refine hP.home rfl _ _ ?_
    | with_reducible refine keep_foldl (fun _ _ _ => ?_) ?_
    | with_reducible refine keep_foldl_snd (fun _ _ _ _ => ?_) ?_
    | split)

theorem clearBin_keeps {P : State → Prop} (hP : Closed 16384 P) {k : Nat} {s : State}  (h0 : P s) :
    P (clearBin k s) := by
  unfold clearBin
  repeat' (first
    | with_reducible assumption
    | with_reducible refine hP.eth rfl _ _ ?_
    | with_reducible refine keep_foldl (fun _ _ _ => ?_) ?_
    | with_reducible refine keep_foldl_snd (fun _ _ _ _ => ?_) ?_
    | split)

/-- Every field's clearing keeps the predicate. -/
def RcOk (P : State → Prop) (l : List RcField) : Prop := ∀ f ∈ l, ∀ s, P s → P (f.clear s)

theorem RcOk.nil {P : State → Prop} : RcOk P [] := fun _ h => nomatch h
theorem RcOk.cons {P : State → Prop} {a b : Nat} {g : State → State} {l : List RcField} (h : ∀ s, P s → P (g s)) (k : RcOk P l) :
    RcOk P (⟨a, b, g⟩ :: l) := fun f hf => by
  rcases List.mem_cons.mp hf with rfl | hf
  · exact h
  · exact k f hf

theorem pwrRc_ok {P : State → Prop} (hP : Closed 2120566 P) (o : Nat) : RcOk P (pwrRc o) := by
  unfold pwrRc
  repeat' (first
    | with_reducible assumption
    | with_reducible exact RcOk.nil
    | with_reducible refine RcOk.cons (fun _ _ => ?_) ?_
    | with_reducible refine hP.host rfl _ _ ?_
    | with_reducible refine hP.log rfl _ _ ?_
    | with_reducible refine hP.pwr rfl _ _ ?_
    | with_reducible refine hP.ras rfl _ _ ?_
    | with_reducible refine hP.sch rfl _ _ ?_
    | with_reducible refine hP.locus rfl _ _ ?_
    | with_reducible refine hP.home rfl _ _ ?_
    | with_reducible refine hP.eth rfl _ _ ?_
    | with_reducible refine hP.link rfl _ _ (fun _ _ h => h) ?_
    | with_reducible refine hP.nbu rfl _ _ _ ?_
    | with_reducible refine State.onPort_keeps (hP.mono rfl) ?_
    | with_reducible refine State.onGroup_keeps (hP.mono rfl) ?_
    | with_reducible refine clearTier_keeps (hP.mono rfl) ?_
    | with_reducible refine clearBin_keeps (hP.mono rfl) ?_
    | with_reducible refine State.onDrive_keeps (hP.mono rfl) (fun _ h => ?_) ?_
    | exact h
    | (extract_lets +onlyGivenNames x; clear_value x)
    | split)

theorem rasRc_ok {P : State → Prop} (hP : Closed 2120566 P) (o : Nat) : RcOk P (rasRc o) := by
  unfold rasRc
  repeat' (first
    | with_reducible assumption
    | with_reducible exact RcOk.nil
    | with_reducible refine RcOk.cons (fun _ _ => ?_) ?_
    | with_reducible refine hP.host rfl _ _ ?_
    | with_reducible refine hP.log rfl _ _ ?_
    | with_reducible refine hP.pwr rfl _ _ ?_
    | with_reducible refine hP.ras rfl _ _ ?_
    | with_reducible refine hP.sch rfl _ _ ?_
    | with_reducible refine hP.locus rfl _ _ ?_
    | with_reducible refine hP.home rfl _ _ ?_
    | with_reducible refine hP.eth rfl _ _ ?_
    | with_reducible refine hP.link rfl _ _ (fun _ _ h => h) ?_
    | with_reducible refine hP.nbu rfl _ _ _ ?_
    | with_reducible refine State.onPort_keeps (hP.mono rfl) ?_
    | with_reducible refine State.onGroup_keeps (hP.mono rfl) ?_
    | with_reducible refine clearTier_keeps (hP.mono rfl) ?_
    | with_reducible refine clearBin_keeps (hP.mono rfl) ?_
    | with_reducible refine State.onDrive_keeps (hP.mono rfl) (fun _ h => ?_) ?_
    | exact h
    | (extract_lets +onlyGivenNames x; clear_value x)
    | split)

theorem schRc_ok {P : State → Prop} (hP : Closed 2120566 P) (o : Nat) : RcOk P (schRc o) := by
  unfold schRc
  repeat' (first
    | with_reducible assumption
    | with_reducible exact RcOk.nil
    | with_reducible refine RcOk.cons (fun _ _ => ?_) ?_
    | with_reducible refine hP.host rfl _ _ ?_
    | with_reducible refine hP.log rfl _ _ ?_
    | with_reducible refine hP.pwr rfl _ _ ?_
    | with_reducible refine hP.ras rfl _ _ ?_
    | with_reducible refine hP.sch rfl _ _ ?_
    | with_reducible refine hP.locus rfl _ _ ?_
    | with_reducible refine hP.home rfl _ _ ?_
    | with_reducible refine hP.eth rfl _ _ ?_
    | with_reducible refine hP.link rfl _ _ (fun _ _ h => h) ?_
    | with_reducible refine hP.nbu rfl _ _ _ ?_
    | with_reducible refine State.onPort_keeps (hP.mono rfl) ?_
    | with_reducible refine State.onGroup_keeps (hP.mono rfl) ?_
    | with_reducible refine clearTier_keeps (hP.mono rfl) ?_
    | with_reducible refine clearBin_keeps (hP.mono rfl) ?_
    | with_reducible refine State.onDrive_keeps (hP.mono rfl) (fun _ h => ?_) ?_
    | exact h
    | (extract_lets +onlyGivenNames x; clear_value x)
    | split)

theorem rgnRc_ok {P : State → Prop} (hP : Closed 2120566 P) (n o : Nat) : RcOk P (rgnRc n o) := by
  unfold rgnRc
  repeat' (first
    | with_reducible assumption
    | with_reducible exact RcOk.nil
    | with_reducible refine RcOk.cons (fun _ _ => ?_) ?_
    | with_reducible refine hP.host rfl _ _ ?_
    | with_reducible refine hP.log rfl _ _ ?_
    | with_reducible refine hP.pwr rfl _ _ ?_
    | with_reducible refine hP.ras rfl _ _ ?_
    | with_reducible refine hP.sch rfl _ _ ?_
    | with_reducible refine hP.locus rfl _ _ ?_
    | with_reducible refine hP.home rfl _ _ ?_
    | with_reducible refine hP.eth rfl _ _ ?_
    | with_reducible refine hP.link rfl _ _ (fun _ _ h => h) ?_
    | with_reducible refine hP.nbu rfl _ _ _ ?_
    | with_reducible refine State.onPort_keeps (hP.mono rfl) ?_
    | with_reducible refine State.onGroup_keeps (hP.mono rfl) ?_
    | with_reducible refine clearTier_keeps (hP.mono rfl) ?_
    | with_reducible refine clearBin_keeps (hP.mono rfl) ?_
    | with_reducible refine State.onDrive_keeps (hP.mono rfl) (fun _ h => ?_) ?_
    | exact h
    | (extract_lets +onlyGivenNames x; clear_value x)
    | split)

theorem pfxRc_ok {P : State → Prop} (hP : Closed 2120566 P) (o : Nat) : RcOk P (pfxRc o) := by
  unfold pfxRc
  repeat' (first
    | with_reducible assumption
    | with_reducible exact RcOk.nil
    | with_reducible refine RcOk.cons (fun _ _ => ?_) ?_
    | with_reducible refine hP.host rfl _ _ ?_
    | with_reducible refine hP.log rfl _ _ ?_
    | with_reducible refine hP.pwr rfl _ _ ?_
    | with_reducible refine hP.ras rfl _ _ ?_
    | with_reducible refine hP.sch rfl _ _ ?_
    | with_reducible refine hP.locus rfl _ _ ?_
    | with_reducible refine hP.home rfl _ _ ?_
    | with_reducible refine hP.eth rfl _ _ ?_
    | with_reducible refine hP.link rfl _ _ (fun _ _ h => h) ?_
    | with_reducible refine hP.nbu rfl _ _ _ ?_
    | with_reducible refine State.onPort_keeps (hP.mono rfl) ?_
    | with_reducible refine State.onGroup_keeps (hP.mono rfl) ?_
    | with_reducible refine clearTier_keeps (hP.mono rfl) ?_
    | with_reducible refine clearBin_keeps (hP.mono rfl) ?_
    | with_reducible refine State.onDrive_keeps (hP.mono rfl) (fun _ h => ?_) ?_
    | exact h
    | (extract_lets +onlyGivenNames x; clear_value x)
    | split)

theorem homeRc_ok {P : State → Prop} (hP : Closed 2120566 P) (o : Nat) : RcOk P (homeRc o) := by
  unfold homeRc
  repeat' (first
    | with_reducible assumption
    | with_reducible exact RcOk.nil
    | with_reducible refine RcOk.cons (fun _ _ => ?_) ?_
    | with_reducible refine hP.host rfl _ _ ?_
    | with_reducible refine hP.log rfl _ _ ?_
    | with_reducible refine hP.pwr rfl _ _ ?_
    | with_reducible refine hP.ras rfl _ _ ?_
    | with_reducible refine hP.sch rfl _ _ ?_
    | with_reducible refine hP.locus rfl _ _ ?_
    | with_reducible refine hP.home rfl _ _ ?_
    | with_reducible refine hP.eth rfl _ _ ?_
    | with_reducible refine hP.link rfl _ _ (fun _ _ h => h) ?_
    | with_reducible refine hP.nbu rfl _ _ _ ?_
    | with_reducible refine State.onPort_keeps (hP.mono rfl) ?_
    | with_reducible refine State.onGroup_keeps (hP.mono rfl) ?_
    | with_reducible refine clearTier_keeps (hP.mono rfl) ?_
    | with_reducible refine clearBin_keeps (hP.mono rfl) ?_
    | with_reducible refine State.onDrive_keeps (hP.mono rfl) (fun _ h => ?_) ?_
    | exact h
    | (extract_lets +onlyGivenNames x; clear_value x)
    | split)

theorem xptRc_ok {P : State → Prop} (hP : Closed 2120566 P) (o : Nat) : RcOk P (xptRc o) := by
  unfold xptRc
  repeat' (first
    | with_reducible assumption
    | with_reducible exact RcOk.nil
    | with_reducible refine RcOk.cons (fun _ _ => ?_) ?_
    | with_reducible refine hP.host rfl _ _ ?_
    | with_reducible refine hP.log rfl _ _ ?_
    | with_reducible refine hP.pwr rfl _ _ ?_
    | with_reducible refine hP.ras rfl _ _ ?_
    | with_reducible refine hP.sch rfl _ _ ?_
    | with_reducible refine hP.locus rfl _ _ ?_
    | with_reducible refine hP.home rfl _ _ ?_
    | with_reducible refine hP.eth rfl _ _ ?_
    | with_reducible refine hP.link rfl _ _ (fun _ _ h => h) ?_
    | with_reducible refine hP.nbu rfl _ _ _ ?_
    | with_reducible refine State.onPort_keeps (hP.mono rfl) ?_
    | with_reducible refine State.onGroup_keeps (hP.mono rfl) ?_
    | with_reducible refine clearTier_keeps (hP.mono rfl) ?_
    | with_reducible refine clearBin_keeps (hP.mono rfl) ?_
    | with_reducible refine State.onDrive_keeps (hP.mono rfl) (fun _ h => ?_) ?_
    | exact h
    | (extract_lets +onlyGivenNames x; clear_value x)
    | split)

theorem ethRc_ok {P : State → Prop} (hP : Closed 2120566 P) (o : Nat) : RcOk P (ethRc o) := by
  unfold ethRc
  repeat' (first
    | with_reducible assumption
    | with_reducible exact RcOk.nil
    | with_reducible refine RcOk.cons (fun _ _ => ?_) ?_
    | with_reducible refine hP.host rfl _ _ ?_
    | with_reducible refine hP.log rfl _ _ ?_
    | with_reducible refine hP.pwr rfl _ _ ?_
    | with_reducible refine hP.ras rfl _ _ ?_
    | with_reducible refine hP.sch rfl _ _ ?_
    | with_reducible refine hP.locus rfl _ _ ?_
    | with_reducible refine hP.home rfl _ _ ?_
    | with_reducible refine hP.eth rfl _ _ ?_
    | with_reducible refine hP.link rfl _ _ (fun _ _ h => h) ?_
    | with_reducible refine hP.nbu rfl _ _ _ ?_
    | with_reducible refine State.onPort_keeps (hP.mono rfl) ?_
    | with_reducible refine State.onGroup_keeps (hP.mono rfl) ?_
    | with_reducible refine clearTier_keeps (hP.mono rfl) ?_
    | with_reducible refine clearBin_keeps (hP.mono rfl) ?_
    | with_reducible refine State.onDrive_keeps (hP.mono rfl) (fun _ h => ?_) ?_
    | exact h
    | (extract_lets +onlyGivenNames x; clear_value x)
    | split)

theorem rcFields_ok {P : State → Prop} (hP : Closed 2120566 P) (off : Nat) : RcOk P (rcFields off) := by
  unfold rcFields
  repeat' (first
    | with_reducible assumption
    | with_reducible exact RcOk.nil
    | with_reducible refine RcOk.cons (fun _ _ => ?_) ?_
    | with_reducible refine hP.host rfl _ _ ?_
    | with_reducible refine hP.log rfl _ _ ?_
    | with_reducible refine hP.pwr rfl _ _ ?_
    | with_reducible refine hP.ras rfl _ _ ?_
    | with_reducible refine hP.sch rfl _ _ ?_
    | with_reducible refine hP.locus rfl _ _ ?_
    | with_reducible refine hP.home rfl _ _ ?_
    | with_reducible refine hP.eth rfl _ _ ?_
    | with_reducible refine hP.link rfl _ _ (fun _ _ h => h) ?_
    | with_reducible refine hP.nbu rfl _ _ _ ?_
    | with_reducible refine State.onPort_keeps (hP.mono rfl) ?_
    | with_reducible refine State.onGroup_keeps (hP.mono rfl) ?_
    | with_reducible refine clearTier_keeps (hP.mono rfl) ?_
    | with_reducible refine clearBin_keeps (hP.mono rfl) ?_
    | with_reducible refine State.onDrive_keeps (hP.mono rfl) (fun _ h => ?_) ?_
    | with_reducible exact pwrRc_ok hP _
    | with_reducible exact rasRc_ok hP _
    | with_reducible exact schRc_ok hP _
    | with_reducible exact rgnRc_ok hP _ _
    | with_reducible exact pfxRc_ok hP _
    | with_reducible exact homeRc_ok hP _
    | with_reducible exact xptRc_ok hP _
    | with_reducible exact ethRc_ok hP _
    | exact h
    | (extract_lets +onlyGivenNames x; clear_value x)
    | split)

theorem State.clearRc_keeps {P : State → Prop} (hP : Closed 2120566 P) {off size : Nat} {s : State} (h0 : P s) : P (State.clearRc off size s) := by
  unfold State.clearRc
  have k : ∀ f ∈ (rcFields (off / 8 * 8)).filter (fun f => 8 * (off % 8) ≤ f.lo && f.hi < 8 * (off % 8) + 8 * size), ∀ s, P s → P (f.clear s) :=
    fun f hf => rcFields_ok hP _ f (List.mem_of_mem_filter hf)
  generalize (rcFields (off / 8 * 8)).filter (fun f => 8 * (off % 8) ≤ f.lo && f.hi < 8 * (off % 8) + 8 * size) = l at k
  induction l generalizing s with
  | nil => exact h0
  | cons f t ih => exact ih (k f List.mem_cons_self s h0) (fun g hg => k g (List.mem_cons_of_mem _ hg))

end Sys2Proof.Machine
end

