-- ==== Sys2Proof/Laws/KeepSecurity.lean ====
section
/-! SUPPORT. What the operations of Machine/Security.lean touch: each keeps every predicate that is closed under the parts named. -/

namespace Sys2Proof.Machine

set_option linter.unusedTactic false
set_option linter.unreachableTactic false
set_option linter.unusedVariables false
set_option linter.tactic.unusedName false

theorem execOwnerProvision_keeps {P : State → Prop} (hP : Closed 786488 P) {op : Nat} {pub : Option Nat} {s : State}  (h0 : P s) {t0 : State}
    (e : execOwnerProvision op pub s = .next t0) : P t0 := by
  unfold execOwnerProvision at e
  cases e
  repeat' (first
    | with_reducible assumption
    | with_reducible refine hP.sec rfl _ _ ?_
    | with_reducible refine State.whenUp_keeps (hP.mono rfl) (fun _ _ => ?_) ?_
    | with_reducible refine State.runOp_keeps (hP.mono rfl) (fun _ _ _ => ?_) ?_
    | with_reducible refine State.opFail_keeps (hP.mono rfl) ?_
    | with_reducible refine State.opDone_keeps (hP.mono rfl) ?_
    | with_reducible refine keep_foldl (fun _ _ _ => ?_) ?_
    | with_reducible refine keep_foldl_snd (fun _ _ _ _ => ?_) ?_
    | split)

theorem execManifestLoad_keeps {P : State → Prop} (hP : Closed 786488 P) {op : Nat} {m : Option Manifest} {s : State}  (h0 : P s) {t0 : State}
    (e : execManifestLoad op m s = .next t0) : P t0 := by
  unfold execManifestLoad at e
  cases e
  repeat' (first
    | with_reducible assumption
    | with_reducible refine State.whenUp_keeps (hP.mono rfl) (fun _ _ => ?_) ?_
    | with_reducible refine State.runOp_keeps (hP.mono rfl) (fun _ _ _ => ?_) ?_
    | with_reducible refine State.opFail_keeps (hP.mono rfl) ?_
    | with_reducible refine State.loadManifest_keeps (hP.mono rfl) ?_
    | with_reducible refine State.loadManifest_eq (hP.mono rfl) ?_ ‹_›
    | with_reducible refine State.opDone_keeps (hP.mono rfl) ?_
    | with_reducible refine keep_foldl (fun _ _ _ => ?_) ?_
    | with_reducible refine keep_foldl_snd (fun _ _ _ _ => ?_) ?_
    | (extract_lets +onlyGivenNames x; refine keep_cut (P x) ?_ (fun _ => ?_); unfold x; clear x; rotate_left; clear_value x)
    | (extract_lets +onlyGivenNames x; refine keep_cut (P x.2) ?_ (fun _ => ?_); unfold x; clear x; rotate_left; clear_value x)
    | (extract_lets +onlyGivenNames x; clear_value x)
    | split)

theorem execKeyslotGenerate_keeps {P : State → Prop} (hP : Closed 786488 P) {op : Nat} {s : State}  (h0 : P s) {t0 : State}
    (e : execKeyslotGenerate op s = .next t0) : P t0 := by
  unfold execKeyslotGenerate at e
  cases e
  repeat' (first
    | with_reducible assumption
    | with_reducible refine hP.sec rfl _ _ ?_
    | with_reducible refine hP.free rfl _ ?_
    | with_reducible refine State.whenUp_keeps (hP.mono rfl) (fun _ _ => ?_) ?_
    | with_reducible refine State.runOp_keeps (hP.mono rfl) (fun _ _ _ => ?_) ?_
    | with_reducible refine State.opFail_keeps (hP.mono rfl) ?_
    | with_reducible refine State.opDone_keeps (hP.mono rfl) ?_
    | with_reducible refine keep_foldl (fun _ _ _ => ?_) ?_
    | with_reducible refine keep_foldl_snd (fun _ _ _ _ => ?_) ?_
    | (extract_lets +onlyGivenNames x; refine keep_cut (P x) ?_ (fun _ => ?_); unfold x; clear x; rotate_left; clear_value x)
    | (extract_lets +onlyGivenNames x; refine keep_cut (P x.2) ?_ (fun _ => ?_); unfold x; clear x; rotate_left; clear_value x)
    | (extract_lets +onlyGivenNames x; clear_value x)
    | split)

theorem execKeyslotErase_keeps {P : State → Prop} (hP : Closed 786488 P) {op : Nat} {s : State}  (h0 : P s) {t0 : State}
    (e : execKeyslotErase op s = .next t0) : P t0 := by
  unfold execKeyslotErase at e
  cases e
  repeat' (first
    | with_reducible assumption
    | with_reducible refine hP.sec rfl _ _ ?_
    | with_reducible refine State.whenUp_keeps (hP.mono rfl) (fun _ _ => ?_) ?_
    | with_reducible refine State.runOp_keeps (hP.mono rfl) (fun _ _ _ => ?_) ?_
    | with_reducible refine State.opFail_keeps (hP.mono rfl) ?_
    | with_reducible refine State.opDone_keeps (hP.mono rfl) ?_
    | with_reducible refine keep_foldl (fun _ _ _ => ?_) ?_
    | with_reducible refine keep_foldl_snd (fun _ _ _ _ => ?_) ?_
    | (extract_lets +onlyGivenNames x; refine keep_cut (P x) ?_ (fun _ => ?_); unfold x; clear x; rotate_left; clear_value x)
    | (extract_lets +onlyGivenNames x; refine keep_cut (P x.2) ?_ (fun _ => ?_); unfold x; clear x; rotate_left; clear_value x)
    | (extract_lets +onlyGivenNames x; clear_value x)
    | split)

theorem execDebugChallenge_keeps {P : State → Prop} (hP : Closed 786488 P) {op : Nat} {s : State}  (h0 : P s) {t0 : State}
    (e : execDebugChallenge op s = .next t0) : P t0 := by
  unfold execDebugChallenge at e
  cases e
  repeat' (first
    | with_reducible assumption
    | with_reducible refine hP.sec rfl _ _ ?_
    | with_reducible refine hP.free rfl _ ?_
    | with_reducible refine State.whenUp_keeps (hP.mono rfl) (fun _ _ => ?_) ?_
    | with_reducible refine State.runOp_keeps (hP.mono rfl) (fun _ _ _ => ?_) ?_
    | with_reducible refine State.writeBuffer_keeps (hP.mono rfl) ?_
    | with_reducible refine State.opDone_keeps (hP.mono rfl) ?_
    | with_reducible refine keep_foldl (fun _ _ _ => ?_) ?_
    | with_reducible refine keep_foldl_snd (fun _ _ _ _ => ?_) ?_
    | (extract_lets +onlyGivenNames x; refine keep_cut (P x) ?_ (fun _ => ?_); unfold x; clear x; rotate_left; clear_value x)
    | (extract_lets +onlyGivenNames x; refine keep_cut (P x.2) ?_ (fun _ => ?_); unfold x; clear x; rotate_left; clear_value x)
    | (extract_lets +onlyGivenNames x; clear_value x)
    | split)

theorem execDebugUnlock_keeps {P : State → Prop} (hP : Closed 786488 P) {op : Nat} {signedBy : Option Nat} {s : State}  (h0 : P s) {t0 : State}
    (e : execDebugUnlock op signedBy s = .next t0) : P t0 := by
  unfold execDebugUnlock at e
  cases e
  repeat' (first
    | with_reducible assumption
    | with_reducible refine hP.sec rfl _ _ ?_
    | with_reducible refine State.whenUp_keeps (hP.mono rfl) (fun _ _ => ?_) ?_
    | with_reducible refine State.runOp_keeps (hP.mono rfl) (fun _ _ _ => ?_) ?_
    | with_reducible refine State.opFail_keeps (hP.mono rfl) ?_
    | with_reducible refine State.opDone_keeps (hP.mono rfl) ?_
    | with_reducible refine State.logEvent_keeps (hP.mono rfl) ?_
    | with_reducible refine keep_foldl (fun _ _ _ => ?_) ?_
    | with_reducible refine keep_foldl_snd (fun _ _ _ _ => ?_) ?_
    | (extract_lets +onlyGivenNames x; refine keep_cut (P x) ?_ (fun _ => ?_); unfold x; clear x; rotate_left; clear_value x)
    | (extract_lets +onlyGivenNames x; refine keep_cut (P x.2) ?_ (fun _ => ?_); unfold x; clear x; rotate_left; clear_value x)
    | (extract_lets +onlyGivenNames x; clear_value x)
    | split)

theorem execRecoveryChunkGo_keeps {P : State → Prop} (hP : Closed 8 P) {index len : Nat} {last : Bool} {image : Option FwImage} {s : State}  (h0 : P s) {t0 : State}
    (e : execRecoveryChunkGo index len last image s = .next t0) : P t0 := by
  unfold execRecoveryChunkGo at e
  cases e
  repeat' (first
    | with_reducible assumption
    | with_reducible refine hP.sec rfl _ _ ?_
    | with_reducible refine State.whenUp_keeps (hP.mono rfl) (fun _ _ => ?_) ?_
    | with_reducible refine keep_foldl (fun _ _ _ => ?_) ?_
    | with_reducible refine keep_foldl_snd (fun _ _ _ _ => ?_) ?_
    | split)

theorem State.spdm_keeps {P : State → Prop} (hP : Closed 0 P) {f : State → State} {s : State} (kf : ∀ s, P s → P (f s)) (h0 : P s) :
    P (State.spdm f s) := by
  unfold State.spdm
  repeat' (first
    | with_reducible assumption
    | with_reducible refine kf _ ?_
    | with_reducible refine keep_foldl (fun _ _ _ => ?_) ?_
    | with_reducible refine keep_foldl_snd (fun _ _ _ _ => ?_) ?_
    | split)

theorem State.spdmError_keeps {P : State → Prop} (hP : Closed 524288 P) {code request : Nat} {s : State}  (h0 : P s) :
    P (State.spdmError code request s) := by
  unfold State.spdmError
  repeat' (first
    | with_reducible assumption
    | with_reducible refine hP.emitted rfl _ _ ?_
    | with_reducible refine keep_foldl (fun _ _ _ => ?_) ?_
    | with_reducible refine keep_foldl_snd (fun _ _ _ _ => ?_) ?_
    | split)

theorem execGetVersion_keeps {P : State → Prop} (hP : Closed 524296 P) {s : State}  (h0 : P s) {t0 : State}
    (e : execGetVersion s = .next t0) : P t0 := by
  unfold execGetVersion at e
  cases e
  repeat' (first
    | with_reducible assumption
    | with_reducible refine hP.sec rfl _ _ ?_
    | with_reducible refine hP.emitted rfl _ _ ?_
    | with_reducible refine State.whenUp_keeps (hP.mono rfl) (fun _ _ => ?_) ?_
    | with_reducible refine State.spdm_keeps (hP.mono rfl) (fun _ _ => ?_) ?_
    | with_reducible refine keep_foldl (fun _ _ _ => ?_) ?_
    | with_reducible refine keep_foldl_snd (fun _ _ _ _ => ?_) ?_
    | split)

theorem execGetCapabilities_keeps {P : State → Prop} (hP : Closed 524296 P) {s : State}  (h0 : P s) {t0 : State}
    (e : execGetCapabilities s = .next t0) : P t0 := by
  unfold execGetCapabilities at e
  cases e
  repeat' (first
    | with_reducible assumption
    | with_reducible refine hP.sec rfl _ _ ?_
    | with_reducible refine hP.emitted rfl _ _ ?_
    | with_reducible refine State.whenUp_keeps (hP.mono rfl) (fun _ _ => ?_) ?_
    | with_reducible refine State.spdm_keeps (hP.mono rfl) (fun _ _ => ?_) ?_
    | with_reducible refine State.spdmError_keeps (hP.mono rfl) ?_
    | with_reducible refine keep_foldl (fun _ _ _ => ?_) ?_
    | with_reducible refine keep_foldl_snd (fun _ _ _ _ => ?_) ?_
    | split)

theorem execNegotiateAlgorithms_keeps {P : State → Prop} (hP : Closed 524296 P) {asym hash : Nat} {s : State}  (h0 : P s) {t0 : State}
    (e : execNegotiateAlgorithms asym hash s = .next t0) : P t0 := by
  unfold execNegotiateAlgorithms at e
  cases e
  repeat' (first
    | with_reducible assumption
    | with_reducible refine hP.sec rfl _ _ ?_
    | with_reducible refine hP.emitted rfl _ _ ?_
    | with_reducible refine State.whenUp_keeps (hP.mono rfl) (fun _ _ => ?_) ?_
    | with_reducible refine State.spdm_keeps (hP.mono rfl) (fun _ _ => ?_) ?_
    | with_reducible refine State.spdmError_keeps (hP.mono rfl) ?_
    | with_reducible refine keep_foldl (fun _ _ _ => ?_) ?_
    | with_reducible refine keep_foldl_snd (fun _ _ _ _ => ?_) ?_
    | split)

theorem execGetDigests_keeps {P : State → Prop} (hP : Closed 524288 P) {s : State}  (h0 : P s) {t0 : State}
    (e : execGetDigests s = .next t0) : P t0 := by
  unfold execGetDigests at e
  cases e
  repeat' (first
    | with_reducible assumption
    | with_reducible refine hP.emitted rfl _ _ ?_
    | with_reducible refine State.whenUp_keeps (hP.mono rfl) (fun _ _ => ?_) ?_
    | with_reducible refine State.spdm_keeps (hP.mono rfl) (fun _ _ => ?_) ?_
    | with_reducible refine State.spdmError_keeps (hP.mono rfl) ?_
    | with_reducible refine keep_foldl (fun _ _ _ => ?_) ?_
    | with_reducible refine keep_foldl_snd (fun _ _ _ _ => ?_) ?_
    | split)

theorem execGetCertificate_keeps {P : State → Prop} (hP : Closed 524288 P) {slot : Nat} {s : State}  (h0 : P s) {t0 : State}
    (e : execGetCertificate slot s = .next t0) : P t0 := by
  unfold execGetCertificate at e
  cases e
  repeat' (first
    | with_reducible assumption
    | with_reducible refine hP.emitted rfl _ _ ?_
    | with_reducible refine State.whenUp_keeps (hP.mono rfl) (fun _ _ => ?_) ?_
    | with_reducible refine State.spdm_keeps (hP.mono rfl) (fun _ _ => ?_) ?_
    | with_reducible refine State.spdmError_keeps (hP.mono rfl) ?_
    | with_reducible refine keep_foldl (fun _ _ _ => ?_) ?_
    | with_reducible refine keep_foldl_snd (fun _ _ _ _ => ?_) ?_
    | split)

theorem execChallenge_keeps {P : State → Prop} (hP : Closed 786432 P) {slot nonce : Nat} {s : State}  (h0 : P s) {t0 : State}
    (e : execChallenge slot nonce s = .next t0) : P t0 := by
  unfold execChallenge at e
  cases e
  repeat' (first
    | with_reducible assumption
    | with_reducible refine hP.free rfl _ ?_
    | with_reducible refine hP.emitted rfl _ _ ?_
    | with_reducible refine State.whenUp_keeps (hP.mono rfl) (fun _ _ => ?_) ?_
    | with_reducible refine State.spdm_keeps (hP.mono rfl) (fun _ _ => ?_) ?_
    | with_reducible refine State.spdmError_keeps (hP.mono rfl) ?_
    | with_reducible refine keep_foldl (fun _ _ _ => ?_) ?_
    | with_reducible refine keep_foldl_snd (fun _ _ _ _ => ?_) ?_
    | split)

theorem execGetMeasurements_keeps {P : State → Prop} (hP : Closed 786432 P) {index nonce : Nat} {s : State}  (h0 : P s) {t0 : State}
    (e : execGetMeasurements index nonce s = .next t0) : P t0 := by
  unfold execGetMeasurements at e
  cases e
  repeat' (first
    | with_reducible assumption
    | with_reducible refine hP.free rfl _ ?_
    | with_reducible refine hP.emitted rfl _ _ ?_
    | with_reducible refine State.whenUp_keeps (hP.mono rfl) (fun _ _ => ?_) ?_
    | with_reducible refine State.spdm_keeps (hP.mono rfl) (fun _ _ => ?_) ?_
    | with_reducible refine State.spdmError_keeps (hP.mono rfl) ?_
    | with_reducible refine keep_foldl (fun _ _ _ => ?_) ?_
    | with_reducible refine keep_foldl_snd (fun _ _ _ _ => ?_) ?_
    | split)

theorem execSpdmUnsupported_keeps {P : State → Prop} (hP : Closed 524288 P) {code : Nat} {s : State}  (h0 : P s) {t0 : State}
    (e : execSpdmUnsupported code s = .next t0) : P t0 := by
  unfold execSpdmUnsupported at e
  cases e
  repeat' (first
    | with_reducible assumption
    | with_reducible refine State.whenUp_keeps (hP.mono rfl) (fun _ _ => ?_) ?_
    | with_reducible refine State.spdm_keeps (hP.mono rfl) (fun _ _ => ?_) ?_
    | with_reducible refine State.spdmError_keeps (hP.mono rfl) ?_
    | with_reducible refine keep_foldl (fun _ _ _ => ?_) ?_
    | with_reducible refine keep_foldl_snd (fun _ _ _ _ => ?_) ?_
    | split)

end Sys2Proof.Machine
end

