-- ==== Sys2Proof/Laws/KeepHostIf.lean ====
section
/-! SUPPORT. What the operations of Machine/HostIf.lean touch: each keeps every predicate that is closed under the parts named. -/

namespace Sys2Proof.Machine

set_option linter.unusedTactic false
set_option linter.unreachableTactic false
set_option linter.unusedVariables false
set_option linter.tactic.unusedName false

theorem State.ringOn_keeps {P : State → Prop} (hP : Closed 16 P) {r : Nat} {s : State}  (h0 : P s) :
    P (State.ringOn r s) := by
  unfold State.ringOn
  repeat' (first
    | with_reducible assumption
    | with_reducible refine State.onRing_keeps (hP.mono rfl) ?_
    | with_reducible refine keep_foldl (fun _ _ _ => ?_) ?_
    | with_reducible refine keep_foldl_snd (fun _ _ _ _ => ?_) ?_
    | split)

theorem State.ringOff_keeps {P : State → Prop} (hP : Closed 16 P) {r : Nat} {s : State}  (h0 : P s) :
    P (State.ringOff r s) := by
  unfold State.ringOff
  repeat' (first
    | with_reducible assumption
    | with_reducible refine State.onRing_keeps (hP.mono rfl) ?_
    | with_reducible refine keep_foldl (fun _ _ _ => ?_) ?_
    | with_reducible refine keep_foldl_snd (fun _ _ _ _ => ?_) ?_
    | split)

theorem execRingEnable_keeps {P : State → Prop} (hP : Closed 16 P) {ring : Fin 64} {s : State}  (h0 : P s) {t0 : State}
    (e : execRingEnable ring s = .next t0) : P t0 := by
  unfold execRingEnable at e
  cases e
  repeat' (first
    | with_reducible assumption
    | with_reducible refine State.whenUp_keeps (hP.mono rfl) (fun _ _ => ?_) ?_
    | with_reducible refine State.fromHost_keeps (hP.mono rfl) (fun _ _ => ?_) ?_
    | with_reducible refine State.ringOn_keeps (hP.mono rfl) ?_
    | with_reducible refine keep_foldl (fun _ _ _ => ?_) ?_
    | with_reducible refine keep_foldl_snd (fun _ _ _ _ => ?_) ?_
    | split)

theorem execRingDisable_keeps {P : State → Prop} (hP : Closed 16 P) {ring : Fin 64} {s : State}  (h0 : P s) {t0 : State}
    (e : execRingDisable ring s = .next t0) : P t0 := by
  unfold execRingDisable at e
  cases e
  repeat' (first
    | with_reducible assumption
    | with_reducible refine State.whenUp_keeps (hP.mono rfl) (fun _ _ => ?_) ?_
    | with_reducible refine State.fromHost_keeps (hP.mono rfl) (fun _ _ => ?_) ?_
    | with_reducible refine State.ringOff_keeps (hP.mono rfl) ?_
    | with_reducible refine keep_foldl (fun _ _ _ => ?_) ?_
    | with_reducible refine keep_foldl_snd (fun _ _ _ _ => ?_) ?_
    | split)

theorem State.clearCause_keeps {P : State → Prop} (hP : Closed 16 P) {v : Nat} {s : State}  (h0 : P s) :
    P (State.clearCause v s) := by
  unfold State.clearCause
  repeat' (first
    | with_reducible assumption
    | with_reducible refine hP.host rfl _ _ ?_
    | with_reducible refine keep_foldl (fun _ _ _ => ?_) ?_
    | with_reducible refine keep_foldl_snd (fun _ _ _ _ => ?_) ?_
    | split)

theorem execIrqCauseClear_keeps {P : State → Prop} (hP : Closed 16 P) {value : Nat} {s : State}  (h0 : P s) {t0 : State}
    (e : execIrqCauseClear value s = .next t0) : P t0 := by
  unfold execIrqCauseClear at e
  cases e
  repeat' (first
    | with_reducible assumption
    | with_reducible refine State.whenUp_keeps (hP.mono rfl) (fun _ _ => ?_) ?_
    | with_reducible refine State.fromHost_keeps (hP.mono rfl) (fun _ _ => ?_) ?_
    | with_reducible refine State.clearCause_keeps (hP.mono rfl) ?_
    | with_reducible refine keep_foldl (fun _ _ _ => ?_) ?_
    | with_reducible refine keep_foldl_snd (fun _ _ _ _ => ?_) ?_
    | split)

theorem State.ackLog_keeps {P : State → Prop} (hP : Closed 32 P) {v : Nat} {s : State}  (h0 : P s) :
    P (State.ackLog v s) := by
  unfold State.ackLog
  repeat' (first
    | with_reducible assumption
    | with_reducible refine hP.log rfl _ _ ?_
    | with_reducible refine keep_foldl (fun _ _ _ => ?_) ?_
    | with_reducible refine keep_foldl_snd (fun _ _ _ _ => ?_) ?_
    | split)

theorem execLogAckWrite_keeps {P : State → Prop} (hP : Closed 48 P) {value : Nat} {s : State}  (h0 : P s) {t0 : State}
    (e : execLogAckWrite value s = .next t0) : P t0 := by
  unfold execLogAckWrite at e
  cases e
  repeat' (first
    | with_reducible assumption
    | with_reducible refine State.whenUp_keeps (hP.mono rfl) (fun _ _ => ?_) ?_
    | with_reducible refine State.fromHost_keeps (hP.mono rfl) (fun _ _ => ?_) ?_
    | with_reducible refine State.ackLog_keeps (hP.mono rfl) ?_
    | with_reducible refine keep_foldl (fun _ _ _ => ?_) ?_
    | with_reducible refine keep_foldl_snd (fun _ _ _ _ => ?_) ?_
    | split)

theorem State.topWrite_keeps {P : State → Prop} (hP : Closed 16 P) {o v w : Nat} {s : State}  (h0 : P s) :
    P (State.topWrite o v w s) := by
  unfold State.topWrite
  repeat' (first
    | with_reducible assumption
    | with_reducible refine hP.host rfl _ _ ?_
    | with_reducible refine State.clearCause_keeps (hP.mono rfl) ?_
    | with_reducible refine State.onRing_keeps (hP.mono rfl) ?_
    | with_reducible refine State.ringOn_keeps (hP.mono rfl) ?_
    | with_reducible refine State.ringOff_keeps (hP.mono rfl) ?_
    | with_reducible refine keep_foldl (fun _ _ _ => ?_) ?_
    | with_reducible refine keep_foldl_snd (fun _ _ _ _ => ?_) ?_
    | (extract_lets +onlyGivenNames x; refine keep_cut (P x) ?_ (fun _ => ?_); unfold x; clear x; rotate_left; clear_value x)
    | (extract_lets +onlyGivenNames x; refine keep_cut (P x.2) ?_ (fun _ => ?_); unfold x; clear x; rotate_left; clear_value x)
    | (extract_lets +onlyGivenNames x; clear_value x)
    | split)

theorem State.rgnWrite_keeps {P : State → Prop} (hP : Closed 2410944 P) {n o w : Nat} {s : State}  (h0 : P s) :
    P (State.rgnWrite n o w s) := by
  unfold State.rgnWrite
  repeat' (first
    | with_reducible assumption
    | with_reducible refine hP.nbu rfl _ _ _ ?_
    | with_reducible refine State.enableNb_keeps (hP.mono rfl) ?_
    | with_reducible refine State.disableNb_keeps (hP.mono rfl) ?_
    | with_reducible refine keep_foldl (fun _ _ _ => ?_) ?_
    | with_reducible refine keep_foldl_snd (fun _ _ _ _ => ?_) ?_
    | (extract_lets +onlyGivenNames x; refine keep_cut (P x) ?_ (fun _ => ?_); unfold x; clear x; rotate_left; clear_value x)
    | (extract_lets +onlyGivenNames x; refine keep_cut (P x.2) ?_ (fun _ => ?_); unfold x; clear x; rotate_left; clear_value x)
    | (extract_lets +onlyGivenNames x; clear_value x)
    | split)

theorem State.ethWrite_keeps {P : State → Prop} (hP : Closed 16384 P) {o w : Nat} {s : State}  (h0 : P s) :
    P (State.ethWrite o w s) := by
  unfold State.ethWrite
  repeat' (first
    | with_reducible assumption
    | with_reducible refine hP.eth rfl _ _ ?_
    | with_reducible refine keep_foldl (fun _ _ _ => ?_) ?_
    | with_reducible refine keep_foldl_snd (fun _ _ _ _ => ?_) ?_
    | split)

theorem State.regWrite_keeps {P : State → Prop} (hP : Closed 2935294 P) {off v w : Nat} {s : State}  (h0 : P s) :
    P (State.regWrite off v w s) := by
  unfold State.regWrite
  repeat' (first
    | with_reducible assumption
    | with_reducible refine hP.ras rfl _ _ ?_
    | with_reducible refine hP.pwr rfl _ _ ?_
    | with_reducible refine hP.sec rfl _ _ ?_
    | with_reducible refine hP.log rfl _ _ ?_
    | with_reducible refine hP.sch rfl _ _ ?_
    | with_reducible refine hP.link rfl _ _ (fun _ _ h => h) ?_
    | with_reducible refine State.topWrite_keeps (hP.mono rfl) ?_
    | with_reducible refine State.ackLog_keeps (hP.mono rfl) ?_
    | with_reducible refine State.logIrq_keeps (hP.mono rfl) ?_
    | with_reducible refine State.rgnWrite_keeps (hP.mono rfl) ?_
    | with_reducible refine State.ethWrite_keeps (hP.mono rfl) ?_
    | with_reducible refine keep_foldl (fun _ _ _ => ?_) ?_
    | with_reducible refine keep_foldl_snd (fun _ _ _ _ => ?_) ?_
    | (extract_lets +onlyGivenNames x; refine keep_cut (P x) ?_ (fun _ => ?_); unfold x; clear x; rotate_left; clear_value x)
    | (extract_lets +onlyGivenNames x; refine keep_cut (P x.2) ?_ (fun _ => ?_); unfold x; clear x; rotate_left; clear_value x)
    | (extract_lets +onlyGivenNames x; clear_value x)
    | split)

theorem State.writeAt_keeps {P : State → Prop} (hP : Closed 2935294 P) {off size value : Nat} {s : State}  (h0 : P s) :
    P (State.writeAt off size value s) := by
  unfold State.writeAt
  repeat' (first
    | with_reducible assumption
    | with_reducible refine State.regWrite_keeps (hP.mono rfl) ?_
    | with_reducible refine keep_foldl (fun _ _ _ => ?_) ?_
    | with_reducible refine keep_foldl_snd (fun _ _ _ _ => ?_) ?_
    | (extract_lets +onlyGivenNames x; refine keep_cut (P x) ?_ (fun _ => ?_); unfold x; clear x; rotate_left; clear_value x)
    | (extract_lets +onlyGivenNames x; refine keep_cut (P x.2) ?_ (fun _ => ?_); unfold x; clear x; rotate_left; clear_value x)
    | (extract_lets +onlyGivenNames x; clear_value x)
    | split)

theorem State.unsupported_keeps {P : State → Prop} (hP : Closed 524304 P) {off size : Nat} {s : State}  (h0 : P s) :
    P (State.unsupported off size s) := by
  unfold State.unsupported
  repeat' (first
    | with_reducible assumption
    | with_reducible refine hP.host rfl _ _ ?_
    | with_reducible refine hP.emitted rfl _ _ ?_
    | with_reducible refine keep_foldl (fun _ _ _ => ?_) ?_
    | with_reducible refine keep_foldl_snd (fun _ _ _ _ => ?_) ?_
    | split)

theorem State.completeRead_keeps {P : State → Prop} (hP : Closed 2644854 P) {off size : Nat} {s : State}  (h0 : P s) :
    P (State.completeRead off size s) := by
  unfold State.completeRead
  repeat' (first
    | with_reducible assumption
    | with_reducible refine hP.emitted rfl _ _ ?_
    | with_reducible refine State.clearRc_keeps (hP.mono rfl) ?_
    | with_reducible refine keep_foldl (fun _ _ _ => ?_) ?_
    | with_reducible refine keep_foldl_snd (fun _ _ _ _ => ?_) ?_
    | exact fun _ => rfl
    | exact fun _ h => h
    | split)

theorem execRcRegisterRead_keeps {P : State → Prop} (hP : Closed 2644854 P) {offset size : Nat} {s : State}  (h0 : P s) {t0 : State}
    (e : execRcRegisterRead offset size s = .next t0) : P t0 := by
  unfold execRcRegisterRead at e
  cases e
  repeat' (first
    | with_reducible assumption
    | with_reducible refine hP.host rfl _ _ ?_
    | with_reducible refine hP.emitted rfl _ _ ?_
    | with_reducible refine State.whenUp_keeps (hP.mono rfl) (fun _ _ => ?_) ?_
    | with_reducible refine State.fromHost_keeps (hP.mono rfl) (fun _ _ => ?_) ?_
    | with_reducible refine State.unsupported_keeps (hP.mono rfl) ?_
    | with_reducible refine State.completeRead_keeps (hP.mono rfl) ?_
    | with_reducible refine keep_foldl (fun _ _ _ => ?_) ?_
    | with_reducible refine keep_foldl_snd (fun _ _ _ _ => ?_) ?_
    | exact fun _ => rfl
    | exact fun _ h => h
    | split)

theorem execRegisterWrite_keeps {P : State → Prop} (hP : Closed 2935294 P) {offset size value : Nat} {s : State}  (h0 : P s) {t0 : State}
    (e : execRegisterWrite offset size value s = .next t0) : P t0 := by
  unfold execRegisterWrite at e
  cases e
  repeat' (first
    | with_reducible assumption
    | with_reducible refine hP.host rfl _ _ ?_
    | with_reducible refine State.whenUp_keeps (hP.mono rfl) (fun _ _ => ?_) ?_
    | with_reducible refine State.fromHost_keeps (hP.mono rfl) (fun _ _ => ?_) ?_
    | with_reducible refine State.unsupported_keeps (hP.mono rfl) ?_
    | with_reducible refine State.writeAt_keeps (hP.mono rfl) ?_
    | with_reducible refine keep_foldl (fun _ _ _ => ?_) ?_
    | with_reducible refine keep_foldl_snd (fun _ _ _ _ => ?_) ?_
    | split)

theorem State.timeoutRead_keeps {P : State → Prop} (hP : Closed 524304 P) {off size : Nat} {s : State}  (h0 : P s) :
    P (State.timeoutRead off size s) := by
  unfold State.timeoutRead
  repeat' (first
    | with_reducible assumption
    | with_reducible refine hP.host rfl _ _ ?_
    | with_reducible refine hP.emitted rfl _ _ ?_
    | with_reducible refine keep_foldl (fun _ _ _ => ?_) ?_
    | with_reducible refine keep_foldl_snd (fun _ _ _ _ => ?_) ?_
    | split)

theorem execRegReadTimeout_keeps {P : State → Prop} (hP : Closed 524304 P) {offset size : Nat} {s : State}  (h0 : P s) {t0 : State}
    (e : execRegReadTimeout offset size s = .next t0) : P t0 := by
  unfold execRegReadTimeout at e
  cases e
  repeat' (first
    | with_reducible assumption
    | with_reducible refine hP.host rfl _ _ ?_
    | with_reducible refine State.whenUp_keeps (hP.mono rfl) (fun _ _ => ?_) ?_
    | with_reducible refine State.timeoutRead_keeps (hP.mono rfl) ?_
    | with_reducible refine keep_foldl (fun _ _ _ => ?_) ?_
    | with_reducible refine keep_foldl_snd (fun _ _ _ _ => ?_) ?_
    | split)

theorem State.releaseHeld_keeps {P : State → Prop} (hP : Closed 2939902 P) {s : State}  (h0 : P s) :
    P (State.releaseHeld s) := by
  unfold State.releaseHeld
  repeat' (first
    | with_reducible assumption
    | with_reducible refine hP.host rfl _ _ ?_
    | with_reducible refine State.timeoutRead_keeps (hP.mono rfl) ?_
    | with_reducible refine State.completeRead_keeps (hP.mono rfl) ?_
    | with_reducible refine State.writeAt_keeps (hP.mono rfl) ?_
    | with_reducible refine keep_foldl (fun _ _ _ => ?_) ?_
    | with_reducible refine keep_foldl_snd (fun _ _ _ _ => ?_) ?_
    | exact fun _ => rfl
    | exact fun _ h => h
    | (extract_lets +onlyGivenNames x; refine keep_cut (P x) ?_ (fun _ => ?_); unfold x; clear x; rotate_left; clear_value x)
    | (extract_lets +onlyGivenNames x; refine keep_cut (P x.2) ?_ (fun _ => ?_); unfold x; clear x; rotate_left; clear_value x)
    | (extract_lets +onlyGivenNames x; clear_value x)
    | split)

theorem State.logBar2_keeps {P : State → Prop} (hP : Closed 524336 P) {kind a : Nat} {refused : Bool} {s : State}  (h0 : P s) :
    P (State.logBar2 kind a refused s) := by
  unfold State.logBar2
  repeat' (first
    | with_reducible assumption
    | with_reducible refine State.logEvent_keeps (hP.mono rfl) ?_
    | with_reducible refine keep_foldl (fun _ _ _ => ?_) ?_
    | with_reducible refine keep_foldl_snd (fun _ _ _ _ => ?_) ?_
    | split)

theorem State.bar2Piece_keeps {P : State → Prop} (hP : Closed 541056 P) {a n : Nat} {s : State}  (h0 : P s) :
    P (State.bar2Piece a n s) := by
  unfold State.bar2Piece
  repeat' (first
    | with_reducible assumption
    | with_reducible refine hP.emitted rfl _ _ ?_
    | with_reducible refine State.takeStack_keeps (hP.mono rfl) ?_
    | with_reducible refine State.collide_keeps (hP.mono rfl) ?_
    | with_reducible refine keep_foldl (fun _ _ _ => ?_) ?_
    | with_reducible refine keep_foldl_snd (fun _ _ _ _ => ?_) ?_
    | (extract_lets +onlyGivenNames x; refine keep_cut (P x) ?_ (fun _ => ?_); unfold x; clear x; rotate_left; clear_value x)
    | (extract_lets +onlyGivenNames x; refine keep_cut (P x.2) ?_ (fun _ => ?_); unfold x; clear x; rotate_left; clear_value x)
    | (extract_lets +onlyGivenNames x; clear_value x)
    | split)

theorem execBar2Read_keeps {P : State → Prop} (hP : Closed 541104 P) {x len : Nat} {s : State}  (h0 : P s) {t0 : State}
    (e : execBar2Read x len s = .next t0) : P t0 := by
  unfold execBar2Read at e
  cases e
  repeat' (first
    | with_reducible assumption
    | with_reducible refine hP.emitted rfl _ _ ?_
    | with_reducible refine State.whenUp_keeps (hP.mono rfl) (fun _ _ => ?_) ?_
    | with_reducible refine State.fromHost_keeps (hP.mono rfl) (fun _ _ => ?_) ?_
    | with_reducible refine State.logBar2_keeps (hP.mono rfl) ?_
    | with_reducible refine State.bar2Piece_keeps (hP.mono rfl) ?_
    | with_reducible refine keep_foldl (fun _ _ _ => ?_) ?_
    | with_reducible refine keep_foldl_snd (fun _ _ _ _ => ?_) ?_
    | (extract_lets +onlyGivenNames x; refine keep_cut (P x) ?_ (fun _ => ?_); unfold x; clear x; rotate_left; clear_value x)
    | (extract_lets +onlyGivenNames x; refine keep_cut (P x.2) ?_ (fun _ => ?_); unfold x; clear x; rotate_left; clear_value x)
    | (extract_lets +onlyGivenNames x; clear_value x)
    | split)

theorem State.bar2Put_keeps {P : State → Prop} (hP : Closed 17792 P) {a : Nat} {d : List Byte} {s : State}  (h0 : P s) :
    P (State.bar2Put a d s) := by
  unfold State.bar2Put
  repeat' (first
    | with_reducible assumption
    | with_reducible refine State.takeStack_keeps (hP.mono rfl) ?_
    | with_reducible refine State.busWrite_keeps (hP.mono rfl) ?_
    | with_reducible refine keep_foldl (fun _ _ _ => ?_) ?_
    | with_reducible refine keep_foldl_snd (fun _ _ _ _ => ?_) ?_
    | exact fun _ => rfl
    | exact fun _ h => h
    | split)

theorem execBar2Write_keeps {P : State → Prop} (hP : Closed 542128 P) {x : Nat} {data : List Byte} {s : State}  (h0 : P s) {t0 : State}
    (e : execBar2Write x data s = .next t0) : P t0 := by
  unfold execBar2Write at e
  cases e
  repeat' (first
    | with_reducible assumption
    | with_reducible refine hP.host rfl _ _ ?_
    | with_reducible refine State.whenUp_keeps (hP.mono rfl) (fun _ _ => ?_) ?_
    | with_reducible refine State.fromHost_keeps (hP.mono rfl) (fun _ _ => ?_) ?_
    | with_reducible refine State.logBar2_keeps (hP.mono rfl) ?_
    | with_reducible refine State.bar2Put_keeps (hP.mono rfl) ?_
    | with_reducible refine keep_foldl (fun _ _ _ => ?_) ?_
    | with_reducible refine keep_foldl_snd (fun _ _ _ _ => ?_) ?_
    | exact fun _ => rfl
    | exact fun _ h => h
    | (extract_lets +onlyGivenNames x; refine keep_cut (P x) ?_ (fun _ => ?_); unfold x; clear x; rotate_left; clear_value x)
    | (extract_lets +onlyGivenNames x; refine keep_cut (P x.2) ?_ (fun _ => ?_); unfold x; clear x; rotate_left; clear_value x)
    | (extract_lets +onlyGivenNames x; clear_value x)
    | split)

theorem State.resetEndpoint_keeps {P : State → Prop} (hP : Closed 786480 P) {up : Bool} {s : State}  (h0 : P s) :
    P (State.resetEndpoint up s) := by
  unfold State.resetEndpoint
  repeat' (first
    | with_reducible assumption
    | with_reducible refine hP.host rfl _ _ ?_
    | with_reducible refine State.pastStep9_keeps (hP.mono rfl) ?_
    | with_reducible refine State.opFail_keeps (hP.mono rfl) ?_
    | with_reducible refine keep_foldl (fun _ _ _ => ?_) ?_
    | with_reducible refine keep_foldl_snd (fun _ _ _ _ => ?_) ?_
    | (extract_lets +onlyGivenNames x; refine keep_cut (P x) ?_ (fun _ => ?_); unfold x; clear x; rotate_left; clear_value x)
    | (extract_lets +onlyGivenNames x; refine keep_cut (P x.2) ?_ (fun _ => ?_); unfold x; clear x; rotate_left; clear_value x)
    | (extract_lets +onlyGivenNames x; clear_value x)
    | split)

theorem execFunctionLevelReset_keeps {P : State → Prop} (hP : Closed 786480 P) {s : State}  (h0 : P s) {t0 : State}
    (e : execFunctionLevelReset s = .next t0) : P t0 := by
  unfold execFunctionLevelReset at e
  cases e
  repeat' (first
    | with_reducible assumption
    | with_reducible refine State.whenUp_keeps (hP.mono rfl) (fun _ _ => ?_) ?_
    | with_reducible refine State.resetEndpoint_keeps (hP.mono rfl) ?_
    | with_reducible refine keep_foldl (fun _ _ _ => ?_) ?_
    | with_reducible refine keep_foldl_snd (fun _ _ _ _ => ?_) ?_
    | split)

theorem execPcieLinkDown_keeps {P : State → Prop} (hP : Closed 786480 P) {s : State}  (h0 : P s) {t0 : State}
    (e : execPcieLinkDown s = .next t0) : P t0 := by
  unfold execPcieLinkDown at e
  cases e
  repeat' (first
    | with_reducible assumption
    | with_reducible refine State.whenUp_keeps (hP.mono rfl) (fun _ _ => ?_) ?_
    | with_reducible refine State.resetEndpoint_keeps (hP.mono rfl) ?_
    | with_reducible refine keep_foldl (fun _ _ _ => ?_) ?_
    | with_reducible refine keep_foldl_snd (fun _ _ _ _ => ?_) ?_
    | split)

theorem execD3hotTransition_keeps {P : State → Prop} (hP : Closed 16 P) {toD3 : Bool} {s : State}  (h0 : P s) {t0 : State}
    (e : execD3hotTransition toD3 s = .next t0) : P t0 := by
  unfold execD3hotTransition at e
  cases e
  repeat' (first
    | with_reducible assumption
    | with_reducible refine hP.host rfl _ _ ?_
    | with_reducible refine State.whenUp_keeps (hP.mono rfl) (fun _ _ => ?_) ?_
    | with_reducible refine State.linked_keeps (hP.mono rfl) ?_
    | with_reducible refine keep_foldl (fun _ _ _ => ?_) ?_
    | with_reducible refine keep_foldl_snd (fun _ _ _ _ => ?_) ?_
    | split)

theorem execKeyCreate_keeps {P : State → Prop} (hP : Closed 2884272 P) {op : Nat} {s : State}  (h0 : P s) {t0 : State}
    (e : execKeyCreate op s = .next t0) : P t0 := by
  unfold execKeyCreate at e
  cases e
  repeat' (first
    | with_reducible assumption
    | with_reducible refine State.whenUp_keeps (hP.mono rfl) (fun _ _ => ?_) ?_
    | with_reducible refine State.runOp_keeps (hP.mono rfl) (fun _ _ _ => ?_) ?_
    | with_reducible refine State.opFail_keeps (hP.mono rfl) ?_
    | with_reducible refine State.createKey_ok (hP.mono rfl) ?_ ‹_›
    | with_reducible refine State.writeBuffer_keeps (hP.mono rfl) ?_
    | with_reducible refine State.opDone_keeps (hP.mono rfl) ?_
    | with_reducible refine keep_foldl (fun _ _ _ => ?_) ?_
    | with_reducible refine keep_foldl_snd (fun _ _ _ _ => ?_) ?_
    | exact fun _ => rfl
    | exact fun _ h => h
    | split)

theorem execKeyRemove_keeps {P : State → Prop} (hP : Closed 2884272 P) {op : Nat} {s : State}  (h0 : P s) {t0 : State}
    (e : execKeyRemove op s = .next t0) : P t0 := by
  unfold execKeyRemove at e
  cases e
  repeat' (first
    | with_reducible assumption
    | with_reducible refine State.whenUp_keeps (hP.mono rfl) (fun _ _ => ?_) ?_
    | with_reducible refine State.runOp_keeps (hP.mono rfl) (fun _ _ _ => ?_) ?_
    | with_reducible refine State.removeKey_ok (hP.mono rfl) ?_ ‹_›
    | with_reducible refine State.opDone_keeps (hP.mono rfl) ?_
    | with_reducible refine State.opFail_keeps (hP.mono rfl) ?_
    | with_reducible refine keep_foldl (fun _ _ _ => ?_) ?_
    | with_reducible refine keep_foldl_snd (fun _ _ _ _ => ?_) ?_
    | exact fun _ => rfl
    | exact fun _ h => h
    | split)

theorem State.lostFlash_keeps {P : State → Prop} (hP : Closed 2641792 P) {e : Entry} {s : State}  (h0 : P s) :
    P (State.lostFlash e s) := by
  unfold State.lostFlash
  repeat' (first
    | with_reducible assumption
    | with_reducible refine State.retireShadow_keeps (hP.mono rfl) ?_
    | with_reducible refine State.onEntry_keeps (hP.mono rfl) ?_
    | with_reducible refine State.bumpGen_keeps (hP.mono rfl) ?_
    | with_reducible refine State.dropCmds_keeps (hP.mono rfl) ?_
    | with_reducible refine State.endFill_keeps (hP.mono rfl) ?_
    | with_reducible refine State.retireUnit_keeps (hP.mono rfl) ?_
    | with_reducible refine State.writeSlots_keeps (hP.mono rfl) ?_
    | with_reducible refine keep_foldl (fun _ _ _ => ?_) ?_
    | with_reducible refine keep_foldl_snd (fun _ _ _ _ => ?_) ?_
    | exact fun _ => rfl
    | exact fun _ h => h
    | split)

theorem State.formatDrive_keeps {P : State → Prop} (hP : Closed 2641792 P) {d : Nat} {s : State}  (h0 : P s) :
    P (State.formatDrive d s) := by
  unfold State.formatDrive
  repeat' (first
    | with_reducible assumption
    | with_reducible refine State.lostFlash_keeps (hP.mono rfl) ?_
    | with_reducible refine State.clearMark_keeps (hP.mono rfl) ?_
    | with_reducible refine State.onDrive_keeps (hP.mono rfl) ?_ ?_
    | with_reducible refine keep_foldl (fun _ _ _ => ?_) ?_
    | with_reducible refine keep_foldl_snd (fun _ _ _ _ => ?_) ?_
    | exact fun _ => rfl
    | exact fun _ h => h
    | (extract_lets +onlyGivenNames x; refine keep_cut (P x) ?_ (fun _ => ?_); unfold x; clear x; rotate_left; clear_value x)
    | (extract_lets +onlyGivenNames x; refine keep_cut (P x.2) ?_ (fun _ => ?_); unfold x; clear x; rotate_left; clear_value x)
    | (extract_lets +onlyGivenNames x; clear_value x)
    | exact fun x hx => keep_fold_any (P := fun c : List Host.Cell => Memory.wf c = true) (fun _ _ h => Memory.wf_cellZero _ _ h) hx
    | split)

theorem execDriveFormat_keeps {P : State → Prop} (hP : Closed 2903984 P) {op : Nat} {s : State}  (h0 : P s) {t0 : State}
    (e : execDriveFormat op s = .next t0) : P t0 := by
  unfold execDriveFormat at e
  cases e
  repeat' (first
    | with_reducible assumption
    | with_reducible refine State.whenUp_keeps (hP.mono rfl) (fun _ _ => ?_) ?_
    | with_reducible refine State.runOp_keeps (hP.mono rfl) (fun _ _ _ => ?_) ?_
    | with_reducible refine State.opFail_keeps (hP.mono rfl) ?_
    | with_reducible refine State.formatDrive_keeps (hP.mono rfl) ?_
    | with_reducible refine State.endOp_keeps (hP.mono rfl) ?_
    | with_reducible refine keep_foldl (fun _ _ _ => ?_) ?_
    | with_reducible refine keep_foldl_snd (fun _ _ _ _ => ?_) ?_
    | exact fun _ => rfl
    | exact fun _ h => h
    | (extract_lets +onlyGivenNames x; refine keep_cut (P x) ?_ (fun _ => ?_); unfold x; clear x; rotate_left; clear_value x)
    | (extract_lets +onlyGivenNames x; refine keep_cut (P x.2) ?_ (fun _ => ?_); unfold x; clear x; rotate_left; clear_value x)
    | (extract_lets +onlyGivenNames x; clear_value x)
    | split)

theorem State.deliver_keeps {P : State → Prop} (hP : Closed 786480 P) {id : Nat} {o : LongOp} {units : Nat} {data : List Byte} {code : Code} {s : State}  (h0 : P s) :
    P (State.deliver id o units data code s) := by
  unfold State.deliver
  repeat' (first
    | with_reducible assumption
    | with_reducible refine State.writeBuffer_keeps (hP.mono rfl) ?_
    | with_reducible refine State.setOp_keeps (hP.mono rfl) ?_
    | with_reducible refine State.endOp_keeps (hP.mono rfl) ?_
    | with_reducible refine keep_foldl (fun _ _ _ => ?_) ?_
    | with_reducible refine keep_foldl_snd (fun _ _ _ _ => ?_) ?_
    | (extract_lets +onlyGivenNames x; refine keep_cut (P x) ?_ (fun _ => ?_); unfold x; clear x; rotate_left; clear_value x)
    | (extract_lets +onlyGivenNames x; refine keep_cut (P x.2) ?_ (fun _ => ?_); unfold x; clear x; rotate_left; clear_value x)
    | (extract_lets +onlyGivenNames x; clear_value x)
    | split)

theorem execLogRead_keeps {P : State → Prop} (hP : Closed 786480 P) {op : Nat} {s : State}  (h0 : P s) {t0 : State}
    (e : execLogRead op s = .next t0) : P t0 := by
  unfold execLogRead at e
  cases e
  repeat' (first
    | with_reducible assumption
    | with_reducible refine State.whenUp_keeps (hP.mono rfl) (fun _ _ => ?_) ?_
    | with_reducible refine State.runOp_keeps (hP.mono rfl) (fun _ _ _ => ?_) ?_
    | with_reducible refine State.deliver_keeps (hP.mono rfl) ?_
    | with_reducible refine keep_foldl (fun _ _ _ => ?_) ?_
    | with_reducible refine keep_foldl_snd (fun _ _ _ _ => ?_) ?_
    | (extract_lets +onlyGivenNames x; refine keep_cut (P x) ?_ (fun _ => ?_); unfold x; clear x; rotate_left; clear_value x)
    | (extract_lets +onlyGivenNames x; refine keep_cut (P x.2) ?_ (fun _ => ?_); unfold x; clear x; rotate_left; clear_value x)
    | (extract_lets +onlyGivenNames x; clear_value x)
    | split)

theorem execCatalogueRead_keeps {P : State → Prop} (hP : Closed 786480 P) {op : Nat} {s : State}  (h0 : P s) {t0 : State}
    (e : execCatalogueRead op s = .next t0) : P t0 := by
  unfold execCatalogueRead at e
  cases e
  repeat' (first
    | with_reducible assumption
    | with_reducible refine State.whenUp_keeps (hP.mono rfl) (fun _ _ => ?_) ?_
    | with_reducible refine State.runOp_keeps (hP.mono rfl) (fun _ _ _ => ?_) ?_
    | with_reducible refine State.deliver_keeps (hP.mono rfl) ?_
    | with_reducible refine keep_foldl (fun _ _ _ => ?_) ?_
    | with_reducible refine keep_foldl_snd (fun _ _ _ _ => ?_) ?_
    | (extract_lets +onlyGivenNames x; refine keep_cut (P x) ?_ (fun _ => ?_); unfold x; clear x; rotate_left; clear_value x)
    | (extract_lets +onlyGivenNames x; refine keep_cut (P x.2) ?_ (fun _ => ?_); unfold x; clear x; rotate_left; clear_value x)
    | (extract_lets +onlyGivenNames x; clear_value x)
    | split)

end Sys2Proof.Machine
end

