-- ==== Sys2Proof/Laws/KeepMisses.lean ====
section
/-! SUPPORT. What the operations of Machine/Misses.lean touch: each keeps every predicate that is closed under the parts named. -/

namespace Sys2Proof.Machine

set_option linter.unusedTactic false
set_option linter.unreachableTactic false
set_option linter.unusedVariables false
set_option linter.tactic.unusedName false

theorem missedOutcome_keeps {P : State → Prop} (hP : Closed 3014655 P) {i : Instr} {s : State} (h0 : P s) {t0 : State}
    (e : missedOutcome i s = .next t0) : P t0 := by
  unfold missedOutcome at e
  split at e
  · exact execAttendFwd_keeps (hP.mono rfl) h0 e
  · exact execAttendBwdOpen_keeps (hP.mono rfl) h0 e
  · exact execAttendBwdAccumulate_keeps (hP.mono rfl) h0 e
  · exact execAttendBwdCollect_keeps (hP.mono rfl) h0 e
  · exact execAttendBwdDiscard_keeps (hP.mono rfl) h0 e
  · exact execLookup_keeps (hP.mono rfl) h0 e
  · exact execPublishPage_keeps (hP.mono rfl) h0 e
  · exact execPublishPrefix_keeps (hP.mono rfl) h0 e
  · exact execPrefixRelease_keeps (hP.mono rfl) h0 e
  · exact execLeaseAcquire_keeps (hP.mono rfl) h0 e
  · exact execLeaseRenew_keeps (hP.mono rfl) h0 e
  · exact execLeaseRelease_keeps (hP.mono rfl) h0 e
  · exact execHandoverTransfer_keeps (hP.mono rfl) h0 e
  · exact execHandoverDiscard_keeps (hP.mono rfl) h0 e
  · exact execHandoverQuery_keeps (hP.mono rfl) h0 e
  · exact execPin_keeps (hP.mono rfl) h0 e
  · exact execUnpin_keeps (hP.mono rfl) h0 e
  · exact execStatOwnQp_keeps (hP.mono rfl) h0 e
  · exact execStatGroup_keeps (hP.mono rfl) h0 e
  · exact execStatNode_keeps (hP.mono rfl) h0 e
  · exact execMapInstall_keeps (hP.mono rfl) h0 e
  · exact execNodeFence_keeps (hP.mono rfl) h0 e
  · exact execNodeUnfence_keeps (hP.mono rfl) h0 e
  · exact execNodeExpel_keeps (hP.mono rfl) h0 e
  · exact execRequesterFence_keeps (hP.mono rfl) h0 e
  · exact execRequesterUnfence_keeps (hP.mono rfl) h0 e
  · exact execPowerShift_keeps (hP.mono rfl) h0 e
  · exact execAdmKeyCreate_keeps (hP.mono rfl) h0 e
  · exact execAdmKeyRemove_keeps (hP.mono rfl) h0 e
  · exact execIsolationSet_keeps (hP.mono rfl) h0 e
  · exact execGroupSet_keeps (hP.mono rfl) h0 e
  · exact execIsolationExport_keeps (hP.mono rfl) h0 e
  · exact execAdmManifestLoad_keeps (hP.mono rfl) h0 e
  · exact execPeerBucketState_keeps (hP.mono rfl) h0 e
  · exact execPeerCompletionMarker_keeps (hP.mono rfl) h0 e
  · exact execPeerReplicaCopy_keeps (hP.mono rfl) h0 e
  · exact execPeerGrant_keeps (hP.mono rfl) h0 e
  · exact execPeerRevoke_keeps (hP.mono rfl) h0 e
  · exact execPeerRelabel_keeps (hP.mono rfl) h0 e
  · exact execPeerDrop_keeps (hP.mono rfl) h0 e
  · exact execHello_keeps (hP.mono rfl) h0 e
  · exact execPeerAcknowledgement_keeps (hP.mono rfl) h0 e
  · exact execRdmaReadRequest_keeps (hP.mono rfl) h0 e
  · exact execRdmaWrite_keeps (hP.mono rfl) h0 e
  · exact execCompareAndSwap_keeps (hP.mono rfl) h0 e
  · exact execFetchAndAdd_keeps (hP.mono rfl) h0 e
  · exact execInvalidOpcode_keeps (hP.mono rfl) h0 e
  · exact execAcknowledgeReceived_keeps (hP.mono rfl) h0 e
  · exact execRnrNakReceived_keeps (hP.mono rfl) h0 e
  · exact execFatalNakReceived_keeps (hP.mono rfl) h0 e
  · exact execCnpReceived_keeps (hP.mono rfl) h0 e
  · cases e; exact h0

theorem State.runMissed_keeps {P : State → Prop} (hP : Closed 3014655 P) {i : Instr} {s : State}  (h0 : P s) :
    P (State.runMissed i s) := by
  unfold State.runMissed
  repeat' (first
    | with_reducible assumption
    | with_reducible refine missedOutcome_keeps (hP.mono rfl) ?_ ‹_›
    | with_reducible refine keep_foldl (fun _ _ _ => ?_) ?_
    | with_reducible refine keep_foldl_snd (fun _ _ _ _ => ?_) ?_
    | exact fun _ => rfl
    | exact fun _ h => h
    | split)

theorem State.catchUp_keeps {P : State → Prop} (hP : Closed 2097152 P) {q : Nat} {c : Ctx} {s : State}  (h0 : P s) :
    P (State.catchUp q c s) := by
  unfold State.catchUp
  repeat' (first
    | with_reducible assumption
    | with_reducible refine State.echoUpdate_keeps (hP.mono rfl) ?_
    | with_reducible refine State.onCtx_keeps (hP.mono rfl) (fun _ h => h) ?_
    | with_reducible refine State.onCtx_keeps (hP.mono rfl) (by intro _ h; try dsimp only; split <;> exact h) ?_
    | with_reducible refine keep_foldl (fun _ _ _ => ?_) ?_
    | with_reducible refine keep_foldl_snd (fun _ _ _ _ => ?_) ?_
    | (extract_lets +onlyGivenNames x; refine keep_cut (P x) ?_ (fun _ => ?_); unfold x; clear x; rotate_left; clear_value x)
    | (extract_lets +onlyGivenNames x; refine keep_cut (P x.2) ?_ (fun _ => ?_); unfold x; clear x; rotate_left; clear_value x)
    | (extract_lets +onlyGivenNames x; clear_value x)
    | split)

theorem State.loadCtx_keeps {P : State → Prop} (hP : Closed 3014655 P) {q : Nat} {c : Ctx} {s : State}  (h0 : P s) :
    P (State.loadCtx q c s) := by
  unfold State.loadCtx
  repeat' (first
    | with_reducible assumption
    | with_reducible refine hP.link rfl _ _ (fun _ _ h => h) ?_
    | with_reducible refine State.onCtx_keeps (hP.mono rfl) (fun _ h => h) ?_
    | with_reducible refine State.onCtx_keeps (hP.mono rfl) (by intro _ h; try dsimp only; split <;> exact h) ?_
    | with_reducible refine State.catchUp_keeps (hP.mono rfl) ?_
    | with_reducible refine State.runMissed_keeps (hP.mono rfl) ?_
    | with_reducible refine keep_foldl (fun _ _ _ => ?_) ?_
    | with_reducible refine keep_foldl_snd (fun _ _ _ _ => ?_) ?_
    | exact fun _ => rfl
    | exact fun _ h => h
    | (extract_lets +onlyGivenNames x; refine keep_cut (P x) ?_ (fun _ => ?_); unfold x; clear x; rotate_left; clear_value x)
    | (extract_lets +onlyGivenNames x; refine keep_cut (P x.2) ?_ (fun _ => ?_); unfold x; clear x; rotate_left; clear_value x)
    | (extract_lets +onlyGivenNames x; clear_value x)
    | split)

theorem execContextLoad_keeps {P : State → Prop} (hP : Closed 3014655 P) {qpn : Nat} {s : State}  (h0 : P s) {t0 : State}
    (e : execContextLoad qpn s = .next t0) : P t0 := by
  unfold execContextLoad at e
  cases e
  repeat' (first
    | with_reducible assumption
    | with_reducible refine hP.link rfl _ _ (fun _ _ h => h) ?_
    | with_reducible refine hP.xpt rfl _ _ ?_
    | with_reducible refine State.whenUp_keeps (hP.mono rfl) (fun _ _ => ?_) ?_
    | with_reducible refine State.roomOnDie_keeps (hP.mono rfl) ?_
    | with_reducible refine State.roomOnDie_some (hP.mono rfl) ?_ ‹_›
    | with_reducible refine State.loadCtx_keeps (hP.mono rfl) ?_
    | with_reducible refine keep_foldl (fun _ _ _ => ?_) ?_
    | with_reducible refine keep_foldl_snd (fun _ _ _ _ => ?_) ?_
    | exact fun _ => rfl
    | exact fun _ h => h
    | split)

end Sys2Proof.Machine
end

