-- ==== Sys2Proof/Laws/KeepStartup.lean ====
section
/-! SUPPORT. What the operations of Machine/Startup.lean touch: each keeps every predicate that is closed under the parts named. -/

namespace Sys2Proof.Machine

set_option linter.unusedTactic false
set_option linter.unreachableTactic false
set_option linter.unusedVariables false
set_option linter.tactic.unusedName false

theorem State.freeAccSpans_keeps {P : State → Prop} (hP : Closed 512 P) {s : State}  (h0 : P s) :
    P (State.freeAccSpans s) := by
  unfold State.freeAccSpans
  repeat' (first
    | with_reducible assumption
    | with_reducible refine hP.mem rfl _ _ ?_ ?_ ?_
    | with_reducible refine keep_foldl (fun _ _ _ => ?_) ?_
    | with_reducible refine keep_foldl_snd (fun _ _ _ _ => ?_) ?_
    | exact fun _ => rfl
    | exact fun _ h => h
    | split)

theorem State.dropVolatile_keeps {P : State → Prop} (hP : Closed 1048576 P) {s : State} (h0 : P s) : P (State.dropVolatile s) := hP.drop rfl s h0

theorem State.startUp_keeps {P : State → Prop} (hP : Closed 524309 P) {s : State}  (h0 : P s) :
    P (State.startUp s) := by
  unfold State.startUp
  repeat' (first
    | with_reducible assumption
    | with_reducible refine hP.aon rfl _ _ ?_
    | with_reducible refine State.openEpisode_keeps (hP.mono rfl) ?_
    | with_reducible refine keep_foldl (fun _ _ _ => ?_) ?_
    | with_reducible refine keep_foldl_snd (fun _ _ _ _ => ?_) ?_
    | (extract_lets +onlyGivenNames x; refine keep_cut (P x) ?_ (fun _ => ?_); unfold x; clear x; rotate_left; clear_value x)
    | (extract_lets +onlyGivenNames x; refine keep_cut (P x.2) ?_ (fun _ => ?_); unfold x; clear x; rotate_left; clear_value x)
    | (extract_lets +onlyGivenNames x; clear_value x)
    | split)

theorem execResetAssert_keeps {P : State → Prop} (hP : Closed 1048577 P) {s : State}  (h0 : P s) {t0 : State}
    (e : execResetAssert s = .next t0) : P t0 := by
  unfold execResetAssert at e
  cases e
  repeat' (first
    | with_reducible assumption
    | with_reducible refine hP.aon rfl _ _ ?_
    | with_reducible refine State.dropVolatile_keeps (hP.mono rfl) ?_
    | with_reducible refine keep_foldl (fun _ _ _ => ?_) ?_
    | with_reducible refine keep_foldl_snd (fun _ _ _ _ => ?_) ?_
    | (extract_lets +onlyGivenNames x; refine keep_cut (P x) ?_ (fun _ => ?_); unfold x; clear x; rotate_left; clear_value x)
    | (extract_lets +onlyGivenNames x; refine keep_cut (P x.2) ?_ (fun _ => ?_); unfold x; clear x; rotate_left; clear_value x)
    | (extract_lets +onlyGivenNames x; clear_value x)
    | split)

theorem execResetRelease_keeps {P : State → Prop} (hP : Closed 524309 P) {s : State}  (h0 : P s) {t0 : State}
    (e : execResetRelease s = .next t0) : P t0 := by
  unfold execResetRelease at e
  cases e
  repeat' (first
    | with_reducible assumption
    | with_reducible refine hP.aon rfl _ _ ?_
    | with_reducible refine State.startUp_keeps (hP.mono rfl) ?_
    | with_reducible refine keep_foldl (fun _ _ _ => ?_) ?_
    | with_reducible refine keep_foldl_snd (fun _ _ _ _ => ?_) ?_
    | (extract_lets +onlyGivenNames x; refine keep_cut (P x) ?_ (fun _ => ?_); unfold x; clear x; rotate_left; clear_value x)
    | (extract_lets +onlyGivenNames x; refine keep_cut (P x.2) ?_ (fun _ => ?_); unfold x; clear x; rotate_left; clear_value x)
    | (extract_lets +onlyGivenNames x; clear_value x)
    | split)

theorem State.losePower_keeps {P : State → Prop} (hP : Closed 1049601 P) {s : State}  (h0 : P s) :
    P (State.losePower s) := by
  unfold State.losePower
  repeat' (first
    | with_reducible assumption
    | with_reducible refine hP.cells rfl _ _ (fun m hm => ?_) ?_
    | with_reducible refine hP.aon rfl _ _ ?_
    | with_reducible refine State.dropVolatile_keeps (hP.mono rfl) ?_
    | with_reducible refine keep_foldl (fun _ _ _ => ?_) ?_
    | with_reducible refine keep_foldl_snd (fun _ _ _ _ => ?_) ?_
    | exact fun _ => rfl
    | exact fun _ h => h
    | (extract_lets +onlyGivenNames x; refine keep_cut (P x) ?_ (fun _ => ?_); unfold x; clear x; rotate_left; clear_value x)
    | (extract_lets +onlyGivenNames x; refine keep_cut (P x.2) ?_ (fun _ => ?_); unfold x; clear x; rotate_left; clear_value x)
    | (extract_lets +onlyGivenNames x; clear_value x)
    | (rw [Mem.ok_iff] at *; exact ⟨rfl, ‹_ ∧ _›.2⟩)
    | split)

theorem execSupplyLoss_keeps {P : State → Prop} (hP : Closed 1049601 P) {vddAon : Bool} {s : State}  (h0 : P s) {t0 : State}
    (e : execSupplyLoss vddAon s = .next t0) : P t0 := by
  unfold execSupplyLoss at e
  cases e
  repeat' (first
    | with_reducible assumption
    | with_reducible refine hP.aon rfl _ _ ?_
    | with_reducible refine State.losePower_keeps (hP.mono rfl) ?_
    | with_reducible refine keep_foldl (fun _ _ _ => ?_) ?_
    | with_reducible refine keep_foldl_snd (fun _ _ _ _ => ?_) ?_
    | exact fun _ => rfl
    | exact fun _ h => h
    | split)

theorem execRefclk100Loss_keeps {P : State → Prop} (hP : Closed 1048577 P) {s : State}  (h0 : P s) {t0 : State}
    (e : execRefclk100Loss s = .next t0) : P t0 := by
  unfold execRefclk100Loss at e
  cases e
  repeat' (first
    | with_reducible assumption
    | with_reducible refine hP.aon rfl _ _ ?_
    | with_reducible refine State.dropVolatile_keeps (hP.mono rfl) ?_
    | with_reducible refine keep_foldl (fun _ _ _ => ?_) ?_
    | with_reducible refine keep_foldl_snd (fun _ _ _ _ => ?_) ?_
    | (extract_lets +onlyGivenNames x; refine keep_cut (P x) ?_ (fun _ => ?_); unfold x; clear x; rotate_left; clear_value x)
    | (extract_lets +onlyGivenNames x; refine keep_cut (P x.2) ?_ (fun _ => ?_); unfold x; clear x; rotate_left; clear_value x)
    | (extract_lets +onlyGivenNames x; clear_value x)
    | split)

theorem execRefclk156Loss_keeps {P : State → Prop} (hP : Closed 16385 P) {s : State}  (h0 : P s) {t0 : State}
    (e : execRefclk156Loss s = .next t0) : P t0 := by
  unfold execRefclk156Loss at e
  cases e
  repeat' (first
    | with_reducible assumption
    | with_reducible refine hP.aon rfl _ _ ?_
    | with_reducible refine State.portDown_keeps (hP.mono rfl) ?_
    | with_reducible refine keep_foldl (fun _ _ _ => ?_) ?_
    | with_reducible refine keep_foldl_snd (fun _ _ _ _ => ?_) ?_
    | (extract_lets +onlyGivenNames x; refine keep_cut (P x) ?_ (fun _ => ?_); unfold x; clear x; rotate_left; clear_value x)
    | (extract_lets +onlyGivenNames x; refine keep_cut (P x.2) ?_ (fun _ => ?_); unfold x; clear x; rotate_left; clear_value x)
    | (extract_lets +onlyGivenNames x; clear_value x)
    | split)

theorem execRefclkReturn_keeps {P : State → Prop} (hP : Closed 2681557 P) {clk156 : Bool} {s : State}  (h0 : P s) {t0 : State}
    (e : execRefclkReturn clk156 s = .next t0) : P t0 := by
  unfold execRefclkReturn at e
  cases e
  repeat' (first
    | with_reducible assumption
    | with_reducible refine hP.aon rfl _ _ ?_
    | with_reducible refine State.retrainPort_keeps (hP.mono rfl) ?_
    | with_reducible refine State.startUp_keeps (hP.mono rfl) ?_
    | with_reducible refine keep_foldl (fun _ _ _ => ?_) ?_
    | with_reducible refine keep_foldl_snd (fun _ _ _ _ => ?_) ?_
    | exact fun _ => rfl
    | exact fun _ h => h
    | (extract_lets +onlyGivenNames x; refine keep_cut (P x) ?_ (fun _ => ?_); unfold x; clear x; rotate_left; clear_value x)
    | (extract_lets +onlyGivenNames x; refine keep_cut (P x.2) ?_ (fun _ => ?_); unfold x; clear x; rotate_left; clear_value x)
    | (extract_lets +onlyGivenNames x; clear_value x)
    | split)

theorem State.selfReset_keeps {P : State → Prop} (hP : Closed 1572885 P) {s : State}  (h0 : P s) :
    P (State.selfReset s) := by
  unfold State.selfReset
  repeat' (first
    | with_reducible assumption
    | with_reducible refine State.dropVolatile_keeps (hP.mono rfl) ?_
    | with_reducible refine State.startUp_keeps (hP.mono rfl) ?_
    | with_reducible refine keep_foldl (fun _ _ _ => ?_) ?_
    | with_reducible refine keep_foldl_snd (fun _ _ _ _ => ?_) ?_
    | split)

theorem execRecoveryFlashWritten_keeps {P : State → Prop} (hP : Closed 1572893 P) {s : State}  (h0 : P s) {t0 : State}
    (e : execRecoveryFlashWritten s = .next t0) : P t0 := by
  unfold execRecoveryFlashWritten at e
  cases e
  repeat' (first
    | with_reducible assumption
    | with_reducible refine hP.sec rfl _ _ ?_
    | with_reducible refine State.whenUp_keeps (hP.mono rfl) (fun _ _ => ?_) ?_
    | with_reducible refine State.selfReset_keeps (hP.mono rfl) ?_
    | with_reducible refine keep_foldl (fun _ _ _ => ?_) ?_
    | with_reducible refine keep_foldl_snd (fun _ _ _ _ => ?_) ?_
    | split)

theorem State.recover_keeps {P : State → Prop} (hP : Closed 9 P) {reason : Nat} {s : State}  (h0 : P s) :
    P (State.recover reason s) := by
  unfold State.recover
  repeat' (first
    | with_reducible assumption
    | with_reducible refine hP.aon rfl _ _ ?_
    | with_reducible refine hP.sec rfl _ _ ?_
    | with_reducible refine keep_foldl (fun _ _ _ => ?_) ?_
    | with_reducible refine keep_foldl_snd (fun _ _ _ _ => ?_) ?_
    | split)

theorem State.authenticate_keeps {P : State → Prop} (hP : Closed 9 P) {answered : Bool} {s : State}  (h0 : P s) :
    P (State.authenticate answered s) := by
  unfold State.authenticate
  repeat' (first
    | with_reducible assumption
    | with_reducible refine hP.aon rfl _ _ ?_
    | with_reducible refine hP.sec rfl _ _ ?_
    | with_reducible refine State.recover_keeps (hP.mono rfl) ?_
    | with_reducible refine keep_foldl (fun _ _ _ => ?_) ?_
    | with_reducible refine keep_foldl_snd (fun _ _ _ _ => ?_) ?_
    | split)

theorem execFirmwareAuthentication_keeps {P : State → Prop} (hP : Closed 9 P) {answered : Bool} {s : State}  (h0 : P s) {t0 : State}
    (e : execFirmwareAuthentication answered s = .next t0) : P t0 := by
  unfold execFirmwareAuthentication at e
  cases e
  repeat' (first
    | with_reducible assumption
    | with_reducible refine State.whenUp_keeps (hP.mono rfl) (fun _ _ => ?_) ?_
    | with_reducible refine State.authenticate_keeps (hP.mono rfl) ?_
    | with_reducible refine keep_foldl (fun _ _ _ => ?_) ?_
    | with_reducible refine keep_foldl_snd (fun _ _ _ _ => ?_) ?_
    | split)

theorem State.logMissing_keeps {P : State → Prop} (hP : Closed 524336 P) {s : State}  (h0 : P s) :
    P (State.logMissing s) := by
  unfold State.logMissing
  repeat' (first
    | with_reducible assumption
    | with_reducible refine State.logEvent_keeps (hP.mono rfl) ?_
    | with_reducible refine keep_foldl (fun _ _ _ => ?_) ?_
    | with_reducible refine keep_foldl_snd (fun _ _ _ _ => ?_) ?_
    | split)

theorem State.dropStacks_keeps {P : State → Prop} (hP : Closed 2102342 P) {s : State}  (h0 : P s) :
    P (State.dropStacks s) := by
  unfold State.dropStacks
  repeat' (first
    | with_reducible assumption
    | with_reducible refine hP.cells rfl _ _ (fun m hm => ?_) ?_
    | with_reducible refine hP.ras rfl _ _ ?_
    | with_reducible refine hP.pwr rfl _ _ ?_
    | with_reducible refine hP.sch rfl _ _ ?_
    | with_reducible refine hP.locus rfl _ _ ?_
    | with_reducible refine hP.link rfl _ _ (fun _ _ h => h) ?_
    | with_reducible refine keep_foldl (fun _ _ _ => ?_) ?_
    | with_reducible refine keep_foldl_snd (fun _ _ _ _ => ?_) ?_
    | exact fun _ => rfl
    | exact fun _ h => h
    | (extract_lets +onlyGivenNames x; refine keep_cut (P x) ?_ (fun _ => ?_); unfold x; clear x; rotate_left; clear_value x)
    | (extract_lets +onlyGivenNames x; refine keep_cut (P x.2) ?_ (fun _ => ?_); unfold x; clear x; rotate_left; clear_value x)
    | (extract_lets +onlyGivenNames x; clear_value x)
    | (rw [Mem.ok_iff] at *; exact ⟨rfl, ‹_ ∧ _›.2⟩)
    | split)

theorem State.fromImage_keeps {P : State → Prop} (hP : Closed 2104423 P) {i : PersistImage} {s : State}  (h0 : P s) :
    P (State.fromImage i s) := by
  unfold State.fromImage
  repeat' (first
    | with_reducible assumption
    | with_reducible refine hP.aon rfl _ _ ?_
    | with_reducible refine hP.log rfl _ _ ?_
    | with_reducible refine hP.sch rfl _ _ ?_
    | with_reducible refine hP.home rfl _ _ ?_
    | with_reducible refine hP.link rfl _ _ (fun _ _ h => h) ?_
    | with_reducible refine State.dropStacks_keeps (hP.mono rfl) ?_
    | with_reducible refine State.stamp_keeps (hP.mono rfl) ?_
    | with_reducible refine keep_foldl (fun _ _ _ => ?_) ?_
    | with_reducible refine keep_foldl_snd (fun _ _ _ _ => ?_) ?_
    | exact fun _ => rfl
    | exact fun _ h => h
    | (extract_lets +onlyGivenNames x; refine keep_cut (P x) ?_ (fun _ => ?_); unfold x; clear x; rotate_left; clear_value x)
    | (extract_lets +onlyGivenNames x; refine keep_cut (P x.2) ?_ (fun _ => ?_); unfold x; clear x; rotate_left; clear_value x)
    | (extract_lets +onlyGivenNames x; clear_value x)
    | split)

theorem State.fresh_keeps {P : State → Prop} (hP : Closed 2366567 P) {s : State}  (h0 : P s) :
    P (State.fresh s) := by
  unfold State.fresh
  repeat' (first
    | with_reducible assumption
    | with_reducible refine hP.aon rfl _ _ ?_
    | with_reducible refine hP.log rfl _ _ ?_
    | with_reducible refine hP.sch rfl _ _ ?_
    | with_reducible refine hP.home rfl _ _ ?_
    | with_reducible refine hP.free rfl _ ?_
    | with_reducible refine hP.link rfl _ _ (fun _ _ h => h) ?_
    | with_reducible refine State.dropStacks_keeps (hP.mono rfl) ?_
    | with_reducible refine keep_foldl (fun _ _ _ => ?_) ?_
    | with_reducible refine keep_foldl_snd (fun _ _ _ _ => ?_) ?_
    | exact fun _ => rfl
    | exact fun _ h => h
    | (extract_lets +onlyGivenNames x; refine keep_cut (P x) ?_ (fun _ => ?_); unfold x; clear x; rotate_left; clear_value x)
    | (extract_lets +onlyGivenNames x; refine keep_cut (P x.2) ?_ (fun _ => ?_); unfold x; clear x; rotate_left; clear_value x)
    | (extract_lets +onlyGivenNames x; clear_value x)
    | split)

theorem State.fromStacks_keeps {P : State → Prop} (hP : Closed 514 P) {noRepair : List (Nat × Nat)} {s : State}  (h0 : P s) :
    P (State.fromStacks noRepair s) := by
  unfold State.fromStacks
  repeat' (first
    | with_reducible assumption
    | with_reducible refine hP.ras rfl _ _ ?_
    | with_reducible refine hP.mem rfl _ _ ?_ ?_ ?_
    | with_reducible refine State.freeAccSpans_keeps (hP.mono rfl) ?_
    | with_reducible refine keep_foldl (fun _ _ _ => ?_) ?_
    | with_reducible refine keep_foldl_snd (fun _ _ _ _ => ?_) ?_
    | exact fun _ => rfl
    | exact fun _ h => h
    | (extract_lets +onlyGivenNames x; refine keep_cut (P x) ?_ (fun _ => ?_); unfold x; clear x; rotate_left; clear_value x)
    | (extract_lets +onlyGivenNames x; refine keep_cut (P x.2) ?_ (fun _ => ?_); unfold x; clear x; rotate_left; clear_value x)
    | (extract_lets +onlyGivenNames x; clear_value x)
    | split)

theorem State.chooseSource_keeps {P : State → Prop} (hP : Closed 2891383 P) {r : StartRead} {s : State}  (h0 : P s) :
    P (State.chooseSource r s) := by
  unfold State.chooseSource
  repeat' (first
    | with_reducible assumption
    | with_reducible refine State.fromStacks_keeps (hP.mono rfl) ?_
    | with_reducible refine State.fromImage_keeps (hP.mono rfl) ?_
    | with_reducible refine State.logMissing_keeps (hP.mono rfl) ?_
    | with_reducible refine State.fresh_keeps (hP.mono rfl) ?_
    | with_reducible refine keep_foldl (fun _ _ _ => ?_) ?_
    | with_reducible refine keep_foldl_snd (fun _ _ _ _ => ?_) ?_
    | exact fun _ => rfl
    | exact fun _ h => h
    | split)

theorem Tbl.set_mem {α : Type} {t : Tbl α} {k : Nat} {v : α} {x : Nat × α} (h : x ∈ t.set k v) : x ∈ t ∨ x = (k, v) := by
  induction t with
  | nil => simp [Tbl.set] at h; exact .inr h
  | cons p t ih =>
    simp only [Tbl.set] at h
    split at h
    · rcases List.mem_cons.mp h with h | h
      · exact .inr h
      · exact .inl h
    · split at h
      · rcases List.mem_cons.mp h with h | h
        · exact .inr h
        · exact .inl (List.mem_cons_of_mem _ h)
      · rcases List.mem_cons.mp h with h | h
        · exact .inl (h ▸ List.mem_cons_self)
        · rcases ih h with h | h
          · exact .inl (List.mem_cons_of_mem _ h)
          · exact .inr h

theorem Tbl.get?_mem {α : Type} {t : Tbl α} {k : Nat} {v : α} (h : t.get? k = some v) : (k, v) ∈ t := by
  induction t with
  | nil => cases h
  | cons p t ih =>
    obtain ⟨k', v'⟩ := p
    simp only [Tbl.get?] at h
    split at h
    · injection h with h
      subst h
      subst k'
      exact List.mem_cons_self
    · exact List.mem_cons_of_mem _ (ih h)

theorem Mem.ok_update {m : Mem} {d : Nat} {f : Drive → Drive} (k : ∀ x : Drive, Memory.wf x.cells = true → Memory.wf (f x).cells = true)
    (h : m.ok = true) : Mem.ok { m with drives := m.drives.update d {} f } = true := by
  rw [Mem.ok_iff] at *
  refine ⟨h.1, fun x hx => ?_⟩
  rcases Tbl.set_mem hx with hx | rfl
  · exact h.2 x hx
  · refine k _ ?_
    unfold Tbl.getD
    cases e : Tbl.get? m.drives d with
    | none => rfl
    | some v => exact h.2 _ (Tbl.get?_mem e)

theorem State.bringDrive_keeps {P : State → Prop} (hP : Closed 524848 P) {f : DriveFound} {d : Nat} {s : State}  (h0 : P s) :
    P (State.bringDrive f d s) := by
  unfold State.bringDrive
  repeat' (first
    | with_reducible assumption
    | with_reducible refine hP.mem rfl _ _ ?_ ?_ ?_
    | with_reducible refine State.logEvent_keeps (hP.mono rfl) ?_
    | with_reducible refine keep_foldl (fun _ _ _ => ?_) ?_
    | with_reducible refine keep_foldl_snd (fun _ _ _ _ => ?_) ?_
    | exact fun _ => rfl
    | exact fun _ h => h
    | (extract_lets +onlyGivenNames x; refine keep_cut (P x) ?_ (fun _ => ?_); unfold x; clear x; rotate_left; clear_value x)
    | (extract_lets +onlyGivenNames x; refine keep_cut (P x.2) ?_ (fun _ => ?_); unfold x; clear x; rotate_left; clear_value x)
    | (extract_lets +onlyGivenNames x; clear_value x)
    | exact fun m hm => Mem.ok_update (fun x hx => by dsimp only; split <;> first | exact hx | (split <;> rfl)) hm
    | split)

theorem State.bringDrives_keeps {P : State → Prop} (hP : Closed 786992 P) {l : List DriveFound} {s : State}  (h0 : P s) :
    P (State.bringDrives l s) := by
  unfold State.bringDrives
  repeat' (first
    | with_reducible assumption
    | with_reducible refine hP.free rfl _ ?_
    | with_reducible refine State.bringDrive_keeps (hP.mono rfl) ?_
    | with_reducible refine State.capDrives_keeps (hP.mono rfl) ?_
    | with_reducible refine keep_foldl (fun _ _ _ => ?_) ?_
    | with_reducible refine keep_foldl_snd (fun _ _ _ _ => ?_) ?_
    | exact fun _ => rfl
    | exact fun _ h => h
    | split)

theorem State.emptyQuarter_keeps {P : State → Prop} (hP : Closed 526848 P) {q : Nat} {s : State}  (h0 : P s) :
    P (State.emptyQuarter q s) := by
  unfold State.emptyQuarter
  repeat' (first
    | with_reducible assumption
    | with_reducible refine hP.home rfl _ _ ?_
    | with_reducible refine State.clearMark_keeps (hP.mono rfl) ?_
    | with_reducible refine keep_foldl (fun _ _ _ => ?_) ?_
    | with_reducible refine keep_foldl_snd (fun _ _ _ _ => ?_) ?_
    | exact fun _ => rfl
    | exact fun _ h => h
    | split)

theorem State.trainStacks_keeps {P : State → Prop} (hP : Closed 2949111 P) {trained : List Bool} {r : StartRead} {s : State}  (h0 : P s) :
    P (State.trainStacks trained r s) := by
  unfold State.trainStacks
  repeat' (first
    | with_reducible assumption
    | with_reducible refine hP.aon rfl _ _ ?_
    | with_reducible refine hP.ras rfl _ _ ?_
    | with_reducible refine State.bringDrives_keeps (hP.mono rfl) ?_
    | with_reducible refine State.chooseSource_keeps (hP.mono rfl) ?_
    | with_reducible refine State.fenceRegion_keeps (hP.mono rfl) ?_
    | with_reducible refine State.emptyQuarter_keeps (hP.mono rfl) ?_
    | with_reducible refine keep_foldl (fun _ _ _ => ?_) ?_
    | with_reducible refine keep_foldl_snd (fun _ _ _ _ => ?_) ?_
    | exact fun _ => rfl
    | exact fun _ h => h
    | (extract_lets +onlyGivenNames x; refine keep_cut (P x) ?_ (fun _ => ?_); unfold x; clear x; rotate_left; clear_value x)
    | (extract_lets +onlyGivenNames x; refine keep_cut (P x.2) ?_ (fun _ => ?_); unfold x; clear x; rotate_left; clear_value x)
    | (extract_lets +onlyGivenNames x; clear_value x)
    | split)

theorem execStackTrainingDone_keeps {P : State → Prop} (hP : Closed 2949111 P) {trained : List Bool} {r : StartRead} {s : State}  (h0 : P s) {t0 : State}
    (e : execStackTrainingDone trained r s = .next t0) : P t0 := by
  unfold execStackTrainingDone at e
  cases e
  repeat' (first
    | with_reducible assumption
    | with_reducible refine State.whenUp_keeps (hP.mono rfl) (fun _ _ => ?_) ?_
    | with_reducible refine State.trainStacks_keeps (hP.mono rfl) ?_
    | with_reducible refine keep_foldl (fun _ _ _ => ?_) ?_
    | with_reducible refine keep_foldl_snd (fun _ _ _ _ => ?_) ?_
    | exact fun _ => rfl
    | exact fun _ h => h
    | split)

theorem State.restartSweep_keeps {P : State → Prop} (hP : Closed 2641792 P) {q : Nat} {s : State}  (h0 : P s) :
    P (State.restartSweep q s) := by
  unfold State.restartSweep
  repeat' (first
    | with_reducible assumption
    | with_reducible refine State.applyRestart_keeps (hP.mono rfl) ?_
    | with_reducible refine State.freeExtent_keeps (hP.mono rfl) ?_
    | with_reducible refine keep_foldl (fun _ _ _ => ?_) ?_
    | with_reducible refine keep_foldl_snd (fun _ _ _ _ => ?_) ?_
    | exact fun _ => rfl
    | exact fun _ h => h
    | (extract_lets +onlyGivenNames x; refine keep_cut (P x) ?_ (fun _ => ?_); unfold x; clear x; rotate_left; clear_value x)
    | (extract_lets +onlyGivenNames x; refine keep_cut (P x.2) ?_ (fun _ => ?_); unfold x; clear x; rotate_left; clear_value x)
    | (extract_lets +onlyGivenNames x; clear_value x)
    | split)

theorem execRestartSweep_keeps {P : State → Prop} (hP : Closed 2641792 P) {quarter : Fin 4} {s : State}  (h0 : P s) {t0 : State}
    (e : execRestartSweep quarter s = .next t0) : P t0 := by
  unfold execRestartSweep at e
  cases e
  repeat' (first
    | with_reducible assumption
    | with_reducible refine State.whenUp_keeps (hP.mono rfl) (fun _ _ => ?_) ?_
    | with_reducible refine State.restartSweep_keeps (hP.mono rfl) ?_
    | with_reducible refine keep_foldl (fun _ _ _ => ?_) ?_
    | with_reducible refine keep_foldl_snd (fun _ _ _ _ => ?_) ?_
    | exact fun _ => rfl
    | exact fun _ h => h
    | split)

theorem execRampStep_keeps {P : State → Prop} (hP : Closed 16384 P) {group : Fin 4096} {s : State}  (h0 : P s) {t0 : State}
    (e : execRampStep group s = .next t0) : P t0 := by
  unfold execRampStep at e
  cases e
  repeat' (first
    | with_reducible assumption
    | with_reducible refine State.whenUp_keeps (hP.mono rfl) (fun _ _ => ?_) ?_
    | with_reducible refine State.refillGroup_keeps (hP.mono rfl) ?_
    | with_reducible refine keep_foldl (fun _ _ _ => ?_) ?_
    | with_reducible refine keep_foldl_snd (fun _ _ _ _ => ?_) ?_
    | split)

theorem State.sweepSpilled_keeps {P : State → Prop} (hP : Closed 2097152 P) {q : Nat} {s : State}  (h0 : P s) :
    P (State.sweepSpilled q s) := by
  unfold State.sweepSpilled
  repeat' (first
    | with_reducible assumption
    | with_reducible refine State.echoUpdate_keeps (hP.mono rfl) ?_
    | with_reducible refine keep_foldl (fun _ _ _ => ?_) ?_
    | with_reducible refine keep_foldl_snd (fun _ _ _ _ => ?_) ?_
    | split)

theorem execSpillSweep_keeps {P : State → Prop} (hP : Closed 2097152 P) {s : State}  (h0 : P s) {t0 : State}
    (e : execSpillSweep s = .next t0) : P t0 := by
  unfold execSpillSweep at e
  cases e
  repeat' (first
    | with_reducible assumption
    | with_reducible refine State.whenUp_keeps (hP.mono rfl) (fun _ _ => ?_) ?_
    | with_reducible refine State.sweepSpilled_keeps (hP.mono rfl) ?_
    | with_reducible refine keep_foldl (fun _ _ _ => ?_) ?_
    | with_reducible refine keep_foldl_snd (fun _ _ _ _ => ?_) ?_
    | split)

theorem execVertexLoss_keeps {P : State → Prop} (hP : Closed 524337 P) {securityEngine : Bool} {s : State}  (h0 : P s) {t0 : State}
    (e : execVertexLoss securityEngine s = .next t0) : P t0 := by
  unfold execVertexLoss at e
  cases e
  repeat' (first
    | with_reducible assumption
    | with_reducible refine hP.aon rfl _ _ ?_
    | with_reducible refine State.whenUp_keeps (hP.mono rfl) (fun _ _ => ?_) ?_
    | with_reducible refine State.selfFence_keeps (hP.mono rfl) ?_
    | with_reducible refine keep_foldl (fun _ _ _ => ?_) ?_
    | with_reducible refine keep_foldl_snd (fun _ _ _ _ => ?_) ?_
    | split)

theorem execCoolantRestart_keeps {P : State → Prop} (hP : Closed 2948095 P) {s : State}  (h0 : P s) {t0 : State}
    (e : execCoolantRestart s = .next t0) : P t0 := by
  unfold execCoolantRestart at e
  cases e
  repeat' (first
    | with_reducible assumption
    | with_reducible refine hP.aon rfl _ _ ?_
    | with_reducible refine State.whenUp_keeps (hP.mono rfl) (fun _ _ => ?_) ?_
    | with_reducible refine State.retrainPort_keeps (hP.mono rfl) ?_
    | with_reducible refine State.rampAll_keeps (hP.mono rfl) ?_
    | with_reducible refine State.closeEpisode_keeps (hP.mono rfl) ?_
    | with_reducible refine State.releaseHeld_keeps (hP.mono rfl) ?_
    | with_reducible refine State.placeHeld_keeps (hP.mono rfl) ?_
    | with_reducible refine keep_foldl (fun _ _ _ => ?_) ?_
    | with_reducible refine keep_foldl_snd (fun _ _ _ _ => ?_) ?_
    | exact fun _ => rfl
    | exact fun _ h => h
    | (extract_lets +onlyGivenNames x; refine keep_cut (P x) ?_ (fun _ => ?_); unfold x; clear x; rotate_left; clear_value x)
    | (extract_lets +onlyGivenNames x; refine keep_cut (P x.2) ?_ (fun _ => ?_); unfold x; clear x; rotate_left; clear_value x)
    | (extract_lets +onlyGivenNames x; clear_value x)
    | split)

theorem execApexRestartDone_keeps {P : State → Prop} (hP : Closed 2939903 P) {s : State}  (h0 : P s) {t0 : State}
    (e : execApexRestartDone s = .next t0) : P t0 := by
  unfold execApexRestartDone at e
  cases e
  repeat' (first
    | with_reducible assumption
    | with_reducible refine hP.pwr rfl _ _ ?_
    | with_reducible refine State.whenUp_keeps (hP.mono rfl) (fun _ _ => ?_) ?_
    | with_reducible refine State.closeEpisode_keeps (hP.mono rfl) ?_
    | with_reducible refine State.releaseHeld_keeps (hP.mono rfl) ?_
    | with_reducible refine keep_foldl (fun _ _ _ => ?_) ?_
    | with_reducible refine keep_foldl_snd (fun _ _ _ _ => ?_) ?_
    | exact fun _ => rfl
    | exact fun _ h => h
    | split)

end Sys2Proof.Machine
end

