-- ==== Sys2Proof/Laws/KeepTime.lean ====
section
/-! SUPPORT. What the operations of Machine/Time.lean touch: each keeps every predicate that is closed under the parts named. -/

namespace Sys2Proof.Machine

set_option linter.unusedTactic false
set_option linter.unreachableTactic false
set_option linter.unusedVariables false
set_option linter.tactic.unusedName false

theorem State.accounts_keeps {P : State → Prop} (hP : Closed 2 P) {s : State}  (h0 : P s) :
    P (State.accounts s) := by
  unfold State.accounts
  repeat' (first
    | with_reducible assumption
    | with_reducible refine hP.ras rfl _ _ ?_
    | with_reducible refine keep_foldl (fun _ _ _ => ?_) ?_
    | with_reducible refine keep_foldl_snd (fun _ _ _ _ => ?_) ?_
    | split)

theorem State.stamp_keeps {P : State → Prop} (hP : Closed 1 P) {s : State}  (h0 : P s) :
    P (State.stamp s) := by
  unfold State.stamp
  repeat' (first
    | with_reducible assumption
    | with_reducible refine hP.aon rfl _ _ ?_
    | with_reducible refine keep_foldl (fun _ _ _ => ?_) ?_
    | with_reducible refine keep_foldl_snd (fun _ _ _ _ => ?_) ?_
    | split)

theorem State.pass_keeps {P : State → Prop} (hP : Closed 541107 P) {s : State}  (h0 : P s) :
    P (State.pass s) := by
  unfold State.pass
  repeat' (first
    | with_reducible assumption
    | with_reducible refine State.meter_keeps (hP.mono rfl) ?_
    | with_reducible refine State.accounts_keeps (hP.mono rfl) ?_
    | with_reducible refine State.arbTick_keeps (hP.mono rfl) ?_
    | with_reducible refine State.latticeTick_keeps (hP.mono rfl) ?_
    | with_reducible refine State.stamp_keeps (hP.mono rfl) ?_
    | with_reducible refine keep_foldl (fun _ _ _ => ?_) ?_
    | with_reducible refine keep_foldl_snd (fun _ _ _ _ => ?_) ?_
    | split)

end Sys2Proof.Machine
end

