-- ==== Sys2Proof/Laws/Frames.lean ====
section
/-! SUPPORT. Predicates that are closed: the canonical form of memory, the queue of waiting commands, and, for each part, "as it
was". With the files Keep*.lean each gives an invariant or a frame of every operation that does not touch the part. -/

namespace Sys2Proof.Machine

/-- A reset of the islands keeps the canonical form. -/
theorem Mem.bringUp_ok {m : Mem} (h : m.ok = true) : m.bringUp.ok = true := by
  rw [Mem.ok_iff] at *
  refine ⟨h.1, fun d hd => ?_⟩
  obtain ⟨x, hx, rfl⟩ := List.mem_map.mp hd
  exact h.2 x hx

/-- Every update keeps the canonical form of memory. -/
theorem memOk_closed (m : Nat) : Closed m State.MemOk where
  aon _ _ _ h := h
  ras _ _ _ h := h
  pwr _ _ _ h := h
  sec _ _ _ h := h
  host _ _ _ h := h
  log _ _ _ h := h
  sch _ _ _ h := h
  eng _ _ _ h := h
  nbu _ _ _ _ h := h
  mem _ _ _ _ k h := k _ h
  cells _ _ _ k h := k _ h
  home _ _ _ h := h
  locus _ _ _ h := h
  xpt _ _ _ h := h
  eth _ _ _ h := h
  reqs _ _ _ _ h := h
  nextReq _ _ _ h := h
  image _ _ _ h := h
  free _ _ h := h
  emitted _ _ _ h := h
  drop _ _ h := Mem.bringUp_ok h
  link _ _ _ _ h := h

/-- No update touches the queue of waiting commands. -/
theorem pending_closed (m : Nat) (q : List Instr) : Closed m (fun t => t.pending = q) where
  aon _ _ _ h := h
  ras _ _ _ h := h
  pwr _ _ _ h := h
  sec _ _ _ h := h
  host _ _ _ h := h
  log _ _ _ h := h
  sch _ _ _ h := h
  eng _ _ _ h := h
  nbu _ _ _ _ h := h
  mem _ _ _ _ _ h := h
  cells _ _ _ _ h := h
  home _ _ _ h := h
  locus _ _ _ h := h
  xpt _ _ _ h := h
  eth _ _ _ h := h
  reqs _ _ _ _ h := h
  nextReq _ _ _ h := h
  image _ _ _ h := h
  free _ _ h := h
  emitted _ _ _ h := h
  drop _ _ h := h
  link _ _ _ _ h := h

/-- `aon` stays as it was where its bit is clear. -/
theorem aon_closed {m : Nat} (x : Aon) (haon : m.testBit 0 = false) (hdrop : m.testBit 20 = false) :
    Closed m (fun t => t.aon = x) where
  aon k := absurd k (by rw [haon]; exact Bool.false_ne_true)
  ras _ _ _ h := h
  pwr _ _ _ h := h
  sec _ _ _ h := h
  host _ _ _ h := h
  log _ _ _ h := h
  sch _ _ _ h := h
  eng _ _ _ h := h
  nbu _ _ _ _ h := h
  mem _ _ _ _ _ h := h
  cells _ _ _ _ h := h
  home _ _ _ h := h
  locus _ _ _ h := h
  xpt _ _ _ h := h
  eth _ _ _ h := h
  reqs _ _ _ _ h := h
  nextReq _ _ _ h := h
  image _ _ _ h := h
  free _ _ h := h
  emitted _ _ _ h := h
  drop k := absurd k (by rw [hdrop]; exact Bool.false_ne_true)
  link _ _ _ _ h := h

/-- `ras` stays as it was where its bit is clear. -/
theorem ras_closed {m : Nat} (x : Ras) (hras : m.testBit 1 = false) (hdrop : m.testBit 20 = false) :
    Closed m (fun t => t.ras = x) where
  aon _ _ _ h := h
  ras k := absurd k (by rw [hras]; exact Bool.false_ne_true)
  pwr _ _ _ h := h
  sec _ _ _ h := h
  host _ _ _ h := h
  log _ _ _ h := h
  sch _ _ _ h := h
  eng _ _ _ h := h
  nbu _ _ _ _ h := h
  mem _ _ _ _ _ h := h
  cells _ _ _ _ h := h
  home _ _ _ h := h
  locus _ _ _ h := h
  xpt _ _ _ h := h
  eth _ _ _ h := h
  reqs _ _ _ _ h := h
  nextReq _ _ _ h := h
  image _ _ _ h := h
  free _ _ h := h
  emitted _ _ _ h := h
  drop k := absurd k (by rw [hdrop]; exact Bool.false_ne_true)
  link _ _ _ _ h := h

/-- `pwr` stays as it was where its bit is clear. -/
theorem pwr_closed {m : Nat} (x : Pwr) (hpwr : m.testBit 2 = false) (hdrop : m.testBit 20 = false) :
    Closed m (fun t => t.pwr = x) where
  aon _ _ _ h := h
  ras _ _ _ h := h
  pwr k := absurd k (by rw [hpwr]; exact Bool.false_ne_true)
  sec _ _ _ h := h
  host _ _ _ h := h
  log _ _ _ h := h
  sch _ _ _ h := h
  eng _ _ _ h := h
  nbu _ _ _ _ h := h
  mem _ _ _ _ _ h := h
  cells _ _ _ _ h := h
  home _ _ _ h := h
  locus _ _ _ h := h
  xpt _ _ _ h := h
  eth _ _ _ h := h
  reqs _ _ _ _ h := h
  nextReq _ _ _ h := h
  image _ _ _ h := h
  free _ _ h := h
  emitted _ _ _ h := h
  drop k := absurd k (by rw [hdrop]; exact Bool.false_ne_true)
  link _ _ _ _ h := h

/-- `sec` stays as it was where its bit is clear. -/
theorem sec_closed {m : Nat} (x : Sec) (hsec : m.testBit 3 = false) (hdrop : m.testBit 20 = false) :
    Closed m (fun t => t.sec = x) where
  aon _ _ _ h := h
  ras _ _ _ h := h
  pwr _ _ _ h := h
  sec k := absurd k (by rw [hsec]; exact Bool.false_ne_true)
  host _ _ _ h := h
  log _ _ _ h := h
  sch _ _ _ h := h
  eng _ _ _ h := h
  nbu _ _ _ _ h := h
  mem _ _ _ _ _ h := h
  cells _ _ _ _ h := h
  home _ _ _ h := h
  locus _ _ _ h := h
  xpt _ _ _ h := h
  eth _ _ _ h := h
  reqs _ _ _ _ h := h
  nextReq _ _ _ h := h
  image _ _ _ h := h
  free _ _ h := h
  emitted _ _ _ h := h
  drop k := absurd k (by rw [hdrop]; exact Bool.false_ne_true)
  link _ _ _ _ h := h

/-- `host` stays as it was where its bit is clear. -/
theorem host_closed {m : Nat} (x : HostIf) (hhost : m.testBit 4 = false) (hdrop : m.testBit 20 = false) :
    Closed m (fun t => t.host = x) where
  aon _ _ _ h := h
  ras _ _ _ h := h
  pwr _ _ _ h := h
  sec _ _ _ h := h
  host k := absurd k (by rw [hhost]; exact Bool.false_ne_true)
  log _ _ _ h := h
  sch _ _ _ h := h
  eng _ _ _ h := h
  nbu _ _ _ _ h := h
  mem _ _ _ _ _ h := h
  cells _ _ _ _ h := h
  home _ _ _ h := h
  locus _ _ _ h := h
  xpt _ _ _ h := h
  eth _ _ _ h := h
  reqs _ _ _ _ h := h
  nextReq _ _ _ h := h
  image _ _ _ h := h
  free _ _ h := h
  emitted _ _ _ h := h
  drop k := absurd k (by rw [hdrop]; exact Bool.false_ne_true)
  link _ _ _ _ h := h

/-- `log` stays as it was where its bit is clear. -/
theorem log_closed {m : Nat} (x : Log) (hlog : m.testBit 5 = false) (hdrop : m.testBit 20 = false) :
    Closed m (fun t => t.log = x) where
  aon _ _ _ h := h
  ras _ _ _ h := h
  pwr _ _ _ h := h
  sec _ _ _ h := h
  host _ _ _ h := h
  log k := absurd k (by rw [hlog]; exact Bool.false_ne_true)
  sch _ _ _ h := h
  eng _ _ _ h := h
  nbu _ _ _ _ h := h
  mem _ _ _ _ _ h := h
  cells _ _ _ _ h := h
  home _ _ _ h := h
  locus _ _ _ h := h
  xpt _ _ _ h := h
  eth _ _ _ h := h
  reqs _ _ _ _ h := h
  nextReq _ _ _ h := h
  image _ _ _ h := h
  free _ _ h := h
  emitted _ _ _ h := h
  drop k := absurd k (by rw [hdrop]; exact Bool.false_ne_true)
  link _ _ _ _ h := h

/-- `sch` stays as it was where its bit is clear. -/
theorem sch_closed {m : Nat} (x : Sch) (hsch : m.testBit 6 = false) (hdrop : m.testBit 20 = false) :
    Closed m (fun t => t.sch = x) where
  aon _ _ _ h := h
  ras _ _ _ h := h
  pwr _ _ _ h := h
  sec _ _ _ h := h
  host _ _ _ h := h
  log _ _ _ h := h
  sch k := absurd k (by rw [hsch]; exact Bool.false_ne_true)
  eng _ _ _ h := h
  nbu _ _ _ _ h := h
  mem _ _ _ _ _ h := h
  cells _ _ _ _ h := h
  home _ _ _ h := h
  locus _ _ _ h := h
  xpt _ _ _ h := h
  eth _ _ _ h := h
  reqs _ _ _ _ h := h
  nextReq _ _ _ h := h
  image _ _ _ h := h
  free _ _ h := h
  emitted _ _ _ h := h
  drop k := absurd k (by rw [hdrop]; exact Bool.false_ne_true)
  link _ _ _ _ h := h

/-- `eng` stays as it was where its bit is clear. -/
theorem eng_closed {m : Nat} (x : Engine) (heng : m.testBit 7 = false) (hdrop : m.testBit 20 = false) :
    Closed m (fun t => t.eng = x) where
  aon _ _ _ h := h
  ras _ _ _ h := h
  pwr _ _ _ h := h
  sec _ _ _ h := h
  host _ _ _ h := h
  log _ _ _ h := h
  sch _ _ _ h := h
  eng k := absurd k (by rw [heng]; exact Bool.false_ne_true)
  nbu _ _ _ _ h := h
  mem _ _ _ _ _ h := h
  cells _ _ _ _ h := h
  home _ _ _ h := h
  locus _ _ _ h := h
  xpt _ _ _ h := h
  eth _ _ _ h := h
  reqs _ _ _ _ h := h
  nextReq _ _ _ h := h
  image _ _ _ h := h
  free _ _ h := h
  emitted _ _ _ h := h
  drop k := absurd k (by rw [hdrop]; exact Bool.false_ne_true)
  link _ _ _ _ h := h

/-- `nbu` stays as it was where its bit is clear. -/
theorem nbu_closed {m : Nat} (x : List NbRegion) (hnbu : m.testBit 8 = false) (hdrop : m.testBit 20 = false) :
    Closed m (fun t => t.nbu = x) where
  aon _ _ _ h := h
  ras _ _ _ h := h
  pwr _ _ _ h := h
  sec _ _ _ h := h
  host _ _ _ h := h
  log _ _ _ h := h
  sch _ _ _ h := h
  eng _ _ _ h := h
  nbu k := absurd k (by rw [hnbu]; exact Bool.false_ne_true)
  mem _ _ _ _ _ h := h
  cells _ _ _ _ h := h
  home _ _ _ h := h
  locus _ _ _ h := h
  xpt _ _ _ h := h
  eth _ _ _ h := h
  reqs _ _ _ _ h := h
  nextReq _ _ _ h := h
  image _ _ _ h := h
  free _ _ h := h
  emitted _ _ _ h := h
  drop k := absurd k (by rw [hdrop]; exact Bool.false_ne_true)
  link _ _ _ _ h := h

/-- `home` stays as it was where its bit is clear. -/
theorem home_closed {m : Nat} (x : Home) (hhome : m.testBit 11 = false) (hdrop : m.testBit 20 = false) :
    Closed m (fun t => t.home = x) where
  aon _ _ _ h := h
  ras _ _ _ h := h
  pwr _ _ _ h := h
  sec _ _ _ h := h
  host _ _ _ h := h
  log _ _ _ h := h
  sch _ _ _ h := h
  eng _ _ _ h := h
  nbu _ _ _ _ h := h
  mem _ _ _ _ _ h := h
  cells _ _ _ _ h := h
  home k := absurd k (by rw [hhome]; exact Bool.false_ne_true)
  locus _ _ _ h := h
  xpt _ _ _ h := h
  eth _ _ _ h := h
  reqs _ _ _ _ h := h
  nextReq _ _ _ h := h
  image _ _ _ h := h
  free _ _ h := h
  emitted _ _ _ h := h
  drop k := absurd k (by rw [hdrop]; exact Bool.false_ne_true)
  link _ _ _ _ h := h

/-- `locus` stays as it was where its bit is clear. -/
theorem locus_closed {m : Nat} (x : Locus) (hlocus : m.testBit 12 = false) (hdrop : m.testBit 20 = false) :
    Closed m (fun t => t.locus = x) where
  aon _ _ _ h := h
  ras _ _ _ h := h
  pwr _ _ _ h := h
  sec _ _ _ h := h
  host _ _ _ h := h
  log _ _ _ h := h
  sch _ _ _ h := h
  eng _ _ _ h := h
  nbu _ _ _ _ h := h
  mem _ _ _ _ _ h := h
  cells _ _ _ _ h := h
  home _ _ _ h := h
  locus k := absurd k (by rw [hlocus]; exact Bool.false_ne_true)
  xpt _ _ _ h := h
  eth _ _ _ h := h
  reqs _ _ _ _ h := h
  nextReq _ _ _ h := h
  image _ _ _ h := h
  free _ _ h := h
  emitted _ _ _ h := h
  drop k := absurd k (by rw [hdrop]; exact Bool.false_ne_true)
  link _ _ _ _ h := h

/-- `xpt` stays as it was where its bit is clear. -/
theorem xpt_closed {m : Nat} (x : Xpt) (hxpt : m.testBit 13 = false) (hlink : m.testBit 21 = false) (hdrop : m.testBit 20 = false) :
    Closed m (fun t => t.xpt = x) where
  aon _ _ _ h := h
  ras _ _ _ h := h
  pwr _ _ _ h := h
  sec _ _ _ h := h
  host _ _ _ h := h
  log _ _ _ h := h
  sch _ _ _ h := h
  eng _ _ _ h := h
  nbu _ _ _ _ h := h
  mem _ _ _ _ _ h := h
  cells _ _ _ _ h := h
  home _ _ _ h := h
  locus _ _ _ h := h
  xpt k := absurd k (by rw [hxpt]; exact Bool.false_ne_true)
  eth _ _ _ h := h
  reqs _ _ _ _ h := h
  nextReq _ _ _ h := h
  image _ _ _ h := h
  free _ _ h := h
  emitted _ _ _ h := h
  drop k := absurd k (by rw [hdrop]; exact Bool.false_ne_true)
  link k := absurd k (by rw [hlink]; exact Bool.false_ne_true)

/-- `eth` stays as it was where its bit is clear. -/
theorem eth_closed {m : Nat} (x : Eth) (heth : m.testBit 14 = false) (hdrop : m.testBit 20 = false) :
    Closed m (fun t => t.eth = x) where
  aon _ _ _ h := h
  ras _ _ _ h := h
  pwr _ _ _ h := h
  sec _ _ _ h := h
  host _ _ _ h := h
  log _ _ _ h := h
  sch _ _ _ h := h
  eng _ _ _ h := h
  nbu _ _ _ _ h := h
  mem _ _ _ _ _ h := h
  cells _ _ _ _ h := h
  home _ _ _ h := h
  locus _ _ _ h := h
  xpt _ _ _ h := h
  eth k := absurd k (by rw [heth]; exact Bool.false_ne_true)
  reqs _ _ _ _ h := h
  nextReq _ _ _ h := h
  image _ _ _ h := h
  free _ _ h := h
  emitted _ _ _ h := h
  drop k := absurd k (by rw [hdrop]; exact Bool.false_ne_true)
  link _ _ _ _ h := h

/-- `reqs` stays as it was where its bit is clear. -/
theorem reqs_closed {m : Nat} (x : Tbl Req) (hreqs : m.testBit 15 = false) (hnextReq : m.testBit 16 = false) (hdrop : m.testBit 20 = false) :
    Closed m (fun t => t.reqs = x) where
  aon _ _ _ h := h
  ras _ _ _ h := h
  pwr _ _ _ h := h
  sec _ _ _ h := h
  host _ _ _ h := h
  log _ _ _ h := h
  sch _ _ _ h := h
  eng _ _ _ h := h
  nbu _ _ _ _ h := h
  mem _ _ _ _ _ h := h
  cells _ _ _ _ h := h
  home _ _ _ h := h
  locus _ _ _ h := h
  xpt _ _ _ h := h
  eth _ _ _ h := h
  reqs k := absurd k (by rw [hreqs]; exact Bool.false_ne_true)
  nextReq k := absurd k (by rw [hnextReq]; exact Bool.false_ne_true)
  image _ _ _ h := h
  free _ _ h := h
  emitted _ _ _ h := h
  drop k := absurd k (by rw [hdrop]; exact Bool.false_ne_true)
  link _ _ _ _ h := h

/-- `nextReq` stays as it was where its bit is clear. -/
theorem nextReq_closed {m : Nat} (x : Nat) (hnextReq : m.testBit 16 = false) :
    Closed m (fun t => t.nextReq = x) where
  aon _ _ _ h := h
  ras _ _ _ h := h
  pwr _ _ _ h := h
  sec _ _ _ h := h
  host _ _ _ h := h
  log _ _ _ h := h
  sch _ _ _ h := h
  eng _ _ _ h := h
  nbu _ _ _ _ h := h
  mem _ _ _ _ _ h := h
  cells _ _ _ _ h := h
  home _ _ _ h := h
  locus _ _ _ h := h
  xpt _ _ _ h := h
  eth _ _ _ h := h
  reqs _ _ _ _ h := h
  nextReq k := absurd k (by rw [hnextReq]; exact Bool.false_ne_true)
  image _ _ _ h := h
  free _ _ h := h
  emitted _ _ _ h := h
  drop _ _ h := h
  link _ _ _ _ h := h

/-- `image` stays as it was where its bit is clear. -/
theorem image_closed {m : Nat} (x : Option PersistImage) (himage : m.testBit 17 = false) :
    Closed m (fun t => t.image = x) where
  aon _ _ _ h := h
  ras _ _ _ h := h
  pwr _ _ _ h := h
  sec _ _ _ h := h
  host _ _ _ h := h
  log _ _ _ h := h
  sch _ _ _ h := h
  eng _ _ _ h := h
  nbu _ _ _ _ h := h
  mem _ _ _ _ _ h := h
  cells _ _ _ _ h := h
  home _ _ _ h := h
  locus _ _ _ h := h
  xpt _ _ _ h := h
  eth _ _ _ h := h
  reqs _ _ _ _ h := h
  nextReq _ _ _ h := h
  image k := absurd k (by rw [himage]; exact Bool.false_ne_true)
  free _ _ h := h
  emitted _ _ _ h := h
  drop _ _ h := h
  link _ _ _ _ h := h

/-- `free` stays as it was where its bit is clear. -/
theorem free_closed {m : Nat} (x : Nat) (hfree : m.testBit 18 = false) :
    Closed m (fun t => t.free = x) where
  aon _ _ _ h := h
  ras _ _ _ h := h
  pwr _ _ _ h := h
  sec _ _ _ h := h
  host _ _ _ h := h
  log _ _ _ h := h
  sch _ _ _ h := h
  eng _ _ _ h := h
  nbu _ _ _ _ h := h
  mem _ _ _ _ _ h := h
  cells _ _ _ _ h := h
  home _ _ _ h := h
  locus _ _ _ h := h
  xpt _ _ _ h := h
  eth _ _ _ h := h
  reqs _ _ _ _ h := h
  nextReq _ _ _ h := h
  image _ _ _ h := h
  free k := absurd k (by rw [hfree]; exact Bool.false_ne_true)
  emitted _ _ _ h := h
  drop _ _ h := h
  link _ _ _ _ h := h

/-- `emitted` stays as it was where its bit is clear. -/
theorem emitted_closed {m : Nat} (x : List Emit) (hemitted : m.testBit 19 = false) :
    Closed m (fun t => t.emitted = x) where
  aon _ _ _ h := h
  ras _ _ _ h := h
  pwr _ _ _ h := h
  sec _ _ _ h := h
  host _ _ _ h := h
  log _ _ _ h := h
  sch _ _ _ h := h
  eng _ _ _ h := h
  nbu _ _ _ _ h := h
  mem _ _ _ _ _ h := h
  cells _ _ _ _ h := h
  home _ _ _ h := h
  locus _ _ _ h := h
  xpt _ _ _ h := h
  eth _ _ _ h := h
  reqs _ _ _ _ h := h
  nextReq _ _ _ h := h
  image _ _ _ h := h
  free _ _ h := h
  emitted k := absurd k (by rw [hemitted]; exact Bool.false_ne_true)
  drop _ _ h := h
  link _ _ _ _ h := h

/-- Memory, spans, retire lists and drives stay as they were where the bits of memory are clear. -/
theorem mem_closed {m : Nat} (x : Mem) (hmem : m.testBit 9 = false) (hcells : m.testBit 10 = false) (hdrop : m.testBit 20 = false) :
    Closed m (fun t => t.mem = x) where
  aon _ _ _ h := h
  ras _ _ _ h := h
  pwr _ _ _ h := h
  sec _ _ _ h := h
  host _ _ _ h := h
  log _ _ _ h := h
  sch _ _ _ h := h
  eng _ _ _ h := h
  nbu _ _ _ _ h := h
  mem k := absurd k (by rw [hmem]; exact Bool.false_ne_true)
  cells k := absurd k (by rw [hcells]; exact Bool.false_ne_true)
  home _ _ _ h := h
  locus _ _ _ h := h
  xpt _ _ _ h := h
  eth _ _ _ h := h
  reqs _ _ _ _ h := h
  nextReq _ _ _ h := h
  image _ _ _ h := h
  free _ _ h := h
  emitted _ _ _ h := h
  drop k := absurd k (by rw [hdrop]; exact Bool.false_ne_true)
  link _ _ _ _ h := h

/-- Every stored byte of stack memory stays as it was where its bit is clear. -/
theorem cells_closed {m : Nat} (x : List Host.Cell) (hcells : m.testBit 10 = false) :
    Closed m (fun t => t.mem.cells = x) where
  aon _ _ _ h := h
  ras _ _ _ h := h
  pwr _ _ _ h := h
  sec _ _ _ h := h
  host _ _ _ h := h
  log _ _ _ h := h
  sch _ _ _ h := h
  eng _ _ _ h := h
  nbu _ _ _ _ h := h
  mem _ f _ a _ h := (a _).trans h
  cells k := absurd k (by rw [hcells]; exact Bool.false_ne_true)
  home _ _ _ h := h
  locus _ _ _ h := h
  xpt _ _ _ h := h
  eth _ _ _ h := h
  reqs _ _ _ _ h := h
  nextReq _ _ _ h := h
  image _ _ _ h := h
  free _ _ h := h
  emitted _ _ _ h := h
  drop _ _ h := h
  link _ _ _ _ h := h

/-- The context of a queue pair is in RTS. -/
def State.inRts (q : Nat) (s : State) : Prop := (s.ctx q).map Ctx.state = some .rts

/-- A context in RTS stays in RTS where no bit of the updates that could move it is set. -/
theorem rts_closed {m : Nat} (q : Nat) (hxpt : m.testBit 13 = false) (hdrop : m.testBit 20 = false) : Closed m (State.inRts q) where
  aon _ _ _ h := h
  ras _ _ _ h := h
  pwr _ _ _ h := h
  sec _ _ _ h := h
  host _ _ _ h := h
  log _ _ _ h := h
  sch _ _ _ h := h
  eng _ _ _ h := h
  nbu _ _ _ _ h := h
  mem _ _ _ _ _ h := h
  cells _ _ _ _ h := h
  home _ _ _ h := h
  locus _ _ _ h := h
  xpt k := absurd k (by rw [hxpt]; exact Bool.false_ne_true)
  eth _ _ _ h := h
  reqs _ _ _ _ h := h
  nextReq _ _ _ h := h
  image _ _ _ h := h
  free _ _ h := h
  emitted _ _ _ h := h
  drop k := absurd k (by rw [hdrop]; exact Bool.false_ne_true)
  link _ _ _ k h := k _ q h

/-- Outstanding requests stand under rising numbers, all below the next one. -/
theorem reqsOk_closed (m : Nat) : Closed m State.ReqsOk where
  aon _ _ _ h := h
  ras _ _ _ h := h
  pwr _ _ _ h := h
  sec _ _ _ h := h
  host _ _ _ h := h
  log _ _ _ h := h
  sch _ _ _ h := h
  eng _ _ _ h := h
  nbu _ _ _ _ h := h
  mem _ _ _ _ _ h := h
  cells _ _ _ _ h := h
  home _ _ _ h := h
  locus _ _ _ h := h
  xpt _ _ _ h := h
  eth _ _ _ h := h
  reqs _ f s k h := ⟨h.1.sublist (k s.reqs), fun j hj => h.2 j ((k s.reqs).subset hj)⟩
  nextReq _ q s h := by
    unfold State.ReqsOk State.pushReq
    dsimp only
    rw [Tbl.set_above h.2, List.map_append]
    refine ⟨List.pairwise_append.mpr ⟨h.1, List.pairwise_singleton _ _, fun a ha b hb => ?_⟩, fun j hj => ?_⟩
    · have := h.2 a ha
      simp at hb
      omega
    · rcases List.mem_append.mp hj with hj | hj
      · have := h.2 j hj
        omega
      · simp at hj
        omega
  image _ _ _ h := h
  free _ _ h := h
  emitted _ _ _ h := h
  drop _ _ _ := ⟨List.Pairwise.nil, fun _ h => nomatch h⟩
  link _ _ _ _ h := h

end Sys2Proof.Machine
end

