-- ==== Sys2Proof/Laws/KeepExec.lean ====
section
/-! SUPPORT. What every command and every step keeps. -/

namespace Sys2Proof.Machine

/-- A predicate closed under every update is kept by every command. -/
theorem exec_keeps {P : State → Prop} (hP : Closed 4194303 P) {i : Instr} {s t : State} (h0 : P s) (e : exec i s = .next t) : P t := by
  cases i with
  | attendFwd => exact execAttendFwd_keeps (hP.mono rfl) h0 e
  | attendBwdOpen => exact execAttendBwdOpen_keeps (hP.mono rfl) h0 e
  | attendBwdAccumulate => exact execAttendBwdAccumulate_keeps (hP.mono rfl) h0 e
  | attendBwdCollect => exact execAttendBwdCollect_keeps (hP.mono rfl) h0 e
  | attendBwdDiscard => exact execAttendBwdDiscard_keeps (hP.mono rfl) h0 e
  | accumulatorCommit => exact execAccumulatorCommit_keeps (hP.mono rfl) h0 e
  | lookup => exact execLookup_keeps (hP.mono rfl) h0 e
  | publishPage => exact execPublishPage_keeps (hP.mono rfl) h0 e
  | publishPrefix => exact execPublishPrefix_keeps (hP.mono rfl) h0 e
  | prefixRelease => exact execPrefixRelease_keeps (hP.mono rfl) h0 e
  | leaseAcquire => exact execLeaseAcquire_keeps (hP.mono rfl) h0 e
  | leaseRenew => exact execLeaseRenew_keeps (hP.mono rfl) h0 e
  | leaseRelease => exact execLeaseRelease_keeps (hP.mono rfl) h0 e
  | handoverTransfer => exact execHandoverTransfer_keeps (hP.mono rfl) h0 e
  | handoverDiscard => exact execHandoverDiscard_keeps (hP.mono rfl) h0 e
  | handoverQuery => exact execHandoverQuery_keeps (hP.mono rfl) h0 e
  | pin => exact execPin_keeps (hP.mono rfl) h0 e
  | unpin => exact execUnpin_keeps (hP.mono rfl) h0 e
  | statOwnQp => exact execStatOwnQp_keeps (hP.mono rfl) h0 e
  | statGroup => exact execStatGroup_keeps (hP.mono rfl) h0 e
  | statNode => exact execStatNode_keeps (hP.mono rfl) h0 e
  | mapInstall => exact execMapInstall_keeps (hP.mono rfl) h0 e
  | nodeFence => exact execNodeFence_keeps (hP.mono rfl) h0 e
  | nodeUnfence => exact execNodeUnfence_keeps (hP.mono rfl) h0 e
  | nodeExpel => exact execNodeExpel_keeps (hP.mono rfl) h0 e
  | requesterFence => exact execRequesterFence_keeps (hP.mono rfl) h0 e
  | requesterUnfence => exact execRequesterUnfence_keeps (hP.mono rfl) h0 e
  | powerShift => exact execPowerShift_keeps (hP.mono rfl) h0 e
  | admKeyCreate => exact execAdmKeyCreate_keeps (hP.mono rfl) h0 e
  | admKeyRemove => exact execAdmKeyRemove_keeps (hP.mono rfl) h0 e
  | isolationSet => exact execIsolationSet_keeps (hP.mono rfl) h0 e
  | groupSet => exact execGroupSet_keeps (hP.mono rfl) h0 e
  | isolationExport => exact execIsolationExport_keeps (hP.mono rfl) h0 e
  | admManifestLoad => exact execAdmManifestLoad_keeps (hP.mono rfl) h0 e
  | peerBucketState => exact execPeerBucketState_keeps (hP.mono rfl) h0 e
  | peerCompletionMarker => exact execPeerCompletionMarker_keeps (hP.mono rfl) h0 e
  | peerReplicaCopy => exact execPeerReplicaCopy_keeps (hP.mono rfl) h0 e
  | peerGrant => exact execPeerGrant_keeps (hP.mono rfl) h0 e
  | peerRevoke => exact execPeerRevoke_keeps (hP.mono rfl) h0 e
  | peerRelabel => exact execPeerRelabel_keeps (hP.mono rfl) h0 e
  | peerDrop => exact execPeerDrop_keeps (hP.mono rfl) h0 e
  | peerAcknowledgement => exact execPeerAcknowledgement_keeps (hP.mono rfl) h0 e
  | hello => exact execHello_keeps (hP.mono rfl) h0 e
  | rdmaReadRequest => exact execRdmaReadRequest_keeps (hP.mono rfl) h0 e
  | rdmaWrite => exact execRdmaWrite_keeps (hP.mono rfl) h0 e
  | compareAndSwap => exact execCompareAndSwap_keeps (hP.mono rfl) h0 e
  | fetchAndAdd => exact execFetchAndAdd_keeps (hP.mono rfl) h0 e
  | invalidOpcode => exact execInvalidOpcode_keeps (hP.mono rfl) h0 e
  | acknowledgeReceived => exact execAcknowledgeReceived_keeps (hP.mono rfl) h0 e
  | rnrNakReceived => exact execRnrNakReceived_keeps (hP.mono rfl) h0 e
  | fatalNakReceived => exact execFatalNakReceived_keeps (hP.mono rfl) h0 e
  | cnpReceived => exact execCnpReceived_keeps (hP.mono rfl) h0 e
  | pauseFrameRx => exact execPauseFrameRx_keeps (hP.mono rfl) h0 e
  | cmReq => exact execCmReq_keeps (hP.mono rfl) h0 e
  | cmRtu => exact execCmRtu_keeps (hP.mono rfl) h0 e
  | cmDreq => exact execCmDreq_keeps (hP.mono rfl) h0 e
  | cmRep => exact execCmRep_keeps (hP.mono rfl) h0 e
  | cmDrep => exact execCmDrep_keeps (hP.mono rfl) h0 e
  | peerConnectRetry => exact execPeerConnectRetry_keeps (hP.mono rfl) h0 e
  | peerIdleClose => exact execPeerIdleClose_keeps (hP.mono rfl) h0 e
  | contextLoad => exact execContextLoad_keeps (hP.mono rfl) h0 e
  | missBufferTimeout => exact execMissBufferTimeout_keeps (hP.mono rfl) h0 e
  | responseRetransmit => exact execResponseRetransmit_keeps (hP.mono rfl) h0 e
  | flushComplete => exact execFlushComplete_keeps (hP.mono rfl) h0 e
  | pacerRelease => exact execPacerRelease_keeps (hP.mono rfl) h0 e
  | echoTimer => exact execEchoTimer_keeps (hP.mono rfl) h0 e
  | egressTransmit => exact execEgressTransmit_keeps (hP.mono rfl) h0 e
  | queueSample => exact execQueueSample_keeps (hP.mono rfl) h0 e
  | loadRecompute => exact execLoadRecompute_keeps (hP.mono rfl) h0 e
  | portLinkLoss => exact execPortLinkLoss_keeps (hP.mono rfl) h0 e
  | portLinkReturn => exact execPortLinkReturn_keeps (hP.mono rfl) h0 e
  | linkHoldExpiry => exact execLinkHoldExpiry_keeps (hP.mono rfl) h0 e
  | laneSuspicion => exact execLaneSuspicion_keeps (hP.mono rfl) h0 e
  | loopbackTestDone => exact execLoopbackTestDone_keeps (hP.mono rfl) h0 e
  | portTrainingDone => exact execPortTrainingDone_keeps (hP.mono rfl) h0 e
  | flitReceive => exact execFlitReceive_keeps (hP.mono rfl) h0 e
  | linkHandshakeTimeout => exact execLinkHandshakeTimeout_keeps (hP.mono rfl) h0 e
  | tilePlace => exact execTilePlace_keeps (hP.mono rfl) h0 e
  | tileProduct => exact execTileProduct_keeps (hP.mono rfl) h0 e
  | tileRetry => exact execTileRetry_keeps (hP.mono rfl) h0 e
  | regionReread => exact execRegionReread_keeps (hP.mono rfl) h0 e
  | cellSlotMove => exact execCellSlotMove_keeps (hP.mono rfl) h0 e
  | auditDuplicate => exact execAuditDuplicate_keeps (hP.mono rfl) h0 e
  | sentinelRun => exact execSentinelRun_keeps (hP.mono rfl) h0 e
  | retestComplete => exact execRetestComplete_keeps (hP.mono rfl) h0 e
  | patrolScrub => exact execPatrolScrub_keeps (hP.mono rfl) h0 e
  | nbWindowOpen => exact execNbWindowOpen_keeps (hP.mono rfl) h0 e
  | nbEnter => exact execNbEnter_keeps (hP.mono rfl) h0 e
  | nbLoad => exact execNbLoad_keeps (hP.mono rfl) h0 e
  | nbAct => exact execNbAct_keeps (hP.mono rfl) h0 e
  | nbRead => exact execNbRead_keeps (hP.mono rfl) h0 e
  | nbChord => exact execNbChord_keeps (hP.mono rfl) h0 e
  | nbResult => exact execNbResult_keeps (hP.mono rfl) h0 e
  | nbExit => exact execNbExit_keeps (hP.mono rfl) h0 e
  | resultRecordRead => exact execResultRecordRead_keeps (hP.mono rfl) h0 e
  | ondieAbortReread => exact execOndieAbortReread_keeps (hP.mono rfl) h0 e
  | nbuSpareSteer => exact execNbuSpareSteer_keeps (hP.mono rfl) h0 e
  | refresh => exact execRefresh_keeps (hP.mono rfl) h0 e
  | reclaimEpochAdvance => exact execReclaimEpochAdvance_keeps (hP.mono rfl) h0 e
  | reclamation => exact execReclamation_keeps (hP.mono rfl) h0 e
  | demotionComplete => exact execDemotionComplete_keeps (hP.mono rfl) h0 e
  | fillLand => exact execFillLand_keeps (hP.mono rfl) h0 e
  | fillAllocTimeout => exact execFillAllocTimeout_keeps (hP.mono rfl) h0 e
  | nvmeCompletion => exact execNvmeCompletion_keeps (hP.mono rfl) h0 e
  | nvmeTimeout => exact execNvmeTimeout_keeps (hP.mono rfl) h0 e
  | driveFailed => exact execDriveFailed_keeps (hP.mono rfl) h0 e
  | bitmapFlush => exact execBitmapFlush_keeps (hP.mono rfl) h0 e
  | deadlineDecision => exact execDeadlineDecision_keeps (hP.mono rfl) h0 e
  | replicaRecoveryWait => exact execReplicaRecoveryWait_keeps (hP.mono rfl) h0 e
  | replicaCopyRepeat => exact execReplicaCopyRepeat_keeps (hP.mono rfl) h0 e
  | grantRenew => exact execGrantRenew_keeps (hP.mono rfl) h0 e
  | grantExpire => exact execGrantExpire_keeps (hP.mono rfl) h0 e
  | streamEntryExpire => exact execStreamEntryExpire_keeps (hP.mono rfl) h0 e
  | regionFence => exact execRegionFence_keeps (hP.mono rfl) h0 e
  | fenceSweep => exact execFenceSweep_keeps (hP.mono rfl) h0 e
  | leaseExpiry => exact execLeaseExpiry_keeps (hP.mono rfl) h0 e
  | tombstoneExpiry => exact execTombstoneExpiry_keeps (hP.mono rfl) h0 e
  | drainWindowClose => exact execDrainWindowClose_keeps (hP.mono rfl) h0 e
  | mapRetire => exact execMapRetire_keeps (hP.mono rfl) h0 e
  | homeUnitLoss => exact execHomeUnitLoss_keeps (hP.mono rfl) h0 e
  | quarterLost => exact execQuarterLost_keeps (hP.mono rfl) h0 e
  | pfxEvictSweep => exact execPfxEvictSweep_keeps (hP.mono rfl) h0 e
  | windowBoundary => exact execWindowBoundary_keeps (hP.mono rfl) h0 e
  | contextSaveComplete => exact execContextSaveComplete_keeps (hP.mono rfl) h0 e
  | contextRestoreComplete => exact execContextRestoreComplete_keeps (hP.mono rfl) h0 e
  | contextResume => exact execContextResume_keeps (hP.mono rfl) h0 e
  | drainComplete => exact execDrainComplete_keeps (hP.mono rfl) h0 e
  | drainOpenLog => exact execDrainOpenLog_keeps (hP.mono rfl) h0 e
  | doorbell => exact execDoorbell_keeps (hP.mono rfl) h0 e
  | ringEntryFetch => exact execRingEntryFetch_keeps (hP.mono rfl) h0 e
  | bitstreamLoad => exact execBitstreamLoad_keeps (hP.mono rfl) h0 e
  | sliceDisable => exact execSliceDisable_keeps (hP.mono rfl) h0 e
  | sliceEnable => exact execSliceEnable_keeps (hP.mono rfl) h0 e
  | sliceRemove => exact execSliceRemove_keeps (hP.mono rfl) h0 e
  | statePurge => exact execStatePurge_keeps (hP.mono rfl) h0 e
  | cancel => exact execCancel_keeps (hP.mono rfl) h0 e
  | keyCreate => exact execKeyCreate_keeps (hP.mono rfl) h0 e
  | keyRemove => exact execKeyRemove_keeps (hP.mono rfl) h0 e
  | driveFormat => exact execDriveFormat_keeps (hP.mono rfl) h0 e
  | ownerProvision => exact execOwnerProvision_keeps (hP.mono rfl) h0 e
  | manifestLoad => exact execManifestLoad_keeps (hP.mono rfl) h0 e
  | keyslotGenerate => exact execKeyslotGenerate_keeps (hP.mono rfl) h0 e
  | keyslotErase => exact execKeyslotErase_keeps (hP.mono rfl) h0 e
  | debugChallenge => exact execDebugChallenge_keeps (hP.mono rfl) h0 e
  | debugUnlock => exact execDebugUnlock_keeps (hP.mono rfl) h0 e
  | logRead => exact execLogRead_keeps (hP.mono rfl) h0 e
  | catalogueRead => exact execCatalogueRead_keeps (hP.mono rfl) h0 e
  | ringEnable => exact execRingEnable_keeps (hP.mono rfl) h0 e
  | ringDisable => exact execRingDisable_keeps (hP.mono rfl) h0 e
  | irqCauseClear => exact execIrqCauseClear_keeps (hP.mono rfl) h0 e
  | logAckWrite => exact execLogAckWrite_keeps (hP.mono rfl) h0 e
  | nbEnable => exact execNbEnable_keeps (hP.mono rfl) h0 e
  | nbDisable => exact execNbDisable_keeps (hP.mono rfl) h0 e
  | recoveryChunkGo => exact execRecoveryChunkGo_keeps (hP.mono rfl) h0 e
  | recoveryFlashWritten => exact execRecoveryFlashWritten_keeps (hP.mono rfl) h0 e
  | rcRegisterRead => exact execRcRegisterRead_keeps (hP.mono rfl) h0 e
  | registerWrite => exact execRegisterWrite_keeps (hP.mono rfl) h0 e
  | regReadTimeout => exact execRegReadTimeout_keeps (hP.mono rfl) h0 e
  | bar2Read => exact execBar2Read_keeps (hP.mono rfl) h0 e
  | bar2Write => exact execBar2Write_keeps (hP.mono rfl) h0 e
  | functionLevelReset => exact execFunctionLevelReset_keeps (hP.mono rfl) h0 e
  | pcieLinkDown => exact execPcieLinkDown_keeps (hP.mono rfl) h0 e
  | apexEvaluation => exact execApexEvaluation_keeps (hP.mono rfl) h0 e
  | telemetrySample => exact execTelemetrySample_keeps (hP.mono rfl) h0 e
  | modelComparison => exact execModelComparison_keeps (hP.mono rfl) h0 e
  | junctionSample => exact execJunctionSample_keeps (hP.mono rfl) h0 e
  | stackCaseSample => exact execStackCaseSample_keeps (hP.mono rfl) h0 e
  | voltageSettled => exact execVoltageSettled_keeps (hP.mono rfl) h0 e
  | shiftExpiry => exact execShiftExpiry_keeps (hP.mono rfl) h0 e
  | vrAlertAssert => exact execVrAlertAssert_keeps (hP.mono rfl) h0 e
  | vrAlertClear => exact execVrAlertClear_keeps (hP.mono rfl) h0 e
  | coolantFault => exact execCoolantFault_keeps (hP.mono rfl) h0 e
  | coolantRestart => exact execCoolantRestart_keeps (hP.mono rfl) h0 e
  | persistFlushComplete => exact execPersistFlushComplete_keeps (hP.mono rfl) h0 e
  | apexHeartbeatTimeout => exact execApexHeartbeatTimeout_keeps (hP.mono rfl) h0 e
  | apexRestartDone => exact execApexRestartDone_keeps (hP.mono rfl) h0 e
  | vertexLoss => exact execVertexLoss_keeps (hP.mono rfl) h0 e
  | resetAssert => exact execResetAssert_keeps (hP.mono rfl) h0 e
  | resetRelease => exact execResetRelease_keeps (hP.mono rfl) h0 e
  | supplyLoss => exact execSupplyLoss_keeps (hP.mono rfl) h0 e
  | refclk100Loss => exact execRefclk100Loss_keeps (hP.mono rfl) h0 e
  | refclk156Loss => exact execRefclk156Loss_keeps (hP.mono rfl) h0 e
  | refclkReturn => exact execRefclkReturn_keeps (hP.mono rfl) h0 e
  | firmwareAuthentication => exact execFirmwareAuthentication_keeps (hP.mono rfl) h0 e
  | stackTrainingDone => exact execStackTrainingDone_keeps (hP.mono rfl) h0 e
  | sliceContextRestore => exact execSliceContextRestore_keeps (hP.mono rfl) h0 e
  | restartSweep => exact execRestartSweep_keeps (hP.mono rfl) h0 e
  | rampStep => exact execRampStep_keeps (hP.mono rfl) h0 e
  | spillSweep => exact execSpillSweep_keeps (hP.mono rfl) h0 e
  | getVersion => exact execGetVersion_keeps (hP.mono rfl) h0 e
  | getCapabilities => exact execGetCapabilities_keeps (hP.mono rfl) h0 e
  | negotiateAlgorithms => exact execNegotiateAlgorithms_keeps (hP.mono rfl) h0 e
  | getDigests => exact execGetDigests_keeps (hP.mono rfl) h0 e
  | getCertificate => exact execGetCertificate_keeps (hP.mono rfl) h0 e
  | challenge => exact execChallenge_keeps (hP.mono rfl) h0 e
  | getMeasurements => exact execGetMeasurements_keeps (hP.mono rfl) h0 e
  | spdmUnsupported => exact execSpdmUnsupported_keeps (hP.mono rfl) h0 e
  | homeUnitReturn => exact execHomeUnitReturn_keeps (hP.mono rfl) h0 e
  | recomposeChangeComplete => exact execRecomposeChangeComplete_keeps (hP.mono rfl) h0 e
  | rnrTimerExpiry => exact execRnrTimerExpiry_keeps (hP.mono rfl) h0 e
  | d3hotTransition => exact execD3hotTransition_keeps (hP.mono rfl) h0 e

/-- What is closed, holds with the front command taken off the queue, and is kept by the passing of time, every step keeps. -/
theorem step_keeps {P : State → Prop} (hP : Closed 4194303 P) (hq : ∀ s q, P s → P { s with pending := q }) {s t : State} (h0 : P s)
    (e : step s = .next t) : P t := by
  unfold step at e
  split at e
  · cases e
    exact State.pass_keeps (hP.mono rfl) h0
  · exact exec_keeps hP (hq s _ h0) e

end Sys2Proof.Machine
end

