-- ==== Sys2Proof/Laws/Answer.lean ====
section
/-! SUPPORT. Extended requests: an admitted one runs step 10 on the admitted state, its queue pair is in RTS there, and a response
on a queue pair in RTS is the last one held for it. -/

namespace Sys2Proof.Machine

/-- An admitted request runs step 10. -/
theorem extended_of_admit {h : ExtHdr} {cmd : Instr} {sp : Ctx → ExtSpec} {run : Ctx → State → State} {s s2 : State} {c : Ctx}
    (e : admission h cmd sp s = some (c, s2)) : s.extended h cmd sp run = run c s2 := by
  unfold admission at e
  unfold State.extended
  split at e
  · rename_i c1 s1 hr
    rw [hr]
    dsimp only at e ⊢
    split at e
    · rename_i hc
      rw [hc]
      cases e
      rfl
    · cases e
  · cases e

/-- After `toRts` a context in RTR or RTS is in RTS. -/
theorem toRts_inRts {q : Nat} {s : State} {c : Ctx} (h : s.ctx q = some c) (k : c.state = .rtr ∨ c.state = .rts) :
    State.inRts q (s.toRts q) := by
  unfold State.toRts
  rw [h]
  dsimp only
  split
  · unfold State.inRts State.ctx State.onCtx State.onXpt
    dsimp only
    rw [Tbl.get?_modify_same]
    unfold State.ctx at h
    rw [h]
    rfl
  · unfold State.inRts
    rw [h]
    rcases k with k | k
    · exact absurd k ‹_›
    · rw [Option.map_some, k]

/-- What `arrive` lets through is the queue pair's context, in RTR or RTS. -/
theorem arrive_ok {k : Pkt} {cmd : Instr} {b : Bool} {s : State} {c : Ctx} (e : s.arrive k cmd b = .ok c) :
    s.ctx k.qpn = some c ∧ (c.state = .rtr ∨ c.state = .rts) := by
  unfold State.arrive at e
  repeat' split at e
  all_goals first | (cases e; done) | skip
  rename_i c1 hc _ hn
  cases e
  refine ⟨hc, ?_⟩
  simp only [Bool.or_eq_true, decide_eq_true_eq, not_or] at hn
  cases hs : c.state <;> simp_all

/-- The context after a change of it. -/
theorem ctx_onCtx_same (q : Nat) (f : Ctx → Ctx) (s : State) : (s.onCtx q f).ctx q = (s.ctx q).map f := by
  unfold State.ctx State.onCtx State.onXpt
  exact Tbl.get?_modify_same _ _ _

/-- The context of a queue pair is in RTR or RTS. -/
def State.isLive (q : Nat) (s : State) : Prop := ∃ c, s.ctx q = some c ∧ (c.state = .rtr ∨ c.state = .rts)

theorem isLive_onCtx {q : Nat} {f : Ctx → Ctx} {s : State} (k : ∀ c, (f c).state = c.state) (h : s.isLive q) : (s.onCtx q f).isLive q := by
  obtain ⟨c, hc, hs⟩ := h
  refine ⟨f c, ?_, by rw [k]; exact hs⟩
  rw [ctx_onCtx_same, hc]
  rfl

theorem isLive_of_xpt {q : Nat} {s t : State} (h : s.isLive q) (e : t.xpt = s.xpt) : t.isLive q := by
  unfold State.isLive State.ctx at *
  rw [e]
  exact h

theorem noteCe_isLive {k : Pkt} {n : Nat} {s : State} (h : s.isLive k.qpn) : (s.noteCe k n).isLive k.qpn := by
  unfold State.noteCe
  have h1 := isLive_onCtx (f := fun c => { c with echo := { c.echo with rx := c.echo.rx + n, ce := c.echo.ce + b2n k.ce } }) (fun _ => rfl) h
  extract_lets s1
  change s1.isLive k.qpn at h1
  clear_value s1
  split
  · exact h1
  · split
    · refine isLive_onCtx (fun _ => rfl) (isLive_of_xpt h1 ?_)
      exact State.sendControl_keeps (xpt_closed s1.xpt rfl rfl rfl) rfl
    · exact h1

/-- A request that arrives as expected leaves its queue pair in RTS. -/
theorem receive_fresh_inRts {k : Pkt} {cmd : Instr} {n : Nat} {s s1 : State} {c : Ctx} (e : s.receive k cmd n = .fresh c s1) :
    State.inRts k.qpn s1 ∧ s1.ctx k.qpn = some c := by
  unfold State.receive at e
  split at e
  · cases e
  · rename_i c0 ha
    obtain ⟨hc, hs⟩ := arrive_ok ha
    have h0 : s.isLive k.qpn := ⟨c0, hc, hs⟩
    have h1 : (s.chargeRx c0.group k.bytes).isLive k.qpn :=
      isLive_of_xpt h0 (State.chargeRx_keeps (xpt_closed s.xpt rfl rfl rfl) rfl)
    extract_lets s1' s2 s3 d s4 s5 at e
    have h2 : s2.isLive k.qpn := isLive_onCtx (fun _ => rfl) h1
    have h3 : s3.isLive k.qpn := noteCe_isLive h2
    have h4 : s4.isLive k.qpn := by
      obtain ⟨c4, hc4, hs4⟩ := isLive_onCtx (f := fun c => { c with nakked := false }) (fun _ => rfl) h3
      have := toRts_inRts hc4 hs4
      unfold State.inRts at this
      change (s4.ctx k.qpn).map Ctx.state = _ at this
      cases hx : s4.ctx k.qpn with
      | none => rw [hx] at this; cases this
      | some c5 =>
        rw [hx] at this
        exact ⟨c5, hx, .inr (by simpa using this)⟩
    have r4 : State.inRts k.qpn s4 := by
      obtain ⟨c4, hc4, hs4⟩ := isLive_onCtx (f := fun c => { c with nakked := false }) (fun _ => rfl) h3
      exact toRts_inRts hc4 hs4
    clear_value s4
    split at e
    · split at e
      · cases e
      · rename_i c6 hc6
        injection e with e1 e2
        subst e1 e2
        exact ⟨r4, hc6⟩
    · repeat' split at e
      all_goals cases e

/-- What every admission leaves: every predicate closed under changes of the ports and of contexts that stay in RTS. -/
theorem admit_keeps {P : State → Prop} (hP : Closed 2113536 P) {h : ExtHdr} {cmd : Instr} {sp : Ctx → ExtSpec} {s s2 : State} {c : Ctx}
    (h0 : P s) (e : admission h cmd sp s = some (c, s2)) : P s2 := by
  unfold admission at e
  split at e
  · rename_i hr
    have h1 := State.receive_fresh hP h0 hr
    dsimp only at e
    split at e
    · cases e
      have h2 := State.acceptPsn_keeps (hP.mono rfl) (k := h.pkt) (packets := max 1 h.packets) h1
      split
      · exact State.countAdmitted_keeps (hP.mono rfl) h2
      · exact h2
    · cases e
  · cases e

/-- An admitted request's queue pair is in RTS. -/
theorem admit_inRts {h : ExtHdr} {cmd : Instr} {sp : Ctx → ExtSpec} {s s2 : State} {c : Ctx} (e : admission h cmd sp s = some (c, s2)) :
    State.inRts h.pkt.qpn s2 := by
  unfold admission at e
  split at e
  · rename_i hr
    have h1 := (receive_fresh_inRts hr).1
    dsimp only at e
    split at e
    · cases e
      have h2 := State.acceptPsn_keeps (rts_closed h.pkt.qpn rfl rfl) (k := h.pkt) (packets := max 1 h.packets) h1
      split
      · exact State.countAdmitted_keeps (rts_closed h.pkt.qpn rfl rfl) h2
      · exact h2
    · cases e
  · cases e

/-- A response on a queue pair in RTS is the last one held. -/
theorem respond_last {h : ExtHdr} {op variant : Nat} {code : Code} {aux : Nat} {body : RespBody} {s : State}
    (k : State.inRts h.pkt.qpn s) :
    lastResponse (s.respond h op variant code aux body) h.pkt.qpn = some (op, variant, code, body) := by
  unfold State.inRts at k
  unfold State.respond
  cases hc : s.ctx h.pkt.qpn with
  | none => rw [hc] at k; cases k
  | some c =>
    rw [hc] at k
    have hs : c.state = .rts := by simpa using k
    dsimp only
    unfold State.sendMessage
    rw [hc]
    dsimp only
    rw [if_pos hs]
    unfold lastResponse
    rw [ctx_onCtx_same, hc]
    have hn : packetsOf c.pmtu (respBody body).length ≠ 0 := by unfold packetsOf; omega
    obtain ⟨n, hn⟩ := Nat.exists_eq_succ_of_ne_zero hn
    simp only [Option.map_some, Option.bind_some, List.getLast?_append, List.getLast?_singleton, Option.some_or]
    rw [hn, List.range_succ_eq_map]
    simp

/-- Finishing an outstanding request answers it with its own operation. -/
theorem finishReq_last {r : Nat} {q : Req} {code : Code} {body : RespBody} {s : State} (e : s.reqs.get? r = some q)
    (k : State.inRts q.hdr.pkt.qpn s) :
    lastResponse (s.finishReq r code body) q.hdr.pkt.qpn = some (q.op, 0, code, body) := by
  unfold State.finishReq
  rw [e]
  exact respond_last (State.dropReq_keeps (rts_closed q.hdr.pkt.qpn rfl rfl) k)

/-- The state after `respond` differs in the contexts alone. -/
theorem respond_frame {P : State → Prop} (hP : Closed 2097152 P) {h : ExtHdr} {op variant : Nat} {code : Code} {aux : Nat}
    {body : RespBody} {s : State} (h0 : P s) : P (s.respond h op variant code aux body) := State.respond_keeps (hP.mono rfl) h0

/-- A finished request is off the list. -/
theorem finishReq_gone {r : Nat} {q : Req} {code : Code} {body : RespBody} {s : State} (e : s.reqs.get? r = some q) :
    (s.finishReq r code body).reqs = s.reqs.erase r := by
  unfold State.finishReq
  rw [e]
  refine State.respond_keeps (reqs_closed _ rfl rfl rfl) ?_
  unfold State.dropReq
  rw [e]
  dsimp only
  refine State.onCtx_keeps (reqs_closed _ rfl rfl rfl) (fun _ h => h) ?_
  split <;> split <;> rfl

/-- A command of a running node does what its meaning says. -/
theorem whenUp_running {f : State → State} {s : State} (h : s.running = true) : s.whenUp f = f s := if_pos h

/-- The number a request took reads back. -/
theorem pushReq_get (q : Req) (s : State) : (s.pushReq q).reqs.get? s.nextReq = some q := Tbl.get?_set_same _ _ _

end Sys2Proof.Machine
end

