-- ==== Sys2Proof/Laws/State.lean ====
section
/-! SUPPORT. What each update of one part of the state leaves in every field: one lemma a field an update, so that no proof unfolds
a record update. -/

namespace Sys2Proof.Machine

@[simp] theorem State.onAon_aon (f : Aon → Aon) (s : State) : (s.onAon f).aon = f s.aon := rfl
@[simp] theorem State.onAon_ras (f : Aon → Aon) (s : State) : (s.onAon f).ras = s.ras := rfl
@[simp] theorem State.onAon_pwr (f : Aon → Aon) (s : State) : (s.onAon f).pwr = s.pwr := rfl
@[simp] theorem State.onAon_sec (f : Aon → Aon) (s : State) : (s.onAon f).sec = s.sec := rfl
@[simp] theorem State.onAon_host (f : Aon → Aon) (s : State) : (s.onAon f).host = s.host := rfl
@[simp] theorem State.onAon_log (f : Aon → Aon) (s : State) : (s.onAon f).log = s.log := rfl
@[simp] theorem State.onAon_sch (f : Aon → Aon) (s : State) : (s.onAon f).sch = s.sch := rfl
@[simp] theorem State.onAon_eng (f : Aon → Aon) (s : State) : (s.onAon f).eng = s.eng := rfl
@[simp] theorem State.onAon_nbu (f : Aon → Aon) (s : State) : (s.onAon f).nbu = s.nbu := rfl
@[simp] theorem State.onAon_mem (f : Aon → Aon) (s : State) : (s.onAon f).mem = s.mem := rfl
@[simp] theorem State.onAon_home (f : Aon → Aon) (s : State) : (s.onAon f).home = s.home := rfl
@[simp] theorem State.onAon_locus (f : Aon → Aon) (s : State) : (s.onAon f).locus = s.locus := rfl
@[simp] theorem State.onAon_xpt (f : Aon → Aon) (s : State) : (s.onAon f).xpt = s.xpt := rfl
@[simp] theorem State.onAon_eth (f : Aon → Aon) (s : State) : (s.onAon f).eth = s.eth := rfl
@[simp] theorem State.onAon_reqs (f : Aon → Aon) (s : State) : (s.onAon f).reqs = s.reqs := rfl
@[simp] theorem State.onAon_nextReq (f : Aon → Aon) (s : State) : (s.onAon f).nextReq = s.nextReq := rfl
@[simp] theorem State.onAon_image (f : Aon → Aon) (s : State) : (s.onAon f).image = s.image := rfl
@[simp] theorem State.onAon_free (f : Aon → Aon) (s : State) : (s.onAon f).free = s.free := rfl
@[simp] theorem State.onAon_emitted (f : Aon → Aon) (s : State) : (s.onAon f).emitted = s.emitted := rfl
@[simp] theorem State.onAon_pending (f : Aon → Aon) (s : State) : (s.onAon f).pending = s.pending := rfl

@[simp] theorem State.onRas_aon (f : Ras → Ras) (s : State) : (s.onRas f).aon = s.aon := rfl
@[simp] theorem State.onRas_ras (f : Ras → Ras) (s : State) : (s.onRas f).ras = f s.ras := rfl
@[simp] theorem State.onRas_pwr (f : Ras → Ras) (s : State) : (s.onRas f).pwr = s.pwr := rfl
@[simp] theorem State.onRas_sec (f : Ras → Ras) (s : State) : (s.onRas f).sec = s.sec := rfl
@[simp] theorem State.onRas_host (f : Ras → Ras) (s : State) : (s.onRas f).host = s.host := rfl
@[simp] theorem State.onRas_log (f : Ras → Ras) (s : State) : (s.onRas f).log = s.log := rfl
@[simp] theorem State.onRas_sch (f : Ras → Ras) (s : State) : (s.onRas f).sch = s.sch := rfl
@[simp] theorem State.onRas_eng (f : Ras → Ras) (s : State) : (s.onRas f).eng = s.eng := rfl
@[simp] theorem State.onRas_nbu (f : Ras → Ras) (s : State) : (s.onRas f).nbu = s.nbu := rfl
@[simp] theorem State.onRas_mem (f : Ras → Ras) (s : State) : (s.onRas f).mem = s.mem := rfl
@[simp] theorem State.onRas_home (f : Ras → Ras) (s : State) : (s.onRas f).home = s.home := rfl
@[simp] theorem State.onRas_locus (f : Ras → Ras) (s : State) : (s.onRas f).locus = s.locus := rfl
@[simp] theorem State.onRas_xpt (f : Ras → Ras) (s : State) : (s.onRas f).xpt = s.xpt := rfl
@[simp] theorem State.onRas_eth (f : Ras → Ras) (s : State) : (s.onRas f).eth = s.eth := rfl
@[simp] theorem State.onRas_reqs (f : Ras → Ras) (s : State) : (s.onRas f).reqs = s.reqs := rfl
@[simp] theorem State.onRas_nextReq (f : Ras → Ras) (s : State) : (s.onRas f).nextReq = s.nextReq := rfl
@[simp] theorem State.onRas_image (f : Ras → Ras) (s : State) : (s.onRas f).image = s.image := rfl
@[simp] theorem State.onRas_free (f : Ras → Ras) (s : State) : (s.onRas f).free = s.free := rfl
@[simp] theorem State.onRas_emitted (f : Ras → Ras) (s : State) : (s.onRas f).emitted = s.emitted := rfl
@[simp] theorem State.onRas_pending (f : Ras → Ras) (s : State) : (s.onRas f).pending = s.pending := rfl

@[simp] theorem State.onPwr_aon (f : Pwr → Pwr) (s : State) : (s.onPwr f).aon = s.aon := rfl
@[simp] theorem State.onPwr_ras (f : Pwr → Pwr) (s : State) : (s.onPwr f).ras = s.ras := rfl
@[simp] theorem State.onPwr_pwr (f : Pwr → Pwr) (s : State) : (s.onPwr f).pwr = f s.pwr := rfl
@[simp] theorem State.onPwr_sec (f : Pwr → Pwr) (s : State) : (s.onPwr f).sec = s.sec := rfl
@[simp] theorem State.onPwr_host (f : Pwr → Pwr) (s : State) : (s.onPwr f).host = s.host := rfl
@[simp] theorem State.onPwr_log (f : Pwr → Pwr) (s : State) : (s.onPwr f).log = s.log := rfl
@[simp] theorem State.onPwr_sch (f : Pwr → Pwr) (s : State) : (s.onPwr f).sch = s.sch := rfl
@[simp] theorem State.onPwr_eng (f : Pwr → Pwr) (s : State) : (s.onPwr f).eng = s.eng := rfl
@[simp] theorem State.onPwr_nbu (f : Pwr → Pwr) (s : State) : (s.onPwr f).nbu = s.nbu := rfl
@[simp] theorem State.onPwr_mem (f : Pwr → Pwr) (s : State) : (s.onPwr f).mem = s.mem := rfl
@[simp] theorem State.onPwr_home (f : Pwr → Pwr) (s : State) : (s.onPwr f).home = s.home := rfl
@[simp] theorem State.onPwr_locus (f : Pwr → Pwr) (s : State) : (s.onPwr f).locus = s.locus := rfl
@[simp] theorem State.onPwr_xpt (f : Pwr → Pwr) (s : State) : (s.onPwr f).xpt = s.xpt := rfl
@[simp] theorem State.onPwr_eth (f : Pwr → Pwr) (s : State) : (s.onPwr f).eth = s.eth := rfl
@[simp] theorem State.onPwr_reqs (f : Pwr → Pwr) (s : State) : (s.onPwr f).reqs = s.reqs := rfl
@[simp] theorem State.onPwr_nextReq (f : Pwr → Pwr) (s : State) : (s.onPwr f).nextReq = s.nextReq := rfl
@[simp] theorem State.onPwr_image (f : Pwr → Pwr) (s : State) : (s.onPwr f).image = s.image := rfl
@[simp] theorem State.onPwr_free (f : Pwr → Pwr) (s : State) : (s.onPwr f).free = s.free := rfl
@[simp] theorem State.onPwr_emitted (f : Pwr → Pwr) (s : State) : (s.onPwr f).emitted = s.emitted := rfl
@[simp] theorem State.onPwr_pending (f : Pwr → Pwr) (s : State) : (s.onPwr f).pending = s.pending := rfl

@[simp] theorem State.onSec_aon (f : Sec → Sec) (s : State) : (s.onSec f).aon = s.aon := rfl
@[simp] theorem State.onSec_ras (f : Sec → Sec) (s : State) : (s.onSec f).ras = s.ras := rfl
@[simp] theorem State.onSec_pwr (f : Sec → Sec) (s : State) : (s.onSec f).pwr = s.pwr := rfl
@[simp] theorem State.onSec_sec (f : Sec → Sec) (s : State) : (s.onSec f).sec = f s.sec := rfl
@[simp] theorem State.onSec_host (f : Sec → Sec) (s : State) : (s.onSec f).host = s.host := rfl
@[simp] theorem State.onSec_log (f : Sec → Sec) (s : State) : (s.onSec f).log = s.log := rfl
@[simp] theorem State.onSec_sch (f : Sec → Sec) (s : State) : (s.onSec f).sch = s.sch := rfl
@[simp] theorem State.onSec_eng (f : Sec → Sec) (s : State) : (s.onSec f).eng = s.eng := rfl
@[simp] theorem State.onSec_nbu (f : Sec → Sec) (s : State) : (s.onSec f).nbu = s.nbu := rfl
@[simp] theorem State.onSec_mem (f : Sec → Sec) (s : State) : (s.onSec f).mem = s.mem := rfl
@[simp] theorem State.onSec_home (f : Sec → Sec) (s : State) : (s.onSec f).home = s.home := rfl
@[simp] theorem State.onSec_locus (f : Sec → Sec) (s : State) : (s.onSec f).locus = s.locus := rfl
@[simp] theorem State.onSec_xpt (f : Sec → Sec) (s : State) : (s.onSec f).xpt = s.xpt := rfl
@[simp] theorem State.onSec_eth (f : Sec → Sec) (s : State) : (s.onSec f).eth = s.eth := rfl
@[simp] theorem State.onSec_reqs (f : Sec → Sec) (s : State) : (s.onSec f).reqs = s.reqs := rfl
@[simp] theorem State.onSec_nextReq (f : Sec → Sec) (s : State) : (s.onSec f).nextReq = s.nextReq := rfl
@[simp] theorem State.onSec_image (f : Sec → Sec) (s : State) : (s.onSec f).image = s.image := rfl
@[simp] theorem State.onSec_free (f : Sec → Sec) (s : State) : (s.onSec f).free = s.free := rfl
@[simp] theorem State.onSec_emitted (f : Sec → Sec) (s : State) : (s.onSec f).emitted = s.emitted := rfl
@[simp] theorem State.onSec_pending (f : Sec → Sec) (s : State) : (s.onSec f).pending = s.pending := rfl

@[simp] theorem State.onHost_aon (f : HostIf → HostIf) (s : State) : (s.onHost f).aon = s.aon := rfl
@[simp] theorem State.onHost_ras (f : HostIf → HostIf) (s : State) : (s.onHost f).ras = s.ras := rfl
@[simp] theorem State.onHost_pwr (f : HostIf → HostIf) (s : State) : (s.onHost f).pwr = s.pwr := rfl
@[simp] theorem State.onHost_sec (f : HostIf → HostIf) (s : State) : (s.onHost f).sec = s.sec := rfl
@[simp] theorem State.onHost_host (f : HostIf → HostIf) (s : State) : (s.onHost f).host = f s.host := rfl
@[simp] theorem State.onHost_log (f : HostIf → HostIf) (s : State) : (s.onHost f).log = s.log := rfl
@[simp] theorem State.onHost_sch (f : HostIf → HostIf) (s : State) : (s.onHost f).sch = s.sch := rfl
@[simp] theorem State.onHost_eng (f : HostIf → HostIf) (s : State) : (s.onHost f).eng = s.eng := rfl
@[simp] theorem State.onHost_nbu (f : HostIf → HostIf) (s : State) : (s.onHost f).nbu = s.nbu := rfl
@[simp] theorem State.onHost_mem (f : HostIf → HostIf) (s : State) : (s.onHost f).mem = s.mem := rfl
@[simp] theorem State.onHost_home (f : HostIf → HostIf) (s : State) : (s.onHost f).home = s.home := rfl
@[simp] theorem State.onHost_locus (f : HostIf → HostIf) (s : State) : (s.onHost f).locus = s.locus := rfl
@[simp] theorem State.onHost_xpt (f : HostIf → HostIf) (s : State) : (s.onHost f).xpt = s.xpt := rfl
@[simp] theorem State.onHost_eth (f : HostIf → HostIf) (s : State) : (s.onHost f).eth = s.eth := rfl
@[simp] theorem State.onHost_reqs (f : HostIf → HostIf) (s : State) : (s.onHost f).reqs = s.reqs := rfl
@[simp] theorem State.onHost_nextReq (f : HostIf → HostIf) (s : State) : (s.onHost f).nextReq = s.nextReq := rfl
@[simp] theorem State.onHost_image (f : HostIf → HostIf) (s : State) : (s.onHost f).image = s.image := rfl
@[simp] theorem State.onHost_free (f : HostIf → HostIf) (s : State) : (s.onHost f).free = s.free := rfl
@[simp] theorem State.onHost_emitted (f : HostIf → HostIf) (s : State) : (s.onHost f).emitted = s.emitted := rfl
@[simp] theorem State.onHost_pending (f : HostIf → HostIf) (s : State) : (s.onHost f).pending = s.pending := rfl

@[simp] theorem State.onLog_aon (f : Log → Log) (s : State) : (s.onLog f).aon = s.aon := rfl
@[simp] theorem State.onLog_ras (f : Log → Log) (s : State) : (s.onLog f).ras = s.ras := rfl
@[simp] theorem State.onLog_pwr (f : Log → Log) (s : State) : (s.onLog f).pwr = s.pwr := rfl
@[simp] theorem State.onLog_sec (f : Log → Log) (s : State) : (s.onLog f).sec = s.sec := rfl
@[simp] theorem State.onLog_host (f : Log → Log) (s : State) : (s.onLog f).host = s.host := rfl
@[simp] theorem State.onLog_log (f : Log → Log) (s : State) : (s.onLog f).log = f s.log := rfl
@[simp] theorem State.onLog_sch (f : Log → Log) (s : State) : (s.onLog f).sch = s.sch := rfl
@[simp] theorem State.onLog_eng (f : Log → Log) (s : State) : (s.onLog f).eng = s.eng := rfl
@[simp] theorem State.onLog_nbu (f : Log → Log) (s : State) : (s.onLog f).nbu = s.nbu := rfl
@[simp] theorem State.onLog_mem (f : Log → Log) (s : State) : (s.onLog f).mem = s.mem := rfl
@[simp] theorem State.onLog_home (f : Log → Log) (s : State) : (s.onLog f).home = s.home := rfl
@[simp] theorem State.onLog_locus (f : Log → Log) (s : State) : (s.onLog f).locus = s.locus := rfl
@[simp] theorem State.onLog_xpt (f : Log → Log) (s : State) : (s.onLog f).xpt = s.xpt := rfl
@[simp] theorem State.onLog_eth (f : Log → Log) (s : State) : (s.onLog f).eth = s.eth := rfl
@[simp] theorem State.onLog_reqs (f : Log → Log) (s : State) : (s.onLog f).reqs = s.reqs := rfl
@[simp] theorem State.onLog_nextReq (f : Log → Log) (s : State) : (s.onLog f).nextReq = s.nextReq := rfl
@[simp] theorem State.onLog_image (f : Log → Log) (s : State) : (s.onLog f).image = s.image := rfl
@[simp] theorem State.onLog_free (f : Log → Log) (s : State) : (s.onLog f).free = s.free := rfl
@[simp] theorem State.onLog_emitted (f : Log → Log) (s : State) : (s.onLog f).emitted = s.emitted := rfl
@[simp] theorem State.onLog_pending (f : Log → Log) (s : State) : (s.onLog f).pending = s.pending := rfl

@[simp] theorem State.onSch_aon (f : Sch → Sch) (s : State) : (s.onSch f).aon = s.aon := rfl
@[simp] theorem State.onSch_ras (f : Sch → Sch) (s : State) : (s.onSch f).ras = s.ras := rfl
@[simp] theorem State.onSch_pwr (f : Sch → Sch) (s : State) : (s.onSch f).pwr = s.pwr := rfl
@[simp] theorem State.onSch_sec (f : Sch → Sch) (s : State) : (s.onSch f).sec = s.sec := rfl
@[simp] theorem State.onSch_host (f : Sch → Sch) (s : State) : (s.onSch f).host = s.host := rfl
@[simp] theorem State.onSch_log (f : Sch → Sch) (s : State) : (s.onSch f).log = s.log := rfl
@[simp] theorem State.onSch_sch (f : Sch → Sch) (s : State) : (s.onSch f).sch = f s.sch := rfl
@[simp] theorem State.onSch_eng (f : Sch → Sch) (s : State) : (s.onSch f).eng = s.eng := rfl
@[simp] theorem State.onSch_nbu (f : Sch → Sch) (s : State) : (s.onSch f).nbu = s.nbu := rfl
@[simp] theorem State.onSch_mem (f : Sch → Sch) (s : State) : (s.onSch f).mem = s.mem := rfl
@[simp] theorem State.onSch_home (f : Sch → Sch) (s : State) : (s.onSch f).home = s.home := rfl
@[simp] theorem State.onSch_locus (f : Sch → Sch) (s : State) : (s.onSch f).locus = s.locus := rfl
@[simp] theorem State.onSch_xpt (f : Sch → Sch) (s : State) : (s.onSch f).xpt = s.xpt := rfl
@[simp] theorem State.onSch_eth (f : Sch → Sch) (s : State) : (s.onSch f).eth = s.eth := rfl
@[simp] theorem State.onSch_reqs (f : Sch → Sch) (s : State) : (s.onSch f).reqs = s.reqs := rfl
@[simp] theorem State.onSch_nextReq (f : Sch → Sch) (s : State) : (s.onSch f).nextReq = s.nextReq := rfl
@[simp] theorem State.onSch_image (f : Sch → Sch) (s : State) : (s.onSch f).image = s.image := rfl
@[simp] theorem State.onSch_free (f : Sch → Sch) (s : State) : (s.onSch f).free = s.free := rfl
@[simp] theorem State.onSch_emitted (f : Sch → Sch) (s : State) : (s.onSch f).emitted = s.emitted := rfl
@[simp] theorem State.onSch_pending (f : Sch → Sch) (s : State) : (s.onSch f).pending = s.pending := rfl

@[simp] theorem State.onEng_aon (f : Engine → Engine) (s : State) : (s.onEng f).aon = s.aon := rfl
@[simp] theorem State.onEng_ras (f : Engine → Engine) (s : State) : (s.onEng f).ras = s.ras := rfl
@[simp] theorem State.onEng_pwr (f : Engine → Engine) (s : State) : (s.onEng f).pwr = s.pwr := rfl
@[simp] theorem State.onEng_sec (f : Engine → Engine) (s : State) : (s.onEng f).sec = s.sec := rfl
@[simp] theorem State.onEng_host (f : Engine → Engine) (s : State) : (s.onEng f).host = s.host := rfl
@[simp] theorem State.onEng_log (f : Engine → Engine) (s : State) : (s.onEng f).log = s.log := rfl
@[simp] theorem State.onEng_sch (f : Engine → Engine) (s : State) : (s.onEng f).sch = s.sch := rfl
@[simp] theorem State.onEng_eng (f : Engine → Engine) (s : State) : (s.onEng f).eng = f s.eng := rfl
@[simp] theorem State.onEng_nbu (f : Engine → Engine) (s : State) : (s.onEng f).nbu = s.nbu := rfl
@[simp] theorem State.onEng_mem (f : Engine → Engine) (s : State) : (s.onEng f).mem = s.mem := rfl
@[simp] theorem State.onEng_home (f : Engine → Engine) (s : State) : (s.onEng f).home = s.home := rfl
@[simp] theorem State.onEng_locus (f : Engine → Engine) (s : State) : (s.onEng f).locus = s.locus := rfl
@[simp] theorem State.onEng_xpt (f : Engine → Engine) (s : State) : (s.onEng f).xpt = s.xpt := rfl
@[simp] theorem State.onEng_eth (f : Engine → Engine) (s : State) : (s.onEng f).eth = s.eth := rfl
@[simp] theorem State.onEng_reqs (f : Engine → Engine) (s : State) : (s.onEng f).reqs = s.reqs := rfl
@[simp] theorem State.onEng_nextReq (f : Engine → Engine) (s : State) : (s.onEng f).nextReq = s.nextReq := rfl
@[simp] theorem State.onEng_image (f : Engine → Engine) (s : State) : (s.onEng f).image = s.image := rfl
@[simp] theorem State.onEng_free (f : Engine → Engine) (s : State) : (s.onEng f).free = s.free := rfl
@[simp] theorem State.onEng_emitted (f : Engine → Engine) (s : State) : (s.onEng f).emitted = s.emitted := rfl
@[simp] theorem State.onEng_pending (f : Engine → Engine) (s : State) : (s.onEng f).pending = s.pending := rfl

@[simp] theorem State.onMem_aon (f : Mem → Mem) (s : State) : (s.onMem f).aon = s.aon := rfl
@[simp] theorem State.onMem_ras (f : Mem → Mem) (s : State) : (s.onMem f).ras = s.ras := rfl
@[simp] theorem State.onMem_pwr (f : Mem → Mem) (s : State) : (s.onMem f).pwr = s.pwr := rfl
@[simp] theorem State.onMem_sec (f : Mem → Mem) (s : State) : (s.onMem f).sec = s.sec := rfl
@[simp] theorem State.onMem_host (f : Mem → Mem) (s : State) : (s.onMem f).host = s.host := rfl
@[simp] theorem State.onMem_log (f : Mem → Mem) (s : State) : (s.onMem f).log = s.log := rfl
@[simp] theorem State.onMem_sch (f : Mem → Mem) (s : State) : (s.onMem f).sch = s.sch := rfl
@[simp] theorem State.onMem_eng (f : Mem → Mem) (s : State) : (s.onMem f).eng = s.eng := rfl
@[simp] theorem State.onMem_nbu (f : Mem → Mem) (s : State) : (s.onMem f).nbu = s.nbu := rfl
@[simp] theorem State.onMem_mem (f : Mem → Mem) (s : State) : (s.onMem f).mem = f s.mem := rfl
@[simp] theorem State.onMem_home (f : Mem → Mem) (s : State) : (s.onMem f).home = s.home := rfl
@[simp] theorem State.onMem_locus (f : Mem → Mem) (s : State) : (s.onMem f).locus = s.locus := rfl
@[simp] theorem State.onMem_xpt (f : Mem → Mem) (s : State) : (s.onMem f).xpt = s.xpt := rfl
@[simp] theorem State.onMem_eth (f : Mem → Mem) (s : State) : (s.onMem f).eth = s.eth := rfl
@[simp] theorem State.onMem_reqs (f : Mem → Mem) (s : State) : (s.onMem f).reqs = s.reqs := rfl
@[simp] theorem State.onMem_nextReq (f : Mem → Mem) (s : State) : (s.onMem f).nextReq = s.nextReq := rfl
@[simp] theorem State.onMem_image (f : Mem → Mem) (s : State) : (s.onMem f).image = s.image := rfl
@[simp] theorem State.onMem_free (f : Mem → Mem) (s : State) : (s.onMem f).free = s.free := rfl
@[simp] theorem State.onMem_emitted (f : Mem → Mem) (s : State) : (s.onMem f).emitted = s.emitted := rfl
@[simp] theorem State.onMem_pending (f : Mem → Mem) (s : State) : (s.onMem f).pending = s.pending := rfl

@[simp] theorem State.onHome_aon (f : Home → Home) (s : State) : (s.onHome f).aon = s.aon := rfl
@[simp] theorem State.onHome_ras (f : Home → Home) (s : State) : (s.onHome f).ras = s.ras := rfl
@[simp] theorem State.onHome_pwr (f : Home → Home) (s : State) : (s.onHome f).pwr = s.pwr := rfl
@[simp] theorem State.onHome_sec (f : Home → Home) (s : State) : (s.onHome f).sec = s.sec := rfl
@[simp] theorem State.onHome_host (f : Home → Home) (s : State) : (s.onHome f).host = s.host := rfl
@[simp] theorem State.onHome_log (f : Home → Home) (s : State) : (s.onHome f).log = s.log := rfl
@[simp] theorem State.onHome_sch (f : Home → Home) (s : State) : (s.onHome f).sch = s.sch := rfl
@[simp] theorem State.onHome_eng (f : Home → Home) (s : State) : (s.onHome f).eng = s.eng := rfl
@[simp] theorem State.onHome_nbu (f : Home → Home) (s : State) : (s.onHome f).nbu = s.nbu := rfl
@[simp] theorem State.onHome_mem (f : Home → Home) (s : State) : (s.onHome f).mem = s.mem := rfl
@[simp] theorem State.onHome_home (f : Home → Home) (s : State) : (s.onHome f).home = f s.home := rfl
@[simp] theorem State.onHome_locus (f : Home → Home) (s : State) : (s.onHome f).locus = s.locus := rfl
@[simp] theorem State.onHome_xpt (f : Home → Home) (s : State) : (s.onHome f).xpt = s.xpt := rfl
@[simp] theorem State.onHome_eth (f : Home → Home) (s : State) : (s.onHome f).eth = s.eth := rfl
@[simp] theorem State.onHome_reqs (f : Home → Home) (s : State) : (s.onHome f).reqs = s.reqs := rfl
@[simp] theorem State.onHome_nextReq (f : Home → Home) (s : State) : (s.onHome f).nextReq = s.nextReq := rfl
@[simp] theorem State.onHome_image (f : Home → Home) (s : State) : (s.onHome f).image = s.image := rfl
@[simp] theorem State.onHome_free (f : Home → Home) (s : State) : (s.onHome f).free = s.free := rfl
@[simp] theorem State.onHome_emitted (f : Home → Home) (s : State) : (s.onHome f).emitted = s.emitted := rfl
@[simp] theorem State.onHome_pending (f : Home → Home) (s : State) : (s.onHome f).pending = s.pending := rfl

@[simp] theorem State.onLocus_aon (f : Locus → Locus) (s : State) : (s.onLocus f).aon = s.aon := rfl
@[simp] theorem State.onLocus_ras (f : Locus → Locus) (s : State) : (s.onLocus f).ras = s.ras := rfl
@[simp] theorem State.onLocus_pwr (f : Locus → Locus) (s : State) : (s.onLocus f).pwr = s.pwr := rfl
@[simp] theorem State.onLocus_sec (f : Locus → Locus) (s : State) : (s.onLocus f).sec = s.sec := rfl
@[simp] theorem State.onLocus_host (f : Locus → Locus) (s : State) : (s.onLocus f).host = s.host := rfl
@[simp] theorem State.onLocus_log (f : Locus → Locus) (s : State) : (s.onLocus f).log = s.log := rfl
@[simp] theorem State.onLocus_sch (f : Locus → Locus) (s : State) : (s.onLocus f).sch = s.sch := rfl
@[simp] theorem State.onLocus_eng (f : Locus → Locus) (s : State) : (s.onLocus f).eng = s.eng := rfl
@[simp] theorem State.onLocus_nbu (f : Locus → Locus) (s : State) : (s.onLocus f).nbu = s.nbu := rfl
@[simp] theorem State.onLocus_mem (f : Locus → Locus) (s : State) : (s.onLocus f).mem = s.mem := rfl
@[simp] theorem State.onLocus_home (f : Locus → Locus) (s : State) : (s.onLocus f).home = s.home := rfl
@[simp] theorem State.onLocus_locus (f : Locus → Locus) (s : State) : (s.onLocus f).locus = f s.locus := rfl
@[simp] theorem State.onLocus_xpt (f : Locus → Locus) (s : State) : (s.onLocus f).xpt = s.xpt := rfl
@[simp] theorem State.onLocus_eth (f : Locus → Locus) (s : State) : (s.onLocus f).eth = s.eth := rfl
@[simp] theorem State.onLocus_reqs (f : Locus → Locus) (s : State) : (s.onLocus f).reqs = s.reqs := rfl
@[simp] theorem State.onLocus_nextReq (f : Locus → Locus) (s : State) : (s.onLocus f).nextReq = s.nextReq := rfl
@[simp] theorem State.onLocus_image (f : Locus → Locus) (s : State) : (s.onLocus f).image = s.image := rfl
@[simp] theorem State.onLocus_free (f : Locus → Locus) (s : State) : (s.onLocus f).free = s.free := rfl
@[simp] theorem State.onLocus_emitted (f : Locus → Locus) (s : State) : (s.onLocus f).emitted = s.emitted := rfl
@[simp] theorem State.onLocus_pending (f : Locus → Locus) (s : State) : (s.onLocus f).pending = s.pending := rfl

@[simp] theorem State.onXpt_aon (f : Xpt → Xpt) (s : State) : (s.onXpt f).aon = s.aon := rfl
@[simp] theorem State.onXpt_ras (f : Xpt → Xpt) (s : State) : (s.onXpt f).ras = s.ras := rfl
@[simp] theorem State.onXpt_pwr (f : Xpt → Xpt) (s : State) : (s.onXpt f).pwr = s.pwr := rfl
@[simp] theorem State.onXpt_sec (f : Xpt → Xpt) (s : State) : (s.onXpt f).sec = s.sec := rfl
@[simp] theorem State.onXpt_host (f : Xpt → Xpt) (s : State) : (s.onXpt f).host = s.host := rfl
@[simp] theorem State.onXpt_log (f : Xpt → Xpt) (s : State) : (s.onXpt f).log = s.log := rfl
@[simp] theorem State.onXpt_sch (f : Xpt → Xpt) (s : State) : (s.onXpt f).sch = s.sch := rfl
@[simp] theorem State.onXpt_eng (f : Xpt → Xpt) (s : State) : (s.onXpt f).eng = s.eng := rfl
@[simp] theorem State.onXpt_nbu (f : Xpt → Xpt) (s : State) : (s.onXpt f).nbu = s.nbu := rfl
@[simp] theorem State.onXpt_mem (f : Xpt → Xpt) (s : State) : (s.onXpt f).mem = s.mem := rfl
@[simp] theorem State.onXpt_home (f : Xpt → Xpt) (s : State) : (s.onXpt f).home = s.home := rfl
@[simp] theorem State.onXpt_locus (f : Xpt → Xpt) (s : State) : (s.onXpt f).locus = s.locus := rfl
@[simp] theorem State.onXpt_xpt (f : Xpt → Xpt) (s : State) : (s.onXpt f).xpt = f s.xpt := rfl
@[simp] theorem State.onXpt_eth (f : Xpt → Xpt) (s : State) : (s.onXpt f).eth = s.eth := rfl
@[simp] theorem State.onXpt_reqs (f : Xpt → Xpt) (s : State) : (s.onXpt f).reqs = s.reqs := rfl
@[simp] theorem State.onXpt_nextReq (f : Xpt → Xpt) (s : State) : (s.onXpt f).nextReq = s.nextReq := rfl
@[simp] theorem State.onXpt_image (f : Xpt → Xpt) (s : State) : (s.onXpt f).image = s.image := rfl
@[simp] theorem State.onXpt_free (f : Xpt → Xpt) (s : State) : (s.onXpt f).free = s.free := rfl
@[simp] theorem State.onXpt_emitted (f : Xpt → Xpt) (s : State) : (s.onXpt f).emitted = s.emitted := rfl
@[simp] theorem State.onXpt_pending (f : Xpt → Xpt) (s : State) : (s.onXpt f).pending = s.pending := rfl

@[simp] theorem State.onEth_aon (f : Eth → Eth) (s : State) : (s.onEth f).aon = s.aon := rfl
@[simp] theorem State.onEth_ras (f : Eth → Eth) (s : State) : (s.onEth f).ras = s.ras := rfl
@[simp] theorem State.onEth_pwr (f : Eth → Eth) (s : State) : (s.onEth f).pwr = s.pwr := rfl
@[simp] theorem State.onEth_sec (f : Eth → Eth) (s : State) : (s.onEth f).sec = s.sec := rfl
@[simp] theorem State.onEth_host (f : Eth → Eth) (s : State) : (s.onEth f).host = s.host := rfl
@[simp] theorem State.onEth_log (f : Eth → Eth) (s : State) : (s.onEth f).log = s.log := rfl
@[simp] theorem State.onEth_sch (f : Eth → Eth) (s : State) : (s.onEth f).sch = s.sch := rfl
@[simp] theorem State.onEth_eng (f : Eth → Eth) (s : State) : (s.onEth f).eng = s.eng := rfl
@[simp] theorem State.onEth_nbu (f : Eth → Eth) (s : State) : (s.onEth f).nbu = s.nbu := rfl
@[simp] theorem State.onEth_mem (f : Eth → Eth) (s : State) : (s.onEth f).mem = s.mem := rfl
@[simp] theorem State.onEth_home (f : Eth → Eth) (s : State) : (s.onEth f).home = s.home := rfl
@[simp] theorem State.onEth_locus (f : Eth → Eth) (s : State) : (s.onEth f).locus = s.locus := rfl
@[simp] theorem State.onEth_xpt (f : Eth → Eth) (s : State) : (s.onEth f).xpt = s.xpt := rfl
@[simp] theorem State.onEth_eth (f : Eth → Eth) (s : State) : (s.onEth f).eth = f s.eth := rfl
@[simp] theorem State.onEth_reqs (f : Eth → Eth) (s : State) : (s.onEth f).reqs = s.reqs := rfl
@[simp] theorem State.onEth_nextReq (f : Eth → Eth) (s : State) : (s.onEth f).nextReq = s.nextReq := rfl
@[simp] theorem State.onEth_image (f : Eth → Eth) (s : State) : (s.onEth f).image = s.image := rfl
@[simp] theorem State.onEth_free (f : Eth → Eth) (s : State) : (s.onEth f).free = s.free := rfl
@[simp] theorem State.onEth_emitted (f : Eth → Eth) (s : State) : (s.onEth f).emitted = s.emitted := rfl
@[simp] theorem State.onEth_pending (f : Eth → Eth) (s : State) : (s.onEth f).pending = s.pending := rfl

@[simp] theorem State.onReqs_aon (f : Tbl Req → Tbl Req) (s : State) : (s.onReqs f).aon = s.aon := rfl
@[simp] theorem State.onReqs_ras (f : Tbl Req → Tbl Req) (s : State) : (s.onReqs f).ras = s.ras := rfl
@[simp] theorem State.onReqs_pwr (f : Tbl Req → Tbl Req) (s : State) : (s.onReqs f).pwr = s.pwr := rfl
@[simp] theorem State.onReqs_sec (f : Tbl Req → Tbl Req) (s : State) : (s.onReqs f).sec = s.sec := rfl
@[simp] theorem State.onReqs_host (f : Tbl Req → Tbl Req) (s : State) : (s.onReqs f).host = s.host := rfl
@[simp] theorem State.onReqs_log (f : Tbl Req → Tbl Req) (s : State) : (s.onReqs f).log = s.log := rfl
@[simp] theorem State.onReqs_sch (f : Tbl Req → Tbl Req) (s : State) : (s.onReqs f).sch = s.sch := rfl
@[simp] theorem State.onReqs_eng (f : Tbl Req → Tbl Req) (s : State) : (s.onReqs f).eng = s.eng := rfl
@[simp] theorem State.onReqs_nbu (f : Tbl Req → Tbl Req) (s : State) : (s.onReqs f).nbu = s.nbu := rfl
@[simp] theorem State.onReqs_mem (f : Tbl Req → Tbl Req) (s : State) : (s.onReqs f).mem = s.mem := rfl
@[simp] theorem State.onReqs_home (f : Tbl Req → Tbl Req) (s : State) : (s.onReqs f).home = s.home := rfl
@[simp] theorem State.onReqs_locus (f : Tbl Req → Tbl Req) (s : State) : (s.onReqs f).locus = s.locus := rfl
@[simp] theorem State.onReqs_xpt (f : Tbl Req → Tbl Req) (s : State) : (s.onReqs f).xpt = s.xpt := rfl
@[simp] theorem State.onReqs_eth (f : Tbl Req → Tbl Req) (s : State) : (s.onReqs f).eth = s.eth := rfl
@[simp] theorem State.onReqs_reqs (f : Tbl Req → Tbl Req) (s : State) : (s.onReqs f).reqs = f s.reqs := rfl
@[simp] theorem State.onReqs_nextReq (f : Tbl Req → Tbl Req) (s : State) : (s.onReqs f).nextReq = s.nextReq := rfl
@[simp] theorem State.onReqs_image (f : Tbl Req → Tbl Req) (s : State) : (s.onReqs f).image = s.image := rfl
@[simp] theorem State.onReqs_free (f : Tbl Req → Tbl Req) (s : State) : (s.onReqs f).free = s.free := rfl
@[simp] theorem State.onReqs_emitted (f : Tbl Req → Tbl Req) (s : State) : (s.onReqs f).emitted = s.emitted := rfl
@[simp] theorem State.onReqs_pending (f : Tbl Req → Tbl Req) (s : State) : (s.onReqs f).pending = s.pending := rfl

@[simp] theorem State.onNbu_aon (r : Nat) (f : NbRegion → NbRegion) (s : State) : (s.onNbu r f).aon = s.aon := rfl
@[simp] theorem State.onNbu_ras (r : Nat) (f : NbRegion → NbRegion) (s : State) : (s.onNbu r f).ras = s.ras := rfl
@[simp] theorem State.onNbu_pwr (r : Nat) (f : NbRegion → NbRegion) (s : State) : (s.onNbu r f).pwr = s.pwr := rfl
@[simp] theorem State.onNbu_sec (r : Nat) (f : NbRegion → NbRegion) (s : State) : (s.onNbu r f).sec = s.sec := rfl
@[simp] theorem State.onNbu_host (r : Nat) (f : NbRegion → NbRegion) (s : State) : (s.onNbu r f).host = s.host := rfl
@[simp] theorem State.onNbu_log (r : Nat) (f : NbRegion → NbRegion) (s : State) : (s.onNbu r f).log = s.log := rfl
@[simp] theorem State.onNbu_sch (r : Nat) (f : NbRegion → NbRegion) (s : State) : (s.onNbu r f).sch = s.sch := rfl
@[simp] theorem State.onNbu_eng (r : Nat) (f : NbRegion → NbRegion) (s : State) : (s.onNbu r f).eng = s.eng := rfl
@[simp] theorem State.onNbu_nbu (r : Nat) (f : NbRegion → NbRegion) (s : State) : (s.onNbu r f).nbu = s.nbu.modify r f := rfl
@[simp] theorem State.onNbu_mem (r : Nat) (f : NbRegion → NbRegion) (s : State) : (s.onNbu r f).mem = s.mem := rfl
@[simp] theorem State.onNbu_home (r : Nat) (f : NbRegion → NbRegion) (s : State) : (s.onNbu r f).home = s.home := rfl
@[simp] theorem State.onNbu_locus (r : Nat) (f : NbRegion → NbRegion) (s : State) : (s.onNbu r f).locus = s.locus := rfl
@[simp] theorem State.onNbu_xpt (r : Nat) (f : NbRegion → NbRegion) (s : State) : (s.onNbu r f).xpt = s.xpt := rfl
@[simp] theorem State.onNbu_eth (r : Nat) (f : NbRegion → NbRegion) (s : State) : (s.onNbu r f).eth = s.eth := rfl
@[simp] theorem State.onNbu_reqs (r : Nat) (f : NbRegion → NbRegion) (s : State) : (s.onNbu r f).reqs = s.reqs := rfl
@[simp] theorem State.onNbu_nextReq (r : Nat) (f : NbRegion → NbRegion) (s : State) : (s.onNbu r f).nextReq = s.nextReq := rfl
@[simp] theorem State.onNbu_image (r : Nat) (f : NbRegion → NbRegion) (s : State) : (s.onNbu r f).image = s.image := rfl
@[simp] theorem State.onNbu_free (r : Nat) (f : NbRegion → NbRegion) (s : State) : (s.onNbu r f).free = s.free := rfl
@[simp] theorem State.onNbu_emitted (r : Nat) (f : NbRegion → NbRegion) (s : State) : (s.onNbu r f).emitted = s.emitted := rfl
@[simp] theorem State.onNbu_pending (r : Nat) (f : NbRegion → NbRegion) (s : State) : (s.onNbu r f).pending = s.pending := rfl

@[simp] theorem State.onImage_aon (i : Option PersistImage) (s : State) : (s.onImage i).aon = s.aon := rfl
@[simp] theorem State.onImage_ras (i : Option PersistImage) (s : State) : (s.onImage i).ras = s.ras := rfl
@[simp] theorem State.onImage_pwr (i : Option PersistImage) (s : State) : (s.onImage i).pwr = s.pwr := rfl
@[simp] theorem State.onImage_sec (i : Option PersistImage) (s : State) : (s.onImage i).sec = s.sec := rfl
@[simp] theorem State.onImage_host (i : Option PersistImage) (s : State) : (s.onImage i).host = s.host := rfl
@[simp] theorem State.onImage_log (i : Option PersistImage) (s : State) : (s.onImage i).log = s.log := rfl
@[simp] theorem State.onImage_sch (i : Option PersistImage) (s : State) : (s.onImage i).sch = s.sch := rfl
@[simp] theorem State.onImage_eng (i : Option PersistImage) (s : State) : (s.onImage i).eng = s.eng := rfl
@[simp] theorem State.onImage_nbu (i : Option PersistImage) (s : State) : (s.onImage i).nbu = s.nbu := rfl
@[simp] theorem State.onImage_mem (i : Option PersistImage) (s : State) : (s.onImage i).mem = s.mem := rfl
@[simp] theorem State.onImage_home (i : Option PersistImage) (s : State) : (s.onImage i).home = s.home := rfl
@[simp] theorem State.onImage_locus (i : Option PersistImage) (s : State) : (s.onImage i).locus = s.locus := rfl
@[simp] theorem State.onImage_xpt (i : Option PersistImage) (s : State) : (s.onImage i).xpt = s.xpt := rfl
@[simp] theorem State.onImage_eth (i : Option PersistImage) (s : State) : (s.onImage i).eth = s.eth := rfl
@[simp] theorem State.onImage_reqs (i : Option PersistImage) (s : State) : (s.onImage i).reqs = s.reqs := rfl
@[simp] theorem State.onImage_nextReq (i : Option PersistImage) (s : State) : (s.onImage i).nextReq = s.nextReq := rfl
@[simp] theorem State.onImage_image (i : Option PersistImage) (s : State) : (s.onImage i).image = i := rfl
@[simp] theorem State.onImage_free (i : Option PersistImage) (s : State) : (s.onImage i).free = s.free := rfl
@[simp] theorem State.onImage_emitted (i : Option PersistImage) (s : State) : (s.onImage i).emitted = s.emitted := rfl
@[simp] theorem State.onImage_pending (i : Option PersistImage) (s : State) : (s.onImage i).pending = s.pending := rfl

@[simp] theorem State.emit_aon (e : Emit) (s : State) : (s.emit e).aon = s.aon := rfl
@[simp] theorem State.emit_ras (e : Emit) (s : State) : (s.emit e).ras = s.ras := rfl
@[simp] theorem State.emit_pwr (e : Emit) (s : State) : (s.emit e).pwr = s.pwr := rfl
@[simp] theorem State.emit_sec (e : Emit) (s : State) : (s.emit e).sec = s.sec := rfl
@[simp] theorem State.emit_host (e : Emit) (s : State) : (s.emit e).host = s.host := rfl
@[simp] theorem State.emit_log (e : Emit) (s : State) : (s.emit e).log = s.log := rfl
@[simp] theorem State.emit_sch (e : Emit) (s : State) : (s.emit e).sch = s.sch := rfl
@[simp] theorem State.emit_eng (e : Emit) (s : State) : (s.emit e).eng = s.eng := rfl
@[simp] theorem State.emit_nbu (e : Emit) (s : State) : (s.emit e).nbu = s.nbu := rfl
@[simp] theorem State.emit_mem (e : Emit) (s : State) : (s.emit e).mem = s.mem := rfl
@[simp] theorem State.emit_home (e : Emit) (s : State) : (s.emit e).home = s.home := rfl
@[simp] theorem State.emit_locus (e : Emit) (s : State) : (s.emit e).locus = s.locus := rfl
@[simp] theorem State.emit_xpt (e : Emit) (s : State) : (s.emit e).xpt = s.xpt := rfl
@[simp] theorem State.emit_eth (e : Emit) (s : State) : (s.emit e).eth = s.eth := rfl
@[simp] theorem State.emit_reqs (e : Emit) (s : State) : (s.emit e).reqs = s.reqs := rfl
@[simp] theorem State.emit_nextReq (e : Emit) (s : State) : (s.emit e).nextReq = s.nextReq := rfl
@[simp] theorem State.emit_image (e : Emit) (s : State) : (s.emit e).image = s.image := rfl
@[simp] theorem State.emit_free (e : Emit) (s : State) : (s.emit e).free = s.free := rfl
@[simp] theorem State.emit_emitted (e : Emit) (s : State) : (s.emit e).emitted = s.emitted ++ [e] := rfl
@[simp] theorem State.emit_pending (e : Emit) (s : State) : (s.emit e).pending = s.pending := rfl

@[simp] theorem State.bump_aon (s : State) : s.bump.aon = s.aon := rfl
@[simp] theorem State.bump_ras (s : State) : s.bump.ras = s.ras := rfl
@[simp] theorem State.bump_pwr (s : State) : s.bump.pwr = s.pwr := rfl
@[simp] theorem State.bump_sec (s : State) : s.bump.sec = s.sec := rfl
@[simp] theorem State.bump_host (s : State) : s.bump.host = s.host := rfl
@[simp] theorem State.bump_log (s : State) : s.bump.log = s.log := rfl
@[simp] theorem State.bump_sch (s : State) : s.bump.sch = s.sch := rfl
@[simp] theorem State.bump_eng (s : State) : s.bump.eng = s.eng := rfl
@[simp] theorem State.bump_nbu (s : State) : s.bump.nbu = s.nbu := rfl
@[simp] theorem State.bump_mem (s : State) : s.bump.mem = s.mem := rfl
@[simp] theorem State.bump_home (s : State) : s.bump.home = s.home := rfl
@[simp] theorem State.bump_locus (s : State) : s.bump.locus = s.locus := rfl
@[simp] theorem State.bump_xpt (s : State) : s.bump.xpt = s.xpt := rfl
@[simp] theorem State.bump_eth (s : State) : s.bump.eth = s.eth := rfl
@[simp] theorem State.bump_reqs (s : State) : s.bump.reqs = s.reqs := rfl
@[simp] theorem State.bump_nextReq (s : State) : s.bump.nextReq = s.nextReq := rfl
@[simp] theorem State.bump_image (s : State) : s.bump.image = s.image := rfl
@[simp] theorem State.bump_free (s : State) : s.bump.free = s.free + 1 := rfl
@[simp] theorem State.bump_emitted (s : State) : s.bump.emitted = s.emitted := rfl
@[simp] theorem State.bump_pending (s : State) : s.bump.pending = s.pending := rfl

@[simp] theorem State.now_eq (s : State) : s.now = s.aon.now := rfl
/-- A command on a running node has its effect; on any other it has none. -/
theorem State.whenUp_up {f : State → State} {s : State} (h : s.running = true) : s.whenUp f = f s := by simp [State.whenUp, h]
theorem State.whenUp_down {f : State → State} {s : State} (h : s.running = false) : s.whenUp f = s := by simp [State.whenUp, h]

end Sys2Proof.Machine
end

