-- ==== Sys2Proof/Tests/Slice0.lean ====
section
/-! SUPPORT. Tests: ill-formed commands that the checks refuse, the spec's worked examples, and for every statement with hypotheses a
state and operands that meet them. -/

namespace Sys2Proof.Tests

open Sys2Proof Sys2Proof.Machine

set_option Elab.async false

/-! ## Small states -/

/-- A requester's context, connected, with HELLO done. -/
def cx : Ctx := { state := .rts, level := some 3, rid := 5 }

/-- A slice with two stacks, four blocks and one prefix block. -/
def cfg0 : SliceCfg :=
  { blocks := 0xf, stackList := [0, 1], ports := 1, entryQuota := 100, accQuota := 100, ctxLimit := 64, ctxDie := 64,
    locus := { blocks := 1, modelEpochs := [7], nodeQuota := 100, ovfQuota := 100 } }

/-- A node that runs, with slice 0 SERVING, port 0 up, queue pair 2 connected, one service key, and a map that names it. -/
def node : State :=
  { aon := { now := 1000000000, phase := .running, bootStage := 8, stacksUp := true, stopped := [], resetLow := false }
    sch := { slices := { state := .serving, cfg := cfg0, valid := true } :: List.replicate 7 {}, bsLoaded := true }
    eth := { ports := { mode := 1, linkUp := true, lanes := 3 } :: List.replicate 7 {}, groups := [(0, { cfg := { gRate := 0xfffff, gBurst := 100 } })] }
    xpt := { ctxs := [(2, cx)], serviceKeys := [(0, { rights := 0x1ff, hi := 2 ^ 64 - 1 })] }
    host := { linkUp := true }
    home := { cur := some { generation := 1 } } }

/-- The header of a request without a key. -/
def hdr : ExtHdr := { mapGen := 1 }

/-- The header of a request under service key 0. -/
def keyed : ExtHdr := { mapGen := 1, key := mkKey 1 0 0 }

/-- A change of the context of queue pair 2. -/
def withCtx (f : Ctx → Ctx) (s : State) : State := { s with xpt := { s.xpt with ctxs := [(2, f cx)] } }
/-- A change of the home state. -/
def withHome (f : Home → Home) (s : State) : State := { s with home := f s.home }
/-- A change of the always-on logic. -/
def withAon (f : Aon → Aon) (s : State) : State := { s with aon := f s.aon }
/-- A change of the power state. -/
def withPwr (f : Pwr → Pwr) (s : State) : State := { s with pwr := f s.pwr }
/-- A change of the host interface. -/
def withHost (f : HostIf → HostIf) (s : State) : State := { s with host := f s.host }
/-- A change of slice 0. -/
def withSlice (f : SliceS → SliceS) (s : State) : State := { s with sch := { s.sch with slices := s.sch.slices.modify 0 f } }
/-- A change of port 0. -/
def withPort (f : PortS → PortS) (s : State) : State := { s with eth := { s.eth with ports := s.eth.ports.modify 0 f } }

/-- Page 0 of layer 0 of a sequence, published in a frame of stack 0. -/
def page (handle : Nat) : Entry :=
  { name := { handle := handle }, frameState := .stack, pageState := .published, stackFrame := (0, 64), fill := 16, frameGen := 9 }

/-- A state with one page. -/
def paged (s : State) : State := withHome (fun h => { h with entries := [page 1] }) s

/-! ## Witnesses -/

theorem test_idle_phases : node.pending = [] ∧ node.aon.phase ≠ .coldWait ∧ node.aon.phase ≠ .tripped ∧
    (withAon (fun a => { a with phase := .coldWait }) node).aon.phase = .coldWait := by decide +kernel

theorem test_stopped : State.reset.running = false := by decide +kernel

theorem test_invariants : node.MemOk ∧ node.ReqsOk ∧ ∃ t, step node = .next t := ⟨rfl, ⟨by decide, by decide⟩, _, rfl⟩

/-- The example of R53. -/
theorem test_interleave : decodeOffset (addrOffset 0xa081234500) = { sid := 0, pc := 55, bank := 8, row := 2066, seg := 1, byte := 0 } ∧
    addrStack 0xa081234500 = 5 ∧ (decodeOffset (addrOffset 0xa081234500)).channel = 27 ∧
    (decodeOffset (addrOffset 0xa081234500)).die = 3 := by decide +kernel

/-- A packet of queue pair 2. -/
def pkt (psn : Nat) : Pkt := { psn := psn }

theorem test_sequence_arrives : (node.arrive (pkt 0) (.statOwnQp hdr) false).toOption.isSome = true ∧
    (node.arrive (pkt (2 ^ 23)) (.statOwnQp hdr) false).toOption.isSome = true ∧
    (node.arrive (pkt (2 ^ 23 - 1)) (.statOwnQp hdr) false).toOption.isSome = true ∧
    (requestOf node (.statOwnQp hdr)).isSome = true := by decide +kernel

/-- What reception made of a packet: 0 no further, 1 duplicate, 2 expected. -/
def rxKind : Rx → Nat
  | .over _ => 0
  | .duplicate _ _ => 1
  | .fresh _ _ => 2

theorem test_sequence_kinds : rxKind (node.receive (pkt 0) (.statOwnQp hdr) 1) = 2 ∧ rxKind (node.receive (pkt (2 ^ 23)) (.statOwnQp hdr) 1) = 1 ∧
    rxKind (node.receive (pkt (2 ^ 23 - 1)) (.statOwnQp hdr) 1) = 0 ∧ rxKind (node.receive (pkt 1) (.statOwnQp hdr) 1) = 0 := by decide +kernel

/-- The code of a request that arrives as the expected packet. -/
def codeOf (cmd : Instr) (s : State) : Option Code :=
  match requestOf s cmd with
  | none => none
  | some (h, sp) => match s.settle.receive h.pkt cmd (max 1 h.packets) with
    | .fresh c s1 => some ((s1.acceptPsn h.pkt (max 1 h.packets)).extCode c h (sp c))
    | _ => none

theorem test_refused : codeOf (.unpin keyed {}) (withAon (fun a => { a with selfCause := 1 }) node) = some .fenced ∧
    codeOf (.unpin { keyed with reserved := true } {}) node = some .formatError ∧ codeOf (.unpin hdr {}) node = some .keyFault ∧
    codeOf (.unpin keyed {}) node = some .ok := by decide +kernel

/-- A query of one row. -/
def fwd : FwdParams := { query := [List.replicate 32 0] }

theorem test_attend : (admission keyed (.attendFwd keyed fwd) (fwdSpec keyed fwd node) node.settle).isSome = true := by decide +kernel

/-- The pages that a request resolves to. -/
def fwdItems (p : FwdParams) (s2 : State) (c : Ctx) : List Item :=
  let a := s2.addReq keyed 0 c (s2.onPrevious c.slice keyed.mapGen 0 p.handle true) (.attend p [] [] [] 0)
  (a.2.resolveRange { r := a.1, slice := c.slice, cls := a.2.classOf c.slice c.group, phase := (a.2.cfg c.slice).phaseMode, p := p }).1

theorem test_attend_no_wait : (match admission keyed (.attendFwd keyed fwd) (fwdSpec keyed fwd node) node.settle with
    | some (c, s2) => (fwdItems fwd s2 c).all (fun i => match i.res with
      | .await _ => false
      | _ => true)
    | none => false) = true := by decide +kernel

/-- An ATTEND_BWD of the first page of a sequence. -/
def bwd : BwdParams := { handle := 1 }
/-- One row of it. -/
def bwdAcc : BwdParams :=
  { handle := 1, rowsPerHead := 1, scale := 0x3f800000, rows := [{ q := List.replicate 32 0, dO := List.replicate 32 0 }], mask := some {} }
/-- A sequence with a page. -/
def training : State := paged node
/-- Its accumulator. -/
def acc1 : Accumulator := { name := { handle := 1 }, frameGen := 9, parts := [(0, 0, 1)] }
/-- The page has an accumulator. -/
def opened : State := withHome (fun h => { h with accs := [acc1] }) training

theorem test_bwd_open : (match admission keyed (.attendBwdOpen keyed bwd) (openSpec keyed bwd training) training.settle with
    | some (c, s2) => (s2.openAll c.slice bwd.accPass (bwdNames (s2.format c.slice) bwd)).isSome
    | none => false) = true := by decide +kernel

theorem test_bwd_open_page : training.accOf 0 { handle := 1 } = none ∧
    ((training.openPage 0 0 { handle := 1 }).map Prod.fst) = some .ok := by decide +kernel

theorem test_bwd_accumulate : opened.ReqsOk ∧
    (admission keyed (.attendBwdAccumulate keyed bwdAcc) (accSpec keyed bwdAcc opened) opened.settle).isSome = true :=
  ⟨⟨by decide, by decide⟩, by decide +kernel⟩

/-- A request that waits with number 0. -/
def waiting (k : ReqKind) (op : Nat) (s : State) : State :=
  { s with reqs := [(0, { qpn := 2, hdr := keyed, op := op, kind := k })], nextReq := 1 }

/-- An ACCUMULATE whose page is done, with what it adds. -/
def staged (tags : List Nat) : State :=
  waiting (.bwd bwdAcc [PageWait.done .ok] [{ page := 0, rows := [{}] }]) 1
    (withHome (fun h => { h with accs := [{ acc1 with tags := tags }] }) training)

theorem test_commit : (staged []).ReqsOk ∧ (staged []).claimedBefore 0 0 [({ handle := 1 }, 0)] = false ∧
    ((staged []).ctx 2).map Ctx.state = some .rts ∧ pageCodes [PageWait.done .ok] = some [.ok] ∧
    (staged []).commitCodes 0 bwdAcc (bwdNames ((staged []).format 0) bwdAcc) [.ok] [{ page := 0, rows := [{}] }] = [.ok] ∧
    ((staged [0]).accOf 0 { handle := 1 }).map Accumulator.tags = some [0] :=
  ⟨⟨by decide, by decide⟩, by decide +kernel, by decide +kernel, by decide +kernel, by decide +kernel, by decide +kernel⟩

theorem test_bwd_collect : (admission keyed (.attendBwdCollect keyed bwd) (collectSpec keyed bwd opened) opened.settle).isSome = true ∧
    (admission keyed (.attendBwdDiscard keyed bwd) (discardSpec keyed bwd opened) opened.settle).isSome = true := by decide +kernel

/-- A parked context that is ready. -/
def parked : ParkedCtx := { req := 0, slotState := 2, name := { handle := 1 } }
/-- A change of the engine. -/
def withEng (f : Engine → Engine) (s : State) : State := { s with eng := f s.eng }

/-- An ATTEND_FWD that waits for its one page in context 0. -/
def parkedFwd (c : ParkedCtx) (now deadline : Nat) : State :=
  withAon (fun a => { a with now := now }) (withEng (fun e => { e with ctxs := [(0, c)] })
    (waiting (.attend { fwd with deadline := deadline } [PageWait.waiting 0 0 []] [] [] 0) 0 node))

theorem test_resume : (node.cellFor { parked with acc := some {} }).isSome = true ∧
    (withSlice (fun x => { x with cfg := { cfg0 with blocks := 0 } }) node).cellFor { parked with acc := some {} } = none ∧
    (parkedFwd parked 1000 0).eng.ctxs.get? 0 = some parked ∧ (parkedFwd parked 1000 0).running = true ∧
    ((parkedFwd parked 1000 0).reqs.get? parked.req).isSome = true ∧ ((parkedFwd parked 1000 0).ctx 2).map Ctx.state = some .rts := by
  decide +kernel

theorem test_deadline : let s := parkedFwd { parked with slotState := 0 } 1000000000 1000000000
    s.ReqsOk ∧ s.running = true ∧ ((1000000000 : Nat) : Int) - (s.cfg 0).tier.deadlineMargin * 1000 ≤ s.now ∧
    (s.ctx 2).map Ctx.state = some .rts ∧ pageCodes ([PageWait.waiting 0 0 []].set 0 (PageWait.done .miss)) = some [.miss] :=
  ⟨⟨by decide, by decide⟩, by decide +kernel, by decide +kernel, by decide +kernel, by decide +kernel⟩

/-- Block 0 with a change. -/
def withBlock (f : BlockS → BlockS) : State := withEng (fun e => { e with blocks := e.blocks.modify 0 f }) node
/-- Block 0 with live groups of class 3 in every cell. -/
def fullBlock : State := withBlock (fun b => { b with cells := List.replicate 5 { live := some { tg := { cls := 3 } }, shadow := some {} } })
/-- A tile whose operands come with it. -/
def stagedStep : TileStep := { staged := some ([[0x3f80]], [[0x3f80]]) }
/-- A tile of page 0 of a sequence. -/
def pageStep : TileStep := { page := { handle := 1 }, keySet := [List.replicate 32 true] }
/-- A tile group of one row over such tiles. -/
def group2 (ts : List TileStep) : TileGroup := { rows := 1, cols := 32, tiles := ts }
/-- A group that is live, before its first product. -/
def liveAccum (ts : List TileStep) : Accum :=
  { tg := group2 ts, rows := [.empty 32], src := some ({ handle := 1 }, { frame := (0, 64), fill := 16 }) }
/-- Block 0 with such a group in slot 0 and some faults that wait. -/
def liveIn (ts : List TileStep) (rs : List Retry) : State :=
  withBlock (fun b => { b with cells := b.cells.set 0 { live := some (liveAccum ts), vec := [.empty 32] }, retries := rs })

theorem test_tiles_place : node.running = true ∧ node.blockUp 0 = true ∧ node.blockUp 9 = false ∧ (node.blocksOf 0).contains 0 = true ∧
    (∀ x ∈ fullBlock.workingPos 0, ∀ cls, cls < 4 → fullBlock.cellFree 0 x.2 cls = false) ∧ (node.block 0).ready = [] ∧
    (node.workingPos 0).find? (fun x => node.cellFree 0 x.2 0) = some (0, 0) ∧ (group2 [stagedStep]).tiles = [stagedStep] := by decide +kernel

theorem test_tiles_product : let s := liveIn [stagedStep, stagedStep] []
    (s.block 0).slots.getD 0 none = some 0 ∧ ((s.block 0).cell 0).need = false ∧
    ((s.block 0).cell 0).live.bind Accum.step = some stagedStep ∧
    (liveAccum [pageStep, pageStep]).step = some pageStep ∧ ((liveAccum [pageStep]).src.map Prod.fst) = some pageStep.page ∧
    (liveAccum [pageStep, pageStep]).tg.tiles[1]? = some pageStep := by decide +kernel

/-- A product over buffers whose parity holds, and one over a buffer with a bit turned over. -/
theorem test_tiles_checks : (node.runProduct (liveAccum [stagedStep]) stagedStep true (.load [0x80, 0x3f]) (.load [0x80, 0x3f]) {}).toOption.isSome = true ∧
    (match node.runProduct (liveAccum [stagedStep]) stagedStep true (.load [0x80, 0x3f]) (.load [0x80, 0x3f]) { flipA := [3] } with
      | .error d => some d
      | .ok _ => none) = some 1 := by decide +kernel

theorem test_tiles_retry : let s := liveIn [stagedStep] [{}]
    (s.block 0).retries = [{}] ∧ s.retryCell 0 {} = some (1, 1) ∧ (s.unit (cellKey 0 0)).state = .inService ∧
    s.homeOf 0 0 = some (0, 0) ∧ ((s.fillCell 0 0).retryProduct (0, 0) {}).isSome = true ∧
    (withBlock (fun b => { b with slots := [some 0, none, none, none] })).retryCell 0 {} = some (0, 0) := by decide +kernel

/-- No class finds a cell of the full block free: shadows are taken. -/
theorem test_tiles_full : ∀ x ∈ fullBlock.workingPos 0, ∀ cls, fullBlock.cellFree 0 x.2 cls = false := by
  have h : fullBlock.workingPos 0 = [(0, 0), (1, 1), (2, 2), (3, 3)] := by decide +kernel
  rw [h]; intro x hx cls
  have hc : (fullBlock.block 0).cell x.2 = { live := some { tg := { cls := 3 } }, shadow := some {} } := by
    simp only [List.mem_cons, List.not_mem_nil, or_false] at hx
    rcases hx with rfl | rfl | rfl | rfl <;> decide +kernel
  simp [State.cellFree, hc]

theorem test_links : linkKey 0 0 < node.eng.links.length ∧ (node.link (linkKey 0 0)).failed = false ∧
    (node.link (linkKey 0 0)).waiting = false ∧ (node.link (linkKey 0 0)).replays < 16 ∧ (node.link (linkKey 0 0)).buffer = [] ∧
    16 ≤ ((withEng (fun e => { e with links := List.replicate 24 { replays := 16 } }) node).link (linkKey 7 2)).replays ∧
    linkKey 7 2 < node.eng.links.length ∧ (List.range 64).any (fun u => unitRouter u = linkFar 0 0) = true ∧
    (List.range 64).any (fun u => unitRouter u ≠ linkFar 0 0 ∧ ((node.nextHop (linkFar 0 0) (unitRouter u)).any (fun l =>
      linkKey (linkFar 0 0) l ≠ linkKey 0 0 ∧ linkKey (linkFar 0 0) l < node.eng.links.length))) = true ∧
    ({ out := [{}] } : LinkS).pick = some {} := by decide +kernel

/-- A change of the reliability state. -/
def withRas (f : Ras → Ras) (s : State) : State := { s with ras := f s.ras }

theorem test_storage : let s1 := node.takeSlot 0 1 (sramBank 0x1000000)
    pageSpace 0x1000000 = true ∧ node.stackFenced (addrStack 0x1000000) = false ∧ s1.faultedAt 0x1000000 = none ∧
    s1.collides (s1.placed 0x1000000) = false ∧ s1.lineBarred 0x1000000 = false ∧
    node.ras.sramWithdrawn = [] ∧ node.ras.sramRefilled = [] ∧
    (withRas (fun r => { r with sramRefilled := [(0, sramLine 0x1000000)] }) node).ras.sramRefilled.contains (0, sramLine 0x1000000) = true ∧
    ((withBlock (fun b => { b with faulted := [{ addr := 0x1000000 }] })).takeSlot 0 1 (sramBank 0x1000000)).faultedAt 0x1000000 =
      some (0, { addr := 0x1000000 }) := by decide +kernel

theorem test_scrub : node.stackFenced 3 = false ∧ implementedOffset (addrOffset (nodeAddr 3 0x1000000)) = true ∧
    (node.takeStack 5 (nodeAddr 3 0x1000000)).collides (nodeAddr 3 0x1000000) = false := by decide +kernel

/-- The cell of slot 1 retires. -/
def retiringCell : State := withBlock (fun b => { b with cells := b.cells.set 1 { retiring := true } })

theorem test_cell_move : (List.range 4).findSome? (fun i => (retiringCell.moving 0 i).map (fun p => (i, p))) = some (1, 1) ∧
    ((retiringCell.block 0).cell 1).shadow = none ∧ (retiringCell.block 0).spareUsed = false ∧
    (retiringCell.block 0).slots.contains (some 4) = false := by decide +kernel

/-- A unit in retest. -/
def retesting (seen : List Seen) : State :=
  withRas (fun r => { r with units := [(unitKey (.cell 0), { state := .retest, seen := seen, waiting := some { stamp := 5 } })] }) node

theorem test_units : node.unitStopped (.vector 0) = false ∧ node.unitStopped (.vector 9) = true ∧ (node.unit (unitKey (.cell 9))).state ≠ .retired ∧ (node.unit (unitKey (.vector 0))).state = .inService ∧ ([0] : List Nat) ≠ [1] ∧
    ((retesting []).unit (unitKey (.cell 0))).state = .retest ∧
    ((retesting []).unit (unitKey (.cell 0))).waiting = some { stamp := 5 } ∧
    ((retesting [{ stamp := 4 }]).unit (unitKey (.cell 0))).correlated (retesting []).now { stamp := 5 } = true ∧
    ((retesting [{ stamp := 5 }]).unit (unitKey (.cell 0))).correlated (retesting []).now { stamp := 5 } = false := by decide +kernel

/-- A page of the request that goes to near-bank units. -/
def near1 (req : Nat) : NearPage := { req := req, name := { handle := 1 }, src := { frame := (0, 64), fill := 16 }, todo := [(0, 2, 0, 1)] }

/-- A request with a page that waits for its windows. -/
def nearReq (p : NearPage) (ws : Tbl NbWin) : State :=
  let s := waiting (.attend fwd [PageWait.near] [] [] 0) 0 training
  { s with nbu := s.nbu.modify 0 (fun r => { r with near := [p], wins := ws, nextWin := 1 }) }

theorem test_window_opens : let s := nearReq (near1 0) []
    let s1 := s.purgeNear 0
    (s1.nbu.getD 0 {}).near.find? (fun p => p.req = 0 && p.page = 0) = some (near1 0) ∧ (s1.reqs.get? 0).isSome = true ∧
    s1.nbEligible (near1 0).src.format (near1 0).src.frame fwd.queryFormat = true ∧
    (nextShape (near1 0).src.format (near1 0).src.frame fwd.queryFormat (s1.windowLimit 0) 4 (0, 2, 0, 1)).map (fun sh =>
      (s1.regionSteady 0, (s1.nbu.getD 0 {}).turnOf (near1 0), decide ((s1.nbu.getD 0 {}).activeCount < 16),
        (s1.nbu.getD 0 {}).pairsFree (s1.newWin 0 (near1 0) fwd sh).pairs, (s1.nbu.getD 0 {}).roomFor (s1.newWin 0 (near1 0) fwd sh))) =
      some (true, true, true, true, true) ∧
    (nearReq (near1 7) []).purgeNear 0 ≠ nearReq (near1 7) [] := by decide +kernel

/-- A window of region 0 at a step. -/
def atStep (w : NbWin) : State := nearReq (near1 0) [(0, w)]
/-- The window that the page's work gives. -/
def win1 : NbWin :=
  (nearReq (near1 0) []).newWin 0 (near1 0) fwd { rows := 1, firstGranule := 0, granules := 2 }

theorem test_window_steps : (((atStep win1).purgeNear 0).win 0 0).map NbWin.step = some .opened ∧
    (((atStep win1).purgeNear 0).nbu.getD 0 {}).behind 0 win1 = false ∧ (((atStep win1).purgeNear 0).nbu.getD 0 {}).queued = [] ∧
    ((atStep win1).purgeNear 0).regionSteady 0 = true ∧
    ((atStep { win1 with step := .entered }).win 0 0).map NbWin.step = some .entered ∧
    win1.acts < actCount win1.granules ∧ win1.columns = columnsTo win1.src.frame.2 win1.granules win1.acts ∧
    win1.columns < columnsTo win1.src.frame.2 win1.granules 1 ∧ 0 < win1.total := by decide +kernel

theorem test_window_ends : (∃ p ∈ ((atStep win1).nbu.getD 0 {}).near, p.req = win1.req ∧ p.page = win1.page) ∧
    ((atStep win1).reqs.get? win1.req).isSome = true ∧ ((atStep win1).nbu.getD 0 {}).cq = [] := by decide +kernel

/-- A group's triple as the units leave it. -/
def group1 : GroupTriple := { t := .empty 32 }

theorem test_window_result : let w := { win1 with step := .reduced, triples := [group1] }
    (atStep w).stackFenced 0 = false ∧ group1.die * 128 + group1.unit < 1536 ∧ w.slotOf group1 < 16 ∧
    ((groupRecord w.stamp group1).encode).length ≤ 2048 := by decide +kernel

/-- A record of 32 output lanes. -/
def record0 : ResultRec := { stamp := 7, o := List.replicate 32 0 }
/-- A window that has ended, with one slot to read, whose record stands in stack 0. -/
def endedWin (r : ResultRec) : NbWin :=
  { win1 with step := .ended, stamp := 7, slots := [(0, { tags := (columns r.encode.length r.encode).map (fun c => columnTag c 7), group := group1 })] }
/-- The node with it. -/
def ended (r : ResultRec) : State := ((atStep (endedWin r)).bankWriteN (slotAddr 0 0 0 0) r.encode).purgeNear 0

set_option maxRecDepth 1000000 in
theorem test_results : (ended record0).stackFenced 0 = false ∧ (ended record0).collides (slotAddr 0 0 0 0) = false ∧
    (((ended record0).win 0 0).bind (fun w => w.slots.get? 0)).isSome = true ∧
    (let b := (ended record0).slotBytes 0 0 0 (32 * (columns record0.encode.length record0.encode).length)
     b = record0.encode ∧ (ResultRec.decode (PageFormatD (node.format 0)) b).stamp = 7 ∧
     (ResultRec.decode (PageFormatD (node.format 0)) b).status = 0) ∧
    (ResultRec.decode (PageFormatD (node.format 0)) { record0 with status := 1 }.encode).status = 1 ∧
    (ResultRec.decode (PageFormatD (node.format 0)) { record0 with stamp := 8 }.encode).stamp ≠ 7 := by decide +kernel

/-- A window whose group waits for the re-read of its row. -/
def abortedWin : NbWin := { win1 with step := .ended, aborted := [(0, { group1 with abort := some {} })] }
theorem test_abort : (((atStep abortedWin).purgeNear 0).win 0 0).bind (fun w => w.aborted.get? 0) = some { group1 with abort := some {} } ∧
    (((atStep abortedWin).purgeNear 0).takeSlot 0 1 (sramBank (abortAddr 0 abortedWin { group1 with abort := some {} }))).collides
      (abortAddr 0 abortedWin { group1 with abort := some {} }) = false := by decide +kernel

/-- A near-bank unit of pair 5 of die 2 is retired. -/
def retiredUnit : State := { node with nbu := node.nbu.modify 0 (fun r => { r with retiredUnits := [(2, 5)] }) }

theorem test_spares : (retiredUnit.nbu.getD 0 {}).retiredUnits.contains (2, 5) = true ∧
    ((retiredUnit.nbu.getD 0 {}).spareMap.getD 2 []).length < 4 ∧
    (retiredUnit.nbu.getD 0 {}).wins.any (fun w => w.2.active && w.2.pairs.contains (2 * 128 + 5)) = false ∧
    (0 : Nat) < retiredUnit.nbu.length := by decide +kernel

/-- A condition on what an admitted request runs in. -/
def meets (h : ExtHdr) (cmd : Instr) (sp : Ctx → ExtSpec) (s : State) (f : Ctx → State → Bool) : Bool :=
  match admission h cmd sp s.settle with
  | some (c, s2) => f c s2
  | none => false
/-- The request is admitted. -/
def passes (h : ExtHdr) (cmd : Instr) (sp : Ctx → ExtSpec) (s : State) : Bool := meets h cmd sp s (fun _ _ => true)

/-- No page that a command changes stands under a grant. -/
def unsharedB (s : State) (slice : Nat) (cmd : Instr) : Bool := ((s.changedBy slice cmd).filter (s.shared slice)).isEmpty

/-- A lookup by one key. -/
def look : LookupParams := { modelEpoch := 7, keySource := 2, keys := [(5, 0)] }
theorem test_lookup : passes keyed (.lookup keyed look) (fun c => lookupSpec keyed look (node.pfx c.slice) c) node = true := by decide +kernel

/-- A publish of one prefix block. -/
def pfx : PfxParams := { modelEpoch := 7, keySource := 1, source := 1, epoch := 3, blocks := [{ tokens := List.replicate 256 0, key := 5 }] }
/-- The sequence that it comes from, with its page or without. -/
def source (es : List Entry) : State :=
  withHome (fun h => { h with seqs := [{ handle := 1, seqState := 1, epoch := 3 }], entries := es }) node

set_option maxRecDepth 1000000 in
theorem test_publish_prefix : meets keyed (.publishPrefix keyed pfx) (pfxSpec keyed pfx (source [{ page 1 with fill := 256 }]).settle) (source [{ page 1 with fill := 256 }])
      (fun c s2 => !s2.pfxMiss pfx c && (s2.pfxAll pfx c).isSome) = true ∧
    meets keyed (.publishPrefix keyed pfx) (pfxSpec keyed pfx (source []).settle) (source []) (fun c s2 => s2.pfxMiss pfx c) = true := by
  decide +kernel

/-- A release of one key. -/
def release : PfxRelease := { modelEpoch := 7, keys := [(5, 0)] }
/-- A node with that key. -/
def pnode : PfxNode := { addr := 0x2000000, key := 5, modelEpoch := 7, source := 1 }
/-- The directory with it, idle for long where the slice has a limit. -/
def rooted (idle : Nat) : State :=
  withAon (fun a => { a with now := 10 ^ 12 }) (withSlice (fun x => { x with cfg := { cfg0 with locus := { cfg0.locus with idleMax := idle } } })
    { node with locus := { nodes := [(0x2000000, pnode)] } })

theorem test_release_prefix :
    passes keyed (.prefixRelease keyed release) (pfxReleaseSpec keyed release node.settle) node = true := by decide +kernel

theorem test_sweep : (node.cfg 0).locus.idleMax = 0 ∧ ((rooted 1).cfg 0).locus.idleMax ≠ 0 ∧
    (rooted 1).victimNode 0 [] (fun n => ((rooted 1).cfg 0).locus.idleMax * 256 < ((rooted 1).useStamp + 2 ^ 32 - n.lastUse) % 2 ^ 32) =
      some pnode ∧ (rooted 1).locus.nodes.get? pnode.addr = some pnode ∧
    node.victimNode 0 [] (fun _ => true) = none := by decide +kernel

/-- A lease on the first page of sequence 1. -/
def lp : LeaseParams := { handle := 1, epoch := 3 }
/-- Its record in slot 5 of unit 0. -/
def lease1 : Lease := { leaseId := 5 * 65536, holder := 5, epoch := 3, params := lp, expiry := 2000000000 }
/-- The sequence under the lease. -/
def leased : State :=
  withHome (fun h => { h with
    seqs := [{ handle := 1, seqState := 1, epoch := 3, openLeases := 1 }]
    leases := [(5, lease1)]
    entries := [{ page 1 with pageState := .writeOpen, writeValid := true, writeFrame := (0, 65) }] }) node

theorem test_lease_acquire : meets keyed (.leaseAcquire keyed lp) (acquireSpec keyed lp) (source [page 1]) (fun c s2 =>
    unsharedB s2 c.slice (.leaseAcquire keyed lp) && (s2.leaseSlot (s2.quarterOf c.slice lp.handle)).isSome && (s2.leasePagesAll c.slice lp (leaseNames lp)).isSome) = true ∧
    (source [page 1]).ReqsOk := ⟨by decide +kernel, by decide, by decide⟩

/-- The page is replicated to node 9, whose grant stands. -/
def granted : State :=
  withHome (fun h => { h with replicas := [{ name := { handle := 1 }, copies := [{ node := 9, granted := some (9, 2000000000) }] }] }) (source [page 1])
theorem test_shared : meets keyed (.leaseAcquire keyed lp) (acquireSpec keyed lp) granted (fun c s2 =>
    !unsharedB s2 c.slice (.leaseAcquire keyed lp)) = true ∧ granted.ReqsOk ∧ (changer granted (.leaseAcquire keyed lp)).isSome = true :=
  ⟨by decide +kernel, ⟨by decide, by decide⟩, by decide +kernel⟩

theorem test_lease_renew : passes keyed (.leaseRenew keyed { lp with laOp := 1, leaseId := 5 * 65536 })
      (renewSpec keyed { lp with laOp := 1, leaseId := 5 * 65536 } leased.settle) leased = true ∧
    passes keyed (.leaseRelease keyed { leaseId := 5 * 65536, epoch := 3 })
      (releaseSpec keyed { leaseId := 5 * 65536, epoch := 3 } leased.settle) leased = true ∧
    passes keyed (.publishPage keyed { leaseId := 5 * 65536, epoch := 3, pages := [{ fill := 20 }] })
      (publishSpec keyed { leaseId := 5 * 65536, epoch := 3, pages := [{ fill := 20 }] } leased.settle) leased = true := by decide +kernel

theorem test_lease_expires : leased.home.leases.get? (0 * 16384 + 5 % 16384) = some lease1 ∧ leased.now < lease1.expiry ∧
    lease1.expiry ≤ (withAon (fun a => { a with now := 2000000000 }) leased).now ∧ { handle := 1 } ∈ lease1.held ∧ lease1.held.Nodup ∧
    (leased.entry 0 { handle := 1 }).map Entry.pageState = some .writeOpen := by decide +kernel

/-- A handover to owner 7. -/
def hv : HandoverParams := { handle := 1, expectedEpoch := 3, newOwner := 7 }
theorem test_handover : meets keyed (.handoverTransfer keyed hv) (transferSpec keyed hv) (source [])
      (fun c s2 => unsharedB s2 c.slice (.handoverTransfer keyed hv)) = true ∧
    meets keyed (.handoverDiscard keyed { hv with hvOp := 1, newOwner := 0 }) (hvDiscardSpec keyed { hv with hvOp := 1, newOwner := 0 }) (source [])
      (fun c s2 => unsharedB s2 c.slice (.handoverDiscard keyed { hv with hvOp := 1, newOwner := 0 })) = true ∧
    passes keyed (.handoverQuery keyed { hvOp := 2, handle := 1 }) (fun c => handoverSpec keyed { hvOp := 2, handle := 1 } c
      (hvQueryOk { hvOp := 2, handle := 1 }) true (fun _ => .ok) (fun _ => .ok)) node = true := by decide +kernel

/-- A tombstone. -/
def tomb : State := withHome (fun h => { h with seqs := [{ handle := 1, seqState := 2, tombUntil := 1500000000 }] }) node
theorem test_tombstone : (tomb.seqRec 0 1).map SeqRec.seqState = some 2 ∧ tomb.now < 1500000000 ∧
    1500000000 ≤ (withAon (fun a => { a with now := 1500000000 }) tomb).now := by decide +kernel

theorem test_pin : passes keyed (.pin keyed { handle := 1 }) (pinSpec 7 keyed { handle := 1 }) training = true ∧
    passes keyed (.unpin keyed { handle := 1 }) (pinSpec 8 keyed { handle := 1 }) training = true ∧
    (training.entry 0 { handle := 1 }).isSome = true ∧ training.ReqsOk :=
  ⟨by decide +kernel, by decide +kernel, by decide +kernel, by decide, by decide⟩

/-- A manager's node: three manager keys, two of which sign. -/
def managed0 : State :=
  { withCtx (fun c => { c with cls := 1 }) node with
    sec := { manifest := some { cfgKeys := [9], mgrKeys := [11, 12, 13], threshold := 2 }, ownerHash := 5 } }
/-- A certificate. -/
def cert (kind serial : Nat) : Cert := { kind := kind, serial := serial, digest := 77, sigs := [{ mgrIndex := 0, signedBy := 11 }, { mgrIndex := 1, signedBy := 12 }] }

theorem test_hello : passes hdr (.hello hdr 4 0) (helloSpec 4 0) (withCtx (fun c => { c with level := none }) node) = true ∧
    (withCtx (fun c => { c with level := none }) node).ctx 2 = some { cx with level := none } ∧ bit 3 2 = false ∧
    passes hdr (.statOwnQp hdr) (statSpec 0 false) node = true ∧ passes hdr (.statGroup hdr) (statSpec 1 false) node = true ∧
    passes hdr (.statNode hdr) (statSpec 2 true) managed0 = true := by decide +kernel

/-- An install of a map. -/
def installs (m : RouteMap) (s : State) : Option (Ctx × State) :=
  admission hdr (.mapInstall hdr (cert 0 m.generation) m) (manageSpec 0 0 (mapOk m && (cert 0 m.generation).serial = m.generation)
    (cert 0 m.generation) false (fun s => s.mapOwn m) s.settle) s.settle

/-- A state with the map before its drain, and one with both. -/
def moving (window : Bool) (inflight : Nat) : State :=
  withHome (fun h => { h with prev := some { generation := 0 }, drainOpen := window, drainEnd := 5, inflightPrev := inflight }) node

theorem test_maps : (installs { generation := 1 } managed0).isSome = true ∧ (installs { generation := 2 } managed0).isSome = true ∧
    (managed0.home.cur.map (fun o => (sameMap o { generation := 1 }, o.generation))) = some (true, 1) ∧
    (moving true 0).home.drainEnd ≤ (moving true 0).now ∧ node.settle.home.prev = none ∧
    (moving false 0).settle.home.prev = some { generation := 0 } ∧ (moving false 0).settle.home.drainOpen = false ∧
    (moving false 0).settle.home.inflightPrev = 0 ∧ (moving false 0).settle.home.cur = some { generation := 1 } ∧
    (moving false 0).nodeFenced = false ∧ (withAon (fun a => { a with selfCause := 1 }) (moving false 0)).nodeFenced = true := by decide +kernel

theorem test_newer_map : sameMap { generation := 1 } { generation := 2 } = false := by decide +kernel

/-- An admitted MANAGE command that meets a condition. -/
def manages (cmd : Instr) (variant kind : Nat) (parses : Bool) (c : Cert) (s : State) (f : State → Bool) : Bool :=
  match managed hdr cmd variant kind parses c (fun _ => .ok) s with
  | some s2 => f s2
  | none => false
/-- A manager's node whose last serial in every domain is 4. -/
def serial4 : State := withRas (fun r => { r with serials := List.replicate 4 { last := 4, digest := some 77 } }) managed0

theorem test_certificates :
    manages (.nodeFence hdr (cert 1 5)) 1 1 true (cert 1 5) serial4 (fun s => s.serialIs (cert 1 5) ≠ .same) = true ∧
    manages (.nodeFence hdr (cert 1 4)) 1 1 true (cert 1 4) serial4 (fun s => s.serialIs (cert 1 4) = .same) = true ∧
    manages (.nodeUnfence hdr (cert 2 5)) 1 2 true (cert 2 5) serial4 (fun s => s.serialIs (cert 2 5) ≠ .same) = true ∧
    manages (.nodeUnfence hdr (cert 2 4)) 1 2 true (cert 2 4) serial4 (fun s => s.serialIs (cert 2 4) = .same) = true ∧
    manages (.nodeExpel hdr (cert 3 5)) 1 3 true (cert 3 5) serial4 (fun s => s.serialIs (cert 3 5) ≠ .same) = true ∧
    manages (.nodeExpel hdr (cert 3 4)) 1 3 true (cert 3 4) serial4 (fun s => s.serialIs (cert 3 4) = .same) = true := by decide +kernel

theorem test_requester_certificates :
    (managed hdr (.requesterFence hdr (cert 4 5) [(1, 2)]) 1 4 (rangesOk [(1, 2)]) (cert 4 5)
      (fun s => if 4096 < (s.ras.reqFences ++ [(1, 2)]).eraseDups.length then .busy else .ok) serial4).isSome = true ∧
    manages (.requesterUnfence hdr (cert 5 5) [(1, 2)]) 1 5 (rangesOk [(1, 2)]) (cert 5 5) serial4
      (fun s => s.serialIs (cert 5 5) ≠ .same) = true ∧
    manages (.requesterUnfence hdr (cert 5 4) [(1, 2)]) 1 5 (rangesOk [(1, 2)]) (cert 5 4) serial4
      (fun s => s.serialIs (cert 5 4) = .same) = true := by decide +kernel

/-- A service key of slice 0 at index 1. -/
def kp : KeyParams := { kind := 1, index := 1, rights := 3, handleHi := 9 }
/-- A new manifest. -/
def man : Manifest := { serial := 2, cfgKeys := [9], mgrKeys := [11], threshold := 1, signedBy := 5 }

theorem test_administration :
    manages (.admKeyCreate hdr (cert 7 5) 0 kp) 3 7 (0 < 8 && keyParamsOk kp) (cert 7 5) serial4 (fun s =>
      s.serialIs (cert 7 5) ≠ .same && (s.createKey 0 kp).toOption.isSome) = true ∧
    manages (.admKeyRemove hdr (cert 7 5) 0 (mkKey 1 0 0)) 3 7 (0 < 8 && mkKey 1 0 0 < 2 ^ 32) (cert 7 5) serial4 (fun s =>
      s.serialIs (cert 7 5) ≠ .same && (s.removeKey 0 (mkKey 1 0 0)).toOption.isSome) = true ∧
    manages (.isolationSet hdr (cert 7 5) 0xff 3 1 {}) 3 7 (0xff = 0xff && 3 < 16384 && 1 ≤ 1 && isoOk {}) (cert 7 5) serial4
      (fun s => s.serialIs (cert 7 5) ≠ .same) = true ∧
    manages (.groupSet hdr (cert 7 5) 0xff 3 2 { gBurst := 1 }) 3 7 (0xff = 0xff && 3 < 4096 && 2 < 16 && groupOk { gBurst := 1 }) (cert 7 5)
      serial4 (fun s => s.serialIs (cert 7 5) ≠ .same) = true ∧
    manages (.isolationExport hdr (cert 7 5) 0xff 0 0 4) 3 7 (0xff = 0xff && 0 < 8 && 0 < 16384 && 1 ≤ 4 && 4 ≤ 1024) (cert 7 5) serial4
      (fun s => s.serialIs (cert 7 5) ≠ .same) = true ∧
    manages (.admManifestLoad hdr (cert 7 5) 0xff man) 3 7 (0xff = 0xff) (cert 7 5) serial4 (fun s =>
      s.serialIs (cert 7 5) ≠ .same && manifestOk man && s.ownerSigned man && s.manifestSerial < man.serial) = true := by decide +kernel

/-- A node whose queue pair 2 is a peer's, that holds replicas in slice 0 and awaits bucket 3 from node 9. -/
def peerNode : State :=
  withHome (fun h => { h with awaiting := [(3, 9, 1)], entries := [{ page 1 with copyOf := some (0, 9) }] })
    (withSlice (fun x => { x with cfg := { cfg0 with tier := { repHost := 1 } } }) (withCtx (fun c => { c with cls := 2, peer := 9 }) node))
/-- An admitted PEER message that meets a condition. -/
def peers (cmd : Instr) (variant : Nat) (own : State → Code) (f : State → Bool) : Bool :=
  match peered hdr cmd variant own peerNode with
  | some (_, s2) => f s2
  | none => false
/-- A bucket with one sequence. -/
def bucket (b : Nat) (complete : Bool) : BucketState := { bucket := b, fromNode := 9, complete := complete, seqs := [{ handle := 4, seqState := 1 }] }
/-- Whether a bucket state is awaited. -/
def awaits (b : BucketState) (s : State) : Bool := s.home.awaiting.any (fun w => w.1 = b.bucket && w.2.1 = b.fromNode)

theorem test_peer_buckets : peers (.peerBucketState hdr (bucket 2 true)) 0 (fun s => s.peerSlice 0) (fun s => !awaits (bucket 2 true) s) = true ∧
    peers (.peerBucketState hdr (bucket 3 false)) 0 (fun s => s.peerSlice 0) (awaits (bucket 3 false)) = true ∧
    peers (.peerBucketState hdr (bucket 3 true)) 0 (fun s => s.peerSlice 0) (fun s =>
      awaits (bucket 3 true) s && (s.putBucket (s.joinBucket (bucket 3 true))).isSome) = true ∧
    peers (.peerCompletionMarker hdr 9 1) 0 (fun _ => .ok) (fun _ => true) = true := by decide +kernel

theorem test_peer_copies : peers (.peerReplicaCopy hdr {}) 1 (fun s => s.copyOwn {}) (fun s => s.hostSlice = some 0) = true ∧
    peers (.peerGrant hdr 5 { handle := 1 } 9) 2 (fun s => s.peerSlice (s.hostSlice.getD 8)) (fun s =>
      (s.replicaHere { handle := 1 }).map Prod.snd = some 9) = true ∧
    peers (.peerRevoke hdr 5 { handle := 1 }) 3 (fun s => s.peerSlice (s.hostSlice.getD 8)) (fun _ => true) = true ∧
    peers (.peerRelabel hdr 5 { handle := 1 } 9 10) 4 (fun s => s.peerSlice (s.hostSlice.getD 8)) (fun s =>
      (s.replicaHere { handle := 1 }).map Prod.snd = some 9) = true ∧
    peers (.peerDrop hdr 5 { handle := 1 }) 5 (fun s => s.peerSlice (s.hostSlice.getD 8)) (fun _ => true) = true ∧
    rxKind (peerNode.settle.receive {} (.peerAcknowledgement {} (.bucket 9 3)) 1) = 2 ∧ (peerNode.ctx 2).map Ctx.cls = some 2 := by decide +kernel

/-- A node with a region key of 1 MiB at index 0, with all rights. -/
def region (s : State) : State :=
  { s with xpt := { s.xpt with regionKeys := [(0, { rights := 7, base := 0x1000000, length := 2 ^ 20 })] } }
/-- A standard packet arrives as the expected one and meets a condition. -/
def std (cmd : Instr) (s : State) (f : Ctx → State → Bool) : Bool :=
  match s.settle.receive {} cmd 1 with
  | .fresh c s1 => f c s1
  | _ => false

/-- No window is open: no access collides. -/
theorem collides_none {s : State} (h : ∀ r ∈ s.nbu, r.wins = []) (a : Nat) : s.collides a = false := by
  unfold State.collides
  have : (s.nbu.getD (addrStack a) {}).wins = [] := by
    rw [List.getD_eq_getElem?_getD]
    cases hx : s.nbu[addrStack a]? with
    | none => rfl
    | some r => exact h r (List.mem_of_getElem? hx)
  rw [this]; rfl

theorem test_standard : node.MemOk ∧ std (.rdmaReadRequest {} 0 8 32) (region node) (fun c s1 =>
      s1.readCode c 0 8 32 0 (32 < 2 ^ 31 && 0 < 2 ^ 32 && 8 < 2 ^ 64) = .ok) = true ∧
    std (.rdmaWrite {} .only 0 8 2 [1, 2]) (region node) (fun c s1 =>
      s1.writeCode c 0 8 2 (writeShape c.pmtu .only c.write 2 [1, 2] && 0 < 2 ^ 32 && 8 < 2 ^ 64) = .ok) = true ∧
    std (.compareAndSwap {} 0 8 1 2) (region node) (fun c s1 => s1.readCode c 0 8 8 2 (8 % 8 = 0 && 0 < 2 ^ 32 && 8 < 2 ^ 64) = .ok) = true ∧
    (∀ r ∈ (region node).nbu, r.wins = []) ∧ (region node).stackFenced (addrStack 0x1000008) = false ∧
    implementedOffset (addrOffset 0x1000008) = true := ⟨rfl, by decide +kernel⟩

/-- A first packet of 4,096 bytes, and a message under way. -/
theorem test_write_parts : std (.rdmaWrite {} .first 0 8 5000 (List.replicate 4096 0)) (region node) (fun c s1 =>
      s1.writeCode c 0 8 5000 (writeShape c.pmtu .first c.write 5000 (List.replicate 4096 0) && 0 < 2 ^ 32 && 8 < 2 ^ 64) = .ok) = true ∧
    std (.rdmaWrite {} .last 0 0 0 [1]) (region (withCtx (fun c => { c with write := some { key := 0, va := 8, apply := true, left := 1 } }) node))
      (fun c s1 => c.write = some { key := 0, va := 8, apply := true, left := 1 } && writeShape c.pmtu .last c.write 0 [1] &&
        s1.writeKeyCheck c 0 8 1 = .ok) = true := by decide +kernel

theorem test_opcodes : servedOpcode 6 = true ∧ servedOpcode 0x60 = false ∧ servedOpcode 0x1f = false ∧
    rxKind (node.receive {} (.invalidOpcode {} 0x1f) 1) = 2 := by decide +kernel

/-- Two responses held. -/
def answered (retries : Nat) : State :=
  withCtx (fun c => { c with
    held := [{ psn := 0, pkts := [{}] }, { psn := 1, pkts := [{}] }]
    retries := retries
    rnrRetries := retries
    timer := some 1000000000
    rnrTimer := some 1000000001 }) node

theorem test_acknowledges : (node.arrive (pkt 0) (.acknowledgeReceived (pkt 0)) false).toOption.isSome = true ∧
    (((answered 0).ctx 2).map (fun c => ((c.held.map (Resp.after 0)).filter (fun r => !r.pkts.isEmpty)).length)) = some 1 ∧
    (((answered 0).ctx 2).map (fun c => ((c.held.map (Resp.after (2 ^ 24 - 1))).filter (fun r => !r.pkts.isEmpty)).length)) = some 2 ∧
    (((answered 0).ctx 2).map (fun c => ((c.held.map (Resp.after 1)).filter (fun r => !r.pkts.isEmpty)).length)) = some 0 := by decide +kernel

theorem test_nak_and_timers : ((answered 0).arrive (pkt 0) (.rnrNakReceived (pkt 0) 3) false).toOption.isSome = true ∧
    ((answered 7).arrive (pkt 0) (.fatalNakReceived (pkt 0) 0x60) false).toOption.isSome = true ∧
    ((answered 7).ctx 2).map Ctx.state = some .rts ∧ (answered 7).now < 1000000001 ∧ 1000000000 ≤ (answered 7).now := by decide +kernel

/-- An isolation entry for the addresses 0 to 255, and one for the peer 9 at 300. -/
def tabled (s : State) : State :=
  { s with xpt := { s.xpt with isolation := [(0, { prefixLen := 120, slices := 1 }), (1, { pfx := 300, prefixLen := 128, cls := 2, peerNode := 9 })] } }

theorem test_cm_req : ((tabled node).eth.ports.getD 0 {}).linkUp = true ∧ ((tabled node).cmAccept { src := 7 }).isSome = true ∧
    (tabled node).cmAccept { src := 1000 } = none ∧ (node.eth.ports.getD 1 {}).linkUp = false ∧ ((tabled node).roomOnDie 0).isSome = true := by
  decide +kernel

/-- The connection queue of engine 0 is full. -/
def fullCm : State := { node with xpt := { node.xpt with cmQueues := [(4096, 1000000000), (0, 0), (0, 0), (0, 0)] } }
theorem test_cm_full : 4096 ≤ (cmQueueAt fullCm.now (fullCm.xpt.cmQueues.getD (fullCm.engineOf 0) (0, 0))).1 ∧
    (cmQueueAt node.now (node.xpt.cmQueues.getD (node.engineOf 0) (0, 0))).1 = 0 := by decide +kernel

/-- A node without contexts that tries to reach node 9. -/
def calling (next : Nat) : State := tabled { node with xpt := { peers := [(9, { next := next })] } }

/-- A queue-pair number is found where no context stands, whatever number the free choice gives. -/
theorem test_new_qpn : ∃ q, (calling 0).newQpn = some q := by
  have h : 2 + (calling 0).pick Site.qpn 0 % 4194302 < 4194304 := by omega
  refine ⟨2 + (calling 0).pick Site.qpn 0 % 4194302, ?_⟩
  have hf : Tbl.firstFree (calling 0).xpt.ctxs ((calling 0).xpt.ctxs.length + 1) (2 + (calling 0).pick Site.qpn 0 % 4194302) =
      some (2 + (calling 0).pick Site.qpn 0 % 4194302) := rfl
  simp only [State.newQpn, hf, h, if_true]

theorem test_cm_rep : (calling 0).peerQp 9 = none ∧ ((calling 0).xpt.peers.get? 9).isSome = true ∧ (calling 0).ctxCount 0xff < 16384 ∧
    ((calling 0).roomOnDie 0xff).isSome = true ∧ ((calling 0).isoMatch 300).isSome = true ∧ ((calling 0).peerPaths 9).length = 1 ∧
    ((calling 1).xpt.peers.get? 9).map PeerTry.next = some 1 ∧ peerNode.peerQp 9 = none ∧
    (withCtx (fun c => { c with cls := 2, nodeLevel := true, peer := 9 }) node).peerQp 9 = some 2 := by decide +kernel

/-- Queue pair 2 off die. -/
def spilled (loading : Bool) (s : State) : State := withCtx (fun c => { c with onDie := false, loading := loading }) s
/-- Both stacks of pair 2 are fenced. -/
def lostPair (s : State) : State := withRas (fun r => { r with regionsFenced := [2, 6] }) s

theorem test_context_load : ((spilled true node).ctx 2).map (fun c => (c.onDie, c.loading)) = some (false, true) ∧
    (spilled true node).spillLost 2 = false ∧ (lostPair (spilled true node)).spillLost 2 = true ∧
    ((spilled true node).roomOnDie 0).isSome = true ∧ (∀ m ∈ (spilled true node).xpt.missBuf, m.qpn ≠ 2) := by decide +kernel

/-- `n` contexts in ERROR are on die, and queue pair 2 is not. -/
def fullDie (n : Nat) : State :=
  { node with xpt := { ctxs := (2, { cx with onDie := false, loading := true }) :: List.replicate n (6, { state := .error }) } }

theorem test_no_room : (fullDie 65536).roomOnDie 0 = none ∧ ((fullDie 65536).ctx 2).map Ctx.onDie = some false := by
  have h : ∀ n, 65536 ≤ n → (fullDie n).roomOnDie 0 = none := by
    intro n hn
    have h1 : ¬ n < 65536 := by omega
    simp [State.roomOnDie, fullDie, State.onDieCount, State.victim, Ctx.pinned, sortBy, h1]
  exact ⟨h 65536 (Nat.le_refl _), rfl⟩

/-- A packet waits in the miss buffer. -/
def missing : State :=
  { spilled true node with xpt := { (spilled true node).xpt with missBuf := [{ qpn := 2, at_ := 1000000000, bytes := 9, cmd := .statOwnQp hdr }] } }

theorem test_miss_times_out : missing.now < 1000000000 + 3000 ∧
    1000000000 + 3000 ≤ (withAon (fun a => { a with now := 1000003000 }) missing).now ∧ missing.xpt.missBuf.length = 1 := by decide +kernel

/-- Queue pair 2 with one packet at its pacer. -/
def pacing (f : Ctx → Ctx) : State := withCtx (fun c => f { c with pacer := [{ qpn := 2, queue := 3, len := 100 }], echo := { rc := 40000 } }) node

theorem test_echo_and_pacer : node.eth.tIncNs ≤ (cx.echo.age node.tick) * 1024 ∧ ((pacing id).ctx 2).map (fun c => c.pacer.length) = some 1 ∧
    (0 + cdiv (800 * 100) (max 1 40000) ≤ (pacing id).now) ∧ (pacing id).now < 1000000000 + cdiv (800 * 100) (max 1 40000) ∧
    ((pacing (fun c => { c with pacerAt := 1000000000 })).ctx 2).map Ctx.pacerAt = some 1000000000 ∧
    ((pacing id).port 0).linkUp = true ∧ 0 < (pacing id).eth.ports.length ∧ 3 < ((pacing id).port 0).queues.length ∧
    ((pacing (fun c => { c with onDie := false })).ctx 2).map Ctx.onDie = some false ∧
    ((withCtx (fun c => { c with nodeLevel := true, cls := 2 }) node).ctx 2).map (fun c => (c.nodeLevel, c.cls, c.closing)) = some (true, 2, false) ∧
    node.nodeFenced = false := by decide +kernel

theorem test_notifications : (node.arrive {} (.cnpReceived {} true 4) true).toOption.isSome = true ∧
    ((withCtx (fun c => { c with state := .rtr }) node).arrive {} (.cnpReceived {} true 4) true).toOption.isSome = true := by decide +kernel

/-- Port 0 with one packet in a queue. -/
def sending (q : Nat) (f : PortS → PortS) : State :=
  withPort (fun p => f { p with queues := p.queues.modify q (fun _ => { pkts := [({ qpn := 2, len := 100 }, 5)] }) }) node

theorem test_egress : (node.port 0).linkUp = true ∧ nextQueue (PortS.refill node.now (node.port 0)) = none ∧
    nextQueue (PortS.refill node.now ((sending 0 id).port 0)) = some 0 ∧
    nextQueue (PortS.refill node.now ((sending 7 id).port 0)) = some 7 ∧ ((sending 7 id).port 0).weighted = some 7 ∧
    ((sending 7 (fun p => { p with linkUp := false })).port 0).linkUp = false ∧
    (0 : Nat) < node.eth.ports.length ∧ (((sending 0 id).port 0).depthHist[0]?).isSome = true := by decide +kernel

theorem test_ports : (node.port 0).swapping = false ∧ ((withPort (fun p => { p with linkUp := false }) node).port 0).linkUp = false ∧
    node.ras.portsWithdrawn.contains 0 = false ∧ node.aon.coolantPin = false ∧ node.aon.clk156Lost = false ∧ (node.port 0).mode ≠ 0 ∧
    ((withPort (fun p => { p with linkUp := false, training := true }) node).port 0).training = true ∧
    (withPort (fun p => { p with linkUp := false, held := true, downAt := 900000000 }) node).holdOver 0 = true ∧ node.holdOver 0 = false ∧
    (node.ctx 2).map Ctx.port = some 0 := by decide +kernel

/-- Lane 1 is under test, with the spare of its half taken or not. -/
def testing (s0 : Option Nat) : State :=
  withPort (fun p => { p with linkUp := false, swapping := true }) { node with eth := { node.eth with suspects := [1], s0 := s0 } }

theorem test_lanes : node.laneOwner 1 = some 0 ∧ node.eth.suspects.contains 1 = false ∧ (testing none).laneOwner 1 = some 0 ∧
    (testing none).eth.suspects.contains 1 = true ∧ (testing none).aon.coolantPin = false ∧ (testing none).eth.s0 = none ∧
    (testing (some 0)).eth.s0 ≠ none := by decide +kernel

/-- One frame on the retire list of quarter 0. -/
def retiredFrame : State := { node with mem := { node.mem with retire := [(0, [{ granule := 64, count := 1 }])] } }

theorem test_reclaim : (0 : Nat) < retiredFrame.mem.epochs.length ∧ node.lowSpace 0 = false ∧ (node.cfg 0).stackList.contains 0 = true ∧
    training.home.fills = [] ∧ (∀ e ∈ training.home.entries, training.demotable e = false) ∧
    training.home.entries.Pairwise (fun a b => a.slice ≠ b.slice ∨ a.name ≠ b.name) := by decide +kernel

/-- The page under a move, on a node with drive 0. -/
def movingPage (st : FrameState) (cmds : Tbl NvmeCmd) (fills : List Fill) : State :=
  withHome (fun h => { h with entries := [{ page 1 with frameState := st }], fills := fills })
    { node with mem := { node.mem with drives := [(0, { present := true, formatted := true, granules := 16384, cmds := cmds, dirty := [(4, 1)] })] } }
/-- A command of the page. -/
def cmd1 (issued reissued : Bool) : NvmeCmd := { name := { handle := 1 }, bytes := 65536, issued := issued, reissued := reissued, issuedAt := 980000000 }

theorem test_demotion : (movingPage .demoting [] []).MemOk ∧ (movingPage .demoting [] []).cmdsOf 0 0 { handle := 1 } = [] ∧
    ((movingPage .demoting [] []).entry 0 { handle := 1 }).map Entry.frameState = some .demoting ∧
    (movingPage .demoting [(0, cmd1 true false)] []).cmdsOf 0 0 { handle := 1 } ≠ [] := ⟨rfl, by decide +kernel⟩

/-- A fill of the page. -/
def fill1 : Fill := { name := { handle := 1 }, frame := some (0, 64), since := 999900000 }
/-- A recovery of it. -/
def recovery1 : Fill := { name := { handle := 1 }, recovering := true, askAt := 900000000 }
/-- The page lost, with a replica on node 7. -/
def recovering1 : State :=
  withSlice (fun x => { x with cfg := { cfg0 with tier := { repCopies := 1, repNodes := [7, 0, 0] } } })
    (withHome (fun h => { h with replicas := [{ name := { handle := 1 }, copies := [{ node := 7, acked := true, stands := true, granted := some (9, 1000000001) }] }] })
      (movingPage .dropped [] [recovery1]))

theorem test_fills : (movingPage .filling [] [fill1]).fillOf 0 { handle := 1 } = some fill1 ∧
    (movingPage .filling [] [fill1]).cmdsOf 0 0 { handle := 1 } = [] ∧
    (movingPage .filling [(0, cmd1 true false)] [fill1]).cmdsOf 0 0 { handle := 1 } ≠ [] ∧ (movingPage .filling [] [fill1]).mem.waits = [] ∧
    (withHome (fun h => { h with entries := [] }) (movingPage .filling [] [fill1])).entry 0 { handle := 1 } = none ∧
    ((movingPage .flash [] [{ fill1 with frame := none }]).allocFrame 0 { handle := 1 }).isSome = true ∧
    (lostPair (withSlice (fun x => { x with cfg := { cfg0 with stackList := [2, 6] } }) (movingPage .flash [] [{ fill1 with frame := none }]))).allocFrame 0
      { handle := 1 } = none ∧ node.now < fill1.since + 1000000 ∧ (900000000 : Nat) + 1000000 ≤ node.now := by decide +kernel

theorem test_recovery : recovering1.fillOf 0 { handle := 1 } = some recovery1 ∧ recovery1.askAt + 200000 ≤ recovering1.now ∧
    recovering1.now < 999999999 + 200000 ∧ recovering1.askable 0 { handle := 1 } [] = [7] ∧
    (recovering1.allocFrame 0 { handle := 1 }).isSome = true ∧ (recovering1.entry 0 { handle := 1 }).map Entry.frameGen = some 9 := by decide +kernel

theorem test_drives : ((movingPage .filling [(0, cmd1 true false)] []).mem.drives.get? 0).map (fun d => (d.cmds.length, d.failed)) = some (1, false) ∧
    (980000000 : Nat) + 30000000 ≤ (withAon (fun a => { a with now := 1010000000 }) node).now ∧ node.now < (980000000 : Nat) + 30000000 ∧
    ((movingPage .filling [] []).mem.drives.get? 0).map (fun d => ((d.dirty.get? 4).isSome, d.dirty.get? 5, d.usable)) = some (true, none, true) := by
  decide +kernel

/-- A page with a copy on node 7, acknowledged or not. -/
def copied (acked : Bool) (last : Nat) : State :=
  withHome (fun h => { h with replicas := [{ name := { handle := 1 }, copies := [{ node := 7, acked := acked, lastSent := last }] }] }) training

theorem test_replicas : ((copied true 0).copyAt 0 { handle := 1 } 7).isSome = true ∧ ((copied false 0).copyAt 0 { handle := 1 } 7).isSome = true ∧
    (0 : Nat) + 100000000 ≤ (copied false 0).now ∧ (copied false 999999999).now < 999999999 + 100000000 ∧ (page 1).frameState.inStack = true ∧
    (copied true 0).nodeFenced = false := by decide +kernel

/-- All but stack 0 are fenced. -/
def lastStack : State := withRas (fun r => { r with regionsFenced := [1, 2, 3, 4, 5, 6, 7] }) node

theorem test_losses : node.settle.stackFenced 0 = false ∧ lastStack.settle.stackFenced 1 = true ∧ lastStack.settle.stackFenced 0 = false ∧
    (withHome (fun h => { h with unitsLost := [1] }) node).settle.home.unitsLost.contains 1 = true ∧
    node.settle.home.unitsLost.contains 1 = false ∧ node.settle.ras.quartersLost.contains 1 = false := by decide +kernel

/-- Nothing waits at the home, at the tiers or under a grant. -/
theorem test_quietly : quiet training ∧ noAcquire (movingPage .filling [] [fill1]) ∧ noWrites (movingPage .filling [] [fill1]) 0 { handle := 1 } ∧
    (movingPage .filling [] [fill1]).shared 0 { handle := 1 } = false ∧ granted.shared 0 { handle := 1 } = true ∧
    (copied true 0).home.moves = [] ∧ (movingPage .flash [] [{ fill1 with frame := none }]).retireFull 0 = false := by
  refine ⟨⟨rfl, rfl, rfl⟩, ?_, ?_, by decide +kernel, by decide +kernel, rfl, by decide +kernel⟩
  · have h : (movingPage .filling [] [fill1]).reqs = [] := rfl
    intro q hq; rw [h] at hq; cases hq
  · have h : (movingPage .filling [] [fill1]).mem.waits = [] := rfl
    intro w hw; rw [h] at hw; cases hw

/-- The conditions of a region fence, and one that does not hold. -/
theorem test_fence_due : node.fenceDue 0 0 = true ∧ node.fenceDue 0 2 = false ∧ node.fenceDue 0 3 = false ∧ node.fenceDue 0 4 = false ∧
    (withEng (fun e => { e with links := List.replicate 24 { failed := true } }) node).fenceDue 0 4 = true := by decide +kernel

/-- A change of the slices and classes. -/
def withSch (f : Sch → Sch) (s : State) : State := { s with sch := f s.sch }

theorem test_windows : node.now / 1000 ≤ (withSch (fun x => { x with lastWindow := 1000000 }) node).sch.lastWindow ∧
    node.sch.lastWindow < node.now / 1000 ∧ node.sch.lastWindow / 256 < node.now / 1000 / 256 ∧
    (withSch (fun x => { x with lastWindow := 999999 }) node).sch.lastWindow / 256 = node.now / 1000 / 256 := by decide +kernel

/-- Block 0 and a parked context that moves to or from its cell 0. -/
def ctxMove (c : ParkedCtx) (x : CellS) : State := withEng (fun e => { e with ctxs := [(0, c)] }) (withBlock (fun b => { b with cells := b.cells.set 0 x }))

theorem test_context_moves : (0 : Nat) < (ctxMove {} {}).eng.blocks.length ∧ ((ctxMove {} {}).block 0).cells[0]? = some ({} : CellS) ∧
    ((ctxMove {} {}).block 0).ready = [] ∧ (ctxMove { saving := some (0, 0, false), incoming := some {} } {}).eng.ctxs.get? 0 =
      some { saving := some (0, 0, false), incoming := some {} } ∧ (ctxMove {} {}).cellFree 0 0 0 = true ∧
    (ctxMove {} { live := some {} }).cellFree 0 0 0 = false := by decide +kernel

theorem test_can_run : canRun node (freshAccum (group2 [stagedStep])) :=
  ⟨stagedStep, rfl, .inl rfl⟩

theorem test_context_blocks : node.blockUp 0 = true ∧ (ctxMove {} { need := false }).blockUp 0 = true ∧
    (withAon (fun a => { a with stopped := [0] }) (ctxMove { saving := some (0, 0, true) } {})).blockUp 0 = false ∧
    (ctxMove { restoring := some (0, 0), acc := some (freshAccum (group2 [stagedStep])) } { live := some {} }).eng.ctxs.get? 0 =
      some { restoring := some (0, 0), acc := some (freshAccum (group2 [stagedStep])) } := by decide +kernel

/-- Slice 0 in a state with an outcome. -/
def inState (st : SliceState) (o : Outcome) : State := withSlice (fun x => { x with state := st, outcome := o, drainStart := 0 }) node

theorem test_slice_states : (inState .draining (.remove none)).drained 0 = true ∧ (inState .draining (.remove none)).now / 1000000000 = 1 ∧
    ((inState .draining (.remove none)).slice 0).drainLogged < 1 ∧ node.drained 0 = true ∧ node.flashBusy 0 = false ∧
    (waiting (.collect {}) 1 (inState .draining (.remove none))).drained 0 = false ∧
    ((withSlice (fun x => { x with changes := [.removePort 1], state := .recomposing }) node).slice 0).changes = [.removePort 1] ∧
    (∀ c ∈ node.xpt.ctxs, ¬(c.2.slice = 0 ∧ c.2.nodeLevel = false ∧ c.2.port = 1 ∧ c.2.state ≠ .error)) ∧
    (node.block 3).ready = [] ∧ (∀ c ∈ (node.block 3).cells, c.live = none ∧ c.shadow = none) ∧ node.aon.coolantPin = false := by decide +kernel

/-- The host's side with ring 0 enabled and one entry waiting. -/
def ringed : State := withHost (fun h => { h with rings := h.rings.modify 0 (fun r => { r with enable := true, tail := 1 }) }) node
/-- The entry of a slice disable, and one with a reserved field set. -/
def goodEntry : RingEntry := { op := 2, slice := 0, statusAddr := 64 }

theorem test_rings : node.reachable = true ∧ node.hostUp = true ∧ node.aon.bootStage ≠ 15 ∧ (0 : Nat) < node.host.rings.length ∧
    (ringed.ring 0).enable = true ∧ (ringed.ring 0).head ≠ (ringed.ring 0).tail ∧ (node.ring 0).enable = false ∧
    (3 % 2 ^ 32 + 2 ^ 32 - (ringed.ring 0).head) % 2 ^ 32 ≤ (ringed.ring 0).size ∧
    (ringed.ring 0).size < (999 % 2 ^ 32 + 2 ^ 32 - (ringed.ring 0).head) % 2 ^ 32 ∧
    RingEntry.decode goodEntry.encode = goodEntry ∧ goodEntry.wellFormed = true ∧ { goodEntry with reserved := 1 }.wellFormed = false ∧
    RingEntry.decode { goodEntry with reserved := 1 }.encode = { goodEntry with reserved := 1 } ∧
    (RingEntry.decode { goodEntry with statusAddr := 0 }.encode).statusAddr = 0 := by decide +kernel

/-- A queued operation 5 of an opcode, for slice 0 or the node, with parameters, that writes nothing to the host. -/
def queued (op slice : Nat) (params : List Byte) (s : State) : State :=
  let e : RingEntry := { op := op, slice := slice, statusAddr := 64, params := params }
  withHost (fun h => { h with ops := [(5, { ring := 1, index := 9, entry := e, suppressed := true })] }) s
/-- 32 parameter bytes that begin so. -/
def par (l : List Byte) : List Byte := l ++ List.replicate (32 - l.length) 0
/-- The operation starts, in a state that meets a condition. -/
def begins (op : Nat) (s : State) (f : LongOp → State → Bool) : Bool :=
  match s.startOp op 5 with
  | some (o, s1) => f o s1
  | none => false

theorem test_slice_operations : begins 2 (queued 2 0 (par []) node) (fun _ s => (s.slice 0).state = .serving) = true ∧
    begins 2 (queued 2 0 (par []) (inState .disabled (.disable none))) (fun _ s => (s.slice 0).state = .disabled) = true ∧
    begins 3 (queued 3 0 (par []) (inState .draining (.disable none))) (fun _ s => (s.slice 0).outcome.op ≠ some 5) = true ∧
    begins 3 (queued 3 0 (par []) (inState .disabled (.disable none))) (fun _ s => (s.slice 0).flashPending.isNone) = true ∧
    begins 3 (queued 3 0 (par []) (inState .absent (.disable none))) (fun _ s => (s.slice 0).state = .absent) = true ∧
    begins 4 (queued 4 0 (par []) node) (fun _ s => s.mapped 0) = true ∧
    begins 4 (queued 4 0 (par []) (withHome (fun h => { h with cur := none }) node)) (fun _ s => !s.mapped 0) = true ∧
    begins 4 (queued 4 0 (par []) (withHome (fun h => { h with cur := none }) (inState .disabled (.disable none)))) (fun _ s => !s.mapped 0) = true ∧
    begins 5 (queued 5 0 (par []) (inState .absent (.disable none))) (fun _ _ => true) = true ∧
    begins 5 (queued 5 0 (par []) node) (fun _ s => (s.slice 0).state ≠ .absent) = true := by decide +kernel

/-- Operation 5 is a log read that may write to the host. -/
def loud : State :=
  withHost (fun h => { h with ops := [(5, { ring := 1, entry := { op := 0x40, statusAddr := 64 } })] }) node
theorem test_operation_writes : ∃ o s1, loud.startOp 0x40 5 = some (o, s1) ∧ o.suppressed = false ∧ s1.hostUp = true := by
  refine ⟨{ ring := 1, entry := { op := 0x40, statusAddr := 64 }, state := 2 }, loud.setOp 5 2 .ok 0, ?_, rfl, ?_⟩
  · have h : (loud.setOp 5 2 .ok 0).op 5 = some { ring := 1, entry := { op := 0x40, statusAddr := 64 }, state := 2 } := by
      rw [State.setOp_op]; decide +kernel
    rw [State.startOp_queued (o := { ring := 1, entry := { op := 0x40, statusAddr := 64 } }) (by decide +kernel) rfl rfl (by decide +kernel), h]
    rfl
  · rw [State.setOp_hostUp]; decide +kernel

/-- A cancel as operation 5, which names operation 3, in a state and with a code. -/
def cancelling (st : Nat) (code : Code) : State :=
  withHost (fun h => { h with ops := [(3, { ring := 1, index := 9, entry := goodEntry, state := st, code := code }),
    (5, { ring := 2, suppressed := true
          entry := { op := 0x0f, slice := 0xff, statusAddr := 64, params := par [1, 0, 0, 0, 9] } })] }) node
/-- The operation that a cancel names. -/
def namedBy (o : LongOp) (s : State) : Option (Nat × LongOp) :=
  s.host.ops.find? (fun p => p.2.ring = o.entry.param 0 1 && p.2.index = o.entry.param 4 4 && p.1 < 5)

theorem test_cancel : begins 0x0f (queued 0x0f 0xff (par []) node) (fun o s => (namedBy o s).isNone) = true ∧
    begins 0x0f (cancelling 1 .ok) (fun o s => (namedBy o s).map (fun x => (x.1, x.2.state)) = some (3, 1)) = true ∧
    begins 0x0f (cancelling 2 .ok) (fun o s => (namedBy o s).map (fun x => (x.1, x.2.state, x.2.code)) = some (3, 2, .ok)) = true ∧
    begins 0x0f (cancelling 2 .pendingEnable) (fun o s => (namedBy o s).map (fun x => (x.1, x.2.state, x.2.code)) = some (3, 2, .pendingEnable)) =
      true ∧
    ([1, 0x20, 0x40, 0x41].contains goodEntry.op = false ∧ [0x20, 0x40, 0x41].contains 0x20 = true) := by decide +kernel

/-- A service key of index 1 for handles 0 to 255: kind 1, group 0, rights 1. -/
def keyBytes : List Byte := [1, 0, 0, 0, 1, 0, 0, 0, 0, 0, 0, 0, 0, 0, 0, 0, 255, 0, 0, 0, 0, 0, 0, 0, 1]

theorem test_key_operations : begins 0x10 (queued 0x10 0 (par [2]) node) (fun o _ => !keyParamsOk o.entry.keyParams) = true ∧
    begins 0x10 (queued 0x10 0 (par keyBytes) node) (fun o s => keyParamsOk o.entry.keyParams &&
      (s.createKey o.entry.slice o.entry.keyParams).toOption.isSome) = true ∧
    begins 0x11 (queued 0x11 0 (par (leBytes 4 (mkKey 1 0 0))) node) (fun o s => (s.removeKey o.entry.slice (o.entry.param 0 4)).toOption.isSome) =
      true := by decide +kernel

/-- An owner is provisioned. -/
def owned : State := { node with sec := { node.sec with ownerHash := 5, challenge := some 1 } }
/-- No slice is there. -/
def noSlice (s : State) : State := withSch (fun x => { x with slices := List.replicate 8 {} }) s

theorem test_node_operations : begins 0x20 (queued 0x20 0xff (par [0]) (movingPage .filling [] [])) (fun o s =>
      ((s.mem.drives.get? (o.entry.param 0 1)).map (fun d => d.present && !d.failed)) = some true &&
      s.sch.slices.all (fun c => c.state = .absent || !bit c.cfg.tier.flashDrives 0)) = true ∧
    begins 0x30 (queued 0x30 0xff (par []) node) (fun _ s => s.sec.ownerHash = 0) = true ∧
    begins 0x30 (queued 0x30 0xff (par []) owned) (fun _ s => s.sec.ownerHash ≠ 0) = true ∧
    begins 0x31 (queued 0x31 0xff (par []) owned) (fun _ s => s.ownerSigned man && s.manifestSerial < man.serial) = true ∧
    manifestOk man = true ∧ manifestOk { man with magic := 0 } = false ∧
    begins 0x32 (queued 0x32 0xff (par [1]) node) (fun o s => (s.sec.slotKeys.get? (o.entry.param 0 1)).isNone) = true ∧
    begins 0x32 (queued 0x32 0xff (par [1]) { node with sec := { slotKeys := [(1, 7)] } }) (fun o s => (s.sec.slotKeys.get? (o.entry.param 0 1)).isSome) =
      true ∧
    begins 0x33 (queued 0x33 0xff (par [1]) node) (fun o s => s.sch.slices.all (fun x => x.cfg.flashKeySlot ≠ o.entry.param 0 1)) = true ∧
    begins 0x34 (queued 0x34 0xff (par []) node) (fun _ _ => true) = true ∧
    begins 0x35 (queued 0x35 0xff (par []) (noSlice owned)) (fun _ s => s.sec.challenge.isSome && s.sec.ownerHash = 5 &&
      !s.aon.failed.contains 95 && s.sch.slices.all (fun x => x.state = .absent)) = true ∧
    begins 0x35 (queued 0x35 0xff (par []) owned) (fun _ s => s.sch.slices.any (fun x => x.state ≠ .absent)) = true ∧
    begins 0x40 (queued 0x40 0xff (par []) node) (fun _ _ => true) = true ∧
    begins 0x41 (queued 0x41 0xff (par []) node) (fun _ _ => true) = true := by decide +kernel

/-! ## Bit-streams as bytes -/

theorem crcBits_lt (k c : Nat) (h : c < 2 ^ 32) : crcBits k c < 2 ^ 32 := by
  induction k generalizing c with
  | zero => exact h
  | succ k ih =>
    simp only [crcBits]
    apply ih
    split
    · exact Nat.xor_lt_two_pow (by omega) (by decide)
    · omega

theorem crcBytes_lt (l : List Byte) (c : Nat) (h : c < 2 ^ 32) : crcBytes l c < 2 ^ 32 := by
  induction l generalizing c with
  | nil => exact h
  | cons b t ih =>
    exact ih _ (crcBits_lt 8 _ (Nat.xor_lt_two_pow h (Nat.lt_of_lt_of_le b.isLt (by decide))))

theorem crc32c_lt (l : List Byte) : crc32c l < 2 ^ 32 := Nat.xor_lt_two_pow (crcBytes_lt l _ (by decide)) (by decide)

/-- The check value that CRC-32C gives for the digits 1 to 9. -/
theorem test_crc32c : crc32c [0x31, 0x32, 0x33, 0x34, 0x35, 0x36, 0x37, 0x38, 0x39] = 0xe3069283 := by decide +kernel

/-- A body frame: index, section type, payload. -/
def bytesOfFrame (index type : Nat) (p : List Byte) : List Byte :=
  let head := leBytes 4 index ++ leBytes 2 type ++ leBytes 2 p.length
  let tail := [0, 0, 0, 0] ++ p ++ List.replicate (4080 - p.length) 0
  head ++ leBytes 4 (crc32c (head ++ [0, 0, 0, 0] ++ tail)) ++ tail

theorem leBytes_length (n x : Nat) : (leBytes n x).length = n := by
  induction n generalizing x with
  | zero => rfl
  | succ n ih => simp [leBytes, ih]

theorem fromLe_leBytes (n x : Nat) (h : x < 256 ^ n) : fromLe (leBytes n x) = x := by
  induction n generalizing x with
  | zero => simp at h; simp [leBytes, fromLe, h]
  | succ n ih =>
    have h2 : x / 256 < 256 ^ n := by rw [Nat.pow_succ] at h; omega
    simp only [leBytes, fromLe, ih _ h2, BitVec.toNat_ofNat]
    omega

theorem field_of (x a b c : List Byte) (n k : Nat) (h : x = a ++ b ++ c) (ha : a.length = n) (hb : b.length = k) :
    (x.drop n).take k = b := by
  subst h ha hb; simp

theorem drop_of (x a b : List Byte) (n : Nat) (h : x = a ++ b) (ha : a.length = n) : x.drop n = b := by
  subst h ha; simp

theorem frame_ok (index type : Nat) (p : List Byte) (hi : index < 2 ^ 32) (ht : type < 2 ^ 16) (hp : p.length ≤ 4080) :
    bodyFrame (bytesOfFrame index type p) = { index := index, secType := type, payloadLen := p.length } := by
  let z := List.replicate (4080 - p.length) (0 : Byte)
  let i := leBytes 4 index
  let t := leBytes 2 type
  let n := leBytes 2 p.length
  let crc := crc32c (i ++ t ++ n ++ [0, 0, 0, 0] ++ ([0, 0, 0, 0] ++ p ++ z))
  let c := leBytes 4 crc
  have h : bytesOfFrame index type p = i ++ t ++ n ++ c ++ ([0, 0, 0, 0] ++ p ++ z) := rfl
  have li : i.length = 4 := leBytes_length 4 _
  have lt : t.length = 2 := leBytes_length 2 _
  have ln : n.length = 2 := leBytes_length 2 _
  have lc : c.length = 4 := leBytes_length 4 _
  have lz : z.length = 4080 - p.length := by simp [z]
  generalize hx : bytesOfFrame index type p = x at h
  have lx : x.length = 4096 := by rw [h]; simp [li, lt, ln, lc, lz]; omega
  have hf : frameOf x = x := by simp [frameOf, lx, List.take_of_length_le]
  have e0 : x.take 4 = i := field_of x [] i (t ++ n ++ c ++ ([0, 0, 0, 0] ++ p ++ z)) 0 4 (by simp [h]) rfl li
  have e1 : (x.drop 4).take 2 = t := field_of x i t (n ++ c ++ ([0, 0, 0, 0] ++ p ++ z)) 4 2 (by simp [h]) li lt
  have e2 : (x.drop 6).take 2 = n :=
    field_of x (i ++ t) n (c ++ ([0, 0, 0, 0] ++ p ++ z)) 6 2 (by simp [h]) (by simp [li, lt]) ln
  have e3 : x.take 8 = i ++ t ++ n :=
    field_of x [] (i ++ t ++ n) (c ++ ([0, 0, 0, 0] ++ p ++ z)) 0 8 (by simp [h]) rfl (by simp [li, lt, ln])
  have e4 : (x.drop 8).take 4 = c :=
    field_of x (i ++ t ++ n) c ([0, 0, 0, 0] ++ p ++ z) 8 4 (by simp [h]) (by simp [li, lt, ln]) lc
  have e5 : x.drop 12 = [0, 0, 0, 0] ++ p ++ z := drop_of x (i ++ t ++ n ++ c) _ 12 (by simp [h]) (by simp [li, lt, ln, lc])
  have e6 : x.drop (16 + p.length) = z :=
    drop_of x (i ++ t ++ n ++ c ++ [0, 0, 0, 0] ++ p) z _ (by simp [h]) (by simp [li, lt, ln, lc]; omega)
  have hl : fromLe n = p.length := fromLe_leBytes 2 _ (by omega)
  have hz : zeroBytes z = true := by simp [zeroBytes, z]
  have hc : fromLe c = crc := fromLe_leBytes 4 _ (crc32c_lt _)
  have h4 : zeroBytes ((x.drop 12).take 4) = true := by rw [e5]; rfl
  simp only [bodyFrame, hf, e0, e1, e2, e3, e4, e5, hl, hc] at *
  rw [e6, hz]
  have hh : crc32c (i ++ t ++ n ++ [0, 0, 0, 0] ++ ([0, 0, 0, 0] ++ p ++ z)) = crc := rfl
  rw [show fromLe i = index from fromLe_leBytes 4 _ hi, show fromLe t = type from fromLe_leBytes 2 _ ht, hh, h4]
  simp

/-- A record of a slice section. -/
def record (t : Nat) (l : List Byte) : List Byte := leBytes 2 t ++ leBytes 2 l.length ++ l
/-- Zeros. -/
def zeros (n : Nat) : List Byte := List.replicate n 0
/-- A slice section with an entry quota. -/
def sliceBytes (quota : Nat) : List Byte :=
  record 1 (leBytes 4 1 ++ [1, 0, 1, 0, 0] ++ List.replicate 7 0xff ++ [1] ++ zeros 15 ++ leBytes 4 64 ++ leBytes 4 64 ++ zeros 8) ++
  record 2 (leBytes 4 0x18) ++ record 5 (leBytes 4 quota ++ zeros 4 ++ leBytes 2 3600 ++ [32, 0]) ++ record 6 [0, 1, 0, 0, 1, 0, 0, 0] ++
  record 7 (zeros 128) ++ record 9 (zeros 4)
/-- What it says. -/
def cfg2 (quota : Nat) : SliceCfg :=
  { blocks := 1, stackList := [0], ports := 1, wqSet := [1, 0, 0, 0, 0, 0, 0, 0], ctxDie := 64, ctxLimit := 64, entryQuota := quota,
    classes := [(0, { valid := 1, slice := 0, pendingMax := 1 })], table := [(0, List.replicate 256 0)] }

/-- The header frame: kind, frames, serials and directory of (type, first frame, frames, bytes). -/
def headFrame (kind count serial base : Nat) (dir : List (Nat × Nat × Nat × Nat)) : List Byte :=
  leBytes 4 0x5a3e3133 ++ [3] ++ leBytes 1 kind ++ zeros 2 ++ leBytes 4 count ++ leBytes 4 serial ++ leBytes 4 base ++ zeros 84 ++
  leBytes 8 9 ++ zeros 16 ++ dir.flatMap (fun d => leBytes 2 d.1 ++ zeros 2 ++ leBytes 4 d.2.1 ++ leBytes 4 d.2.2.1 ++ leBytes 4 d.2.2.2)
/-- A bit-stream of a header frame and of body frames of (type, payload). -/
def imageOf (h : List Byte) (l : List (Nat × List Byte)) : BsImage :=
  { frames := h :: (l.zipIdx).map (fun x => bytesOfFrame (x.2 + 1) x.1.1 x.1.2), signedBy := 9 }

theorem frames_read (h : List Byte) (l : List (Nat × List Byte)) (hl : l.length < 2 ^ 31)
    (ht : ∀ x ∈ l, x.1 < 2 ^ 16 ∧ x.2.length ≤ 4080) :
    readStream (imageOf h l) = { readStream (imageOf h l) with
      frames := (l.zipIdx).map (fun x => { index := x.2 + 1, secType := x.1.1, payloadLen := x.1.2.length }) } := by
  have e : ((imageOf h l).frames.drop 1).map bodyFrame =
      (l.zipIdx).map (fun x => ({ index := x.2 + 1, secType := x.1.1, payloadLen := x.1.2.length } : BsFrame)) := by
    simp only [imageOf, List.drop_one, List.tail_cons, List.map_map]
    apply List.map_congr_left
    intro x hx
    obtain ⟨n, hn⟩ := List.mem_iff_getElem?.1 hx
    rw [List.getElem?_zipIdx] at hn
    cases hv : l[n]? with
    | none => rw [hv] at hn; cases hn
    | some v =>
      rw [hv] at hn
      cases hn
      have hm := List.mem_of_getElem? hv
      obtain ⟨hlt, _⟩ := List.getElem?_eq_some_iff.1 hv
      exact frame_ok _ _ _ (by simp only [Nat.zero_add]; omega) (ht _ hm).1 (ht _ hm).2
  have f : (readStream (imageOf h l)).frames = ((imageOf h l).frames.drop 1).map bodyFrame := rfl
  rw [← e, ← f]

/-- A port and one that is not there. -/
def portBytes (plane : Nat) : List Byte := leBytes 1 plane ++ zeros 16 ++ leBytes 2 50 ++ zeros 23
/-- The NODE section: two ports. -/
def nodeBytes : List Byte := zeros 3 ++ portBytes 0 ++ portBytes 1 ++ zeros 253
/-- The sections of a full bit-stream of one slice. -/
def fullFrames : List (Nat × List Byte) :=
  [(1, nodeBytes), (2, zeros 4)] ++ List.replicate 8 (3, zeros 4080) ++ [(3, zeros 2176), (0x10, sliceBytes 100)]
/-- The bit-stream. -/
def full : BsImage :=
  imageOf (headFrame 0 13 3 0 [(1, 1, 1, 340), (2, 2, 1, 4), (3, 3, 9, 34816), (0x10, 12, 1, (sliceBytes 100).length)]) fullFrames
/-- A section for slice 0. -/
def sect (quota : Nat) : BsImage := imageOf (headFrame 1 2 4 3 [(0x10, 1, 1, (sliceBytes quota).length)]) [(0x10, sliceBytes quota)]

/-- A condition on what a bit-stream says, its frames as read. -/
def saysOf (h : List Byte) (l : List (Nat × List Byte)) (f : Bitstream → Bool) : Bool :=
  f { readStream (imageOf h l) with frames := (l.zipIdx).map (fun x => { index := x.2 + 1, secType := x.1.1, payloadLen := x.1.2.length }) }

/-- The node that takes it: firmware, keys, and slice 0 in a state. -/
def loading (n : Byte) (st : SliceState) : State :=
  queued 1 0xff (par [n]) { withSlice (fun x => { x with state := st, cfg := cfg2 100 }) node with
    sec := { manifest := some { cfgKeys := [9] }, running := some {} }
    sch := { (withSlice (fun x => { x with state := st, cfg := cfg2 100 }) node).sch with bsSerial := 3, classes := (cfg2 100).classes } }

/-- The loads start: unstaged, with stacks and a region that is not fenced. -/
theorem test_loads_start : begins 1 (loading 2 .absent) (fun o s => o.staged.isNone && s.aon.stacksUp && !s.stackFenced 0 && s.sch.slices.length = 8) = true ∧
    begins 1 (withAon (fun a => { a with stacksUp := false }) (loading 2 .absent)) (fun o s => o.staged.isNone && !s.aon.stacksUp) = true ∧
    begins 1 (withRas (fun r => { r with regionsFenced := List.range 8 }) (loading 2 .absent)) (fun _ s => (List.range 8).all s.stackFenced) = true := by
  decide +kernel

theorem test_full_load : begins 1 (loading 13 .absent) (fun o s => s.bsCheck (o.entry.param 0 4) (readStream full) = none &&
      s.bsStep9 (readStream full) = .ok && (readStream full).kind = 0) = true := by
  rw [full, frames_read _ _ (by decide +kernel) (by decide +kernel)]
  decide +kernel

theorem test_section_load : (readStream (sect 100)).slices = [(0, cfg2 100)] ∧
    begins 1 (loading 2 .absent) (fun o s => s.bsCheck (o.entry.param 0 4) (readStream (sect 100)) = none &&
      s.bsStep9 (readStream (sect 100)) = .ok && (readStream (sect 100)).kind = 1) = true ∧
    begins 1 (loading 2 .serving) (fun o s => s.bsCheck (o.entry.param 0 4) (readStream (sect 100)) = none &&
      s.bsStep9 (readStream (sect 100)) = .ok && s.cfg 0 = cfg2 100) = true ∧
    begins 1 (loading 2 .draining) (fun o s => s.bsCheck (o.entry.param 0 4) (readStream (sect 100)) = none &&
      s.bsStep9 (readStream (sect 100)) = .ok && (s.slice 0).outcome.op ≠ some 5) = true ∧
    begins 1 (loading 4 .absent) (fun o s => (s.bsCheck (o.entry.param 0 4) (readStream (sect 100))).isSome) = true ∧
    begins 1 (loading 2 .composing) (fun o s => s.bsCheck (o.entry.param 0 4) (readStream (sect 100)) = none &&
      s.bsStep9 (readStream (sect 100)) = .busy) = true := by
  rw [sect, frames_read _ _ (by decide +kernel) (by decide +kernel)]
  decide +kernel

theorem test_changing_section : (readStream (sect 101)).slices = [(0, cfg2 101)] ∧ cfg2 101 ≠ cfg2 100 ∧
    begins 1 (loading 2 .serving) (fun o s => s.bsCheck (o.entry.param 0 4) (readStream (sect 101)) = none &&
      s.bsStep9 (readStream (sect 101)) = .ok && (s.slice 0).state = .serving) = true := by
  rw [sect, frames_read _ _ (by decide +kernel) (by decide +kernel)]
  decide +kernel

/-- A load that waits for step 9. -/
def staged1 (up : Bool) : State :=
  withHost (fun h => { h with ops := h.ops.map (fun o => (o.1, { o.2 with state := 2, staged := some (0, sect 100), progress := 2 })) })
    (withAon (fun a => { a with stacksUp := up }) (loading 2 .absent))
theorem test_staged : begins 1 (staged1 true) (fun o s => o.staged.isSome && s.aon.stacksUp) = true ∧
    begins 1 (staged1 false) (fun o s => o.staged.isSome && !s.aon.stacksUp) = true := by decide +kernel

theorem test_registers : accessOk 0x68 8 = true ∧ accessOk 0x69 8 = false ∧ node.regPresent 0x68 = true ∧ node.regStopped 0x68 = false ∧
    (withAon (fun a => { a with bootStage := 15 }) node).regPresent 0x68 = false ∧ (withAon (fun a => { a with bootStage := 15 }) node).reachable = true ∧
    (withPwr (fun p => { p with apexDown := true }) node).regStopped 0x100008 = true ∧ node.log.ackSeq < 2 ^ 64 ∧
    (∀ f ∈ rcFields (0x10 / 8 * 8), f.lo < 8 * (0x10 % 8) ∨ 8 * (0x10 % 8) + 8 * 8 ≤ f.hi) ∧
    (0x68, 8, 999900000) ∈ (withHost (fun h => { h with heldReads := [(0x68, 8, 999900000)] }) node).host.heldReads ∧
    999900000 + 50000 ≤ node.now ∧ node.now < 999990000 + 50000 := by decide +kernel

/-- A window of region 0 that covers the bank pair of an address. -/
def colliding : State :=
  { node with nbu := node.nbu.modify 0 (fun r => { r with wins := [(0, { step := .active, pairs := [addrPair 0x1000000] })] }) }

/-- The state in which an access of the window at an address runs. -/
def slotTaken (a : Nat) (s : State) : State := s.linked.takeStack 4 a

theorem test_stack_window : node.bar2Addr 0x1000000 % 256 + 2 ≤ 256 ∧ pageSpace (node.bar2Addr 0x1000000) = true ∧
    (slotTaken 0x1000000 node).collides 0x1000000 = false ∧ pageSpace (node.bar2Addr (31 * 2 ^ 30)) = false ∧ node.stackFenced 0 = false ∧
    (lostPair (withHost (fun h => { h with bar2Base := 4 }) node)).bar2Addr 0x1000000 = 0x4001000000 ∧
    (lostPair node).stackFenced (addrStack 0x4001000000) = true ∧ pageSpace 0x4001000000 = true ∧
    (slotTaken 0x1000000 colliding).collides 0x1000000 = true ∧ addrStack 0x1000000 < colliding.nbu.length ∧ node.aon.stacksUp = true ∧
    ((slotTaken 0x1000000 node).nbu.getD 0 {}).queued = [] ∧ Memory.wf (slotTaken 0x1000000 node).mem.cells = true := by decide +kernel

theorem test_endpoint : node.host.lost = false ∧ (∀ o ∈ node.host.ops, o.2.entry.op = 1 → o.2.state = 2 → o.2.pastStep9 = true ∨ o.2.staged.isSome = true) ∧
    4 ≤ node.aon.bootStage ∧
    (withHost (fun h => { h with ops := [(5, { entry := { op := 1 }, state := 2 })] }) node).host.ops.get? 5 = some { entry := { op := 1 }, state := 2 } := by
  decide +kernel

/-- A firmware image that passes the checks under a root key. -/
def fw : FwImage := { signerPub := 6, signedBy := 6 }
/-- A node in recovery. -/
def recovery (st next : Nat) : State :=
  withAon (fun a => { a with bootStage := 15 }) { node with sec := { fwRootHash := [6, 0], recState := st, nextChunk := next, pushed := some fw } }

theorem test_recovery_push : (recovery 0 0).aon.bootStage = 15 ∧ (recovery 0 0).hostUp = true ∧ (recovery 1 3).sec.recState = 1 ∧
    (recovery 1 3).sec.nextChunk = 3 ∧ (recovery 0 0).sec.imageCheck fw = 0 ∧ 1 < (recovery 0 0).sec.imageCheck { fw with bodyDigest := 1 } ∧
    (recovery 3 0).sec.recState = 3 ∧ node.sec.recState ≠ 3 ∧ node.aon.bootStage ≠ 15 := by decide +kernel

/-- A node whose SPDM negotiation stands where given. -/
def spdm (v c a : Bool) : State := { node with sec := { node.sec with spdmVersion := v, spdmCaps := c, spdmAlgs := a } }
theorem test_spdm : node.aon.failed.contains 95 = false ∧ (spdm true true true).sec.spdmAlgs = true ∧ (spdm true false false).sec.spdmVersion = true ∧
    node.sec.spdmVersion = false ∧ (spdm true true false).sec.spdmCaps = true ∧ node.sec.spdmCaps = false ∧ node.sec.spdmAlgs = false := by
  decide +kernel

/-- Activity of one account, whose leakage gives a core power in mW. -/
def burns (mW : Nat) : List Activity := [{ core := List.replicate 11 0 ++ [mW * 10000000], stack := List.replicate 5 0 }]
/-- The core power that it gives. -/
def coreOf (s : State) (mW : Nat) : Nat := powerOf ((burns mW).map s.pwr.coreEnergy).sum

theorem test_limits : manages (.powerShift hdr (cert 6 5) 500 10) 2 6 (Machine.shiftOk 500 10) (cert 6 5) serial4 (fun s => s.serialIs (cert 6 5) ≠ .same) = true ∧
    (withPwr (fun p => { p with shift := some (500, 1000000001) }) node).pwr.shift = some (500, 1000000001) ∧
    node.now < 1000000001 ∧ (999999999 : Nat) ≤ node.now ∧ node.pwr.regionClk.length = 8 ∧ node.pwr.apexDown = false ∧ node.pwr.pstate ≤ 7 ∧
    node.pwr.energy.length = 9 ∧ 950000 < coreOf node 960000 ∧ coreOf node 100000 ≤ node.cap * 1000 ∧ node.cap * 1000 < coreOf node 800000 ∧
    node.pwr.currentOf (coreOf node 100000) ≤ node.ras.currentLimit ∧ node.ras.currentLimit < node.pwr.currentOf (coreOf node 800000) ∧
    node.throttled 5 0xff = false ∧ node.shares 10 (.port 0 []) = [(0, 10)] ∧
    ((node.shares 10 (.island 3)).map Prod.snd).sum = 10 := by decide +kernel

theorem test_divergence : node.ras.phasesOn.contains 3 = true ∧ 32 ∉ node.ras.phasesOn ∧ 32 ∉ node.ras.phasesBad ∧
    (∀ k, k ∈ [32, 33, 34, 35] → k ∈ (withRas (fun r => { r with phasesBad := [32, 33, 34, 35] }) node).ras.phasesBad) ∧ node.pwr.sumN = 0 ∧
    (withPwr (fun p => { p with sumN := 1, measN := 1 }) node).pwr.sumN ≠ 0 ∧
    (withPwr (fun p => { p with apexDown := true }) node).pwr.apexDown = true := by decide +kernel

theorem test_heat : (∃ x ∈ ([800, 921] : List Int), 920 ≤ x) ∧ (∀ x ∈ ([800, 864] : List Int), x < 920) ∧ (∃ x ∈ ([800, 864] : List Int), 864 ≤ x) ∧
    (∃ x ∈ List.replicate 8 (840 : Int), 840 ≤ x) ∧ (∀ x ∈ [744, 743, 720, 719, 696, 695, 0, 839], (x : Int) < 840) ∧ node.pwr.caseLimit.length = 8 := by
  decide +kernel

theorem test_fault_pins : node.pwr.pstate ≤ 7 ∧ (withAon (fun a => { a with vrPin := true, vrAt := 990000000 }) node).aon.vrAt + 10000000 ≤ node.now ∧
    node.now < 990000001 + 10000000 ∧ (withAon (fun a => { a with coolantPin := true, coolantAt := 0 }) node).aon.coolantAt + 1000000000 ≤ node.now ∧
    node.now < 1 + 1000000000 ∧ node.pwr.flushBusy = false ∧ (withPwr (fun p => { p with flushBusy := true }) node).pwr.flushBusy = true ∧
    (movingPage .flash [] []).mem.drives.any (fun d => d.2.usable) = true ∧ node.mem.drives.any (fun d => d.2.usable) = false ∧
    node.aon.selfCause = 0 := by decide +kernel

theorem test_pins : node.running = true ∧ State.reset.aon.phase = .inReset ∧ State.reset.aon.resetLow = true ∧ State.reset.aon.thermTrip = false ∧
    State.reset.aon.clk100Lost = false ∧ (withAon (fun a => { a with phase := .clockLost }) node).aon.phase = .clockLost ∧
    (withAon (fun a => { a with phase := .coldWait }) node).aon.phase = .coldWait ∧ (withAon (fun a => { a with phase := .tripped }) node).aon.phase = .tripped ∧
    (withAon (fun a => { a with clk156Lost := true }) node).running = true ∧ (node.port 0).mode ≠ 0 ∧
    ((withPort (fun p => { p with linkUp := false }) node).port 0).linkUp = false ∧ node.aon.phase ≠ .clockLost ∧
    State.reset.aon.lowLongEnough = true ∧ (withAon (fun a => { a with phase := .inReset, resetLow := true, coldSince := some 999999999 }) node).aon.lowLongEnough =
      false := by decide +kernel

/-- A node at a stage of its start. -/
def starting (n : Nat) (held : Bool) : State :=
  withAon (fun a => { a with bootStage := n, stacksUp := false, stacksHeld := held }) { node with sec := { fwRootHash := [6, 0], image := some fw } }

theorem test_starts : (starting 0 false).sec.imageCheck fw = 0 ∧ (starting 0 false).sec.imageCheck { fw with magic := 0 } ≠ 0 ∧
    (starting 0 false).sec.recoveryReq = false ∧ { (starting 0 false).sec with recoveryReq := true }.recoveryReq = true ∧ node.sec.image = none ∧
    node.aon.bootStage ≠ 0 ∧ (starting 4 true).aon.stacksUp = false ∧ (starting 4 true).ras.quartersLost = [] ∧ (starting 4 true).aon.stacksHeld = true ∧
    (∀ n, n < 8 → (List.replicate 8 true).getD n false = true) ∧ ((starting 4 false).aon.stacksHeld && true) = false ∧ (starting 4 false).image = none ∧
    ({ starting 4 false with image := some {} }.usableImage true).isSome = true := by decide +kernel

/-- Queue pair 2 off die, with a last update that is old. -/
def oldCtx : State := withAon (fun a => { a with now := 2 ^ 41 }) (spilled false node)

theorem test_sweeps : (withAon (fun a => { a with stacksUp := false }) node).aon.stacksUp = false ∧ node.aon.stacksUp = true ∧
    (training.home.entries.map (fun e => (e.slice, e.name))).Nodup ∧ (withHome (fun h => { h with entries := [{ page 1 with stale := true }] }) node).home.entries.length = 1 ∧
    (node.group 0).ramp = none ∧ ({ node with eth := { node.eth with groups := [(0, { ramp := some 3 })] } }.group 0).ramp = some 3 ∧
    (node.xpt.ctxs.map Prod.fst).Nodup ∧ (oldCtx.ctx 2).map (fun c => c.onDie) = some false ∧ 2 ^ 30 < (cx.echo.age oldCtx.tick) := by decide +kernel

/-- The frame that starts from the state after time has passed at the home applies to a command that runs. -/
theorem test_settled_frame : node.running = true ∧ (∃ t, exec (.homeUnitLoss 0) node = .next t) := ⟨rfl, _, rfl⟩

/-! ## Ill-formed commands (WellFormed) -/

/-- The default page format, and the Locus parameters of slice 0. -/
def accepts (c : Instr) : Bool := c.wellFormed {} cfg0.locus
/-- The checks refuse each of these commands. -/
def refusesAll (l : List Instr) : Bool := l.all (fun c => !accepts c)

theorem test_wf_attend : accepts (.attendFwd {} fwd) = true ∧ refusesAll ([
    { fwd with handle := 2 ^ 64 }, { fwd with layer := 4096 }, { fwd with group := 256 }, { fwd with posCount := 0 },
    { fwd with posStart := 2 ^ 32 }, { fwd with posStart := 2 ^ 28 }, { fwd with posCount := 2 ^ 20 + 1 }, { fwd with rowsPerHead := 0 },
    { fwd with rowsPerHead := 65 }, { fwd with queryFormat := 2 }, { fwd with scale := 0 }, { fwd with scale := 0x7f800000 },
    { fwd with tau := 16 }, { fwd with mode := 2 }, { fwd with delta := 256 }, { fwd with resultFormat := 2 }, { fwd with deadline := 2 ^ 64 },
    { fwd with query := [] }, { fwd with query := [[0]] }, { fwd with query := [List.replicate 32 65536] }].map (.attendFwd {})) = true := by
  decide +kernel

theorem test_wf_mask : accepts (.attendFwd {} { fwd with mask := { maskType := 5, tailBytes := 1, tail := [0xff] } }) = true ∧ refusesAll (([
    { reserved := true }, { maskType := 6 }, { rowsPerPos := 0 }, { rowsPerPos := 2 }, { perHead := 1 }, { causalAnd := 1 }, { granLog2 := 5 },
    { maskType := 4, granLog2 := 4, tailBytes := 1, tail := [1] }, { qPos := 1 }, { maskType := 1, qPos := 2 ^ 32 }, { maskType := 2 }, { param := 1 },
    { tail := [1] }, { tailBytes := 1, tail := [1] }, { maskType := 4, granLog2 := 5 }, { maskType := 5, tailBytes := 1, tail := [0] }] :
    List MaskDesc).map (fun m => .attendFwd {} { fwd with mask := m })) = true := by decide +kernel

theorem test_wf_backward : accepts (.attendBwdOpen {} bwd) = true ∧ accepts (.attendBwdCollect {} { bwd with resultFormat := 1 }) = true ∧
    accepts (.attendBwdAccumulate {} bwdAcc) = true ∧ refusesAll [
    .attendBwdOpen {} { bwd with accPass := 2 ^ 32 }, .attendBwdOpen {} { bwd with contribTag := 1 }, .attendBwdOpen {} { bwd with resultFormat := 1 },
    .attendBwdDiscard {} { bwd with scale := 1 }, .attendBwdCollect {} { bwd with posCount := 4097 }, .attendBwdCollect {} { bwd with resultFormat := 2 },
    .attendBwdAccumulate {} { bwdAcc with contribTag := 2 ^ 32 }, .attendBwdAccumulate {} { bwdAcc with rowsPerHead := 65 },
    .attendBwdAccumulate {} { bwdAcc with queryFormat := 2 }, .attendBwdAccumulate {} { bwdAcc with gradFormat := 2 },
    .attendBwdAccumulate {} { bwdAcc with scale := 0 }, .attendBwdAccumulate {} { bwdAcc with rows := [] },
    .attendBwdAccumulate {} { bwdAcc with rows := [{}] }, .attendBwdAccumulate {} { bwdAcc with mask := none }] = true := by decide +kernel

theorem test_wf_prefix : accepts (.lookup {} look) = true ∧ accepts (.publishPrefix {} pfx) = true ∧ accepts (.prefixRelease {} release) = true ∧
    refusesAll ([{ look with modelEpoch := 8 }, { look with keySource := 3 }, { look with takeRef := 2 }, { look with nBlocks := 0 },
      { look with keySource := 1 }, { look with keys := [] }, { look with keys := [(2 ^ 64, 0)] }, { look with keys := [(5, 1)] },
      { look with tokens := [[]] }].map (.lookup {})) = true ∧
    refusesAll ([{ pfx with modelEpoch := 8 }, { pfx with keySource := 2 }, { pfx with isPublic := 2 }, { pfx with level := 8 },
      { pfx with source := 2 ^ 64 }, { pfx with epoch := 2 ^ 48 }, { pfx with layers := 4096 }, { pfx with headGroups := 256 },
      { pfx with firstBlock := 2 ^ 22 - 1, nBlocks := 2 }, { pfx with nBlocks := 0 }, { pfx with parentKey := 1 }, { pfx with blocks := [] },
      { pfx with blocks := [{ tokens := [1], key := 5 }] }, { pfx with keySource := 0 }].map (.publishPrefix {})) = true ∧
    refusesAll ([{ release with modelEpoch := 8 }, { release with isPublic := 2 }, { release with nBlocks := 2 },
      { release with keys := [(5, 1)] }].map (.prefixRelease {})) = true ∧ (Instr.lookup {} look).wellFormed {} {} = false := by decide +kernel

theorem test_wf_leases : accepts (.leaseAcquire {} lp) = true ∧ accepts (.publishPage {} { pages := [{}] }) = true ∧
    refusesAll ([{ lp with handle := 2 ^ 64 }, { lp with epoch := 2 ^ 48 }, { lp with layerFirst := 4096 }, { lp with hgCount := 256 },
      { lp with blockCount := 4096 }, { lp with blockFirst := 2 ^ 20 }, { lp with layerCount := 4095, hgCount := 16 }, { lp with leaseMs := 0 },
      { lp with writeMode := 2 }, { lp with copyOld := 2 }, { lp with copyOld := 1 }, { lp with tornOk := 2 }, { lp with laOp := 2 }].map (.leaseAcquire {})) = true ∧
    accepts (.leaseRenew {} { lp with laOp := 1 }) = true ∧ refusesAll ([lp, { lp with laOp := 1, leaseId := 2 ^ 32 }, { lp with laOp := 1, leaseMs := 65536 }].map (.leaseRenew {})) = true ∧
    refusesAll ([{ leaseId := 2 ^ 32 }, { epoch := 2 ^ 48 }, { discard := 2 }].map (.leaseRelease {})) = true ∧
    refusesAll ([{ keepOpen := 2, pages := [{}] }, { pages := [] }, { pageCount := 2, pages := [{}, {}] }, { pages := [{ index := 65536 }] },
      { pages := [{ fill := 257 }] }].map (.publishPage {})) = true := by decide +kernel

theorem test_wf_handover : accepts (.handoverTransfer {} hv) = true ∧ accepts (.handoverQuery {} { hvOp := 2, handle := 1 }) = true ∧ accepts (.pin {} {}) = true ∧
    refusesAll ([{ hv with newOwner := 0 }, { hv with expectedEpoch := 2 ^ 48 }, { hv with requireIdle := 2 }, { hv with hvOp := 3 }].map (.handoverTransfer {})) = true ∧
    accepts (.handoverDiscard {} { hv with hvOp := 1, newOwner := 0 }) = true ∧
    refusesAll ([{ hv with hvOp := 1, newOwner := 1 }].map (.handoverDiscard {})) = true ∧ refusesAll ([{ hv with hvOp := 2 }].map (.handoverQuery {})) = true ∧
    refusesAll ([{ hgCount := 256 }, { layerCount := 4096 }, { blockCount := 65536 }, { blockFirst := 2 ^ 20 }, { replicate := 2 },
      { blockCount := 65535, hgCount := 1 }].map (.pin {})) = true := by decide +kernel

theorem test_wf_manage : accepts (.mapInstall {} {} {}) = true ∧ accepts (.admKeyCreate {} {} 0 kp) = true ∧ accepts (.powerShift {} {} 300 0) = true ∧
    refusesAll ([{ drainMs := 0 }, { drainMs := 10001 }, { generation := 2 ^ 32 }, { base := (2 ^ 14, 0) }, { buckets := [(65536, 0, 0)] }].map
      (.mapInstall {} {})) = true ∧
    refusesAll [.requesterFence {} {} [], .requesterFence {} {} [(2, 1)], .requesterUnfence {} {} [(0, 2 ^ 18)], .powerShift {} {} 299 0,
      .powerShift {} {} 761 0, .powerShift {} {} 300 3600001, .admKeyCreate {} {} 8 kp, .admKeyCreate {} {} 0 { kp with kind := 2 },
      .admKeyCreate {} {} 0 { kp with index := 16384 }, .admKeyCreate {} {} 0 { kp with lenOrLo := 10 }, .admKeyCreate {} {} 0 { lenOrLo := 0 },
      .admKeyRemove {} {} 0 (2 ^ 32), .isolationSet {} {} 0 0 1 {}, .isolationSet {} {} 0xff 0 1 { cls := 3 },
      .isolationSet {} {} 0xff 0 1 { prefixLen := 129 }, .groupSet {} {} 0xff 0 0 {}, .groupSet {} {} 0xff 4096 0 { gBurst := 1 },
      .isolationExport {} {} 0xff 8 0 1, .isolationExport {} {} 0xff 0 0 1025, .admManifestLoad {} {} 0 {}, .hello {} 256 0, .hello {} 4 3] = true := by
  decide +kernel

/-! ## The interface of the block -/

/-- The table gives its rows no bits: no word spells a command. -/
theorem test_no_words : decodeTableWord 32 0 = none ∧ State.reset.withFetchWord 32 0 = State.reset := ⟨rfl, rfl⟩

end Sys2Proof.Tests
end

section
/-! SUPPORT. Refused extended requests (R17, R253): what the answer of a refusal leaves as it was, and that the searches of a
PUBLISH_PREFIX change nothing where no entry shows a parity error. -/

namespace Sys2Proof.Machine

/-! ## What a refusal leaves -/

/-- What a refusal on queue pair `q` leaves as it was: name-table entries, sequence records, leases, accumulators, memory, waiting
requests, engines, slices, reliability state, directory nodes and the expected PSN. -/
def State.refusalFrame (q : Nat) (s : State) :=
  (s.home.entries, s.home.seqs, s.home.leases, s.home.accs, s.mem, s.reqs, s.eng, s.sch, s.ras, s.locus.nodes, (s.ctx q).map Ctx.ePsn)

/-- A change of the queue pair's context that keeps the expected PSN. -/
theorem onCtx_refusalFrame {q : Nat} {f : Ctx → Ctx} (k : ∀ c, (f c).ePsn = c.ePsn) (s : State) :
    (s.onCtx q f).refusalFrame q = s.refusalFrame q := by
  have hx : ((s.onCtx q f).ctx q).map Ctx.ePsn = (s.ctx q).map Ctx.ePsn := by
    rw [ctx_onCtx_same, Option.map_map, show Ctx.ePsn ∘ f = Ctx.ePsn from funext k]
  unfold State.refusalFrame
  rw [hx]
  rfl

/-- A message goes into the context's sending side alone. -/
theorem sendMessage_refusalFrame (q queue bytes : Nat) (data : List Byte) (b : TxBody) (s : State) :
    (s.sendMessage q queue bytes data b).refusalFrame q = s.refusalFrame q := by
  unfold State.sendMessage
  split
  · rfl
  · split
    · refine onCtx_refusalFrame ?_ s
      exact fun _ => rfl
    · rfl

theorem respond_refusalFrame (h : ExtHdr) (op variant : Nat) (code : Code) (aux : Nat) (body : RespBody) (s : State) :
    (s.respond h op variant code aux body).refusalFrame h.pkt.qpn = s.refusalFrame h.pkt.qpn := by
  unfold State.respond
  split
  · rfl
  · exact sendMessage_refusalFrame ..

/-- The counts of R259 and R271 lie outside the frame. -/
theorem countFault_refusalFrame (q : Nat) (code : Code) (s : State) : (s.countFault code).refusalFrame q = s.refusalFrame q := by
  cases code <;> rfl

/-- A refusal leaves what its own `refused` leaves. -/
theorem extRefuse_refusalFrame {h : ExtHdr} {c : Ctx} {sp : ExtSpec} {code : Code} {s : State}
    (k : ∀ t, t.locus = s.locus → (sp.refused code t).refusalFrame h.pkt.qpn = t.refusalFrame h.pkt.qpn) :
    (s.extRefuse h c sp code).refusalFrame h.pkt.qpn = s.refusalFrame h.pkt.qpn := by
  have hf := countFault_refusalFrame h.pkt.qpn code s
  have hl : (s.countFault code).locus = s.locus := State.countFault_keeps (locus_closed s.locus rfl rfl) rfl
  unfold State.extRefuse
  extract_lets s1 s2 node
  have h2 : s2.refusalFrame h.pkt.qpn = s.refusalFrame h.pkt.qpn ∧ s2.locus = s.locus := by
    unfold s2
    split <;> exact ⟨hf, hl⟩
  calc (((sp.refused code s2).respond h sp.op sp.variant code node (sp.refusal code s2)).refusalFrame h.pkt.qpn)
      = (sp.refused code s2).refusalFrame h.pkt.qpn := respond_refusalFrame ..
    _ = s2.refusalFrame h.pkt.qpn := k s2 h2.2
    _ = s.refusalFrame h.pkt.qpn := h2.1

/-! ## Searches without parity errors (R195) -/

/-- No entry of the directory arrays shows a parity error. -/
def State.ParityClean (s : State) : Prop := ∀ x ∈ s.locus.entries, x.2.parityBad = false

/-- An entry of a cascade of clean arrays shows none. -/
theorem cascade_parityBad {s : State} (k : s.ParityClean) {l : LocusCfg} {a : Nat} {e : LEntry} (h : (a, e) ∈ s.cascade l) :
    e.parityBad = false := by
  unfold State.cascade at h
  obtain ⟨x, hx, he⟩ := List.mem_filterMap.mp h
  dsimp only at he
  split at he
  · cases he
    exact k x (List.mem_of_mem_filter hx)
  · cases he

/-- A winner on die is one of the entries searched. -/
theorem mem_of_winner_die {s : State} {es : List (Nat × LEntry)} {slice key key2 tenant epoch16 a : Nat} {e : LEntry}
    (h : s.winner es slice key key2 tenant epoch16 = some (.die a e)) : (a, e) ∈ es := by
  unfold State.winner at h
  extract_lets l d o at h
  have hd : d = some (a, e) := by
    clear_value d o
    rcases d with _ | ⟨b, x⟩ <;> rcases o with _ | y
    · cases h
    · cases h
    · cases h; rfl
    · dsimp only at h
      split at h <;> cases h
      rfl
  exact List.mem_of_find?_eq_some hd

/-- An exact entry on die is one of the entries searched. -/
theorem mem_of_exactIn_die {s : State} {es : List (Nat × LEntry)} {slice key key2 tenant epoch16 a : Nat} {pub : Bool} {e : LEntry}
    (h : s.exactIn es slice key key2 tenant epoch16 pub = some (.die a e)) : (a, e) ∈ es := by
  unfold State.exactIn at h
  extract_lets l at h
  split at h
  · cases h
    exact List.mem_of_find?_eq_some ‹_›
  · split at h
    · cases h
    · obtain ⟨o, -, ho⟩ := Option.map_eq_some_iff.mp h
      cases ho

/-- In clean arrays a search ends with its first winner and repairs nothing. -/
theorem searchParity_of_clean {s : State} (k : s.ParityClean) (slice key key2 tenant epoch16 fuel : Nat) :
    (State.searchParity slice key key2 tenant epoch16 fuel s).2 = s := by
  cases fuel with
  | zero => rfl
  | succ n =>
    unfold State.searchParity
    split
    · rename_i a e hw
      rw [if_neg (by rw [cascade_parityBad k (mem_of_winner_die hw)]; exact Bool.false_ne_true)]
    · rfl

/-- In clean arrays the searches of a publish or release leave the state as it was. -/
theorem scrubKeys_of_clean {s : State} (k : s.ParityClean) (slice tenant epoch16 : Nat) (pub : Bool) (keys : List (Nat × Nat)) :
    s.scrubKeys slice tenant epoch16 pub keys = s := by
  unfold State.scrubKeys
  induction keys with
  | nil => rfl
  | cons x t ih =>
    rw [List.foldl_cons, searchParity_of_clean k]
    dsimp only
    split
    · rename_i a e hx
      rw [if_neg (by rw [cascade_parityBad k (mem_of_exactIn_die hx)]; exact Bool.false_ne_true)]
      exact ih
    · exact ih

theorem pfxScrub_of_clean {s : State} (k : s.ParityClean) (p : PfxParams) (c : Ctx) : s.pfxScrub p c = s :=
  scrubKeys_of_clean k ..

/-! ## The requests that R17 orders -/

/-- A running node answers a request that R17 orders by its checks, in the state in which it arrives. -/
theorem exec_of_requestOf {s : State} {cmd : Instr} {h : ExtHdr} {sp : Ctx → ExtSpec} (hr : s.running = true)
    (e : requestOf s cmd = some (h, sp)) : ∃ run, exec cmd s = .next ((arriving s cmd).extended h cmd sp run) := by
  unfold requestOf at e
  split at e
  case h_18 => cases e
  all_goals
    cases e
    exact ⟨_, congrArg Host.Outcome.next (whenUp_running hr)⟩

/-- Of the requests that R17 orders, only LEASE_ACQUIRE and PUBLISH_PREFIX do more at a refusal than answer it. -/
theorem refused_of_requestOf {s : State} {cmd : Instr} {h : ExtHdr} {sp : Ctx → ExtSpec} (e : requestOf s cmd = some (h, sp)) (c : Ctx) :
    (sp c).refused = (fun _ t => t) ∨ (∃ p, sp c = acquireSpec h p c) ∨ ∃ p y, sp c = pfxSpec h p y c := by
  unfold requestOf at e
  split at e
  case h_8 => cases e; exact .inr (.inr ⟨_, _, rfl⟩)
  case h_10 => cases e; exact .inr (.inl ⟨_, rfl⟩)
  case h_18 => cases e
  all_goals
    cases e
    exact .inl rfl

/-- What a refusal does beside its answer leaves the queue pair in RTS. -/
theorem refused_inRts {s : State} {cmd : Instr} {h : ExtHdr} {sp : Ctx → ExtSpec} (e : requestOf s cmd = some (h, sp)) (c : Ctx) (q : Nat)
    (code : Code) {t : State} (k : t.inRts q) : ((sp c).refused code t).inRts q := by
  obtain hs | ⟨p, hs⟩ | ⟨p, y, hs⟩ := refused_of_requestOf e c
  · rw [hs]; exact k
  · rw [hs]; exact acquireSpec_refused (rts_closed q rfl rfl) k
  · rw [hs]; exact pfxSpec_refused (rts_closed q rfl rfl) k

/-- What PUBLISH_PREFIX does at a refusal other than PUBLISH_CONFLICT is a count, where its searches meet no parity error. -/
theorem pfxSpec_refused_refusalFrame {h : ExtHdr} {p : PfxParams} {y : State} {c : Ctx} {code : Code} (q : Nat) {t : State}
    (hc : code ≠ .publishConflict) (k : t.ParityClean) : ((pfxSpec h p y c).refused code t).refusalFrame q = t.refusalFrame q := by
  change (ite _ _ _ : State).refusalFrame q = _
  rw [if_neg hc]
  split
  · rw [pfxScrub_of_clean k]
    rfl
  · rfl

/-- What an acquire does at a refusal is a count. -/
theorem acquireSpec_refused_refusalFrame {h : ExtHdr} {p : LeaseParams} {c : Ctx} (code : Code) (q : Nat) (t : State) :
    ((acquireSpec h p c).refused code t).refusalFrame q = t.refusalFrame q := by
  change (ite _ _ _ : State).refusalFrame q = _
  split <;> rfl

/-- What a refusal other than PUBLISH_CONFLICT does beside its answer lies outside the frame, in clean arrays. -/
theorem refused_refusalFrame {s : State} {cmd : Instr} {h : ExtHdr} {sp : Ctx → ExtSpec} (e : requestOf s cmd = some (h, sp)) (c : Ctx)
    (q : Nat) {code : Code} (hc : code ≠ .publishConflict) {t : State} (k : t.ParityClean) :
    ((sp c).refused code t).refusalFrame q = t.refusalFrame q := by
  obtain hs | ⟨p, hs⟩ | ⟨p, y, hs⟩ := refused_of_requestOf e c
  · rw [hs]
  · rw [hs]; exact acquireSpec_refused_refusalFrame code q t
  · rw [hs]; exact pfxSpec_refused_refusalFrame q hc k

/-! ## The refusal of an expected request -/

/-- An expected request that fails a step of R17 is refused with that step's code, once its sequence numbers are taken. -/
theorem extended_of_refused {h : ExtHdr} {cmd : Instr} {sp : Ctx → ExtSpec} {run : Ctx → State → State} {s s1 : State} {c : Ctx}
    (hr : s.receive h.pkt cmd (max 1 h.packets) = .fresh c s1)
    (he : (s1.acceptPsn h.pkt (max 1 h.packets)).extCode c h (sp c) ≠ .ok) :
    s.extended h cmd sp run = (s1.acceptPsn h.pkt (max 1 h.packets)).extRefuse h c (sp c)
      ((s1.acceptPsn h.pkt (max 1 h.packets)).extCode c h (sp c)) := by
  unfold State.extended
  rw [hr]
  dsimp only
  split
  · exact absurd ‹_› he
  · rfl

/-- A refusal on a queue pair in RTS is the last response held for it. -/
theorem extRefuse_last {h : ExtHdr} {c : Ctx} {sp : ExtSpec} {code : Code} {s : State} (k : s.inRts h.pkt.qpn)
    (kr : ∀ t : State, t.inRts h.pkt.qpn → (sp.refused code t).inRts h.pkt.qpn) :
    ∃ body, lastResponse (s.extRefuse h c sp code) h.pkt.qpn = some (sp.op, sp.variant, code, body) := by
  have k1 : (s.countFault code).inRts h.pkt.qpn := State.countFault_keeps (rts_closed _ rfl rfl) k
  unfold State.extRefuse
  refine ⟨_, respond_last (kr _ ?_)⟩
  split
  · exact State.countRetry_keeps (rts_closed _ rfl rfl) k1
  · exact k1

/-- Taking a message's sequence numbers moves the expected PSN past it (R263). -/
theorem acceptPsn_ePsn {k : Pkt} {n : Nat} {s : State} {c : Ctx} (hc : s.ctx k.qpn = some c) :
    ((s.acceptPsn k n).ctx k.qpn).map Ctx.ePsn = some ((c.ePsn + n) % 2 ^ 24) := by
  unfold State.acceptPsn
  extract_lets s1
  have h1 : (s1.ctx k.qpn).map Ctx.ePsn = some ((c.ePsn + n) % 2 ^ 24) := by
    unfold s1
    rw [ctx_onCtx_same, hc]
    rfl
  clear_value s1
  have hx : ∀ {t : State}, t.xpt = s1.xpt → (t.ctx k.qpn).map Ctx.ePsn = some ((c.ePsn + n) % 2 ^ 24) := by
    intro t e
    unfold State.ctx at h1 ⊢
    rw [e]
    exact h1
  have kp := xpt_closed (m := 16384) s1.xpt rfl rfl rfl
  split
  · exact h1
  · refine hx (State.sendControl_keeps kp ?_)
    exact keep_foldl (P := fun t => t.xpt = s1.xpt) (fun _ _ ht => State.sendControl_keeps kp ht) rfl

/-! ## The codes of steps 1 and 2 of R17 -/

/-- Step 1: a data request on a fenced node. -/
theorem extCode_fenced {c : Ctx} {h : ExtHdr} {sp : ExtSpec} {s : State} (hd : sp.data = true) (hf : s.nodeFenced = true) :
    s.extCode c h sp = .fenced := by
  simp [State.extCode, State.extEntry, hd, hf]

/-- Step 2: a malformed header or body, where step 1 does not apply. -/
theorem extCode_formatError {c : Ctx} {h : ExtHdr} {sp : ExtSpec} {s : State} (hd : sp.data = false ∨ s.nodeFenced = false)
    (hk : (headerOk c h sp && sp.parses) = false) : s.extCode c h sp = .formatError := by
  have h1 : (sp.data && s.nodeFenced) = false := Bool.and_eq_false_iff.mpr hd
  simp [State.extCode, State.extEntry, h1, hk]

end Sys2Proof.Machine
end

section
/-! The statement on refused requests. -/

open Sys2Proof Sys2Proof.Machine

/-- Settles O10: an expected request runs `extRefuse` with its code on the state its sequence numbers left (`extended_of_refused`);
the answer is the last response of a queue pair in RTS, and what the refusal does beside the answer keeps `State.refusalFrame`. -/
theorem refusedRequestsChangeNothing : Obligations.RefusedRequestsChangeNothing := by
  unfold Obligations.RefusedRequestsChangeNothing
  intro cmd h sp s s1 c hrun hreq hrx s2 e
  have hexec : e ≠ .ok → exec cmd s = .next (s2.extRefuse h c (sp c) e) := fun he => by
    obtain ⟨run, hx⟩ := exec_of_requestOf hrun hreq
    rw [hx, extended_of_refused hrx he]
  obtain ⟨hrts, hctx⟩ := receive_fresh_inRts hrx
  refine ⟨fun he => ⟨_, hexec he, ?_⟩, fun he hc hp => ⟨_, hexec he, ?_⟩, extCode_fenced, extCode_formatError⟩
  · exact extRefuse_last (State.acceptPsn_keeps (rts_closed _ rfl rfl) hrts) (fun _ k => refused_inRts hreq c _ e k)
  · have f : (s2.extRefuse h c (sp c) e).refusalFrame h.pkt.qpn = s2.refusalFrame h.pkt.qpn :=
      extRefuse_refusalFrame (fun t ht => refused_refusalFrame hreq c _ hc (fun x hx => hp x (ht ▸ hx)))
    simpa only [State.refusalFrame, Prod.mk.injEq, s2, acceptPsn_ePsn hctx] using f

end

section
/-! SUPPORT. The passing of a nanosecond (R37, R371): what each of its five parts does, and which account of a slice takes it. -/

namespace Sys2Proof.Machine

/-! ## Ticks with nothing to serve -/

/-- Arbiters at which nothing waits serve nothing. -/
theorem arbTick_of_idle {s : State} (h : ∀ x ∈ s.eng.arbs, x.waiting = []) : s.arbTick = s :=
  if_pos (List.all_eq_true.mpr fun x hx => by rw [h x hx]; rfl)

/-- Outputs that hold no flit send none. -/
theorem latticeTick_of_idle {s : State} (h : ∀ x ∈ s.eng.links, x.out = []) : s.latticeTick = s :=
  if_pos (List.all_eq_true.mpr fun x hx => by rw [h x hx]; rfl)

/-! ## The availability accounts (R371) -/

/-- The condition of the account "serving", as R371 writes it. -/
theorem availOf_serving {i : Nat} {s : State} :
    s.availOf i = .serving ↔ s.running = true ∧ ((s.slice i).state = .serving ∨ (s.slice i).state = .recomposing) ∧
      s.nodeFenced = false ∧ s.swapped i = false := by
  unfold State.availOf State.slice
  dsimp only
  split
  case isTrue h => simpa [and_assoc] using h
  case isFalse h =>
    refine iff_of_false ?_ (by simpa [and_assoc] using h)
    split <;> exact Avails.noConfusion

/-- The condition of the account "excluded" where the nanosecond does not serve. -/
theorem availOf_excluded {i : Nat} {s : State} (h : s.availOf i ≠ .serving) :
    s.availOf i = .excluded ↔ s.running = true ∧ (s.ras.fenced = true ∨ s.ras.expelled = true ∨ (s.slice i).state = .composing ∨
      (s.slice i).state = .draining ∨ (s.slice i).state = .disabled) := by
  unfold State.availOf State.slice at *
  dsimp only at *
  split at h
  · exact absurd rfl h
  · rw [if_neg ‹_›]
    split
    case isTrue k => simpa [or_assoc] using k
    case isFalse k => exact iff_of_false Avails.noConfusion (by simpa [or_assoc] using k)

/-- Without supply and after a thermal trip no account takes the time. -/
theorem accounts_of_unpowered {s : State} (h : s.aon.phase = .coldWait ∨ s.aon.phase = .tripped) : s.accounts = s := if_pos h

/-- In every other phase each slice's account of the present nanosecond takes it. -/
theorem accounts_of_powered {s : State} (hc : s.aon.phase ≠ .coldWait) (ht : s.aon.phase ≠ .tripped) :
    s.accounts.ras.avail = (s.ras.avail.zipIdx).map (fun a => a.1.count (s.availOf a.2)) := by
  unfold State.accounts
  rw [if_neg (not_or.mpr ⟨hc, ht⟩)]
  rfl

/-- Of the reliability part the accounts change nothing else. -/
theorem accounts_ras (s : State) : s.accounts.ras = { s.ras with avail := s.accounts.ras.avail } := by
  unfold State.accounts
  split <;> rfl

/-- Beside the accounts of the reliability part they change nothing. -/
theorem accounts_eq (s : State) : s.accounts = { s with ras := s.accounts.ras } := by
  unfold State.accounts
  split <;> rfl

/-- The account of a slice after a nanosecond, by its conditions. -/
theorem count_availOf (i : Nat) (s : State) (a : Avail) :
    a.count (s.availOf i) =
      if s.running = true ∧ ((s.slice i).state = .serving ∨ (s.slice i).state = .recomposing) ∧ s.nodeFenced = false ∧ s.swapped i = false then
        { a with serving := (a.serving + 1) % 2 ^ 64 }
      else if s.running = true ∧ (s.ras.fenced = true ∨ s.ras.expelled = true ∨ (s.slice i).state = .composing ∨
          (s.slice i).state = .draining ∨ (s.slice i).state = .disabled) then
        { a with excluded := (a.excluded + 1) % 2 ^ 64 }
      else { a with unplanned := (a.unplanned + 1) % 2 ^ 64 } := by
  split
  case isTrue h => rw [availOf_serving.mpr h]; rfl
  case isFalse h =>
    have hs : s.availOf i ≠ .serving := fun e => h (availOf_serving.mp e)
    split
    case isTrue k => rw [(availOf_excluded hs).mpr k]; rfl
    case isFalse k =>
      have he : s.availOf i ≠ .excluded := fun e => k ((availOf_excluded hs).mp e)
      cases e : s.availOf i with
      | serving => exact absurd e hs
      | excluded => exact absurd e he
      | unplanned => rfl

/-! ## The nanosecond as a whole -/

/-- The measures of the load index are all that the first part touches (R287). -/
theorem meter_eq (s : State) :
    s.meter = { s with eth := { s.eth with meters := if s.running then noteMeter s.reading s.eth.meters else s.eth.meters } } := by
  unfold State.meter
  split <;> rfl

theorem availOf_meter (i : Nat) (s : State) : s.meter.availOf i = s.availOf i := by rw [meter_eq]; rfl

/-- Of the reliability part a nanosecond touches the accounts alone. -/
theorem pass_ras (s : State) : s.pass.ras = s.meter.accounts.ras := by
  refine State.stamp_keeps (ras_closed _ rfl rfl) (State.latticeTick_keeps (ras_closed _ rfl rfl) ?_)
  exact State.arbTick_keeps (ras_closed _ rfl rfl) rfl

/-- Of the always-on part a nanosecond touches the time stamp alone (R37). -/
theorem pass_aon (s : State) : s.pass.aon = { s.aon with now := (s.aon.now + 1) % 2 ^ 64 } := by
  have h : s.meter.accounts.arbTick.latticeTick.aon = s.aon :=
    State.latticeTick_keeps (aon_closed _ rfl rfl) (State.arbTick_keeps (aon_closed _ rfl rfl)
      (State.accounts_keeps (aon_closed _ rfl rfl) (State.meter_keeps (aon_closed _ rfl rfl) rfl)))
  change (fun a : Aon => { a with now := (a.now + 1) % 2 ^ 64 }) s.meter.accounts.arbTick.latticeTick.aon = _
  rw [h]

/-- The parts that no nanosecond touches. -/
theorem pass_same (s : State) :
    ∀ p ∈ ([.pwr, .sec, .sch, .mem, .home, .locus, .xpt, .reqs, .nextReq, .image, .free, .pending] : List Part), p.same s s.pass := by
  simp only [List.forall_mem_cons, List.not_mem_nil, false_implies, implies_true, and_true]
  exact ⟨State.pass_keeps (pwr_closed _ rfl rfl) rfl, State.pass_keeps (sec_closed _ rfl rfl) rfl,
    State.pass_keeps (sch_closed _ rfl rfl) rfl, State.pass_keeps (mem_closed _ rfl rfl rfl) rfl,
    State.pass_keeps (home_closed _ rfl rfl) rfl, State.pass_keeps (locus_closed _ rfl rfl) rfl,
    State.pass_keeps (xpt_closed _ rfl rfl rfl) rfl, State.pass_keeps (reqs_closed _ rfl rfl rfl) rfl,
    State.pass_keeps (nextReq_closed _ rfl) rfl, State.pass_keeps (image_closed _ rfl) rfl,
    State.pass_keeps (free_closed _ rfl) rfl, State.pass_keeps (pending_closed _ _) rfl⟩

/-- With nothing waiting at arbiters and outputs, a nanosecond is the measures, the accounts and the stamp. -/
theorem pass_of_idle {s : State} (ha : ∀ x ∈ s.eng.arbs, x.waiting = []) (hl : ∀ x ∈ s.eng.links, x.out = []) :
    s.pass = s.meter.accounts.stamp := by
  have he : s.meter.accounts.eng = s.eng :=
    State.accounts_keeps (eng_closed _ rfl rfl) (State.meter_keeps (eng_closed _ rfl rfl) rfl)
  unfold State.pass
  rw [arbTick_of_idle (by rwa [he]), latticeTick_of_idle (by rwa [he])]

end Sys2Proof.Machine
end

section
/-! The statement on the step of an empty queue. -/

open Sys2Proof Sys2Proof.Machine

/-- Settles O2: a step on an empty queue is `State.pass`, of whose parts only the accounts touch the reliability part and only the stamp
the always-on part. -/
theorem idleStepCountsTime : Obligations.IdleStepCountsTime := by
  unfold Obligations.IdleStepCountsTime
  intro s hq
  have hphase : s.meter.aon.phase = s.aon.phase := by rw [meter_eq]
  have hras : s.meter.ras = s.ras := by rw [meter_eq]
  refine ⟨s.pass, by unfold step; rw [hq], pass_aon s, ?_, pass_same s, fun ha hl => ?_, fun hp => ?_, fun hc ht => ⟨?_, fun i hi => ?_⟩⟩
  · rw [pass_ras, ← hras]
    exact accounts_ras s.meter
  · rw [pass_ras, pass_aon, pass_of_idle ha hl, accounts_eq]
    generalize s.meter.accounts.ras = r
    rw [meter_eq]
    rfl
  · rw [pass_ras, accounts_of_unpowered (by rwa [hphase]), hras]
  · rw [pass_ras, accounts_of_powered (by rwa [hphase]) (by rwa [hphase]), hras]
    simp
  · rw [pass_ras, accounts_of_powered (by rwa [hphase]) (by rwa [hphase]), hras]
    simp only [List.getD_eq_getElem?_getD, List.getElem?_map, List.getElem?_zipIdx, List.getElem?_eq_getElem hi, Option.map_some,
      Option.getD_some, Nat.zero_add, availOf_meter]
    exact count_availOf i s _

end

section
/-! SUPPORT. The event log and the Lattice: what an entry put into the log reads back as (R423), what a link direction is after each
change, what flits look at when they choose a route, and what one arriving flit does (R38 to R41). -/

namespace Sys2Proof.Machine

/-! ## Log entries (R423) -/

/-- What the interrupt of the log threshold touches lies outside the log. -/
theorem logIrq_log (s : State) : s.logIrq.log = s.log := State.logIrq_keeps (log_closed _ rfl rfl) rfl

/-- An entry is put under the next sequence number. -/
theorem logPut_get (e : LogEntry) (s : State) : (s.logPut e).log.entries.get? s.log.nextSeq = some e := by
  unfold State.logPut
  dsimp only
  rw [logIrq_log]
  exact Tbl.get?_set_same _ _ _

theorem logPut_nextSeq (e : LogEntry) (s : State) : (s.logPut e).log.nextSeq = s.log.nextSeq + 1 := by
  unfold State.logPut
  dsimp only
  rw [logIrq_log]
  rfl

/-! ## Link directions -/

/-- A link direction after a change of it. -/
theorem link_onLink_same {s : State} {k : Nat} (h : k < s.eng.links.length) (f : LinkS → LinkS) : (s.onLink k f).link k = f (s.link k) := by
  unfold State.link State.onLink State.onEng
  simp [List.getD_eq_getElem?_getD, List.getElem?_eq_getElem h]

/-- A change of another link direction. -/
theorem link_onLink_other (s : State) {j k : Nat} (h : j ≠ k) (f : LinkS → LinkS) : (s.onLink k f).link j = s.link j := by
  unfold State.link State.onLink State.onEng
  simp [List.getD_eq_getElem?_getD, List.getElem?_modify_ne _ _ (Ne.symm h)]

@[simp] theorem onLink_links_length (k : Nat) (f : LinkS → LinkS) (s : State) : (s.onLink k f).eng.links.length = s.eng.links.length := by
  simp [State.onLink]

@[simp] theorem onLink_log (k : Nat) (f : LinkS → LinkS) (s : State) : (s.onLink k f).log = s.log := rfl
@[simp] theorem onLink_aon (k : Nat) (f : LinkS → LinkS) (s : State) : (s.onLink k f).aon = s.aon := rfl
@[simp] theorem onLink_streams (k : Nat) (f : LinkS → LinkS) (s : State) : (s.onLink k f).eng.streams = s.eng.streams := rfl
@[simp] theorem onLink_rerouted (k : Nat) (f : LinkS → LinkS) (s : State) : (s.onLink k f).eng.rerouted = s.eng.rerouted := rfl

/-- Two changes of one link direction are one. -/
theorem onLink_onLink (k : Nat) (f g : LinkS → LinkS) (s : State) : (s.onLink k f).onLink k g = s.onLink k (g ∘ f) := by
  unfold State.onLink State.onEng
  simp [List.modify_modify_eq]

/-- A change that fails no link direction and repairs none. -/
theorem onLink_failed {f : LinkS → LinkS} (hf : ∀ x, (f x).failed = x.failed) (s : State) (j k : Nat) :
    ((s.onLink k f).link j).failed = (s.link j).failed := by
  by_cases h : j = k
  · subst h
    by_cases hl : j < s.eng.links.length
    · rw [link_onLink_same hl, hf]
    · unfold State.link
      rw [List.getD_eq_default _ _ (by simpa using hl), List.getD_eq_default _ _ (by simpa using hl)]
  · rw [link_onLink_other s h]

/-! ## Routes (R41) -/

/-- Which routers are reached depends on which link directions have failed, and on nothing else. -/
theorem reaches_congr {s t : State} (h : ∀ j, (t.link j).failed = (s.link j).failed) (n a b : Nat) : t.reaches n a b = s.reaches n a b := by
  induction n generalizing a with
  | zero => rfl
  | succ n ih => simp only [State.reaches, h, ih]

theorem nextHop_congr {s t : State} (h : ∀ j, (t.link j).failed = (s.link j).failed) (a b : Nat) : t.nextHop a b = s.nextHop a b := by
  simp only [State.nextHop, h, reaches_congr h]

/-- A route begins with a link direction that has not failed. -/
theorem nextHop_not_failed {s : State} {a b l : Nat} (h : s.nextHop a b = some l) : (s.link (linkKey a l)).failed = false := by
  unfold State.nextHop at h
  obtain ⟨n, -, hn⟩ := List.exists_of_findSome?_eq_some h
  have hp := List.find?_some hn
  rw [Bool.and_eq_true, Bool.not_eq_true'] at hp
  exact hp.1

/-- A flit never waits at a failed link direction. -/
theorem enqueueFlit_link {s : State} {k : Nat} (h : (s.link k).failed = true) (router : Nat) (f : Flit) :
    (s.enqueueFlit router f).link k = s.link k := by
  unfold State.enqueueFlit
  split
  · rfl
  · rename_i l hl
    refine link_onLink_other s (fun e => ?_) _
    have hn := nextHop_not_failed hl
    rw [← e, h] at hn
    cases hn

theorem enqueueFlit_rerouted (s : State) (router : Nat) (f : Flit) : (s.enqueueFlit router f).eng.rerouted = s.eng.rerouted := by
  unfold State.enqueueFlit
  split <;> rfl

/-! ## A link direction fails (R40) -/

/-- Of the state of the links, a detection against one changes nothing; it takes one place of the log. -/
theorem detectLink_eng (router link : Nat) (s : State) : (s.detectLink router link).eng = s.eng :=
  State.detectLink_keeps (eng_closed _ rfl rfl) rfl

theorem detectLink_aon (router link : Nat) (s : State) : (s.detectLink router link).aon = s.aon :=
  State.detectLink_keeps (aon_closed _ rfl rfl) rfl

theorem detectLink_nextSeq (router link : Nat) (s : State) : (s.detectLink router link).log.nextSeq = s.log.nextSeq + 1 := logPut_nextSeq ..

theorem detectLink_link (router link k : Nat) (s : State) : (s.detectLink router link).link k = s.link k := by
  unfold State.link
  rw [detectLink_eng]

theorem logLink_eng (event router link : Nat) (s : State) : (s.logLink event router link).eng = s.eng :=
  State.logLink_keeps (eng_closed _ rfl rfl) rfl

/-- The log entry of a link's event, at the time of a state. -/
def linkEvent (s : State) (event router link : Nat) : LogEntry :=
  { kind := 3, island := 32 + router
    record := eventRecord s.now event 0xff 0 (linkKey router link) (32 + router + (32 + linkFar router link) * 256) 0 }

/-- An event of a link is logged under the next sequence number. -/
theorem logLink_get (event router link : Nat) (s : State) :
    (s.logLink event router link).log.entries.get? s.log.nextSeq = some (linkEvent s event router link) := logPut_get ..

/-- A link direction that fails holds nothing and waits for nothing. -/
theorem failLink_link {s : State} {router link : Nat} (h : linkKey router link < s.eng.links.length) :
    (s.failLink router link).link (linkKey router link) =
      { s.link (linkKey router link) with failed := true, waiting := false, buffer := [], out := [] } := by
  unfold State.failLink
  extract_lets x s1 s2
  have h2 : s2.link (linkKey router link) = { s.link (linkKey router link) with failed := true, waiting := false, buffer := [], out := [] } :=
    link_onLink_same h _
  unfold State.link
  rw [logLink_eng]
  exact keep_foldl (P := fun t => t.link (linkKey router link) = { s.link (linkKey router link) with
    failed := true, waiting := false, buffer := [], out := [] }) (fun t f ht => by rw [enqueueFlit_link (by rw [ht]), ht]) h2

/-- Traffic is rerouted once a link direction has failed. -/
theorem failLink_rerouted (s : State) (router link : Nat) : (s.failLink router link).eng.rerouted = true := by
  unfold State.failLink
  rw [logLink_eng]
  exact keep_foldl (P := fun t => t.eng.rerouted = true) (fun t f ht => by rw [enqueueFlit_rerouted, ht]) rfl

/-- The failure of a link direction is logged as 0x0102 under the next sequence number. -/
theorem failLink_get (s : State) (router link : Nat) :
    (s.failLink router link).log.entries.get? s.log.nextSeq = some (linkEvent s 0x0102 router link) := by
  unfold State.failLink
  extract_lets x s1 s2
  have hk : ∀ (l : List Flit), (l.foldl (fun t f => t.enqueueFlit router f) s2).log = s.log ∧
      (l.foldl (fun t f => t.enqueueFlit router f) s2).aon = s.aon := fun l =>
    ⟨keep_foldl (P := fun t => t.log = s.log) (fun t f ht => State.enqueueFlit_keeps (log_closed _ rfl rfl) ht) rfl,
      keep_foldl (P := fun t => t.aon = s.aon) (fun t f ht => State.enqueueFlit_keeps (aon_closed _ rfl rfl) ht) rfl⟩
  obtain ⟨hlog, haon⟩ := hk (x.buffer ++ x.out)
  rw [← hlog, logLink_get]
  unfold linkEvent State.now
  rw [haon]

/-! ## An arriving flit (R40) -/

/-- What the sender's replay buffer holds once a flit is on its way. -/
def LinkS.kept (x : LinkS) (f : Flit) : List Flit :=
  if f.seq = (x.nextSeq + x.buffer.length) % 65536 ∧ x.buffer.length < 64 then x.buffer ++ [f] else x.buffer

/-- A link direction once the awaited flit is taken. -/
def LinkS.taken (x : LinkS) : LinkS := { x with nextSeq := (x.nextSeq + 1) % 65536, waiting := false, replays := 0, buffer := [] }

variable {s : State} {router link : Nat} {f : Flit} {crc : Nat}

/-- The awaited flit of an empty replay buffer, intact: it is taken at the far router. -/
theorem flit_good (hx : (s.link (linkKey router link)).failed = false) (hf : f.seq = (s.link (linkKey router link)).nextSeq)
    (hn : (s.link (linkKey router link)).nextSeq < 65536) (hb : (s.link (linkKey router link)).buffer = []) :
    s.flit router link f (flitCrcOf f) = (s.onLink (linkKey router link) LinkS.taken).atRouter (linkFar router link) f := by
  unfold State.flit
  simp only [hx, hb, List.length_nil, hf, Bool.false_eq_true, if_false, ne_eq, not_true_eq_false, if_true, Nat.add_zero,
    Nat.mod_eq_of_lt hn, Nat.zero_lt_succ, and_self, List.nil_append, List.headD_cons, List.drop_one, List.tail_cons, onLink_onLink]
  rfl

/-- A flit out of sequence, while another is awaited, only enters the replay buffer. -/
theorem flit_waiting (hx : (s.link (linkKey router link)).failed = false) (hf : f.seq ≠ (s.link (linkKey router link)).nextSeq)
    (hw : (s.link (linkKey router link)).waiting = true) :
    s.flit router link f crc = s.onLink (linkKey router link) (fun x => { x with buffer := (s.link (linkKey router link)).kept f }) := by
  unfold State.flit
  simp only [hx, hw, hf, Bool.false_eq_true, if_false, ne_eq, not_false_eq_true, if_true, true_or]
  rfl

/-- A spoilt awaited flit: detected, and then a handshake or, after 16 replays, the failure of the link direction. -/
theorem flit_bad (hx : (s.link (linkKey router link)).failed = false) (hf : f.seq = (s.link (linkKey router link)).nextSeq)
    (hc : crc ≠ flitCrcOf f) :
    s.flit router link f crc =
      let x := s.link (linkKey router link)
      let s1 := (s.onLink (linkKey router link) (fun y => { y with buffer := x.kept f })).detectLink router link
      if x.replays < 16 then
        (s1.onLink (linkKey router link) (fun y => { y with waiting := true, replays := y.replays + 1 })).logLink 0x0101 router link
      else s1.failLink router link := by
  unfold State.flit
  simp only [hx, Bool.false_eq_true, if_false, if_neg (not_not_intro hf), if_neg hc]
  rfl

/-- A handshake that times out is detected and fails the link direction. -/
theorem linkTimeout_eq (hx : (s.link (linkKey router link)).failed = false) :
    s.linkTimeout router link = (s.detectLink router link).failLink router link := if_neg (by rw [hx]; exact Bool.false_ne_true)

/-! ## Detected faults of a link direction (R40) -/

/-- After a detection a link direction fails: its state, the rerouting, and the entry 0x0102 behind the detection's. -/
theorem detected_failLink (h : linkKey router link < s.eng.links.length) :
    let t := (s.detectLink router link).failLink router link
    t.link (linkKey router link) = { s.link (linkKey router link) with failed := true, waiting := false, buffer := [], out := [] } ∧
      t.eng.rerouted = true ∧ t.log.entries.get? (s.log.nextSeq + 1) = some (linkEvent s 0x0102 router link) := by
  refine ⟨?_, failLink_rerouted .., ?_⟩
  · rw [failLink_link (by rwa [detectLink_eng]), detectLink_link]
  · rw [← detectLink_nextSeq router link, failLink_get]
    unfold linkEvent State.now
    rw [detectLink_aon]

/-- After a detection a handshake opens: the link direction's state, no rerouting, and the entry 0x0101 behind the detection's. -/
theorem detected_handshake (h : linkKey router link < s.eng.links.length) :
    let x := s.link (linkKey router link)
    let t := ((s.detectLink router link).onLink (linkKey router link) (fun y =>
      { y with waiting := true, replays := y.replays + 1 })).logLink 0x0101 router link
    t.link (linkKey router link) = { x with waiting := true, replays := x.replays + 1 } ∧
      t.eng.rerouted = s.eng.rerouted ∧ t.log.entries.get? (s.log.nextSeq + 1) = some (linkEvent s 0x0101 router link) := by
  refine ⟨?_, ?_, ?_⟩
  · unfold State.link
    rw [logLink_eng]
    have := link_onLink_same (s := s.detectLink router link) (k := linkKey router link) (by rwa [detectLink_eng])
      (fun y => { y with waiting := true, replays := y.replays + 1 })
    rw [detectLink_link] at this
    exact this
  · rw [logLink_eng, onLink_rerouted, detectLink_eng]
  · have hl := logLink_get 0x0101 router link
      ((s.detectLink router link).onLink (linkKey router link) (fun y => { y with waiting := true, replays := y.replays + 1 }))
    rw [onLink_log, detectLink_nextSeq] at hl
    rw [hl]
    unfold linkEvent State.now
    rw [onLink_aon, detectLink_aon]

/-! ## A flit at a router (R39) -/

/-- At its destination's router a message goes to the end of its stream. -/
theorem atRouter_arrived {r : Nat} (h : unitRouter f.dst = r) :
    s.atRouter r f = s.onEng (fun e => { e with streams := e.streams.update (streamKey f.src f.dst f.cls) {} (Reorder.take f.num f.payload) }) :=
  if_pos h

/-- Elsewhere it waits at the next link of its route. -/
theorem atRouter_onward {r l : Nat} (h : unitRouter f.dst ≠ r) (hl : s.nextHop r (unitRouter f.dst) = some l) :
    s.atRouter r f = s.onLink (linkKey r l) (fun x => { x with out := x.out ++ [{ f with vc := crossVc r l f.vc }] }) := by
  unfold State.atRouter State.enqueueFlit
  rw [if_neg h, hl]

/-! ## Streams of messages and output arbiters (R39) -/

/-- The message that is next is delivered, and the window waits for the one after it. -/
theorem take_next {w : Reorder} {num : Nat} {data : List Byte} (h : num = w.next) (hh : w.held = []) :
    Reorder.take num data w = { next := (num + 1) % 65536, held := [], last := data } := by
  have hd : (num + 65536 - w.next) % 65536 < 64 := by omega
  unfold Reorder.take
  rw [if_pos ⟨hd, by simp [hh]⟩, hh]
  simp [Reorder.drain, h]

/-- A later message inside the window is held. -/
theorem take_held {w : Reorder} {num : Nat} {data : List Byte} (h : num ≠ w.next) (hd : (num + 65536 - w.next) % 65536 < 64) (hh : w.held = []) :
    Reorder.take num data w = { w with held := [(num, data)] } := by
  unfold Reorder.take
  rw [if_pos ⟨hd, by simp [hh]⟩, hh]
  simp [Reorder.drain, h]

/-- A message outside the window is dropped. -/
theorem take_dropped {w : Reorder} {num : Nat} {data : List Byte} (hd : 64 ≤ (num + 65536 - w.next) % 65536) : Reorder.take num data w = w :=
  if_neg (fun k => absurd k.1 (by omega))

/-- What an output sends waits there, and nothing that waits is of a class before it. -/
theorem pick_least {x : LinkS} {f : Flit} (h : x.pick = some f) : f ∈ x.out ∧ ∀ g ∈ x.out, f.cls ≤ g.cls := by
  have hsome : ∀ {c : Nat} {g : Flit}, x.out.find? (fun f => f.cls.val = c) = some g → g.cls.val = c ∧ g ∈ x.out := fun h =>
    ⟨by simpa using List.find?_some h, List.mem_of_find?_eq_some h⟩
  have hnone : ∀ {c : Nat}, x.out.find? (fun f => f.cls.val = c) = none → ∀ g ∈ x.out, g.cls.val ≠ c := fun h => by simpa using h
  unfold LinkS.pick at h
  rw [show List.range 3 = [0, 1, 2] from rfl] at h
  simp only [List.findSome?_cons, List.findSome?_nil] at h
  split at h
  · obtain rfl := Option.some.inj h
    obtain ⟨hc, hm⟩ := hsome ‹_›
    exact ⟨hm, fun g _ => Fin.le_def.mpr (by omega)⟩
  · have h0 := hnone ‹_›
    split at h
    · obtain rfl := Option.some.inj h
      obtain ⟨hc, hm⟩ := hsome ‹_›
      exact ⟨hm, fun g hg => Fin.le_def.mpr (by have := h0 g hg; omega)⟩
    · have h1 := hnone ‹_›
      split at h
      · obtain rfl := Option.some.inj h
        obtain ⟨hc, hm⟩ := hsome ‹_›
        exact ⟨hm, fun g hg => Fin.le_def.mpr (by have := h0 g hg; have := h1 g hg; omega)⟩
      · cases h

end Sys2Proof.Machine
end

section
/-! The statement on the Lattice's links. -/

open Sys2Proof Sys2Proof.Machine

/-- Settles O18, clause by clause from what one arriving flit does (`flit_good`, `flit_waiting`, `flit_bad`). -/
theorem latticeLinks : Obligations.LatticeLinks := by
  unfold Obligations.LatticeLinks
  refine ⟨?_, fun w num data _ _ => ⟨fun h hh => take_next h hh, fun h hd hh => take_held h hd hh, take_dropped⟩, fun x f h => pick_least h⟩
  intro router link s hr k far x event hk hx
  have hup : ∀ F : State → State, s.whenUp F = F s := fun F => State.whenUp_up hr
  refine ⟨?_, ?_⟩
  case refine_2 =>
    refine ⟨_, rfl, ?_⟩
    rw [hup, linkTimeout_eq hx]
    exact detected_failLink hk
  intro f kept
  refine ⟨fun hf hn hb => ?_, fun crc hf hw => ?_, fun crc hf hc hrep => ?_, fun crc hf hc hrep => ?_⟩
  · have hgood := flit_good hx hf hn hb
    have hlink : (s.onLink k LinkS.taken).link k = { x with nextSeq := (x.nextSeq + 1) % 65536, waiting := false, replays := 0 } := by
      rw [link_onLink_same hk, hb]
      rfl
    refine ⟨fun hd => ⟨_, rfl, ?_⟩, fun l hd hl hlen hne => ⟨_, rfl, ?_⟩⟩
    · rw [hup, hgood, atRouter_arrived hd]
      exact ⟨hlink, Tbl.getD_update_same ..⟩
    · rw [hup, hgood, atRouter_onward hd ((nextHop_congr (fun j => onLink_failed (f := LinkS.taken) (fun _ => rfl) s j _) _ _).trans hl)]
      exact ⟨(link_onLink_other _ hne.symm _).trans hlink, by rw [link_onLink_same (by simpa using hlen), link_onLink_other _ hne]⟩
  · exact congrArg Host.Outcome.next ((hup _).trans (flit_waiting hx hf hw))
  · refine ⟨_, rfl, ?_⟩
    rw [hup, flit_bad hx hf hc]
    dsimp only
    rw [if_pos hrep]
    have h := detected_handshake (s := s.onLink k (fun y => { y with buffer := kept })) (router := router) (link := link) (by simpa using hk)
    rw [link_onLink_same hk] at h
    exact h
  · refine ⟨_, rfl, ?_⟩
    rw [hup, flit_bad hx hf hc]
    dsimp only
    rw [if_neg (not_lt.mpr hrep)]
    have h := detected_failLink (s := s.onLink k (fun y => { y with buffer := kept })) (router := router) (link := link) (by simpa using hk)
    rw [link_onLink_same hk] at h
    exact h

end

section
/-! SUPPORT. What the operations that end leases, fail drives, fence regions and place tile groups leave of the parts that they touch: no
page-buffer line is added, blocks keep their slots, windows stand, drives stay as present and failed as they were, accumulators stay
lost, no lease appears, contexts stay on die. `Mild` predicates are those that such changes keep; every operation keeps them. -/

namespace Sys2Proof.Machine

/-! ## Changes of one part -/

/-- No page-buffer line is added, and every block keeps its slots and its spare. -/
def Engine.Calm (e e' : Engine) : Prop :=
  (∀ a ∈ e'.lines, a ∈ e.lines) ∧ ∀ b, (e'.blocks.getD b {}).slots = (e.blocks.getD b {}).slots ∧
    (e'.blocks.getD b {}).spareUsed = (e.blocks.getD b {}).spareUsed

/-- What a drive is to those who read it. -/
def Drive.standing (d : Drive) : Bool × Bool := (d.failed, d.present)

/-- Every drive is present and failed as before. -/
def Mem.Calm (m m' : Mem) : Prop := ∀ k, (m'.drives.get? k).map Drive.standing = (m.drives.get? k).map Drive.standing

/-- No accumulator and no lease appears; a lost accumulator stays lost, and a lease keeps its sequence. -/
def Home.Calm (h h' : Home) : Prop :=
  (∀ a ∈ h'.accs, ∃ x ∈ h.accs, a.parts = x.parts ∧ (x.lost = true → a.lost = true)) ∧
    ∀ l ∈ h'.leases, ∃ x ∈ h.leases, l.1 = x.1 ∧ l.2.slice = x.2.slice ∧ l.2.params.handle = x.2.params.handle

/-- No context appears, and each is on die as before. -/
def Xpt.Calm (x x' : Xpt) : Prop := ∀ c ∈ x'.ctxs, ∃ y ∈ x.ctxs, c.1 = y.1 ∧ c.2.onDie = y.2.onDie

/-- Region fences, error counts and faulty rows stand. -/
def Ras.Calm (r r' : Ras) : Prop := r'.regionsFenced = r.regionsFenced ∧ r'.ce = r.ce ∧ r'.ue = r.ue ∧ r'.rowsFaulty = r.rowsFaulty

/-- A predicate that calm changes keep; of the parts that `base` names (host interface, log, slices, ports, requests, free values, what
leaves the node) any change. -/
structure Mild (P : State → Prop) : Prop where
  base : Closed 835696 P
  eng : ∀ f s, (∀ e, Engine.Calm e (f e)) → P s → P (State.onEng f s)
  nbu : ∀ r c s, P s → P (State.onNbu r (NbRegion.enqueue c) s)
  mem : ∀ f s, (∀ m, Mem.Calm m (f m)) → P s → P (State.onMem f s)
  home : ∀ f s, (∀ h, Home.Calm h (f h)) → P s → P (State.onHome f s)
  xpt : ∀ f s, (∀ x, Xpt.Calm x (f x)) → P s → P (State.onXpt f s)

/-- A mild predicate that also a drive's failure, a self-fence and the other losses keep. -/
structure Lossy (P : State → Prop) : Prop extends Mild P where
  aon : ∀ f s, P s → P (State.onAon f s)
  ras : ∀ f s, (∀ r, Ras.Calm r (f r)) → P s → P (State.onRas f s)
  locus : ∀ f s, (∀ l, (f l).lostBlocks = l.lostBlocks) → P s → P (State.onLocus f s)
  fail : ∀ d s, P s → P (State.onDrive d (fun y => { y with failed := true, cmds := [] }) s)

/-! ## Calm changes -/

theorem Engine.Calm.refl (e : Engine) : Engine.Calm e e := ⟨fun _ h => h, fun _ => ⟨rfl, rfl⟩⟩

theorem Engine.Calm.trans {a b c : Engine} (h : Engine.Calm a b) (k : Engine.Calm b c) : Engine.Calm a c :=
  ⟨fun x hx => h.1 x (k.1 x hx), fun i => ⟨(k.2 i).1.trans (h.2 i).1, (k.2 i).2.trans (h.2 i).2⟩⟩

/-- Changes of anything but blocks and page-buffer lines. -/
theorem Engine.Calm.of_eq {e e' : Engine} (hb : e'.blocks = e.blocks) (hl : e'.lines = e.lines) : Engine.Calm e e' := by
  unfold Engine.Calm
  rw [hb, hl]
  exact Engine.Calm.refl e

/-- Page-buffer lines that are dropped. -/
theorem Engine.Calm.of_filter {e e' : Engine} (hb : e'.blocks = e.blocks) {p : Nat → Bool} (hl : e'.lines = e.lines.filter p) :
    Engine.Calm e e' := by
  unfold Engine.Calm
  rw [hb, hl]
  exact ⟨fun _ h => List.mem_of_mem_filter h, fun _ => ⟨rfl, rfl⟩⟩

/-- A change of every block that keeps slots and spare. -/
theorem Engine.Calm.of_map {e e' : Engine} {f : BlockS → BlockS} (hf : ∀ x, (f x).slots = x.slots ∧ (f x).spareUsed = x.spareUsed)
    (hb : e'.blocks = e.blocks.map f) (hl : e'.lines = e.lines) : Engine.Calm e e' := by
  unfold Engine.Calm
  rw [hb, hl]
  refine ⟨fun _ h => h, fun b => ?_⟩
  simp only [List.getD_eq_getElem?_getD, List.getElem?_map]
  cases e.blocks[b]? with
  | none => exact ⟨rfl, rfl⟩
  | some x => exact hf x

/-- A change of one block that keeps slots and spare. -/
theorem Engine.Calm.of_modify {e e' : Engine} {b : Nat} {f : BlockS → BlockS} (hf : ∀ x, (f x).slots = x.slots ∧ (f x).spareUsed = x.spareUsed)
    (hb : e'.blocks = e.blocks.modify b f) (hl : e'.lines = e.lines) : Engine.Calm e e' := by
  unfold Engine.Calm
  rw [hb, hl]
  refine ⟨fun _ h => h, fun c => ?_⟩
  simp only [List.getD_eq_getElem?_getD, List.getElem?_modify]
  cases e.blocks[c]? with
  | none => exact ⟨rfl, rfl⟩
  | some x =>
    simp only [Option.getD_some]
    split
    · exact hf x
    · exact ⟨rfl, rfl⟩

/-- Changes of anything but the drives. -/
theorem Mem.Calm.of_eq {m m' : Mem} (h : m'.drives = m.drives) : Mem.Calm m m' := fun _ => by rw [h]

/-- A change of one drive that leaves it as present and failed as it was. -/
theorem Mem.Calm.of_modify {m m' : Mem} {d : Nat} {f : Drive → Drive} (hf : ∀ y, (f y).standing = y.standing)
    (h : m'.drives = m.drives.modify d f) : Mem.Calm m m' := fun k => by
  rw [h, Tbl.get?_modify]
  split
  · subst_vars
    rw [Option.map_map, show Drive.standing ∘ f = Drive.standing from funext hf]
  · rfl

/-- A change of every drive that leaves each as present and failed as it was. -/
theorem Mem.Calm.of_map {m m' : Mem} {f : Drive → Drive} (hf : ∀ y, (f y).standing = y.standing)
    (h : m'.drives = m.drives.map (fun d => (d.1, f d.2))) : Mem.Calm m m' := fun k => by
  rw [h]
  induction m.drives with
  | nil => rfl
  | cons p t ih =>
    simp only [List.map_cons, Tbl.get?]
    split
    · exact congrArg some (hf _)
    · exact ih

theorem Home.Calm.refl (h : Home) : Home.Calm h h := ⟨fun a ha => ⟨a, ha, rfl, id⟩, fun l hl => ⟨l, hl, rfl, rfl, rfl⟩⟩

/-- Changes of anything but accumulators and leases. -/
theorem Home.Calm.of_eq {h h' : Home} (ha : h'.accs = h.accs) (hl : h'.leases = h.leases) : Home.Calm h h' := by
  unfold Home.Calm
  rw [ha, hl]
  exact Home.Calm.refl h

/-- A change of every accumulator that keeps its parts, and a lost one lost. -/
theorem Home.Calm.of_accs {h h' : Home} {f : Accumulator → Accumulator} (hf : ∀ a, (f a).parts = a.parts ∧ (a.lost = true → (f a).lost = true))
    (ha : h'.accs = h.accs.map f) (hl : h'.leases = h.leases) : Home.Calm h h' := by
  unfold Home.Calm
  rw [ha, hl]
  refine ⟨fun a k => ?_, (Home.Calm.refl h).2⟩
  obtain ⟨x, hx, rfl⟩ := List.mem_map.mp k
  exact ⟨x, hx, hf x⟩

/-- A lease that ends. -/
theorem Home.Calm.of_erase {h h' : Home} {k : Nat} (ha : h'.accs = h.accs) (hl : h'.leases = h.leases.erase k) : Home.Calm h h' := by
  unfold Home.Calm
  rw [ha, hl]
  exact ⟨(Home.Calm.refl h).1, fun l m => ⟨l, List.mem_of_mem_filter m, rfl, rfl, rfl⟩⟩

/-- A lease that changes and keeps its sequence. -/
theorem Home.Calm.of_modify {h h' : Home} {k : Nat} {f : Lease → Lease} (hf : ∀ l, (f l).slice = l.slice ∧ (f l).params.handle = l.params.handle)
    (ha : h'.accs = h.accs) (hl : h'.leases = h.leases.modify k f) : Home.Calm h h' := by
  unfold Home.Calm
  rw [ha, hl]
  refine ⟨(Home.Calm.refl h).1, fun l m => ?_⟩
  obtain ⟨x, hx, rfl⟩ := List.mem_map.mp m
  refine ⟨x, hx, ?_⟩
  split
  · exact ⟨rfl, hf x.2⟩
  · exact ⟨rfl, rfl, rfl⟩

theorem Xpt.Calm.refl (x : Xpt) : Xpt.Calm x x := fun c h => ⟨c, h, rfl, rfl⟩

/-- Changes of anything but the contexts. -/
theorem Xpt.Calm.of_eq {x x' : Xpt} (h : x'.ctxs = x.ctxs) : Xpt.Calm x x' := by
  unfold Xpt.Calm
  rw [h]
  exact Xpt.Calm.refl x

/-- A context that changes and stays where it is. -/
theorem Xpt.Calm.of_modify {x x' : Xpt} {q : Nat} {f : Ctx → Ctx} (hf : ∀ c, (f c).onDie = c.onDie) (h : x'.ctxs = x.ctxs.modify q f) :
    Xpt.Calm x x' := by
  unfold Xpt.Calm
  rw [h]
  intro c m
  obtain ⟨y, hy, rfl⟩ := List.mem_map.mp m
  refine ⟨y, hy, ?_⟩
  split
  · exact ⟨rfl, hf y.2⟩
  · exact ⟨rfl, rfl⟩

/-! ## Predicates of one part -/

/-- What is said of a view of the state that closed operations keep. -/
theorem Closed.of_view {α : Type} {m : Nat} {view : State → α} (h : ∀ x, Closed m (fun t => view t = x)) (Q : α → Prop) :
    Closed m (fun t => Q (view t)) where
  aon b f s k := (congrArg Q ((h _).aon b f s rfl)).mpr k
  ras b f s k := (congrArg Q ((h _).ras b f s rfl)).mpr k
  pwr b f s k := (congrArg Q ((h _).pwr b f s rfl)).mpr k
  sec b f s k := (congrArg Q ((h _).sec b f s rfl)).mpr k
  host b f s k := (congrArg Q ((h _).host b f s rfl)).mpr k
  log b f s k := (congrArg Q ((h _).log b f s rfl)).mpr k
  sch b f s k := (congrArg Q ((h _).sch b f s rfl)).mpr k
  eng b f s k := (congrArg Q ((h _).eng b f s rfl)).mpr k
  nbu b r f s k := (congrArg Q ((h _).nbu b r f s rfl)).mpr k
  mem b f s x y k := (congrArg Q ((h _).mem b f s x y rfl)).mpr k
  cells b f s x k := (congrArg Q ((h _).cells b f s x rfl)).mpr k
  home b f s k := (congrArg Q ((h _).home b f s rfl)).mpr k
  locus b f s k := (congrArg Q ((h _).locus b f s rfl)).mpr k
  xpt b f s k := (congrArg Q ((h _).xpt b f s rfl)).mpr k
  eth b f s k := (congrArg Q ((h _).eth b f s rfl)).mpr k
  reqs b f s x k := (congrArg Q ((h _).reqs b f s x rfl)).mpr k
  nextReq b q s k := (congrArg Q ((h _).nextReq b q s rfl)).mpr k
  image b i s k := (congrArg Q ((h _).image b i s rfl)).mpr k
  free b s k := (congrArg Q ((h _).free b s rfl)).mpr k
  emitted b x s k := (congrArg Q ((h _).emitted b x s rfl)).mpr k
  drop b s k := (congrArg Q ((h _).drop b s rfl)).mpr k
  link b f s x k := (congrArg Q ((h _).link b f s x rfl)).mpr k

/-- What calm changes of the engines keep. -/
theorem Lossy.of_eng {Q : Engine → Prop} (h : ∀ e e', Engine.Calm e e' → Q e → Q e') : Lossy (fun t => Q t.eng) where
  base := .of_view (fun x => eng_closed x rfl rfl) Q
  eng _ s k := h _ _ (k s.eng)
  nbu _ _ _ := id
  mem _ _ _ := id
  home _ _ _ := id
  xpt _ _ _ := id
  aon _ _ := id
  ras _ _ _ := id
  locus _ _ _ := id
  fail _ _ := id

/-- What an access that joins a collision queue keeps. -/
theorem Lossy.of_nbu {Q : List NbRegion → Prop} (h : ∀ n r c, Q n → Q (n.modify r (NbRegion.enqueue c))) : Lossy (fun t => Q t.nbu) where
  base := .of_view (fun x => nbu_closed x rfl rfl) Q
  eng _ _ _ := id
  nbu r c _ := h _ r c
  mem _ _ _ := id
  home _ _ _ := id
  xpt _ _ _ := id
  aon _ _ := id
  ras _ _ _ := id
  locus _ _ _ := id
  fail _ _ := id

/-- What calm changes of the drives keep. -/
theorem Mild.of_mem {Q : Mem → Prop} (h : ∀ m m', Mem.Calm m m' → Q m → Q m') : Mild (fun t => Q t.mem) where
  base := .of_view (fun x => mem_closed x rfl rfl rfl) Q
  eng _ _ _ := id
  nbu _ _ _ := id
  mem _ s k := h _ _ (k s.mem)
  home _ _ _ := id
  xpt _ _ _ := id

/-- What calm changes of the home keep. -/
theorem Lossy.of_home {Q : Home → Prop} (h : ∀ x x', Home.Calm x x' → Q x → Q x') : Lossy (fun t => Q t.home) where
  base := .of_view (fun x => home_closed x rfl rfl) Q
  eng _ _ _ := id
  nbu _ _ _ := id
  mem _ _ _ := id
  home _ s k := h _ _ (k s.home)
  xpt _ _ _ := id
  aon _ _ := id
  ras _ _ _ := id
  locus _ _ _ := id
  fail _ _ := id

/-- What calm changes of the contexts keep. -/
theorem Lossy.of_xpt {Q : Xpt → Prop} (h : ∀ x x', Xpt.Calm x x' → Q x → Q x') : Lossy (fun t => Q t.xpt) where
  base := .of_view (fun x => xpt_closed x rfl rfl rfl) Q
  eng _ _ _ := id
  nbu _ _ _ := id
  mem _ _ _ := id
  home _ _ _ := id
  xpt _ s k := h _ _ (k s.xpt)
  aon _ _ := id
  ras _ _ _ := id
  locus _ _ _ := id
  fail _ _ := id

/-- What calm changes of the reliability part keep. -/
theorem Lossy.of_ras {Q : Ras → Prop} (h : ∀ r r', Ras.Calm r r' → Q r → Q r') : Lossy (fun t => Q t.ras) where
  base := .of_view (fun x => ras_closed x rfl rfl) Q
  eng _ _ _ := id
  nbu _ _ _ := id
  mem _ _ _ := id
  home _ _ _ := id
  xpt _ _ _ := id
  aon _ _ := id
  ras _ s k := h _ _ (k s.ras)
  locus _ _ _ := id
  fail _ _ := id

/-- What changes of the directory of prefixes keep that lose no block. -/
theorem Lossy.of_locus {Q : List Nat → Prop} : Lossy (fun t => Q t.locus.lostBlocks) where
  base := .of_view (fun x => locus_closed x rfl rfl) (fun l => Q l.lostBlocks)
  eng _ _ _ := id
  nbu _ _ _ := id
  mem _ _ _ := id
  home _ _ _ := id
  xpt _ _ _ := id
  aon _ _ := id
  ras _ _ _ := id
  locus f s k := by
    intro hq
    change Q (f s.locus).lostBlocks
    rwa [k]
  fail _ _ := id

end Sys2Proof.Machine
end

section
namespace Sys2Proof.Machine

/-! ## Operations on single parts -/

section mild
variable {P : State → Prop} (hP : Mild P) {s : State}
include hP

theorem State.bankWrite_mild {a : Nat} {b : Byte} (h : P s) : P (s.bankWrite a b) := by
  unfold State.bankWrite
  split
  · exact h
  · exact hP.mem _ s (fun _ => .of_eq rfl) h

theorem State.bankWriteN_mild {a : Nat} {l : List Byte} (h : P s) : P (s.bankWriteN a l) := by
  induction l generalizing a s with
  | nil => exact h
  | cons b t ih => exact ih (State.bankWrite_mild hP h)

theorem State.memZero_mild {lo hi : Nat} (h : P s) : P (s.memZero lo hi) := hP.mem _ s (fun _ => .of_eq rfl) h

theorem State.collide_mild {a len : Nat} {j : CqJob} (h : P s) : P (s.collide a len j) := hP.nbu _ _ s h

theorem State.clearMark_mild (h : P s) : P s.clearMark := by
  unfold State.clearMark
  split
  · exact hP.base.emitted rfl _ _ (hP.mem _ s (fun _ => .of_map (f := fun d => { d with mark := false }) (fun _ => rfl) rfl) h)
  · exact h

theorem State.onDrive_mild {d : Nat} {f : Drive → Drive} (hf : ∀ y, (f y).standing = y.standing) (h : P s) : P (s.onDrive d f) :=
  hP.mem _ s (fun _ => .of_modify hf rfl) h

theorem State.onCtx_mild {q : Nat} {f : Ctx → Ctx} (hf : ∀ c, (f c).onDie = c.onDie) (h : P s) : P (s.onCtx q f) :=
  hP.xpt _ s (fun _ => .of_modify hf rfl) h

theorem State.onEntry_mild {slice : Nat} {n : PageName} {f : Entry → Entry} (h : P s) : P (s.onEntry slice n f) :=
  hP.home _ _ (fun _ => .of_eq rfl rfl) (State.clearMark_mild hP h)

theorem State.onSeq_mild {slice handle : Nat} {f : SeqRec → SeqRec} (h : P s) : P (s.onSeq slice handle f) :=
  hP.home _ _ (fun _ => .of_eq rfl rfl) (State.clearMark_mild hP h)

theorem State.onReplica_mild {slice : Nat} {n : PageName} {f : Replica → Replica} (h : P s) : P (s.onReplica slice n f) :=
  hP.home _ s (fun _ => .of_eq rfl rfl) h

theorem State.onFill_mild {slice : Nat} {n : PageName} {f : Fill → Fill} (h : P s) : P (s.onFill slice n f) :=
  hP.home _ s (fun _ => .of_eq rfl rfl) h

theorem State.endFill_mild {slice : Nat} {n : PageName} (h : P s) : P (s.endFill slice n) := hP.home _ s (fun _ => .of_eq rfl rfl) h

theorem State.countTier_mild {q : Nat} {f : TierCount → TierCount} (h : P s) : P (s.countTier q f) :=
  hP.home _ s (fun _ => .of_eq rfl rfl) h

theorem State.forgetLook_mild {slice : Nat} {n : PageName} (h : P s) : P (s.forgetLook slice n) := hP.home _ s (fun _ => .of_eq rfl rfl) h

theorem State.writeSlots_mild {slice st : Nat} {n : PageName} {code : Code} (h : P s) : P (s.writeSlots slice n st code) := by
  unfold State.writeSlots
  exact hP.eng _ s (fun _ => .of_eq rfl rfl) h

theorem State.onParked_mild {k : Nat} {f : ParkedCtx → ParkedCtx} (h : P s) : P (s.onParked k f) := hP.eng _ s (fun _ => .of_eq rfl rfl) h

theorem State.onArb_mild {n : Nat} {f : RegionArb → RegionArb} (h : P s) : P (s.onArb n f) := hP.eng _ s (fun _ => .of_eq rfl rfl) h

theorem State.onLink_mild {k : Nat} {f : LinkS → LinkS} (h : P s) : P (s.onLink k f) := hP.eng _ s (fun _ => .of_eq rfl rfl) h

theorem State.addCtx_mild {c : ParkedCtx} (h : P s) : P (s.addCtx c).2 := by
  unfold State.addCtx
  dsimp only
  exact hP.eng _ s (fun _ => .of_eq rfl rfl) h

theorem State.lendLines_mild {n : Nat} (h : P s) : P (s.lendLines n) := by
  unfold State.lendLines
  exact hP.eng _ s (fun _ => .of_filter rfl rfl) h

theorem State.onBlock_mild {b : Nat} {f : BlockS → BlockS} (hf : ∀ x, (f x).slots = x.slots ∧ (f x).spareUsed = x.spareUsed) (h : P s) :
    P (s.onBlock b f) := hP.eng _ s (fun _ => .of_modify hf rfl rfl) h

theorem State.onCell_mild {b p : Nat} {f : CellS → CellS} (h : P s) : P (s.onCell b p f) :=
  State.onBlock_mild hP (fun _ => ⟨rfl, rfl⟩) h

/-! ## Memory writes -/

theorem State.busWrite_mild {a : Nat} {d : List Byte} (h : P s) : P (s.busWrite a d) := by
  unfold State.busWrite
  split
  · exact State.collide_mild hP h
  · exact State.bankWriteN_mild hP h

theorem State.memWriteN_mild {a : Nat} {l : List Byte} (h : P s) : P (s.memWriteN a l) :=
  keep_foldl (fun _ _ => State.busWrite_mild hP) h

theorem State.busBytes_mild {l : List (Nat × Byte)} (h : P s) : P (s.busBytes l) := keep_foldl (fun _ _ => State.busWrite_mild hP) h

theorem State.zeroGranules_mild {place : Nat × Nat} {n : Nat} (h : P s) : P (s.zeroGranules place n) := by
  unfold State.zeroGranules
  dsimp only
  split
  · refine keep_foldl (fun t _ k => ?_) h
    split
    · exact State.collide_mild hP k
    · exact State.memZero_mild hP k
  · exact State.memZero_mild hP h

theorem State.writeImage_mild {f : PageFormat} {frame : Nat × Nat} {img : List (Nat × Byte)} (h : P s) : P (s.writeImage f frame img) :=
  State.busBytes_mild hP (State.zeroGranules_mild hP h)

/-! ## Retired frames, generations and fences of a page -/

theorem State.tellReplicas_mild {slice : Nat} {n : PageName} {f : Nat → TxBody} (h : P s) : P (s.tellReplicas slice n f) := by
  unfold State.tellReplicas
  split
  · exact h
  · exact keep_foldl (fun _ _ => keep_foldl (fun _ _ => hP.xpt _ _ (fun _ => .of_eq rfl))) h

theorem State.accGen_mild {slice gen : Nat} {n : PageName} {relocation : Bool} (h : P s) : P (s.accGen slice n relocation gen) := by
  have mark (f : Accumulator → Accumulator) (hf : ∀ a, (f a).parts = a.parts ∧ (a.lost = true → (f a).lost = true)) :
      P (s.onHome (fun h => { h with accs := h.accs.map f })) := hP.home _ s (fun _ => .of_accs hf rfl rfl) h
  unfold State.accGen
  cases relocation with
  | false => exact mark _ (fun a => by split <;> exact ⟨rfl, id⟩)
  | true => exact keep_foldl (fun _ _ => State.memWriteN_mild hP) (mark _ (fun a => by split <;> exact ⟨rfl, id⟩))

theorem State.revokeGrants_mild {slice : Nat} {n : PageName} (h : P s) : P (s.revokeGrants slice n) := by
  unfold State.revokeGrants
  apply State.onReplica_mild hP
  split
  · exact State.tellReplicas_mild hP h
  · exact h

theorem State.bumpGen_mild {slice : Nat} {n : PageName} {relocation : Bool} (h : P s) : P (s.bumpGen slice n relocation) := by
  unfold State.bumpGen
  split
  · exact h
  · dsimp only
    have k (g : Nat) (f : Entry → Entry) : P ((s.onEntry slice n f).accGen slice n relocation g |>.revokeGrants slice n).clearMark :=
      State.clearMark_mild hP (State.revokeGrants_mild hP (State.accGen_mild hP (State.onEntry_mild hP h)))
    split
    · exact State.onReplica_mild hP (State.tellReplicas_mild hP (k _ _))
    · exact k _ _

theorem State.dropCmds_mild {d slice : Nat} {n : PageName} (h : P s) : P (s.dropCmds d slice n) :=
  State.onDrive_mild hP (fun _ => rfl) h

theorem State.retire_mild {q : Nat} {r : Retired} (h : P s) : P (s.retire q r) :=
  hP.mem _ _ (fun _ => .of_eq rfl) (State.clearMark_mild hP h)

theorem State.retireUnit_mild {q n : Nat} {place : Nat × Nat} (h : P s) : P (s.retireUnit q place n) := by
  unfold State.retireUnit
  exact hP.eng _ _ (fun _ => .of_filter rfl rfl) (State.retire_mild hP h)

theorem State.retireExtent_mild {q drive granule n : Nat} (h : P s) : P (s.retireExtent q drive granule n) := State.retire_mild hP h

theorem State.retireShadow_mild {slice : Nat} {n : PageName} (h : P s) : P (s.retireShadow slice n) := by
  unfold State.retireShadow
  repeat' first | exact h | split | apply_rules [State.onEntry_mild, State.retireUnit_mild]

theorem State.retireHull_mild {slice : Nat} {n : PageName} (h : P s) : P (s.retireHull slice n) := by
  unfold State.retireHull
  repeat' first | exact h | split | apply_rules [State.onEntry_mild, State.retire_mild]

theorem State.dropWriteFrame_mild {slice : Nat} {n : PageName} (h : P s) : P (s.dropWriteFrame slice n) := by
  unfold State.dropWriteFrame
  repeat' first | exact h | split | apply_rules [State.onEntry_mild, State.retireUnit_mild]

theorem State.issueOne_mild {d : Nat} (h : P s) : P (s.issueOne d) := by
  unfold State.issueOne
  dsimp only
  repeat' first | exact h | split | exact hP.base.emitted rfl _ _ (State.onDrive_mild hP (fun _ => rfl) h)

theorem State.freeExtent_mild {d g n : Nat} (h : P s) : P (s.freeExtent d g n) :=
  keep_foldl (fun _ _ => State.issueOne_mild hP) (State.onDrive_mild hP (fun _ => rfl) (State.clearMark_mild hP h))

theorem State.freeUnit_mild {place : Nat × Nat} (h : P s) : P (s.freeUnit place) := by
  unfold State.freeUnit
  exact hP.mem _ _ (fun _ => .of_eq rfl) (State.clearMark_mild hP h)

theorem State.applyDrive_mild {slice : Nat} {n : PageName} (h : P s) : P (s.applyDrive slice n) := by
  unfold State.applyDrive
  repeat' first
    | exact h
    | split
    | apply_rules [State.bumpGen_mild, State.onEntry_mild, State.retireShadow_mild, State.dropCmds_mild]

theorem State.applyFences_mild {slice : Nat} {n : PageName} (h : P s) : P (s.applyFences slice n) := by
  unfold State.applyFences
  split
  · exact h
  · dsimp only
    generalize hu : s.onEntry slice n _ = u
    have k : P u := hu ▸ State.onEntry_mild hP h
    have fence {t : State} {f : Entry → Entry} (m : P t) : P ((t.onEntry slice n f).bumpGen slice n true) :=
      State.bumpGen_mild hP (State.onEntry_mild hP m)
    split
    · split
      · exact State.bumpGen_mild hP (State.forgetLook_mild hP (State.onEntry_mild hP k))
      · exact State.writeSlots_mild hP (fence (hP.home _ u (fun _ => .of_eq rfl rfl) k))
      · exact fence k
      · exact fence (State.retireExtent_mild hP (State.dropCmds_mild hP k))
      · exact k
    · exact k

theorem State.applyRestart_mild {slice : Nat} {n : PageName} (h : P s) : P (s.applyRestart slice n) := by
  unfold State.applyRestart
  split
  · exact h
  · split
    · exact h
    · repeat' first
        | with_reducible assumption
        | exact fun _ => .of_eq rfl rfl
        | (extract_lets +onlyGivenNames x; refine keep_cut (P x) ?_ (fun _ => ?_); unfold x; clear x; rotate_left; clear_value x)
        | split
        | with_reducible refine State.bumpGen_mild hP ?_
        | with_reducible refine State.onEntry_mild hP ?_
        | with_reducible refine State.freeUnit_mild hP ?_
        | with_reducible refine State.retireShadow_mild hP (State.freeExtent_mild hP ?_)
        | with_reducible refine hP.home _ _ ?_ ?_

theorem State.refresh_mild {slice : Nat} {n : PageName} (h : P s) : P (s.refresh slice n) :=
  State.applyDrive_mild hP (State.applyFences_mild hP (State.applyRestart_mild hP h))

theorem State.copyOld_mild {slice : Nat} {n : PageName} (h : P s) : P (s.copyOld slice n) := by
  have k := State.refresh_mild hP (slice := slice) (n := n) h
  unfold State.copyOld
  dsimp only
  split
  · exact k
  · split
    · exact State.writeImage_mild hP k
    · exact k

/-! ## Requests that end -/

theorem State.dropReq_mild {r : Nat} (h : P s) : P (s.dropReq r) := by
  unfold State.dropReq
  split
  · exact h
  · refine State.onCtx_mild hP (fun _ => rfl) ?_
    have k : ∀ (q : Req) t, P t → P (t.onHome (fun h => if q.onPrev then { h with inflightPrev := h.inflightPrev - 1 }
        else { h with inflightCur := h.inflightCur - 1 })) := fun q t => hP.home _ t (fun _ => by split <;> exact .of_eq rfl rfl)
    have l := hP.eng (fun e => { e with ctxs := e.ctxs.filter (fun p => p.2.req ≠ r) }) _ (fun _ => .of_eq rfl rfl) (hP.base.reqs rfl _ s (fun t => Tbl.keys_erase t r) h)
    split
    · exact hP.base.sch rfl _ _ (k _ _ l)
    · exact k _ _ l

theorem State.sendMessage_mild {q queue bytes : Nat} {data : List Byte} {b : TxBody} (h : P s) : P (s.sendMessage q queue bytes data b) := by
  unfold State.sendMessage
  repeat' first | exact h | exact State.onCtx_mild hP (fun _ => rfl) h | split

theorem State.finishReq_mild {r : Nat} {code : Code} {body : RespBody} (h : P s) : P (s.finishReq r code body) := by
  unfold State.finishReq
  split
  · exact h
  · unfold State.respond
    split
    · exact State.dropReq_mild hP h
    · exact State.sendMessage_mild hP (State.dropReq_mild hP h)

theorem State.abortAll_mild {l : List Nat} (h : P s) : P (s.abortAll l) := keep_foldl (fun _ _ => State.finishReq_mild hP) h

/-! ## Page states, leases and lost pages -/

theorem State.sendCopy_mild {slice node : Nat} {n : PageName} (h : P s) : P (s.sendCopy slice n node) := by
  unfold State.sendCopy
  repeat' first | exact h | exact hP.xpt _ _ (fun _ => .of_eq rfl) (State.onReplica_mild hP h) | split

theorem State.copyOut_mild {slice : Nat} {n : PageName} (h : P s) : P (s.copyOut slice n) := by
  unfold State.copyOut
  repeat' first | exact h | exact keep_foldl (fun _ _ => State.sendCopy_mild hP) h | split

theorem State.setPageState_mild {slice : Nat} {n : PageName} {st : PageState} (h : P s) : P (s.setPageState slice n st) := by
  unfold State.setPageState
  dsimp only
  split
  · exact State.copyOut_mild hP (State.onEntry_mild hP (State.revokeGrants_mild hP h))
  · exact State.onEntry_mild hP h

theorem State.dropEntry_mild {slice : Nat} {n : PageName} (h : P s) : P (s.dropEntry slice n) := by
  unfold State.dropEntry
  refine State.onSeq_mild hP (hP.mem _ _ (fun _ => .of_eq rfl) (hP.home _ _ (fun _ => .of_eq rfl rfl) (State.clearMark_mild hP ?_)))
  split
  · exact hP.home _ s (fun _ => .of_eq rfl rfl) h
  · exact h

theorem State.dropReplica_mild {slice : Nat} {n : PageName} (h : P s) : P (s.dropReplica slice n) :=
  hP.home _ _ (fun _ => .of_eq rfl rfl) (State.tellReplicas_mild hP h)

/-- An acquire that is undone first ends its lease. -/
theorem State.undoAcquire_ended {slot : Nat} {made : List PageName} {pre : List (PageName × PageState)} {l : Lease}
    (hl : s.home.leases.get? slot = some l) (h : P (s.onHome (fun h => { h with leases := h.leases.erase slot }))) :
    P (s.undoAcquire slot made pre) := by
  unfold State.undoAcquire
  rw [hl]
  exact State.onSeq_mild hP (hP.home _ _ (fun _ => .of_eq rfl rfl) (keep_foldl (fun _ _ => State.dropEntry_mild hP)
    (keep_foldl (fun _ _ => State.setPageState_mild hP) (keep_foldl (fun _ _ => State.dropWriteFrame_mild hP) h))))

theorem State.undoAcquire_mild {slot : Nat} {made : List PageName} {pre : List (PageName × PageState)} (h : P s) :
    P (s.undoAcquire slot made pre) := by
  cases hl : s.home.leases.get? slot with
  | none =>
    unfold State.undoAcquire
    rwa [hl]
  | some l => exact State.undoAcquire_ended hP hl (hP.home _ s (fun _ => .of_erase rfl rfl) h)

theorem State.grantLease_mild {r slot : Nat} (h : P s) : P (s.grantLease r slot) := by
  have expire (ex : Nat) (t : State) : P t → P (t.onHome (fun h => { h with leases := h.leases.modify slot (fun l => { l with expiry := ex }) })) :=
    hP.home _ t (fun h => .of_modify (f := fun l => { l with expiry := ex }) (fun _ => ⟨rfl, rfl⟩) rfl rfl)
  unfold State.grantLease
  split
  · exact h
  · refine State.finishReq_mild hP (expire _ _ ?_)
    split
    · exact keep_foldl (fun _ _ => State.copyOld_mild hP) h
    · exact h

theorem State.tellFate_mild {slice : Nat} {n : PageName} {fate : Fate} (h : P s) : P (s.tellFate slice n fate) := by
  unfold State.tellFate
  refine keep_foldl (fun t p k => ?_) (hP.base.reqs rfl _ s (fun t => Tbl.keys_map (fun p => by split <;> rfl)) h)
  dsimp only
  repeat' first
    | exact k
    | exact State.finishReq_mild hP k
    | exact State.grantLease_mild hP (hP.base.reqs rfl _ _ (fun _ => Tbl.keys_modify _ _ _) k)
    | exact hP.base.reqs rfl _ _ (fun _ => Tbl.keys_modify _ _ _) k
    | exact State.finishReq_mild hP (State.undoAcquire_mild hP k)
    | split

theorem State.losePage_mild {slice cause drive lba nvme : Nat} {n : PageName} (h : P s) : P (s.losePage slice n cause drive lba nvme) := by
  unfold State.losePage
  split
  · exact h
  · repeat' first
      | with_reducible assumption
      | (extract_lets +onlyGivenNames x; refine keep_cut (P x) ?_ (fun _ => ?_); unfold x; clear x; rotate_left; clear_value x)
      | split
      | with_reducible refine State.tellFate_mild hP ?_
      | with_reducible refine State.dropEntry_mild hP (State.dropWriteFrame_mild hP ?_)
      | with_reducible refine State.bumpGen_mild hP (State.onEntry_mild hP ?_)
      | with_reducible refine State.dropReplica_mild hP (State.retireHull_mild hP (State.retireShadow_mild hP ?_))
      | with_reducible refine State.retireExtent_mild hP ?_
      | with_reducible refine State.retireUnit_mild hP ?_
      | with_reducible refine State.countTier_mild hP ?_
      | with_reducible refine State.logEvent_keeps (hP.base.mono rfl) (State.logEvent_keeps (hP.base.mono rfl) ?_)
      | with_reducible refine State.endFill_mild hP ?_
      | with_reducible refine State.writeSlots_mild hP ?_

theorem State.askNext_mild {slice : Nat} {n : PageName} (h : P s) : P (s.askNext slice n) := by
  unfold State.askNext
  repeat' first
    | exact h
    | exact hP.xpt _ _ (fun _ => .of_eq rfl) (State.onFill_mild hP h)
    | exact State.losePage_mild hP h
    | split

theorem State.startRecovery_mild {slice cause : Nat} {n : PageName} {media : Option (Nat × Nat)} (h : P s) :
    P (s.startRecovery slice n cause media) := by
  unfold State.startRecovery
  repeat' first
    | exact h
    | exact State.askNext_mild hP (State.onFill_mild hP h)
    | exact State.askNext_mild hP (hP.home _ s (fun _ => .of_eq rfl rfl) h)
    | split

theorem State.entryDriveFailed_mild {slice : Nat} {n : PageName} (h : P s) : P (s.entryDriveFailed slice n) := by
  have k := State.applyDrive_mild hP (slice := slice) (n := n) h
  unfold State.entryDriveFailed
  dsimp only
  split
  · exact k
  · split
    · exact State.bumpGen_mild hP (State.onEntry_mild hP (State.retireUnit_mild hP (State.endFill_mild hP k)))
    · split
      · exact State.startRecovery_mild hP k
      · exact k

theorem State.retireFrames_mild {slice : Nat} {n : PageName} (h : P s) : P (s.retireFrames slice n) := by
  unfold State.retireFrames
  split
  · exact h
  · dsimp only
    refine State.retireHull_mild hP (State.retireShadow_mild hP (State.dropWriteFrame_mild hP ?_))
    split <;> split <;> apply_rules [State.retireExtent_mild, State.retireUnit_mild]

theorem State.discardPage_mild {slice : Nat} {n : PageName} (h : P s) : P (s.discardPage slice n) :=
  State.dropEntry_mild hP (State.writeSlots_mild hP (State.dropReplica_mild hP (State.accGen_mild hP (State.retireFrames_mild hP h))))

theorem State.abandonPage_mild {slice : Nat} {n : PageName} (h : P s) : P (s.abandonPage slice n) := by
  have k := State.dropWriteFrame_mild hP (slice := slice) (n := n) h
  unfold State.abandonPage
  dsimp only
  split
  · exact k
  · split
    · exact State.discardPage_mild hP k
    · exact State.setPageState_mild hP k

theorem State.tearPage_mild {slice : Nat} {n : PageName} (h : P s) : P (s.tearPage slice n) := by
  have k := State.dropWriteFrame_mild hP (slice := slice) (n := n) h
  unfold State.tearPage
  dsimp only
  split
  · exact k
  · exact hP.home _ _ (fun _ => .of_eq rfl rfl) (State.setPageState_mild hP k)

theorem State.endPage_mild {slice : Nat} {how : LeaseEnd} {n : PageName} (h : P s) : P (s.endPage slice how n) := by
  unfold State.endPage
  split
  · exact State.tearPage_mild hP h
  · exact State.abandonPage_mild hP h
  · split
    · exact State.abandonPage_mild hP h
    · exact State.discardPage_mild hP h

/-- A lease that ends is forgotten first. -/
theorem State.endLease_ended {key : Nat} {how : LeaseEnd} {l : Lease} (hl : s.home.leases.get? key = some l)
    (h : P (s.onHome (fun h => { h with leases := h.leases.erase key }))) : P (s.endLease key how) := by
  unfold State.endLease
  rw [hl]
  dsimp only
  split
  · contradiction
  · exact State.finishReq_mild hP (State.undoAcquire_ended hP hl h)
  · refine State.onSeq_mild hP (hP.home _ _ (fun _ => .of_eq rfl rfl) ?_)
    split
    · exact h
    · exact keep_foldl (fun _ _ => State.endPage_mild hP) h

theorem State.endLease_mild {key : Nat} {how : LeaseEnd} (h : P s) : P (s.endLease key how) := by
  cases hl : s.home.leases.get? key with
  | none =>
    unfold State.endLease
    rwa [hl]
  | some l => exact State.endLease_ended hP hl (hP.home _ s (fun _ => .of_erase rfl rfl) h)

theorem State.endLeases_mild {p : Lease → Bool} {how : LeaseEnd} (h : P s) : P (s.endLeases p how) :=
  keep_foldl (fun _ _ => State.endLease_mild hP) h

/-! ## Cells and blocks -/

theorem State.askOperands_mild {b p : Nat} (h : P s) : P (s.askOperands b p) := by
  unfold State.askOperands
  split
  · exact State.onCell_mild hP h
  · exact State.onArb_mild hP (State.onCell_mild hP h)

theorem State.endGroup_mild {b p : Nat} (h : P s) : P (s.endGroup b p) := by
  unfold State.endGroup
  split
  · exact h
  · exact State.onBlock_mild hP (fun _ => ⟨rfl, rfl⟩) (State.onCell_mild hP h)

theorem State.saveAccum_mild {b p : Nat} {fromShadow : Bool} {c : ParkedCtx} {a : Accum} (h : P s) :
    P (s.saveAccum b p fromShadow c a) :=
  State.onCell_mild hP (State.suspendOp_keeps (hP.base.mono rfl) (State.countSwitch_keeps (hP.base.mono rfl)
    (State.lendLines_mild hP (State.addCtx_mild hP h))))

theorem State.parkCell_mild {b p page : Nat} {name : PageName} (h : P s) : P (s.parkCell b p name page) := by
  unfold State.parkCell
  dsimp only
  repeat' first
    | exact h
    | split
    | with_reducible refine State.saveAccum_mild hP ?_
    | with_reducible refine hP.base.sch rfl _ _ ?_
    | with_reducible refine State.onCell_mild hP ?_

theorem State.nextTile_mild {b p k : Nat} (h : P s) : P (s.nextTile b p k) := by
  induction k generalizing s with
  | zero => exact h
  | succ k ih =>
    unfold State.nextTile
    repeat' first
      | exact h
      | exact State.endGroup_mild hP h
      | exact State.askOperands_mild hP h
      | exact State.askOperands_mild hP (State.onCell_mild hP h)
      | exact State.parkCell_mild hP h
      | exact ih (State.onCell_mild hP h)
      | split

theorem State.goOn_mild {b p : Nat} (h : P s) : P (s.goOn b p) := by
  unfold State.goOn
  split
  · exact h
  · exact State.nextTile_mild hP h

theorem State.setLive_mild {b p : Nat} {a : Accum} {shadow : Option Accum} (h : P s) : P (s.setLive b p a shadow) :=
  State.suspendOp_keeps (hP.base.mono rfl) (State.onCell_mild hP h)

theorem State.putLive_mild {b p : Nat} {a : Accum} (h : P s) : P (s.putLive b p a) := by
  unfold State.putLive
  dsimp only
  split
  · exact State.goOn_mild hP (State.setLive_mild hP h)
  · exact State.goOn_mild hP (hP.base.sch rfl _ _ (State.suspendOp_keeps (hP.base.mono rfl) (State.setLive_mild hP h)))

theorem State.placeOne_mild {b : Nat} (h : P s) : P (s.placeOne b) := by
  unfold State.placeOne
  repeat' first
    | exact h
    | exact State.putLive_mild hP (State.onBlock_mild hP (fun _ => ⟨rfl, rfl⟩) h)
    | split

theorem State.placeReady_mild {b : Nat} (h : P s) : P (s.placeReady b) := keep_foldl (fun _ _ => State.placeOne_mild hP) h

theorem State.exchange_mild {b p : Nat} {a : Accum} (h : P s) : P (s.exchange b p a) :=
  State.goOn_mild hP (hP.base.sch rfl _ _ (State.setLive_mild hP h))

theorem State.freed_mild {b p : Nat} (h : P s) : P (s.freed b p) := by
  unfold State.freed
  dsimp only
  repeat' first
    | exact State.placeReady_mild hP h
    | exact State.placeReady_mild hP (State.exchange_mild hP h)
    | split

theorem State.onAccums_mild {sel : Accum → Bool} {f : Accum → Accum} (h : P s) : P (s.onAccums sel f) := by
  unfold State.onAccums
  dsimp only
  refine keep_foldl (fun t i k => ?_) (hP.eng _ s (fun _ => .of_map (fun _ => by exact ⟨rfl, rfl⟩) rfl rfl) h)
  repeat' first
    | exact k
    | exact State.freed_mild hP (State.goOn_mild hP k)
    | exact State.goOn_mild hP k
    | split

theorem State.loseContexts_mild {n : Nat} (h : P s) : P (s.loseContexts n) := by
  unfold State.loseContexts
  refine keep_foldl (fun t c k => ?_) h
  have l := hP.eng (fun e => { e with ctxs := e.ctxs.erase c.1 }) t (fun _ => .of_eq rfl rfl) k
  repeat' first
    | exact State.placeReady_mild hP (State.onBlock_mild hP (fun _ => ⟨rfl, rfl⟩) l)
    | exact State.onParked_mild hP k
    | exact State.abortAll_mild hP l
    | split

theorem State.restartGroups_mild {b : Nat} (h : P s) : P (s.restartGroups b) := by
  unfold State.restartGroups
  refine keep_foldl (fun t c k => ?_) (State.onBlock_mild hP (fun _ => ⟨rfl, rfl⟩) h)
  split
  · exact State.placeReady_mild hP (State.onBlock_mild hP (fun _ => ⟨rfl, rfl⟩) k)
  · exact k

theorem State.failLink_mild {router link : Nat} (h : P s) : P (s.failLink router link) := by
  unfold State.failLink
  refine State.logLink_keeps (hP.base.mono rfl) (keep_foldl (fun t c k => ?_) (hP.eng _ _ (fun _ => .of_eq rfl rfl) (State.onLink_mild hP h)))
  unfold State.enqueueFlit
  split
  · exact k
  · exact State.onLink_mild hP k

theorem State.loseLinks_mild {n : Nat} (h : P s) : P (s.loseLinks n) := by
  refine keep_foldl (fun t c k => ?_) h
  split
  · exact State.failLink_mild hP k
  · exact k

theorem State.loseHomeUnit_mild {n : Nat} (h : P s) : P (s.loseHomeUnit n) := by
  unfold State.loseHomeUnit
  split
  · exact h
  · exact State.logEvent_keeps (hP.base.mono rfl) (hP.home _ s (fun _ => .of_eq rfl rfl) h)

end mild

/-! ## Losses -/

section lossy
variable {P : State → Prop} (hP : Lossy P) {s : State}
include hP

theorem State.failDrive_lossy {d : Nat} (h : P s) : P (s.failDrive d) := by
  unfold State.failDrive
  split
  · exact h
  · split
    · exact h
    · exact keep_foldl (fun _ _ => State.entryDriveFailed_mild hP.toMild) (State.logEvent_keeps (hP.base.mono rfl) (hP.fail d s h))

theorem State.failIslands_lossy {l : List Nat} (h : P s) : P (s.failIslands l) := hP.aon _ s h

theorem State.selfFence_lossy {cause : Nat} (h : P s) : P (s.selfFence cause) := by
  unfold State.selfFence
  split
  · exact hP.aon _ s h
  · exact State.raise_keeps (hP.base.mono rfl) (State.logEvent_keeps (hP.base.mono rfl) (hP.aon _ s h))

theorem State.loseEngine_lossy {e : Nat} (h : P s) : P (s.loseEngine e) :=
  keep_foldl (fun _ _ => State.portDown_keeps (hP.base.mono rfl)) (State.failIslands_lossy hP h)

theorem State.withdrawBlock_lossy {b : Nat} (h : P s) : P (s.withdrawBlock b) := by
  unfold State.withdrawBlock
  split
  · exact h
  · exact State.restartGroups_mild hP.toMild (hP.ras _ s (fun _ => ⟨rfl, rfl, rfl, rfl⟩) h)

theorem State.loseRouter_lossy {n : Nat} (h : P s) : P (s.loseRouter n) := by
  have k : P ((List.range 4).foldl (fun s i => s.withdrawBlock (4 * n + i)) (s.loseLinks n)) :=
    keep_foldl (fun _ _ => State.withdrawBlock_lossy hP) (State.loseLinks_mild hP.toMild h)
  unfold State.loseRouter
  dsimp only
  split
  · exact State.loseEngine_lossy hP k
  · exact State.loseHomeUnit_mild hP.toMild k
  · exact keep_foldl (fun _ _ => State.failDrive_lossy hP) (hP.base.host rfl _ _ k)
  · exact State.loseHomeUnit_mild hP.toMild k
  · exact State.loseEngine_lossy hP k
  · exact State.loseHomeUnit_mild hP.toMild k
  · exact keep_foldl (fun _ _ => State.failDrive_lossy hP) (State.selfFence_lossy hP (State.failIslands_lossy hP k))
  · exact State.loseHomeUnit_mild hP.toMild k

theorem State.loseFabric_lossy {n : Nat} (h : P s) : P (s.loseFabric n) := by
  unfold State.loseFabric
  split
  · exact h
  · exact State.loseRouter_lossy hP (State.loseContexts_mild hP.toMild (State.failIslands_lossy hP h))

theorem State.loseQuarter_lossy {q : Nat} (h : P s) : P (s.loseQuarter q) := by
  unfold State.loseQuarter
  split
  · exact h
  · refine keep_foldl (fun _ _ => State.failDrive_lossy hP) (hP.xpt _ _ (fun x => ?_) (hP.locus _ _ (fun _ => rfl)
      (State.logEvent_keeps (hP.base.mono rfl) (hP.ras _ s (fun _ => ⟨rfl, rfl, rfl, rfl⟩) h))))
    exact fun c m => ⟨c, List.mem_of_mem_filter m, rfl, rfl⟩

end lossy



end Sys2Proof.Machine
end

section
/-! SUPPORT. Region fences, lost quarters and the return of a home unit (R71, R205, R358, R359). -/

namespace Sys2Proof.Machine

/-! ## A region fence in its steps -/

/-- The region is marked fenced, and the fence logged. -/
def State.markFenced (n cause : Nat) (s : State) : State :=
  (s.onRas (fun r => { r with regionsFenced := r.regionsFenced ++ [n] })).logEvent 94 0x0401 0xff 0 n cause 0

/-- A region without windows, waiting accesses and query vector. -/
def NbRegion.emptied (r : NbRegion) : NbRegion := { r with wins := [], cq := [], withheld := [], query := [] }

/-- What the region held is gone: windows and queues, page-buffer lines, loads and accumulators. -/
def State.dropRegion (n : Nat) (s : State) : State :=
  let s := s.onNbu n NbRegion.emptied
  let s := (s.onEng (fun e => { e with lines := e.lines.filter (fun a => addrStack a ≠ n) })).abortLoads n
  s.onHome (fun h => { h with accs := h.accs.map (fun (a : Accumulator) =>
    if a.parts.any (fun p => p.1 = n) then { a with lost := true } else a) })

/-- What the fence takes with it, before the pair and the node are looked at. -/
def State.fenceSpreads (n : Nat) (fabric : Bool) (s : State) : State :=
  let s := s.leaveStack n
  (if fabric then s.loseFabric n else s).loseLocus n

/-- The quarter is lost with the second region of its pair, and the node fences itself with the last. -/
def State.fenceClosesIn (n : Nat) (s : State) : State :=
  let s := if s.stackFenced ((n + 4) % 8) then s.loseQuarter (n % 4) else s
  if (List.range 8).all s.stackFenced then s.selfFence 3 else s

theorem fenceRegion_eq {n cause : Nat} {fabric : Bool} {s : State} (h : s.stackFenced n = false) :
    s.fenceRegion n cause fabric = ((((s.endLeases (s.leaseIn n) .tear).markFenced n cause).dropRegion n).fenceSpreads n fabric).fenceClosesIn n := by
  unfold State.fenceRegion
  rw [h]
  rfl

section steps
variable {P : State → Prop} (hP : Lossy P) {n : Nat} {s : State}
include hP

theorem State.fenceSpreads_lossy {fabric : Bool} (hl : ∀ t, P t → P (t.loseLocus n)) (h : P s) : P (s.fenceSpreads n fabric) := by
  unfold State.fenceSpreads
  refine hl _ ?_
  split
  · exact State.loseFabric_lossy hP (State.onAccums_mild hP.toMild h)
  · exact State.onAccums_mild hP.toMild h

theorem State.fenceClosesIn_lossy (h : P s) : P (s.fenceClosesIn n) := by
  unfold State.fenceClosesIn
  dsimp only
  repeat' first
    | exact h
    | exact State.selfFence_lossy hP h
    | exact State.loseQuarter_lossy hP h
    | exact State.selfFence_lossy hP (State.loseQuarter_lossy hP h)
    | split

end steps

/-! ## Reliability state under the steps -/

theorem ras_logEvent {s : State} {a b c d e f g : Nat} : (s.logEvent a b c d e f g).ras = s.ras :=
  State.logEvent_keeps (ras_closed s.ras rfl rfl) rfl

theorem ras_endLeases {s : State} {p : Lease → Bool} {how : LeaseEnd} : (s.endLeases p how).ras = s.ras :=
  State.endLeases_keeps (ras_closed s.ras rfl rfl) rfl

theorem ras_selfFence {s : State} {c : Nat} : (s.selfFence c).ras = s.ras := State.selfFence_keeps (ras_closed s.ras rfl rfl) rfl

theorem ras_failDrives {α : Type} {s : State} {l : List α} {f : α → Nat} : (l.foldl (fun s d => s.failDrive (f d)) s).ras = s.ras :=
  keep_foldl (P := fun t => t.ras = s.ras) (fun _ _ => State.failDrive_keeps (ras_closed s.ras rfl rfl)) rfl

theorem ras_dropRegion {s : State} {n : Nat} : (s.dropRegion n).ras = s.ras :=
  State.abortLoads_keeps (ras_closed s.ras rfl rfl) rfl

/-- A quarter that is lost is counted among the lost. -/
theorem quartersLost_loseQuarter {s : State} {q : Nat} : (s.loseQuarter q).ras.quartersLost.contains q = true := by
  unfold State.loseQuarter
  split
  · assumption
  · dsimp only
    rw [ras_failDrives]
    change (State.logEvent _ _ _ _ _ _ _ _).ras.quartersLost.contains q = true
    rw [ras_logEvent]
    simp [State.onRas]

/-! ## The near-bank units of a region -/

/-- What a change keeps of each member of a list. -/
theorem getD_modify_eq {α β : Type} {l : List α} {r n : Nat} {f : α → α} {g : α → β} {d : α} (h : ∀ x, g (f x) = g x) :
    g ((l.modify r f).getD n d) = g (l.getD n d) := by
  simp only [List.getD_eq_getElem?_getD, List.getElem?_modify]
  cases l[n]? with
  | none => rfl
  | some x =>
    simp only [Option.map_eq_map, Option.map_some, Option.getD_some]
    split
    · exact h x
    · rfl

/-- What a change makes of the member that it names, and what a missing one is anyway. -/
theorem getD_modify_self {α β : Type} {l : List α} {n : Nat} {f : α → α} {g : α → β} {d : α} {y : β} (h : ∀ x, g (f x) = y) (hd : g d = y) :
    g ((l.modify n f).getD n d) = y := by
  simp only [List.getD_eq_getElem?_getD, List.getElem?_modify_eq]
  cases l[n]? with
  | none => exact hd
  | some x => exact h x

@[simp] theorem wins_enqueue {c : CqEntry} {r : NbRegion} : (r.enqueue c).wins = r.wins := by
  unfold NbRegion.enqueue
  split <;> rfl

@[simp] theorem near_enqueue {c : CqEntry} {r : NbRegion} : (r.enqueue c).near = r.near := by
  unfold NbRegion.enqueue
  split <;> rfl

/-- A region without windows keeps without, whatever joins its queues. -/
theorem lossy_noWins {n : Nat} : Lossy (fun t => (t.nbu.getD n {}).wins = []) :=
  Lossy.of_nbu (Q := fun nb => (nb.getD n {}).wins = []) fun _ _ _ h => (getD_modify_eq fun _ => wins_enqueue).trans h

/-- A region with no page at its near-bank units keeps with none, whatever joins its queues. -/
theorem lossy_noNear {n : Nat} {l : List NearPage} : Lossy (fun t => (t.nbu.getD n {}).near = l) :=
  Lossy.of_nbu (Q := fun nb => (nb.getD n {}).near = l) fun _ _ _ h => (getD_modify_eq fun _ => near_enqueue).trans h

/-! ## What a region fence leaves -/

section fence
variable {s : State} {n cause : Nat} {fabric : Bool} (hs : s.stackFenced n = false)
include hs

/-- What a lossy predicate says once the region's own are dropped, it says after the fence. -/
theorem fenceRegion_lossy {P : State → Prop} (hP : Lossy P) (hl : ∀ t, P t → P (t.loseLocus n))
    (h : ∀ t : State, P (t.dropRegion n)) : P (s.fenceRegion n cause fabric) := by
  rw [fenceRegion_eq hs]
  exact State.fenceClosesIn_lossy hP (State.fenceSpreads_lossy hP hl (h _))

/-- The fence is the region's, and no other's. -/
theorem regionsFenced_fenceRegion : (s.fenceRegion n cause fabric).ras.regionsFenced = s.ras.regionsFenced ++ [n] := by
  have hP : Lossy (fun t => t.ras.regionsFenced = s.ras.regionsFenced ++ [n]) :=
    Lossy.of_ras (Q := fun r => r.regionsFenced = _) (fun _ _ c h => c.1.trans h)
  rw [fenceRegion_eq hs]
  refine State.fenceClosesIn_lossy hP (State.fenceSpreads_lossy hP (fun _ => id) ?_)
  rw [ras_dropRegion]
  unfold State.markFenced
  rw [ras_logEvent]
  exact congrArg (fun r : Ras => r.regionsFenced ++ [n]) ras_endLeases

theorem stackFenced_fenceRegion {m : Nat} : (s.fenceRegion n cause fabric).stackFenced m = (s.stackFenced m || m == n) := by
  unfold State.stackFenced
  rw [regionsFenced_fenceRegion hs]
  simp [Bool.or_comm, Bool.beq_eq_decide_eq]

theorem wins_fenceRegion : ((s.fenceRegion n cause fabric).nbu.getD n {}).wins = [] :=
  fenceRegion_lossy hs lossy_noWins (fun _ => id) fun _ =>
    State.abortLoads_keeps (.of_view (fun x => nbu_closed x rfl rfl) (fun nb => (nb.getD n {}).wins = [])) (getD_modify_self (fun _ => rfl) rfl)

theorem near_fenceRegion (h : (s.nbu.getD n {}).near = []) : ((s.fenceRegion n cause fabric).nbu.getD n {}).near = [] := by
  have hP : Lossy (fun t => (t.nbu.getD n {}).near = []) := lossy_noNear
  rw [fenceRegion_eq hs]
  refine State.fenceClosesIn_lossy hP (State.fenceSpreads_lossy hP (fun _ => id) ?_)
  refine State.abortLoads_keeps (.of_view (fun x => nbu_closed x rfl rfl) (fun nb => (nb.getD n {}).near = [])) ?_
  refine (getD_modify_eq (f := NbRegion.emptied) (g := NbRegion.near) fun _ => rfl).trans ?_
  exact State.logEvent_keeps (hP.base.mono rfl) (State.endLeases_mild hP.toMild h)

theorem lines_fenceRegion : ∀ a ∈ (s.fenceRegion n cause fabric).eng.lines, addrStack a ≠ n := by
  refine fenceRegion_lossy hs (Lossy.of_eng (Q := fun e => ∀ a ∈ e.lines, addrStack a ≠ n) fun e e' c h a ha => h a (c.1 a ha)) (fun _ => id)
    fun t => ?_
  refine State.abortLoads_keeps (.of_view (fun x => eng_closed x rfl rfl) (fun e => ∀ a ∈ e.lines, addrStack a ≠ n)) fun a h => ?_
  exact of_decide_eq_true (List.mem_filter.mp h).2

theorem accs_fenceRegion : ∀ a ∈ (s.fenceRegion n cause fabric).home.accs, (∃ p ∈ a.parts, p.1 = n) → a.lost = true := by
  refine fenceRegion_lossy hs (Lossy.of_home (Q := fun h => ∀ a ∈ h.accs, (∃ p ∈ a.parts, p.1 = n) → a.lost = true)
    fun h h' c k a ha hp => ?_) (fun _ => id) fun t a ha hp => ?_
  · obtain ⟨x, hx, hparts, hlost⟩ := c.1 a ha
    exact hlost (k x hx (hparts ▸ hp))
  · obtain ⟨x, -, rfl⟩ := List.mem_map.mp ha
    split
    · rfl
    · rename_i hx
      rw [if_neg hx] at hp
      exact absurd (by simpa using hp) hx

theorem lostBlocks_fenceRegion : 2 * n ∈ (s.fenceRegion n cause fabric).locus.lostBlocks ∧
    2 * n + 1 ∈ (s.fenceRegion n cause fabric).locus.lostBlocks := by
  rw [fenceRegion_eq hs]
  refine State.fenceClosesIn_lossy (Lossy.of_locus (Q := fun l => 2 * n ∈ l ∧ 2 * n + 1 ∈ l)) ?_
  unfold State.fenceSpreads State.loseLocus
  simp [State.onLocus]

end fence

theorem stackFenced_loseQuarter {s : State} {q m : Nat} : (s.loseQuarter q).stackFenced m = s.stackFenced m :=
  State.loseQuarter_lossy (Lossy.of_ras (Q := fun r => r.regionsFenced.contains m = s.stackFenced m) fun _ _ c h => by rwa [c.1]) rfl

theorem stackFenced_selfFence {s : State} {c m : Nat} : (s.selfFence c).stackFenced m = s.stackFenced m :=
  congrArg (fun r : Ras => r.regionsFenced.contains m) ras_selfFence

theorem stackFenced_fenceClosesIn {s : State} {n m : Nat} : (s.fenceClosesIn n).stackFenced m = s.stackFenced m := by
  unfold State.fenceClosesIn
  dsimp only
  split <;> split <;> simp only [stackFenced_selfFence, stackFenced_loseQuarter]

theorem nodeFenced_selfFence {s : State} {c : Nat} (hc : c ≠ 0) : (s.selfFence c).nodeFenced = true := by
  have h : (s.selfFence c).aon.selfCause ≠ 0 := by
    unfold State.selfFence
    split
    · assumption
    · exact State.raise_keeps (.of_view (fun x => aon_closed x rfl rfl) (fun a => a.selfCause ≠ 0))
        (State.logEvent_keeps (.of_view (fun x => aon_closed x rfl rfl) (fun a => a.selfCause ≠ 0)) hc)
  simp [State.nodeFenced, h]

/-- The quarter goes with the second region of its pair. -/
theorem quartersLost_fenceClosesIn {s : State} {n : Nat} (h : s.stackFenced ((n + 4) % 8) = true) :
    (s.fenceClosesIn n).ras.quartersLost.contains (n % 4) = true := by
  unfold State.fenceClosesIn
  dsimp only
  rw [if_pos h]
  split
  · rw [ras_selfFence]
    exact quartersLost_loseQuarter
  · exact quartersLost_loseQuarter

/-- The node is fenced with its last region. -/
theorem nodeFenced_fenceClosesIn {s : State} {n : Nat} (h : (List.range 8).all s.stackFenced = true) :
    (s.fenceClosesIn n).nodeFenced = true := by
  unfold State.fenceClosesIn
  dsimp only
  have hall : (List.range 8).all (if s.stackFenced ((n + 4) % 8) = true then s.loseQuarter (n % 4) else s).stackFenced = true := by
    split
    · rwa [show (s.loseQuarter (n % 4)).stackFenced = s.stackFenced from funext fun _ => stackFenced_loseQuarter]
    · exact h
  rw [if_pos hall]
  exact nodeFenced_selfFence (by decide)

/-! ## The pages that go near-bank again -/

theorem ras_fenceNear {s : State} {n : Nat} : (s.fenceNear n).ras = s.ras := State.fenceNear_keeps (ras_closed s.ras rfl rfl) rfl
theorem aon_fenceNear {s : State} {n : Nat} : (s.fenceNear n).aon = s.aon := State.fenceNear_keeps (aon_closed s.aon rfl rfl) rfl
theorem locus_fenceNear {s : State} {n : Nat} : (s.fenceNear n).locus = s.locus := State.fenceNear_keeps (locus_closed s.locus rfl rfl) rfl

theorem fenceNear_none {s : State} {n : Nat} (h : (s.nbu.getD n {}).near = []) : s.fenceNear n = s := by
  unfold State.fenceNear
  rw [h]
  rfl

theorem State.resolve_mild {P : State → Prop} (hP : Mild P) {slice : Nat} {n : PageName} {s : State} (h : P s) : P (s.resolve slice n).2 := by
  have k := State.refresh_mild hP (slice := slice) (n := n) h
  unfold State.resolve
  dsimp only
  repeat' first | exact k | exact State.onEntry_mild hP k | split

theorem State.busReads_mild {P : State → Prop} (hP : Mild P) {l : List Nat} {s : State} (h : P s) : P (s.busReads l) := by
  unfold State.busReads
  split
  · refine keep_foldl (fun t a k => ?_) h
    unfold State.busRead
    split
    · exact State.collide_mild hP k
    · exact k
  · exact h

section near
/-! A predicate that changes of the near-bank units keep where they are mild, and all other changes. -/

variable {P : State → Prop} (hP : Mild P) (hC : Closed 3145471 P) {s : State}
include hP hC

theorem State.awaitPage_mild {slice cls : Nat} {n : PageName} (h : P s) : P (s.awaitPage slice n cls) := by
  unfold State.awaitPage State.startFill
  repeat' first
    | exact h
    | exact State.startRecovery_mild hP h
    | exact State.raiseFill_keeps (hC.mono rfl) h
    | exact State.placeFill_keeps (hC.mono rfl) (hP.home _ s (fun _ => .of_eq rfl rfl) h)
    | split

theorem State.addPage_mild {r idx : Nat} {code : Code} {src : PageSrc} {skip : List Nat} (h : P s) : P (s.addPage r idx code src skip) := by
  unfold State.addPage State.touchFrame
  split
  · exact h
  · split
    · exact State.mergePage_keeps (hC.mono rfl) (State.busReads_mild hP (keep_foldl (fun _ _ => State.touchLine_keeps (hC.mono rfl)) h))
    · exact h

/-- A page that goes near-bank again leaves its unit's queue first. -/
theorem State.nearAgain_mild {n : Nat} {p : NearPage} (h : P (s.dropNear n p)) : P (s.nearAgain n p) := by
  have k := State.resolve_mild hP (slice := p.slice) (n := p.name) h
  unfold State.nearAgain
  dsimp only
  repeat' first
    | with_reducible assumption
    | split
    | with_reducible refine State.setPage_keeps (hC.mono rfl) ?_
    | with_reducible refine State.addPage_mild hP hC ?_
    | with_reducible refine State.awaitPage_mild hP hC ?_
    | with_reducible refine State.parkOn_keeps (hC.mono rfl) ?_

end near

/-- A page that leaves a region opens no window there. -/
theorem dropNear_noWins {s : State} {n : Nat} {p : NearPage} (h : (s.nbu.getD n {}).wins = []) : ((s.dropNear n p).nbu.getD n {}).wins = [] := by
  have member : ∀ {t : State} {f : NbRegion → NbRegion}, (∀ x, x.wins = [] → (f x).wins = []) → (t.nbu.getD n {}).wins = [] →
      ((t.onNbu n f).nbu.getD n {}).wins = [] := by
    intro t f hf ht
    unfold State.onNbu
    simp only [List.getD_eq_getElem?_getD, List.getElem?_modify_eq] at ht ⊢
    cases hx : t.nbu[n]? with
    | none => rfl
    | some x => exact hf x (by simpa [hx] using ht)
  refine member (fun x hx => ?_) (member (fun x hx => hx) h)
  simp [hx]

theorem wins_fenceNear {s : State} {n : Nat} (h : (s.nbu.getD n {}).wins = []) : ((s.fenceNear n).nbu.getD n {}).wins = [] :=
  keep_foldl (P := fun t => (t.nbu.getD n {}).wins = []) (fun _ _ k => State.nearAgain_mild lossy_noWins.toMild
    (.of_view (fun x => nbu_closed x rfl rfl) (fun nb => (nb.getD n {}).wins = [])) (dropNear_noWins k)) h

/-! ## Quarters and units -/

/-- What is said of the drives, and a failure keeps. -/
theorem Lossy.of_mem {Q : Mem → Prop} (h : ∀ m m', Mem.Calm m m' → Q m → Q m')
    (hf : ∀ d m, Q m → Q { m with drives := m.drives.modify d (fun y => { y with failed := true, cmds := [] }) }) : Lossy (fun t => Q t.mem) where
  toMild := .of_mem h
  aon _ _ := id
  ras _ _ _ := id
  locus _ _ _ := id
  fail d _ k := hf d _ k

/-- A drive stays known. -/
theorem lossy_drive (k : Nat) : Lossy (fun t => (t.mem.drives.get? k).isSome = true) :=
  Lossy.of_mem (Q := fun m => (m.drives.get? k).isSome = true)
    (fun m m' c h => by simpa using (congrArg Option.isSome (c k)).trans (by simpa using h))
    (fun d m h => by dsimp only; rw [Tbl.get?_modify]; split <;> simp_all)

/-- A failed drive stays failed. -/
theorem lossy_failed (k : Nat) : Lossy (fun t => (t.mem.drives.get? k).map Drive.failed = some true) :=
  Lossy.of_mem (Q := fun m => (m.drives.get? k).map Drive.failed = some true)
    (fun m m' c h => by
      have := congrArg (Option.map Prod.fst) (c k)
      rw [Option.map_map, Option.map_map] at this
      exact this.trans h)
    (fun d m h => by
      dsimp only
      rw [Tbl.get?_modify]
      split
      · obtain ⟨x, hx, -⟩ := Option.map_eq_some_iff.mp h
        simp_all
      · exact h)

/-- A drive that is failed is failed, whether it was before or not. -/
theorem failed_failDrive {s : State} {k : Nat} (h : (s.mem.drives.get? k).isSome = true) :
    ((s.failDrive k).mem.drives.get? k).map Drive.failed = some true := by
  obtain ⟨x, hx⟩ := Option.isSome_iff_exists.mp h
  have hP := lossy_failed k
  unfold State.failDrive
  rw [hx]
  dsimp only
  split
  · rw [hx]
    simpa using ‹x.failed = true›
  · refine keep_foldl (P := fun t => (t.mem.drives.get? k).map Drive.failed = some true)
      (fun _ _ => State.entryDriveFailed_mild hP.toMild) (State.logEvent_keeps (hP.base.mono rfl) ?_)
    unfold State.onDrive State.onMem
    dsimp only
    rw [Tbl.get?_modify, if_pos rfl, hx]
    rfl

/-- Each of the drives that are failed is failed in the end. -/
theorem failed_failDrives {l : List (Nat × Drive)} {s : State} {k : Nat} (hk : k ∈ l.map Prod.fst) (h : (s.mem.drives.get? k).isSome = true) :
    ((l.foldl (fun s d => s.failDrive d.1) s).mem.drives.get? k).map Drive.failed = some true := by
  induction l generalizing s with
  | nil => cases hk
  | cons x t ih =>
    rcases List.mem_cons.mp hk with rfl | hk
    · rw [List.foldl_cons]
      exact keep_foldl (P := fun t => (t.mem.drives.get? x.1).map Drive.failed = some true)
        (fun _ _ => State.failDrive_lossy (lossy_failed _)) (failed_failDrive h)
    · exact ih hk (State.failDrive_lossy (lossy_drive k) h)


/-- What a lost quarter takes with it: its spilled contexts and its drives. -/
theorem loseQuarter_takes {s : State} {q : Nat} (hq : s.ras.quartersLost.contains q = false) :
    (∀ c ∈ (s.loseQuarter q).xpt.ctxs, c.2.onDie = true ∨ c.1 % 4 ≠ q) ∧
    ∀ k x, s.mem.drives.get? k = some x → x.port = q → x.present = true → ((s.loseQuarter q).mem.drives.get? k).map Drive.failed = some true := by
  unfold State.loseQuarter
  rw [hq, if_neg Bool.false_ne_true]
  dsimp only
  generalize hu : State.loseSpilled q _ = u
  have hm : u.mem = s.mem := by
    subst hu
    exact State.logEvent_keeps (mem_closed s.mem rfl rfl rfl) rfl
  constructor
  · refine keep_foldl (P := fun t => ∀ c ∈ t.xpt.ctxs, c.2.onDie = true ∨ c.1 % 4 ≠ q)
      (fun _ _ => State.failDrive_lossy (Lossy.of_xpt (Q := fun x => ∀ c ∈ x.ctxs, c.2.onDie = true ∨ c.1 % 4 ≠ q) fun x x' h k c hc => ?_))
      fun c hc => ?_
    · obtain ⟨y, hy, hk, hd⟩ := h c hc
      rw [hk, hd]
      exact k y hy
    · subst hu
      simpa using (List.mem_filter.mp hc).2
  · intro k x hx hport hpres
    rw [← hm] at hx
    refine failed_failDrives (List.mem_map_of_mem (a := (k, x)) (List.mem_filter.mpr ⟨Tbl.get?_mem hx, ?_⟩)) (by rw [hx]; rfl)
    simp [hport, hpres]

/-! ## The return of a home unit -/

/-- A page that is open for writing. -/
def Entry.isOpen (e : Entry) : Bool := e.pageState = .writeOpen || e.pageState = .writeOpenNew

/-- A key that is not listed is no member's. -/
theorem ne_of_get?_none {α : Type} {t : Tbl α} {k : Nat} (h : t.get? k = none) {p : Nat × α} (hp : p ∈ t) : p.1 ≠ k := by
  induction t with
  | nil => cases hp
  | cons q t ih =>
    obtain ⟨a, v⟩ := q
    simp only [Tbl.get?] at h
    split at h
    · cases h
    · rcases List.mem_cons.mp hp with rfl | hp
      · assumption
      · exact ih h hp

/-- A lease that ends is gone, and no other appears. -/
theorem leases_endLease {s : State} {key : Nat} {how : LeaseEnd} : ∀ l ∈ (s.endLease key how).home.leases,
    l.1 ≠ key ∧ ∃ x ∈ s.home.leases, l.1 = x.1 ∧ l.2.slice = x.2.slice ∧ l.2.params.handle = x.2.params.handle := by
  cases hl : s.home.leases.get? key with
  | none =>
    unfold State.endLease
    rw [hl]
    exact fun l hm => ⟨ne_of_get?_none hl hm, l, hm, rfl, rfl, rfl⟩
  | some l =>
    refine State.endLease_ended (Lossy.of_home (Q := fun h => ∀ l ∈ h.leases, l.1 ≠ key ∧
      ∃ x ∈ s.home.leases, l.1 = x.1 ∧ l.2.slice = x.2.slice ∧ l.2.params.handle = x.2.params.handle) fun h h' c k l hl => ?_).toMild hl
      fun l hm => ?_
    · obtain ⟨x, hx, hkey, hslice, hhandle⟩ := c.2 l hl
      rw [hkey, hslice, hhandle]
      exact k x hx
    · obtain ⟨hmem, hne⟩ := List.mem_filter.mp hm
      exact ⟨by simpa using hne, l, hmem, rfl, rfl, rfl⟩

/-- Of the leases that are to end none is left. -/
theorem leases_endLeases {s : State} {how : LeaseEnd} {p : Nat → Nat → Bool} :
    ∀ l ∈ (s.endLeases (fun l => p l.slice l.params.handle) how).home.leases, p l.2.slice l.2.params.handle = false := by
  have fold : ∀ (k : List (Nat × Lease)) (t : State), (∀ l ∈ t.home.leases, p l.2.slice l.2.params.handle = true → ∃ x ∈ k, x.1 = l.1) →
      ∀ l ∈ (k.foldl (fun s x => s.endLease x.1 how) t).home.leases, p l.2.slice l.2.params.handle = false := by
    intro k
    induction k with
    | nil => exact fun t h l hl => Bool.eq_false_iff.mpr fun hp => by obtain ⟨x, hx, -⟩ := h l hl hp; cases hx
    | cons a k ih =>
      refine fun t h => ih _ fun l hl hp => ?_
      obtain ⟨hne, x, hx, hkey, hslice, hhandle⟩ := leases_endLease l hl
      obtain ⟨y, hy, hyk⟩ := h x hx (by rwa [← hslice, ← hhandle])
      rcases List.mem_cons.mp hy with rfl | hy
      · exact absurd (hkey.trans hyk.symm) hne
      · exact ⟨y, hy, hyk.trans hkey.symm⟩
  exact fold _ s fun l hl hp => ⟨l, List.mem_filter.mpr ⟨hl, hp⟩, rfl⟩

@[simp] theorem home_retireUnit {s : State} {q n : Nat} {f : Nat × Nat} : (s.retireUnit q f n).home = s.home :=
  State.retireUnit_keeps (home_closed s.home rfl rfl) rfl

@[simp] theorem home_clearMark {s : State} : s.clearMark.home = s.home := State.clearMark_keeps (home_closed s.home rfl rfl) rfl

@[simp] theorem entries_onEntry {s : State} {slice : Nat} {n : PageName} {f : Entry → Entry} :
    (s.onEntry slice n f).home.entries = s.home.entries.map (fun e => if e.is slice n then f e else e) := by
  unfold State.onEntry State.onHome
  rw [home_clearMark]

@[simp] theorem entries_revokeGrants {s : State} {slice : Nat} {n : PageName} : (s.revokeGrants slice n).home.entries = s.home.entries := by
  unfold State.revokeGrants State.onReplica State.onHome
  dsimp only
  split
  · exact congrArg Home.entries (State.tellReplicas_keeps (home_closed s.home rfl rfl) rfl)
  · rfl

@[simp] theorem entries_copyOut {s : State} {slice : Nat} {n : PageName} : (s.copyOut slice n).home.entries = s.home.entries := by
  unfold State.copyOut
  split
  · rfl
  · split
    · rfl
    · refine keep_foldl (P := fun t => t.home.entries = s.home.entries) (fun t _ h => ?_) rfl
      unfold State.sendCopy
      split
      · exact h
      · split
        · exact h
        · exact h

@[simp] theorem entries_setPageState {s : State} {slice : Nat} {n : PageName} {st : PageState} :
    (s.setPageState slice n st).home.entries = s.home.entries.map (fun e => if e.is slice n then { e with pageState := st } else e) := by
  unfold State.setPageState
  dsimp only
  split <;> simp only [entries_copyOut, entries_onEntry, entries_revokeGrants]

theorem entries_dropWriteFrame {s : State} {slice : Nat} {n : PageName} : ∃ w : Entry → Bool,
    (s.dropWriteFrame slice n).home.entries = s.home.entries.map (fun e => { e with writeValid := w e }) := by
  unfold State.dropWriteFrame
  split
  · exact ⟨Entry.writeValid, (List.map_id _).symm⟩
  · split
    · refine ⟨fun e => if e.is slice n then false else e.writeValid, ?_⟩
      rw [entries_onEntry, home_retireUnit]
      refine List.map_congr_left fun e _ => ?_
      split <;> simp only [*] <;> rfl
    · exact ⟨Entry.writeValid, (List.map_id _).symm⟩

/-- The state that a page has once it is torn. -/
def PageState.tornFrom : PageState → PageState
  | .writeOpen => .torn
  | .writeOpenNew => .tornNew
  | x => x

theorem tearPage_none {s : State} {slice : Nat} {n : PageName} (h : (s.dropWriteFrame slice n).entry slice n = none) :
    s.tearPage slice n = s.dropWriteFrame slice n := by
  unfold State.tearPage
  dsimp only
  rw [h]

theorem entries_tearPage_some {s : State} {slice : Nat} {n : PageName} {e : Entry} (h : (s.dropWriteFrame slice n).entry slice n = some e) :
    (s.tearPage slice n).home.entries =
      ((s.dropWriteFrame slice n).setPageState slice n e.pageState.tornFrom).home.entries := by
  unfold State.tearPage
  dsimp only
  rw [h]
  rfl

/-- A page that is torn is open no more, and no other opens. -/
theorem entries_tearPage {s : State} {slice : Nat} {n : PageName} : ∀ e ∈ (s.tearPage slice n).home.entries, e.isOpen = true →
    e.is slice n = false ∧ ∃ x ∈ s.home.entries, x.isOpen = true ∧ x.slice = e.slice ∧ x.name = e.name ∧ x.quarter = e.quarter := by
  obtain ⟨w, hw⟩ := entries_dropWriteFrame (s := s) (slice := slice) (n := n)
  have old : ∀ e ∈ (s.dropWriteFrame slice n).home.entries, e.isOpen = true →
      ∃ x ∈ s.home.entries, x.isOpen = true ∧ x.slice = e.slice ∧ x.name = e.name ∧ x.quarter = e.quarter := by
    intro e he ho
    rw [hw] at he
    obtain ⟨x, hx, rfl⟩ := List.mem_map.mp he
    exact ⟨x, hx, ho, rfl, rfl, rfl⟩
  intro e he ho
  cases hn : (s.dropWriteFrame slice n).entry slice n with
  | none =>
    rw [tearPage_none hn] at he
    exact ⟨Bool.eq_false_iff.mpr (List.find?_eq_none.mp hn e he), old e he ho⟩
  | some d =>
    rw [entries_tearPage_some hn, entries_setPageState] at he
    obtain ⟨x, hx, rfl⟩ := List.mem_map.mp he
    split at ho
    · cases hd : d.pageState <;> simp [Entry.isOpen, hd, PageState.tornFrom] at ho
    · rename_i his
      rw [if_neg his]
      exact ⟨Bool.eq_false_iff.mpr his, old x hx ho⟩

/-- Once its open pages are torn a quarter has none. -/
theorem entries_tearPages {s : State} {q : Nat} : ∀ e ∈ ((s.home.entries.filter (fun e => e.quarter = q && e.isOpen)).foldl
    (fun s e => s.tearPage e.slice e.name) s).home.entries, e.quarter = q → e.isOpen = false := by
  have fold : ∀ (k : List Entry) (t : State), (∀ e ∈ t.home.entries, e.quarter = q → e.isOpen = true → ∃ x ∈ k, e.is x.slice x.name = true) →
      ∀ e ∈ (k.foldl (fun s e => s.tearPage e.slice e.name) t).home.entries, e.quarter = q → e.isOpen = false := by
    intro k
    induction k with
    | nil => exact fun t h e he hq => Bool.eq_false_iff.mpr fun ho => by obtain ⟨x, hx, -⟩ := h e he hq ho; cases hx
    | cons a k ih =>
      refine fun t h => ih _ fun e he hq ho => ?_
      obtain ⟨hne, x, hx, hxo, hslice, hname, hquarter⟩ := entries_tearPage e he ho
      obtain ⟨y, hy, hyi⟩ := h x hx (hquarter.trans hq) hxo
      have hye : e.is y.slice y.name = true := by simpa [Entry.is, hslice, hname] using hyi
      rcases List.mem_cons.mp hy with rfl | hy
      · rw [hne] at hye
        cases hye
      · exact ⟨y, hy, hye⟩
  exact fold _ s fun e he hq ho => ⟨e, List.mem_filter.mpr ⟨he, by simp [hq, ho]⟩, by simp [Entry.is]⟩

/-- What the return of a home unit leaves of its quarter. -/
theorem returnUnit_does {s : State} {q : Nat} (h : ¬(s.home.unitsLost.contains q = false ∨ s.ras.quartersLost.contains q = true)) :
    (s.returnUnit q).home.unitsLost.contains q = false ∧
    (∀ l ∈ (s.returnUnit q).home.leases, s.quarterOf l.2.slice l.2.params.handle ≠ q) ∧
    ∀ e ∈ (s.returnUnit q).home.entries, e.quarter = q → e.isOpen = false := by
  unfold State.returnUnit
  rw [if_neg (by simpa using h)]
  refine ⟨by simp [State.onHome], ?_, fun e => entries_tearPages e⟩
  refine keep_foldl (P := fun t => ∀ l ∈ t.home.leases, s.quarterOf l.2.slice l.2.params.handle ≠ q)
    (fun t _ k => State.tearPage_mild (Lossy.of_home (Q := fun h => ∀ l ∈ h.leases, s.quarterOf l.2.slice l.2.params.handle ≠ q)
      fun h h' c k l hl => ?_).toMild k) fun l hl => of_decide_eq_false (leases_endLeases (p := fun a b => decide (s.quarterOf a b = q)) l hl)
  obtain ⟨x, hx, -, hslice, hhandle⟩ := c.2 l hl
  rw [hslice, hhandle]
  exact k x hx

end Sys2Proof.Machine
end

section
/-! SUPPORT. The directory of prefixes after a sweep (R464): no node comes back, so none is left whose address a test forbids. -/

namespace Sys2Proof.Machine

/-- Every node of the directory of prefixes stands at an address that `ok` allows. -/
def State.nodesAt (ok : Nat → Prop) (s : State) : Prop := ∀ x ∈ s.locus.nodes, ok x.1 ∧ ok x.2.addr

section nodes
variable {ok : Nat → Prop} {s : State}

/-- Parts other than the directory say nothing of its nodes. -/
theorem closed_nodesAt {m : Nat} (hl : m.testBit 12 = false) (hd : m.testBit 20 = false) : Closed m (State.nodesAt ok) :=
  .of_view (fun x => locus_closed x hl hd) (fun l => ∀ x ∈ l.nodes, ok x.1 ∧ ok x.2.addr)

/-- A change of the directory whose nodes stand where others stood. -/
theorem nodesAt_onLocus {f : Locus → Locus} (hf : ∀ l, ∀ x ∈ (f l).nodes, ∃ y ∈ l.nodes, x.1 = y.1 ∧ x.2.addr = y.2.addr) (h : s.nodesAt ok) :
    (s.onLocus f).nodesAt ok := fun x hx => by
  obtain ⟨y, hy, hk, ha⟩ := hf _ x hx
  rw [hk, ha]
  exact h y hy

theorem nodesAt_entries {f : Locus → Locus} (hf : ∀ l, (f l).nodes = l.nodes) (h : s.nodesAt ok) : (s.onLocus f).nodesAt ok :=
  nodesAt_onLocus (fun l x hx => ⟨x, hf l ▸ hx, rfl, rfl⟩) h

theorem nodesAt_onNode {a : Nat} {f : PfxNode → PfxNode} (hf : ∀ n, (f n).addr = n.addr) (h : s.nodesAt ok) : (s.onNode a f).nodesAt ok := by
  unfold State.onNode
  split
  · exact h
  · rename_i n hn
    refine State.memWriteN_keeps (closed_nodesAt rfl rfl) fun x hx => ?_
    have hok := (h _ (Tbl.get?_mem hn)).2
    rcases Tbl.set_mem hx with hx | rfl
    · exact h x hx
    · exact ⟨hf n ▸ hok, hf n ▸ hok⟩

theorem nodesAt_orphans {gone : List PfxNode} (h : s.nodesAt ok) : (s.orphans gone).nodesAt ok := by
  unfold State.orphans
  refine keep_foldl_snd (fun l t c k => ?_) h
  dsimp only
  split
  · exact nodesAt_onNode (fun _ => rfl) k
  · exact k

theorem nodesAt_unadopt {n : PfxNode} (h : s.nodesAt ok) : (s.unadopt n).nodesAt ok := State.unadopt_keeps (closed_nodesAt rfl rfl) h

theorem nodesAt_onMem {f : Mem → Mem} (h : s.nodesAt ok) : (s.onMem f).nodesAt ok := h

theorem nodesAt_freeNode {n : PfxNode} (h : s.nodesAt ok) : (s.freeNode n).nodesAt ok := by
  unfold State.freeNode
  dsimp only
  have k := nodesAt_onLocus (f := fun l => { l with nodes := l.nodes.erase n.addr })
    (fun l x hx => ⟨x, List.mem_of_mem_filter hx, rfl, rfl⟩)
    (State.memWriteN_keeps (a := n.addr) (l := nodeBytes { n with valid := false }) (closed_nodesAt (ok := ok) rfl rfl) h)
  refine nodesAt_unadopt (State.retire_keeps (closed_nodesAt rfl rfl) ?_)
  split
  · exact k
  · exact nodesAt_onMem (State.clearMark_keeps (closed_nodesAt rfl rfl) k)

theorem nodesAt_unlinkNode {n : PfxNode} (h : s.nodesAt ok) : (s.unlinkNode n).nodesAt ok := by
  refine nodesAt_onLocus (fun l x hx => ?_) h
  obtain ⟨y, hy, rfl⟩ := List.mem_map.mp hx
  exact ⟨y, hy, rfl, by dsimp only; split <;> rfl⟩

theorem nodesAt_evict {a : Nat} (h : s.nodesAt ok) : (s.evict a).nodesAt ok := by
  unfold State.evict
  split
  · exact h
  · rename_i n hn
    have k (l : List PfxNode) : (l.foldl (fun s x => s.onNode x.addr id) (s.unlinkNode n)).nodesAt ok :=
      keep_foldl (fun _ _ => nodesAt_onNode fun _ => rfl) (nodesAt_unlinkNode h)
    refine nodesAt_entries (fun _ => rfl) (nodesAt_freeNode ?_)
    split
    · exact nodesAt_onNode (fun _ => rfl) (k _)
    · exact k _

theorem nodesAt_appendNode {a b : Nat} (h : s.nodesAt ok) : (s.appendNode a b).nodesAt ok := by
  unfold State.appendNode
  split
  · exact nodesAt_onNode (fun _ => rfl) h
  · exact h

theorem nodesAt_putEntry {l : LocusCfg} {a : Nat} {e : LEntry} (h : s.nodesAt ok) : (s.putEntry l a e).nodesAt ok :=
  nodesAt_entries (fun _ => rfl) h

theorem nodesAt_dropEntryAt {l : LocusCfg} {a : Nat} (h : s.nodesAt ok) : (s.dropEntryAt l a).nodesAt ok :=
  nodesAt_entries (fun _ => rfl) h

/-- A move of entries by one place makes room and moves no node. -/
theorem nodesAt_shift {α : Type} {l : List α} {c : LocusCfg} {pick : α → Option (Nat × LEntry)} {r : Nat × State} (h : r.2.nodesAt ok) :
    (l.foldl (fun (r : Nat × State) v => match pick v with
      | some y => (y.1, (r.2.putEntry c r.1 y.2).dropEntryAt c y.1)
      | none => r) r).2.nodesAt ok := by
  refine keep_foldl_snd (fun a t v k => ?_) h
  dsimp only
  split
  · exact nodesAt_dropEntryAt (nodesAt_putEntry k)
  · exact k

theorem nodesAt_insertDie {l : LocusCfg} {e : LEntry} (h : s.nodesAt ok) : OnSome (State.nodesAt ok) (s.insertDie l e) := by
  unfold State.insertDie
  dsimp only
  split
  · exact OnSome.some (nodesAt_putEntry h)
  · split
    · exact OnSome.none
    · exact OnSome.some (nodesAt_putEntry (nodesAt_shift h))
    · exact OnSome.some (nodesAt_putEntry (nodesAt_shift h))
    · split
      · exact OnSome.some (nodesAt_putEntry (nodesAt_shift h))
      · exact OnSome.some (nodesAt_putEntry (nodesAt_shift h))

theorem nodesAt_insertOvf {slice : Nat} {keep : List Nat} {e : LEntry} (h : s.nodesAt ok) : OnSome (State.nodesAt ok) (s.insertOvf slice keep e) := by
  unfold State.insertOvf
  dsimp only
  repeat' first
    | exact OnSome.none
    | exact OnSome.some (nodesAt_entries (fun _ => rfl) h)
    | exact OnSome.some (nodesAt_entries (fun _ => rfl) (keep_foldl (fun _ _ => nodesAt_evict) h))
    | split

theorem nodesAt_reindexNode {n : PfxNode} (h : s.nodesAt ok) : (s.reindexNode n).nodesAt ok := by
  unfold State.reindexNode
  split
  · exact nodesAt_appendNode h
  · split
    · rename_i r hr
      split at hr
      · exact nodesAt_insertDie h _ (by rw [← hr]; assumption)
      · split at hr
        · cases hr
        · exact nodesAt_insertOvf h _ hr
    · exact nodesAt_orphans (nodesAt_evict h)

theorem nodesAt_reindex {slice : Nat} (h : s.nodesAt ok) : (s.reindex slice).nodesAt ok := by
  refine keep_foldl (fun t n k => ?_) (keep_foldl (fun _ _ => nodesAt_onNode fun _ => rfl) h)
  split
  · exact nodesAt_reindexNode k
  · exact k

end nodes

/-- A node of a fenced stack at this address. -/
def State.nodeGone (s : State) (a : Nat) : Bool := (s.locus.nodes.vals.filter (fun n => s.stackFenced (addrStack n.addr))).any (fun n => n.addr = a)

/-- After a sweep no node stands where one of a fenced stack stood. -/
theorem nodesAt_sweepLocus {s : State} : s.sweepLocus.nodesAt (fun a => s.nodeGone a = false) := by
  unfold State.sweepLocus
  refine nodesAt_entries (fun _ => rfl) (keep_foldl (fun _ _ => nodesAt_reindex) (nodesAt_orphans (keep_foldl (fun _ _ => nodesAt_unadopt) ?_)))
  intro x hx
  obtain ⟨y, hy, rfl⟩ := List.mem_map.mp hx
  obtain ⟨-, hy⟩ := List.mem_filter.mp hy
  obtain ⟨hk, ha⟩ := Bool.and_eq_true_iff.mp hy
  refine ⟨(Bool.not_eq_true' _).mp hk, ?_⟩
  dsimp only
  split <;> exact (Bool.not_eq_true' _).mp ha

end Sys2Proof.Machine
end

section
/-! The statement on fences, sweeps and losses. -/

namespace Sys2Proof.Machine

/-- What a sweep of a quarter leaves: no node that a fenced stack held, and nothing to rebuild. -/
theorem fenceSweep_does {s : State} {q : Nat} : (s.fenceSweep q).locus.rebuilding = [] ∧
    ∀ x ∈ (s.fenceSweep q).locus.nodes, ∀ y ∈ s.locus.nodes, y.2.addr = x.1 → s.stackFenced (addrStack x.1) = false := by
  unfold State.fenceSweep
  generalize hu : List.foldl _ s _ = u
  have hkept : u.locus = s.locus ∧ u.ras = s.ras := by
    subst hu
    refine keep_foldl (P := fun t => t.locus = s.locus ∧ t.ras = s.ras) (fun t x k => ?_) ⟨rfl, rfl⟩
    have kl : (t.refresh x.1 x.2).locus = s.locus := State.refresh_keeps (locus_closed s.locus rfl rfl) k.1
    have kr : (t.refresh x.1 x.2).ras = s.ras := State.refresh_keeps (ras_closed s.ras rfl rfl) k.2
    dsimp only
    split
    · exact ⟨kl, kr⟩
    · split
      · exact ⟨State.awaitPage_keeps (locus_closed s.locus rfl rfl) kl, State.awaitPage_keeps (ras_closed s.ras rfl rfl) kr⟩
      · exact ⟨kl, kr⟩
  refine ⟨rfl, fun x hx y hy ha => Bool.eq_false_iff.mpr fun hf => ?_⟩
  have hgone := (nodesAt_sweepLocus x hx).1
  unfold State.nodeGone State.stackFenced at hgone
  rw [hkept.1, hkept.2] at hgone
  refine Bool.eq_false_iff.mp hgone (List.any_eq_true.mpr ⟨y.2, List.mem_filter.mpr ⟨List.mem_map_of_mem hy, ?_⟩, by simpa using ha⟩)
  rw [ha]
  exact hf

/-- A unit that is lost is marked so, and its entries stay. -/
theorem loseHomeUnit_does {s : State} {q : Nat} :
    (s.loseHomeUnit q).home.unitsLost.contains q = true ∧ (s.loseHomeUnit q).home.entries = s.home.entries := by
  unfold State.loseHomeUnit
  split
  · exact ⟨‹_›, rfl⟩
  · refine State.logEvent_keeps (.of_view (fun x => home_closed x rfl rfl) fun h => h.unitsLost.contains q = true ∧ h.entries = s.home.entries) ?_
    simp [State.onHome]

/-- What a region fence of a region not fenced leaves. -/
theorem fence_does {s : State} {n cause : Nat} {fabric : Bool} (hs : s.stackFenced n = false) :
    let t := (s.fenceRegion n cause fabric).fenceNear n
    t.stackFenced n = true ∧ (∀ (m : Nat), m ≠ n → t.stackFenced m = s.stackFenced m) ∧ (t.nbu.getD n {}).wins = [] ∧
    ((s.nbu.getD n {}).near = [] → (∀ a ∈ t.eng.lines, addrStack a ≠ n) ∧ ∀ a ∈ t.home.accs, (∃ p ∈ a.parts, p.1 = n) → a.lost = true) ∧
    t.locus.lostBlocks.contains (2 * n) = true ∧ t.locus.lostBlocks.contains (2 * n + 1) = true ∧
    (t.stackFenced ((n + 4) % 8) = true → t.ras.quartersLost.contains (n % 4) = true) ∧
    ((List.range 8).all t.stackFenced = true → t.nodeFenced = true) := by
  have hst : ((s.fenceRegion n cause fabric).fenceNear n).stackFenced = (s.fenceRegion n cause fabric).stackFenced := by
    unfold State.stackFenced
    rw [ras_fenceNear]
  have hnf : ((s.fenceRegion n cause fabric).fenceNear n).nodeFenced = (s.fenceRegion n cause fabric).nodeFenced := by
    unfold State.nodeFenced
    rw [ras_fenceNear, aon_fenceNear]
  dsimp only
  rw [hst, hnf, ras_fenceNear, locus_fenceNear]
  obtain ⟨hb, hb'⟩ := lostBlocks_fenceRegion (cause := cause) (fabric := fabric) hs
  refine ⟨by simp [stackFenced_fenceRegion hs], fun m hm => by simp [stackFenced_fenceRegion hs, hm], wins_fenceNear (wins_fenceRegion hs), ?_,
    List.contains_iff_mem.mpr hb, List.contains_iff_mem.mpr hb', ?_, ?_⟩
  · intro hnear
    rw [fenceNear_none (near_fenceRegion hs hnear)]
    exact ⟨lines_fenceRegion hs, accs_fenceRegion hs⟩
  · rw [fenceRegion_eq hs, stackFenced_fenceClosesIn]
    exact quartersLost_fenceClosesIn
  · rw [fenceRegion_eq hs, show ∀ u : State, (u.fenceClosesIn n).stackFenced = u.stackFenced from fun _ => funext fun _ => stackFenced_fenceClosesIn]
    exact nodeFenced_fenceClosesIn

end Sys2Proof.Machine
end

section
open Sys2Proof Sys2Proof.Machine

/-- Settles O42, command by command from what each leaves of its parts. -/
theorem lossesAreContained : Obligations.LossesAreContained := by
  unfold Obligations.LossesAreContained
  refine ⟨fun n cause island s hr => ⟨fun hd => ?_, fun hd hf hi hc hnear => ?_, fun hd hf => ⟨_, rfl, ?_⟩⟩, fun q s hr => ⟨⟨_, rfl, ?_⟩, ⟨_, rfl, ?_⟩, ?_,
    ⟨_, rfl, ?_⟩⟩⟩
  · refine congrArg Host.Outcome.next ((State.whenUp_up hr).trans ?_)
    rw [if_neg (by rw [hd]; exact Bool.false_ne_true)]
  · refine congrArg Host.Outcome.next ((State.whenUp_up hr).trans ?_)
    have hfab : ((cause = 0 && island = 0) || cause = 4 : Bool) = false := by
      have hi' : ¬(cause = 0 ∧ island = 0) := fun h => hi ⟨congrArg Fin.val h.1, congrArg Fin.val h.2⟩
      have hc' : cause ≠ 4 := fun h => hc (congrArg Fin.val h)
      simpa [hc'] using hi'
    rw [if_pos hd, hfab]
    unfold State.fenceRegion
    rw [if_pos hf, if_neg Bool.false_ne_true]
    exact fenceNear_none hnear
  · rw [State.whenUp_up hr, if_pos hd]
    exact fence_does hf
  · rw [State.whenUp_up hr]
    exact fenceSweep_does
  · rw [State.whenUp_up hr]
    exact loseHomeUnit_does
  · split
    · refine congrArg Host.Outcome.next ((State.whenUp_up hr).trans (if_pos ?_))
      rename_i hq
      simpa using hq
    · refine ⟨_, rfl, ?_⟩
      rw [State.whenUp_up hr]
      obtain ⟨hu, hl, he⟩ := returnUnit_does ‹_›
      exact ⟨hu, hl, fun e hm hq => by simpa [Entry.isOpen] using he e hm hq⟩
  · rw [State.whenUp_up hr]
    exact ⟨quartersLost_loseQuarter, loseQuarter_takes⟩

end

section
/-! SUPPORT. Storage faults (R31, R350, R355, R357): what a corrected and an uncorrectable error leave of the error counts, the faulty
rows and the SRAM lines, and how a retired cell's slot moves. -/

namespace Sys2Proof.Machine

/-! ## What an arbiter's service and a logged detection leave -/

@[simp] theorem ras_takeSlot {s : State} {n c b : Nat} : (s.takeSlot n c b).ras = s.ras := State.takeSlot_keeps (ras_closed s.ras rfl rfl) rfl

@[simp] theorem ras_poison {s : State} {slice : Nat} {n : PageName} : (s.poison slice n).ras = s.ras :=
  State.poison_keeps (ras_closed s.ras rfl rfl) rfl

section detection
variable {s : State} {a b c d e v o sl x : Nat} {t : Int}

@[simp] theorem ras_logDetection : (s.logDetection a b c d e t v o sl x).ras = s.ras := State.logDetection_keeps (ras_closed s.ras rfl rfl) rfl
@[simp] theorem eng_logDetection : (s.logDetection a b c d e t v o sl x).eng = s.eng := State.logDetection_keeps (eng_closed s.eng rfl rfl) rfl
@[simp] theorem nbu_logDetection : (s.logDetection a b c d e t v o sl x).nbu = s.nbu := State.logDetection_keeps (nbu_closed s.nbu rfl rfl) rfl
@[simp] theorem home_logDetection : (s.logDetection a b c d e t v o sl x).home = s.home := State.logDetection_keeps (home_closed s.home rfl rfl) rfl
@[simp] theorem sch_logDetection : (s.logDetection a b c d e t v o sl x).sch = s.sch := State.logDetection_keeps (sch_closed s.sch rfl rfl) rfl

end detection

/-- Where a line's bytes lie depends on the entries and the slices alone. -/
theorem placed_congr {s t : State} (hh : t.home = s.home) (hs : t.sch = s.sch) (a : Nat) : t.placed a = s.placed a := by
  unfold State.placed State.pageAt State.format State.cfg State.slice
  rw [hh, hs]

/-! ## Errors of stack memory -/

/-- What the losses keep, a row that turns faulty keeps, once it is said of the row's own record. -/
theorem rowFaulty_lossy {P : State → Prop} (hP : Lossy P) {s : State} {a : Nat}
    (h : s.ras.rowsFaulty.any (fun x => x.1 = addrStack a && x.2.1 = rowId a) = true → P s)
    (hr : P (s.onRas (fun r => { r with
      rowsFaulty := r.rowsFaulty ++ [(addrStack a, rowId a, s.now)]
      rowsFaultyCount := r.rowsFaultyCount.modify (addrStack a) inc32 }))) : P (s.rowFaulty a) := by
  unfold State.rowFaulty State.rowCopies
  dsimp only
  repeat' first
    | exact h ‹_›
    | exact hr
    | exact State.loseQuarter_lossy hP hr
    | exact hP.mem _ _ (fun _ => .of_eq rfl) (State.clearMark_mild hP.toMild hr)
    | exact hP.base.sch rfl _ _ (hP.mem _ _ (fun _ => .of_eq rfl) (State.clearMark_mild hP.toMild hr))
    | split

/-- A row that turns faulty counts no error. -/
theorem counts_rowFaulty {s : State} {a : Nat} : (s.rowFaulty a).ras.ce = s.ras.ce ∧ (s.rowFaulty a).ras.ue = s.ras.ue :=
  rowFaulty_lossy (P := fun t => t.ras.ce = s.ras.ce ∧ t.ras.ue = s.ras.ue)
    (Lossy.of_ras (Q := fun r => r.ce = s.ras.ce ∧ r.ue = s.ras.ue) fun _ _ ⟨_, hc, hu, _⟩ h => ⟨hc.trans h.1, hu.trans h.2⟩) (fun _ => ⟨rfl, rfl⟩) ⟨rfl, rfl⟩

/-- A row that turns faulty is listed. -/
theorem rowsFaulty_rowFaulty {s : State} {a : Nat} :
    (s.rowFaulty a).ras.rowsFaulty.any (fun r => r.1 = addrStack a && r.2.1 = rowId a) = true := by
  refine rowFaulty_lossy (P := fun t => t.ras.rowsFaulty.any (fun r => r.1 = addrStack a && r.2.1 = rowId a) = true)
    (Lossy.of_ras (Q := fun r => r.rowsFaulty.any (fun r => r.1 = addrStack a && r.2.1 = rowId a) = true) fun _ _ ⟨_, _, _, hf⟩ h => hf ▸ h) id ?_
  simp [State.onRas]

/-- An uncorrectable error is counted for its region, and its row turns faulty. -/
theorem uncorrectable_does {s : State} {a : Nat} : (s.uncorrectable a).ras.ue = s.ras.ue.modify (addrStack a) inc32 ∧
    (s.uncorrectable a).ras.ce = s.ras.ce ∧
    (s.uncorrectable a).ras.rowsFaulty.any (fun r => r.1 = addrStack a && r.2.1 = rowId a) = true := by
  unfold State.uncorrectable
  dsimp only
  generalize hu : State.logDetection _ _ _ _ _ _ _ _ _ _ _ = u
  have hr : u.ras = { s.ras with ue := s.ras.ue.modify (addrStack a) inc32 } := by
    subst hu
    exact ras_logDetection
  refine ⟨counts_rowFaulty.2.trans ?_, counts_rowFaulty.1.trans ?_, rowsFaulty_rowFaulty⟩ <;> split
  · rw [ras_poison, hr]
  · exact congrArg Ras.ue hr
  · rw [ras_poison, hr]
  · change u.ras.ce = s.ras.ce
    rw [hr]

/-- A corrected error is counted for its region. -/
theorem rowCorrected_does {s : State} {a : Nat} : (s.rowCorrected a).ras.ce = s.ras.ce.modify (addrStack a) inc32 ∧
    (s.rowCorrected a).ras.ue = s.ras.ue := by
  unfold State.rowCorrected
  dsimp only
  split
  · rw [counts_rowFaulty.1, counts_rowFaulty.2, ras_logDetection]
    exact ⟨rfl, rfl⟩
  · rw [ras_logDetection]
    exact ⟨rfl, rfl⟩

/-! ## SRAM lines -/

section lines
variable {s : State} {n a : Nat} (hw : s.ras.sramWithdrawn.contains (n, sramLine a) = false)
include hw

/-- The first failure of a line is noted. -/
theorem lineBad_first (hr : s.ras.sramRefilled.contains (n, sramLine a) = false) :
    (s.lineBad n a).ras = { s.ras with sramRefilled := s.ras.sramRefilled ++ [(n, sramLine a)] } ∧ (s.lineBad n a).eng = s.eng := by
  unfold State.lineBad
  dsimp only
  rw [ras_logDetection, hw, hr, if_neg Bool.false_ne_true, if_neg Bool.false_ne_true]
  simp [State.onRas]

/-- A line that fails after its refill is withdrawn. -/
theorem lineBad_again (hr : s.ras.sramRefilled.contains (n, sramLine a) = true) :
    (s.lineBad n a).ras = { s.ras with sramWithdrawn := s.ras.sramWithdrawn ++ [(n, sramLine a)] } ∧
    (s.lineBad n a).eng = { s.eng with lines := s.eng.lines.filter (· ≠ a / 4096 * 4096) } := by
  unfold State.lineBad
  dsimp only
  rw [ras_logDetection, hw, hr, if_neg Bool.false_ne_true, if_pos rfl]
  simp [State.onRas, State.onEng]

end lines

/-- Of the node a bad line changes its lines, its record of them and the log. -/
theorem lineBad_keeps {s : State} {n a : Nat} : (s.lineBad n a).home = s.home ∧ (s.lineBad n a).sch = s.sch ∧ (s.lineBad n a).nbu = s.nbu ∧
    (s.lineBad n a).ras.ue = s.ras.ue := by
  unfold State.lineBad
  dsimp only
  split
  · simp
  · split
    · simp [State.onRas, State.onEng]
    · simp [State.onRas]

/-- A line of the page space that no window holds is filled again. -/
theorem refillLine_filled {s : State} {n a : Nat} (hw : s.ras.sramWithdrawn.contains (n, sramLine a) = false) (hb : s.lineBarred a = false) :
    (s.refillLine n a).eng.lines = a / 4096 * 4096 :: s.eng.lines.filter (· ≠ a / 4096 * 4096) := by
  unfold State.refillLine State.onEng
  dsimp only
  rw [hw, hb]
  rfl

/-- A withdrawn line is not. -/
theorem refillLine_withdrawn {s : State} {n a : Nat} (hw : s.ras.sramWithdrawn.contains (n, sramLine a) = true) :
    (s.refillLine n a).eng.lines = s.eng.lines.filter (· ≠ a / 4096 * 4096) := by
  unfold State.refillLine State.onEng
  dsimp only
  rw [hw]
  rfl

/-- A re-read that meets no window looks at the line once the arbiter has served what waits. -/
theorem reread_eq {s : State} {n a : Nat} {clean : Bool} (hp : pageSpace a = true) (hf : s.stackFenced (addrStack a) = false)
    (hc : (s.takeSlot n 1 (sramBank a)).collides ((s.takeSlot n 1 (sramBank a)).placed a) = false) :
    s.reread n a clean = (s.takeSlot n 1 (sramBank a)).refilled n a clean := by
  unfold State.reread
  dsimp only
  rw [hp, hf, hc]
  rfl

/-- A re-read of a line that holds no faulted tile. -/
theorem refilled_line {s : State} {n a : Nat} {clean : Bool} (hp : pageSpace a = true) (hf : s.stackFenced (addrStack a) = false)
    (hn : s.faultedAt a = none) :
    s.refilled n a clean = if clean then (s.lineBad n a).refillLine n a else (s.lineBad n a).uncorrectable ((s.lineBad n a).placed a) := by
  unfold State.refilled
  rw [hp, hf, hn]
  rfl

/-- A clean re-read of a faulted tile's line hands the tile back. -/
theorem refilled_tile {s : State} {n a b : Nat} {r : Retry} (hp : pageSpace a = true) (hf : s.stackFenced (addrStack a) = false)
    (hn : s.faultedAt a = some (b, r)) : s.refilled n a true =
      ((s.onBlock b (fun y => { y with faulted := y.faulted.erase r })).refillLine n a).onBlock b
        (fun y => { y with retries := y.retries ++ [{ r with reread := true }] }) := by
  unfold State.refilled
  rw [hp, hf, hn]
  rfl

/-- A scrub that meets no window looks at the row once the arbiter has served what waits. -/
theorem scrub_eq {s : State} {n a : Nat} {c u : Bool} (hf : s.stackFenced n = false)
    (hi : implementedOffset (addrOffset (nodeAddr n (a % 2 ^ 37))) = true)
    (hc : (s.takeStack 5 (nodeAddr n (a % 2 ^ 37))).collides (nodeAddr n (a % 2 ^ 37)) = false) :
    s.scrub n a c u = (s.takeStack 5 (nodeAddr n (a % 2 ^ 37))).scrubbed (nodeAddr n (a % 2 ^ 37)) c u := by
  unfold State.scrub
  dsimp only
  rw [hf, hi, hc, if_neg Bool.false_ne_true]
  exact if_neg Bool.false_ne_true

/-! ## Blocks and units -/

theorem block_onBlock_same {s : State} {b : Nat} {f : BlockS → BlockS} (h : b < s.eng.blocks.length) : (s.onBlock b f).block b = f (s.block b) := by
  simp [State.block, State.onBlock, State.onEng, List.getD_eq_getElem?_getD, List.getElem?_modify_eq, List.getElem?_eq_getElem h]

theorem length_onBlock {s : State} {b : Nat} {f : BlockS → BlockS} : (s.onBlock b f).eng.blocks.length = s.eng.blocks.length := by
  simp [State.onBlock, State.onEng]

theorem block_refillLine {s : State} {n a b : Nat} : (s.refillLine n a).block b = s.block b := rfl

theorem length_refillLine {s : State} {n a : Nat} : (s.refillLine n a).eng.blocks.length = s.eng.blocks.length := rfl

/-- A cell's number is that of its unit. -/
theorem unitKey_cell {b i : Nat} (h : cellKey b i < 128) : unitKey (.cell (Fin.ofNat 128 (cellKey b i))) = cellKey b i := by
  simp [unitKey, unitKind, unitNum, Nat.mod_eq_of_lt h]

theorem unit_onUnit {s : State} {u : UnitId} {f : UnitHist → UnitHist} : (s.onUnit u f).unit (unitKey u) = f (s.unit (unitKey u)) := by
  have h : s.clearMark.ras = s.ras := State.clearMark_keeps (ras_closed s.ras rfl rfl) rfl
  unfold State.unit State.onUnit State.onRas
  rw [h]
  exact Tbl.getD_update_same ..

/-- Groups that are placed leave a block's slots and its spare, and the units. -/
theorem placeReady_slots {s : State} {b c : Nat} : ((s.placeReady b).block c).slots = (s.block c).slots ∧
    ((s.placeReady b).block c).spareUsed = (s.block c).spareUsed := by
  refine State.placeReady_mild (P := fun t => (t.block c).slots = (s.block c).slots ∧ (t.block c).spareUsed = (s.block c).spareUsed)
    (Lossy.of_eng (Q := fun e => (e.blocks.getD c {}).slots = (s.block c).slots ∧ (e.blocks.getD c {}).spareUsed = (s.block c).spareUsed)
      fun e e' k h => ?_).toMild ⟨rfl, rfl⟩
  exact ⟨(k.2 c).1.trans h.1, (k.2 c).2.trans h.2⟩

theorem ras_placeReady {s : State} {b : Nat} : (s.placeReady b).ras = s.ras := State.placeReady_keeps (ras_closed s.ras rfl rfl) rfl

/-- A faulted group that moves to the spare position leaves slots and spare as they are. -/
theorem moveFaulted_slots {s : State} {b p c : Nat} : ((s.moveFaulted b p true).block c).slots = (s.block c).slots ∧
    ((s.moveFaulted b p true).block c).spareUsed = (s.block c).spareUsed := by
  have onCell : ∀ {t : State} {q : Nat} {f : CellS → CellS}, ((t.onCell b q f).block c).slots = (t.block c).slots ∧
      ((t.onCell b q f).block c).spareUsed = (t.block c).spareUsed :=
    ⟨getD_modify_eq (g := BlockS.slots) fun _ => rfl, getD_modify_eq (g := BlockS.spareUsed) fun _ => rfl⟩
  unfold State.moveFaulted
  dsimp only
  split
  · exact ⟨rfl, rfl⟩
  · exact ⟨onCell.1.trans onCell.1, onCell.2.trans onCell.2⟩

/-- The slot of the cell at a position goes to the spare position. -/
def BlockS.toSpare (i p : Nat) (x : BlockS) : BlockS :=
  { x with slots := x.slots.set i (some 4), spareUsed := true, cells := x.cells.modify p (fun c => { c with retiring := false }) }

/-- No slot is lent where none stands at position 4. -/
theorem lentSlot_none {s : State} {b : Nat} (hl : (s.block b).slots.contains (some 4) = false) : s.lentSlot b = none := by
  unfold State.lentSlot
  split
  · rfl
  · refine List.find?_eq_none.mpr fun i _ hi => Bool.eq_false_iff.mp hl (List.contains_iff_mem.mpr ?_)
    rw [List.getD_eq_getElem?_getD] at hi
    cases h : (s.block b).slots[i]? with
    | none => simp [h] at hi
    | some y =>
      have hy : y = some 4 := by simpa [h] using hi
      exact hy ▸ List.mem_of_getElem? h

theorem moveSlot_eq {s : State} {b i p : Nat} (hs : ((s.block b).cell p).shadow = none)
    (hu : (s.block b).spareUsed = false) (hl : (s.block b).slots.contains (some 4) = false) : s.moveSlot b i p =
      (((s.onBlock b (BlockS.toSpare i p)).moveFaulted b p true).onUnit (.cell (Fin.ofNat 128 (cellKey b i))) (fun _ => {})).placeReady b := by
  have hspill : s.spillShadow b p = s := by
    unfold State.spillShadow
    dsimp only
    rw [hs]
  have hlent : s.returnLent b = s := by
    unfold State.returnLent
    rw [lentSlot_none hl]
  unfold State.moveSlot
  dsimp only
  rw [hspill, hs, hlent, ite_self, hu, hl]
  rfl

/-- A slot whose cell is retired moves to the spare position where that is free, and its unit begins afresh. -/
theorem moveSlot_spare {s : State} {b i p : Nat} (hb : b < s.eng.blocks.length) (hk : cellKey b i < 128) (hs : ((s.block b).cell p).shadow = none)
    (hu : (s.block b).spareUsed = false) (hl : (s.block b).slots.contains (some 4) = false) :
    ((s.moveSlot b i p).block b).slots = (s.block b).slots.set i (some 4) ∧ ((s.moveSlot b i p).block b).spareUsed = true ∧
    (s.moveSlot b i p).unit (cellKey b i) = {} := by
  have heng {t : State} {u : UnitId} {f : UnitHist → UnitHist} : (t.onUnit u f).eng = t.eng := State.onUnit_keeps (eng_closed t.eng rfl rfl) rfl
  rw [moveSlot_eq hs hu hl]
  refine ⟨placeReady_slots.1.trans ?_, placeReady_slots.2.trans ?_, ?_⟩
  · unfold State.block
    rw [heng]
    exact moveFaulted_slots.1.trans (congrArg BlockS.slots (block_onBlock_same hb))
  · unfold State.block
    rw [heng]
    exact moveFaulted_slots.2.trans (congrArg BlockS.spareUsed (block_onBlock_same hb))
  · have h := unit_onUnit (s := (s.onBlock b (BlockS.toSpare i p)).moveFaulted b p true) (u := .cell (Fin.ofNat 128 (cellKey b i))) (f := fun _ => {})
    rw [unitKey_cell hk] at h
    exact (congrArg (fun r : Ras => r.units.getD (cellKey b i) {}) ras_placeReady).trans h

/-- The moving slot of a block is one of its four. -/
theorem moving_lt {s : State} {b i p : Nat} (h : (List.range 4).findSome? (fun i => (s.moving b i).map (fun p => (i, p))) = some (i, p)) : i < 4 := by
  obtain ⟨j, hj, hm⟩ := List.exists_of_findSome?_eq_some h
  obtain ⟨q, -, hq⟩ := Option.map_eq_some_iff.mp hm
  cases hq
  exact List.mem_range.mp hj

end Sys2Proof.Machine
end

section
/-! The statement on storage faults. -/

open Sys2Proof Sys2Proof.Machine

/-- Settles O19, command by command from what a re-read, a scrub and a move leave. -/
theorem storageFaults : Obligations.StorageFaults := by
  unfold Obligations.StorageFaults
  refine ⟨fun n a s hr hp hf hc => ?_, fun n a s hr hf hi hc => ?_, fun b s i p hr hb hm hs hu hl => ?_⟩
  · have hf1 : (s.takeSlot n 1 (sramBank a)).stackFenced (addrStack a) = false := by
      unfold State.stackFenced
      rwa [ras_takeSlot]
    refine ⟨fun hn hw => ?_, fun b r hn hb => ⟨_, rfl, ?_⟩⟩
    · have hline (clean : Bool) := (reread_eq (n := n) (clean := clean) hp hf hc).trans (refilled_line hp hf1 hn)
      have hw1 : (s.takeSlot n 1 (sramBank a)).ras.sramWithdrawn.contains ((n : Nat), sramLine a) = false := by rwa [ras_takeSlot]
      refine ⟨fun hq hbar => ⟨_, rfl, ?_⟩, fun hq => ⟨_, rfl, ?_⟩, ⟨_, rfl, ?_⟩⟩
      · rw [State.whenUp_up hr, hline, if_pos rfl]
        obtain ⟨hras, heng⟩ := lineBad_first hw1 (by rwa [ras_takeSlot])
        refine ⟨?_, (refillLine_filled ?_ ?_).trans ?_⟩
        · exact (congrArg Ras.sramRefilled hras).trans (by rw [ras_takeSlot])
        · rwa [hras]
        · unfold State.lineBarred at hbar ⊢
          rwa [lineBad_keeps.2.2.1]
        · rw [heng]
      · rw [State.whenUp_up hr, hline, if_pos rfl]
        obtain ⟨hras, heng⟩ := lineBad_again hw1 (by rwa [ras_takeSlot])
        refine ⟨(congrArg Ras.sramWithdrawn hras).trans (by rw [ras_takeSlot]), (refillLine_withdrawn ?_).trans ?_⟩
        · simp [hras]
        · rw [heng, List.filter_filter]
          simp
      · rw [State.whenUp_up hr, hline, if_neg Bool.false_ne_true]
        obtain ⟨hh, hs, -, hu⟩ := lineBad_keeps (s := s.takeSlot n 1 (sramBank a)) (n := n) (a := a)
        rw [uncorrectable_does.1, hu, placed_congr hh hs, ras_takeSlot]
    · rw [State.whenUp_up hr, reread_eq hp hf hc, refilled_tile hp hf1 hn]
      have hb' : b < ((State.onBlock b (fun y => { y with faulted := y.faulted.erase r }) (s.takeSlot n 1 (sramBank a))).refillLine n a).eng.blocks.length := by
        rwa [length_refillLine, length_onBlock]
      dsimp only
      rw [block_onBlock_same hb', block_refillLine, block_onBlock_same hb]
      exact ⟨rfl, rfl, ras_takeSlot⟩
  · have hx : addrStack (nodeAddr n (a % 2 ^ 37)) = n := by
      unfold addrStack nodeAddr
      omega
    have hscrub (c u : Bool) := (State.whenUp_up (f := State.scrub n a c u) hr).trans (scrub_eq hf hi hc)
    have hras : (s.takeStack 5 (nodeAddr n (a % 2 ^ 37))).ras = s.ras := ras_takeSlot
    refine ⟨congrArg Host.Outcome.next (hscrub false false), ⟨_, rfl, ?_⟩, ⟨_, rfl, ?_⟩⟩
    · rw [hscrub]
      unfold State.scrubbed
      rw [if_neg Bool.false_ne_true, if_pos rfl]
      have h := rowCorrected_does (s := s.takeStack 5 (nodeAddr n (a % 2 ^ 37))) (a := nodeAddr n (a % 2 ^ 37))
      rwa [hx, hras] at h
    · rw [hscrub]
      unfold State.scrubbed
      rw [if_pos rfl]
      have h := uncorrectable_does (s := s.takeStack 5 (nodeAddr n (a % 2 ^ 37))) (a := nodeAddr n (a % 2 ^ 37))
      rwa [hx, hras] at h
  · refine ⟨_, rfl, ?_⟩
    rw [State.whenUp_up hr]
    unfold State.moveSlots
    rw [hm]
    have hi : i < 4 := moving_lt hm
    exact moveSlot_spare hb (by unfold cellKey; omega) hs hu hl

end

section
/-! SUPPORT. How an entry stands once it is looked at (R67, R70, R243, R438): a function of the entry, the fenced stacks and the failed
drives, so that states that agree on these resolve a page alike. -/

namespace Sys2Proof.Machine

/-- What decides how an entry stands. -/
structure Standing where
  stale : Bool
  page : PageState
  frame : FrameState
  stack : Nat
  drive : Nat

/-- How an entry stands. -/
def Entry.standing (e : Entry) : Standing := ⟨e.stale, e.pageState, e.frameState, e.stackFrame.1, e.flashDrive⟩

/-- A restart ends the moves and writes of an entry (R438). -/
def Standing.afresh (v : Standing) : Standing :=
  { v with
    stale := false
    page := if v.stale then v.page.tornFrom else v.page
    frame := match v.frame with
      | .filling => .flash
      | .demoting => .stack
      | x => x }

/-- An entry that a restart has made stale is taken afresh. -/
def Standing.restarted (v : Standing) : Standing := if v.stale then v.afresh else v

/-- A fence takes the frame in its stack (R70). -/
def Standing.fenced (v : Standing) : Standing :=
  { v with frame := match v.frame with
    | .stackClean => .flash
    | .filling => .flash
    | .stack => .dropped
    | .demoting => .dropped
    | x => x }

/-- A failed drive leaves the frame in its stack (R243). -/
def Standing.undriven (v : Standing) : Standing :=
  { v with frame := match v.frame with
    | .stackClean => .stack
    | .demoting => .stack
    | x => x }

/-- How an entry stands once a restart, the fences and the drives are looked at. -/
def Standing.seen (fenced failed : Nat → Bool) (v : Standing) : Standing :=
  let v := v.restarted
  let v := if fenced v.stack then v.fenced else v
  if v.frame.onFlash && failed v.drive then v.undriven else v

/-- The standing of a page's entry. -/
def State.standing (s : State) (slice : Nat) (n : PageName) : Option Standing := (s.entry slice n).map Entry.standing

theorem standing_congr {s u : State} {slice : Nat} {n : PageName} (h : u.home.entries = s.home.entries) : u.standing slice n = s.standing slice n := by
  unfold State.standing State.entry
  rw [h]

/-- A change of an entry changes its standing alone. -/
theorem standing_onEntry {s : State} {slice : Nat} {n : PageName} {f : Entry → Entry} {g : Standing → Standing}
    (hi : ∀ e, (f e).is slice n = e.is slice n) (hf : ∀ e, (f e).standing = g e.standing) :
    (s.onEntry slice n f).standing slice n = (s.standing slice n).map g := by
  unfold State.standing State.entry
  rw [entries_onEntry]
  induction s.home.entries with
  | nil => rfl
  | cons e l ih =>
    rw [List.map_cons]
    by_cases h : e.is slice n = true
    · rw [if_pos h, List.find?_cons_of_pos ((hi e).trans h), List.find?_cons_of_pos h]
      exact congrArg some (hf e)
    · rw [if_neg h, List.find?_cons_of_neg h, List.find?_cons_of_neg h]
      exact ih

/-- A change of an entry that leaves its standing. -/
theorem standing_onEntry_same {s : State} {slice : Nat} {n : PageName} {f : Entry → Entry}
    (hi : ∀ e, (f e).is slice n = e.is slice n) (hf : ∀ e, (f e).standing = e.standing) :
    (s.onEntry slice n f).standing slice n = s.standing slice n :=
  (standing_onEntry (g := id) hi hf).trans Option.map_id_apply

@[simp] theorem standing_setFrame {s : State} {slice : Nat} {n : PageName} {f : FrameState} :
    (s.onEntry slice n (fun e => { e with frameState := f })).standing slice n = (s.standing slice n).map (fun v => { v with frame := f }) := by
  refine standing_onEntry ?_ ?_
  · exact fun _ => rfl
  · exact fun _ => rfl

/-- An operation that leaves the home directory leaves every standing. -/
theorem standing_home {s u : State} {slice : Nat} {n : PageName} (h : u.home = s.home) : u.standing slice n = s.standing slice n :=
  standing_congr (congrArg Home.entries h)

@[simp] theorem entries_tellReplicas {s : State} {slice : Nat} {n : PageName} {f : Nat → TxBody} :
    (s.tellReplicas slice n f).home.entries = s.home.entries :=
  congrArg Home.entries (State.tellReplicas_keeps (home_closed s.home rfl rfl) rfl)

@[simp] theorem entries_onReplica {s : State} {slice : Nat} {n : PageName} {f : Replica → Replica} :
    (s.onReplica slice n f).home.entries = s.home.entries := rfl

/-- What header writes keep, the writes of several headers keep. -/
theorem State.writeHeaders_keeps {P : State → Prop} (hP : Closed 17664 P) {l : List Accumulator} {s : State} (h : P s) :
    P (l.foldl (fun s a => s.writeAccHeader a) s) := keep_foldl (fun _ _ => State.writeAccHeader_keeps hP) h

@[simp] theorem entries_accGen {s : State} {slice g : Nat} {n : PageName} {r : Bool} : (s.accGen slice n r g).home.entries = s.home.entries := by
  have hP : Closed 17664 (fun t => t.home.entries = s.home.entries) := .of_view (fun x => home_closed x rfl rfl) (fun h => h.entries = s.home.entries)
  unfold State.accGen
  cases r with
  | false => rfl
  | true => exact State.writeHeaders_keeps hP rfl

theorem standing_revokeGrants {s : State} {slice : Nat} {n : PageName} : (s.revokeGrants slice n).standing slice n = s.standing slice n :=
  standing_congr entries_revokeGrants

theorem standing_accGen {s : State} {slice g : Nat} {n : PageName} {r : Bool} : (s.accGen slice n r g).standing slice n = s.standing slice n :=
  standing_congr entries_accGen

theorem standing_clearMark {s : State} {slice : Nat} {n : PageName} : s.clearMark.standing slice n = s.standing slice n :=
  standing_home home_clearMark

theorem standing_tellReplicas {s : State} {slice : Nat} {n : PageName} {f : Nat → TxBody} :
    (s.tellReplicas slice n f).standing slice n = s.standing slice n := standing_congr entries_tellReplicas

theorem standing_onReplica {s : State} {slice : Nat} {n : PageName} {f : Replica → Replica} :
    (s.onReplica slice n f).standing slice n = s.standing slice n := rfl

theorem standing_setGen {s : State} {slice g : Nat} {n : PageName} :
    (s.onEntry slice n (fun e => { e with frameGen := g })).standing slice n = s.standing slice n := by
  refine standing_onEntry_same ?_ ?_
  · exact fun _ => rfl
  · exact fun _ => rfl

@[simp] theorem standing_bumpGen {s : State} {slice : Nat} {n : PageName} {r : Bool} : (s.bumpGen slice n r).standing slice n = s.standing slice n := by
  unfold State.bumpGen
  split
  · rfl
  · dsimp only
    split
    · rw [standing_onReplica, standing_tellReplicas, standing_clearMark, standing_revokeGrants, standing_accGen, standing_setGen]
    · rw [standing_clearMark, standing_revokeGrants, standing_accGen, standing_setGen]

@[simp] theorem standing_retireShadow {s : State} {slice : Nat} {n : PageName} : (s.retireShadow slice n).standing slice n = s.standing slice n := by
  unfold State.retireShadow
  split
  · rfl
  · split
    · refine (standing_onEntry_same ?_ ?_).trans (standing_home home_retireUnit)
      · exact fun _ => rfl
      · exact fun _ => rfl
    · rfl

@[simp] theorem standing_writeSlots {s : State} {slice c : Nat} {n : PageName} {code : Code} :
    (s.writeSlots slice n c code).standing slice n = s.standing slice n := rfl

@[simp] theorem standing_forgetLook {s : State} {slice : Nat} {n : PageName} : (s.forgetLook slice n).standing slice n = s.standing slice n := rfl

@[simp] theorem standing_dropCmds {s : State} {d slice : Nat} {n : PageName} : (s.dropCmds d slice n).standing slice n = s.standing slice n := rfl

@[simp] theorem standing_retireExtent {s : State} {q d g k slice : Nat} {n : PageName} :
    (s.retireExtent q d g k).standing slice n = s.standing slice n :=
  standing_home (State.retireExtent_keeps (home_closed s.home rfl rfl) rfl)

@[simp] theorem standing_freeUnit {s : State} {f : Nat × Nat} {slice : Nat} {n : PageName} : (s.freeUnit f).standing slice n = s.standing slice n :=
  standing_home (State.freeUnit_keeps (home_closed s.home rfl rfl) rfl)

@[simp] theorem standing_freeExtent {s : State} {d g k slice : Nat} {n : PageName} : (s.freeExtent d g k).standing slice n = s.standing slice n :=
  standing_home (State.freeExtent_keeps (home_closed s.home rfl rfl) rfl)

theorem standing_fills {s : State} {slice : Nat} {n : PageName} {f : List Fill → List Fill} :
    (s.onHome (fun h => { h with fills := f h.fills })).standing slice n = s.standing slice n := rfl

theorem standing_applyRestart {s : State} {slice : Nat} {n : PageName} :
    (s.applyRestart slice n).standing slice n = (s.standing slice n).map Standing.restarted := by
  unfold State.applyRestart
  split
  · rename_i he
    simp [State.standing, he]
  · rename_i e he
    have hs : s.standing slice n = some e.standing := congrArg (Option.map Entry.standing) he
    split
    · rename_i hst
      rw [hs]
      have hf : ¬e.stale = true := by simpa using hst
      exact congrArg some (if_neg hf).symm
    · rename_i hst
      have hf : e.stale = true := by simpa using hst
      extract_lets s1 s2 s3 s4 s5
      have h1 : s1.standing slice n = s.standing slice n := by
        unfold s1
        split
        · exact standing_freeUnit
        · rfl
      have h2 : s2.standing slice n = s.standing slice n := by
        unfold s2
        split
        · exact (standing_retireShadow.trans standing_freeExtent).trans h1
        · exact h1
      have h3 : s3.standing slice n = s.standing slice n := by
        unfold s3
        split
        · exact standing_freeUnit.trans h2
        · exact h2
      have h4 : s4.standing slice n = s.standing slice n := by
        unfold s4
        split
        · exact h3
        · exact h3
      have h5 : s5.standing slice n = (s.standing slice n).map Standing.restarted := by
        unfold s5
        refine (standing_onEntry (g := Standing.afresh) ?_ ?_).trans ?_
        · exact fun _ => rfl
        · exact fun d => rfl
        · rw [h4, hs]
          exact congrArg some (if_pos hf).symm
      split
      · exact standing_bumpGen.trans h5
      · exact h5

theorem standing_applyFences {s : State} {slice : Nat} {n : PageName} : (s.applyFences slice n).standing slice n =
    (s.standing slice n).map (fun v => if s.stackFenced v.stack then v.fenced else v) := by
  unfold State.applyFences
  split
  · rename_i he
    simp [State.standing, he]
  · rename_i e he
    have hs : s.standing slice n = some e.standing := congrArg (Option.map Entry.standing) he
    dsimp only
    generalize hu : s.onEntry slice n _ = u
    have h : u.standing slice n = some e.standing := by
      subst hu
      refine (standing_onEntry_same ?_ ?_).trans hs
      · exact fun _ => rfl
      · exact fun _ => rfl
    have hf : u.stackFenced = s.stackFenced := by
      subst hu
      unfold State.stackFenced
      rw [State.onEntry_keeps (ras_closed s.ras rfl rfl) rfl]
    rw [hf, hs]
    split
    · rename_i hst
      refine Eq.trans ?_ (congrArg some (if_pos hst).symm)
      unfold Standing.fenced
      split <;> simp [*, Entry.standing, standing_fills]
    · rename_i hst
      exact h.trans (congrArg some (if_neg hst).symm)

theorem standing_applyDrive {s : State} {slice : Nat} {n : PageName} : (s.applyDrive slice n).standing slice n =
    (s.standing slice n).map (fun v => if v.frame.onFlash && s.driveFailedB v.drive then v.undriven else v) := by
  unfold State.applyDrive
  split
  · rename_i he
    simp [State.standing, he]
  · rename_i e he
    have hs : s.standing slice n = some e.standing := congrArg (Option.map Entry.standing) he
    rw [hs]
    split
    · rename_i hf
      refine Eq.trans ?_ (congrArg some (if_pos hf).symm)
      unfold Standing.undriven
      split <;> simp [*, Entry.standing]
    · rename_i hf
      exact hs.trans (congrArg some (if_neg hf).symm)

theorem driveFailedB_eq {s : State} : s.driveFailedB = fun d =>
     ((s.mem.drives.get? d).map Drive.standing).all fun x => x.1 || !x.2 := by
  funext d
  unfold State.driveFailedB
  cases s.mem.drives.get? d <;> rfl

/-- A drive is failed as before. -/
theorem mild_driveFailed {b : Nat → Bool} : Mild (fun t => t.driveFailedB = b) := by
  simp only [driveFailedB_eq]
  refine Mild.of_mem (Q := fun m => (fun d => ((m.drives.get? d).map Drive.standing).all fun x => x.1 || !x.2) = b) (fun m m' c h => ?_)
  exact (funext fun d => by rw [c d]).trans h

/-- How a page's entry stands once it has been looked at. -/
theorem standing_refresh {s : State} {slice : Nat} {n : PageName} :
    (s.refresh slice n).standing slice n = (s.standing slice n).map (Standing.seen s.stackFenced s.driveFailedB) := by
  have hfence : (s.applyRestart slice n).stackFenced = s.stackFenced := by
    unfold State.stackFenced
    rw [State.applyRestart_keeps (ras_closed s.ras rfl rfl) rfl]
  have hdrive : ((s.applyRestart slice n).applyFences slice n).driveFailedB = s.driveFailedB :=
    State.applyFences_mild mild_driveFailed (State.applyRestart_mild mild_driveFailed rfl)
  unfold State.refresh
  rw [standing_applyDrive, standing_applyFences, standing_applyRestart, hfence, hdrive, Option.map_map, Option.map_map]
  rfl

/-- A page that stands so resolves to a frame. -/
def Standing.resolves (v : Standing) : Bool :=
  v.page ≠ .unpublished && v.page ≠ .writeOpenNew && v.page ≠ .tornNew &&
    (v.frame = .stack || v.frame = .stackClean || v.frame = .demoting)

theorem resolve_frame_iff {s : State} {slice : Nat} {n : PageName} :
    (∃ e, (s.resolve slice n).1 = .frame e) ↔ ∃ v, (s.refresh slice n).standing slice n = some v ∧ v.resolves = true := by
  unfold State.resolve State.standing
  dsimp only
  cases (s.refresh slice n).entry slice n with
  | none => simp
  | some e =>
    simp only [Option.map_some, Option.some.injEq, exists_eq_left']
    unfold Standing.resolves Entry.standing
    dsimp only
    split
    · simp [*]
    · simp [*]
    · simp [*]
    · split
      · simp [*]
      · simp [*]
      · simp [*]
      · split <;> simp [*]
      · simp [*]
      · cases hf : e.frameState <;> simp_all

/-- States that agree on entries, fences and drives resolve the same pages to frames. -/
theorem resolve_congr {s u : State} {slice : Nat} {n : PageName} (hh : u.home = s.home) (hr : u.ras = s.ras) (hm : u.mem = s.mem)
    (h : ∃ e, (s.resolve slice n).1 = .frame e) : ∃ e, (u.resolve slice n).1 = .frame e := by
  rw [resolve_frame_iff, standing_refresh] at h ⊢
  have hf : u.stackFenced = s.stackFenced := by
    unfold State.stackFenced
    rw [hr]
  have hd : u.driveFailedB = s.driveFailedB := by
    unfold State.driveFailedB
    rw [hm]
  rwa [standing_home hh, hf, hd]

end Sys2Proof.Machine
end

section
/-! SUPPORT. How tile groups reach cells (R21, R22, R25 to R27, R315, R349): the block after a change of one of its cells, the group that
goes on, the placement of one ready group, and what a product and a retry leave. -/

namespace Sys2Proof.Machine

/-! ## A cell of a block -/

section cell
variable {s : State} {b p : Nat}

theorem block_onCell_same {f : CellS → CellS} (hb : b < s.eng.blocks.length) :
    (s.onCell b p f).block b = { s.block b with cells := (s.block b).cells.modify p f } := block_onBlock_same hb

theorem retries_onCell {f : CellS → CellS} {c : Nat} : ((s.onCell b p f).block c).retries = (s.block c).retries :=
  getD_modify_eq (g := BlockS.retries) fun _ => rfl

theorem faulted_onCell {f : CellS → CellS} {c : Nat} : ((s.onCell b p f).block c).faulted = (s.block c).faulted :=
  getD_modify_eq (g := BlockS.faulted) fun _ => rfl

theorem length_onCell {f : CellS → CellS} : (s.onCell b p f).eng.blocks.length = s.eng.blocks.length := length_onBlock

theorem cells_onCell {f : CellS → CellS} (hb : b < s.eng.blocks.length) :
    ((s.onCell b p f).block b).cells.length = (s.block b).cells.length := by
  rw [block_onCell_same hb]
  exact List.length_modify ..

theorem cell_modify_same {x : BlockS} {f : CellS → CellS} (hp : p < x.cells.length) :
    BlockS.cell { x with cells := x.cells.modify p f } p = f (x.cell p) := by
  simp [BlockS.cell, List.getD_eq_getElem?_getD, List.getElem?_modify_eq, List.getElem?_eq_getElem hp]

theorem cell_onCell_same {f : CellS → CellS} (hb : b < s.eng.blocks.length) (hp : p < (s.block b).cells.length) :
    ((s.onCell b p f).block b).cell p = f ((s.block b).cell p) := by
  rw [block_onCell_same hb, cell_modify_same hp]

/-- A cell that asks for its operands says so; the arbiters alone see more of it. -/
theorem block_askOperands {c : Nat} : (s.askOperands b p).block c = (s.onCell b p (fun x => { x with need := true })).block c := by
  unfold State.askOperands
  split
  · rfl
  · rfl

theorem cell_askOperands (hb : b < s.eng.blocks.length) (hp : p < (s.block b).cells.length) :
    ((s.askOperands b p).block b).cell p = { (s.block b).cell p with need := true } := by
  rw [block_askOperands, cell_onCell_same hb hp]

theorem ras_askOperands : (s.askOperands b p).ras = s.ras := State.askOperands_keeps (ras_closed s.ras rfl rfl) rfl

end cell

/-! ## A group that goes on -/

/-- The accumulator once the page of its next tile is in hand. -/
def Accum.atPage (n : PageName) (src : PageSrc) (a : Accum) : Accum :=
  if a.src.any (fun x => x.1 = n) then a
  else { a with src := some (n, src), mark := (a.rows, a.at_), pages := a.pages ++ (a.src.map Prod.fst).toList }

theorem atPage_keeps {n : PageName} {src : PageSrc} {a : Accum} :
    (a.atPage n src).tg = a.tg ∧ (a.atPage n src).at_ = a.at_ ∧ (a.atPage n src).rows = a.rows := by
  unfold Accum.atPage
  split
  · exact ⟨rfl, rfl, rfl⟩
  · exact ⟨rfl, rfl, rfl⟩

theorem atPage_same {n : PageName} {src : PageSrc} {a : Accum} {x : PageName × PageSrc} (h : a.src = some x) (hn : x.1 = n) : a.atPage n src = a :=
  if_pos (by simp [h, hn])

section goOn
variable {s : State} {b p : Nat} {a : Accum} {t : TileStep} (hl : ((s.block b).cell p).live = some a) (ht : a.step = some t)
include hl ht

/-- A group whose next tile is staged asks for its operands. -/
theorem goOn_staged (hs : t.staged.isSome = true) : s.goOn b p = s.askOperands b p := by
  unfold State.goOn
  rw [hl]
  dsimp only
  unfold State.nextTile
  rw [hl]
  dsimp only
  rw [ht]
  exact if_pos hs

/-- A group whose next tile's page is in hand takes it and asks for its operands. -/
theorem goOn_ready {src : PageSrc} (hs : t.staged.isSome = false) (hp : s.pageStand a t.page = .ready src) :
    s.goOn b p = (s.onCell b p (fun c => { c with live := some (a.atPage t.page src) })).askOperands b p := by
  unfold State.goOn
  rw [hl]
  dsimp only
  unfold State.nextTile
  rw [hl]
  dsimp only
  rw [ht]
  dsimp only
  rw [hs, if_neg Bool.false_ne_true, hp]
  rfl

end goOn

/-- The page that a group works on is in hand. -/
theorem pageStand_same {s : State} {a : Accum} {src : PageName × PageSrc} (ha : a.src = some src) : s.pageStand a src.1 = .ready src.2 := by
  unfold State.pageStand
  rw [ha]
  exact if_pos rfl

/-- A group that goes on with the page in hand asks for its operands, and its cell is else as it was. -/
theorem cell_goOn_samePage {s : State} {b p : Nat} {a : Accum} {t : TileStep} {src : PageName × PageSrc} (hb : b < s.eng.blocks.length)
    (hp : p < (s.block b).cells.length) (hl : ((s.block b).cell p).live = some a) (ht : a.step = some t) (ha : a.src = some src)
    (hs : t.staged.isSome = false) (hn : t.page = src.1) : ((s.goOn b p).block b).cell p = { (s.block b).cell p with need := true } := by
  rw [goOn_ready hl ht hs (hn ▸ pageStand_same ha), cell_askOperands (by rwa [length_onCell]) (by rwa [cells_onCell hb]), cell_onCell_same hb hp,
    atPage_same ha hn.symm, ← hl]

/-- A page that resolves to a frame is ready for a group with no page in hand. -/
theorem pageStand_frame {s : State} {a : Accum} {n : PageName} (ha : a.src = none) (h : ∃ e, (s.resolve a.tg.slice n).1 = .frame e) :
    ∃ src, s.pageStand a n = .ready src := by
  obtain ⟨e, he⟩ := h
  unfold State.pageStand
  rw [ha]
  dsimp only
  rw [he]
  exact ⟨_, rfl⟩

/-- A group that can go on keeps group, rows and place, and the rest of its block. -/
theorem goOn_runs {s : State} {b p : Nat} {a : Accum} {t : TileStep} (hb : b < s.eng.blocks.length) (hp : p < (s.block b).cells.length)
    (hl : ((s.block b).cell p).live = some a) (ht : a.step = some t)
    (hr : t.staged.isSome = true ∨ ∃ src, s.pageStand a t.page = .ready src) :
    ((s.goOn b p).block b).ready = (s.block b).ready ∧ ∃ x, (((s.goOn b p).block b).cell p).live = some x ∧ x.tg = a.tg ∧ x.at_ = a.at_ ∧
      x.rows = a.rows := by
  by_cases hs : t.staged.isSome = true
  · rw [goOn_staged hl ht hs, block_askOperands]
    refine ⟨by rw [block_onCell_same hb], a, ?_, rfl, rfl, rfl⟩
    rw [cell_onCell_same hb hp]
    exact hl
  · obtain ⟨src, hsrc⟩ := hr.resolve_left hs
    rw [goOn_ready hl ht (Bool.eq_false_iff.mpr hs) hsrc, block_askOperands]
    have hb' : b < (s.onCell b p (fun c => { c with live := some (a.atPage t.page src) })).eng.blocks.length := by rwa [length_onCell]
    have hp' : p < ((s.onCell b p (fun c => { c with live := some (a.atPage t.page src) })).block b).cells.length := by rwa [cells_onCell hb]
    refine ⟨by rw [block_onCell_same hb', block_onCell_same hb], a.atPage t.page src, ?_, atPage_keeps⟩
    rw [cell_onCell_same hb' hp', cell_onCell_same hb hp]

/-! ## The placement of a ready group -/

/-- A cell whose live group changes, before the group goes on. -/
def State.putOn (b p : Nat) (a : Accum) (s : State) : State :=
  match ((s.block b).cell p).live with
  | none => s.setLive b p a ((s.block b).cell p).shadow
  | some o => ((s.setLive b p a (some o)).suspendOp o.tg.op true).onSch
      (fun x => { x with exchanges := inc32 x.exchanges, preemptions := inc32 x.preemptions })

theorem putLive_eq {s : State} {b p : Nat} {a : Accum} : s.putLive b p a = (s.putOn b p a).goOn b p := by
  unfold State.putLive State.putOn
  dsimp only
  cases ((s.block b).cell p).live with
  | none => rfl
  | some o => rfl

theorem eng_suspendOp {s : State} {op : Option Nat} {y : Bool} : (s.suspendOp op y).eng = s.eng :=
  State.suspendOp_keeps (eng_closed s.eng rfl rfl) rfl

/-- The group that is put on a cell is live there, and the rest of the block is as it was. -/
theorem block_putOn {s : State} {b p : Nat} {a : Accum} (hb : b < s.eng.blocks.length) : ∃ sh, (s.putOn b p a).eng.blocks.length = s.eng.blocks.length ∧
    (s.putOn b p a).block b = { s.block b with cells := (s.block b).cells.modify p (fun c => { c with live := some a, shadow := sh, vec := [] }) } := by
  unfold State.putOn State.setLive
  split
  · refine ⟨((s.block b).cell p).shadow, ?_, ?_⟩
    · rw [eng_suspendOp, length_onCell]
    · unfold State.block
      rw [eng_suspendOp]
      exact block_onCell_same hb
  · rename_i o _
    refine ⟨some o, ?_, ?_⟩
    · change (State.suspendOp _ _ _).eng.blocks.length = _
      rw [eng_suspendOp, eng_suspendOp, length_onCell]
    · unfold State.block State.onSch
      dsimp only
      rw [eng_suspendOp, eng_suspendOp]
      exact block_onCell_same hb

/-- Entries, fences and drives are as before. -/
theorem putOn_keeps {s : State} {b p : Nat} {a : Accum} : (s.putOn b p a).home = s.home ∧ (s.putOn b p a).ras = s.ras ∧ (s.putOn b p a).mem = s.mem := by
  have keep {P : State → Prop} (hP : Closed 786672 P) (h : P s) : P (s.putOn b p a) := by
    unfold State.putOn
    split
    · exact State.setLive_keeps (hP.mono rfl) h
    · exact hP.sch rfl _ _ (State.suspendOp_keeps (hP.mono rfl) (State.setLive_keeps (hP.mono rfl) h))
  exact ⟨keep (home_closed s.home rfl rfl) rfl, keep (ras_closed s.ras rfl rfl) rfl, keep (mem_closed s.mem rfl rfl rfl) rfl⟩

/-- A fresh group whose first tile's operands can be had is live on the cell that takes it. -/
theorem putLive_fresh {s : State} {b p : Nat} {g : TileGroup} {t : TileStep} (hb : b < s.eng.blocks.length) (hp : p < (s.block b).cells.length)
    (ht : g.tiles[0]? = some t) (hr : t.staged.isSome = true ∨ ∃ e, (s.resolve g.slice t.page).1 = .frame e) :
    ((s.putLive b p (freshAccum g)).block b).ready = (s.block b).ready ∧
    ∃ x, (((s.putLive b p (freshAccum g)).block b).cell p).live = some x ∧ x.tg = g ∧ x.at_ = 0 ∧
      x.rows = List.replicate g.rows (.empty g.cols) := by
  obtain ⟨sh, hlen, hblock⟩ := block_putOn (p := p) (a := freshAccum g) hb
  obtain ⟨hh, hras, hm⟩ := putOn_keeps (s := s) (b := b) (p := p) (a := freshAccum g)
  have hrun := goOn_runs (s := s.putOn b p (freshAccum g)) (b := b) (p := p) (a := freshAccum g) (t := t) (by rwa [hlen])
    (by rw [hblock]; simpa using hp) (by rw [hblock, cell_modify_same hp]) ht
    (hr.imp_right fun h => pageStand_frame rfl (resolve_congr hh hras hm h))
  rw [← putLive_eq, hblock] at hrun
  exact hrun

/-- A block where nothing is ready places nothing. -/
theorem placeOne_none {s : State} {b : Nat} (h : (s.block b).ready = []) : s.placeOne b = s := by
  unfold State.placeOne State.nextReady
  rw [h]
  split
  · rfl
  · rfl

/-- A stopped block places nothing. -/
theorem placeOne_stopped {s : State} {b : Nat} (h : s.blockUp b = false) : s.placeOne b = s := by
  unfold State.placeOne
  rw [h]
  rfl

/-- A block without a free working cell places nothing. -/
theorem placeOne_full {s : State} {b : Nat} (h : ∀ x ∈ s.workingPos b, ∀ cls, s.cellFree b x.2 cls = false) : s.placeOne b = s := by
  unfold State.placeOne
  split
  · rfl
  · split
    · rfl
    · rename_i g _
      rw [List.find?_eq_none.mpr fun x hx => by rw [h x hx]; exact Bool.false_ne_true]

/-- The one ready group goes to the first free working cell. -/
theorem placeOne_single {s : State} {b : Nat} {g : TileGroup} {x : Nat × Nat} (hu : s.blockUp b = true) (hg : (s.block b).ready = [g])
    (hx : (s.workingPos b).find? (fun x => s.cellFree b x.2 g.cls) = some x) :
    s.placeOne b = (s.onBlock b (fun y => { y with ready := y.ready.erase g })).putLive b x.2 (freshAccum g) := by
  have hn : s.nextReady b = some g := by
    unfold State.nextReady
    rw [hg]
    rfl
  unfold State.placeOne
  rw [hu, hn]
  dsimp only
  rw [hx]
  rfl

/-- What one placement leaves, when a second changes nothing. -/
theorem placeReady_once {s : State} {b : Nat} (h : (s.placeOne b).placeOne b = s.placeOne b) : s.placeReady b = s.placeOne b := by
  unfold State.placeReady
  rw [List.range_succ_eq_map, List.foldl_cons]
  exact List.foldl_fixed' (fun _ => h) _

/-! ## A group and its parts -/

/-- A tile of the first 32 rows and 256 columns. -/
def cornerTile (x : TileStep) : TileStep :=
  { x with
    keySet := (x.keySet.drop (32 * 0)).take 32
    staged := x.staged.map (fun w => ((w.1.drop (32 * 0)).take 32, w.2.map (fun r => (r.drop (256 * 0)).take 256))) }

/-- The part of a group that holds its first 32 rows, 256 columns and 256 tiles. -/
def cornerGroup (t : TileGroup) : TileGroup :=
  { t with
    part := (0 * 1 + 0) * 1 + 0
    chain := 0 * 1 + 0
    rows := min 32 (t.rows - 32 * 0)
    members := (t.members.drop (32 * 0)).take 32
    query := (t.query.drop (32 * 0)).take 32
    cols := min 256 (t.cols - 256 * 0)
    col0 := t.col0 + 256 * 0
    tiles := ((t.tiles.drop (256 * 0)).take 256).map cornerTile }

/-- A group of at most 32 rows, 256 columns and 256 tiles is one part. -/
theorem splitGroup_single {t : TileGroup} (hr : 1 ≤ t.rows) (hr' : t.rows ≤ 32) (hc : 1 ≤ t.cols) (hc' : t.cols ≤ 256) (hl : t.tiles.length ≤ 256) : splitGroup t = [cornerGroup t] := by
  have h1 : cdiv t.rows 32 = 1 := by unfold cdiv; omega
  have h2 : cdiv t.cols 256 = 1 := by unfold cdiv; omega
  have h3 : max 1 (cdiv t.tiles.length 256) = 1 := by unfold cdiv; omega
  unfold splitGroup
  rw [h1, h2, h3]
  rfl

theorem corner_rows {t : TileGroup} (h : t.rows ≤ 32) : (cornerGroup t).rows = t.rows := by
  unfold cornerGroup
  dsimp only
  omega

theorem corner_cols {t : TileGroup} (h : t.cols ≤ 256) : (cornerGroup t).cols = t.cols := by
  unfold cornerGroup
  dsimp only
  omega

theorem corner_tiles {t : TileGroup} {t0 : TileStep} {ts : List TileStep} (h : t.tiles = t0 :: ts) : (cornerGroup t).tiles[0]? = some (cornerTile t0) := by
  simp [cornerGroup, h]

theorem corner_staged {t : TileStep} : (cornerTile t).staged.isSome = t.staged.isSome := by simp [cornerTile]

/-! ## The placement of a tile group -/

/-- A tile group's parts have joined the ready groups of a block. -/
def State.queueParts (b : Nat) (t : TileGroup) (s : State) : State :=
  s.bump.onBlock b (fun x => { x with
    ready := x.ready ++ splitGroup { t with seed := s.free }
    vector := x.vector.filter (fun v => v.1.id ≠ t.id) })

section place
variable {s : State} {b : Nat} {t : TileGroup}

theorem placeTile_eq (h : (s.blocksOf t.slice).contains b = true) : s.placeTile b t = (s.queueParts b t).placeReady b := if_pos h

theorem placeTile_elsewhere (h : (s.blocksOf t.slice).contains b = false) : s.placeTile b t = s :=
  if_neg (by rw [h]; exact Bool.false_ne_true)

variable (hb : b < s.eng.blocks.length)
include hb

theorem block_queueParts : (s.queueParts b t).block b = { s.block b with
    ready := (s.block b).ready ++ splitGroup { t with seed := s.free }
    vector := (s.block b).vector.filter (fun v => v.1.id ≠ t.id) } := block_onBlock_same (s := s.bump) hb

/-- Ready groups change neither which positions work nor which cells are free. -/
theorem workingPos_queueParts : (s.queueParts b t).workingPos b = s.workingPos b := by
  unfold State.workingPos State.working
  rw [block_queueParts hb]
  rfl

theorem cellFree_queueParts {p cls : Nat} : (s.queueParts b t).cellFree b p cls = s.cellFree b p cls := by
  unfold State.cellFree
  rw [block_queueParts hb]
  rfl

/-- A block that is stopped, or has no free working cell, holds the parts that come. -/
theorem placeTile_held (hc : (s.blocksOf t.slice).contains b = true)
    (h : s.blockUp b = false ∨ ∀ x ∈ s.workingPos b, ∀ cls, s.cellFree b x.2 cls = false) : s.placeTile b t = s.queueParts b t := by
  have hone : (s.queueParts b t).placeOne b = s.queueParts b t := by
    rcases h with h | h
    · exact placeOne_stopped h
    · refine placeOne_full fun x hx cls => ?_
      rw [workingPos_queueParts hb] at hx
      rw [cellFree_queueParts hb]
      exact h x hx cls
  rw [placeTile_eq hc, placeReady_once (by rw [hone, hone]), hone]

/-- A single part that comes to an empty queue, and whose first tile's operands can be had, goes live on the first free working cell. -/
theorem placeTile_live {x : Nat × Nat} (hc : (s.blocksOf t.slice).contains b = true) (hu : s.blockUp b = true)
    (hq : (s.block b).ready = []) {g : TileGroup} (hg : splitGroup { t with seed := s.free } = [g]) (hcls : g.cls = t.cls) {u : TileStep}
    (ht : g.tiles[0]? = some u) (hr : u.staged.isSome = true ∨ ∃ e, (s.resolve g.slice u.page).1 = .frame e)
    (hx : (s.workingPos b).find? (fun x => s.cellFree b x.2 t.cls) = some x) (hp : x.2 < (s.block b).cells.length) :
    ((s.placeTile b t).block b).ready = [] ∧ ∃ a, (((s.placeTile b t).block b).cell x.2).live = some a ∧ a.tg = g ∧ a.at_ = 0 ∧
      a.rows = List.replicate g.rows (.empty g.cols) := by
  have hblock := block_queueParts (t := t) hb
  have hlen : b < (s.queueParts b t).eng.blocks.length := by rwa [State.queueParts, length_onBlock]
  have hone : (s.queueParts b t).placeOne b =
      ((s.queueParts b t).onBlock b (fun y => { y with ready := y.ready.erase g })).putLive b x.2 (freshAccum g) := by
    refine placeOne_single hu ?_ ?_
    · rw [hblock, hq, hg]
      rfl
    · rw [workingPos_queueParts hb, hcls, ← hx]
      exact congrArg (fun f => List.find? f _) (funext fun _ => cellFree_queueParts hb)
  have hnext : ((s.queueParts b t).onBlock b (fun y => { y with ready := y.ready.erase g })).block b =
      { (s.queueParts b t).block b with ready := [] } := by
    rw [block_onBlock_same hlen, hblock, hq, hg]
    simp
  have hlive := putLive_fresh (s := (s.queueParts b t).onBlock b (fun y => { y with ready := y.ready.erase g })) (p := x.2) (g := g)
    (by rwa [length_onBlock]) (by rw [hnext, hblock]; exact hp) ht (hr.imp_right fun h => resolve_congr (s := s) rfl rfl rfl h)
  rw [← hone, hnext] at hlive
  rw [placeTile_eq hc, placeReady_once (placeOne_none hlive.1)]
  exact hlive

end place

/-! ## Tile products -/

/-- The retry that waits after a failed product. -/
def failedTile (slot d : Nat) (a : Accum) (t : TileStep) (score : Bool) : Retry :=
  { id := a.tg.id, part := a.tg.part, slice := a.tg.slice, cls := a.tg.cls, failedSlot := slot, detector := d, work := workClass a t score,
    addr := match a.src with
      | some src => (tileAddrs src.2 a.tg.head t.tile (!score)).headD 0
      | none => 0 }

section product
variable {s : State} {b slot p : Nat} {a : Accum} {t : TileStep} {x : ArrayFault} (hs : (s.block b).slots.getD slot none = some p)
  (hn : ((s.block b).cell p).need = false) (hl : ((s.block b).cell p).live = some a) (hf : a.faulty = false) (ht : a.step = some t)
include hs hn hl hf ht

/-- A product that fails its check marks the group faulty and waits for its retry. -/
theorem tileDone_error {d : Nat}
    (hd : s.runProduct a t ((s.block b).cell p).vec.isEmpty ((s.block b).cell p).bufA ((s.block b).cell p).bufB x = .error d) :
    s.tileDone b slot x = (s.onCell b p (fun c => { c with live := some { a with faulty := true } })).onBlock b (fun y => { y with
      retries := y.retries ++ [failedTile slot d a t ((s.block b).cell p).vec.isEmpty] }) := by
  unfold State.tileDone
  rw [hs]
  dsimp only
  have hport : s.portFirst b p = s := by
    unfold State.portFirst
    rw [hn]
    rfl
  rw [hport, hl]
  dsimp only
  rw [ht]
  dsimp only
  rw [hf, if_neg Bool.false_ne_true, hd]
  rfl

/-- A product that passes its checks is taken, and the cell offered where its group has ended. -/
theorem tileDone_ok {m : List (List Nat)}
    (hm : s.runProduct a t ((s.block b).cell p).vec.isEmpty ((s.block b).cell p).bufA ((s.block b).cell p).bufB x = .ok m) :
    s.tileDone b slot x = ((s.onBlock b (fun y => { y with vectorNext := (slot + 1) % 4 })).takeProduct b p a t m).offer b p := by
  unfold State.tileDone
  rw [hs]
  dsimp only
  have hport : s.portFirst b p = s := by
    unfold State.portFirst
    rw [hn]
    rfl
  rw [hport, hl]
  dsimp only
  rw [ht]
  dsimp only
  rw [hf, if_neg Bool.false_ne_true, hm]

end product

/-- A cell with a live group is not offered. -/
theorem offer_live {s : State} {b p : Nat} {a : Accum} (h : ((s.block b).cell p).live = some a) : s.offer b p = s := by
  unfold State.offer
  rw [h]
  rfl

/-- The accumulator after an output product that ends a tile. -/
def Accum.afterTile (vec : List Triple) (m : List (List Nat)) (a : Accum) : Accum :=
  { a with rows := (vec.zipIdx).map (fun r => outputRow (m.getD r.2 []) r.1), at_ := a.at_ + 1, faulty := false }

section taken
variable {s : State} {b p : Nat} {a : Accum} {t : TileStep} {m : List (List Nat)} {src : PageName × PageSrc} (ht : t.staged = none)
  (ha : a.src = some src) (hb : b < s.eng.blocks.length) (hp : p < (s.block b).cells.length)
include ht ha hb hp

/-- A score product leaves its rows in the vector unit, and the cell asks for the values. -/
theorem takeProduct_score (hv : ((s.block b).cell p).vec = []) :
    (((s.takeProduct b p a t m).block b).cell p).live = some { a with faulty := false } ∧
    (((s.takeProduct b p a t m).block b).cell p).vec = (s.scoreRows a t src.2 m).map Prod.fst ∧
    (((s.takeProduct b p a t m).block b).cell p).need = true := by
  unfold State.takeProduct
  rw [ht, ha]
  dsimp only
  rw [hv, if_pos (by rfl), cell_askOperands (by rwa [length_onCell]) (by rwa [cells_onCell hb]), cell_onCell_same hb hp]
  exact ⟨rfl, rfl, rfl⟩

omit hb hp in
theorem takeProduct_output_eq (hv : ((s.block b).cell p).vec ≠ []) : s.takeProduct b p a t m =
    (s.onCell b p (fun x => { x with vec := [], live := some (a.afterTile ((s.block b).cell p).vec m) })).goOn b p := by
  unfold State.takeProduct Accum.afterTile
  rw [ht, ha]
  dsimp only
  rw [if_neg (by simpa using hv)]

/-- An output product with a further tile of the page in hand leaves the updated rows and the next tile. -/
theorem takeProduct_output {t1 : TileStep} (hv : ((s.block b).cell p).vec ≠ []) (h1 : a.tg.tiles[a.at_ + 1]? = some t1) (hs : t1.staged = none)
    (hpage : t1.page = src.1) :
    (((s.takeProduct b p a t m).block b).cell p).live = some (a.afterTile ((s.block b).cell p).vec m) ∧
    (((s.takeProduct b p a t m).block b).cell p).vec = [] := by
  have hcell := cell_onCell_same (f := fun x => { x with vec := [], live := some (a.afterTile ((s.block b).cell p).vec m) }) hb hp
  rw [takeProduct_output_eq ht ha hv, cell_goOn_samePage (src := src) (by rwa [length_onCell]) (by rwa [cells_onCell hb])
    (congrArg CellS.live hcell) h1 ha (by rw [hs]; rfl) hpage, hcell]
  exact ⟨rfl, rfl⟩

end taken

section does
variable {s : State} {b slot p : Nat} {a : Accum} {t : TileStep} {x : ArrayFault} (hb : b < s.eng.blocks.length)
  (hp : p < (s.block b).cells.length)
include hb hp

theorem tileDone_error_does {d : Nat} (hs : (s.block b).slots.getD slot none = some p) (hn : ((s.block b).cell p).need = false)
    (hl : ((s.block b).cell p).live = some a) (hf : a.faulty = false) (ht : a.step = some t)
    (hd : s.runProduct a t ((s.block b).cell p).vec.isEmpty ((s.block b).cell p).bufA ((s.block b).cell p).bufB x = .error d) :
    (((s.tileDone b slot x).block b).cell p).live = some { a with faulty := true } ∧ (s.tileDone b slot x).ras = s.ras ∧
    ∃ r : Retry, ((s.tileDone b slot x).block b).retries = (s.block b).retries ++ [r] ∧ r.id = a.tg.id ∧ r.part = a.tg.part ∧
      r.failedSlot = slot ∧ r.detector = d ∧ r.reread = false := by
  rw [tileDone_error hs hn hl hf ht hd, block_onBlock_same (by rwa [length_onCell])]
  refine ⟨?_, rfl, _, congrArg (· ++ [_]) retries_onCell, rfl, rfl, rfl, rfl, rfl⟩
  exact congrArg CellS.live (cell_onCell_same (f := fun c => { c with live := some { a with faulty := true } }) hb hp)

variable {m : List (List Nat)} {src : PageName × PageSrc} {k : Nat} (ht : t.staged = none) (ha : a.src = some src)
include ht ha

/-- A score product that is taken in a block, whose vector unit turns to its next slot. -/
theorem tileDone_score (hv : ((s.block b).cell p).vec = []) :
    let u := ((s.onBlock b (fun y => { y with vectorNext := k })).takeProduct b p a t m).offer b p
    ((u.block b).cell p).live = some { a with faulty := false } ∧ ((u.block b).cell p).vec = (s.scoreRows a t src.2 m).map Prod.fst ∧
    ((u.block b).cell p).need = true ∧ u.ras = s.ras := by
  have hblock := block_onBlock_same (f := fun y => { y with vectorNext := k }) hb
  obtain ⟨hl, hvec, hneed⟩ := takeProduct_score (s := s.onBlock b (fun y => { y with vectorNext := k })) (m := m) ht ha (by rwa [length_onBlock])
    (by rw [hblock]; exact hp) (by rw [hblock]; exact hv)
  dsimp only
  rw [offer_live hl]
  exact ⟨hl, hvec, hneed, State.takeProduct_keeps (ras_closed s.ras rfl rfl) rfl⟩

/-- An output product that is taken in a block, whose vector unit turns to its next slot. -/
theorem tileDone_output {t1 : TileStep} (hv : ((s.block b).cell p).vec ≠ []) (h1 : a.tg.tiles[a.at_ + 1]? = some t1) (hs : t1.staged = none)
    (hpage : t1.page = src.1) :
    let u := ((s.onBlock b (fun y => { y with vectorNext := k })).takeProduct b p a t m).offer b p
    ((u.block b).cell p).live = some (a.afterTile ((s.block b).cell p).vec m) ∧ ((u.block b).cell p).vec = [] ∧ u.ras = s.ras := by
  have hblock := block_onBlock_same (f := fun y => { y with vectorNext := k }) hb
  obtain ⟨hl, hvec⟩ := takeProduct_output (s := s.onBlock b (fun y => { y with vectorNext := k })) (m := m) ht ha (by rwa [length_onBlock])
    (by rw [hblock]; exact hp) (by rw [hblock]; exact hv) h1 hs hpage
  rw [hblock] at hl
  dsimp only
  rw [offer_live hl]
  exact ⟨hl, hvec, State.takeProduct_keeps (ras_closed s.ras rfl rfl) rfl⟩

end does

/-! ## Retries -/

/-- A detection against a cell in service sends it to retest. -/
theorem unit_detect_cell {s : State} {n : Fin 128} {d c sl x : Nat} (h : (s.unit (unitKey (.cell n))).state = .inService) :
    ((s.detect (.cell n) d c sl x).unit (unitKey (.cell n))).state = .retest := by
  have lend {t : State} : (t.lendSpare n).unit (unitKey (.cell n)) = t.unit (unitKey (.cell n)) :=
    congrArg (fun r : Ras => r.units.getD (unitKey (.cell n)) {}) (State.lendSpare_keeps (ras_closed t.ras rfl rfl) rfl)
  unfold State.detect State.detectAt
  dsimp only
  rw [h]
  dsimp only
  rw [lend, unit_onUnit]

/-- Operand buffers that are filled leave what their blocks hold for the arbiter. -/
theorem fillCell_queues {s : State} {b p c : Nat} : ((s.fillCell b p).block c).retries = (s.block c).retries ∧
    ((s.fillCell b p).block c).faulted = (s.block c).faulted ∧ (s.fillCell b p).eng.blocks.length = s.eng.blocks.length := by
  have onCell {t : State} {f : CellS → CellS} (h : t.eng.blocks = s.eng.blocks) : ((t.onCell b p f).block c).retries = (s.block c).retries ∧
      ((t.onCell b p f).block c).faulted = (s.block c).faulted ∧ (t.onCell b p f).eng.blocks.length = s.eng.blocks.length := by
    rw [length_onCell, h]
    rw [retries_onCell, faulted_onCell]
    unfold State.block
    rw [h]
    exact ⟨rfl, rfl, rfl⟩
  have touch {t : State} {a : Nat} : (t.touchLine a).eng.blocks = t.eng.blocks := by
    unfold State.touchLine
    split
    · rfl
    · rfl
  have reads {t : State} {l : List Nat} : (t.busReads l).eng = t.eng := State.busReads_keeps (eng_closed t.eng rfl rfl) rfl
  have fetch {l k : List Nat} : ((l.foldl (fun s y => s.touchLine y) s).busReads k).eng.blocks = s.eng.blocks := by
    rw [reads]
    exact keep_foldl (P := fun t => t.eng.blocks = s.eng.blocks) (fun _ _ h => touch.trans h) rfl
  unfold State.fillCell
  dsimp only
  split
  · exact ⟨rfl, rfl, rfl⟩
  · split
    · split
      · exact onCell rfl
      · exact onCell fetch
      · exact ⟨rfl, rfl, rfl⟩
    · exact ⟨rfl, rfl, rfl⟩

section retry
variable {s : State} {b : Nat} {f : ArrayFault} {r : Retry} {rest : List Retry} {y h : Nat × Nat} {a : Accum} {t : TileStep}
  (hq : (s.block b).retries = r :: rest) (hy : s.retryCell b r = some y) (hr : r.reread = false)
  (hh : (s.onBlock b (fun z => { z with retries := rest })).homeOf r.id r.part = some h)
include hq hy hr hh

/-- A tile that passes on its retry is taken; the cell that failed is in doubt where another passed. -/
theorem tileAgain_ok {c : List (List Nat)}
    (hp : ((s.onBlock b (fun z => { z with retries := rest })).fillCell h.1 h.2).retryProduct h f = some (a, t, .ok c)) :
    s.tileAgain b f = (fun u : State => if y.1 ≠ r.failedSlot then u.detect (.cell (Fin.ofNat 128 (cellKey b r.failedSlot))) r.detector r.work r.slice 0
      else u.onRas (fun y => { y with transient := inc32 y.transient }))
      (((((s.onBlock b (fun z => { z with retries := rest })).fillCell h.1 h.2).takeProduct h.1 h.2 a t c).offer h.1 h.2)) := by
  unfold State.tileAgain
  rw [hq]
  dsimp only
  rw [hy]
  dsimp only
  rw [hh]
  dsimp only
  rw [hp]
  dsimp only
  rw [hr, if_neg Bool.false_ne_true]

/-- A tile that fails again in another cell is handed up as an operand fault. -/
theorem tileAgain_error {d : Nat} (hne : y.1 ≠ r.failedSlot)
    (hp : ((s.onBlock b (fun z => { z with retries := rest })).fillCell h.1 h.2).retryProduct h f = some (a, t, .error d)) :
    s.tileAgain b f = ((s.onBlock b (fun z => { z with retries := rest })).fillCell h.1 h.2).onBlock b
      (fun y => { y with faulted := y.faulted ++ [r] }) := by
  unfold State.tileAgain
  rw [hq]
  dsimp only
  rw [hy]
  dsimp only
  rw [hh]
  dsimp only
  rw [hp]
  dsimp only
  rw [hr, if_neg Bool.false_ne_true, if_neg hne]

/-- A retry that passes counts a transient in the same cell, and sends the cell that failed to retest where another passed. -/
theorem tileAgain_counts {c : List (List Nat)}
    (hp : ((s.onBlock b (fun z => { z with retries := rest })).fillCell h.1 h.2).retryProduct h f = some (a, t, .ok c)) :
    (y.1 = r.failedSlot → (s.tileAgain b f).ras.transient = inc32 s.ras.transient) ∧
    (y.1 ≠ r.failedSlot → (s.unit (cellKey b r.failedSlot)).state = .inService → cellKey b r.failedSlot < 128 →
      ((s.tileAgain b f).unit (cellKey b r.failedSlot)).state = .retest) := by
  rw [tileAgain_ok hq hy hr hh hp]
  generalize hu : State.offer _ _ _ = u
  have hras : u.ras = s.ras := by
    subst hu
    exact State.offer_keeps (ras_closed s.ras rfl rfl) (State.takeProduct_keeps (ras_closed s.ras rfl rfl)
      (State.fillCell_keeps (ras_closed s.ras rfl rfl) rfl))
  refine ⟨fun he => ?_, fun hne hin hk => ?_⟩
  · dsimp only
    rw [if_neg (not_not.mpr he)]
    exact congrArg (fun r : Ras => inc32 r.transient) hras
  · dsimp only
    rw [if_pos hne]
    have hs : (u.unit (cellKey b r.failedSlot)).state = .inService := by
      unfold State.unit
      rw [hras]
      exact hin
    rw [← unitKey_cell hk] at hs
    have h := unit_detect_cell (d := r.detector) (c := r.work) (sl := r.slice) (x := 0) hs
    rwa [unitKey_cell hk] at h

end retry

/-- What a failed retry leaves in its block. -/
theorem faulted_does {s : State} {b : Nat} {r : Retry} {rest : List Retry} {h : Nat × Nat} (hb : b < s.eng.blocks.length) :
    let u := ((s.onBlock b (fun z => { z with retries := rest })).fillCell h.1 h.2).onBlock b (fun y => { y with faulted := y.faulted ++ [r] })
    (u.block b).retries = rest ∧ (u.block b).faulted = (s.block b).faulted ++ [r] ∧ u.ras = s.ras := by
  dsimp only
  obtain ⟨hret, hfaulted, hlen⟩ := fillCell_queues (s := s.onBlock b (fun z => { z with retries := rest })) (b := h.1) (p := h.2) (c := b)
  rw [block_onBlock_same (by rwa [hlen, length_onBlock])]
  rw [block_onBlock_same hb] at hret hfaulted
  exact ⟨hret, congrArg (· ++ [r]) hfaulted, State.fillCell_keeps (ras_closed s.ras rfl rfl) rfl⟩

end Sys2Proof.Machine
end

section
/-! The statement on tiles. -/

open Sys2Proof Sys2Proof.Machine

/-- Settles O17, command by command from what a placement, a product and a retry leave. -/
theorem tilesReachCells : Obligations.TilesReachCells := by
  unfold Obligations.TilesReachCells
  refine fun b s hr hb => ⟨fun t => ⟨fun hc => ?_, fun hc => ⟨fun h => ⟨_, rfl, ?_⟩, fun x t0 ts hu hq h1 h2 h3 h4 ht hl hs hx hp => ⟨_, rfl, ?_⟩⟩⟩,
    fun slot x p a t hu hslot hp hn hlive hf ht => ⟨fun d hd => ⟨_, rfl, ?_⟩, fun m src hm hst hsrc hpage => ⟨fun hv => ⟨_, rfl, ?_⟩,
      fun t1 hv h1 hs1 hp1 => ⟨_, rfl, ?_⟩⟩⟩,
    fun x r rest y h a t m hu hq hy hre hh hret => ⟨fun c hm => ⟨_, rfl, ?_⟩, fun d hm hne => ⟨_, rfl, ?_⟩⟩⟩
  · exact congrArg Host.Outcome.next ((State.whenUp_up hr).trans (placeTile_elsewhere hc))
  · rw [State.whenUp_up hr, placeTile_held hb hc h]
    exact congrArg BlockS.ready (block_queueParts hb)
  · rw [State.whenUp_up hr]
    have hg := splitGroup_single (t := { t with seed := s.free }) h1 h2 h3 h4 hl
    obtain ⟨hready, a, ha, htg, hat, hrows⟩ := placeTile_live hb hc hu hq hg rfl (corner_tiles (t := { t with seed := s.free }) ht)
      (by rw [corner_staged]; exact hs) hx hp
    rw [corner_rows (t := { t with seed := s.free }) h2, corner_cols (t := { t with seed := s.free }) h4] at hrows
    exact ⟨hready, a, ha, by rw [htg, hg], hat, hrows⟩
  · rw [State.whenUp_up hr, if_pos hu]
    obtain ⟨hl, hras, hret⟩ := tileDone_error_does hb hp hslot hn hlive hf ht hd
    exact ⟨hl, hras, hret⟩
  · rw [State.whenUp_up hr, if_pos hu, tileDone_ok hslot hn hlive hf ht hm]
    exact tileDone_score hb hp hst hsrc hv
  · rw [State.whenUp_up hr, if_pos hu, tileDone_ok hslot hn hlive hf ht hm]
    exact tileDone_output hb hp hst hsrc hv h1 hs1 (hp1.trans hpage.symm)
  · rw [State.whenUp_up hr, if_pos hu]
    obtain ⟨hsame, hother⟩ := tileAgain_counts hq hy hre hh (hm ▸ hret)
    exact ⟨hsame, fun hne hin hk => hother hne hin (by unfold cellKey; omega)⟩
  · rw [State.whenUp_up hr, if_pos hu, tileAgain_error hq hy hre hh hne (hm ▸ hret)]
    exact faulted_does hb

end

section
/-! The statement on canonical memory. -/

open Sys2Proof Sys2Proof.Machine

/-- Settles O5: canonical memory is closed under every update of the state (`memOk_closed`), and taking the front command off the
queue does not touch memory; so every step keeps it (`step_keeps`). -/
theorem stepsKeepMemoryCanonical : Obligations.StepsKeepMemoryCanonical := by
  unfold Obligations.StepsKeepMemoryCanonical
  intro s t hs
  exact step_keeps (memOk_closed _) (fun _ _ h => h) hs

end

section
/-! SUPPORT. The interleave function (R52): pseudo-channel and bank are exclusive ors with bits of the row, which undo themselves. -/

namespace Sys2Proof.Machine

/-- A bit field is below the power of its width. -/
theorem bits_lt (x hi lo : Nat) : bits x hi lo < 2 ^ (hi + 1 - lo) := Nat.mod_lt _ (Nat.two_pow_pos _)

/-- Two exclusive ors with the same numbers undo each other. -/
theorem xor_xor_cancel (a b c : Nat) : a ^^^ b ^^^ c ^^^ b ^^^ c = a := by
  rw [Nat.xor_right_comm (a ^^^ b) c b, Nat.xor_assoc a b b, Nat.xor_self, Nat.xor_zero, Nat.xor_assoc, Nat.xor_self, Nat.xor_zero]

theorem xor_xor_xor_cancel (a b c d : Nat) : a ^^^ b ^^^ c ^^^ d ^^^ b ^^^ c ^^^ d = a := by
  rw [Nat.xor_right_comm (a ^^^ b ^^^ c) d b, Nat.xor_right_comm (a ^^^ b) c b, Nat.xor_assoc a b b, Nat.xor_self, Nat.xor_zero,
    xor_xor_cancel]

/-- The pseudo-channel of an offset is one of 64 (R52). -/
theorem decodeOffset_pc_lt (o : Nat) : (decodeOffset o).pc < 64 :=
  Nat.xor_lt_two_pow (n := 6) (Nat.xor_lt_two_pow (bits_lt o 13 8) (bits_lt o 25 20)) (bits_lt o 31 26)

/-- The bank of an offset is one of 16 (R52). -/
theorem decodeOffset_bank_lt (o : Nat) : (decodeOffset o).bank < 16 :=
  Nat.xor_lt_two_pow (n := 4) (Nat.xor_lt_two_pow (Nat.xor_lt_two_pow (bits_lt o 19 16) (bits_lt o 23 20)) (bits_lt o 27 24))
    (bits_lt o 31 28)

/-- The offset with the given bit fields, as they stand in R52 before the exclusive ors. -/
def fieldsOffset (sid row bank seg pc byte : Nat) : Nat :=
  sid * 2 ^ 35 + row * 2 ^ 20 + bank * 2 ^ 16 + seg * 2 ^ 14 + pc * 2 ^ 8 + byte

/-- What of a row enters the pseudo-channel. -/
def rowPc (row x : Nat) : Nat := x ^^^ row % 64 ^^^ row / 64 % 64

/-- What of a row enters the bank. -/
def rowBank (row x : Nat) : Nat := x ^^^ row % 16 ^^^ row / 16 % 16 ^^^ row / 256 % 16

@[simp] theorem rowPc_rowPc (row x : Nat) : rowPc row (rowPc row x) = x := xor_xor_cancel ..

@[simp] theorem rowBank_rowBank (row x : Nat) : rowBank row (rowBank row x) = x := xor_xor_xor_cancel ..

theorem rowPc_lt (row : Nat) {x : Nat} (h : x < 64) : rowPc row x < 64 :=
  Nat.xor_lt_two_pow (n := 6) (Nat.xor_lt_two_pow h (Nat.mod_lt _ (by decide))) (Nat.mod_lt _ (by decide))

theorem rowBank_lt (row : Nat) {x : Nat} (h : x < 16) : rowBank row x < 16 :=
  Nat.xor_lt_two_pow (n := 4) (Nat.xor_lt_two_pow (Nat.xor_lt_two_pow h (Nat.mod_lt _ (by decide))) (Nat.mod_lt _ (by decide)))
    (Nat.mod_lt _ (by decide))

/-- The location of an offset, by its bit fields. -/
theorem decodeOffset_fieldsOffset {sid row bank seg pc byte : Nat} (hsid : sid < 4) (hrow : row < 2 ^ 15) (hbank : bank < 16)
    (hseg : seg < 4) (hpc : pc < 64) (hbyte : byte < 256) :
    decodeOffset (fieldsOffset sid row bank seg pc byte) =
      { sid := sid, pc := rowPc row pc, bank := rowBank row bank, row := row, seg := seg, byte := byte } := by
  have field (hi lo v : Nat) (h : fieldsOffset sid row bank seg pc byte / 2 ^ lo % 2 ^ (hi + 1 - lo) = v) :
      bits (fieldsOffset sid row bank seg pc byte) hi lo = v := h
  unfold decodeOffset rowPc rowBank
  rw [field 36 35 sid, field 7 0 byte, field 13 8 pc, field 25 20 (row % 64), field 31 26 (row / 64 % 64), field 15 14 seg,
    field 19 16 bank, field 23 20 (row % 16), field 27 24 (row / 16 % 16), field 31 28 (row / 256 % 16), field 34 20 row]
  all_goals
    unfold fieldsOffset
    omega

/-- Every offset is that of its bit fields. -/
theorem eq_fieldsOffset {o : Nat} (h : o < 2 ^ 37) :
    o = fieldsOffset (bits o 36 35) (bits o 34 20) (bits o 19 16) (bits o 15 14) (bits o 13 8) (bits o 7 0) := by
  unfold fieldsOffset bits
  omega

/-- The offset of a location within range, by its bit fields. -/
theorem encodeOffset_eq {l : Loc} (hsid : l.sid < 4) (hpc : l.pc < 64) (hbank : l.bank < 16) (hrow : l.row < 2 ^ 15) (hseg : l.seg < 4)
    (hbyte : l.byte < 256) :
    encodeOffset l = fieldsOffset l.sid l.row (rowBank l.row l.bank) l.seg (rowPc l.row l.pc) l.byte := by
  have field (hi lo v : Nat) (h : l.row * 2 ^ 20 / 2 ^ lo % 2 ^ (hi + 1 - lo) = v) : bits (l.row * 2 ^ 20) hi lo = v := h
  unfold encodeOffset fieldsOffset rowPc rowBank
  rw [Nat.mod_eq_of_lt hsid, Nat.mod_eq_of_lt hpc, Nat.mod_eq_of_lt hbank, Nat.mod_eq_of_lt hrow, Nat.mod_eq_of_lt hseg,
    Nat.mod_eq_of_lt hbyte]
  dsimp only
  rw [field 23 20 (l.row % 16), field 27 24 (l.row / 16 % 16), field 31 28 (l.row / 256 % 16), field 25 20 (l.row % 64),
    field 31 26 (l.row / 64 % 64)]
  all_goals omega

/-- A location within range comes back from its offset (R52). -/
theorem decodeOffset_encodeOffset {l : Loc} (hsid : l.sid < 4) (hpc : l.pc < 64) (hbank : l.bank < 16) (hrow : l.row < 2 ^ 15)
    (hseg : l.seg < 4) (hbyte : l.byte < 256) : decodeOffset (encodeOffset l) = l := by
  rw [encodeOffset_eq hsid hpc hbank hrow hseg hbyte,
    decodeOffset_fieldsOffset hsid hrow (rowBank_lt _ hbank) hseg (rowPc_lt _ hpc) hbyte, rowPc_rowPc, rowBank_rowBank]

/-- The offset of a location within range has 37 bits. -/
theorem encodeOffset_lt {l : Loc} (hsid : l.sid < 4) (hpc : l.pc < 64) (hbank : l.bank < 16) (hrow : l.row < 2 ^ 15)
    (hseg : l.seg < 4) (hbyte : l.byte < 256) : encodeOffset l < 2 ^ 37 := by
  have hb := rowBank_lt l.row hbank
  have hp := rowPc_lt l.row hpc
  rw [encodeOffset_eq hsid hpc hbank hrow hseg hbyte]
  unfold fieldsOffset
  omega

/-- An offset comes back from its location (R52). -/
theorem encodeOffset_decodeOffset {o : Nat} (h : o < 2 ^ 37) : encodeOffset (decodeOffset o) = o := by
  have hsid := bits_lt o 36 35
  have hrow := bits_lt o 34 20
  have hbank := bits_lt o 19 16
  have hseg := bits_lt o 15 14
  have hpc := bits_lt o 13 8
  have hbyte := bits_lt o 7 0
  conv_lhs => rw [eq_fieldsOffset h]
  rw [decodeOffset_fieldsOffset hsid hrow hbank hseg hpc hbyte,
    encodeOffset_eq hsid (rowPc_lt _ hpc) (rowBank_lt _ hbank) hrow hseg hbyte, rowPc_rowPc, rowBank_rowBank, ← eq_fieldsOffset h]

/-- Two pseudo-channels of offsets that agree above bit 13 are the same only where the offsets agree in bits 13 to 8. -/
theorem bits_eq_of_pc_eq {o p : Nat} (hhi : o / 2 ^ 14 = p / 2 ^ 14) (h : (decodeOffset o).pc = (decodeOffset p).pc) :
    bits o 13 8 = bits p 13 8 := by
  have h1 : bits o 25 20 = bits p 25 20 := by unfold bits; omega
  have h2 : bits o 31 26 = bits p 31 26 := by unfold bits; omega
  unfold decodeOffset at h
  dsimp only at h
  rw [h1, h2] at h
  exact Nat.xor_left_inj.mp (Nat.xor_left_inj.mp h)

end Sys2Proof.Machine
end

section
/-! The statement on the interleave function. -/

open Sys2Proof Sys2Proof.Machine

/-- Settles O7: the exclusive ors of R52 take bits of the row alone, so that taking them again undoes them. -/
theorem interleaveIsABijection : Obligations.InterleaveIsABijection := by
  unfold Obligations.InterleaveIsABijection
  refine ⟨fun l hsid hpc hbank hrow hseg hbyte => ?_, fun o h => ?_, fun o h => ?_, fun o p ho hp hs => ?_, fun o i j ho ha hi hj h => ?_⟩
  · exact ⟨decodeOffset_encodeOffset hsid hpc hbank hrow hseg hbyte, encodeOffset_lt hsid hpc hbank hrow hseg hbyte⟩
  · have hp := decodeOffset_pc_lt o
    refine ⟨rfl, rfl, rfl, rfl, rfl, rfl, ?_, congrArg (4 * (decodeOffset o).sid + ·) ?_⟩
    · unfold Loc.channel bits
      omega
    · unfold bits
      omega
  · refine ⟨encodeOffset_decodeOffset h, ?_, rfl, decodeOffset_pc_lt o, decodeOffset_bank_lt o⟩
    change bits o 36 35 = _
    unfold bits
    omega
  · change bits o 36 35 = bits p 36 35 at hs
    change bits o 34 20 = bits p 34 20 ↔ _
    unfold bits at *
    omega
  · have hb := bits_eq_of_pc_eq (by omega) h
    unfold bits at hb
    omega

end

section
/-! The statement on bytes of stack memory. -/

open Sys2Proof Sys2Proof.Machine

/-- A node whose stack 0 has a window on the bank pair of address 0, and at whose stack an access that writes 1 to address 0 is
withheld by the arbiter while the collision queue has room (R134). -/
def withholding : State :=
  { State.reset with nbu := [{ wins := [(0, { step := .entered, pairs := [addrPair 0] })], withheld := [{ len := 1, job := .write [1] }] }] }

/-- The address lies in a bank of the window, and its stack is not fenced. -/
theorem withholding_collides : withholding.collides 0 = true ∧ withholding.stackFenced (addrStack 0) = false := by decide +kernel

/-- A later write of 2 joins the queue ahead of the withheld access, so that a read gives 1. -/
theorem withholding_memRead : (withholding.memWrite 0 2).memRead 0 = 1 := by decide +kernel

/-- Refutes O8: the statement takes every canonical state, also one whose arbiter withholds a write while the collision queue has
room; there a later write to the same address that joins the queue stands before the withheld one (`NbRegion.queued`), and a read
gives the withheld value. -/
theorem not_stackBytesReadBack : ¬ Obligations.StackBytesReadBack := by
  unfold Obligations.StackBytesReadBack
  intro h
  obtain ⟨hc, hf⟩ := withholding_collides
  obtain ⟨-, -, -, hwait, -⟩ := h 0 0 2 withholding rfl
  have h2 := (hwait hc hf).1
  rw [withholding_memRead] at h2
  exact absurd h2 (by decide)

end

section
/-! SUPPORT. Stack memory through BAR2 (R60, R133, R411): an access within 256 bytes is one piece in one bank; what bytes that reach
their bank leave, and what an access that waits does to its region's queue. -/

namespace Sys2Proof.Machine

/-! ## Bytes that reach their bank -/

/-- A byte at the address reaches its bank: its stack is not fenced, its offset is implemented, and it has 40 bits (R51, R60). -/
def State.lands (s : State) (a : Nat) : Prop :=
  s.stackFenced (addrStack a) = false ∧ implementedOffset (addrOffset a) = true ∧ a < 2 ^ 40

/-- A byte that reaches its bank is stored. -/
theorem bankWrite_of_lands {s : State} {a : Nat} (h : s.lands a) (v : Byte) :
    s.bankWrite a v = s.onMem (fun m => { m with cells := cellWrite m.cells a v }) := by
  obtain ⟨hf, hi, ha⟩ := h
  exact if_neg (by simpa [hf, hi] using ha)

/-- A read of stack memory depends on fences, queues and the cell. -/
theorem memRead_congr {s t : State} {b : Nat} (hr : t.ras = s.ras) (hn : t.nbu = s.nbu)
    (hc : cellRead t.mem.cells b = cellRead s.mem.cells b) : t.memRead b = s.memRead b := by
  unfold State.memRead State.stackFenced
  rw [hr, hn, hc]

/-- Consecutive bytes that reach their bank: each is stored, and every other byte is as it was. -/
theorem cellRead_bankWriteN {l : List Byte} {s : State} {a : Nat} (hm : s.MemOk) (hl : ∀ i, i < l.length → s.lands (a + i)) (b : Nat) :
    cellRead (s.bankWriteN a l).mem.cells b = if a ≤ b ∧ b < a + l.length then l.getD (b - a) 0 else cellRead s.mem.cells b := by
  induction l generalizing s a with
  | nil => exact (if_neg (by rw [List.length_nil]; omega)).symm
  | cons v t ih =>
    have hs := bankWrite_of_lands (a := a) (hl 0 (by simp)) v
    have hstep : cellRead (s.bankWrite a v).mem.cells b = if b = a then v else cellRead s.mem.cells b := by
      rw [hs]
      exact cellRead_cellWrite ((Mem.ok_iff _).mp hm).1 a b v
    have hrest : ∀ i, i < t.length → (s.bankWrite a v).lands (a + 1 + i) := fun i hi => by
      have h := hl (i + 1) (by simpa using hi)
      rw [hs]
      rwa [show a + 1 + i = a + (i + 1) by omega]
    change cellRead ((s.bankWrite a v).bankWriteN (a + 1) t).mem.cells b = _
    rw [ih (State.bankWrite_keeps (memOk_closed _) hm) hrest, hstep, List.length_cons]
    by_cases hb : b = a
    · subst hb
      rw [if_neg (by omega), if_pos rfl, if_pos (by omega), Nat.sub_self, List.getD_cons_zero]
    · rw [if_neg hb]
      by_cases hin : a + 1 ≤ b ∧ b < a + 1 + t.length
      · rw [if_pos hin, if_pos (by omega), show b - a = b - (a + 1) + 1 by omega, List.getD_cons_succ]
      · rw [if_neg hin, if_neg (by omega)]

/-- Addresses of one 256-byte segment lie in one stack, and reach their bank where the first does. -/
theorem addrStack_segment {a i : Nat} (h : a % 256 + i < 256) : addrStack (a + i) = addrStack a := by
  unfold addrStack
  omega

theorem lands_segment {s : State} {a i : Nat} (hp : pageSpace a = true) (hf : s.stackFenced (addrStack a) = false) (h : a % 256 + i < 256) :
    s.lands (a + i) := by
  simp only [pageSpace, implementedOffset, addrOffset, Bool.and_eq_true, decide_eq_true_eq, bne_iff_ne] at hp
  refine ⟨by rw [addrStack_segment h]; exact hf, ?_, by omega⟩
  simp only [implementedOffset, addrOffset, bne_iff_ne]
  omega

/-- Where what waits leaves a stored byte's addresses alone, a read gives the bytes written, and elsewhere what it gave. -/
theorem memRead_bankWriteN {l : List Byte} {s : State} {a : Nat} (hm : s.MemOk) (hp : pageSpace a = true)
    (hf : s.stackFenced (addrStack a) = false) (hl : a % 256 + l.length ≤ 256)
    (hq : ∀ c ∈ (s.nbu.getD (addrStack a) {}).queued, ∀ b v, a ≤ b → b < a + l.length → c.newest b v = v) :
    (∀ i, i < l.length → (s.bankWriteN a l).memRead (a + i) = l.getD i 0) ∧
      ∀ b, b < a ∨ a + l.length ≤ b → (s.bankWriteN a l).memRead b = s.memRead b := by
  have hlands : ∀ i, i < l.length → s.lands (a + i) := fun i hi => lands_segment hp hf (by omega)
  have hr : (s.bankWriteN a l).ras = s.ras := State.bankWriteN_keeps (ras_closed s.ras rfl rfl) rfl
  have hn : (s.bankWriteN a l).nbu = s.nbu := State.bankWriteN_keeps (nbu_closed s.nbu rfl rfl) rfl
  refine ⟨fun i hi => ?_, fun b hb => memRead_congr hr hn ?_⟩
  · have hidle : ∀ (q : List CqEntry) (v : Byte), (∀ c ∈ q, ∀ v, c.newest (a + i) v = v) → q.foldl (fun v c => c.newest (a + i) v) v = v := by
      intro q v h
      induction q with
      | nil => rfl
      | cons c t ih => rw [List.foldl_cons, h c List.mem_cons_self, ih (fun d hd => h d (List.mem_cons_of_mem _ hd))]
    have hf' : s.ras.regionsFenced.contains (addrStack a) = false := hf
    unfold State.memRead State.stackFenced
    rw [hr, hn, addrStack_segment (by omega), hf', if_neg Bool.false_ne_true,
      hidle _ _ (fun c hc v => hq c hc _ v (by omega) (by omega)), cellRead_bankWriteN hm hlands, if_pos (by omega),
      Nat.add_sub_cancel_left]
  · rw [cellRead_bankWriteN hm hlands, if_neg (by omega)]

/-- A fenced stack reads zeros. -/
theorem memReadN_fenced {s : State} {a n : Nat} (h : ∀ i, i < n → s.stackFenced (addrStack (a + i)) = true) :
    s.memReadN a n = List.replicate n 0 := by
  induction n generalizing a with
  | zero => rfl
  | succ n ih =>
    have h0 : s.memRead a = 0 := if_pos (h 0 (by omega))
    change s.memRead a :: s.memReadN (a + 1) n = _
    rw [h0, ih (fun i hi => by have := h (i + 1) (by omega); rwa [show a + 1 + i = a + (i + 1) by omega]), List.replicate_succ]

/-! ## Accesses that wait -/

/-- A region that holds an address's window is there. -/
theorem lt_of_collides {s : State} {a : Nat} (h : s.collides a = true) : addrStack a < s.nbu.length := by
  by_contra hn
  unfold State.collides at h
  rw [List.getD_eq_default _ _ (by omega)] at h
  exact Bool.false_ne_true h

/-- An access that waits is one more in its region's queue. -/
theorem queued_enqueue (c : CqEntry) (r : NbRegion) : (r.enqueue c).queued.length = r.queued.length + 1 ∧ c ∈ (r.enqueue c).queued := by
  unfold NbRegion.enqueue NbRegion.queued
  split <;> simp <;> omega

theorem queued_collide {s : State} {a : Nat} (h : s.collides a = true) (len : Nat) (j : CqJob) :
    ((s.collide a len j).nbu.getD (addrStack a) {}).queued.length = (s.nbu.getD (addrStack a) {}).queued.length + 1 ∧
      ∃ c ∈ ((s.collide a len j).nbu.getD (addrStack a) {}).queued, c.addr = a ∧ c.job = j := by
  have hlt := lt_of_collides h
  have hg : (s.collide a len j).nbu.getD (addrStack a) {} =
      (s.nbu.getD (addrStack a) {}).enqueue { pair := addrPair a, addr := a, len := len, job := j } := by
    change (s.nbu.modify (addrStack a) _).getD (addrStack a) {} = _
    rw [List.getD_eq_getElem _ _ (by simpa using hlt), List.getElem_modify, if_pos rfl, List.getD_eq_getElem _ _ hlt]
  obtain ⟨hl, hc⟩ := queued_enqueue { pair := addrPair a, addr := a, len := len, job := j } (s.nbu.getD (addrStack a) {})
  rw [hg]
  exact ⟨hl, _, hc, rfl, rfl⟩

/-! ## One access of the host -/

/-- A range within a 256-byte segment is one piece (R133). -/
theorem pieces_segment {a len : Nat} (h0 : 0 < len) (h : a % 256 + len ≤ 256) : pieces (len + 1) a len = [(a, len)] := by
  obtain ⟨n, rfl⟩ := Nat.exists_eq_succ_of_ne_zero (Nat.ne_of_gt h0)
  have hm : min (n + 1) (256 - a % 256) = n + 1 := by omega
  simp [pieces, hm]

/-- A request of the host that reaches the node is served. -/
theorem fromHost_reached {f : State → State} {s : State} (hreach : s.reachable = true) (hstage : s.aon.bootStage ≠ 15) :
    State.fromHost false f s = f s.linked := if_pos (by simp [hreach, hstage])

/-- What one piece says of some piece. -/
theorem any_piece (f : Nat → Bool) (a len : Nat) : [(a, len)].any (fun p => f p.1) = f a := by
  rw [List.any_cons, List.any_nil, Bool.or_false]

theorem linked_bar2Addr (s : State) (x : Nat) : s.linked.bar2Addr x = s.bar2Addr x := rfl

theorem linked_bar2Refuses (s : State) (a : Nat) : s.linked.bar2Refuses a = s.bar2Refuses a := rfl

section access
variable {s : State} {x len : Nat} (hrun : s.running = true) (hreach : s.reachable = true) (hstage : s.aon.bootStage ≠ 15) (h0 : 0 < len)
  (hseg : s.bar2Addr x % 256 + len ≤ 256)
include hrun hreach hstage h0 hseg

/-- BAR2_READ of one piece: zeros until the stacks are up (R432). -/
theorem execBar2Read_segment {t : State} (ht : t = s.linked.logBar2 0 (s.bar2Addr x) (bar2Barred (s.bar2Addr x))) :
    exec (.bar2Read x len) s = .next (
      if !t.aon.stacksUp then t.emit (.memRead (s.bar2Addr x) (List.replicate len 0)) else t.bar2Piece (s.bar2Addr x) len) := by
  have served : ∀ ps, pieces (len + 1) (s.linked.bar2Addr x) len = ps → ∀ t, t = s.linked.logBar2 0 (s.linked.bar2Addr x)
      (ps.any (fun p => bar2Barred p.1)) → exec (.bar2Read x len) s = .next (
        if !t.aon.stacksUp then t.emit (.memRead (s.linked.bar2Addr x) (List.replicate len 0))
        else ps.foldl (fun s p => s.bar2Piece p.1 p.2) t) := by
    rintro _ rfl _ rfl
    exact congrArg Host.Outcome.next ((whenUp_running hrun).trans (fromHost_reached hreach hstage))
  have h := served _ (pieces_segment h0 hseg) t (by rw [ht, any_piece, linked_bar2Addr])
  rwa [List.foldl_cons, List.foldl_nil, linked_bar2Addr] at h

/-- BAR2_WRITE of one piece. -/
theorem execBar2Write_segment {data : List Byte} (hd : data.length = len) {t : State}
    (ht : t = s.linked.logBar2 1 (s.bar2Addr x) (s.bar2Refuses (s.bar2Addr x))) : exec (.bar2Write x data) s = .next (
      if !t.host.bar2WrEnable then t.onHost (fun h => { h with bar2Discards := inc16 h.bar2Discards })
      else if !t.aon.stacksUp then t else t.bar2Put (s.bar2Addr x) data) := by
  subst hd
  have served : ∀ ps, pieces (data.length + 1) (s.linked.bar2Addr x) data.length = ps → ∀ t, t = s.linked.logBar2 1
      (s.linked.bar2Addr x) (ps.any (fun p => s.linked.bar2Refuses p.1)) → exec (.bar2Write x data) s = .next (
        if !t.host.bar2WrEnable then t.onHost (fun h => { h with bar2Discards := inc16 h.bar2Discards })
        else if !t.aon.stacksUp then t
        else ps.foldl (fun s' p => s'.bar2Put p.1 ((data.drop (p.1 - s.linked.bar2Addr x)).take p.2)) t) := by
    rintro _ rfl _ rfl
    exact congrArg Host.Outcome.next ((whenUp_running hrun).trans (fromHost_reached hreach hstage))
  have h := served _ (pieces_segment h0 hseg) t (by rw [ht, any_piece, linked_bar2Addr, linked_bar2Refuses])
  rwa [List.foldl_cons, List.foldl_nil, linked_bar2Addr, Nat.sub_self, List.drop_zero, List.take_length] at h

end access

end Sys2Proof.Machine
end

section
/-! SUPPORT. What the log and the region's arbiter leave of the state around a BAR2 access. -/

namespace Sys2Proof.Machine

/-- A logged access changes the log, the host interface and what leaves the node. -/
theorem logBar2_frame (kind a : Nat) (r : Bool) (s : State) : (s.logBar2 kind a r).mem = s.mem ∧ (s.logBar2 kind a r).ras = s.ras ∧
    (r = true → (s.logBar2 kind a r).log.nextSeq = s.log.nextSeq + 1) := by
  cases r with
  | false => exact ⟨rfl, rfl, fun h => nomatch h⟩
  | true =>
    exact ⟨State.logPut_keeps (mem_closed s.mem rfl rfl rfl) rfl, State.logPut_keeps (ras_closed s.ras rfl rfl) rfl,
      fun _ => logPut_nextSeq ..⟩

theorem logBar2_none (kind a : Nat) (s : State) : s.logBar2 kind a false = s := rfl

/-- A slot of the region's arbiter changes engines, near-bank queues and ports alone (R30). -/
theorem takeStack_frame (cls a : Nat) (s : State) : (s.takeStack cls a).mem = s.mem ∧ (s.takeStack cls a).ras = s.ras ∧
    (s.takeStack cls a).log = s.log ∧ (s.takeStack cls a).emitted = s.emitted ∧ (s.takeStack cls a).home = s.home :=
  ⟨State.takeStack_keeps (mem_closed s.mem rfl rfl rfl) rfl, State.takeStack_keeps (ras_closed s.ras rfl rfl) rfl,
    State.takeStack_keeps (log_closed s.log rfl rfl) rfl, State.takeStack_keeps (emitted_closed s.emitted rfl) rfl,
    State.takeStack_keeps (home_closed s.home rfl rfl) rfl⟩

/-- An access that waits changes its region's queue alone. -/
theorem collide_frame (a len : Nat) (j : CqJob) (s : State) : (s.collide a len j).mem = s.mem ∧ (s.collide a len j).emitted = s.emitted :=
  ⟨rfl, rfl⟩

theorem bar2Barred_of_pageSpace {a : Nat} (h : pageSpace a = true) : bar2Barred a = false := by
  unfold bar2Barred
  rw [h, Bool.not_true]

/-- Reserved and unimplemented addresses refuse a write, and so does a fenced stack (R60, R411). -/
theorem bar2Refuses_of_barred {s : State} {a : Nat} (h : pageSpace a = false) : s.bar2Refuses a = true := by
  unfold State.bar2Refuses bar2Barred
  rw [h, Bool.not_false, Bool.true_or]

theorem bar2Refuses_of_fenced {s : State} {a : Nat} (h : s.stackFenced (addrStack a) = true) : s.bar2Refuses a = true := by
  unfold State.bar2Refuses
  rw [h, Bool.or_true]

theorem bar2Refuses_of_free {s : State} {a : Nat} (hp : pageSpace a = true) (hf : s.stackFenced (addrStack a) = false) :
    s.bar2Refuses a = false := by
  unfold State.bar2Refuses
  rw [bar2Barred_of_pageSpace hp, hf, Bool.or_false]

theorem stackFenced_of_ras {s t : State} (h : t.ras = s.ras) (n : Nat) : t.stackFenced n = s.stackFenced n := by
  unfold State.stackFenced
  rw [h]

/-- The read of one piece in page space, once its slot is taken: at a free bank it answers the bytes, at a bank of a window it waits. -/
theorem bar2Piece_free {s : State} {a n : Nat} (hp : pageSpace a = true)
    (h : (s.takeStack 4 a).collides a = false ∨ (s.takeStack 4 a).stackFenced (addrStack a) = true) :
    s.bar2Piece a n = (s.takeStack 4 a).emit (.memRead a ((s.takeStack 4 a).memReadN a n)) := by
  unfold State.bar2Piece
  rw [bar2Barred_of_pageSpace hp, if_neg Bool.false_ne_true]
  refine if_neg ?_
  rcases h with h | h <;> simp [h]

theorem bar2Piece_waits {s : State} {a n : Nat} (hp : pageSpace a = true) (hc : (s.takeStack 4 a).collides a = true)
    (hf : (s.takeStack 4 a).stackFenced (addrStack a) = false) : s.bar2Piece a n = (s.takeStack 4 a).collide a n .host := by
  unfold State.bar2Piece
  rw [bar2Barred_of_pageSpace hp, if_neg Bool.false_ne_true]
  exact if_pos (by simp [hc, hf])

/-- The write of one piece that nothing refuses. -/
theorem bar2Put_free {s : State} {a : Nat} {d : List Byte} (h : s.bar2Refuses a = false) (hc : (s.takeStack 4 a).collides a = false) :
    s.bar2Put a d = (s.takeStack 4 a).bankWriteN a d := by
  unfold State.bar2Put State.busWrite
  rw [h, if_neg Bool.false_ne_true, hc, Bool.false_and, if_neg Bool.false_ne_true]

theorem bar2Put_waits {s : State} {a : Nat} {d : List Byte} (h : s.bar2Refuses a = false) (hc : (s.takeStack 4 a).collides a = true)
    (hf : (s.takeStack 4 a).stackFenced (addrStack a) = false) :
    s.bar2Put a d = (s.takeStack 4 a).collide a d.length (.write d) := by
  unfold State.bar2Put State.busWrite
  rw [h, if_neg Bool.false_ne_true, hc, hf]
  exact if_pos rfl

section access
variable {s : State} {x len : Nat} (hrun : s.running = true) (hreach : s.reachable = true) (hstage : s.aon.bootStage ≠ 15) (h0 : 0 < len)
  (hseg : s.bar2Addr x % 256 + len ≤ 256)
include hrun hreach hstage h0 hseg

/-- A read of page space is not logged; before the stacks are up it answers zeros (R432). -/
theorem bar2Read_down (hp : pageSpace (s.bar2Addr x) = true) (hup : s.aon.stacksUp = false) :
    exec (.bar2Read x len) s = .next (s.linked.emit (.memRead (s.bar2Addr x) (List.replicate len 0))) := by
  rw [execBar2Read_segment hrun hreach hstage h0 hseg rfl, bar2Barred_of_pageSpace hp, logBar2_none, show s.linked.aon.stacksUp = false from hup,
    Bool.not_false, if_pos rfl]

theorem bar2Read_up (hp : pageSpace (s.bar2Addr x) = true) (hup : s.aon.stacksUp = true) :
    exec (.bar2Read x len) s = .next (s.linked.bar2Piece (s.bar2Addr x) len) := by
  rw [execBar2Read_segment hrun hreach hstage h0 hseg rfl, bar2Barred_of_pageSpace hp, logBar2_none, show s.linked.aon.stacksUp = true from hup,
    Bool.not_true, if_neg Bool.false_ne_true]

/-- A read of a reserved or unimplemented address answers zeros, and is logged (R60, R411). -/
theorem bar2Read_barred (hp : pageSpace (s.bar2Addr x) = false) : Does (.bar2Read x len) s (fun t =>
    .memRead (s.bar2Addr x) (List.replicate len 0) ∈ t.emitted ∧ t.log.nextSeq = s.log.nextSeq + 1 ∧ t.mem = s.mem) := by
  have hb : bar2Barred (s.bar2Addr x) = true := by
    unfold bar2Barred
    rw [hp, Bool.not_false]
  obtain ⟨hm, -, hl⟩ := logBar2_frame 0 (s.bar2Addr x) true s.linked
  refine ⟨_, execBar2Read_segment hrun hreach hstage h0 hseg rfl, ?_⟩
  unfold State.bar2Piece
  rw [hb, if_pos rfl, ite_self]
  exact ⟨List.mem_append_right _ (List.mem_singleton.mpr rfl), hl rfl, hm⟩

/-- A write that an address refuses is logged and changes no memory (R60, R411). -/
theorem bar2Write_refused {data : List Byte} (hd : data.length = len) (h : s.bar2Refuses (s.bar2Addr x) = true) :
    Does (.bar2Write x data) s (fun t => t.mem = s.mem ∧ t.log.nextSeq = s.log.nextSeq + 1) := by
  obtain ⟨hm, hr, hl⟩ := logBar2_frame 1 (s.bar2Addr x) true s.linked
  have hstill : (s.linked.logBar2 1 (s.bar2Addr x) true).bar2Refuses (s.bar2Addr x) = true := by
    rw [← linked_bar2Refuses] at h
    unfold State.bar2Refuses State.stackFenced at *
    rwa [hr]
  refine ⟨_, execBar2Write_segment hrun hreach hstage h0 hseg hd rfl, ?_⟩
  rw [h]
  split
  · exact ⟨hm, hl rfl⟩
  · split
    · exact ⟨hm, hl rfl⟩
    · unfold State.bar2Put
      rw [if_pos hstill]
      exact ⟨hm, hl rfl⟩

/-- A write that nothing refuses: with writes disabled it is counted and discarded, and before the stacks are up it is dropped. -/
theorem bar2Write_free {data : List Byte} (hd : data.length = len) (h : s.bar2Refuses (s.bar2Addr x) = false) :
    exec (.bar2Write x data) s = .next (
      if !s.host.bar2WrEnable then s.linked.onHost (fun h => { h with bar2Discards := inc16 h.bar2Discards })
      else if !s.aon.stacksUp then s.linked else s.linked.bar2Put (s.bar2Addr x) data) := by
  rw [execBar2Write_segment hrun hreach hstage h0 hseg hd rfl, h, logBar2_none]
  rfl

end access

end Sys2Proof.Machine
end

section
/-! The statement on the BAR2 window. -/

open Sys2Proof Sys2Proof.Machine

/-- Settles O50: an access within a segment is one piece (`execBar2Read_segment`, `execBar2Write_segment`), so each clause is one branch:
refused and logged, before the stacks are up, in a fenced stack, at a free bank (`memRead_bankWriteN`), at a bank that a window holds
(`queued_collide`), or with writes disabled. -/
theorem stackWindowShowsMemory : Obligations.StackWindowShowsMemory := by
  unfold Obligations.StackWindowShowsMemory
  intro x len data s hrun hreach hstage h0 hd hseg a n fenced s1 q zeros wr
  obtain ⟨hm, hr, hl, he, hh⟩ := takeStack_frame 4 a s.linked
  have hf1 : s1.stackFenced n = fenced := stackFenced_of_ras hr n
  have hwrite (hp : pageSpace a = true) (hf : fenced = false) (hw : wr = true) (hup : s.aon.stacksUp = true) :
      exec (.bar2Write x data) s = .next (s.linked.bar2Put a data) := by
    rw [bar2Write_free hrun hreach hstage h0 hseg hd (bar2Refuses_of_free hp hf), show s.host.bar2WrEnable = true from hw, hup,
      Bool.not_true, if_neg Bool.false_ne_true, if_neg Bool.false_ne_true]
  refine ⟨fun hp => ⟨?_, ?_⟩, fun hup hp => ⟨?_, fun hw hf => ?_⟩, fun hp hf => ⟨?_, ?_⟩, fun hup hp hf hc => ⟨?_, fun hw hok hq => ?_⟩,
    fun hup hp hf hc _ => ⟨?_, fun hw => ?_⟩, fun hw hp hf => ?_⟩
  · exact bar2Read_barred hrun hreach hstage h0 hseg hp
  · exact bar2Write_refused hrun hreach hstage h0 hseg hd (bar2Refuses_of_barred hp)
  · exact ⟨_, bar2Read_down hrun hreach hstage h0 hseg hp hup, rfl⟩
  · refine ⟨_, bar2Write_free hrun hreach hstage h0 hseg hd (bar2Refuses_of_free hp hf), ?_⟩
    rw [show s.host.bar2WrEnable = true from hw, hup, Bool.not_true, if_neg Bool.false_ne_true, Bool.not_false, if_pos rfl]
  · by_cases hup : s.aon.stacksUp = true
    · have hz : s1.memReadN a len = zeros := memReadN_fenced (fun i hi => by
        rw [addrStack_segment (show a % 256 + i < 256 by omega)]
        exact hf1.trans hf)
      refine ⟨_, bar2Read_up hrun hreach hstage h0 hseg hp hup, ?_⟩
      rw [bar2Piece_free hp (.inr (hf1.trans hf))]
      exact ⟨(State.emit_emitted ..).trans (congrArg₂ (fun l b => l ++ [Emit.memRead a b]) he hz), (State.emit_mem ..).trans hm,
        (State.emit_log ..).trans hl⟩
    · exact ⟨_, bar2Read_down hrun hreach hstage h0 hseg hp (Bool.not_eq_true _ ▸ hup), rfl, rfl, rfl⟩
  · exact bar2Write_refused hrun hreach hstage h0 hseg hd (bar2Refuses_of_fenced hf)
  · refine ⟨_, bar2Read_up hrun hreach hstage h0 hseg hp hup, ?_⟩
    rw [bar2Piece_free hp (.inl hc)]
    rfl
  · refine ⟨_, hwrite hp hf hw hup, ?_⟩
    rw [bar2Put_free (bar2Refuses_of_free (s := s.linked) hp hf) hc]
    subst hd
    obtain ⟨hin, hout⟩ := memRead_bankWriteN hok hp (hf1.trans hf) hseg hq
    exact ⟨(State.bankWriteN_keeps (log_closed s1.log rfl rfl) rfl).trans hl, (State.bankWriteN_keeps (emitted_closed s1.emitted rfl) rfl).trans he,
      (State.bankWriteN_keeps (home_closed s1.home rfl rfl) rfl).trans hh, hin, hout⟩
  · refine ⟨_, bar2Read_up hrun hreach hstage h0 hseg hp hup, ?_⟩
    rw [bar2Piece_waits hp hc (hf1.trans hf)]
    obtain ⟨hcm, hce⟩ := collide_frame a len .host s1
    exact ⟨hce.trans he, hcm.trans hm, (queued_collide hc len .host).1⟩
  · refine ⟨_, hwrite hp hf hw hup, ?_⟩
    rw [bar2Put_waits (bar2Refuses_of_free (s := s.linked) hp hf) hc (hf1.trans hf)]
    exact ⟨(collide_frame ..).1.trans hm, (queued_collide hc data.length (.write data)).2⟩
  · refine ⟨_, bar2Write_free hrun hreach hstage h0 hseg hd (bar2Refuses_of_free hp hf), ?_⟩
    rw [show s.host.bar2WrEnable = false from hw, Bool.not_false, if_pos rfl]
    rfl

end

section
/-! The statement on leases. -/

open Sys2Proof Sys2Proof.Machine

namespace Sys2Proof.Machine

/-- Page 0 of sequence 1, torn before, open for an append whose data are on flash. -/
def earlyPage : Entry := { name := { handle := 1 }, frameState := .flash, pageState := .writeOpen, fill := 16 }

/-- The lease on that page, in slot 5 of unit 0. -/
def earlyLease : Lease := { leaseId := 5 * 65536, holder := 5, epoch := 3, params := { handle := 1, epoch := 3 }, expiry := 2 ^ 80 }

/-- The LEASE_ACQUIRE that made the lease; it waits for the page to land and is not granted yet (R212, R246). -/
def earlyAcquire : Req := { op := 4, kind := .acquire earlyLease.params [{ handle := 1 }] 5 [] [({ handle := 1 }, .torn)] }

/-- A node that serves slice 0 and queue pair 2, with the lease and the acquire that still waits. -/
def earlyNode : State :=
  { aon := { now := 1000000000, phase := .running, bootStage := 8, stacksUp := true, stopped := [], resetLow := false }
    sch := { slices := { state := .serving, cfg := { stackList := [0, 1], ports := 1 }, valid := true } :: List.replicate 7 {} }
    eth := { ports := { mode := 1, linkUp := true, lanes := 3 } :: List.replicate 7 {}, groups := [(0, { cfg := { gRate := 0xfffff, gBurst := 100 } })] }
    xpt := { ctxs := [(2, { state := .rts, level := some 3, rid := 5 })], serviceKeys := [(0, { rights := 0x1ff, hi := 2 ^ 64 - 1 })] }
    home := { cur := some { generation := 1 }, seqs := [{ handle := 1, seqState := 1, epoch := 3, openLeases := 1 }],
              leases := [(5, earlyLease)], entries := [earlyPage] }
    reqs := [(0, earlyAcquire)]
    nextReq := 1 }

/-- The header of a request of queue pair 2 under its service key. -/
def earlyHdr : ExtHdr := { mapGen := 1, key := mkKey 1 0 0 }

/-- A PUBLISH_PAGE of the lease's one page, as an append of four positions. -/
def earlyPublish : PublishParams := { leaseId := 5 * 65536, epoch := 3, pages := [{ fill := 20 }] }

/-- The request is admitted under the lease, no page of it under a grant. -/
theorem earlyPublish_admitted : (match admission earlyHdr (.publishPage earlyHdr earlyPublish) (publishSpec earlyHdr earlyPublish earlyNode.settle)
      earlyNode.settle with
    | some (c, s2) => ((s2.changedBy c.slice (.publishPage earlyHdr earlyPublish)).filter (s2.shared c.slice)).isEmpty &&
        s2.leaseById (5 * 65536) = some (5, earlyLease)
    | none => false) = true := by decide +kernel

/-- After it the page is torn. -/
theorem earlyPublish_torn : (match exec (.publishPage earlyHdr earlyPublish) earlyNode with
    | .next t => (t.entry 0 { handle := 1 }).map Entry.pageState
    | _ => none) = some .torn := by decide +kernel

end Sys2Proof.Machine

/-- Refutes O25, in its clause on PUBLISH_PAGE: a lease whose acquire still waits for a page is open already (log entry 16); a
publish under it that takes its last page ends it, and ending it undoes the acquire (R212), which gives the page just published the
state that it had before. -/
theorem not_leasesGrantAndPublish : ¬ Obligations.LeasesGrantAndPublish := by
  unfold Obligations.LeasesGrantAndPublish
  rintro ⟨-, -, hpub⟩
  have hadm := earlyPublish_admitted
  split at hadm
  · rename_i c s2 he
    obtain ⟨hun, hlease⟩ := (Bool.and_eq_true _ _).mp hadm
    obtain ⟨t, ht, x, hx, -, -, hpages⟩ := hpub earlyHdr earlyPublish earlyNode s2 c rfl he (List.isEmpty_iff.mp hun)
    cases hx.symm.trans (of_decide_eq_true hlease)
    obtain ⟨e, hent, -, hstate, -⟩ := hpages { fill := 20 } (by decide) (by decide)
    have htorn := earlyPublish_torn
    rw [ht] at htorn
    change (t.entry 0 { handle := 1 }).map Entry.pageState = _ at htorn
    change t.entry 0 { handle := 1 } = _ at hent
    rw [hent, Option.map_some, hstate] at htorn
    exact absurd htorn (by decide)
  · exact absurd hadm (by decide)

end

section
/-! The statement on requests for attention. -/

open Sys2Proof Sys2Proof.Machine

namespace Sys2Proof.Machine

/-- A page whose fill goes into a frame of stack 1, in a slice that has no flash drive any more. -/
def strandedPage : Entry := { name := { handle := 1 }, frameState := .filling, pageState := .published, stackFrame := (1, 64), fill := 16 }

/-- An earlier ATTEND_FWD of queue pair 2: one page of it is done, and it waits for the page in context 0. -/
def strandedReq : Req := { qpn := 2, kind := .attend {} [.waiting 0 1 [], .done .ok] [] [] 0 }

/-- A node that serves slice 0 on cells alone and queue pair 2; stack 1 is fenced, and the page has not yet taken it (R71). -/
def strandedNode : State :=
  { aon := { now := 1000000000, phase := .running, bootStage := 8, stacksUp := true, stopped := [], resetLow := false }
    ras := { regionsFenced := [1] }
    sch := { slices := { state := .serving, valid := true, cfg := { blocks := 0xf, stackList := [0, 1], ports := 1, phaseMode := 1 } } ::
      List.replicate 7 {} }
    eth := { ports := { mode := 1, linkUp := true, lanes := 3 } :: List.replicate 7 {},
             groups := [(0, { cfg := { gRate := 0xfffff, gBurst := 100 } })] }
    xpt := { ctxs := [(2, { state := .rts, level := some 3, rid := 5 })], serviceKeys := [(0, { rights := 0x1ff, hi := 2 ^ 64 - 1 })] }
    home := { cur := some { generation := 1 }, entries := [strandedPage] }
    eng := { ctxs := [(0, { name := { handle := 1 } })] }
    reqs := [(0, strandedReq)]
    nextReq := 1 }

/-- The header of a request of queue pair 2 under its service key. -/
def strandedHdr : ExtHdr := { mapGen := 1, key := mkKey 1 0 0 }

/-- An ATTEND_FWD of the page. -/
def strandedFwd : FwdParams := { handle := 1, query := [List.replicate 32 0] }

/-- What the pages of an admitted request resolve to. -/
def admittedItems (h : ExtHdr) (p : FwdParams) (s2 : State) (c : Ctx) : List Item :=
  let a := s2.addReq h 0 c (s2.onPrevious c.slice h.mapGen 0 p.handle true) (.attend p [] [] [] 0)
  (a.2.resolveRange { r := a.1, slice := c.slice, cls := a.2.classOf c.slice c.group, phase := (a.2.cfg c.slice).phaseMode, p := p }).1

/-- The request is admitted, its page resolves without a wait to MISS, and no landed request waits. -/
theorem strandedFwd_admitted : (match admission strandedHdr (.attendFwd strandedHdr strandedFwd) (fwdSpec strandedHdr strandedFwd strandedNode)
      strandedNode.settle with
    | some (c, s2) =>
      (admittedItems strandedHdr strandedFwd s2 c).all (fun i => i.res = .code .miss) && s2.eng.ctxs.all (fun x => x.2.slotState ≠ 1) &&
        (s2.cfg c.slice).phaseMode = 1 && rangeCode (rangeCodes
          (rangeBlocks (PageFormatT (s2.format c.slice)) strandedFwd.posStart strandedFwd.posCount).length
          (admittedItems strandedHdr strandedFwd s2 c)) = .miss
    | none => false) = true := by decide +kernel

/-- The last response of the queue pair after it is that of the earlier request. -/
theorem strandedFwd_answers : (match exec (.attendFwd strandedHdr strandedFwd) strandedNode with
    | .next t => (lastResponse t 2).map (fun r => r.2.2.1)
    | _ => none) = some .part := by decide +kernel

end Sys2Proof.Machine

/-- Refutes O12: the resolution of the request's own page takes a fence that the page owed (R71), which ends its fill and wakes the
contexts that waited for it; so an earlier request of the queue pair is answered after this one, although none had landed before. -/
theorem not_attendFwdAnswers : ¬ Obligations.AttendFwdAnswers := by
  unfold Obligations.AttendFwdAnswers
  intro h
  have hadm := strandedFwd_admitted
  split at hadm
  · rename_i c s2 he
    simp only [Bool.and_eq_true, List.all_eq_true, decide_eq_true_eq] at hadm
    obtain ⟨⟨⟨hitems, hctxs⟩, hphase⟩, hcode⟩ := hadm
    obtain ⟨t, ht, -, skipped, bound, rows, hlast, -⟩ := h strandedHdr strandedFwd strandedNode s2 c rfl he
      (fun i hi e hw => by rw [hitems i hi] at hw; cases hw) hctxs (.inl hphase)
    have hpart := strandedFwd_answers
    rw [ht] at hpart
    change (lastResponse t 2).map _ = _ at hpart
    change lastResponse t 2 = _ at hlast
    rw [hlast] at hpart
    change some (rangeCode (rangeCodes _ (admittedItems strandedHdr strandedFwd s2 c))) = _ at hpart
    rw [hcode] at hpart
    exact absurd hpart (by decide)
  · exact absurd hadm (by decide)

end

section
/-! SUPPORT. Reclaim epochs (R66): no move, fill, recovery or reclamation changes them; they rise by RECLAIM_EPOCH_ADVANCE alone. -/

namespace Sys2Proof.Machine

variable {s : State} {slice : Nat} {n : PageName}

/-! ## Operations on memory, space and entries -/

@[simp] theorem epochs_ite {c : Prop} [Decidable c] {a b : State} :
    (if c then a else b).mem.epochs = if c then a.mem.epochs else b.mem.epochs := by split <;> rfl

theorem epochs_foldl {α : Type} {l : List α} {f : State → α → State} (k : ∀ t x, (f t x).mem.epochs = t.mem.epochs) :
    (l.foldl f s).mem.epochs = s.mem.epochs :=
  keep_foldl (P := fun t => t.mem.epochs = s.mem.epochs) (fun t x h => (k t x).trans h) rfl

@[simp] theorem epochs_bankWrite {a : Nat} {b : Byte} : (s.bankWrite a b).mem.epochs = s.mem.epochs := by
  unfold State.bankWrite
  split <;> rfl

@[simp] theorem epochs_bankWriteN {a : Nat} {l : List Byte} : (s.bankWriteN a l).mem.epochs = s.mem.epochs := by
  induction l generalizing s a with
  | nil => rfl
  | cons b t ih => exact ih.trans epochs_bankWrite

theorem epochs_collide {a k : Nat} {j : CqJob} : (s.collide a k j).mem.epochs = s.mem.epochs := rfl

theorem epochs_memZero {lo hi : Nat} : (s.memZero lo hi).mem.epochs = s.mem.epochs := rfl

@[simp] theorem epochs_busWrite {a : Nat} {d : List Byte} : (s.busWrite a d).mem.epochs = s.mem.epochs := by
  unfold State.busWrite
  rw [epochs_ite, epochs_collide, epochs_bankWriteN, ite_self]

@[simp] theorem epochs_memWriteN {a : Nat} {l : List Byte} : (s.memWriteN a l).mem.epochs = s.mem.epochs :=
  epochs_foldl fun _ _ => epochs_busWrite

@[simp] theorem epochs_busBytes {l : List (Nat × Byte)} : (s.busBytes l).mem.epochs = s.mem.epochs :=
  epochs_foldl fun _ _ => epochs_busWrite

@[simp] theorem epochs_zeroGranules {place : Nat × Nat} {k : Nat} : (s.zeroGranules place k).mem.epochs = s.mem.epochs := by
  unfold State.zeroGranules
  dsimp only
  split
  · refine epochs_foldl fun t x => ?_
    rw [epochs_ite, epochs_collide, epochs_memZero, ite_self]
  · exact epochs_memZero

@[simp] theorem epochs_writeImage {f : PageFormat} {frame : Nat × Nat} {img : List (Nat × Byte)} :
    (s.writeImage f frame img).mem.epochs = s.mem.epochs := epochs_busBytes.trans epochs_zeroGranules

@[simp] theorem epochs_clearMark : s.clearMark.mem.epochs = s.mem.epochs := by
  unfold State.clearMark
  split <;> rfl

theorem epochs_allocIn {stack kind k : Nat} : OnSome (fun r => r.2.mem.epochs = s.mem.epochs) (s.allocIn slice stack kind k) := by
  unfold State.allocIn
  split
  · exact .none
  · dsimp only
    split
    · exact .map fun _ _ => epochs_clearMark
    · split
      · exact .some epochs_clearMark
      · exact .none

theorem epochs_allocFrom {kind k : Nat} {l : List Nat} : OnSome (fun r => r.2.mem.epochs = s.mem.epochs) (s.allocFrom slice kind k l) := by
  induction l with
  | nil => exact .none
  | cons a t ih =>
    unfold State.allocFrom
    split
    · next r h => exact .some (epochs_allocIn r h)
    · exact ih

theorem epochs_allocFrame : OnSome (fun r => r.2.mem.epochs = s.mem.epochs) (s.allocFrame slice n) := by
  unfold State.allocFrame
  dsimp only
  split
  · exact .none
  · exact epochs_allocFrom

@[simp] theorem epochs_freeUnit {place : Nat × Nat} : (s.freeUnit place).mem.epochs = s.mem.epochs := epochs_clearMark

@[simp] theorem epochs_retire {q : Nat} {r : Retired} : (s.retire q r).mem.epochs = s.mem.epochs := epochs_clearMark

@[simp] theorem epochs_retireUnit {q k : Nat} {place : Nat × Nat} : (s.retireUnit q place k).mem.epochs = s.mem.epochs := epochs_retire

@[simp] theorem epochs_retireExtent {q d g k : Nat} : (s.retireExtent q d g k).mem.epochs = s.mem.epochs := epochs_retire

@[simp] theorem epochs_onDrive {d : Nat} {f : Drive → Drive} : (s.onDrive d f).mem.epochs = s.mem.epochs := rfl

theorem epochs_allocExtent {k : Nat} : OnSome (fun r => r.2.mem.epochs = s.mem.epochs) (s.allocExtent slice n k) := by
  unfold State.allocExtent
  refine .findSome fun d => ?_
  split
  · split
    · exact .none
    · split
      · exact .map fun _ _ => epochs_clearMark
      · exact .none
  · exact .none

@[simp] theorem epochs_issueOne {d : Nat} : (s.issueOne d).mem.epochs = s.mem.epochs := by
  unfold State.issueOne
  dsimp only
  repeat' first | rfl | split

theorem epochs_issueAll {d : Nat} : (s.issueAll d).mem.epochs = s.mem.epochs := by
  unfold State.issueAll
  exact epochs_foldl fun _ _ => epochs_issueOne

@[simp] theorem epochs_addCmds {d g b : Nat} {c : NvmeCmd} : (s.addCmds d c g b).mem.epochs = s.mem.epochs := by
  unfold State.addCmds
  rw [epochs_issueAll, epochs_onDrive]

@[simp] theorem epochs_dropCmds {d : Nat} : (s.dropCmds d slice n).mem.epochs = s.mem.epochs := rfl

@[simp] theorem epochs_freeExtent {d g k : Nat} : (s.freeExtent d g k).mem.epochs = s.mem.epochs := by
  unfold State.freeExtent
  rw [epochs_issueAll, epochs_onDrive, epochs_clearMark]

@[simp] theorem epochs_onEntry {f : Entry → Entry} : (s.onEntry slice n f).mem.epochs = s.mem.epochs := epochs_clearMark

@[simp] theorem epochs_onSeq {handle : Nat} {f : SeqRec → SeqRec} : (s.onSeq slice handle f).mem.epochs = s.mem.epochs := epochs_clearMark

@[simp] theorem epochs_onReplica {f : Replica → Replica} : (s.onReplica slice n f).mem.epochs = s.mem.epochs := rfl

@[simp] theorem epochs_dropEntry : (s.dropEntry slice n).mem.epochs = s.mem.epochs := by
  unfold State.dropEntry
  simp only [epochs_onSeq, State.onMem_mem, State.onHome_mem, epochs_clearMark]
  split <;> rfl

@[simp] theorem epochs_tellReplicas {f : Nat → TxBody} : (s.tellReplicas slice n f).mem.epochs = s.mem.epochs :=
  congrArg Mem.epochs (State.tellReplicas_keeps (mem_closed s.mem rfl rfl rfl) rfl)

@[simp] theorem epochs_revokeGrants : (s.revokeGrants slice n).mem.epochs = s.mem.epochs :=
  congrArg Mem.epochs (State.revokeGrants_keeps (mem_closed s.mem rfl rfl rfl) rfl)

theorem epochs_writeAccHeader {a : Accumulator} : (s.writeAccHeader a).mem.epochs = s.mem.epochs := by
  unfold State.writeAccHeader
  exact epochs_memWriteN

theorem epochs_writeHeaders {l : List Accumulator} : (l.foldl (fun s a => s.writeAccHeader a) s).mem.epochs = s.mem.epochs := by
  induction l generalizing s with
  | nil => rfl
  | cons a t ih => rw [List.foldl_cons, ih, epochs_writeAccHeader]

@[simp] theorem epochs_accGen {g : Nat} {r : Bool} : (s.accGen slice n r g).mem.epochs = s.mem.epochs := by
  unfold State.accGen
  dsimp only
  split
  · rw [epochs_writeHeaders, State.onHome_mem]
  · rw [State.onHome_mem]

@[simp] theorem epochs_bumpGen {r : Bool} : (s.bumpGen slice n r).mem.epochs = s.mem.epochs := by
  unfold State.bumpGen
  split
  · rfl
  · simp

@[simp] theorem epochs_freeRetired {r : Retired} : (s.freeRetired r).mem.epochs = s.mem.epochs := by
  unfold State.freeRetired
  simp

/-! ## Hull records, shadows and page states -/

theorem epochs_hullIn {stack : Nat} {f : PageFormat} : OnSome (fun r => r.2.mem.epochs = s.mem.epochs) (s.hullIn slice stack f) := by
  unfold State.hullIn
  dsimp only
  split
  · exact .some rfl
  · exact .map fun r h => epochs_allocIn r h

theorem epochs_hullFrom {f : PageFormat} {l : List Nat} : OnSome (fun r => r.2.mem.epochs = s.mem.epochs) (s.hullFrom slice f l) := by
  induction l with
  | nil => exact .none
  | cons a t ih =>
    unfold State.hullFrom
    split
    · next r h => exact .some (epochs_hullIn r h)
    · exact ih

@[simp] theorem epochs_writeHull {scale fill : Nat} : (s.writeHull slice n scale fill).mem.epochs = s.mem.epochs := by
  unfold State.writeHull
  dsimp only
  split
  · rfl
  · next e _ =>
    split
    · rfl
    · split
      · exact epochs_onEntry
      · split
        · exact epochs_onEntry
        · next l t h =>
          refine epochs_onEntry.trans (epochs_memWriteN.trans ?_)
          split at h
          · cases h
            rfl
          · exact epochs_hullFrom _ h

@[simp] theorem epochs_copyOut : (s.copyOut slice n).mem.epochs = s.mem.epochs :=
  congrArg Mem.epochs (State.copyOut_keeps (mem_closed s.mem rfl rfl rfl) rfl)

@[simp] theorem epochs_setPageState {st : PageState} : (s.setPageState slice n st).mem.epochs = s.mem.epochs := by
  unfold State.setPageState
  simp

@[simp] theorem epochs_retireHull : (s.retireHull slice n).mem.epochs = s.mem.epochs := by
  unfold State.retireHull
  split <;> simp

@[simp] theorem epochs_retireShadow : (s.retireShadow slice n).mem.epochs = s.mem.epochs := by
  unfold State.retireShadow
  split <;> simp

@[simp] theorem epochs_fillShadow {f : PageFormat} {src dst : Nat × Nat} {k v fill : Nat} :
    (s.fillShadow f src dst k v fill).mem.epochs = s.mem.epochs :=
  (epochs_foldl fun _ _ => epochs_foldl fun _ _ => epochs_busBytes).trans epochs_zeroGranules

@[simp] theorem epochs_dropWriteFrame : (s.dropWriteFrame slice n).mem.epochs = s.mem.epochs := by
  unfold State.dropWriteFrame
  split <;> simp

/-! ## What an entry owes -/

@[simp] theorem epochs_writeSlots {st : Nat} {code : Code} : (s.writeSlots slice n st code).mem.epochs = s.mem.epochs := rfl

@[simp] theorem epochs_applyRestart : (s.applyRestart slice n).mem.epochs = s.mem.epochs := by
  unfold State.applyRestart
  split
  · rfl
  · simp

@[simp] theorem epochs_forgetLook : (s.forgetLook slice n).mem.epochs = s.mem.epochs := rfl

@[simp] theorem epochs_applyFences : (s.applyFences slice n).mem.epochs = s.mem.epochs := by
  unfold State.applyFences
  split
  · rfl
  · dsimp only
    split
    · split <;> simp
    · simp

@[simp] theorem epochs_applyDrive : (s.applyDrive slice n).mem.epochs = s.mem.epochs := by
  unfold State.applyDrive
  split
  · rfl
  · split
    · split <;> simp
    · rfl

@[simp] theorem epochs_refresh : (s.refresh slice n).mem.epochs = s.mem.epochs := by
  unfold State.refresh
  simp

/-! ## Fills, recoveries and those that wait for a page -/

@[simp] theorem epochs_onFill {f : Fill → Fill} : (s.onFill slice n f).mem.epochs = s.mem.epochs := rfl

@[simp] theorem epochs_endFill : (s.endFill slice n).mem.epochs = s.mem.epochs := rfl

@[simp] theorem epochs_countTier {q : Nat} {f : TierCount → TierCount} : (s.countTier q f).mem.epochs = s.mem.epochs := rfl

@[simp] theorem epochs_raiseFill {cls : Nat} : (s.raiseFill slice n cls).mem.epochs = s.mem.epochs := by
  unfold State.raiseFill State.classFill
  split <;> rfl

@[simp] theorem epochs_placeFill : (s.placeFill slice n).mem.epochs = s.mem.epochs := by
  unfold State.placeFill
  split
  · split
    · rfl
    · split
      · rfl
      · next p t h =>
        have k := epochs_allocFrame _ h
        simpa using k
  · rfl

@[simp] theorem epochs_finishReq {r : Nat} {code : Code} {body : RespBody} : (s.finishReq r code body).mem.epochs = s.mem.epochs :=
  congrArg Mem.epochs (State.finishReq_keeps (mem_closed s.mem rfl rfl rfl) rfl)

@[simp] theorem epochs_undoAcquire {slot : Nat} {made : List PageName} {pre : List (PageName × PageState)} :
    (s.undoAcquire slot made pre).mem.epochs = s.mem.epochs := by
  unfold State.undoAcquire
  split
  · rfl
  · refine epochs_onSeq.trans ((epochs_foldl fun _ _ => epochs_dropEntry).trans ((epochs_foldl fun _ _ => epochs_setPageState).trans ?_))
    exact epochs_foldl fun _ _ => epochs_dropWriteFrame

@[simp] theorem epochs_copyOld : (s.copyOld slice n).mem.epochs = s.mem.epochs := by
  unfold State.copyOld
  dsimp only
  split <;> simp

@[simp] theorem epochs_grantLease {r slot : Nat} : (s.grantLease r slot).mem.epochs = s.mem.epochs := by
  unfold State.grantLease
  split
  · rfl
  · next l _ =>
    have k : (l.held.foldl (fun s n => s.copyOld l.slice n) s).mem.epochs = s.mem.epochs := epochs_foldl fun _ _ => epochs_copyOld
    simp [k]

@[simp] theorem epochs_tellFate {fate : Fate} : (s.tellFate slice n fate).mem.epochs = s.mem.epochs := by
  unfold State.tellFate
  refine (epochs_foldl fun t p => ?_).trans rfl
  split
  · rfl
  · split
    · exact epochs_finishReq
    · simp
    · rfl

@[simp] theorem epochs_dropReplica : (s.dropReplica slice n).mem.epochs = s.mem.epochs := epochs_tellReplicas

@[simp] theorem epochs_logEvent {a b c d e f g : Nat} : (s.logEvent a b c d e f g).mem.epochs = s.mem.epochs :=
  congrArg Mem.epochs (State.logEvent_keeps (mem_closed s.mem rfl rfl rfl) rfl)

@[simp] theorem epochs_losePage {cause drive lba nvme : Nat} : (s.losePage slice n cause drive lba nvme).mem.epochs = s.mem.epochs := by
  unfold State.losePage
  split
  · rfl
  · simp

@[simp] theorem epochs_askNext : (s.askNext slice n).mem.epochs = s.mem.epochs := by
  unfold State.askNext
  split
  · split
    · rfl
    · split
      · rfl
      · split <;> exact epochs_losePage
  · rfl

@[simp] theorem epochs_startRecovery {cause : Nat} {media : Option (Nat × Nat)} :
    (s.startRecovery slice n cause media).mem.epochs = s.mem.epochs := by
  unfold State.startRecovery
  split <;> simp

@[simp] theorem epochs_startFill {cls : Nat} {look : Bool} : (s.startFill slice n cls look).mem.epochs = s.mem.epochs := by
  unfold State.startFill
  split <;> simp

@[simp] theorem epochs_awaitPage {cls : Nat} : (s.awaitPage slice n cls).mem.epochs = s.mem.epochs := by
  unfold State.awaitPage
  split <;> simp

/-! ## Reclamation and demotion -/

@[simp] theorem epochs_releaseFrame {e : Entry} : (s.releaseFrame e).mem.epochs = s.mem.epochs := by
  unfold State.releaseFrame
  simp

@[simp] theorem epochs_writeShadow {e : Entry} : (s.writeShadow e).mem.epochs = s.mem.epochs := by
  unfold State.writeShadow
  dsimp only
  split
  · rfl
  · split
    · rfl
    · split
      · rfl
      · next p t h =>
        have k := epochs_allocFrom _ h
        simpa using k

theorem epochs_demote {e : Entry} : OnSome (fun t => t.mem.epochs = s.mem.epochs) (s.demote e) := by
  unfold State.demote
  split
  · exact .none
  · split
    · exact .none
    · next x t h =>
      have k := epochs_allocExtent _ h
      refine .some ?_
      simpa using k

@[simp] theorem epochs_beginMove {k : MoveKind} : (s.beginMove slice n k).mem.epochs = s.mem.epochs := by
  unfold State.beginMove
  rw [State.onHome_mem, epochs_revokeGrants]

@[simp] theorem epochs_releaseRounds {sts : List Nat} {pct : Nat} {es : List Entry} :
    (s.releaseRounds sts pct es).mem.epochs = s.mem.epochs := by
  unfold State.releaseRounds
  induction es generalizing s with
  | nil => rfl
  | cons e t ih =>
    rw [List.foldl_cons, ih]
    simp

@[simp] theorem epochs_demoteRound {sts : List Nat} {pct : Nat} {es : List Entry} :
    (State.demoteRound sts pct es s).mem.epochs = s.mem.epochs := by
  induction es generalizing s with
  | nil => rfl
  | cons e t ih =>
    unfold State.demoteRound
    split
    · rfl
    · split
      · exact ih.trans epochs_beginMove
      · split
        · rfl
        · next u h => exact ih.trans (epochs_demote _ h)

@[simp] theorem epochs_reclaim {sts : List Nat} : (s.reclaim slice sts).mem.epochs = s.mem.epochs := by
  unfold State.reclaim
  simp

@[simp] theorem epochs_reclaimOn : s.reclaimOn.mem.epochs = s.mem.epochs := epochs_foldl fun _ _ => epochs_reclaim

/-! ## Writes that waited, and fills that are placed -/

@[simp] theorem epochs_unclean : (s.unclean slice n).mem.epochs = s.mem.epochs := by
  unfold State.unclean
  split
  · rfl
  · dsimp only
    split <;> simp

@[simp] theorem epochs_writePage {at_ : Nat} {data : List Byte} : (s.writePage slice n at_ data).mem.epochs = s.mem.epochs := by
  unfold State.writePage
  dsimp only
  split <;> simp

@[simp] theorem epochs_applyWaits : (s.applyWaits slice n).mem.epochs = s.mem.epochs := epochs_foldl fun _ _ => epochs_writePage

@[simp] theorem epochs_fillStale {f : Fill} : (s.fillStale f).mem.epochs = s.mem.epochs := by
  unfold State.fillStale
  have k (t : State) : (match ((t.endFill f.slice f.name).writeSlots f.slice f.name 1 .ok).entry f.slice f.name with
      | none => ((t.endFill f.slice f.name).writeSlots f.slice f.name 1 .ok).tellFate f.slice f.name .gone
      | some e => if e.frameState.inStack then
          (((t.endFill f.slice f.name).writeSlots f.slice f.name 1 .ok).applyWaits f.slice f.name).tellFate f.slice f.name .landed
        else if ((t.endFill f.slice f.name).writeSlots f.slice f.name 1 .ok).awaited f.slice f.name then
          ((t.endFill f.slice f.name).writeSlots f.slice f.name 1 .ok).awaitPage f.slice f.name 1
        else (t.endFill f.slice f.name).writeSlots f.slice f.name 1 .ok).mem.epochs = t.mem.epochs := by split <;> simp
  dsimp only
  refine (k _).trans ?_
  split
  · exact epochs_retireUnit
  · rfl

@[simp] theorem epochs_landed {f : Fill} : (s.landed slice n f).mem.epochs = s.mem.epochs := by
  unfold State.landed
  simp

@[simp] theorem epochs_rehull : (s.rehull slice n).mem.epochs = s.mem.epochs := by
  unfold State.rehull
  split <;> simp

@[simp] theorem epochs_recovered {f : Fill} {img : PageImage} : (s.recovered slice n f img).mem.epochs = s.mem.epochs := by
  unfold State.recovered
  split
  · exact epochs_fillStale
  · split
    · simp
    · split
      · exact epochs_askNext
      · split
        · rfl
        · next p t h =>
          have k := epochs_allocFrame _ h
          simpa using k

@[simp] theorem epochs_placeFills : s.placeFills.mem.epochs = s.mem.epochs := by
  refine epochs_foldl fun t f => ?_
  split
  · exact epochs_placeFill
  · exact epochs_recovered

end Sys2Proof.Machine
end

section
/-! SUPPORT. A node where no reclamation, fill, recovery or move waits (R222, R224, R240): nothing goes on by itself. -/

namespace Sys2Proof.Machine

variable {s : State}

/-- A change of the home that changes nothing there. -/
theorem onHome_same {f : Home → Home} (h : f s.home = s.home) : s.onHome f = s := by
  unfold State.onHome
  rw [h]

/-- With no reclamation running, none goes on. -/
theorem reclaimOn_idle (h : s.home.reclaiming = []) : s.reclaimOn = s := by
  unfold State.reclaimOn
  rw [h, List.foldl_nil]
  apply onHome_same
  rw [h, List.filter_nil, ← h]

/-- With no fill or recovery running, none is placed. -/
theorem placeFills_idle (h : s.home.fills = []) : s.placeFills = s := by
  unfold State.placeFills
  rw [h, List.foldl_nil]

/-- Where neither a reclamation nor a fill runs, what follows a change of space does nothing. -/
theorem onward_idle (hr : s.home.reclaiming = []) (hf : s.home.fills = []) : s.reclaimOn.placeFills = s := by
  rw [reclaimOn_idle hr, placeFills_idle hf]

/-- Freeing retired places changes neither the home nor the retire lists. -/
theorem freeRetired_home {r : Retired} : (s.freeRetired r).home = s.home := State.freeRetired_keeps (home_closed s.home rfl rfl) rfl

@[simp] theorem retireLists_clearMark : s.clearMark.mem.retire = s.mem.retire := by
  unfold State.clearMark
  split <;> rfl

theorem retireLists_freeUnit {place : Nat × Nat} : (s.freeUnit place).mem.retire = s.mem.retire := retireLists_clearMark

theorem retireLists_issueOne {d : Nat} : (s.issueOne d).mem.retire = s.mem.retire := by
  unfold State.issueOne
  dsimp only
  repeat' first | rfl | split

theorem retireLists_issueAll {d : Nat} : (s.issueAll d).mem.retire = s.mem.retire := by
  unfold State.issueAll
  exact keep_foldl (P := fun t => t.mem.retire = s.mem.retire) (fun _ _ h => retireLists_issueOne.trans h) rfl

theorem retireLists_freeExtent {d g k : Nat} : (s.freeExtent d g k).mem.retire = s.mem.retire := by
  unfold State.freeExtent
  rw [retireLists_issueAll]
  exact retireLists_clearMark

theorem retireLists_freeRetired {r : Retired} : (s.freeRetired r).mem.retire = s.mem.retire := by
  unfold State.freeRetired
  dsimp only
  split
  · exact retireLists_freeExtent
  · split
    · split
      · split
        · rfl
        · exact retireLists_freeUnit
      · rfl
    · exact retireLists_freeUnit

theorem foldl_freeRetired {l : List Retired} : (l.foldl (fun s r => s.freeRetired r) s).home = s.home ∧
    (l.foldl (fun s r => s.freeRetired r) s).mem.retire = s.mem.retire ∧
    (l.foldl (fun s r => s.freeRetired r) s).mem.epochs = s.mem.epochs := by
  induction l generalizing s with
  | nil => exact ⟨rfl, rfl, rfl⟩
  | cons r t ih =>
    obtain ⟨hh, hr, he⟩ := ih (s := s.freeRetired r)
    exact ⟨hh.trans freeRetired_home, hr.trans retireLists_freeRetired, he.trans epochs_freeRetired⟩

/-- The quarter's epoch risen by one, with the places that may be freed off its retire list. -/
def State.epochRaised (q : Nat) (s : State) : State := s.onMem (fun m => { m with
  epochs := m.epochs.set q (s.mem.epochs.getD q 0 + 1)
  retire := m.retire.update q [] (fun l => l.filter (fun r => !freeable (s.heldEpochs q) (s.mem.epochs.getD q 0 + 1) r)) })

theorem advanceEpoch_eq {q : Nat} : s.advanceEpoch q =
    (((s.retireList q).filter (freeable (s.heldEpochs q) (s.mem.epochs.getD q 0 + 1))).foldl (fun s r => s.freeRetired r)
      (s.epochRaised q)).reclaimOn.placeFills := rfl

/-- The epoch of a quarter rises by one. -/
theorem epoch_advanceEpoch {q : Nat} (h : q < s.mem.epochs.length) :
    (s.advanceEpoch q).mem.epochs.getD q 0 = s.mem.epochs.getD q 0 + 1 := by
  rw [advanceEpoch_eq, epochs_placeFills, epochs_reclaimOn, foldl_freeRetired.2.2]
  simp [State.epochRaised, h]

/-- On a quiet node the retire list of the quarter keeps what may not yet be freed. -/
theorem retireList_advanceEpoch {q : Nat} (h : quiet s) : (s.advanceEpoch q).retireList q =
    (s.retireList q).filter (fun r => !freeable (s.heldEpochs q) (s.mem.epochs.getD q 0 + 1) r) := by
  obtain ⟨hr, hf, -⟩ := h
  rw [advanceEpoch_eq, onward_idle (by rw [foldl_freeRetired.1]; exact hr) (by rw [foldl_freeRetired.1]; exact hf)]
  unfold State.retireList
  rw [foldl_freeRetired.2.1]
  exact Tbl.getD_update_same ..

end Sys2Proof.Machine
end

section
/-! SUPPORT. What reclamation reads of the home (R222): of each entry the name, the frame and the pins; of the home the grants, the names
of the accumulators and the fills. A release changes of all that only the released entry's frame state. -/

namespace Sys2Proof.Machine

variable {s : State} {slice : Nat} {n : PageName}

/-- What reclamation reads of an entry. -/
structure Face where
  slice : Nat
  name : PageName
  frameState : FrameState
  stackFrame : Nat × Nat
  pinCount : Nat

/-- The face of an entry. -/
def Entry.face (e : Entry) : Face := ⟨e.slice, e.name, e.frameState, e.stackFrame, e.pinCount⟩

/-- The faces of the entries of the name table. -/
def State.faces (s : State) : List Face := s.home.entries.map Entry.face

/-- The face is of that name. -/
def Face.is (slice : Nat) (n : PageName) (v : Face) : Bool := v.slice = slice && v.name = n

/-- A face once the pages of some entries are released: those are on flash. -/
def Face.freed (ds : List Entry) (v : Face) : Face :=
  if ds.any (fun d => v.is d.slice d.name) then { v with frameState := .flash } else v

theorem entry_face : (s.entry slice n).map Entry.face = s.faces.find? (Face.is slice n) := by
  unfold State.entry State.faces
  rw [List.find?_map]
  rfl

theorem faces_congr {t : State} (h : t.home.entries = s.home.entries) : t.faces = s.faces := by
  unfold State.faces
  rw [h]

theorem faces_onEntry {f : Entry → Entry} {g : Face → Face} (h : ∀ e, (f e).face = g e.face) :
    (s.onEntry slice n f).faces = s.faces.map (fun v => if v.is slice n then g v else v) := by
  unfold State.faces
  rw [entries_onEntry, List.map_map, List.map_map]
  refine List.map_congr_left fun e _ => ?_
  change Entry.face (if e.is slice n then f e else e) = if e.is slice n then g e.face else e.face
  rw [apply_ite Entry.face, h]

theorem faces_onEntry_same {f : Entry → Entry} (h : ∀ e, (f e).face = e.face) : (s.onEntry slice n f).faces = s.faces := by
  rw [faces_onEntry (g := id) h]
  simp

theorem faces_bumpGen {r : Bool} : (s.bumpGen slice n r).faces = s.faces := by
  unfold State.bumpGen
  split
  · rfl
  · next e _ =>
    have k : ((((s.onEntry slice n (fun e' => { e' with frameGen := (e.frameGen + 1) % 65536 })).accGen slice n r
        ((e.frameGen + 1) % 65536)).revokeGrants slice n).clearMark).faces = s.faces :=
      ((faces_congr (congrArg Home.entries home_clearMark)).trans ((faces_congr entries_revokeGrants).trans (faces_congr entries_accGen))).trans
        (faces_onEntry_same fun _ => rfl)
    dsimp only
    split
    · exact (faces_congr entries_onReplica).trans ((faces_congr entries_tellReplicas).trans k)
    · exact k

theorem faces_retireUnit {q k : Nat} {place : Nat × Nat} : (s.retireUnit q place k).faces = s.faces :=
  faces_congr (congrArg Home.entries (State.retireUnit_keeps (home_closed s.home rfl rfl) rfl))

/-- The released page is on flash. -/
theorem faces_releaseFrame {e : Entry} : (s.releaseFrame e).faces = s.faces.map (Face.freed [e]) := by
  unfold State.releaseFrame
  rw [faces_bumpGen, faces_onEntry (g := fun v => { v with frameState := .flash }) fun _ => rfl]
  have k : ((s.retireUnit e.quarter e.stackFrame (frameGranules (s.format e.slice))).forgetLook e.slice e.name).faces = s.faces :=
    faces_retireUnit
  rw [k]
  refine List.map_congr_left fun v _ => ?_
  unfold Face.freed
  rw [List.any_cons, List.any_nil, Bool.or_false]

theorem Face.freed_is {ds : List Entry} {v : Face} : (v.freed ds).is slice n = v.is slice n := by
  unfold Face.freed
  split <;> rfl

theorem Face.freed_freed {ds es : List Entry} {v : Face} : (v.freed ds).freed es = v.freed (ds ++ es) := by
  have k : es.any (fun d => (v.freed ds).is d.slice d.name) = es.any (fun d => v.is d.slice d.name) := by
    simp only [Face.freed_is]
  rw [Face.freed, k]
  unfold Face.freed
  rw [List.any_append]
  cases ds.any (fun d => v.is d.slice d.name) <;> cases es.any (fun d => v.is d.slice d.name) <;> rfl

/-! ## What a release leaves -/

/-- What reclamation reads of the home beside the entries: who holds grants for which page, which pages have accumulators, and the fills. -/
def Home.outline (h : Home) : List (Nat × PageName × List (Option (Nat × Nat))) × List (Nat × PageName) × List Fill :=
  (h.replicas.map (fun r => (r.slice, r.name, r.copies.map CopyS.granted)), h.accs.map (fun a => (a.slice, a.name)), h.fills)

theorem outline_onReplica {f : Replica → Replica}
    (h : ∀ r, (f r).slice = r.slice ∧ (f r).name = r.name ∧ (f r).copies.map CopyS.granted = r.copies.map CopyS.granted) :
    (s.onReplica slice n f).home.outline = s.home.outline := by
  unfold State.onReplica Home.outline
  rw [State.onHome_home]
  dsimp only
  rw [List.map_map]
  congr 1
  refine List.map_congr_left fun r _ => ?_
  obtain ⟨hs, hn, hc⟩ := h r
  dsimp only [Function.comp_apply]
  split
  · rw [hs, hn, hc]
  · rfl

theorem outline_tellReplicas {f : Nat → TxBody} : (s.tellReplicas slice n f).home.outline = s.home.outline :=
  congrArg Home.outline (State.tellReplicas_keeps (home_closed s.home rfl rfl) rfl)

theorem outline_revokeGrants : (s.revokeGrants slice n).home.outline = s.home.outline := by
  unfold State.revokeGrants
  dsimp only
  rw [outline_onReplica]
  · split
    · exact outline_tellReplicas
    · rfl
  · exact fun r => ⟨rfl, rfl, List.map_map⟩

theorem outline_onEntry {f : Entry → Entry} : (s.onEntry slice n f).home.outline = s.home.outline := by
  unfold State.onEntry Home.outline
  rw [State.onHome_home, home_clearMark]

theorem outline_accGen {g : Nat} {r : Bool} : (s.accGen slice n r g).home.outline = s.home.outline := by
  have names (f : Accumulator → Accumulator) (h : ∀ a, ((f a).slice, (f a).name) = (a.slice, a.name)) :
      (s.onHome (fun x => { x with accs := x.accs.map f })).home.outline = s.home.outline := by
    unfold Home.outline
    rw [State.onHome_home]
    dsimp only
    rw [List.map_map]
    exact congrArg (fun l => (_, l, _)) (List.map_congr_left fun a _ => h a)
  have hP (x) : Closed 17664 (fun t => t.home.outline = x) := .of_view (fun x => home_closed x rfl rfl) (fun h => h.outline = x)
  unfold State.accGen
  cases r with
  | false => exact names _ (fun a => by split <;> rfl)
  | true => exact State.writeHeaders_keeps (hP _) (names _ (fun a => by split <;> rfl))

theorem outline_bumpGen {r : Bool} : (s.bumpGen slice n r).home.outline = s.home.outline := by
  unfold State.bumpGen
  split
  · rfl
  · dsimp only
    have k (g : Nat) (f : Entry → Entry) :
        (((s.onEntry slice n f).accGen slice n r g).revokeGrants slice n).clearMark.home.outline = s.home.outline :=
      (congrArg Home.outline home_clearMark).trans (outline_revokeGrants.trans (outline_accGen.trans outline_onEntry))
    split
    · rw [outline_onReplica]
      · exact outline_tellReplicas.trans (k _ _)
      · exact fun r => ⟨rfl, rfl, List.map_map⟩
    · exact k _ _

theorem outline_releaseFrame {e : Entry} : (s.releaseFrame e).home.outline = s.home.outline := by
  unfold State.releaseFrame
  rw [outline_bumpGen, outline_onEntry]
  have k : (s.retireUnit e.quarter e.stackFrame (frameGranules (s.format e.slice))).home = s.home :=
    State.retireUnit_keeps (home_closed s.home rfl rfl) rfl
  unfold State.forgetLook Home.outline
  rw [State.onHome_home, k]

theorem shared_eq : s.shared slice n = s.home.outline.1.any (fun r => r.1 = slice && r.2.1 = n &&
    r.2.2.any (fun c => c.any (fun g => s.now < g.2))) := by
  unfold State.shared Home.outline
  simp only [List.any_map, Function.comp_def]

theorem ctxs_releaseFrame {e : Entry} : (s.releaseFrame e).eng.ctxs = s.eng.ctxs := by
  unfold State.releaseFrame
  have hb : ∀ (t : State) (f : Entry → Entry), ((t.onEntry e.slice e.name f).bumpGen e.slice e.name true).eng = t.eng := fun t f =>
    (State.bumpGen_keeps (eng_closed _ rfl rfl) rfl).trans (State.onEntry_keeps (eng_closed t.eng rfl rfl) rfl)
  have hr : ∀ r : Retired, (s.retire e.quarter r).eng = s.eng := fun r => State.retire_keeps (eng_closed s.eng rfl rfl) rfl
  unfold State.forgetLook State.retireUnit
  rw [hb, State.onHome_eng, State.onEng_eng, hr]

/-- Two states that reclamation reads alike, but for frames. -/
structure Alike (s t : State) : Prop where
  aon : t.aon = s.aon
  ras : t.ras = s.ras
  sch : t.sch = s.sch
  ctxs : t.eng.ctxs = s.eng.ctxs
  outline : t.home.outline = s.home.outline

theorem Alike.refl : Alike s s := ⟨rfl, rfl, rfl, rfl, rfl⟩

theorem Alike.trans {t u : State} (h : Alike s t) (k : Alike t u) : Alike s u :=
  ⟨k.aon.trans h.aon, k.ras.trans h.ras, k.sch.trans h.sch, k.ctxs.trans h.ctxs, k.outline.trans h.outline⟩

theorem alike_releaseFrame {e : Entry} : Alike s (s.releaseFrame e) where
  aon := State.releaseFrame_keeps (aon_closed s.aon rfl rfl) rfl
  ras := State.releaseFrame_keeps (ras_closed s.ras rfl rfl) rfl
  sch := State.releaseFrame_keeps (sch_closed s.sch rfl rfl) rfl
  ctxs := ctxs_releaseFrame
  outline := outline_releaseFrame

theorem Alike.shared {t : State} (h : Alike s t) : t.shared slice n = s.shared slice n := by
  rw [shared_eq, shared_eq, h.outline]
  unfold State.now
  rw [h.aon]

theorem Alike.stackFenced {t : State} (h : Alike s t) (k : Nat) : t.stackFenced k = s.stackFenced k := by
  unfold State.stackFenced
  rw [h.ras]

theorem Alike.frameHeld {t : State} (h : Alike s t) (e : Entry) : t.frameHeld e = s.frameHeld e := by
  unfold State.frameHeld
  rw [h.ctxs]

theorem Alike.cfg {t : State} (h : Alike s t) (i : Nat) : t.cfg i = s.cfg i := by
  unfold State.cfg State.slice
  rw [h.sch]

theorem Alike.fills {t : State} (h : Alike s t) : t.home.fills = s.home.fills := congrArg (fun x => x.2.2) h.outline

theorem Alike.demotable {t : State} (h : Alike s t) (e : Entry) : t.demotable e = s.demotable e := by
  have ha : ∀ u : State, (u.home.accs.any fun a => a.is e.slice e.name) = u.home.outline.2.1.any (fun x => x.1 = e.slice && x.2 = e.name) :=
    fun u => by
      unfold Home.outline
      simp only [List.any_map]
      rfl
  unfold State.demotable State.idle State.useStamp State.now
  rw [ha, ha, h.outline, h.stackFenced, h.cfg, h.aon]

end Sys2Proof.Machine
end

section
/-! SUPPORT. A reclamation with no page to demote and none whose grants stand (R222): it releases clean frames that may be taken, until
the target share is reached or none is left. -/

namespace Sys2Proof.Machine

variable {s : State} {slice pct : Nat} {sts : List Nat} {es : List Entry}

theorem mem_insertBefore {α : Type} {lt : α → α → Bool} {x y : α} {l : List α} :
    y ∈ sortBy.insertBefore lt x l ↔ y = x ∨ y ∈ l := by
  induction l with
  | nil => simp [sortBy.insertBefore]
  | cons a t ih =>
    unfold sortBy.insertBefore
    split
    · rw [List.mem_cons, ih, List.mem_cons]
      exact or_left_comm
    · exact List.mem_cons

theorem mem_sortBy {α : Type} {lt : α → α → Bool} {y : α} {l : List α} : y ∈ sortBy lt l ↔ y ∈ l := by
  induction l with
  | nil => rfl
  | cons a t ih => rw [sortBy, mem_insertBefore, ih, List.mem_cons]

/-! ## Rounds 1 and 2 -/

/-- The target share is reached: a round of releases does nothing more. -/
theorem releaseRounds_enough (h : s.shareAt sts (s.onTheWay sts) pct = true) : s.releaseRounds sts pct es = s := by
  unfold State.releaseRounds
  induction es with
  | nil => rfl
  | cons e t ih => rw [List.foldl_cons, if_pos h, ih]

/-- A round releases every frame it is given, or some of them and then the target share is reached. -/
theorem releaseRounds_does (h : ∀ e ∈ es, s.shared e.slice e.name = false) : ∃ ds, ds ⊆ es ∧
    (s.releaseRounds sts pct es).faces = s.faces.map (Face.freed ds) ∧ Alike s (s.releaseRounds sts pct es) ∧
    ((s.releaseRounds sts pct es).shareAt sts ((s.releaseRounds sts pct es).onTheWay sts) pct = true ∨ ds = es) := by
  by_cases hs : s.shareAt sts (s.onTheWay sts) pct = true
  · rw [releaseRounds_enough hs]
    exact ⟨[], List.nil_subset _, (List.map_id _).symm, .refl, .inl hs⟩
  · induction es generalizing s with
    | nil => exact ⟨[], List.nil_subset _, (List.map_id _).symm, .refl, .inr rfl⟩
    | cons e t ih =>
      have hstep : s.releaseRounds sts pct (e :: t) = (s.releaseFrame e).releaseRounds sts pct t := by
        unfold State.releaseRounds
        rw [List.foldl_cons, if_neg hs, if_neg (by rw [h e List.mem_cons_self]; exact Bool.false_ne_true)]
      have hl : Alike s (s.releaseFrame e) := alike_releaseFrame
      rw [hstep]
      by_cases hu : (s.releaseFrame e).shareAt sts ((s.releaseFrame e).onTheWay sts) pct = true
      · rw [releaseRounds_enough hu]
        exact ⟨[e], by simp, faces_releaseFrame, hl, .inl hu⟩
      · obtain ⟨ds, hds, hf, ha, ho⟩ := ih (fun x hx => hl.shared.trans (h x (List.mem_cons_of_mem _ hx))) hu
        refine ⟨e :: ds, List.cons_subset_cons _ hds, ?_, hl.trans ha, ho.imp_right (congrArg (e :: ·))⟩
        rw [hf, faces_releaseFrame, List.map_map]
        exact List.map_congr_left fun v _ => Face.freed_freed

/-! ## The three rounds -/

/-- The entries whose frames a reclamation may take, in its order. -/
def State.takable (slice : Nat) (sts : List Nat) (s : State) : List Entry :=
  sortBy s.takeBefore (s.home.entries.filter (fun e => e.slice = slice && e.frameState.inStack &&
    sts.contains e.stackFrame.1 && !s.stackFenced e.stackFrame.1 && !s.frameHeld e && e.pinCount = 0 && !s.moving? .release e &&
    !s.moving? .demote e))

theorem mem_takable (hm : s.home.moves = []) {e : Entry} : e ∈ s.takable slice sts ↔ e ∈ s.home.entries ∧ e.slice = slice ∧
    e.frameState.inStack = true ∧ sts.contains e.stackFrame.1 = true ∧ s.stackFenced e.stackFrame.1 = false ∧ s.frameHeld e = false ∧
    e.pinCount = 0 := by
  unfold State.takable State.moving?
  rw [mem_sortBy, List.mem_filter, hm]
  simp only [List.any_nil, Bool.not_false, Bool.and_true, Bool.and_eq_true, decide_eq_true_eq, Bool.not_eq_true', and_assoc]

/-- The frames of a first round: clean ones outside their stream's window. -/
def State.firstRound (slice : Nat) (sts : List Nat) (s : State) : List Entry :=
  ((s.takable slice sts).filter (fun e => e.frameState = .stackClean)).filter (fun e => !s.inWindow slice e.name)

/-- The frames of a second round, in the state that the first has left: those that are still clean. -/
def State.secondRound (slice : Nat) (sts : List Nat) (s mid : State) : List Entry :=
  ((s.takable slice sts).filter (fun e => e.frameState = .stackClean)).filter (fun e => match mid.entry slice e.name with
    | some x => x.frameState = .stackClean
    | none => false)

/-- The state after the first two rounds of a reclamation. -/
def State.released (slice : Nat) (sts : List Nat) (s : State) : State :=
  let mid := s.releaseRounds sts (s.cfg slice).tier.stackHigh (s.firstRound slice sts)
  mid.releaseRounds sts (s.cfg slice).tier.stackHigh (s.secondRound slice sts mid)

theorem reclaim_eq : s.reclaim slice sts = State.demoteRound sts (s.cfg slice).tier.stackHigh
    ((s.takable slice sts).filter (s.released slice sts).demotable) (s.released slice sts) := rfl

/-- A name stands in one entry at most. -/
def State.named (s : State) : Prop := ∀ e ∈ s.home.entries, s.entry e.slice e.name = some e

theorem named_of_pairwise (h : s.home.entries.Pairwise (fun a b => a.slice ≠ b.slice ∨ a.name ≠ b.name)) : s.named := by
  intro e he
  obtain ⟨x, hx⟩ := Option.isSome_iff_exists.mp (List.find?_isSome.mpr ⟨e, he, show e.is e.slice e.name = true by simp [Entry.is]⟩)
  have hxe : x = e := by
    by_contra hne
    have hk := List.find?_some hx
    simp only [Entry.is, Bool.and_eq_true, decide_eq_true_eq] at hk
    have : Std.Symm (fun a b : Entry => a.slice ≠ b.slice ∨ a.name ≠ b.name) := ⟨fun _ _ => Or.imp Ne.symm Ne.symm⟩
    exact (h.forall (List.mem_of_find?_eq_some hx) he hne).elim (· hk.1) (· hk.2)
  exact hxe ▸ hx

/-- A clean frame that a second round would take is released by the second round or was by the first. -/
theorem freed_by_rounds {mid : State} {ds : List Entry} (hn : s.named) (hm : s.home.moves = [])
    (hf : mid.faces = s.faces.map (Face.freed ds)) {e : Entry} (he : e ∈ s.takable slice sts) (hc : e.frameState = .stackClean) :
    (ds ++ s.secondRound slice sts mid).any (fun d => e.face.is d.slice d.name) = true := by
  obtain ⟨hmem, hslice, -⟩ := (mem_takable hm).mp he
  rw [List.any_append, Bool.or_eq_true]
  by_cases hd : ds.any (fun d => e.face.is d.slice d.name) = true
  · exact .inl hd
  · right
    have hmid : (mid.entry e.slice e.name).map Entry.face = some e.face := by
      rw [entry_face, hf, List.find?_map, show Face.is e.slice e.name ∘ Face.freed ds = Face.is e.slice e.name from
        funext fun v => Face.freed_is, ← entry_face, hn e hmem]
      exact congrArg some (if_neg hd)
    obtain ⟨x, hx, hxf⟩ := Option.map_eq_some_iff.mp hmid
    have hxc : x.frameState = .stackClean := (congrArg Face.frameState hxf).trans hc
    have hes : e ∈ s.secondRound slice sts mid := by
      refine List.mem_filter.mpr ⟨List.mem_filter.mpr ⟨he, decide_eq_true hc⟩, ?_⟩
      rw [← hslice, hx]
      exact decide_eq_true hxc
    exact List.any_eq_true.mpr ⟨e, hes, by simp [Face.is, Entry.face]⟩

/-- A reclamation with no page to demote and none whose grants stand releases frames that may be taken: every clean one, unless the
target share is reached. -/
theorem reclaim_does (hn : s.named) (hm : s.home.moves = [])
    (hd : ∀ e ∈ s.home.entries, s.demotable e = false ∧ s.shared e.slice e.name = false) :
    ∃ ds, ds ⊆ s.takable slice sts ∧ (s.reclaim slice sts).faces = s.faces.map (Face.freed ds) ∧ Alike s (s.reclaim slice sts) ∧
      ((s.reclaim slice sts).shareAt sts ((s.reclaim slice sts).onTheWay sts) (s.cfg slice).tier.stackHigh = true ∨
        ∀ e ∈ s.takable slice sts, e.frameState = .stackClean → ds.any (fun d => e.face.is d.slice d.name) = true) := by
  have hsh : ∀ {t : State} (e : Entry), Alike s t → e ∈ s.takable slice sts → t.shared e.slice e.name = false := fun e ha he =>
    ha.shared.trans (hd e ((mem_takable hm).mp he).1).2
  have h1 : s.firstRound slice sts ⊆ s.takable slice sts := fun e he => List.mem_of_mem_filter (List.mem_of_mem_filter he)
  obtain ⟨ds, hds, hf, ha, ho⟩ := releaseRounds_does (pct := (s.cfg slice).tier.stackHigh) (sts := sts)
    (fun e he => hsh (t := s) e .refl (h1 he))
  set mid := s.releaseRounds sts (s.cfg slice).tier.stackHigh (s.firstRound slice sts) with hmid
  have h2 : s.secondRound slice sts mid ⊆ s.takable slice sts := fun e he => List.mem_of_mem_filter (List.mem_of_mem_filter he)
  obtain ⟨es, hes, hf', ha', ho'⟩ := releaseRounds_does (pct := (s.cfg slice).tier.stackHigh) (sts := sts)
    (fun e he => hsh e ha (h2 he))
  have hr : s.reclaim slice sts = mid.releaseRounds sts (s.cfg slice).tier.stackHigh (s.secondRound slice sts mid) := by
    rw [reclaim_eq, List.filter_eq_nil_iff.mpr]
    · rfl
    · intro e he
      rw [show (s.released slice sts).demotable e = s.demotable e from (ha.trans ha').demotable e,
        (hd e ((mem_takable hm).mp he).1).1]
      exact Bool.false_ne_true
  rw [hr]
  refine ⟨ds ++ es, List.append_subset.mpr ⟨List.Subset.trans hds h1, List.Subset.trans hes h2⟩, ?_, ha.trans ha', ?_⟩
  · rw [hf', hf, List.map_map]
    exact List.map_congr_left fun v _ => Face.freed_freed
  · refine ho'.imp_right fun h e he hc => ?_
    rw [h]
    exact freed_by_rounds hn hm hf he hc

end Sys2Proof.Machine
end

section
/-! SUPPORT. RECLAMATION on a quiet node (R222). -/

namespace Sys2Proof.Machine

variable {s : State} {slice : Nat}

/-- The stacks that a reclamation runs over: one, or all of the slice. -/
def State.reclaimStacks (slice : Nat) (k : Option Nat) (s : State) : List Nat :=
  match k with
  | none => (s.cfg slice).stackList
  | some k => [k]

/-- What a reclamation over some stacks leaves: the target share, or no clean frame that it may take; and every frame that is pinned or
held. -/
def Reclaimed (slice : Nat) (sts : List Nat) (s t : State) : Prop :=
  (t.shareAt sts (t.onTheWay sts) (s.cfg slice).tier.stackHigh = true ∨ ∀ e ∈ t.home.entries, e.slice = slice →
    e.frameState = .stackClean → sts.contains e.stackFrame.1 = true → t.stackFenced e.stackFrame.1 = false → t.frameHeld e = false →
    e.pinCount ≠ 0) ∧
  ∀ e ∈ s.home.entries, e.frameState.inStack = true → e.pinCount ≠ 0 ∨ s.frameHeld e = true →
    ∃ x, t.entry e.slice e.name = some x ∧ x.frameState = e.frameState ∧ x.stackFrame = e.stackFrame

theorem Face.is_iff {n : PageName} {v : Face} : v.is slice n = true ↔ v.slice = slice ∧ v.name = n := by
  simp [Face.is]

theorem Face.freed_other {ds : List Entry} {v : Face} (h : ds.any (fun d => v.is d.slice d.name) = false) : v.freed ds = v := by
  unfold Face.freed
  rw [h]
  rfl

theorem frameHeld_congr {s : State} {a b : Entry} (hs : a.slice = b.slice) (hn : a.name = b.name) : s.frameHeld a = s.frameHeld b := by
  unfold State.frameHeld
  rw [hs, hn]

/-- A clean frame that stands after the rounds was clean before them, and none of the rounds took it. -/
theorem clean_of_freed {t : State} {ds : List Entry} (hf : t.faces = s.faces.map (Face.freed ds)) {e : Entry} (he : e ∈ t.home.entries)
    (hc : e.frameState = .stackClean) :
    ∃ x ∈ s.home.entries, x.face = e.face ∧ ds.any (fun d => x.face.is d.slice d.name) = false := by
  have hmem : e.face ∈ s.faces.map (Face.freed ds) := hf ▸ List.mem_map_of_mem he
  obtain ⟨v, hv, hve⟩ := List.mem_map.mp hmem
  obtain ⟨x, hx, rfl⟩ := List.mem_map.mp hv
  have hd : ds.any (fun d => x.face.is d.slice d.name) = false := by
    rw [← Bool.not_eq_true]
    intro hd
    have hfs : (x.face.freed ds).frameState = .flash := by
      unfold Face.freed
      rw [if_pos hd]
    rw [hve] at hfs
    exact absurd (hc.symm.trans hfs) (by decide)
  exact ⟨x, hx, (Face.freed_other hd).symm.trans hve, hd⟩

theorem reclaimed_of_rounds {sts : List Nat} {t : State} {ds : List Entry} (hn : s.named) (hm : s.home.moves = [])
    (hds : ds ⊆ s.takable slice sts) (hf : t.faces = s.faces.map (Face.freed ds)) (ha : Alike s t)
    (ho : t.shareAt sts (t.onTheWay sts) (s.cfg slice).tier.stackHigh = true ∨
      ∀ e ∈ s.takable slice sts, e.frameState = .stackClean → ds.any (fun d => e.face.is d.slice d.name) = true) :
    Reclaimed slice sts s t := by
  refine ⟨ho.imp_right fun hall e he hs hc hst hfen hheld hpin => ?_, fun e he hin hkeep => ?_⟩
  · obtain ⟨x, hx, hxe, hd⟩ := clean_of_freed hf he hc
    have hslice : x.slice = e.slice := congrArg Face.slice hxe
    have hname : x.name = e.name := congrArg Face.name hxe
    have hstate : x.frameState = e.frameState := congrArg Face.frameState hxe
    have hframe : x.stackFrame = e.stackFrame := congrArg Face.stackFrame hxe
    have hcount : x.pinCount = e.pinCount := congrArg Face.pinCount hxe
    have htake : x ∈ s.takable slice sts := by
      refine (mem_takable hm).mpr ⟨hx, hslice.trans hs, ?_, ?_, ?_, ?_, hcount.trans hpin⟩
      · rw [hstate, hc]
        rfl
      · rwa [hframe]
      · rw [hframe, ← ha.stackFenced]
        exact hfen
      · rw [frameHeld_congr hslice hname, ← ha.frameHeld]
        exact hheld
    rw [hall x htake (hstate.trans hc)] at hd
    exact absurd hd (by decide)
  · have hd : ds.any (fun d => e.face.is d.slice d.name) = false := by
      rw [← Bool.not_eq_true, List.any_eq_true]
      rintro ⟨d, hdm, hde⟩
      obtain ⟨hmem, -, -, -, -, hheld, hpin⟩ := (mem_takable hm).mp (hds hdm)
      obtain ⟨hslice, hname⟩ : e.slice = d.slice ∧ e.name = d.name := Face.is_iff.mp hde
      have hed : e = d := by
        have h1 := hn e he
        rw [hslice, hname, hn d hmem] at h1
        exact (Option.some.inj h1).symm
      subst hed
      exact hkeep.elim (· hpin) (by rw [hheld]; exact Bool.false_ne_true)
    have ht : (t.entry e.slice e.name).map Entry.face = some e.face := by
      rw [entry_face, hf, List.find?_map, show Face.is e.slice e.name ∘ Face.freed ds = Face.is e.slice e.name from
        funext fun v => Face.freed_is, ← entry_face, hn e he]
      exact congrArg some (Face.freed_other hd)
    obtain ⟨x, hx, hxf⟩ := Option.map_eq_some_iff.mp ht
    exact ⟨x, hx, congrArg Face.frameState hxf, congrArg Face.stackFrame hxf⟩

theorem onHome_congr {f g : Home → Home} (h : f s.home = g s.home) : s.onHome f = s.onHome g := by
  unfold State.onHome
  rw [h]

/-- The state in which one reclamation is on the list. -/
def State.reclaimListed (slice : Nat) (k : Option Nat) (s : State) : State := s.onHome (fun h => { h with reclaiming := [(slice, k)] })

/-- A reclamation that starts on a quiet node runs alone, and is off the list once it has reached its target. -/
theorem startReclaim_alone (hr : s.home.reclaiming = []) (k : Option Nat) : ∃ g : List (Nat × Option Nat) → List (Nat × Option Nat), s.startReclaim slice k =
    ((s.reclaimListed slice k).reclaim slice (s.reclaimStacks slice k)).onHome (fun h => { h with reclaiming := g h.reclaiming }) := by
  have h : s.onHome (fun h => if h.reclaiming.contains (slice, k) then h else { h with reclaiming := h.reclaiming ++ [(slice, k)] }) =
      s.reclaimListed slice k := by
    refine onHome_congr ?_
    rw [hr]
    rfl
  unfold State.startReclaim
  rw [h]
  exact ⟨_, rfl⟩

theorem startReclaim_does (hq : quiet s) (hn : s.named) (hd : ∀ e ∈ s.home.entries, s.demotable e = false ∧ s.shared e.slice e.name = false)
    (k : Option Nat) : Reclaimed slice (s.reclaimStacks slice k) s (s.startReclaim slice k).placeFills := by
  obtain ⟨hr, hf, hm⟩ := hq
  obtain ⟨g, hg⟩ := startReclaim_alone (slice := slice) hr k
  have ha0 : Alike s (s.reclaimListed slice k) := ⟨rfl, rfl, rfl, rfl, rfl⟩
  obtain ⟨ds, hds, hfaces, ha, ho⟩ := reclaim_does (s := s.reclaimListed slice k) (slice := slice) (sts := s.reclaimStacks slice k) hn hm
    (fun e he => ⟨(ha0.demotable e).trans (hd e he).1, ha0.shared.trans (hd e he).2⟩)
  have hfills : (s.startReclaim slice k).home.fills = [] := by
    rw [hg]
    exact ha.fills.trans hf
  rw [placeFills_idle hfills, hg]
  exact reclaimed_of_rounds hn hm hds hfaces (ha0.trans ha |>.trans ⟨rfl, rfl, rfl, rfl, rfl⟩) ho

end Sys2Proof.Machine
end

section
/-! SUPPORT. A demotion whose writes are done (R223 step 4): the extent holds the frame's bytes, and what follows changes neither them
nor what runs or waits. -/

namespace Sys2Proof.Machine

variable {s : State} {slice : Nat} {n : PageName}

/-! ## The stored bytes of drives -/

theorem drives_bankWrite {a : Nat} {b : Byte} : (s.bankWrite a b).mem.drives = s.mem.drives := by
  unfold State.bankWrite
  split <;> rfl

theorem drives_bankWriteN {a : Nat} {l : List Byte} : (s.bankWriteN a l).mem.drives = s.mem.drives := by
  induction l generalizing s a with
  | nil => rfl
  | cons b t ih => exact ih.trans drives_bankWrite

theorem drives_busWrite {a : Nat} {d : List Byte} : (s.busWrite a d).mem.drives = s.mem.drives := by
  unfold State.busWrite
  split
  · unfold State.collide
    rw [State.onNbu_mem]
  · exact drives_bankWriteN

theorem drives_memWriteN {a : Nat} {l : List Byte} : (s.memWriteN a l).mem.drives = s.mem.drives :=
  keep_foldl (P := fun t => t.mem.drives = s.mem.drives) (fun _ _ h => drives_busWrite.trans h) rfl

theorem drives_writeHeaders {l : List Accumulator} : (l.foldl (fun s a => s.writeAccHeader a) s).mem.drives = s.mem.drives := by
  induction l generalizing s with
  | nil => rfl
  | cons a t ih =>
    rw [List.foldl_cons, ih]
    unfold State.writeAccHeader
    exact drives_memWriteN

theorem drives_accGen {g : Nat} {r : Bool} : (s.accGen slice n r g).mem.drives = s.mem.drives := by
  unfold State.accGen
  dsimp only
  split
  · rw [drives_writeHeaders, State.onHome_mem]
  · rw [State.onHome_mem]

/-- The bytes that a drive stores. -/
def State.driveCells (k : Nat) (s : State) : Option (List Host.Cell) := (s.mem.drives.get? k).map Drive.cells

variable {k : Nat}

theorem driveCells_congr {t : State} (h : t.mem.drives = s.mem.drives) : t.driveCells k = s.driveCells k := by
  unfold State.driveCells
  rw [h]

/-- A change of every value of a table. -/
theorem Tbl.get?_mapValues {α : Type} {k : Nat} (t : Tbl α) (f : α → α) :
    Tbl.get? (t.map (fun d => (d.1, f d.2)) : Tbl α) k = (t.get? k).map f := by
  induction t with
  | nil => rfl
  | cons p t ih =>
    simp only [List.map_cons, Tbl.get?]
    split
    · rfl
    · exact ih

theorem driveCells_clearMark : s.clearMark.driveCells k = s.driveCells k := by
  unfold State.clearMark
  split
  · unfold State.driveCells
    exact (congrArg (Option.map Drive.cells) (Tbl.get?_mapValues s.mem.drives (fun d => { d with mark := false }))).trans (Option.map_map ..)
  · rfl

theorem driveCells_onEntry {f : Entry → Entry} : (s.onEntry slice n f).driveCells k = s.driveCells k := driveCells_clearMark

theorem driveCells_bumpGen {r : Bool} : (s.bumpGen slice n r).driveCells k = s.driveCells k := by
  unfold State.bumpGen
  split
  · rfl
  · dsimp only
    have hm (g : Nat) (f : Entry → Entry) :
        (((s.onEntry slice n f).accGen slice n r g).revokeGrants slice n).clearMark.driveCells k = s.driveCells k := by
      rw [driveCells_clearMark, driveCells_congr (congrArg Mem.drives (State.revokeGrants_keeps (mem_closed _ rfl rfl rfl) rfl)),
        driveCells_congr drives_accGen, driveCells_onEntry]
    split
    · rw [← hm, driveCells_congr (congrArg Mem.drives (State.onReplica_keeps (mem_closed _ rfl rfl rfl) rfl)),
        driveCells_congr (congrArg Mem.drives (State.tellReplicas_keeps (mem_closed _ rfl rfl rfl) rfl))]
    · exact hm _ _

/-! ## The image of a frame in an extent -/

/-- The bytes of a function below `m`, but for the zero ones, written over cleared cells read back. -/
theorem cellRead_image {c : List Host.Cell} (hc : Memory.wf c = true) {b : Nat} {F : Nat → Byte} {m : Nat}
    (h0 : ∀ x, x < m → cellRead c (b + x) = 0) {x : Nat} (hx : x < m) :
    cellRead (((List.range m).filterMap (fun y => let v := F y; if v = 0 then none else some (y, v))).foldl
      (fun c p => cellWrite c (b + p.1) p.2) c) (b + x) = F x := by
  have key : ∀ j, j ≤ m → ∀ y, cellRead (((List.range j).filterMap (fun y => let v := F y; if v = 0 then none else some (y, v))).foldl
      (fun c p => cellWrite c (b + p.1) p.2) c) (b + y) = if y < j then F y else cellRead c (b + y) := by
    intro j hj
    induction j with
    | zero => exact fun y => (if_neg (Nat.not_lt_zero y)).symm
    | succ j ih =>
      intro y
      have ih := ih (Nat.le_of_succ_le hj)
      rw [List.range_succ, List.filterMap_append, List.foldl_append]
      by_cases hv : F j = 0
      · simp only [List.filterMap_cons, hv, List.filterMap_nil, if_true, List.foldl_nil]
        rw [ih]
        rcases Nat.lt_trichotomy y j with hy | rfl | hy
        · rw [if_pos hy, if_pos (by omega)]
        · rw [if_neg (Nat.lt_irrefl y), if_pos (Nat.lt_succ_self y), hv, h0 y hj]
        · rw [if_neg (by omega), if_neg (by omega)]
      · simp only [List.filterMap_cons, hv, List.filterMap_nil, if_false, List.foldl_cons, List.foldl_nil]
        rw [cellRead_cellWrite (Memory.wf_foldWrite _ _ _ hc), ih]
        rcases Nat.lt_trichotomy y j with hy | rfl | hy
        · rw [if_neg (by omega), if_pos hy, if_pos (by omega)]
        · rw [if_pos rfl, if_pos (Nat.lt_succ_self y)]
        · rw [if_neg (by omega), if_neg (by omega), if_neg (by omega)]
  rw [key m (Nat.le_refl m) x, if_pos hx]

theorem frameBytes_le (f : PageFormat) : frameBytes f ≤ frameGranules f * 65536 := by
  unfold frameGranules cdiv
  omega

/-- The extent of a stored frame reads as the frame. -/
theorem cellRead_storeImage (hm : s.MemOk) {d g : Nat} {x : Drive} (hx : s.mem.drives.get? d = some x) (f : PageFormat) (frame : Nat × Nat) :
    ∃ c, (s.storeImage slice d g (frameGranules f) (s.frameImage f frame)).driveCells d = some c ∧
      ∀ y, y < frameBytes f → cellRead c (g * 65536 + y) = s.memRead (frameAddr f frame y) := by
  have hwf : Memory.wf x.cells = true := ((Mem.ok_iff _).mp hm).2 _ (Tbl.get?_mem hx)
  unfold State.driveCells State.storeImage State.onDrive
  rw [State.onMem_mem]
  dsimp only
  rw [Tbl.get?_modify_same, hx]
  refine ⟨_, rfl, fun y hy => ?_⟩
  have hle := frameBytes_le f
  unfold State.frameImage
  refine cellRead_image (F := fun y => s.memRead (frameAddr f frame y)) (Memory.wf_cellZero _ _ hwf) (fun z hz => ?_) hy
  rw [cellRead_cellZero hwf]
  exact if_pos ⟨by omega, by omega⟩

/-! ## The entry, and what runs -/

/-- What no change of a page's entry, generation or grants touches of the home. -/
def Home.rest (h : Home) : Home := { h with entries := [], accs := [], replicas := [] }

theorem reclaiming_of_rest {h h' : Home} (k : h'.rest = h.rest) : h'.reclaiming = h.reclaiming :=
  show h'.rest.reclaiming = h.rest.reclaiming by rw [k]

theorem fills_of_rest {h h' : Home} (k : h'.rest = h.rest) : h'.fills = h.fills := show h'.rest.fills = h.rest.fills by rw [k]

theorem rest_onEntry {f : Entry → Entry} : (s.onEntry slice n f).home.rest = s.home.rest := by
  unfold State.onEntry
  rw [State.onHome_home, home_clearMark]
  rfl

theorem rest_onReplica {f : Replica → Replica} : (s.onReplica slice n f).home.rest = s.home.rest := rfl

theorem rest_tellReplicas {f : Nat → TxBody} : (s.tellReplicas slice n f).home.rest = s.home.rest :=
  congrArg Home.rest (State.tellReplicas_keeps (home_closed s.home rfl rfl) rfl)

theorem rest_revokeGrants : (s.revokeGrants slice n).home.rest = s.home.rest := by
  unfold State.revokeGrants
  dsimp only
  rw [rest_onReplica]
  split
  · exact rest_tellReplicas
  · rfl

theorem rest_accGen {g : Nat} {r : Bool} : (s.accGen slice n r g).home.rest = s.home.rest := by
  have hP (x) : Closed 17664 (fun t => t.home.rest = x) := .of_view (fun x => home_closed x rfl rfl) (fun h => h.rest = x)
  unfold State.accGen
  cases r with
  | false => rfl
  | true => exact State.writeHeaders_keeps (hP _) rfl

theorem rest_bumpGen {r : Bool} : (s.bumpGen slice n r).home.rest = s.home.rest := by
  unfold State.bumpGen
  split
  · rfl
  · dsimp only
    have hm (g : Nat) (f : Entry → Entry) :
        (((s.onEntry slice n f).accGen slice n r g).revokeGrants slice n).clearMark.home.rest = s.home.rest := by
      rw [home_clearMark, rest_revokeGrants, rest_accGen, rest_onEntry]
    split
    · rw [rest_onReplica, rest_tellReplicas, hm]
    · exact hm _ _

theorem entry_congr {t : State} (h : t.home.entries = s.home.entries) : t.entry slice n = s.entry slice n := by
  unfold State.entry
  rw [h]

theorem entry_onEntry {f : Entry → Entry} (hf : ∀ e, (f e).slice = e.slice ∧ (f e).name = e.name) :
    (s.onEntry slice n f).entry slice n = (s.entry slice n).map f := by
  have hk : Entry.is slice n ∘ (fun e => if e.is slice n then f e else e) = Entry.is slice n := by
    funext e
    dsimp only [Function.comp_apply]
    split
    · obtain ⟨hs, hn⟩ := hf e
      unfold Entry.is
      rw [hs, hn]
    · rfl
  unfold State.entry
  rw [entries_onEntry, List.find?_map, hk]
  cases he : s.home.entries.find? (Entry.is slice n) with
  | none => rfl
  | some e => exact congrArg some (if_pos (List.find?_some he))

theorem entry_bumpGen {r : Bool} : (s.bumpGen slice n r).entry slice n =
    (s.entry slice n).map (fun e => { e with frameGen := (e.frameGen + 1) % 65536 }) := by
  unfold State.bumpGen
  split
  · next h => rw [h]; rfl
  · next e h =>
    dsimp only
    have hm : (((s.onEntry slice n (fun x => { x with frameGen := (e.frameGen + 1) % 65536 })).accGen slice n r
        ((e.frameGen + 1) % 65536)).revokeGrants slice n).clearMark.entry slice n =
        (s.entry slice n).map (fun e => { e with frameGen := (e.frameGen + 1) % 65536 }) := by
      rw [entry_congr (congrArg Home.entries home_clearMark), entry_congr entries_revokeGrants, entry_congr entries_accGen,
        entry_onEntry, h]
      · rfl
      · exact fun _ => ⟨rfl, rfl⟩
    split
    · rw [entry_congr entries_onReplica, entry_congr entries_tellReplicas, hm]
    · exact hm

theorem rest_beginMove {k : MoveKind} : (s.beginMove slice n k).home.reclaiming = s.home.reclaiming ∧
    (s.beginMove slice n k).home.fills = s.home.fills := by
  have hr : (s.revokeGrants slice n).home.reclaiming = s.home.reclaiming := reclaiming_of_rest rest_revokeGrants
  have hf : (s.revokeGrants slice n).home.fills = s.home.fills := fills_of_rest rest_revokeGrants
  unfold State.beginMove
  rw [State.onHome_home]
  split <;> exact ⟨hr, hf⟩

theorem entry_beginMove {k : MoveKind} : (s.beginMove slice n k).entry slice n = s.entry slice n := by
  refine entry_congr ?_
  unfold State.beginMove
  rw [State.onHome_home, ← entries_revokeGrants (s := s)]
  split <;> rfl

theorem mem_beginMove {k : MoveKind} : (s.beginMove slice n k).mem = s.mem := by
  unfold State.beginMove
  rw [State.onHome_mem]
  exact State.revokeGrants_keeps (mem_closed s.mem rfl rfl rfl) rfl

end Sys2Proof.Machine
end

section
/-! SUPPORT. DEMOTION_COMPLETE on a quiet node (R223 step 4, R240). -/

namespace Sys2Proof.Machine

variable {s : State} {slice : Nat} {n : PageName} {e : Entry}

/-- The state once the writes of a demotion are done: the extent holds the frame's bytes, and the page is clean. -/
def State.demotedPage (slice : Nat) (n : PageName) (e : Entry) (s : State) : State :=
  ((((((s.storeImage slice e.flashDrive e.flashGranule (frameGranules (s.format slice)) (s.frameImage (s.format slice) e.stackFrame)).takeStack
      4 (nodeAddr e.stackFrame.1 (granuleOffset e.stackFrame.2))).readFrame (s.format slice) e.stackFrame).onEntry slice n
    (fun e => { e with frameState := .stackClean })).bumpGen slice n true)).countTier e.quarter
      (fun t => { t with demotions := inc32 t.demotions })

/-- What DEMOTION_COMPLETE does with an entry, once what the entry owes is applied. -/
theorem demotionDone_eq (h : (s.refresh slice n).entry slice n = some e) : s.demotionDone slice n =
    if e.frameState = .demoting ∧ ((s.refresh slice n).cmdsOf e.flashDrive slice n).isEmpty then
      if (s.refresh slice n).shared slice n then (s.refresh slice n).beginMove slice n .demoted
      else (s.refresh slice n).demotedPage slice n e
    else s.refresh slice n := by
  unfold State.demotionDone
  dsimp only
  rw [h]
  rfl

/-- The reads of the frame take their slot and their place in the queues; home and memory stand. -/
theorem readFrame_frame {f : PageFormat} {frame : Nat × Nat} {cls a : Nat} : ((s.takeStack cls a).readFrame f frame).home = s.home ∧
    ((s.takeStack cls a).readFrame f frame).mem = s.mem :=
  ⟨(State.readFrame_keeps (home_closed _ rfl rfl) rfl).trans (State.takeStack_keeps (home_closed s.home rfl rfl) rfl),
    (State.readFrame_keeps (mem_closed _ rfl rfl rfl) rfl).trans (State.takeStack_keeps (mem_closed s.mem rfl rfl rfl) rfl)⟩

theorem storeImage_home {d g k : Nat} {img : List (Nat × Byte)} : (s.storeImage slice d g k img).home = s.home := rfl

theorem entry_countTier {q : Nat} {f : TierCount → TierCount} : (s.countTier q f).entry slice n = s.entry slice n := rfl

/-- The page is clean under a new generation, in the frame where it stood. -/
theorem entry_demotedPage (h : s.entry slice n = some e) : (s.demotedPage slice n e).entry slice n =
    some { e with frameState := .stackClean, frameGen := (e.frameGen + 1) % 65536 } := by
  unfold State.demotedPage
  rw [entry_countTier, entry_bumpGen]
  generalize hu : ((s.storeImage _ _ _ _ _).takeStack _ _).readFrame _ _ = u
  have hh : u.home = s.home := by rw [← hu, readFrame_frame.1, storeImage_home]
  rw [entry_onEntry, entry_congr (congrArg Home.entries hh), h]
  · rfl
  · exact fun _ => ⟨rfl, rfl⟩

theorem rest_countTier {q : Nat} {f : TierCount → TierCount} {x : Home} (h : s.home.rest = x.rest) :
    (s.countTier q f).home.reclaiming = x.reclaiming ∧ (s.countTier q f).home.fills = x.fills := by
  unfold State.countTier
  rw [State.onHome_home]
  have hr := reclaiming_of_rest h
  have hf := fills_of_rest h
  exact ⟨hr, hf⟩

theorem rest_demotedPage : (s.demotedPage slice n e).home.reclaiming = s.home.reclaiming ∧
    (s.demotedPage slice n e).home.fills = s.home.fills := by
  unfold State.demotedPage
  generalize hu : ((s.storeImage _ _ _ _ _).takeStack _ _).readFrame _ _ = u
  have hh : u.home = s.home := by rw [← hu, readFrame_frame.1, storeImage_home]
  refine rest_countTier ?_
  rw [rest_bumpGen, rest_onEntry, hh]

/-- The extent reads as the frame. -/
theorem cells_demotedPage (hm : s.MemOk) {x : Drive} (hx : s.mem.drives.get? e.flashDrive = some x) :
    ∃ y, (s.demotedPage slice n e).mem.drives.get? e.flashDrive = some y ∧ ∀ z, z < frameBytes (s.format slice) →
      cellRead y.cells (e.flashGranule * 65536 + z) = s.memRead (frameAddr (s.format slice) e.stackFrame z) := by
  obtain ⟨c, hc, hr⟩ := cellRead_storeImage (slice := slice) (g := e.flashGranule) hm hx (s.format slice) e.stackFrame
  have hd : (s.demotedPage slice n e).driveCells e.flashDrive = some c := by
    unfold State.demotedPage State.countTier
    rw [driveCells_congr (congrArg Mem.drives (State.onHome_mem _ _)), driveCells_bumpGen, driveCells_onEntry,
      driveCells_congr (congrArg Mem.drives readFrame_frame.2), hc]
  obtain ⟨y, hy, rfl⟩ := Option.map_eq_some_iff.mp hd
  exact ⟨y, hy, hr⟩

/-- On a quiet node a demotion's completion is all that DEMOTION_COMPLETE does. -/
theorem demotionDone_quiet (hq : quiet (s.refresh slice n)) (h : (s.refresh slice n).entry slice n = some e) :
    (s.demotionDone slice n).reclaimOn.placeFills = s.demotionDone slice n := by
  obtain ⟨hr, hf, -⟩ := hq
  rw [demotionDone_eq h]
  split
  · split
    · exact onward_idle (rest_beginMove.1.trans hr) (rest_beginMove.2.trans hf)
    · exact onward_idle (rest_demotedPage.1.trans hr) (rest_demotedPage.2.trans hf)
  · exact onward_idle hr hf

end Sys2Proof.Machine
end

section
/-! The statement on the space of the stacks. -/

open Sys2Proof Sys2Proof.Machine

/-- Settles O39: epochs are changed by their advance alone; a round of releases stops at the target share or takes every clean frame it may
take, and names stand in one entry; the extent of a demotion is the image of its frame. -/
theorem stackSpaceIsReclaimed : Obligations.StackSpaceIsReclaimed := by
  unfold Obligations.StackSpaceIsReclaimed
  refine ⟨fun q s hr hq => ?_, fun slice stack s hr hq => ?_, fun slice n s e hr => ?_⟩
  · exact ⟨_, congrArg Host.Outcome.next (whenUp_running hr), epoch_advanceEpoch hq, retireList_advanceEpoch⟩
  · refine ⟨fun hdue => ?_, fun hdue hd hpw => ?_⟩
    · refine congrArg Host.Outcome.next ((whenUp_running hr).trans ?_)
      cases stack with
      | none =>
        dsimp only at hdue ⊢
        rw [if_neg (by rw [hdue]; exact Bool.false_ne_true), onward_idle hq.1 hq.2.1]
      | some k =>
        dsimp only at hdue ⊢
        rw [if_neg (by rw [hdue]; exact Bool.false_ne_true), placeFills_idle hq.2.1]
    · refine ⟨_, congrArg Host.Outcome.next (whenUp_running hr), ?_⟩
      cases stack with
      | none =>
        dsimp only at hdue ⊢
        rw [if_pos hdue]
        exact startReclaim_does hq (named_of_pairwise hpw) hd none
      | some k =>
        dsimp only at hdue ⊢
        rw [if_pos hdue]
        exact startReclaim_does hq (named_of_pairwise hpw) hd (some (k : Nat))
  · intro s1 hq hm he
    have hrun : exec (.demotionComplete slice n) s = .next (s.demotionDone slice n) :=
      congrArg Host.Outcome.next ((whenUp_running hr).trans (demotionDone_quiet hq he))
    have hdone := demotionDone_eq he
    refine ⟨fun h => ?_, fun hst hc hsh => ⟨_, hrun, ?_⟩, fun x hst hc hx hsh => ⟨_, hrun, ?_⟩⟩
    · rw [if_neg (fun k => h.elim (· k.1) (· (List.isEmpty_iff.mp k.2)))] at hdone
      exact hrun.trans (congrArg Host.Outcome.next hdone)
    · rw [hdone, if_pos ⟨hst, List.isEmpty_iff.mpr hc⟩, if_pos hsh]
      exact ⟨entry_beginMove.trans he, mem_beginMove⟩
    · rw [hdone, if_pos ⟨hst, List.isEmpty_iff.mpr hc⟩, if_neg (by rw [show s1.shared slice n = false from hsh]; exact Bool.false_ne_true)]
      exact ⟨⟨_, entry_demotedPage he, rfl, rfl, rfl⟩, cells_demotedPage hm hx⟩

end

section
/-! SUPPORT. Who owns a sequence (R206, R208): the ends of leases change of a sequence's record only how many leases are open and how many
pages it has. -/

namespace Sys2Proof.Machine

variable {s : State} {slice : Nat} {n : PageName}

/-- What a sequence record says of its owner: all but the counts of open leases and of pages. -/
def seqOwner (r : SeqRec) : SeqRec := { r with openLeases := 0, pages := 0 }

/-- The sequence records without their counts. -/
def State.owners (s : State) : List SeqRec := s.home.seqs.map seqOwner

theorem owners_congr {t : State} (h : t.home.seqs = s.home.seqs) : t.owners = s.owners := congrArg (List.map seqOwner) h

theorem seqRec_owner {handle : Nat} :
    (s.seqRec slice handle).map seqOwner = s.owners.find? (fun r => r.slice = slice && r.handle = handle) := by
  unfold State.seqRec State.owners
  rw [List.find?_map]
  rfl

theorem owners_onSeq {handle : Nat} {f g : SeqRec → SeqRec} (h : ∀ r, seqOwner (f r) = g (seqOwner r)) :
    (s.onSeq slice handle f).owners = s.owners.map (fun r => if r.slice = slice ∧ r.handle = handle then g r else r) := by
  unfold State.onSeq State.owners
  rw [State.onHome_home, home_clearMark]
  dsimp only
  rw [List.map_map, List.map_map]
  refine List.map_congr_left fun r _ => ?_
  change seqOwner (if r.slice = slice ∧ r.handle = handle then f r else r) = if r.slice = slice ∧ r.handle = handle then g (seqOwner r) else seqOwner r
  rw [apply_ite seqOwner, h]

theorem owners_onSeq_same {handle : Nat} {f : SeqRec → SeqRec} (h : ∀ r, seqOwner (f r) = seqOwner r) :
    (s.onSeq slice handle f).owners = s.owners := by
  rw [owners_onSeq (g := id) h]
  simp

/-! ## Entries, frames and replicas -/

@[simp] theorem owners_onEntry {f : Entry → Entry} : (s.onEntry slice n f).owners = s.owners := by
  unfold State.onEntry State.owners
  rw [State.onHome_home, home_clearMark]

theorem owners_onReplica {f : Replica → Replica} : (s.onReplica slice n f).owners = s.owners := rfl

theorem owners_tellReplicas {f : Nat → TxBody} : (s.tellReplicas slice n f).owners = s.owners :=
  owners_congr (congrArg Home.seqs (State.tellReplicas_keeps (home_closed s.home rfl rfl) rfl))

theorem owners_revokeGrants : (s.revokeGrants slice n).owners = s.owners := by
  unfold State.revokeGrants
  dsimp only
  rw [owners_onReplica]
  split
  · exact owners_tellReplicas
  · rfl

theorem owners_sendCopy {node : Nat} : (s.sendCopy slice n node).owners = s.owners := by
  unfold State.sendCopy
  repeat' first | rfl | split

theorem owners_copyOut : (s.copyOut slice n).owners = s.owners := by
  unfold State.copyOut
  split
  · rfl
  · split
    · rfl
    · exact keep_foldl (P := fun t => t.owners = s.owners) (fun _ _ h => owners_sendCopy.trans h) rfl

@[simp] theorem owners_setPageState {st : PageState} : (s.setPageState slice n st).owners = s.owners := by
  unfold State.setPageState
  dsimp only
  split
  · rw [owners_copyOut, owners_onEntry, owners_revokeGrants]
  · exact owners_onEntry

theorem owners_retire {q : Nat} {r : Retired} : (s.retire q r).owners = s.owners :=
  owners_congr (congrArg Home.seqs (State.retire_keeps (home_closed s.home rfl rfl) rfl))

@[simp] theorem owners_retireUnit {q k : Nat} {place : Nat × Nat} : (s.retireUnit q place k).owners = s.owners :=
  owners_congr (congrArg Home.seqs home_retireUnit)

@[simp] theorem owners_retireExtent {q d g k : Nat} : (s.retireExtent q d g k).owners = s.owners := owners_retire

@[simp] theorem owners_dropWriteFrame : (s.dropWriteFrame slice n).owners = s.owners := by
  unfold State.dropWriteFrame
  split
  · rfl
  · split
    · rw [owners_onEntry, owners_retireUnit]
    · rfl

@[simp] theorem owners_retireShadow : (s.retireShadow slice n).owners = s.owners := by
  unfold State.retireShadow
  split
  · rfl
  · split
    · rw [owners_onEntry, owners_retireUnit]
    · rfl

@[simp] theorem owners_retireHull : (s.retireHull slice n).owners = s.owners := by
  unfold State.retireHull
  split
  · rfl
  · split
    · rw [owners_onEntry, owners_retire]
    · rfl

@[simp] theorem owners_retireFrames : (s.retireFrames slice n).owners = s.owners := by
  unfold State.retireFrames
  split
  · rfl
  · dsimp only
    rw [owners_retireHull, owners_retireShadow, owners_dropWriteFrame]
    split <;> split <;> simp only [owners_retireExtent, owners_retireUnit]

@[simp] theorem owners_accGen {g : Nat} : (s.accGen slice n false g).owners = s.owners := rfl

@[simp] theorem owners_dropReplica : (s.dropReplica slice n).owners = s.owners := owners_tellReplicas

theorem owners_writeSlots {st : Nat} {code : Code} : (s.writeSlots slice n st code).owners = s.owners := rfl

@[simp] theorem owners_dropEntry : (s.dropEntry slice n).owners = s.owners := by
  unfold State.dropEntry
  dsimp only
  rw [owners_onSeq_same]
  · unfold State.owners
    rw [State.onMem_home, State.onHome_home, home_clearMark]
    split <;> rfl
  · exact fun _ => rfl

/-! ## The ends of leases -/

@[simp] theorem owners_discardPage : (s.discardPage slice n).owners = s.owners := by
  unfold State.discardPage
  rw [owners_dropEntry, owners_writeSlots, owners_dropReplica, owners_accGen, owners_retireFrames]

theorem owners_countTorn {f : Home → Nat} : (s.onHome (fun h => { h with pagesTorn := f h })).owners = s.owners := rfl

theorem owners_tearPage : (s.tearPage slice n).owners = s.owners := by
  unfold State.tearPage
  dsimp only
  split
  · exact owners_dropWriteFrame
  · exact owners_countTorn.trans (owners_setPageState.trans owners_dropWriteFrame)

theorem owners_abandonPage : (s.abandonPage slice n).owners = s.owners := by
  unfold State.abandonPage
  dsimp only
  split
  · exact owners_dropWriteFrame
  · split
    · rw [owners_discardPage, owners_dropWriteFrame]
    · rw [owners_setPageState, owners_dropWriteFrame]

theorem owners_endPage {how : LeaseEnd} : (s.endPage slice how n).owners = s.owners := by
  unfold State.endPage
  split
  · exact owners_tearPage
  · exact owners_abandonPage
  · split
    · exact owners_abandonPage
    · exact owners_discardPage

theorem owners_foldl {α : Type} {l : List α} {f : State → α → State} (k : ∀ t x, (f t x).owners = t.owners) :
    (l.foldl f s).owners = s.owners := by
  induction l generalizing s with
  | nil => rfl
  | cons x t ih => exact ih.trans (k s x)

theorem owners_undoAcquire {slot : Nat} {made : List PageName} {pre : List (PageName × PageState)} :
    (s.undoAcquire slot made pre).owners = s.owners := by
  unfold State.undoAcquire
  split
  · rfl
  · dsimp only
    rw [owners_onSeq_same]
    · refine (owners_foldl fun _ _ => owners_dropEntry).trans ((owners_foldl fun _ _ => owners_setPageState).trans ?_)
      exact owners_foldl fun _ _ => owners_dropWriteFrame
    · exact fun _ => rfl

/-- A request that goes off the list leaves sequences, entries and the slices' records. -/
theorem dropReq_frame {r : Nat} : (s.dropReq r).home.seqs = s.home.seqs ∧ (s.dropReq r).home.entries = s.home.entries ∧
    (s.dropReq r).sch.slices = s.sch.slices := by
  unfold State.dropReq
  split
  · exact ⟨rfl, rfl, rfl⟩
  · dsimp only
    unfold State.onCtx
    rw [State.onXpt_home, State.onXpt_sch]
    split <;> refine ⟨?_, ?_, rfl⟩ <;> simp only [State.onSch_home, State.onHome_home] <;> split <;> rfl

/-- So does one that is answered. -/
theorem finishReq_frame {r : Nat} {code : Code} {body : RespBody} : (s.finishReq r code body).home.seqs = s.home.seqs ∧
    (s.finishReq r code body).home.entries = s.home.entries ∧ (s.finishReq r code body).sch.slices = s.sch.slices := by
  unfold State.finishReq
  split
  · exact ⟨rfl, rfl, rfl⟩
  · next q _ =>
    have hh : ∀ t : State, (t.respond q.hdr q.op 0 code 0 body).home = t.home := fun t => respond_frame (home_closed t.home rfl rfl) rfl
    have hs : ∀ t : State, (t.respond q.hdr q.op 0 code 0 body).sch = t.sch := fun t => respond_frame (sch_closed t.sch rfl rfl) rfl
    rw [hh, hs]
    exact dropReq_frame

/-- The end of a lease keeps the owners of sequences. -/
theorem owners_endLease {key : Nat} {how : LeaseEnd} : (s.endLease key how).owners = s.owners := by
  unfold State.endLease
  split
  · rfl
  · rw [owners_congr finishReq_frame.1, owners_undoAcquire]
  · dsimp only
    rw [owners_onSeq_same]
    · refine Eq.trans (b := State.owners (ite _ _ _)) rfl ?_
      split
      · rfl
      · exact (owners_foldl fun _ _ => owners_endPage).trans rfl
    · exact fun _ => rfl

theorem owners_endLeases {p : Lease → Bool} {how : LeaseEnd} : (s.endLeases p how).owners = s.owners :=
  owners_foldl fun _ _ => owners_endLease

/-- The end of a lease keeps the slices' records. -/
theorem slices_endLease {key : Nat} {how : LeaseEnd} : (s.endLease key how).sch.slices = s.sch.slices := by
  have hp (t : State) (sl : Nat) (n : PageName) : (t.endPage sl how n).sch = t.sch := State.endPage_keeps (sch_closed t.sch rfl rfl) rfl
  have hq (t : State) (sl hd : Nat) (f : SeqRec → SeqRec) : (t.onSeq sl hd f).sch = t.sch := State.onSeq_keeps (sch_closed t.sch rfl rfl) rfl
  unfold State.endLease
  split
  · rfl
  · rw [finishReq_frame.2.2]
    exact congrArg Sch.slices (State.undoAcquire_keeps (sch_closed s.sch rfl rfl) rfl)
  · dsimp only
    rw [hq, State.onHome_sch]
    split
    · rfl
    · exact congrArg Sch.slices (keep_foldl (P := fun t => t.sch = s.sch) (fun t n h => (hp t _ n).trans h) rfl)

theorem slices_endLeases {p : Lease → Bool} {how : LeaseEnd} : (s.endLeases p how).sch.slices = s.sch.slices := by
  unfold State.endLeases
  exact keep_foldl (P := fun t => t.sch.slices = s.sch.slices) (fun _ _ h => slices_endLease.trans h) rfl

end Sys2Proof.Machine
end

section
/-! SUPPORT. HANDOVER requests that are admitted (R206 to R208): the record they leave, and the answer. -/

namespace Sys2Proof.Machine

variable {s : State} {slice handle : Nat}

/-- An admitted request has passed the checks of steps 8 and 9, in a state of the same home and time. -/
theorem admission_checks {h : ExtHdr} {cmd : Instr} {sp : Ctx → ExtSpec} {s s2 : State} {c : Ctx} (e : admission h cmd sp s = some (c, s2)) :
    ∃ s1, (sp c).own s1 = .ok ∧ (sp c).busy s1 = .ok ∧ s1.home = s2.home := by
  unfold admission at e
  split at e
  · next c1 s1 _ =>
    dsimp only at e
    split at e
    · next hk =>
      unfold State.extCode at hk
      split at hk
      · split at hk
        · next hown =>
          split at hk
          · exact absurd hk (by decide)
          · cases e
            refine ⟨_, hown, hk, ?_⟩
            split <;> rfl
        · next hne => exact absurd hk hne
      · next hne => exact absurd hk hne
    · exact nomatch e
  · exact nomatch e

theorem homeOr_ok {domain value : Nat} {r : Routed} {own : Code} (h : s.homeOr slice domain value r own = .ok) : own = .ok := by
  unfold State.homeOr at h
  split at h
  · exact absurd h (by decide)
  · exact h

theorem seqRec_congr {t : State} (h : t.home = s.home) : t.seqRec slice handle = s.seqRec slice handle := by
  unfold State.seqRec
  rw [h]

theorem seqBucket_congr {t : State} (h : t.home = s.home) : t.seqBucket slice handle = s.seqBucket slice handle := by
  unfold State.seqBucket State.seqBucketCount State.quarterOf State.seqHash
  rw [h]

/-- A request that changes no page under another node's grant runs at once. -/
theorem orRevoke_runs {h : ExtHdr} {op : Nat} {cmd : Instr} {run : Ctx → State → State} {c : Ctx} (k : unshared s c.slice cmd) :
    s.orRevoke h op cmd run c = run c s := by
  unfold State.orRevoke
  dsimp only
  rw [k]
  rfl

/-- The record that a request changes is found again, as changed but for its counts. -/
theorem seqRec_of_owners {t u : State} {f : SeqRec → SeqRec} {r : SeqRec}
    (hk : ∀ r, (f r).slice = r.slice ∧ (f r).handle = r.handle) (hr : u.seqRec slice handle = some r)
    (ht : t.owners = (u.onSeq slice handle f).owners) : ∃ x, t.seqRec slice handle = some x ∧ seqOwner x = seqOwner (f r) := by
  have hm : (u.onSeq slice handle f).seqRec slice handle = some (f r) := by
    have hcomp : (fun r : SeqRec => (decide (r.slice = slice) && decide (r.handle = handle) : Bool)) ∘
        (fun r => if r.slice = slice ∧ r.handle = handle then f r else r) = fun r => decide (r.slice = slice) && decide (r.handle = handle) := by
      funext r
      dsimp only [Function.comp_apply]
      split
      · obtain ⟨h1, h2⟩ := hk r
        rw [h1, h2]
      · rfl
    unfold State.seqRec State.onSeq at *
    rw [State.onHome_home, home_clearMark, List.find?_map, hcomp, hr, Option.map_some]
    have hp := List.find?_some hr
    simp only [Bool.and_eq_true, decide_eq_true_eq] at hp
    rw [if_pos hp]
  have hx : (t.seqRec slice handle).map seqOwner = some (seqOwner (f r)) := by
    rw [seqRec_owner, ht, ← seqRec_owner, hm]
    rfl
  exact Option.map_eq_some_iff.mp hx

/-! ## Transfers -/

/-- The record of a sequence that is handed over. -/
def handedOver (p : HandoverParams) (c : Ctx) (now : Nat) (r : SeqRec) : SeqRec :=
  { r with epoch := r.epoch + 1, ownerTag := p.newOwner, lastHandover := now, lastRequester := c.rid }

/-- The state of a transfer of a sequence that has a record, before its answer. -/
def State.transferred (p : HandoverParams) (c : Ctx) (s : State) : State :=
  ((s.onSeq c.slice p.handle (handedOver p c s.now)).endLeases (fun l => l.slice = c.slice && l.params.handle = p.handle) .tear).clearMark

theorem runTransfer_some {h : ExtHdr} {p : HandoverParams} {c : Ctx} {r : SeqRec} (hr : s.seqRec c.slice p.handle = some r) :
    s.runTransfer h p c = (s.transferred p c).respond h 6 0 .ok 0
      ((s.transferred p c).handoverBody c.slice p.handle (s.openPages c.slice p.handle)) := by
  unfold State.runTransfer
  rw [hr]
  rfl

theorem transferOwn_some {p : HandoverParams} {r : SeqRec} (hr : s.seqRec slice p.handle = some r) (h : s.transferOwn slice p = .ok) :
    r.seqState = 1 ∧ r.epoch = p.expectedEpoch := by
  unfold State.transferOwn at h
  rw [hr] at h
  dsimp only at h
  split at h
  · exact absurd h (by decide)
  · next hne => exact ⟨not_not.mp (fun k => hne (.inl k)), not_not.mp (fun k => hne (.inr k))⟩

theorem transferOwn_none {p : HandoverParams} (hr : s.seqRec slice p.handle = none) (h : s.transferOwn slice p = .ok) :
    p.expectedEpoch = 0 := by
  unfold State.transferOwn at h
  rw [hr] at h
  dsimp only at h
  split at h
  · assumption
  · exact absurd h (by decide)

/-- The record of a sequence that is claimed for its first owner. -/
def newSeqRec (p : HandoverParams) (c : Ctx) (now b : Nat) : SeqRec :=
  { handle := p.handle, slice := c.slice, epoch := 1, seqState := 1, ownerTag := p.newOwner, lastHandover := now, lastRequester := c.rid,
    bucket := b }

/-- The state with a new record. -/
def State.claimed (r : SeqRec) (s : State) : State := (s.onHome (fun x => { x with seqs := x.seqs ++ [r] })).clearMark

theorem runTransfer_none {h : ExtHdr} {p : HandoverParams} {c : Ctx} {b : Nat} (hr : s.seqRec c.slice p.handle = none)
    (hb : s.seqBucket c.slice p.handle = some b) : s.runTransfer h p c =
      (s.claimed (newSeqRec p c s.now b)).respond h 6 0 .ok 0 ((s.claimed (newSeqRec p c s.now b)).handoverBody c.slice p.handle 0) := by
  unfold State.runTransfer
  rw [hr]
  dsimp only
  rw [hb]
  rfl

theorem seqRec_claimed (r : SeqRec) (h : s.seqRec slice handle = none) (hs : r.slice = slice) (hh : r.handle = handle) :
    (s.claimed r).seqRec slice handle = some r := by
  unfold State.seqRec State.claimed at *
  rw [home_clearMark, State.onHome_home, List.find?_append, h]
  simp [hs, hh]

/-- Of the leases on the sequence none is left. -/
theorem leases_of_sequence {how : LeaseEnd} {u : State} : ∀ l ∈ (u.endLeases (fun l => l.slice = slice && l.params.handle = handle) how).home.leases,
    l.2.slice = slice → l.2.params.handle ≠ handle := by
  intro l hl hs hh
  have k := leases_endLeases (s := u) (how := how) (p := fun a b => decide (a = slice) && decide (b = handle)) l hl
  rw [hs, hh] at k
  simp at k

theorem transferred_does {p : HandoverParams} {c : Ctx} {r : SeqRec} (hr : s.seqRec c.slice p.handle = some r) :
    (∃ x, (s.transferred p c).seqRec c.slice p.handle = some x ∧ x.epoch = r.epoch + 1 ∧ x.ownerTag = p.newOwner ∧ x.seqState = r.seqState ∧
      x.lastHandover = s.now ∧ x.lastRequester = c.rid) ∧
    ∀ l ∈ (s.transferred p c).home.leases, l.2.slice = c.slice → l.2.params.handle ≠ p.handle := by
  unfold State.transferred
  constructor
  · obtain ⟨x, hx, ho⟩ := seqRec_of_owners (f := handedOver p c s.now) (fun _ => ⟨rfl, rfl⟩) hr
      ((owners_congr (congrArg Home.seqs home_clearMark)).trans owners_endLeases)
    have hst := congrArg SeqRec.seqState ho
    exact ⟨x, hx, congrArg SeqRec.epoch ho, congrArg SeqRec.ownerTag ho, hst, congrArg SeqRec.lastHandover ho,
      congrArg SeqRec.lastRequester ho⟩
  · rw [home_clearMark]
    exact leases_of_sequence

/-- The answer of a HANDOVER says what the record says. -/
theorem handoverBody_some {r : SeqRec} (h : s.seqRec slice handle = some r) (torn : Nat) :
    s.handoverBody slice handle torn = .handover r.epoch r.ownerTag r.seqState torn := by
  unfold State.handoverBody
  rw [h]

theorem transfer_does {h : ExtHdr} {p : HandoverParams} {s2 : State} {c : Ctx}
    (e : admission h (.handoverTransfer h p) (transferSpec h p) s.settle = some (c, s2)) (k : unshared s2 c.slice (.handoverTransfer h p)) :
    let t := s.settle.extended h (.handoverTransfer h p) (transferSpec h p) (State.admitTransfer h p)
    ∃ r, t.seqRec c.slice p.handle = some r ∧
      r.epoch = p.expectedEpoch + 1 ∧ r.ownerTag = p.newOwner ∧ r.seqState = 1 ∧ r.lastHandover = s2.now ∧ r.lastRequester = c.rid ∧
      lastResponse t h.pkt.qpn = some (6, 0, .ok, .handover r.epoch r.ownerTag 1 (if (s2.seqRec c.slice p.handle).isNone then 0 else s2.openPages c.slice p.handle)) ∧
      ∀ l ∈ t.home.leases, l.2.slice = c.slice → l.2.params.handle = p.handle → s2.seqRec c.slice p.handle = none := by
  intro t
  have ht : t = s2.runTransfer h p c := (extended_of_admit e).trans (orRevoke_runs k)
  clear_value t
  subst ht
  obtain ⟨s1, hown, hbusy, hh⟩ := admission_checks e
  have hown := homeOr_ok hown
  have hrts := admit_inRts e
  have hhome (u : State) (b : RespBody) : (u.respond h 6 0 .ok 0 b).home = u.home := respond_frame (home_closed u.home rfl rfl) rfl
  cases hr : s2.seqRec c.slice p.handle with
  | some r =>
    obtain ⟨hst, hep⟩ := transferOwn_some ((seqRec_congr hh).trans hr) hown
    obtain ⟨⟨x, hx, h1, h2, h3, h4, h5⟩, hl⟩ := transferred_does hr
    have hk : (s2.transferred p c).inRts h.pkt.qpn := State.clearMark_keeps (rts_closed _ rfl rfl)
      (State.endLeases_keeps (rts_closed _ rfl rfl) (State.onSeq_keeps (rts_closed _ rfl rfl) hrts))
    rw [runTransfer_some hr]
    refine ⟨x, (seqRec_congr (hhome _ _)).trans hx, h1.trans (by rw [hep]), h2, h3.trans hst, h4, h5, ?_, ?_⟩
    · rw [respond_last hk, handoverBody_some hx, h3, hst]
      rfl
    · rw [hhome]
      exact fun l hm hs hd => absurd hd (hl l hm hs)
  | none =>
    have hr1 := (seqRec_congr hh).trans hr
    have he : p.expectedEpoch = 0 := transferOwn_none hr1 hown
    obtain ⟨b, hb⟩ : ∃ b, s2.seqBucket c.slice p.handle = some b := by
      rw [← seqBucket_congr hh, ← Option.isSome_iff_exists, ← Option.not_isNone, Bool.not_eq_true', ← Bool.not_eq_true]
      intro hn
      have hbusy : (if (s1.seqRec c.slice p.handle).isNone && (s1.seqBucket c.slice p.handle).isNone then Code.busy else .ok) = .ok := hbusy
      rw [hr1, hn] at hbusy
      exact absurd hbusy (by decide)
    have hx := seqRec_claimed (newSeqRec p c s2.now b) hr rfl rfl
    have hk : (s2.claimed (newSeqRec p c s2.now b)).inRts h.pkt.qpn := State.clearMark_keeps (rts_closed _ rfl rfl) hrts
    rw [runTransfer_none hr hb]
    refine ⟨_, (seqRec_congr (hhome _ _)).trans hx, by rw [he]; rfl, rfl, rfl, rfl, rfl, ?_, fun _ _ _ _ => rfl⟩
    rw [respond_last hk, handoverBody_some hx]
    rfl

end Sys2Proof.Machine
end

section
/-! SUPPORT. HANDOVER discards and queries, and the ends of tombstones (R208). -/

namespace Sys2Proof.Machine

variable {s : State} {slice handle : Nat}

/-! ## Discards -/

/-- The state of a discard before its record is written: no lease on the sequence, and its pages discarded but for those with adopted
positions. -/
def State.emptied (p : HandoverParams) (c : Ctx) (s : State) : State :=
  let u := s.endLeases (fun l => l.slice = c.slice && l.params.handle = p.handle) .discard
  ((u.home.entries.filter (fun e => e.slice = c.slice && e.name.handle = p.handle)).map Entry.name).foldl
    (fun s n => if s.adopted c.slice n then s else s.discardPage c.slice n) u

/-- The record of a discarded sequence. -/
def entombed (c : Ctx) (now ttl : Nat) (r : SeqRec) : SeqRec :=
  { r with
    epoch := if r.epoch = maxEpoch then r.epoch else r.epoch + 1
    seqState := 2
    tombUntil := now + ttl * 1000000000
    lastHandover := if r.epoch = maxEpoch then r.lastHandover else now
    lastRequester := if r.epoch = maxEpoch then r.lastRequester else c.rid }

/-- The state of a discard before its answer. -/
def State.discarded (p : HandoverParams) (c : Ctx) (s : State) : State :=
  ((s.emptied p c).onSeq c.slice p.handle (entombed c (s.emptied p c).now ((s.emptied p c).cfg c.slice).tombTtl)).clearMark

theorem runHvDiscard_eq {h : ExtHdr} {p : HandoverParams} {c : Ctx} : s.runHvDiscard h p c =
    (s.discarded p c).respond h 6 0 .ok 0 ((s.discarded p c).handoverBody c.slice p.handle 0) := rfl

/-- What the discard of a page keeps, the discards of a list keep. -/
theorem discardPages_keep {P : State → Prop} {l : List PageName} (k : ∀ t n, P t → P (t.discardPage slice n)) (h : P s) :
    P (l.foldl (fun s n => if s.adopted slice n then s else s.discardPage slice n) s) := by
  refine keep_foldl (fun t n ht => ?_) h
  split
  · exact ht
  · exact k t n ht

theorem emptied_frame {p : HandoverParams} {c : Ctx} : (s.emptied p c).owners = s.owners ∧ (s.emptied p c).aon = s.aon ∧
    (s.emptied p c).sch.slices = s.sch.slices := by
  unfold State.emptied
  refine ⟨?_, ?_, ?_⟩
  · exact discardPages_keep (P := fun t => t.owners = s.owners) (fun t n h => owners_discardPage.trans h) owners_endLeases
  · exact discardPages_keep (P := fun t => t.aon = s.aon) (fun t n => State.discardPage_keeps (aon_closed s.aon rfl rfl))
      (State.endLeases_keeps (aon_closed s.aon rfl rfl) rfl)
  · refine discardPages_keep (P := fun t => t.sch.slices = s.sch.slices) (fun t n h => ?_) slices_endLeases
    exact (congrArg Sch.slices (State.discardPage_keeps (sch_closed t.sch rfl rfl) rfl)).trans h

theorem leases_emptied {p : HandoverParams} {c : Ctx} :
    ∀ l ∈ (s.emptied p c).home.leases, l.2.slice = c.slice → l.2.params.handle ≠ p.handle := by
  have hq : Lossy (fun t => ∀ l ∈ t.home.leases, l.2.slice = c.slice → l.2.params.handle ≠ p.handle) :=
    .of_home (Q := fun h => ∀ l ∈ h.leases, l.2.slice = c.slice → l.2.params.handle ≠ p.handle) fun h h' k q l hl => by
      obtain ⟨x, hx, -, hslice, hhandle⟩ := k.2 l hl
      rw [hslice, hhandle]
      exact q x hx
  unfold State.emptied
  exact discardPages_keep (P := fun t => ∀ l ∈ t.home.leases, l.2.slice = c.slice → l.2.params.handle ≠ p.handle)
    (fun t n => State.discardPage_mild hq.toMild) leases_of_sequence

theorem discardOwn_ok {p : HandoverParams} (h : s.discardOwn slice p = .ok) : ∃ r, s.seqRec slice p.handle = some r ∧
    r.epoch = p.expectedEpoch := by
  unfold State.discardOwn at h
  split at h
  · exact absurd h (by decide)
  · next r hr =>
    split at h
    · next hk => exact ⟨r, hr, hk.2⟩
    · exact absurd h (by decide)

theorem discarded_does {p : HandoverParams} {c : Ctx} {r : SeqRec} (hr : s.seqRec c.slice p.handle = some r)
    (he : r.epoch = p.expectedEpoch) :
    (∃ x, (s.discarded p c).seqRec c.slice p.handle = some x ∧ x.seqState = 2 ∧
      x.epoch = (if p.expectedEpoch = maxEpoch then maxEpoch else p.expectedEpoch + 1) ∧
      x.tombUntil = s.now + (s.cfg c.slice).tombTtl * 1000000000) ∧
    ∀ l ∈ (s.discarded p c).home.leases, l.2.slice = c.slice → l.2.params.handle ≠ p.handle := by
  obtain ⟨ho, ha, hs⟩ := emptied_frame (s := s) (p := p) (c := c)
  have hu : ((s.emptied p c).seqRec c.slice p.handle).map seqOwner = some (seqOwner r) := by
    rw [seqRec_owner, ho, ← seqRec_owner, hr]
    rfl
  obtain ⟨v, hv, hvr⟩ := Option.map_eq_some_iff.mp hu
  have hve : v.epoch = p.expectedEpoch := (congrArg SeqRec.epoch hvr).trans he
  unfold State.discarded
  refine ⟨?_, ?_⟩
  · obtain ⟨x, hx, hxo⟩ := seqRec_of_owners (f := entombed c (s.emptied p c).now ((s.emptied p c).cfg c.slice).tombTtl)
      (fun _ => ⟨rfl, rfl⟩) hv (owners_congr (congrArg Home.seqs home_clearMark))
    have hst := congrArg SeqRec.seqState hxo
    have hep := congrArg SeqRec.epoch hxo
    have htomb := congrArg SeqRec.tombUntil hxo
    refine ⟨x, hx, hst, hep.trans ?_, htomb.trans ?_⟩
    · change (if v.epoch = maxEpoch then v.epoch else v.epoch + 1) = _
      rw [hve]
      split <;> simp_all
    · change (s.emptied p c).now + ((s.emptied p c).cfg c.slice).tombTtl * 1000000000 = _
      unfold State.now State.cfg State.slice
      rw [ha, hs]
  · rw [home_clearMark]
    unfold State.onSeq
    rw [State.onHome_home, home_clearMark]
    exact leases_emptied

theorem discard_does {h : ExtHdr} {p : HandoverParams} {s2 : State} {c : Ctx}
    (e : admission h (.handoverDiscard h p) (hvDiscardSpec h p) s.settle = some (c, s2)) (k : unshared s2 c.slice (.handoverDiscard h p)) :
    let t := s.settle.extended h (.handoverDiscard h p) (hvDiscardSpec h p) (State.admitHvDiscard h p)
    ∃ r, t.seqRec c.slice p.handle = some r ∧ r.seqState = 2 ∧
      r.epoch = (if p.expectedEpoch = maxEpoch then maxEpoch else p.expectedEpoch + 1) ∧
      r.tombUntil = s2.now + (s2.cfg c.slice).tombTtl * 1000000000 ∧
      lastResponse t h.pkt.qpn = some (6, 0, .ok, .handover r.epoch r.ownerTag 2 0) ∧
      ∀ l ∈ t.home.leases, l.2.slice = c.slice → l.2.params.handle ≠ p.handle := by
  intro t
  have ht : t = (s2.discarded p c).respond h 6 0 .ok 0 ((s2.discarded p c).handoverBody c.slice p.handle 0) :=
    ((extended_of_admit e).trans (orRevoke_runs k)).trans runHvDiscard_eq
  clear_value t
  subst ht
  obtain ⟨s1, hown, -, hh⟩ := admission_checks e
  obtain ⟨r, hr, he⟩ := discardOwn_ok (homeOr_ok hown)
  obtain ⟨⟨x, hx, h1, h2, h3⟩, hl⟩ := discarded_does ((seqRec_congr hh).symm.trans hr) he
  have hhome (u : State) (b : RespBody) : (u.respond h 6 0 .ok 0 b).home = u.home := respond_frame (home_closed u.home rfl rfl) rfl
  have hk : (s2.discarded p c).inRts h.pkt.qpn :=
    State.clearMark_keeps (rts_closed _ rfl rfl) (State.onSeq_keeps (rts_closed _ rfl rfl)
      (discardPages_keep (fun t n => State.discardPage_keeps (rts_closed _ rfl rfl))
        (State.endLeases_keeps (rts_closed _ rfl rfl) (admit_inRts e))))
  refine ⟨x, (seqRec_congr (hhome _ _)).trans hx, h1, h2, h3, ?_, ?_⟩
  · rw [respond_last hk, handoverBody_some hx, h1]
  · rw [hhome]
    exact hl

/-! ## Queries -/

theorem query_does {h : ExtHdr} {p : HandoverParams} {s2 : State} {c : Ctx}
    (e : admission h (.handoverQuery h p) (fun c => handoverSpec h p c (hvQueryOk p) true (fun _ => .ok) (fun _ => .ok)) s.settle = some (c, s2)) :
    let t := s.settle.extended h (.handoverQuery h p) (fun c => handoverSpec h p c (hvQueryOk p) true (fun _ => .ok) (fun _ => .ok))
      (fun c s => s.respond h 6 0 .ok 0 (s.handoverBody c.slice p.handle 0))
    t.home = s2.home ∧ lastResponse t h.pkt.qpn = some (6, 0, .ok, s2.handoverBody c.slice p.handle 0) := by
  dsimp only
  rw [extended_of_admit e]
  exact ⟨respond_frame (home_closed s2.home rfl rfl) rfl, respond_last (admit_inRts e)⟩

/-! ## Tombstones -/

/-- A tombstone whose end has come is freed. -/
theorem expireTomb_due {r : SeqRec} (hr : s.seqRec slice handle = some r) (hs : r.seqState = 2) (ht : r.tombUntil ≤ s.now)
    (hu : ∀ x ∈ s.home.seqs, x.slice = slice → x.handle = handle → x = r) : (s.expireTomb slice handle).seqRec slice handle = none := by
  have hmem := List.mem_of_find?_eq_some hr
  have hname := List.find?_some hr
  have hgone : (decide (r.slice = slice) && decide (r.handle = handle) && decide (r.seqState = 2) && decide (r.tombUntil ≤ s.now)) = true := by
    rw [hname, hs, decide_eq_true ht]
    rfl
  unfold State.expireTomb State.dropTombs
  dsimp only
  rw [if_pos (List.any_eq_true.mpr ⟨r, hmem, hgone⟩)]
  unfold State.seqRec
  rw [State.onHome_home, home_clearMark, List.find?_eq_none]
  intro x hx hk
  obtain ⟨hx, hng⟩ := List.mem_filter.mp hx
  simp only [Bool.and_eq_true, decide_eq_true_eq] at hk
  rw [hu x hx hk.1 hk.2, hgone] at hng
  exact absurd hng (by decide)

/-- A tombstone whose end has not come stays. -/
theorem expireTomb_early {r : SeqRec} (ht : s.now < r.tombUntil)
    (hu : ∀ x ∈ s.home.seqs, x.slice = slice → x.handle = handle → x = r) : s.expireTomb slice handle = s := by
  unfold State.expireTomb State.dropTombs
  refine if_neg fun hany => ?_
  obtain ⟨x, hx, hk⟩ := List.any_eq_true.mp hany
  simp only [Bool.and_eq_true, decide_eq_true_eq] at hk
  obtain ⟨⟨⟨hslice, hhandle⟩, -⟩, hle⟩ := hk
  rw [hu x hx hslice hhandle] at hle
  omega

end Sys2Proof.Machine
end

section
/-! SUPPORT. Pin counts (R70, R244): a pin raises the count of its page, an unpin lowers it, and neither touches another page. -/

namespace Sys2Proof.Machine

variable {s : State} {slice : Nat} {n : PageName}

/-- A change of another page's entry. -/
theorem entry_onEntry_other {m : PageName} {f : Entry → Entry} (hf : ∀ e, (f e).slice = e.slice ∧ (f e).name = e.name) (h : m ≠ n) :
    (s.onEntry slice n f).entry slice m = s.entry slice m := by
  unfold State.entry
  rw [entries_onEntry]
  induction s.home.entries with
  | nil => rfl
  | cons e t ih =>
    rw [List.map_cons, List.find?_cons, List.find?_cons, ih]
    by_cases he : e.is slice n = true
    · rw [if_pos he]
      have hn : e.name = n := by
        simp only [Entry.is, Bool.and_eq_true, decide_eq_true_eq] at he
        exact he.2
      have h1 : e.is slice m = false := by
        simp [Entry.is, hn, Ne.symm h]
      have h2 : (f e).is slice m = false := by
        simp [Entry.is, (hf e).2, hn, Ne.symm h]
      rw [h1, h2]
    · rw [if_neg he]

theorem entries_dropReplica : (s.dropReplica slice n).home.entries = s.home.entries := entries_tellReplicas

theorem entries_endReplica : (s.endReplica slice n).home.entries = s.home.entries := by
  unfold State.endReplica
  split
  · rfl
  · split
    · exact entries_dropReplica
    · rfl

theorem entries_startReplica : (s.startReplica slice n).home.entries = s.home.entries := by
  unfold State.startReplica
  dsimp only
  split
  · rfl
  · split
    · rfl
    · exact entries_copyOut

/-- A pin raises the count of its page. -/
theorem entry_pinPage {rep : Bool} {e : Entry} (h : s.entry slice n = some e) :
    (s.pinPage slice rep n).entry slice n = some { e with pinCount := e.pinCount + 1 } := by
  have hm : (s.onEntry slice n (fun e => { e with pinCount := e.pinCount + 1 })).entry slice n =
      some { e with pinCount := e.pinCount + 1 } := by
    rw [entry_onEntry, h]
    · rfl
    · exact fun _ => ⟨rfl, rfl⟩
  unfold State.pinPage
  rw [h]
  dsimp only
  split
  · rw [entry_congr entries_onReplica, entry_congr entries_startReplica, hm]
  · exact hm

/-! ## Unpinning -/

theorem unpinPage_some {rep : Bool} {e : Entry} (h : s.entry slice n = some e) : (s.unpinPage slice rep n).2 =
    (if rep then (s.onReplica slice n (fun r => { r with pins := r.pins - 1 })).endReplica slice n else s).onEntry slice n
      (fun e => { e with pinCount := e.pinCount - 1 }) := by
  unfold State.unpinPage
  rw [h]

theorem unpinPage_none {rep : Bool} (h : s.entry slice n = none) : (s.unpinPage slice rep n).2 = s := by
  unfold State.unpinPage
  rw [h]

/-- An unpin lowers the count of its page, and of no other. -/
theorem entry_unpinPage {rep : Bool} {m : PageName} {e : Entry} (h : s.entry slice m = some e) :
    (s.unpinPage slice rep n).2.entry slice m = some { e with pinCount := if m = n then e.pinCount - 1 else e.pinCount } := by
  cases hn : s.entry slice n with
  | none =>
    have hne : m ≠ n := fun k => by rw [k, hn] at h; cases h
    rw [unpinPage_none hn, if_neg hne, h]
  | some x =>
    have hr : (if rep then (s.onReplica slice n (fun r => { r with pins := r.pins - 1 })).endReplica slice n else s).home.entries =
        s.home.entries := by
      split
      · exact entries_endReplica.trans entries_onReplica
      · rfl
    rw [unpinPage_some hn]
    by_cases hm : m = n
    · subst hm
      rw [entry_onEntry, entry_congr hr, h, if_pos rfl]
      · rfl
      · exact fun _ => ⟨rfl, rfl⟩
    · rw [entry_onEntry_other, entry_congr hr, h, if_neg hm]
      · exact fun _ => ⟨rfl, rfl⟩
      · exact hm

/-- One page of an UNPIN: the counts lowered so far, and the state. -/
def unpinStep (slice : Nat) (rep : Bool) (a : Nat × State) (n : PageName) : Nat × State :=
  let r := a.2.unpinPage slice rep n
  (a.1 + b2n r.1, r.2)

theorem runUnpin_eq {h : ExtHdr} {p : PinParams} {c : Ctx} : s.runUnpin h p c =
    let r := (pinNames p).foldl (unpinStep c.slice (p.replicate = 1)) (0, s)
    r.2.respond h 8 0 .ok 0 (.pins r.1 ((pinNames p).length - r.1) 0) := rfl

/-- An UNPIN lowers the counts of the pages it names, each once. -/
theorem unpins_do {rep : Bool} {ns : List PageName} (hn : ns.Nodup) (k : Nat) :
    (ns.foldl (unpinStep slice rep) (k, s)).1 ≤ k + ns.length ∧
    ∀ m e, s.entry slice m = some e → (ns.foldl (unpinStep slice rep) (k, s)).2.entry slice m =
      some { e with pinCount := if m ∈ ns then e.pinCount - 1 else e.pinCount } := by
  induction ns generalizing k s with
  | nil => exact ⟨Nat.le_refl _, fun m e h => h⟩
  | cons n t ih =>
    obtain ⟨hnt, ht⟩ := List.nodup_cons.mp hn
    obtain ⟨hk, he⟩ := ih (s := (s.unpinPage slice rep n).2) ht (k + b2n (s.unpinPage slice rep n).1)
    refine ⟨Nat.le_trans hk ?_, fun m e h => ?_⟩
    · rw [List.length_cons]
      have hb : b2n (s.unpinPage slice rep n).1 ≤ 1 := by
        unfold b2n
        split <;> omega
      omega
    · rw [List.foldl_cons, unpinStep, he m _ (entry_unpinPage h)]
      by_cases hm : m = n
      · subst hm
        simp [hnt]
      · simp [hm]

theorem unpins_keep {P : State → Prop} (hP : Closed 2624000 P) {rep : Bool} {ns : List PageName} {k : Nat} (h : P s) :
    P (ns.foldl (unpinStep slice rep) (k, s)).2 :=
  keep_foldl_snd (fun _ _ _ => State.unpinPage_keeps hP) h

/-- The names of a PIN are all different. -/
theorem pinNames_nodup (p : PinParams) : (pinNames p).Nodup := by
  unfold pinNames
  refine List.nodup_flatMap.mpr ⟨fun l _ => List.nodup_flatMap.mpr ⟨fun g _ => ?_, ?_⟩, ?_⟩
  · exact List.nodup_range.map fun a b hab => by
      have h := congrArg PageName.block hab
      exact Nat.add_left_cancel h
  · refine List.nodup_range.imp fun {a b} hab x ha hb => ?_
    obtain ⟨i, -, rfl⟩ := List.mem_map.mp ha
    obtain ⟨j, -, hj⟩ := List.mem_map.mp hb
    exact hab (Nat.add_left_cancel (congrArg PageName.group hj)).symm
  · refine List.nodup_range.imp fun {a b} hab x ha hb => ?_
    obtain ⟨g, -, ha⟩ := List.mem_flatMap.mp ha
    obtain ⟨i, -, rfl⟩ := List.mem_map.mp ha
    obtain ⟨k, -, hb⟩ := List.mem_flatMap.mp hb
    obtain ⟨j, -, hj⟩ := List.mem_map.mp hb
    exact hab (Nat.add_left_cancel (congrArg PageName.layer hj)).symm

theorem unpin_does {h : ExtHdr} {p : PinParams} {s2 : State} {c : Ctx} (e : admission h (.unpin h p) (pinSpec 8 h p) s.settle = some (c, s2)) :
    let t := s.settle.extended h (.unpin h p) (pinSpec 8 h p) (fun c s => s.runUnpin h p c)
    t.reqs = s2.reqs ∧ (∃ k, k ≤ (pinNames p).length ∧
      lastResponse t h.pkt.qpn = some (8, 0, .ok, .pins k ((pinNames p).length - k) 0)) ∧
    ∀ n e, s2.entry c.slice n = some e → ∃ e', t.entry c.slice n = some e' ∧
      e'.pinCount = (if n ∈ pinNames p then e.pinCount - 1 else e.pinCount) := by
  dsimp only
  rw [extended_of_admit e, runUnpin_eq]
  dsimp only
  obtain ⟨hk, he⟩ := unpins_do (s := s2) (slice := c.slice) (rep := p.replicate = 1) (pinNames_nodup p) 0
  refine ⟨?_, ⟨_, by rwa [Nat.zero_add] at hk, respond_last (unpins_keep (rts_closed _ rfl rfl) (admit_inRts e))⟩, fun n x hx => ?_⟩
  · exact respond_frame (reqs_closed _ rfl rfl rfl) (unpins_keep (reqs_closed s2.reqs rfl rfl rfl) rfl)
  · exact ⟨_, (entry_congr (congrArg Home.entries (respond_frame (home_closed _ rfl rfl) rfl))).trans (he n x hx), rfl⟩

end Sys2Proof.Machine
end

section
/-! SUPPORT. A PIN that waits (R244, log entry 27): whatever becomes of its pages, it waits for one still, each page of it counted once, or
it is answered and off the list. -/

namespace Sys2Proof.Machine

variable {s : State} {slice r : Nat} {n : PageName}

/-- Under rising keys a member is what its key finds. -/
theorem Tbl.get?_of_mem {α : Type} {t : Tbl α} {k : Nat} {v : α} (ht : (t.map Prod.fst).Pairwise (· < ·)) (h : (k, v) ∈ t) :
    t.get? k = some v := by
  induction t with
  | nil => cases h
  | cons p t ih =>
    obtain ⟨hp, ht⟩ := List.pairwise_cons.mp ht
    simp only [Tbl.get?]
    rcases List.mem_cons.mp h with rfl | h
    · exact if_pos rfl
    · have hlt := hp k (List.mem_map_of_mem (f := Prod.fst) h)
      rw [if_neg (by omega)]
      exact ih ht h

/-- The request is a PIN with these pages still to come, every page of it counted once. -/
def PinWaits (h : ExtHdr) (p : PinParams) (w : List PageName) (q : Req) : Prop :=
  q.hdr = h ∧ ∃ a m l, q.kind = .pin p w a m l ∧ w.Nodup ∧ a + m + l + w.length = (pinNames p).length

/-- The request of that number is answered, or it is a PIN that waits for a page still. -/
def PinHeld (r : Nat) (h : ExtHdr) (p : PinParams) (t : Tbl Req) : Prop :=
  t.get? r = none ∨ ∃ q w, t.get? r = some q ∧ PinWaits h p w q ∧ w ≠ []

/-- The number finds nothing any more, or what it found. -/
def KeepsOrDrops (r : Nat) (t u : Tbl Req) : Prop := u.get? r = none ∨ u.get? r = t.get? r

theorem KeepsOrDrops.trans {a b c : Tbl Req} (h : KeepsOrDrops r a b) (k : KeepsOrDrops r b c) : KeepsOrDrops r a c := by
  rcases k with k | k
  · exact .inl k
  · exact h.imp k.trans k.trans

theorem keepsOrDrops_of_eq {t u : Tbl Req} (h : u = t) : KeepsOrDrops r t u := .inr (by rw [h])

/-- A request that is answered is off the list; the others stand. -/
theorem finishReq_reqs {k : Nat} {code : Code} {body : RespBody} : (s.finishReq k code body).reqs.get? k = none ∧
    KeepsOrDrops r s.reqs (s.finishReq k code body).reqs := by
  cases hk : s.reqs.get? k with
  | none =>
    have he : s.finishReq k code body = s := by
      unfold State.finishReq
      rw [hk]
    rw [he]
    exact ⟨hk, .inr rfl⟩
  | some q =>
    rw [finishReq_gone hk]
    refine ⟨Tbl.get?_erase_same _ _, ?_⟩
    by_cases hr : r = k
    · exact .inl (hr ▸ Tbl.get?_erase_same _ _)
    · exact .inr (Tbl.get?_erase_other _ hr)

/-! ## The fate of a page -/

/-- What a page's fate does with one request on the list. -/
def State.fateStep (slice : Nat) (n : PageName) (fate : Fate) (s : State) (p : Nat × Req) : State :=
  if p.2.slice ≠ slice then s
  else match p.2.kind with
    | .pin _ [] a b c => s.finishReq p.1 .ok (.pins a b c)
    | .acquire ps w slot made pre =>
      if !w.contains n then s
      else if fate = .landed then
        let w := w.filter (· ≠ n)
        let s := s.onReqs (fun t => t.modify p.1 (fun q => { q with kind := .acquire ps w slot made pre }))
        if w.isEmpty then s.grantLease p.1 slot else s
      else (s.undoAcquire slot made pre).finishReq p.1 (if fate = .noUnit then .busy else .miss) .none
    | _ => s

/-- The requests of a slice, each having heard of the fate. -/
def heard (slice : Nat) (n : PageName) (fate : Fate) (t : Tbl Req) : Tbl Req :=
  t.map (fun p => (p.1, if p.2.slice = slice then pinFate n fate p.2 else p.2))

theorem tellFate_eq {fate : Fate} : s.tellFate slice n fate =
    (heard slice n fate s.reqs).foldl (State.fateStep slice n fate) (s.onReqs (heard slice n fate)) := by
  have hm : (fun t : Tbl Req => t.map (fun p => if p.2.slice = slice then (p.1, pinFate n fate p.2) else p)) = heard slice n fate := by
    funext t
    refine List.map_congr_left fun p _ => ?_
    split <;> rfl
  unfold State.tellFate
  rw [hm]
  rfl

theorem copyOlds_reqs {sl : Nat} {l : List PageName} : (l.foldl (fun s n => s.copyOld sl n) s).reqs = s.reqs :=
  keep_foldl (P := fun t => t.reqs = s.reqs) (fun _ _ => State.copyOld_keeps (reqs_closed s.reqs rfl rfl rfl)) rfl

theorem grantLease_reqs {k slot : Nat} : KeepsOrDrops r s.reqs (s.grantLease k slot).reqs := by
  unfold State.grantLease
  split
  · exact .inr rfl
  · refine KeepsOrDrops.trans (keepsOrDrops_of_eq ?_) finishReq_reqs.2
    rw [State.onHome_reqs]
    split
    · exact copyOlds_reqs
    · rfl

/-- A fate's step for another request, or for a PIN, drops the request of the number or leaves it. -/
theorem fateStep_reqs {fate : Fate} {x : Nat × Req} (h : x.1 = r → ∃ p w a m l, x.2.kind = .pin p w a m l) :
    KeepsOrDrops r s.reqs (s.fateStep slice n fate x).reqs := by
  unfold State.fateStep
  split
  · exact .inr rfl
  · split
    · exact finishReq_reqs.2
    · next ps w slot made pre hk =>
      have hr : r ≠ x.1 := fun hr => by
        obtain ⟨p, w, a, m, l, hx⟩ := h hr.symm
        rw [hk] at hx
        cases hx
      split
      · exact .inr rfl
      · split
        · have hmod (w : List PageName) : KeepsOrDrops r s.reqs
              (s.onReqs (fun t => t.modify x.1 (fun q => { q with kind := .acquire ps w slot made pre }))).reqs := by
            refine .inr ?_
            rw [State.onReqs_reqs, Tbl.get?_modify, if_neg hr]
          dsimp only
          split
          · exact (hmod _).trans grantLease_reqs
          · exact hmod _
        · exact KeepsOrDrops.trans (keepsOrDrops_of_eq (State.undoAcquire_keeps (reqs_closed s.reqs rfl rfl rfl) rfl)) finishReq_reqs.2
    · exact .inr rfl

theorem fateSteps_reqs {fate : Fate} {l : List (Nat × Req)} (h : ∀ x ∈ l, x.1 = r → ∃ p w a m l, x.2.kind = .pin p w a m l) :
    KeepsOrDrops r s.reqs (l.foldl (State.fateStep slice n fate) s).reqs := by
  induction l generalizing s with
  | nil => exact .inr rfl
  | cons x t ih =>
    exact (fateStep_reqs (h x List.mem_cons_self)).trans (ih fun y hy => h y (List.mem_cons_of_mem _ hy))

/-- A PIN that hears of a page counts it once. -/
theorem pinWaits_heard {h : ExtHdr} {p : PinParams} {w : List PageName} {q : Req} (k : PinWaits h p w q) (fate : Fate) :
    ∃ w', PinWaits h p w' (pinFate n fate q) := by
  obtain ⟨hq, a, m, l, hk, hn, hc⟩ := k
  unfold pinFate
  rw [hk]
  dsimp only
  split
  · next hmem =>
    have hmem : n ∈ w := by simpa using hmem
    refine ⟨w.filter (· ≠ n), hq, _, _, _, rfl, hn.filter _, ?_⟩
    have hl : (w.filter (· ≠ n)).length + 1 = w.length := by
      have he : w.filter (· ≠ n) = w.erase n := by
        rw [hn.erase_eq_filter]
        exact List.filter_congr fun x _ => by simp [bne, BEq.beq]
      rw [he, List.length_erase_add_one hmem]
    generalize (w.filter (· ≠ n)).length = k at hl ⊢
    cases fate <;> simp [b2n] <;> omega
  · exact ⟨w, hq, a, m, l, hk, hn, hc⟩

/-- A PIN that waits for no page of a slice of the request is answered. -/
theorem fateStep_answers {fate : Fate} {q : Req} {h : ExtHdr} {p : PinParams} (hs : q.slice = slice) (k : PinWaits h p [] q) :
    (s.fateStep slice n fate (r, q)).reqs.get? r = none := by
  obtain ⟨-, a, m, l, hk, -⟩ := k
  unfold State.fateStep
  rw [if_neg (not_not.mpr hs)]
  dsimp only
  rw [hk]
  exact (finishReq_reqs (r := r)).1

theorem pinFate_slice {fate : Fate} {q : Req} : (pinFate n fate q).slice = q.slice := by
  unfold pinFate
  split
  · split <;> rfl
  · rfl

/-- A fate that reaches a PIN that waits leaves it waiting for another page, or answered. -/
theorem pinHeld_tellFate {h : ExtHdr} {p : PinParams} {fate : Fate} (hok : s.ReqsOk) (hh : PinHeld r h p s.reqs) :
    PinHeld r h p (s.tellFate slice n fate).reqs := by
  rw [tellFate_eq]
  have hget : (heard slice n fate s.reqs).get? r =
      (s.reqs.get? r).map (fun q => if q.slice = slice then pinFate n fate q else q) := by
    unfold heard
    exact Tbl.get?_mapValues s.reqs (fun q => if q.slice = slice then pinFate n fate q else q)
  have hkeys : (heard slice n fate s.reqs).map Prod.fst = s.reqs.map Prod.fst := by
    unfold heard
    rw [List.map_map]
    rfl
  have hmem : ∀ q, (r, q) ∈ heard slice n fate s.reqs → (heard slice n fate s.reqs).get? r = some q := fun q hq =>
    Tbl.get?_of_mem (hkeys ▸ hok.1) hq
  rcases hh with hnone | ⟨q, w, hq, hw, hne⟩
  · rw [hnone, Option.map_none] at hget
    have hstep := fateSteps_reqs (s := s.onReqs (heard slice n fate)) (slice := slice) (n := n) (fate := fate) (r := r)
      (l := heard slice n fate s.reqs) (fun x hx hxr => absurd (hmem x.2 (hxr ▸ hx)) (by rw [hget]; exact nofun))
    rw [State.onReqs_reqs] at hstep
    exact .inl (hstep.elim id (·.trans hget))
  · rw [hq, Option.map_some] at hget
    obtain ⟨q', hq', w', hw', hsl⟩ : ∃ q', (heard slice n fate s.reqs).get? r = some q' ∧ ∃ w', PinWaits h p w' q' ∧
        (w' = [] → q'.slice = slice) := by
      refine ⟨_, hget, ?_⟩
      split
      · next hs =>
        obtain ⟨w', hw'⟩ := pinWaits_heard (n := n) hw fate
        exact ⟨w', hw', fun _ => pinFate_slice.trans hs⟩
      · exact ⟨w, hw, fun k => absurd k hne⟩
    have hpin : ∀ x ∈ heard slice n fate s.reqs, x.1 = r → ∃ p w a m l, x.2.kind = .pin p w a m l := fun x hx hxr => by
      have := (hmem x.2 (hxr ▸ hx)).symm.trans hq'
      obtain ⟨-, a, m, l, hk, -⟩ := hw'
      exact ⟨p, w', a, m, l, Option.some.inj this ▸ hk⟩
    by_cases hw0 : w' = []
    · subst hw0
      obtain ⟨l1, l2, hl⟩ := List.append_of_mem (Tbl.get?_mem hq')
      rw [hl, List.foldl_append, List.foldl_cons]
      have h2 := fateSteps_reqs (s := (l1.foldl (State.fateStep slice n fate) (s.onReqs (heard slice n fate))).fateStep slice n fate (r, q'))
        (slice := slice) (n := n) (fate := fate) (r := r) (l := l2) (fun x hx => hpin x (by rw [hl]; simp [hx]))
      exact .inl (h2.elim id (·.trans (fateStep_answers (hsl rfl) hw')))
    · have hstep := fateSteps_reqs (s := s.onReqs (heard slice n fate)) (slice := slice) (n := n) (fate := fate) (r := r) hpin
      rw [State.onReqs_reqs] at hstep
      exact hstep.imp id (fun k => ⟨q', w', k.trans hq', hw', hw0⟩)

end Sys2Proof.Machine
end

section
/-! SUPPORT. Awaiting a page (R224, R241, R242) leaves a PIN that waits as it is, unless the page is lost at once, which it hears of. -/

namespace Sys2Proof.Machine

variable {s : State} {slice r : Nat} {n : PageName} {h : ExtHdr} {p : PinParams}

/-- The requests stand under rising numbers, and the PIN of that number waits still or is answered. -/
def State.HoldsPin (r : Nat) (h : ExtHdr) (p : PinParams) (s : State) : Prop := s.ReqsOk ∧ PinHeld r h p s.reqs

theorem holdsPin_closed {m : Nat} (hreqs : m.testBit 15 = false) (hnextReq : m.testBit 16 = false) (hdrop : m.testBit 20 = false) :
    Closed m (State.HoldsPin r h p) where
  aon _ _ _ k := k
  ras _ _ _ k := k
  pwr _ _ _ k := k
  sec _ _ _ k := k
  host _ _ _ k := k
  log _ _ _ k := k
  sch _ _ _ k := k
  eng _ _ _ k := k
  nbu _ _ _ _ k := k
  mem _ _ _ _ _ k := k
  cells _ _ _ _ k := k
  home _ _ _ k := k
  locus _ _ _ k := k
  xpt _ _ _ k := k
  eth _ _ _ k := k
  reqs k := absurd k (by rw [hreqs]; exact Bool.false_ne_true)
  nextReq k := absurd k (by rw [hnextReq]; exact Bool.false_ne_true)
  image _ _ _ k := k
  free _ _ k := k
  emitted _ _ _ k := k
  drop k := absurd k (by rw [hdrop]; exact Bool.false_ne_true)
  link _ _ _ _ k := k

theorem holdsPin_tellFate {fate : Fate} (k : s.HoldsPin r h p) : (s.tellFate slice n fate).HoldsPin r h p :=
  ⟨State.tellFate_keeps (reqsOk_closed _) k.1, pinHeld_tellFate k.1 k.2⟩

/-- What both branches of a condition keep. -/
theorem keep_either {P : State → Prop} {c : Prop} [Decidable c] {a b t : State} (k : P t) (ha : P t → P a) (hb : P t → P b) :
    P (if c then a else b) := by
  split
  · exact ha k
  · exact hb k

theorem holdsPin_losePage {cause drive lba nvme : Nat} (k : s.HoldsPin r h p) : (s.losePage slice n cause drive lba nvme).HoldsPin r h p := by
  unfold State.losePage
  split
  · exact k
  · have hP {m : Nat} := holdsPin_closed (m := m) (r := r) (h := h) (p := p)
    dsimp only
    refine holdsPin_tellFate ?_
    refine keep_either ?_ (fun k => State.bumpGen_keeps (hP rfl rfl rfl) (State.onEntry_keeps (hP rfl rfl rfl) k))
      (fun k => State.dropEntry_keeps (hP rfl rfl rfl) (State.dropWriteFrame_keeps (hP rfl rfl rfl) k))
    refine State.dropReplica_keeps (hP rfl rfl rfl) (State.retireHull_keeps (hP rfl rfl rfl) (State.retireShadow_keeps (hP rfl rfl rfl) ?_))
    refine keep_either (keep_either ?_ (State.retireUnit_keeps (hP rfl rfl rfl)) id) (State.retireExtent_keeps (hP rfl rfl rfl)) id
    refine State.countTier_keeps (hP rfl rfl rfl) (State.logEvent_keeps (hP rfl rfl rfl) (State.logEvent_keeps (hP rfl rfl rfl) ?_))
    exact State.endFill_keeps (hP rfl rfl rfl) (State.writeSlots_keeps (hP rfl rfl rfl) k)

theorem holdsPin_askNext (k : s.HoldsPin r h p) : (s.askNext slice n).HoldsPin r h p := by
  unfold State.askNext
  split
  · split
    · have hx : Closed 8192 (State.HoldsPin r h p) := holdsPin_closed rfl rfl rfl
      exact hx.xpt rfl _ _ (State.onFill_keeps (holdsPin_closed rfl rfl rfl) k)
    · split
      · exact k
      · split <;> exact holdsPin_losePage k
  · exact k

theorem holdsPin_startRecovery {cause : Nat} {media : Option (Nat × Nat)} (k : s.HoldsPin r h p) :
    (s.startRecovery slice n cause media).HoldsPin r h p := by
  unfold State.startRecovery
  split
  · split
    · exact k
    · exact holdsPin_askNext (State.onFill_keeps (holdsPin_closed rfl rfl rfl) k)
  · exact holdsPin_askNext k

theorem holdsPin_startFill {cls : Nat} {lookahead : Bool} (k : s.HoldsPin r h p) : (s.startFill slice n cls lookahead).HoldsPin r h p := by
  unfold State.startFill
  split
  · exact k
  · split
    · exact State.raiseFill_keeps (holdsPin_closed rfl rfl rfl) k
    · split
      · split
        · exact k
        · exact holdsPin_startRecovery k
      · split
        · exact State.placeFill_keeps (holdsPin_closed rfl rfl rfl) k
        · exact k

theorem holdsPin_awaitPage {cls : Nat} (k : s.HoldsPin r h p) : (s.awaitPage slice n cls).HoldsPin r h p := by
  unfold State.awaitPage
  split
  · exact k
  · split
    · exact holdsPin_startRecovery k
    · exact holdsPin_startFill k

theorem holdsPin_awaitPages {ns : List PageName} {cls : Nat} (k : s.HoldsPin r h p) :
    (ns.foldl (fun s n => s.awaitPage slice n cls) s).HoldsPin r h p :=
  keep_foldl (fun _ _ => holdsPin_awaitPage) k

end Sys2Proof.Machine
end

section
/-! SUPPORT. A PIN raises the counts of its pages and answers how many are pinned, or waits for those that must land (R70, R244, log
entry 27). -/

namespace Sys2Proof.Machine

variable {s : State} {slice : Nat} {h : ExtHdr} {p : PinParams} {c : Ctx}

/-- The request that an admitted request's header and kind put on the list. -/
def State.reqOf (h : ExtHdr) (op : Nat) (c : Ctx) (prev : Bool) (kind : ReqKind) (s : State) : Req :=
  { qpn := h.pkt.qpn, hdr := h, op := op, slice := c.slice, cls := s.classOf c.slice c.group, mapGen := h.mapGen, onPrev := prev,
    admitted := s.now, phaseMode := (s.cfg c.slice).phaseMode, microcode := (s.cfg c.slice).microcode, kind := kind }

theorem onCtx_reqs_entries {qpn : Nat} {f : Ctx → Ctx} :
    (s.onCtx qpn f).reqs = s.reqs ∧ (s.onCtx qpn f).home.entries = s.home.entries := ⟨rfl, rfl⟩

/-- A request that is admitted stands under the number that was next; the counts of requests in flight leave the entries alone. -/
theorem addReq_frame {op : Nat} {prev : Bool} {kind : ReqKind} :
    (s.addReq h op c prev kind).2.reqs.get? s.nextReq = some (s.reqOf h op c prev kind) ∧
    (s.addReq h op c prev kind).2.home.entries = s.home.entries := by
  unfold State.addReq
  dsimp only
  rw [onCtx_reqs_entries.1, onCtx_reqs_entries.2]
  refine ⟨?_, ?_⟩
  · split <;> exact pushReq_get _ s
  · split <;> cases prev <;> rfl

/-- The pages of a PIN, their counts raised. -/
def State.pinAll (slice : Nat) (p : PinParams) (s : State) : State :=
  (pinNames p).foldl (fun s n => (s.refresh slice n).pinPage slice (p.replicate = 1) n) s

theorem pinAll_keeps {P : State → Prop} (hP : Closed 2641792 P) (k : P s) : P (s.pinAll slice p) :=
  keep_foldl (fun _ _ k => State.pinPage_keeps (hP.mono rfl) (State.refresh_keeps hP k)) k

/-- The number of pages of a PIN that stand so. -/
def State.pinCount (s : State) (slice : Nat) (p : PinParams) (x : PinAt) : Nat :=
  ((pinNames p).filter (fun n => s.pinAt slice n = x)).length

/-- The pages of a PIN that must land. -/
def State.pinWait (s : State) (slice : Nat) (p : PinParams) : List PageName := (pinNames p).filter (fun n => s.pinAt slice n = .waits)

/-- Each page stands in one way. -/
theorem pinCounts (s : State) : s.pinCount slice p .pinned + s.pinCount slice p .missing + s.pinCount slice p .lost +
    (s.pinWait slice p).length = (pinNames p).length := by
  unfold State.pinCount State.pinWait
  induction pinNames p with
  | nil => rfl
  | cons n t ih =>
    simp only [List.filter_cons, List.length_cons]
    cases s.pinAt slice n <;> simp <;> omega

/-- The state of a PIN that is on the list of requests. -/
def State.pinAdded (h : ExtHdr) (p : PinParams) (prev : Bool) (c : Ctx) (s : State) : State :=
  (s.addReq h 7 c prev (.pin p (s.pinWait c.slice p) (s.pinCount c.slice p .pinned) (s.pinCount c.slice p .missing)
    (s.pinCount c.slice p .lost))).2

theorem runPin_eq {prev : Bool} : s.runPin h p prev c =
    let s := s.pinAll c.slice p
    let t := s.pinAdded h p prev c
    if (s.pinWait c.slice p).isEmpty then
      t.finishReq s.nextReq .ok (.pins (s.pinCount c.slice p .pinned) (s.pinCount c.slice p .missing) (s.pinCount c.slice p .lost))
    else (s.pinWait c.slice p).foldl (fun s n => s.awaitPage c.slice n 1) t := rfl

theorem pinWait_isEmpty : (s.pinWait slice p).isEmpty = (pinNames p).all (fun n => s.pinAt slice n ≠ .waits) := by
  unfold State.pinWait
  rw [Bool.eq_iff_iff, List.isEmpty_iff, List.filter_eq_nil_iff, List.all_eq_true]
  simp

/-- A PIN none of whose pages must land is answered. -/
theorem pinAdded_answers {prev : Bool} (hw : s.pinWait c.slice p = []) (hk : s.inRts h.pkt.qpn) :
    let t := (s.pinAdded h p prev c).finishReq s.nextReq .ok
      (.pins (s.pinCount c.slice p .pinned) (s.pinCount c.slice p .missing) (s.pinCount c.slice p .lost))
    t.reqs.get? s.nextReq = none ∧ t.home.entries = s.home.entries ∧
    ∃ a m l, a + m + l = (pinNames p).length ∧ lastResponse t h.pkt.qpn = some (7, 0, .ok, .pins a m l) := by
  have hsum := pinCounts (slice := c.slice) (p := p) s
  rw [hw, List.length_nil, Nat.add_zero] at hsum
  have hk : (s.pinAdded h p prev c).inRts h.pkt.qpn := State.addReq_keeps (rts_closed _ rfl rfl) hk
  refine ⟨(finishReq_reqs (r := 0)).1, finishReq_frame.2.1.trans addReq_frame.2, _, _, _, hsum, ?_⟩
  exact finishReq_last addReq_frame.1 hk

/-- A PIN with a page that must land waits, each page of it counted once. -/
theorem holdsPin_pinAdded {prev : Bool} (hw : s.pinWait c.slice p ≠ []) (hok : s.ReqsOk) :
    (s.pinAdded h p prev c).HoldsPin s.nextReq h p := by
  refine ⟨State.addReq_keeps (reqsOk_closed _) hok, .inr ⟨_, _, addReq_frame.1, ⟨rfl, _, _, _, rfl, ?_, pinCounts s⟩, hw⟩⟩
  exact (pinNames_nodup p).filter _

theorem pin_does {s2 : State} (hok : s.ReqsOk) (e : admission h (.pin h p) (pinSpec 7 h p) s.settle = some (c, s2)) :
    let s3 := (pinNames p).foldl (fun s n => (s.refresh c.slice n).pinPage c.slice (p.replicate = 1) n) s2
    let t := s.settle.extended h (.pin h p) (pinSpec 7 h p) (fun c s => s.runPin h p (s.onPrevious c.slice h.mapGen 0 p.handle false) c)
    if (pinNames p).all (fun n => s3.pinAt c.slice n ≠ .waits) then
      t.reqs.get? s2.nextReq = none ∧ t.home.entries = s3.home.entries ∧
      ∃ a m l, a + m + l = (pinNames p).length ∧ lastResponse t h.pkt.qpn = some (7, 0, .ok, .pins a m l)
    else t.reqs.get? s2.nextReq = none ∨ ∃ q wait a m l, t.reqs.get? s2.nextReq = some q ∧ q.hdr = h ∧
      q.kind = .pin p wait a m l ∧ wait ≠ [] ∧ a + m + l + wait.length = (pinNames p).length := by
  intro s3 t
  have h3 : s3 = s2.pinAll c.slice p := rfl
  have ht : t = s2.runPin h p (s2.onPrevious c.slice h.mapGen 0 p.handle false) c := extended_of_admit e
  have hk : s2.inRts h.pkt.qpn := admit_inRts e
  have hok : s2.ReqsOk := admit_keeps (reqsOk_closed _) (State.settle_keeps (reqsOk_closed _) hok) e
  clear_value s3 t
  subst h3 ht
  have hnext : (s2.pinAll c.slice p).nextReq = s2.nextReq := pinAll_keeps (nextReq_closed _ rfl) rfl
  rw [runPin_eq, ← pinWait_isEmpty, ← hnext]
  dsimp only
  by_cases hw : s2.pinAll c.slice p |>.pinWait c.slice p |>.isEmpty
  · rw [if_pos hw, if_pos hw]
    exact pinAdded_answers (List.isEmpty_iff.mp hw) (pinAll_keeps (rts_closed _ rfl rfl) hk)
  · rw [if_neg hw, if_neg hw]
    obtain ⟨-, hh⟩ := holdsPin_awaitPages (slice := c.slice) (cls := 1) (ns := (s2.pinAll c.slice p).pinWait c.slice p)
      (holdsPin_pinAdded (h := h) (prev := s2.onPrevious c.slice h.mapGen 0 p.handle false) (fun k => hw (List.isEmpty_iff.mpr k))
        (pinAll_keeps (reqsOk_closed _) hok))
    refine hh.imp id ?_
    rintro ⟨q, w, hq, ⟨hhdr, a, m, l, hkind, -, hsum⟩, hne⟩
    exact ⟨q, w, a, m, l, hq, hhdr, hkind, hne, hsum⟩

end Sys2Proof.Machine
end

section

open Sys2Proof Sys2Proof.Machine

/-- Settles O26: a sequence's record is followed through the changes of pages by its owner alone (handle, epoch, owner, state); a PIN that
waits counts each of its pages once, whatever becomes of them. -/
theorem handoversAndPins : Obligations.HandoversAndPins := by
  unfold Obligations.HandoversAndPins
  refine ⟨⟨fun h p s s2 c hr => ⟨fun e k => ?_, fun e k => ?_, fun e => ?_⟩, fun slice handle s hr r hs hst => ⟨fun ht hu => ?_, fun ht hu => ?_⟩⟩,
    fun h p s s2 c hr hok => ⟨fun e => ?_, fun e => ?_⟩, fun slice rep n e s he => ?_⟩
  · exact ⟨_, congrArg Host.Outcome.next (whenUp_running hr), transfer_does e k⟩
  · exact ⟨_, congrArg Host.Outcome.next (whenUp_running hr), discard_does e k⟩
  · exact ⟨_, congrArg Host.Outcome.next (whenUp_running hr), query_does e⟩
  · exact ⟨_, congrArg Host.Outcome.next (whenUp_running hr), expireTomb_due hs hst ht hu⟩
  · exact congrArg Host.Outcome.next ((whenUp_running hr).trans (expireTomb_early ht hu))
  · exact ⟨_, congrArg Host.Outcome.next (whenUp_running hr), pin_does hok e⟩
  · exact ⟨_, congrArg Host.Outcome.next (whenUp_running hr), unpin_does e⟩
  · exact ⟨_, entry_pinPage he, rfl⟩

end

section
/-! The statements on the reset state and on the steps of a near-bank window. -/

open Sys2Proof Sys2Proof.Machine

/-- Settles O4: the reset state is one closed value, and each register is read from it. -/
theorem resetRegistersRead : Obligations.ResetRegistersRead := by
  unfold Obligations.ResetRegistersRead
  have regions : ∀ n, n < 8 → State.reset.regValue (0x800000 + n * 0x40000 + 0x30000) % 4096 = 0x7d0 + 2 ^ 11 := by decide +kernel
  have rings : ∀ r, r < 64 → State.reset.regValue (0x1000 + r * 0x20 + 8) = 4 + r * 2 ^ 7 := by decide +kernel
  exact ⟨rfl, ⟨List.Pairwise.nil, fun _ h => nomatch h⟩, rfl, rfl, rfl, rfl, rfl, by decide,
    rfl, rfl, rfl, rfl, by decide +kernel, by decide +kernel, by decide +kernel, regions, by decide +kernel, by decide +kernel, rings⟩

namespace Sys2Proof.Machine

/-- A window of stack 0 whose one group is reduced, and whose record goes next into its slot (R140). -/
def reducedWin : NbWin := { step := .reduced, triples := [{}] }

/-- A running node with that window. Its memory lists the last byte of the record's first column twice, so it is not canonical. -/
def listedTwice : State :=
  { State.reset with
    aon := { State.reset.aon with phase := .running }
    mem := { State.reset.mem with cells := [(slotAddr 0 0 0 31, 1), (slotAddr 0 0 0 31, 2)] }
    nbu := [{ wins := [(0, reducedWin)] }] }

/-- The record has 32 bytes, and the last is the reserved one, which is zero (R141). -/
theorem reducedWin_record : (groupRecord reducedWin.stamp {}).encode.length = 32 ∧
    (groupRecord reducedWin.stamp {}).encode.getD 31 0 = 0 := by decide +kernel

/-- Writing that zero removes the first of the two entries, so that the slot gives the second. -/
theorem listedTwice_reads : ((listedTwice.resultWindow 0 0).slotBytes 0 0 0 32).getD 31 0 = 2 := by decide +kernel

end Sys2Proof.Machine

/-- Refutes O21: the clause of NB_RESULT takes every state, also one whose memory is not canonical; where an address is listed twice,
a zero of the record takes only the first entry away, and the slot's bytes are not the record's. -/
theorem not_nearBankWindowSteps : ¬ Obligations.NearBankWindowSteps := by
  unfold Obligations.NearBankWindowSteps
  rintro ⟨-, h⟩
  obtain ⟨-, hsteps⟩ := h 0 0 reducedWin listedTwice rfl
  obtain ⟨-, -, -, -, hresult, -⟩ := hsteps rfl
  obtain ⟨t, ht, -, hbytes⟩ := hresult {} rfl rfl
  obtain ⟨hlen, hlast⟩ := reducedWin_record
  obtain rfl : listedTwice.resultWindow 0 0 = t := Host.Outcome.next.inj ht
  have hb := hbytes rfl (by decide) (by decide +kernel) rfl (by rw [hlen]; decide)
  rw [hlen, show reducedWin.slotOf {} = 0 by decide +kernel] at hb
  have h2 := listedTwice_reads
  change ((listedTwice.resultWindow 0 0).slotBytes 0 0 0 32) = _ at hb
  rw [hb, hlast] at h2
  exact absurd h2 (by decide)

end

section
/-! SUPPORT. Regions of near-bank units: what an access that joins a collision queue leaves of a region, and what a change of one
region or of one window reads back as. -/

namespace Sys2Proof.Machine

/-! ## Views of a region that its collision queue leaves alone -/

/-- A view of a region that an access in its collision queue does not change (R133). -/
def NbRegion.Steady {β : Type} (g : NbRegion → β) : Prop := ∀ r c, g (NbRegion.enqueue c r) = g r

/-- The counters of R149 for aborts, refusals and groups computed on cells. -/
def NbRegion.counts (r : NbRegion) : Nat × Nat × Nat := (r.ondieAborts, r.refusals, r.groupsToCells)

theorem steady_win (k : Nat) : NbRegion.Steady (fun r => r.wins.get? k) := fun _ _ => congrArg (Tbl.get? · k) wins_enqueue

theorem steady_counts : NbRegion.Steady NbRegion.counts := fun r c => by
  unfold NbRegion.enqueue
  split <;> rfl

theorem steady_enable : NbRegion.Steady NbRegion.nbEnable := fun r c => by
  unfold NbRegion.enqueue
  split <;> rfl

section views
variable {β : Type} {g : NbRegion → β} (hg : NbRegion.Steady g) {n : Nat} {x : β}
include hg

theorem lossy_view : Lossy (fun t => g (t.nbu.getD n {}) = x) :=
  Lossy.of_nbu (Q := fun nb => g (nb.getD n {}) = x) fun _ _ c h => (getD_modify_eq fun r => hg r c).trans h

omit hg in
theorem closed_view : Closed 3145471 (fun t => g (t.nbu.getD n {}) = x) :=
  .of_view (fun y => nbu_closed y rfl rfl) (fun nb => g (nb.getD n {}) = x)

/-- The lines and segments of a frame that come into the page buffer (R111, R133). -/
theorem view_touchFrame {s : State} {src : PageSrc} {heads : List Nat} :
    g ((s.touchFrame src heads).nbu.getD n {}) = g (s.nbu.getD n {}) :=
  State.busReads_mild (lossy_view hg).toMild (keep_foldl (P := fun t => g (t.nbu.getD n {}) = g (s.nbu.getD n {}))
    (fun _ _ => State.touchLine_keeps (closed_view.mono rfl)) rfl)

/-- A page that is added to its request on cells. -/
theorem view_addPage {s : State} {r idx : Nat} {code : Code} {src : PageSrc} {skip : List Nat} :
    g ((s.addPage r idx code src skip).nbu.getD n {}) = g (s.nbu.getD n {}) :=
  State.addPage_mild (lossy_view hg).toMild closed_view rfl

theorem view_fillCell {s : State} {b p : Nat} : g ((s.fillCell b p).nbu.getD n {}) = g (s.nbu.getD n {}) := by
  have hP : Mild (fun t => g (t.nbu.getD n {}) = g (s.nbu.getD n {})) := (lossy_view hg).toMild
  unfold State.fillCell
  dsimp only
  split
  · rfl
  · split
    · split
      · exact State.onCell_mild hP (s := s) rfl
      · exact State.onCell_mild hP (State.busReads_mild hP (keep_foldl (P := fun t => g (t.nbu.getD n {}) = g (s.nbu.getD n {}))
          (fun _ _ => State.touchLine_keeps (closed_view.mono rfl)) rfl))
      · rfl
    · rfl

theorem view_grantOne {s : State} {m : Nat} : g ((s.grantOne m).nbu.getD n {}) = g (s.nbu.getD n {}) := by
  unfold State.grantOne State.gather
  dsimp only
  split
  · rfl
  · split
    · split
      · rfl
      · refine State.onBlock_mild (lossy_view hg).toMild (fun _ => ⟨rfl, rfl⟩) ?_
        split
        · exact view_fillCell hg
        · rfl
    · rfl

/-- A command slot that is taken when its turn comes (R30). -/
theorem view_takeSlot {s : State} {m cls bank : Nat} : g ((s.takeSlot m cls bank).nbu.getD n {}) = g (s.nbu.getD n {}) :=
  keep_foldl (P := fun t => g (t.nbu.getD n {}) = g (s.nbu.getD n {})) (fun _ _ h => (view_grantOne hg).trans h) rfl

/-- A corrected error in a stack row (R357). -/
theorem view_rowCorrected {s : State} {a : Nat} : g ((s.rowCorrected a).nbu.getD n {}) = g (s.nbu.getD n {}) := by
  have counted : ∀ t : State, t.nbu = s.nbu → g (t.nbu.getD n {}) = g (s.nbu.getD n {}) := fun t h => by rw [h]
  unfold State.rowCorrected
  dsimp only
  split
  · exact rowFaulty_lossy (lossy_view hg) (fun _ => counted _ nbu_logDetection) (counted _ nbu_logDetection)
  · exact counted _ nbu_logDetection

end views

@[simp] theorem nbu_mergePage {s : State} {r idx : Nat} {code : Code} {near : Bool} {accs : State → FwdParams → List RowAcc} :
    (s.mergePage r idx code near accs).nbu = s.nbu := State.mergePage_keeps (nbu_closed s.nbu rfl rfl) rfl
@[simp] theorem nbu_logEvent {s : State} {a b c d e f g : Nat} : (s.logEvent a b c d e f g).nbu = s.nbu :=
  State.logEvent_keeps (nbu_closed s.nbu rfl rfl) rfl
@[simp] theorem nbu_detect {s : State} {u : UnitId} {a b c d : Nat} : (s.detect u a b c d).nbu = s.nbu :=
  State.detect_keeps (nbu_closed s.nbu rfl rfl) rfl
@[simp] theorem nbu_logCorrected {s : State} {n a b c : Nat} {g : GroupTriple} : (s.logCorrected n a g b c).nbu = s.nbu :=
  State.logCorrected_keeps (nbu_closed s.nbu rfl rfl) rfl

/-! ## One region and one window -/

/-- A region that is changed reads back as the change made it. -/
theorem region_onNbu {s : State} {n : Nat} (h : n < s.nbu.length) (f : NbRegion → NbRegion) :
    (s.onNbu n f).nbu.getD n {} = f (s.nbu.getD n {}) := by
  rw [State.onNbu_nbu, List.getD_eq_getElem _ _ (by simpa using h), List.getElem_modify, if_pos rfl, List.getD_eq_getElem _ _ h]

/-- What a change keeps of every region. -/
theorem view_onNbu {β : Type} {g : NbRegion → β} {s : State} {n m : Nat} {f : NbRegion → NbRegion}
    (hf : ∀ r, g (f r) = g r := by exact fun _ => rfl) :
    g ((s.onNbu m f).nbu.getD n {}) = g (s.nbu.getD n {}) := getD_modify_eq hf

/-- A region with a window is there. -/
theorem lt_of_win {s : State} {n k : Nat} {w : NbWin} (h : s.win n k = some w) : n < s.nbu.length := by
  by_contra hn
  unfold State.win at h
  rw [List.getD_eq_default _ _ (by omega)] at h
  cases h

/-- A window that is changed reads back as the change made it. -/
theorem win_onWin {s : State} {n k : Nat} {w : NbWin} (h : s.win n k = some w) (f : NbWin → NbWin) : (s.onWin n k f).win n k = some (f w) := by
  unfold State.win State.onWin
  rw [region_onNbu (lt_of_win h)]
  dsimp only
  rw [Tbl.get?_modify_same]
  exact congrArg (Option.map f) h

/-- A change that leaves the windows. -/
theorem win_onNbu {s : State} {n m k : Nat} {f : NbRegion → NbRegion}
    (hf : ∀ r, (f r).wins = r.wins := by exact fun _ => rfl) :
    (s.onNbu m f).win n k = s.win n k := view_onNbu (g := fun r => r.wins.get? k) (fun r => congrArg (Tbl.get? · k) (hf r))

/-- Windows depend on the regions alone. -/
theorem win_congr {s t : State} (h : t.nbu = s.nbu) (n k : Nat) : t.win n k = s.win n k := by
  unfold State.win
  rw [h]

theorem counts_onWin {s : State} {n k m : Nat} {f : NbWin → NbWin} :
    ((s.onWin n k f).nbu.getD m {}).counts = (s.nbu.getD m {}).counts := view_onNbu

/-- Pages that leave a region change none of its views but of windows and pages. -/
theorem view_purgeNear {β : Type} {g : NbRegion → β} (hg : ∀ r l m, g { r with near := l, wins := m } = g r) {s : State} {n m : Nat} :
    g ((s.purgeNear n).nbu.getD m {}) = g (s.nbu.getD m {}) := view_onNbu (fun r => hg r _ _)

theorem view_dropNear {β : Type} {g : NbRegion → β} (hg : ∀ r l m, g { r with near := l, wins := m } = g r) {s : State} {n m : Nat}
    {p : NearPage} : g ((s.dropNear n p).nbu.getD m {}) = g (s.nbu.getD m {}) :=
  (view_purgeNear hg).trans (view_onNbu (fun r => hg r _ r.wins))

/-- A key that is not listed is not listed among fewer entries. -/
theorem get?_filter_none {α : Type} {t : Tbl α} {k : Nat} {p : Nat × α → Bool} (h : t.get? k = none) : Tbl.get? (t.filter p) k = none := by
  by_contra hn
  obtain ⟨v, hv⟩ := Option.ne_none_iff_exists'.mp hn
  exact ne_of_get?_none h (List.mem_of_mem_filter (Tbl.get?_mem hv)) rfl

/-- A window that is not there does not come back when pages leave. -/
theorem win_purgeNear_none {s : State} {n k : Nat} (h : s.win n k = none) : (s.purgeNear n).win n k = none := by
  by_cases hn : n < s.nbu.length
  · unfold State.win State.purgeNear
    rw [region_onNbu hn]
    exact get?_filter_none h
  · unfold State.win
    rw [List.getD_eq_default _ _ (by unfold State.purgeNear; simpa using hn)]
    rfl

end Sys2Proof.Machine
end

section
/-! SUPPORT. Result records and aborted groups (R139, R143, R144, R146, R149): what the check of a record leaves of its window, how a
group is decided, and what the counters say afterwards. -/

namespace Sys2Proof.Machine

/-! ## Windows that are over, and groups computed on cells -/

section settle
variable {s : State} {n k : Nat}

theorem win_mergeNear_none {req page : Nat} (h : s.win n k = none) : (s.mergeNear n req page).win n k = none := by
  unfold State.mergeNear
  split
  · exact h
  · split
    · rw [win_congr nbu_mergePage]
      exact win_purgeNear_none (Eq.trans win_onNbu h)
    · exact h

theorem counts_mergeNear {req page : Nat} : ((s.mergeNear n req page).nbu.getD n {}).counts = (s.nbu.getD n {}).counts := by
  unfold State.mergeNear
  split
  · rfl
  · split
    · rw [nbu_mergePage]
      exact view_dropNear fun _ _ _ => rfl
    · rfl

/-- A window with nothing left leaves the region (R139). -/
theorem win_settleWin {w : NbWin} (hw : s.win n k = some w) (he : w.step = .ended) (hs : w.slots = []) (hr : w.refused = [])
    (ha : w.aborted = []) : (s.settleWin n k).win n k = none := by
  unfold State.settleWin
  rw [hw]
  dsimp only
  rw [if_pos (by simp [he, hs, hr, ha])]
  refine win_mergeNear_none ?_
  unfold State.win
  rw [region_onNbu (lt_of_win hw)]
  exact Tbl.get?_erase_same _ _

theorem counts_settleWin : ((s.settleWin n k).nbu.getD n {}).counts = (s.nbu.getD n {}).counts := by
  unfold State.settleWin
  split
  · rfl
  · split
    · exact counts_mergeNear.trans view_onNbu
    · rfl

/-- A group that goes to cells is counted once (R149). -/
theorem counts_redoGroup {w : NbWin} {die unit head : Nat} (hw : s.win n k = some w) :
    ((s.redoGroup n k die unit head).nbu.getD n {}).counts =
      ((s.nbu.getD n {}).ondieAborts, (s.nbu.getD n {}).refusals, inc32 (s.nbu.getD n {}).groupsToCells) := by
  have hcounts : ((s.touchFrame w.src [head]).nbu.getD n {}).counts = (s.nbu.getD n {}).counts := view_touchFrame steady_counts
  have hwin : (s.touchFrame w.src [head]).win n k = some w := (view_touchFrame (steady_win k)).trans hw
  unfold State.redoGroup
  rw [hw]
  dsimp only
  rw [counts_settleWin, State.bump_nbu, counts_onWin, region_onNbu (lt_of_win hwin)]
  simp only [NbRegion.counts, Prod.mk.injEq] at hcounts ⊢
  obtain ⟨habort, hrefuse, hcells⟩ := hcounts
  exact ⟨habort, hrefuse, congrArg inc32 hcells⟩

theorem ras_redoGroup {die unit head : Nat} : (s.redoGroup n k die unit head).ras = s.ras :=
  State.redoGroup_keeps (ras_closed s.ras rfl rfl) rfl

/-! ## How a group is decided -/

variable {w : NbWin} {g : GroupTriple}

/-- Records of the group are still to be read, or an abort of it awaits the re-read of its row. -/
def NbWin.awaits (w : NbWin) (g : GroupTriple) : Bool :=
  w.slots.any (fun y => y.2.group.inGroup g.die g.head) || w.aborted.any (fun y => y.2.inGroup g.die g.head)

theorem decideGroup_awaits (hw : s.win n k = some w) (h : w.awaits g = true) : s.decideGroup n k g = s := by
  unfold State.decideGroup
  rw [hw]
  exact if_pos (by simpa [NbWin.awaits] using h)

theorem decideGroup_refused (hw : s.win n k = some w) (h : w.awaits g = false) (hr : w.refused.contains (g.die, g.head) = true) :
    s.decideGroup n k g = s.redoGroup n k g.die g.unit g.head := by
  simp only [NbWin.awaits, Bool.or_eq_false_iff] at h
  unfold State.decideGroup
  rw [hw]
  dsimp only
  rw [h.1, h.2, hr]
  simp

theorem decideGroup_accepted (hw : s.win n k = some w) (h : w.awaits g = false) (hr : w.refused.contains (g.die, g.head) = false) :
    s.decideGroup n k g = s.settleWin n k := by
  simp only [NbWin.awaits, Bool.or_eq_false_iff] at h
  unfold State.decideGroup
  rw [hw]
  dsimp only
  rw [h.1, h.2, hr]
  simp

end settle

/-! ## The check of a record (R143) -/

/-- The bytes that a read of a slot gives, `errors` among them. -/
def State.slotRead (s : State) (n slot : Nat) (errors : List (Nat × Byte)) (r : ResultSlot) : List Byte :=
  errors.foldl (fun (l : List Byte) e => l.modify e.1 (· ^^^ e.2)) (s.slotBytes n (slot / 16) (slot % 16) (32 * r.tags.length))

/-- The record that bytes hold for a window. -/
def NbWin.recordIn (w : NbWin) (b : List Byte) : ResultRec := ResultRec.decode (PageFormatD w.src.format) b

/-- The tags that the columns of some bytes have under a window's stamp (R142). -/
def NbWin.tagsIn (w : NbWin) (b : List Byte) : List Nat := (Machine.columns b.length b).map (fun c => columnTag c w.stamp)

/-- The triple of a slot as its record gives it. -/
def GroupTriple.readAs (g : GroupTriple) (x : ResultRec) : GroupTriple :=
  { g with t := { g.t with m := x.m, l := x.l, keys := x.keys, rescales := x.steps, o := x.o, nonfinite := bit x.flags 1 } }

/-- The triple of a slot whose record names an uncorrectable read (R144). -/
def GroupTriple.abortedBy (g : GroupTriple) (x : ResultRec) : GroupTriple :=
  { g with abort := some { die := g.die, unit := x.abortUnit, bank := x.abortBank, row := x.abortRow } }

/-- A record leaves its slot; of a good one that is its group's last the corrections are logged (R141, R146). -/
def State.noteRecord (n k slot : Nat) (w : NbWin) (g : GroupTriple) (ok : Prop) [Decidable ok] (count : Nat) (s : State) : State :=
  State.onWin n k (fun w => { w with slots := w.slots.erase slot })
    (if ok ∧ !((w.slots.erase slot).any (fun y => y.2.group.inGroup g.die g.head)) then s.logCorrected n w.slice g w.stamp count else s)

/-- The triple of a good record of status 0 is accepted. -/
def State.acceptRecord (n k : Nat) (g : GroupTriple) (s : State) : State := s.onWin n k (fun w => { w with accepted := w.accepted ++ [g] })

/-- A good record of status 1 is counted and logged, and its group waits for the re-read of the row (R144). -/
def State.holdAbort (n k slot : Nat) (w : NbWin) (g : GroupTriple) (x : ResultRec) (s : State) : State :=
  ((s.onNbu n (fun y => { y with ondieAborts := inc32 y.ondieAborts })).logEvent (32 + n) 0x0702 w.slice 0 (nbuNum n g.die x.abortUnit)
    w.stamp x.abortRow).onWin n k (fun w => { w with aborted := w.aborted.set slot (g.abortedBy x) })

/-- Any other record is refused: counted where stamp or tags are wrong, logged and detected against its lead (R143, R149). -/
def State.refuseRecord (n k : Nat) (w : NbWin) (g : GroupTriple) (ok : Prop) [Decidable ok] (s : State) : State :=
  let s := (if ok then s else s.onNbu n (fun y => { y with refusals := inc32 y.refusals })).logEvent (32 + n) 0x0702 w.slice 0
    (nbuNum n g.die g.unit) w.stamp 0
  (if h : n < 8 ∧ g.die < 12 ∧ g.unit < 132 then
    s.detect (.nbu ⟨n, h.1⟩ ⟨g.die, h.2.1⟩ ⟨g.unit, h.2.2⟩) 4 6 w.slice w.stamp else s).onWin n k
      (fun w => { w with refused := (w.refused ++ [(g.die, g.head)]).eraseDups })

section check
variable {s : State} {n k slot : Nat} {w : NbWin}

/-- The check of a record in its steps. -/
theorem checkRecord_eq {r : ResultSlot} {errors : List (Nat × Byte)} {b : List Byte} {x : ResultRec} (hw : s.win n k = some w)
    (hr : w.slots.get? slot = some r) (he : w.step = .ended) (hb : s.slotRead n slot errors r = b) (hx : w.recordIn b = x) :
    s.checkRecord n k slot errors =
      let ok := x.stamp = w.stamp ∧ w.tagsIn b = r.tags
      let u := s.noteRecord n k slot w r.group ok x.ceCount
      (if ok ∧ x.status = 0 then u.acceptRecord n k (r.group.readAs x)
        else if ok ∧ x.status = 1 then u.holdAbort n k slot w r.group x
        else u.refuseRecord n k w r.group ok).decideGroup n k r.group := by
  subst hx hb
  unfold State.checkRecord
  rw [hw]
  dsimp only
  rw [hr]
  dsimp only
  rw [if_neg (not_not.mpr he)]
  rfl

section steps
variable {g : GroupTriple} {ok : Prop} [Decidable ok] {x : ResultRec}

/-- A record that is noted changes its window alone. -/
theorem noteRecord_nbu {c : Nat} : (s.noteRecord n k slot w g ok c).nbu =
    (s.onWin n k (fun w => { w with slots := w.slots.erase slot })).nbu := by
  unfold State.noteRecord State.onWin
  split
  · rw [State.onNbu_nbu, nbu_logCorrected]
    rfl
  · rfl

theorem win_noteRecord {c : Nat} (hw : s.win n k = some w) :
    (s.noteRecord n k slot w g ok c).win n k = some { w with slots := w.slots.erase slot } :=
  (win_congr noteRecord_nbu n k).trans (win_onWin hw _)

theorem counts_noteRecord {c : Nat} : ((s.noteRecord n k slot w g ok c).nbu.getD n {}).counts = (s.nbu.getD n {}).counts := by
  rw [noteRecord_nbu]
  exact counts_onWin

theorem win_holdAbort {v : NbWin} (hw : s.win n k = some v) :
    (s.holdAbort n k slot w g x).win n k = some { v with aborted := v.aborted.set slot (g.abortedBy x) } :=
  win_onWin (w := v) ((win_congr nbu_logEvent n k).trans (Eq.trans win_onNbu hw)) _

theorem ondieAborts_holdAbort {v : NbWin} (hw : s.win n k = some v) :
    ((s.holdAbort n k slot w g x).nbu.getD n {}).ondieAborts = inc32 (s.nbu.getD n {}).ondieAborts := by
  refine (view_onNbu (g := NbRegion.ondieAborts)).trans ?_
  rw [nbu_logEvent, region_onNbu (lt_of_win hw)]

/-- A refused record changes its region by the count, and its window. -/
theorem refuseRecord_nbu : (s.refuseRecord n k w g ok).nbu =
    ((if ok then s else s.onNbu n (fun y => { y with refusals := inc32 y.refusals })).onWin n k
      (fun w => { w with refused := (w.refused ++ [(g.die, g.head)]).eraseDups })).nbu := by
  unfold State.refuseRecord State.onWin
  dsimp only
  rw [State.onNbu_nbu, State.onNbu_nbu]
  split
  · rw [nbu_detect, nbu_logEvent]
  · rw [nbu_logEvent]

theorem win_refuseRecord {v : NbWin} (hw : s.win n k = some v) :
    (s.refuseRecord n k w g ok).win n k = some { v with refused := (v.refused ++ [(g.die, g.head)]).eraseDups } := by
  rw [win_congr refuseRecord_nbu]
  refine win_onWin ?_ _
  split
  · exact hw
  · exact Eq.trans win_onNbu hw

/-- A record with a wrong stamp or wrong tags is counted as refused. -/
theorem counts_refuseRecord {v : NbWin} (hw : s.win n k = some v) (hok : ¬ok) : ((s.refuseRecord n k w g ok).nbu.getD n {}).counts =
    ((s.nbu.getD n {}).ondieAborts, inc32 (s.nbu.getD n {}).refusals, (s.nbu.getD n {}).groupsToCells) := by
  rw [refuseRecord_nbu, counts_onWin, if_neg hok, region_onNbu (lt_of_win hw)]
  rfl

end steps

/-- An entry that is set is among the entries. -/
theorem any_set {α : Type} {t : Tbl α} {j : Nat} {v : α} {p : Nat × α → Bool} (h : p (j, v) = true) : (t.set j v).any p = true :=
  List.any_eq_true.mpr ⟨_, Tbl.get?_mem (Tbl.get?_set_same t j v), h⟩

/-! ## What a record that is read leaves -/

variable {r : ResultSlot} {errors : List (Nat × Byte)} {b : List Byte} {x : ResultRec} (hw : s.win n k = some w)
  (hr : w.slots.get? slot = some r) (he : w.step = .ended) (hb : s.slotRead n slot errors r = b) (hx : w.recordIn b = x)
include hw hr he hb hx

/-- A good record of status 0: the group is decided with its triple accepted. -/
theorem checkRecord_accepts (hs : x.stamp = w.stamp) (ht : w.tagsIn b = r.tags) (h0 : x.status = 0) :
    ∃ u : State, u.win n k = some { w with slots := w.slots.erase slot, accepted := w.accepted ++ [r.group.readAs x] } ∧
      s.checkRecord n k slot errors = u.decideGroup n k r.group := by
  rw [checkRecord_eq hw hr he hb hx]
  dsimp only
  rw [if_pos ⟨⟨hs, ht⟩, h0⟩]
  exact ⟨_, win_onWin (win_noteRecord hw) _, rfl⟩

/-- While others of the group are still to be read, it waits. -/
theorem win_checkRecord_accepted (hs : x.stamp = w.stamp) (ht : w.tagsIn b = r.tags) (h0 : x.status = 0)
    (hm : (w.slots.erase slot).any (fun y => y.2.group.inGroup r.group.die r.group.head) = true) :
    (s.checkRecord n k slot errors).win n k =
      some { w with slots := w.slots.erase slot, accepted := w.accepted ++ [r.group.readAs x] } := by
  obtain ⟨u, hu, hc⟩ := checkRecord_accepts hw hr he hb hx hs ht h0
  rw [hc, decideGroup_awaits hu (by simp only [NbWin.awaits, hm, Bool.true_or])]
  exact hu

/-- With nothing left to read, refused or aborted, the window leaves the region. -/
theorem win_checkRecord_last (hs : x.stamp = w.stamp) (ht : w.tagsIn b = r.tags) (h0 : x.status = 0) (hslots : w.slots.erase slot = [])
    (hrefused : w.refused = []) (haborted : w.aborted = []) : (s.checkRecord n k slot errors).win n k = none := by
  obtain ⟨u, hu, hc⟩ := checkRecord_accepts hw hr he hb hx hs ht h0
  rw [hc, decideGroup_accepted hu (by simp [NbWin.awaits, hslots, haborted]) (by simp [hrefused])]
  exact win_settleWin hu he hslots hrefused haborted

/-- A good record of status 1: the abort is counted, and its group waits for the re-read. -/
theorem checkRecord_aborted (hs : x.stamp = w.stamp) (ht : w.tagsIn b = r.tags) (h1 : x.status = 1) :
    ((s.checkRecord n k slot errors).nbu.getD n {}).ondieAborts = inc32 (s.nbu.getD n {}).ondieAborts ∧
      (s.checkRecord n k slot errors).win n k =
        some { w with slots := w.slots.erase slot, aborted := w.aborted.set slot (r.group.abortedBy x) } := by
  rw [checkRecord_eq hw hr he hb hx]
  dsimp only
  rw [if_neg (by omega), if_pos ⟨⟨hs, ht⟩, h1⟩]
  have hwin := win_noteRecord (slot := slot) (g := r.group) (ok := x.stamp = w.stamp ∧ w.tagsIn b = r.tags) (c := x.ceCount) hw
  have hcounts := counts_noteRecord (s := s) (n := n) (k := k) (slot := slot) (w := w) (g := r.group)
    (ok := x.stamp = w.stamp ∧ w.tagsIn b = r.tags) (c := x.ceCount)
  have hheld := win_holdAbort (slot := slot) (w := w) (g := r.group) (x := x) hwin
  rw [decideGroup_awaits hheld (Bool.or_eq_true_iff.mpr (.inr (any_set (by simp [GroupTriple.inGroup, GroupTriple.abortedBy]))))]
  exact ⟨(ondieAborts_holdAbort hwin).trans (congrArg (fun c => inc32 c.1) hcounts), hheld⟩

/-- A record with a wrong stamp: its group is decided with the record refused, and the refusal counted. -/
theorem checkRecord_refuses (hs : x.stamp ≠ w.stamp) : ∃ u : State,
    u.win n k = some { w with slots := w.slots.erase slot, refused := (w.refused ++ [(r.group.die, r.group.head)]).eraseDups } ∧
    (u.nbu.getD n {}).counts = ((s.nbu.getD n {}).ondieAborts, inc32 (s.nbu.getD n {}).refusals, (s.nbu.getD n {}).groupsToCells) ∧
    s.checkRecord n k slot errors = u.decideGroup n k r.group := by
  rw [checkRecord_eq hw hr he hb hx]
  dsimp only
  rw [if_neg (fun h => hs h.1.1), if_neg (fun h => hs h.1.1)]
  have hwin := win_noteRecord (slot := slot) (g := r.group) (ok := x.stamp = w.stamp ∧ w.tagsIn b = r.tags) (c := x.ceCount) hw
  have hcounts := counts_noteRecord (s := s) (n := n) (k := k) (slot := slot) (w := w) (g := r.group)
    (ok := x.stamp = w.stamp ∧ w.tagsIn b = r.tags) (c := x.ceCount)
  refine ⟨_, win_refuseRecord hwin, (counts_refuseRecord hwin fun h => hs h.1).trans ?_, rfl⟩
  exact congrArg (fun c => (c.1, inc32 c.2.1, c.2.2)) hcounts

/-- The refused record's group waits while others of it are to be read, and goes to cells after its last. -/
theorem checkRecord_refused (hs : x.stamp ≠ w.stamp) :
    ((s.checkRecord n k slot errors).nbu.getD n {}).refusals = inc32 (s.nbu.getD n {}).refusals ∧
    ((w.slots.erase slot).any (fun y => y.2.group.inGroup r.group.die r.group.head) = true → (s.checkRecord n k slot errors).win n k =
      some { w with slots := w.slots.erase slot, refused := (w.refused ++ [(r.group.die, r.group.head)]).eraseDups }) ∧
    ((w.slots.erase slot).any (fun y => y.2.group.inGroup r.group.die r.group.head) = false →
      w.aborted.any (fun y => y.2.inGroup r.group.die r.group.head) = false →
        ((s.checkRecord n k slot errors).nbu.getD n {}).groupsToCells = inc32 (s.nbu.getD n {}).groupsToCells) := by
  obtain ⟨u, hu, hcounts, hc⟩ := checkRecord_refuses hw hr he hb hx hs
  simp only [NbRegion.counts, Prod.mk.injEq] at hcounts
  obtain ⟨-, hrefusals, hcells⟩ := hcounts
  generalize hv : ({ w with slots := _, refused := _ } : NbWin) = v at hu
  rw [hc]
  cases haw : v.awaits r.group with
  | true =>
    rw [decideGroup_awaits hu haw]
    refine ⟨hrefusals, fun _ => hu, fun hm ha => ?_⟩
    subst hv
    simp [NbWin.awaits, hm, ha] at haw
  | false =>
    have hredo := counts_redoGroup (die := r.group.die) (unit := r.group.unit) (head := r.group.head) hu
    simp only [NbRegion.counts, Prod.mk.injEq] at hredo
    rw [decideGroup_refused hu haw (by subst hv; simp)]
    refine ⟨hredo.2.1.trans hrefusals, fun hm => ?_, fun _ _ => hredo.2.2.trans (congrArg inc32 hcells)⟩
    subst hv
    simp [NbWin.awaits, hm] at haw

end check

/-! ## Reads of records and re-reads of rows -/

theorem readRecord_checks {s : State} {n k slot : Nat} {errors : List (Nat × Byte)} (hf : (s.purgeNear n).stackFenced n = false)
    (hc : (s.purgeNear n).collides (slotAddr n (slot / 16) (slot % 16) 0) = false) :
    s.readRecord n k slot errors = (s.purgeNear n).checkRecord n k slot errors := by
  unfold State.readRecord
  dsimp only
  rw [hf, hc]
  rfl

section reread
variable {s : State} {n k slot : Nat} {w : NbWin} {g : GroupTriple} (hg : w.aborted.get? slot = some g)
include hg

/-- A re-read takes its command slot first (R30). -/
theorem rereadAbort_reads (hw : (s.purgeNear n).win n k = some w) {recovered : Bool}
    (hc : ((s.purgeNear n).takeSlot n 1 (sramBank (abortAddr n w g))).collides (abortAddr n w g) = false) :
    s.rereadAbort n k slot recovered = ((s.purgeNear n).takeSlot n 1 (sramBank (abortAddr n w g))).abortRead n k slot recovered := by
  unfold State.rereadAbort
  dsimp only
  rw [hw, Option.bind_some, hg, Option.map_some]
  dsimp only
  rw [hc]
  rfl

variable (hw : s.win n k = some w)
include hw

/-- A row that is recovered is counted for its stack, and its group goes to cells (R144, R149). -/
theorem abortRead_recovered : (s.abortRead n k slot true).ras.ce = s.ras.ce.modify (addrStack (abortAddr n w g)) inc32 ∧
    ((s.abortRead n k slot true).nbu.getD n {}).groupsToCells = inc32 (s.nbu.getD n {}).groupsToCells := by
  have hwin : (s.rowCorrected (abortAddr n w g)).win n k = some w := (view_rowCorrected (steady_win k)).trans hw
  have hcounts := view_rowCorrected (s := s) (a := abortAddr n w g) (n := n) steady_counts
  have hredo := counts_redoGroup (die := g.die) (unit := g.unit) (head := g.head) hwin
  unfold State.abortRead
  rw [hw]
  dsimp only
  rw [hg]
  dsimp only
  rw [if_pos rfl, ras_redoGroup]
  exact ⟨rowCorrected_does.1, (congrArg (fun c => c.2.2) hredo).trans (congrArg (fun c => inc32 c.2.2) hcounts)⟩

/-- A row that is not is counted as uncorrectable, whatever becomes of its page. -/
theorem abortRead_lost : (s.abortRead n k slot false).ras.ue = s.ras.ue.modify (addrStack (abortAddr n w g)) inc32 := by
  have hcount := (uncorrectable_does (s := s) (a := abortAddr n w g)).1
  unfold State.abortRead
  rw [hw]
  dsimp only
  rw [hg]
  dsimp only
  rw [if_neg Bool.false_ne_true]
  split
  · exact hcount
  · rw [show ∀ (t : State) (p : NearPage), (t.nearAgain n p).ras = t.ras from
      fun t p => State.nearAgain_keeps (ras_closed t.ras rfl rfl) rfl]
    split
    · split
      · rw [ras_poison]
        exact hcount
      · exact hcount
    · exact hcount

end reread

end Sys2Proof.Machine
end

section
/-! SUPPORT. Spares, refresh and the enable bit of a region (R130, R147, R149, R310, R311). -/

namespace Sys2Proof.Machine

section controls
variable {s : State} {n : Nat} (hn : n < s.nbu.length)
include hn

/-- A spare takes the place of a retired unit, whose history begins anew (R147, R352). -/
theorem steerSpare_does {die unit : Nat} (hu : unit < 128) (hret : (s.nbu.getD n {}).retiredUnits.contains (die, unit) = true)
    (hfree : ((s.nbu.getD n {}).spareMap.getD die []).length < 4)
    (hidle : (s.nbu.getD n {}).wins.any (fun w => w.2.active && w.2.pairs.contains (die * 128 + unit)) = false) :
    ((s.steerSpare n die unit).nbu.getD n {}).spareMap.getD die [] = (s.nbu.getD n {}).spareMap.getD die [] ++ [unit] ∧
    ((s.steerSpare n die unit).nbu.getD n {}).pairWorks (die * 128 + unit) = true ∧
    (s.steerSpare n die unit).unit (2 * 65536 + nbuNum n die unit) = {} := by
  unfold State.steerSpare
  dsimp only
  rw [hret, hidle, if_pos (by simpa using hfree), State.onRas_nbu, region_onNbu hn]
  refine ⟨Tbl.getD_set_same _ _ _ _, ?_, ?_⟩
  · have hd : (die * 128 + unit) / 128 = die := by omega
    have hm : (die * 128 + unit) % 128 = unit := by omega
    simp [NbRegion.pairWorks, hd, hm]
  · unfold State.unit Tbl.getD
    rw [State.onRas_ras, Tbl.get?_erase_same]
    rfl

theorem refreshPair_idle {pair : Nat} (h : ¬(s.nbu.getD n {}).wins.any (fun w => w.2.active && w.2.pairs.contains pair) = true) :
    ((s.refreshPair n pair).nbu.getD n {}).refreshed.getD pair 0 = s.now := by
  unfold State.refreshPair
  dsimp only
  rw [if_neg h, region_onNbu hn]
  exact Tbl.getD_set_same _ _ _ _

omit hn in
theorem refreshPair_held {pair : Nat} (h : (s.nbu.getD n {}).wins.any (fun w => w.2.active && w.2.pairs.contains pair) = true) :
    s.refreshPair n pair = s := if_pos h

/-- While a drain runs, an enable is latched (R311). -/
theorem enableNb_does : ((s.enableNb n).nbu.getD n {}).nbEnable = true ∧ (s.enableNb n).sch.nbDraining = s.sch.nbDraining ∧
    (s.sch.nbDraining.contains n = true → (s.enableNb n).sch.nbPending.contains n = true) := by
  unfold State.enableNb
  dsimp only
  rw [State.onNbu_sch]
  split
  · rw [State.onSch_nbu, region_onNbu hn, State.onSch_sch]
    refine ⟨rfl, rfl, fun _ => ?_⟩
    dsimp only
    split
    · assumption
    · simp
  · rw [region_onNbu hn]
    exact ⟨rfl, rfl, fun h => absurd h ‹_›⟩

omit hn in
theorem enable_nearToCells {p : NearPage} : ((s.nearToCells n p).nbu.getD n {}).nbEnable = (s.nbu.getD n {}).nbEnable :=
  (view_addPage steady_enable).trans (view_dropNear (g := NbRegion.nbEnable) fun _ _ _ => rfl)

/-- A disable takes the bit away and starts a drain where windows are active (R310). -/
theorem disableNb_does : ((s.disableNb n).nbu.getD n {}).nbEnable = false ∧ (s.disableNb n).sch.nbPending.contains n = false ∧
    (((s.disableNb n).nbu.getD n {}).activeCount ≠ 0 → (s.disableNb n).sch.nbDraining.contains n = true) := by
  unfold State.disableNb
  dsimp only
  generalize hu : List.foldl (fun s p => State.nearToCells n p s) _ _ = u
  have hoff : (u.nbu.getD n {}).nbEnable = false := by
    subst hu
    refine keep_foldl (P := fun t => (t.nbu.getD n {}).nbEnable = false) (fun _ _ h => enable_nearToCells.trans h) ?_
    rw [region_onNbu hn]
  split
  · rename_i h
    refine ⟨hoff, by simp, fun ha => ?_⟩
    exact h.resolve_left ha
  · exact ⟨hoff, by simp, fun _ => by simp⟩

end controls

end Sys2Proof.Machine
end

section
/-! The statement on result records and near-bank controls. -/

open Sys2Proof Sys2Proof.Machine

/-- Settles O22: the check of a record is followed to its window's change and the decision of its group; what an access may do to a
collision queue changes neither windows nor the counters. -/
theorem nearBankResultsAndControls : Obligations.NearBankResultsAndControls := by
  unfold Obligations.NearBankResultsAndControls
  refine ⟨fun n k slot errors w r s hrun => ?_, fun n s hrun hn => ⟨fun die unit hret hfree hidle => ?_, fun sid pc pair => ?_, ?_, ?_⟩⟩
  · intro s1 hw
    refine ⟨fun hr hf hc he => ?_, fun g hg hc => ?_⟩
    · intro b x tagsOk more
      have run : ∀ {Q : State → Prop}, Q (s1.checkRecord n k slot errors) → Does (.resultRecordRead n k slot errors) s Q :=
        fun h => ⟨_, congrArg Host.Outcome.next ((whenUp_running hrun).trans (readRecord_checks hf hc)), h⟩
      have hcounts : (s1.nbu.getD n {}).counts = (s.nbu.getD n {}).counts := view_purgeNear fun _ _ _ => rfl
      simp only [NbRegion.counts, Prod.mk.injEq] at hcounts
      obtain ⟨haborts, hrefusals, hcells⟩ := hcounts
      refine ⟨fun hs ht h0 => ⟨fun hm => run ?_, fun hslots hrefused haborted => run ?_⟩, fun hs ht h1 => run ?_, fun hs => run ?_⟩
      · exact ⟨_, win_checkRecord_accepted hw hr he rfl rfl hs ht h0 hm, rfl, rfl, rfl, rfl, rfl, rfl, rfl, rfl⟩
      · exact win_checkRecord_last hw hr he rfl rfl hs ht h0 hslots hrefused haborted
      · obtain ⟨hcount, hwin⟩ := checkRecord_aborted hw hr he rfl rfl hs ht h1
        exact ⟨haborts ▸ hcount, _, _, hwin, rfl, rfl, rfl, rfl⟩
      · obtain ⟨hcount, hwait, hcell⟩ := checkRecord_refused hw hr he rfl rfl hs
        exact ⟨hrefusals ▸ hcount, hwait, fun hm ha => hcells ▸ hcell hm ha⟩
    · have run : ∀ {recovered : Bool} {Q : State → Prop}, Q ((s1.takeSlot n 1 (sramBank (abortAddr n w g))).abortRead n k slot recovered) →
          Does (.ondieAbortReread n k slot recovered) s Q :=
        fun h => ⟨_, congrArg Host.Outcome.next ((whenUp_running hrun).trans (rereadAbort_reads hg hw hc)), h⟩
      have hwin : (s1.takeSlot n 1 (sramBank (abortAddr n w g))).win n k = some w := (view_takeSlot (steady_win k)).trans hw
      have hcounts : ((s1.takeSlot n 1 (sramBank (abortAddr n w g))).nbu.getD n {}).counts = (s.nbu.getD n {}).counts :=
        (view_takeSlot steady_counts).trans (view_purgeNear fun _ _ _ => rfl)
      have hras : (s1.takeSlot n 1 (sramBank (abortAddr n w g))).ras = s.ras := ras_takeSlot
      obtain ⟨hce, hcells⟩ := abortRead_recovered hg hwin
      refine ⟨run ⟨hras ▸ hce, hcells.trans (congrArg (fun c => inc32 c.2.2) hcounts)⟩, run ?_⟩
      exact hras ▸ abortRead_lost hg hwin
  · exact ⟨_, congrArg Host.Outcome.next (whenUp_running hrun), steerSpare_does hn unit.isLt hret hfree hidle⟩
  · dsimp only
    split
    · exact congrArg Host.Outcome.next ((whenUp_running hrun).trans (refreshPair_held ‹_›))
    · exact ⟨_, congrArg Host.Outcome.next (whenUp_running hrun), refreshPair_idle hn ‹_›⟩
  · exact ⟨_, congrArg Host.Outcome.next (whenUp_running hrun), enableNb_does hn⟩
  · obtain ⟨hoff, hpending, hdrain⟩ := disableNb_does hn
    exact ⟨_, congrArg Host.Outcome.next (whenUp_running hrun), hoff, congrArg (· && _) hoff, hpending, hdrain⟩

end

section
/-! SUPPORT. Accumulators of pages (R155, R157, R161): what a release, an update of one accumulator, and requests that come and go leave of
the accumulator that a page has. -/

namespace Sys2Proof.Machine

variable {s : State} {slice : Nat} {n m : PageName}

theorem accOf_congr {t : State} (h : t.home.accs = s.home.accs) : t.accOf slice n = s.accOf slice n := by
  unfold State.accOf
  rw [h]

theorem accCode_congr {t : State} {pass : Nat} (h : t.accOf slice n = s.accOf slice n) : t.accCode slice pass n = s.accCode slice pass n := by
  unfold State.accCode
  rw [h]

theorem accOf_eq_none : s.accOf slice n = none ↔ ∀ a ∈ s.home.accs, a.is slice n = false := by
  unfold State.accOf
  simp

/-! ## Releases (R66) -/

theorem accs_dropAcc : (s.dropAcc slice n).home.accs = s.home.accs.filter (fun a => !a.is slice n) := by
  unfold State.dropAcc
  split
  · next hnone =>
    refine (List.filter_eq_self.mpr fun a ha => ?_).symm
    rw [accOf_eq_none.mp hnone a ha]
    rfl
  · next a _ =>
    rw [State.onHome_home]
    exact congrArg (fun h : Home => h.accs.filter _)
      (keep_foldl (P := fun t => t.home = s.home) (fun _ _ h => home_retireUnit.trans h) rfl)

@[simp] theorem accOf_dropAcc_same : (s.dropAcc slice n).accOf slice n = none := by
  rw [accOf_eq_none, accs_dropAcc]
  intro a ha
  simpa using (List.mem_filter.mp ha).2

theorem accOf_dropAcc_other (h : m ≠ n) : (s.dropAcc slice n).accOf slice m = s.accOf slice m := by
  unfold State.accOf
  rw [accs_dropAcc, List.find?_filter]
  congr 1
  funext a
  unfold Accumulator.is
  by_cases hm : a.name = m
  · simp [hm, h]
  · simp [hm]

theorem accOf_dropAcc_none (h : s.accOf slice m = none) : (s.dropAcc slice n).accOf slice m = none := by
  by_cases hm : m = n
  · rw [hm, accOf_dropAcc_same]
  · rw [accOf_dropAcc_other hm, h]

theorem accOf_dropAccs_none {names : List PageName} (h : s.accOf slice m = none) :
    (names.foldl (fun s n => s.dropAcc slice n) s).accOf slice m = none :=
  keep_foldl (P := fun t => t.accOf slice m = none) (fun _ _ => accOf_dropAcc_none) h

/-- Every page of a list has lost its accumulator once all of them are released. -/
theorem accOf_dropAccs {names : List PageName} (h : m ∈ names) : (names.foldl (fun s n => s.dropAcc slice n) s).accOf slice m = none := by
  induction names generalizing s with
  | nil => cases h
  | cons x t ih =>
    rw [List.foldl_cons]
    rcases List.mem_cons.mp h with rfl | h
    · exact accOf_dropAccs_none accOf_dropAcc_same
    · exact ih h

/-! ## A change of one accumulator -/

/-- The accumulator of a page after a change of it that keeps its name. -/
theorem accOf_onAcc {f : Accumulator → Accumulator} (hf : ∀ a, (f a).slice = a.slice ∧ (f a).name = a.name) :
    (s.onAcc slice n f).accOf slice n = (s.accOf slice n).map f := by
  have hk : Accumulator.is slice n ∘ (fun a => if a.is slice n then f a else a) = Accumulator.is slice n := by
    funext a
    dsimp only [Function.comp_apply]
    split
    · unfold Accumulator.is
      rw [(hf a).1, (hf a).2]
    · rfl
  have hmap : (s.onHome (fun h => { h with accs := h.accs.map (fun a => if a.is slice n then f a else a) })).accOf slice n =
      (s.accOf slice n).map f := by
    unfold State.accOf
    rw [State.onHome_home, List.find?_map, hk]
    cases ha : s.home.accs.find? (Accumulator.is slice n) with
    | none => rfl
    | some a => exact congrArg some (if_pos (List.find?_some ha))
  rw [← hmap]
  refine accOf_congr ?_
  unfold State.onAcc
  dsimp only
  split
  · rfl
  · exact congrArg Home.accs (State.writeAccHeader_keeps (home_closed _ rfl rfl) rfl)

/-! ## Requests that come and go -/

theorem accs_respond {h : ExtHdr} {op variant aux : Nat} {code : Code} {body : RespBody} :
    (s.respond h op variant code aux body).home.accs = s.home.accs :=
  congrArg Home.accs (respond_frame (home_closed s.home rfl rfl) rfl)

theorem accs_dropReq {r : Nat} : (s.dropReq r).home.accs = s.home.accs := by
  unfold State.dropReq
  split
  · rfl
  · next q _ =>
    dsimp only
    unfold State.onCtx
    rw [State.onXpt_home]
    split <;> simp only [State.onSch_home, State.onHome_home] <;> split <;> rfl

theorem accs_finishReq {r : Nat} {code : Code} {body : RespBody} : (s.finishReq r code body).home.accs = s.home.accs := by
  unfold State.finishReq
  split
  · rfl
  · exact accs_respond.trans accs_dropReq

theorem mem_finishReq {r : Nat} {code : Code} {body : RespBody} : (s.finishReq r code body).mem = s.mem :=
  State.finishReq_keeps (mem_closed s.mem rfl rfl rfl) rfl

/-- A request that is put on the list leaves accumulators and the slices' records. -/
theorem addReq_accs {h : ExtHdr} {op : Nat} {c : Ctx} {prev : Bool} {kind : ReqKind} :
    (s.addReq h op c prev kind).2.home.accs = s.home.accs ∧ (s.addReq h op c prev kind).2.sch.slices = s.sch.slices := by
  unfold State.addReq
  dsimp only
  unfold State.onCtx
  rw [State.onXpt_home, State.onXpt_sch]
  constructor
  · split <;> cases prev <;> rfl
  · split <;> rfl

theorem format_congr {t : State} (h : t.sch.slices = s.sch.slices) : t.format slice = s.format slice := by
  unfold State.format State.cfg State.slice
  rw [h]

/-- The blocks of a range are all different, and so are its pages. -/
theorem bwdNames_nodup (f : PageFormat) (p : BwdParams) : (bwdNames f p).Nodup := by
  unfold bwdNames rangeBlocks
  rw [List.map_map]
  exact List.nodup_range.map fun a b hab => Nat.add_left_cancel (congrArg PageName.block hab)

end Sys2Proof.Machine
end

section
/-! SUPPORT. The commit of an ACCUMULATE in its turn (R158, R159, R162). -/

namespace Sys2Proof.Machine

variable {s : State} {r : Nat} {q : Req} {p : BwdParams}

/-- A COLLECT is tried only where one waits. -/
theorem tryCollect_other (h : ∀ q, s.reqs.get? r = some q → ∀ p, q.kind ≠ .collect p) : s.tryCollect r = s := by
  unfold State.tryCollect
  split
  · rfl
  · next q hq =>
    split
    · next p hk => exact absurd hk (h q hq p)
    · rfl

theorem tryCollects_none (h : ∀ x ∈ s.reqs, ∀ p, x.2.kind ≠ .collect p) : s.tryCollects = s :=
  keep_foldl (P := fun t => t = s) (fun _ _ ht => ht.symm ▸ tryCollect_other fun _ hq => h _ (Tbl.get?_mem hq)) rfl

/-- An ACCUMULATE all of whose pages are decided commits where no earlier claim stands before it. -/
theorem commitTurn_commits {pages : List PageWait} {st : List Staging} {codes : List Code} (hq : s.reqs.get? r = some q)
    (hk : q.kind = .bwd p pages st) (hc : pageCodes pages = some codes) (hb : s.claimedBefore r q.slice (s.accClaims q) = false) :
    s.commitTurn r = (s.commitReq r q p codes st).tryCollects := by
  unfold State.commitTurn
  rw [hq]
  dsimp only
  rw [hk]
  dsimp only
  rw [hc]
  dsimp only
  rw [hb]
  rfl

/-- A contribution tag of the request stands in an accumulator of one of its pages (R159). -/
def State.dupTag (s : State) (slice : Nat) (p : BwdParams) (names : List PageName) (ok : List Staging) : Bool :=
  ok.any (fun x => match s.accOf slice (names.getD x.page {}) with
    | some a => a.tags.contains p.contribTag
    | none => false)

/-- The rows of a commit that contribute (R154). -/
def usedRows (p : BwdParams) (nrows : Nat) (ok : List Staging) : List Nat := (List.range nrows).filter (fun rho => rowTreatment p ok rho = 2)

/-- The accumulators after the commit of the OK pages, unless the tag is a duplicate (R158, R159). -/
def State.commitPages (r slice : Nat) (p : BwdParams) (names : List PageName) (ok : List Staging) (s : State) : State :=
  let f := s.format slice
  if s.dupTag slice p names ok then s
  else ok.foldl (fun s x => s.commitPage r slice p (usedRows p (f.headsPerGroup * p.rowsPerHead) ok) (names.getD x.page {}) x) s

/-- A commit changes the accumulators and then answers with a record for each row. -/
theorem commitReq_eq {codes : List Code} {st : List Staging} :
    let names := bwdNames (s.format q.slice) p
    let done := s.commitCodes q.slice p names codes st
    ∃ rows, rows.length = (s.format q.slice).headsPerGroup * p.rowsPerHead ∧
      s.commitReq r q p codes st = (s.commitPages r q.slice p names (okStaging done st)).bump.finishReq r (rangeCode done)
        (.bwd (s.dupTag q.slice p names (okStaging done st)) done.length (if rangeCode done = .part then done else []) rows) := by
  refine ⟨_, ?_, rfl⟩
  rw [List.length_map, List.length_map, List.length_range]

theorem commitPages_keeps {P : State → Prop} (hP : Closed 19712 P) {slice : Nat} {names : List PageName} {ok : List Staging} (h : P s) :
    P (s.commitPages r slice p names ok) := by
  unfold State.commitPages
  dsimp only
  split
  · exact h
  · exact keep_foldl (fun _ _ => State.commitPage_keeps hP) h

theorem commitPages_dup {slice : Nat} {names : List PageName} {ok : List Staging} (h : s.dupTag slice p names ok = true) :
    s.commitPages r slice p names ok = s := if_pos h

theorem commitPages_fresh {slice : Nat} {names : List PageName} {ok : List Staging} (h : s.dupTag slice p names ok = false) :
    s.commitPages r slice p names ok = ok.foldl (fun t x =>
      t.commitPage r slice p (usedRows p ((s.format slice).headsPerGroup * p.rowsPerHead) ok) (names.getD x.page {}) x) s :=
  if_neg (by rw [h]; exact Bool.false_ne_true)

/-- A commit to a page writes elements of its accumulator, which leaves the home, and then changes its record (R158, R159). -/
theorem commitPage_onAcc {slice : Nat} {use : List Nat} {n : PageName} {x : Staging} {a : Accumulator} (ha : s.accOf slice n = some a) :
    ∃ (t : State) (nonfinite : Bool), t.home = s.home ∧ s.commitPage r slice p use n x = t.onAcc slice n (fun a => { a with
      tags := (a.tags ++ [p.contribTag]).drop (a.tags.length + 1 - 256)
      updates := satAdd max32 a.updates 1
      nonfinite := a.nonfinite || nonfinite }) := by
  have hadd {t : State} {off : Nat} {v : Num} (h : t.home = s.home) : (t.addElem a off v).2.home = s.home :=
    State.addElem_keeps (home_closed _ rfl rfl) h
  unfold State.commitPage
  rw [ha]
  dsimp only
  refine ⟨_, _, ?_, rfl⟩
  refine keep_foldl_snd (P := fun t => t.home = s.home) (fun b t e h => ?_) rfl
  dsimp only
  split
  · exact hadd h
  · dsimp only
    exact hadd (hadd h)

/-- The accumulator of a committed page gains the tag, the last 256 being kept, and one update (R158, R159). -/
theorem accOf_commitPage {slice : Nat} {use : List Nat} {n : PageName} {x : Staging} {a : Accumulator} (ha : s.accOf slice n = some a) :
    ∃ b, (s.commitPage r slice p use n x).accOf slice n = some b ∧
      b.tags = (a.tags ++ [p.contribTag]).drop (a.tags.length + 1 - 256) ∧ b.updates = satAdd max32 a.updates 1 := by
  obtain ⟨t, nonfinite, ht, heq⟩ := commitPage_onAcc (r := r) (p := p) (use := use) (x := x) ha
  rw [heq, accOf_onAcc, accOf_congr (congrArg Home.accs ht), ha, Option.map_some]
  · refine ⟨_, rfl, ?_⟩
    dsimp only
    exact ⟨rfl, rfl⟩
  · exact fun _ => ⟨rfl, rfl⟩

end Sys2Proof.Machine
end

section
/-! The statement on commits. -/

open Sys2Proof Sys2Proof.Machine

/-- Settles O14: a commit is the change of the accumulators followed by the answer, and with no COLLECT waiting nothing follows it. -/
theorem accumulatorCommitInTurn : Obligations.AccumulatorCommitInTurn := by
  unfold Obligations.AccumulatorCommitInTurn
  intro r s q p pages st codes hrun _ hq hkind hcodes hturn hrts hcollect names done dup
  obtain ⟨rows, hrows, heq⟩ := commitReq_eq (s := s) (r := r) (q := q) (p := p) (codes := codes) (st := st)
  generalize hs1 : s.commitPages r q.slice p names (okStaging done st) = s1 at heq
  have hreqs1 : s1.reqs = s.reqs := hs1 ▸ commitPages_keeps (reqs_closed s.reqs rfl rfl rfl) rfl
  have hq1 : s1.bump.reqs.get? r = some q := (congrArg (Tbl.get? · r) hreqs1).trans hq
  have hrts1 : s1.bump.inRts q.hdr.pkt.qpn := hs1 ▸ commitPages_keeps (rts_closed _ rfl rfl) hrts
  have hgone : (s.commitReq r q p codes st).reqs = s.reqs.erase r := by
    rw [heq, finishReq_gone hq1, State.bump_reqs, hreqs1]
  have hturn : s.commitTurn r = s.commitReq r q p codes st := (commitTurn_commits hq hkind hcodes hturn).trans
    (tryCollects_none fun x hx => hcollect x (List.mem_of_mem_filter (hgone ▸ hx)))
  refine ⟨_, congrArg Host.Outcome.next ((whenUp_running hrun).trans hturn), hgone, ?_, fun hdup => ?_, fun hdup x hone a ha => ?_⟩
  · exact ⟨rows, heq ▸ finishReq_last hq1 hrts1, hrows⟩
  · have hsame : s1 = s := hs1.symm.trans (commitPages_dup hdup)
    rw [heq, accs_finishReq, mem_finishReq, hsame]
    exact ⟨rfl, rfl⟩
  · have hpage : s1 = s.commitPage r q.slice p (usedRows p ((s.format q.slice).headsPerGroup * p.rowsPerHead) (okStaging done st))
        (names.getD x.page {}) x := by
      rw [← hs1, commitPages_fresh hdup, hone]
      rfl
    obtain ⟨b, hb, htags, hupdates⟩ := accOf_commitPage (r := r) (p := p) (x := x)
      (use := usedRows p ((s.format q.slice).headsPerGroup * p.rowsPerHead) (okStaging done st)) ha
    refine ⟨b, (accOf_congr ?_).trans hb, htags, hupdates⟩
    rw [heq, accs_finishReq, State.bump_home, hpage]

end

section
/-! SUPPORT. COLLECT and DISCARD (R157, R161, R165): a COLLECT takes the pages of its range one after another, each page's code being that
of its accumulator before any is released. -/

namespace Sys2Proof.Machine

variable {s : State} {slice r : Nat} {p : BwdParams} {h : ExtHdr} {c : Ctx}

/-! ## The pages of a COLLECT (R161) -/

/-- One page of a COLLECT: its code and record, and the release of a page that is OK. -/
def collectStep (slice : Nat) (p : BwdParams) (a : (List Code × List (List Byte)) × State) (n : PageName) :
    (List Code × List (List Byte)) × State :=
  let x := a.2.collectRecord slice p n
  ((a.1.1 ++ [x.1], a.1.2 ++ [x.2]), if x.1 = .ok then a.2.dropAcc slice n else a.2)

theorem collectRange_eq : s.collectRange slice p = (bwdNames (s.format slice) p).foldl (collectStep slice p) (([], []), s) := rfl

theorem collectRecord_code {n : PageName} : (s.collectRecord slice p n).1 = s.accCode slice p.accPass n := by
  unfold State.collectRecord
  dsimp only
  split
  · split
    · rfl
    · split <;> rfl
  · rfl

theorem collectStep_codes {a : (List Code × List (List Byte)) × State} {n : PageName} :
    (collectStep slice p a n).1.1 = a.1.1 ++ [a.2.accCode slice p.accPass n] :=
  congrArg (fun c => a.1.1 ++ [c]) collectRecord_code

theorem collectStep_records {a : (List Code × List (List Byte)) × State} {n : PageName} :
    (collectStep slice p a n).1.2.length = a.1.2.length + 1 := List.length_append

theorem collectStep_state {a : (List Code × List (List Byte)) × State} {n : PageName} :
    (collectStep slice p a n).2 = if a.2.accCode slice p.accPass n = .ok then a.2.dropAcc slice n else a.2 := by
  rw [← collectRecord_code]
  rfl

/-- A page's step leaves the accumulators of the others. -/
theorem accOf_collectStep_other {a : (List Code × List (List Byte)) × State} {m n : PageName} (hm : m ≠ n) :
    (collectStep slice p a n).2.accOf slice m = a.2.accOf slice m := by
  rw [collectStep_state]
  split
  · exact accOf_dropAcc_other hm
  · rfl

/-- Pages taken in turn: their codes are those before the first step, and every page that is OK is released. -/
theorem collectSteps {names : List PageName} (hn : names.Nodup) (a : (List Code × List (List Byte)) × State) :
    (names.foldl (collectStep slice p) a).1.1 = a.1.1 ++ names.map (a.2.accCode slice p.accPass) ∧
    (names.foldl (collectStep slice p) a).1.2.length = a.1.2.length + names.length ∧
    (∀ m, m ∉ names → (names.foldl (collectStep slice p) a).2.accOf slice m = a.2.accOf slice m) ∧
    ∀ m ∈ names, a.2.accCode slice p.accPass m = .ok → (names.foldl (collectStep slice p) a).2.accOf slice m = none := by
  induction names generalizing a with
  | nil => exact ⟨by simp, rfl, fun _ _ => rfl, fun _ hm => nomatch hm⟩
  | cons n t ih =>
    obtain ⟨hnt, ht⟩ := List.nodup_cons.mp hn
    obtain ⟨hcodes, hrecords, hothers, hreleased⟩ := ih ht (collectStep slice p a n)
    have hother : ∀ m, m ≠ n → (collectStep slice p a n).2.accOf slice m = a.2.accOf slice m := fun m => accOf_collectStep_other
    rw [List.foldl_cons]
    refine ⟨?_, ?_, fun m hm => ?_, fun m hm hok => ?_⟩
    · have hmap : t.map ((collectStep slice p a n).2.accCode slice p.accPass) = t.map (a.2.accCode slice p.accPass) :=
        List.map_congr_left fun m hm => accCode_congr (hother m fun hmn => hnt (hmn ▸ hm))
      rw [hcodes, collectStep_codes, hmap, List.append_assoc, List.map_cons]
      rfl
    · rw [hrecords, collectStep_records, List.length_cons]
      omega
    · obtain ⟨hmn, hmt⟩ := not_or.mp (mt List.mem_cons.mpr hm)
      exact (hothers m hmt).trans (hother m hmn)
    · rcases List.mem_cons.mp hm with rfl | hm
      · rw [hothers m hnt, collectStep_state, if_pos hok, accOf_dropAcc_same]
      · exact hreleased m hm ((accCode_congr (hother m fun hmn => hnt (hmn ▸ hm))).trans hok)

/-! ## A COLLECT that is admitted -/

/-- An earlier ACCUMULATE of the pass, or an earlier claim to one of the pages, holds a COLLECT back (R161, log entry 14). -/
def State.collectHeld (s : State) (r slice : Nat) (p : BwdParams) : Bool :=
  s.passBefore r slice p.accPass ||
    s.claimedBefore r slice ((bwdNames (s.format slice) p).map (fun n => (n, p.accPass)))

theorem tryCollect_eq {q : Req} (hq : s.reqs.get? r = some q) (hk : q.kind = .collect p) :
    s.tryCollect r = if s.collectHeld r q.slice p then s
      else (s.collectRange q.slice p).2.finishReq r (rangeCode (s.collectRange q.slice p).1.1) (.collect (s.collectRange q.slice p).1.2) := by
  have hclaims : s.accClaims q = (bwdNames (s.format q.slice) p).map (fun n => (n, p.accPass)) := by
    unfold State.accClaims
    rw [hk]
  unfold State.tryCollect State.collectHeld
  rw [hq]
  dsimp only
  rw [hk]
  dsimp only
  rw [hclaims]

/-- A COLLECT that is held back waits; any other answers with a record for each page and releases those that are OK. -/
theorem collect_does {s2 : State} (e : admission h (.attendBwdCollect h p) (collectSpec h p s) s.settle = some (c, s2)) :
    let names := bwdNames (s2.format c.slice) p
    let a := (s2.addReq h 1 c (s2.onPrevious c.slice h.mapGen 0 p.handle true) (.collect p)).2
    let t := s.settle.extended h (.attendBwdCollect h p) (collectSpec h p s)
      (fun c s => s.runCollect h p (s.onPrevious c.slice h.mapGen 0 p.handle true) c)
    if a.passBefore s2.nextReq c.slice p.accPass || a.claimedBefore s2.nextReq c.slice (names.map (fun n => (n, p.accPass))) then
      t.home.accs = s2.home.accs ∧ ∃ q, t.reqs.get? s2.nextReq = some q ∧ q.kind = .collect p ∧ q.hdr = h
    else t.reqs.get? s2.nextReq = none ∧
      (∃ records, records.length = names.length ∧
        lastResponse t h.pkt.qpn = some (1, 0, rangeCode (names.map (s2.accCode c.slice p.accPass)), .collect records)) ∧
      ∀ n ∈ names, s2.accCode c.slice p.accPass n = .ok → t.accOf c.slice n = none := by
  intro names a t
  have hreq : a.reqs.get? s2.nextReq = some (s2.reqOf h 1 c (s2.onPrevious c.slice h.mapGen 0 p.handle true) (.collect p)) := addReq_frame.1
  have hrts : a.inRts h.pkt.qpn := State.addReq_keeps (rts_closed _ rfl rfl) (admit_inRts e)
  obtain ⟨haccs, hslices⟩ := addReq_accs (s := s2) (h := h) (op := 1) (c := c) (kind := .collect p)
    (prev := s2.onPrevious c.slice h.mapGen 0 p.handle true)
  have hnames : bwdNames (a.format c.slice) p = names := congrArg (bwdNames · p) (format_congr hslices)
  have hcode : a.accCode c.slice p.accPass = s2.accCode c.slice p.accPass := funext fun n => accCode_congr (accOf_congr haccs)
  have ht : t = if a.collectHeld s2.nextReq c.slice p then a else (a.collectRange c.slice p).2.finishReq s2.nextReq
      (rangeCode (a.collectRange c.slice p).1.1) (.collect (a.collectRange c.slice p).1.2) :=
    (extended_of_admit e).trans (tryCollect_eq hreq rfl)
  rw [← hnames]
  change if a.collectHeld s2.nextReq c.slice p then _ else _
  split
  · next hheld =>
    rw [ht, if_pos hheld]
    exact ⟨haccs, _, hreq, rfl, rfl⟩
  · next hfree =>
    rw [ht, if_neg hfree, ← hcode]
    obtain ⟨hcodes, hrecords, -, hreleased⟩ := collectSteps (slice := c.slice) (p := p) (bwdNames_nodup (a.format c.slice) p) (([], []), a)
    rw [← collectRange_eq] at hcodes hrecords hreleased
    rw [List.nil_append] at hcodes
    have hreqs : (a.collectRange c.slice p).2.reqs = a.reqs := State.collectRange_keeps (reqs_closed a.reqs rfl rfl rfl) rfl
    have hreq := (congrArg (Tbl.get? · s2.nextReq) hreqs).trans hreq
    refine ⟨(finishReq_reqs (r := 0)).1, ⟨_, hrecords.trans (Nat.zero_add _), ?_⟩, fun n hn hok => ?_⟩
    · rw [← hcodes]
      exact finishReq_last hreq (State.collectRange_keeps (rts_closed _ rfl rfl) hrts)
    · exact (accOf_congr accs_finishReq).trans (hreleased n hn hok)

/-! ## A DISCARD that is admitted -/

/-- A DISCARD answers OK for every page and leaves none of them an accumulator (R157; log entry 82). -/
theorem discard_releases {s2 : State} (e : admission h (.attendBwdDiscard h p) (discardSpec h p s) s.settle = some (c, s2)) :
    let names := bwdNames (s2.format c.slice) p
    let t := s.settle.extended h (.attendBwdDiscard h p) (discardSpec h p s) (fun c s => s.runDiscard h p c)
    lastResponse t h.pkt.qpn = some (1, 0, .ok, bwdReply (names.map (fun _ => .ok))) ∧ ∀ n ∈ names, t.accOf c.slice n = none := by
  intro names t
  have ht : t = s2.runDiscard h p c := extended_of_admit e
  rw [ht]
  refine ⟨respond_last ?_, fun n hn => (accOf_congr accs_respond).trans (accOf_dropAccs hn)⟩
  exact keep_foldl (fun _ _ => State.dropAcc_keeps (rts_closed _ rfl rfl)) (admit_inRts e)

end Sys2Proof.Machine
end

section
/-! The statement on COLLECT and DISCARD. -/

open Sys2Proof Sys2Proof.Machine

/-- Settles O15: the pages of a COLLECT are all different, so the release of one leaves the codes of the others; a DISCARD releases the
pages one after another. -/
theorem attendBwdCollectsOrDiscards : Obligations.AttendBwdCollectsOrDiscards := by
  unfold Obligations.AttendBwdCollectsOrDiscards
  refine ⟨fun h p s s2 c hrun e => ?_, fun h p s s2 c hrun e => ?_⟩
  · exact ⟨_, congrArg Host.Outcome.next (whenUp_running hrun), collect_does e⟩
  · exact ⟨_, congrArg Host.Outcome.next (whenUp_running hrun), discard_releases e⟩

end

section
/-! SUPPORT. What the resolution of a page and the wait for it leave (R64, R224, R241, R242): no accumulator appears or goes, and a waiting
ACCUMULATE stays as it is. `Tame` predicates are those that changes of the home keep where the accumulators keep their names. -/

namespace Sys2Proof.Machine

/-- The pages that have accumulators. -/
def Home.accNames (h : Home) : List (Nat × PageName) := h.accs.map (fun a => (a.slice, a.name))

/-- A predicate that every change of the home keeps which leaves the pages that have accumulators; of the parts that `base` names (host
interface, log, cells and blocks, near-bank units, memory, ports, contexts that stay in RTS, what leaves the node) any change. -/
structure Tame (P : State → Prop) : Prop where
  base : Closed 2639792 P
  home : ∀ f s, (∀ h, Home.accNames (f h) = h.accNames) → P s → P (State.onHome f s)

/-- A tame predicate that also the fate of a lost page keeps, when it reaches the requests that wait for the page (R242). -/
structure TameFate (P : State → Prop) : Prop extends Tame P where
  lost : ∀ slice n s, P s → P (State.tellFate slice n .lost s)

section tame
variable {P : State → Prop} (hP : Tame P) {s : State} {slice : Nat} {n : PageName}
include hP

/-! ## Records of the home -/

theorem State.onEntry_tame {f : Entry → Entry} (h : P s) : P (s.onEntry slice n f) :=
  hP.home _ _ (fun _ => rfl) (State.clearMark_keeps (hP.base.mono rfl) h)

theorem State.onSeq_tame {handle : Nat} {f : SeqRec → SeqRec} (h : P s) : P (s.onSeq slice handle f) :=
  hP.home _ _ (fun _ => rfl) (State.clearMark_keeps (hP.base.mono rfl) h)

theorem State.onReplica_tame {f : Replica → Replica} (h : P s) : P (s.onReplica slice n f) := hP.home _ _ (fun _ => rfl) h

theorem State.onFill_tame {f : Fill → Fill} (h : P s) : P (s.onFill slice n f) := hP.home _ _ (fun _ => rfl) h

theorem State.endFill_tame (h : P s) : P (s.endFill slice n) := hP.home _ _ (fun _ => rfl) h

theorem State.countTier_tame {q : Nat} {f : TierCount → TierCount} (h : P s) : P (s.countTier q f) := hP.home _ _ (fun _ => rfl) h

theorem State.forgetLook_tame (h : P s) : P (s.forgetLook slice n) := hP.home _ _ (fun _ => rfl) h

theorem State.dropReplica_tame (h : P s) : P (s.dropReplica slice n) :=
  hP.home _ _ (fun _ => rfl) (State.tellReplicas_keeps (hP.base.mono rfl) h)

theorem State.revokeGrants_tame (h : P s) : P (s.revokeGrants slice n) := by
  unfold State.revokeGrants
  exact State.onReplica_tame hP (keep_either h (State.tellReplicas_keeps (hP.base.mono rfl)) id)

/-- A new generation relabels accumulators or marks them, which leaves their names (R445). -/
theorem State.accGen_tame {gen : Nat} {relocation : Bool} (h : P s) : P (s.accGen slice n relocation gen) := by
  have names (f : Accumulator → Accumulator) (hf : ∀ a, ((f a).slice, (f a).name) = (a.slice, a.name)) :
      P (s.onHome (fun h => { h with accs := h.accs.map f })) := by
    refine hP.home _ _ (fun x => ?_) h
    unfold Home.accNames
    rw [List.map_map]
    exact List.map_congr_left fun a _ => hf a
  unfold State.accGen
  cases relocation with
  | false => exact names _ (fun a => by split <;> rfl)
  | true => exact State.writeHeaders_keeps (hP.base.mono rfl) (names _ (fun a => by split <;> rfl))

theorem State.bumpGen_tame {relocation : Bool} (h : P s) : P (s.bumpGen slice n relocation) := by
  unfold State.bumpGen
  split
  · exact h
  · dsimp only
    refine keep_either ?_ (fun k => State.onReplica_tame hP (State.tellReplicas_keeps (hP.base.mono rfl) k)) id
    exact State.clearMark_keeps (hP.base.mono rfl) (State.revokeGrants_tame hP (State.accGen_tame hP (State.onEntry_tame hP h)))

/-! ## Frames and entries -/

theorem State.dropWriteFrame_tame (h : P s) : P (s.dropWriteFrame slice n) := by
  unfold State.dropWriteFrame
  split
  · exact h
  · exact keep_either h (fun k => State.onEntry_tame hP (State.retireUnit_keeps (hP.base.mono rfl) k)) id

theorem State.retireShadow_tame (h : P s) : P (s.retireShadow slice n) := by
  unfold State.retireShadow
  split
  · exact h
  · exact keep_either h (fun k => State.onEntry_tame hP (State.retireUnit_keeps (hP.base.mono rfl) k)) id

theorem State.retireHull_tame (h : P s) : P (s.retireHull slice n) := by
  unfold State.retireHull
  split
  · exact h
  · exact keep_either h (fun k => State.onEntry_tame hP (State.retire_keeps (hP.base.mono rfl) k)) id

theorem State.dropEntry_tame (h : P s) : P (s.dropEntry slice n) := by
  have hm : Closed 512 P := hP.base.mono rfl
  unfold State.dropEntry
  refine State.onSeq_tame hP (hm.mem rfl _ _ (fun _ => rfl) (fun _ k => k) ?_)
  refine hP.home _ _ (fun _ => rfl) (State.clearMark_keeps (hP.base.mono rfl) ?_)
  split
  · exact hP.home _ _ (fun _ => rfl) h
  · exact h

theorem State.sendCopy_tame {node : Nat} (h : P s) : P (s.sendCopy slice n node) := by
  have hx : Closed 2097152 P := hP.base.mono rfl
  unfold State.sendCopy
  split
  · exact h
  · split
    · exact h
    · exact hx.link rfl _ _ (fun _ _ k => k) (State.onReplica_tame hP h)

theorem State.copyOut_tame (h : P s) : P (s.copyOut slice n) := by
  unfold State.copyOut
  split
  · exact h
  · exact keep_either h id (keep_foldl fun _ _ => State.sendCopy_tame hP)

theorem State.setPageState_tame {st : PageState} (h : P s) : P (s.setPageState slice n st) := by
  unfold State.setPageState
  exact keep_either (State.onEntry_tame hP (keep_either h (State.revokeGrants_tame hP) id)) (State.copyOut_tame hP) id

theorem State.undoAcquire_tame {slot : Nat} {made : List PageName} {pre : List (PageName × PageState)} (h : P s) :
    P (s.undoAcquire slot made pre) := by
  unfold State.undoAcquire
  split
  · exact h
  · refine State.onSeq_tame hP (hP.home _ _ (fun _ => rfl) ?_)
    refine keep_foldl (fun _ _ => State.dropEntry_tame hP) (keep_foldl (fun _ _ => State.setPageState_tame hP) ?_)
    exact keep_foldl (fun _ _ => State.dropWriteFrame_tame hP) (hP.home _ _ (fun _ => rfl) h)

/-! ## What an entry has not yet taken (R70, R71, R243, R438) -/

theorem State.applyRestart_tame (h : P s) : P (s.applyRestart slice n) := by
  unfold State.applyRestart
  split
  · exact h
  · refine keep_either h id fun h => ?_
    have torn {t : State} (k : P t) : P (t.onHome fun h => { h with pagesTorn := inc32 h.pagesTorn }) := hP.home _ _ (fun _ => rfl) k
    refine keep_either (State.onEntry_tame hP (keep_either ?_ id torn)) (State.bumpGen_tame hP) id
    refine keep_either ?_ (State.freeUnit_keeps (hP.base.mono rfl)) id
    refine keep_either ?_ (fun k => State.retireShadow_tame hP (State.freeExtent_keeps (hP.base.mono rfl) k)) id
    exact keep_either h (State.freeUnit_keeps (hP.base.mono rfl)) id

theorem State.applyFences_tame (h : P s) : P (s.applyFences slice n) := by
  unfold State.applyFences
  split
  · exact h
  · refine keep_either (State.onEntry_tame hP h) (fun k => ?_) id
    split
    · exact State.bumpGen_tame hP (State.forgetLook_tame hP (State.onEntry_tame hP k))
    · refine State.writeSlots_keeps (hP.base.mono rfl) (State.bumpGen_tame hP (State.onEntry_tame hP ?_))
      exact hP.home _ _ (fun _ => rfl) k
    · exact State.bumpGen_tame hP (State.onEntry_tame hP k)
    · refine State.bumpGen_tame hP (State.onEntry_tame hP (State.retireExtent_keeps (hP.base.mono rfl) ?_))
      exact State.dropCmds_keeps (hP.base.mono rfl) k
    · exact k

theorem State.applyDrive_tame (h : P s) : P (s.applyDrive slice n) := by
  unfold State.applyDrive
  split
  · exact h
  · refine keep_either h (fun k => ?_) id
    split
    · exact State.bumpGen_tame hP (State.onEntry_tame hP (State.retireShadow_tame hP k))
    · exact State.onEntry_tame hP (State.retireShadow_tame hP (State.dropCmds_keeps (hP.base.mono rfl) k))
    · exact k

theorem State.refresh_tame (h : P s) : P (s.refresh slice n) :=
  State.applyDrive_tame hP (State.applyFences_tame hP (State.applyRestart_tame hP h))

theorem State.resolve_tame (h : P s) : P (s.resolve slice n).2 := by
  have k := State.refresh_tame hP (slice := slice) (n := n) h
  unfold State.resolve
  dsimp only
  split
  · exact k
  · split
    iterate 3 exact k
    split
    iterate 3 exact k
    · split <;> exact k
    · exact k
    · exact State.onEntry_tame hP k

/-! ## Fills that start at once -/

theorem State.raiseFill_tame {cls : Nat} (h : P s) : P (s.raiseFill slice n cls) := by
  unfold State.raiseFill State.classFill
  split
  · exact h
  · exact State.onDrive_keeps (hP.base.mono rfl) (fun _ k => k) (State.onFill_tame hP h)

theorem State.placeFill_tame (h : P s) : P (s.placeFill slice n) := by
  unfold State.placeFill
  split
  · refine keep_either h id fun h => ?_
    split
    · exact h
    · next he =>
      refine State.addCmds_keeps (hP.base.mono rfl) (State.onEntry_tame hP (State.onFill_tame hP ?_))
      exact State.allocFrame_some (hP.base.mono rfl) h he
  · exact h

end tame

/-! ## Pages that are lost, recovered or filled (R224, R241, R242) -/

section fate
variable {P : State → Prop} (hP : TameFate P) {s : State} {slice : Nat} {n : PageName}
include hP

theorem State.losePage_tame {cause drive lba nvme : Nat} (h : P s) : P (s.losePage slice n cause drive lba nvme) := by
  have hT := hP.toTame
  unfold State.losePage
  split
  · exact h
  · refine hP.lost _ _ _ (keep_either ?_ (fun k => State.bumpGen_tame hT (State.onEntry_tame hT k))
      (fun k => State.dropEntry_tame hT (State.dropWriteFrame_tame hT k)))
    refine State.dropReplica_tame hT (State.retireHull_tame hT (State.retireShadow_tame hT ?_))
    refine keep_either (keep_either ?_ (State.retireUnit_keeps (hT.base.mono rfl)) id) (State.retireExtent_keeps (hT.base.mono rfl)) id
    refine State.countTier_tame hT (State.logEvent_keeps (hT.base.mono rfl) (State.logEvent_keeps (hT.base.mono rfl) ?_))
    exact State.endFill_tame hT (State.writeSlots_keeps (hT.base.mono rfl) h)

theorem State.askNext_tame (h : P s) : P (s.askNext slice n) := by
  have hx : Closed 2097152 P := hP.base.mono rfl
  unfold State.askNext
  split
  · split
    · exact hx.link rfl _ _ (fun _ _ k => k) (State.onFill_tame hP.toTame h)
    · refine keep_either h id fun h => ?_
      split <;> exact State.losePage_tame hP h
  · exact h

theorem State.startRecovery_tame {cause : Nat} {media : Option (Nat × Nat)} (h : P s) : P (s.startRecovery slice n cause media) := by
  unfold State.startRecovery
  split
  · exact keep_either h id fun h => State.askNext_tame hP (State.onFill_tame hP.toTame h)
  · exact State.askNext_tame hP (hP.home _ _ (fun _ => rfl) h)

theorem State.startFill_tame {cls : Nat} {lookahead : Bool} (h : P s) : P (s.startFill slice n cls lookahead) := by
  unfold State.startFill
  split
  · exact h
  · refine keep_either h (State.raiseFill_tame hP.toTame) fun h => keep_either h (fun h => ?_) fun h => ?_
    · exact keep_either h id (State.startRecovery_tame hP)
    · exact keep_either h (fun h => State.placeFill_tame hP.toTame (hP.home _ _ (fun _ => rfl) h)) id

theorem State.awaitPage_tame {cls : Nat} (h : P s) : P (s.awaitPage slice n cls) := by
  unfold State.awaitPage
  split
  · exact h
  · exact keep_either h (State.startRecovery_tame hP) (State.startFill_tame hP)

end fate

end Sys2Proof.Machine
end

section
/-! SUPPORT. What the loss of a page does with the requests that wait for it (R242), and two tame predicates: which pages have
accumulators, and an ACCUMULATE that waits. -/

namespace Sys2Proof.Machine

variable {s : State} {slice r : Nat} {n : PageName}

theorem accOf_eq_none_iff_names : s.accOf slice n = none ↔ (slice, n) ∉ s.home.accNames := by
  rw [accOf_eq_none]
  unfold Home.accNames Accumulator.is
  simp only [List.mem_map, Prod.mk.injEq, not_exists, not_and, Bool.and_eq_false_iff, decide_eq_false_iff_not]
  exact forall_congr' fun a => imp_congr_right fun _ => ⟨fun h hs hn => h.elim (· hs) (· hn), fun h => not_and_or.mp fun k => h k.1 k.2⟩

/-- A request of another number stays when one is finished. -/
theorem finishReq_reqs_other {k : Nat} {code : Code} {body : RespBody} (hr : r ≠ k) :
    (s.finishReq k code body).reqs.get? r = s.reqs.get? r := by
  cases hk : s.reqs.get? k with
  | none =>
    unfold State.finishReq
    rw [hk]
  | some q => rw [finishReq_gone hk, Tbl.get?_erase_other _ hr]

/-- The request is an ACCUMULATE. -/
def Req.isBwd (q : Req) : Prop := ∃ p pages st, q.kind = .bwd p pages st

/-- A lost page ends a PIN or an acquire that waits for it, after undoing the acquire; other requests it leaves (R212, R242, R244). -/
theorem fateStep_lost (x : Nat × Req) : s.fateStep slice n .lost x = s ∨ ¬ x.2.isBwd ∧ ∃ t code body,
    (t = s ∨ ∃ slot made pre, t = s.undoAcquire slot made pre) ∧ s.fateStep slice n .lost x = t.finishReq x.1 code body := by
  unfold State.fateStep
  split
  · exact .inl rfl
  · split
    · next hk => exact .inr ⟨fun ⟨_, _, _, k⟩ => (nomatch hk.symm.trans k), _, _, _, .inl rfl, rfl⟩
    · next hk =>
      split
      · exact .inl rfl
      · exact .inr ⟨fun ⟨_, _, _, k⟩ => (nomatch hk.symm.trans k), _, _, _, .inr ⟨_, _, _, rfl⟩, rfl⟩
    · exact .inl rfl

/-! ## The pages that have accumulators -/

theorem tame_accNames (l : List (Nat × PageName)) : Tame (fun t => t.home.accNames = l) where
  base := .of_view (fun x => home_closed x rfl rfl) (fun h => h.accNames = l)
  home _ s k h := (k s.home).trans h

theorem accNames_fateStep {x : Nat × Req} : (s.fateStep slice n .lost x).home.accNames = s.home.accNames := by
  have hfin (t : State) (k : Nat) (code : Code) (body : RespBody) : (t.finishReq k code body).home.accNames = t.home.accNames :=
    congrArg (List.map _) accs_finishReq
  obtain h | ⟨-, t, code, body, ht, h⟩ := fateStep_lost (s := s) (slice := slice) (n := n) x
  · rw [h]
  · rw [h, hfin]
    obtain rfl | ⟨slot, made, pre, rfl⟩ := ht
    · rfl
    · exact State.undoAcquire_tame (tame_accNames _) rfl

theorem tameFate_accNames (l : List (Nat × PageName)) : TameFate (fun t => t.home.accNames = l) where
  toTame := tame_accNames l
  lost slice n s h := by
    rw [tellFate_eq]
    exact keep_foldl (P := fun t => t.home.accNames = l) (fun _ _ k => accNames_fateStep.trans k) h

/-! ## An ACCUMULATE that waits -/

/-- The requests stand under rising numbers, the slice has that page format, and under the number stands an ACCUMULATE of which `R` holds. -/
def State.HoldsAcc (r slice : Nat) (f : PageFormat) (R : Req → Prop) (s : State) : Prop :=
  s.ReqsOk ∧ s.format slice = f ∧ ∃ q, s.reqs.get? r = some q ∧ q.isBwd ∧ R q

variable {f : PageFormat} {R : Req → Prop}

/-- What leaves requests and slices leaves an ACCUMULATE that waits. -/
theorem holdsAcc_of_eq {t : State} (h : s.HoldsAcc r slice f R) (hreqs : t.reqs = s.reqs) (hnext : t.nextReq = s.nextReq)
    (hslices : t.sch.slices = s.sch.slices) : t.HoldsAcc r slice f R := by
  unfold State.HoldsAcc State.ReqsOk
  rw [hreqs, hnext, format_congr hslices]
  exact h

theorem holdsAcc_closed {m : Nat} (hsch : m.testBit 6 = false) (hreqs : m.testBit 15 = false) (hnextReq : m.testBit 16 = false)
    (hdrop : m.testBit 20 = false) : Closed m (State.HoldsAcc r slice f R) where
  aon _ _ _ k := k
  ras _ _ _ k := k
  pwr _ _ _ k := k
  sec _ _ _ k := k
  host _ _ _ k := k
  log _ _ _ k := k
  sch k := absurd k (by rw [hsch]; exact Bool.false_ne_true)
  eng _ _ _ k := k
  nbu _ _ _ _ k := k
  mem _ _ _ _ _ k := k
  cells _ _ _ _ k := k
  home _ _ _ k := k
  locus _ _ _ k := k
  xpt _ _ _ k := k
  eth _ _ _ k := k
  reqs k := absurd k (by rw [hreqs]; exact Bool.false_ne_true)
  nextReq k := absurd k (by rw [hnextReq]; exact Bool.false_ne_true)
  image _ _ _ k := k
  free _ _ k := k
  emitted _ _ _ k := k
  drop k := absurd k (by rw [hdrop]; exact Bool.false_ne_true)
  link _ _ _ _ k := k

theorem slices_fateStep {x : Nat × Req} : (s.fateStep slice n .lost x).sch.slices = s.sch.slices := by
  obtain h | ⟨-, t, code, body, ht, h⟩ := fateStep_lost (s := s) (slice := slice) (n := n) x
  · rw [h]
  · rw [h, finishReq_frame.2.2]
    obtain rfl | ⟨slot, made, pre, rfl⟩ := ht
    · rfl
    · exact congrArg Sch.slices (State.undoAcquire_keeps (sch_closed s.sch rfl rfl) rfl)

theorem slices_tellFate : (s.tellFate slice n .lost).sch.slices = s.sch.slices := by
  rw [tellFate_eq]
  exact keep_foldl (P := fun t => t.sch.slices = s.sch.slices) (fun _ _ k => slices_fateStep.trans k) rfl

/-- A lost page leaves the request of a number that no PIN or acquire bears. -/
theorem get_fateStep {x : Nat × Req} (h : x.1 = r → x.2.isBwd) : (s.fateStep slice n .lost x).reqs.get? r = s.reqs.get? r := by
  obtain k | ⟨hbwd, t, code, body, ht, k⟩ := fateStep_lost (s := s) (slice := slice) (n := n) x
  · rw [k]
  · rw [k, finishReq_reqs_other fun hr => hbwd (h hr.symm)]
    obtain rfl | ⟨slot, made, pre, rfl⟩ := ht
    · rfl
    · exact congrArg (Tbl.get? · r) (State.undoAcquire_keeps (reqs_closed s.reqs rfl rfl rfl) rfl)

theorem pinFate_bwd {fate : Fate} {q : Req} (h : q.isBwd) : pinFate n fate q = q := by
  obtain ⟨p, pages, st, hk⟩ := h
  unfold pinFate
  rw [hk]

theorem get_tellFate {q : Req} (hok : s.ReqsOk) (hq : s.reqs.get? r = some q) (hb : q.isBwd) :
    (s.tellFate slice n .lost).reqs.get? r = some q := by
  have hget : (heard slice n .lost s.reqs).get? r = some q := by
    refine (Tbl.get?_mapValues s.reqs (fun q => if q.slice = slice then pinFate n .lost q else q)).trans ?_
    rw [hq, Option.map_some, pinFate_bwd hb, ite_self]
  have hkeys : (heard slice n .lost s.reqs).map Prod.fst = s.reqs.map Prod.fst := by
    unfold heard
    rw [List.map_map]
    rfl
  have hbwd : ∀ x ∈ heard slice n .lost s.reqs, x.1 = r → x.2.isBwd := fun x hx hxr => by
    have hx' := Tbl.get?_of_mem (k := x.1) (v := x.2) (hkeys ▸ hok.1) hx
    rw [hxr, hget] at hx'
    exact Option.some.inj hx' ▸ hb
  rw [tellFate_eq]
  exact List.foldlRecOn (motive := fun t : State => t.reqs.get? r = some q) _ _ hget
    fun _ k x hx => (get_fateStep (hbwd x hx)).trans k

theorem tameFate_holdsAcc : TameFate (State.HoldsAcc r slice f R) where
  base := holdsAcc_closed rfl rfl rfl rfl
  home _ _ _ h := h
  lost := by
    rintro sl n s ⟨hok, hf, q, hq, hb, hR⟩
    exact ⟨State.tellFate_keeps (reqsOk_closed _) hok, (format_congr slices_tellFate).trans hf, q, get_tellFate hok hq hb, hb, hR⟩

end Sys2Proof.Machine
end

section
/-! SUPPORT. The pages of an ACCUMULATE that is admitted (R157, R158): one record for each page of its range, a page that the mask excludes
being OK at once. -/

namespace Sys2Proof.Machine

variable {s : State} {slice r : Nat} {n : PageName} {h : ExtHdr} {p : BwdParams} {c : Ctx} {f : PageFormat}

/-- One record for each page of the range, OK where the mask excludes the page. -/
def AccPages (f : PageFormat) (p : BwdParams) (pages : List PageWait) : Prop :=
  pages.length = (bwdNames f p).length ∧
    ∀ (i : Nat) (n : PageName), (bwdNames f p)[i]? = some n → bwdExcluded f p n = true → pages[i]? = some (PageWait.done .ok)

theorem accPages_start : AccPages f p ((bwdNames f p).map (fun _ => .done .ok)) := by
  refine ⟨List.length_map _, fun i n hn _ => ?_⟩
  rw [List.getElem?_map, hn]
  rfl

/-- A page is recorded, as OK where the mask excludes it. -/
theorem accPages_set {pages : List PageWait} {idx : Nat} {w : PageWait} (k : AccPages f p pages) (hn : (bwdNames f p)[idx]? = some n)
    (hw : bwdExcluded f p n = true → w = .done .ok) : AccPages f p (pages.set idx w) := by
  obtain ⟨hlen, hexcl⟩ := k
  refine ⟨(List.length_set ..).trans hlen, fun i m hm hx => ?_⟩
  rw [List.getElem?_set]
  split
  · next hi =>
    subst hi
    rw [hw (Option.some.inj (hn.symm.trans hm) ▸ hx), if_pos (hlen ▸ (List.getElem?_eq_some_iff.mp hn).1)]
  · exact hexcl i m hm hx

/-- The request is the ACCUMULATE of that header, with a record for each page of its range. -/
def AccWaits (h : ExtHdr) (slice : Nat) (f : PageFormat) (p : BwdParams) (q : Req) : Prop :=
  q.hdr = h ∧ q.op = 1 ∧ q.slice = slice ∧ ∃ pages st, q.kind = .bwd p pages st ∧ AccPages f p pages

/-- A change of the records that keeps one for each page keeps the ACCUMULATE. -/
theorem holdsAcc_onBwd {F : List PageWait → List PageWait} {G : List Staging → List Staging}
    (hF : ∀ pages, AccPages f p pages → AccPages f p (F pages)) (k : s.HoldsAcc r slice f (AccWaits h slice f p)) :
    (s.onBwd r F G).HoldsAcc r slice f (AccWaits h slice f p) := by
  obtain ⟨hok, hf, q, hq, -, hhdr, hop, hsl, pages, st, hk, hpages⟩ := k
  refine ⟨State.onBwd_keeps (reqsOk_closed _) hok, hf, { q with kind := .bwd p (F pages) (G st) }, ?_, ⟨_, _, _, rfl⟩, hhdr, hop, hsl,
    _, _, rfl, hF pages hpages⟩
  unfold State.onBwd
  rw [State.onReqs_reqs, Tbl.get?_modify_same, hq, Option.map_some, hk]

theorem holdsAcc_parkOn {R : Req → Prop} {idx cls admitted tries r' slice' : Nat} {n : PageName} {tg : TileGroup}
    (k : s.HoldsAcc r slice f R) : (s.parkOn r' idx slice' cls admitted n tg tries).2.HoldsAcc r slice f R := by
  refine holdsAcc_of_eq k (State.parkOn_keeps (reqs_closed s.reqs rfl rfl rfl) rfl) (State.parkOn_keeps (nextReq_closed s.nextReq rfl) rfl) ?_
  unfold State.parkOn State.addCtx
  dsimp only
  rw [State.onEng_sch, State.onSch_sch]
  split <;> rfl

/-- A page of the range that is resolved at the admission of an ACCUMULATE keeps the request waiting, its record set. -/
theorem holdsAcc_bwdPage {idx cls : Nat} (hn : (bwdNames f p)[idx]? = some n) (k : s.HoldsAcc r slice f (AccWaits h slice f p)) :
    (s.bwdPage r idx slice cls p n).HoldsAcc r slice f (AccWaits h slice f p) := by
  have record {t : State} {w : PageWait} {G : List Staging → List Staging} (hw : bwdExcluded f p n = true → w = .done .ok)
      (k : t.HoldsAcc r slice f (AccWaits h slice f p)) :
      (t.onBwd r (fun l => l.set idx w) G).HoldsAcc r slice f (AccWaits h slice f p) :=
    holdsAcc_onBwd (fun _ hp => accPages_set hp hn hw) k
  have hclosed {m : Nat} := holdsAcc_closed (m := m) (r := r) (slice := slice) (f := f) (R := AccWaits h slice f p)
  unfold State.bwdPage
  rw [k.2.1]
  dsimp only
  split
  · exact record (fun _ => rfl) k
  · next hincluded =>
    have record {t : State} {w : PageWait} {G : List Staging → List Staging} (k : t.HoldsAcc r slice f (AccWaits h slice f p)) :=
      record (G := G) (w := w) (fun hx => absurd hx hincluded) k
    split
    · have hres : ((s.countLookahead slice n).resolve slice n).2.HoldsAcc r slice f (AccWaits h slice f p) :=
        State.resolve_keeps (hclosed rfl rfl rfl rfl) (State.countLookahead_keeps (hclosed rfl rfl rfl rfl) k)
      split
      · exact record hres
      · exact (hclosed (m := 262144) rfl rfl rfl rfl).free rfl _ (State.touchFrame_keeps (hclosed rfl rfl rfl rfl) (record hres))
      · exact State.awaitPage_tame tameFate_holdsAcc (record (holdsAcc_parkOn hres))
    · exact record k

/-- Every page of the range is resolved, and the request waits (R158). -/
theorem holdsAcc_runAcc {prev : Bool} (hok : s.ReqsOk) :
    (s.runAcc h p prev c).HoldsAcc s.nextReq c.slice (s.format c.slice) (AccWaits h c.slice (s.format c.slice) p) := by
  unfold State.runAcc
  dsimp only
  refine State.updateStream_keeps (holdsAcc_closed rfl rfl rfl rfl) ?_
  refine List.foldlRecOn (motive := State.HoldsAcc s.nextReq c.slice (s.format c.slice) (AccWaits h c.slice (s.format c.slice) p)) _ _ ?_
    fun _ k x hx => holdsAcc_bwdPage (List.mem_zipIdx_iff_getElem?.mp hx) k
  refine ⟨State.addReq_keeps (reqsOk_closed _) hok, format_congr addReq_accs.2, _, addReq_frame.1, ⟨_, _, _, rfl⟩, rfl, rfl, rfl, _, _, rfl,
    accPages_start⟩

/-- An ACCUMULATE that is admitted waits with its header, its slice and a record for each page. -/
theorem accumulate_waits {s2 : State} (hok : s.ReqsOk) (e : admission h (.attendBwdAccumulate h p) (accSpec h p s) s.settle = some (c, s2)) :
    let f := s2.format c.slice
    let t := s.settle.extended h (.attendBwdAccumulate h p) (accSpec h p s)
      (fun c s => s.runAcc h p (s.onPrevious c.slice h.mapGen 0 p.handle true) c)
    ∃ (q : Req) (pages : List PageWait) (st : List Staging), t.reqs.get? s2.nextReq = some q ∧ q.hdr = h ∧ q.op = 1 ∧
      q.slice = c.slice ∧ q.kind = .bwd p pages st ∧ pages.length = (bwdNames f p).length ∧
      ∀ (i : Nat) (n : PageName), (bwdNames f p)[i]? = some n → bwdExcluded f p n = true → pages[i]? = some (PageWait.done .ok) := by
  intro f t
  have ht : t = s2.runAcc h p (s2.onPrevious c.slice h.mapGen 0 p.handle true) c := extended_of_admit e
  have hok : s2.ReqsOk := admit_keeps (reqsOk_closed _) (State.settle_keeps (reqsOk_closed _) hok) e
  obtain ⟨-, -, q, hq, -, hhdr, hop, hsl, pages, st, hk, hlen, hexcl⟩ :=
    holdsAcc_runAcc (h := h) (p := p) (c := c) (prev := s2.onPrevious c.slice h.mapGen 0 p.handle true) hok
  exact ⟨q, pages, st, ht ▸ hq, hhdr, hop, hsl, hk, hlen, hexcl⟩

end Sys2Proof.Machine
end

section
/-! SUPPORT. OPEN (R155, R156, R157): what the opening of one page leaves, and the answer for the pages of a range. -/

namespace Sys2Proof.Machine

variable {s t : State} {slice pass : Nat} {n : PageName} {h : ExtHdr} {p : BwdParams} {c : Ctx}

/-- The state that a resolution leaves, the fill of a page that is away started (R157, log entry 80). -/
def foundOf (slice : Nat) (n : PageName) (x : Resolved × State) : State :=
  match x.1 with
  | .await _ => x.2.awaitPage slice n 1
  | _ => x.2

/-- The state once a page to be opened is resolved. -/
def State.found (slice : Nat) (n : PageName) (s : State) : State := foundOf slice n (s.resolve slice n)

theorem accNames_found : (s.found slice n).home.accNames = s.home.accNames := by
  have hres : (s.resolve slice n).2.home.accNames = s.home.accNames := State.resolve_tame (tame_accNames _) rfl
  unfold State.found foundOf
  split
  · exact State.awaitPage_tame (tameFate_accNames _) hres
  · exact hres

/-- No resolution gives OK as a page's code. -/
theorem resolve_code_ne_ok {x : Code} (k : (s.resolve slice n).1 = .code x) : x ≠ .ok := by
  unfold State.resolve at k
  dsimp only at k
  repeat' split at k
  all_goals cases k <;> exact nofun

/-- An accumulator that is allocated: its parts are zeroed, it joins the list, and its header is stored (R155). -/
def State.addAcc (a : Accumulator) (s : State) : State :=
  ((a.parts.foldl (fun s p => s.zeroGranules (p.1, p.2.1) p.2.2) s).onHome (fun h => { h with accs := h.accs ++ [a] })).writeAccHeader a

/-- A page that is opened and had no accumulator has parts allocated to a new one, bound to the generation of its frame. -/
theorem openPage_creates (e : s.openPage slice pass n = some (.ok, t)) (hnone : s.accOf slice n = none) :
    ∃ (x : Entry) (sts : List Nat) (parts : List (Nat × Nat × Nat)) (u : State), (s.found slice n).entry slice n = some x ∧
      (s.found slice n).allocParts slice sts (accParts (accGranules (s.format slice))) = some (parts, u) ∧
      t = u.addAcc { slice := slice, name := n, pass := pass, frameGen := x.frameGen, parts := parts } := by
  unfold State.openPage at e
  extract_lets f at e
  split at e
  · next hsome => exact absurd hsome (by rw [hnone]; exact Bool.false_ne_true)
  · split at e
    next res u hr =>
    extract_lets v at e
    have hv : s.found slice n = v := congrArg (foundOf slice n) hr
    rw [hv]
    clear_value v
    split at e
    · next x =>
      cases e
      exact absurd rfl (resolve_code_ne_ok (congrArg Prod.fst hr))
    · split at e
      · cases e
      · next x hx =>
        extract_lets sts at e
        split at e
        · cases e
        split at e
        · cases e
        split at e
        · cases e
        next parts w hw =>
          obtain ⟨-, ht⟩ := Prod.mk.inj (Option.some.inj e)
          refine ⟨x, sts, parts, w, hx, hw, ?_⟩
          unfold State.addAcc
          exact ht.symm

theorem home_addAcc {a : Accumulator} : (s.addAcc a).home = { s.home with accs := s.home.accs ++ [a] } := by
  unfold State.addAcc State.writeAccHeader
  refine (State.memWriteN_keeps (home_closed _ rfl rfl) rfl).trans ?_
  rw [State.onHome_home]
  exact congrArg (fun h : Home => { h with accs := h.accs ++ [a] })
    (keep_foldl (P := fun t => t.home = s.home) (fun _ _ k => State.zeroGranules_keeps (home_closed _ rfl rfl) k) rfl)

/-- A page that is opened and had no accumulator has one of the pass, with no tags and no updates, bound to its generation. -/
theorem openPage_binds (e : s.openPage slice pass n = some (.ok, t)) (hnone : s.accOf slice n = none) :
    ∃ a x, t.accOf slice n = some a ∧ a.pass = pass ∧ a.tags = [] ∧ a.updates = 0 ∧ t.entry slice n = some x ∧ a.frameGen = x.frameGen := by
  obtain ⟨x, sts, parts, u, hx, hu, ht⟩ := openPage_creates e hnone
  have hhome : u.home = (s.found slice n).home := State.allocParts_some (home_closed _ rfl rfl) rfl hu
  have hfree : u.accOf slice n = none := by
    rw [accOf_eq_none_iff_names, hhome, accNames_found, ← accOf_eq_none_iff_names]
    exact hnone
  refine ⟨{ slice := slice, name := n, pass := pass, frameGen := x.frameGen, parts := parts }, x, ?_, rfl, rfl, rfl, ?_, rfl⟩
  · unfold State.accOf at hfree ⊢
    rw [ht, home_addAcc, List.find?_append, hfree]
    simp [Accumulator.is]
  · rw [← hx]
    refine entry_congr ?_
    rw [ht, home_addAcc, hhome]

theorem openAll_length {l : List PageName} {codes : List Code} (e : s.openAll slice pass l = some (codes, t)) : codes.length = l.length := by
  induction l generalizing s codes with
  | nil =>
    cases e
    rfl
  | cons n l ih =>
    unfold State.openAll at e
    split at e
    · cases e
    · obtain ⟨⟨codes', u⟩, hu, hr⟩ := Option.map_eq_some_iff.mp e
      cases hr
      exact congrArg (· + 1) (ih hu)

/-- An OPEN that is admitted answers with the codes that opening its pages gives. -/
theorem open_answers {s2 s3 : State} {codes : List Code} (e : admission h (.attendBwdOpen h p) (openSpec h p s) s.settle = some (c, s2))
    (ho : s2.openAll c.slice p.accPass (bwdNames (s2.format c.slice) p) = some (codes, s3)) :
    let t := s.settle.extended h (.attendBwdOpen h p) (openSpec h p s) (fun c s => s.runOpen h p c)
    lastResponse t h.pkt.qpn = some (1, 0, rangeCode codes, bwdReply codes) ∧
      codes.length = (bwdNames (s2.format c.slice) p).length ∧ t.home = s3.home ∧ t.mem = s3.mem := by
  intro t
  have ht : t = s3.respond h 1 0 (rangeCode codes) 0 (bwdReply codes) := by
    refine (extended_of_admit e).trans ?_
    unfold State.runOpen
    rw [ho]
  rw [ht]
  refine ⟨respond_last (State.openAll_some (rts_closed _ rfl rfl) (admit_inRts e) ho), openAll_length ho, ?_, ?_⟩
  · exact respond_frame (home_closed s3.home rfl rfl) rfl
  · exact respond_frame (mem_closed s3.mem rfl rfl rfl) rfl

end Sys2Proof.Machine
end

section
/-! The statement on OPEN and ACCUMULATE. -/

open Sys2Proof Sys2Proof.Machine

/-- Settles O13: neither the resolution of a page nor the wait for it makes an accumulator, so the one found after OPEN is new; a page lost
on the way ends PINs and acquires, never the ACCUMULATE that is being admitted. -/
theorem attendBwdOpensAndStages : Obligations.AttendBwdOpensAndStages := by
  unfold Obligations.AttendBwdOpensAndStages
  refine ⟨⟨fun h p s s2 s3 c codes hrun e ho => ?_, fun s t slice pass n e hnone => openPage_binds e hnone⟩,
    fun h p s s2 c hrun hok e => ?_⟩
  · exact ⟨_, congrArg Host.Outcome.next (whenUp_running hrun), open_answers e ho⟩
  · exact ⟨_, congrArg Host.Outcome.next (whenUp_running hrun), accumulate_waits hok e⟩

end

section
/-! SUPPORT. The tallies of the directory of prefixes (R192, R194): the hits, misses, collisions and evictions counted so far. A search
with its parity checks, a change of a node and an entry that moves on die change none of them; an eviction counts itself alone. -/

namespace Sys2Proof.Machine

/-- The blocks hit, the lookups missed, the collisions and the evictions that the directory has counted. -/
def Locus.tally (l : Locus) : Nat × Nat × Nat × Nat := (l.hits, l.misses, l.collisions, l.evictions)

variable {s : State} {a : Nat} {n : PfxNode} {l : LocusCfg}

theorem tally_eq_iff {x y : Locus} : x.tally = y.tally ↔
    x.hits = y.hits ∧ x.misses = y.misses ∧ x.collisions = y.collisions ∧ x.evictions = y.evictions := by
  simp only [Locus.tally, Prod.mk.injEq]

theorem evictions_of_tally {x y : Locus} (h : x.tally = y.tally) : x.evictions = y.evictions := congrArg (fun z => z.2.2.2) h

@[simp] theorem tally_eraseNode : (s.onLocus (fun x => { x with nodes := x.nodes.erase a })).locus.tally = s.locus.tally := rfl

@[simp] theorem tally_dropOvf {p : OvfEntry → Bool} : (s.onLocus (fun x => { x with ovf := x.ovf.filter p })).locus.tally = s.locus.tally := rfl

@[simp] theorem tally_onMem {f : Mem → Mem} : (s.onMem f).locus.tally = s.locus.tally := rfl

theorem evictions_count : (s.onLocus (fun x => { x with evictions := inc32 x.evictions })).locus.evictions = inc32 s.locus.evictions := rfl

/-- Parts other than the directory say nothing of its tallies. -/
theorem closed_tally {m : Nat} {x : Nat × Nat × Nat × Nat} (hl : m.testBit 12 = false) (hd : m.testBit 20 = false) :
    Closed m (fun t => t.locus.tally = x) :=
  .of_view (fun y => locus_closed y hl hd) (fun y => y.tally = x)

theorem tally_foldl {α : Type} {k : List α} {f : State → α → State} (hf : ∀ t x, (f t x).locus.tally = t.locus.tally) :
    (k.foldl f s).locus.tally = s.locus.tally :=
  keep_foldl (P := fun t => t.locus.tally = s.locus.tally) (fun t x h => (hf t x).trans h) rfl

theorem tally_foldl_snd {α γ : Type} {k : List α} {f : γ × State → α → γ × State} {r : γ × State}
    (hf : ∀ y t x, (f (y, t) x).2.locus.tally = t.locus.tally) : (k.foldl f r).2.locus.tally = r.2.locus.tally :=
  keep_foldl_snd (P := fun t => t.locus.tally = r.2.locus.tally) (fun y t x h => (hf y t x).trans h) rfl

/-! ## Nodes -/

@[simp] theorem tally_memWriteN {b : List Byte} : (s.memWriteN a b).locus.tally = s.locus.tally :=
  State.memWriteN_keeps (closed_tally rfl rfl) rfl

@[simp] theorem tally_clearMark : s.clearMark.locus.tally = s.locus.tally := State.clearMark_keeps (closed_tally rfl rfl) rfl

@[simp] theorem tally_onNode {f : PfxNode → PfxNode} : (s.onNode a f).locus.tally = s.locus.tally := by
  unfold State.onNode
  split
  · rfl
  · exact tally_memWriteN

@[simp] theorem tally_orphans {gone : List PfxNode} : (s.orphans gone).locus.tally = s.locus.tally := by
  refine tally_foldl_snd fun k t c => ?_
  dsimp only
  split
  · exact tally_onNode
  · rfl

/-- What follows the removal of a node from the table touches the memory, the retire list and the home. -/
@[simp] theorem tally_freeNode : (s.freeNode n).locus.tally = s.locus.tally := by
  unfold State.freeNode
  dsimp only
  refine State.unadopt_keeps (closed_tally rfl rfl) (State.retire_keeps (closed_tally rfl rfl) ?_)
  split
  · rw [tally_eraseNode, tally_memWriteN]
  · rw [tally_onMem, tally_clearMark, tally_eraseNode, tally_memWriteN]

@[simp] theorem tally_unlinkNode : (s.unlinkNode n).locus.tally = s.locus.tally := rfl

/-- An eviction of a held node is counted, and nothing that it does besides counts one more. -/
theorem evictions_evict (h : s.locus.nodes.get? a = some n) : (s.evict a).locus.evictions = inc32 s.locus.evictions := by
  have hlinks (k : List PfxNode) : (k.foldl (fun t x => t.onNode x.addr id) (s.unlinkNode n)).locus.tally = s.locus.tally :=
    tally_foldl fun _ _ => tally_onNode
  have htally (t : State) (k : t.locus.tally = s.locus.tally) : (t.freeNode n).locus.evictions = s.locus.evictions :=
    evictions_of_tally (tally_freeNode.trans k)
  unfold State.evict
  rw [h]
  dsimp only
  rw [evictions_count, htally _ ?_]
  split
  · exact tally_onNode.trans (hlinks _)
  · exact hlinks _

/-! ## Entries -/

@[simp] theorem tally_putEntry {e : LEntry} : (s.putEntry l a e).locus.tally = s.locus.tally := rfl
@[simp] theorem tally_dropEntryAt : (s.dropEntryAt l a).locus.tally = s.locus.tally := rfl

/-- Entries that move by one place to make room. -/
theorem tally_shift {α : Type} {k : List α} {pick : α → Option (Nat × LEntry)} {r : Nat × State} :
    (k.foldl (fun (r : Nat × State) v => match pick v with
      | some y => (y.1, (r.2.putEntry l r.1 y.2).dropEntryAt l y.1)
      | none => r) r).2.locus.tally = r.2.locus.tally := by
  refine tally_foldl_snd fun b t v => ?_
  dsimp only
  split <;> rfl

theorem tally_insertDie {e : LEntry} {t : State} (h : s.insertDie l e = some t) : t.locus.tally = s.locus.tally := by
  unfold State.insertDie at h
  dsimp only at h
  split at h
  · cases h
    rfl
  · split at h
    · cases h
    · cases h
      exact tally_shift
    · cases h
      exact tally_shift
    · split at h
      · cases h
        exact tally_shift
      · cases h
        exact tally_shift

@[simp] theorem tally_promote {slice : Nat} {o : OvfEntry} : (s.promote slice o).locus.tally = s.locus.tally := by
  unfold State.promote
  split
  · next h => exact tally_dropOvf.trans (tally_insertDie h)
  · rfl

/-! ## Parity errors (R195) -/

@[simp] theorem tally_markParity {slots : List Nat} : (s.markParity slots).locus.tally = s.locus.tally := by
  unfold State.markParity
  split <;> rfl

@[simp] theorem tally_groupParity {b g : Nat} : (s.groupParity b g).locus.tally = s.locus.tally := by
  unfold State.groupParity
  dsimp only
  split
  · rfl
  · split <;> rfl

@[simp] theorem tally_parityError {e : LEntry} : (s.parityError l a e).locus.tally = s.locus.tally := by
  unfold State.parityError
  dsimp only
  rw [tally_groupParity, tally_orphans, tally_foldl fun t n => ?_, tally_dropEntryAt]
  · exact State.logDetection_keeps (closed_tally rfl rfl) (State.logEvent_keeps (closed_tally rfl rfl) rfl)
  · split
    · exact tally_freeNode.trans tally_onNode
    · exact tally_freeNode

@[simp] theorem tally_searchParity {slice key key2 tenant epoch16 fuel : Nat} :
    (State.searchParity slice key key2 tenant epoch16 fuel s).2.locus.tally = s.locus.tally := by
  induction fuel generalizing s with
  | zero => rfl
  | succ fuel ih =>
    unfold State.searchParity
    split
    · split
      · exact ih.trans tally_parityError
      · rfl
    · rfl

end Sys2Proof.Machine
end

section
/-! SUPPORT. LOOKUP (R184 to R186, R194): one block verified, the chain of blocks matched, and the answer with its counts. -/

namespace Sys2Proof.Machine

variable {s : State} {slice tenant epoch i prev : Nat} {tokens : List (List Nat)}

/-! ## The chain of matched blocks -/

/-- A node serves the block at a depth: valid, of the model epoch and the tokens asked, a child of the key before (R185). -/
structure Serves (epoch depth prev : Nat) (tokens : Option (List Nat)) (n : PfxNode) : Prop where
  valid : n.valid = true
  depth : n.depth = depth
  epoch : n.modelEpoch = epoch
  tokens : ∀ w, tokens = some w → n.tokens = w
  parent : n.parentKey = prev

/-- A verified block is served by the node that verification finds. -/
theorem serves_of_verifyBlock {depth fuel a : Nat} {w : Option (List Nat)} {n : PfxNode}
    (h : s.verifyBlock epoch depth prev w fuel a = .hit n) : Serves epoch depth prev w n := by
  induction fuel generalizing a with
  | zero => cases h
  | succ fuel ih =>
    unfold State.verifyBlock at h
    split at h
    · cases h
    · split at h
      · cases h
      · next m _ =>
        obtain ⟨-, h⟩ | ⟨hchecks, h⟩ := ite_eq_iff.mp h
        · cases h
        · split at h
          · next hepoch =>
            cases h
            simp only [Bool.not_eq_true', Bool.not_eq_false, Bool.and_eq_true, decide_eq_true_eq] at hchecks
            obtain ⟨⟨⟨hvalid, hdepth⟩, hparent⟩, htokens⟩ := hchecks
            refine ⟨hvalid, hdepth, hepoch, fun t ht => ?_, hparent⟩
            subst ht
            exact of_decide_eq_true htokens
          · exact ih h

variable (s slice tenant epoch i prev tokens) in
/-- What matching from a block on comes to: nothing more with at most one collision, or the block's node and then the rest. -/
theorem matchBlocks_cons (k : Nat × Nat) (ks : List (Nat × Nat)) :
    (∃ coll t, coll ≤ 1 ∧ t.locus.tally = s.locus.tally ∧
      State.matchBlocks slice tenant epoch tokens i prev (k :: ks) s = ([], coll, t)) ∨
    ∃ n t, Serves epoch i prev tokens[i]? n ∧ t.locus.tally = s.locus.tally ∧
      State.matchBlocks slice tenant epoch tokens i prev (k :: ks) s =
        (n :: (State.matchBlocks slice tenant epoch tokens (i + 1) k.1 ks t).1,
          (State.matchBlocks slice tenant epoch tokens (i + 1) k.1 ks t).2) := by
  have hsearch := tally_searchParity (s := s) (slice := slice) (key := k.1) (key2 := k.2) (tenant := tenant) (epoch16 := epoch % 65536)
    (fuel := s.locus.entries.length + 1)
  rw [State.matchBlocks]
  generalize State.searchParity slice k.1 k.2 tenant (epoch % 65536) (s.locus.entries.length + 1) s = r at hsearch ⊢
  obtain ⟨_ | f, t⟩ := r
  · exact .inl ⟨0, _, Nat.zero_le _, hsearch, rfl⟩
  · dsimp only
    split
    · exact .inl ⟨0, _, Nat.zero_le _, hsearch, rfl⟩
    · exact .inl ⟨1, _, Nat.le_refl _, hsearch, rfl⟩
    · next n hn =>
      refine .inr ⟨n, _, serves_of_verifyBlock hn, ?_, rfl⟩
      split
      · exact tally_promote.trans (tally_onNode.trans hsearch)
      · exact tally_onNode.trans hsearch

@[simp] theorem tally_matchBlocks {keys : List (Nat × Nat)} :
    (State.matchBlocks slice tenant epoch tokens i prev keys s).2.2.locus.tally = s.locus.tally := by
  induction keys generalizing i prev s with
  | nil => rfl
  | cons k ks ih =>
    obtain ⟨coll, t, -, ht, h⟩ | ⟨n, t, -, ht, h⟩ := matchBlocks_cons s slice tenant epoch i prev tokens k ks
    · rw [h]
      exact ht
    · rw [h]
      exact ih.trans ht

/-- Blocks are matched one for a key; the block of a collision is none of them. -/
theorem matchBlocks_length {keys : List (Nat × Nat)} :
    let r := State.matchBlocks slice tenant epoch tokens i prev keys s
    r.2.1 ≤ 1 ∧ r.1.length + r.2.1 ≤ keys.length := by
  induction keys generalizing i prev s with
  | nil => exact ⟨Nat.zero_le _, Nat.le_refl _⟩
  | cons k ks ih =>
    obtain ⟨coll, t, hcoll, -, h⟩ | ⟨n, t, -, -, h⟩ := matchBlocks_cons s slice tenant epoch i prev tokens k ks
    · rw [h]
      refine ⟨hcoll, ?_⟩
      simp only [List.length_nil, List.length_cons]
      omega
    · obtain ⟨hone, hlen⟩ := ih (i := i + 1) (prev := k.1) (s := t)
      rw [h]
      refine ⟨hone, ?_⟩
      simp only [List.length_cons]
      omega

/-- The key before the block at a position: of the first the one given, of any other that of the block before it. -/
def keyBefore (prev : Nat) (keys : List (Nat × Nat)) (j : Nat) : Nat := if j = 0 then prev else (keys.getD (j - 1) (0, 0)).1

theorem keyBefore_cons {k : Nat × Nat} {ks : List (Nat × Nat)} {j : Nat} : keyBefore prev (k :: ks) (j + 1) = keyBefore k.1 ks j := by
  cases j <;> rfl

theorem keyBefore_of_getElem? {keys : List (Nat × Nat)} {j : Nat} {k : Nat × Nat} (hj : 0 < j) (h : keys[j - 1]? = some k) :
    keyBefore prev keys j = k.1 := by
  rw [keyBefore, if_neg (Nat.ne_of_gt hj), List.getD_eq_getElem?_getD, h]
  rfl

/-- Every matched node serves its block, as the child of the block before. -/
theorem serves_of_matchBlocks {keys : List (Nat × Nat)} {j : Nat} {n : PfxNode}
    (h : (State.matchBlocks slice tenant epoch tokens i prev keys s).1[j]? = some n) :
    Serves epoch (i + j) (keyBefore prev keys j) tokens[i + j]? n := by
  induction keys generalizing i prev s j with
  | nil => cases h
  | cons k ks ih =>
    obtain ⟨coll, t, -, -, he⟩ | ⟨m, t, hm, -, he⟩ := matchBlocks_cons s slice tenant epoch i prev tokens k ks
    · rw [he] at h
      cases h
    · rw [he] at h
      cases j with
      | zero =>
        cases h
        exact hm
      | succ j =>
        rw [keyBefore_cons, ← Nat.succ_add_eq_add_succ]
        exact ih h

/-! ## The answer -/

/-- What a LOOKUP counts: the blocks matched, itself where not all are, and its collision (R194). -/
def countLookup (p : LookupParams) (m coll : Nat) (x : Locus) : Locus :=
  { x with
    hits := satAdd max32 x.hits m
    misses := if m < p.nBlocks then inc32 x.misses else x.misses
    collisions := satAdd max32 x.collisions coll }

theorem pfx_markParity {slots : List Nat} : (s.markParity slots).pfx slice = s.pfx slice := by
  unfold State.markParity
  split <;> rfl

theorem tenantOf_markParity {slots : List Nat} {c : Ctx} : (s.markParity slots).tenantOf c = s.tenantOf c := by
  unfold State.markParity
  split <;> rfl

/-- A reference that a LOOKUP takes holds its last node for a while (R185). -/
def State.lookupRef (p : LookupParams) (l : LocusCfg) (ns : List PfxNode) (s : State) : State :=
  match ns.getLast? with
  | some n => if p.takeRef = 1 then s.onNode n.addr (fun x =>
      { x with softUntil := max x.softUntil (s.now + l.refTtl * 1000000) }) else s
  | none => s

theorem tally_lookupRef {p : LookupParams} {l : LocusCfg} {ns : List PfxNode} : (s.lookupRef p l ns).locus.tally = s.locus.tally := by
  unfold State.lookupRef
  split
  · split
    · exact tally_onNode
    · rfl
  · rfl

/-- A LOOKUP that is admitted answers how far its chain matches, and counts it. -/
theorem runLookup_answers {h : ExtHdr} {p : LookupParams} {c : Ctx} (hrts : s.inRts h.pkt.qpn) :
    let keys := lookupKeys (s.pfx c.slice) p
    let r := State.matchBlocks c.slice (s.tenantOf c) p.modelEpoch p.tokens 0 0 keys (s.markParity p.faulty)
    let m := r.1.length
    let t := s.runLookup h p c
    (∃ runs, lastResponse t h.pkt.qpn = some (2, 0, if m = p.nBlocks then .ok else if m = 0 then .miss else .part,
      .lookup m r.2.1 (if m = 0 then (0, 0) else keys.getD (m - 1) (0, 0)).1
        (if (s.pfx c.slice).wide = 1 then some (if m = 0 then (0, 0) else keys.getD (m - 1) (0, 0)).2 else none) runs) ∧
      runs = (runsOf 0 r.1).map (runRecord (p.keySource = 2))) ∧
    t.locus.hits = satAdd max32 s.locus.hits m ∧
    t.locus.misses = (if m < p.nBlocks then inc32 s.locus.misses else s.locus.misses) ∧
    t.locus.collisions = satAdd max32 s.locus.collisions r.2.1 := by
  intro keys r m t
  have hr : (r.2.2.lookupRef p (s.pfx c.slice) r.1).locus.tally = s.locus.tally :=
    tally_lookupRef.trans (tally_matchBlocks.trans tally_markParity)
  have hrts : (r.2.2.lookupRef p (s.pfx c.slice) r.1).inRts h.pkt.qpn := by
    have hmatched : r.2.2.inRts h.pkt.qpn :=
      State.matchBlocks_keeps (rts_closed _ rfl rfl) (State.markParity_keeps (rts_closed _ rfl rfl) hrts)
    unfold State.lookupRef
    split
    · split
      · exact State.onNode_keeps (rts_closed _ rfl rfl) hmatched
      · exact hmatched
    · exact hmatched
  have ht : t = ((r.2.2.lookupRef p (s.pfx c.slice) r.1).onLocus (countLookup p m r.2.1)).respond h 2 0
      (if m = p.nBlocks then .ok else if m = 0 then .miss else .part) 0
      (.lookup m r.2.1 (if m = 0 then (0, 0) else keys.getD (m - 1) (0, 0)).1
        (if (s.pfx c.slice).wide = 1 then some (if m = 0 then (0, 0) else keys.getD (m - 1) (0, 0)).2 else none)
        ((runsOf 0 r.1).map (runRecord (p.keySource = 2)))) := by
    subst t
    simp only [State.runLookup, pfx_markParity, tenantOf_markParity]
    rfl
  have hlocus : t.locus = countLookup p m r.2.1 (r.2.2.lookupRef p (s.pfx c.slice) r.1).locus := by
    rw [ht]
    exact respond_frame (locus_closed _ rfl rfl) rfl
  obtain ⟨hhits, hmisses, hcollisions, -⟩ := tally_eq_iff.mp hr
  rw [hlocus, ← hhits, ← hmisses, ← hcollisions]
  refine ⟨⟨_, ?_, rfl⟩, rfl, rfl, rfl⟩
  rw [ht]
  exact respond_last hrts

end Sys2Proof.Machine
end

section
/-! The statement on LOOKUP. -/

open Sys2Proof Sys2Proof.Machine

/-- Settles O23: searches, references and entries that move on die leave the counts, so a LOOKUP adds what it matched; each matched node
was verified as the child of the key before it. -/
theorem lookupMatchesChain : Obligations.LookupMatchesChain := by
  unfold Obligations.LookupMatchesChain
  refine ⟨fun h p s s2 c hrun e => ?_, fun slice tenant epoch i prev tokens keys s => ?_⟩
  · exact ⟨_, congrArg Host.Outcome.next ((whenUp_running hrun).trans (extended_of_admit e)), runLookup_answers (admit_inRts e)⟩
  · intro r
    obtain ⟨hone, hlen⟩ := matchBlocks_length (s := s) (slice := slice) (tenant := tenant) (epoch := epoch) (i := i) (prev := prev)
      (tokens := tokens) (keys := keys)
    refine ⟨Nat.le_of_add_right_le hlen, hone, hlen, fun j n hn => ?_⟩
    obtain ⟨hvalid, hdepth, hepoch, htokens, hparent⟩ := serves_of_matchBlocks hn
    refine ⟨hvalid, hdepth, hepoch, htokens, fun hj => ?_, fun k hj hk => ?_⟩
    · rw [hparent, keyBefore, if_pos hj]
    · rw [hparent, keyBefore_of_getElem? hj hk]

end

section
/-! SUPPORT. PUBLISH_PREFIX, PREFIX_RELEASE and the sweep of idle prefixes (R188 to R192). -/

namespace Sys2Proof.Machine

variable {s : State} {h : ExtHdr} {c : Ctx}

/-! ## Publishing (R188 to R190) -/

/-- A publish whose blocks all find their place has a record for each. -/
theorem pfxBlocks_length {p : PfxParams} {keep : List Nat} {d prev : Nat} {par : Option PfxNode} {l : List ((Nat × Nat) × PfxBlock)}
    {rs : List (Bool × Nat)} {t : State} (e : State.pfxBlocks p c keep d par prev l s = some (rs, t)) : rs.length = l.length := by
  induction l generalizing keep d par prev s rs with
  | nil =>
    cases e
    rfl
  | cons x l ih =>
    obtain ⟨k, b⟩ := x
    unfold State.pfxBlocks at e
    split at e
    · cases e
    · obtain ⟨⟨rs', u⟩, hu, hr⟩ := Option.map_eq_some_iff.mp e
      cases hr
      exact congrArg (· + 1) (ih hu)

/-- A publish with a page or a parent missing answers MISS, and changes no more than its searches did. -/
theorem runPfx_misses {p : PfxParams} (hrts : s.inRts h.pkt.qpn) (hmiss : (s.pfxScrub p c).pfxMiss p c = true) :
    lastResponse (s.runPfx h p c) h.pkt.qpn = some (3, 1, .miss, .none) ∧
      (s.runPfx h p c).locus = (s.pfxScrub p c).locus ∧ (s.runPfx h p c).home = (s.pfxScrub p c).home := by
  have ht : s.runPfx h p c = (s.pfxScrub p c).respond h 3 1 .miss 0 .none := if_pos hmiss
  rw [ht]
  exact ⟨respond_last (State.pfxScrub_keeps (rts_closed _ rfl rfl) hrts), respond_frame (locus_closed _ rfl rfl) rfl,
    respond_frame (home_closed _ rfl rfl) rfl⟩

/-- Any other publish answers a record for each block, and leaves what inserting its blocks leaves. -/
theorem runPfx_publishes {p : PfxParams} {rs : List (Bool × Nat)} {t : State} (hrts : s.inRts h.pkt.qpn)
    (hhit : (s.pfxScrub p c).pfxMiss p c = false) (hall : (s.pfxScrub p c).pfxAll p c = some (rs, t)) :
    lastResponse (s.runPfx h p c) h.pkt.qpn =
        some (3, 1, .ok, .publish (rs.map (fun r => beBytes 1 (b2n r.1) ++ beBytes 7 0 ++ beBytes 8 r.2))) ∧
      rs.length = min ((s.pfxScrub p c).pfxKeys p c).length p.blocks.length ∧
      (s.runPfx h p c).locus = t.locus ∧ (s.runPfx h p c).home = t.home ∧ (s.runPfx h p c).mem = t.mem := by
  have ht : s.runPfx h p c = t.respond h 3 1 .ok 0
      (.publish (rs.map (fun r => beBytes 1 (b2n r.1) ++ beBytes 7 0 ++ beBytes 8 r.2))) := by
    unfold State.runPfx
    dsimp only
    rw [hhit, if_neg Bool.false_ne_true, hall]
  have hrts : t.inRts h.pkt.qpn :=
    State.pfxAll_some (rts_closed _ rfl rfl) (State.pfxScrub_keeps (rts_closed _ rfl rfl) hrts) hall
  rw [ht]
  exact ⟨respond_last hrts, (pfxBlocks_length hall).trans List.length_zip, respond_frame (locus_closed _ rfl rfl) rfl,
    respond_frame (home_closed _ rfl rfl) rfl, respond_frame (mem_closed _ rfl rfl rfl) rfl⟩

/-! ## Release (R191) -/

/-- One key of a release: the count so far, and one more where a reference was removed. -/
def releaseStep (p : PfxRelease) (c : Ctx) (x : Nat × State) (k : Nat × Nat) : Nat × State :=
  (x.1 + b2n (x.2.releaseOne p c k).1, (x.2.releaseOne p c k).2)

/-- The keys of a release one after another. -/
def State.releaseKeys (p : PfxRelease) (c : Ctx) (s : State) : Nat × State := p.keys.foldl (releaseStep p c) (0, s)

variable {p : PfxRelease} {k : Nat × Nat}

theorem b2n_le_one (b : Bool) : b2n b ≤ 1 := by cases b <;> decide

theorem runPfxRelease_eq : s.runPfxRelease h p c = (s.releaseKeys p c).2.respond h 3 1 .ok 0 (.released (s.releaseKeys p c).1) := rfl

theorem releaseOne_of_none (hk : s.releaseNode p c k = none) : s.releaseOne p c k = (false, s) := by
  unfold State.releaseOne
  rw [hk]

theorem releaseOne_of_some {n : PfxNode} (hk : s.releaseNode p c k = some n) : (s.releaseOne p c k).1 = !decide (n.hardRefs = 0) := by
  unfold State.releaseOne
  rw [hk]
  dsimp only
  split
  · next h0 => rw [decide_eq_true h0]; rfl
  · next h0 => rw [decide_eq_false h0]; rfl

theorem releaseSteps_count {l : List (Nat × Nat)} {x : Nat × State} : (l.foldl (releaseStep p c) x).1 ≤ x.1 + l.length := by
  induction l generalizing x with
  | nil => exact Nat.le_refl _
  | cons k l ih =>
    have hstep : (releaseStep p c x k).1 ≤ x.1 + 1 := Nat.add_le_add_left (b2n_le_one _) _
    rw [List.foldl_cons, List.length_cons]
    exact ih.trans (by omega)

/-- Keys that name no held node release nothing. -/
theorem releaseKeys_of_none (hnone : ∀ k ∈ p.keys, s.releaseNode p c k = none) : s.releaseKeys p c = (0, s) := by
  have hsteps : ∀ l : List (Nat × Nat), (∀ k ∈ l, s.releaseNode p c k = none) → l.foldl (releaseStep p c) (0, s) = (0, s) := by
    intro l hl
    induction l with
    | nil => rfl
    | cons k l ih =>
      obtain ⟨hk, hl⟩ := List.forall_mem_cons.mp hl
      rw [List.foldl_cons, releaseStep, releaseOne_of_none hk]
      exact ih hl
  exact hsteps p.keys hnone

/-- A single key releases one reference of the node that it names, if that has any. -/
theorem releaseKeys_of_single {n : PfxNode} (hkeys : p.keys = [k]) (hk : s.releaseNode p c k = some n) :
    (s.releaseKeys p c).1 = if n.hardRefs = 0 then 0 else 1 := by
  unfold State.releaseKeys
  rw [hkeys, List.foldl_cons, List.foldl_nil, releaseStep, releaseOne_of_some hk]
  by_cases h0 : n.hardRefs = 0
  · rw [decide_eq_true h0, if_pos h0]
    rfl
  · rw [decide_eq_false h0, if_neg h0]
    rfl

/-- A release answers how many keys it released. -/
theorem runPfxRelease_answers (hrts : s.inRts h.pkt.qpn) :
    ∃ n, n ≤ p.keys.length ∧ lastResponse (s.runPfxRelease h p c) h.pkt.qpn = some (3, 1, .ok, .released n) ∧
      ((∀ k ∈ p.keys, s.releaseNode p c k = none) → n = 0 ∧ (s.runPfxRelease h p c).locus = s.locus ∧
        (s.runPfxRelease h p c).home = s.home) ∧
      (∀ k x, p.keys = [k] → s.releaseNode p c k = some x → n = (if x.hardRefs = 0 then 0 else 1)) := by
  rw [runPfxRelease_eq]
  have hkept : (s.releaseKeys p c).2.inRts h.pkt.qpn :=
    keep_foldl_snd (fun _ _ _ => State.releaseOne_keeps (rts_closed _ rfl rfl)) hrts
  refine ⟨(s.releaseKeys p c).1, releaseSteps_count.trans_eq (Nat.zero_add _), respond_last hkept, fun hnone => ?_, fun k x => releaseKeys_of_single⟩
  rw [releaseKeys_of_none hnone]
  exact ⟨rfl, respond_frame (locus_closed _ rfl rfl) rfl, respond_frame (home_closed _ rfl rfl) rfl⟩

/-! ## The background sweep (R192) -/

theorem inc32_le_max32 {a : Nat} : inc32 a ≤ max32 := by
  unfold inc32 satAdd
  split
  · assumption
  · exact Nat.le_refl _

theorem le_inc32 {a b : Nat} (hmax : a ≤ max32) (hab : a ≤ b) : a ≤ inc32 b := by
  unfold inc32 satAdd
  split
  · omega
  · exact hmax

/-- An eviction lowers no count of evictions that is within the counter's range. -/
theorem le_evictions_evict {a x : Nat} (hmax : x ≤ max32) (hx : x ≤ s.locus.evictions) : x ≤ (s.evict a).locus.evictions := by
  cases hn : s.locus.nodes.get? a with
  | none =>
    unfold State.evict
    rw [hn]
    exact hx
  | some n =>
    rw [evictions_evict hn]
    exact le_inc32 hmax hx

theorem le_evictions_idleSweep {slice k x : Nat} (hmax : x ≤ max32) (hx : x ≤ s.locus.evictions) :
    x ≤ (State.idleSweep slice k s).locus.evictions := by
  induction k generalizing s with
  | zero => exact hx
  | succ k ih =>
    unfold State.idleSweep
    dsimp only
    split
    · exact hx
    · exact ih (le_evictions_evict hmax hx)

/-- The node that a sweep of a slice evicts next: one that has been idle for longer than the slice allows. -/
def State.dueNode (slice : Nat) (s : State) : Option PfxNode :=
  s.victimNode slice [] (fun n => (s.cfg slice).locus.idleMax * 256 < (s.useStamp + 2 ^ 32 - n.lastUse) % 2 ^ 32)

theorem idleSweep_of_none {slice k : Nat} (hdue : s.dueNode slice = none) : State.idleSweep slice k s = s := by
  cases k with
  | zero => rfl
  | succ k =>
    unfold State.dueNode at hdue
    unfold State.idleSweep
    dsimp only
    rw [hdue]

theorem idleSweep_of_some {slice k : Nat} {v : PfxNode} (hdue : s.dueNode slice = some v) :
    State.idleSweep slice (k + 1) s = State.idleSweep slice k (s.evict v.addr) := by
  unfold State.dueNode at hdue
  rw [State.idleSweep, hdue]

/-- A sweep with a due node counts its eviction. -/
theorem idleSweep_counts {slice k : Nat} {v : PfxNode} (hdue : s.dueNode slice = some v)
    (hheld : s.locus.nodes.get? v.addr = some v) : inc32 s.locus.evictions ≤ (State.idleSweep slice (k + 1) s).locus.evictions := by
  rw [idleSweep_of_some hdue]
  exact le_evictions_idleSweep inc32_le_max32 (evictions_evict hheld).ge

end Sys2Proof.Machine
end

section
/-! The statement on the publishing and leaving of prefixes. -/

open Sys2Proof Sys2Proof.Machine

/-- Settles O24: each request is step 10 of its row on the admitted state, and its answer is the last thing it does; in a sweep the first
due node is evicted and counted, and the count does not fall after that. -/
theorem prefixesPublishAndLeave : Obligations.PrefixesPublishAndLeave := by
  unfold Obligations.PrefixesPublishAndLeave
  refine ⟨fun h p s s2 c hrun e => ?_, fun h p s s2 c hrun e => ?_, fun slice s hrun => ?_⟩
  · have hexec : exec (.publishPrefix h p) s = .next (s2.runPfx h p c) :=
      congrArg Host.Outcome.next ((whenUp_running hrun).trans (extended_of_admit e))
    exact ⟨fun hmiss => ⟨_, hexec, runPfx_misses (admit_inRts e) hmiss⟩,
      fun rs s3 hhit hall => ⟨_, hexec, runPfx_publishes (admit_inRts e) hhit hall⟩⟩
  · have hrts := State.scrubKeys_keeps (slice := c.slice) (tenant := s2.tenantOf c) (epoch16 := p.modelEpoch % 65536)
      (pub := p.isPublic = 1) (keys := p.keys) (rts_closed h.pkt.qpn rfl rfl)
      (State.markParity_keeps (slots := p.faulty) (rts_closed _ rfl rfl) (admit_inRts e))
    exact ⟨_, congrArg Host.Outcome.next ((whenUp_running hrun).trans (extended_of_admit e)), runPfxRelease_answers hrts⟩
  · have hexec : exec (.pfxEvictSweep slice) s =
        .next (if (s.cfg slice).locus.idleMax = 0 then s else State.idleSweep slice s.locus.nodes.length s) :=
      congrArg Host.Outcome.next (whenUp_running hrun)
    refine ⟨fun hoff => hexec.trans (congrArg _ (if_pos hoff)), fun hdue => ?_, fun v hdue hon hheld => ?_⟩
    · rw [Gives, hexec, idleSweep_of_none hdue, ite_self]
    · rw [if_neg hon] at hexec
      obtain ⟨k, hk⟩ := Nat.exists_eq_succ_of_ne_zero (List.length_pos_of_mem (Tbl.get?_mem hheld)).ne'
      rw [hk] at hexec
      exact ⟨_, hexec, idleSweep_counts hdue hheld⟩

end

section
/-! The statement on the queue of commands. -/

open Sys2Proof Sys2Proof.Machine

/-- Settles O1: with a command at the front of the queue, `step` is its second branch. -/
theorem stepRunsTheFrontCommand : Obligations.StepRunsTheFrontCommand := by
  unfold Obligations.StepRunsTheFrontCommand
  intro c rest s
  rfl

end

section
/-! The statement on the frames of commands. A status word that goes to the host takes a free value, whether the host rejects it (R419,
log entry 95). -/

open Sys2Proof Sys2Proof.Machine

namespace Sys2Proof.Machine

/-- Each write to the host takes one free value. -/
theorem free_hostTakes {o : LongOp} {s : State} : (s.hostTakes o).free = s.free + 1 := by
  unfold State.hostTakes
  dsimp only
  split
  · rfl
  · have hfree := free_closed (m := 524336) (s.free + 1) rfl
    exact State.dmaError_keeps (hfree.mono rfl) (State.ringError_keeps (hfree.mono rfl) (State.logEvent_keeps hfree rfl))

/-- So does a status word, unless it is suppressed or the link is down (R407, R416). -/
theorem free_writeStatus {o : LongOp} {s : State} (hs : o.suppressed = false) (hu : s.hostUp = true) :
    (s.writeStatus o).free = s.free + 1 := by
  unfold State.writeStatus
  rw [hs, hu]
  exact free_hostTakes

/-- An entry that is fetched well formed is admitted, and its status word is written (R412, R413, R415). -/
theorem admitEntry_wellFormed {ring index : Nat} {e : RingEntry} {s : State} (ha : ¬(e.statusAddr = 0 ∨ e.statusAddr % 8 ≠ 0))
    (hw : e.wellFormed = true) : s.admitEntry ring index e = (s.onHost (fun h => { h with
      ops := h.ops.set h.nextOp { ring := ring, index := index, entry := e }, nextOp := h.nextOp + 1 })).writeStatus
        { ring := ring, index := index, entry := e } := by
  unfold State.admitEntry
  rw [if_neg ha, if_pos hw]

/-- A CANCEL of entry 7 of ring 0, with its status word at address 64. -/
def cancelEntry : RingEntry :=
  { op := 0x0f, statusAddr := 64, params := [0, 0, 0, 0, 7] ++ List.replicate 27 0 }

/-- A running node whose link to the host is up, with one entry to fetch in ring 0. -/
def fetchNode : State :=
  { aon := { now := 1000000000, phase := .running, bootStage := 8, stacksUp := true, stopped := [], resetLow := false }
    host := { rings := { enable := true, tail := 1 } :: List.replicate 63 {} } }

/-- The entry is well formed, and comes back from its bytes. -/
theorem cancelEntry_fetched : RingEntry.decode cancelEntry.encode = cancelEntry ∧ cancelEntry.wellFormed = true := by decide +kernel

/-- The fetch on the node admits the entry. -/
theorem fetchNode_fetches : exec (.ringEntryFetch 0 (some cancelEntry.encode)) fetchNode =
    .next ((fetchNode.onRing 0 (fun r => { r with head := (r.head + 1) % 2 ^ 32 })).admitEntry 0 0 cancelEntry) := by
  rw [← cancelEntry_fetched.1]
  rfl

end Sys2Proof.Machine

/-- Refutes O11: RING_ENTRY_FETCH admits an entry with a status word, and whether the host takes that write is a free value (log
entry 95), so the count of free values rises; the list given for the command names the host interface and the emissions alone. -/
theorem not_commandsTouchOnlyTheirParts : ¬ Obligations.CommandsTouchOnlyTheirParts := by
  unfold Obligations.CommandsTouchOnlyTheirParts
  rintro ⟨htouched, -⟩
  have hsame : State.free (State.admitEntry 0 0 cancelEntry _) = fetchNode.free :=
    htouched (.ringEntryFetch 0 (some cancelEntry.encode)) fetchNode _ fetchNode_fetches .free (by decide)
  rw [admitEntry_wellFormed (by decide) cancelEntry_fetched.2, free_writeStatus rfl rfl] at hsame
  exact absurd hsame (Nat.succ_ne_self _)

end

section
/-! SUPPORT. Copies of a page on other nodes (R204, R238, R239): what a change of a copy reads back as, that a page whose frame is in a stack
can be sent, and that on a quiet node the end of a grant moves nothing. -/

namespace Sys2Proof.Machine

variable {s : State} {slice node : Nat} {n : PageName}

/-- A search after a change of those that it looks for finds the one it found before, changed. -/
theorem find?_map_ite {α : Type} {p : α → Bool} {q : α → Prop} [DecidablePred q] {f : α → α} (hq : ∀ x, p x = true ↔ q x)
    (hf : ∀ x, q x → q (f x)) (l : List α) : (l.map (fun x => if q x then f x else x)).find? p = (l.find? p).map f := by
  induction l with
  | nil => rfl
  | cons x l ih =>
    rw [List.map_cons]
    by_cases h : q x
    · rw [if_pos h, List.find?_cons_of_pos ((hq _).mpr (hf x h)), List.find?_cons_of_pos ((hq x).mpr h), Option.map_some]
    · rw [if_neg h, List.find?_cons_of_neg (mt (hq x).mp h), List.find?_cons_of_neg (mt (hq x).mp h), ih]

/-- A change of a page's replica record reads back from it. -/
theorem replicaOf_onReplica {f : Replica → Replica} (hf : ∀ r, (f r).slice = r.slice ∧ (f r).name = r.name) :
    (s.onReplica slice n f).replicaOf slice n = (s.replicaOf slice n).map f :=
  find?_map_ite (q := fun r : Replica => r.slice = slice ∧ r.name = n) (fun r => by simp) (fun r h => by rwa [(hf r).1, (hf r).2])
    s.home.replicas

/-- A change of a page's copy on a node reads back from it. -/
theorem copyAt_onCopy {f : CopyS → CopyS} (hf : ∀ c, (f c).node = c.node) :
    (s.onCopy slice n node f).copyAt slice n node = (s.copyAt slice n node).map f := by
  unfold State.copyAt
  unfold State.onCopy
  rw [replicaOf_onReplica (f := fun r => { r with copies := r.copies.map fun c => if c.node = node then f c else c }) fun _ => ⟨rfl, rfl⟩]
  cases s.replicaOf slice n with
  | none => rfl
  | some r => exact find?_map_ite (q := fun c : CopyS => c.node = node) (fun c => by simp) (fun c h => (hf c).trans h) r.copies

/-! ## Copies that are sent again -/

theorem repeatCopy_idle {c : CopyS} (hc : s.copyAt slice n node = some c) (h : c.acked = true ∨ s.now < c.lastSent + 100000000) :
    s.repeatCopy slice n node = s := by
  unfold State.repeatCopy
  rw [hc]
  dsimp only
  rw [if_neg]
  rintro ⟨ha, hl, -⟩
  rcases h with h | h
  · rw [h] at ha
    cases ha
  · omega

theorem repeatCopy_due {c : CopyS} (hc : s.copyAt slice n node = some c) (hf : s.nodeFenced = false) (ha : c.acked = false)
    (hl : c.lastSent + 100000000 ≤ s.now) : s.repeatCopy slice n node = (s.refresh slice n).sendCopy slice n node := by
  unfold State.repeatCopy
  rw [hc]
  dsimp only
  rw [if_pos ⟨by rw [ha]; rfl, hl, by rw [hf]; rfl⟩]

/-- A page whose frame is in a stack that is not fenced can be read. -/
theorem pageData_inStack {e : Entry} (hst : e.frameState.inStack = true) (hf : s.stackFenced e.stackFrame.1 = false) :
    ∃ img, s.pageData e = some img := by
  unfold State.pageData
  dsimp only
  rw [hf]
  cases he : e.frameState <;> rw [he] at hst <;> simp [FrameState.inStack] at hst ⊢

/-- An entry that has been looked at has no frame in a fenced stack (R70, R71). -/
theorem seen_inStack {fenced failed : Nat → Bool} {v : Standing} (h : (v.seen fenced failed).frame.inStack = true) :
    fenced (v.seen fenced failed).stack = false := by
  have hstack : (v.seen fenced failed).stack = v.restarted.stack := by
    unfold Standing.seen
    dsimp only
    split <;> split <;> rfl
  rw [hstack]
  refine Bool.eq_false_iff.mpr fun hf => ?_
  unfold Standing.seen at h
  dsimp only at h
  rw [if_pos hf] at h
  cases hfr : v.restarted.frame <;> simp [Standing.fenced, hfr, FrameState.inStack, FrameState.onFlash, Standing.undriven] at h

/-- So has no entry of a page that has just been looked at. -/
theorem refresh_inStack {e : Entry} (he : (s.refresh slice n).entry slice n = some e) (hst : e.frameState.inStack = true) :
    (s.refresh slice n).stackFenced e.stackFrame.1 = false := by
  have hras : (s.refresh slice n).stackFenced = s.stackFenced := by
    unfold State.stackFenced
    rw [State.refresh_keeps (ras_closed s.ras rfl rfl) rfl]
  have hseen := standing_refresh (s := s) (slice := slice) (n := n)
  rw [State.standing, he, Option.map_some] at hseen
  obtain ⟨v, -, hv⟩ := Option.map_eq_some_iff.mp hseen.symm
  have hstack := seen_inStack (fenced := s.stackFenced) (failed := s.driveFailedB) (v := v) (by rw [hv]; exact hst)
  rwa [hv, ← hras] at hstack

/-- A copy of a page that can be read is sent: its time is the present one, and one message leaves for the node. -/
theorem sendCopy_sends {e : Entry} {img : List (Nat × Byte)} (he : s.entry slice n = some e) (hi : s.pageData e = some img) :
    (∀ y, s.copyAt slice n node = some y → ((s.sendCopy slice n node).copyAt slice n node).map CopyS.lastSent = some s.now) ∧
    (s.sendCopy slice n node).xpt.peerOut.length = s.xpt.peerOut.length + 1 := by
  unfold State.sendCopy
  rw [he]
  dsimp only
  rw [hi]
  refine ⟨fun y hy => ?_, List.length_append⟩
  have hcopy := copyAt_onCopy (s := s) (slice := slice) (n := n) (node := node)
    (f := fun c => { c with lastSent := s.now, relabelled := none }) (fun _ => rfl)
  rw [hy] at hcopy
  exact congrArg (Option.map CopyS.lastSent) hcopy

/-! ## Grants -/

theorem grantCopy_idle {c : CopyS} (hc : s.copyAt slice n node = some c) (h : c.acked = false ∨ c.revoking = true ∨
    ∃ m ∈ s.home.moves, m.slice = slice ∧ m.name = n) : s.grantCopy slice n node = s := by
  unfold State.grantCopy
  rw [hc]
  cases s.entry slice n with
  | none => rfl
  | some e =>
    dsimp only
    rw [if_neg]
    rintro ⟨ha, hr, -, hm⟩
    rcases h with h | h | ⟨m, hmem, hs, hn⟩
    · rw [h] at ha
      cases ha
    · rw [h] at hr
      cases hr
    · rw [Bool.not_eq_true', List.any_eq_false] at hm
      exact hm m hmem (by simp [hs, hn])

/-- An acknowledged copy of a page that nothing changes is granted for 2 ms (R204). -/
theorem grantCopy_grants {c : CopyS} {e : Entry} (hc : s.copyAt slice n node = some c) (he : s.entry slice n = some e)
    (hf : s.nodeFenced = false) (ha : c.acked = true) (hr : c.revoking = false) (hm : ∀ m ∈ s.home.moves, ¬(m.slice = slice ∧ m.name = n)) :
    (s.grantCopy slice n node).copyAt slice n node = some { c with
      granted := some (e.frameGen, s.now + 2000000), stands := c.stands && c.granted.any (fun g => g.1 = e.frameGen) } ∧
    (s.grantCopy slice n node).xpt.peerOut = s.xpt.peerOut ++ [{ queue := 1, body := .peerGrant node slice n e.frameGen }] := by
  have hmoves : s.home.moves.any (fun m => m.slice = slice && m.name = n) = false :=
    List.any_eq_false.mpr fun m hmem => by simpa using hm m hmem
  have hcopy := copyAt_onCopy (s := s) (slice := slice) (n := n) (node := node) (f := fun c => { c with
    granted := some (e.frameGen, s.now + 2000000), stands := c.stands && c.granted.any (fun g => g.1 = e.frameGen) }) (fun _ => rfl)
  unfold State.grantCopy
  rw [hc, he]
  dsimp only
  rw [if_pos ⟨ha, by rw [hr]; rfl, by rw [hf]; rfl, by rw [hmoves]; rfl⟩]
  rw [hc] at hcopy
  exact ⟨hcopy, rfl⟩

/-! ## The ends of grants on a quiet node -/

/-- With no move waiting, the end of a page's grants makes none. -/
theorem runMoves_idle (hm : s.home.moves = []) (hf : s.home.fills = []) : s.runMoves slice n = s := by
  unfold State.runMoves
  split
  · rfl
  · dsimp only
    rw [hm, List.filter_nil, List.foldl_nil, onHome_same (by rw [hm, List.filter_nil, ← hm]), placeFills_idle hf]

/-- With no request held back for a grant, none is admitted again. -/
theorem readmitHeld_idle (h : ∀ q ∈ s.reqs, ∀ cmd, q.2.kind ≠ .held cmd) : s.readmitHeld = s := by
  have fold : ∀ (l : List (Nat × Req)) (t : State), (∀ q ∈ l, ∀ cmd, q.2.kind ≠ .held cmd) → l.foldl (fun s q => match q.2.kind with
      | .held cmd =>
        if (s.changedBy q.2.slice cmd).any (s.shared q.2.slice) then s
        else match s.ctx q.2.qpn with
          | none => s.dropReq q.1
          | some c => (s.dropReq q.1).readmit c cmd
      | _ => s) t = t := by
    intro l
    induction l with
    | nil => exact fun _ _ => rfl
    | cons q l ih =>
      intro t hl
      rw [List.foldl_cons]
      split
      · exact absurd ‹_› (hl q List.mem_cons_self _)
      · exact ih t fun x hx => hl x (List.mem_cons_of_mem q hx)
  exact fold s.reqs s h

/-- Where no move, fill or held request waits, nothing follows the end of a page's grants. -/
theorem grantsMoved_idle (hm : s.home.moves = []) (hf : s.home.fills = []) (h : ∀ q ∈ s.reqs, ∀ cmd, q.2.kind ≠ .held cmd) :
    s.grantsMoved slice n = s := by
  unfold State.grantsMoved
  rw [runMoves_idle hm hf, readmitHeld_idle h]
  dsimp only
  rw [State.fillOf, hf, List.find?_nil]

/-- The copy once a grant whose time has come has lapsed. -/
def CopyS.lapsed (now : Nat) (c : CopyS) : CopyS :=
  match c.granted with
  | some g => if g.2 ≤ now then { c with granted := none, revoking := false, stands := false } else c
  | none => c

theorem CopyS.lapsed_node (now : Nat) (c : CopyS) : (c.lapsed now).node = c.node := by
  unfold CopyS.lapsed
  split
  · split <;> rfl
  · rfl

theorem CopyS.lapsed_granted (now : Nat) (c : CopyS) : (c.lapsed now).granted = (match c.granted with
    | some g => if g.2 ≤ now then none else some g
    | none => none) := by
  unfold CopyS.lapsed
  cases hg : c.granted with
  | none => exact hg
  | some g =>
    dsimp only
    split
    · rfl
    · exact hg

/-- The grants held here once those of a page from a node whose time has come are taken off (R204). -/
def State.dropDue (slice : Nat) (n : PageName) (node : Nat) (s : State) : State := s.onHome (fun x => { x with
  held := x.held.filter (fun g => !(g.slice = slice && g.name = n && g.home = node && g.until_ ≤ s.now)) })

theorem lapse_eq : s.lapse slice n node =
    ((s.onCopy slice n node (CopyS.lapsed s.now)).grantsMoved slice n).dropDue slice n node := rfl

/-- On a quiet node a grant's end changes the copy and the held grant alone. -/
theorem lapse_quiet (hq : quiet s) (h : ∀ q ∈ s.reqs, ∀ cmd, q.2.kind ≠ .held cmd) :
    s.lapse slice n node = (s.onCopy slice n node (CopyS.lapsed s.now)).dropDue slice n node := by
  obtain ⟨-, hf, hm⟩ := hq
  rw [lapse_eq]
  exact congrArg _ (grantsMoved_idle (s := s.onCopy slice n node (CopyS.lapsed s.now)) hm hf h)

end Sys2Proof.Machine
end

section
/-! The statement on replica copies, grants and stream entries. -/

open Sys2Proof Sys2Proof.Machine

/-- Settles O41, command by command. -/
theorem replicasAndStreams : Obligations.ReplicasAndStreams := by
  unfold Obligations.ReplicasAndStreams
  intro slice n node s hrun
  have hexec : ∀ f : State → State, (Host.Outcome.next (s.whenUp f) : Host.Outcome State Fault Refusal) = .next (f s) :=
    fun f => congrArg Host.Outcome.next (whenUp_running hrun)
  refine ⟨fun c hc hfence => ⟨fun h => ?_, ?_, fun h => ?_, fun e he ha hr hm => ⟨_, hexec _, ?_⟩⟩, fun hq hreqs => ⟨_, hexec _, ?_⟩,
    fun q handle group => ⟨_, hexec _, ?_⟩⟩
  · exact (hexec _).trans (congrArg _ (repeatCopy_idle hc h))
  · intro s1 e y ha hl he hst hy
    obtain ⟨img, hi⟩ := pageData_inStack hst (refresh_inStack he hst)
    obtain ⟨hsent, hout⟩ := sendCopy_sends (node := node) he hi
    have hnow : s1.now = s.now := congrArg Aon.now (State.refresh_keeps (aon_closed s.aon rfl rfl) rfl)
    refine ⟨_, (hexec _).trans (congrArg _ (repeatCopy_due hc hfence ha hl)), ?_, hout⟩
    rw [← hnow]
    exact hsent y hy
  · exact (hexec _).trans (congrArg _ (grantCopy_idle hc h))
  · exact grantCopy_grants hc he hfence ha hr hm
  · rw [lapse_quiet hq hreqs]
    refine ⟨rfl, rfl, fun c hc => ⟨c.lapsed s.now, ?_, c.lapsed_granted s.now⟩⟩
    have hcopy := copyAt_onCopy (s := s) (slice := slice) (n := n) (node := node) (CopyS.lapsed_node s.now)
    rw [hc] at hcopy
    exact hcopy
  · dsimp only [State.expireStream, State.onHome]
    refine ⟨fun x hx => List.mem_of_mem_filter hx, fun x hx => ?_⟩
    rw [List.mem_filter, not_and]
    simp only [hx, true_imp_iff, Bool.not_eq_true', Bool.not_eq_false, Bool.and_eq_true, decide_eq_true_eq, and_assoc]

end

section
/-! SUPPORT. What the home holds of other nodes (R198, R202, R204): no operation on a page, its frames, its replicas or its leases changes
the map, the transfers, the buckets never received or the grants held here. -/

namespace Sys2Proof.Machine

/-- The current and the previous map, the transfers that run, the buckets that never came here, and the grants held here. -/
structure Abroad where
  cur : Option RouteMap
  prev : Option RouteMap
  outgoing : List Outgoing
  notHeld : List Nat
  held : List HeldGrant

/-- What a home holds of other nodes. -/
def Home.abroad (h : Home) : Abroad := ⟨h.cur, h.prev, h.outgoing, h.notHeld, h.held⟩

/-- What the home of a state holds of other nodes. -/
def State.abroad (s : State) : Abroad := s.home.abroad

variable {s : State} {slice : Nat} {n : PageName}

theorem abroad_congr {t : State} (h : t.home = s.home) : t.abroad = s.abroad := congrArg Home.abroad h

theorem abroad_of_rest {t : State} (h : t.home.rest = s.home.rest) : t.abroad = s.abroad :=
  show t.home.rest.abroad = s.home.rest.abroad by rw [h]

theorem abroad_foldl {α : Type} {l : List α} {f : State → α → State} (k : ∀ t x, (f t x).abroad = t.abroad) :
    (l.foldl f s).abroad = s.abroad :=
  keep_foldl (P := fun t => t.abroad = s.abroad) (fun t x h => (k t x).trans h) rfl

/-! ## Operations on single parts -/

@[simp] theorem abroad_clearMark : s.clearMark.abroad = s.abroad := abroad_congr home_clearMark

@[simp] theorem abroad_onEntry {f : Entry → Entry} : (s.onEntry slice n f).abroad = s.abroad := abroad_of_rest rest_onEntry

@[simp] theorem abroad_onSeq {f : SeqRec → SeqRec} {handle : Nat} : (s.onSeq slice handle f).abroad = s.abroad := abroad_clearMark

@[simp] theorem abroad_onReplica {f : Replica → Replica} : (s.onReplica slice n f).abroad = s.abroad := rfl

@[simp] theorem abroad_forgetLook : (s.forgetLook slice n).abroad = s.abroad := rfl

theorem abroad_fills {f : List Fill → List Fill} : (s.onHome (fun h => { h with fills := f h.fills })).abroad = s.abroad := rfl

theorem abroad_onLocus {f : Locus → Locus} : (s.onLocus f).abroad = s.abroad := rfl

theorem abroad_onMem {f : Mem → Mem} : (s.onMem f).abroad = s.abroad := rfl

theorem abroad_memWriteN {a : Nat} {l : List Byte} : (s.memWriteN a l).abroad = s.abroad :=
  abroad_congr (State.memWriteN_keeps (home_closed s.home rfl rfl) rfl)

@[simp] theorem abroad_writeSlots {st : Nat} {code : Code} : (s.writeSlots slice n st code).abroad = s.abroad := rfl

@[simp] theorem abroad_tellReplicas {f : Nat → TxBody} : (s.tellReplicas slice n f).abroad = s.abroad := abroad_of_rest rest_tellReplicas

@[simp] theorem abroad_retire {q : Nat} {r : Retired} : (s.retire q r).abroad = s.abroad :=
  abroad_congr (State.retire_keeps (home_closed s.home rfl rfl) rfl)

@[simp] theorem abroad_retireUnit {q k : Nat} {place : Nat × Nat} : (s.retireUnit q place k).abroad = s.abroad := abroad_congr home_retireUnit

@[simp] theorem abroad_retireExtent {q d g k : Nat} : (s.retireExtent q d g k).abroad = s.abroad := abroad_retire

@[simp] theorem abroad_freeUnit {place : Nat × Nat} : (s.freeUnit place).abroad = s.abroad :=
  abroad_congr (State.freeUnit_keeps (home_closed s.home rfl rfl) rfl)

@[simp] theorem abroad_freeExtent {d g k : Nat} : (s.freeExtent d g k).abroad = s.abroad :=
  abroad_congr (State.freeExtent_keeps (home_closed s.home rfl rfl) rfl)

@[simp] theorem abroad_dropCmds {d : Nat} : (s.dropCmds d slice n).abroad = s.abroad := rfl

/-! ## Replicas, generations and frames of a page -/

@[simp] theorem abroad_revokeGrants : (s.revokeGrants slice n).abroad = s.abroad := abroad_of_rest rest_revokeGrants

@[simp] theorem abroad_sendCopy {node : Nat} : (s.sendCopy slice n node).abroad = s.abroad := by
  unfold State.sendCopy
  split
  · rfl
  · split <;> rfl

@[simp] theorem abroad_copyOut : (s.copyOut slice n).abroad = s.abroad := by
  unfold State.copyOut
  split
  · rfl
  · split
    · rfl
    · exact abroad_foldl fun _ _ => abroad_sendCopy

@[simp] theorem abroad_setPageState {st : PageState} : (s.setPageState slice n st).abroad = s.abroad := by
  unfold State.setPageState
  dsimp only
  split
  · rw [abroad_copyOut, abroad_onEntry, abroad_revokeGrants]
  · exact abroad_onEntry

@[simp] theorem abroad_accGen {relocation : Bool} {g : Nat} : (s.accGen slice n relocation g).abroad = s.abroad := abroad_of_rest rest_accGen

@[simp] theorem abroad_bumpGen {relocation : Bool} : (s.bumpGen slice n relocation).abroad = s.abroad := abroad_of_rest rest_bumpGen

@[simp] theorem abroad_dropWriteFrame : (s.dropWriteFrame slice n).abroad = s.abroad := by
  unfold State.dropWriteFrame
  split
  · rfl
  · split
    · rw [abroad_onEntry, abroad_retireUnit]
    · rfl

@[simp] theorem abroad_retireShadow : (s.retireShadow slice n).abroad = s.abroad := by
  unfold State.retireShadow
  split
  · rfl
  · split
    · rw [abroad_onEntry, abroad_retireUnit]
    · rfl

@[simp] theorem abroad_retireHull : (s.retireHull slice n).abroad = s.abroad := by
  unfold State.retireHull
  split
  · rfl
  · split
    · rw [abroad_onEntry, abroad_retire]
    · rfl

@[simp] theorem abroad_retireFrames : (s.retireFrames slice n).abroad = s.abroad := by
  unfold State.retireFrames
  split
  · rfl
  · dsimp only
    rw [abroad_retireHull, abroad_retireShadow, abroad_dropWriteFrame]
    split <;> split <;> simp only [abroad_retireExtent, abroad_retireUnit]

@[simp] theorem abroad_dropReplica : (s.dropReplica slice n).abroad = s.abroad := abroad_tellReplicas

@[simp] theorem abroad_dropEntry : (s.dropEntry slice n).abroad = s.abroad := by
  unfold State.dropEntry
  dsimp only
  rw [abroad_onSeq]
  refine Eq.trans (b := State.abroad (State.clearMark _)) rfl ?_
  rw [abroad_clearMark]
  split <;> rfl

@[simp] theorem abroad_discardPage : (s.discardPage slice n).abroad = s.abroad := by
  unfold State.discardPage
  rw [abroad_dropEntry, abroad_writeSlots, abroad_dropReplica, abroad_accGen, abroad_retireFrames]

/-! ## The ends of leases -/

theorem abroad_tearPage : (s.tearPage slice n).abroad = s.abroad := by
  unfold State.tearPage
  dsimp only
  split
  · exact abroad_dropWriteFrame
  · exact abroad_setPageState.trans abroad_dropWriteFrame

theorem abroad_abandonPage : (s.abandonPage slice n).abroad = s.abroad := by
  unfold State.abandonPage
  dsimp only
  split
  · exact abroad_dropWriteFrame
  · split
    · rw [abroad_discardPage, abroad_dropWriteFrame]
    · rw [abroad_setPageState, abroad_dropWriteFrame]

theorem abroad_endPage {how : LeaseEnd} : (s.endPage slice how n).abroad = s.abroad := by
  unfold State.endPage
  split
  · exact abroad_tearPage
  · exact abroad_abandonPage
  · split
    · exact abroad_abandonPage
    · exact abroad_discardPage

theorem abroad_undoAcquire {slot : Nat} {made : List PageName} {pre : List (PageName × PageState)} :
    (s.undoAcquire slot made pre).abroad = s.abroad := by
  unfold State.undoAcquire
  split
  · rfl
  · rw [abroad_onSeq]
    refine (abroad_foldl fun _ _ => abroad_dropEntry).trans ((abroad_foldl fun _ _ => abroad_setPageState).trans ?_)
    exact abroad_foldl fun _ _ => abroad_dropWriteFrame

/-- A request that goes off the list changes neither that nor the node's own identity. -/
theorem abroad_dropReq {r : Nat} : (s.dropReq r).abroad = s.abroad ∧ (s.dropReq r).nodeId = s.nodeId := by
  unfold State.dropReq
  split
  · exact ⟨rfl, rfl⟩
  · dsimp only
    unfold State.abroad State.onCtx
    rw [State.onXpt_home]
    split <;> refine ⟨?_, rfl⟩ <;> simp only [State.onSch_home, State.onHome_home] <;> split <;> rfl

theorem abroad_finishReq {r : Nat} {code : Code} {body : RespBody} :
    (s.finishReq r code body).abroad = s.abroad ∧ (s.finishReq r code body).nodeId = s.nodeId := by
  unfold State.finishReq
  split
  · exact ⟨rfl, rfl⟩
  · obtain ⟨ha, hn⟩ := abroad_dropReq (s := s) (r := r)
    exact ⟨(abroad_congr (respond_frame (home_closed _ rfl rfl) rfl)).trans ha,
      (congrArg (fun x : Sch => x.node.nodeId) (respond_frame (sch_closed _ rfl rfl) rfl)).trans hn⟩

/-- The end of a lease changes neither what is held of other nodes nor the node's own identity. -/
theorem abroad_endLease {key : Nat} {how : LeaseEnd} : (s.endLease key how).abroad = s.abroad ∧ (s.endLease key how).nodeId = s.nodeId := by
  have node {t u : State} (h : t.sch = u.sch) : t.nodeId = u.nodeId := congrArg (fun x : Sch => x.node.nodeId) h
  unfold State.endLease
  split
  · exact ⟨rfl, rfl⟩
  · obtain ⟨ha, hn⟩ := abroad_finishReq (s := s.undoAcquire key _ _) (r := _) (code := .leaseConflict) (body := .none)
    exact ⟨ha.trans abroad_undoAcquire, hn.trans (node (State.undoAcquire_keeps (sch_closed s.sch rfl rfl) rfl))⟩
  · dsimp only
    rw [abroad_onSeq]
    refine ⟨Eq.trans (b := State.abroad (ite _ _ _)) rfl ?_, node (State.onSeq_keeps (sch_closed s.sch rfl rfl) ?_)⟩
    · split
      · rfl
      · exact (abroad_foldl fun _ _ => abroad_endPage).trans rfl
    · rw [State.onHome_sch]
      split
      · rfl
      · exact keep_foldl (P := fun t => t.sch = s.sch) (fun _ _ h => State.endPage_keeps (sch_closed s.sch rfl rfl) h) rfl

theorem abroad_endLeases {p : Lease → Bool} {how : LeaseEnd} :
    (s.endLeases p how).abroad = s.abroad ∧ (s.endLeases p how).nodeId = s.nodeId :=
  keep_foldl (P := fun t => t.abroad = s.abroad ∧ t.nodeId = s.nodeId)
    (fun _ _ h => ⟨abroad_endLease.1.trans h.1, abroad_endLease.2.trans h.2⟩) ⟨rfl, rfl⟩

/-- Nor does the passing of time at the home (R203). -/
theorem nodeId_settle : s.settle.nodeId = s.nodeId := by
  unfold State.settle State.dropTombs
  dsimp only
  split
  · exact (congrArg (fun x : Sch => x.node.nodeId) (State.clearMark_keeps (sch_closed _ rfl rfl) rfl)).trans abroad_endLeases.2
  · exact abroad_endLeases.2

/-! ## What an entry owes -/

theorem abroad_countTorn {f : Nat → Nat} : (s.onHome (fun h => { h with pagesTorn := f h.pagesTorn })).abroad = s.abroad := rfl

theorem abroad_applyRestart : (s.applyRestart slice n).abroad = s.abroad := by
  unfold State.applyRestart
  split
  · rfl
  · dsimp only
    split
    · rfl
    · split <;> simp only [apply_ite State.abroad, abroad_bumpGen, abroad_onEntry, abroad_countTorn, abroad_freeUnit, abroad_retireShadow,
        abroad_freeExtent, ite_self]

theorem abroad_applyFences : (s.applyFences slice n).abroad = s.abroad := by
  unfold State.applyFences
  split
  · rfl
  · dsimp only
    split
    · split
      · rw [abroad_bumpGen, abroad_forgetLook, abroad_onEntry, abroad_onEntry]
      · rw [abroad_writeSlots, abroad_bumpGen, abroad_onEntry, abroad_fills, abroad_onEntry]
      · rw [abroad_bumpGen, abroad_onEntry, abroad_onEntry]
      · rw [abroad_bumpGen, abroad_onEntry, abroad_retireExtent, abroad_dropCmds, abroad_onEntry]
      · exact abroad_onEntry
    · exact abroad_onEntry

theorem abroad_applyDrive : (s.applyDrive slice n).abroad = s.abroad := by
  unfold State.applyDrive
  split
  · rfl
  · split
    · split
      · rw [abroad_bumpGen, abroad_onEntry, abroad_retireShadow]
      · rw [abroad_onEntry, abroad_retireShadow, abroad_dropCmds]
      · rfl
    · rfl

@[simp] theorem abroad_refresh : (s.refresh slice n).abroad = s.abroad := by
  unfold State.refresh
  rw [abroad_applyDrive, abroad_applyFences, abroad_applyRestart]

/-! ## Names that are forgotten -/

theorem abroad_endReplica : (s.endReplica slice n).abroad = s.abroad := by
  unfold State.endReplica
  split
  · rfl
  · split
    · exact abroad_dropReplica
    · rfl

theorem abroad_unadopt {x : PfxNode} : (s.unadopt x).abroad = s.abroad := by
  unfold State.unadopt
  refine abroad_foldl fun t p => ?_
  dsimp only
  rw [apply_ite State.abroad, abroad_discardPage, abroad_endReplica, ite_self]

theorem abroad_freeNode {x : PfxNode} : (s.freeNode x).abroad = s.abroad := by
  unfold State.freeNode
  dsimp only
  rw [abroad_unadopt, abroad_retire, apply_ite State.abroad, abroad_onMem, abroad_clearMark, ite_self, abroad_onLocus, abroad_memWriteN]

theorem abroad_dropAcc : (s.dropAcc slice n).abroad = s.abroad := by
  unfold State.dropAcc
  split
  · rfl
  · exact abroad_foldl fun _ _ => abroad_retireUnit

theorem abroad_forgetNames {seq root : Nat → Bool} : (s.forgetNames slice seq root).abroad = s.abroad := by
  unfold State.forgetNames
  refine Eq.trans (b := State.abroad (List.foldl _ _ _)) rfl ((abroad_foldl fun t x => ?_).trans (abroad_foldl fun t x => ?_))
  · exact abroad_discardPage.trans (abroad_foldl fun _ _ => abroad_dropAcc)
  · exact abroad_freeNode.trans rfl

end Sys2Proof.Machine
end

section
/-! SUPPORT. Maps (R196, R198, R200, R202): what an install leaves, and the transfers that start when the previous map retires. -/

namespace Sys2Proof.Machine

variable {s : State} {p m : RouteMap}

/-! ## Installs -/

/-- The map is the current one already. -/
def State.hasMap (m : RouteMap) (s : State) : Bool := match s.home.cur with
  | some x => sameMap x m
  | none => false

theorem hasMap_iff : s.hasMap m = true ↔ ∃ o, s.home.cur = some o ∧ sameMap o m = true := by
  unfold State.hasMap
  cases s.home.cur <;> simp

/-- What an admitted install of another map does: the install, its entry in the log, and the record. -/
def State.installed (c : Cert) (m : RouteMap) (s : State) : State :=
  ((s.installMap m).logEvent 94 0x0404 0xff 0 c.kind c.serial c.reason).clearMark

theorem mapInstall_eq {h : ExtHdr} {c : Cert} {s2 : State} {x : Ctx} (hrun : s.running = true)
    (e : admission h (.mapInstall h c m) (manageSpec 0 0 (mapOk m && c.serial = m.generation) c false (fun s => s.mapOwn m) s.settle)
      s.settle = some (x, s2)) :
    exec (.mapInstall h c m) s = .next ((if s2.hasMap m then s2 else s2.installed c m).respond h 10 0 .ok 0 .none) :=
  congrArg Host.Outcome.next ((whenUp_running hrun).trans (extended_of_admit e))

/-- A map that is admitted and is not the current one is newer, and no previous map or transfer is left (R198). -/
theorem mapOwn_newer {o : RouteMap} (h : s.mapOwn m = .ok) (hc : s.home.cur = some o) (hd : sameMap o m = false) :
    newerGen m.generation o.generation = true ∧ s.home.prev = none ∧ s.home.outgoing = [] := by
  unfold State.mapOwn at h
  rw [hc] at h
  dsimp only at h
  rw [if_neg (by rw [hd]; exact Bool.false_ne_true)] at h
  split at h
  · cases h
  · next hn =>
    split at h
    · cases h
    · next hb =>
      rw [Bool.or_eq_true, not_or] at hb
      exact ⟨by simpa using hn, by simpa using hb.1, by simpa using hb.2⟩

theorem mapOwn_congr {t : State} (h : t.home = s.home) : t.mapOwn m = s.mapOwn m := by
  unfold State.mapOwn
  rw [h]

/-- What an installed map leaves of the home and of the waiting requests. -/
theorem installMap_does : (s.installMap m).home.cur = some m ∧ (s.installMap m).home.prev = s.home.cur ∧
    (s.installMap m).home.drainOpen = s.home.cur.isSome ∧ (s.installMap m).home.drainEnd = s.now + m.drainMs * 1000000 ∧
    (s.installMap m).home.inflightPrev = s.home.inflightCur ∧ (s.installMap m).home.inflightCur = 0 ∧
    (s.installMap m).reqs = s.reqs.map (fun q => (q.1, { q.2 with onPrev := true })) := by
  have log (u : State) : (u.logEvent 94 0x0406 0xff 0 m.generation 0 0).home = u.home ∧
      (u.logEvent 94 0x0406 0xff 0 m.generation 0 0).reqs = u.reqs :=
    ⟨State.logEvent_keeps (home_closed _ rfl rfl) rfl, State.logEvent_keeps (reqs_closed _ rfl rfl rfl) rfl⟩
  unfold State.installMap
  dsimp only
  rw [(log _).1, (log _).2]
  exact ⟨rfl, rfl, rfl, rfl, rfl, rfl, rfl⟩

theorem installed_frame {c : Cert} : (s.installed c m).home = (s.installMap m).home ∧ (s.installed c m).reqs = (s.installMap m).reqs :=
  ⟨State.clearMark_keeps (home_closed _ rfl rfl) (State.logEvent_keeps (home_closed _ rfl rfl) rfl),
    State.clearMark_keeps (reqs_closed _ rfl rfl rfl) (State.logEvent_keeps (reqs_closed _ rfl rfl rfl) rfl)⟩

theorem installed_inRts {c : Cert} {q : Nat} (h : State.inRts q s) : State.inRts q (s.installed c m) :=
  State.clearMark_keeps (rts_closed _ rfl rfl) (State.logEvent_keeps (rts_closed _ rfl rfl)
    (State.installMap_keeps (rts_closed _ rfl rfl) h))

/-! ## Transfers -/

/-- Messages to peers, each with its transfer, leave in the home only the transfers. -/
theorem home_foldl_transfers {α : Type} {msg : State → α → TxBody} {o : α → Outgoing} {l : List α} {s : State} :
    (l.foldl (fun s d => (s.tellPeer (msg s d)).onHome (fun h => { h with outgoing := h.outgoing ++ [o d] })) s).home =
      { s.home with outgoing := s.home.outgoing ++ l.map o } := by
  induction l generalizing s with
  | nil => simp
  | cons d l ih =>
    rw [List.foldl_cons, ih, List.map_cons]
    simp [State.onHome, State.tellPeer, State.onXpt]

/-- The slices and buckets whose transfers start: those that the map moves, and those that older maps left here. -/
def State.bucketsDue (p m : RouteMap) (s : State) : List (Nat × Nat) :=
  (((movingBuckets p m s.nodeId).filter (fun b => !s.home.notHeld.contains b)).map (fun b => ((mapEntry p b).2, b)) ++
    s.bucketsToSend m).eraseDups

/-- The transfer of a bucket of a map. -/
def bucketTransfer (m : RouteMap) (b : Nat) : Outgoing := { node := (mapEntry m b).1, bucket := some b, generation := m.generation }

/-- The transfers of those slices and buckets. -/
def State.transfersDue (p m : RouteMap) (s : State) : List Outgoing := (s.bucketsDue p m).map (fun d => bucketTransfer m d.2)

theorem home_sendBuckets : (s.sendBuckets p m).home = { s.home with outgoing := s.home.outgoing ++ s.transfersDue p m } :=
  home_foldl_transfers

/-- None of them stays on this node. -/
theorem transfersDue_leave {x : Outgoing} (h : x ∈ s.transfersDue p m) : x.node ≠ s.nodeId ∧ x.generation = m.generation := by
  obtain ⟨d, hd, rfl⟩ := List.mem_map.mp h
  refine ⟨?_, rfl⟩
  unfold State.bucketsDue at hd
  rw [List.mem_eraseDups, List.mem_append, List.mem_map] at hd
  rcases hd with ⟨b, hb, rfl⟩ | hd
  · have hmove := (List.mem_filter.mp (List.mem_of_mem_filter hb)).2
    exact of_decide_eq_true (Bool.and_eq_true _ _ |>.mp hmove).2
  · unfold State.bucketsToSend at hd
    rw [List.mem_eraseDups, List.mem_map] at hd
    obtain ⟨x, hx, rfl⟩ := hd
    exact of_decide_eq_true (List.mem_filter.mp hx).2

/-- Every moving bucket that came here is transferred. -/
theorem mem_transfersDue {b : Nat} (h : b ∈ movingBuckets p m s.nodeId) (hh : b ∉ s.home.notHeld) : bucketTransfer m b ∈ s.transfersDue p m := by
  refine List.mem_map.mpr ⟨((mapEntry p b).2, b), ?_, rfl⟩
  unfold State.bucketsDue
  rw [List.mem_eraseDups, List.mem_append]
  exact .inl (List.mem_map_of_mem (f := fun b => ((mapEntry p b).2, b)) (List.mem_filter.mpr ⟨h, by simpa using hh⟩))

/-- With another route key every other node of the map gets its transfers and a marker (R462). -/
theorem home_sendNames : (s.sendNames m).home = { s.home with
    outgoing := s.home.outgoing ++ ((mapNodes m).filter (· ≠ s.nodeId)).map fun n =>
      { node := n, bucket := none, generation := m.generation } } := by
  have told {l : List (Nat × Nat)} {msg : State → Nat × Nat → TxBody} : (l.foldl (fun s d => s.tellPeer (msg s d)) s).home = s.home ∧
      (l.foldl (fun s d => s.tellPeer (msg s d)) s).nodeId = s.nodeId :=
    keep_foldl (P := fun t => t.home = s.home ∧ t.nodeId = s.nodeId) (fun _ _ h => h) ⟨rfl, rfl⟩
  unfold State.sendNames
  dsimp only
  rw [home_foldl_transfers, told.1, told.2]

/-! ## The previous map retires -/

/-- The state in which the transfers start (R200, R202 step 1): the leases of moving names are over, the previous map is gone, and every
entry has taken what it owes. -/
def State.retired (p m : RouteMap) (s : State) : State :=
  ((s.endMoving p m).clearMark.onHome (fun h => { h with prev := none, awaitMarkers := h.awaitMarkers.filter (· ≠ s.nodeId) })).refreshHeld

theorem nodeId_endMoving : (s.endMoving p m).nodeId = s.nodeId := abroad_endLeases.2

theorem abroad_retired : (s.retired p m).abroad = { s.abroad with prev := none } := by
  unfold State.retired State.refreshHeld
  rw [abroad_foldl fun _ _ => abroad_refresh]
  have hend : (s.endMoving p m).clearMark.abroad = s.abroad := abroad_clearMark.trans abroad_endLeases.1
  exact congrArg (fun a : Abroad => { a with prev := none }) hend

theorem nodeId_retired : (s.retired p m).nodeId = s.nodeId := by
  have hsch : (s.retired p m).sch = (s.endMoving p m).sch :=
    State.refreshHeld_keeps (sch_closed _ rfl rfl) (State.clearMark_keeps (sch_closed _ rfl rfl) rfl)
  exact (congrArg (fun x : Sch => x.node.nodeId) hsch).trans nodeId_endMoving

theorem nodeFenced_settle : s.settle.nodeFenced = s.nodeFenced := by
  unfold State.nodeFenced
  rw [State.settle_keeps (aon_closed s.aon rfl rfl) rfl, State.settle_keeps (ras_closed s.ras rfl rfl) rfl]

theorem nodeFenced_retired : (s.retired p m).nodeFenced = s.nodeFenced := by
  have haon : (s.retired p m).aon = s.aon := State.refreshHeld_keeps (aon_closed _ rfl rfl)
    (State.clearMark_keeps (aon_closed s.aon rfl rfl) (State.endMoving_keeps (aon_closed _ rfl rfl) rfl))
  have hras : (s.retired p m).ras = s.ras := State.refreshHeld_keeps (ras_closed _ rfl rfl)
    (State.clearMark_keeps (ras_closed s.ras rfl rfl) (State.endMoving_keeps (ras_closed _ rfl rfl) rfl))
  unfold State.nodeFenced
  rw [haon, hras]

/-- A sequence moves away from this node. -/
def movesAway (p m : RouteMap) (self handle : Nat) : Bool := (mapHome p 0 handle).1 = self && (mapHome m 0 handle).1 ≠ self

theorem leases_retired : ∀ l ∈ (s.retired p m).home.leases, movesAway p m s.nodeId l.2.params.handle = false := by
  have hmild : Mild (fun t => ∀ l ∈ t.home.leases, movesAway p m s.nodeId l.2.params.handle = false) :=
    (Lossy.of_home (Q := fun h => ∀ l ∈ h.leases, movesAway p m s.nodeId l.2.params.handle = false) fun h h' c k l hl => by
      obtain ⟨x, hx, -, -, hhandle⟩ := c.2 l hl
      rw [hhandle]
      exact k x hx).toMild
  unfold State.retired State.refreshHeld
  refine keep_foldl (P := fun t => ∀ l ∈ t.home.leases, movesAway p m s.nodeId l.2.params.handle = false)
    (fun _ _ => State.refresh_mild hmild) ?_
  rw [State.onHome_home, home_clearMark]
  exact leases_endLeases (p := fun _ handle => movesAway p m s.nodeId handle)

theorem retireMap_waits (h : s.home.prev = none ∨ s.home.cur = none ∨ s.home.drainOpen = true ∨ s.home.inflightPrev ≠ 0) :
    s.retireMap = s := by
  unfold State.retireMap
  split
  · next p m hp hm =>
    rw [if_pos]
    rcases h with h | h | h
    · cases hp.symm.trans h
    · cases hm.symm.trans h
    · exact h
  · rfl

/-- With the window closed and nothing in flight the transfers start, but on a fenced node (R363). -/
theorem retireMap_retires (hp : s.home.prev = some p) (hm : s.home.cur = some m) (hd : s.home.drainOpen = false) (hi : s.home.inflightPrev = 0) :
    s.retireMap = (if s.nodeFenced then s.retired p m else if p.routeKey = m.routeKey then (s.retired p m).sendBuckets p m
      else (s.retired p m).sendNames m).onHome (fun h => { h with notHeld := [] }) := by
  unfold State.retireMap
  rw [hp, hm]
  dsimp only
  rw [if_neg (by rw [hd, hi]; simp), ← nodeFenced_retired (s := s) (p := p) (m := m), nodeId_endMoving]
  rfl

/-- What a map that retires leaves of the home. -/
theorem retireMap_does (hp : s.home.prev = some p) (hm : s.home.cur = some m) (hd : s.home.drainOpen = false) (hi : s.home.inflightPrev = 0) :
    s.retireMap.home.prev = none ∧ s.retireMap.home.cur = some m ∧ s.retireMap.home.notHeld = [] ∧
    s.retireMap.home.leases = (s.retired p m).home.leases ∧
    s.retireMap.home.outgoing = s.home.outgoing ++ (if s.nodeFenced then []
      else if p.routeKey = m.routeKey then (s.retired p m).transfersDue p m
      else ((mapNodes m).filter (· ≠ s.nodeId)).map (fun n => { node := n, bucket := none, generation := m.generation })) := by
  have hab := abroad_retired (s := s) (p := p) (m := m)
  have hcur : (s.retired p m).home.cur = some m := (congrArg Abroad.cur hab).trans hm
  have hprev : (s.retired p m).home.prev = none := congrArg Abroad.prev hab
  have hout : (s.retired p m).home.outgoing = s.home.outgoing := congrArg Abroad.outgoing hab
  rw [retireMap_retires hp hm hd hi, State.onHome_home]
  dsimp only
  split
  · exact ⟨hprev, hcur, rfl, rfl, by rw [hout, List.append_nil]⟩
  · split
    · rw [home_sendBuckets]
      exact ⟨hprev, hcur, rfl, rfl, by rw [← hout]⟩
    · rw [home_sendNames, nodeId_retired]
      exact ⟨hprev, hcur, rfl, rfl, by rw [← hout]⟩

end Sys2Proof.Machine
end

section
/-! The statement on maps. -/

open Sys2Proof Sys2Proof.Machine

/-- Settles O28: an install is step 10 of its row; a retiring map leaves `State.retired`, from which the transfers start. -/
theorem mapsInstallAndRetire : Obligations.MapsInstallAndRetire := by
  unfold Obligations.MapsInstallAndRetire
  refine ⟨fun h c m s s2 x hrun e => ?_, fun s hrun => ⟨?_, fun hwait => ?_, fun p m hp hm hd hi => ?_⟩⟩
  · have hexec := mapInstall_eq hrun e
    have hrts := admit_inRts e
    refine ⟨fun hsame => ?_, fun hother => ?_⟩
    · rw [if_pos (hasMap_iff.mpr hsame)] at hexec
      exact ⟨_, hexec, respond_frame (home_closed _ rfl rfl) rfl, respond_frame (log_closed _ rfl rfl) rfl, respond_last hrts⟩
    · have hnot : ¬s2.hasMap m = true := fun hh => by
        obtain ⟨o, ho, hs⟩ := hasMap_iff.mp hh
        rw [hother o ho] at hs
        cases hs
      rw [if_neg hnot] at hexec
      obtain ⟨s1, hown, -, hhome⟩ := admission_checks e
      obtain ⟨hcur, hprev, hopen, hend, hfprev, hfcur, hreqs⟩ := installMap_does (s := s2) (m := m)
      refine ⟨_, hexec, ?_⟩
      beta_reduce
      rw [respond_frame (home_closed _ rfl rfl) rfl, respond_frame (reqs_closed _ rfl rfl rfl) rfl, respond_last (installed_inRts hrts),
        installed_frame.1, installed_frame.2]
      refine ⟨hcur, hprev, hopen, hend, hfprev, hfcur, fun o ho => mapOwn_newer ((mapOwn_congr hhome).symm.trans hown) ho (hother o ho),
        fun q hq => ?_, rfl⟩
      rw [hreqs] at hq
      obtain ⟨y, -, rfl⟩ := List.mem_map.mp hq
      rfl
  · have hexec : exec .drainWindowClose s = .next (if s.home.drainOpen && s.home.drainEnd ≤ s.now then
        s.onHome (fun h => { h with drainOpen := false }) else s) := congrArg _ (whenUp_running hrun)
    simp only [Bool.and_eq_true, decide_eq_true_eq] at hexec
    split
    · next hdue => exact ⟨_, hexec.trans (congrArg _ (if_pos hdue)), rfl⟩
    · next hdue => exact hexec.trans (congrArg _ (if_neg hdue))
  · exact congrArg Host.Outcome.next ((whenUp_running hrun).trans (retireMap_waits hwait))
  · have hnode : s.settle.nodeId = s.nodeId := nodeId_settle
    have hfence : s.settle.nodeFenced = s.nodeFenced := nodeFenced_settle
    obtain ⟨hprev, hcur, hheld, hleases, hout⟩ := retireMap_does hp hm hd hi
    refine ⟨_, congrArg Host.Outcome.next (whenUp_running hrun), hprev, hcur, fun l hl => ?_, fun hf => ?_, hheld,
      fun hf hkey => ⟨(s.settle.retired p m).transfersDue p m, ?_, fun x hx => ?_, fun b hb hn => ?_⟩, fun hf hkey => ?_⟩
    · rw [hleases] at hl
      have hstay := leases_retired l hl
      rw [hnode] at hstay
      simpa [movesAway] using hstay
    · rw [hout, hfence, if_pos hf, List.append_nil]
    · rw [hout, hfence, if_neg (by rw [hf]; exact Bool.false_ne_true), if_pos hkey]
    · have hleave := transfersDue_leave hx
      rwa [nodeId_retired, hnode] at hleave
    · refine mem_transfersDue ?_ ?_
      · rwa [nodeId_retired, hnode]
      · rwa [show (s.settle.retired p m).home.notHeld = s.settle.home.notHeld from congrArg Abroad.notHeld abroad_retired]
    · rw [hout, hfence, if_neg (by rw [hf]; exact Bool.false_ne_true), if_neg hkey, hnode]

end

section
/-! SUPPORT. Pages of other nodes (R202, R239): what a page that is written from a transfer or a copy stands as, and that a discarded page
is gone. -/

namespace Sys2Proof.Machine

variable {s t : State} {slice : Nat} {n : PageName}

/-- A discarded page has no entry (R70). -/
theorem entry_discardPage : (s.discardPage slice n).entry slice n = none := by
  unfold State.discardPage State.dropEntry State.onSeq State.entry
  rw [State.onHome_home, home_clearMark, State.onMem_home, State.onHome_home]
  exact List.find?_eq_none.mpr fun e he => by simpa using (List.mem_filter.mp he).2

/-- A name that gets an entry has one. -/
theorem newEntry_does (h : s.newEntry slice n = some t) : t.abroad = s.abroad ∧ ∃ e, t.entry slice n = some e := by
  unfold State.newEntry at h
  dsimp only at h
  split at h
  · cases h
  · cases h
    refine ⟨abroad_onSeq.trans (abroad_clearMark (s := s)), Option.isSome_iff_exists.mp ?_⟩
    unfold State.onSeq State.entry
    rw [State.onHome_home, home_clearMark, State.bump_home, State.onHome_home, home_clearMark]
    exact List.find?_isSome.mpr ⟨_, List.mem_append_right _ List.mem_cons_self, by simp [Entry.is]⟩

/-! ## Pages that are written -/

/-- The page of an image has its entry: published, in a stack, with the image's version and fill. -/
def State.showsPage (slice : Nat) (p : PageImage) (s : State) : Prop :=
  ∃ e, s.entry slice p.name = some e ∧ e.pageState = .published ∧ e.frameState = .stack ∧ e.frameGen = p.frameGen ∧ e.fill = p.fill

variable {p : PageImage}

theorem showsPage_congr (h : s.showsPage slice p) (e : t.home = s.home) : t.showsPage slice p := by
  unfold State.showsPage
  rwa [entry_congr (congrArg Home.entries e)]

/-- A change of the entry that leaves what it shows. -/
theorem showsPage_onEntry {f : Entry → Entry} (h : s.showsPage slice p) (hf : ∀ e, (f e).slice = e.slice ∧ (f e).name = e.name)
    (hs : ∀ e, (f e).pageState = e.pageState ∧ (f e).frameState = e.frameState ∧ (f e).frameGen = e.frameGen ∧ (f e).fill = e.fill) :
    (s.onEntry slice p.name f).showsPage slice p := by
  obtain ⟨e, he, hp, hfr, hg, hfill⟩ := h
  obtain ⟨h1, h2, h3, h4⟩ := hs e
  refine ⟨f e, ?_, h1.trans hp, h2.trans hfr, h3.trans hg, h4.trans hfill⟩
  rw [entry_onEntry hf, he, Option.map_some]


/-- A change that leaves the home leaves the page that an image shows, and what is held of other nodes. -/
theorem showsPage_home {A : Abroad} (h : s.showsPage slice p ∧ s.abroad = A) (e : t.home = s.home) : t.showsPage slice p ∧ t.abroad = A :=
  ⟨showsPage_congr h.1 e, (abroad_congr e).trans h.2⟩

/-- So does a note in the entry of where its Hull record or its shadow is. -/
theorem showsPage_note {A : Abroad} {f : Entry → Entry} (h : s.showsPage slice p ∧ s.abroad = A)
    (hf : ∀ e, (f e).slice = e.slice ∧ (f e).name = e.name)
    (hs : ∀ e, (f e).pageState = e.pageState ∧ (f e).frameState = e.frameState ∧ (f e).frameGen = e.frameGen ∧ (f e).fill = e.fill) :
    (s.onEntry slice p.name f).showsPage slice p ∧ (s.onEntry slice p.name f).abroad = A :=
  ⟨showsPage_onEntry h.1 hf hs, abroad_onEntry.trans h.2⟩

theorem putPage_does (hst : PageState.ofNum p.pageState = .published) (h : s.putPage slice p = some t) :
    t.showsPage slice p ∧ t.abroad = s.abroad := by
  unfold State.putPage at h
  extract_lets made st put at h
  have hmade : ∀ u, made = some u → u.abroad = s.abroad ∧ ∃ e, u.entry slice p.name = some e := by
    intro u hu
    dsimp only [made] at hu
    split at hu
    · next e he =>
      cases hu
      exact ⟨rfl, e, he⟩
    · exact newEntry_does hu
  clear_value made
  cases made with
  | none => cases h
  | some u =>
    obtain ⟨hab, e, he⟩ := hmade u rfl
    dsimp -zeta only at h
    rw [if_pos (show st.published? = true by dsimp only [st]; rw [hst]; rfl)] at h
    split at h
    · cases h
    · next fr v hv =>
      have hfr : v.home = u.home := State.allocFrame_some (home_closed _ rfl rfl) rfl hv
      extract_lets written hulled at h
      have hw : written.showsPage slice p ∧ written.abroad = s.abroad := by
        have himg : (v.writeImage (u.format slice) fr p.data).home = u.home := State.writeImage_keeps (home_closed _ rfl rfl) hfr
        have hent : written.entry slice p.name = ((v.writeImage (u.format slice) fr p.data).entry slice p.name).map _ :=
          entry_onEntry fun _ => ⟨rfl, rfl⟩
        rw [entry_congr (congrArg Home.entries himg), he] at hent
        exact ⟨⟨_, hent, hst, rfl, rfl, rfl⟩, abroad_onEntry.trans ((abroad_congr himg).trans hab)⟩
      have hh : hulled.showsPage slice p ∧ hulled.abroad = s.abroad := by
        dsimp -zeta only [hulled]
        clear_value written
        split
        · exact hw
        · split
          · exact hw
          · next hl =>
            exact showsPage_note (showsPage_home hw (State.busBytes_keeps (home_closed _ rfl rfl) (State.hullFrom_some
              (home_closed _ rfl rfl) rfl hl))) (fun _ => ⟨rfl, rfl⟩) fun _ => ⟨rfl, rfl, rfl, rfl⟩
      clear_value hulled
      split at h
      · cases h
        exact hh
      · split at h
        · cases h
          exact hh
        · next q w hq =>
          cases h
          exact showsPage_note (showsPage_home hh (State.writeImage_keeps (home_closed _ rfl rfl) (State.allocFrom_some
            (home_closed _ rfl rfl) rfl hq))) (fun _ => ⟨rfl, rfl⟩) fun _ => ⟨rfl, rfl, rfl, rfl⟩
end Sys2Proof.Machine
end

section
/-! SUPPORT. PEER messages (R202, R204, R239, R240, R462): how an admitted one is answered, and what each does to the home. -/

namespace Sys2Proof.Machine

variable {s t : State} {slice i : Nat} {n : PageName}

/-! ## The answer of a message -/

/-- An admitted PEER message is answered with the code of its work, which alone decides the home, the slices and the memory that follow. -/
theorem peer_does {h : ExtHdr} {cmd : Instr} {variant : Nat} {own : State → Code} {run : Ctx → State → Code × State} {s2 u : State} {c : Ctx}
    {code : Code} {Q : State → Prop} (hx : exec cmd s = .next (s.whenUp (State.peer h cmd variant own run))) (hrun : s.running = true)
    (hp : peered h cmd variant own s = some (c, s2)) (hr : run c s2 = (code, u))
    (hk : State.inRts h.pkt.qpn s2 → State.inRts h.pkt.qpn u)
    (hQ : ∀ t, lastResponse t h.pkt.qpn = some (11, variant, code, .none) → t.home = u.home → t.sch = u.sch → t.mem = u.mem → Q t) :
    Does cmd s Q := by
  obtain ⟨⟨c1, s1⟩, hadm, heq⟩ := Option.map_eq_some_iff.mp hp
  cases heq
  refine ⟨_, hx.trans (congrArg _ ((whenUp_running hrun).trans (extended_of_admit hadm))), ?_⟩
  dsimp only
  rw [hr]
  have hrts := hk (State.onCtx_keeps (rts_closed _ rfl rfl) (fun _ hc => hc) (admit_inRts hadm))
  exact hQ _ (respond_last hrts) (respond_frame (home_closed _ rfl rfl) rfl) (respond_frame (sch_closed _ rfl rfl) rfl)
    (respond_frame (mem_closed _ rfl rfl rfl) rfl)

/-! ## Buckets (R202, R462) -/

theorem takeBucket_notAwaited {b : BucketState}
    (h : (s.home.awaiting.any (fun w => w.1 = b.bucket) || s.home.awaitMarkers.contains b.fromNode) = false) :
    s.takeBucket b = (if s.home.cur.any (fun m => (mapEntry m b.bucket).1 = s.nodeId) then .ok else .busy, s) := by
  unfold State.takeBucket
  rw [if_pos (by rw [← Bool.not_or, h]; rfl)]

theorem takeBucket_part {b : BucketState}
    (h : (s.home.awaiting.any (fun w => w.1 = b.bucket) || s.home.awaitMarkers.contains b.fromNode) = true) (hb : b.complete = false) :
    s.takeBucket b = (.ok, s.onHome (fun h => { h with arrived := h.arrived ++ [b] })) := by
  unfold State.takeBucket
  rw [if_neg (by rw [← Bool.not_or, h]; decide), if_pos (by rw [hb]; rfl)]

theorem takeBucket_refused {b : BucketState}
    (h : (s.home.awaiting.any (fun w => w.1 = b.bucket) || s.home.awaitMarkers.contains b.fromNode) = true) (hb : b.complete = true)
    (hn : s.putBucket (s.joinBucket b) = none) : s.takeBucket b = (.busy, s) := by
  unfold State.takeBucket
  rw [if_neg (by rw [← Bool.not_or, h]; decide), if_neg (by rw [hb]; decide), hn]

/-- A bucket that is here whole is awaited no longer, and its parts are not kept. -/
def State.closeBucket (b : BucketState) (s : State) : State := s.onHome (fun h => { h with
  arrived := h.arrived.filter (fun x => !(x.bucket = b.bucket && x.fromNode = b.fromNode && x.slice = b.slice))
  awaiting := h.awaiting.filter (fun w => !(w.1 = b.bucket)) })

theorem takeBucket_written {b : BucketState}
    (h : (s.home.awaiting.any (fun w => w.1 = b.bucket) || s.home.awaitMarkers.contains b.fromNode) = true) (hb : b.complete = true)
    (ht : s.putBucket (s.joinBucket b) = some t) : s.takeBucket b = (.ok, t.closeBucket b) := by
  unfold State.takeBucket
  rw [if_neg (by rw [← Bool.not_or, h]; decide), if_neg (by rw [hb]; decide), ht]
  rfl

/-- A node's marker ends the wait for it under the current map; one of a newer map is refused (R462). -/
def State.takeMarker (fromNode generation : Nat) (s : State) : Code × State :=
  if s.isCurrent generation then (.ok, s.onHome (fun x => { x with awaitMarkers := x.awaitMarkers.filter (· ≠ fromNode) }))
  else if s.home.cur.any (fun m => newerGen generation m.generation) then (.busy, s)
  else (.ok, s)

theorem exec_peerCompletionMarker {h : ExtHdr} {node gen : Nat} : exec (.peerCompletionMarker h node gen) s =
    .next (s.whenUp (State.peer h (.peerCompletionMarker h node gen) 0 (fun _ => .ok) (fun _ s => s.takeMarker node gen))) := rfl

theorem takeMarker_does {node gen : Nat} :
    (s.takeMarker node gen).1 = (if s.isCurrent gen = false ∧ s.home.cur.any (fun m => newerGen gen m.generation) = true then .busy else .ok) ∧
    (s.takeMarker node gen).2.home.awaitMarkers =
      (if s.isCurrent gen then s.home.awaitMarkers.filter (· ≠ node) else s.home.awaitMarkers) ∧
    (s.takeMarker node gen).2.xpt = s.xpt := by
  unfold State.takeMarker
  cases s.isCurrent gen with
  | true => exact ⟨rfl, rfl, rfl⟩
  | false => cases s.home.cur.any (fun m => newerGen gen m.generation) <;> exact ⟨rfl, rfl, rfl⟩

/-! ## Copies (R239, R240) -/

theorem hostSlice_congr (h : t.sch = s.sch) : t.hostSlice = s.hostSlice := by
  unfold State.hostSlice State.cfg State.slice
  rw [h]

/-- The copy of a page here is what its entry says in the slice that holds replicas. -/
theorem replicaHere_of_entry (hi : s.hostSlice = some i) : s.replicaHere n = (s.entry i n).bind (fun e => e.copyOf.map (fun c => (i, c.2))) := by
  unfold State.replicaHere
  rw [hi, Option.bind_some]

theorem replicaHere_congr (hs : t.sch = s.sch) (hh : t.home.entries = s.home.entries) : t.replicaHere n = s.replicaHere n := by
  unfold State.replicaHere
  rw [hostSlice_congr hs]
  exact congrArg _ (funext fun j => by rw [entry_congr hh])

/-- A copy here is in the slice that holds replicas. -/
theorem replicaHere_host {g : Nat} (h : s.replicaHere n = some (i, g)) : s.hostSlice = some i := by
  unfold State.replicaHere at h
  obtain ⟨j, hj, he⟩ := Option.bind_eq_some_iff.mp h
  obtain ⟨e, -, hc⟩ := Option.bind_eq_some_iff.mp he
  obtain ⟨x, -, hx⟩ := Option.map_eq_some_iff.mp hc
  cases hx
  exact hj

/-- The grants held for a page of another node are given up (R204). -/
def State.dropHeld (slice : Nat) (n : PageName) (s : State) : State :=
  s.onHome (fun x => { x with held := x.held.filter (fun g => !(g.slice = slice && g.name = n)) })

theorem dropHeld_none : (s.dropHeld slice n).home.held.filter (fun g => g.slice = slice && g.name = n) = [] :=
  List.filter_eq_nil_iff.mpr fun _ hg hp => by
    have hne := (List.mem_filter.mp hg).2
    rw [hp] at hne
    cases hne

/-- The entry of a copy names its home and the version that it is a copy of. -/
def State.markCopy (r : ReplicaCopy) (i : Nat) (s : State) : State :=
  s.onEntry i r.page.name (fun e => { e with copyOf := some (r.home, r.page.frameGen) })

/-- A copy that arrives gives up the grant, and the copy that was here. -/
def State.clearCopy (r : ReplicaCopy) (i : Nat) (s : State) : State :=
  let u := s.dropHeld r.slice r.page.name
  if (u.entry i r.page.name).isSome then u.discardPage i r.page.name else u

theorem clearCopy_does {r : ReplicaCopy} : (s.clearCopy r i).abroad = (s.dropHeld r.slice r.page.name).abroad ∧ (s.clearCopy r i).sch = s.sch := by
  unfold State.clearCopy
  dsimp only
  split
  · exact ⟨abroad_discardPage, State.discardPage_keeps (sch_closed s.sch rfl rfl) rfl⟩
  · exact ⟨rfl, rfl⟩

theorem takeCopy_eq {r : ReplicaCopy} (hi : s.hostSlice = some i) :
    s.takeCopy r = match (s.clearCopy r i).putPage i { r.page with pageState := 2 } with
      | none => (.busy, s)
      | some u => (.ok, u.markCopy r i) := by
  unfold State.takeCopy
  rw [hi]
  rfl

/-- A copy that is written leaves no grant, and a published entry that is a copy of its version (R239). -/
theorem takeCopy_writes {r : ReplicaCopy} {u : State} (hi : s.hostSlice = some i)
    (hu : (s.clearCopy r i).putPage i { r.page with pageState := 2 } = some u) :
    (u.markCopy r i).home.held.filter (fun g => g.slice = r.slice && g.name = r.page.name) = [] ∧
    ∃ e, (u.markCopy r i).entry i r.page.name = some e ∧ e.pageState = .published ∧ e.frameState = .stack ∧ e.frameGen = r.page.frameGen ∧
      e.fill = r.page.fill ∧ (u.markCopy r i).replicaHere r.page.name = some (i, r.page.frameGen) := by
  obtain ⟨⟨e, he, hst, hfr, hg, hfill⟩, hab⟩ := putPage_does rfl hu
  obtain ⟨hcab, hcsch⟩ := clearCopy_does (s := s) (r := r) (i := i)
  have hmark : (u.markCopy r i).abroad = u.abroad := abroad_onEntry
  have hheld : (u.markCopy r i).home.held = (s.dropHeld r.slice r.page.name).home.held :=
    congrArg Abroad.held (hmark.trans (hab.trans hcab))
  have hsch : (u.markCopy r i).sch = s.sch :=
    State.onEntry_keeps (sch_closed s.sch rfl rfl) (State.putPage_keeps (sch_closed s.sch rfl rfl) hcsch _ hu)
  have hent : (u.markCopy r i).entry i r.page.name = (u.entry i r.page.name).map _ := entry_onEntry fun _ => ⟨rfl, rfl⟩
  rw [he, Option.map_some] at hent
  refine ⟨by rw [hheld]; exact dropHeld_none, _, hent, hst, hfr, hg, hfill, ?_⟩
  rw [replicaHere_of_entry ((hostSlice_congr hsch).trans hi), hent]
  rfl

/-- The work of a message on the copy of a page here, where that copy is of the version named. -/
def State.withCopy (n : PageName) (gen : Nat) (f : Nat → State → State) (s : State) : Code × State :=
  match s.replicaHere n with
  | some (i, g) => if g = gen then (.ok, f i s) else (.miss, s)
  | none => (.miss, s)

variable {gen : Nat} {f : Nat → State → State}

theorem withCopy_matches (h : s.replicaHere n = some (i, gen)) : s.withCopy n gen f = (.ok, f i s) := by
  unfold State.withCopy
  rw [h]
  exact if_pos rfl

theorem withCopy_misses (h : (s.replicaHere n).map Prod.snd ≠ some gen) : s.withCopy n gen f = (.miss, s) := by
  unfold State.withCopy
  cases hr : s.replicaHere n with
  | none => rfl
  | some x =>
    rw [hr] at h
    exact if_neg fun hg => h (congrArg some hg)

/-- The grant that a message brings takes the place of the one held before (R204). -/
def State.takeGrant (slice : Nat) (n : PageName) (home gen : Nat) (s : State) : State :=
  s.onHome (fun x => { x with held := x.held.filter (fun g => !(g.slice = slice && g.name = n)) ++
    [{ slice := slice, name := n, home := home, frameGen := gen, until_ := s.now + 2000000 }] })

theorem takeGrant_held {home : Nat} : (s.takeGrant slice n home gen).home.held.filter (fun g => g.slice = slice && g.name = n) =
    [{ slice := slice, name := n, home := home, frameGen := gen, until_ := s.now + 2000000 }] := by
  exact (List.filter_append _ _).trans (congrArg₂ (· ++ ·) (dropHeld_none (s := s)) (List.filter_cons_of_pos (by simp)))

theorem exec_peerGrant {h : ExtHdr} : exec (.peerGrant h slice n gen) s =
    .next (s.whenUp (State.peer h (.peerGrant h slice n gen) 2 (fun s => s.peerSlice (s.hostSlice.getD 8)) (fun c s =>
      s.withCopy n gen (fun _ s => s.takeGrant slice n c.peer gen)))) := rfl

/-- A copy of one version becomes a copy of another, and its grant is given up (R240). -/
def State.relabelCopy (slice : Nat) (n : PageName) (new i : Nat) (s : State) : State :=
  (s.onEntry i n (fun e => { e with copyOf := e.copyOf.map (fun x => (x.1, new)) })).dropHeld slice n

theorem exec_peerRelabel {h : ExtHdr} {old new : Nat} : exec (.peerRelabel h slice n old new) s =
    .next (s.whenUp (State.peer h (.peerRelabel h slice n old new) 4 (fun s => s.peerSlice (s.hostSlice.getD 8)) (fun _ s =>
      s.withCopy n old (State.relabelCopy slice n new)))) := rfl

theorem replicaHere_relabelCopy {new : Nat} (hi : s.hostSlice = some i) :
    (s.relabelCopy slice n new i).replicaHere n = (s.replicaHere n).map (fun x => (x.1, new)) := by
  have hsch : (s.relabelCopy slice n new i).sch = s.sch := by
    unfold State.relabelCopy State.dropHeld
    rw [State.onHome_sch]
    exact State.onEntry_keeps (sch_closed s.sch rfl rfl) rfl
  have hent : (s.relabelCopy slice n new i).entry i n = (s.entry i n).map _ := entry_onEntry fun _ => ⟨rfl, rfl⟩
  rw [replicaHere_of_entry hi, replicaHere_of_entry ((hostSlice_congr hsch).trans hi), hent]
  cases s.entry i n with
  | none => rfl
  | some e => cases hc : e.copyOf <;> simp [hc]

theorem inRts_relabelCopy {q new : Nat} (h : State.inRts q s) : State.inRts q (s.relabelCopy slice n new i) :=
  have hmark : State.inRts q (s.onEntry i n (fun e => { e with copyOf := e.copyOf.map (fun x => (x.1, new)) })) :=
    State.onEntry_keeps (rts_closed q rfl rfl) h
  hmark

/-- The copy of a page here goes (R239). -/
def State.dropCopy (n : PageName) (s : State) : State :=
  match s.replicaHere n with
  | some (i, _) => s.discardPage i n
  | none => s

theorem exec_peerDrop {h : ExtHdr} : exec (.peerDrop h slice n) s =
    .next (s.whenUp (State.peer h (.peerDrop h slice n) 5 (fun s => s.peerSlice (s.hostSlice.getD 8)) (fun _ s =>
      (.ok, (s.dropHeld slice n).dropCopy n)))) := by
  refine congrArg (fun run => Host.Outcome.next (s.whenUp (State.peer h (.peerDrop h slice n) 5 (fun s => s.peerSlice (s.hostSlice.getD 8))
    run))) (funext fun _ => funext fun u => ?_)
  unfold State.dropCopy State.dropHeld
  dsimp only
  generalize State.onHome _ u = v
  cases v.replicaHere n <;> rfl

/-- A page that is dropped has no copy here, and the grants held are as they were. -/
theorem dropCopy_does : (s.dropCopy n).replicaHere n = none ∧ (s.dropCopy n).abroad = s.abroad := by
  unfold State.dropCopy
  split
  · next i g hr =>
    have hsch : (s.discardPage i n).sch = s.sch := State.discardPage_keeps (sch_closed s.sch rfl rfl) rfl
    refine ⟨?_, abroad_discardPage⟩
    rw [replicaHere_of_entry ((hostSlice_congr hsch).trans (replicaHere_host hr)), entry_discardPage, Option.bind_none]
  · next hr => exact ⟨hr, rfl⟩

theorem inRts_dropCopy {q : Nat} (h : State.inRts q s) : State.inRts q (s.dropCopy n) := by
  unfold State.dropCopy
  split
  · exact State.discardPage_keeps (rts_closed q rfl rfl) h
  · exact h

/-! ## Acknowledgements (R202, R204, R462) -/

theorem outgoing_forgetNames {l : List Nat} {seq root : Nat → Bool} :
    (l.foldl (fun s i => s.forgetNames i seq root) s).home.outgoing = s.home.outgoing :=
  congrArg Abroad.outgoing (abroad_foldl (s := s) (l := l) (f := fun s i => s.forgetNames i seq root) fun _ _ => abroad_forgetNames)

/-- A bucket's acknowledgement ends its transfer and no other. -/
theorem outgoing_ackBucket {node b : Nat} : (s.peerAcked (.bucket node b)).home.outgoing =
    s.home.outgoing.filter (fun o => !(o.node = node && o.bucket = some b)) := by
  unfold State.peerAcked
  dsimp only
  split
  · split
    · rfl
    · exact outgoing_forgetNames
  · next h =>
    rw [Bool.not_eq_true, List.any_eq_false] at h
    exact (List.filter_eq_self.mpr fun o ho => by rw [Bool.eq_false_iff.mpr (h o ho)]; rfl).symm

/-- An acknowledgement that is fresh on a node-class queue pair ends what it names; the home it finds is that of its arrival. -/
theorem acknowledgement_does {k : Pkt} {a : PeerAck} {s1 : State} {c : Ctx} (hrun : s.running = true)
    (hf : s.settle.receive k (.peerAcknowledgement k a) 1 = .fresh c s1) (hc : c.cls = 2) :
    ∃ u : State, exec (.peerAcknowledgement k a) s = .next (u.peerAcked a) ∧ u.home = s1.home ∧ u.reqs = s1.reqs := by
  refine ⟨(s1.acceptPsn k 1).onCtx k.qpn (fun x => { x with lastPeer := s1.now }), ?_, ?_, ?_⟩
  · refine congrArg Host.Outcome.next ((whenUp_running hrun).trans ?_)
    dsimp only
    rw [hf]
    dsimp only
    rw [if_pos hc]
  · exact State.acceptPsn_keeps (home_closed s1.home rfl rfl) rfl
  · exact State.acceptPsn_keeps (reqs_closed s1.reqs rfl rfl rfl) rfl

/-- On a quiet home the end of a grant on a node changes that node's copy alone. -/
theorem home_grantsMoved {node : Nat} {f : CopyS → CopyS} (hm : s.home.moves = []) (hf : s.home.fills = [])
    (h : ∀ q ∈ s.reqs, ∀ cmd, q.2.kind ≠ .held cmd) : ((s.onCopy slice n node f).grantsMoved slice n).home = { s.home with
      replicas := s.home.replicas.map (fun r => if r.slice = slice ∧ r.name = n then
        { r with copies := r.copies.map (fun x => if x.node = node then f x else x) } else r) } := by
  rw [grantsMoved_idle (s := s.onCopy slice n node f) hm hf h]
  rfl

end Sys2Proof.Machine
end

section
/-! SUPPORT. PEER messages, one by one (R202, R204, R239, R240, R462): what an admitted one leaves and answers. -/

namespace Sys2Proof.Machine

variable {h : ExtHdr} {s s2 : State} {c : Ctx} {slice : Nat} {n : PageName}

/-- The grants held here for a page of another node (R204). -/
def State.heldFor (slice : Nat) (n : PageName) (s : State) : List HeldGrant := s.home.held.filter (fun g => g.slice = slice && g.name = n)

theorem heldFor_dropHeld {t : State} (hh : t.home.held = (s.dropHeld slice n).home.held) : t.heldFor slice n = [] := by
  unfold State.heldFor
  rw [hh]
  exact dropHeld_none

theorem peerCompletionMarker_does {node gen : Nat} (hrun : s.running = true)
    (hp : peered h (.peerCompletionMarker h node gen) 0 (fun _ => .ok) s = some (c, s2)) :
    Does (.peerCompletionMarker h node gen) s (fun t => lastResponse t h.pkt.qpn = some (11, 0,
        if s2.isCurrent gen = false ∧ s2.home.cur.any (fun m => newerGen gen m.generation) = true then .busy else .ok, .none) ∧
      t.home.awaitMarkers = (if s2.isCurrent gen then s2.home.awaitMarkers.filter (· ≠ node) else s2.home.awaitMarkers)) := by
  obtain ⟨hcode, hmarks, hxpt⟩ := takeMarker_does (s := s2) (node := node) (gen := gen)
  cases hr : s2.takeMarker node gen
  rw [hr] at hcode hmarks hxpt
  refine peer_does exec_peerCompletionMarker hrun hp hr (fun hk => ?_) fun t ha hh _ _ => ⟨ha.trans (by rw [← hcode]), by rw [hh, hmarks]⟩
  unfold State.inRts State.ctx
  rwa [hxpt]

theorem peerReplicaCopy_does {r : ReplicaCopy} {i : Nat} (hrun : s.running = true)
    (hp : peered h (.peerReplicaCopy h r) 1 (fun s => s.copyOwn r) s = some (c, s2)) (hi : s2.hostSlice = some i) :
    Does (.peerReplicaCopy h r) s (fun t => (lastResponse t h.pkt.qpn = some (11, 1, .busy, .none) ∧ t.home = s2.home) ∨
      (lastResponse t h.pkt.qpn = some (11, 1, .ok, .none) ∧ t.heldFor r.slice r.page.name = [] ∧
        ∃ e, t.entry i r.page.name = some e ∧ e.pageState = .published ∧ e.frameState = .stack ∧ e.frameGen = r.page.frameGen ∧
          e.fill = r.page.fill ∧ t.replicaHere r.page.name = some (i, r.page.frameGen))) := by
  cases hu : (s2.clearCopy r i).putPage i { r.page with pageState := 2 } with
  | none => exact peer_does rfl hrun hp ((takeCopy_eq hi).trans (by rw [hu])) id fun t ha hh _ _ => .inl ⟨ha, hh⟩
  | some u =>
    obtain ⟨hheld, e, he, hst, hfr, hg, hfill, hrep⟩ := takeCopy_writes hi hu
    have htake : s2.takeCopy r = (.ok, u.markCopy r i) := (takeCopy_eq hi).trans (by rw [hu])
    refine peer_does rfl hrun hp htake (fun hk => ?_) fun t ha hh hs _ =>
      .inr ⟨ha, (congrArg (List.filter _) (congrArg Home.held hh)).trans hheld, e, ?_, hst, hfr, hg, hfill, ?_⟩
    · have hrts := State.takeCopy_keeps (rts_closed h.pkt.qpn rfl rfl) (r := r) hk
      rwa [htake] at hrts
    · rw [entry_congr (congrArg Home.entries hh), he]
    · rw [replicaHere_congr hs (congrArg Home.entries hh), hrep]

theorem peerGrant_does {gen : Nat} (hrun : s.running = true)
    (hp : peered h (.peerGrant h slice n gen) 2 (fun s => s.peerSlice (s.hostSlice.getD 8)) s = some (c, s2)) :
    Does (.peerGrant h slice n gen) s (fun t => if (s2.replicaHere n).map Prod.snd = some gen then
        t.heldFor slice n = [{ slice := slice, name := n, home := c.peer, frameGen := gen, until_ := s2.now + 2000000 }] ∧
          lastResponse t h.pkt.qpn = some (11, 2, .ok, .none)
      else t.home = s2.home ∧ lastResponse t h.pkt.qpn = some (11, 2, .miss, .none)) := by
  split
  · next hg =>
    obtain ⟨⟨i, g⟩, hr, rfl⟩ := Option.map_eq_some_iff.mp hg
    exact peer_does exec_peerGrant hrun hp (withCopy_matches hr) id fun t ha hh _ _ =>
      ⟨(congrArg (List.filter _) (congrArg Home.held hh)).trans takeGrant_held, ha⟩
  · next hg => exact peer_does exec_peerGrant hrun hp (withCopy_misses hg) id fun t ha hh _ _ => ⟨hh, ha⟩

theorem peerRevoke_does (hrun : s.running = true)
    (hp : peered h (.peerRevoke h slice n) 3 (fun s => s.peerSlice (s.hostSlice.getD 8)) s = some (c, s2)) :
    Does (.peerRevoke h slice n) s (fun t => t.heldFor slice n = [] ∧ t.home.entries = s2.home.entries ∧
      lastResponse t h.pkt.qpn = some (11, 3, .ok, .none)) :=
  peer_does rfl hrun hp (u := s2.dropHeld slice n) rfl id fun _ ha hh _ _ =>
    ⟨heldFor_dropHeld (congrArg Home.held hh), (congrArg Home.entries hh).trans rfl, ha⟩

theorem peerRelabel_does {old new : Nat} (hrun : s.running = true)
    (hp : peered h (.peerRelabel h slice n old new) 4 (fun s => s.peerSlice (s.hostSlice.getD 8)) s = some (c, s2)) :
    Does (.peerRelabel h slice n old new) s (fun t => if (s2.replicaHere n).map Prod.snd = some old then
        t.replicaHere n = (s2.replicaHere n).map (fun x => (x.1, new)) ∧ t.heldFor slice n = [] ∧
          lastResponse t h.pkt.qpn = some (11, 4, .ok, .none)
      else t.home = s2.home ∧ lastResponse t h.pkt.qpn = some (11, 4, .miss, .none)) := by
  split
  · next hg =>
    obtain ⟨⟨i, g⟩, hr, rfl⟩ := Option.map_eq_some_iff.mp hg
    exact peer_does exec_peerRelabel hrun hp (withCopy_matches hr) inRts_relabelCopy fun t ha hh hs _ =>
      ⟨(replicaHere_congr hs (congrArg Home.entries hh)).trans (replicaHere_relabelCopy (replicaHere_host hr)),
        heldFor_dropHeld (congrArg Home.held hh), ha⟩
  · next hg => exact peer_does exec_peerRelabel hrun hp (withCopy_misses hg) id fun t ha hh _ _ => ⟨hh, ha⟩

theorem peerDrop_does (hrun : s.running = true)
    (hp : peered h (.peerDrop h slice n) 5 (fun s => s.peerSlice (s.hostSlice.getD 8)) s = some (c, s2)) :
    Does (.peerDrop h slice n) s (fun t => t.heldFor slice n = [] ∧ t.replicaHere n = none ∧
      lastResponse t h.pkt.qpn = some (11, 5, .ok, .none)) := by
  obtain ⟨hrep, hab⟩ := dropCopy_does (s := s2.dropHeld slice n) (n := n)
  exact peer_does exec_peerDrop hrun hp rfl (inRts_dropCopy (s := s2.dropHeld slice n)) fun t ha hh hs _ =>
    ⟨heldFor_dropHeld (congrArg Abroad.held ((abroad_congr hh).trans hab)), (replicaHere_congr hs (congrArg Home.entries hh)).trans hrep, ha⟩

end Sys2Proof.Machine
end

section
/-! The statement on PEER messages. -/

open Sys2Proof Sys2Proof.Machine

/-- Settles O32, message by message. -/
theorem peersAreServed : Obligations.PeersAreServed := by
  unfold Obligations.PeersAreServed
  intro h s s2 c hrun answers held
  refine ⟨fun b hp => ⟨fun hw => ?_, fun hw hb hn => ?_, fun hw hb => ?_, fun s3 hw hb hs => ?_⟩,
    fun _ _ hp => peerCompletionMarker_does hrun hp, fun _ _ hp hi => peerReplicaCopy_does hrun hp hi, fun _ _ _ hp => peerGrant_does hrun hp,
    fun _ _ hp => peerRevoke_does hrun hp, fun _ _ _ _ hp => peerRelabel_does hrun hp, fun _ _ hp => peerDrop_does hrun hp,
    fun k a s1 c hf hc => ?_⟩
  · exact peer_does rfl hrun hp (takeBucket_notAwaited hw) id fun t ha hh _ _ => ⟨hh, ha⟩
  · exact peer_does rfl hrun hp (takeBucket_refused hw hb hn) id fun t ha hh _ _ => ⟨hh, ha⟩
  · exact peer_does rfl hrun hp (takeBucket_part hw hb) id fun t ha hh _ _ =>
      ⟨(congrArg Home.arrived hh).trans rfl, (congrArg Home.awaiting hh).trans rfl, ha⟩
  · exact peer_does rfl hrun hp (takeBucket_written hw hb hs) (State.putBucket_keeps (rts_closed _ rfl rfl) · s3 hs) fun t ha hh _ hm =>
      ⟨(congrArg Home.entries hh).trans rfl, (congrArg Home.seqs hh).trans rfl, (congrArg Mem.cells hm).trans rfl,
        (congrArg Home.awaiting hh).trans rfl, ha⟩
  · obtain ⟨u, hx, hh, hreqs⟩ := acknowledgement_does hrun hf hc
    rw [← hh, ← hreqs]
    refine ⟨fun node b ha => ?_, fun hm hfl hq => ⟨fun node slice n ha => ?_, fun node slice n g ha => ?_⟩⟩ <;> subst ha
    · exact ⟨_, hx, outgoing_ackBucket⟩
    · exact ⟨_, hx, home_grantsMoved hm hfl hq⟩
    · exact ⟨_, hx, home_grantsMoved hm hfl hq⟩

end

section
/-! SUPPORT. What the loss of a page and the start of a fill or a recovery leave (R224, R230, R231, R241, R242): no parked context appears,
drives stay failed or not and keep their counts, no write joins those that wait, the log grows. `Steady` predicates are those that such
changes keep where no fill starts or ends, `Roving` ones those that fills do not touch either. -/

namespace Sys2Proof.Machine

/-! ## Changes of one part -/

/-- No parked context appears. -/
def Engine.Sheds (e e' : Engine) : Prop := ∀ k, e.ctxs.get? k = none → e'.ctxs.get? k = none

/-- Whether a drive is failed, and what R231 counts of it. -/
def Drive.tally (d : Drive) : Bool × Nat × Nat := (d.failed, d.mediaErrors, d.timeouts)

/-- Every drive keeps its tally, and no write joins those that wait for a page. -/
def Mem.Steady (m m' : Mem) : Prop :=
  (∀ k, (m'.drives.get? k).map Drive.tally = (m.drives.get? k).map Drive.tally) ∧ ∀ w ∈ m'.waits, w ∈ m.waits

/-- A predicate that steady changes keep; of the parts that `base` names (host interface, slices, near-bank units, ports, requests,
contexts that stay in RTS, what leaves the node) any change. -/
structure Steady (P : State → Prop) : Prop where
  base : Closed 2670928 P
  log : ∀ f s, (∀ l : Log, l.nextSeq ≤ (f l).nextSeq) → P s → P (State.onLog f s)
  eng : ∀ f s, (∀ e, Engine.Sheds e (f e)) → P s → P (State.onEng f s)
  mem : ∀ f s, (∀ m, Mem.Steady m (f m)) → P s → P (State.onMem f s)
  home : ∀ f s, (∀ h : Home, (f h).fills = h.fills) → P s → P (State.onHome f s)

/-- A steady predicate that fills do not touch. -/
structure Roving (P : State → Prop) : Prop extends Steady P where
  fills : ∀ f s, P s → P (State.onHome f s)

/-- Contexts that are dropped by a test. -/
theorem Engine.Sheds.of_filter {e e' : Engine} {p : Nat × ParkedCtx → Bool} (h : e'.ctxs = e.ctxs.filter p) : Engine.Sheds e e' :=
  fun _ hk => h ▸ get?_filter_none hk

/-- Changes of anything but the contexts. -/
theorem Engine.Sheds.of_eq {e e' : Engine} (h : e'.ctxs = e.ctxs) : Engine.Sheds e e' := fun _ hk => h ▸ hk

/-- Changes of anything but drives and waiting writes. -/
theorem Mem.Steady.of_eq {m m' : Mem} (hd : m'.drives = m.drives) (hw : m'.waits = m.waits) : Mem.Steady m m' :=
  ⟨fun _ => by rw [hd], fun _ h => hw ▸ h⟩

/-- A change of one drive that keeps its tally. -/
theorem Mem.Steady.of_modify {m m' : Mem} {d : Nat} {f : Drive → Drive} (hf : ∀ y, (f y).tally = y.tally)
    (hd : m'.drives = m.drives.modify d f) (hw : m'.waits = m.waits) : Mem.Steady m m' := by
  refine ⟨fun k => ?_, fun _ h => hw ▸ h⟩
  rw [hd, Tbl.get?_modify]
  split
  · subst_vars
    rw [Option.map_map, show Drive.tally ∘ f = Drive.tally from funext hf]
  · rfl

/-- A change of every drive that keeps its tally. -/
theorem Mem.Steady.of_map {m m' : Mem} {f : Drive → Drive} (hf : ∀ y, (f y).tally = y.tally)
    (hd : m'.drives = m.drives.map (fun d => (d.1, f d.2))) (hw : m'.waits = m.waits) : Mem.Steady m m' := by
  refine ⟨fun k => ?_, fun _ h => hw ▸ h⟩
  rw [hd, Tbl.get?_mapValues, Option.map_map, show Drive.tally ∘ f = Drive.tally from funext hf]

/-- A key that is not listed is not listed after a change of the values. -/
theorem Tbl.get?_map_none {α : Type} {t : Tbl α} {k : Nat} {g : Nat × α → Nat × α} (hg : ∀ x, (g x).1 = x.1) (h : t.get? k = none) :
    Tbl.get? (t.map g : Tbl α) k = none := by
  induction t with
  | nil => rfl
  | cons x t ih =>
    rw [Tbl.get?] at h
    split at h
    · cases h
    · next hx =>
      rw [List.map_cons, Tbl.get?, if_neg (by rwa [hg])]
      exact ih h

/-- Commands on a drive's queues leave its tally. -/
theorem tally_queue {c : NvmeCmd} {g b : Nat} {y : Drive} : (Drive.queue c g b y).tally = y.tally :=
  keep_fold_any (P := fun z : Drive => z.tally = y.tally) (fun _ _ h => h) rfl

/-! ## Operations on single parts -/

section steady
variable {P : State → Prop} (hP : Steady P) {s : State} {slice : Nat} {n : PageName}
include hP

theorem State.bankWrite_steady {a : Nat} {b : Byte} (h : P s) : P (s.bankWrite a b) := by
  unfold State.bankWrite
  exact keep_either h id (hP.mem _ _ fun _ => .of_eq rfl rfl)

theorem State.bankWriteN_steady {a : Nat} {l : List Byte} (h : P s) : P (s.bankWriteN a l) := by
  induction l generalizing a s with
  | nil => exact h
  | cons b t ih => exact ih (State.bankWrite_steady hP h)

theorem State.busWrite_steady {a : Nat} {d : List Byte} (h : P s) : P (s.busWrite a d) := by
  unfold State.busWrite
  exact keep_either h (hP.base.nbu rfl _ _ _) (State.bankWriteN_steady hP)

theorem State.memWriteN_steady {a : Nat} {l : List Byte} (h : P s) : P (s.memWriteN a l) :=
  keep_foldl (fun _ _ => State.busWrite_steady hP) h

theorem State.zeroGranules_steady {place : Nat × Nat} {k : Nat} (h : P s) : P (s.zeroGranules place k) := by
  have zero {t : State} {lo hi : Nat} : P t → P (t.memZero lo hi) := hP.mem _ _ fun _ => .of_eq rfl rfl
  unfold State.zeroGranules
  refine keep_either h (keep_foldl fun t i k => ?_) zero
  exact keep_either k (hP.base.nbu rfl _ _ _) zero

theorem State.writeImage_steady {f : PageFormat} {frame : Nat × Nat} {img : List (Nat × Byte)} (h : P s) : P (s.writeImage f frame img) :=
  keep_foldl (fun _ _ => State.busWrite_steady hP) (State.zeroGranules_steady hP h)

theorem State.clearMark_steady (h : P s) : P s.clearMark := by
  unfold State.clearMark
  refine keep_either h (fun k => hP.base.emitted rfl _ _ (hP.mem _ _ (fun _ => ?_) k)) id
  exact .of_map (f := fun d => { d with mark := false }) (fun _ => rfl) rfl rfl

theorem State.onDrive_steady {d : Nat} {f : Drive → Drive} (hf : ∀ y, (f y).tally = y.tally) (h : P s) : P (s.onDrive d f) :=
  hP.mem _ _ (fun _ => .of_modify hf rfl rfl) h

theorem State.onEntry_steady {f : Entry → Entry} (h : P s) : P (s.onEntry slice n f) :=
  hP.home _ _ (fun _ => rfl) (State.clearMark_steady hP h)

theorem State.onSeq_steady {handle : Nat} {f : SeqRec → SeqRec} (h : P s) : P (s.onSeq slice handle f) :=
  hP.home _ _ (fun _ => rfl) (State.clearMark_steady hP h)

theorem State.onReplica_steady {f : Replica → Replica} (h : P s) : P (s.onReplica slice n f) := hP.home _ _ (fun _ => rfl) h

theorem State.countTier_steady {q : Nat} {f : TierCount → TierCount} (h : P s) : P (s.countTier q f) := hP.home _ _ (fun _ => rfl) h

theorem State.logEvent_steady {island event sl status a b c : Nat} (h : P s) : P (s.logEvent island event sl status a b c) :=
  State.logIrq_keeps (hP.base.mono rfl) (hP.log _ _ (fun _ => Nat.le_succ _) h)

/-- A landing slot that is written is of a context that is there. -/
theorem State.writeSlots_steady {st : Nat} {code : Code} (h : P s) : P (s.writeSlots slice n st code) := by
  unfold State.writeSlots
  exact hP.eng _ _ (fun _ _ => Tbl.get?_map_none fun _ => by split <;> rfl) h

/-! ## Frames, generations and fences of a page -/

theorem State.retire_steady {q : Nat} {r : Retired} (h : P s) : P (s.retire q r) :=
  hP.mem _ _ (fun _ => .of_eq rfl rfl) (State.clearMark_steady hP h)

theorem State.retireUnit_steady {q k : Nat} {place : Nat × Nat} (h : P s) : P (s.retireUnit q place k) := by
  unfold State.retireUnit
  exact hP.eng _ _ (fun _ => .of_eq rfl) (State.retire_steady hP h)

theorem State.retireExtent_steady {q d g k : Nat} (h : P s) : P (s.retireExtent q d g k) := State.retire_steady hP h

theorem State.dropWriteFrame_steady (h : P s) : P (s.dropWriteFrame slice n) := by
  unfold State.dropWriteFrame
  split
  · exact h
  · exact keep_either h (fun k => State.onEntry_steady hP (State.retireUnit_steady hP k)) id

theorem State.retireShadow_steady (h : P s) : P (s.retireShadow slice n) := by
  unfold State.retireShadow
  split
  · exact h
  · exact keep_either h (fun k => State.onEntry_steady hP (State.retireUnit_steady hP k)) id

theorem State.retireHull_steady (h : P s) : P (s.retireHull slice n) := by
  unfold State.retireHull
  split
  · exact h
  · exact keep_either h (fun k => State.onEntry_steady hP (State.retire_steady hP k)) id

theorem State.revokeGrants_steady (h : P s) : P (s.revokeGrants slice n) := by
  unfold State.revokeGrants
  exact State.onReplica_steady hP (keep_either h (State.tellReplicas_keeps (hP.base.mono rfl)) id)

theorem State.writeAccHeader_steady {a : Accumulator} (h : P s) : P (s.writeAccHeader a) := State.memWriteN_steady hP h

theorem State.accGen_steady {gen : Nat} {relocation : Bool} (h : P s) : P (s.accGen slice n relocation gen) := by
  unfold State.accGen
  have k (f : Accumulator → Accumulator) : P (s.onHome fun h => { h with accs := h.accs.map f }) := hP.home _ _ (fun _ => rfl) h
  cases relocation with
  | false => exact k _
  | true => exact keep_foldl (fun _ _ => State.writeAccHeader_steady hP) (k _)

theorem State.bumpGen_steady {relocation : Bool} (h : P s) : P (s.bumpGen slice n relocation) := by
  unfold State.bumpGen
  split
  · exact h
  · refine keep_either ?_ (fun k => State.onReplica_steady hP (State.tellReplicas_keeps (hP.base.mono rfl) k)) id
    exact State.clearMark_steady hP (State.revokeGrants_steady hP (State.accGen_steady hP (State.onEntry_steady hP h)))

theorem State.dropCmds_steady {d : Nat} (h : P s) : P (s.dropCmds d slice n) := State.onDrive_steady hP (fun _ => rfl) h

theorem State.applyDrive_steady (h : P s) : P (s.applyDrive slice n) := by
  unfold State.applyDrive
  split
  · exact h
  · refine keep_either h (fun k => ?_) id
    split
    · exact State.bumpGen_steady hP (State.onEntry_steady hP (State.retireShadow_steady hP k))
    · exact State.onEntry_steady hP (State.retireShadow_steady hP (State.dropCmds_steady hP k))
    · exact k

/-! ## Space -/

theorem State.allocIn_steady {stack kind k : Nat} (h : P s) : OnSome (fun r => P r.2) (s.allocIn slice stack kind k) := by
  have k := State.clearMark_steady hP h
  unfold State.allocIn
  split
  · exact .none
  · dsimp only
    split
    · exact .map fun _ _ => keep_snd (hP.mem _ _ (fun _ => .of_eq rfl rfl) k)
    · split
      · exact .some (keep_snd (hP.mem _ _ (fun _ => .of_eq rfl rfl) k))
      · exact .none

theorem State.allocFrom_steady {kind k : Nat} {l : List Nat} (h : P s) : OnSome (fun r => P r.2) (s.allocFrom slice kind k l) := by
  induction l with
  | nil => exact .none
  | cons a t ih =>
    unfold State.allocFrom
    split
    · next r hr => exact .some (State.allocIn_steady hP h r hr)
    · exact ih

theorem State.allocFrame_steady (h : P s) : OnSome (fun r => P r.2) (s.allocFrame slice n) := by
  unfold State.allocFrame
  dsimp only
  split
  · exact .none
  · exact State.allocFrom_steady hP h

theorem State.allocExtent_steady {k : Nat} (h : P s) : OnSome (fun r => P r.2) (s.allocExtent slice n k) := by
  unfold State.allocExtent
  refine .findSome fun d => ?_
  split
  · split
    · exact .none
    · split
      · exact .map fun _ _ => State.onDrive_steady hP (fun _ => rfl) (State.clearMark_steady hP h)
      · exact .none
  · exact .none

theorem State.issueOne_steady {d : Nat} (h : P s) : P (s.issueOne d) := by
  unfold State.issueOne
  split
  · exact h
  · dsimp only
    split
    · refine keep_either h id fun h => ?_
      split
      · exact h
      · exact hP.base.emitted rfl _ _ (State.onDrive_steady hP (fun _ => rfl) h)
    · exact h

theorem State.issueAll_steady {d : Nat} (h : P s) : P (s.issueAll d) := keep_foldl (fun _ _ => State.issueOne_steady hP) h

theorem State.addCmds_steady {d g b : Nat} {c : NvmeCmd} (h : P s) : P (s.addCmds d c g b) :=
  State.issueAll_steady hP (State.onDrive_steady hP (fun _ => tally_queue) h)

/-! ## Requests that end -/

theorem State.dropReq_steady {r : Nat} (h : P s) : P (s.dropReq r) := by
  have hx : Closed 2097152 P := hP.base.mono rfl
  unfold State.dropReq
  split
  · exact h
  · refine State.onCtx_keeps hx (fun _ k => k) (keep_either ?_ (hP.base.sch rfl _ _) id)
    refine hP.home _ _ (fun _ => by split <;> rfl) (hP.eng _ _ (fun _ => .of_filter rfl) ?_)
    exact hP.base.reqs rfl _ _ (fun t => Tbl.keys_erase t r) h

theorem State.finishReq_steady {r : Nat} {code : Code} {body : RespBody} (h : P s) : P (s.finishReq r code body) := by
  unfold State.finishReq
  split
  · exact h
  · exact State.respond_keeps (hP.base.mono rfl) (State.dropReq_steady hP h)

/-! ## Page states, leases, and the fate of a page that does not land -/

theorem State.sendCopy_steady {node : Nat} (h : P s) : P (s.sendCopy slice n node) := by
  unfold State.sendCopy
  split
  · exact h
  · split
    · exact h
    · exact hP.base.link rfl _ _ (fun _ _ k => k) (State.onReplica_steady hP h)

theorem State.setPageState_steady {st : PageState} (h : P s) : P (s.setPageState slice n st) := by
  unfold State.setPageState
  refine keep_either (State.onEntry_steady hP (keep_either h (State.revokeGrants_steady hP) id)) (fun k => ?_) id
  unfold State.copyOut
  split
  · exact k
  · exact keep_either k id (keep_foldl fun _ _ => State.sendCopy_steady hP)

theorem State.dropEntry_steady (h : P s) : P (s.dropEntry slice n) := by
  unfold State.dropEntry
  refine State.onSeq_steady hP (hP.mem _ _ (fun _ => ⟨fun _ => rfl, fun _ k => List.mem_of_mem_filter k⟩) ?_)
  refine hP.home _ _ (fun _ => rfl) (State.clearMark_steady hP ?_)
  split
  · exact hP.home _ _ (fun _ => rfl) h
  · exact h

theorem State.dropReplica_steady (h : P s) : P (s.dropReplica slice n) :=
  hP.home _ _ (fun _ => rfl) (State.tellReplicas_keeps (hP.base.mono rfl) h)

theorem State.undoAcquire_steady {slot : Nat} {made : List PageName} {pre : List (PageName × PageState)} (h : P s) :
    P (s.undoAcquire slot made pre) := by
  unfold State.undoAcquire
  split
  · exact h
  · refine State.onSeq_steady hP (hP.home _ _ (fun _ => rfl) ?_)
    refine keep_foldl (fun _ _ => State.dropEntry_steady hP) (keep_foldl (fun _ _ => State.setPageState_steady hP) ?_)
    exact keep_foldl (fun _ _ => State.dropWriteFrame_steady hP) (hP.home _ _ (fun _ => rfl) h)

theorem State.tellFate_steady {fate : Fate} (hf : fate ≠ .landed) (h : P s) : P (s.tellFate slice n fate) := by
  unfold State.tellFate
  refine keep_foldl (fun t p k => ?_) (hP.base.reqs rfl _ _ (fun t => Tbl.keys_map fun p => by split <;> rfl) h)
  refine keep_either k id fun k => ?_
  split
  · exact State.finishReq_steady hP k
  · refine keep_either k id fun k => ?_
    rw [if_neg hf]
    exact State.finishReq_steady hP (State.undoAcquire_steady hP k)
  · exact k

end steady

/-! ## Pages that are lost, recovered or filled (R224, R241, R242) -/

section roving
variable {P : State → Prop} (hP : Roving P) {s : State} {slice : Nat} {n : PageName}
include hP

theorem State.losePage_roving {cause drive lba nvme : Nat} (h : P s) : P (s.losePage slice n cause drive lba nvme) := by
  have hS := hP.toSteady
  unfold State.losePage
  split
  · exact h
  · refine State.tellFate_steady hS nofun (keep_either ?_ (fun k => State.bumpGen_steady hS (State.onEntry_steady hS k))
      (fun k => State.dropEntry_steady hS (State.dropWriteFrame_steady hS k)))
    refine State.dropReplica_steady hS (State.retireHull_steady hS (State.retireShadow_steady hS ?_))
    refine keep_either (keep_either ?_ (State.retireUnit_steady hS) id) (State.retireExtent_steady hS) id
    refine State.countTier_steady hS (State.logEvent_steady hS (State.logEvent_steady hS ?_))
    exact hP.fills _ _ (State.writeSlots_steady hS h)

theorem State.askNext_roving (h : P s) : P (s.askNext slice n) := by
  unfold State.askNext
  split
  · split
    · exact hP.base.link rfl _ _ (fun _ _ k => k) (hP.fills _ _ h)
    · refine keep_either h id fun h => ?_
      split <;> exact State.losePage_roving hP h
  · exact h

theorem State.startRecovery_roving {cause : Nat} {media : Option (Nat × Nat)} (h : P s) : P (s.startRecovery slice n cause media) := by
  unfold State.startRecovery
  split
  · exact keep_either h id fun h => State.askNext_roving hP (hP.fills _ _ h)
  · exact State.askNext_roving hP (hP.fills _ _ h)

theorem State.entryDriveFailed_roving (h : P s) : P (s.entryDriveFailed slice n) := by
  have hS := hP.toSteady
  have k := State.applyDrive_steady hS (slice := slice) (n := n) h
  unfold State.entryDriveFailed
  dsimp only
  split
  · exact k
  · refine keep_either k (fun k => ?_) fun k => keep_either k (State.startRecovery_roving hP) id
    exact State.bumpGen_steady hS (State.onEntry_steady hS (State.retireUnit_steady hS (hP.fills _ _ k)))

theorem State.classFill_roving {g : Nat → Nat} (h : P s) : P (s.classFill slice n g) := by
  unfold State.classFill
  split
  · exact h
  · exact State.onDrive_steady hP.toSteady (fun _ => rfl) (hP.fills _ _ h)

theorem State.placeFill_roving (h : P s) : P (s.placeFill slice n) := by
  have hS := hP.toSteady
  unfold State.placeFill
  split
  · refine keep_either h id fun h => ?_
    split
    · exact h
    · next he => exact State.addCmds_steady hS (State.onEntry_steady hS (hP.fills _ _ (State.allocFrame_steady hS h _ he)))
  · exact h

theorem State.startFill_roving {cls : Nat} {lookahead : Bool} (h : P s) : P (s.startFill slice n cls lookahead) := by
  unfold State.startFill
  split
  · exact h
  · refine keep_either h (State.classFill_roving hP) fun h => keep_either h (fun h => ?_) fun h => ?_
    · exact keep_either h id (State.startRecovery_roving hP)
    · exact keep_either h (fun h => State.placeFill_roving hP (hP.fills _ _ h)) id

theorem State.fallBack_roving (h : P s) : P (s.fallBack slice n).2.2 := by
  unfold State.fallBack
  split
  · exact h
  · dsimp only
    refine keep_either ?_ id (State.classFill_roving hP)
    exact keep_either (State.countTier_steady hP.toSteady h) (State.startRecovery_roving hP) (State.startFill_roving hP)

end roving

/-! ## The predicates -/

/-- What contexts that are dropped or changed keep. -/
theorem roving_absent (k : Nat) : Roving (fun t => t.eng.ctxs.get? k = none) where
  base := .of_view (fun x => eng_closed x rfl rfl) (fun e => e.ctxs.get? k = none)
  log _ _ _ h := h
  eng _ s hf h := hf s.eng k h
  mem _ _ _ h := h
  home _ _ _ h := h
  fills _ _ h := h

theorem roving_tally (d : Nat) (x : Option (Bool × Nat × Nat)) : Roving (fun t => (t.mem.drives.get? d).map Drive.tally = x) where
  base := .of_view (fun x => mem_closed x rfl rfl rfl) (fun m => (m.drives.get? d).map Drive.tally = x)
  log _ _ _ h := h
  eng _ _ _ h := h
  mem _ s hf h := ((hf s.mem).1 d).trans h
  home _ _ _ h := h
  fills _ _ h := h

theorem roving_logged (k : Nat) : Roving (fun t => k < t.log.nextSeq) where
  base := .of_view (fun x => log_closed x rfl rfl) (fun l => k < l.nextSeq)
  log _ s hf h := Nat.lt_of_lt_of_le h (hf s.log)
  eng _ _ _ h := h
  mem _ _ _ h := h
  home _ _ _ h := h
  fills _ _ h := h

theorem roving_noWrites (slice : Nat) (n : PageName) : Roving (fun t => noWrites t slice n) where
  base := .of_view (fun x => mem_closed x rfl rfl rfl) (fun m => ∀ w ∈ m.waits, ¬(w.slice = slice ∧ w.name = n))
  log _ _ _ h := h
  eng _ _ _ h := h
  mem _ s hf h := fun w hw => h w ((hf s.mem).2 w hw)
  home _ _ _ h := h
  fills _ _ h := h

theorem steady_fills (x : List Fill) : Steady (fun t => t.home.fills = x) where
  base := .of_view (fun x => home_closed x rfl rfl) (fun h => h.fills = x)
  log _ _ _ h := h
  eng _ _ _ h := h
  mem _ _ _ h := h
  home _ s hf h := (hf s.home).trans h

end Sys2Proof.Machine
end

section
/-! SUPPORT. An ATTEND_FWD that waits for parked pages (R234, R235, R318, R325): what a lost page leaves of it, the code that a deadline
gives a page, the answer once its last page is decided, and the resumption of a context. -/

namespace Sys2Proof.Machine

variable {s : State} {slice r idx k : Nat} {n : PageName} {q : Req}

/-! ## The request while a page of another is lost -/

/-- Two predicates that closed operations keep are kept together. -/
theorem Closed.and {m : Nat} {P Q : State → Prop} (hP : Closed m P) (hQ : Closed m Q) : Closed m (fun t => P t ∧ Q t) where
  aon b f s h := ⟨hP.aon b f s h.1, hQ.aon b f s h.2⟩
  ras b f s h := ⟨hP.ras b f s h.1, hQ.ras b f s h.2⟩
  pwr b f s h := ⟨hP.pwr b f s h.1, hQ.pwr b f s h.2⟩
  sec b f s h := ⟨hP.sec b f s h.1, hQ.sec b f s h.2⟩
  host b f s h := ⟨hP.host b f s h.1, hQ.host b f s h.2⟩
  log b f s h := ⟨hP.log b f s h.1, hQ.log b f s h.2⟩
  sch b f s h := ⟨hP.sch b f s h.1, hQ.sch b f s h.2⟩
  eng b f s h := ⟨hP.eng b f s h.1, hQ.eng b f s h.2⟩
  nbu b r f s h := ⟨hP.nbu b r f s h.1, hQ.nbu b r f s h.2⟩
  mem b f s x y h := ⟨hP.mem b f s x y h.1, hQ.mem b f s x y h.2⟩
  cells b f s x h := ⟨hP.cells b f s x h.1, hQ.cells b f s x h.2⟩
  home b f s h := ⟨hP.home b f s h.1, hQ.home b f s h.2⟩
  locus b f s h := ⟨hP.locus b f s h.1, hQ.locus b f s h.2⟩
  xpt b f s h := ⟨hP.xpt b f s h.1, hQ.xpt b f s h.2⟩
  eth b f s h := ⟨hP.eth b f s h.1, hQ.eth b f s h.2⟩
  reqs b f s x h := ⟨hP.reqs b f s x h.1, hQ.reqs b f s x h.2⟩
  nextReq b q s h := ⟨hP.nextReq b q s h.1, hQ.nextReq b q s h.2⟩
  image b i s h := ⟨hP.image b i s h.1, hQ.image b i s h.2⟩
  free b s h := ⟨hP.free b s h.1, hQ.free b s h.2⟩
  emitted b x s h := ⟨hP.emitted b x s h.1, hQ.emitted b x s h.2⟩
  drop b s h := ⟨hP.drop b s h.1, hQ.drop b s h.2⟩
  link b f s x h := ⟨hP.link b f s x h.1, hQ.link b f s x h.2⟩

/-- The request is an ATTEND_FWD. -/
def Req.isFwd (q : Req) : Prop := ∃ p pages rows skips m, q.kind = .attend p pages rows skips m

theorem pinFate_fwd {fate : Fate} (h : q.isFwd) : pinFate n fate q = q := by
  obtain ⟨p, pages, rows, skips, m, hk⟩ := h
  unfold pinFate
  rw [hk]

/-- A page's fate does nothing with an ATTEND_FWD, whose contexts hear of the page. -/
theorem fateStep_fwd {fate : Fate} {x : Nat × Req} (h : x.2.isFwd) : s.fateStep slice n fate x = s := by
  obtain ⟨p, pages, rows, skips, m, hk⟩ := h
  unfold State.fateStep
  rw [hk]
  exact ite_self _

/-- The requests stand under rising numbers, and under the number stands this one. -/
def State.Holds (r : Nat) (q : Req) (s : State) : Prop := s.ReqsOk ∧ s.reqs.get? r = some q

theorem holds_tellFate (hq : q.isFwd) (h : s.Holds r q) : (s.tellFate slice n .lost).Holds r q := by
  obtain ⟨hok, hget⟩ := h
  have hheard : (heard slice n .lost s.reqs).get? r = some q := by
    refine (Tbl.get?_mapValues s.reqs (fun q => if q.slice = slice then pinFate n .lost q else q)).trans ?_
    rw [hget, Option.map_some, pinFate_fwd hq, ite_self]
  have hkeys : (heard slice n .lost s.reqs).map Prod.fst = s.reqs.map Prod.fst := by
    unfold heard
    rw [List.map_map]
    rfl
  refine ⟨State.tellFate_keeps (reqsOk_closed _) hok, ?_⟩
  rw [tellFate_eq]
  refine List.foldlRecOn (motive := fun t : State => t.reqs.get? r = some q) _ _ hheard fun t ht x hx => ?_
  by_cases hxr : x.1 = r
  · have hxq := Tbl.get?_of_mem (k := x.1) (v := x.2) (hkeys ▸ hok.1) hx
    rw [hxr, hheard] at hxq
    rwa [fateStep_fwd (Option.some.inj hxq ▸ hq)]
  · rwa [get_fateStep fun h => absurd h hxr]

theorem tameFate_holds (hq : q.isFwd) : TameFate (State.Holds r q) where
  base := (reqsOk_closed _).and (.of_view (fun x => reqs_closed x rfl rfl rfl) (fun t => t.get? r = some q))
  home _ _ _ h := h
  lost _ _ _ h := holds_tellFate hq h

theorem State.fallBack_tame {P : State → Prop} (hP : TameFate P) (h : P s) : P (s.fallBack slice n).2.2 := by
  have lower {t : State} (k : P t) : P (t.classFill slice n fun _ => 4) := by
    unfold State.classFill
    split
    · exact k
    · exact State.onDrive_keeps (hP.base.mono rfl) (fun _ k => k) (State.onFill_tame hP.toTame k)
  unfold State.fallBack
  split
  · exact h
  · dsimp only
    refine keep_either ?_ id lower
    exact keep_either (State.countTier_tame hP.toTame h) (State.startRecovery_tame hP) (State.startFill_tame hP)

/-! ## The deadline decision (R235, R236) -/

/-- The code that a deadline gives a page that waits: its shadow can be read, or it misses. -/
def State.deadlineCode (s : State) (slice : Nat) (n : PageName) : Code :=
  match s.entry slice n with
  | some e => if e.shadowValid && !s.stackFenced e.shadowFrame.1 then .deadlineFallback else .miss
  | none => .miss

theorem fallBack_code : (s.fallBack slice n).1 = s.deadlineCode slice n := by
  unfold State.fallBack State.deadlineCode
  cases s.entry slice n with
  | none => rfl
  | some e =>
    dsimp only
    cases e.shadowValid && !s.stackFenced e.shadowFrame.1 <;> rfl

/-! ## A page that is decided -/

variable {p : FwdParams} {pages : List PageWait} {rows : List Triple} {skips : List Nat} {m : Nat} {codes : List Code} {w : PageWait}

/-- A request whose pages are all decided answers (R89). -/
theorem keepOrAnswer_answers (hq : s.reqs.get? r = some q) (hc : pageCodes pages = some codes) :
    s.keepOrAnswer r p pages rows skips m =
      s.finishReq r (rangeCode codes) (fwdBody (s.format q.slice) p codes skips m rows) := by
  unfold State.keepOrAnswer
  rw [hq]
  dsimp only
  rw [hc]

/-- A request with a page that is not decided keeps what it has. -/
theorem keepOrAnswer_keeps (hq : s.reqs.get? r = some q) (hc : pageCodes pages = none) :
    s.keepOrAnswer r p pages rows skips m = s.onReqs (fun t => t.modify r fun q => { q with kind := .attend p pages rows skips m }) := by
  unfold State.keepOrAnswer
  rw [hq]
  dsimp only
  rw [hc]

theorem setPage_eq (hq : s.reqs.get? r = some q) (hk : q.kind = .attend p pages rows skips m) :
    s.setPage r idx w = s.keepOrAnswer r p (pages.set idx w) rows skips m := by
  unfold State.setPage
  rw [hq]
  dsimp only
  rw [hk]

/-- The lines of a frame that is read, and the reads that wait, leave the contexts. -/
theorem ctxs_touchFrame {src : PageSrc} {heads : List Nat} : (s.touchFrame src heads).eng.ctxs = s.eng.ctxs := by
  have hline (t : State) (a : Nat) : (t.touchLine a).eng.ctxs = t.eng.ctxs := by
    unfold State.touchLine
    split <;> rfl
  unfold State.touchFrame
  rw [State.busReads_keeps (eng_closed _ rfl rfl) rfl]
  exact keep_foldl (P := fun t => t.eng.ctxs = s.eng.ctxs) (fun t a h => (hline t a).trans h) rfl

/-- A page that contributes is merged into the rows and decided, and counted by its path. -/
theorem mergePage_eq {code : Code} {near : Bool} {accs : State → FwdParams → List RowAcc} (hq : s.reqs.get? r = some q)
    (hk : q.kind = .attend p pages rows skips m) : ∃ merged, s.mergePage r idx code near accs =
      (s.countPath r near).bump.keepOrAnswer r p (pages.set idx (.done code)) merged skips m := by
  unfold State.mergePage
  rw [hq]
  dsimp only
  rw [hk]
  exact ⟨_, rfl⟩

/-- A page that has come is read, which leaves requests, queue pairs and contexts, and is then merged. -/
theorem addPage_eq {code : Code} {src : PageSrc} {skip : List Nat} (hq : s.reqs.get? r = some q)
    (hk : q.kind = .attend p pages rows skips m) : ∃ (t : State) (merged : List Triple), s.addPage r idx code src skip =
      (t.countPath r false).bump.keepOrAnswer r p (pages.set idx (.done code)) merged skips m ∧
      t.reqs = s.reqs ∧ t.xpt = s.xpt ∧ t.eng.ctxs = s.eng.ctxs := by
  have hreqs : (s.touchFrame src (headsRead p src skip)).reqs = s.reqs := State.touchFrame_keeps (reqs_closed s.reqs rfl rfl rfl) rfl
  obtain ⟨merged, hm⟩ := mergePage_eq (idx := idx) (code := code) (near := false) (hreqs ▸ hq)
    (accs := fun s p => s.rowsPage r p src skip (rows.map fun _ => .start (PageFormatD (s.format q.slice)))) hk
  refine ⟨_, merged, Eq.trans ?_ hm, hreqs, State.touchFrame_keeps (xpt_closed s.xpt rfl rfl rfl) rfl, ctxs_touchFrame⟩
  unfold State.addPage
  rw [hq]
  dsimp only
  rw [hk]

/-- A request whose page is counted by its path on cells. -/
theorem get_countPath (hq : s.reqs.get? r = some q) :
    (s.countPath r false).reqs.get? r = some { q with cellPages := q.cellPages + 1 } := by
  unfold State.countPath
  rw [State.onReqs_reqs, Tbl.get?_modify_same, hq]
  rfl

/-- A request that is answered is off the list, its answer is the last one held, and no context comes back. -/
theorem finishReq_parts {code : Code} {body : RespBody} (hq : s.reqs.get? r = some q) (hrts : s.inRts q.hdr.pkt.qpn)
    (hk : s.eng.ctxs.get? k = none) : (s.finishReq r code body).reqs.get? r = none ∧ (s.finishReq r code body).eng.ctxs.get? k = none ∧
      lastResponse (s.finishReq r code body) q.hdr.pkt.qpn = some (q.op, 0, code, body) :=
  ⟨finishReq_gone hq ▸ Tbl.get?_erase_same _ _, State.finishReq_steady (roving_absent k).toSteady hk, finishReq_last hq hrts⟩

/-- A page that has come and is the last one to be decided: the request answers. -/
theorem addPage_answers {code : Code} {src : PageSrc} {skip : List Nat} (hq : s.reqs.get? r = some q)
    (hk : q.kind = .attend p pages rows skips m) (hc : pageCodes (pages.set idx (.done code)) = some codes)
    (hrts : s.inRts q.hdr.pkt.qpn) (hgone : s.eng.ctxs.get? k = none) :
    (s.addPage r idx code src skip).reqs.get? r = none ∧ (s.addPage r idx code src skip).eng.ctxs.get? k = none ∧
      ∃ body, lastResponse (s.addPage r idx code src skip) q.hdr.pkt.qpn = some (q.op, 0, rangeCode codes, body) := by
  obtain ⟨t, merged, he, hreqs, hxpt, hctxs⟩ := addPage_eq (idx := idx) (code := code) (src := src) (skip := skip) hq hk
  have hu : (t.countPath r false).bump.reqs.get? r = some { q with cellPages := q.cellPages + 1 } := get_countPath (hreqs ▸ hq)
  have hrts' : (t.countPath r false).bump.inRts q.hdr.pkt.qpn := by
    unfold State.inRts State.ctx at hrts ⊢
    rwa [← hxpt] at hrts
  rw [he, keepOrAnswer_answers hu hc]
  obtain ⟨hr, hctx, hlast⟩ := finishReq_parts hu hrts' (k := k) (hctxs ▸ hgone)
  exact ⟨hr, hctx, _, hlast⟩

/-- The deadline decision of a waiting page is its code, or its shadow's rows with that code. -/
theorem decideDeadline_eq {tries : Nat} {skip : List Nat} {c : ParkedCtx} (hq : s.reqs.get? r = some q)
    (hk : q.kind = .attend p pages rows skips m) (hw : pages[idx]? = some (.waiting k tries skip)) (hc : s.eng.ctxs.get? k = some c)
    (hs : c.slotState = 0) (hd : p.deadline ≠ 0) (hm : (p.deadline : Int) - (s.cfg q.slice).tier.deadlineMargin * 1000 ≤ s.now) :
    let x := (s.freeCtx k).fallBack q.slice c.name
    s.decideDeadline r idx = match x.2.1 with
      | none => x.2.2.setPage r idx (.done x.1)
      | some src => x.2.2.addPage r idx x.1 src skip := by
  unfold State.decideDeadline
  rw [hq]
  dsimp only
  rw [hk]
  dsimp only
  rw [hw]
  dsimp only
  rw [hc]
  dsimp only
  rw [if_pos ⟨hs, hd, hm⟩]
  split
  · next h => rw [h]
  · next h => rw [h]

/-- A deadline that decides the last page of a request answers it. -/
theorem decideDeadline_answers {tries : Nat} {skip : List Nat} {c : ParkedCtx} (hok : s.ReqsOk) (hq : s.reqs.get? r = some q)
    (hk : q.kind = .attend p pages rows skips m) (hw : pages[idx]? = some (.waiting k tries skip)) (hc : s.eng.ctxs.get? k = some c)
    (hs : c.slotState = 0) (hd : p.deadline ≠ 0) (hm : (p.deadline : Int) - (s.cfg q.slice).tier.deadlineMargin * 1000 ≤ s.now)
    (hrts : s.inRts q.hdr.pkt.qpn) (hcodes : pageCodes (pages.set idx (.done (s.deadlineCode q.slice c.name))) = some codes) :
    (s.decideDeadline r idx).reqs.get? r = none ∧ (s.decideDeadline r idx).eng.ctxs.get? k = none ∧
      ∃ bodies, lastResponse (s.decideDeadline r idx) q.hdr.pkt.qpn = some (q.op, 0, rangeCode codes, bodies) := by
  have hfwd : q.isFwd := ⟨p, pages, rows, skips, m, hk⟩
  rw [decideDeadline_eq hq hk hw hc hs hd hm]
  generalize hx : (s.freeCtx k).fallBack q.slice c.name = x
  have hcode : x.1 = s.deadlineCode q.slice c.name := hx ▸ fallBack_code
  have hgone : x.2.2.eng.ctxs.get? k = none := hx ▸ State.fallBack_roving (roving_absent k) (Tbl.get?_erase_same _ _)
  have hheld : x.2.2.reqs.get? r = some q := (hx ▸ State.fallBack_tame (tameFate_holds hfwd) ⟨hok, hq⟩ : x.2.2.Holds r q).2
  have hrts' : x.2.2.inRts q.hdr.pkt.qpn := hx ▸ State.fallBack_keeps (rts_closed _ rfl rfl) hrts
  rw [← hcode] at hcodes
  split
  · rw [setPage_eq hheld hk, keepOrAnswer_answers hheld hcodes]
    obtain ⟨hr, hctx, hlast⟩ := finishReq_parts hheld hrts' hgone
    exact ⟨hr, hctx, _, hlast⟩
  · exact addPage_answers hheld hk hcodes hrts' hgone

/-! ## A context that resumes (R318, R325) -/

section resume
variable {c : ParkedCtx} (hc : s.eng.ctxs.get? k = some c) (hsave : c.saving = none) (hrestore : c.restoring = none)
include hc hsave hrestore

/-- A context with an accumulator starts its restore where a cell can take it. -/
theorem resume_restores {a : Accum} {x : Nat × Nat} (h0 : c.slotState ≠ 0) (ha : c.acc = some a) (hx : s.cellFor c = some x) :
    s.resume k = s.onParked k (fun c => { c with restoring := some x }) := by
  unfold State.resume
  rw [hc]
  simp only [h0, hsave, hrestore, ha, hx, Option.isSome_none, Bool.false_eq_true, or_self, if_false]

/-- A context with an accumulator stays where no cell can take it. -/
theorem resume_stays {a : Accum} (h0 : c.slotState ≠ 0) (ha : c.acc = some a) (hx : s.cellFor c = none) : s.resume k = s := by
  unfold State.resume
  rw [hc]
  simp only [h0, hsave, hrestore, ha, hx, Option.isSome_none, Bool.false_eq_true, or_self, if_false]

/-- A context of an ATTEND_FWD whose page has its code leaves, its page decided. -/
theorem resume_decides (ha : c.acc = none) (h2 : c.slotState = 2) (hq : s.reqs.get? c.req = some q)
    (hk : q.kind = .attend p pages rows skips m) :
    s.resume k = (s.freeCtx k).keepOrAnswer c.req p (pages.set c.page (.done c.pageCode)) rows skips m := by
  have hw : s.resume k = s.wakeFwd 0 k c q p (waitSkips pages c.page) := by
    unfold State.resume
    rw [hc]
    simp [hsave, hrestore, ha, h2, hq, hk]
  rw [hw]
  unfold State.wakeFwd
  rw [if_pos h2]
  exact setPage_eq hq hk

end resume

end Sys2Proof.Machine
end

section
/-! The statement on parked pages. -/

open Sys2Proof Sys2Proof.Machine

/-- Settles O16: a context that resumes restores, stays, or decides its page; a deadline's decision starts or goes on with a fill or a recovery,
which may lose the page and end other requests, but neither brings the context back nor touches the request. -/
theorem parkedPagesResumeOrTimeOut : Obligations.ParkedPagesResumeOrTimeOut := by
  unfold Obligations.ParkedPagesResumeOrTimeOut
  constructor
  · intro k s c hrun hc h0 hsave hrestore
    refine ⟨fun a x ha hx => ?_, fun a ha hx => ?_, fun q p pages rows skips n ha h2 hq hk hrts => ?_⟩
    · exact congrArg Host.Outcome.next ((whenUp_running hrun).trans (resume_restores hc hsave hrestore h0 ha hx))
    · exact congrArg Host.Outcome.next ((whenUp_running hrun).trans (resume_stays hc hsave hrestore h0 ha hx))
    · have hgone : (s.freeCtx k).eng.ctxs.get? k = none := Tbl.get?_erase_same _ _
      refine ⟨_, congrArg Host.Outcome.next ((whenUp_running hrun).trans (resume_decides hc hsave hrestore ha h2 hq hk)), ?_⟩
      cases hcodes : pageCodes (pages.set c.page (.done c.pageCode)) with
      | some codes =>
        rw [keepOrAnswer_answers (s := s.freeCtx k) hq hcodes]
        obtain ⟨-, hctx, hlast⟩ := finishReq_parts (s := s.freeCtx k) hq hrts hgone
        exact ⟨hctx, finishReq_gone (s := s.freeCtx k) hq, hlast⟩
      | none =>
        rw [keepOrAnswer_keeps (s := s.freeCtx k) hq hcodes]
        refine ⟨hgone, ?_⟩
        dsimp only
        rw [State.onReqs_reqs, Tbl.get?_modify_same, show (s.freeCtx k).reqs.get? c.req = some q from hq, Option.map_some]
  · intro r idx s q p pages rows skips n k tries skip c codes hrun hok hq hk hw hc hs hd hm hrts code hcodes
    exact ⟨_, congrArg Host.Outcome.next (whenUp_running hrun), decideDeadline_answers hok hq hk hw hc hs hd hm hrts hcodes⟩

end

section
/-! SUPPORT. Fills and recoveries (R224, R225, R241, R246): with no acquire and no write waiting for the page, a page that lands changes no
entry further; how a fill lands, finds its frame or falls back, and how a recovery asks its replicas and takes a copy. -/

namespace Sys2Proof.Machine

variable {s : State} {slice : Nat} {n : PageName} {f : Fill} {e : Entry} {p : Nat × Nat}

/-! ## Who hears of a page -/

section view
variable {α : Type} {view : Home → α} (hv : ∀ h a b, view { h with inflightCur := a, inflightPrev := b } = view h)
include hv

/-- A request that ends changes of the home only how many are in flight. -/
theorem view_finishReq {r : Nat} {code : Code} {body : RespBody} : view (s.finishReq r code body).home = view s.home := by
  have hdrop : view (s.dropReq r).home = view s.home := by
    unfold State.dropReq
    split
    · rfl
    · next q _ =>
      dsimp only
      unfold State.onCtx
      rw [State.onXpt_home]
      split <;> simp only [State.onSch_home, State.onHome_home] <;> split <;> exact hv ..
  unfold State.finishReq
  split
  · rfl
  · exact (congrArg view (respond_frame (home_closed _ rfl rfl) rfl)).trans hdrop

/-- A fate does nothing more with a request that is no acquire. -/
theorem view_fateStep {fate : Fate} {x : Nat × Req} (hx : ∀ p w slot made pre, x.2.kind ≠ .acquire p w slot made pre) :
    view (s.fateStep slice n fate x).home = view s.home := by
  unfold State.fateStep
  split
  · rfl
  · split
    · exact view_finishReq hv
    · next hk => exact absurd hk (hx _ _ _ _ _)
    · rfl

/-- With no acquire waiting, a page's fate ends PINs alone. -/
theorem view_tellFate {fate : Fate} (ha : noAcquire s) : view (s.tellFate slice n fate).home = view s.home := by
  rw [tellFate_eq]
  refine List.foldlRecOn (motive := fun t : State => view t.home = view s.home) _ _ rfl fun t ht x hx => ?_
  refine (view_fateStep hv fun p w slot made pre hk => ?_).trans ht
  obtain ⟨y, hy, rfl⟩ := List.mem_map.mp hx
  dsimp only at hk
  unfold pinFate at hk
  have := ha y hy p w slot made pre
  split at hk
  · split at hk
    · split at hk
      · cases hk
      · exact this hk
    · exact this hk
  · exact this hk

end view

/-- A change of the memory that changes nothing there. -/
theorem onMem_same {g : Mem → Mem} (h : g s.mem = s.mem) : s.onMem g = s := by
  unfold State.onMem
  rw [h]

/-- With no write waiting for the page, none is done. -/
theorem applyWaits_idle (h : noWrites s slice n) : s.applyWaits slice n = s := by
  have hmine (w : WaitWrite) (hw : w ∈ s.mem.waits) : (decide (w.slice = slice) && decide (w.name = n)) = false := by
    simpa using h w hw
  have hnone : s.mem.waits.filter (fun w => decide (w.slice = slice) && decide (w.name = n)) = [] :=
    List.filter_eq_nil_iff.mpr fun w hw => by rw [hmine w hw]; exact Bool.false_ne_true
  have hall : s.mem.waits.filter (fun w => !(decide (w.slice = slice) && decide (w.name = n))) = s.mem.waits :=
    List.filter_eq_self.mpr fun w hw => by rw [hmine w hw]; rfl
  unfold State.applyWaits
  dsimp only
  rw [hnone, List.foldl_nil]
  exact onMem_same (by rw [hall])

theorem fillOf_congr {t : State} (h : t.home.fills = s.home.fills) : t.fillOf slice n = s.fillOf slice n := by
  unfold State.fillOf
  rw [h]

theorem fillOf_endFill : (s.endFill slice n).fillOf slice n = none := by
  unfold State.fillOf State.endFill
  rw [State.onHome_home]
  refine List.find?_eq_none.mpr fun x hx => ?_
  rw [Bool.not_eq_true]
  exact (Bool.not_eq_true' _).mp (List.mem_filter.mp hx).2

theorem fillOf_onFill {g : Fill → Fill} (hg : ∀ x, (g x).slice = x.slice ∧ (g x).name = x.name) :
    (s.onFill slice n g).fillOf slice n = (s.fillOf slice n).map g := by
  have hk : (fun x : Fill => decide (x.slice = slice) && decide (x.name = n)) ∘
      (fun x => if x.slice = slice ∧ x.name = n then g x else x) = fun x => decide (x.slice = slice) && decide (x.name = n) := by
    funext x
    dsimp only [Function.comp_apply]
    split
    · rw [(hg x).1, (hg x).2]
    · rfl
  unfold State.fillOf State.onFill
  rw [State.onHome_home]
  dsimp only
  rw [List.find?_map, hk]
  cases hx : s.home.fills.find? fun x => decide (x.slice = slice) && decide (x.name = n) with
  | none => rfl
  | some x => exact congrArg some (if_pos (by simpa using List.find?_some hx))

theorem fillOf_onFill_some {g : Fill → Fill} (hg : ∀ x, (g x).slice = x.slice ∧ (g x).name = x.name) (hf : s.fillOf slice n = some f) :
    (s.onFill slice n g).fillOf slice n = some (g f) := (fillOf_onFill hg).trans (congrArg (Option.map g) hf)

theorem entry_onFill {g : Fill → Fill} : (s.onFill slice n g).entry slice n = s.entry slice n := rfl

/-- A fill that is found is the page's. -/
theorem fillOf_name (h : s.fillOf slice n = some f) : f.slice = slice ∧ f.name = n := by simpa using List.find?_some h

/-- With neither acquire nor write waiting, a page that lands keeps every entry as it is, and its fill is over. -/
theorem landed_quiet (hw : noWrites s slice n) (ha : noAcquire s) :
    (s.landed slice n f).home.entries = s.home.entries ∧ (s.landed slice n f).fillOf slice n = none := by
  unfold State.landed
  dsimp only
  generalize ht : (if f.lookahead && !(s.endFill slice n).awaited slice n then _ else s.endFill slice n) = t
  have hparts : t.home.entries = s.home.entries ∧ t.home.fills = (s.endFill slice n).home.fills ∧ t.mem = s.mem ∧ t.reqs = s.reqs := by
    rw [← ht]
    split <;> exact ⟨rfl, rfl, rfl, rfl⟩
  obtain ⟨hentries, hfills, hmem, hreqs⟩ := hparts
  have hw' : noWrites t slice n := by
    unfold noWrites
    rwa [hmem]
  have ha' : noAcquire (t.writeSlots slice n 1 .ok) := by
    change ∀ x ∈ t.reqs, _
    rwa [hreqs]
  rw [applyWaits_idle hw']
  exact ⟨(view_tellFate (view := Home.entries) (fun _ _ _ => rfl) ha').trans hentries,
    (fillOf_congr ((view_tellFate (view := Home.fills) (fun _ _ _ => rfl) ha').trans hfills)).trans fillOf_endFill⟩

/-- A fill that ends stays ended when those that wait hear that the page does not land. -/
theorem fillOf_tellFate {fate : Fate} {st : Nat} {code : Code} (hf : fate ≠ .landed) :
    (((s.endFill slice n).writeSlots slice n st code).tellFate slice n fate).fillOf slice n = none := by
  have hfills : (((s.endFill slice n).writeSlots slice n st code).tellFate slice n fate).home.fills = (s.endFill slice n).home.fills :=
    State.tellFate_steady (steady_fills _) hf rfl
  rw [fillOf_congr hfills, fillOf_endFill]

/-- A fill whose page is gone ends. -/
theorem fillOf_fillStale (hs : f.slice = slice) (hn : f.name = n) (he : s.entry slice n = none) : (s.fillStale f).fillOf slice n = none := by
  subst hs hn
  have hnone (t : State) (ht : t.home = s.home) :
      ((t.endFill f.slice f.name).writeSlots f.slice f.name 1 .ok).entry f.slice f.name = none :=
    (entry_congr (congrArg Home.entries ht)).trans he
  unfold State.fillStale
  dsimp only
  split
  · exact fillOf_tellFate nofun
  · next e h =>
    refine absurd (h.symm.trans (hnone _ ?_)) nofun
    split
    · exact home_retireUnit
    · rfl

/-! ## A fill lands (R224) -/

/-- The state once the reads of a fill are written: the frame holds the extent's bytes, and the page is clean under a new generation. -/
def State.filledPage (slice : Nat) (n : PageName) (e : Entry) (p : Nat × Nat) (s : State) : State :=
  (((((s.takeStack 4 (nodeAddr p.1 (granuleOffset p.2))).writeImage (s.format slice) p
    (s.flashImage slice e.flashDrive e.flashGranule (frameBytes (s.format slice)))).bump).onEntry slice n
      (fun e => { e with frameState := .stackClean })).bumpGen slice n true).countTier e.quarter (fun t => { t with fills := inc32 t.fills })

/-- What FILL_LAND does with the frame of a fill. -/
theorem fillLand_eq (hf : s.fillOf slice n = some f) (hr : f.recovering = false) (he : s.entry slice n = some e) (hp : f.frame = some p)
    (hst : e.frameState = .filling) (hsp : e.stackFrame = p) : s.fillLand slice n =
      if (s.cmdsOf e.flashDrive slice n).isEmpty then
        if s.shared slice n then s.beginMove slice n .land else (s.filledPage slice n e p).landed slice n f
      else s := by
  unfold State.fillLand
  rw [hf]
  dsimp only
  rw [hr, he, hp]
  dsimp only
  rw [if_neg Bool.false_ne_true, if_pos ⟨hst, hsp⟩]
  rfl

/-- A recovery is not landed by FILL_LAND. -/
theorem fillLand_recovering (hf : s.fillOf slice n = some f) (hr : f.recovering = true) : s.fillLand slice n = s := by
  unfold State.fillLand
  rw [hf]
  exact if_pos hr

theorem fillLand_gone (hf : s.fillOf slice n = some f) (hr : f.recovering = false) (he : s.entry slice n = none) :
    s.fillLand slice n = s.fillStale f := by
  unfold State.fillLand
  rw [hf]
  dsimp only
  rw [hr, he]
  exact if_neg Bool.false_ne_true

theorem entry_filledPage (h : s.entry slice n = some e) : (s.filledPage slice n e p).entry slice n =
    some { e with frameState := .stackClean, frameGen := (e.frameGen + 1) % 65536 } := by
  unfold State.filledPage
  rw [entry_countTier, entry_bumpGen]
  generalize hu : ((s.takeStack _ _).writeImage _ _ _).bump = u
  have hh : u.home = s.home := by
    rw [← hu]
    exact (State.writeImage_keeps (home_closed _ rfl rfl) rfl).trans (State.takeStack_keeps (home_closed _ rfl rfl) rfl)
  rw [entry_onEntry, entry_congr (congrArg Home.entries hh), h]
  · rfl
  · exact fun _ => ⟨rfl, rfl⟩

theorem reqs_filledPage : (s.filledPage slice n e p).reqs = s.reqs := by
  have hP {m : Nat} (h15 : m.testBit 15 = false) (h16 : m.testBit 16 = false) (h20 : m.testBit 20 = false) :
      Closed m fun t => t.reqs = s.reqs := reqs_closed s.reqs h15 h16 h20
  unfold State.filledPage
  exact State.countTier_keeps (hP rfl rfl rfl) (State.bumpGen_keeps (hP rfl rfl rfl) (State.onEntry_keeps (hP rfl rfl rfl)
    (State.writeImage_keeps (hP rfl rfl rfl) (State.takeStack_keeps (hP rfl rfl rfl) rfl))))

theorem noWrites_filledPage (h : noWrites s slice n) : noWrites (s.filledPage slice n e p) slice n := by
  have hS := (roving_noWrites slice n).toSteady
  have htake : noWrites (s.takeStack 4 (nodeAddr p.1 (granuleOffset p.2))) slice n := by
    unfold noWrites
    rwa [State.takeStack_keeps (mem_closed s.mem rfl rfl rfl) rfl]
  unfold State.filledPage
  exact State.countTier_steady hS (State.bumpGen_steady hS (State.onEntry_steady hS (State.writeImage_steady hS htake)))

/-- A fill that lands with nothing waiting leaves its page clean in its frame under a new generation. -/
theorem fillLand_lands (hf : s.fillOf slice n = some f) (hr : f.recovering = false) (he : s.entry slice n = some e) (hp : f.frame = some p)
    (hst : e.frameState = .filling) (hsp : e.stackFrame = p) (hc : s.cmdsOf e.flashDrive slice n = []) (hsh : s.shared slice n = false)
    (hw : noWrites s slice n) (ha : noAcquire s) : (s.fillLand slice n).fillOf slice n = none ∧
      (s.fillLand slice n).entry slice n = some { e with frameState := .stackClean, frameGen := (e.frameGen + 1) % 65536 } := by
  rw [fillLand_eq hf hr he hp hst hsp, if_pos (List.isEmpty_iff.mpr hc), if_neg (by rw [hsh]; exact Bool.false_ne_true)]
  have ha' : noAcquire (s.filledPage slice n e p) := by
    unfold noAcquire
    rwa [reqs_filledPage]
  obtain ⟨hentries, hfill⟩ := landed_quiet (f := f) (noWrites_filledPage hw) ha'
  exact ⟨hfill, (entry_congr hentries).trans (entry_filledPage he)⟩

/-! ## A fill looks for its frame (R224) -/

theorem placeFills_one (h : s.home.fills = [f]) (hg : f.got = none) : s.placeFills = s.placeFill f.slice f.name := by
  unfold State.placeFills
  rw [h, List.foldl_cons, List.foldl_nil, hg]

theorem placeFill_without (h : s.allocFrame slice n = none) : s.placeFill slice n = s := by
  unfold State.placeFill
  split
  · rw [h]
    exact ite_self _
  · rfl

/-- A fill that finds a frame has it, and its page is being filled there. -/
theorem placeFill_finds {s1 : State} (hf : s.fillOf slice n = some f) (he : s.entry slice n = some e) (hr : f.recovering = false)
    (hn : f.frame = none) (ha : s.allocFrame slice n = some (p, s1)) : (s.placeFill slice n).fillOf slice n = some { f with frame := some p } ∧
      (s.placeFill slice n).entry slice n = some { e with frameState := .filling, stackFrame := p } := by
  have hhome : s1.home = s.home := State.allocFrame_some (home_closed s.home rfl rfl) rfl ha
  have hplace : (s.placeFill slice n).home = ((s1.onFill slice n fun f => { f with frame := some p }).onEntry slice n
      fun e => { e with frameState := .filling, stackFrame := p }).home := by
    unfold State.placeFill
    rw [he, hf]
    dsimp only
    rw [hn, hr, ha]
    exact State.addCmds_keeps (home_closed _ rfl rfl) rfl
  constructor
  · have hfills : (s.placeFill slice n).home.fills = (s1.onFill slice n fun f => { f with frame := some p }).home.fills :=
      (congrArg Home.fills hplace).trans (State.onEntry_steady (steady_fills _) rfl)
    rw [fillOf_congr hfills]
    exact fillOf_onFill_some (fun _ => ⟨rfl, rfl⟩) ((fillOf_congr (congrArg Home.fills hhome)).trans hf)
  · rw [entry_congr (congrArg Home.entries hplace), entry_onEntry,
      entry_onFill, entry_congr (congrArg Home.entries hhome), he]
    · rfl
    · exact fun _ => ⟨rfl, rfl⟩

/-- FILL_ALLOC_TIMEOUT of a fill that finds no frame and has time left changes nothing. -/
theorem fillTimeout_waits (hf : s.fillOf slice n = some f) (hplace : s.placeFills = s) (ht : s.now < f.since + 1000000) :
    s.fillTimeout slice n = s := by
  unfold State.fillTimeout
  dsimp only
  rw [hplace, hf]
  dsimp only
  split
  · rfl
  · exact if_neg fun h => Nat.not_le.mpr ht h.2.2

/-- One that has waited 1 ms ends, with no retire list full. -/
theorem fillTimeout_ends (hf : s.fillOf slice n = some f) (hplace : s.placeFills = s) (hr : f.recovering = false) (hn : f.frame = none)
    (hfull : s.retireFull (s.quarterOf slice n.handle) = false) (ht : f.since + 1000000 ≤ s.now) :
    (s.fillTimeout slice n).fillOf slice n = none := by
  unfold State.fillTimeout
  dsimp only
  rw [hplace, hf]
  dsimp only
  rw [hfull, if_neg Bool.false_ne_true, if_pos ⟨by rw [hn]; rfl, .inl (by rw [hr]; rfl), ht⟩]
  exact fillOf_tellFate nofun

/-- One that finds its frame goes on. -/
theorem fillTimeout_placed (hf : s.placeFills.fillOf slice n = some f) (hn : f.frame = some p) : s.fillTimeout slice n = s.placeFills := by
  unfold State.fillTimeout
  dsimp only
  rw [hf]
  dsimp only
  split
  · rfl
  · exact if_neg fun h => by rw [hn] at h; exact absurd h.1 Bool.false_ne_true

/-! ## A recovery (R241) -/

/-- REPLICA_RECOVERY_WAIT changes nothing before the 200 microseconds of the replica asked are over. -/
theorem recoveryWait_early (hf : s.fillOf slice n = some f) (hr : f.recovering = true) (hg : f.got = none)
    (he : (s.entry slice n).isSome = true) (ht : s.now < f.askAt + 200000) : s.recoveryWait slice n none = s := by
  unfold State.recoveryWait
  rw [hf]
  dsimp only
  rw [hr, hg, Option.isNone_eq_false_iff.mpr he, if_neg (by decide), if_neg (by decide), if_neg (by decide), if_neg (Nat.not_le.mpr ht)]

/-- After them the next replica is asked. -/
theorem recoveryWait_asks {k : Nat} {rest : List Nat} (hf : s.fillOf slice n = some f) (hr : f.recovering = true) (hg : f.got = none)
    (he : s.entry slice n = some e) (ht : f.askAt + 200000 ≤ s.now) (hask : s.askable slice n f.asked = k :: rest) :
    s.recoveryWait slice n none = (s.onFill slice n fun f => { f with asked := f.asked ++ [k], askAt := s.now }).onXpt
      (fun x => { x with peerOut := x.peerOut ++ [{ queue := 1, body := .peerAsk k slice n e.frameGen }] }) := by
  have hnext : s.recoveryWait slice n none = s.askNext slice n := by
    unfold State.recoveryWait
    rw [hf]
    dsimp only
    rw [hr, hg, he, if_neg (by decide), if_neg (by decide), if_neg (by nofun), if_pos ht]
  rw [hnext]
  unfold State.askNext
  rw [he, hf]
  dsimp only
  rw [hask]

/-- The state once a copy is written into its frame: the bad extent is retired, and the page is in stack memory alone. -/
def State.recoveredPage (slice : Nat) (n : PageName) (e : Entry) (p : Nat × Nat) (img : PageImage) (s : State) : State :=
  let fm := s.format slice
  let s := if e.frameState = .filling then s.retireUnit e.quarter e.stackFrame (frameGranules fm) else s
  let s := if e.frameState.onFlash && !s.driveFailedB e.flashDrive then
    s.retireExtent e.quarter e.flashDrive e.flashGranule (frameGranules fm) else s
  ((((s.retireShadow slice n).writeImage fm p img.data).onEntry slice n (fun e =>
    { e with frameState := .stack, stackFrame := p })).bumpGen slice n true).countTier e.quarter
      (fun t => { t with recoveries := inc32 t.recoveries })

/-- A recovery takes a copy of its page's generation into the frame that it finds. -/
theorem recoveryWait_takes {img : PageImage} {s1 : State} (hf : s.fillOf slice n = some f) (hr : f.recovering = true)
    (he : s.entry slice n = some e) (hgen : img.frameGen = e.frameGen) (ha : s.allocFrame slice n = some (p, s1))
    (hsh : s.shared slice n = false) :
    s.recoveryWait slice n (some img) = ((s1.recoveredPage slice n e p img).landed slice n f).rehull slice n := by
  unfold State.recoveryWait
  rw [hf]
  dsimp only
  rw [hr]
  unfold State.recovered
  rw [he]
  dsimp only
  rw [hsh, if_neg (not_not.mpr hgen), ha]
  rfl

/-- What a change of entries that a view does not see leaves of the view. -/
theorem entryView_onEntry {α : Type} {view : Entry → α} {g : Entry → Entry} (hg : ∀ x, (g x).slice = x.slice ∧ (g x).name = x.name)
    (hv : ∀ x, view (g x) = view x) : ((s.onEntry slice n g).entry slice n).map view = (s.entry slice n).map view := by
  rw [entry_onEntry hg, Option.map_map, show view ∘ g = view from funext hv]

/-- What a frame's place, state and generation are. -/
def Entry.place (e : Entry) : FrameState × (Nat × Nat) × Nat := (e.frameState, e.stackFrame, e.frameGen)

theorem place_retireShadow {α : Type} {view : Entry → α} (hv : ∀ x b, view { x with shadowValid := b } = view x) :
    ((s.retireShadow slice n).entry slice n).map view = (s.entry slice n).map view := by
  unfold State.retireShadow
  split
  · rfl
  · split
    · refine Eq.trans (entryView_onEntry ?_ ?_) (congrArg _ (entry_congr (congrArg Home.entries home_retireUnit)))
      · exact fun _ => ⟨rfl, rfl⟩
      · exact fun x => hv x false
    · rfl

/-- A Hull record that is written changes nothing else of its page's entry, and no fill. -/
theorem writeHull_leaves {scale fill : Nat} : ((s.writeHull slice n scale fill).entry slice n).map Entry.place = (s.entry slice n).map Entry.place ∧
    (s.writeHull slice n scale fill).home.fills = s.home.fills := by
  have change (t : State) (g : Entry → Entry) (ht : t.home = s.home) (hg : ∀ x, (g x).slice = x.slice ∧ (g x).name = x.name)
      (hv : ∀ x, (g x).place = x.place) : ((t.onEntry slice n g).entry slice n).map Entry.place = (s.entry slice n).map Entry.place ∧
        (t.onEntry slice n g).home.fills = s.home.fills :=
    ⟨(entryView_onEntry hg hv).trans (congrArg _ (entry_congr (congrArg Home.entries ht))),
      State.onEntry_steady (steady_fills _) (congrArg Home.fills ht)⟩
  unfold State.writeHull
  dsimp only
  split
  · exact ⟨rfl, rfl⟩
  · split
    · exact ⟨rfl, rfl⟩
    · split
      · exact change s _ rfl (fun _ => ⟨rfl, rfl⟩) fun _ => rfl
      · split
        · exact change s _ rfl (fun _ => ⟨rfl, rfl⟩) fun _ => rfl
        · next l t ht =>
          refine change _ _ ((State.memWriteN_keeps (home_closed t.home rfl rfl) rfl).trans ?_) (fun _ => ⟨rfl, rfl⟩) fun _ => rfl
          split at ht
          · cases ht
            rfl
          · exact State.hullFrom_some (home_closed s.home rfl rfl) rfl ht

theorem rehull_leaves : ((s.rehull slice n).entry slice n).map Entry.place = (s.entry slice n).map Entry.place ∧
    (s.rehull slice n).home.fills = s.home.fills := by
  unfold State.rehull
  split
  · exact ⟨rfl, rfl⟩
  · split
    · exact ⟨rfl, rfl⟩
    · exact writeHull_leaves

/-- Until the copy is written no entry is new, no write waits, and the requests stand. -/
theorem recoveredPage_parts {img : PageImage} (he : s.entry slice n = some e) (hw : noWrites s slice n) :
    ((s.recoveredPage slice n e p img).entry slice n).map Entry.place = some (.stack, p, (e.frameGen + 1) % 65536) ∧
      noWrites (s.recoveredPage slice n e p img) slice n ∧ (s.recoveredPage slice n e p img).reqs = s.reqs := by
  have hS := (roving_noWrites slice n).toSteady
  have hP {m : Nat} (h15 : m.testBit 15 = false) (h16 : m.testBit 16 = false) (h20 : m.testBit 20 = false) :
      Closed m fun t => t.reqs = s.reqs := reqs_closed s.reqs h15 h16 h20
  unfold State.recoveredPage
  dsimp only
  generalize ht : (if e.frameState = .filling then _ else s) = t
  generalize hu : (if e.frameState.onFlash && !t.driveFailedB e.flashDrive then _ else t) = u
  have hhome : u.home = s.home := by
    rw [← hu, ← ht]
    exact keep_either (P := fun x => x.home = s.home) (keep_either (P := fun x => x.home = s.home) rfl home_retireUnit.trans id)
      (State.retireExtent_keeps (home_closed s.home rfl rfl)) id
  have hwaits : noWrites u slice n := by
    rw [← hu, ← ht]
    exact keep_either (P := fun x => noWrites x slice n) (keep_either (P := fun x => noWrites x slice n) hw (State.retireUnit_steady hS) id)
      (State.retireExtent_steady hS) id
  have hreqs : u.reqs = s.reqs := by
    rw [← hu, ← ht]
    exact keep_either (P := fun x => x.reqs = s.reqs) (keep_either (P := fun x => x.reqs = s.reqs) rfl
      (State.retireUnit_keeps (hP rfl rfl rfl)) id) (State.retireExtent_keeps (hP rfl rfl rfl)) id
  refine ⟨?_, ?_, ?_⟩
  · have hgen : ((u.retireShadow slice n).entry slice n).map Entry.frameGen = some e.frameGen := by
      rw [place_retireShadow fun _ _ => rfl, entry_congr (congrArg Home.entries hhome), he]
      rfl
    obtain ⟨x, hx, hxg⟩ := Option.map_eq_some_iff.mp hgen
    rw [entry_countTier, entry_bumpGen, entry_onEntry,
      entry_congr (congrArg Home.entries (State.writeImage_keeps (home_closed _ rfl rfl) rfl)), hx, ← hxg]
    · rfl
    · exact fun _ => ⟨rfl, rfl⟩
  · exact State.countTier_steady hS (State.bumpGen_steady hS (State.onEntry_steady hS (State.writeImage_steady hS
      (State.retireShadow_steady hS hwaits))))
  · exact State.countTier_keeps (hP rfl rfl rfl) (State.bumpGen_keeps (hP rfl rfl rfl) (State.onEntry_keeps (hP rfl rfl rfl)
      (State.writeImage_keeps (hP rfl rfl rfl) (State.retireShadow_keeps (hP rfl rfl rfl) hreqs))))

/-- A recovery that takes a copy with nothing waiting is over, its page in stack memory under a new generation. -/
theorem recoveryWait_recovers {img : PageImage} {s1 : State} (hf : s.fillOf slice n = some f) (hr : f.recovering = true)
    (he : s.entry slice n = some e) (hgen : img.frameGen = e.frameGen) (ha : s.allocFrame slice n = some (p, s1))
    (hsh : s.shared slice n = false) (hw : noWrites s slice n) (hacq : noAcquire s) :
    (s.recoveryWait slice n (some img)).fillOf slice n = none ∧
      ((s.recoveryWait slice n (some img)).entry slice n).map Entry.place = some (.stack, p, (e.frameGen + 1) % 65536) := by
  have hentry : s1.entry slice n = some e :=
    (entry_congr (congrArg Home.entries (State.allocFrame_some (home_closed s.home rfl rfl) rfl ha))).trans he
  have hreqs1 : s1.reqs = s.reqs := State.allocFrame_some (reqs_closed s.reqs rfl rfl rfl) rfl ha
  obtain ⟨hplace, hwaits, hreqs⟩ := recoveredPage_parts (p := p) (img := img) hentry
    (State.allocFrame_steady (roving_noWrites slice n).toSteady hw _ ha)
  have hacq' : noAcquire (s1.recoveredPage slice n e p img) := by
    unfold noAcquire
    rwa [hreqs, hreqs1]
  obtain ⟨hentries, hfill⟩ := landed_quiet (f := f) hwaits hacq'
  rw [recoveryWait_takes hf hr he hgen ha hsh]
  exact ⟨(fillOf_congr rehull_leaves.2).trans hfill, rehull_leaves.1.trans ((congrArg _ (entry_congr hentries)).trans hplace)⟩

end Sys2Proof.Machine
end

section
/-! SUPPORT. Drives and their commands (R228, R230, R231, R243): what the issue of waiting commands leaves of a drive, how a command ends, is
reissued or times out, what a media error counts, and how a drive fails. -/

namespace Sys2Proof.Machine

variable {s : State} {d id b : Nat} {x : Drive} {c : NvmeCmd}

/-! ## Commands that are issued (R230) -/

/-- A command but for when and where it is issued. -/
def NvmeCmd.work (c : NvmeCmd) : NvmeCmd := { c with issued := false, issuedAt := 0, pair := 0 }

/-- Commands of the drive `x` are issued: all else of it stands, and every command but for its issue. -/
structure Drive.Issues (x y : Drive) : Prop where
  rest : { y with cmds := [], waited := [] } = { x with cmds := [], waited := [] }
  cmds : ∀ id, (y.cmds.get? id).map NvmeCmd.work = (x.cmds.get? id).map NvmeCmd.work

theorem get_onDrive {g : Drive → Drive} (hx : s.mem.drives.get? d = some x) : (s.onDrive d g).mem.drives.get? d = some (g x) :=
  (Tbl.get?_modify_same ..).trans (congrArg (Option.map g) hx)

theorem issueOne_issues (hx : s.mem.drives.get? d = some x) : ∃ y, (s.issueOne d).mem.drives.get? d = some y ∧ x.Issues y := by
  have same : ∃ y, s.mem.drives.get? d = some y ∧ x.Issues y := ⟨x, hx, rfl, fun _ => rfl⟩
  unfold State.issueOne
  rw [hx]
  dsimp only
  split
  · split
    · exact same
    · split
      · exact same
      · refine ⟨_, get_onDrive hx, rfl, fun id => ?_⟩
        dsimp only
        rw [Tbl.get?_modify]
        split
        · subst_vars
          rw [Option.map_map]
          rfl
        · rfl
  · exact same

theorem issueAll_issues (hx : s.mem.drives.get? d = some x) : ∃ y, (s.issueAll d).mem.drives.get? d = some y ∧ x.Issues y := by
  unfold State.issueAll
  refine keep_foldl (P := fun t => ∃ y, t.mem.drives.get? d = some y ∧ x.Issues y) (fun t _ h => ?_) ⟨x, hx, rfl, fun _ => rfl⟩
  obtain ⟨y, hy, hxy⟩ := h
  obtain ⟨z, hz, hyz⟩ := issueOne_issues hy
  exact ⟨z, hz, hyz.rest.trans hxy.rest, fun id => (hyz.cmds id).trans (hxy.cmds id)⟩

/-- A command that is there stays there, issued or not. -/
theorem Drive.Issues.cmd {y : Drive} (h : x.Issues y) (hc : x.cmds.get? id = some c) : ∃ z, y.cmds.get? id = some z ∧ z.work = c.work :=
  Option.map_eq_some_iff.mp ((h.cmds id).trans (congrArg _ hc))

/-- What neither the commands nor the waits between classes show stands. -/
theorem Drive.Issues.view {α : Type} {y : Drive} (h : x.Issues y) {view : Drive → α}
    (hv : ∀ z, view { z with cmds := [], waited := [] } = view z) : view y = view x :=
  (hv y).symm.trans ((congrArg view h.rest).trans (hv x))

/-- No command appears. -/
theorem Drive.Issues.gone {y : Drive} (h : x.Issues y) (hc : x.cmds.get? id = none) : y.cmds.get? id = none :=
  Option.map_eq_none_iff.mp ((h.cmds id).trans (congrArg _ hc))

/-! ## Bitmap blocks (R228) -/

/-- A block that is not changed, or one of a drive that is out of use, is not written. -/
theorem flushBitmap_idle (hx : s.mem.drives.get? d = some x) (h : x.dirty.get? b = none ∨ x.usable = false) : s.flushBitmap d b = s := by
  unfold State.flushBitmap
  rw [hx]
  exact if_pos (h.imp Option.isNone_iff_eq_none.mpr fun h => by rw [h]; rfl)

/-- A drive with the write of a changed block on its queues. -/
def Drive.flush (b : Nat) (y : Drive) : Drive := { y with
  dirty := y.dirty.erase b
  cmds := y.cmds.set y.nextCmd { write := true, fua := true, cls := 4, bytes := 4096, bitmapBlock := some b, lba := b }
  nextCmd := y.nextCmd + 1 }

theorem flushBitmap_eq (hx : s.mem.drives.get? d = some x) (hb : (x.dirty.get? b).isSome) (hu : x.usable = true) :
    s.flushBitmap d b = (s.onDrive d (Drive.flush b)).issueAll d := by
  unfold State.flushBitmap
  rw [hx]
  dsimp only
  rw [if_neg (by rw [hu, Option.isNone_eq_false_iff.mpr hb]; decide)]
  rfl

/-- A changed block is clean once its write is on the queue. -/
theorem flushBitmap_writes (hx : s.mem.drives.get? d = some x) (hb : (x.dirty.get? b).isSome) (hu : x.usable = true) :
    ∃ y k, (s.flushBitmap d b).mem.drives.get? d = some y ∧ y.dirty.get? b = none ∧ y.cmds.get? x.nextCmd = some k ∧
      k.bitmapBlock = some b ∧ k.cls = 4 ∧ k.write = true ∧ k.bytes = 4096 := by
  rw [flushBitmap_eq hx hb hu]
  obtain ⟨y, hy, hxy⟩ := issueAll_issues (get_onDrive (g := Drive.flush b) hx)
  obtain ⟨k, hk, hwork⟩ := hxy.cmd (Tbl.get?_set_same ..)
  have hclean : y.dirty.get? b = (x.dirty.erase b).get? b := hxy.view (view := fun z => z.dirty.get? b) fun _ => rfl
  exact ⟨y, k, hy, hclean.trans (Tbl.get?_erase_same ..), hk, congrArg NvmeCmd.bitmapBlock hwork, congrArg NvmeCmd.cls hwork,
    congrArg NvmeCmd.write hwork, congrArg NvmeCmd.bytes hwork⟩

/-! ## Media errors and reissues (R231) -/

theorem writeFailed_roving {P : State → Prop} (hP : Steady P) (h : P s) : P (s.writeFailed d c) := by
  unfold State.writeFailed
  split
  · exact State.dropCmds_steady hP h
  · next e _ =>
    have back {t : State} (k : P t) : P ((t.retireShadow c.slice c.name).onEntry c.slice c.name (fun e => { e with frameState := .stack })) :=
      State.onEntry_steady hP (State.retireShadow_steady hP k)
    refine keep_either (State.dropCmds_steady hP h) id fun k => ?_
    refine keep_either (State.retireExtent_steady hP k) back fun k => ?_
    split
    · exact back k
    · next hx => exact State.addCmds_steady hP (State.onEntry_steady hP (State.allocExtent_steady hP k _ hx))

/-- A media error is counted first; what follows moves pages and their commands. -/
theorem mediaError_roving {P : State → Prop} (hP : Roving P) {cause st : Nat}
    (h : P (s.onDrive d fun y => { y with mediaErrors := inc16 y.mediaErrors, cmds := y.cmds.erase id })) : P (s.mediaError d id c cause st) := by
  have hS := hP.toSteady
  unfold State.mediaError
  dsimp only
  split
  · exact State.onDrive_steady hS (fun _ => rfl) h
  · refine keep_either h (fun h => h) fun h => keep_either h (writeFailed_roving hS) fun h => ?_
    exact State.startRecovery_roving hP (State.dropCmds_steady hS h)

theorem mediaError_tally {cause st : Nat} (hx : s.mem.drives.get? d = some x) :
    ∃ y, (s.mediaError d id c cause st).mem.drives.get? d = some y ∧ y.tally = (x.failed, inc16 x.mediaErrors, x.timeouts) :=
  Option.map_eq_some_iff.mp (mediaError_roving (roving_tally d _) (congrArg (Option.map Drive.tally) (get_onDrive hx)))

/-- The second failure of a command is a media error. -/
theorem reissue_again {cause : Nat} (hr : c.reissued = true) : s.reissue d id c cause = s.mediaError d id c cause 0 := if_pos hr

/-- A drive one of whose commands waits for its second issue. -/
def Drive.again (id : Nat) (y : Drive) : Drive :=
  { y with cmds := y.cmds.modify id (fun z => { z with reissued := true, issued := false }) }

/-- The first one has it reissued. -/
theorem reissue_once {cause : Nat} (hx : s.mem.drives.get? d = some x) (hc : x.cmds.get? id = some c) (hr : c.reissued = false) :
    ∃ y k, (s.reissue d id c cause).mem.drives.get? d = some y ∧ y.cmds.get? id = some k ∧ k.reissued = true ∧ y.tally = x.tally := by
  have heq : s.reissue d id c cause = (s.onDrive d (Drive.again id)).issueAll d := by
    unfold State.reissue
    rw [if_neg (by rw [hr]; exact Bool.false_ne_true)]
    rfl
  have hagain : (Drive.again id x).cmds.get? id = some { c with reissued := true, issued := false } := by
    unfold Drive.again
    dsimp only
    rw [Tbl.get?_modify_same, hc]
    rfl
  rw [heq]
  obtain ⟨y, hy, hxy⟩ := issueAll_issues (get_onDrive (g := Drive.again id) hx)
  obtain ⟨k, hk, hwork⟩ := hxy.cmd hagain
  exact ⟨y, k, hy, hk, congrArg NvmeCmd.reissued hwork, hxy.view fun _ => rfl⟩

/-! ## Drives that fail (R231, R243) -/

/-- The state once a drive is marked failed, without its commands, and logged. -/
def State.markFailed (d : Nat) (s : State) : State :=
  (s.onDrive d (fun y => { y with failed := true, cmds := [] })).logEvent 94 0x0302 0xff 0 d 0 0

theorem failDrive_failed (hx : s.mem.drives.get? d = some x) (hf : x.failed = true) : s.failDrive d = s := by
  unfold State.failDrive
  rw [hx]
  exact if_pos hf

/-- What follows the mark applies to the entries on the drive. -/
theorem failDrive_roving {P : State → Prop} (hP : Roving P) (hx : s.mem.drives.get? d = some x) (hf : x.failed = false)
    (h : P (s.markFailed d)) : P (s.failDrive d) := by
  unfold State.failDrive
  rw [hx]
  dsimp only
  rw [if_neg (by rw [hf]; exact Bool.false_ne_true)]
  exact keep_foldl (fun _ _ => State.entryDriveFailed_roving hP) h

theorem failDrive_tally (hx : s.mem.drives.get? d = some x) :
    ∃ y, (s.failDrive d).mem.drives.get? d = some y ∧ y.tally = (true, x.mediaErrors, x.timeouts) := by
  cases hf : x.failed with
  | true => exact ⟨x, (failDrive_failed hx hf).symm ▸ hx, by unfold Drive.tally; rw [hf]⟩
  | false =>
    refine Option.map_eq_some_iff.mp (failDrive_roving (roving_tally d _) hx hf ?_)
    exact State.logEvent_steady (roving_tally d _).toSteady (congrArg (Option.map Drive.tally) (get_onDrive hx))

theorem failDrive_logs (hx : s.mem.drives.get? d = some x) (hf : x.failed = false) : s.log.nextSeq < (s.failDrive d).log.nextSeq := by
  refine failDrive_roving (roving_logged _) hx hf ?_
  have hput : (s.markFailed d).log.nextSeq = s.log.nextSeq + 1 :=
    congrArg Log.nextSeq (State.logIrq_keeps (log_closed _ rfl rfl) rfl)
  rw [hput]
  exact Nat.lt_succ_self _

/-! ## Completions (R231, R235) -/

/-- The state once a completion is measured. -/
def State.measured (d : Nat) (s : State) : State :=
  (s.onDrive d (Drive.measure (s.pick Site.driveSample 0) (s.pick Site.driveSample 1))).bump

/-- What a completion does by its status. -/
def State.onStatus (d id : Nat) (c : NvmeCmd) (st : NvmeStatus) (s : State) : State :=
  match st with
  | .success => (s.onDrive d (fun y => { y with cmds := y.cmds.erase id })).issueAll d
  | .transient => s.reissue d id c 0
  | .aborted => s.reissue d id c 1
  | .media k => s.mediaError d id c 0 k
  | .fatal => s.failDrive d

theorem nvmeDone_eq {st : NvmeStatus} (hx : s.mem.drives.get? d = some x) (hc : x.cmds.get? id = some c) (hi : c.issued = true) :
    s.nvmeDone d id st = (s.measured d).onStatus d id c st := by
  unfold State.nvmeDone
  rw [hx]
  dsimp only
  rw [hc]
  dsimp only
  rw [hi]
  cases st <;> rfl

/-- A command that is not issued does not complete. -/
theorem nvmeDone_waiting {st : NvmeStatus} (hx : s.mem.drives.get? d = some x) (hc : x.cmds.get? id = some c) (hi : c.issued = false) :
    s.nvmeDone d id st = s := by
  unfold State.nvmeDone
  rw [hx]
  dsimp only
  rw [hc]
  dsimp only
  rw [hi]
  rfl

/-- A measured drive keeps its commands and its tally, has no timeout in a row, and averages at most 16 completions. -/
theorem measured_parts (hx : s.mem.drives.get? d = some x) : ∃ y, (s.measured d).mem.drives.get? d = some y ∧ y.cmds = x.cmds ∧
    y.tally = x.tally ∧ y.consecTimeouts = 0 ∧ y.samples.length ≤ 16 := by
  refine ⟨_, get_onDrive hx, rfl, rfl, rfl, ?_⟩
  unfold Drive.measure
  dsimp only
  rw [List.length_drop, List.length_append, List.length_singleton]
  omega

/-- A command that succeeds is off its queue. -/
theorem success_ends (hx : s.mem.drives.get? d = some x) : ∃ y, (s.onStatus d id c .success).mem.drives.get? d = some y ∧
    y.cmds.get? id = none ∧ y.consecTimeouts = x.consecTimeouts ∧ y.failed = x.failed ∧ y.samples = x.samples := by
  unfold State.onStatus
  dsimp only
  obtain ⟨y, hy, hxy⟩ := issueAll_issues (get_onDrive (g := fun y => { y with cmds := y.cmds.erase id }) hx)
  have hparts : (y.consecTimeouts, y.failed, y.samples) = (x.consecTimeouts, x.failed, x.samples) :=
    hxy.view (view := fun z => (z.consecTimeouts, z.failed, z.samples)) fun _ => rfl
  obtain ⟨hrow, hfailed, hsamples⟩ : y.consecTimeouts = x.consecTimeouts ∧ y.failed = x.failed ∧ y.samples = x.samples := by
    simpa using hparts
  exact ⟨y, hy, hxy.gone (Tbl.get?_erase_same ..), hrow, hfailed, hsamples⟩

/-- Transient and aborted commands are reissued, if not for the first time with a media error. -/
theorem onStatus_again {st : NvmeStatus} (h : st = .transient ∨ st = .aborted) : ∃ cause, s.onStatus d id c st = s.reissue d id c cause := by
  rcases h with rfl | rfl
  · exact ⟨0, rfl⟩
  · exact ⟨1, rfl⟩

/-- A media status, and the second failure of a command, are media errors. -/
theorem onStatus_media {st : NvmeStatus} (h : (∃ k, st = .media k) ∨ ((st = .transient ∨ st = .aborted) ∧ c.reissued = true)) :
    ∃ cause k, s.onStatus d id c st = s.mediaError d id c cause k := by
  rcases h with ⟨k, rfl⟩ | ⟨h, hr⟩
  · exact ⟨0, k, rfl⟩
  · obtain ⟨cause, hst⟩ := onStatus_again (s := s) (d := d) (id := id) (c := c) h
    exact ⟨cause, 0, hst.trans (reissue_again hr)⟩

/-! ## Timeouts (R231) -/

/-- The state once a timeout is counted. -/
def State.timedOut (d : Nat) (s : State) : State :=
  s.onDrive d (fun y => { y with timeouts := inc16 y.timeouts, consecTimeouts := y.consecTimeouts + 1 })

/-- A command that is not issued, or not for 30 ms, does not time out. -/
theorem nvmeTimeout_early (hx : s.mem.drives.get? d = some x) (hc : x.cmds.get? id = some c)
    (h : c.issued = false ∨ s.now < c.issuedAt + 30000000) : s.nvmeTimeout d id = s := by
  unfold State.nvmeTimeout
  rw [hx]
  dsimp only
  rw [hc]
  dsimp only
  exact if_neg fun k => h.elim (fun h => Bool.false_ne_true (h.symm.trans k.1)) fun h => Nat.not_le.mpr h k.2

theorem nvmeTimeout_eq (hx : s.mem.drives.get? d = some x) (hc : x.cmds.get? id = some c) (hi : c.issued = true)
    (ht : c.issuedAt + 30000000 ≤ s.now) : s.nvmeTimeout d id =
      if 3 ≤ x.consecTimeouts + 1 then (s.timedOut d).failDrive d else (s.timedOut d).reissue d id c 1 := by
  unfold State.nvmeTimeout
  rw [hx]
  dsimp only
  rw [hc]
  dsimp only
  rw [if_pos ⟨hi, ht⟩]
  rfl

/-- A timeout is counted; the third in a row fails the drive, and one before has a command reissued once. -/
theorem nvmeTimeout_counts (hx : s.mem.drives.get? d = some x) (hc : x.cmds.get? id = some c) (hi : c.issued = true)
    (ht : c.issuedAt + 30000000 ≤ s.now) : ∃ y, (s.nvmeTimeout d id).mem.drives.get? d = some y ∧ y.timeouts = inc16 x.timeouts ∧
      (2 ≤ x.consecTimeouts → y.failed = true) ∧
      (x.consecTimeouts < 2 → c.reissued = false → (y.cmds.get? id).map NvmeCmd.reissued = some true) := by
  have hcounted := get_onDrive (g := fun y => { y with timeouts := inc16 y.timeouts, consecTimeouts := y.consecTimeouts + 1 }) hx
  rw [nvmeTimeout_eq hx hc hi ht]
  by_cases h3 : 3 ≤ x.consecTimeouts + 1
  · rw [if_pos h3]
    obtain ⟨y, hy, hyt⟩ := failDrive_tally (s := s.timedOut d) hcounted
    exact ⟨y, hy, congrArg (fun z => z.2.2) hyt, fun _ => congrArg Prod.fst hyt, fun h => absurd h (by omega)⟩
  · rw [if_neg h3]
    cases hr : c.reissued with
    | true =>
      rw [reissue_again hr]
      obtain ⟨y, hy, hyt⟩ := mediaError_tally (s := s.timedOut d) (id := id) (c := c) (cause := 1) (st := 0) hcounted
      exact ⟨y, hy, congrArg (fun z => z.2.2) hyt, fun h => absurd h (by omega), fun _ h => absurd h nofun⟩
    | false =>
      obtain ⟨y, k, hy, hk, hkr, hyt⟩ := reissue_once (s := s.timedOut d) (cause := 1) hcounted hc hr
      refine ⟨y, hy, congrArg (fun z => z.2.2) hyt, fun h => absurd h (by omega), fun _ _ => ?_⟩
      rw [hk, Option.map_some, hkr]

end Sys2Proof.Machine
end

section
/-! The statement on fills and drives. -/

open Sys2Proof Sys2Proof.Machine

/-- Settles O40: with neither acquire nor write waiting, what follows a fill's landing leaves the page's entry; the issue of commands, and what
follows a media error or a drive's failure, leave the drive's counts. -/
theorem fillsAndDrivesComplete : Obligations.FillsAndDrivesComplete := by
  unfold Obligations.FillsAndDrivesComplete
  constructor
  · intro slice n s f hrun hf
    obtain ⟨hfs, hfn⟩ := fillOf_name hf
    have gives {c : State → State} {t : State} (h : c s = t) : Host.Outcome.next (s.whenUp c) = (.next t : Host.Outcome State Fault Refusal) :=
      congrArg Host.Outcome.next ((whenUp_running hrun).trans h)
    refine ⟨fun hr => gives (fillLand_recovering hf hr), fun e p hr he hp hst hsp => ⟨fun hc => ?_, fun hc hsh => ?_, fun hc hsh hw ha => ?_⟩,
      fun hr he => ⟨_, gives (fillLand_gone hf hr he), fillOf_fillStale hfs hfn he⟩, fun hr hn hg hone ha hfull => ?_,
      fun e p s1 hr hn hg hone he ha => ?_, fun hr hg he ht => gives (recoveryWait_early hf hr hg he ht),
      fun e k rest hr hg ht he hask => ⟨_, gives (recoveryWait_asks hf hr hg he ht hask), ?_, rfl⟩,
      fun e img p s1 hr he hgen ha hsh hw hacq => ?_⟩
    · refine gives ((fillLand_eq hf hr he hp hst hsp).trans (if_neg ?_))
      rwa [List.isEmpty_iff]
    · have hmove : s.fillLand slice n = s.beginMove slice n .land := by
        rw [fillLand_eq hf hr he hp hst hsp, if_pos (List.isEmpty_iff.mpr hc), if_pos hsh]
      exact ⟨_, gives hmove, entry_beginMove.trans he, mem_beginMove⟩
    · obtain ⟨hfill, hentry⟩ := fillLand_lands hf hr he hp hst hsp hc hsh hw ha
      exact ⟨_, gives rfl, hfill, _, hentry, rfl, hsp, rfl, rfl⟩
    · have hplace : s.placeFills = s := by
        rw [placeFills_one hone hg, hfs, hfn, placeFill_without ha]
      exact ⟨fun ht => gives (fillTimeout_waits hf hplace ht), fun ht => ⟨_, gives rfl, fillTimeout_ends hf hplace hr hn hfull ht⟩⟩
    · obtain ⟨hfill, hentry⟩ := placeFill_finds hf he hr hn ha
      have hplace : s.placeFills = s.placeFill slice n := by rw [placeFills_one hone hg, hfs, hfn]
      rw [← hplace] at hfill hentry
      exact ⟨_, gives (fillTimeout_placed hfill rfl), by rw [hfill]; rfl, _, hentry, rfl, rfl⟩
    · have hfill : (s.onFill slice n fun f => { f with asked := f.asked ++ [k], askAt := s.now }).fillOf slice n =
          some { f with asked := f.asked ++ [k], askAt := s.now } := fillOf_onFill_some (fun _ => ⟨rfl, rfl⟩) hf
      exact congrArg (Option.map _) ((fillOf_congr rfl).trans hfill)
    · obtain ⟨hfill, hplace⟩ := recoveryWait_recovers hf hr he hgen ha hsh hw hacq
      obtain ⟨y, hy, hplace⟩ := Option.map_eq_some_iff.mp hplace
      exact ⟨_, gives rfl, hfill, y, hy, congrArg Prod.fst hplace, congrArg (fun z => z.2.1) hplace, congrArg (fun z => z.2.2) hplace⟩
  · intro d s x hrun hx
    have gives {c : State → State} {t : State} (h : c s = t) : Host.Outcome.next (s.whenUp c) = (.next t : Host.Outcome State Fault Refusal) :=
      congrArg Host.Outcome.next ((whenUp_running hrun).trans h)
    obtain ⟨y, hy, hcmds, htally, hrow, hsamples⟩ := measured_parts hx
    refine ⟨fun id c hc => ⟨fun hi st => ⟨gives (nvmeDone_waiting hx hc hi), gives (nvmeTimeout_early hx hc (.inl hi))⟩, fun hi => ?_⟩, ?_,
      fun b => ⟨fun h => gives (flushBitmap_idle hx h), fun hb hu => ⟨_, gives rfl, flushBitmap_writes hx hb hu⟩⟩⟩
    · refine ⟨⟨_, gives (nvmeDone_eq hx hc hi), ?_⟩, fun st hst hr => ⟨_, gives (nvmeDone_eq hx hc hi), ?_⟩,
        fun st hst => ⟨_, gives (nvmeDone_eq hx hc hi), ?_⟩, ⟨_, gives (nvmeDone_eq hx hc hi), ?_⟩,
        fun ht => gives (nvmeTimeout_early hx hc (.inr ht)), fun ht => ⟨_, gives rfl, nvmeTimeout_counts hx hc hi ht⟩⟩
      · obtain ⟨z, hz, hgone, hzrow, hzf, hzs⟩ := success_ends (id := id) (c := c) hy
        exact ⟨z, hz, hgone, hzrow.trans hrow, hzf.trans (congrArg Prod.fst htally), hzs ▸ hsamples⟩
      · obtain ⟨cause, he⟩ := onStatus_again (s := s.measured d) (d := d) (id := id) (c := c) hst
        obtain ⟨z, k, hz, hk, hkr, hzt⟩ := reissue_once (cause := cause) hy (hcmds ▸ hc) hr
        exact ⟨z, k, he ▸ hz, hk, hkr, congrArg (fun z => z.2.1) (hzt.trans htally)⟩
      · obtain ⟨cause, k, he⟩ := onStatus_media (s := s.measured d) (d := d) (id := id) hst
        obtain ⟨z, hz, hzt⟩ := mediaError_tally (id := id) (c := c) (cause := cause) (st := k) hy
        exact ⟨z, he ▸ hz, (congrArg (fun z => z.2.1) hzt).trans (congrArg (fun z => inc16 z.2.1) htally)⟩
      · obtain ⟨z, hz, hzt⟩ := failDrive_tally hy
        exact ⟨z, hz, congrArg Prod.fst hzt⟩
    · split
      · next hf => exact gives (failDrive_failed hx hf)
      · next hf =>
        obtain ⟨z, hz, hzt⟩ := failDrive_tally hx
        exact ⟨_, gives rfl, ⟨z, hz, congrArg Prod.fst hzt⟩, failDrive_logs hx (Bool.eq_false_iff.mpr hf)⟩

end

section
/-! The statement on the numbers of outstanding requests. -/

open Sys2Proof Sys2Proof.Machine

/-- Settles O6: rising numbers below the next one are closed under every update of the state (`reqsOk_closed`), a request that takes
the next number among them, and taking the front command off the queue does not touch them; so every step keeps them (`step_keeps`). -/
theorem stepsKeepRequestNumbers : Obligations.StepsKeepRequestNumbers := by
  unfold Obligations.StepsKeepRequestNumbers
  intro s t hs
  exact step_keeps (reqsOk_closed _) (fun _ _ h => h) hs

end

section
/-! The statement on standard operations. -/

open Sys2Proof Sys2Proof.Machine

namespace Sys2Proof.Machine

/-- A node that serves slice 0 and queue pair 2, whose path MTU is one byte and whose MSN stands past its 24 bits, with a region key
of 16 bytes. -/
def overcounted : State :=
  { aon := { now := 1000000000, phase := .running, bootStage := 8, stacksUp := true, stopped := [], resetLow := false }
    sch := { slices := { state := .serving, cfg := { stackList := [0, 1], ports := 1 }, valid := true } :: List.replicate 7 {} }
    eth := { ports := { mode := 1, linkUp := true, lanes := 3 } :: List.replicate 7 {}, groups := [(0, { cfg := { gRate := 0xfffff, gBurst := 100 } })] }
    xpt := { ctxs := [(2, { state := .rts, level := some 3, rid := 5, pmtu := 1, msn := 2 ^ 24 })]
             regionKeys := [(0, { rights := 7, length := 16 })] } }

/-- The first packet of a WRITE of two bytes is the expected one and passes its checks, and no access collides. -/
theorem overcounted_writes : (match overcounted.settle.receive {} (.rdmaWrite {} .first 0 0 2 [1]) 1 with
    | .fresh c s1 => c.msn = 2 ^ 24 && s1.nbu.all (fun r => r.wins.isEmpty) && (s1.keyEntry 0).isSome &&
        s1.writeCode c 0 0 2 (writeShape c.pmtu .first c.write 2 [1] && 0 < 2 ^ 32 && 0 < 2 ^ 64) = .ok
    | _ => false) = true := by decide +kernel

/-- After it the MSN is 0. -/
theorem overcounted_msn : (match exec (.rdmaWrite {} .first 0 0 2 [1]) overcounted with
    | .next t => (t.ctx 2).map Ctx.msn
    | _ => none) = some 0 := by decide +kernel

end Sys2Proof.Machine

/-- Refutes O33, in its clause on the first packet of a WRITE: the statement takes every state, also one whose MSN does not stand within
its 24 bits, and such a packet brings the MSN into them (`State.advance` by no message), so that it is not what it was. -/
theorem not_standardOperations : ¬ Obligations.StandardOperations := by
  unfold Obligations.StandardOperations
  intro h
  have hrx := overcounted_writes
  split at hrx
  · rename_i c s1 he
    simp only [Bool.and_eq_true, decide_eq_true_eq, List.all_eq_true, List.isEmpty_iff] at hrx
    obtain ⟨⟨⟨hmsn, hwins⟩, hkey⟩, hcode⟩ := hrx
    obtain ⟨e, hkey⟩ := Option.isSome_iff_exists.mp hkey
    obtain ⟨-, hwrite, -⟩ := h {} 0 0 overcounted s1 c rfl rfl
    obtain ⟨t, ht, -, -, x, hx, -, -, hfirst⟩ := hwrite .first 2 [1] e he rfl hkey (by simpa using hcode) (.inl rfl)
      (Tests.collides_none hwins)
    have h0 := overcounted_msn
    rw [ht] at h0
    change (t.ctx 2).map _ = _ at h0
    rw [show t.ctx 2 = some x from hx, Option.map_some, (hfirst rfl).1, hmsn] at h0
    exact absurd h0 (by decide)
  · exact absurd hrx (by decide)

end

section
/-! SUPPORT. The arrival of a packet (R263, R280, R286): what the charge to its group, a congestion mark and the answers of the node
leave of contexts and groups, and the state in which a packet's sequence number is judged. -/

namespace Sys2Proof.Machine

variable {k : Pkt} {cmd : Instr} {n : Nat} {c : Ctx} {s : State}

/-! ## Contexts and groups -/

/-- A control packet goes to a port's queue: the transport, and of the ports the groups, stay as they are. -/
@[simp] theorem sendControl_xpt (q inner : Nat) (b : TxBody) (s : State) : (s.sendControl q inner b).xpt = s.xpt :=
  State.sendControl_keeps (xpt_closed s.xpt rfl rfl rfl) rfl

theorem onPort_groups (p : Nat) (f : PortS → PortS) (s : State) : (s.onPort p f).eth.groups = s.eth.groups := rfl

@[simp] theorem sendControl_groups (q inner : Nat) (b : TxBody) (s : State) : (s.sendControl q inner b).eth.groups = s.eth.groups := by
  unfold State.sendControl
  split
  · rfl
  · exact onPort_groups ..

/-- A context is what the table of the transport lists. -/
theorem ctx_of_xpt {s t : State} (h : t.xpt = s.xpt) (q : Nat) : t.ctx q = s.ctx q := congrArg (fun x => x.ctxs.get? q) h

@[simp] theorem sendControl_ctx (q inner : Nat) (b : TxBody) (s : State) (r : Nat) : (s.sendControl q inner b).ctx r = s.ctx r :=
  ctx_of_xpt (sendControl_xpt ..) r

theorem ctx_onCtx_some {q : Nat} (h : s.ctx q = some c) (f : Ctx → Ctx) : (s.onCtx q f).ctx q = some (f c) := by
  rw [ctx_onCtx_same, h, Option.map_some]

/-- Bringing a group's bucket up to date changes the bucket and the ramp alone. -/
theorem refill_eq (now : Nat) (g : GroupS) : ∃ b r, g.refill now = { g with tokens := b, filledAt := now, ramp := r } := by
  unfold GroupS.refill
  split
  · exact ⟨_, _, rfl⟩
  · dsimp only
    split
    · exact ⟨_, _, rfl⟩
    · exact ⟨_, _, rfl⟩

theorem group_onGroup (g : Nat) (f : GroupS → GroupS) (s : State) : (s.onGroup g f).group g = f (s.group g) := Tbl.getD_update_same ..

/-- The bytes of a packet are added to what its group has received (R286). -/
theorem chargeRx_rxBytes (g bytes : Nat) (s : State) : ((s.chargeRx g bytes).group g).rxBytes = ((s.group g).rxBytes + bytes) % 2 ^ 64 := by
  unfold State.chargeRx State.refillGroup
  obtain ⟨b, r, h⟩ := refill_eq s.now (s.group g)
  rw [group_onGroup, group_onGroup, h]

/-! ## A congestion mark (R280) -/

/-- A mark, or its absence, changes of the transport the Echo state of the packet's context alone. -/
theorem noteCe_ctx (hc : s.ctx k.qpn = some c) : ∃ e, (s.noteCe k n).ctx k.qpn = some { c with echo := e } := by
  unfold State.noteCe
  extract_lets s1
  have h1 : s1.ctx k.qpn = some { c with echo := { c.echo with rx := c.echo.rx + n, ce := c.echo.ce + b2n k.ce } } := ctx_onCtx_some hc _
  clear_value s1
  rw [h1]
  dsimp only
  split
  · exact ⟨_, ctx_onCtx_some ((sendControl_ctx ..).trans h1) _⟩
  · exact ⟨_, h1⟩

/-- The transport without its contexts. -/
def Xpt.others (x : Xpt) : Xpt := { x with ctxs := [] }

theorem noteCe_others : (s.noteCe k n).xpt.others = s.xpt.others := by
  unfold State.noteCe
  extract_lets s1
  have h1 : s1.xpt.others = s.xpt.others := rfl
  clear_value s1
  split
  · exact h1
  · split
    · exact (congrArg Xpt.others (sendControl_xpt ..)).trans h1
    · exact h1

theorem noteCe_groups : (s.noteCe k n).eth.groups = s.eth.groups := by
  unfold State.noteCe
  extract_lets s1
  split
  · rfl
  · split
    · exact sendControl_groups ..
    · rfl

/-! ## Where the sequence number is judged (R263) -/

/-- The state in which the sequence number of a packet of a context is judged: it is charged, counted, and its mark noted. -/
def State.heard (k : Pkt) (n : Nat) (c : Ctx) (s : State) : State :=
  ((s.chargeRx c.group k.bytes).onCtx k.qpn (fun c => { c with rx := (c.rx + n) % 2 ^ 32, lastUsed := s.now })).noteCe k n

theorem heard_ctx (hc : s.ctx k.qpn = some c) :
    ∃ e, (s.heard k n c).ctx k.qpn = some { c with rx := (c.rx + n) % 2 ^ 32, lastUsed := s.now, echo := e } :=
  noteCe_ctx (ctx_onCtx_some (s := s.chargeRx c.group k.bytes) hc _)

theorem heard_mem : (s.heard k n c).mem = s.mem :=
  State.noteCe_keeps (mem_closed s.mem rfl rfl rfl) rfl

theorem heard_home : (s.heard k n c).home = s.home := State.noteCe_keeps (home_closed s.home rfl rfl) rfl

theorem heard_others : (s.heard k n c).xpt.others = s.xpt.others := noteCe_others (s := (s.chargeRx c.group k.bytes).onCtx k.qpn _)


theorem heard_rxBytes : ((s.heard k n c).group c.group).rxBytes = ((s.group c.group).rxBytes + k.bytes) % 2 ^ 64 := by
  have hg : (s.heard k n c).group c.group = (s.chargeRx c.group k.bytes).group c.group := by
    unfold State.group State.heard
    rw [noteCe_groups]
    rfl
  rw [hg, chargeRx_rxBytes]

/-- Entering RTS changes of a context its state and its Echo state alone. -/
theorem toRts_ctx {q : Nat} (hc : s.ctx q = some c) :
    ∃ e, (s.toRts q).ctx q = some { c with state := if c.state = .rtr then .rts else c.state, echo := e } := by
  unfold State.toRts
  rw [hc]
  dsimp only
  split
  · exact ⟨_, ctx_onCtx_some hc _⟩
  · exact ⟨_, hc⟩

theorem toRts_eq (q : Nat) (s : State) : s.toRts q = { s with xpt := (s.toRts q).xpt } := by
  unfold State.toRts
  repeat' split
  all_goals rfl

/-- What becomes of a packet that reaches a context on die. -/
theorem receive_of_arrive (ha : s.arrive k cmd false = .ok c) : s.receive k cmd n =
    if (k.psn + 2 ^ 24 - c.ePsn) % 2 ^ 24 = 0 then
      (match (((s.heard k n c).onCtx k.qpn (fun c => { c with nakked := false })).toRts k.qpn).ctx k.qpn with
        | none => .over (((s.heard k n c).onCtx k.qpn (fun c => { c with nakked := false })).toRts k.qpn)
        | some x => .fresh x (((s.heard k n c).onCtx k.qpn (fun c => { c with nakked := false })).toRts k.qpn))
    else if 2 ^ 23 ≤ (k.psn + 2 ^ 24 - c.ePsn) % 2 ^ 24 then
      (match (s.heard k n c).ctx k.qpn with
        | none => .over ((s.heard k n c).onXpt (fun x => { x with duplicates := inc32 x.duplicates }))
        | some x => .duplicate x ((s.heard k n c).onXpt (fun x => { x with duplicates := inc32 x.duplicates })))
    else if c.nakked then .over (s.heard k n c)
    else .over (((s.heard k n c).sendControl k.qpn 4 (.nak c.ePsn 0x60 c.msn)).onCtx k.qpn (fun c => { c with nakked := true })) := by
  unfold State.receive
  rw [ha]
  rfl

/-- A packet at the expected PSN is processed, with the NAK mark cleared. -/
theorem receive_expected (ha : s.arrive k cmd false = .ok c) (hd : (k.psn + 2 ^ 24 - c.ePsn) % 2 ^ 24 = 0) :
    ∃ e t, t = { s.heard k n c with xpt := t.xpt } ∧ s.receive k cmd n =
      .fresh { c with rx := (c.rx + n) % 2 ^ 32, lastUsed := s.now, nakked := false, state := if c.state = .rtr then .rts else c.state, echo := e } t := by
  obtain ⟨e0, h0⟩ := heard_ctx (n := n) (arrive_ok ha).1
  obtain ⟨e, h1⟩ := toRts_ctx (ctx_onCtx_some h0 (fun c => { c with nakked := false }))
  refine ⟨e, _, toRts_eq k.qpn ((s.heard k n c).onCtx k.qpn (fun c => { c with nakked := false })), ?_⟩
  rw [receive_of_arrive ha, if_pos hd, h1]

/-- A packet within the 2^23 PSNs below the expected one is a duplicate, and counted. -/
theorem receive_duplicate (ha : s.arrive k cmd false = .ok c) (hd : 2 ^ 23 ≤ (k.psn + 2 ^ 24 - c.ePsn) % 2 ^ 24) :
    ∃ e, s.receive k cmd n = .duplicate { c with rx := (c.rx + n) % 2 ^ 32, lastUsed := s.now, echo := e }
      ((s.heard k n c).onXpt (fun x => { x with duplicates := inc32 x.duplicates })) := by
  obtain ⟨e, h0⟩ := heard_ctx (n := n) (arrive_ok ha).1
  refine ⟨e, ?_⟩
  rw [receive_of_arrive ha, if_neg (by omega), if_pos hd, h0]

/-- Any other packet is out of sequence: it sets the NAK mark. -/
theorem receive_outOfSequence (ha : s.arrive k cmd false = .ok c) (h0 : 0 < (k.psn + 2 ^ 24 - c.ePsn) % 2 ^ 24)
    (hd : (k.psn + 2 ^ 24 - c.ePsn) % 2 ^ 24 < 2 ^ 23) :
    ∃ e t, s.receive k cmd n = .over t ∧ t.mem = s.mem ∧ t.home = s.home ∧
      t.ctx k.qpn = some { c with rx := (c.rx + n) % 2 ^ 32, lastUsed := s.now, echo := e, nakked := true } := by
  obtain ⟨e, h1⟩ := heard_ctx (n := n) (arrive_ok ha).1
  rw [receive_of_arrive ha, if_neg (by omega), if_neg (by omega)]
  split
  · next hn => exact ⟨e, _, rfl, heard_mem, heard_home, by rw [h1, hn]⟩
  · refine ⟨e, _, rfl, ?_, ?_, ctx_onCtx_some ((sendControl_ctx ..).trans h1) _⟩
    · exact (State.sendControl_keeps (mem_closed _ rfl rfl rfl) rfl).trans heard_mem
    · exact (State.sendControl_keeps (home_closed _ rfl rfl) rfl).trans heard_home

end Sys2Proof.Machine
end

section
/-! The statement on sequence numbers. -/

open Sys2Proof Sys2Proof.Machine

/-- Settles O9: what becomes of a packet is read off the state in which its sequence number is judged (`State.heard`), whose context,
memory, home and counts are known; and each of the 17 requests is an extended request (`exec_of_requestOf`), whose `State.extended`
ends where the packet goes no further, and acknowledges a duplicate. -/
theorem sequenceNumbersDecide : Obligations.SequenceNumbersDecide := by
  unfold Obligations.SequenceNumbersDecide
  refine ⟨fun k cmd n s c ha => ⟨fun h0 => ?_, fun hd => ?_, fun h0 hd => ?_⟩, fun cmd h sp s hrun hreq => ⟨fun t ht => ?_, fun c t ht => ?_⟩⟩
  · obtain ⟨e, t, hs, ht⟩ := receive_expected (n := n) ha h0
    refine ⟨_, t, ht, rfl, rfl, (receive_fresh_inRts ht).2, ?_⟩
    rw [hs]
    exact ⟨heard_mem, heard_home, heard_rxBytes⟩
  · obtain ⟨e, ht⟩ := receive_duplicate (n := n) ha hd
    refine ⟨_, _, ht, ?_, rfl, rfl, heard_mem, heard_home, heard_rxBytes⟩
    have hcount := congrArg Xpt.duplicates (heard_others (s := s) (k := k) (n := n) (c := c))
    exact congrArg inc32 hcount
  · obtain ⟨e, t, ht, hm, hh, hx⟩ := receive_outOfSequence (n := n) ha h0 hd
    exact ⟨t, _, ht, hx, rfl, rfl, rfl, hm, hh⟩
  · obtain ⟨run, hx⟩ := exec_of_requestOf hrun hreq
    rw [Gives, hx, State.extended, ht]
  · obtain ⟨run, hx⟩ := exec_of_requestOf hrun hreq
    rw [Gives, hx, State.extended, ht]

end

section
/-! SUPPORT. A queue pair goes to ERROR (R267, R268): what its flush ends touches of the transport the requests' contexts and the
messages for peers alone, so the queue pair's context stands, and the count of errors rises by one. -/

namespace Sys2Proof.Machine

variable {P : State → Prop} {q : Nat} {c : Ctx} {s : State}

/-! ## Requests that a flush ends -/

/-- A predicate that any change of slices, engines, memory, home and requests keeps, and of the transport any message for a peer. -/
structure Posting (P : State → Prop) : Prop where
  base : Closed 559808 P
  post : ∀ m s, P s → P (State.onXpt (fun x => { x with peerOut := x.peerOut ++ [m] }) s)

theorem State.tellReplicas_posting (hP : Posting P) {slice : Nat} {n : PageName} {f : Nat → TxBody} (h : P s) : P (s.tellReplicas slice n f) := by
  unfold State.tellReplicas
  split
  · exact h
  · exact keep_foldl (fun _ _ => keep_foldl (fun _ _ => hP.post _ _)) h

theorem State.revokeGrants_posting (hP : Posting P) {slice : Nat} {n : PageName} (h : P s) : P (s.revokeGrants slice n) := by
  unfold State.revokeGrants
  refine State.onReplica_keeps (hP.base.mono rfl) ?_
  split
  · exact State.tellReplicas_posting hP h
  · exact h

theorem State.sendCopy_posting (hP : Posting P) {slice node : Nat} {n : PageName} (h : P s) : P (s.sendCopy slice n node) := by
  unfold State.sendCopy
  repeat' split
  · exact h
  · exact h
  · exact hP.post _ _ (State.onReplica_keeps (hP.base.mono rfl) h)

theorem State.copyOut_posting (hP : Posting P) {slice : Nat} {n : PageName} (h : P s) : P (s.copyOut slice n) := by
  unfold State.copyOut
  repeat' split
  · exact h
  · exact h
  · exact keep_foldl (fun _ _ => State.sendCopy_posting hP) h

theorem State.setPageState_posting (hP : Posting P) {slice : Nat} {n : PageName} {st : PageState} (h : P s) : P (s.setPageState slice n st) := by
  unfold State.setPageState
  dsimp only
  split
  · exact State.copyOut_posting hP (State.onEntry_keeps (hP.base.mono rfl) (State.revokeGrants_posting hP h))
  · exact State.onEntry_keeps (hP.base.mono rfl) h

theorem State.undoAcquire_posting (hP : Posting P) {slot : Nat} {made : List PageName} {pre : List (PageName × PageState)} (h : P s) :
    P (s.undoAcquire slot made pre) := by
  unfold State.undoAcquire
  split
  · exact h
  · refine State.onSeq_keeps (hP.base.mono rfl) (hP.base.home rfl _ _ ?_)
    refine keep_foldl (fun _ _ => State.dropEntry_keeps (hP.base.mono rfl)) (keep_foldl (fun _ _ => State.setPageState_posting hP) ?_)
    exact keep_foldl (fun _ _ => State.dropWriteFrame_keeps (hP.base.mono rfl)) (hP.base.home rfl _ _ h)

/-! ## The flush and the error -/

/-- A queue pair's context stands, and the count of errors is `n`. -/
def State.Stands (q n : Nat) (s : State) : Prop := (s.ctx q).isSome = true ∧ s.xpt.qpErrors = n

theorem stands_posting (q n : Nat) : Posting (State.Stands q n) where
  base := {
    aon := fun k => absurd k (by decide), ras := fun k => absurd k (by decide), pwr := fun k => absurd k (by decide)
    sec := fun k => absurd k (by decide), host := fun k => absurd k (by decide), log := fun k => absurd k (by decide)
    sch := fun _ _ _ h => h, eng := fun _ _ _ h => h, nbu := fun k => absurd k (by decide), mem := fun _ _ _ _ _ h => h
    cells := fun k => absurd k (by decide), home := fun _ _ _ h => h, locus := fun k => absurd k (by decide)
    xpt := fun k => absurd k (by decide), eth := fun k => absurd k (by decide), reqs := fun _ _ _ _ h => h
    nextReq := fun k => absurd k (by decide), image := fun k => absurd k (by decide), free := fun k => absurd k (by decide)
    emitted := fun _ _ _ h => h, drop := fun k => absurd k (by decide), link := fun k => absurd k (by decide) }
  post _ _ h := h

theorem stands_onCtx {n r : Nat} {f : Ctx → Ctx} (h : s.Stands q n) : (s.onCtx r f).Stands q n := by
  refine ⟨?_, h.2⟩
  change ((s.xpt.ctxs.modify r f).get? q).isSome = true
  rw [Tbl.get?_modify]
  split
  · subst_vars
    rw [Option.isSome_map]
    exact h.1
  · exact h.1

theorem stands_dropReq {n r : Nat} (h : s.Stands q n) : (s.dropReq r).Stands q n := by
  unfold State.dropReq
  split
  · exact h
  · refine stands_onCtx ?_
    split
    · exact h
    · exact h

theorem stands_abortReq {n r : Nat} (h : s.Stands q n) : (s.abortReq r).Stands q n := by
  unfold State.abortReq
  split
  · exact stands_dropReq (State.undoAcquire_posting (stands_posting q n) h)
  · exact stands_dropReq h

theorem stands_flushQp {n r : Nat} (h : s.Stands q n) : (s.flushQp r).Stands q n :=
  stands_onCtx (s := State.dropQueued r _) (keep_foldl (P := State.Stands q n) (fun _ _ => stands_abortReq) h)

/-- A queue pair that is not in ERROR goes there, and is counted (R267). -/
theorem qpError_moves (hc : s.ctx q = some c) (hs : c.state ≠ .error) :
    ((s.qpError q).ctx q).map Ctx.state = some .error ∧ (s.qpError q).xpt.qpErrors = inc32 s.xpt.qpErrors := by
  unfold State.qpError
  rw [hc]
  dsimp only
  rw [if_neg hs]
  have hst : (s.onXpt (fun x => { x with qpErrors := inc32 x.qpErrors })).Stands q (inc32 s.xpt.qpErrors) :=
    ⟨Option.isSome_iff_exists.mpr ⟨c, hc⟩, rfl⟩
  obtain ⟨hx, hn⟩ := stands_flushQp (r := q) hst
  obtain ⟨x, hx⟩ := Option.isSome_iff_exists.mp hx
  exact ⟨congrArg (Option.map Ctx.state) (ctx_onCtx_some hx _), hn⟩

/-- Wherever it was, it is in ERROR then. -/
theorem qpError_state (hc : s.ctx q = some c) : ((s.qpError q).ctx q).map Ctx.state = some .error := by
  by_cases hs : c.state = .error
  · unfold State.qpError
    rw [hc]
    dsimp only
    rw [if_pos hs, hc, Option.map_some, hs]
  · exact (qpError_moves hc hs).1

end Sys2Proof.Machine
end

section
/-! SUPPORT. What the requester answers (R252): a packet that reaches its context, the responses that an acknowledgement releases, and
what is sent again. -/

namespace Sys2Proof.Machine

variable {k : Pkt} {cmd : Instr} {q : Nat} {c : Ctx} {s : State}

/-- A state in which a packet of the requester's answers has been counted at its context: that context, and what else the answers read
of the state. -/
structure Answering (k : Pkt) (c x : Ctx) (s t : State) : Prop where
  ctx : t.ctx k.qpn = some x
  rx : x.rx = (c.rx + 1) % 2 ^ 32
  held : x.held = c.held
  state : x.state = c.state
  retries : x.retries = c.retries
  rnrRetries : x.rnrRetries = c.rnrRetries
  timer : x.timer = c.timer
  now : t.now = s.now
  others : t.xpt.others = s.xpt.others

/-- A packet that reaches its context is answered once it is counted and its congestion mark noted. -/
theorem answer_of_arrive (ha : s.arrive k cmd false = .ok c) (f : Ctx → State → State) :
    ∃ x t, s.answer k cmd f = f x t ∧ Answering k c x s t := by
  obtain ⟨e, h⟩ := noteCe_ctx (n := 1) (ctx_onCtx_some (arrive_ok ha).1 (fun c => { c with rx := (c.rx + 1) % 2 ^ 32, lastUsed := s.now }))
  refine ⟨_, _, ?_, ⟨h, rfl, rfl, rfl, rfl, rfl, rfl, ?_, noteCe_others⟩⟩
  · unfold State.answer
    rw [ha]
    dsimp only
    rw [h]
  · exact congrArg Aon.now (State.noteCe_keeps (aon_closed s.aon rfl rfl) rfl)

/-- The wait for an acknowledgement depends on the time stamp and the transport's own setting. -/
def State.ackWait (s : State) : Nat := s.now + max s.xpt.ackTimeout 1 * 1000

theorem Answering.ackWait {x : Ctx} {t : State} (h : Answering k c x s t) : t.ackWait = s.ackWait := by
  have ht := congrArg Xpt.ackTimeout h.others
  change t.xpt.ackTimeout = s.xpt.ackTimeout at ht
  unfold State.ackWait
  rw [h.now, ht]

/-- The responses that an acknowledgement leaves held. -/
def Ctx.left (psn : Nat) (c : Ctx) : List Resp := (c.held.map (Resp.after psn)).filter (fun r => !r.pkts.isEmpty)

/-- A context after an acknowledgement: where nothing is released it is as it was. -/
def Ctx.acked (psn wait : Nat) (c : Ctx) : Ctx :=
  if c.left psn = c.held then c
  else { c with held := c.left psn, retries := 0, rnrRetries := 0, rnrTimer := none, timer := if (c.left psn).isEmpty then none else some wait }

theorem ackUpTo_ctx (hc : s.ctx q = some c) (psn : Nat) : (s.ackUpTo q psn).ctx q = some (c.acked psn s.ackWait) := ctx_onCtx_some hc _

theorem acked_held (psn wait : Nat) (c : Ctx) : (c.acked psn wait).held = c.left psn := by
  unfold Ctx.acked
  split
  · exact (‹c.left psn = c.held›).symm
  · rfl

@[simp] theorem acked_rx (psn wait : Nat) (c : Ctx) : (c.acked psn wait).rx = c.rx := by
  unfold Ctx.acked
  split <;> rfl

@[simp] theorem acked_state (psn wait : Nat) (c : Ctx) : (c.acked psn wait).state = c.state := by
  unfold Ctx.acked
  split <;> rfl

theorem acked_retries (psn wait : Nat) (c : Ctx) : (c.acked psn wait).retries = if c.left psn = c.held then c.retries else 0 := by
  unfold Ctx.acked
  split <;> rfl

theorem acked_rnrRetries (psn wait : Nat) (c : Ctx) : (c.acked psn wait).rnrRetries = if c.left psn = c.held then c.rnrRetries else 0 := by
  unfold Ctx.acked
  split <;> rfl

theorem acked_timer (psn wait : Nat) (c : Ctx) :
    (c.acked psn wait).timer = if c.left psn = c.held then c.timer else if (c.left psn).isEmpty then none else some wait := by
  unfold Ctx.acked
  split <;> rfl

/-- What is held goes again to the head of the pacer. -/
theorem resend_ctx (hc : s.ctx q = some c) :
    ∃ rest w, (s.resend q).ctx q = some { c with pacer := c.held.flatMap Resp.pkts ++ rest, timer := w } := ⟨_, _, ctx_onCtx_some hc _⟩

/-- What a NAK that asks for packets again does with what precedes its PSN: the packets before it are released, and where some are left
`f` follows. -/
def State.afterNak (k : Pkt) (f : Ctx → State → State) (s : State) : State :=
  let s := s.ackUpTo k.qpn ((k.psn + 2 ^ 24 - 1) % 2 ^ 24)
  match s.ctx k.qpn with
  | none => s
  | some c => if c.held.isEmpty then s else f c s

theorem afterNak_idle {f : Ctx → State → State} (hc : (s.ackUpTo k.qpn ((k.psn + 2 ^ 24 - 1) % 2 ^ 24)).ctx k.qpn = some c) (h : c.held = []) :
    s.afterNak k f = s.ackUpTo k.qpn ((k.psn + 2 ^ 24 - 1) % 2 ^ 24) := by
  unfold State.afterNak
  dsimp only
  rw [hc]
  exact if_pos (List.isEmpty_iff.mpr h)

theorem afterNak_held {f : Ctx → State → State} (hc : (s.ackUpTo k.qpn ((k.psn + 2 ^ 24 - 1) % 2 ^ 24)).ctx k.qpn = some c) (h : c.held ≠ []) :
    s.afterNak k f = f c (s.ackUpTo k.qpn ((k.psn + 2 ^ 24 - 1) % 2 ^ 24)) := by
  unfold State.afterNak
  dsimp only
  rw [hc]
  exact if_neg (fun he => h (List.isEmpty_iff.mp he))

/-- What an RNR NAK asks for: the wait of its timer code, and at the eighth time without progress ERROR. -/
def State.awaitRnr (q timer : Nat) (c : Ctx) (s : State) : State :=
  if 7 ≤ c.rnrRetries then s.qpError q
  else s.onCtx q (fun c => { c with rnrRetries := c.rnrRetries + 1, timer := none, rnrTimer := some (s.now + rnrNs timer) })

theorem awaitRnr_waits {timer : Nat} (hc : s.ctx q = some c) (h : c.rnrRetries < 7) : (s.awaitRnr q timer c).ctx q =
    some { c with rnrRetries := c.rnrRetries + 1, timer := none, rnrTimer := some (s.now + rnrNs timer) } := by
  unfold State.awaitRnr
  rw [if_neg (by omega)]
  exact ctx_onCtx_some hc _

theorem awaitRnr_errs {timer : Nat} (hc : s.ctx q = some c) (h : 7 ≤ c.rnrRetries) :
    ((s.awaitRnr q timer c).ctx q).map Ctx.state = some .error := by
  unfold State.awaitRnr
  rw [if_pos h]
  exact qpError_state hc

/-- A try below the eighth is counted, and sends everything held again. -/
theorem retry_resends (hc : s.ctx q = some c) (h : c.retries < 7) :
    ∃ rest w, (s.retry q).ctx q = some { c with retries := c.retries + 1, pacer := c.held.flatMap Resp.pkts ++ rest, timer := w } := by
  unfold State.retry
  rw [hc]
  dsimp only
  rw [if_neg (by omega)]
  exact resend_ctx (ctx_onCtx_some hc (fun c => { c with retries := c.retries + 1 }))

/-- The eighth try moves the queue pair to ERROR. -/
theorem retry_errs (hc : s.ctx q = some c) (h : 7 ≤ c.retries) : ((s.retry q).ctx q).map Ctx.state = some .error := by
  unfold State.retry
  rw [hc]
  dsimp only
  rw [if_pos h]
  exact qpError_state hc

end Sys2Proof.Machine
end

section
/-! The statement on responses that are sent again. -/

open Sys2Proof Sys2Proof.Machine

/-- Settles O34: a packet that reaches its context is answered on a state that differs in counts and Echo state (`Answering`); there an
acknowledgement leaves `Ctx.acked`, a resend puts what is held before the rest of the pacer, and the eighth try is `State.qpError`. -/
theorem responsesAreRetransmitted : Obligations.ResponsesAreRetransmitted := by
  unfold Obligations.ResponsesAreRetransmitted
  intro k s c hrun left wait before
  have runs {f : State → State} : Host.Outcome.next (s.whenUp f) = (.next (f s) : Host.Outcome State Fault Refusal) :=
    congrArg Host.Outcome.next (whenUp_running hrun)
  have hleft {x : Ctx} (hx : x.held = c.held) (psn : Nat) : x.left psn = left psn := by
    unfold Ctx.left left
    rw [hx]
  refine ⟨fun ha => ?_, fun timer ha => ?_, fun syndrome ha => ?_, fun qpn due hc hd => ?_, fun qpn due hc hd hs => ?_⟩
  · obtain ⟨x, t, ht, hx⟩ := answer_of_arrive ha (fun _ s => s.ackUpTo k.qpn k.psn)
    refine ⟨_, runs, x.acked k.psn t.ackWait, ht ▸ ackUpTo_ctx hx.ctx k.psn, ?_, ?_, ?_, ?_⟩
    · rw [acked_held, hleft hx.held]
    · rw [acked_rx, hx.rx]
    · rw [acked_held, acked_retries, acked_timer, ← hx.held, ← hx.retries, ← hx.timer]
      exact fun h => ⟨if_pos h, if_pos h⟩
    · rw [acked_held, acked_retries, acked_rnrRetries, acked_timer, ← hx.held, hx.ackWait]
      exact fun h => ⟨if_neg h, if_neg h, if_neg h⟩
  · obtain ⟨x, t, ht, hx⟩ := answer_of_arrive ha (fun _ s => s.afterNak k (State.awaitRnr k.qpn timer))
    have hexec : exec (.rnrNakReceived k timer) s = .next (t.afterNak k (State.awaitRnr k.qpn timer)) := ht ▸ runs
    have hy := ackUpTo_ctx hx.ctx before
    have hheld : (x.acked before t.ackWait).held = left before := (acked_held ..).trans (hleft hx.held before)
    have hn : (x.acked before t.ackWait).rnrRetries = if left before = c.held then c.rnrRetries else 0 := by
      rw [acked_rnrRetries, hleft hx.held, hx.held, hx.rnrRetries]
    refine ⟨fun h0 => ?_, fun h0 hlt => ?_, fun h0 hle => ?_⟩
    · rw [afterNak_idle hy (hheld.trans h0)] at hexec
      exact ⟨_, hexec, _, hy, hheld.trans h0, (acked_state ..).trans hx.state⟩
    · rw [afterNak_held hy (hheld ▸ h0)] at hexec
      exact ⟨_, hexec, _, awaitRnr_waits hy (hn ▸ hlt), hheld, congrArg (· + 1) hn, rfl, congrArg (fun n => some (n + rnrNs timer)) hx.now⟩
    · rw [afterNak_held hy (hheld ▸ h0)] at hexec
      exact ⟨_, hexec, awaitRnr_errs hy (hn ▸ hle)⟩
  · have hseq (hs : syndrome = 0x60) (h0 : left before ≠ []) : ∃ (y : Ctx) (t : State),
        exec (.fatalNakReceived k syndrome) s = .next (t.retry k.qpn) ∧ t.ctx k.qpn = some y ∧ y.held = left before ∧ y.retries = if left before = c.held then c.retries else 0 := by
      obtain ⟨x, t, ht, hx⟩ := answer_of_arrive ha (fun _ s => s.afterNak k (fun _ s => s.retry k.qpn))
      have hy := ackUpTo_ctx hx.ctx before
      have hheld : (x.acked before t.ackWait).held = left before := (acked_held ..).trans (hleft hx.held before)
      refine ⟨_, t.ackUpTo k.qpn before, ?_, hy, hheld, by rw [acked_retries, hleft hx.held, hx.held, hx.retries]⟩
      rw [← afterNak_held (f := fun _ s => s.retry k.qpn) hy (hheld ▸ h0), ← ht]
      refine runs.trans (congrArg Host.Outcome.next ?_)
      simp only [if_pos hs]
      rfl
    refine ⟨fun hs => ?_, fun hs h0 hlt => ?_, fun hs h0 hle => ?_⟩
    · obtain ⟨x, t, ht, hx⟩ := answer_of_arrive ha (fun _ s => s.qpError k.qpn)
      have hlive : x.state ≠ .error := by
        rw [hx.state]
        rcases (arrive_ok ha).2 with h | h <;> rw [h] <;> decide
      have hexec : exec (.fatalNakReceived k syndrome) s = .next (s.answer k (.fatalNakReceived k syndrome) (fun _ s => s.qpError k.qpn)) := by
        refine runs.trans (congrArg Host.Outcome.next ?_)
        simp only [if_neg hs]
      obtain ⟨he, hn⟩ := qpError_moves hx.ctx hlive
      refine ⟨_, hexec, ht ▸ he, ?_⟩
      have hq := congrArg Xpt.qpErrors hx.others
      change t.xpt.qpErrors = s.xpt.qpErrors at hq
      rw [ht, hn, hq]
    · obtain ⟨y, t, hexec, hy, hheld, hn⟩ := hseq hs h0
      obtain ⟨rest, w, hz⟩ := retry_resends hy (hn ▸ hlt)
      exact ⟨_, hexec, _, rest, hz, hheld, congrArg (· + 1) hn, congrArg (fun l => l.flatMap Resp.pkts ++ rest) hheld⟩
    · obtain ⟨y, t, hexec, hy, -, hn⟩ := hseq hs h0
      exact ⟨_, hexec, retry_errs hy (hn ▸ hle)⟩
  · have hexec (t : State) (h : (if due ≤ s.now then (s.onCtx qpn (fun c => { c with rnrTimer := none })).resend qpn else s) = t) :
        exec (.rnrTimerExpiry qpn) s = .next t := by
      refine runs.trans (congrArg Host.Outcome.next ?_)
      rw [hc]
      dsimp only
      rw [hd]
      exact h
    refine ⟨fun hlt => hexec _ (if_neg (by omega)), fun hle => ?_⟩
    obtain ⟨rest, w, hx⟩ := resend_ctx (ctx_onCtx_some hc (fun c => { c with rnrTimer := none }))
    exact ⟨_, hexec _ (if_pos hle), _, rest, hx, rfl, rfl, rfl⟩
  · have hexec (t : State) (h : (if due ≤ s.now ∧ c.state = .rts then s.retry qpn else s) = t) : exec (.responseRetransmit qpn) s = .next t := by
      refine runs.trans (congrArg Host.Outcome.next ?_)
      rw [hc]
      dsimp only
      rw [hd]
      exact h
    refine ⟨fun hlt => hexec _ (if_neg (by omega)), fun hle hr => ?_, fun hle hr => ⟨_, hexec _ (if_pos ⟨hle, hs⟩), retry_errs hc hr⟩⟩
    obtain ⟨rest, w, hx⟩ := retry_resends hc hr
    exact ⟨_, hexec _ (if_pos ⟨hle, hs⟩), _, rest, hx, rfl, rfl, rfl⟩

end

section
/-! SUPPORT. Administration by certificates (R258, R260, R285, R298, R398): what an accepted or refused MANAGE command answers and leaves
of the state in which it ended, and what the administered tables read then. -/

namespace Sys2Proof.Machine

variable {s : State}

/-! ## The answer of a MANAGE command -/

/-- A response changes of the transport the contexts alone. -/
theorem respond_others (h : ExtHdr) (op variant : Nat) (code : Code) (aux : Nat) (body : RespBody) (s : State) :
    (s.respond h op variant code aux body).xpt.others = s.xpt.others := by
  unfold State.respond State.sendMessage
  repeat' split
  all_goals rfl

/-- A MANAGE command runs on the state of its admission, where its queue pair is in RTS. -/
theorem managed_inRts {h : ExtHdr} {cmd : Instr} {variant kind : Nat} {parses : Bool} {c : Cert} {busy : State → Code} {s2 : State}
    (e : managed h cmd variant kind parses c busy s = some s2) : s2.inRts h.pkt.qpn := by
  obtain ⟨⟨x, y⟩, ha, rfl⟩ := Option.map_eq_some_iff.mp e
  exact admit_inRts ha

theorem managed_runs {h : ExtHdr} {cmd : Instr} {variant kind : Nat} {parses : Bool} {c : Cert} {busy : State → Code} {s2 : State}
    {run : State → Code × RespBody × State} (e : managed h cmd variant kind parses c busy s = some s2) (hs : s2.serialIs c ≠ .same) :
    s.manage h cmd variant kind parses c busy run = (match (run s2).1 with
      | .ok => ((run s2).2.2.acceptCert c).respond h 10 variant .ok 0 (run s2).2.1
      | code => (run s2).2.2.respond h 10 variant code 0 .none) := by
  obtain ⟨⟨x, y⟩, ha, rfl⟩ := Option.map_eq_some_iff.mp e
  unfold State.manage
  dsimp only
  rw [extended_of_admit ha]
  exact if_neg hs

section answers
variable {h : ExtHdr} {cmd : Instr} {variant kind : Nat} {parses : Bool} {c : Cert} {busy : State → Code} {s2 s3 : State}
  {run : State → Code × RespBody × State} {body : RespBody} {Q : State → Prop}

/-- One that ends OK is answered with its body; transport (but for contexts), ports, slices and security stay as the command left them. -/
theorem managed_accepts (hexec : exec cmd s = .next (s.manage h cmd variant kind parses c busy run))
    (e : managed h cmd variant kind parses c busy s = some s2) (hs : s2.serialIs c ≠ .same) (hr : run s2 = (.ok, body, s3))
    (h3 : s3.inRts h.pkt.qpn) (hq : ∀ t, lastResponse t h.pkt.qpn = some (10, variant, .ok, body) → t.xpt.others = s3.xpt.others →
      t.eth = s3.eth → t.sch = s3.sch → t.sec = s3.sec → Q t) : Does cmd s Q := by
  refine ⟨(s3.acceptCert c).respond h 10 variant .ok 0 body, ?_, hq _ (respond_last (State.acceptCert_keeps (rts_closed _ rfl rfl) h3)) ?_ ?_ ?_ ?_⟩
  · rw [hexec, managed_runs e hs, hr]
  · rw [respond_others]
    exact congrArg Xpt.others (State.acceptCert_keeps (xpt_closed s3.xpt rfl rfl rfl) rfl)
  · exact respond_frame (eth_closed s3.eth rfl rfl) (State.acceptCert_keeps (eth_closed s3.eth rfl rfl) rfl)
  · exact respond_frame (sch_closed s3.sch rfl rfl) (State.acceptCert_keeps (sch_closed s3.sch rfl rfl) rfl)
  · exact respond_frame (sec_closed s3.sec rfl rfl) (State.acceptCert_keeps (sec_closed s3.sec rfl rfl) rfl)

/-- One that ends with a code of its own is answered with it, and only the queue pair's context differs. -/
theorem managed_refuses {code : Code} (hexec : exec cmd s = .next (s.manage h cmd variant kind parses c busy run))
    (e : managed h cmd variant kind parses c busy s = some s2) (hs : s2.serialIs c ≠ .same) (hr : run s2 = (code, body, s2)) (hc : code ≠ .ok)
    (hq : ∀ t, lastResponse t h.pkt.qpn = some (10, variant, code, .none) → t.xpt.others = s2.xpt.others → t.ras = s2.ras →
      t.eth = s2.eth → t.sch = s2.sch → Q t) : Does cmd s Q := by
  refine ⟨s2.respond h 10 variant code 0 .none, ?_, hq _ (respond_last (managed_inRts e)) (respond_others ..) ?_ ?_ ?_⟩
  · rw [hexec, managed_runs e hs, hr]
    cases code
    case ok => exact absurd rfl hc
    all_goals rfl
  · exact respond_frame (ras_closed s2.ras rfl rfl) rfl
  · exact respond_frame (eth_closed s2.eth rfl rfl) rfl
  · exact respond_frame (sch_closed s2.sch rfl rfl) rfl

end answers

/-! ## Keys (R258, R261) -/

/-- The tables of a kind depend on the transport without its contexts. -/
theorem keysOf_of_others {t : State} (h : t.xpt.others = s.xpt.others) (kind : Nat) : t.keysOf kind = s.keysOf kind ∧ t.gensOf kind = s.gensOf kind := by
  have hk := congrArg (fun x : Xpt => if kind = 0 then x.regionKeys else x.serviceKeys) h
  have hg := congrArg (fun x : Xpt => if kind = 0 then x.regionGens else x.serviceGens) h
  exact ⟨hk, hg⟩

/-- A key that is stored reads back, with its generation. -/
theorem putKey_stored (kind i : Nat) (e : KeyEnt) (g : GenState) (s : State) :
    ((s.putKey kind i e g).keysOf kind).get? i = some e ∧ ((s.putKey kind i e g).gensOf kind).getD i {} = g := by
  unfold State.putKey State.keysOf State.gensOf
  rw [State.onXpt_xpt]
  split
  · exact ⟨Tbl.get?_set_same .., Tbl.getD_set_same ..⟩
  · exact ⟨Tbl.get?_set_same .., Tbl.getD_set_same ..⟩

/-- Every kind but 0 has the tables of service keys. -/
theorem keysOf_service {kind : Nat} (h : kind ≠ 0) (s : State) : s.keysOf kind = s.keysOf 1 ∧ s.gensOf kind = s.gensOf 1 :=
  ⟨if_neg h, if_neg h⟩

/-- In `t` the key that was created in `s` stands in its table, under the generation that its index takes. -/
def State.KeyStands (s t : State) (slice : Nat) (k : KeyParams) (key : Nat) : Prop :=
  ∃ i e, s.keyIndexFor slice k = some i ∧ key = mkKey k.kind i (s.nextGen k.kind i).gen ∧ (t.keysOf k.kind).get? i = some e ∧
    e.slice = slice ∧ e.group = k.group ∧ e.rights = k.rights ∧ (t.gensOf k.kind).getD i {} = s.nextGen k.kind i

theorem keyStands_putKey {slice i kind : Nat} {k : KeyParams} {e : KeyEnt} {u : State} (hi : s.keyIndexFor slice k = some i)
    (he : e.slice = slice ∧ e.group = k.group ∧ e.rights = k.rights) (hk : ∀ t : State, t.keysOf k.kind = t.keysOf kind ∧ t.gensOf k.kind = t.gensOf kind) :
    s.KeyStands (u.putKey kind i e (s.nextGen k.kind i)) slice k (mkKey k.kind i (s.nextGen k.kind i).gen) := by
  obtain ⟨hkey, hgen⟩ := putKey_stored kind i e (s.nextGen k.kind i) u
  refine ⟨i, e, hi, rfl, ?_, he.1, he.2.1, he.2.2, ?_⟩
  · rw [(hk _).1, hkey]
  · rw [(hk _).2, hgen]

theorem keyStands_createKey {slice : Nat} {k : KeyParams} {r : Nat × Nat} {t : State} (h : s.createKey slice k = .ok (r, t)) :
    s.KeyStands t slice k r.1 := by
  unfold State.createKey at h
  split at h
  · cases h
  · split at h
    · cases h
    · split at h
      · cases h
      · next i hi =>
        dsimp only at h
        split at h
        · next hk =>
          have region (t : State) : t.keysOf k.kind = t.keysOf 0 ∧ t.gensOf k.kind = t.gensOf 0 := by rw [hk]; exact ⟨rfl, rfl⟩
          split at h
          · cases h
            exact keyStands_putKey hi ⟨rfl, rfl, rfl⟩ region
          · split at h
            · cases h
            · cases h
              exact keyStands_putKey hi ⟨rfl, rfl, rfl⟩ region
        · next hk =>
          cases h
          exact keyStands_putKey hi ⟨rfl, rfl, rfl⟩ (keysOf_service hk)

/-- A key removed is gone from its table. -/
theorem removeKey_gone {slice key : Nat} {t : State} (h : s.removeKey slice key = .ok t) : (t.keysOf (keyKind key)).get? (keyIndex key) = none := by
  unfold State.removeKey at h
  split at h
  · cases h
  · split at h
    · cases h
    · dsimp only at h
      split at h
      · next hk =>
        cases h
        rw [hk]
        exact Tbl.get?_erase_same ..
      · next hk =>
        cases h
        rw [(keysOf_service hk _).1]
        exact Tbl.get?_erase_same ..

/-! ## The isolation table and groups (R260, R285) -/

theorem isolation_of_others {t : State} (h : t.xpt.others = s.xpt.others) : t.xpt.isolation = s.xpt.isolation := by
  have hi := congrArg Xpt.isolation h
  exact hi

theorem burstCap_nonneg (e : GroupCfg) (num : Nat) : 0 ≤ burstCap e num := Int.natCast_nonneg _

/-- A group that is set has its new entry, and no more tokens than its burst. -/
theorem setGroup_set (g : Nat) (e : GroupCfg) (s : State) : ((s.setGroup g e).group g).cfg = e ∧ ((s.setGroup g e).group g).tokens ≤ burstCap e 16 := by
  unfold State.setGroup
  extract_lets opens t
  have ht : (t.group g).cfg = e ∧ (t.group g).tokens ≤ burstCap e 16 := by
    unfold t
    rw [group_onGroup]
    exact ⟨rfl, Int.min_le_right ..⟩
  clear_value t
  split
  · obtain ⟨b, r, h⟩ := refill_eq t.now (t.group g)
    unfold State.startRamp State.refillGroup
    rw [group_onGroup, group_onGroup, h]
    exact ⟨ht.1, Int.le_trans (Int.min_le_right b 0) (burstCap_nonneg e 16)⟩
  · exact ht

end Sys2Proof.Machine
end

section
/-! The statement on administration. -/

open Sys2Proof Sys2Proof.Machine

/-- Settles O31: each command is a MANAGE command (`managed_accepts`, `managed_refuses`); what it does on the state of its admission is a
key created (`keyStands_createKey`) or removed (`removeKey_gone`), a table set, a group set (`setGroup_set`), rows read, or a manifest
that passes the checks of R398. -/
theorem administrationTakesEffect : Obligations.AdministrationTakesEffect := by
  unfold Obligations.AdministrationTakesEffect
  intro h c slice s s2 hrun hs
  have runs {f : State → State} : Host.Outcome.next (s.whenUp f) = (.next (f s) : Host.Outcome State Fault Refusal) :=
    congrArg Host.Outcome.next (whenUp_running hrun)
  refine ⟨fun k r s3 e hk => ?_, fun key s3 e hk => ?_, fun index entryValid x e => ?_, fun group gClass x e => ?_,
    fun port first count e => ?_, fun m e hok hsig hnew => ?_⟩
  · refine managed_accepts runs e hs (body := .key r.1 r.2) (s3 := s3) (by simp only [hk])
      (State.createKey_ok (rts_closed _ rfl rfl) (managed_inRts e) hk) fun t hlast hx _ _ _ => ⟨hlast, ?_⟩
    rw [(keysOf_of_others hx _).1, (keysOf_of_others hx _).2]
    exact keyStands_createKey hk
  · refine managed_accepts runs e hs (body := .none) (s3 := s3) (by simp only [hk])
      (State.removeKey_ok (rts_closed _ rfl rfl) (managed_inRts e) hk) fun t hlast hx _ _ _ => ⟨hlast, ?_⟩
    rw [(keysOf_of_others hx _).1]
    exact removeKey_gone hk
  · intro iso
    by_cases hrule : s2.queueRule iso (fun g => (s2.group g).cfg) = true
    · simp only [if_pos hrule]
      refine managed_accepts runs e hs (body := .none) (s3 := s2.onXpt (fun x => { x with isolation := iso })) (if_pos hrule)
        (show s2.inRts h.pkt.qpn from managed_inRts e) fun t hlast hx _ _ _ => ⟨isolation_of_others hx, hlast⟩
    · simp only [if_neg hrule]
      exact managed_refuses runs e hs (if_neg hrule) (by decide) fun t hlast hx hras _ _ => ⟨isolation_of_others hx, hras, hlast⟩
  · by_cases hrule : s2.queueRule s2.xpt.isolation (fun g => if g = group then x else (s2.group g).cfg) = true
    · simp only [if_pos hrule]
      have hset := setGroup_set group x s2
      refine managed_accepts runs e hs (body := .none) (if_pos hrule)
        (State.setGroup_keeps (rts_closed _ rfl rfl) (managed_inRts e)) fun t hlast _ heth hsch _ => ?_
      rw [State.group, heth, hsch]
      exact ⟨hset.1, Tbl.getD_set_same .., hset.2, hlast⟩
    · simp only [if_neg hrule]
      exact managed_refuses runs e hs (if_neg hrule) (by decide) fun t hlast _ _ heth hsch => ⟨heth, hsch, hlast⟩
  · refine managed_accepts runs e hs rfl (managed_inRts e) fun t hlast hx _ _ _ => ⟨isolation_of_others hx, hlast⟩
  · have hload : s2.loadManifest m = (.ok, s2.onSec (fun c => { c with manifest := some m })) := if_pos (by simp [hok, hsig, hnew])
    refine managed_accepts runs e hs (body := .none) (s3 := s2.onSec (fun c => { c with manifest := some m })) (by simp only [hload])
      (show s2.inRts h.pkt.qpn from managed_inRts e) fun t hlast _ _ _ hsec => ⟨congrArg Sec.manifest hsec, hlast⟩

end

section
/-! SUPPORT. Long operations (R415, R416, R419, R423): what an operation that has started is, how it ends, what leaves the node by it,
and what the log takes meanwhile. -/

namespace Sys2Proof.Machine

variable {s : State} {id : Nat} {o : LongOp}

/-! ## What has left the node stays -/

theorem mem_emitted_closed (m : Nat) (e : Emit) : Closed m (fun t => e ∈ t.emitted) where
  aon _ _ _ h := h
  ras _ _ _ h := h
  pwr _ _ _ h := h
  sec _ _ _ h := h
  host _ _ _ h := h
  log _ _ _ h := h
  sch _ _ _ h := h
  eng _ _ _ h := h
  nbu _ _ _ _ h := h
  mem _ _ _ _ _ h := h
  cells _ _ _ _ h := h
  home _ _ _ h := h
  locus _ _ _ h := h
  xpt _ _ _ h := h
  eth _ _ _ h := h
  reqs _ _ _ _ h := h
  nextReq _ _ _ h := h
  image _ _ _ h := h
  free _ _ h := h
  emitted _ _ _ h := List.mem_append_left _ h
  drop _ _ h := h
  link _ _ _ _ h := h

/-- A status word is written where the operation's writes are not suppressed and the endpoint is up. -/
theorem writeStatus_emits (hs : o.suppressed = false) (hu : s.hostUp = true) :
    .status o.entry.statusAddr (statusWord o.state o.code o.progress) ∈ (s.writeStatus o).emitted := by
  unfold State.writeStatus
  rw [hs, hu]
  exact State.hostTakes_keeps (mem_emitted_closed _ _) (List.mem_append_right _ List.mem_cons_self)

/-- So are buffer bytes. -/
theorem writeBuffer_emits (hs : o.suppressed = false) (hu : s.hostUp = true) (data : List Byte) :
    .buffer o.entry.bufAddr data ∈ (s.writeBuffer o data).emitted := by
  unfold State.writeBuffer
  rw [hs, hu]
  exact State.hostTakes_keeps (mem_emitted_closed _ _) (List.mem_append_right _ List.mem_cons_self)

/-- Buffer bytes leave the link and the operations as they are. -/
theorem writeBuffer_host (o : LongOp) (data : List Byte) (s : State) :
    (s.writeBuffer o data).hostUp = s.hostUp ∧ (s.writeBuffer o data).host.ops = s.host.ops := by
  unfold State.writeBuffer
  split
  · exact ⟨rfl, rfl⟩
  · exact State.hostTakes_host _ _

/-! ## Start and end -/

/-- An operation but a load has just been started: it stands in the list without progress, and the starting state differs from the one
before in host interface, log, free values and what leaves the node. -/
structure Started (s : State) (id : Nat) (o : LongOp) (s1 : State) : Prop where
  op : s1.op id = some o
  progress : o.progress = 0
  sch : s1.sch = s.sch

theorem started_of_startOp {opcode : Nat} {s1 : State} (hop : opcode ≠ 1) (h : s.startOp opcode id = some (o, s1)) : Started s id o s1 := by
  unfold State.startOp at h
  split at h
  · cases h
  · next x hx =>
    split at h
    · cases h
    · split at h
      · split at h
        · dsimp only at h
          rw [State.setOp_op, hx] at h
          cases h
          exact ⟨by rw [State.setOp_op, hx]; rfl, rfl, State.setOp_keeps (sch_closed _ rfl rfl) rfl⟩
        · cases h
      · split at h
        · next hn => simp [hop] at hn
        · cases h

/-- An operation that starts runs. -/
theorem runOp_starts {opcode : Nat} {s1 : State} {f : LongOp → State → State} (h : s.startOp opcode id = some (o, s1)) :
    s.runOp opcode id f = f o s1 := by
  unfold State.runOp
  rw [h]

theorem endOp_hostUp (id st : Nat) (c : Code) (progress : Nat) (s : State) : (s.endOp id st c progress).hostUp = s.hostUp := by
  unfold State.endOp
  split
  · rfl
  · unfold State.opIrq
    dsimp only
    split
    · exact (State.writeStatus_host _ _).1
    · exact (State.writeStatus_host _ _).1

/-- An operation that ends is off the list, and its last status word is written where it can be. -/
theorem endOp_ends (h : s.op id = some o) (st : Nat) (c : Code) (progress : Nat) : opEnds id o st c progress (s.endOp id st c progress) := by
  refine ⟨?_, fun hs hu => ?_⟩
  · unfold State.endOp
    rw [h]
    dsimp only
    have hops : ∀ (x : LongOp) (t : State), (t.opIrq x).host.ops = t.host.ops := fun x t => by
      unfold State.opIrq
      split <;> rfl
    unfold State.op
    rw [hops, (State.writeStatus_host _ _).2]
    exact Tbl.get?_erase_same ..
  · rw [endOp_hostUp] at hu
    unfold State.endOp
    rw [h]
    exact State.opIrq_keeps (mem_emitted_closed _ _) (writeStatus_emits (o := { o with state := st, code := c, progress := progress }) hs hu)

theorem opDone_ends (h : s.op id = some o) (hp : o.progress = 0) : opEnds id o 4 .ok 0 (s.opDone id) := by
  unfold State.opDone State.opProgress
  rw [h]
  dsimp only
  rw [hp]
  exact endOp_ends h ..

theorem opFail_ends (h : s.op id = some o) (hp : o.progress = 0) (c : Code) : opEnds id o 5 c 0 (s.opFail id c) := by
  unfold State.opFail State.opProgress
  rw [h]
  dsimp only
  rw [hp]
  exact endOp_ends h ..

/-- An operation stands where the host interface is as it was. -/
theorem op_of_ops {t : State} (h : t.host.ops = s.host.ops) (id : Nat) : t.op id = s.op id := congrArg (fun l => l.get? id) h

/-- Bytes are delivered before the operation ends, if they are not suppressed. -/
theorem opDone_delivers (hs : o.suppressed = false) {data : List Byte} (hu : ((s.writeBuffer o data).opDone id).hostUp = true) :
    .buffer o.entry.bufAddr data ∈ ((s.writeBuffer o data).opDone id).emitted := by
  unfold State.opDone at hu ⊢
  rw [endOp_hostUp, (writeBuffer_host o data s).1] at hu
  exact State.endOp_keeps (mem_emitted_closed _ _) (writeBuffer_emits hs hu data)

/-! ## The log meanwhile -/

/-- A log goes on from another by at most `n` entries: what is acknowledged stands, and every entry that is not overwritten. -/
structure Log.GoesOn (n : Nat) (l l' : Log) : Prop where
  ack : l'.ackSeq = l.ackSeq
  le : l.nextSeq ≤ l'.nextSeq
  atMost : l'.nextSeq ≤ l.nextSeq + n
  entries : ∀ q, q < l.nextSeq → l'.nextSeq ≤ q + 65536 → l'.entries.get? q = l.entries.get? q

theorem Log.GoesOn.refl (n : Nat) (l : Log) : Log.GoesOn n l l := ⟨rfl, Nat.le_refl _, Nat.le_add_right .., fun _ _ _ => rfl⟩

theorem Log.GoesOn.trans {a b : Nat} {l l' l'' : Log} (h : Log.GoesOn a l l') (k : Log.GoesOn b l' l'') : Log.GoesOn (a + b) l l'' where
  ack := k.ack.trans h.ack
  le := Nat.le_trans h.le k.le
  atMost := by have := h.atMost; have := k.atMost; omega
  entries q hq hn := (k.entries q (Nat.lt_of_lt_of_le hq h.le) hn).trans (h.entries q hq (Nat.le_trans k.le hn))

theorem raise_log (i : Nat) (s : State) : (s.raise i).log = s.log := State.raise_keeps (log_closed _ rfl rfl) rfl

theorem goesOn_logPut (e : LogEntry) (s : State) : Log.GoesOn 1 s.log (s.logPut e).log := by
  have hlog : (s.logPut e).log.entries = (if 65536 ≤ s.log.nextSeq then s.log.entries.erase (s.log.nextSeq - 65536) else s.log.entries).set s.log.nextSeq e ∧
      (s.logPut e).log.nextSeq = s.log.nextSeq + 1 ∧ (s.logPut e).log.ackSeq = s.log.ackSeq := by
    unfold State.logPut State.logIrq
    dsimp only
    split
    · rw [raise_log]
      exact ⟨rfl, rfl, rfl⟩
    · exact ⟨rfl, rfl, rfl⟩
  obtain ⟨hent, hnext, hack⟩ := hlog
  refine ⟨hack, by omega, by omega, fun q hq hn => ?_⟩
  rw [hent, Tbl.get?_set_other _ _ (by omega)]
  split
  · exact Tbl.get?_erase_other _ (by omega)
  · rfl

/-- What the host takes or rejects is one entry at most (R419). -/
theorem goesOn_hostTakes (o : LongOp) (s : State) : Log.GoesOn 1 s.log (s.hostTakes o).log := by
  unfold State.hostTakes State.dmaError State.ringError
  dsimp only
  split
  · exact Log.GoesOn.refl 1 s.log
  · rw [State.onHost_log, raise_log]
    exact goesOn_logPut _ s.bump

theorem goesOn_writeStatus (o : LongOp) (s : State) : Log.GoesOn 1 s.log (s.writeStatus o).log := by
  unfold State.writeStatus
  split
  · exact Log.GoesOn.refl 1 s.log
  · exact goesOn_hostTakes o (s.emit _)

theorem goesOn_writeBuffer (o : LongOp) (data : List Byte) (s : State) : Log.GoesOn 1 s.log (s.writeBuffer o data).log := by
  unfold State.writeBuffer
  split
  · exact Log.GoesOn.refl 1 s.log
  · exact goesOn_hostTakes o (s.emit _)

theorem goesOn_setOp (id st : Nat) (c : Code) (progress : Nat) (s : State) : Log.GoesOn 1 s.log (s.setOp id st c progress).log := by
  unfold State.setOp
  split
  · exact Log.GoesOn.refl 1 s.log
  · exact goesOn_writeStatus _ (s.onHost _)

theorem goesOn_endOp (id st : Nat) (c : Code) (progress : Nat) (s : State) : Log.GoesOn 1 s.log (s.endOp id st c progress).log := by
  unfold State.endOp
  split
  · exact Log.GoesOn.refl 1 s.log
  · have hirq : ∀ (x : LongOp) (t : State), (t.opIrq x).log = t.log := fun x t => State.opIrq_keeps (log_closed _ rfl rfl) rfl
    dsimp only
    rw [hirq]
    exact goesOn_writeStatus _ (s.onHost _)

/-! ## Delivery (R414) -/

/-- A delivery ends the operation with its units. -/
theorem deliver_ends (h : s.op id = some o) (units : Nat) (data : List Byte) (code : Code) : opEnds id o 4 code units (s.deliver id o units data code) := by
  unfold State.deliver
  dsimp only
  split
  · exact endOp_ends h ..
  · have hop : ((s.writeBuffer o data).setOp id 3 .ok units).op id = some { o with state := 3, code := .ok, progress := units } := by
      rw [State.setOp_op, op_of_ops (writeBuffer_host o data s).2, h]
      rfl
    exact endOp_ends hop ..

/-- Units that are not none are delivered. -/
theorem deliver_emits {units : Nat} {data : List Byte} {code : Code} (hn : units ≠ 0) (hs : o.suppressed = false)
    (hu : (s.deliver id o units data code).hostUp = true) : .buffer o.entry.bufAddr data ∈ (s.deliver id o units data code).emitted := by
  unfold State.deliver at hu ⊢
  rw [if_neg hn] at hu ⊢
  rw [endOp_hostUp, State.setOp_hostUp, (writeBuffer_host o data s).1] at hu
  exact State.endOp_keeps (mem_emitted_closed _ _) (State.setOp_keeps (mem_emitted_closed _ _) (writeBuffer_emits hs hu data))

theorem goesOn_deliver (units : Nat) (data : List Byte) (code : Code) : Log.GoesOn 3 s.log (s.deliver id o units data code).log := by
  unfold State.deliver
  dsimp only
  split
  · exact (Log.GoesOn.refl 2 s.log).trans (goesOn_endOp ..)
  · exact ((goesOn_writeBuffer o data s).trans (goesOn_setOp ..)).trans (goesOn_endOp ..)

end Sys2Proof.Machine
end

section
/-! SUPPORT. A format changes nothing in the size of a drive (R228, R400), and an unlock is judged as the obligation on it says (R401). -/

namespace Sys2Proof.Machine

variable {s : State} {k slice : Nat} {n : PageName}

/-! ## The size of drives -/

/-- The granules of a drive. -/
def State.driveSize (k : Nat) (s : State) : Option Nat := (s.mem.drives.get? k).map Drive.granules

theorem driveSize_congr {t : State} (h : t.mem.drives = s.mem.drives) : t.driveSize k = s.driveSize k := by
  unfold State.driveSize
  rw [h]

theorem driveSize_onDrive {d : Nat} {g : Drive → Drive} (hg : ∀ y, (g y).granules = y.granules) : (s.onDrive d g).driveSize k = s.driveSize k := by
  unfold State.driveSize State.onDrive
  rw [State.onMem_mem]
  dsimp only
  rw [Tbl.get?_modify]
  split
  · next hk =>
    rw [hk, Option.map_map]
    exact congrArg (fun f => (s.mem.drives.get? d).map f) (funext hg)
  · rfl

theorem driveSize_clearMark : s.clearMark.driveSize k = s.driveSize k := by
  unfold State.clearMark
  split
  · unfold State.driveSize
    exact (congrArg (Option.map Drive.granules) (Tbl.get?_mapValues s.mem.drives (fun d => { d with mark := false }))).trans (Option.map_map ..)
  · rfl

theorem driveSize_onEntry {f : Entry → Entry} : (s.onEntry slice n f).driveSize k = s.driveSize k := driveSize_clearMark

theorem driveSize_bumpGen {r : Bool} : (s.bumpGen slice n r).driveSize k = s.driveSize k := by
  unfold State.bumpGen
  split
  · rfl
  · dsimp only
    have hm (g : Nat) (f : Entry → Entry) :
        (((s.onEntry slice n f).accGen slice n r g).revokeGrants slice n).clearMark.driveSize k = s.driveSize k := by
      rw [driveSize_clearMark, driveSize_congr (congrArg Mem.drives (State.revokeGrants_keeps (mem_closed _ rfl rfl rfl) rfl)),
        driveSize_congr drives_accGen, driveSize_onEntry]
    split
    · rw [← hm, driveSize_congr (congrArg Mem.drives (State.onReplica_keeps (mem_closed _ rfl rfl rfl) rfl)),
        driveSize_congr (congrArg Mem.drives (State.tellReplicas_keeps (mem_closed _ rfl rfl rfl) rfl))]
    · exact hm _ _

theorem driveSize_retireUnit (q : Nat) (place : Nat × Nat) (m : Nat) : (s.retireUnit q place m).driveSize k = s.driveSize k := by
  unfold State.retireUnit State.retire
  exact (driveSize_congr rfl).trans driveSize_clearMark

theorem driveSize_retireShadow : (s.retireShadow slice n).driveSize k = s.driveSize k := by
  unfold State.retireShadow
  split
  · rfl
  · split
    · rw [driveSize_onEntry, driveSize_retireUnit]
    · rfl

theorem driveSize_lostFlash (e : Entry) : (s.lostFlash e).driveSize k = s.driveSize k := by
  unfold State.lostFlash
  split
  · rw [driveSize_bumpGen, driveSize_onEntry, driveSize_retireShadow]
  · unfold State.dropCmds
    rw [driveSize_onEntry, driveSize_retireShadow]
    exact driveSize_onDrive fun _ => rfl
  · rw [driveSize_congr (congrArg Mem.drives (State.writeSlots_keeps (mem_closed _ rfl rfl rfl) rfl)), driveSize_bumpGen, driveSize_onEntry,
      driveSize_retireUnit]
    rfl
  · rw [driveSize_bumpGen, driveSize_onEntry]

/-! ## A format (R400) -/

/-- A drive that is formatted carries this node's header, and keeps its size. -/
theorem formatDrive_formats {d : Nat} {x : Drive} (h : s.mem.drives.get? d = some x) :
    ∃ y, (s.formatDrive d).mem.drives.get? d = some y ∧ y.formatted = true ∧ y.headerNode = s.nodeId ∧ y.foreign = false ∧
      y.outOfUse = false ∧ y.granules = x.granules := by
  unfold State.formatDrive
  extract_lets dead t
  have hsch : t.sch = s.sch := keep_foldl (P := fun t => t.sch = s.sch) (fun _ _ h => State.lostFlash_keeps (sch_closed _ rfl rfl) h) rfl
  have hsize : t.clearMark.driveSize d = some x.granules := by
    rw [driveSize_clearMark]
    exact keep_foldl (P := fun t => t.driveSize d = some x.granules) (fun _ _ h => (driveSize_lostFlash _).trans h)
      (congrArg (Option.map Drive.granules) h)
  clear_value t
  obtain ⟨y, hy, hg⟩ := Option.map_eq_some_iff.mp hsize
  exact ⟨_, get_onDrive hy, rfl, congrArg (fun c => c.node.nodeId) hsch, rfl, rfl, hg⟩

/-! ## Slices that are in no use -/

/-- No slice passes a test that an absent one, or one not named, does not pass. -/
theorem any_slices_false {q : SliceS → Bool} {p : SliceS → Prop} (hq : ∀ x, p x → q x = false)
    (h : ∀ x ∈ s.sch.slices, x.state = .absent ∨ p x) : s.sch.slices.any (fun x => x.state ≠ .absent && q x) = false := by
  rw [List.any_eq_false]
  intro x hx
  rcases h x hx with ha | hp
  · simp [ha]
  · simp [hq x hp]

/-! ## The manifest and the challenge (R398, R401) -/

/-- A manifest that is not well formed, and repeats no serial, is refused and logged. -/
theorem loadManifest_refuses {m : Manifest} (hm : manifestOk m = false) (hx : ∀ x, s.sec.manifest = some x → x.serial ≠ m.serial) :
    s.loadManifest m = (.rightsFault, s.logEvent 94 0x0405 0xff Code.rightsFault.num 0xff m.serial 0) := by
  unfold State.loadManifest
  rw [if_neg (by simp [hm])]
  refine if_neg ?_
  cases he : s.sec.manifest with
  | none => simp
  | some x => simp [hx x he]

end Sys2Proof.Machine
end

section
/-! SUPPORT. The body of each long operation of `Obligations.NodeOperations`, on the state of its start. -/

namespace Sys2Proof.Machine

open Sys2Proof

/-- A long operation that starts on a running node is what its body makes of the state of its start. -/
theorem longOp_does {c : Instr} {opcode op : Nat} {s s1 : State} {o : LongOp} {f : LongOp → State → State} {Q : State → Prop}
    (hexec : exec c s = .next (s.whenUp (State.runOp opcode op f))) (hrun : s.running = true) (hs : s.startOp opcode op = some (o, s1))
    (hQ : Q (f o s1)) : Does c s Q :=
  ⟨f o s1, hexec.trans (congrArg Host.Outcome.next ((whenUp_running hrun).trans (runOp_starts hs))), hQ⟩

theorem opDone_sec (id : Nat) (s : State) : (s.opDone id).sec = s.sec := State.opDone_keeps (sec_closed _ rfl rfl) rfl
theorem opFail_sec (id : Nat) (c : Code) (s : State) : (s.opFail id c).sec = s.sec := State.opFail_keeps (sec_closed _ rfl rfl) rfl
theorem opDone_xpt (id : Nat) (s : State) : (s.opDone id).xpt = s.xpt := State.opDone_keeps (xpt_closed _ rfl rfl rfl) rfl
theorem opFail_xpt (id : Nat) (c : Code) (s : State) : (s.opFail id c).xpt = s.xpt := State.opFail_keeps (xpt_closed _ rfl rfl rfl) rfl

section started

variable {op : Nat} {s s1 : State} {o : LongOp} (h0 : Started s op o s1)
include h0

/-- An operation that started is done, whatever its body did outside the host's operations. -/
theorem Started.done {t : State} (h : t.host.ops = s1.host.ops) : opEnds op o 4 .ok 0 (t.opDone op) :=
  opDone_ends ((op_of_ops h op).trans h0.op) h0.progress

theorem Started.fails {t : State} (h : t.host.ops = s1.host.ops) (c : Code) : opEnds op o 5 c 0 (t.opFail op c) :=
  opFail_ends ((op_of_ops h op).trans h0.op) h0.progress c

/-- An operation is refused and the refusal is logged. -/
theorem Started.refuses {t : State} (h : t.host.ops = s1.host.ops) (c : Code) (island event slice status arg0 arg1 arg2 : Nat) :
    opEnds op o 5 c 0 ((t.logEvent island event slice status arg0 arg1 arg2).opFail op c) ∧
      ((t.logEvent island event slice status arg0 arg1 arg2).opFail op c).sec = t.sec :=
  ⟨h0.fails ((State.logPut_host _ t).2.trans h) c, (opFail_sec ..).trans (State.logEvent_keeps (sec_closed _ rfl rfl) rfl)⟩

/-- Bytes are delivered and the operation is done. -/
theorem Started.delivers {t : State} (h : t.host.ops = s1.host.ops) (data : List Byte) :
    opEnds op o 4 .ok 0 ((t.writeBuffer o data).opDone op) := h0.done ((writeBuffer_host o data t).2.trans h)

/-- A challenge is put in its register and delivered (R401). -/
theorem Started.challenges (v : Nat) {t : State} (ht : t = ((s1.onSec (fun c => { c with challenge := some v })).bump.writeBuffer o (leBytes 64 v)).opDone op) :
    t.sec.challenge = some v ∧ opEnds op o 4 .ok 0 t ∧
      (o.suppressed = false → t.hostUp = true → .buffer o.entry.bufAddr (leBytes 64 v) ∈ t.emitted) := by
  generalize hu : (s1.onSec (fun c => { c with challenge := some v })).bump = u at ht
  have hops : u.host.ops = s1.host.ops := by rw [← hu, State.bump_host, State.onSec_host]
  have hsec : (u.writeBuffer o (leBytes 64 v)).sec = u.sec := State.writeBuffer_keeps (sec_closed _ rfl rfl) rfl
  subst ht
  refine ⟨?_, h0.delivers hops _, fun hsup hup => opDone_delivers hsup hup⟩
  rw [opDone_sec, hsec, ← hu, State.bump_sec, State.onSec_sec]

end started

end Sys2Proof.Machine
end

section
/-! The statement on the node's long operations. -/

open Sys2Proof Sys2Proof.Machine

/-- Settles O47: an operation that starts is its body on the state of its start (`longOp_does`), where it stands without progress
(`started_of_startOp`); its body changes its own part of the node and ends it (`Started.done`, `Started.fails`, `deliver_ends`). -/
theorem nodeOperations : Obligations.NodeOperations := by
  unfold Obligations.NodeOperations
  intro op s s1 o hrun
  refine ⟨fun hs => ?keyCreate, fun s2 hs hk => ?keyRemove, fun d hs hd hx hpres hfail hfree => ?driveFormat, fun k hs => ?owner,
    fun m hs => ?manifest, fun hs hlo hhi => ?generate, fun hs hlo hhi hfree => ?erase, fun hs => ?challenge, fun k hs => ?unlock,
    fun hs => ?logRead, fun hs => ?catalogue⟩
  case keyCreate =>
    have h0 := started_of_startOp (by decide) hs
    refine ⟨fun hbad => longOp_does rfl hrun hs ?_, fun r s2 hok hk => longOp_does rfl hrun hs ?_⟩
    · rw [if_pos (by rw [hbad]; rfl)]
      exact ⟨h0.fails rfl _, opFail_xpt ..⟩
    · rw [if_neg (by rw [hok]; decide)]
      simp only [hk]
      have hhost : s2.host = s1.host := State.createKey_ok (host_closed _ rfl rfl) rfl hk
      exact ⟨h0.delivers (congrArg HostIf.ops hhost) _, (opDone_xpt ..).trans (State.writeBuffer_keeps (xpt_closed _ rfl rfl rfl) rfl),
        fun hsup hup => opDone_delivers hsup hup⟩
  case keyRemove =>
    have h0 := started_of_startOp (by decide) hs
    refine longOp_does rfl hrun hs ?_
    simp only [hk]
    have hhost : s2.host = s1.host := State.removeKey_ok (host_closed _ rfl rfl) rfl hk
    refine ⟨h0.done (congrArg HostIf.ops hhost), ?_⟩
    rw [(keysOf_of_others (congrArg Xpt.others (opDone_xpt op s2)) _).1]
    exact removeKey_gone hk
  case driveFormat =>
    have h0 := started_of_startOp (by decide) hs
    refine longOp_does rfl hrun hs ?_
    have hany := any_slices_false (q := fun c => bit c.cfg.tier.flashDrives (o.entry.param 0 1)) (fun _ h => h) hfree
    simp only [hx, if_neg (show ¬ 15 < o.entry.param 0 1 by omega), if_neg (show ¬ (!d.present || d.failed) = true by rw [hpres, hfail]; decide),
      hany, Bool.false_eq_true, if_false]
    have hhost : (s1.formatDrive (o.entry.param 0 1)).host = s1.host := State.formatDrive_keeps (host_closed _ rfl rfl) rfl
    obtain ⟨y, hy, hf, hn, hrest⟩ := formatDrive_formats hx
    refine ⟨endOp_ends ((op_of_ops (congrArg HostIf.ops hhost) op).trans h0.op) .., y, ?_, hf, hn.trans (congrArg (fun c => c.node.nodeId) h0.sch), hrest⟩
    rw [show ∀ t : State, (t.endOp op 4 .ok (cdiv d.granules 32768)).mem = t.mem from fun t => State.endOp_keeps (mem_closed _ rfl rfl rfl) rfl]
    exact hy
  case owner =>
    have h0 := started_of_startOp (by decide) hs
    refine ⟨longOp_does rfl hrun hs ⟨opFail_sec .., h0.fails rfl _⟩, fun hz => longOp_does rfl hrun hs ?_, fun hz => longOp_does rfl hrun hs ?_⟩
    · simp only [hz, if_true]
      exact ⟨congrArg Sec.ownerHash (opDone_sec ..), h0.done rfl⟩
    · simp only [hz, if_false]
      exact ⟨opFail_sec .., h0.fails rfl _⟩
  case manifest =>
    have h0 := started_of_startOp (by decide) hs
    refine ⟨fun hok hsig hnew => longOp_does rfl hrun hs ?_, fun hbad hx => longOp_does rfl hrun hs ?_⟩
    · have hload : s1.loadManifest m = (.ok, s1.onSec (fun c => { c with manifest := some m })) := if_pos (by simp [hok, hsig, hnew])
      simp only [hload, if_true]
      exact ⟨congrArg Sec.manifest (opDone_sec ..), h0.done rfl⟩
    · simp only [loadManifest_refuses hbad hx, reduceCtorEq, if_false]
      obtain ⟨hends, hsec⟩ := h0.refuses rfl .rightsFault 94 0x0405 0xff Code.rightsFault.num 0xff m.serial 0
      exact ⟨hsec, hends⟩
  case generate =>
    have h0 := started_of_startOp (by decide) hs
    have hslot : ¬ (o.entry.param 0 1 = 0 ∨ 63 < o.entry.param 0 1) := by omega
    refine ⟨fun hnone => longOp_does rfl hrun hs ?_, fun hsome => longOp_does rfl hrun hs ?_⟩
    · simp only [if_neg hslot, hnone, Option.isSome_none, Bool.false_eq_true, if_false]
      refine ⟨?_, h0.done rfl⟩
      rw [opDone_sec, State.bump_sec, State.onSec_sec]
      simp
    · simp only [if_neg hslot, hsome, if_true]
      exact ⟨opFail_sec .., h0.fails rfl _⟩
  case erase =>
    have h0 := started_of_startOp (by decide) hs
    have hslot : ¬ (o.entry.param 0 1 = 0 ∨ 63 < o.entry.param 0 1) := by omega
    have hany := any_slices_false (q := fun x => decide (x.cfg.flashKeySlot = o.entry.param 0 1)) (fun _ h => decide_eq_false h) hfree
    refine longOp_does rfl hrun hs ?_
    simp only [if_neg hslot, hany, Bool.false_eq_true, if_false]
    refine ⟨?_, h0.done rfl⟩
    rw [opDone_sec]
    exact Tbl.get?_erase_same ..
  case challenge =>
    have h0 := started_of_startOp (by decide) hs
    have hv (v n : Nat) : v % 2 ^ n < 2 ^ n := Nat.mod_lt v (Nat.two_pow_pos n)
    obtain ⟨hc, hrest⟩ := h0.challenges (s1.pick Site.challenge 0 % 2 ^ 512) rfl
    exact longOp_does rfl hrun hs ⟨_, hc, hv _ 512, hrest⟩
  case unlock =>
    have h0 := started_of_startOp (by decide) hs
    intro good
    have hgood : (s1.sec.challenge.isSome && s1.sec.ownerHash ≠ 0 && k = s1.sec.ownerHash && !s1.aon.failed.contains 95 &&
        s1.sch.slices.all (fun x => x.state = .absent)) = true ↔ good := by
      simp [good, and_assoc]
    refine ⟨fun h => longOp_does rfl hrun hs ?_, fun h => longOp_does rfl hrun hs ?_⟩
    · simp only [if_pos (hgood.mpr h)]
      exact ⟨congrArg Sec.unlocked (opDone_sec ..), congrArg Sec.challenge (opDone_sec ..), h0.done rfl⟩
    · simp only [if_neg (mt hgood.mp h)]
      generalize hu : s1.onSec (fun c => { c with challenge := none }) = u
      have hops : u.host.ops = s1.host.ops := by rw [← hu, State.onSec_host]
      obtain ⟨hends, hsec⟩ := h0.refuses hops .rightsFault 95 0x0802 0xff Code.rightsFault.num 0 0 0
      rw [hsec, ← hu, State.onSec_sec]
      exact ⟨rfl, rfl, hu ▸ hends⟩
  case logRead =>
    have h0 := started_of_startOp (by decide) hs
    intro lo n
    have hlog (data : List Byte) (c : Code) : Log.GoesOn 3 s1.log (s1.deliver op o n data c).log := goesOn_deliver ..
    exact longOp_does rfl hrun hs ⟨(hlog _ _).ack, (hlog _ _).le, (hlog _ _).atMost, (hlog _ _).entries, deliver_ends h0.op ..,
      fun hn hsup hup => deliver_emits hn hsup hup⟩
  case catalogue =>
    have h0 := started_of_startOp (by decide) hs
    intro l
    refine longOp_does rfl hrun hs ⟨?_, deliver_ends h0.op .., fun hl hsup hup => deliver_emits (fun hn => hl (List.length_eq_zero_iff.mp hn)) hsup hup⟩
    exact State.deliver_keeps (sec_closed _ rfl rfl) rfl

end

section
/-! SUPPORT. Connection management (R255, R257, R267, R269, R270): the number and the place of a new context, datagrams, what opens,
loads and closes. -/

namespace Sys2Proof.Machine

variable {s : State} {q : Nat} {c : Ctx}

/-! ## Numbers and places -/

/-- A free key is free, and not below the first one tried. -/
theorem firstFree_free {α : Type} {t : Tbl α} {n lo : Nat} (h : Tbl.firstFree t n lo = some q) : t.get? q = none ∧ lo ≤ q := by
  induction n generalizing lo with
  | zero => cases h
  | succ n ih =>
    unfold Tbl.firstFree at h
    split at h
    · next hfree =>
      cases h
      exact ⟨Option.isNone_iff_eq_none.mp hfree, Nat.le_refl _⟩
    · exact ⟨(ih h).1, Nat.le_of_succ_le (ih h).2⟩

/-- A number for a new queue pair names no context, and is none of the two that management uses (R248). -/
theorem newQpn_free (h : s.newQpn = some q) : s.ctx q = none ∧ 2 ≤ q := by
  unfold State.newQpn at h
  dsimp only at h
  split at h
  · next p hp =>
    split at h
    · cases h
      exact ⟨(firstFree_free hp).1, Nat.le_trans (Nat.le_add_right ..) (firstFree_free hp).2⟩
    · exact firstFree_free h
  · cases h

/-- A place on die is made by taking a context off it, if at all (R269). -/
theorem roomOnDie_eq {i : Nat} {t : State} (h : s.roomOnDie i = some t) : t = s ∨ ∃ v, t = s.onCtx v (fun c => { c with onDie := false }) := by
  unfold State.roomOnDie at h
  split at h
  · cases h
    exact .inl rfl
  · obtain ⟨v, -, hv⟩ := Option.map_eq_some_iff.mp h
    exact .inr ⟨v, hv.symm⟩

theorem roomOnDie_others {i : Nat} {t : State} (h : s.roomOnDie i = some t) : t.xpt.others = s.xpt.others := by
  rcases roomOnDie_eq h with rfl | ⟨v, rfl⟩
  · rfl
  · rfl

/-- Whether there is a place depends on no connection queue. -/
theorem roomOnDie_cmQueues (m : List (Nat × Nat)) (i : Nat) :
    ((s.onXpt (fun x => { x with cmQueues := m })).roomOnDie i).isSome = (s.roomOnDie i).isSome := by
  have hcount : (s.onXpt (fun x => { x with cmQueues := m })).onDieCount = s.onDieCount := rfl
  have hvictim : (s.onXpt (fun x => { x with cmQueues := m })).victim i = s.victim i := rfl
  unfold State.roomOnDie
  rw [hcount, hvictim]
  split
  · rfl
  · rw [Option.isSome_map, Option.isSome_map]

/-! ## What is sent and what is logged leaves the transport as it is -/

@[simp] theorem sendCm_xpt (port addr : Nat) (b : TxBody) (s : State) : (s.sendCm port addr b).xpt = s.xpt :=
  State.sendCm_keeps (xpt_closed s.xpt rfl rfl rfl) rfl

theorem logEvent_xpt (a b c d e f g : Nat) (s : State) : (s.logEvent a b c d e f g).xpt = s.xpt :=
  State.logEvent_keeps (xpt_closed s.xpt rfl rfl rfl) rfl

/-! ## REQ and REP (R255, R257) -/

/-- An accepted requester has an identity, and it is not fenced. -/
theorem cmAccept_rid {r : CmReq} {e : IsoEntry} (h : s.cmAccept r = some e) :
    ridOf e r.src ≤ 262143 ∧ inRanges s.ras.reqFences (ridOf e r.src) = false := by
  unfold State.cmAccept at h
  split at h
  · cases h
  · next x hx =>
    dsimp only at h
    split at h
    · cases h
    · next hbad =>
      simp only [Bool.or_eq_true, decide_eq_true_eq, not_or, Bool.not_eq_true, Nat.not_lt] at hbad
      obtain ⟨⟨hrid, hfence⟩, -⟩ := hbad
      have he : x = e := by
        split at h
        · split at h
          · exact Option.some.inj h
          · cases h
        · split at h
          · exact Option.some.inj h
          · cases h
      exact he ▸ ⟨hrid, hfence⟩

section request

variable {r : CmReq}

/-- A REQ on a port without link, or to a full queue, is dropped. -/
theorem cmReq_drops (h : (s.eth.ports.getD r.port {}).linkUp = false ∨
    4096 ≤ (cmQueueAt s.now (s.xpt.cmQueues.getD (s.engineOf r.port) (0, 0))).1) :
    s.cmReq r = s := by
  refine if_pos ?_
  rw [Bool.or_eq_true]
  exact h.imp (fun hl => by rw [hl]; rfl) decide_eq_true

variable (hl : (s.eth.ports.getD r.port {}).linkUp = true)
  (hq : ¬ 4096 ≤ (cmQueueAt s.now (s.xpt.cmQueues.getD (s.engineOf r.port) (0, 0))).1)
include hl hq

/-- A REQ that is not acceptable is counted and rejected. -/
theorem cmReq_rejects (ha : s.cmAccept r = none) : ∃ m, (s.cmReq r).xpt = { s.xpt with cmQueues := m } := by
  unfold State.cmReq
  extract_lets engine k u
  rw [if_neg (by rw [hl, Bool.or_eq_true, decide_eq_true_eq]; exact fun h => h.elim (by decide) hq)]
  have ha' : u.cmAccept r = none := ha
  simp only [ha', sendCm_xpt]
  exact ⟨_, rfl⟩

/-- An accepted REQ opens a context in RTR. -/
theorem cmReq_opens {e : IsoEntry} (ha : s.cmAccept r = some e) (hn : s.newQpn = some q) (hroom : (s.roomOnDie r.sliceField).isSome) :
    ∃ x, (s.cmReq r).ctx q = some x ∧ x.state = .rtr ∧ x.remoteQpn = r.remoteQpn ∧ x.rid = ridOf e r.src ∧ x.group = e.group ∧
      x.cls = e.cls ∧ x.slice = r.sliceField ∧ x.ePsn = r.startPsn % 2 ^ 24 ∧ x.resources = min 8 r.resources ∧ x.level = none ∧ x.onDie = true := by
  unfold State.cmReq
  extract_lets engine k u
  rw [if_neg (by rw [hl, Bool.or_eq_true, decide_eq_true_eq]; exact fun h => h.elim (by decide) hq)]
  have ha' : u.cmAccept r = some e := ha
  have hn' : u.newQpn = some q := hn
  have hr : (u.roomOnDie r.sliceField).isSome = true := (roomOnDie_cmQueues _ r.sliceField).trans hroom
  obtain ⟨v, hv⟩ := Option.isSome_iff_exists.mp hr
  simp only [ha', hn', hv]
  refine ⟨_, (ctx_of_xpt (sendCm_xpt ..) q).trans (Tbl.get?_set_same ..), rfl, rfl, rfl, rfl, rfl, rfl, rfl, rfl, rfl, rfl⟩

end request

/-! ## A connection of the node's own (R257) -/

/-- A queue pair in RTR that enters RTS and sends its first message holds it. -/
theorem firstMessage_held {b : TxBody} (hc : s.ctx q = some c) (hr : c.state = .rtr) (hh : c.held = []) :
    ∃ x, ((s.toRts q).sendMessage q 0 2 [] b).ctx q = some x ∧ x.state = .rts ∧ x.cls = c.cls ∧ x.nodeLevel = c.nodeLevel ∧ x.peer = c.peer ∧
      x.remoteQpn = c.remoteQpn ∧ (x.held.flatMap Resp.pkts).head?.map TxPkt.body = some b := by
  obtain ⟨e, he⟩ := toRts_ctx hc
  rw [if_pos hr] at he
  unfold State.sendMessage
  rw [he]
  dsimp only
  rw [if_pos rfl]
  refine ⟨_, ctx_onCtx_some he _, rfl, rfl, rfl, rfl, rfl, ?_⟩
  obtain ⟨m, hm⟩ : ∃ m, packetsOf c.pmtu 2 = m + 1 := ⟨packetsOf c.pmtu 2 - 1, by unfold packetsOf; omega⟩
  simp [hh, hm, List.range_succ_eq_map]

theorem sendMessage_others {queue bytes : Nat} {data : List Byte} {b : TxBody} : (s.sendMessage q queue bytes data b).xpt.others = s.xpt.others := by
  unfold State.sendMessage
  split
  · rfl
  · dsimp only
    split
    · rfl
    · rfl

theorem toRts_others : (s.toRts q).xpt.others = s.xpt.others := by
  unfold State.toRts
  split
  · rfl
  · split
    · rfl
    · rfl

section reply

variable {r : CmRep} {s1 : State} {e : IsoEntry} (hp : s.peerQp r.peer = none) (htry : (s.xpt.peers.get? r.peer).isSome)
  (hcount : s.ctxCount 0xff < 16384) (hl : (s.eth.ports.getD r.port {}).linkUp = true) (hn : s.newQpn = some q)
  (hroom : s.roomOnDie 0xff = some s1) (hi : s.isoMatch r.remoteAddr = some e)
include hp htry hcount hl hn hroom hi

/-- The REP to the node's own REQ: a context in RTR is stored and the peer is no longer tried, then RTU and HELLO go out. -/
theorem cmRep_eq : ∃ (c : Ctx) (u : State), s.cmRep r = ((u.sendCm r.port r.remoteAddr (.cmRtu q)).toRts q).sendMessage q 0 2 [] (.helloReq 1) ∧
    u.ctx q = some c ∧ u.xpt.peers.get? r.peer = none ∧ c.state = .rtr ∧ c.held = [] ∧ c.cls = 2 ∧ c.nodeLevel = true ∧ c.peer = r.peer ∧
    c.remoteQpn = r.remoteQpn := by
  have hgo : ((s.peerQp r.peer).isSome || (s.xpt.peers.get? r.peer).isNone || decide (16384 ≤ s.ctxCount 0xff) ||
      !(s.eth.ports.getD r.port {}).linkUp) = false := by
    obtain ⟨x, hx⟩ := Option.isSome_iff_exists.mp htry
    rw [hp, hx, hl, decide_eq_false (Nat.not_le.mpr hcount)]
    rfl
  unfold State.cmRep
  rw [hgo, if_neg Bool.false_ne_true, hn, hroom, hi]
  exact ⟨_, _, rfl, Tbl.get?_set_same .., Tbl.get?_erase_same .., rfl, rfl, rfl, rfl, rfl, rfl⟩

theorem cmRep_opens : (s.cmRep r).xpt.peers.get? r.peer = none ∧ ∃ x, (s.cmRep r).ctx q = some x ∧ x.state = .rts ∧ x.cls = 2 ∧
    x.nodeLevel = true ∧ x.peer = r.peer ∧ x.remoteQpn = r.remoteQpn ∧ (x.held.flatMap Resp.pkts).head?.map TxPkt.body = some (.helloReq 1) := by
  obtain ⟨c, u, hu, hc, hpeers, hr, hh, hcls, hnode, hpeer, hremote⟩ := cmRep_eq hp htry hcount hl hn hroom hi
  obtain ⟨x, hx, hst, hxc, hxn, hxp, hxr, hfirst⟩ := firstMessage_held (b := .helloReq 1)
    ((ctx_of_xpt (sendCm_xpt r.port r.remoteAddr (.cmRtu q) u) q).trans hc) hr hh
  have hothers := congrArg Xpt.peers ((sendMessage_others (q := q) (queue := 0) (bytes := 2) (data := []) (b := .helloReq 1)).trans
    ((toRts_others (q := q)).trans (congrArg Xpt.others (sendCm_xpt r.port r.remoteAddr (.cmRtu q) u))))
  rw [hu]
  exact ⟨(congrArg (fun x : Tbl PeerTry => x.get? r.peer) hothers).trans hpeers, x, hx, hst, hxc.trans hcls, hxn.trans hnode, hxp.trans hpeer,
    hxr.trans hremote, hfirst⟩

end reply

section connect

variable {peer : Nat}

/-- While a peer has a queue pair, or its time has not come, it is not tried. -/
theorem connectPeer_rests (h : (s.peerQp peer).isSome ∨ s.now < (s.xpt.peers.getD peer {}).due) : s.connectPeer peer = s := by
  refine if_pos ?_
  rw [Bool.or_eq_true]
  exact h.imp_right decide_eq_true

variable (hp : s.peerQp peer = none) (hdue : (s.xpt.peers.getD peer {}).due ≤ s.now)
include hp hdue

theorem connectPeer_due : ((s.peerQp peer).isSome || decide (s.now < (s.xpt.peers.getD peer {}).due)) = false := by
  rw [hp, decide_eq_false (Nat.not_lt.mpr hdue)]
  rfl

/-- The next path is tried, and waits a millisecond for its answer. -/
theorem connectPeer_tries (h : (s.xpt.peers.getD peer {}).next < (s.peerPaths peer).length) : (s.connectPeer peer).xpt.peers.get? peer =
    some { s.xpt.peers.getD peer {} with next := (s.xpt.peers.getD peer {}).next + 1, due := s.now + 1000000 } := by
  unfold State.connectPeer
  dsimp only
  rw [connectPeer_due hp hdue, if_neg Bool.false_ne_true, List.getElem?_eq_getElem h, sendCm_xpt]
  exact Tbl.get?_set_same ..

/-- When every path went unanswered the peer is left alone for a time that doubles, to a second at most. -/
theorem connectPeer_backsOff (h : (s.peerPaths peer).length ≤ (s.xpt.peers.getD peer {}).next) : (s.connectPeer peer).xpt.peers.get? peer =
    some { due := s.now + (s.xpt.peers.getD peer {}).backoff, backoff := min (2 * (s.xpt.peers.getD peer {}).backoff) 1000000000, next := 0 } := by
  unfold State.connectPeer
  dsimp only
  rw [connectPeer_due hp hdue, if_neg Bool.false_ne_true, List.getElem?_eq_none h]
  dsimp only
  rw [State.bump_xpt, logEvent_xpt]
  exact Tbl.get?_set_same ..

end connect

/-! ## A context loads (R269, R270, R297) -/

/-- A context that has come on die at `now` as it was spilled. -/
structure Ctx.Loaded (now : Nat) (c x : Ctx) : Prop where
  onDie : x.onDie = true
  loading : x.loading = false
  discarding : x.discarding = false
  held : x.held = c.held
  ePsn : x.ePsn = c.ePsn
  lastUsed : x.lastUsed = now

theorem Ctx.Loaded.echo {now : Nat} {x : Ctx} (h : Ctx.Loaded now c x) (e : Echo) : Ctx.Loaded now c { x with echo := e } :=
  ⟨h.onDie, h.loading, h.discarding, h.held, h.ePsn, h.lastUsed⟩

/-- The missed updates change nothing but the Echo-rate state. -/
theorem catchUp_loaded {now : Nat} {c' : Ctx} (h : ∃ x, s.ctx q = some x ∧ Ctx.Loaded now c x) :
    ∃ x, (s.catchUp q c').ctx q = some x ∧ Ctx.Loaded now c x := by
  have hecho {t : State} {f : Ctx → Echo} (ht : ∃ x, t.ctx q = some x ∧ Ctx.Loaded now c x) :
      ∃ x, (t.onCtx q (fun c => { c with echo := f c })).ctx q = some x ∧ Ctx.Loaded now c x := by
    obtain ⟨x, hx, hl⟩ := ht
    exact ⟨_, ctx_onCtx_some hx _, hl.echo _⟩
  unfold State.catchUp
  dsimp only
  split
  · exact h
  · exact hecho (keep_foldl (P := fun t => ∃ x, t.ctx q = some x ∧ Ctx.Loaded now c x) (fun t _ ht => hecho ht) h)

theorem ctx_onCtx_other {v : Nat} (h : q ≠ v) (f : Ctx → Ctx) : (s.onCtx v f).ctx q = s.ctx q := (Tbl.get?_modify ..).trans (if_neg h)

/-- Making a place takes a context off die at most. -/
theorem roomOnDie_ctx {i : Nat} {t : State} (hc : s.ctx q = some c) (h : s.roomOnDie i = some t) : ∃ d, t.ctx q = some { c with onDie := d } := by
  rcases roomOnDie_eq h with rfl | ⟨v, rfl⟩
  · exact ⟨_, hc⟩
  · by_cases hv : q = v
    · exact ⟨false, hv ▸ ctx_onCtx_some (hv ▸ hc) _⟩
    · exact ⟨c.onDie, (ctx_onCtx_other hv _).trans hc⟩

/-- A context for which no packet waits is loaded into its place. -/
theorem loadCtx_loads (hc : ∃ d, s.ctx q = some { c with onDie := d }) (hm : ∀ m ∈ s.xpt.missBuf, m.qpn ≠ q) (c' : Ctx) :
    ∃ x, (s.loadCtx q c').ctx q = some x ∧ Ctx.Loaded s.now c x := by
  obtain ⟨d, hd⟩ := hc
  have hmine : s.xpt.missBuf.filter (fun m => m.qpn = q) = [] := List.filter_eq_nil_iff.mpr fun m hmem => by simpa using hm m hmem
  unfold State.loadCtx
  rw [hmine]
  extract_lets _ u
  have hu : u.ctx q = some { c with onDie := d } := hd
  exact catchUp_loaded ⟨_, ctx_onCtx_some hu _, rfl, rfl, rfl, rfl, rfl, rfl⟩

/-! ## Packets that waited too long (R270) -/

/-- A notification packet that waits. -/
def Missed.notifies (m : Missed) : Bool := match m.cmd with
  | .cnpReceived _ _ _ => true
  | _ => false

theorem notifies_false_iff {m : Missed} : m.notifies = false ↔ ∀ k b e, m.cmd ≠ .cnpReceived k b e := by
  unfold Missed.notifies
  split
  · next h => exact ⟨fun h => (Bool.false_ne_true h.symm).elim, fun hn => absurd h (hn _ _ _)⟩
  · next h => exact ⟨fun _ k b e hk => h k b e hk, fun _ => rfl⟩

/-- The packets of a queue pair leave the miss buffer, and the first that waited too long is answered with an RNR NAK. -/
def State.missDrop (q : Nat) (m : Missed) (s : State) : State :=
  ((s.onXpt (fun x => { x with missRnr := inc32 x.missRnr, missBuf := x.missBuf.filter (fun m => m.qpn ≠ q || m.notifies) })).onCtx q
    (fun c => { c with discarding := true })).sendControl q 4 (.rnrNak ((cmdPkt m.cmd).getD {}).psn s.xpt.rnrCode)

theorem missBufferTimeout_eq (hrun : s.running = true) : exec (.missBufferTimeout q) s =
    .next (match (s.xpt.missBuf.filter (fun m => m.qpn = q && !m.notifies)).find? (fun m => m.at_ + 3000 ≤ s.now) with
      | none => s
      | some m => s.missDrop q m) :=
  congrArg Host.Outcome.next (whenUp_running hrun)

theorem missDrop_xpt (m : Missed) : (s.missDrop q m).xpt.missRnr = inc32 s.xpt.missRnr ∧
    (s.missDrop q m).xpt.missBuf = s.xpt.missBuf.filter (fun m => m.qpn ≠ q || m.notifies) := by
  unfold State.missDrop
  rw [sendControl_xpt]
  exact ⟨rfl, rfl⟩

theorem missDrop_ctx (m : Missed) (hc : s.ctx q = some c) : (s.missDrop q m).ctx q = some { c with discarding := true } := by
  unfold State.missDrop
  rw [sendControl_ctx]
  exact ctx_onCtx_some hc _

end Sys2Proof.Machine
end

section
/-! The statement on connections and contexts. -/

open Sys2Proof Sys2Proof.Machine

/-- Settles O35: each command is its body on a running node (`whenUp_running`); REQ and REP open contexts (`cmReq_opens`, `cmRep_opens`) under
free numbers (`newQpn_free`), a peer is tried (`connectPeer_tries`, `connectPeer_backsOff`), a spilled context is loaded (`loadCtx_loads`),
and the rest moves one context. -/
theorem contextsComeAndGo : Obligations.ContextsComeAndGo := by
  unfold Obligations.ContextsComeAndGo
  have runs {s : State} (hrun : s.running = true) {f : State → State} :
      Host.Outcome.next (s.whenUp f) = (.next (f s) : Host.Outcome State Fault Refusal) :=
    congrArg Host.Outcome.next (whenUp_running hrun)
  have rests {s : State} (hrun : s.running = true) {f : State → State} (hf : f s = s) :
      Host.Outcome.next (s.whenUp f) = (.next s : Host.Outcome State Fault Refusal) :=
    (runs hrun).trans (congrArg Host.Outcome.next hf)
  refine ⟨⟨fun r s hrun => ?request, fun r s q s1 e hrun hp htry hcount hl hn hroom hi => ?reply, fun q s c hrun hc => ?moves,
    fun peer s hrun => ?connect⟩,
    fun q s c hrun hc => ?load, fun q s hrun => ?miss⟩
  case request =>
    intro full
    refine ⟨fun h => rests hrun (cmReq_drops h), fun hl hq ha => ⟨_, runs hrun, ?_⟩, fun e q hl hq ha hn hroom => ⟨_, runs hrun, ?_⟩⟩
    · obtain ⟨m, hm⟩ := cmReq_rejects hl hq ha
      rw [hm]
    · obtain ⟨x, hx, hst, hremote, hrid, hgroup, hcls, hslice, hpsn, hres, hlevel, hdie⟩ := cmReq_opens hl hq ha hn hroom
      obtain ⟨hfree, hlow⟩ := newQpn_free hn
      obtain ⟨hle, hfence⟩ := cmAccept_rid ha
      exact ⟨x, hx, hfree, hlow, hst, hremote, hrid, hrid ▸ hle, hrid ▸ hfence, hgroup, hcls, hslice, hpsn, hres, hlevel, hdie⟩
  case reply => exact ⟨_, runs hrun, cmRep_opens hp htry hcount hl hn hroom hi⟩
  case moves =>
    refine ⟨?rtu, ?dreq, ?drep, ?idle, ?flush⟩
    case rtu =>
      split
      · next hr =>
        obtain ⟨e, he⟩ := toRts_ctx hc
        exact ⟨_, runs hrun, Option.map_eq_some_iff.mpr ⟨_, he, if_pos hr⟩⟩
      · next hr =>
        refine rests hrun ?_
        unfold State.toRts
        rw [hc]
        exact if_neg hr
    case dreq =>
      split
      · next he => exact rests hrun (by simp only [hc, if_pos he])
      · next he =>
        refine ⟨_, runs hrun, ?_⟩
        simp only [hc, if_neg he]
        exact qpError_state ((ctx_of_xpt (sendCm_xpt ..) q).trans hc)
    case drep =>
      split
      · next hcl =>
        refine ⟨_, runs hrun, ?_⟩
        simp only [hc, if_pos hcl]
        exact qpError_state hc
      · next hcl => exact rests hrun (by simp only [hc, if_neg hcl])
    case idle =>
      have hiff : (c.nodeLevel = true ∧ c.cls = 2 ∧ (!c.closing) = true ∧ c.state = .rts ∧ c.lastPeer + 60000000000 ≤ s.now) ↔
          (c.nodeLevel = true ∧ c.cls = 2 ∧ c.closing = false ∧ c.state = .rts ∧ c.lastPeer + 60000000000 ≤ s.now) := by
        rw [Bool.not_eq_true']
      split
      · next h =>
        refine ⟨_, runs hrun, ?_⟩
        simp only [hc, if_pos (hiff.mpr h)]
        exact Option.map_eq_some_iff.mpr ⟨_, ctx_onCtx_some ((sendControl_ctx ..).trans hc) _, rfl⟩
      · next h => exact rests hrun (by simp only [hc, if_neg (mt hiff.mp h)])
    case flush =>
      split
      · next he =>
        refine ⟨_, runs hrun, ?_⟩
        simp only [hc, if_pos he]
        exact ⟨Tbl.get?_erase_same .., fun m hm => of_decide_eq_true (List.mem_filter.mp hm).2⟩
      · next he => exact rests hrun (by simp only [hc, if_neg he])
  case connect =>
    exact ⟨fun h => rests hrun (connectPeer_rests h), fun hp hdue => ⟨fun h => ⟨_, runs hrun, connectPeer_tries hp hdue h⟩,
      fun h => ⟨_, runs hrun, connectPeer_backsOff hp hdue h⟩⟩⟩
  case load =>
    refine ⟨fun h => rests hrun ?_, fun hdie hload => ?_⟩
    · have hgo : (c.onDie || !c.loading) = true := by
        rw [Bool.or_eq_true, Bool.not_eq_true']
        exact h
      simp only [hc, hgo, if_true]
    have hgo : (c.onDie || !c.loading) = false := by rw [hdie, hload]; rfl
    refine ⟨fun hlost => ⟨_, runs hrun, ?_⟩, fun hlost hroom => rests hrun ?_, fun hlost hroom hm => ⟨_, runs hrun, ?_⟩⟩
    · simp only [hc, hgo, hlost, Bool.false_eq_true, if_false, if_true]
      exact ⟨Tbl.get?_erase_same .., fun m hm => of_decide_eq_true (List.mem_filter.mp hm).2⟩
    · simp only [hc, hgo, hlost, hroom, Bool.false_eq_true, if_false]
    · obtain ⟨s1, hs1⟩ := Option.isSome_iff_exists.mp hroom
      have hnow : s1.now = s.now := congrArg Aon.now (State.roomOnDie_some (aon_closed s.aon rfl rfl) rfl hs1)
      have hbuf : s1.xpt.missBuf = s.xpt.missBuf := by
        have hothers := congrArg Xpt.missBuf (roomOnDie_others hs1)
        exact hothers
      simp only [hc, hgo, hlost, hs1, Bool.false_eq_true, if_false]
      obtain ⟨x, hx, hl⟩ := loadCtx_loads (roomOnDie_ctx hc hs1) (hbuf.symm ▸ hm) c
      exact ⟨x, hx, hl.onDie, hl.loading, hl.discarding, hl.held, hl.ePsn, hl.lastUsed.trans hnow⟩
  case miss =>
    intro waits
    have hwaits (m : Missed) : (decide (m.qpn = q) && !m.notifies) = true ↔ waits m := by
      rw [Bool.and_eq_true, decide_eq_true_eq, Bool.not_eq_true', notifies_false_iff]
    have hstays (m : Missed) : (decide (m.qpn ≠ q) || m.notifies) = true ↔ ¬ waits m := by
      rw [← hwaits, Bool.and_eq_true, not_and_or, Bool.or_eq_true, decide_eq_true_eq, decide_eq_true_eq, Bool.not_eq_true', Bool.not_eq_false]
    rw [Gives, Does, missBufferTimeout_eq hrun]
    refine ⟨fun h => ?_, fun ⟨m, hm, hw, hdue⟩ => ?_⟩
    · rw [List.find?_eq_none.mpr fun m hm => ?_]
      obtain ⟨hmem, hmine⟩ := List.mem_filter.mp hm
      exact fun hdue => Nat.not_le.mpr (h m hmem ((hwaits m).mp hmine)) (of_decide_eq_true hdue)
    · have hmine : m ∈ s.xpt.missBuf.filter (fun m => decide (m.qpn = q) && !m.notifies) := List.mem_filter.mpr ⟨hm, (hwaits m).mpr hw⟩
      obtain ⟨m', hm'⟩ := Option.isSome_iff_exists.mp (List.find?_isSome (p := fun m : Missed => decide (m.at_ + 3000 ≤ s.now)).mpr
        ⟨m, hmine, decide_eq_true hdue⟩)
      rw [hm']
      obtain ⟨hcount, hbuf⟩ := missDrop_xpt (s := s) (q := q) m'
      have hleft (m : Missed) : m ∈ (s.missDrop q m').xpt.missBuf ↔ m ∈ s.xpt.missBuf ∧ ¬ waits m := by
        rw [hbuf, List.mem_filter, hstays]
      exact ⟨_, rfl, hcount, fun m hm => ((hleft m).mp hm).2, fun m hm hw => (hleft m).mpr ⟨hm, hw⟩,
        fun c hc => Option.map_eq_some_iff.mpr ⟨_, missDrop_ctx m' hc, rfl⟩⟩

end
